-- ==== Sys2Proof/Word.lean ====
section
/-! DEFINITION. The word types of the Uzotrum: a byte, a 64-bit doubleword, a 128-byte row, and the sparse
list that every numbered store of the machine is kept in. -/

namespace Sys2Proof

/-- One byte (00 R7). -/
abbrev Byte := BitVec 8

/-- A doubleword: x, q, g, b and m registers, CSRs and microprogram words. -/
abbrev Dword := BitVec 64

/-- One 128-byte row: a v register of one cluster (09), or one SRF row (03 R78). Byte k of the row is bits
`8k+7 : 8k`, so element 0 stands lowest (00 R7). -/
abbrev Row := BitVec 1024

/-- A sparse store keyed by number, in rising order of the keys. What an unlisted key holds is said by the
reader of the store (`KMap.get`). -/
abbrev KMap (α : Type) := List (Nat × α)

end Sys2Proof
end

