-- ==== Sys2Proof/Syntax.lean ====
section
/-! DEFINITION. The syntax: one constructor of `Instr` per row of spec/opcode_table.json, and the operand shapes
the rows carry. A row is either an instruction word (controller, slot of a bundle, micro-op) or an indivisible step
of the part (spec/95_what_each_step_holds.md); a step's operands name the unit or the message it concerns. -/

namespace Sys2Proof

/-- The fields of a VCT header that a well-formed message carries into its step (02 R42), with the IPv6 address and the UDP port that it came
from, where its answer goes. -/
structure VctHdr where
  vf : Nat
  seq : Nat
  queue : Nat
  tag : Nat
  addr : Nat
  port : Nat
deriving DecidableEq, Repr

/-- A pair of scale-out ports (15 R386): a port of the package, and the IPv6 address of the far one. -/
structure PortPair where
  port : Nat
  far : Nat
deriving DecidableEq, Repr

/-- A UDP datagram of a scale-out frame (15 R386): the port that it goes to and its payload. -/
structure Datagram where
  udp : Nat
  bytes : List Byte
deriving DecidableEq, Repr

/-- A launch record (02 R53). `flags` and `prio` are the raw bytes, since their reserved bits are checked. -/
structure LaunchRec where
  handle : Nat
  tag : Nat
  entry : Nat
  count : Nat
  flags : Nat
  prio : Nat
  mask : Nat
  port : Nat
  reserved : Nat
  addr : Nat
  args : List Dword
deriving DecidableEq, Repr

/-- The fields of a MIGRATE payload (23 R446). -/
structure MigArgs where
  part : Nat
  peerPart : Nat
  peerPkg : Nat
  port : Nat
  id : Nat
deriving DecidableEq, Repr

/-- The fields of a V slot (04 R100), as numbers. `len` is L − 1, `md` the 12-bit modifier, `ms` modsel. -/
structure VSlot where
  pred : Nat
  len : Nat
  vd : Nat
  a : Nat
  b : Nat
  c : Nat
  md : Nat
  ms : Nat
  ty : Nat
  rnd : Nat
deriving DecidableEq, Repr

/-- A packet of the scale-up link, after its header has been read (15 R374, R375). -/
structure Packet where
  op : Nat
  srcPkg : Nat
  dstPkg : Nat
  srcPart : Nat
  dstPart : Nat
  ia : Nat
  engine : Nat
  seq : Nat
  sub : Nat
  status : Nat
  launch : Nat
  rank : Nat
  data : List Byte
  poison : Bool
deriving DecidableEq, Repr

/-- Integer ALU operations of RV64I (06 R131). -/
inductive AluOp | add | sub | sll | slt | sltu | xor | srl | sra | or | and | lui | auipc
deriving DecidableEq, Repr

/-- The second operand of an ALU operation: a register or a sign-extended immediate. -/
inductive RvSrc | reg (n : Nat) | imm (v : Dword)
deriving DecidableEq, Repr

inductive MulOp | mul | mulh | mulhsu | mulhu | mulw
deriving DecidableEq, Repr

inductive DivOp | div | divu | rem | remu
deriving DecidableEq, Repr

inductive LoadKind | lb | lh | lw | ld | lbu | lhu | lwu | flw | fld
deriving DecidableEq, Repr

inductive StoreKind | sb | sh | sw | sd | fsw | fsd
deriving DecidableEq, Repr

inductive BrKind | beq | bne | blt | bge | bltu | bgeu
deriving DecidableEq, Repr

/-- F and D operations other than division and square root. The `i…` and `…i` forms move or convert between the
integer and the floating-point registers; `w l` are 32 and 64 bits, `u` unsigned. -/
inductive FOp
  | add | sub | mul | madd | msub | nmsub | nmadd | sgnj | sgnjn | sgnjx | min | max | eq | lt | le | cls
  | cvtWF | cvtWuF | cvtLF | cvtLuF | cvtFW | cvtFWu | cvtFL | cvtFLu | cvtFF | mvXF | mvFX
deriving DecidableEq, Repr

inductive AmoOp | swap | add | and | or | xor | min | max | minu | maxu
deriving DecidableEq, Repr

inductive CsrOp | rw | rs | rc
deriving DecidableEq, Repr

/-- The rows of spec/opcode_table.json: first the words of the controller and the steps of the part, then the micro-ops
and the slot instructions. `p` is the predicate field of a slot (04 R99), `x` the extension word's high part where the
slot's immediate is widened (04 R97), `c` marks a compressed encoding (06 R131), `sp` a stream processor's number. -/
inductive Instr where
  /-- LAUNCH (R54): A host LAUNCH message is checked and its launch record is queued on a launch queue of the VF. -/
  | launch (h : VctHdr) (r : LaunchRec)
  /-- WRITE (R50): A host WRITE message is checked against the partition's memory and handed to a fabric copy engine of an I/O die. -/
  | write (h : VctHdr) (ia : Nat) (data : List Byte)
  /-- READ (R50): A host READ message is checked and handed to a fabric copy engine, which returns READ_DATA. -/
  | read (h : VctHdr) (ia len : Nat)
  /-- HOST_TRANSFER_COMPLETE (R51): A host WRITE or READ finishes its beats, and its ACK, READ_DATA or NAK CANCELLED is sent. -/
  | hostTransferComplete (id : Nat)
  /-- LOAD (R39): A LOAD message hands a staged UZO object to the loader, which checks it in order, places it and returns LOAD_RESULT. -/
  | load (h : VctHdr) (ia len : Nat)
  /-- UNLOAD (R40): An UNLOAD message stops new launches that name the handle and frees its code once all of its launches have retired. -/
  | unload (h : VctHdr) (handle : Nat)
  /-- CANCEL (R466): A CANCEL message ends every queued or running launch of the VF that carries the tag. -/
  | cancel (h : VctHdr) (tag : Nat)
  /-- ACK (R45): A host ACK acknowledges a part-sent COMPLETE, FAULT, MIGRATE or LOAD_RESULT and stops its retransmission. -/
  | ack (vf seq : Nat)
  /-- VCT_INVALID_MESSAGE (R46): A message with a bad version, reserved bit, length or type is discarded with NAK BAD_MESSAGE, and its sequence number is consumed. -/
  | vctInvalidMessage (h : VctHdr)
  /-- VCT_RETRANSMIT_TIMER (R45): After 100 microseconds without an ACK, a part-sent message is sent again; after 16 tries it is dropped and the lost-message counter rises. -/
  | vctRetransmitTimer (vf seq : Nat)
  /-- PART_CREATE (R48): The CONFIG operation PART_CREATE creates a partition. -/
  | partCreate (h : VctHdr) (part : Nat)
  /-- PART_DESTROY (R48): The CONFIG operation PART_DESTROY destroys a partition that is unused. -/
  | partDestroy (h : VctHdr) (part : Nat)
  /-- PART_SPS (R48): The CONFIG operation PART_SPS sets the SP set of a partition. -/
  | partSps (h : VctHdr) (part mask : Nat)
  /-- PART_MEM (R307): The CONFIG operation PART_MEM adds or removes a linear or paged IA range of a partition. -/
  | partMem (h : VctHdr) (part base len : Nat) (remove : Bool)
  /-- PART_ARENA (R48): The CONFIG operation PART_ARENA sets the size of a partition's code arena. -/
  | partArena (h : VctHdr) (part bytes : Nat)
  /-- VF_BIND (R48): The CONFIG operation VF_BIND binds a VF to a partition. -/
  | vfBind (h : VctHdr) (vf part : Nat)
  /-- VF_UNBIND (R48): The CONFIG operation VF_UNBIND unbinds a VF whose queues and launches are empty. -/
  | vfUnbind (h : VctHdr) (vf : Nat)
  /-- MIGRATE_ACCEPT (R447): The MIGRATE operation ACCEPT prepares a destination partition for a migration and answers ACCEPTED. -/
  | migrateAccept (h : VctHdr) (m : MigArgs)
  /-- MIGRATE_START (R448): The MIGRATE operation START makes the source send a hello packet to the destination. -/
  | migrateStart (h : VctHdr) (m : MigArgs)
  /-- MIGRATE_ABORT (R453): The MIGRATE operation ABORT thaws the source and discards the destination's state, with FAILED ABORTED. -/
  | migrateAbort (h : VctHdr) (m : MigArgs)
  /-- MIGRATE_RELEASE (R449): The MIGRATE operation RELEASE makes the source free the partition's SPs, SRF, shadow slots and slot ownership, then send RELEASED. -/
  | migrateRelease (h : VctHdr) (m : MigArgs)
  /-- PLACEMENT_PASS (R60): The launch engine considers the eligible heads by priority and round-robin order, and starts each head whose resources are free. -/
  | placementPass (part : Nat)
  /-- TASK_TAKE (R68): An idle SP takes the oldest task record from the pools of its groups and starts a context on it. -/
  | taskTake (part : Nat)
  /-- LAUNCH_RELEASE (R463): Once every write of the launch has been performed or has ended, the launch is released at part scope, COMPLETE is sent, and its resources are freed. -/
  | launchRelease (id : Nat)
  /-- PALLOC (R156): Allocates and zero-fills a polder with the given handle, kind and size, claiming victim polders where needed. -/
  | palloc (rd rs1 rs2 : Nat)
  /-- PFREE (R157): Frees a polder handle once no scoreboard entry names it. -/
  | pfree (rd rs1 : Nat)
  /-- PINFO (R158): Returns the allocation state, kind, size and base of a polder handle. -/
  | pinfo (rd rs1 : Nat)
  /-- SDSET (R160): Writes one field of a stream descriptor. -/
  | sdset (sd rs1 field : Nat)
  /-- SDGET (R160): Reads one field of a stream descriptor into rd. -/
  | sdget (rd ss field : Nat)
  /-- SDCOPY (R160): Copies every RW field of one descriptor to another. -/
  | sdcopy (sd ss : Nat)
  /-- EOS_CLOSE (R162): A queue marked end-of-stream closes once every older entry that writes its tail has completed. -/
  | eosClose (sp handle : Nat)
  /-- SLOAD (R167): Copy command that loads records from memory into the SRF. -/
  | sload (rd sd rs1 rs2 : Nat)
  /-- SSTORE (R167): Copy command that stores SRF records to memory. -/
  | sstore (rd sd rs1 rs2 : Nat)
  /-- SGATHER (R167): Copy command that loads records from memory at addresses indexed by an index stream. -/
  | sgather (rd sd rs1 rs2 : Nat)
  /-- SSCATTER (R167): Copy command that stores records to memory at indexed addresses. -/
  | sscatter (rd sd rs1 rs2 : Nat)
  /-- SSCADD (R168): Copy command that applies SRF records element by element at indexed memory addresses by the reduction RED. -/
  | sscadd (rd sd rs1 rs2 : Nat)
  /-- SCOPY (R167): Copy command that copies memory to memory without conversion. -/
  | scopy (rd sd rs1 rs2 : Nat)
  /-- SPREF (R171): Hints that a memory range should be brought into the memory-side cache. -/
  | spref (rs1 rs2 : Nat)
  /-- SATOM_ADD (R170): Atomic add at a virtual address, returning the old value into the record. -/
  | satomAdd (rd sd rs1 rs2 : Nat)
  /-- SATOM_SWAP (R170): Atomic swap at a virtual address. -/
  | satomSwap (rd sd rs1 rs2 : Nat)
  /-- SATOM_CAS (R170): Atomic compare-and-swap at a virtual address. -/
  | satomCas (rd sd rs1 rs2 : Nat)
  /-- SATOM_MIN (R170): Atomic minimum at a virtual address. -/
  | satomMin (rd sd rs1 rs2 : Nat)
  /-- SATOM_MAX (R170): Atomic maximum at a virtual address. -/
  | satomMax (rd sd rs1 rs2 : Nat)
  /-- SATOM_AND (R170): Atomic bitwise AND at a virtual address. -/
  | satomAnd (rd sd rs1 rs2 : Nat)
  /-- SATOM_OR (R170): Atomic bitwise OR at a virtual address. -/
  | satomOr (rd sd rs1 rs2 : Nat)
  /-- KRUN (R172): Kernel command that runs one KTAB kernel under declared read and write masks. -/
  | krun (rd rs1 rs2 : Nat)
  /-- KSTAGE (R173): Writes or clears one stage declaration of the pipeline stage table. -/
  | kstage (rd rs1 rs2 : Nat)
  /-- KPIPE (R174): Kernel command that runs the declared pipeline stages. -/
  | kpipe (rd rs1 rs2 : Nat)
  /-- KHALT (R150): Halts the running or waiting kernel-class command at its next boundary, with status HALTED. -/
  | khalt (rd : Nat)
  /-- SVADD (R175): Sweep that adds two operand windows element by element. -/
  | svadd (rd rs1 rs2 : Nat)
  /-- SVMUL (R175): Sweep that multiplies two operand windows element by element. -/
  | svmul (rd rs1 rs2 : Nat)
  /-- SVFMA (R175): Sweep that computes a fused multiply-add over three operand windows. -/
  | svfma (rd rs1 rs2 : Nat)
  /-- SVCVT (R175): Sweep that converts an operand window between formats. -/
  | svcvt (rd rs1 rs2 : Nat)
  /-- SVSCALE (R175): Sweep that scales an IEEE operand window by a power of two. -/
  | svscale (rd rs1 rs2 : Nat)
  /-- SVMAX (R175): Sweep that takes the larger of two operand windows element by element. -/
  | svmax (rd rs1 rs2 : Nat)
  /-- SVMIN (R175): Sweep that takes the smaller of two operand windows element by element. -/
  | svmin (rd rs1 rs2 : Nat)
  /-- SVCOPY (R175): Sweep that copies 2,048-byte windows unconverted. -/
  | svcopy (rd rs1 rs2 : Nat)
  /-- SVFILL (R175): Sweep that fills windows with a 16-bit immediate. -/
  | svfill (rd rs1 rs2 : Nat)
  /-- SWEEP_ITERATION (R175): One sweep iteration reads its windows and later writes its destination window; the last write completes the sweep. -/
  | sweepIteration (sp : Nat)
  /-- MLOAD (R176): Privileged command that loads microprogram words into the store and points a routine table entry at them. -/
  | mload (rd rs1 rs2 : Nat)
  /-- MLOAD_COMPLETE (R140): The microprogram store holds the new words, and the MLOAD entry completes. -/
  | mloadComplete (sp : Nat)
  /-- SPMERGE (R177): Merge command that merges coordinate streams through the Spire, or joins an open merge. -/
  | spmerge (rd rs1 rs2 : Nat)
  /-- SPDRAIN (R343): Merge command that closes an open merge and emits its output. -/
  | spdrain (rd rs2 : Nat)
  /-- AWINIT (R165): Sets an arrival word's target and clears its count and status, keeping the generation. -/
  | awinit (rd rs1 rs2 : Nat)
  /-- AWAIT (R166): Waits until an arrival word's generation reaches the expected value, then returns its status. -/
  | await (rd rs1 rs2 : Nat)
  /-- ACQ (R182): Waits until a shared or exclusive hold on a sync object is granted, as an acquire. -/
  | acq (rd rs1 rs2 : Nat)
  /-- REL (R366): Releases a sync object after the context's bound writes have been performed. -/
  | rel (rd rs1 : Nat)
  /-- TACQ (R390): Requests the ownership token of a 2 MiB region and waits for it, up to a limit. -/
  | tacq (rd rs1 rs2 : Nat)
  /-- TREL (R390): Gives up an ownership token after the context's older writes to the region are performed. -/
  | trel (rd rs1 : Nat)
  /-- FENCEX (R178): Waits until every older entry of the named classes has completed and its memory writes have been performed at the scope. -/
  | fencex (rd rs1 : Nat)
  /-- SWAIT (R179): Waits until every older entry that names a handle, or every older entry, has completed. -/
  | swait (rd rs1 : Nat)
  /-- SBAR (R180): Arrives at a group's dike from the controller and waits for its release. -/
  | sbar (rd rs1 : Nat)
  /-- SPAWN (R65): Places a task record with part of the held weight in a group's pool. -/
  | spawn (rd rs1 rs2 : Nat)
  /-- TEXIT (R67): Waits for every older entry, releases holds, returns the held weight to the root and ends the context. -/
  | texit
  /-- TSPLIT (R66): Sets the child weight of the next SPAWN. -/
  | tsplit (rd rs1 : Nat)
  /-- TRESEED (R66): Raises T at the root, then the held weight, by 2^32. -/
  | treseed (rd : Nat)
  /-- GSYNC (R181): Performs a grp-scope FENCEX, an SBAR and an acquire on a local group. -/
  | gsync (rd rs1 : Nat)
  /-- SYIELD (R186): Takes a pending pre-emption at this instruction. -/
  | syield (rd : Nat)
  /-- SSTAT (R186): Returns scoreboard, kernel-class, Spire or stage status. -/
  | sstat (rd rs1 : Nat)
  /-- CONTROLLER_WAIT_END (R154): The condition of a waiting controller instruction is met; it retires, rd is written, and issue resumes. -/
  | controllerWaitEnd (sp : Nat)
  /-- RV_INTEGER_ALU (R131): A standard RISC-V integer ALU, LUI or AUIPC instruction issues and retires. -/
  | rvIntegerAlu (c : Bool) (op : AluOp) (w : Bool) (rd rs1 : Nat) (src : RvSrc)
  /-- RV_MULTIPLY (R131): A RISC-V multiply instruction issues with a 3-cycle result latency. -/
  | rvMultiply (op : MulOp) (rd rs1 rs2 : Nat)
  /-- RV_DIVIDE (R131): A RISC-V divide or remainder instruction blocks issue for 34 cycles. -/
  | rvDivide (op : DivOp) (w : Bool) (rd rs1 rs2 : Nat)
  /-- RV_LOAD (R131): A RISC-V load from control memory. -/
  | rvLoad (c : Bool) (k : LoadKind) (rd rs1 : Nat) (off : Dword)
  /-- RV_STORE (R131): A RISC-V store to control memory. -/
  | rvStore (c : Bool) (k : StoreKind) (rs2 rs1 : Nat) (off : Dword)
  /-- RV_FLOAT_OP (R131): A RISC-V F or D arithmetic, conversion, move or compare instruction. -/
  | rvFloatOp (op : FOp) (dbl : Bool) (rd rs1 rs2 rs3 rm : Nat)
  /-- RV_FDIV_FSQRT (R131): A RISC-V FDIV or FSQRT instruction blocks issue for 20 cycles. -/
  | rvFdivFsqrt (sqrt dbl : Bool) (rd rs1 rs2 rm : Nat)
  /-- RV_BRANCH (R132): A conditional branch is predicted statically and resolved at retirement, squashing wrong-path instructions. -/
  | rvBranch (c : Bool) (k : BrKind) (rs1 rs2 : Nat) (off : Dword)
  /-- JAL (R131): Jump and link. -/
  | jal (c : Bool) (rd : Nat) (off : Dword)
  /-- JALR (R191): Indirect jump and link, which also puts a pending IE write into effect. -/
  | jalr (c : Bool) (rd rs1 : Nat) (off : Dword)
  /-- FENCE (R131): RISC-V FENCE or FENCE.I, taking one cycle. -/
  | fence (i : Bool) (bits : Nat)
  /-- LR (R131): Load-reserved, which sets a reservation. -/
  | lr (d : Bool) (aqrl rd rs1 : Nat)
  /-- SC (R131): Store-conditional, which succeeds only on a standing reservation and clears it. -/
  | sc (d : Bool) (aqrl rd rs1 rs2 : Nat)
  /-- RV_AMO (R131): A RISC-V atomic memory operation on control memory, blocking issue for 2 cycles. -/
  | rvAmo (op : AmoOp) (d : Bool) (aqrl rd rs1 rs2 : Nat)
  /-- RV_CSR_ACCESS (R187): A CSR access instruction, which checks the CSR number and the privilege. -/
  | rvCsrAccess (op : CsrOp) (imm : Bool) (csr rd src : Nat)
  /-- ECALL (R402): Environment call, which traps to M mode and ends the launch. -/
  | ecall
  /-- EBREAK (R403): Breakpoint, which ends the launch, or stops the controller for the debugger when attached. -/
  | ebreak (c : Bool)
  /-- KSTATUS_KRES (R192): A write of 1 to kstatus.KRES resumes a stopped kernel. -/
  | kstatusKres (sp : Nat)
  /-- KSTATUS_KKILL (R188): A write of 1 to kstatus.KKILL ends a stopped or running kernel, whose command completes CANCELLED. -/
  | kstatusKkill (sp : Nat)
  /-- KSTATUS_IE_WRITE (R191): A write to kstatus.IE enables event delivery after the next JALR retires. -/
  | kstatusIeWrite (sp : Nat) (v : Bool)
  /-- KSTATUS_PEND_CLEAR (R188): A W1C write clears kstatus.PEND. -/
  | kstatusPendClear (sp : Nat)
  /-- KSTAT_CLEAR (R187): A W1C write clears sticky kstat bits, except those set on the same cycle. -/
  | kstatClear (sp : Nat) (mask : BitVec 13)
  /-- CBOUND_WRITE (R25): A write to cbound within cbase to the ceiling admits more code for fetch. -/
  | cboundWrite (sp : Nat) (v : Dword)
  /-- MPREQ_WRITE (R405): A write of 1 to mpreq bit 0 requests pre-emption of the context. -/
  | mpreqWrite (sp : Nat)
  /-- KEVENT_DELIVERY (R191): A recorded kernel event is delivered to the handler at ktvec at the next instruction boundary or wait. -/
  | keventDelivery (sp : Nat)
  /-- SCOREBOARD_ISSUE (R138): The oldest conflict-free command of a class issues to a free unit of that class. -/
  | scoreboardIssue (sp : Nat)
  /-- TOWER_RENDEZVOUS (R75): Once every tower member has issued its copy of a kernel command, the command begins, or TOWER is raised if the copies differ. -/
  | towerRendezvous (sp : Nat)
  /-- COPY_BEAT_SEND (R451): An address generator sends one beat of a copy command, translated through segments and pages. -/
  | copyBeatSend (sp seq : Nat)
  /-- COPY_BEAT_COMMIT (R164): A copy beat commits, and its arrival word is updated; the last beat completes the command. -/
  | copyBeatCommit (acc : Nat)
  /-- KCOPY_QUEUE_ISSUE (R271): The oldest entry of the kernel copy queue takes a freed address generator. -/
  | kcopyQueueIssue (sp : Nat)
  /-- KERNEL_COMMAND_COMPLETE (R140): A kernel command completes once END, results, pushes, KCOPYs and routines have all ended, and its arrival word is signalled. -/
  | kernelCommandComplete (sp : Nat)
  /-- BUNDLE_ISSUE (R110): The sequencer checks a bundle's fetch bounds, header and slots, and issues all its slots on one cycle. -/
  | bundleIssue (sp : Nat)
  /-- RESULT_LANDING (R196): A result in the landing queue lands on its fixed cycle in its register. -/
  | resultLanding (sp : Nat)
  /-- LOOP_BACK_EDGE (R214): After a body's last bundle, the loop count is decremented, and the loop repeats or is popped. -/
  | loopBackEdge (sp : Nat)
  /-- BRANCH_TRANSFER (R211): After the second delay bundle, a taken branch transfers and pops the loops it leaves. -/
  | branchTransfer (sp : Nat)
  /-- DIKE_RELEASE (R223): A dike phase releases 40 cycles after the last arrival of its members. -/
  | dikeRelease (part entry : Nat)
  /-- TOWER_LINE_RELEASE (R76): The tower line releases 40 cycles after the last REJOIN arrival, and the tower fuses again. -/
  | towerLineRelease (sp : Nat)
  /-- ARBITER_DECISION (R145): The stage arbiter chooses a ready stage to activate, or completes the KPIPE when every stage has finished. -/
  | arbiterDecision (sp : Nat)
  /-- WATCHDOG_EXPIRY (R148): The watchdog count reaches its limit, and the launch ends with WATCHDOG. -/
  | watchdogExpiry (sp : Nat)
  /-- AQ_SEND (R256): An address queue sends its oldest request once a data-queue entry is free, reserving that entry. -/
  | aqSend (sp cluster : Nat)
  /-- DQ_LAND (R257): A gather request's data lands in its data-queue entry, or lands as zeros on failure. -/
  | dqLand (acc : Nat)
  /-- CALL_QUEUE_START (R283): The oldest call-queue entry starts its routine once the preceding routine has ended. -/
  | callQueueStart (sp : Nat)
  /-- ACC_UPDATE_LANDING (R289): An accumulator update of a micro-op lands 6 cycles after the micro-op. -/
  | accUpdateLanding (sp : Nat)
  /-- ROUTINE_RETIRE (R288): A routine retires after RET once its results have landed, popping its rings and setting watermarks to 32. -/
  | routineRetire (sp : Nat)
  /-- LOCK_ROUND (R270): A lock section is issued again for clusters that were refused their SRF lock. -/
  | lockRound (sp : Nat)
  /-- SPIRE_RECORD_INTAKE (R336): The Spire takes up to 16 input records in input order into its window. -/
  | spireRecordIntake (sp : Nat)
  /-- SPIRE_RUN_WRITTEN (R338): A run's beats have been written, and the spill directory is updated. -/
  | spireRunWritten (sp : Nat)
  /-- SPIRE_MERGE_PASS (R340): The Spire merges 16 live runs into a new run. -/
  | spireMergePass (sp : Nat)
  /-- SPIRE_EMIT (R341): The Spire emits up to 8 keys per cycle into the output polder. -/
  | spireEmit (sp : Nat)
  /-- SPIRE_COMPLETE (R342): A merge completes once output, spill beats and result words are written, and signals its arrival word. -/
  | spireComplete (sp : Nat)
  /-- RANGE_MISS_SERVE (R310): A range-register miss searches the segment table for 8 cycles. -/
  | rangeMissServe (sp : Nat)
  /-- WALK_START (R319): A TLB miss takes a free walker and starts a page walk. -/
  | walkStart (die : Nat)
  /-- WALK_END (R319): A walk ends, installs its translation or faults, and releases the misses in its page. -/
  | walkEnd (die walk : Nat)
  /-- FAULT_RESOLVE (R323): A response-word write with action resolve restarts the parked accesses and frees the record. -/
  | faultResolve (part id : Nat)
  /-- FAULT_CANCEL (R323): A response-word write with action cancel ends the parked accesses and frees the record. -/
  | faultCancel (part id : Nat)
  /-- TLB_INVALIDATE (R320): A write of the invalidate word removes the partition's TLB entries that overlap the range. -/
  | tlbInvalidate (part base len : Nat)
  /-- SLICE_APPLY (R328): A slice applies a read, store beat, reduction or SATOM to a line in arrival order. -/
  | sliceApply (acc : Nat)
  /-- PACKET_RECEIVE (R376): A scale-up port receives a packet header and routes it to the gateway or forwards it. -/
  | packetReceive (port : Nat) (hdr data tail : List Byte)
  /-- LINK_REPLAY (R377): A flit with a bad link CRC is replayed with every later flit; 16 failures put the link in STATE 3. -/
  | linkReplay (port : Nat)
  /-- LINK_TRAINING (R377): Link training aligns the frames and records the slot delay, or fails the link. -/
  | linkTraining (port delay : Nat)
  /-- PORTCFG_WRITE (R373): A write that changes MODE or SPEED retrains the link, unless a slot is owned. -/
  | portcfgWrite (port : Nat) (v : Dword)
  /-- HOME_BEAT_APPLY (R388): The home checks a remote beat's export, token and duplicate state, applies it, and acknowledges it. -/
  | homeBeatApply (k : Packet)
  /-- BEAT_ACK (R385): An engine receives a beat acknowledgement with its status, and the beat's bytes are counted. -/
  | beatAck (k : Packet)
  /-- BEAT_RESEND_TIMEOUT (R385): A beat unacknowledged for 2^16 fabric cycles is sent again, or ends REMOTE_DOWN after 8 resends. -/
  | beatResendTimeout (engine seq : Nat)
  /-- TOKEN_REQUEST (R390): A home receives a token request and grants it, queues it or refuses it. -/
  | tokenRequest (k : Packet)
  /-- TOKEN_REPLY (R390): A token reply reaches the requester, and TACQ returns OK. -/
  | tokenReply (k : Packet)
  /-- TOKEN_RETRY (R390): A refused token request is sent again every 2^12 fabric cycles. -/
  | tokenRetry (sp : Nat)
  /-- TACQ_TIMEOUT (R183): A TACQ limit expires; TACQ returns TIMEOUT and sends a withdrawal. -/
  | tacqTimeout (sp : Nat)
  /-- SCALEOUT_FRAME_RECEIVE (R386): A scale-out frame is received, checked and passed up, or dropped and counted in FCSDROP. -/
  | scaleoutFrameReceive (pair : PortPair) (fcsOk : Bool) (d : Datagram)
  /-- SELECTIVE_ACK_SEND (R386): A receiver sends a selective acknowledgement after 16 frames or 10 microseconds. -/
  | selectiveAckSend (pair : PortPair)
  /-- SELECTIVE_ACK_RECEIVE (R386): A sender receives a selective acknowledgement and resends the frames it reports missing. -/
  | selectiveAckReceive (pair : PortPair) (seq : Nat) (bitmap : Dword)
  /-- FRAME_RESEND_TIMEOUT (R386): A scale-out frame unacknowledged after 200 microseconds is sent again. -/
  | frameResendTimeout (pair : PortPair) (seq : Nat)
  /-- PREEMPT_REQUEST (R405): A pre-emption request reaches an SP, and the controller stops and squashes. -/
  | preemptRequest (sp : Nat)
  /-- KERNEL_HALT (R407): The kernel halts at its first pre-emption point. -/
  | kernelHalt (sp : Nat)
  /-- MATRIX_DRAIN_LIMIT (R304): A routine not retired 4,096 cycles after the request is stopped at its next micro-op boundary. -/
  | matrixDrainLimit (sp : Nat)
  /-- SPIRE_PREEMPT_STOP (R344): The Spire stops at a record or key boundary and spills its window for the save. -/
  | spirePreemptStop (sp : Nat)
  /-- AQ_RECLAIM (R408): A sent AQ request not landed 4,096 cycles after the request is reclaimed as parked. -/
  | aqReclaim (sp : Nat)
  /-- CONTEXT_SAVE (R408): Once halt, drain, Spire, AQ and a shadow slot are ready, the context image is saved. -/
  | contextSave (sp : Nat)
  /-- CONTEXT_SAVE_COMPLETE (R410): The 256-cycle save into a shadow slot ends. -/
  | contextSaveComplete (sp : Nat)
  /-- SHADOW_WRITE_OUT (R410): The oldest shadow slot is written out to its context record, freeing the slot. -/
  | shadowWriteOut (sp : Nat)
  /-- POLDER_CLAIM (R82): A victim polder in the way is saved to the victim's save area after its in-flight beats commit. -/
  | polderClaim (sp victim handle : Nat)
  /-- CONTROL_MEMORY_CLAIM (R419): A victim's control memory is saved to its context record before it is overwritten. -/
  | controlMemoryClaim (sp : Nat)
  /-- CONTEXT_RESTORE (R421): A pre-empted context's control memory, polders, image and background state are restored, and it resumes. -/
  | contextRestore (sp victim : Nat)
  /-- MIGRATION_HELLO (R448): The destination checks a hello packet against its ACCEPT and acknowledges it. -/
  | migrationHello (k : Packet)
  /-- MIGRATION_FROZEN (R451): Every context has been saved and every copy drained; FROZEN is sent and the state stream begins. -/
  | migrationFrozen (part : Nat)
  /-- STATE_RECORD (R452): The destination receives one state record; after the last it checks and restores. -/
  | stateRecord (part : Nat)
  /-- STATE_RECORD_TIMEOUT (R453): No state record arrives within 2^24 fabric cycles, and the migration fails with LINK. -/
  | stateRecordTimeout (part : Nat)
  /-- MIGRATION_RESUMED (R454): Every context is restored and released at the destination, and RESUMED is sent. -/
  | migrationResumed (part : Nat)
  /-- PAGE_PULL_REQUEST (R455): An access to an absent migration page sends or joins a pull request to the source. -/
  | pagePullRequest (acc : Nat)
  /-- PAGE_SHIP (R456): The source completes queued reductions on a page and ships its 1,024 beats. -/
  | pageShip (part page : Nat)
  /-- PAGE_PRESENT (R455): A pulled page has been written at the destination; its waiting accesses proceed, and PULLED follows the last page. -/
  | pagePresent (part page : Nat)
  /-- HOLD_RESEND (R457): A beat answered HOLD is sent again after 2^16 fabric cycles. -/
  | holdResend (engine seq : Nat)
  /-- BEAT_FORWARD (R458): During the grace phase, the source forwards a remote beat unchanged to the destination home. -/
  | beatForward (k : Packet)
  /-- MOVED_ACK (R458): An engine receives MOVED, rewrites its PEER entry and resends the beat. -/
  | movedAck (k : Packet)
  /-- GRACE_EXPIRY (R449): 2^20 fabric cycles after PULLED, the source sends DRAINED. -/
  | graceExpiry (part : Nat)
  /-- POWER_ON_RESET (R468): The rails rise in order, the part leaves reset, and the boot chain runs. -/
  | powerOnReset
  /-- RAIL_DROP (R468): A rail falls below 90 % while running, causing a power-on reset. -/
  | railDrop (rail : Nat)
  /-- WARM_RESET (R470): A write of 1 to GCTL.WARM resets the part and restarts the boot chain. -/
  | warmReset
  /-- THERMAL_WARN (R469): A sensor reads 105 degrees C and THERMSTAT.WARN is set. -/
  | thermalWarn (sensor : Nat)
  /-- THERMAL_TRIP (R469): A sensor reads 115 degrees C; every launch is cancelled and the part is held in reset. -/
  | thermalTrip (sensor : Nat)
  /-- THERMAL_RECOVER (R469): Every sensor reads below 95 degrees C, and the part leaves the thermal reset. -/
  | thermalRecover
  /-- ATTGO (R473): A write of 1 to ATTGO starts building a signed attestation report. -/
  | attgo
  /-- ATTESTATION_DONE (R473): The attestation report is ready, and ATTSTAT.DONE is set. -/
  | attestationDone
  /-- SNAPTRIG (R476): A write to SNAPTRIG triggers a package snapshot 64 cycles later. -/
  | snaptrig
  /-- SNAPSHOT_PACKET (R477): A received snapshot packet triggers a snapshot 64 cycles later. -/
  | snapshotPacket (port : Nat)
  /-- SNAPSHOT_LATCH (R476): On cycle T every block latches its live state, and the snapshot packet is forwarded when SEND is set. -/
  | snapshotLatch
  /-- SNAPCTL_VALID_CLEAR (R477): A W1C write of SNAPCTL.VALID re-arms the snapshot. -/
  | snapctlValidClear
  /-- DBGCTL_ATTACH (R479): A write of 1 to DBGCTL.ATTACH makes EBREAK stop the controller for the debugger. -/
  | dbgctlAttach (sp : Nat)
  /-- DBGCTL_GO (R479): A write of 1 to DBGCTL.GO resumes a stopped controller. -/
  | dbgctlGo (sp : Nat)
  /-- JTAG_REGACC (R478): The JTAG REGACC instruction performs one register access. -/
  | jtagRegacc (addr : Nat) (wr : Bool) (v : Dword)
  /-- JTAG_IDCODE (R478): The JTAG IDCODE instruction shifts out the device identity. -/
  | jtagIdcode
  /-- JTAG_BYPASS (R478): The JTAG BYPASS instruction. -/
  | jtagBypass (tdi : Bool)
  /-- JTAG_SAMPLE_PRELOAD (R478): The JTAG SAMPLE/PRELOAD instruction. -/
  | jtagSamplePreload
  /-- JTAG_EXTEST (R478): The JTAG EXTEST instruction. -/
  | jtagExtest
  /-- JTAG_TRST (R470): TRST resets the JTAG TAP only. -/
  | jtagTrst
  /-- REGISTER_WRITE (R474): A write to a register without behaviour of its own, or to a hole, which raises HOLEHIT. -/
  | registerWrite (addr : Nat) (v : Dword)
  /-- HOLE_READ (R474): A read by the Amigar core of a register-space hole returns 0 and raises the saturating counter GCTL.HOLEHIT. -/
  | holeRead (addr : Nat)
  /-- KSTEP (R299): Micro-op that accumulates one dense k-chunk into a row group. -/
  | kstep (g na nb noacc : Nat)
  /-- KSTEPS (R295): Micro-op that accumulates one bitmap-sparse block into a row group. -/
  | ksteps (g na nb noacc : Nat)
  /-- RPOP (R299): Micro-op that pops records from an operand ring. -/
  | rpop (ring reg n : Nat)
  /-- RPEEK (R299): Micro-op that sets a ring cursor relative to its head. -/
  | rpeek (ring reg n : Nat)
  /-- ROWG (R299): Micro-op that sets or increments the row-group base. -/
  | rowg (inc g : Nat)
  /-- ACCSEL (R299): Micro-op that selects a tile of the span. -/
  | accsel (n : Nat)
  /-- ACCZ (R299): Micro-op that zeroes a row group of the selected tile. -/
  | accz (g : Nat)
  /-- LOOPK (R299): Micro-op that opens a counted loop over the next words. -/
  | loopk (max reg k body : Nat)
  /-- WMSET (R290): Micro-op that raises the selected tile's watermark. -/
  | wmset (n g : Nat)
  /-- BMCHK (R294): Micro-op that reads and checks a sparse block's header and bitmap. -/
  | bmchk
  /-- EPI (R299): Micro-op that applies an epilogue function to a row group. -/
  | epi (g fn k : Nat)
  /-- PARM (R299): Micro-op that loads a k register from a captured m register. -/
  | parm (kd m half : Nat)
  /-- JMP (R299): Micro-op that jumps forward. -/
  | jmp (d : Nat)
  /-- RET (R288): Micro-op that ends the routine's words. -/
  | ret
  /-- PBT (R207): Writes a branch target register. -/
  | pbt (p b imm : Nat)
  /-- CMP (R203): Compares two q registers into a condition bit. -/
  | cmp (p cd cond qa qb : Nat)
  /-- CMPI (R203): Compares a q register with an immediate into a condition bit. -/
  | cmpi (p cd cond qa imm : Nat)
  /-- BR_T (R208): Branch, taken when a condition bit is 1. -/
  | brT (p b c : Nat)
  /-- BR_F (R208): Branch, taken when a condition bit is 0. -/
  | brF (p b c : Nat)
  /-- BR (R208): Unconditional branch to a b register. -/
  | br (p b : Nat)
  /-- BR_R (R209): Unconditional branch to the address in q15. -/
  | brR (p : Nat)
  /-- BRL (R209): Branch that writes its return address to q15. -/
  | brl (p b : Nat)
  /-- LOOP (R213): Opens an exposed-mode hardware loop. -/
  | loop (p b reg n : Nat)
  /-- LOOPI (R213): Opens an interlocked-mode hardware loop. -/
  | loopi (p b reg n : Nat)
  /-- LOOPM (R215): Opens a modulo-scheduled loop with stage predicates and register rotation. -/
  | loopm (p b reg n stages : Nat)
  /-- VANY (R205): Sets a condition if any active element of any cluster is non-zero. -/
  | vany (p cd v w pn : Nat)
  /-- VALL (R205): Sets a condition if every active element of every cluster is non-zero. -/
  | vall (p cd v w pn : Nat)
  /-- CLOG (R204): Combines two condition bits by a truth table. -/
  | clog (p cd ca cb table : Nat)
  /-- YIELD (R228): Marks a pre-emption point, resets the watchdog and allows suspension. -/
  | yieldK (p : Nat)
  /-- SYNC (R223): Arrives at a dike port from the kernel and stalls until release. -/
  | sync (p port : Nat)
  /-- DECOUPLE (R76): Releases a fused tower's followers to issue independently. -/
  | decouple (p : Nat)
  /-- REJOIN (R76): Arrives at the tower line of a decoupled tower and stalls. -/
  | rejoin (p : Nat)
  /-- END (R226): Ends the kernel after its bundle. -/
  | endK (p : Nat)
  /-- KTRAP (R227): Stops the kernel with a trap event. -/
  | ktrap (p n : Nat)
  /-- QADD (R199): Uniform 64-bit add. -/
  | qadd (p qd qa qb : Nat)
  /-- QSUB (R199): Uniform 64-bit subtract. -/
  | qsub (p qd qa qb : Nat)
  /-- QADDI (R200): Uniform add of an immediate. -/
  | qaddi (p qd qa imm : Nat) (x : Option Nat)
  /-- QMUL (R199): Uniform 64-bit multiply. -/
  | qmul (p qd qa qb : Nat)
  /-- QAND (R199): Uniform bitwise AND. -/
  | qand (p qd qa qb : Nat)
  /-- QOR (R199): Uniform bitwise OR. -/
  | qor (p qd qa qb : Nat)
  /-- QXOR (R199): Uniform bitwise XOR. -/
  | qxor (p qd qa qb : Nat)
  /-- QSHL (R199): Uniform shift left. -/
  | qshl (p qd qa qb : Nat)
  /-- QSHR (R199): Uniform logical shift right. -/
  | qshr (p qd qa qb : Nat)
  /-- QSRA (R199): Uniform arithmetic shift right. -/
  | qsra (p qd qa qb : Nat)
  /-- QMIN (R199): Uniform signed minimum. -/
  | qmin (p qd qa qb : Nat)
  /-- QMAX (R199): Uniform signed maximum. -/
  | qmax (p qd qa qb : Nat)
  /-- QLI (R200): Loads a sign-extended immediate into a q register. -/
  | qli (p qd imm : Nat) (x : Option Nat)
  /-- QGET (R201): Reads a sequencer quantity into a q register. -/
  | qget (p qd sel : Nat)
  /-- MSET (R217): Writes a matrix parameter register. -/
  | mset (p md qa : Nat)
  /-- MWAIT (R218): Stalls until a tile's watermark reaches a row count. -/
  | mwait (p tile rows : Nat)
  /-- PSET (R206): Sets a compact predicate to a capped count. -/
  | pset (p pd w reg n : Nat)
  /-- PTAIL (R206): Sets a compact predicate to the tail count of a run. -/
  | ptail (p pd w qa len : Nat)
  /-- KSR (R219): Reads kstat and clears masked bits. -/
  | ksr (p qd mask : Nat)
  /-- KSC (R220): Privileged; sets kstat from a q register. -/
  | ksc (p qa : Nat)
  /-- KMODE (R221): Sets the kernel rounding mode. -/
  | kmode (p reg n : Nat)
  /-- PREF (R222): Hints a memory range into the memory-side cache. -/
  | pref (p qa qb : Nat)
  /-- QSD (R202): Reads a descriptor field into a q register. -/
  | qsd (p qd s field : Nat)
  /-- GADD (R233): Cluster scalar add. -/
  | gadd (p gd ga gb : Nat)
  /-- GSUB (R233): Cluster scalar subtract. -/
  | gsub (p gd ga gb : Nat)
  /-- GADDI (R233): Cluster scalar add of an immediate. -/
  | gaddi (p gd ga imm : Nat) (x : Option Nat)
  /-- GMUL (R233): Cluster scalar multiply, low 64 bits. -/
  | gmul (p gd ga gb : Nat)
  /-- GMULH (R233): Cluster scalar multiply, high 64 bits, signed or unsigned. -/
  | gmulh (p gd ga gb n : Nat)
  /-- GAND (R233): Cluster scalar bitwise AND. -/
  | gand (p gd ga gb : Nat)
  /-- GOR (R233): Cluster scalar bitwise OR. -/
  | gor (p gd ga gb : Nat)
  /-- GXOR (R233): Cluster scalar bitwise XOR. -/
  | gxor (p gd ga gb : Nat)
  /-- GSHL (R233): Cluster scalar shift left by a register. -/
  | gshl (p gd ga gb : Nat)
  /-- GSHR (R233): Cluster scalar logical shift right by a register. -/
  | gshr (p gd ga gb : Nat)
  /-- GSRA (R233): Cluster scalar arithmetic shift right by a register. -/
  | gsra (p gd ga gb : Nat)
  /-- GSHI (R235): Cluster scalar shift or rotate by an immediate. -/
  | gshi (p gd ga k amt : Nat)
  /-- GMIN (R233): Cluster scalar signed minimum. -/
  | gmin (p gd ga gb : Nat)
  /-- GMAX (R233): Cluster scalar signed maximum. -/
  | gmax (p gd ga gb : Nat)
  /-- GSLT (R233): Cluster scalar signed set-less-than. -/
  | gslt (p gd ga gb : Nat)
  /-- GSLTN (R233): Cluster scalar unsigned set-less-than. -/
  | gsltn (p gd ga gb : Nat)
  /-- GLI (R233): Loads an immediate into a g register. -/
  | gli (p gd imm : Nat) (x : Option Nat)
  /-- GFRQ (R233): Copies a q register into a g register. -/
  | gfrq (p gd n : Nat)
  /-- GEXT (R234): Extracts a bit field, signed or unsigned. -/
  | gext (p gd ga gb imm : Nat)
  /-- GINS (R234): Inserts a bit field. -/
  | gins (p gd ga gb imm : Nat)
  /-- GCID (R233): Writes the tower cluster index. -/
  | gcid (p gd : Nat)
  /-- GSEL (R233): Selects between two g registers. -/
  | gsel (p gd ga gb : Nat)
  /-- GCLZ (R233): Counts leading zero bits. -/
  | gclz (p gd ga : Nat)
  /-- VADD (R236): Vector integer add. -/
  | vadd (o : VSlot)
  /-- VSUB (R236): Vector integer subtract. -/
  | vsub (o : VSlot)
  /-- VADDS (R236): Vector signed saturating add. -/
  | vadds (o : VSlot)
  /-- VADDN (R236): Vector unsigned saturating add. -/
  | vaddn (o : VSlot)
  /-- VSUBS (R236): Vector signed saturating subtract. -/
  | vsubs (o : VSlot)
  /-- VSUBN (R236): Vector unsigned saturating subtract. -/
  | vsubn (o : VSlot)
  /-- VMUL (R236): Vector integer multiply, low half. -/
  | vmul (o : VSlot)
  /-- VMULH (R236): Vector signed multiply, high half. -/
  | vmulh (o : VSlot)
  /-- VMULHN (R236): Vector unsigned multiply, high half. -/
  | vmulhn (o : VSlot)
  /-- VMAC (R236): Vector integer multiply-accumulate. -/
  | vmac (o : VSlot)
  /-- VMACW (R237): Vector widening multiply-accumulate. -/
  | vmacw (o : VSlot)
  /-- VMIN (R236): Vector signed minimum. -/
  | vmin (o : VSlot)
  /-- VMAX (R236): Vector signed maximum. -/
  | vmax (o : VSlot)
  /-- VMINN (R236): Vector unsigned minimum. -/
  | vminn (o : VSlot)
  /-- VMAXN (R236): Vector unsigned maximum. -/
  | vmaxn (o : VSlot)
  /-- VABS (R236): Vector integer absolute value. -/
  | vabs (o : VSlot)
  /-- VNEG (R236): Vector integer negate. -/
  | vneg (o : VSlot)
  /-- VAND (R236): Vector bitwise AND. -/
  | vand (o : VSlot)
  /-- VOR (R236): Vector bitwise OR. -/
  | vor (o : VSlot)
  /-- VXOR (R236): Vector bitwise XOR. -/
  | vxor (o : VSlot)
  /-- VANDN (R236): Vector AND with complement. -/
  | vandn (o : VSlot)
  /-- VSHL (R236): Vector shift left. -/
  | vshl (o : VSlot)
  /-- VSHR (R236): Vector logical shift right. -/
  | vshr (o : VSlot)
  /-- VSRA (R236): Vector arithmetic shift right. -/
  | vsra (o : VSlot)
  /-- VSRAR (R236): Vector rounding arithmetic shift right. -/
  | vsrar (o : VSlot)
  /-- VNARROW (R237): Vector truncating narrow. -/
  | vnarrow (o : VSlot)
  /-- VWIDEN (R237): Vector sign or zero widen. -/
  | vwiden (o : VSlot)
  /-- VCMPEQ (R236): Vector integer compare equal. -/
  | vcmpeq (o : VSlot)
  /-- VCMPLT (R236): Vector signed compare less-than. -/
  | vcmplt (o : VSlot)
  /-- VCMPLTN (R236): Vector unsigned compare less-than. -/
  | vcmpltn (o : VSlot)
  /-- VCMPLE (R236): Vector signed compare less-or-equal. -/
  | vcmple (o : VSlot)
  /-- VSEL (R236): Vector select by a condition operand. -/
  | vsel (o : VSlot)
  /-- VCLZ (R236): Vector count leading zeros. -/
  | vclz (o : VSlot)
  /-- VPOPC (R236): Vector population count. -/
  | vpopc (o : VSlot)
  /-- FADD (R238): Vector floating-point add. -/
  | fadd (o : VSlot)
  /-- FSUB (R238): Vector floating-point subtract. -/
  | fsub (o : VSlot)
  /-- FMUL (R238): Vector floating-point multiply. -/
  | fmul (o : VSlot)
  /-- FMA (R238): Vector fused multiply-add. -/
  | fma (o : VSlot)
  /-- FMS (R238): Vector fused multiply-subtract. -/
  | fms (o : VSlot)
  /-- FNMA (R238): Vector negated fused multiply-add. -/
  | fnma (o : VSlot)
  /-- FMIN (R238): Vector floating-point minimum. -/
  | fmin (o : VSlot)
  /-- FMAX (R238): Vector floating-point maximum. -/
  | fmax (o : VSlot)
  /-- FABS (R238): Vector clear sign bit. -/
  | fabs (o : VSlot)
  /-- FNEG (R238): Vector invert sign bit. -/
  | fneg (o : VSlot)
  /-- FCMPEQ (R238): Vector floating-point compare equal. -/
  | fcmpeq (o : VSlot)
  /-- FCMPLT (R238): Vector floating-point compare less-than. -/
  | fcmplt (o : VSlot)
  /-- FCMPLE (R238): Vector floating-point compare less-or-equal. -/
  | fcmple (o : VSlot)
  /-- FCMPUN (R238): Vector compare unordered. -/
  | fcmpun (o : VSlot)
  /-- FCLASS (R239): Vector floating-point classification. -/
  | fclass (o : VSlot)
  /-- FSCALE (R238): Vector scale by a power of two. -/
  | fscale (o : VSlot)
  /-- VCVT (R240): Vector type conversion. -/
  | vcvt (o : VSlot)
  /-- VQNT (R241): Vector block quantisation to tapered codes with scale codes. -/
  | vqnt (o : VSlot)
  /-- VDQ (R242): Vector dequantisation of tapered codes under scale codes. -/
  | vdq (o : VSlot)
  /-- FRCP (R243): Vector reciprocal. -/
  | frcp (o : VSlot)
  /-- FRSQ (R243): Vector reciprocal square root. -/
  | frsq (o : VSlot)
  /-- FEXP2 (R243): Vector base-2 exponential. -/
  | fexp2 (o : VSlot)
  /-- FLOG2 (R243): Vector base-2 logarithm. -/
  | flog2 (o : VSlot)
  /-- FSIN (R243): Vector sin(pi x). -/
  | fsin (o : VSlot)
  /-- FCOS (R243): Vector cos(pi x). -/
  | fcos (o : VSlot)
  /-- FTANH (R243): Vector hyperbolic tangent. -/
  | ftanh (o : VSlot)
  /-- VRSUM (R244): Vector reduction sum by a fixed tree. -/
  | vrsum (o : VSlot)
  /-- VRMAX (R244): Vector reduction maximum. -/
  | vrmax (o : VSlot)
  /-- VRMIN (R244): Vector reduction minimum. -/
  | vrmin (o : VSlot)
  /-- VAMAX (R244): Vector reduction of the largest magnitude. -/
  | vamax (o : VSlot)
  /-- VTOPK (R247): Selects the k elements of largest magnitude and their indices. -/
  | vtopk (o : VSlot)
  /-- VSCAN (R245): Vector inclusive prefix sum. -/
  | vscan (o : VSlot)
  /-- VCOMPRESS (R246): Vector compress by a mask. -/
  | vcompress (o : VSlot)
  /-- VEXPAND (R246): Vector expand by a mask. -/
  | vexpand (o : VSlot)
  /-- VIDX (R248): Vector base plus index times step. -/
  | vidx (o : VSlot)
  /-- VMOV (R248): Vector move, decoding a port source. -/
  | vmov (o : VSlot)
  /-- VZERO (R248): Vector clear. -/
  | vzero (o : VSlot)
  /-- XADD (R252): Index add. -/
  | xadd (p id ia ib : Nat)
  /-- XADDI (R252): Index add of an immediate. -/
  | xaddi (p id ia imm : Nat) (x : Option Nat)
  /-- XSUB (R252): Index subtract. -/
  | xsub (p id ia ib : Nat)
  /-- XSHL (R252): Index shift left. -/
  | xshl (p id ia ib : Nat)
  /-- XAND (R252): Index bitwise AND. -/
  | xand (p id ia ib : Nat)
  /-- XPOPC (R252): Index population count. -/
  | xpopc (p id ia : Nat)
  /-- XPOPB (R252): Index population count below a bit position. -/
  | xpopb (p id ia ib : Nat)
  /-- XCADV (R253): One merge step over two sorted coordinate streams. -/
  | xcadv (p id ia ib : Nat)
  /-- XDIAG_STEP (R254): One step of a merge-path search. -/
  | xdiagStep (p id ia ib : Nat)
  /-- XDIAG_MID (R254): Computes the midpoint of a merge-path search state. -/
  | xdiagMid (p id ia : Nat)
  /-- XAQ (R255): Pushes a global-memory gather request into each cluster's address queue. -/
  | xaq (p s ia imm : Nat)
  /-- XAQS (R255): Pushes an SRF gather request into each cluster's address queue. -/
  | xaqs (p s ia imm : Nat)
  /-- XMIN (R252): Index unsigned minimum. -/
  | xmin (p id ia ib : Nat)
  /-- XSEL (R252): Index select. -/
  | xsel (p id ia ib : Nat)
  /-- XLI (R252): Loads an immediate into an i register. -/
  | xli (p id imm : Nat) (x : Option Nat)
  /-- XFRG (R252): Copies a g register into an i register. -/
  | xfrg (p id g : Nat)
  /-- XTOG (R252): Copies an i register into a g register. -/
  | xtog (p g ia : Nat)
  /-- XRANK (R252): Finds the position of the one bit of a given rank. -/
  | xrank (p id ia ib : Nat)
  /-- XMAX (R252): Index unsigned maximum. -/
  | xmax (p id ia ib : Nat)
  /-- MCALL (R283): Checks and queues a matrix routine call, capturing m0 to m7 and zeroing the span's watermarks. -/
  | mcall (p routine tile a b flags : Nat)
  /-- MZERO (R284): Queues a zeroing of one accumulator tile. -/
  | mzero (p tile : Nat)
  /-- MMODE (R285): Sets a tile's accumulator mode once no routine names it. -/
  | mmode (p tile v : Nat)
  /-- MFENCE (R286): Stalls until the call queue is empty and no routine runs. -/
  | mfence (p : Nat)
  /-- MWM (R287): Sets a tile's watermark guard. -/
  | mwm (p tile v : Nat)
  /-- WPERM (R272): Switch permutation by a per-cluster index. -/
  | wperm (p vd vs ia : Nat)
  /-- WBCAST (R272): Switch broadcast from one cluster. -/
  | wbcast (p vd vs n : Nat)
  /-- WROT (R272): Switch rotation across clusters. -/
  | wrot (p vd vs n : Nat)
  /-- WBFLY (R272): Switch butterfly exchange. -/
  | wbfly (p vd vs n : Nat)
  /-- WRSUM (R129): Switch sum across clusters by a butterfly. -/
  | wrsum (p vd vs n : Nat)
  /-- WRMAX (R272): Switch maximum across clusters. -/
  | wrmax (p vd vs n : Nat)
  /-- WSEGSUM (R273): Switch segmented inclusive sum keyed by i registers. -/
  | wsegsum (p vd vs t ia : Nat)
  /-- WSCAN (R272): Switch inclusive prefix sum across clusters. -/
  | wscan (p vd vs n : Nat)
  /-- SPOP (R263): Raw pop of rows from a stream port. -/
  | spop (p s v len : Nat)
  /-- SPUSH (R262): Raw push of rows to a stream port. -/
  | spush (p s v len : Nat)
  /-- SADV (R266): Advances a port's position or head. -/
  | sadv (p s imm : Nat) (x : Option Nat)
  /-- SPEEK (R266): Raw read of rows from a stream port without advancing. -/
  | speek (p s v len : Nat)
  /-- SLDL (R269): Takes an SRF lock and loads one element. -/
  | sldl (p s v ia w : Nat)
  /-- SSTU (R269): Stores one element and releases the SRF lock. -/
  | sstu (p s v ia w : Nat)
  /-- SLD (R268): Loads a 128-byte SRF row by offset. -/
  | sld (p s v imm : Nat) (x : Option Nat)
  /-- SST (R268): Stores a 128-byte SRF row by offset. -/
  | sst (p s v imm : Nat) (x : Option Nat)
  /-- DQPOP (R259): Pops landed data-queue entries into a vector register. -/
  | dqpop (p v n w : Nat)
  /-- DQN (R259): Reports data-queue and address-queue occupancy. -/
  | dqn (p v : Nat)
  /-- SFLUSH (R266): Stalls until earlier pushes to a port are written. -/
  | sflush (p s : Nat)
  /-- KCOPY (R271): Starts a copy from the kernel, after a token wait where needed. -/
  | kcopy (p s dir limit : Nat)
  /-- SPOS (R266): Sets a linear port's position from a vector element. -/
  | spos (p s v : Nat)
  /-- SEOS (R266): Sets a queue's end-of-stream mark after earlier pushes are written. -/
  | seos (p s : Nat)
deriving DecidableEq, Repr

end Sys2Proof
end

