-- ==== Sys2Proof/Decode.lean ====
section
/-! DEFINITION. The decoder: words of the stream controller (06 R131, 07 R155), slot words of a bundle (04), and
micro-op words (11 R298), each total, refusing what is no instruction. After it the encoder, written from the same
tables, and `decodeTableWord`. -/

namespace Sys2Proof

/-- Bits `lo` up to `lo + n - 1` of `w`. -/
def fld (w lo n : Nat) : Nat := w / 2 ^ lo % 2 ^ n

/-- The `n`-bit value `v`, sign-extended to an integer. -/
def sintOf (v n : Nat) : Int := if v / 2 ^ (n - 1) % 2 = 1 then (v % 2 ^ n : Nat) - (2 ^ n : Nat) else ((v % 2 ^ n : Nat) : Int)

/-- The `n`-bit value `v`, sign-extended to 64 bits. -/
def sx (v n : Nat) : Dword := BitVec.ofInt 64 (sintOf v n)

/-! ## The controller's standard instructions (RV64IMAFDC with Zicsr and FENCE.I) -/

/-- The integer operations on registers: opcode 0x33, and 0x3B for the 32-bit forms. -/
def decodeOp (w : Nat) (half : Bool) : Option Instr :=
  let rd := fld w 7 5; let rs1 := fld w 15 5; let rs2 := fld w 20 5
  let alu (op : AluOp) : Option Instr := some (.rvIntegerAlu false op half rd rs1 (.reg rs2))
  match fld w 25 7, fld w 12 3, half with
  | 0, 0, _ => alu .add
  | 0x20, 0, _ => alu .sub
  | 0, 1, _ => alu .sll
  | 0, 2, false => alu .slt
  | 0, 3, false => alu .sltu
  | 0, 4, false => alu .xor
  | 0, 5, _ => alu .srl
  | 0x20, 5, _ => alu .sra
  | 0, 6, false => alu .or
  | 0, 7, false => alu .and
  | 1, 0, false => some (.rvMultiply .mul rd rs1 rs2)
  | 1, 1, false => some (.rvMultiply .mulh rd rs1 rs2)
  | 1, 2, false => some (.rvMultiply .mulhsu rd rs1 rs2)
  | 1, 3, false => some (.rvMultiply .mulhu rd rs1 rs2)
  | 1, 0, true => some (.rvMultiply .mulw rd rs1 rs2)
  | 1, 4, h => some (.rvDivide .div h rd rs1 rs2)
  | 1, 5, h => some (.rvDivide .divu h rd rs1 rs2)
  | 1, 6, h => some (.rvDivide .rem h rd rs1 rs2)
  | 1, 7, h => some (.rvDivide .remu h rd rs1 rs2)
  | _, _, _ => none

/-- The integer operations on an immediate: opcode 0x13, and 0x1B for the 32-bit forms. -/
def decodeOpImm (w : Nat) (half : Bool) : Option Instr :=
  let rd := fld w 7 5; let rs1 := fld w 15 5
  let alu (op : AluOp) (v : Dword) : Option Instr := some (.rvIntegerAlu false op half rd rs1 (.imm v))
  let i := sx (fld w 20 12) 12
  let sh := BitVec.ofNat 64 (fld w 20 6)
  let f6 := if half then fld w 25 7 * 2 else fld w 26 6 * 4
  match fld w 12 3, half with
  | 0, _ => alu .add i
  | 2, false => alu .slt i
  | 3, false => alu .sltu i
  | 4, false => alu .xor i
  | 6, false => alu .or i
  | 7, false => alu .and i
  | 1, _ => if f6 = 0 then alu .sll sh else none
  | 5, _ => if f6 = 0 then alu .srl sh else if f6 = 0x40 then alu .sra sh else none
  | _, _ => none

/-- Loads (0x03), and FLW and FLD (0x07). -/
def loadKindOf (fp : Bool) (f3 : Nat) : Option LoadKind :=
  match fp, f3 with
  | false, 0 => some .lb
  | false, 1 => some .lh
  | false, 2 => some .lw
  | false, 3 => some .ld
  | false, 4 => some .lbu
  | false, 5 => some .lhu
  | false, 6 => some .lwu
  | true, 2 => some .flw
  | true, 3 => some .fld
  | _, _ => none

/-- Stores (0x23), and FSW and FSD (0x27). -/
def storeKindOf (fp : Bool) (f3 : Nat) : Option StoreKind :=
  match fp, f3 with
  | false, 0 => some .sb
  | false, 1 => some .sh
  | false, 2 => some .sw
  | false, 3 => some .sd
  | true, 2 => some .fsw
  | true, 3 => some .fsd
  | _, _ => none

/-- Conditional branches (0x63). -/
def brKindOf : Nat → Option BrKind
  | 0 => some .beq
  | 1 => some .bne
  | 4 => some .blt
  | 5 => some .bge
  | 6 => some .bltu
  | 7 => some .bgeu
  | _ => none

/-- The branch offset of a B-type word. -/
def bOffset (w : Nat) : Dword :=
  sx (fld w 31 1 * 2 ^ 12 + fld w 7 1 * 2 ^ 11 + fld w 25 6 * 2 ^ 5 + fld w 8 4 * 2) 13

/-- The jump offset of a J-type word. -/
def jOffset (w : Nat) : Dword :=
  sx (fld w 31 1 * 2 ^ 20 + fld w 12 8 * 2 ^ 12 + fld w 20 1 * 2 ^ 11 + fld w 21 10 * 2) 21

/-- A rounding-mode field: 5 and 6 are reserved. -/
def rmOk (rm : Nat) : Bool := decide (rm < 5) || decide (rm = 7)

/-- F and D operations (0x53). -/
def decodeFp (w : Nat) : Option Instr :=
  let rd := fld w 7 5; let rs1 := fld w 15 5; let rs2 := fld w 20 5; let f3 := fld w 12 3
  if 2 ≤ fld w 25 2 then none else
  let dbl := decide (fld w 25 2 = 1)
  let op (o : FOp) : Option Instr := if rmOk f3 then some (.rvFloatOp o dbl rd rs1 rs2 0 f3) else none
  let op1 (o : FOp) : Option Instr := if rmOk f3 then some (.rvFloatOp o dbl rd rs1 0 0 f3) else none
  match fld w 27 5 with
  | 0x00 => op .add
  | 0x01 => op .sub
  | 0x02 => op .mul
  | 0x03 => if rmOk f3 then some (.rvFdivFsqrt false dbl rd rs1 rs2 f3) else none
  | 0x0B => if rs2 = 0 ∧ rmOk f3 then some (.rvFdivFsqrt true dbl rd rs1 0 f3) else none
  | 0x04 =>
    match f3 with
    | 0 => some (.rvFloatOp .sgnj dbl rd rs1 rs2 0 0)
    | 1 => some (.rvFloatOp .sgnjn dbl rd rs1 rs2 0 0)
    | 2 => some (.rvFloatOp .sgnjx dbl rd rs1 rs2 0 0)
    | _ => none
  | 0x05 =>
    match f3 with
    | 0 => some (.rvFloatOp .min dbl rd rs1 rs2 0 0)
    | 1 => some (.rvFloatOp .max dbl rd rs1 rs2 0 0)
    | _ => none
  | 0x14 =>
    match f3 with
    | 0 => some (.rvFloatOp .le dbl rd rs1 rs2 0 0)
    | 1 => some (.rvFloatOp .lt dbl rd rs1 rs2 0 0)
    | 2 => some (.rvFloatOp .eq dbl rd rs1 rs2 0 0)
    | _ => none
  | 0x18 =>
    match rs2 with
    | 0 => op1 .cvtWF
    | 1 => op1 .cvtWuF
    | 2 => op1 .cvtLF
    | 3 => op1 .cvtLuF
    | _ => none
  | 0x1A =>
    match rs2 with
    | 0 => op1 .cvtFW
    | 1 => op1 .cvtFWu
    | 2 => op1 .cvtFL
    | 3 => op1 .cvtFLu
    | _ => none
  | 0x08 => if rs2 = (if dbl then 0 else 1) then op1 .cvtFF else none
  | 0x1C =>
    if rs2 = 0 then
      match f3 with
      | 0 => some (.rvFloatOp .mvXF dbl rd rs1 0 0 0)
      | 1 => some (.rvFloatOp .cls dbl rd rs1 0 0 0)
      | _ => none
    else none
  | 0x1E => if rs2 = 0 ∧ f3 = 0 then some (.rvFloatOp .mvFX dbl rd rs1 0 0 0) else none
  | _ => none

/-- The fused multiply-adds (0x43, 0x47, 0x4B, 0x4F). -/
def decodeFma (o : FOp) (w : Nat) : Option Instr :=
  if fld w 25 2 < 2 ∧ rmOk (fld w 12 3) then
    some (.rvFloatOp o (decide (fld w 25 2 = 1)) (fld w 7 5) (fld w 15 5) (fld w 20 5) (fld w 27 5) (fld w 12 3))
  else none

/-- The A extension (0x2F). -/
def decodeAmo (w : Nat) : Option Instr :=
  let rd := fld w 7 5; let rs1 := fld w 15 5; let rs2 := fld w 20 5; let aqrl := fld w 25 2
  if fld w 12 3 = 2 ∨ fld w 12 3 = 3 then
    let d := decide (fld w 12 3 = 3)
    match fld w 27 5 with
    | 0x02 => if rs2 = 0 then some (.lr d aqrl rd rs1) else none
    | 0x03 => some (.sc d aqrl rd rs1 rs2)
    | 0x01 => some (.rvAmo .swap d aqrl rd rs1 rs2)
    | 0x00 => some (.rvAmo .add d aqrl rd rs1 rs2)
    | 0x04 => some (.rvAmo .xor d aqrl rd rs1 rs2)
    | 0x0C => some (.rvAmo .and d aqrl rd rs1 rs2)
    | 0x08 => some (.rvAmo .or d aqrl rd rs1 rs2)
    | 0x10 => some (.rvAmo .min d aqrl rd rs1 rs2)
    | 0x14 => some (.rvAmo .max d aqrl rd rs1 rs2)
    | 0x18 => some (.rvAmo .minu d aqrl rd rs1 rs2)
    | 0x1C => some (.rvAmo .maxu d aqrl rd rs1 rs2)
    | _ => none
  else none

/-- ECALL, EBREAK and the CSR accesses (0x73). MRET and WFI are no instruction of the part (19 R402). -/
def decodeSystem (w : Nat) : Option Instr :=
  let rd := fld w 7 5; let rs1 := fld w 15 5; let csr := fld w 20 12
  match fld w 12 3 with
  | 0 => if rd = 0 ∧ rs1 = 0 then (match csr with | 0 => some .ecall | 1 => some (.ebreak false) | _ => none) else none
  | 1 => some (.rvCsrAccess .rw false csr rd rs1)
  | 2 => some (.rvCsrAccess .rs false csr rd rs1)
  | 3 => some (.rvCsrAccess .rc false csr rd rs1)
  | 5 => some (.rvCsrAccess .rw true csr rd rs1)
  | 6 => some (.rvCsrAccess .rs true csr rd rs1)
  | 7 => some (.rvCsrAccess .rc true csr rd rs1)
  | _ => none

/-- The compressed words (06 R131: a compressed instruction is as the one it expands to). -/
def decodeRvc (h : Nat) : Option Instr :=
  let rdc := fld h 2 3 + 8; let rs1c := fld h 7 3 + 8
  let rd := fld h 7 5; let rs2 := fld h 2 5
  let imm6 := sx (fld h 12 1 * 2 ^ 5 + fld h 2 5) 6
  let shamt := BitVec.ofNat 64 (fld h 12 1 * 2 ^ 5 + fld h 2 5)
  let uw := BitVec.ofNat 64 (fld h 5 1 * 2 ^ 6 + fld h 10 3 * 2 ^ 3 + fld h 6 1 * 2 ^ 2)
  let ud := BitVec.ofNat 64 (fld h 5 2 * 2 ^ 6 + fld h 10 3 * 2 ^ 3)
  let lwsp := BitVec.ofNat 64 (fld h 2 2 * 2 ^ 6 + fld h 12 1 * 2 ^ 5 + fld h 4 3 * 2 ^ 2)
  let ldsp := BitVec.ofNat 64 (fld h 2 3 * 2 ^ 6 + fld h 12 1 * 2 ^ 5 + fld h 5 2 * 2 ^ 3)
  let swsp := BitVec.ofNat 64 (fld h 7 2 * 2 ^ 6 + fld h 9 4 * 2 ^ 2)
  let sdsp := BitVec.ofNat 64 (fld h 7 3 * 2 ^ 6 + fld h 10 3 * 2 ^ 3)
  let cj := sx (fld h 12 1 * 2 ^ 11 + fld h 8 1 * 2 ^ 10 + fld h 9 2 * 2 ^ 8 + fld h 6 1 * 2 ^ 7 + fld h 7 1 * 2 ^ 6
    + fld h 2 1 * 2 ^ 5 + fld h 11 1 * 2 ^ 4 + fld h 3 3 * 2) 12
  let cb := sx (fld h 12 1 * 2 ^ 8 + fld h 5 2 * 2 ^ 6 + fld h 2 1 * 2 ^ 5 + fld h 10 2 * 2 ^ 3 + fld h 3 2 * 2) 9
  let alu (op : AluOp) (d s : Nat) (v : RvSrc) (half : Bool := false) : Option Instr :=
    some (.rvIntegerAlu true op half d s v)
  match fld h 0 2, fld h 13 3 with
  | 0, 0 =>
    let n := fld h 7 4 * 2 ^ 6 + fld h 11 2 * 2 ^ 4 + fld h 5 1 * 2 ^ 3 + fld h 6 1 * 2 ^ 2
    if n = 0 then none else alu .add rdc 2 (.imm (BitVec.ofNat 64 n))
  | 0, 1 => some (.rvLoad true .fld rdc rs1c ud)
  | 0, 2 => some (.rvLoad true .lw rdc rs1c uw)
  | 0, 3 => some (.rvLoad true .ld rdc rs1c ud)
  | 0, 5 => some (.rvStore true .fsd rdc rs1c ud)
  | 0, 6 => some (.rvStore true .sw rdc rs1c uw)
  | 0, 7 => some (.rvStore true .sd rdc rs1c ud)
  | 1, 0 => alu .add rd rd (.imm imm6)
  | 1, 1 => if rd = 0 then none else alu .add rd rd (.imm imm6) true
  | 1, 2 => alu .add rd 0 (.imm imm6)
  | 1, 3 =>
    if fld h 12 1 * 2 ^ 5 + fld h 2 5 = 0 then none
    else if rd = 2 then
      alu .add 2 2 (.imm (sx (fld h 12 1 * 2 ^ 9 + fld h 3 2 * 2 ^ 7 + fld h 5 1 * 2 ^ 6 + fld h 2 1 * 2 ^ 5 + fld h 6 1 * 2 ^ 4) 10))
    else alu .lui rd 0 (.imm (sx ((fld h 12 1 * 2 ^ 5 + fld h 2 5) * 2 ^ 12) 18))
  | 1, 4 =>
    match fld h 10 2 with
    | 0 => alu .srl rs1c rs1c (.imm shamt)
    | 1 => alu .sra rs1c rs1c (.imm shamt)
    | 2 => alu .and rs1c rs1c (.imm imm6)
    | _ =>
      match fld h 12 1, fld h 5 2 with
      | 0, 0 => alu .sub rs1c rs1c (.reg rdc)
      | 0, 1 => alu .xor rs1c rs1c (.reg rdc)
      | 0, 2 => alu .or rs1c rs1c (.reg rdc)
      | 0, _ => alu .and rs1c rs1c (.reg rdc)
      | _, 0 => alu .sub rs1c rs1c (.reg rdc) true
      | _, 1 => alu .add rs1c rs1c (.reg rdc) true
      | _, _ => none
  | 1, 5 => some (.jal true 0 cj)
  | 1, 6 => some (.rvBranch true .beq rs1c 0 cb)
  | 1, 7 => some (.rvBranch true .bne rs1c 0 cb)
  | 2, 0 => alu .sll rd rd (.imm shamt)
  | 2, 1 => some (.rvLoad true .fld rd 2 ldsp)
  | 2, 2 => if rd = 0 then none else some (.rvLoad true .lw rd 2 lwsp)
  | 2, 3 => if rd = 0 then none else some (.rvLoad true .ld rd 2 ldsp)
  | 2, 4 =>
    if fld h 12 1 = 0 then
      if rs2 = 0 then (if rd = 0 then none else some (.jalr true 0 rd 0))
      else alu .add rd 0 (.reg rs2)
    else if rs2 = 0 then (if rd = 0 then some (.ebreak true) else some (.jalr true 1 rd 0))
    else alu .add rd rd (.reg rs2)
  | 2, 5 => some (.rvStore true .fsd rs2 2 sdsp)
  | 2, 6 => some (.rvStore true .sw rs2 2 swsp)
  | 2, 7 => some (.rvStore true .sd rs2 2 sdsp)
  | _, _ => none

/-- The stream extension (04 R112, 07 R155): a cell with a funct7 the table does not define, or a field that the
form does not name and that is not 0, is no instruction (04 R113, 07 R152). -/
def decodeStream (w : Nat) : Option Instr :=
  let f7 := fld w 25 7; let rs2 := fld w 20 5; let rs1 := fld w 15 5; let rd := fld w 7 5
  match fld w 0 7, fld w 12 3 with
  | 0x0B, 0 => if f7 = 0 then some (.palloc rd rs1 rs2) else none
  | 0x0B, 1 => if f7 = 0 ∧ rs2 = 0 then some (.pfree rd rs1) else none
  | 0x0B, 2 => if f7 = 0 ∧ rs2 = 0 then some (.pinfo rd rs1) else none
  | 0x0B, 3 => if rs2 = 0 ∧ rd < 16 then some (.sdset rd rs1 f7) else none
  | 0x0B, 4 => if rs2 = 0 ∧ rs1 < 16 then some (.sdget rd rs1 f7) else none
  | 0x0B, 5 => if f7 = 0 ∧ rs2 = 0 ∧ rd < 16 ∧ rs1 < 16 then some (.sdcopy rd rs1) else none
  | 0x2B, 0 => if f7 % 8 = 0 then some (.sload rd (f7 / 8) rs1 rs2) else none
  | 0x2B, 1 => if f7 % 8 = 0 then some (.sstore rd (f7 / 8) rs1 rs2) else none
  | 0x2B, 2 => if f7 % 8 = 0 then some (.sgather rd (f7 / 8) rs1 rs2) else none
  | 0x2B, 3 => if f7 % 8 = 0 then some (.sscatter rd (f7 / 8) rs1 rs2) else none
  | 0x2B, 4 => if f7 % 8 = 0 then some (.sscadd rd (f7 / 8) rs1 rs2) else none
  | 0x2B, 5 => if f7 % 8 = 0 then some (.scopy rd (f7 / 8) rs1 rs2) else none
  | 0x2B, 6 => if f7 = 0 ∧ rd = 0 then some (.spref rs1 rs2) else none
  | 0x2B, 7 => if f7 % 8 = 0 then some (.satomAdd rd (f7 / 8) rs1 rs2) else if f7 % 8 = 1 then some (.satomSwap rd (f7 / 8) rs1 rs2) else if f7 % 8 = 2 then some (.satomCas rd (f7 / 8) rs1 rs2) else if f7 % 8 = 3 then some (.satomMin rd (f7 / 8) rs1 rs2) else if f7 % 8 = 4 then some (.satomMax rd (f7 / 8) rs1 rs2) else if f7 % 8 = 5 then some (.satomAnd rd (f7 / 8) rs1 rs2) else if f7 % 8 = 6 then some (.satomOr rd (f7 / 8) rs1 rs2) else none
  | 0x5B, 0 => if f7 = 0 then some (.krun rd rs1 rs2) else none
  | 0x5B, 1 => if f7 = 0 then some (.kstage rd rs1 rs2) else none
  | 0x5B, 2 => if f7 = 0 then some (.kpipe rd rs1 rs2) else none
  | 0x5B, 3 => if f7 = 0 ∧ rs1 = 0 ∧ rs2 = 0 then some (.khalt rd) else none
  | 0x5B, 4 => if f7 = 0 then some (.svadd rd rs1 rs2) else if f7 = 1 then some (.svmul rd rs1 rs2) else if f7 = 2 then some (.svfma rd rs1 rs2) else if f7 = 3 then some (.svcvt rd rs1 rs2) else if f7 = 4 then some (.svscale rd rs1 rs2) else if f7 = 5 then some (.svmax rd rs1 rs2) else if f7 = 6 then some (.svmin rd rs1 rs2) else if f7 = 7 then some (.svcopy rd rs1 rs2) else if f7 = 8 then some (.svfill rd rs1 rs2) else none
  | 0x5B, 5 => if f7 = 0 then some (.mload rd rs1 rs2) else none
  | 0x5B, 6 => if f7 = 0 then some (.spmerge rd rs1 rs2) else none
  | 0x5B, 7 => if f7 = 0 ∧ rs1 = 0 then some (.spdrain rd rs2) else none
  | 0x7B, 0 => if f7 = 0 then some (.awinit rd rs1 rs2) else none
  | 0x7B, 1 => if f7 = 0 then some (.await rd rs1 rs2) else none
  | 0x7B, 2 => if f7 = 0 then some (.acq rd rs1 rs2) else if f7 = 1 ∧ rs2 = 0 then some (.rel rd rs1) else none
  | 0x7B, 3 => if f7 = 0 then some (.tacq rd rs1 rs2) else if f7 = 1 ∧ rs2 = 0 then some (.trel rd rs1) else none
  | 0x7B, 4 => if f7 = 0 ∧ rs2 = 0 then some (.fencex rd rs1) else none
  | 0x7B, 5 => if f7 = 0 ∧ rs2 = 0 then some (.swait rd rs1) else if f7 = 1 ∧ rs2 = 0 then some (.sbar rd rs1) else none
  | 0x7B, 6 => if f7 = 0 then some (.spawn rd rs1 rs2) else if f7 = 1 ∧ rs2 = 0 ∧ rs1 = 0 ∧ rd = 0 then some (.texit) else if f7 = 2 ∧ rs2 = 0 then some (.tsplit rd rs1) else if f7 = 3 ∧ rs2 = 0 ∧ rs1 = 0 then some (.treseed rd) else none
  | 0x7B, 7 => if f7 = 0 ∧ rs2 = 0 then some (.gsync rd rs1) else if f7 = 1 ∧ rs2 = 0 ∧ rs1 = 0 then some (.syield rd) else if f7 = 2 ∧ rs2 = 0 then some (.sstat rd rs1) else none
  | _, _ => none

/-- A 32-bit word of the controller. -/
def decodeWord (w : Nat) : Option Instr :=
  let rd := fld w 7 5; let rs1 := fld w 15 5; let f3 := fld w 12 3
  match fld w 0 7 with
  | 0x37 => some (.rvIntegerAlu false .lui false rd 0 (.imm (sx (fld w 12 20 * 2 ^ 12) 32)))
  | 0x17 => some (.rvIntegerAlu false .auipc false rd 0 (.imm (sx (fld w 12 20 * 2 ^ 12) 32)))
  | 0x33 => decodeOp w false
  | 0x3B => decodeOp w true
  | 0x13 => decodeOpImm w false
  | 0x1B => decodeOpImm w true
  | 0x03 => (loadKindOf false f3).map fun k => .rvLoad false k rd rs1 (sx (fld w 20 12) 12)
  | 0x07 => (loadKindOf true f3).map fun k => .rvLoad false k rd rs1 (sx (fld w 20 12) 12)
  | 0x23 => (storeKindOf false f3).map fun k => .rvStore false k (fld w 20 5) rs1 (sx (fld w 25 7 * 2 ^ 5 + rd) 12)
  | 0x27 => (storeKindOf true f3).map fun k => .rvStore false k (fld w 20 5) rs1 (sx (fld w 25 7 * 2 ^ 5 + rd) 12)
  | 0x63 => (brKindOf f3).map fun k => .rvBranch false k rs1 (fld w 20 5) (bOffset w)
  | 0x6F => some (.jal false rd (jOffset w))
  | 0x67 => if f3 = 0 then some (.jalr false rd rs1 (sx (fld w 20 12) 12)) else none
  | 0x0F => if f3 = 0 then some (.fence false (fld w 20 12)) else if f3 = 1 then some (.fence true (fld w 20 12)) else none
  | 0x73 => decodeSystem w
  | 0x2F => decodeAmo w
  | 0x53 => decodeFp w
  | 0x43 => decodeFma .madd w
  | 0x47 => decodeFma .msub w
  | 0x4B => decodeFma .nmsub w
  | 0x4F => decodeFma .nmadd w
  | 0x0B => decodeStream w
  | 0x2B => decodeStream w
  | 0x5B => decodeStream w
  | 0x7B => decodeStream w
  | _ => none

/-- The instruction at the controller's pc, of which `w` holds the first 32 bits: a word whose low two bits are not
11 is a compressed one. -/
def decodeCtl (w : Nat) : Option Instr := if w % 4 = 3 then decodeWord (w % 2 ^ 32) else decodeRvc (w % 2 ^ 16)

/-- The byte length of the instruction whose first bits are `w`. -/
def ctlLength (w : Nat) : Nat := if w % 4 = 3 then 4 else 2

/-! ## The V slots -/

/-- Bytes of an element of V type `t` (04 R100). -/
def typeBytes : Nat → Nat
  | 0 => 1
  | 1 => 2
  | 2 => 4
  | 3 => 8
  | 4 => 2
  | 5 => 2
  | _ => 4

/-- `⌈a / b⌉`. -/
def ceilDiv (a b : Nat) : Nat := (a + b - 1) / b

/-- The types a V opcode accepts, as the lowest and the highest code (04 R108; 09 R237, R241, R242). -/
def vTypes (op : Nat) : Nat × Nat :=
  if op = 0x0B ∨ op = 0x1A ∨ op = 0x1B then (1, 3)
  else if op ≤ 0x22 then (0, 3)
  else if op ≤ 0x3F ∨ op = 0x41 ∨ op = 0x42 ∨ (0x48 ≤ op ∧ op ≤ 0x4E) then (4, 6)
  else (0, 6)

/-- Whether the opcode reads the a, b and c fields as operands (09 R236 to R248). -/
def vReads (op : Nat) : Bool × Bool × Bool :=
  if op = 0x5A then (false, false, false)
  else if op = 0x20 ∨ op = 0x33 ∨ op = 0x34 ∨ op = 0x35 then (true, true, true)
  else if op = 0x56 ∨ op = 0x57 then (true, false, true)
  else if op = 0x54 ∨ op = 0x42 then (true, true, false)
  else if op ≤ 0x0F ∨ (0x12 ≤ op ∧ op ≤ 0x19) ∨ (0x1C ≤ op ∧ op ≤ 0x1F) then (true, true, false)
  else if (0x30 ≤ op ∧ op ≤ 0x37) ∨ (0x3A ≤ op ∧ op ≤ 0x3D) ∨ op = 0x3F ∨ op = 0x58 then (true, true, false)
  else (true, false, false)

/-- The instruction has no rounding to name, so rnd must be 00 (04 R100; 09 R236, R238, R244, R246, R247, R248).
VRSUM and VSCAN round, whatever the type (R244, R245). -/
def vNoRound (op : Nat) (o : VSlot) : Bool :=
  decide (op ≤ 0x22) || decide (0x36 ≤ op ∧ op ≤ 0x3E) || decide (0x51 ≤ op ∧ op ≤ 0x54) || decide (op = 0x56)
    || decide (op = 0x57) || decide (op = 0x5A) || (decide (op = 0x58) && decide (o.ty ≤ 3))
    || (decide (op = 0x59) && !decide (128 ≤ o.a ∧ o.a ≤ 143))

/-- The registers that the fields vd, a, b and c of a V slot span when they name v registers (04 R101; 09 R237,
R240, R241, R242, R244, R247). -/
structure VSpan where
  vd : Nat
  a : Nat
  b : Nat
  c : Nat
deriving DecidableEq, Repr

/-- The spans of the four fields. -/
def vSpan (op : Nat) (o : VSlot) : VSpan :=
  let l := o.len + 1; let eb := typeBytes o.ty
  let codes := ceilDiv (l * 128 / eb) 128
  if 0x50 ≤ op ∧ op ≤ 0x53 then ⟨1, l, l, l⟩
  else if op = 0x54 then ⟨1, l, l, 1⟩
  else if op = 0x0B ∨ op = 0x1B then ⟨l, (l + 1) / 2, (l + 1) / 2, l⟩
  else if op = 0x1A then ⟨l, 2 * l, l, l⟩
  else if op = 0x40 then ⟨l, ceilDiv (l * typeBytes (o.c % 8)) eb, l, l⟩
  else if op = 0x41 then ⟨codes, l, 1, l⟩
  else if op = 0x42 then ⟨l, codes, 1, l⟩
  else ⟨l, l, l, l⟩

/-- The c field of the instructions in which it is no operand (09 R237, R240, R241). -/
def vCField (op : Nat) (o : VSlot) : Bool :=
  if op = 0x0B ∨ op = 0x1B then decide (o.c ≤ 1)
  else if op = 0x40 then
    decide (o.c < 32) && decide (o.c % 8 < 7) && (decide (fld o.c 4 1 = 0) || decide (o.ty ≤ 3))
      && (decide (fld o.c 3 1 = 0) || decide (o.c % 8 ≤ 3))
  else if op = 0x41 ∨ op = 0x42 then decide (o.c < 16) && decide (1 ≤ o.c / 2) && decide (o.c / 2 ≤ 4)
  else if op = 0x54 then decide (o.c < 128) && decide (o.c ≠ o.vd)
  else (vReads op).2.2 || decide (o.c = 0)

/-- A field names v registers that would pass v127. -/
def vOver (f span : Nat) : Bool := decide (f < 128) && decide (128 < f + span)

/-- The field is a stream port of the operand space (04 R101). -/
def isPort (f : Nat) : Bool := decide (128 ≤ f) && decide (f < 144)

/-- The static rules of a V slot with opcode `op` (04 R100 to R103; 09 R236 to R248; 10 R262): its operand, type,
group, rounding and modifier fields are legal and every unused field is 0. -/
def vLegal (op : Nat) (o : VSlot) : Bool :=
  let rd := vReads op; let sp := vSpan op o
  let secondDest := decide (op = 0x41)
  decide ((vTypes op).1 ≤ o.ty) && decide (o.ty ≤ (vTypes op).2) && decide (o.len < 6)
    && (rd.1 || decide (o.a = 0))
    && (rd.2.1 || secondDest || decide (o.b = 0))
    && vCField op o
    && (if o.md / 1024 = 0 then decide (o.md = 0) && decide (o.ms = 0)
        else if o.ms = 0 then rd.1 else rd.2.1)
    && (!vNoRound op o || decide (o.rnd = 0))
    && decide (o.vd < 144)
    && (!isPort o.vd || !(decide (op = 0x0A) || decide (op = 0x0B) || decide (op = 0x54) || decide (op = 0x41) || decide (op = 0x42)
        || (rd.1 && decide (o.a = o.vd)) || (rd.2.1 && decide (o.b = o.vd)) || (rd.2.2 && decide (o.c = o.vd))))
    && (!(decide (op = 0x41) || decide (op = 0x42)) || decide (o.b < 128))
    && (!decide (op = 0x42) || decide (o.a < 128))
    && (!(decide (op = 0x41) || decide (op = 0x42)) || !decide (o.vd ≤ o.b ∧ o.b < o.vd + sp.vd))
    && (!decide (op = 0x54) || decide (144 ≤ o.b ∧ o.b < 224))
    && !vOver o.vd sp.vd && !(rd.1 && vOver o.a sp.a) && !((rd.2.1 || secondDest) && vOver o.b sp.b)
    && !((rd.2.2 || decide (op = 0x54)) && vOver o.c sp.c)

/-- The fields of a V slot word (04 R100). -/
def vslotOf (w : Nat) : VSlot :=
  { pred := fld w 7 4, len := fld w 11 3, vd := fld w 14 8, a := fld w 22 8, b := fld w 30 8, c := fld w 38 8,
    md := fld w 46 12, ms := fld w 58 1, ty := fld w 59 3, rnd := fld w 62 2 }

/-- The bits above the opcode of a V slot word. -/
def vslotWord (o : VSlot) : Nat :=
  o.pred * 2 ^ 7 + o.len * 2 ^ 11 + o.vd * 2 ^ 14 + o.a * 2 ^ 22 + o.b * 2 ^ 30 + o.c * 2 ^ 38 + o.md * 2 ^ 46
    + o.ms * 2 ^ 58 + o.ty * 2 ^ 59 + o.rnd * 2 ^ 62

/-! ## The other slots -/


/-- The C slot (04 R106, 08 R198). `x` is the high part of an extension word that widens this slot. The
code generator cannot build a constructor of so large a type, so it is noncomputable; the kernel evaluates it. -/
noncomputable def decodeC (w : Nat) (x : Option Nat) : Option Instr :=
  match fld w 0 6 with
  | 0x01 => if x = none then some (.pbt (fld w 6 4) (fld w 10 3) (fld w 13 19)) else none
  | 0x02 => if fld w 24 8 = 0 ∧ (fld w 13 3) < 6 ∧ x = none then some (.cmp (fld w 6 4) (fld w 10 3) (fld w 13 3) (fld w 16 4) (fld w 20 4)) else none
  | 0x03 => if (fld w 13 3) < 6 ∧ x = none then some (.cmpi (fld w 6 4) (fld w 10 3) (fld w 13 3) (fld w 16 4) (fld w 20 12)) else none
  | 0x04 =>
    let p := fld w 6 4; let b := fld w 10 3; let c := fld w 13 3
    if fld w 18 14 = 0 ∧ x = none then
      match fld w 16 2 with
      | 0 => some (.brT p b c)
      | 1 => some (.brF p b c)
      | 2 => if c = 0 then some (.br p b) else none
      | _ => if c = 0 ∧ b = 0 then some (.brR p) else none
    else none
  | 0x05 => if fld w 13 19 = 0 ∧ x = none then some (.brl (fld w 6 4) (fld w 10 3)) else none
  | 0x06 => if fld w 13 3 = 0 ∧ ((fld w 12 1) = 0 ∨ (fld w 16 16) < 16) ∧ x = none then some (.loop (fld w 6 4) (fld w 10 2) (fld w 12 1) (fld w 16 16)) else none
  | 0x07 => if fld w 13 3 = 0 ∧ ((fld w 12 1) = 0 ∨ (fld w 16 16) < 16) ∧ x = none then some (.loopi (fld w 6 4) (fld w 10 2) (fld w 12 1) (fld w 16 16)) else none
  | 0x08 => if ((fld w 12 1) = 0 ∨ (fld w 16 16) < 16) ∧ x = none then some (.loopm (fld w 6 4) (fld w 10 2) (fld w 12 1) (fld w 16 16) (fld w 13 3)) else none
  | 0x09 => if fld w 25 7 = 0 ∧ x = none then some (.vany (fld w 6 4) (fld w 10 3) (fld w 13 7) (fld w 20 2) (fld w 22 3)) else none
  | 0x0A => if fld w 25 7 = 0 ∧ x = none then some (.vall (fld w 6 4) (fld w 10 3) (fld w 13 7) (fld w 20 2) (fld w 22 3)) else none
  | 0x0B => if fld w 23 9 = 0 ∧ x = none then some (.clog (fld w 6 4) (fld w 10 3) (fld w 13 3) (fld w 16 3) (fld w 19 4)) else none
  | 0x0C => if fld w 10 22 = 0 ∧ x = none then some (.yieldK (fld w 6 4)) else none
  | 0x0D => if fld w 12 20 = 0 ∧ x = none then some (.sync (fld w 6 4) (fld w 10 2)) else none
  | 0x0E => if fld w 10 22 = 0 ∧ x = none then some (.decouple (fld w 6 4)) else none
  | 0x0F => if fld w 10 22 = 0 ∧ x = none then some (.rejoin (fld w 6 4)) else none
  | 0x10 => if fld w 10 22 = 0 ∧ x = none then some (.endK (fld w 6 4)) else none
  | 0x11 => if fld w 18 14 = 0 ∧ x = none then some (.ktrap (fld w 6 4) (fld w 10 8)) else none
  | 0x12 => if fld w 22 10 = 0 ∧ x = none then some (.qadd (fld w 6 4) (fld w 10 4) (fld w 14 4) (fld w 18 4)) else none
  | 0x13 => if fld w 22 10 = 0 ∧ x = none then some (.qsub (fld w 6 4) (fld w 10 4) (fld w 14 4) (fld w 18 4)) else none
  | 0x14 => some (.qaddi (fld w 6 4) (fld w 10 4) (fld w 14 4) (fld w 18 14) x)
  | 0x15 => if fld w 22 10 = 0 ∧ x = none then some (.qmul (fld w 6 4) (fld w 10 4) (fld w 14 4) (fld w 18 4)) else none
  | 0x16 => if fld w 22 10 = 0 ∧ x = none then some (.qand (fld w 6 4) (fld w 10 4) (fld w 14 4) (fld w 18 4)) else none
  | 0x17 => if fld w 22 10 = 0 ∧ x = none then some (.qor (fld w 6 4) (fld w 10 4) (fld w 14 4) (fld w 18 4)) else none
  | 0x18 => if fld w 22 10 = 0 ∧ x = none then some (.qxor (fld w 6 4) (fld w 10 4) (fld w 14 4) (fld w 18 4)) else none
  | 0x19 => if fld w 22 10 = 0 ∧ x = none then some (.qshl (fld w 6 4) (fld w 10 4) (fld w 14 4) (fld w 18 4)) else none
  | 0x1A => if fld w 22 10 = 0 ∧ x = none then some (.qshr (fld w 6 4) (fld w 10 4) (fld w 14 4) (fld w 18 4)) else none
  | 0x1B => if fld w 22 10 = 0 ∧ x = none then some (.qsra (fld w 6 4) (fld w 10 4) (fld w 14 4) (fld w 18 4)) else none
  | 0x1C => if fld w 22 10 = 0 ∧ x = none then some (.qmin (fld w 6 4) (fld w 10 4) (fld w 14 4) (fld w 18 4)) else none
  | 0x1D => if fld w 22 10 = 0 ∧ x = none then some (.qmax (fld w 6 4) (fld w 10 4) (fld w 14 4) (fld w 18 4)) else none
  | 0x1E => some (.qli (fld w 6 4) (fld w 10 4) (fld w 14 18) x)
  | 0x1F => if fld w 18 14 = 0 ∧ (fld w 14 4) < 9 ∧ x = none then some (.qget (fld w 6 4) (fld w 10 4) (fld w 14 4)) else none
  | 0x20 => if fld w 17 15 = 0 ∧ x = none then some (.mset (fld w 6 4) (fld w 10 3) (fld w 13 4)) else none
  | 0x21 => if fld w 18 14 = 0 ∧ (fld w 12 6) ≤ 32 ∧ x = none then some (.mwait (fld w 6 4) (fld w 10 2) (fld w 12 6)) else none
  | 0x22 => if fld w 26 6 = 0 ∧ (fld w 10 3) ≠ 0 ∧ ((fld w 15 1) = 0 ∨ (fld w 16 10) < 16) ∧ x = none then some (.pset (fld w 6 4) (fld w 10 3) (fld w 13 2) (fld w 15 1) (fld w 16 10)) else none
  | 0x23 => if fld w 22 10 = 0 ∧ (fld w 10 3) ≠ 0 ∧ (fld w 15 3) < 6 ∧ x = none then some (.ptail (fld w 6 4) (fld w 10 3) (fld w 13 2) (fld w 18 4) (fld w 15 3)) else none
  | 0x24 => if fld w 27 5 = 0 ∧ x = none then some (.ksr (fld w 6 4) (fld w 10 4) (fld w 14 13)) else none
  | 0x25 => if fld w 14 18 = 0 ∧ x = none then some (.ksc (fld w 6 4) (fld w 10 4)) else none
  | 0x26 =>
    if fld w 17 15 = 0 ∧ x = none then
      if fld w 12 1 = 0 then
        if fld w 13 4 = 0 then some (.kmode (fld w 6 4) 0 (fld w 10 2)) else none
      else if fld w 10 2 = 0 then some (.kmode (fld w 6 4) 1 (fld w 13 4)) else none
    else none
  | 0x27 => if fld w 18 14 = 0 ∧ x = none then some (.pref (fld w 6 4) (fld w 10 4) (fld w 14 4)) else none
  | 0x28 => if fld w 21 11 = 0 ∧ (fld w 18 3) < 5 ∧ x = none then some (.qsd (fld w 6 4) (fld w 10 4) (fld w 14 4) (fld w 18 3)) else none
  | _ => none

/-- The S slot (04 R107, 09 R233). `x` is the high part of an extension word that widens this slot. The
code generator cannot build a constructor of so large a type, so it is noncomputable; the kernel evaluates it. -/
noncomputable def decodeS (w : Nat) (x : Option Nat) : Option Instr :=
  match fld w 0 6 with
  | 0x01 => if fld w 25 7 = 0 ∧ x = none then some (.gadd (fld w 6 4) (fld w 10 5) (fld w 15 5) (fld w 20 5)) else none
  | 0x02 => if fld w 25 7 = 0 ∧ x = none then some (.gsub (fld w 6 4) (fld w 10 5) (fld w 15 5) (fld w 20 5)) else none
  | 0x03 => some (.gaddi (fld w 6 4) (fld w 10 5) (fld w 15 5) (fld w 20 12) x)
  | 0x04 => if fld w 25 7 = 0 ∧ x = none then some (.gmul (fld w 6 4) (fld w 10 5) (fld w 15 5) (fld w 20 5)) else none
  | 0x05 => if (fld w 25 7) < 2 ∧ x = none then some (.gmulh (fld w 6 4) (fld w 10 5) (fld w 15 5) (fld w 20 5) (fld w 25 7)) else none
  | 0x06 => if fld w 25 7 = 0 ∧ x = none then some (.gand (fld w 6 4) (fld w 10 5) (fld w 15 5) (fld w 20 5)) else none
  | 0x07 => if fld w 25 7 = 0 ∧ x = none then some (.gor (fld w 6 4) (fld w 10 5) (fld w 15 5) (fld w 20 5)) else none
  | 0x08 => if fld w 25 7 = 0 ∧ x = none then some (.gxor (fld w 6 4) (fld w 10 5) (fld w 15 5) (fld w 20 5)) else none
  | 0x09 => if fld w 25 7 = 0 ∧ x = none then some (.gshl (fld w 6 4) (fld w 10 5) (fld w 15 5) (fld w 20 5)) else none
  | 0x0A => if fld w 25 7 = 0 ∧ x = none then some (.gshr (fld w 6 4) (fld w 10 5) (fld w 15 5) (fld w 20 5)) else none
  | 0x0B => if fld w 25 7 = 0 ∧ x = none then some (.gsra (fld w 6 4) (fld w 10 5) (fld w 15 5) (fld w 20 5)) else none
  | 0x0C => if (fld w 20 5) < 4 ∧ (fld w 25 7) < 64 ∧ x = none then some (.gshi (fld w 6 4) (fld w 10 5) (fld w 15 5) (fld w 20 5) (fld w 25 7)) else none
  | 0x0D => if fld w 25 7 = 0 ∧ x = none then some (.gmin (fld w 6 4) (fld w 10 5) (fld w 15 5) (fld w 20 5)) else none
  | 0x0E => if fld w 25 7 = 0 ∧ x = none then some (.gmax (fld w 6 4) (fld w 10 5) (fld w 15 5) (fld w 20 5)) else none
  | 0x0F => if fld w 25 7 = 0 ∧ x = none then some (.gslt (fld w 6 4) (fld w 10 5) (fld w 15 5) (fld w 20 5)) else none
  | 0x10 => if fld w 25 7 = 0 ∧ x = none then some (.gsltn (fld w 6 4) (fld w 10 5) (fld w 15 5) (fld w 20 5)) else none
  | 0x11 => if fld w 15 5 = 0 then some (.gli (fld w 6 4) (fld w 10 5) (fld w 20 12) x) else none
  | 0x12 => if fld w 19 13 = 0 ∧ x = none then some (.gfrq (fld w 6 4) (fld w 10 5) (fld w 15 4)) else none
  | 0x13 => if x = none then some (.gext (fld w 6 4) (fld w 10 5) (fld w 15 5) (fld w 20 5) (fld w 25 7)) else none
  | 0x14 => if (fld w 25 7) < 64 ∧ x = none then some (.gins (fld w 6 4) (fld w 10 5) (fld w 15 5) (fld w 20 5) (fld w 25 7)) else none
  | 0x15 => if fld w 15 17 = 0 ∧ x = none then some (.gcid (fld w 6 4) (fld w 10 5)) else none
  | 0x16 => if fld w 25 7 = 0 ∧ x = none then some (.gsel (fld w 6 4) (fld w 10 5) (fld w 15 5) (fld w 20 5)) else none
  | 0x17 => if fld w 20 12 = 0 ∧ x = none then some (.gclz (fld w 6 4) (fld w 10 5) (fld w 15 5)) else none
  | _ => none

/-- The X slot (04 R109, 10 R252). `x` is the high part of an extension word that widens this slot. The
code generator cannot build a constructor of so large a type, so it is noncomputable; the kernel evaluates it. -/
noncomputable def decodeX (w : Nat) (x : Option Nat) : Option Instr :=
  match fld w 0 6 with
  | 0x01 => if fld w 22 10 = 0 ∧ x = none then some (.xadd (fld w 6 4) (fld w 10 4) (fld w 14 4) (fld w 18 4)) else none
  | 0x02 => if fld w 18 4 = 0 then some (.xaddi (fld w 6 4) (fld w 10 4) (fld w 14 4) (fld w 22 10) x) else none
  | 0x03 => if fld w 22 10 = 0 ∧ x = none then some (.xsub (fld w 6 4) (fld w 10 4) (fld w 14 4) (fld w 18 4)) else none
  | 0x04 => if fld w 22 10 = 0 ∧ x = none then some (.xshl (fld w 6 4) (fld w 10 4) (fld w 14 4) (fld w 18 4)) else none
  | 0x05 => if fld w 22 10 = 0 ∧ x = none then some (.xand (fld w 6 4) (fld w 10 4) (fld w 14 4) (fld w 18 4)) else none
  | 0x06 => if fld w 18 14 = 0 ∧ x = none then some (.xpopc (fld w 6 4) (fld w 10 4) (fld w 14 4)) else none
  | 0x07 => if fld w 22 10 = 0 ∧ x = none then some (.xpopb (fld w 6 4) (fld w 10 4) (fld w 14 4) (fld w 18 4)) else none
  | 0x08 => if fld w 22 10 = 0 ∧ x = none then some (.xcadv (fld w 6 4) (fld w 10 4) (fld w 14 4) (fld w 18 4)) else none
  | 0x09 =>
    if fld w 23 9 = 0 ∧ x = none then
      if fld w 22 1 = 0 then some (.xdiagStep (fld w 6 4) (fld w 10 4) (fld w 14 4) (fld w 18 4))
      else if fld w 18 4 = 0 then some (.xdiagMid (fld w 6 4) (fld w 10 4) (fld w 14 4)) else none
    else none
  | 0x0A => if fld w 18 4 = 0 ∧ x = none then some (.xaq (fld w 6 4) (fld w 10 4) (fld w 14 4) (fld w 22 10)) else none
  | 0x0B => if fld w 18 4 = 0 ∧ x = none then some (.xaqs (fld w 6 4) (fld w 10 4) (fld w 14 4) (fld w 22 10)) else none
  | 0x0C => if fld w 22 10 = 0 ∧ x = none then some (.xmin (fld w 6 4) (fld w 10 4) (fld w 14 4) (fld w 18 4)) else none
  | 0x0D => if fld w 22 10 = 0 ∧ x = none then some (.xsel (fld w 6 4) (fld w 10 4) (fld w 14 4) (fld w 18 4)) else none
  | 0x0E => if fld w 14 8 = 0 then some (.xli (fld w 6 4) (fld w 10 4) (fld w 22 10) x) else none
  | 0x0F => if fld w 14 8 = 0 ∧ fld w 27 5 = 0 ∧ x = none then some (.xfrg (fld w 6 4) (fld w 10 4) (fld w 22 5)) else none
  | 0x10 => if fld w 10 4 = 0 ∧ fld w 18 4 = 0 ∧ fld w 27 5 = 0 ∧ x = none then some (.xtog (fld w 6 4) (fld w 22 5) (fld w 14 4)) else none
  | 0x11 => if fld w 22 10 = 0 ∧ x = none then some (.xrank (fld w 6 4) (fld w 10 4) (fld w 14 4) (fld w 18 4)) else none
  | 0x12 => if fld w 22 10 = 0 ∧ x = none then some (.xmax (fld w 6 4) (fld w 10 4) (fld w 14 4) (fld w 18 4)) else none
  | _ => none

/-- The M slot (11 R282). `x` is the high part of an extension word that widens this slot. The
code generator cannot build a constructor of so large a type, so it is noncomputable; the kernel evaluates it. -/
noncomputable def decodeM (w : Nat) (x : Option Nat) : Option Instr :=
  match fld w 0 6 with
  | 0x01 => if x = none then some (.mcall (fld w 6 4) (fld w 10 8) (fld w 18 2) (fld w 20 4) (fld w 24 4) (fld w 28 4)) else none
  | 0x02 => if fld w 10 8 = 0 ∧ fld w 20 12 = 0 ∧ x = none then some (.mzero (fld w 6 4) (fld w 18 2)) else none
  | 0x03 => if fld w 10 8 = 0 ∧ fld w 20 8 = 0 ∧ fld w 29 3 = 0 ∧ x = none then some (.mmode (fld w 6 4) (fld w 18 2) (fld w 28 1)) else none
  | 0x04 => if fld w 10 22 = 0 ∧ x = none then some (.mfence (fld w 6 4)) else none
  | 0x05 => if fld w 10 8 = 0 ∧ fld w 20 8 = 0 ∧ fld w 29 3 = 0 ∧ x = none then some (.mwm (fld w 6 4) (fld w 18 2) (fld w 28 1)) else none
  | _ => none

/-- The W slot (10 R272). `x` is the high part of an extension word that widens this slot. The
code generator cannot build a constructor of so large a type, so it is noncomputable; the kernel evaluates it. -/
noncomputable def decodeW (w : Nat) (x : Option Nat) : Option Instr :=
  match fld w 0 6 with
  | 0x01 => if fld w 28 4 = 0 ∧ x = none then some (.wperm (fld w 6 4) (fld w 10 7) (fld w 17 7) (fld w 24 4)) else none
  | 0x02 => if x = none then some (.wbcast (fld w 6 4) (fld w 10 7) (fld w 17 7) (fld w 24 8)) else none
  | 0x03 => if x = none then some (.wrot (fld w 6 4) (fld w 10 7) (fld w 17 7) (fld w 24 8)) else none
  | 0x04 => if x = none then some (.wbfly (fld w 6 4) (fld w 10 7) (fld w 17 7) (fld w 24 8)) else none
  | 0x05 => if fld w 27 5 = 0 ∧ (fld w 24 3) < 7 ∧ x = none then some (.wrsum (fld w 6 4) (fld w 10 7) (fld w 17 7) (fld w 24 3)) else none
  | 0x06 => if fld w 27 5 = 0 ∧ (fld w 24 3) < 7 ∧ x = none then some (.wrmax (fld w 6 4) (fld w 10 7) (fld w 17 7) (fld w 24 3)) else none
  | 0x07 => if fld w 31 1 = 0 ∧ (fld w 24 3) < 7 ∧ x = none then some (.wsegsum (fld w 6 4) (fld w 10 7) (fld w 17 7) (fld w 24 3) (fld w 27 4)) else none
  | 0x08 => if fld w 27 5 = 0 ∧ (fld w 24 3) < 7 ∧ x = none then some (.wscan (fld w 6 4) (fld w 10 7) (fld w 17 7) (fld w 24 3)) else none
  | _ => none

/-- The P slot (10 R261). `x` is the high part of an extension word that widens this slot. The
code generator cannot build a constructor of so large a type, so it is noncomputable; the kernel evaluates it. -/
noncomputable def decodeP (w : Nat) (x : Option Nat) : Option Instr :=
  match fld w 0 6 with
  | 0x01 => if fld w 24 8 = 0 ∧ (fld w 21 3) < 6 ∧ (fld w 14 7) + (fld w 21 3) < 128 ∧ x = none then some (.spop (fld w 6 4) (fld w 10 4) (fld w 14 7) (fld w 21 3)) else none
  | 0x02 => if fld w 24 8 = 0 ∧ (fld w 21 3) < 6 ∧ (fld w 14 7) + (fld w 21 3) < 128 ∧ x = none then some (.spush (fld w 6 4) (fld w 10 4) (fld w 14 7) (fld w 21 3)) else none
  | 0x03 => if fld w 14 7 = 0 then some (.sadv (fld w 6 4) (fld w 10 4) (fld w 21 11) x) else none
  | 0x04 => if fld w 24 8 = 0 ∧ (fld w 21 3) < 6 ∧ (fld w 14 7) + (fld w 21 3) < 128 ∧ x = none then some (.speek (fld w 6 4) (fld w 10 4) (fld w 14 7) (fld w 21 3)) else none
  | 0x05 => if fld w 27 5 = 0 ∧ x = none then some (.sldl (fld w 6 4) (fld w 10 4) (fld w 14 7) (fld w 21 4) (fld w 25 2)) else none
  | 0x06 => if fld w 27 5 = 0 ∧ x = none then some (.sstu (fld w 6 4) (fld w 10 4) (fld w 14 7) (fld w 21 4) (fld w 25 2)) else none
  | 0x07 => if (fld w 21 11) % 128 = 0 then some (.sld (fld w 6 4) (fld w 10 4) (fld w 14 7) (fld w 21 11) x) else none
  | 0x08 => if (fld w 21 11) % 128 = 0 then some (.sst (fld w 6 4) (fld w 10 4) (fld w 14 7) (fld w 21 11) x) else none
  | 0x09 => if fld w 10 4 = 0 ∧ fld w 28 4 = 0 ∧ (fld w 21 5) < 128 / 2 ^ (fld w 26 2) ∧ x = none then some (.dqpop (fld w 6 4) (fld w 14 7) (fld w 21 5) (fld w 26 2)) else none
  | 0x0A => if fld w 10 4 = 0 ∧ fld w 21 11 = 0 ∧ x = none then some (.dqn (fld w 6 4) (fld w 14 7)) else none
  | 0x0B => if fld w 14 18 = 0 ∧ x = none then some (.sflush (fld w 6 4) (fld w 10 4)) else none
  | 0x0C => if fld w 14 7 = 0 ∧ x = none then some (.kcopy (fld w 6 4) (fld w 10 4) (fld w 21 1) (fld w 22 10)) else none
  | 0x0D => if fld w 21 11 = 0 ∧ x = none then some (.spos (fld w 6 4) (fld w 10 4) (fld w 14 7)) else none
  | 0x0E => if fld w 14 18 = 0 ∧ x = none then some (.seos (fld w 6 4) (fld w 10 4)) else none
  | _ => none

/-- A micro-op word (11 R298). -/
def decodeMicro (w : Nat) : Option Instr :=
  match fld w 58 6 with
  | 0x01 => if fld w 5 53 = 0 then some (.kstep (fld w 0 2) (fld w 2 1) (fld w 3 1) (fld w 4 1)) else none
  | 0x02 => if fld w 5 53 = 0 then some (.ksteps (fld w 0 2) (fld w 2 1) (fld w 3 1) (fld w 4 1)) else none
  | 0x03 => if fld w 14 44 = 0 ∧ ((fld w 1 1) = 0 ∨ (fld w 2 12) < 8) then some (.rpop (fld w 0 1) (fld w 1 1) (fld w 2 12)) else none
  | 0x04 => if fld w 14 44 = 0 ∧ ((fld w 1 1) = 0 ∨ (fld w 2 12) < 8) then some (.rpeek (fld w 0 1) (fld w 1 1) (fld w 2 12)) else none
  | 0x05 => if fld w 3 55 = 0 ∧ ((fld w 0 1) = 0 ∨ (fld w 1 2) = 0) then some (.rowg (fld w 0 1) (fld w 1 2)) else none
  | 0x06 => if fld w 2 56 = 0 then some (.accsel (fld w 0 2)) else none
  | 0x07 => if fld w 2 56 = 0 then some (.accz (fld w 0 2)) else none
  | 0x08 => if fld w 28 30 = 0 then some (.loopk (fld w 0 12) (fld w 12 1) (fld w 13 3) (fld w 16 12)) else none
  | 0x09 => if fld w 7 51 = 0 then some (.wmset (fld w 0 6) (fld w 6 1)) else none
  | 0x0A => if fld w 0 58 = 0 then some (.bmchk) else none
  | 0x0B => if fld w 7 51 = 0 then some (.epi (fld w 0 2) (fld w 2 2) (fld w 4 3)) else none
  | 0x0C => if fld w 7 51 = 0 then some (.parm (fld w 0 3) (fld w 3 3) (fld w 6 1)) else none
  | 0x0D => if fld w 12 46 = 0 ∧ (fld w 0 12) ≠ 0 then some (.jmp (fld w 0 12)) else none
  | 0x0E => if fld w 0 58 = 0 then some (.ret) else none
  | _ => none

/-- The V slot opcodes (04 R108). -/
noncomputable def vOp (o : VSlot) : Nat → Option Instr
  | 0x01 => some (.vadd o)
  | 0x02 => some (.vsub o)
  | 0x03 => some (.vadds o)
  | 0x04 => some (.vaddn o)
  | 0x05 => some (.vsubs o)
  | 0x06 => some (.vsubn o)
  | 0x07 => some (.vmul o)
  | 0x08 => some (.vmulh o)
  | 0x09 => some (.vmulhn o)
  | 0x0A => some (.vmac o)
  | 0x0B => some (.vmacw o)
  | 0x0C => some (.vmin o)
  | 0x0D => some (.vmax o)
  | 0x0E => some (.vminn o)
  | 0x0F => some (.vmaxn o)
  | 0x10 => some (.vabs o)
  | 0x11 => some (.vneg o)
  | 0x12 => some (.vand o)
  | 0x13 => some (.vor o)
  | 0x14 => some (.vxor o)
  | 0x15 => some (.vandn o)
  | 0x16 => some (.vshl o)
  | 0x17 => some (.vshr o)
  | 0x18 => some (.vsra o)
  | 0x19 => some (.vsrar o)
  | 0x1A => some (.vnarrow o)
  | 0x1B => some (.vwiden o)
  | 0x1C => some (.vcmpeq o)
  | 0x1D => some (.vcmplt o)
  | 0x1E => some (.vcmpltn o)
  | 0x1F => some (.vcmple o)
  | 0x20 => some (.vsel o)
  | 0x21 => some (.vclz o)
  | 0x22 => some (.vpopc o)
  | 0x30 => some (.fadd o)
  | 0x31 => some (.fsub o)
  | 0x32 => some (.fmul o)
  | 0x33 => some (.fma o)
  | 0x34 => some (.fms o)
  | 0x35 => some (.fnma o)
  | 0x36 => some (.fmin o)
  | 0x37 => some (.fmax o)
  | 0x38 => some (.fabs o)
  | 0x39 => some (.fneg o)
  | 0x3A => some (.fcmpeq o)
  | 0x3B => some (.fcmplt o)
  | 0x3C => some (.fcmple o)
  | 0x3D => some (.fcmpun o)
  | 0x3E => some (.fclass o)
  | 0x3F => some (.fscale o)
  | 0x40 => some (.vcvt o)
  | 0x41 => some (.vqnt o)
  | 0x42 => some (.vdq o)
  | 0x48 => some (.frcp o)
  | 0x49 => some (.frsq o)
  | 0x4A => some (.fexp2 o)
  | 0x4B => some (.flog2 o)
  | 0x4C => some (.fsin o)
  | 0x4D => some (.fcos o)
  | 0x4E => some (.ftanh o)
  | 0x50 => some (.vrsum o)
  | 0x51 => some (.vrmax o)
  | 0x52 => some (.vrmin o)
  | 0x53 => some (.vamax o)
  | 0x54 => some (.vtopk o)
  | 0x55 => some (.vscan o)
  | 0x56 => some (.vcompress o)
  | 0x57 => some (.vexpand o)
  | 0x58 => some (.vidx o)
  | 0x59 => some (.vmov o)
  | 0x5A => some (.vzero o)
  | _ => none

/-- The space a word belongs to: the controller, a slot kind of a bundle, or a matrix routine. -/
inductive Space | ctl | c | s | v | x | m | w | p | micro
deriving DecidableEq, Repr

/-- An encoded instruction: its space, its word, and the high part of an extension word. -/
structure Encoded where
  space : Space
  word : Nat
  ext : Option Nat
deriving DecidableEq, Repr

/-- funct3 and funct7 of an integer operation. -/
def aluFields : AluOp → Option (Nat × Nat)
  | .add => some (0, 0)
  | .sub => some (0, 0x20)
  | .sll => some (1, 0)
  | .slt => some (2, 0)
  | .sltu => some (3, 0)
  | .xor => some (4, 0)
  | .srl => some (5, 0)
  | .sra => some (5, 0x20)
  | .or => some (6, 0)
  | .and => some (7, 0)
  | .lui => none
  | .auipc => none

/-- funct3 of a multiply. -/
def mulField : MulOp → Nat
  | .mul => 0
  | .mulh => 1
  | .mulhsu => 2
  | .mulhu => 3
  | .mulw => 0

/-- funct3 of a divide. -/
def divField : DivOp → Nat
  | .div => 4
  | .divu => 5
  | .rem => 6
  | .remu => 7

/-- Opcode and funct3 of a load. -/
def loadFields : LoadKind → Nat × Nat
  | .lb => (0x03, 0)
  | .lh => (0x03, 1)
  | .lw => (0x03, 2)
  | .ld => (0x03, 3)
  | .lbu => (0x03, 4)
  | .lhu => (0x03, 5)
  | .lwu => (0x03, 6)
  | .flw => (0x07, 2)
  | .fld => (0x07, 3)

/-- Opcode and funct3 of a store. -/
def storeFields : StoreKind → Nat × Nat
  | .sb => (0x23, 0)
  | .sh => (0x23, 1)
  | .sw => (0x23, 2)
  | .sd => (0x23, 3)
  | .fsw => (0x27, 2)
  | .fsd => (0x27, 3)

/-- funct3 of a conditional branch. -/
def brField : BrKind → Nat
  | .beq => 0
  | .bne => 1
  | .blt => 4
  | .bge => 5
  | .bltu => 6
  | .bgeu => 7

/-- funct5 of an atomic. -/
def amoField : AmoOp → Nat
  | .swap => 1
  | .add => 0
  | .xor => 4
  | .and => 0x0C
  | .or => 8
  | .min => 0x10
  | .max => 0x14
  | .minu => 0x18
  | .maxu => 0x1C

/-- funct3 of a CSR access on a register. -/
def csrField : CsrOp → Nat
  | .rw => 1
  | .rs => 2
  | .rc => 3

/-- Opcode, (funct5, fixed rs2), fixed funct3, and whether funct3 holds a rounding mode, of a floating-point
operation. -/
def fpFields (op : FOp) (dbl : Bool) : Nat × (Nat × Option Nat) × Nat × Bool :=
  match op with
  | .add => (0x53, (0x00, none), 0, true)
  | .sub => (0x53, (0x01, none), 0, true)
  | .mul => (0x53, (0x02, none), 0, true)
  | .madd => (0x43, (0, none), 0, true)
  | .msub => (0x47, (0, none), 0, true)
  | .nmsub => (0x4B, (0, none), 0, true)
  | .nmadd => (0x4F, (0, none), 0, true)
  | .sgnj => (0x53, (0x04, none), 0, false)
  | .sgnjn => (0x53, (0x04, none), 1, false)
  | .sgnjx => (0x53, (0x04, none), 2, false)
  | .min => (0x53, (0x05, none), 0, false)
  | .max => (0x53, (0x05, none), 1, false)
  | .eq => (0x53, (0x14, none), 2, false)
  | .lt => (0x53, (0x14, none), 1, false)
  | .le => (0x53, (0x14, none), 0, false)
  | .cls => (0x53, (0x1C, some 0), 1, false)
  | .cvtWF => (0x53, (0x18, some 0), 0, true)
  | .cvtWuF => (0x53, (0x18, some 1), 0, true)
  | .cvtLF => (0x53, (0x18, some 2), 0, true)
  | .cvtLuF => (0x53, (0x18, some 3), 0, true)
  | .cvtFW => (0x53, (0x1A, some 0), 0, true)
  | .cvtFWu => (0x53, (0x1A, some 1), 0, true)
  | .cvtFL => (0x53, (0x1A, some 2), 0, true)
  | .cvtFLu => (0x53, (0x1A, some 3), 0, true)
  | .cvtFF => (0x53, (0x08, some (if dbl then 0 else 1)), 0, true)
  | .mvXF => (0x53, (0x1C, some 0), 0, false)
  | .mvFX => (0x53, (0x1E, some 0), 0, false)

/-- An encoded instruction of a space. -/
def enc (sp : Space) (w : Nat) (x : Option Nat) : Option Encoded := some ⟨sp, w, x⟩

/-- Encoding of the C-slot words (08 R198). -/
def encodeC : Instr → Option Encoded
  | .pbt p b imm => enc .c (0x01 + p * 2 ^ 6 + b * 2 ^ 10 + imm * 2 ^ 13) none
  | .cmp p cd cond qa qb => enc .c (0x02 + p * 2 ^ 6 + cd * 2 ^ 10 + cond * 2 ^ 13 + qa * 2 ^ 16 + qb * 2 ^ 20) none
  | .cmpi p cd cond qa imm => enc .c (0x03 + p * 2 ^ 6 + cd * 2 ^ 10 + cond * 2 ^ 13 + qa * 2 ^ 16 + imm * 2 ^ 20) none
  | .brl p b => enc .c (0x05 + p * 2 ^ 6 + b * 2 ^ 10) none
  | .loop p b reg n => enc .c (0x06 + p * 2 ^ 6 + b * 2 ^ 10 + reg * 2 ^ 12 + n * 2 ^ 16) none
  | .loopi p b reg n => enc .c (0x07 + p * 2 ^ 6 + b * 2 ^ 10 + reg * 2 ^ 12 + n * 2 ^ 16) none
  | .loopm p b reg n stages => enc .c (0x08 + p * 2 ^ 6 + b * 2 ^ 10 + reg * 2 ^ 12 + n * 2 ^ 16 + stages * 2 ^ 13) none
  | .vany p cd v w pn => enc .c (0x09 + p * 2 ^ 6 + cd * 2 ^ 10 + v * 2 ^ 13 + w * 2 ^ 20 + pn * 2 ^ 22) none
  | .vall p cd v w pn => enc .c (0x0A + p * 2 ^ 6 + cd * 2 ^ 10 + v * 2 ^ 13 + w * 2 ^ 20 + pn * 2 ^ 22) none
  | .clog p cd ca cb table => enc .c (0x0B + p * 2 ^ 6 + cd * 2 ^ 10 + ca * 2 ^ 13 + cb * 2 ^ 16 + table * 2 ^ 19) none
  | .yieldK p => enc .c (0x0C + p * 2 ^ 6) none
  | .sync p port => enc .c (0x0D + p * 2 ^ 6 + port * 2 ^ 10) none
  | .decouple p => enc .c (0x0E + p * 2 ^ 6) none
  | .rejoin p => enc .c (0x0F + p * 2 ^ 6) none
  | .endK p => enc .c (0x10 + p * 2 ^ 6) none
  | .ktrap p n => enc .c (0x11 + p * 2 ^ 6 + n * 2 ^ 10) none
  | .qadd p qd qa qb => enc .c (0x12 + p * 2 ^ 6 + qd * 2 ^ 10 + qa * 2 ^ 14 + qb * 2 ^ 18) none
  | .qsub p qd qa qb => enc .c (0x13 + p * 2 ^ 6 + qd * 2 ^ 10 + qa * 2 ^ 14 + qb * 2 ^ 18) none
  | .qaddi p qd qa imm x => enc .c (0x14 + p * 2 ^ 6 + qd * 2 ^ 10 + qa * 2 ^ 14 + imm * 2 ^ 18) x
  | .qmul p qd qa qb => enc .c (0x15 + p * 2 ^ 6 + qd * 2 ^ 10 + qa * 2 ^ 14 + qb * 2 ^ 18) none
  | .qand p qd qa qb => enc .c (0x16 + p * 2 ^ 6 + qd * 2 ^ 10 + qa * 2 ^ 14 + qb * 2 ^ 18) none
  | .qor p qd qa qb => enc .c (0x17 + p * 2 ^ 6 + qd * 2 ^ 10 + qa * 2 ^ 14 + qb * 2 ^ 18) none
  | .qxor p qd qa qb => enc .c (0x18 + p * 2 ^ 6 + qd * 2 ^ 10 + qa * 2 ^ 14 + qb * 2 ^ 18) none
  | .qshl p qd qa qb => enc .c (0x19 + p * 2 ^ 6 + qd * 2 ^ 10 + qa * 2 ^ 14 + qb * 2 ^ 18) none
  | .qshr p qd qa qb => enc .c (0x1A + p * 2 ^ 6 + qd * 2 ^ 10 + qa * 2 ^ 14 + qb * 2 ^ 18) none
  | .qsra p qd qa qb => enc .c (0x1B + p * 2 ^ 6 + qd * 2 ^ 10 + qa * 2 ^ 14 + qb * 2 ^ 18) none
  | .qmin p qd qa qb => enc .c (0x1C + p * 2 ^ 6 + qd * 2 ^ 10 + qa * 2 ^ 14 + qb * 2 ^ 18) none
  | .qmax p qd qa qb => enc .c (0x1D + p * 2 ^ 6 + qd * 2 ^ 10 + qa * 2 ^ 14 + qb * 2 ^ 18) none
  | .qli p qd imm x => enc .c (0x1E + p * 2 ^ 6 + qd * 2 ^ 10 + imm * 2 ^ 14) x
  | .qget p qd sel => enc .c (0x1F + p * 2 ^ 6 + qd * 2 ^ 10 + sel * 2 ^ 14) none
  | .mset p md qa => enc .c (0x20 + p * 2 ^ 6 + md * 2 ^ 10 + qa * 2 ^ 13) none
  | .mwait p tile rows => enc .c (0x21 + p * 2 ^ 6 + tile * 2 ^ 10 + rows * 2 ^ 12) none
  | .pset p pd w reg n => enc .c (0x22 + p * 2 ^ 6 + pd * 2 ^ 10 + w * 2 ^ 13 + reg * 2 ^ 15 + n * 2 ^ 16) none
  | .ptail p pd w qa len => enc .c (0x23 + p * 2 ^ 6 + pd * 2 ^ 10 + w * 2 ^ 13 + qa * 2 ^ 18 + len * 2 ^ 15) none
  | .ksr p qd mask => enc .c (0x24 + p * 2 ^ 6 + qd * 2 ^ 10 + mask * 2 ^ 14) none
  | .ksc p qa => enc .c (0x25 + p * 2 ^ 6 + qa * 2 ^ 10) none
  | .pref p qa qb => enc .c (0x27 + p * 2 ^ 6 + qa * 2 ^ 10 + qb * 2 ^ 14) none
  | .qsd p qd s field => enc .c (0x28 + p * 2 ^ 6 + qd * 2 ^ 10 + s * 2 ^ 14 + field * 2 ^ 18) none
  | .brT p b c => enc .c (0x04 + p * 2 ^ 6 + b * 2 ^ 10 + c * 2 ^ 13) none
  | .brF p b c => enc .c (0x04 + p * 2 ^ 6 + b * 2 ^ 10 + c * 2 ^ 13 + 1 * 2 ^ 16) none
  | .br p b => enc .c (0x04 + p * 2 ^ 6 + b * 2 ^ 10 + 2 * 2 ^ 16) none
  | .brR p => enc .c (0x04 + p * 2 ^ 6 + 3 * 2 ^ 16) none
  | .kmode p reg n => enc .c (0x26 + p * 2 ^ 6 + (if reg = 0 then n * 2 ^ 10 else 2 ^ 12 + n * 2 ^ 13)) none
  | _ => none

/-- Encoding of the S-slot words (09 R233). -/
def encodeS : Instr → Option Encoded
  | .gadd p gd ga gb => enc .s (0x01 + p * 2 ^ 6 + gd * 2 ^ 10 + ga * 2 ^ 15 + gb * 2 ^ 20) none
  | .gsub p gd ga gb => enc .s (0x02 + p * 2 ^ 6 + gd * 2 ^ 10 + ga * 2 ^ 15 + gb * 2 ^ 20) none
  | .gaddi p gd ga imm x => enc .s (0x03 + p * 2 ^ 6 + gd * 2 ^ 10 + ga * 2 ^ 15 + imm * 2 ^ 20) x
  | .gmul p gd ga gb => enc .s (0x04 + p * 2 ^ 6 + gd * 2 ^ 10 + ga * 2 ^ 15 + gb * 2 ^ 20) none
  | .gmulh p gd ga gb n => enc .s (0x05 + p * 2 ^ 6 + gd * 2 ^ 10 + ga * 2 ^ 15 + gb * 2 ^ 20 + n * 2 ^ 25) none
  | .gand p gd ga gb => enc .s (0x06 + p * 2 ^ 6 + gd * 2 ^ 10 + ga * 2 ^ 15 + gb * 2 ^ 20) none
  | .gor p gd ga gb => enc .s (0x07 + p * 2 ^ 6 + gd * 2 ^ 10 + ga * 2 ^ 15 + gb * 2 ^ 20) none
  | .gxor p gd ga gb => enc .s (0x08 + p * 2 ^ 6 + gd * 2 ^ 10 + ga * 2 ^ 15 + gb * 2 ^ 20) none
  | .gshl p gd ga gb => enc .s (0x09 + p * 2 ^ 6 + gd * 2 ^ 10 + ga * 2 ^ 15 + gb * 2 ^ 20) none
  | .gshr p gd ga gb => enc .s (0x0A + p * 2 ^ 6 + gd * 2 ^ 10 + ga * 2 ^ 15 + gb * 2 ^ 20) none
  | .gsra p gd ga gb => enc .s (0x0B + p * 2 ^ 6 + gd * 2 ^ 10 + ga * 2 ^ 15 + gb * 2 ^ 20) none
  | .gshi p gd ga k amt => enc .s (0x0C + p * 2 ^ 6 + gd * 2 ^ 10 + ga * 2 ^ 15 + k * 2 ^ 20 + amt * 2 ^ 25) none
  | .gmin p gd ga gb => enc .s (0x0D + p * 2 ^ 6 + gd * 2 ^ 10 + ga * 2 ^ 15 + gb * 2 ^ 20) none
  | .gmax p gd ga gb => enc .s (0x0E + p * 2 ^ 6 + gd * 2 ^ 10 + ga * 2 ^ 15 + gb * 2 ^ 20) none
  | .gslt p gd ga gb => enc .s (0x0F + p * 2 ^ 6 + gd * 2 ^ 10 + ga * 2 ^ 15 + gb * 2 ^ 20) none
  | .gsltn p gd ga gb => enc .s (0x10 + p * 2 ^ 6 + gd * 2 ^ 10 + ga * 2 ^ 15 + gb * 2 ^ 20) none
  | .gli p gd imm x => enc .s (0x11 + p * 2 ^ 6 + gd * 2 ^ 10 + imm * 2 ^ 20) x
  | .gfrq p gd n => enc .s (0x12 + p * 2 ^ 6 + gd * 2 ^ 10 + n * 2 ^ 15) none
  | .gext p gd ga gb imm => enc .s (0x13 + p * 2 ^ 6 + gd * 2 ^ 10 + ga * 2 ^ 15 + gb * 2 ^ 20 + imm * 2 ^ 25) none
  | .gins p gd ga gb imm => enc .s (0x14 + p * 2 ^ 6 + gd * 2 ^ 10 + ga * 2 ^ 15 + gb * 2 ^ 20 + imm * 2 ^ 25) none
  | .gcid p gd => enc .s (0x15 + p * 2 ^ 6 + gd * 2 ^ 10) none
  | .gsel p gd ga gb => enc .s (0x16 + p * 2 ^ 6 + gd * 2 ^ 10 + ga * 2 ^ 15 + gb * 2 ^ 20) none
  | .gclz p gd ga => enc .s (0x17 + p * 2 ^ 6 + gd * 2 ^ 10 + ga * 2 ^ 15) none
  | _ => none

/-- Encoding of the V-slot words (04 R100, R108). -/
def encodeV : Instr → Option Encoded
  | .vadd o => enc .v (0x01 + vslotWord o) none
  | .vsub o => enc .v (0x02 + vslotWord o) none
  | .vadds o => enc .v (0x03 + vslotWord o) none
  | .vaddn o => enc .v (0x04 + vslotWord o) none
  | .vsubs o => enc .v (0x05 + vslotWord o) none
  | .vsubn o => enc .v (0x06 + vslotWord o) none
  | .vmul o => enc .v (0x07 + vslotWord o) none
  | .vmulh o => enc .v (0x08 + vslotWord o) none
  | .vmulhn o => enc .v (0x09 + vslotWord o) none
  | .vmac o => enc .v (0x0A + vslotWord o) none
  | .vmacw o => enc .v (0x0B + vslotWord o) none
  | .vmin o => enc .v (0x0C + vslotWord o) none
  | .vmax o => enc .v (0x0D + vslotWord o) none
  | .vminn o => enc .v (0x0E + vslotWord o) none
  | .vmaxn o => enc .v (0x0F + vslotWord o) none
  | .vabs o => enc .v (0x10 + vslotWord o) none
  | .vneg o => enc .v (0x11 + vslotWord o) none
  | .vand o => enc .v (0x12 + vslotWord o) none
  | .vor o => enc .v (0x13 + vslotWord o) none
  | .vxor o => enc .v (0x14 + vslotWord o) none
  | .vandn o => enc .v (0x15 + vslotWord o) none
  | .vshl o => enc .v (0x16 + vslotWord o) none
  | .vshr o => enc .v (0x17 + vslotWord o) none
  | .vsra o => enc .v (0x18 + vslotWord o) none
  | .vsrar o => enc .v (0x19 + vslotWord o) none
  | .vnarrow o => enc .v (0x1A + vslotWord o) none
  | .vwiden o => enc .v (0x1B + vslotWord o) none
  | .vcmpeq o => enc .v (0x1C + vslotWord o) none
  | .vcmplt o => enc .v (0x1D + vslotWord o) none
  | .vcmpltn o => enc .v (0x1E + vslotWord o) none
  | .vcmple o => enc .v (0x1F + vslotWord o) none
  | .vsel o => enc .v (0x20 + vslotWord o) none
  | .vclz o => enc .v (0x21 + vslotWord o) none
  | .vpopc o => enc .v (0x22 + vslotWord o) none
  | .fadd o => enc .v (0x30 + vslotWord o) none
  | .fsub o => enc .v (0x31 + vslotWord o) none
  | .fmul o => enc .v (0x32 + vslotWord o) none
  | .fma o => enc .v (0x33 + vslotWord o) none
  | .fms o => enc .v (0x34 + vslotWord o) none
  | .fnma o => enc .v (0x35 + vslotWord o) none
  | .fmin o => enc .v (0x36 + vslotWord o) none
  | .fmax o => enc .v (0x37 + vslotWord o) none
  | .fabs o => enc .v (0x38 + vslotWord o) none
  | .fneg o => enc .v (0x39 + vslotWord o) none
  | .fcmpeq o => enc .v (0x3A + vslotWord o) none
  | .fcmplt o => enc .v (0x3B + vslotWord o) none
  | .fcmple o => enc .v (0x3C + vslotWord o) none
  | .fcmpun o => enc .v (0x3D + vslotWord o) none
  | .fclass o => enc .v (0x3E + vslotWord o) none
  | .fscale o => enc .v (0x3F + vslotWord o) none
  | .vcvt o => enc .v (0x40 + vslotWord o) none
  | .vqnt o => enc .v (0x41 + vslotWord o) none
  | .vdq o => enc .v (0x42 + vslotWord o) none
  | .frcp o => enc .v (0x48 + vslotWord o) none
  | .frsq o => enc .v (0x49 + vslotWord o) none
  | .fexp2 o => enc .v (0x4A + vslotWord o) none
  | .flog2 o => enc .v (0x4B + vslotWord o) none
  | .fsin o => enc .v (0x4C + vslotWord o) none
  | .fcos o => enc .v (0x4D + vslotWord o) none
  | .ftanh o => enc .v (0x4E + vslotWord o) none
  | .vrsum o => enc .v (0x50 + vslotWord o) none
  | .vrmax o => enc .v (0x51 + vslotWord o) none
  | .vrmin o => enc .v (0x52 + vslotWord o) none
  | .vamax o => enc .v (0x53 + vslotWord o) none
  | .vtopk o => enc .v (0x54 + vslotWord o) none
  | .vscan o => enc .v (0x55 + vslotWord o) none
  | .vcompress o => enc .v (0x56 + vslotWord o) none
  | .vexpand o => enc .v (0x57 + vslotWord o) none
  | .vidx o => enc .v (0x58 + vslotWord o) none
  | .vmov o => enc .v (0x59 + vslotWord o) none
  | .vzero o => enc .v (0x5A + vslotWord o) none
  | _ => none

/-- Encoding of the X-slot words (10 R252). -/
def encodeX : Instr → Option Encoded
  | .xadd p id ia ib => enc .x (0x01 + p * 2 ^ 6 + id * 2 ^ 10 + ia * 2 ^ 14 + ib * 2 ^ 18) none
  | .xaddi p id ia imm x => enc .x (0x02 + p * 2 ^ 6 + id * 2 ^ 10 + ia * 2 ^ 14 + imm * 2 ^ 22) x
  | .xsub p id ia ib => enc .x (0x03 + p * 2 ^ 6 + id * 2 ^ 10 + ia * 2 ^ 14 + ib * 2 ^ 18) none
  | .xshl p id ia ib => enc .x (0x04 + p * 2 ^ 6 + id * 2 ^ 10 + ia * 2 ^ 14 + ib * 2 ^ 18) none
  | .xand p id ia ib => enc .x (0x05 + p * 2 ^ 6 + id * 2 ^ 10 + ia * 2 ^ 14 + ib * 2 ^ 18) none
  | .xpopc p id ia => enc .x (0x06 + p * 2 ^ 6 + id * 2 ^ 10 + ia * 2 ^ 14) none
  | .xpopb p id ia ib => enc .x (0x07 + p * 2 ^ 6 + id * 2 ^ 10 + ia * 2 ^ 14 + ib * 2 ^ 18) none
  | .xcadv p id ia ib => enc .x (0x08 + p * 2 ^ 6 + id * 2 ^ 10 + ia * 2 ^ 14 + ib * 2 ^ 18) none
  | .xaq p s ia imm => enc .x (0x0A + p * 2 ^ 6 + s * 2 ^ 10 + ia * 2 ^ 14 + imm * 2 ^ 22) none
  | .xaqs p s ia imm => enc .x (0x0B + p * 2 ^ 6 + s * 2 ^ 10 + ia * 2 ^ 14 + imm * 2 ^ 22) none
  | .xmin p id ia ib => enc .x (0x0C + p * 2 ^ 6 + id * 2 ^ 10 + ia * 2 ^ 14 + ib * 2 ^ 18) none
  | .xsel p id ia ib => enc .x (0x0D + p * 2 ^ 6 + id * 2 ^ 10 + ia * 2 ^ 14 + ib * 2 ^ 18) none
  | .xli p id imm x => enc .x (0x0E + p * 2 ^ 6 + id * 2 ^ 10 + imm * 2 ^ 22) x
  | .xfrg p id g => enc .x (0x0F + p * 2 ^ 6 + id * 2 ^ 10 + g * 2 ^ 22) none
  | .xtog p g ia => enc .x (0x10 + p * 2 ^ 6 + g * 2 ^ 22 + ia * 2 ^ 14) none
  | .xrank p id ia ib => enc .x (0x11 + p * 2 ^ 6 + id * 2 ^ 10 + ia * 2 ^ 14 + ib * 2 ^ 18) none
  | .xmax p id ia ib => enc .x (0x12 + p * 2 ^ 6 + id * 2 ^ 10 + ia * 2 ^ 14 + ib * 2 ^ 18) none
  | .xdiagStep p id ia ib => enc .x (0x09 + p * 2 ^ 6 + id * 2 ^ 10 + ia * 2 ^ 14 + ib * 2 ^ 18) none
  | .xdiagMid p id ia => enc .x (0x09 + p * 2 ^ 6 + id * 2 ^ 10 + ia * 2 ^ 14 + 1 * 2 ^ 22) none
  | _ => none

/-- Encoding of the M-slot words (11 R282). -/
def encodeM : Instr → Option Encoded
  | .mcall p routine tile a b flags => enc .m (0x01 + p * 2 ^ 6 + routine * 2 ^ 10 + tile * 2 ^ 18 + a * 2 ^ 20 + b * 2 ^ 24 + flags * 2 ^ 28) none
  | .mzero p tile => enc .m (0x02 + p * 2 ^ 6 + tile * 2 ^ 18) none
  | .mmode p tile v => enc .m (0x03 + p * 2 ^ 6 + tile * 2 ^ 18 + v * 2 ^ 28) none
  | .mfence p => enc .m (0x04 + p * 2 ^ 6) none
  | .mwm p tile v => enc .m (0x05 + p * 2 ^ 6 + tile * 2 ^ 18 + v * 2 ^ 28) none
  | _ => none

/-- Encoding of the W-slot words (10 R272). -/
def encodeW : Instr → Option Encoded
  | .wperm p vd vs ia => enc .w (0x01 + p * 2 ^ 6 + vd * 2 ^ 10 + vs * 2 ^ 17 + ia * 2 ^ 24) none
  | .wbcast p vd vs n => enc .w (0x02 + p * 2 ^ 6 + vd * 2 ^ 10 + vs * 2 ^ 17 + n * 2 ^ 24) none
  | .wrot p vd vs n => enc .w (0x03 + p * 2 ^ 6 + vd * 2 ^ 10 + vs * 2 ^ 17 + n * 2 ^ 24) none
  | .wbfly p vd vs n => enc .w (0x04 + p * 2 ^ 6 + vd * 2 ^ 10 + vs * 2 ^ 17 + n * 2 ^ 24) none
  | .wrsum p vd vs n => enc .w (0x05 + p * 2 ^ 6 + vd * 2 ^ 10 + vs * 2 ^ 17 + n * 2 ^ 24) none
  | .wrmax p vd vs n => enc .w (0x06 + p * 2 ^ 6 + vd * 2 ^ 10 + vs * 2 ^ 17 + n * 2 ^ 24) none
  | .wsegsum p vd vs t ia => enc .w (0x07 + p * 2 ^ 6 + vd * 2 ^ 10 + vs * 2 ^ 17 + t * 2 ^ 24 + ia * 2 ^ 27) none
  | .wscan p vd vs n => enc .w (0x08 + p * 2 ^ 6 + vd * 2 ^ 10 + vs * 2 ^ 17 + n * 2 ^ 24) none
  | _ => none

/-- Encoding of the P-slot words (10 R261). -/
def encodeP : Instr → Option Encoded
  | .spop p s v len => enc .p (0x01 + p * 2 ^ 6 + s * 2 ^ 10 + v * 2 ^ 14 + len * 2 ^ 21) none
  | .spush p s v len => enc .p (0x02 + p * 2 ^ 6 + s * 2 ^ 10 + v * 2 ^ 14 + len * 2 ^ 21) none
  | .sadv p s imm x => enc .p (0x03 + p * 2 ^ 6 + s * 2 ^ 10 + imm * 2 ^ 21) x
  | .speek p s v len => enc .p (0x04 + p * 2 ^ 6 + s * 2 ^ 10 + v * 2 ^ 14 + len * 2 ^ 21) none
  | .sldl p s v ia w => enc .p (0x05 + p * 2 ^ 6 + s * 2 ^ 10 + v * 2 ^ 14 + ia * 2 ^ 21 + w * 2 ^ 25) none
  | .sstu p s v ia w => enc .p (0x06 + p * 2 ^ 6 + s * 2 ^ 10 + v * 2 ^ 14 + ia * 2 ^ 21 + w * 2 ^ 25) none
  | .sld p s v imm x => enc .p (0x07 + p * 2 ^ 6 + s * 2 ^ 10 + v * 2 ^ 14 + imm * 2 ^ 21) x
  | .sst p s v imm x => enc .p (0x08 + p * 2 ^ 6 + s * 2 ^ 10 + v * 2 ^ 14 + imm * 2 ^ 21) x
  | .dqpop p v n w => enc .p (0x09 + p * 2 ^ 6 + v * 2 ^ 14 + n * 2 ^ 21 + w * 2 ^ 26) none
  | .dqn p v => enc .p (0x0A + p * 2 ^ 6 + v * 2 ^ 14) none
  | .sflush p s => enc .p (0x0B + p * 2 ^ 6 + s * 2 ^ 10) none
  | .kcopy p s dir limit => enc .p (0x0C + p * 2 ^ 6 + s * 2 ^ 10 + dir * 2 ^ 21 + limit * 2 ^ 22) none
  | .spos p s v => enc .p (0x0D + p * 2 ^ 6 + s * 2 ^ 10 + v * 2 ^ 14) none
  | .seos p s => enc .p (0x0E + p * 2 ^ 6 + s * 2 ^ 10) none
  | _ => none

/-- Encoding of the micro-op words (11 R298). -/
def encodeMicro : Instr → Option Encoded
  | .kstep g na nb noacc => enc .micro (0x01 * 2 ^ 58 + g + na * 2 ^ 2 + nb * 2 ^ 3 + noacc * 2 ^ 4) none
  | .ksteps g na nb noacc => enc .micro (0x02 * 2 ^ 58 + g + na * 2 ^ 2 + nb * 2 ^ 3 + noacc * 2 ^ 4) none
  | .rpop ring reg n => enc .micro (0x03 * 2 ^ 58 + ring + reg * 2 ^ 1 + n * 2 ^ 2) none
  | .rpeek ring reg n => enc .micro (0x04 * 2 ^ 58 + ring + reg * 2 ^ 1 + n * 2 ^ 2) none
  | .rowg inc g => enc .micro (0x05 * 2 ^ 58 + inc + g * 2 ^ 1) none
  | .accsel n => enc .micro (0x06 * 2 ^ 58 + n) none
  | .accz g => enc .micro (0x07 * 2 ^ 58 + g) none
  | .loopk max reg k body => enc .micro (0x08 * 2 ^ 58 + max + reg * 2 ^ 12 + k * 2 ^ 13 + body * 2 ^ 16) none
  | .wmset n g => enc .micro (0x09 * 2 ^ 58 + n + g * 2 ^ 6) none
  | .bmchk => enc .micro (0x0A * 2 ^ 58) none
  | .epi g fn k => enc .micro (0x0B * 2 ^ 58 + g + fn * 2 ^ 2 + k * 2 ^ 4) none
  | .parm kd m half => enc .micro (0x0C * 2 ^ 58 + kd + m * 2 ^ 3 + half * 2 ^ 6) none
  | .jmp d => enc .micro (0x0D * 2 ^ 58 + d) none
  | .ret => enc .micro (0x0E * 2 ^ 58) none
  | _ => none

/-- A word of the R-type layout (04 R112). -/
def encR (maj f3 rd rs1 rs2 f7 : Nat) : Option Encoded :=
  enc .ctl (maj + rd * 2 ^ 7 + f3 * 2 ^ 12 + rs1 * 2 ^ 15 + rs2 * 2 ^ 20 + f7 * 2 ^ 25) none

/-- Encoding of the stream extension (07 R155). -/
def encodeStream : Instr → Option Encoded
  | .palloc rd rs1 rs2 => encR 0x0B 0 rd rs1 rs2 0
  | .pfree rd rs1 => encR 0x0B 1 rd rs1 0 0
  | .pinfo rd rs1 => encR 0x0B 2 rd rs1 0 0
  | .sdset rd rs1 field => encR 0x0B 3 rd rs1 0 field
  | .sdget rd rs1 field => encR 0x0B 4 rd rs1 0 field
  | .sdcopy rd rs1 => encR 0x0B 5 rd rs1 0 0
  | .sload rd sd rs1 rs2 => encR 0x2B 0 rd rs1 rs2 (sd * 8)
  | .sstore rd sd rs1 rs2 => encR 0x2B 1 rd rs1 rs2 (sd * 8)
  | .sgather rd sd rs1 rs2 => encR 0x2B 2 rd rs1 rs2 (sd * 8)
  | .sscatter rd sd rs1 rs2 => encR 0x2B 3 rd rs1 rs2 (sd * 8)
  | .sscadd rd sd rs1 rs2 => encR 0x2B 4 rd rs1 rs2 (sd * 8)
  | .scopy rd sd rs1 rs2 => encR 0x2B 5 rd rs1 rs2 (sd * 8)
  | .spref rs1 rs2 => encR 0x2B 6 0 rs1 rs2 0
  | .satomAdd rd sd rs1 rs2 => encR 0x2B 7 rd rs1 rs2 (sd * 8)
  | .satomSwap rd sd rs1 rs2 => encR 0x2B 7 rd rs1 rs2 (sd * 8 + 1)
  | .satomCas rd sd rs1 rs2 => encR 0x2B 7 rd rs1 rs2 (sd * 8 + 2)
  | .satomMin rd sd rs1 rs2 => encR 0x2B 7 rd rs1 rs2 (sd * 8 + 3)
  | .satomMax rd sd rs1 rs2 => encR 0x2B 7 rd rs1 rs2 (sd * 8 + 4)
  | .satomAnd rd sd rs1 rs2 => encR 0x2B 7 rd rs1 rs2 (sd * 8 + 5)
  | .satomOr rd sd rs1 rs2 => encR 0x2B 7 rd rs1 rs2 (sd * 8 + 6)
  | .krun rd rs1 rs2 => encR 0x5B 0 rd rs1 rs2 0
  | .kstage rd rs1 rs2 => encR 0x5B 1 rd rs1 rs2 0
  | .kpipe rd rs1 rs2 => encR 0x5B 2 rd rs1 rs2 0
  | .khalt rd => encR 0x5B 3 rd 0 0 0
  | .svadd rd rs1 rs2 => encR 0x5B 4 rd rs1 rs2 0
  | .svmul rd rs1 rs2 => encR 0x5B 4 rd rs1 rs2 1
  | .svfma rd rs1 rs2 => encR 0x5B 4 rd rs1 rs2 2
  | .svcvt rd rs1 rs2 => encR 0x5B 4 rd rs1 rs2 3
  | .svscale rd rs1 rs2 => encR 0x5B 4 rd rs1 rs2 4
  | .svmax rd rs1 rs2 => encR 0x5B 4 rd rs1 rs2 5
  | .svmin rd rs1 rs2 => encR 0x5B 4 rd rs1 rs2 6
  | .svcopy rd rs1 rs2 => encR 0x5B 4 rd rs1 rs2 7
  | .svfill rd rs1 rs2 => encR 0x5B 4 rd rs1 rs2 8
  | .mload rd rs1 rs2 => encR 0x5B 5 rd rs1 rs2 0
  | .spmerge rd rs1 rs2 => encR 0x5B 6 rd rs1 rs2 0
  | .spdrain rd rs2 => encR 0x5B 7 rd 0 rs2 0
  | .awinit rd rs1 rs2 => encR 0x7B 0 rd rs1 rs2 0
  | .await rd rs1 rs2 => encR 0x7B 1 rd rs1 rs2 0
  | .acq rd rs1 rs2 => encR 0x7B 2 rd rs1 rs2 0
  | .rel rd rs1 => encR 0x7B 2 rd rs1 0 1
  | .tacq rd rs1 rs2 => encR 0x7B 3 rd rs1 rs2 0
  | .trel rd rs1 => encR 0x7B 3 rd rs1 0 1
  | .fencex rd rs1 => encR 0x7B 4 rd rs1 0 0
  | .swait rd rs1 => encR 0x7B 5 rd rs1 0 0
  | .sbar rd rs1 => encR 0x7B 5 rd rs1 0 1
  | .spawn rd rs1 rs2 => encR 0x7B 6 rd rs1 rs2 0
  | .texit => encR 0x7B 6 0 0 0 1
  | .tsplit rd rs1 => encR 0x7B 6 rd rs1 0 2
  | .treseed rd => encR 0x7B 6 rd 0 0 3
  | .gsync rd rs1 => encR 0x7B 7 rd rs1 0 0
  | .syield rd => encR 0x7B 7 rd 0 0 1
  | .sstat rd rs1 => encR 0x7B 7 rd rs1 0 2
  | _ => none

/-- Encoding of the 32-bit standard instructions (06 R131). A compressed form has none here. -/
def encodeRv : Instr → Option Encoded
  | .rvIntegerAlu c op half rd rs1 src =>
    if c then none else match op, src with
    | .lui, .imm v => enc .ctl (0x37 + rd * 2 ^ 7 + v.toNat / 2 ^ 12 % 2 ^ 20 * 2 ^ 12) none
    | .auipc, .imm v => enc .ctl (0x17 + rd * 2 ^ 7 + v.toNat / 2 ^ 12 % 2 ^ 20 * 2 ^ 12) none
    | op, .reg rs2 =>
      (aluFields op).bind fun f =>
        enc .ctl ((if half then 0x3B else 0x33) + rd * 2 ^ 7 + f.1 * 2 ^ 12 + rs1 * 2 ^ 15 + rs2 * 2 ^ 20 + f.2 * 2 ^ 25) none
    | op, .imm v =>
      (aluFields op).bind fun f =>
        enc .ctl ((if half then 0x1B else 0x13) + rd * 2 ^ 7 + f.1 * 2 ^ 12 + rs1 * 2 ^ 15 + v.toNat % 2 ^ 12 * 2 ^ 20
          + (if op = .sra then 0x20 else 0) * 2 ^ 25) none
  | .rvMultiply op rd rs1 rs2 =>
    enc .ctl ((if op = .mulw then 0x3B else 0x33) + rd * 2 ^ 7 + mulField op * 2 ^ 12 + rs1 * 2 ^ 15 + rs2 * 2 ^ 20 + 1 * 2 ^ 25) none
  | .rvDivide op half rd rs1 rs2 =>
    enc .ctl ((if half then 0x3B else 0x33) + rd * 2 ^ 7 + divField op * 2 ^ 12 + rs1 * 2 ^ 15 + rs2 * 2 ^ 20 + 1 * 2 ^ 25) none
  | .rvLoad c k rd rs1 off =>
    if c then none else enc .ctl ((loadFields k).1 + rd * 2 ^ 7 + (loadFields k).2 * 2 ^ 12 + rs1 * 2 ^ 15 + off.toNat % 2 ^ 12 * 2 ^ 20) none
  | .rvStore c k rs2 rs1 off =>
    if c then none else enc .ctl ((storeFields k).1 + off.toNat % 2 ^ 5 * 2 ^ 7 + (storeFields k).2 * 2 ^ 12 + rs1 * 2 ^ 15 + rs2 * 2 ^ 20
      + off.toNat / 2 ^ 5 % 2 ^ 7 * 2 ^ 25) none
  | .rvBranch c k rs1 rs2 off =>
    if c then none else enc .ctl (0x63 + off.toNat / 2 ^ 11 % 2 * 2 ^ 7 + off.toNat / 2 % 2 ^ 4 * 2 ^ 8 + brField k * 2 ^ 12 + rs1 * 2 ^ 15 + rs2 * 2 ^ 20
      + off.toNat / 2 ^ 5 % 2 ^ 6 * 2 ^ 25 + off.toNat / 2 ^ 12 % 2 * 2 ^ 31) none
  | .jal c rd off =>
    if c then none else enc .ctl (0x6F + rd * 2 ^ 7 + off.toNat / 2 ^ 12 % 2 ^ 8 * 2 ^ 12 + off.toNat / 2 ^ 11 % 2 * 2 ^ 20
      + off.toNat / 2 % 2 ^ 10 * 2 ^ 21 + off.toNat / 2 ^ 20 % 2 * 2 ^ 31) none
  | .jalr c rd rs1 off => if c then none else enc .ctl (0x67 + rd * 2 ^ 7 + rs1 * 2 ^ 15 + off.toNat % 2 ^ 12 * 2 ^ 20) none
  | .fence i bits => enc .ctl (0x0F + (if i then 1 else 0) * 2 ^ 12 + bits * 2 ^ 20) none
  | .lr d aqrl rd rs1 => enc .ctl (0x2F + rd * 2 ^ 7 + (if d then 3 else 2) * 2 ^ 12 + rs1 * 2 ^ 15 + aqrl * 2 ^ 25 + 2 * 2 ^ 27) none
  | .sc d aqrl rd rs1 rs2 =>
    enc .ctl (0x2F + rd * 2 ^ 7 + (if d then 3 else 2) * 2 ^ 12 + rs1 * 2 ^ 15 + rs2 * 2 ^ 20 + aqrl * 2 ^ 25 + 3 * 2 ^ 27) none
  | .rvAmo op d aqrl rd rs1 rs2 =>
    enc .ctl (0x2F + rd * 2 ^ 7 + (if d then 3 else 2) * 2 ^ 12 + rs1 * 2 ^ 15 + rs2 * 2 ^ 20 + aqrl * 2 ^ 25 + amoField op * 2 ^ 27) none
  | .rvCsrAccess op imm csr rd src =>
    enc .ctl (0x73 + rd * 2 ^ 7 + (csrField op + if imm then 4 else 0) * 2 ^ 12 + src * 2 ^ 15 + csr * 2 ^ 20) none
  | .ecall => enc .ctl (0x73) none
  | .ebreak c => if c then none else enc .ctl (0x100073) none
  | .rvFdivFsqrt sqrt dbl rd rs1 rs2 rm =>
    enc .ctl (0x53 + rd * 2 ^ 7 + rm * 2 ^ 12 + rs1 * 2 ^ 15 + rs2 * 2 ^ 20 + (if dbl then 1 else 0) * 2 ^ 25
      + (if sqrt then 0x0B else 0x03) * 2 ^ 27) none
  | .rvFloatOp op dbl rd rs1 rs2 rs3 rm =>
    let f := fpFields op dbl
    enc .ctl (f.1 + rd * 2 ^ 7 + (if f.2.2.2 then rm else f.2.2.1) * 2 ^ 12 + rs1 * 2 ^ 15
      + (match f.2.1.2 with | none => rs2 | some n => n) * 2 ^ 20 + (if dbl then 1 else 0) * 2 ^ 25
      + (if f.1 = 0x53 then f.2.1.1 else rs3) * 2 ^ 27) none
  | _ => none

/-- The words of an instruction, written from the encoding tables of the spec. A step of the part that is no
instruction word, and a compressed form, has none. -/
def encode (i : Instr) : Option Encoded :=
  encodeStream i <|> encodeRv i <|> encodeMicro i <|> encodeC i <|> encodeS i <|> encodeV i <|> encodeX i <|> encodeM i
    <|> encodeW i <|> encodeP i

/-- The instruction a space gives a word. -/
noncomputable def decodeIn (sp : Space) (w : Nat) (x : Option Nat) : Option Instr :=
  match sp with
  | .ctl => decodeCtl w
  | .c => decodeC w x
  | .s => decodeS w x
  | .v => if vLegal (fld w 0 7) (vslotOf w) then vOp (vslotOf w) (fld w 0 7) else none
  | .x => decodeX w x
  | .m => decodeM w x
  | .w => decodeW w x
  | .p => decodeP w x
  | .micro => decodeMicro w

/-! ## Bundles (04 R91 to R98) -/

/-- The slots of the presence mask in its bit order: C S V0 V1 X M W P. -/
def slotSpace : Nat → Space
  | 0 => .c
  | 1 => .s
  | 2 => .v
  | 3 => .v
  | 4 => .x
  | 5 => .m
  | 6 => .w
  | _ => .p

/-- Bytes of the slot at a presence-mask bit. -/
def slotBytes (k : Nat) : Nat := if k = 2 ∨ k = 3 then 8 else 4

/-- The slots a mask names, in mask order. -/
def slotsOf (mask : Nat) : List Nat := [0, 1, 2, 3, 4, 5, 6, 7].filter fun k => fld mask k 1 = 1

/-- The bundle length of R92. -/
def bundleLen (hdr : Nat) : Nat :=
  2 + ((slotsOf (hdr % 256)).map slotBytes).sum + 4 * fld hdr 15 1

/-- The empty-run count E (04 R91). -/
def bundleE (hdr : Nat) : Nat := fld hdr 8 6

/-- STOP (04 R91). -/
def bundleStop (hdr : Nat) : Bool := decide (fld hdr 14 1 = 1)

/-- XI (04 R91). -/
def bundleXI (hdr : Nat) : Bool := decide (fld hdr 15 1 = 1)

/-- The slot words of a bundle whose slot bytes are the little-endian number `w`: pairs of slot index and word, and
what follows them (the extension word). -/
def slotWords (w : Nat) : List Nat → List (Nat × Nat) × Nat
  | [] => ([], w)
  | k :: ks =>
    let r := slotWords (w / 2 ^ (8 * slotBytes k)) ks
    ((k, w % 2 ^ (8 * slotBytes k)) :: r.1, r.2)

/-- The opcode of a slot word. -/
def slotOp (k w : Nat) : Nat := if k = 2 ∨ k = 3 then w % 128 else w % 64

/-- The instructions that accept an extension word, as slot index and opcode (04 R97). -/
def acceptsExt (k op : Nat) : Bool :=
  (k, op) ∈ [(0, 0x14), (0, 0x1E), (1, 0x03), (1, 0x11), (4, 0x02), (4, 0x0E), (7, 0x07), (7, 0x08), (7, 0x03)]

/-- The lowest set bit of the extend mask. -/
def extSlot (mask : Nat) : Option Nat := (slotsOf mask).head?

/-- The assigned V opcodes (04 R108). -/
def vAssigned (op : Nat) : Bool :=
  decide (1 ≤ op ∧ op ≤ 0x22) || decide (0x30 ≤ op ∧ op ≤ 0x42) || decide (0x48 ≤ op ∧ op ≤ 0x4E) || decide (0x50 ≤ op ∧ op ≤ 0x5A)

/-- A legal opcode of the slot in a context of the profile (04 R105 to R109): `p11` for profile 1.1. -/
def opLegal (k op : Nat) (p11 : Bool) : Bool :=
  match k with
  | 0 => decide (1 ≤ op ∧ op ≤ 0x28)
  | 1 => decide (1 ≤ op ∧ op ≤ 0x17)
  | 4 => decide (1 ≤ op ∧ op ≤ 0x12)
  | 5 => decide (1 ≤ op ∧ op ≤ 5)
  | 6 => decide (1 ≤ op ∧ op ≤ 8) && (p11 || decide (op ≠ 7))
  | 7 => decide (1 ≤ op ∧ op ≤ 0xE)
  | _ =>
    vAssigned op && (p11 || decide (op ≠ 0x54))
      && (decide (k = 3) || !decide (0x48 ≤ op ∧ op ≤ 0x4E))

/-- The host's question: the instruction the controller's decoder reads from a word of the opcode table. -/
def decodeTableWord (_nbits w : Nat) : Option Instr := decodeCtl w

end Sys2Proof
end

