-- ==== Sys2Proof/Config.lean ====
section
/-! DEFINITION. What the spec leaves open, as constants without a body: no proof can see their value. Each is applied
to the counter `ctr` of the state (a fresh value each time), or to what the spec says the choice is a function of. -/

namespace Sys2Proof

/-- A free number (log 2): the order of independent beats, queueing delays (12 R329, 15 R392), which colliding beat
stands (07 R168), the grouping of a translation (21 R436), a firmware choice of address (01 R25). -/
opaque Config.freeNat : Nat → Nat

/-- Which of the two neighbouring F32 values a special function delivers (09 R243): a fixed function of the function's
opcode and of the input bits; `true` chooses the neighbour of larger magnitude. -/
opaque Config.f32Neighbour : Nat → BitVec 32 → Bool

/-- The words of the library routines whose effect 11 R303 gives without printing them are the model's (log 7); what a
thermal sensor, a device identity or a fuse holds is a constant of the part (log 6). -/
opaque Config.deviceConst : Nat → Nat

/-- The 32-bit link CRC of a flit (15 R374): its polynomial is not in the spec (log 54). -/
opaque Config.linkCrc : List Byte → BitVec 32

end Sys2Proof
end

