-- ==== Sys2Proof/Machine/Maps.lean ====
section
/-! DEFINITION. Sparse stores: a list of numbered values in rising order of the keys, with one reader and one writer
each, and small list and bit-field helpers. -/

namespace Sys2Proof.Machine

/-! ## Sparse stores -/

/-- The value at key `k`, if it is listed. -/
def KMap.find {α : Type} (k : Nat) : KMap α → Option α
  | [] => none
  | (j, v) :: m => if j = k then some v else KMap.find k m

/-- The value at key `k`; an unlisted key holds `d`. -/
def KMap.get {α : Type} (d : α) (m : KMap α) (k : Nat) : α := (KMap.find k m).getD d

/-- The store with `k` removed. -/
def KMap.del {α : Type} (k : Nat) : KMap α → KMap α
  | [] => []
  | (j, v) :: m => if j = k then KMap.del k m else (j, v) :: KMap.del k m

/-- The store with `v` listed at `k`, in rising order of the keys. -/
def KMap.ins {α : Type} (k : Nat) (v : α) : KMap α → KMap α
  | [] => [(k, v)]
  | (j, w) :: m => if k < j then (k, v) :: (j, w) :: m else if j = k then (k, v) :: m else (j, w) :: KMap.ins k v m

/-- The store that holds `v` at `k`, where an unlisted key holds `d`: writing `d` unlists the key. -/
def KMap.put {α : Type} [DecidableEq α] (d : α) (m : KMap α) (k : Nat) (v : α) : KMap α :=
  if v = d then KMap.del k m else KMap.ins k v m

/-- The keys are strictly rising, above `lo`, and no listed value is `d`. -/
def KMap.wfFrom {α : Type} [DecidableEq α] (d : α) : Nat → KMap α → Bool
  | _, [] => true
  | lo, (j, v) :: m => decide (lo ≤ j) && decide (v ≠ d) && KMap.wfFrom d (j + 1) m

/-- The canonical form of a sparse store. -/
def KMap.wf {α : Type} [DecidableEq α] (d : α) (m : KMap α) : Bool := KMap.wfFrom d 0 m

/-- A value listed at `k`, replaced by `f` of it; an unlisted key stays unlisted. -/
def KMap.upd {α : Type} (k : Nat) (f : α → α) : KMap α → KMap α
  | [] => []
  | (j, v) :: m => if j = k then (j, f v) :: m else (j, v) :: KMap.upd k f m

/-! ## Lists -/

/-- `n` copies of the step `f`, each given its number from `0` up. -/
def iterate {α : Type} (f : Nat → α → α) : Nat → α → α
  | 0, a => a
  | n + 1, a => f n (iterate f n a)

/-- Replaces element `k` of a list. -/
def listSet {α : Type} (l : List α) (k : Nat) (v : α) : List α := l.set k v

/-- The first element that satisfies `p`, replaced by `f` of it. -/
def updFirst {α : Type} (p : α → Bool) (f : α → α) : List α → List α
  | [] => []
  | a :: l => if p a then f a :: l else a :: updFirst p f l

/-- The list without its first element that satisfies `p`. -/
def dropFirst {α : Type} (p : α → Bool) : List α → List α
  | [] => []
  | a :: l => if p a then l else a :: dropFirst p l

/-! ## Numbers as bytes and fields -/

/-- `n` little-endian bytes of `v` (00 R7). -/
def toBytes : Nat → Nat → List Byte
  | 0, _ => []
  | n + 1, v => BitVec.ofNat 8 v :: toBytes n (v / 256)

/-- The number whose little-endian bytes are given. -/
def ofBytes : List Byte → Nat
  | [] => 0
  | b :: l => b.toNat + 256 * ofBytes l

/-- Bits `lo` up to `lo + n - 1` of a doubleword, as a number. -/
def bits (v : Dword) (lo n : Nat) : Nat := v.toNat / 2 ^ lo % 2 ^ n

/-- The `w`-bit value `v` read as two's complement. -/
def sint (w v : Nat) : Int :=
  if v % 2 ^ w < 2 ^ (w - 1) then ((v % 2 ^ w : Nat) : Int) else ((v % 2 ^ w : Nat) : Int) - ((2 ^ w : Nat) : Int)

/-- An integer reduced to `w` bits. -/
def wrap (w : Nat) (i : Int) : Nat := (i % ((2 ^ w : Nat) : Int)).toNat

/-- `⌊log2 n⌋`, and 0 for 0. -/
def ilog2 (n : Nat) : Nat := Nat.log2 n

/-- Number of one bits among the low `n` bits. -/
def popcount : Nat → Nat → Nat
  | 0, _ => 0
  | n + 1, v => v % 2 + popcount n (v / 2)

/-- Number of leading zero bits of a `w`-bit value. -/
def clz (w v : Nat) : Nat := if v % 2 ^ w = 0 then w else w - 1 - Nat.log2 (v % 2 ^ w)

/-- A choice among `n` numbers that the spec leaves open, made for the counter value `c`. -/
def pick (c n : Nat) : Nat := if n = 0 then 0 else Config.freeNat c % n

end Sys2Proof.Machine
end

