-- ==== Sys2Proof/Machine/Flags.lean ====
section
/-! DEFINITION. The sticky status bits of kstat (07 R187) and how flags are combined (05 R119). A set of flags is the
13-bit number whose bits are those of kstat; `fflags` of the controller's F and D operations is derived from it. -/

namespace Sys2Proof.Machine

/-- Invalid operation. -/
abbrev fIV : Nat := 1
/-- Division by zero. -/
abbrev fDZ : Nat := 2
/-- Overflow, or an integer saturation. -/
abbrev fOF : Nat := 4
/-- A tiny result. -/
abbrev fUF : Nat := 8
/-- An inexact result. -/
abbrev fNX : Nat := 16
/-- A NaR read or produced. -/
abbrev fNAR : Nat := 32
/-- A VQNT scale clamped low. -/
abbrev fSCLO : Nat := 64
/-- A VQNT scale clamped high. -/
abbrev fSCHI : Nat := 128
/-- A sparse block whose stated length is wrong (11 R294). -/
abbrev fSPLEN : Nat := 256
/-- A stream port overrun (10 R264, R265). -/
abbrev fOVRN : Nat := 512
/-- A data queue popped with too few entries (10 R259). -/
abbrev fDQE : Nat := 1024
/-- A member out of step after a pre-emption (08 R224, R225). -/
abbrev fDESYNC : Nat := 2048
/-- A KCOPY token wait that expired (10 R271). -/
abbrev fTOKW : Nat := 4096

/-- Flags raised together are ORed (05 R119). -/
def flagOr (a b : Nat) : Nat := a ||| b

/-- The flags of a list of results. -/
def flagsOf (l : List Nat) : Nat := l.foldl flagOr 0

/-- A flag, if the condition holds. -/
def flagIf (c : Bool) (f : Nat) : Nat := if c then f else 0

/-- The flags of `a` that are not in the mask `m`: what a clear of `m` leaves. -/
def flagClear (a m : Nat) : Nat := a &&& (8191 - m % 8192)

/-- A value with the flags its computation raised. -/
abbrev WithFlags (α : Type) := α × Nat

/-- kstat-style flags as the fflags of RISC-V: NX UF OF DZ NV from bit 0 up. -/
def fflagsOf (f : Nat) : Nat :=
  flagIf (f / 16 % 2 = 1) 1 + flagIf (f / 8 % 2 = 1) 2 + flagIf (f / 4 % 2 = 1) 4 + flagIf (f / 2 % 2 = 1) 8 + flagIf (f % 2 = 1) 16

end Sys2Proof.Machine
end

