-- ==== Sys2Proof/Machine/Num.lean ====
section
/-! DEFINITION. Number formats (05): exact values, the IEEE formats with one rounding, the tapered formats, scale
codes, and the conversions between them. -/

namespace Sys2Proof.Machine

/-- An exact value: a finite one is `± m × 2 ^ e`. -/
inductive Val
  | nan (sig : Bool)
  | nar
  | inf (neg : Bool)
  | fin (neg : Bool) (m : Nat) (e : Int)
deriving DecidableEq, Repr

/-- An IEEE format: exponent and fraction widths (05 R116; the controller's double beside it). -/
structure Fmt where
  eb : Nat
  fb : Nat
deriving DecidableEq, Repr

def fmtF16 : Fmt := ⟨5, 10⟩
def fmtBF16 : Fmt := ⟨8, 7⟩
def fmtF32 : Fmt := ⟨8, 23⟩
def fmtF64 : Fmt := ⟨11, 52⟩

/-- The bias of a format. -/
def Fmt.bias (f : Fmt) : Int := ((2 ^ (f.eb - 1) - 1 : Nat) : Int)

/-- The exponent of the smallest normal number. -/
def Fmt.emin (f : Fmt) : Int := 1 - f.bias

/-- All exponent bits one. -/
def Fmt.emax (f : Fmt) : Nat := 2 ^ f.eb - 1

/-- Width in bits. -/
def Fmt.width (f : Fmt) : Nat := 1 + f.eb + f.fb

/-- The canonical NaN (05 R117). -/
def Fmt.qnan (f : Fmt) : Nat := f.emax * 2 ^ f.fb + 2 ^ (f.fb - 1)

/-- An infinity. -/
def Fmt.infBits (f : Fmt) (neg : Bool) : Nat := (if neg then 2 ^ (f.width - 1) else 0) + f.emax * 2 ^ f.fb

/-- The largest finite value. -/
def Fmt.maxBits (f : Fmt) (neg : Bool) : Nat := (if neg then 2 ^ (f.width - 1) else 0) + (f.emax * 2 ^ f.fb - 1)

/-- A zero. -/
def Fmt.zeroBits (f : Fmt) (neg : Bool) : Nat := if neg then 2 ^ (f.width - 1) else 0

/-- The sign bit. -/
def Fmt.sign (f : Fmt) (b : Nat) : Bool := decide (b / 2 ^ (f.width - 1) % 2 = 1)

/-- The biased exponent. -/
def Fmt.expo (f : Fmt) (b : Nat) : Nat := b / 2 ^ f.fb % 2 ^ f.eb

/-- The fraction. -/
def Fmt.frac (f : Fmt) (b : Nat) : Nat := b % 2 ^ f.fb

/-- A subnormal encoding (05 R116). -/
def Fmt.isSub (f : Fmt) (b : Nat) : Bool := decide (f.expo b = 0) && decide (f.frac b ≠ 0)

/-- The value of an encoding. -/
def Fmt.decode (f : Fmt) (b : Nat) : Val :=
  if f.expo b = f.emax then
    if f.frac b = 0 then .inf (f.sign b) else .nan (decide (f.frac b < 2 ^ (f.fb - 1)))
  else if f.expo b = 0 then .fin (f.sign b) (f.frac b) (f.emin - f.fb)
  else .fin (f.sign b) (2 ^ f.fb + f.frac b) ((f.expo b : Int) - f.bias - f.fb)

/-- The input flush of exposed mode (05 R118): a subnormal operand is read as a zero of its own sign. -/
def Fmt.flushIn (f : Fmt) (b : Nat) : Nat := if f.isSub b then f.zeroBits (f.sign b) else b

/-- Rounding modes: 0 RNE, 1 RZ, 2 RDN, 3 RUP (05 R116), and 4 the controller's RMM. Whether the magnitude goes up. -/
def roundUp (mode : Nat) (neg odd above tie inexact : Bool) : Bool :=
  match mode with
  | 0 => above || (tie && odd)
  | 1 => false
  | 2 => neg && inexact
  | 3 => !neg && inexact
  | _ => above || tie

/-- `m × 2 ^ -sh`, rounded to an integer, and whether it was inexact. `sticky` says that the true magnitude lies a
little above `m`. -/
def roundShift (mode : Nat) (neg : Bool) (m : Nat) (sh : Int) (sticky : Bool) : Nat × Bool :=
  match sh with
  | .ofNat 0 => (m + (if roundUp mode neg (m % 2 = 1) false false sticky then 1 else 0), sticky)
  | .negSucc n => (m * 2 ^ (n + 1) + (if roundUp mode neg false false false sticky then 1 else 0), sticky)
  | .ofNat n =>
    let k := m / 2 ^ n; let r := m % 2 ^ n; let half := 2 ^ (n - 1)
    let inexact := decide (r ≠ 0) || sticky
    let above := decide (half < r) || (decide (r = half) && sticky)
    let tie := decide (r = half) && !sticky
    (k + (if roundUp mode neg (k % 2 = 1) above tie inexact then 1 else 0), inexact)

/-- A rounded result: its encoding and its flags, and whether it is tiny after rounding. -/
structure Rounded where
  bits : Nat
  flags : Nat
  tiny : Bool
deriving DecidableEq, Repr

/-- One rounding of `± m × 2 ^ e` (05 R116): overflow as IEEE 754-2019, tininess after rounding; with `flush`, a tiny
result becomes a zero of its own sign and sets UF and NX (05 R118). -/
def Fmt.round (f : Fmt) (mode : Nat) (flush : Bool) (neg : Bool) (m : Nat) (e : Int) (sticky : Bool) : Rounded :=
  if m = 0 ∧ !sticky then ⟨f.zeroBits neg, 0, false⟩ else
  let x := e + (Nat.log2 m : Int)
  let u := max x f.emin - f.fb
  let r := roundShift mode neg m (u - e) sticky
  let free := roundShift mode neg m (x - f.fb - e) sticky
  let tiny := decide (x < f.emin) && !(decide (x = f.emin - 1) && decide (free.1 = 2 ^ (f.fb + 1)))
  let enc := ((u + f.fb + f.bias - 1).toNat) * 2 ^ f.fb + r.1
  if f.emax * 2 ^ f.fb ≤ enc then
    let big := match mode with
      | 1 => false
      | 2 => neg
      | 3 => !neg
      | _ => true
    ⟨if big then f.infBits neg else f.maxBits neg, fOF ||| fNX, false⟩
  else if tiny && flush then ⟨f.zeroBits neg, fUF ||| fNX, true⟩
  else ⟨f.zeroBits neg + enc, flagIf r.2 fNX ||| flagIf (tiny && r.2) fUF, tiny⟩

/-- The encoding of an exact value in a format: NaN and NaR become the canonical NaN, a signalling NaN sets IV
(05 R117). -/
def Fmt.ofVal (f : Fmt) (mode : Nat) (flush : Bool) : Val → WithFlags Nat
  | .nan sig => (f.qnan, flagIf sig fIV)
  | .nar => (f.qnan, 0)
  | .inf n => (f.infBits n, 0)
  | .fin n m e => let r := f.round mode flush n m e false; (r.bits, r.flags)

/-! ## Exact arithmetic -/

/-- `m × 2 ^ (e - lo)` for `lo ≤ e`. -/
def alignTo (m : Nat) (e lo : Int) : Nat := m * 2 ^ (e - lo).toNat

/-- The signed value of a magnitude. -/
def signed (neg : Bool) (m : Nat) : Int := if neg then -(m : Int) else m

/-- The exact sum of two finite values; the sign of an exact zero is as IEEE 754-2019: that of equal signs, and − only
under RDN otherwise. -/
def finAdd (mode : Nat) (n1 : Bool) (m1 : Nat) (e1 : Int) (n2 : Bool) (m2 : Nat) (e2 : Int) : Val :=
  let lo := min e1 e2
  let s := signed n1 (alignTo m1 e1 lo) + signed n2 (alignTo m2 e2 lo)
  if s = 0 then .fin (if n1 = n2 then n1 else mode = 2) 0 0 else .fin (s < 0) s.natAbs lo

/-- Exact order of two finite magnitudes `m1 × 2 ^ e1` and `m2 × 2 ^ e2`. -/
def magLt (m1 : Nat) (e1 : Int) (m2 : Nat) (e2 : Int) : Bool :=
  let lo := min e1 e2
  decide (alignTo m1 e1 lo < alignTo m2 e2 lo)

/-- `a < b` of two values that are no NaN, with −0 = +0. -/
def valLt : Val → Val → Bool
  | .inf n, .inf n' => n && !n'
  | .inf n, _ => n
  | _, .inf n => !n
  | .fin n m e, .fin n' m' e' =>
    let lo := min e e'
    decide (signed n (alignTo m e lo) < signed n' (alignTo m' e' lo))
  | _, _ => false

/-- `a = b` of two values that are no NaN, with −0 = +0. -/
def valEq (a b : Val) : Bool :=
  match a, b with
  | .nan _, _ => false
  | _, .nan _ => false
  | .nar, _ => false
  | _, .nar => false
  | _, _ => !valLt a b && !valLt b a

/-- A NaN of either kind. -/
def Val.isNan : Val → Bool
  | .nan _ => true
  | _ => false

/-- A signalling NaN. -/
def Val.isSig : Val → Bool
  | .nan s => s
  | _ => false

/-- The value with its sign inverted. -/
def Val.negate : Val → Val
  | .inf n => .inf (!n)
  | .fin n m e => .fin (!n) m e
  | v => v

/-- The exact product, or nothing for 0 × ∞. -/
def mulExact : Val → Val → Option Val
  | .inf n, .inf n' => some (.inf (n != n'))
  | .inf n, .fin n' m _ => if m = 0 then none else some (.inf (n != n'))
  | .fin n m _, .inf n' => if m = 0 then none else some (.inf (n != n'))
  | .fin n m e, .fin n' m' e' => some (.fin (n != n') (m * m') (e + e'))
  | _, _ => none

/-- The exact sum, or nothing for ∞ − ∞. -/
def addExact (mode : Nat) : Val → Val → Option Val
  | .inf n, .inf n' => if n = n' then some (.inf n) else none
  | .inf n, .fin _ _ _ => some (.inf n)
  | .fin _ _ _, .inf n => some (.inf n)
  | .fin n m e, .fin n' m' e' => some (finAdd mode n m e n' m' e')
  | _, _ => none

/-- A NaN among the operands: canonical NaN, IV for a signalling one (05 R117). -/
def nanResult (f : Fmt) (l : List Val) : WithFlags Nat := (f.qnan, flagIf (l.any Val.isSig) fIV)

/-- Invalid operation: the canonical NaN and IV. -/
def invalid (f : Fmt) : WithFlags Nat := (f.qnan, fIV)

/-- `a + b`, rounded once. -/
def fAdd (f : Fmt) (mode : Nat) (flush : Bool) (a b : Val) : WithFlags Nat :=
  if a.isNan || b.isNan then nanResult f [a, b] else
  match addExact mode a b with
  | none => invalid f
  | some v => f.ofVal mode flush v

/-- `a × b`, rounded once. -/
def fMul (f : Fmt) (mode : Nat) (flush : Bool) (a b : Val) : WithFlags Nat :=
  if a.isNan || b.isNan then nanResult f [a, b] else
  match mulExact a b with
  | none => invalid f
  | some v => f.ofVal mode flush v

/-- `a × b + c`, rounded once. 0 × ∞ gives the canonical NaN and IV, even with a quiet NaN addend (09 R238). -/
def fFma (f : Fmt) (mode : Nat) (flush : Bool) (a b c : Val) : WithFlags Nat :=
  if a.isNan || b.isNan then nanResult f [a, b, c] else
  match mulExact a b with
  | none => invalid f
  | some p =>
    if c.isNan then nanResult f [c] else
    match addExact mode p c with
    | none => invalid f
    | some v => f.ofVal mode flush v

/-- The order of FMIN, FMAX and the reductions: `a` before `b`, with −0 < +0. -/
def valBefore (a b : Val) : Bool :=
  match a, b with
  | .fin n 0 _, .fin n' 0 _ => n && !n'
  | _, _ => valLt a b

/-- Smaller or larger of two encodings (09 R238), not rounded: a NaN gives the canonical NaN, IV for a signalling one. -/
def fMinMax (f : Fmt) (larger : Bool) (a b : Nat) : WithFlags Nat :=
  let x := f.decode a; let y := f.decode b
  if x.isNan || y.isNan then nanResult f [x, y]
  else if larger then (if valBefore x y then b else a, 0) else (if valBefore y x then b else a, 0)

/-- The result flush of an instruction that does not round (09 R238, R244): a subnormal that it delivers. -/
def flushSub (f : Fmt) (flush : Bool) (r : WithFlags Nat) : WithFlags Nat :=
  if flush && f.isSub r.1 then (f.zeroBits (f.sign r.1), r.2 ||| fUF ||| fNX) else r

/-- The class bits of 09 R239. -/
def fClass (f : Fmt) (b : Nat) : Nat :=
  match f.decode b with
  | .inf true => 1
  | .inf false => 128
  | .nan true => 256
  | .nan false => 512
  | .nar => 512
  | .fin n m _ =>
    if m = 0 then (if n then 8 else 16)
    else if f.expo b = 0 then (if n then 4 else 32)
    else (if n then 2 else 64)

/-- `a × 2 ^ n`, rounded once. -/
def fScale (f : Fmt) (mode : Nat) (flush : Bool) (a : Val) (n : Int) : WithFlags Nat :=
  match a with
  | .fin s m e => f.ofVal mode flush (.fin s m (e + n))
  | v => f.ofVal mode flush v

/-- `⌊√n⌋`, by bits from `2 ^ k` down. -/
def isqrtFrom (n : Nat) : Nat → Nat → Nat
  | 0, r => if (r + 1) * (r + 1) ≤ n then r + 1 else r
  | k + 1, r => isqrtFrom n k (if (r + 2 ^ (k + 1)) * (r + 2 ^ (k + 1)) ≤ n then r + 2 ^ (k + 1) else r)

/-- `⌊√n⌋`. -/
def isqrt (n : Nat) : Nat := isqrtFrom n (Nat.log2 n / 2 + 1) 0

/-- `a ÷ b`, rounded once; division of a finite non-zero value by zero sets DZ. -/
def fDiv (f : Fmt) (mode : Nat) (flush : Bool) (a b : Val) : WithFlags Nat :=
  if a.isNan || b.isNan then nanResult f [a, b] else
  match a, b with
  | .inf _, .inf _ => invalid f
  | .inf n, .fin n' _ _ => (f.infBits (n != n'), 0)
  | .fin n _ _, .inf n' => (f.zeroBits (n != n'), 0)
  | .fin n m e, .fin n' m' e' =>
    if m' = 0 then (if m = 0 then invalid f else (f.infBits (n != n'), fDZ))
    else if m = 0 then (f.zeroBits (n != n'), 0)
    else
      let k := f.fb + 4 + Nat.log2 m'
      let q := m * 2 ^ k / m'
      let r := f.round mode flush (n != n') q (e - e' - k) (decide (m * 2 ^ k % m' ≠ 0))
      (r.bits, r.flags)
  | _, _ => invalid f

/-- `√a`, rounded once. -/
def fSqrt (f : Fmt) (mode : Nat) (flush : Bool) (a : Val) : WithFlags Nat :=
  match a with
  | .nan s => (f.qnan, flagIf s fIV)
  | .nar => (f.qnan, 0)
  | .inf n => if n then invalid f else (f.infBits false, 0)
  | .fin n m e =>
    if m = 0 then (f.zeroBits n, 0) else if n then invalid f
    else
      let k := 2 * (f.fb + 4) + (if e % 2 = 0 then 0 else 1)
      let a2 := m * 2 ^ k
      let q := isqrt a2
      let r := f.round mode flush false q ((e - k) / 2) (decide (q * q ≠ a2))
      (r.bits, r.flags)

/-! ## Tapered formats and scale codes -/

/-- Length of the run of `b` from bit `n - 1` down (05 R120). -/
def runLen (v : Nat) (b : Nat) : Nat → Nat
  | 0 => 0
  | n + 1 => if v / 2 ^ n % 2 = b then 1 + runLen v b n else 0

/-- The value of the magnitude bits of an `n`-bit tapered code (05 R120). -/
def taperedMag (n mag : Nat) : Nat × Int :=
  let b := mag / 2 ^ (n - 2) % 2
  let m := runLen mag b (n - 1)
  let k : Int := if b = 1 then (m : Int) - 1 else -(m : Int)
  let rest := n - 1 - m - 1
  let e := if 1 ≤ rest then mag / 2 ^ (rest - 1) % 2 else 0
  let fb := rest - 1
  (2 ^ fb + mag % 2 ^ fb, 2 * k + e - fb)

/-- The value of an `n`-bit tapered code: T8 for 8, T6 for 6. -/
def taperedDecode (n x : Nat) : Val :=
  let c := x % 2 ^ n
  if c = 0 then .fin false 0 0
  else if c = 2 ^ (n - 1) then .nar
  else
    let neg := decide (2 ^ (n - 1) < c)
    let v := taperedMag n (if neg then 2 ^ n - c else c)
    .fin neg v.1 v.2

/-- The largest magnitude code whose value is at most `m × 2 ^ e`, by bits from `2 ^ k` down. -/
def taperedFloor (n m : Nat) (e : Int) : Nat → Nat → Nat
  | 0, c => c
  | k + 1, c =>
    let c' := c + 2 ^ k
    let v := taperedMag n c'
    taperedFloor n m e k (if magLt m e v.1 v.2 then c else c')

/-- The magnitude code of `m × 2 ^ e`, `m ≠ 0`, and its flags (05 R121). -/
def taperedMagEncode (n m : Nat) (e : Int) : WithFlags Nat :=
  let maxpos := 2 ^ (n - 1) - 1
  let lo := taperedMag n 1
  let hi := taperedMag n maxpos
  if magLt m e lo.1 lo.2 then (1, fUF ||| fNX)
  else if magLt hi.1 hi.2 m e then (maxpos, fOF ||| fNX)
  else
    let c := taperedFloor n m e (n - 1) 0
    let v := taperedMag n c
    if !magLt v.1 v.2 m e then (c, 0)
    else
      let w := taperedMag n (c + 1)
      let low := min (min v.2 w.2) e
      let mid := alignTo v.1 v.2 low + alignTo w.1 w.2 low
      let x2 := 2 * alignTo m e low
      (if x2 < mid then c else if mid < x2 then c + 1 else if c % 2 = 0 then c else c + 1, fNX)

/-- The code of a value in an `n`-bit tapered format (05 R121). -/
def taperedEncode (n : Nat) : Val → WithFlags Nat
  | .nan s => (2 ^ (n - 1), fNAR ||| flagIf s fIV)
  | .nar => (2 ^ (n - 1), fNAR)
  | .inf _ => (2 ^ (n - 1), fNAR)
  | .fin neg m e =>
    if m = 0 then (0, 0) else
    let r := taperedMagEncode n m e
    (if neg then 2 ^ n - r.1 else r.1, r.2)

/-- A T6 code in its container: encode copies bit 5 into bits 7 and 6 (05 R122). -/
def t6Container (c : Nat) : Nat := if c / 32 % 2 = 1 then c + 192 else c

/-- The value of an X8 scale code (05 R124). -/
def x8Decode (c : Nat) : Val := if c % 256 = 255 then .nar else .fin false 1 ((c % 256 : Nat) - 127)

/-- The X8 code of a value (05 R124). -/
def x8Encode : Val → WithFlags Nat
  | .nan s => (255, fNAR ||| flagIf s fIV)
  | .nar => (255, fNAR)
  | .inf _ => (255, fNAR)
  | .fin neg m e =>
    if neg ∨ m = 0 then (0, fNX) else
    let l := Nat.log2 m
    let x : Int := e + l
    let exact := decide (m = 2 ^ l)
    let up := decide (3 * 2 ^ l ≤ 2 * m)
    let c := (if up && !exact then x + 1 else x) + 127
    let cl := if c < 0 then 0 else if 254 < c then 254 else c
    (cl.toNat, if exact && decide (0 ≤ c) && decide (c ≤ 254) then 0 else fNX)

/-- `⌈log2 (m × 2 ^ e)⌉` of a positive value. -/
def ceilLog2 (m : Nat) (e : Int) : Int := let l := Nat.log2 m; if m = 2 ^ l then e + l else e + l + 1

/-- A finite value times a power of two. -/
def Val.scaleBy (v : Val) (k : Int) : Val :=
  match v with
  | .fin n m e => .fin n m (e + k)
  | v => v

/-! ## Integers and conversion (05 R126) -/

/-- An integer as an exact value. -/
def Val.ofInt (i : Int) : Val := .fin (decide (i < 0)) i.natAbs 0

/-- An integer saturated to the `w`-bit signed or unsigned range; OF on saturation. -/
def satInt (w : Nat) (uns : Bool) (i : Int) : WithFlags Nat :=
  let lo : Int := if uns then 0 else -((2 ^ (w - 1) : Nat) : Int)
  let hi : Int := if uns then ((2 ^ w : Nat) : Int) - 1 else ((2 ^ (w - 1) : Nat) : Int) - 1
  if i < lo then (wrap w lo, fOF) else if hi < i then (wrap w hi, fOF) else (wrap w i, 0)

/-- A value rounded to an integer and saturated: NaN and NaR give 0 and IV; a saturation sets OF and NX. -/
def toIntSat (w : Nat) (uns : Bool) (mode : Nat) : Val → WithFlags Nat
  | .nan _ => (0, fIV)
  | .nar => (0, fIV)
  | .inf n =>
    ((if n then (if uns then 0 else 2 ^ (w - 1)) else (if uns then 2 ^ w - 1 else 2 ^ (w - 1) - 1)), fOF ||| fNX)
  | .fin n m e =>
    let r := roundShift mode n m (-e) false
    let s := satInt w uns (signed n r.1)
    if s.2 ≠ 0 then (s.1, fOF ||| fNX) else (s.1, flagIf r.2 fNX)

/-- An integer of a `src`-bit type or format delivered in `w` bits (05 R126): extended where the destination is not
narrower, saturated where it is. -/
def intToInt (src w : Nat) (uns : Bool) (i : Int) : WithFlags Nat :=
  if src ≤ w then (wrap w i, 0) else satInt w uns i

/-- The IEEE format of a V type 4 to 6, or of a format code 8 to 10. -/
def typeFmt : Nat → Fmt
  | 4 => fmtF16
  | 5 => fmtBF16
  | _ => fmtF32

/-- Bytes of an element of a format code (05 R114); 0 for packed T6, whose elements are no whole bytes, and for 0xF. -/
def fmtBytes : Nat → Nat
  | 0 => 1
  | 1 => 1
  | 2 => 2
  | 3 => 2
  | 4 => 4
  | 5 => 4
  | 6 => 8
  | 7 => 8
  | 8 => 2
  | 9 => 2
  | 10 => 4
  | 11 => 1
  | 12 => 1
  | 14 => 1
  | _ => 0

/-- An integer format code. -/
def fmtIsInt (c : Nat) : Bool := decide (c < 8)

/-- An unsigned integer format code: the N formats. -/
def fmtIsN (c : Nat) : Bool := decide (c < 8) && decide (c % 2 = 1)

/-- The exact value of a raw element of a format code, and the flags its decode raises: reading NaR sets NAR. -/
def fmtDecode (c raw : Nat) : WithFlags Val :=
  if c < 8 then
    let w := 8 * fmtBytes c
    (Val.ofInt (if c % 2 = 1 then ((raw % 2 ^ w : Nat) : Int) else sint w raw), 0)
  else if c = 8 then (fmtF16.decode raw, 0)
  else if c = 9 then (fmtBF16.decode raw, 0)
  else if c = 10 then (fmtF32.decode raw, 0)
  else
    let v := if c = 11 then taperedDecode 8 raw else if c = 14 then x8Decode raw else taperedDecode 6 raw
    (v, flagIf (v = .nar) fNAR)

/-- The integer of an exact integer value. -/
def Val.toInt : Val → Int
  | .fin n m e => signed n (alignTo m e 0)
  | _ => 0

/-- A value delivered in a format code (05 R126): `src` is the width of the integer type or format it comes from, and 0
for any other source. `flush` is the result flush of a push in exposed mode. -/
def fmtEncode (c : Nat) (mode : Nat) (flush : Bool) (src : Nat) (v : Val) : WithFlags Nat :=
  if c < 8 then
    if src ≠ 0 then intToInt src (8 * fmtBytes c) (c % 2 = 1) v.toInt
    else toIntSat (8 * fmtBytes c) (c % 2 = 1) mode v
  else if c = 8 then fmtF16.ofVal mode flush v
  else if c = 9 then fmtBF16.ofVal mode flush v
  else if c = 10 then fmtF32.ofVal mode flush v
  else if c = 11 then taperedEncode 8 v
  else if c = 14 then x8Encode v
  else
    let r := taperedEncode 6 v
    (if c = 12 then t6Container r.1 else r.1, r.2)

/-- A value delivered in a V type (05 R126): an integer type saturates as signed. `src` as in `fmtEncode`. -/
def typeEncode (t : Nat) (mode : Nat) (flush : Bool) (src : Nat) (v : Val) : WithFlags Nat :=
  if t < 4 then
    let w := 8 * 2 ^ t
    if src ≠ 0 then intToInt src w false v.toInt else toIntSat w false mode v
  else (typeFmt t).ofVal mode flush v

/-- The value of a raw element of a V type, read as signed or unsigned if it is an integer. -/
def typeDecode (t : Nat) (uns : Bool) (raw : Nat) : Val :=
  if t < 4 then
    let w := 8 * 2 ^ t
    Val.ofInt (if uns then ((raw % 2 ^ w : Nat) : Int) else sint w raw)
  else (typeFmt t).decode raw

/-- The flags of a conversion: those of the decode and of the encode, but a NaR delivered as an integer sets IV and no other flag (05 R126). -/
def convFlags (toInt : Bool) (v : Val) (dec enc : Nat) : Nat := if toInt && decide (v = .nar) then enc else flagOr dec enc

/-! ## Block quantisation (05 R125) -/

/-- The larger of two magnitudes. -/
def magMax (a b : Nat × Int) : Nat × Int := if magLt a.1 a.2 b.1 b.2 then b else a

/-- The largest finite magnitude of a list of values. -/
def amaxFin (l : List Val) : Nat × Int :=
  l.foldl (fun acc v => match v with | .fin _ m e => magMax acc (m, e) | _ => acc) (0, 0)

/-- One block of VQNT: the scale code, the codes and the flags. `t6` selects T6 in a container. -/
def quantBlock (t6 : Bool) (l : List Val) : Nat × List Nat × Nat :=
  let n := if t6 then 6 else 8
  let top : Int := if t6 then 8 else 12
  let put := fun c => if t6 then t6Container c else c
  if l.any Val.isNan then (255, l.map fun _ => put (2 ^ (n - 1)), fIV ||| fNAR)
  else
    let am := amaxFin l
    let anyInf := l.any fun v => match v with | .inf _ => true | _ => false
    if am.1 = 0 ∧ !anyInf then (0, l.map fun _ => 0, 0)
    else
      let c : Int := if anyInf then 255 else ceilLog2 am.1 am.2 - top + 127
      let cl := if c < 0 then 0 else if 254 < c then 254 else c
      let rs := l.map fun v => taperedEncode n (v.scaleBy (127 - cl))
      (cl.toNat, rs.map (fun r => put r.1),
        flagsOf (rs.map (·.2)) ||| flagIf (decide (c < 0)) fSCLO ||| flagIf (decide (254 < c)) fSCHI)

/-! ## Sums of products (05 R127) -/

/-- The exact sum of a chunk's products as a value, with the flags it raises: a NaN input, 0 × ∞ or infinities of both
signs give a NaN and IV; a NaR input gives a NaN and NAR; an exact zero is −0 only if every product is −0. -/
def chunkSum (l : List (Val × Val)) : WithFlags Val :=
  let nar := l.any fun p => decide (p.1 = .nar) || decide (p.2 = .nar)
  let nan := l.any fun p => p.1.isNan || p.2.isNan
  let ps := l.map fun p => mulExact p.1 p.2
  let bad := !nar && !nan && ps.any Option.isNone
  let infs := ps.filterMap fun p => match p with | some (.inf n) => some n | _ => none
  let both := infs.contains true && infs.contains false
  let fl := flagIf nar fNAR ||| flagIf (nan || (bad && !nan) || both) fIV
  if nar || nan || bad || both then (.nan false, fl)
  else match infs with
    | n :: _ => (.inf n, fl)
    | [] =>
      let fins := ps.filterMap fun p => match p with | some (.fin n m e) => some (n, m, e) | _ => none
      let lo := fins.foldl (fun acc p => min acc p.2.2) 0
      let s := fins.foldl (fun acc p => acc + signed p.1 (alignTo p.2.1 p.2.2 lo)) (0 : Int)
      if s = 0 then (.fin (!fins.isEmpty && fins.all (·.1)) 0 0, fl) else (.fin (s < 0) s.natAbs lo, fl)

end Sys2Proof.Machine
end

