-- ==== Sys2Proof/Machine/State.lean ====
section
/-! DEFINITION. The state of the machine: everything the spec gives the part, as plain data, and the state right after
reset. A numbered store is a sparse list (`KMap`); what an unlisted number holds stands with its field. -/

namespace Sys2Proof.Machine

/-! ## Reasons to stop -/

/-- Why the machine stops with a fault. Raised by no meaning: every fault of the spec is a state the part goes on from.
The one reason is safe. -/
inductive Fault
  /-- No step raises it (safe). -/
  | none
deriving DecidableEq, Repr

/-- Why an instruction has no meaning. -/
inductive Refusal
  /-- Raised by an arm of exec whose instruction has no meaning yet (safe). -/
  | notModelled (mnemonic : String)
deriving DecidableEq, Repr

/-! ## Kernel sequencer -/

/-- A compact predicate: width code and count (08 R193). -/
structure Pred where
  w : Nat
  n : Nat
deriving DecidableEq, Repr

/-- A loop-stack entry (08 R194). `mode` is 0 exposed, 1 interlocked, 2 modulo; `start` and `stop` are addresses. -/
structure LoopE where
  start : Nat
  stop : Nat
  remaining : Nat
  mode : Nat
  s : Nat
  n : Nat
  j : Nat
  rrb : Nat
deriving DecidableEq, Repr

/-- A pending transfer: target address and delay bundles left (08 R208). -/
structure Xfer where
  target : Nat
  left : Nat
deriving DecidableEq, Repr

/-- Register classes of the kernel. -/
inductive RegClass | q | b | c | p | m | g | i | v
deriving DecidableEq, Repr

/-- A register as an instruction names it. -/
structure GReg where
  cls : RegClass
  n : Nat
deriving DecidableEq, Repr

/-- A vector result for one register of one cluster: the bits of `msk` are written (08 R196, 09 R232). -/
structure RowW where
  cl : Nat
  reg : Nat
  val : Row
  msk : Row
deriving DecidableEq, Repr

/-- What lands (08 R196): a register of a class (per cluster for g and i), kmode, vector rows, flags, or the bytes of a
stream push and the advance that follows it (10 R262). A p value is width × 1024 + count. -/
inductive Landed
  | word (cls : RegClass) (cl n : Nat) (v : Dword)
  | kmode (v : Nat)
  | rows (l : List RowW)
  /-- an SLD that reads the SRF on the next cycle: cluster, physical register and offset (10 R267, R268) -/
  | fetch (h : Nat) (l : List (Nat × Nat × Nat))
  | flags (f : Nat)
  | srf (h off n v : Nat)
  | advance (port recs : Nat)
  | eos (h : Nat)
deriving DecidableEq, Repr

/-- A result in the landing queue: the cycles left, or the issued bundles left. -/
structure Landing where
  left : Nat
  perBundle : Bool
  what : Landed
deriving DecidableEq, Repr

/-- A stream descriptor (07 R159). `polder` none is the field's none. KIND is latched when POLDER is written. -/
structure Desc where
  polder : Option Nat
  kind : Nat
  fmt : Nat
  mfmt : Nat
  recn : Nat
  len : Nat
  pos : Nat
  base : Nat
  stride : Nat
  tile : Nat
  scale : Nat
  idx : Nat
  red : Nat
  dst : Nat
  /-- POLDER [5:0] as written, where bit 6 says none -/
  low : Nat
deriving DecidableEq, Repr

/-- All fields 0, POLDER none (07 R159). -/
def Desc.init : Desc := ⟨none, 0, 0, 0, 0, 0, 0, 0, 0, 0, 0, 0, 0, 0, 0⟩

/-- A polder (03 R79, 07 R156, R162): kind 0 linear, 1 ring, 2 queue; head and tail in records; `eosReq` the
retirement sequence of an EOS close that waits for older entries; `fill` the cycles of a pending allocation's claim and fill; `room` records reserved by issued pushes. -/
structure Polder where
  kind : Nat
  log2 : Nat
  base : Nat
  head : Nat
  tail : Nat
  eos : Bool
  eosReq : Option Nat
  pending : Bool
  fill : Nat
  room : Nat
deriving DecidableEq, Repr

/-- A request in an address queue, or its entry in a data queue (10 R255 to R260). `state`: 0 queued or sent, 1 landed,
2 parked or reclaimed. -/
structure AqReq where
  srf : Bool
  addr : Nat
  bytes : Nat
  handle : Nat
  state : Nat
  acc : Nat
  data : Dword
  due : Nat
deriving DecidableEq, Repr

/-- The gather port of a bank: the cycle from which it is free, and the rows served for the requests of one cycle, each
with the cycle that serves it (10 R257). -/
structure GPort where
  free : Nat
  at_ : Nat
  rows : List (Nat × Nat)
deriving DecidableEq, Repr

/-- A copy started by KCOPY: direction 1 is into the SRF (10 R271). `seq` numbers the copies of the kernel. -/
structure KCopy where
  desc : Desc
  idxDesc : Desc
  dir : Nat
  seq : Nat
deriving DecidableEq, Repr

/-- A lock section (10 R270): its first bundle, the clusters that act in this round, those that wait, the round,
whether the bundle that is issuing holds the SSTU that closes it, and whether its SLDL has taken its locks. -/
structure LockSec where
  first : Nat
  acting : List Nat
  waiting : List Nat
  round : Nat
  closing : Bool
  opened : Bool
deriving DecidableEq, Repr

/-- Where a kernel stands. -/
inductive KPhase
  /-- no kernel -/
  | idle
  /-- cycles until the first bundle -/
  | starting (n : Nat)
  /-- issuing -/
  | running
  /-- stopped by KTRAP or FETCH_BOUND -/
  | stopped
  /-- END executed, or ended by an event: results and copies still end -/
  | ending
  /-- halted for a pre-emption -/
  | halted
  /-- restored: cycles until the next bundle, results still frozen until then -/
  | resuming (n : Nat)
  /-- a suspended activation that is being restored: the same (06 R149) -/
  | reloading (n : Nat)
deriving DecidableEq, Repr

/-- The uniform state of a kernel context (08 R193) and what the sequencer keeps beside it. -/
structure Kern where
  phase : KPhase
  /-- the KTAB extent as addresses (04 R89), and the KTAB interlocked flag -/
  lo : Nat
  hi : Nat
  interlocked : Bool
  pc : Nat
  q : KMap Dword
  b : KMap Dword
  m : KMap Dword
  c : KMap Bool
  p : KMap Pred
  kmode : Nat
  loops : List LoopE
  xfer : Option Xfer
  land : List Landing
  /-- registers written in the current instruction group (04 R95) -/
  group : List GReg
  /-- cycles until the next bundle may issue -/
  gap : Nat
  /-- the last issued bundle, whose end-of-bundle decision is still owed -/
  last : Option Nat
  /-- where issue goes on after the last bundle when no decision moves it -/
  after : Nat
  /-- cycles since the first bundle issued, whether it has, and the cycle that was last counted -/
  cycles : Nat
  begun : Bool
  ticked : Nat
  delay : Nat
  /-- a KTRAP or END that takes effect after the bundle's empty run; `ends` stays set once END has been executed -/
  trapN : Option Nat
  ends : Bool
  yielded : Bool
  /-- the dike the kernel waits at: group entry, and the empty run of the SYNC's bundle -/
  dike : Option (Nat × Nat)
  rejoin : Bool
  lock : Option LockSec
  /-- KCOPYs waiting, and their number so far; first non-zero status -/
  kcq : List KCopy
  kcN : Nat
  kcStatus : Nat
  /-- cycles of a KCOPY token wait still left -/
  tokLeft : Option Nat
  /-- the ports' descriptors, as captured (10 R262) -/
  ports : KMap Desc
  /-- records reserved at POS by issued pushes of a linear port -/
  pushed : KMap Nat
  /-- stage of a pipeline activation -/
  stage : Option Nat
  /-- status with which the command completes: 0 OK, 2 CANCELLED, 8 HALTED -/
  status : Nat
  /-- halt point of a pre-emption (19 R412) -/
  haltPoint : Nat
deriving DecidableEq, Repr

/-- The state at a kernel's first bundle (08 R193). -/
def Kern.init : Kern :=
  { phase := .idle, lo := 0, hi := 0, interlocked := false, pc := 0, q := [], b := [], m := [], c := [], p := [], kmode := 0,
    loops := [], xfer := none, land := [], group := [], gap := 0, last := none, after := 0, cycles := 0, begun := false, ticked := 0, delay := 0,
    trapN := none, ends := false, yielded := false, dike := none, rejoin := false, lock := none, kcq := [], kcN := 0, kcStatus := 0,
    tokLeft := none, ports := [], pushed := [], stage := none, status := 0, haltPoint := 0 }

/-! ## Matrix unit -/

/-- A call-queue entry (11 R283): MCALL, or MZERO as a routine of its own. -/
structure MCallE where
  id : Nat
  zero : Bool
  routine : Nat
  tile : Nat
  span : Nat
  a : Nat
  b : Nat
  keep : Bool
  spb : Bool
  m : KMap Dword
  /-- the bundle that issued it, and the cycle from which it may start -/
  bundle : Nat
  exposed : Bool
  from_ : Nat
deriving DecidableEq, Repr

/-- An open loop of a routine (11 R300). -/
structure MLoop where
  left : Nat
  start : Nat
  stop : Nat
deriving DecidableEq, Repr

/-- An accumulator update that lands (11 R289): the rows of a group of a tile, per cluster, as an operation on the
accumulator's value at landing. `kind`: 0 add a sum, 1 set a sum, 2 to 4 EPI fn 0 to 2, 5 zero. -/
structure AccUpd where
  left : Nat
  /-- the call that issued it, and its place among the updates of the unit -/
  owner : Nat
  no : Nat
  kind : Nat
  mode : Nat
  exposed : Bool
  tile : Nat
  row0 : Nat
  /-- per cluster and row: the 32 chunk sums, for kinds 0 and 1 -/
  sums : List (Nat × Nat × List Val)
  factor : BitVec 32
  flags : Nat
deriving DecidableEq, Repr

/-- A raised watermark that waits for landings: tile, rows, and the number of updates issued before it. -/
structure WmWait where
  tile : Nat
  rows : Nat
  before : Nat
deriving DecidableEq, Repr

/-- A routine that runs, or that has executed RET and not retired (11 R276, R288). -/
structure Routine where
  call : MCallE
  /-- its words, and the number of the next one -/
  words : List Dword
  pc : Nat
  k : KMap (BitVec 32)
  loops : List MLoop
  gbase : Nat
  sel : Nat
  curA : Nat
  curB : Nat
  /-- highest record read, plus one; 0 when none has been read -/
  highA : Nat
  highB : Nat
  /-- the B record that BMCHK last checked, its bitmap and its stated length -/
  checked : Option Nat
  bmap : Nat
  blen : Nat
  wms : List WmWait
  cycles : Nat
  wait : Nat
  done : Bool
  /-- GEMM.SET of the library: the first chunk sets (11 R303) -/
  firstSet : Bool
deriving DecidableEq, Repr

/-- The matrix state of a kernel context (11 R276). -/
structure Matrix where
  mode : KMap Nat
  guard : KMap Nat
  wm : KMap Nat
  queue : List MCallE
  run : Option Routine
  /-- routines that have executed RET and wait for their results to land -/
  retiring : List Routine
  upd : List AccUpd
  nextCall : Nat
  nextUpd : Nat
  /-- set by the pre-emption: the unit drains, queued entries do not start; cycles since the request -/
  drain : Option Nat
deriving DecidableEq, Repr

/-- Modes F32, guards 0, watermarks 32 (an unlisted watermark is 32), queue empty (11 R276). -/
def Matrix.init : Matrix :=
  { mode := [], guard := [], wm := [], queue := [], run := none, retiring := [], upd := [], nextCall := 0, nextUpd := 0, drain := none }

/-! ## Scoreboard -/

/-- A range of a read or write set (06 R136, R137): bytes of a polder, or its head or tail. -/
inductive SetR
  | bytes (h off n : Nat)
  | head (h : Nat)
  | tail (h : Nat)
deriving DecidableEq, Repr

/-- State of a scoreboard entry (19 R416). -/
inductive EState | waiting | running | parked | complete | haltOnIssue
deriving DecidableEq, Repr

/-- A scoreboard entry (06 R134 to R141). -/
structure Entry where
  seq : Nat
  instr : Instr
  rs1 : Dword
  rs2 : Dword
  cls : Nat
  reads : List SetR
  writes : List SetR
  descs : KMap Desc
  state : EState
  /-- cycle of issue -/
  issued : Nat
  /-- copy progress: next record and byte of it to send, beats in flight, bytes counted, size, status -/
  rec_ : Nat
  off : Nat
  flight : Nat
  counted : Nat
  size : Nat
  status : Nat
  /-- raw bytes of elements that straddle a line, by byte position in the command -/
  staged : KMap Byte
  /-- records taken from or appended to a ring or queue so far, the tail at the start, and the memory bytes committed of the
  records after them -/
  moved : Nat
  tail0 : Nat
  part : KMap Nat
  /-- the parameter block of a merge (13 R333) -/
  block : List Byte
  /-- a KCOPY (its seq) rather than a scoreboard command -/
  kcopy : Option Nat
  /-- memory side still to be performed although the entry has been freed (06 R140, copies out of the SRF) -/
  freed : Bool
  /-- beats sent so far: the number of the next one (23 R451) -/
  beats : Nat
  /-- SRF bytes that a copy out has read with a beat of the SRF and not yet sent, by polder offset (14 R354) -/
  caught : KMap Byte
  /-- pieces of memory that its beats have written so far, of an SSCATTER: address and length (07 R168) -/
  wrote : List (Nat × Nat)
deriving DecidableEq, Repr

/-- A suspended activation (06 R149): the kernel, its matrix state, the cluster state, and where its image stands (1 a
shadow slot, 2 the context record), with its order among the saves. -/
structure Susp where
  kern : Kern
  matrix : Matrix
  g : KMap Dword
  i : KMap (BitVec 32)
  v : KMap Row
  aq : KMap (List AqReq)
  dq : KMap (List AqReq)
  lockHeld : KMap Nat
  place : Nat
  order : Nat
  /-- whether its tower was fused, and the arrivals at the tower line (03 R74, R76) -/
  fused : Bool
  line : List Nat
  lineAt : Nat
deriving DecidableEq, Repr

/-- A stage declaration and its run state (06 R143 to R149). -/
structure Stage where
  declared : Bool
  rs1 : Dword
  rs2 : Dword
  remaining : Nat
  age : Nat
  finished : Bool
  suspended : Option Susp
deriving DecidableEq, Repr

/-- No declaration. -/
def Stage.init : Stage := ⟨false, 0, 0, 0, 0, false, none⟩

/-- The arbiter of a running KPIPE (06 R145). -/
structure Pipe where
  seq : Nat
  /-- cycle from which a decision may be made; none while an activation runs -/
  decide_ : Option Nat
  halted : Bool
  /-- what the arbiter saw at its last decision, if it chose no stage: it decides again when that changes (06 R146) -/
  seen : Option (List Nat)
deriving DecidableEq, Repr

/-- A sweep in progress (07 R175): iterations read, and windows read but not yet written, with their write cycle. -/
structure Sweep where
  seq : Nat
  next : Nat
  stop : Nat
  writes : List (Nat × List (Nat × Nat × Nat) × Nat)
deriving DecidableEq, Repr

/-! ## Spire -/

/-- A key of the window or of a run: accumulator, flags NaN +∞ −∞, mark and record count (13 R336, R337). -/
structure SpKey where
  key : Nat
  acc : Int
  nan : Bool
  pinf : Bool
  ninf : Bool
  marked : Bool
  count : Nat
deriving DecidableEq, Repr

/-- An input of a merge: the entry that named it, its descriptor, and the next record. -/
structure SpIn where
  seq : Nat
  desc : Desc
  next : Nat
  ended : Bool
deriving DecidableEq, Repr

/-- A run of the spill area (13 R338). -/
structure SpRun where
  off : Nat
  keys : Nat
  pass : Nat
  live : Bool
deriving DecidableEq, Repr

/-- What the Spire sends: kind 0 a run, 1 the directory, 2 a read back; the writes still to send by byte offset in the spill area, the
offsets still to read, the beats in flight, and the run that is being written. -/
structure SpJob where
  kind : Nat
  writes : List (Nat × List Byte)
  reads : List Nat
  flight : Nat
  run : SpRun
deriving DecidableEq, Repr

/-- The Spire (13). Phase: 0 idle, 1 taking input, 2 open, 3 merging passes, 4 emitting (13 R344). -/
structure Spire where
  phase : Nat
  seq : Nat
  rs1 : Dword
  outDesc : Desc
  block : List Byte
  inputs : List SpIn
  window : List SpKey
  limit : Nat
  runs : List SpRun
  free : Nat
  job : Option SpJob
  /-- records read back of the runs being merged, by byte offset -/
  back : KMap SpKey
  out : List SpKey
  emitted : Nat
  dropped : Nat
  rowp : Nat
  flags : Nat
  status : Nat
  stopped : Bool
  ready : Nat
  /-- the input that the round visits next, and the pass number of the next merged run -/
  turn : Nat
  pass : Nat
  /-- the command that runs has joined or closes an open merge (13 R343, R345) -/
  joined : Bool
  /-- numbers of the runs that are being merged -/
  merged : List Nat
  /-- output that is not yet written to the SRF, by polder offset (14 R354) -/
  outBuf : KMap Byte
deriving DecidableEq, Repr

/-- Idle. -/
def Spire.init : Spire :=
  { phase := 0, seq := 0, rs1 := 0, outDesc := Desc.init, block := [], inputs := [], window := [], limit := 0, runs := [], free := 0,
    job := none, back := [], out := [], emitted := 0, dropped := 0, rowp := 0, flags := 0, status := 0, stopped := false, ready := 0, turn := 0, pass := 0,
    joined := false, merged := [], outBuf := [] }

/-! ## Contexts -/

/-- A controller instruction that waits (07 R154), with the value it waits for and its time limit. -/
structure Wait where
  instr : Instr
  rs1 : Dword
  rs2 : Dword
  /-- retirement sequence at the check: entries below it are older -/
  seq : Nat
  stage : Nat
  limit : Option Nat
  /-- the answer once it is known -/
  answer : Option Nat
deriving DecidableEq, Repr

/-- What an instruction that blocks issue has not yet retired of: the pc and the registers as they stood before it (19 R406). -/
structure Squash where
  pc : Dword
  x : KMap Dword
  f : KMap Dword
  fcsr : BitVec 32
deriving DecidableEq, Repr

/-- A context (02 R55, 08 R193, 11, 13, 19). -/
structure Ctx where
  launch : Nat
  rank : Nat
  task : List Byte
  hw : Nat
  split : Option Nat
  pc : Dword
  x : KMap Dword
  f : KMap Dword
  fcsr : BitVec 32
  mmode : Bool
  /-- the address of a load reservation (06 R131) -/
  resv : Option Nat
  mepc : Dword
  mcause : Dword
  mtval : Dword
  mtvec : Dword
  mstatus : Dword
  /-- kevent (07 R189), kstatus.STOPPED, IE, PEND (07 R188), and the IE write that awaits its JALR -/
  kevent : Dword
  stopped : Bool
  ie : Bool
  pend : Bool
  ieWait : Option Bool
  ktvec : Dword
  kepc : Dword
  cbase : Dword
  cbound : Dword
  cceil : Dword
  kstat : Nat
  /-- the bits of kstat that are set on this cycle: they join it when the cycle ends (07 R187; 08 R219, R220) -/
  kset : Nat
  sysb : Bool
  mwdog : Nat
  mpreq : Bool
  profile11 : Bool
  wait : Option Wait
  busy : Nat
  /-- a blocking DIV, FDIV or FSQRT that has not retired -/
  squash : Option Squash
  /-- KRES written by this member of a fused tower (07 R192) -/
  kres : Bool
  polders : KMap Polder
  descs : KMap Desc
  sb : List Entry
  seq : Nat
  /-- places of the scoreboard taken when the last cycle ended, or released by a refused command since, and those that were freed on each of
  the three cycles before it (06 R134) -/
  used : Nat
  recent : List Nat
  stages : KMap Stage
  pipe : Option Pipe
  sweep : Option Sweep
  kern : Kern
  wdog : Nat
  matrix : Matrix
  spire : Spire
  g : KMap Dword
  i : KMap (BitVec 32)
  v : KMap Row
  aq : KMap (List AqReq)
  dq : KMap (List AqReq)
  /-- SRF lock held by a cluster: lane, bank and k as one number (10 R269) -/
  lockHeld : KMap Nat
  /-- gather ports of the SRF banks, by lane × 48 + bank (10 R257) -/
  gports : KMap GPort
  /-- ownership tokens by IA region (15 R390): 0 asked for, 1 held, 2 unchecked, 16 + t refused at cycle t -/
  tokens : KMap Nat
  /-- dikes at which the controller has arrived, by group entry: 1 arrived, 2 released (07 R180) -/
  sbar : KMap Nat
  /-- a pre-emption has been requested: cycles since its arrival -/
  preempt : Option Nat
  /-- a migration freeze asked for it -/
  frozen : Bool
  /-- the controller is stopped for good, because the launch has ended (24 R462) -/
  halted : Bool
deriving DecidableEq, Repr

/-- A context with every register at the value of 02 R55, or 0 where the spec gives none (logs 8, 9). -/
def Ctx.init : Ctx :=
  { launch := 0, rank := 0, task := [], hw := 2 ^ 32, split := none, pc := 0, x := [], f := [], fcsr := 0, mmode := false, resv := none,
    mepc := 0, mcause := 0, mtval := 0, mtvec := 0x38C00, mstatus := 0, kevent := 0, stopped := false, ie := false, pend := false,
    ieWait := none, ktvec := 0, kepc := 0, cbase := 0, cbound := 0, cceil := 0, kstat := 0, kset := 0, sysb := false, mwdog := 27, mpreq := false,
    profile11 := false, wait := none, busy := 0, squash := none, kres := false, polders := [], descs := [], sb := [], seq := 0, used := 0, recent := [], stages := [], pipe := none,
    sweep := none, kern := Kern.init, wdog := 0, matrix := Matrix.init, spire := Spire.init, g := [], i := [], v := [], aq := [], dq := [],
    lockHeld := [], gports := [], tokens := [], sbar := [], preempt := none, frozen := false, halted := false }

/-- A pre-empted context of an SP: its place is a shadow slot, or its context record (19 R410), and which of its
polders and whether its control memory have been claimed into its save area. -/
structure Victim where
  ctx : Ctx
  /-- 0 being saved, 1 in a slot, 2 in the record, 3 being restored -/
  place : Nat
  /-- cycles left of the save, the write-out or the restore in progress -/
  left : Nat
  claimed : KMap (KMap Row)
  cm : Option (KMap Byte)
  order : Nat
  /-- the context as its record in memory last showed it (19 R418) -/
  shown : Option Ctx
  /-- its tower, whether it was fused, and the arrivals at its line (03 R73, R76) -/
  tower : List Nat
  fused : Bool
  line : List Nat
  lineAt : Nat
deriving DecidableEq, Repr

/-- A stream processor (03, 06, 19). -/
structure Sp where
  ctx : Option Ctx
  /-- launch that holds the SP, and whether it is idle after TEXIT (02 R67, 03 R70) -/
  held : Option Nat
  idle : Bool
  /-- the context that has exited, whose polders a task keeps (02 R67, R68) -/
  left : Option Ctx
  cm : KMap Byte
  srf : KMap Row
  ustore : KMap Dword
  /-- routine table: start and length (11 R296) -/
  rtab : KMap (Nat × Nat)
  installed : Option Nat
  victims : List Victim
  /-- group table entries held by the four dike ports (02 R62) -/
  dikes : KMap Nat
  /-- range registers: segment numbers, most recent first (12 R310) -/
  ranges : List Nat
  /-- hints on their way: launch, address of the next beat, bytes left (07 R171, 08 R222; 12 R306) -/
  hints : List (Nat × Nat × Nat)
  /-- the slot table of the SP's router: connection (input, output) and owning launch (15 R379) -/
  router : KMap (Nat × Nat × Nat)
  gatherErr : Nat
  attach : Bool
  dbgStopped : Bool
  /-- members of the tower in column order, and whether it is fused (03 R73, R74) -/
  tower : List Nat
  fused : Bool
  /-- members that have arrived at the tower line, with the cycle of the last arrival (03 R76) -/
  line : List Nat
  lineAt : Nat
  /-- latched snapshot (25 R476) -/
  snap : List Dword
deriving DecidableEq, Repr

/-- An SP that holds nothing; the routine table holds the library of 11 R303 (see `libraryRoutines`). -/
def Sp.init : Sp :=
  { ctx := none, held := none, idle := false, left := none, cm := [], srf := [], ustore := [], rtab := [], installed := none, victims := [], dikes := [],
    ranges := [], hints := [], router := [], gatherErr := 0, attach := false, dbgStopped := false, tower := [], fused := false, line := [], lineAt := 0, snap := [] }

/-! ## Partitions, launches and the host port -/

/-- A segment of a launch (12 R309): VA base, length, IA base, access bits, kind, whether it is valid, its sync-object
number, and the preferred page size. -/
structure Segment where
  base : Nat
  len : Nat
  ia : Nat
  read : Bool
  write : Bool
  kind : Nat
  pageable : Bool
  valid : Bool
  sync : Nat
deriving DecidableEq, Repr

/-- A kernel of KTAB (01 R23): start and end offsets, and the interlocked flag. -/
structure KtabE where
  start : Nat
  stop : Nat
  interlocked : Bool
deriving DecidableEq, Repr

/-- A declared polder (01 R31). -/
structure PoldecE where
  handle : Nat
  kind : Nat
  log2 : Nat
deriving DecidableEq, Repr

/-- A loaded code object (01): what its sections hold. -/
structure Code where
  handle : Nat
  /-- physical address of KCODE and its admitted and total lengths (01 R25) -/
  base : Nat
  len : Nat
  admitted : Nat
  ctrl : List Byte
  ktab : List KtabE
  segtab : List Byte
  grptab : List (List Nat × List Nat)
  slottab : List (Nat × Nat × Nat × Nat)
  polders : List PoldecE
  data : List (Nat × List Byte)
  routines : List (List Dword)
  profile : Nat
  system : Bool
  wdog : Nat
  slots : Bool
  unloading : Bool
  /-- object digest, SIGCHAIN content (01 R38), build identifier (R14) and the descriptor of vw.build (R22) -/
  digest : List Byte
  chain : List Byte
  build : List Byte
  note : List Byte
deriving DecidableEq, Repr

/-- A group table entry (02 R63): owner, members, who has arrived at the dike and when the last arrival came, and the
task pool, oldest first: entry, argument and weight. -/
structure Group where
  launch : Nat
  members : List Nat
  arrived : List Nat
  last : Nat
  full : Bool
  pool : List (Nat × List Byte × Nat)
deriving DecidableEq, Repr

/-- An open fault record (12 R321), with the accesses parked on it. -/
structure FaultRec where
  id : Nat
  cause : Nat
  access : Nat
  die : Nat
  ia : Nat
  va : Nat
  launch : Nat
  sp : Nat
  parked : List Nat
  /-- FAULT has been sent: a source of a migration leaves that to its destination (23 R449) -/
  told : Bool
deriving DecidableEq, Repr

/-- A waiter of a token (15 R390): package, launch, rank, partition, and the region. -/
structure TokWait where
  pkg : Nat
  launch : Nat
  rank : Nat
  part : Nat
  region : Nat
  sp : Nat
deriving DecidableEq, Repr

/-- The migration state of a partition (23). `role`: 0 none, 1 source, 2 destination. `phase` at a source: 1 the hello has been sent, 2 freeze,
3 transfer, 4 the destination has resumed, 5 grace, 6 drained; at a destination: 1 ACCEPT answered, 2 receiving, 3 resuming,
4 paging, 5 every page present: it migrates no longer. `pages`: absent at a destination, shipped at a source. -/
structure Migr where
  role : Nat
  phase : Nat
  id : Nat
  peerPkg : Nat
  peerPart : Nat
  port : Nat
  /-- cycle of START, and of the last phase change or record -/
  start : Nat
  at_ : Nat
  pages : List Nat
  /-- pulls asked for: at a source those to be shipped, in order, as page × 2 + 1 for the background; at a destination those outstanding, as page × 8 + die (7 the background) -/
  pulls : List Nat
  /-- packets received of a page -/
  got : KMap Nat
  /-- beats forwarded and beats answered HOLD; or pages pulled on demand and in the background -/
  n1 : Nat
  n2 : Nat
  bytes : Nat
  contexts : Nat
  /-- cycle on which the last context was saved (23 R447) -/
  saved : Nat
  /-- ranges of absent pages that the part itself has written, which the pages leave alone when they come (log 18) -/
  own : List (Nat × Nat)
deriving DecidableEq, Repr

/-- No migration. -/
def Migr.init : Migr := ⟨0, 0, 0, 0, 0, 0, 0, 0, [], [], [], 0, 0, 0, 0, 0, []⟩

/-- A partition (02 R48, R49). -/
structure Part where
  sps : List Nat
  /-- linear and paged ranges: base and length -/
  linear : List (Nat × Nat)
  paged : List (Nat × Nat)
  /-- IA ranges in use by segments, save areas and records: owner launch, base, length -/
  used : List (Nat × Nat × Nat)
  arena : Nat
  arenaBase : Nat
  codes : List Code
  groups : KMap Group
  /-- PEER and EXPORT words (two per entry), TOKTAB -/
  peer : KMap Dword
  export_ : KMap Dword
  toktab : Dword
  tokWait : List TokWait
  faults : List FaultRec
  stale : Nat
  migr : Migr
  /-- the ACCEPT that waits for its hello (23 R448) -/
  accept : Option Migr
  /-- where the partition has gone: package and partition (23 R458, R459) -/
  moved : Option (Nat × Nat)
  /-- (VF, queue) pair that last started at each priority (02 R60) -/
  lastStart : KMap (Nat × Nat)
  /-- sync objects: launch and object number; holders as (SP, shared); waiters in order -/
  sync : List (Nat × Nat × List (Nat × Bool) × List (Nat × Bool))
deriving DecidableEq, Repr

/-- The registers of a partition's number: PEER and EXPORT words, TOKTAB, and the stale-response counter (15 R387 to R389; 25 R475). -/
structure Windows where
  peer : KMap Dword
  export_ : KMap Dword
  toktab : Dword
  stale : Nat
deriving DecidableEq, Repr

/-- They are 0 at reset. -/
def Windows.init : Windows := ⟨[], [], 0, 0⟩

/-- A partition just created. -/
def Part.init : Part :=
  { sps := [], linear := [], paged := [], used := [], arena := 0, arenaBase := 0, codes := [], groups := [], peer := [], export_ := [],
    toktab := 0, tokWait := [], faults := [], stale := 0, migr := Migr.init, accept := none, moved := none, lastStart := [], sync := [] }

/-- A launch (02 R53 to R68, 24). `state`: 0 queued, 1 running, 2 ended and not yet released,
3 placed while its initial data is copied (12 R309). -/
structure Launch where
  id : Nat
  vf : Nat
  queue : Nat
  part : Nat
  handle : Nat
  tag : Nat
  msgTag : Nat
  entry : Nat
  count : Nat
  bar : Bool
  setf : Bool
  twr : Nat
  prio : Nat
  mask : Nat
  port : Nat
  addr : Nat
  args : List Dword
  state : Nat
  passes : Nat
  started : Nat
  /-- the root's expected total, and the returned sum (02 R64) -/
  t : Nat
  ret : Nat
  segs : List Segment
  ranks : List Nat
  groups : List (Nat × Nat)
  slots : List (Nat × Nat)
  cause : Option Nat
  crank : Nat
  cword : Nat
  caddr : Nat
  cpc : Nat
  order : Nat
  /-- save area of each rank, by SP: its IA; the context record follows it (03 R81, 19 R410) -/
  saves : KMap Nat
  /-- SPs whose contexts a waiting or running launch had pre-empted for it (02 R61) -/
  wants : List Nat
  /-- tokens held by its pre-empted contexts when it ended: SP, rank and region (24 R462, R465) -/
  gone : List (Nat × Nat × Nat)
deriving DecidableEq, Repr

/-- A UDP datagram on the host port in its frame (02 R41): the MAC address, IPv6 address and UDP port at the part's end, those at the host's end
(its MAC address is the network's affair), whether it is a fragment, and its payload. -/
structure HostFrame where
  mac : Nat
  ip : Nat
  port : Nat
  peerIp : Nat
  peerPort : Nat
  fragment : Bool
  payload : List Byte
deriving DecidableEq, Repr

/-- A message of the host port that the part sends (02 R42, R43), with the UDP port and the IPv6 address at the host that it goes to. -/
structure Msg where
  vf : Nat
  type_ : Nat
  seq : Nat
  status : Nat
  tag : Nat
  port : Nat
  addr : Nat
  payload : List Byte
deriving DecidableEq, Repr

/-- A part-sent message that awaits its ACK (02 R45). -/
structure Unacked where
  msg : Msg
  tries : Nat
  at_ : Nat
deriving DecidableEq, Repr

/-- A virtual function (02 R44 to R47). -/
structure Vf where
  part : Option Nat
  expect : Nat
  held : List (Nat × Instr)
  replies : List (Nat × Msg)
  next : Nat
  unacked : List Unacked
  lost : Nat
  /-- the message being executed, whose completion the next message waits for (02 R51) -/
  busy : Option Nat
  /-- IPv6 address and UDP port from which the VF's last executed message came -/
  host : Nat × Nat
deriving DecidableEq, Repr

/-- Unbound, sequence numbers 0. -/
def Vf.init : Vf := ⟨none, 0, [], [], 0, [], 0, none, (0, 0)⟩

/-! ## Memory side and fabric -/

/-- Where an access comes from, and where its completion goes. -/
inductive Src
  /-- a beat of a copy command or KCOPY: SP, launch, entry, record, byte of the record -/
  | copy (sp launch seq rec_ off : Nat)
  /-- a gather of a cluster -/
  | gather (sp launch cl : Nat)
  /-- a beat of a host transfer -/
  | host (id : Nat)
  /-- a beat of a Spire job -/
  | spire (sp launch : Nat)
  /-- a beat of a hint -/
  | hint (sp launch : Nat)
  /-- a beat of a peer package, at its home -/
  | remote (k : Packet)
deriving DecidableEq, Repr

/-- Kinds of access. A reduction carries the RED code, an atomic its operation and format. -/
inductive AKind
  | read
  | write
  | reduce (red mfmt : Nat)
  | atomic (op mfmt : Nat)
deriving DecidableEq, Repr

/-- An access in flight (12 R328 to R330). `state`: 0 waits to become an outstanding miss, 1 waits for a walk, 2 on its way to its
slice, 3 applied or ended, 4 parked, 5 at a peer, 6 resolved while its context is out, 7 in the queue of range-register misses, 8 waits
for a free fault record, 9 waits for a fabric copy engine, 10 waits for an absent migration page (23 R455). `ready` is the cycle from which it may go on. -/
structure Acc where
  id : Nat
  src : Src
  part : Nat
  kind : AKind
  va : Nat
  ia : Nat
  pa : Nat
  n : Nat
  data : List Byte
  die : Nat
  ready : Nat
  state : Nat
  status : Nat
  result : List Byte
  /-- a write that triggered an invalidation: accesses below this number must perform before it completes (12 R320) -/
  bar : Nat
  /-- flags that the beat raises when it commits (07 R167) -/
  flags : Nat
  /-- its number among the beats of its copy command (23 R451) -/
  beat : Nat
  /-- the cycle on which it was sent -/
  sentAt : Nat
  /-- the fabric copy engine that it has been handed to (06 R135, 15 R384) -/
  eng : Option Nat
deriving DecidableEq, Repr

/-- A line of the memory-side cache (12 R325): the 64-byte IA beat of its tag, the frame beat behind it, its bytes, and whether they differ
from HBM4's. -/
structure CacheLine where
  tag : Nat
  beat : Nat
  data : List Byte
  dirty : Bool
deriving DecidableEq, Repr

/-- A TLB entry (12 R318). -/
structure TlbE where
  part : Nat
  page : Nat
  size : Nat
  frame : Nat
  r : Bool
  w : Bool
deriving DecidableEq, Repr

/-- A walk in progress: partition, IA, the cycle at which it ends (12 R319), and the head of the translation block as it stood when
the walk started (R308). -/
structure Walk where
  id : Nat
  part : Nat
  ia : Nat
  endsAt : Nat
  head : List Byte
deriving DecidableEq, Repr

/-- The translation agents of a die (12 R318, R319). -/
structure Mmu where
  tlb : List TlbE
  /-- outstanding misses: access, partition, IA -/
  misses : List (Nat × Nat × Nat)
  walks : List Walk
deriving DecidableEq, Repr

/-- A host WRITE or READ in progress, or the copy of a launch's initial data (02 R50, R51; 12 R309): `left` bytes are still to be sent; `data`
is what is written, or what has been read. -/
structure Xfr where
  id : Nat
  /-- the launch whose initial data it copies (12 R309); 0 for a transfer of the host -/
  launch : Nat
  vf : Nat
  seq : Nat
  tag : Nat
  /-- where the message came from -/
  addr : Nat
  port : Nat
  part : Nat
  write : Bool
  ia : Nat
  len : Nat
  left : Nat
  data : List Byte
  parked : Bool
  cancelled : Bool
deriving DecidableEq, Repr

/-- A beat that a fabric copy engine has sent and that is not acknowledged (15 R384, R385). -/
structure Beat where
  pkt : Packet
  acc : Nat
  tries : Nat
  at_ : Nat
  hold : Bool
  /-- port of the first hop -/
  port : Nat
  /-- the IPv6 address that it goes to by a scale-out port -/
  addr : Nat
deriving DecidableEq, Repr

/-- A fabric copy engine. -/
structure Engine where
  next : Nat
  beats : List Beat
deriving DecidableEq, Repr

/-- What a home keeps for a source engine (15 R385): the highest sequence below which all are applied, and the first
statuses of applied beats above and within the window. -/
structure Dup where
  pkg : Nat
  engine : Nat
  high : Nat
  seen : List (Nat × Packet)
deriving DecidableEq, Repr

/-- A flit of a scale-up line (15 R374): its kind (0 idle, 1 header, 2 data, 3 tail), its 64 bytes, how many of them from its first on belong to the
packet (log 54), and its link CRC. -/
structure Flit where
  kind : Nat
  bytes : List Byte
  used : Nat
  crc : BitVec 32
deriving DecidableEq, Repr

/-- A flit that waits for an output: the input that holds it, and the cycle from which it may leave (15 R381, R382). -/
structure Waiting where
  input : Nat
  ready : Nat
  flit : Flit
deriving DecidableEq, Repr

/-- The payload of a scale-out datagram (15 R386): the input that it comes from, the IPv6 address that it goes to, and its bytes. Both UDP ports are
46,785. -/
structure OutFrame where
  input : Nat
  addr : Nat
  bytes : List Byte
deriving DecidableEq, Repr

/-- A scale-out frame not acknowledged (15 R386). -/
structure Frame where
  seq : Nat
  out : OutFrame
  at_ : Nat
deriving DecidableEq, Repr

/-- One direction each way between a scale-out port and the port at an IPv6 address (15 R386). -/
structure Path where
  txseq : Nat
  unacked : List Frame
  rxseq : Nat
  rxmap : Nat
  rxcount : Nat
  /-- cycle of the first frame not acknowledged -/
  rxAt : Nat
deriving DecidableEq, Repr

/-- Nothing sent, nothing received. -/
def Path.init : Path := ⟨0, [], 0, 0, 0, 0⟩

/-- A fabric port (15 R373 to R386). -/
structure Port where
  cfg : Dword
  hdrerr : Nat
  poisonrx : Nat
  replay : Nat
  fcsdrop : Nat
  /-- failed replays of the flit at the head of the replay buffer -/
  fails : Nat
  /-- slot table: connection (input, output) and owning launch -/
  slots : KMap (Nat × Nat × Nat)
  /-- flits that wait for the line, and the input that it last took one from in a free slot (15 R381) -/
  queue : List Waiting
  turn : Nat
  /-- the last 128 flits sent (15 R377), and how many of them the far end asks for again -/
  replayed : List Flit
  asked : Option Nat
  /-- scale-out frames that wait for the line, and the slot times that the one on it still takes (15 R381) -/
  frameQ : List OutFrame
  onLine : Nat
  /-- scale-out paths, by the IPv6 address of the far port -/
  paths : KMap Path
  ip : KMap Nat
deriving DecidableEq, Repr

/-- After reset: PORTCFG and PORTCNT 0 (15 R373). -/
def Port.init : Port :=
  { cfg := 0, hdrerr := 0, poisonrx := 0, replay := 0, fcsdrop := 0, fails := 0, slots := [], queue := [], turn := 0, replayed := [],
    asked := none, frameQ := [], onLine := 0, paths := [], ip := [] }

/-! ## Device -/

/-- The device registers (25 R467 to R479). -/
structure Dev where
  pkg : Nat
  /-- 0 running, 1 held in reset by a rail, 2 by a thermal trip -/
  inReset : Nat
  /-- rails that have fallen: 0 VIO, 1 to 4 VCORE, 5 VHBM, 6 VSERDES -/
  rails : List Nat
  bootstat : Dword
  regs : KMap Dword
  holehit : Nat
  warn : Bool
  attNonce : List Byte
  attDone : Bool
  attBusy : Bool
  report : List Byte
  snapctl : Dword
  /-- cycles of the latches of the triggers that have come -/
  snapT : List Nat
  snapcyc : Dword
  snapfwd : Dword
  /-- the number of the last latch, by which blocks other than SPs name what they latched (log 6) -/
  snapNo : Option Nat
  tapIr : Nat
  tapBypass : Bool
  tapOut : List Dword
  errlog : List Dword
  hostUp : Bool
  /-- boot images in flash, by type × 2 + copy; an image that is not listed passes every check (log 6) -/
  flash : KMap (List Byte)
deriving DecidableEq, Repr

/-- A state record of a migration (23 R452), as what it holds. -/
inductive MigRec
  | part (p : Part) (launches : List Launch) (vfs : List Nat) (ports : KMap Port) (parked : List Acc)
  | handle (c : Code)
  | code (bytes : KMap Byte)
  | dup (d : Dup)
  | sp (k : Nat) (p : Sp)
  /-- the stream's end: the number of records before it -/
  | last (n : Nat)
deriving DecidableEq, Repr

/-! ## The machine -/

/-- The agents that move: what the next step of the machine is. -/
inductive Turn
  /-- a given step -/
  | run (i : Instr)
  /-- the stream controller of an SP fetches, decodes and executes -/
  | controller (sp : Nat)
  /-- the matrix unit of an SP executes its next micro-op -/
  | matrix (sp : Nat)
  /-- the kernel sequencer of an SP -/
  | sequencer (sp : Nat)
  /-- the counters of an SP (watchdog, waits) -/
  | tick (sp : Nat)
  /-- the host port looks at the frame that came first -/
  | hostPort
  /-- the next beat of the oldest hint of an SP is sent -/
  | hint (sp : Nat)
  /-- the line of a fabric port sends -/
  | line (port : Nat)
  /-- requests that wait for a page of a token table are looked at again -/
  | later
  /-- a stage of the cycle: it draws up the turns of its agents as the machine stands when it is reached -/
  | stage (n : Nat)
deriving DecidableEq, Repr

/-- The machine. -/
structure State where
  /-- arithmetic cycle count (00 R3) -/
  now : Nat
  /-- the model's own counter, which the free values are applied to (log 2) -/
  ctr : Nat
  /-- steps that the outside world causes, taken before any agent moves -/
  inbox : List Instr
  /-- packets to a home whose page of the token table has not come: they are looked at again on the next cycle (23 R455) -/
  later : List Instr
  /-- frames that have come to the host port and have not been looked at (02 R41) -/
  hostIn : List HostFrame
  /-- the agents that still move on this cycle -/
  turns : List Turn
  /-- the SP whose controller or matrix unit moves -/
  cur : Nat
  /-- the SPs that the issuing bundle acts on: one, or every member of a fused tower (03 R74) -/
  issue : List Nat
  /-- HBM4 by physical address; an unlisted byte reads 0 (log 1) -/
  mem : List Host.Cell
  /-- the memory-side cache, the line used last first (12 R325) -/
  cache : List CacheLine
  /-- poisoned 64-byte lines (12 R326) -/
  poison : List Nat
  /-- errors that stand in HBM4 and that no read has met yet: the beat, and whether it cannot be corrected (12 R326) -/
  upsets : List (Nat × Bool)
  /-- code arenas by physical address; an unlisted byte reads 0 (log 3) -/
  code : KMap Byte
  accs : List Acc
  mmus : KMap Mmu
  vfs : KMap Vf
  out : List Msg
  parts : KMap Part
  /-- the registers of the numbers of partitions that do not exist (25 R475) -/
  shelf : KMap Windows
  launches : List Launch
  nextId : Nat
  nextHandle : Nat
  nextAcc : Nat
  sps : KMap Sp
  xfrs : List Xfr
  ports : KMap Port
  engines : KMap Engine
  dups : List Dup
  /-- port over which the last packet of each package came, and the IPv6 address it came from: what is sent to it goes there (log 17) -/
  heard : KMap (Nat × Nat)
  /-- flits sent on scale-up lines, newest last: port and flit -/
  fout : List (Nat × Flit)
  /-- datagrams sent on scale-out lines, newest last: port and datagram -/
  frames : List (Nat × OutFrame)
  /-- state records sent, by port; delivered to a partition and not taken; and taken by it -/
  recordsOut : List (Nat × MigRec)
  records : List (Nat × MigRec)
  taken : List (Nat × MigRec)
  dev : Dev
deriving DecidableEq, Repr

/-- The device right after reset: reset values of 25; a log entry names the others (log 6). -/
def Dev.init : Dev :=
  { pkg := 0, inReset := 0, rails := [], bootstat := 0, regs := [], holehit := 0, warn := false, attNonce := [], attDone := false,
    attBusy := false, report := [], snapctl := 0, snapT := [], snapcyc := 0, snapfwd := 0, snapNo := none, flash := [], tapIr := 0, tapBypass := false,
    tapOut := [], errlog := [], hostUp := true }

/-- The machine right after reset: no partition exists, no VF is bound, no launch is queued and no SP holds a context. -/
def State.reset : State :=
  { now := 0, ctr := 0, inbox := [], later := [], hostIn := [], turns := [], cur := 0, issue := [], mem := [], cache := [], poison := [], upsets := [], code := [], accs := [], mmus := [],
    vfs := [], out := [], parts := [], shelf := [], launches := [], nextId := 1, nextHandle := 1, nextAcc := 0, sps := [], xfrs := [], ports := [],
    engines := [], dups := [], heard := [], fout := [], frames := [], recordsOut := [], records := [], taken := [], dev := Dev.init }

end Sys2Proof.Machine
end

