-- ==== Sys2Proof/Machine/Ops.lean ====
section
/-! DEFINITION. The named operations over the state: units and contexts, register access, memories, arrival words, the
landing queue, and the taking of an exception or a kernel event and the return from one. -/

namespace Sys2Proof.Machine

/-! ## Units and contexts -/

/-- Stream processor `k`. -/
def State.sp (s : State) (k : Nat) : Sp := KMap.get Sp.init s.sps k

/-- `s` with stream processor `k` replaced. -/
def State.setSp (s : State) (k : Nat) (p : Sp) : State := { s with sps := KMap.ins k p s.sps }

/-- `s` with stream processor `k` changed by `f`. -/
def State.modSp (s : State) (k : Nat) (f : Sp → Sp) : State := s.setSp k (f (s.sp k))

/-- The running context of an SP. -/
def State.ctx (s : State) (k : Nat) : Option Ctx := (s.sp k).ctx

/-- `s` with the running context of an SP replaced. -/
def State.setCtx (s : State) (k : Nat) (c : Ctx) : State := s.modSp k fun p => { p with ctx := some c }

/-- `s` with the running context of an SP changed by `f`; an SP without a context stays as it is. -/
def State.modCtx (s : State) (k : Nat) (f : Ctx → Ctx) : State :=
  match s.ctx k with
  | none => s
  | some c => s.setCtx k (f c)

/-- `s` changed by a function of the running context of SP `k`, if there is one. -/
def State.withCtx (s : State) (k : Nat) (f : Ctx → State) : State :=
  match s.ctx k with
  | none => s
  | some c => f c

/-- The members of the tower of an SP, in column order; a lone SP is its own (03 R73). -/
def State.tower (s : State) (k : Nat) : List Nat := if (s.sp k).tower.isEmpty then [k] else (s.sp k).tower

/-- The SPs that issue together with `k`: its tower while fused, else itself (03 R74). -/
def State.issueGroup (s : State) (k : Nat) : List Nat := if (s.sp k).fused then s.tower k else [k]

/-- The member index of an SP in its tower (03 R73). -/
def State.member (s : State) (k : Nat) : Nat := (s.tower k).idxOf k

/-- Partition `p`, if it exists. -/
def State.part (s : State) (p : Nat) : Option Part := KMap.find p s.parts

/-- `s` with partition `p` replaced. -/
def State.setPart (s : State) (p : Nat) (q : Part) : State := { s with parts := KMap.ins p q s.parts }

/-- `s` with partition `p` changed by `f`, if it exists. -/
def State.modPart (s : State) (p : Nat) (f : Part → Part) : State := { s with parts := KMap.upd p f s.parts }

/-- Virtual function `v`. -/
def State.vf (s : State) (v : Nat) : Vf := KMap.get Vf.init s.vfs v

/-- `s` with virtual function `v` changed by `f`. -/
def State.modVf (s : State) (v : Nat) (f : Vf → Vf) : State := { s with vfs := KMap.ins v (f (s.vf v)) s.vfs }

/-- The launch of an identifier. -/
def State.launchOf (s : State) (id : Nat) : Option Launch := s.launches.find? (·.id = id)

/-- `s` with a launch changed by `f`. -/
def State.modLaunch (s : State) (id : Nat) (f : Launch → Launch) : State :=
  { s with launches := updFirst (fun l => decide (l.id = id)) f s.launches }

/-- The code object of a launch. -/
def State.codeOf (s : State) (l : Launch) : Option Code :=
  (s.part l.part).bind fun p => p.codes.find? (·.handle = l.handle)

/-- The launch and the code object of a context. -/
def State.codeOfCtx (s : State) (c : Ctx) : Option Code := (s.launchOf c.launch).bind s.codeOf

/-- The partition of the launch of a context. -/
def State.partOf (s : State) (c : Ctx) : Nat := ((s.launchOf c.launch).map (·.part)).getD 0

/-- A fresh argument for a free value, and the state after it has been used (log 2). -/
def State.fresh (s : State) : Nat × State := (s.ctr, { s with ctr := s.ctr + 1 })

/-! ## Controller registers -/

/-- An integer register: x0 reads 0 (06 R131). -/
def Ctx.xr (c : Ctx) (n : Nat) : Dword := if n = 0 then 0 else KMap.get 0 c.x n

/-- A write of an integer register: x0 discards it. -/
def Ctx.setX (c : Ctx) (n : Nat) (v : Dword) : Ctx := if n = 0 then c else { c with x := KMap.ins n v c.x }

/-- A floating-point register. -/
def Ctx.fr (c : Ctx) (n : Nat) : Dword := KMap.get 0 c.f n

/-- A write of a floating-point register. -/
def Ctx.setF (c : Ctx) (n : Nat) (v : Dword) : Ctx := { c with f := KMap.ins n v c.f }

/-- ORs flags into kstat, which shows them from the next cycle on, whatever is cleared on this one (07 R187; 08 R219, R220). -/
def Ctx.orKstat (c : Ctx) (f : Nat) : Ctx := { c with kset := flagOr c.kset f }

/-- The flags of a cycle join kstat. -/
def Ctx.joinKstat (c : Ctx) : Ctx := { c with kstat := flagOr c.kstat c.kset, kset := 0 }

/-! ## Control memory (02 R56) -/

/-- One byte of a control memory. -/
def cmByte (m : KMap Byte) (a : Nat) : Byte := KMap.get 0 m a

/-- `n` bytes from `a`, little-endian. -/
def cmRead (m : KMap Byte) (a : Nat) : Nat → Nat
  | 0 => 0
  | n + 1 => (cmByte m a).toNat + 256 * cmRead m (a + 1) n

/-- `n` bytes written at `a`, little-endian. -/
def cmWrite (m : KMap Byte) (a : Nat) : Nat → Nat → KMap Byte
  | 0, _ => m
  | n + 1, v => cmWrite (KMap.put 0 m a (BitVec.ofNat 8 v)) (a + 1) n (v / 256)

/-- Bytes of a list written from `a` up. -/
def bytesWrite (m : KMap Byte) (a : Nat) : List Byte → KMap Byte
  | [] => m
  | b :: l => bytesWrite (KMap.put 0 m a b) (a + 1) l

/-- `n` bytes from `a` up. -/
def bytesRead (m : KMap Byte) (a : Nat) : Nat → List Byte
  | 0 => []
  | n + 1 => cmByte m a :: bytesRead m (a + 1) n

/-! ## Memory (12 R305, R326) -/

/-- One byte of HBM4 by physical address; an unlisted byte reads 0 (log 1). -/
def Memory.byte (m : List Host.Cell) (a : Nat) : Byte := KMap.get 0 m a

/-- The memory with one byte written. -/
def Memory.set (m : List Host.Cell) (a : Nat) (b : Byte) : List Host.Cell := KMap.put 0 m a b

/-- The canonical form: addresses strictly rising and no listed byte 0. -/
def Memory.wf (m : List Host.Cell) : Bool := KMap.wf 0 m

/-- `n` bytes from `a` up. -/
def Memory.read (m : List Host.Cell) (a : Nat) (n : Nat) : List Byte := bytesRead m a n

/-- Bytes written from `a` up. -/
def Memory.write (m : List Host.Cell) (a : Nat) (l : List Byte) : List Host.Cell := bytesWrite m a l

/-- The channel and the channel address of a frame PA. -/
def channelOf (p : Nat) : Nat :=
  let g := p / 4096
  Nat.xor (Nat.xor (g % 256) (g / 2 ^ 8 % 256)) (Nat.xor (g / 2 ^ 16 % 256) (g / 2 ^ 24 % 8))
def channelAddr (p : Nat) : Nat := p / 4096 / 256 * 4096 + p % 4096

/-- The poisoning of the line at a frame address, reached by IA `ia`, is logged by its channel with the IA, the newest first of eight (12 R326, 25 R475). -/
def State.logPoison (s : State) (a ia : Nat) : State :=
  let b := 0x50000 + 0x100 * channelOf a + 8
  let regs := (List.range 7).foldl (fun m i => KMap.ins (b + 8 * (7 - i)) (KMap.get 0 s.dev.regs (b + 8 * (6 - i))) m) s.dev.regs
  { s with dev := { s.dev with regs := KMap.ins b (BitVec.ofNat 64 (ia / 64 * 64)) regs } }

/-- A corrected error is counted by its channel (25 R475). -/
def State.countCorrected (s : State) (a : Nat) : State :=
  let b := 0x50000 + 0x100 * channelOf a
  { s with dev := { s.dev with regs := KMap.ins b (BitVec.ofNat 64 (min (2 ^ 64 - 1) ((KMap.get 0 s.dev.regs b).toNat + 1))) s.dev.regs } }

/-! ## The memory-side cache (12 R325) -/

/-- The line whose IA beat is `tag` and whose frame beat is `beat`. The tag of 12 R325 is the IA; the frame beat tells apart what two partitions,
or a page before and after it is mapped anew, reach at one IA (DEDUCED, log 38). -/
def CacheLine.is (l : CacheLine) (tag beat : Nat) : Bool := decide (l.tag = tag) && decide (l.beat = beat)

/-- The slice and the set of a line. -/
def lineSet (tag beat : Nat) : Nat × Nat := (channelOf (64 * beat), tag % 512)

/-- A line is written back. -/
def CacheLine.back (l : CacheLine) (m : List Host.Cell) : List Host.Cell := if l.dirty then Memory.write m (64 * l.beat) l.data else m

/-- The bytes of a beat as an access by IA `64 * tag` finds them: those of its line, or HBM4's. -/
def State.lineBytes (s : State) (tag beat : Nat) : List Byte :=
  match s.cache.find? (·.is tag beat) with
  | some l => l.data
  | none => Memory.read s.mem (64 * beat) 64

/-- `n` bytes of one line, as an access at IA `ia` and frame address `pa` reads them. -/
def State.lineRead (s : State) (ia pa n : Nat) : List Byte := ((s.lineBytes (ia / 64) (pa / 64)).drop (pa % 64)).take n

/-- The lines that `p` holds of leave the cache; what differs from HBM4 is written back. -/
def State.writeBack (s : State) (p : CacheLine → Bool) : State :=
  { s with mem := (s.cache.filter p).foldr CacheLine.back s.mem, cache := s.cache.filter fun l => !p l }

/-- A line is in the cache, and used last: one that was not takes a way of its set, and where all 16 are in use, that of the line used longest
ago, which is written back. -/
def State.fill (s : State) (tag beat : Nat) : State :=
  match s.cache.find? (·.is tag beat) with
  | some l => { s with cache := l :: s.cache.filter fun x => !x.is tag beat }
  | none =>
    let ways := s.cache.filter fun l => decide (lineSet l.tag l.beat = lineSet tag beat)
    let s1 := if ways.length < 16 then s else
      match ways.getLast? with
      | none => s
      | some v => s.writeBack (·.is v.tag v.beat)
    { s1 with cache := ⟨tag, beat, Memory.read s1.mem (64 * beat) 64, false⟩ :: s1.cache }

/-- Bytes of one line written through the cache: the line is filled, and written back later. -/
def State.lineWrite (s : State) (ia pa : Nat) (l : List Byte) : State :=
  if l.isEmpty then s else
  let s1 := s.fill (ia / 64) (pa / 64)
  { s1 with cache := updFirst (·.is (ia / 64) (pa / 64)) (fun x => { x with data := (x.data.take (pa % 64) ++ l ++ x.data.drop (pa % 64 + l.length)).take 64, dirty := true }) s1.cache }

/-- The line is one of linear IA, where the IA is the frame address. -/
def CacheLine.linear (l : CacheLine) : Bool := decide (l.tag = l.beat)

/-- What a read of HBM4 meets in a beat (12 R326): an error that can be corrected is, and costs 4 cycles; one that cannot poisons the line; both are
logged by the channel. The cycles are answered. -/
def State.meetUpset (s : State) (tag beat : Nat) : Nat × State :=
  match s.upsets.find? fun u => decide (u.1 = beat) with
  | none => (0, s)
  | some u =>
    let s1 : State := { s with upsets := s.upsets.filter fun x => decide (x.1 ≠ beat) }
    if u.2 then (0, ({ s1 with poison := if s1.poison.contains beat then s1.poison else s1.poison ++ [beat] }).logPoison (64 * beat) (64 * tag))
    else (4, s1.countCorrected (64 * beat))

/-- Cycles that a line adds to a read (12 R329) as the cache stands, and the line filled: none for a hit; for a miss those of a row that is open, closed
or in conflict, of a refresh that is in progress, which the spec leaves open, and of a correction. -/
def State.lineCycles (s : State) (tag beat : Nat) : Nat × State :=
  if s.cache.any (·.is tag beat) then (0, s.fill tag beat) else
  let q := s.fresh
  let u := q.2.meetUpset tag beat
  let f := Config.freeNat q.1
  ([40, 56, 72].getD (f % 3) 40 + f / 3 % 369 + u.1, u.2.fill tag beat)

/-- Memory as the part itself reads it, by linear IA: HBM4 under the cached linear lines. -/
def State.linMem (s : State) : List Host.Cell := (s.cache.filter (·.linear)).foldr CacheLine.back s.mem

/-- The part changes `n` bytes from linear IA `a`: lines of them leave the cache, and `f` changes HBM4. -/
def State.memChange (s : State) (a n : Nat) (f : List Host.Cell → List Host.Cell) : State :=
  let s1 := s.writeBack fun l => l.linear && decide (64 * l.beat < a + n) && decide (a < 64 * l.beat + 64)
  { s1 with mem := f s1.mem }

/-- A page of `n` bytes from `a` has not come to the partition from the source of its migration (23 R455). -/
def Part.lacks (p : Part) (a n : Nat) : Bool := decide (p.migr.role = 2) && p.migr.pages.any fun g => decide (g * 0x10000 < a + n) && decide (a < g * 0x10000 + 0x10000)

/-- The part is about to write `n` bytes at `a` itself: where a page of them has not come, what it writes is the newer (log 18). -/
def State.keepOwn (s : State) (a n : Nat) : State :=
  if s.parts.any fun e => e.2.lacks a n then
    { s with parts := s.parts.map fun e => if e.2.lacks a n then (e.1, { e.2 with migr := { e.2.migr with own := e.2.migr.own ++ [(a, n)] } }) else e }
  else s

/-- The part writes bytes at a linear IA. -/
def State.memWrite (s : State) (a : Nat) (l : List Byte) : State := s.memChange a l.length fun m => Memory.write m a l

/-! ## The stream register file (03 R78 to R80) -/

/-- Size of a polder in bytes. -/
def Polder.size (p : Polder) : Nat := 2 ^ p.log2

/-- The place of byte offset `o` of a polder: lane and lane-local address (03 R79). -/
def Polder.place (p : Polder) (o : Nat) : Nat × Nat :=
  let o2 := o % p.size
  let row := o2 / 128
  (row % 16, p.base + row / 16 * 128 + o2 % 128)

/-- The store key of a row: the lane and its row. -/
def srfKey (lane a : Nat) : Nat := lane * 3072 + a / 128

/-- One byte of the SRF at a lane-local address. -/
def srfByte (m : KMap Row) (lane a : Nat) : Byte :=
  BitVec.ofNat 8 ((KMap.get 0 m (srfKey lane a)).toNat / 2 ^ (8 * (a % 128)))

/-- A row with byte `k` replaced. -/
def rowSetByte (r : Row) (k : Nat) (b : Byte) : Row :=
  BitVec.ofNat 1024 (r.toNat - r.toNat / 2 ^ (8 * k) % 256 * 2 ^ (8 * k) + b.toNat * 2 ^ (8 * k))

/-- The SRF with one byte written. -/
def srfSetByte (m : KMap Row) (lane a : Nat) (b : Byte) : KMap Row :=
  KMap.put 0 m (srfKey lane a) (rowSetByte (KMap.get 0 m (srfKey lane a)) (a % 128) b)

/-- `n` bytes of a polder from offset `o`, every offset wrapping. -/
def polRead (m : KMap Row) (p : Polder) (o : Nat) : Nat → List Byte
  | 0 => []
  | n + 1 => let q := p.place o; srfByte m q.1 q.2 :: polRead m p (o + 1) n

/-- Bytes written to a polder from offset `o`, every offset wrapping. -/
def polWrite (m : KMap Row) (p : Polder) (o : Nat) : List Byte → KMap Row
  | [] => m
  | b :: l => let q := p.place o; polWrite (srfSetByte m q.1 q.2 b) p (o + 1) l

/-- `n` bytes of a polder as a little-endian number. -/
def polNum (m : KMap Row) (p : Polder) (o n : Nat) : Nat := ofBytes (polRead m p o n)

/-- A polder of a context. -/
def Ctx.polder (c : Ctx) (h : Nat) : Option Polder := KMap.find h c.polders

/-- `c` with a polder changed by `f`. -/
def Ctx.modPolder (c : Ctx) (h : Nat) (f : Polder → Polder) : Ctx := { c with polders := KMap.upd h f c.polders }

/-- The SRF with bytes written to polder `h` of a context; a handle that names no polder writes nothing. -/
def srfStore (m : KMap Row) (c : Ctx) (h o : Nat) (l : List Byte) : KMap Row :=
  match c.polder h with
  | none => m
  | some p => polWrite m p o l

/-- Bytes of polder `h` of a context; zeros where the handle names none. -/
def srfLoad (m : KMap Row) (c : Ctx) (h o n : Nat) : List Byte :=
  match c.polder h with
  | none => List.replicate n 0
  | some p => polRead m p o n

/-! ## Arrival words (07 R163, R164) -/

/-- The four fields of an arrival word. -/
structure ArrWord where
  target : Nat
  count : Nat
  gen : Nat
  status : Nat
deriving DecidableEq, Repr

/-- An arrival word read from 16 bytes. -/
def ArrWord.ofNat (v : Nat) : ArrWord :=
  ⟨v % 2 ^ 32, v / 2 ^ 32 % 2 ^ 32, v / 2 ^ 64 % 2 ^ 32, v / 2 ^ 96 % 2 ^ 32⟩

/-- Its 16 bytes as a number. -/
def ArrWord.toNat (a : ArrWord) : Nat := a.target + a.count * 2 ^ 32 + a.gen * 2 ^ 64 + a.status * 2 ^ 96

/-- One update by `n` bytes with status `code` (07 R164). -/
def ArrWord.update (a : ArrWord) (n code : Nat) : ArrWord :=
  let cnt := (a.count + n) % 2 ^ 32
  let b : ArrWord :=
    if a.target ≤ cnt then
      { a with gen := (a.gen + 1) % 2 ^ 32, count := cnt - a.target,
               status := if cnt - a.target ≠ 0 ∧ a.status = 0 then 1 else a.status }
    else { a with count := cnt }
  if code ≠ 0 ∧ b.status = 0 then { b with status := code } else b

/-- The SRF with the arrival word of reference `ref` updated; a reference with bit 63 set names none. -/
def arrive (m : KMap Row) (c : Ctx) (ref : Dword) (n code : Nat) : KMap Row :=
  if bits ref 63 1 = 1 then m else
  match c.polder (bits ref 22 6) with
  | none => m
  | some p =>
    let a := ArrWord.ofNat (polNum m p (bits ref 0 22) 16)
    polWrite m p (bits ref 0 22) (toBytes 16 (a.update n code).toNat)

/-- The target of the arrival word of a reference, 0 where it names none. -/
def arriveTarget (m : KMap Row) (c : Ctx) (ref : Dword) : Nat :=
  if bits ref 63 1 = 1 then 0 else
  match c.polder (bits ref 22 6) with
  | none => 0
  | some p => (ArrWord.ofNat (polNum m p (bits ref 0 22) 16)).target

/-- Arrival word of reference `ref` of the context of SP `k` updated. -/
def State.arriveAt (s : State) (k : Nat) (ref : Dword) (n code : Nat) : State :=
  s.withCtx k fun c => s.modSp k fun p => { p with srf := arrive p.srf c ref n code }

/-! ## The kernel's registers (08 R193, 09, 10) -/

/-- The innermost LOOPM entry. -/
def Kern.modulo (k : Kern) : Option LoopE := k.loops.find? (·.mode = 2)

/-- The issue mode: exposed unless the innermost loop, or the KTAB flag outside every loop, says interlocked (05 R118). -/
def Kern.exposed (k : Kern) : Bool :=
  match k.loops with
  | [] => !k.interlocked
  | e :: _ => decide (e.mode ≠ 1)

/-- The physical number of v register `n` (08 R216). -/
def Kern.phys (k : Kern) (n : Nat) : Nat :=
  match k.modulo with
  | none => n
  | some e => if n < 64 then n else 64 + (n - 64 + e.rrb) % 64

/-- Stage predicate `i` (08 R215). -/
def Kern.stageOn (k : Kern) (i : Nat) : Bool :=
  match k.modulo with
  | none => decide (i = 0)
  | some e => decide (i ≤ e.s) && decide (i ≤ e.j) && decide (e.j + 1 ≤ e.n + i)

/-- Register q`n`: q0 reads 0. -/
def Kern.qr (k : Kern) (n : Nat) : Dword := if n = 0 then 0 else KMap.get 0 k.q n

/-- Register b`n`. -/
def Kern.br (k : Kern) (n : Nat) : Dword := KMap.get 0 k.b n

/-- Register c`n`. -/
def Kern.cr (k : Kern) (n : Nat) : Bool := KMap.get false k.c n

/-- Register m`n`. -/
def Kern.mr (k : Kern) (n : Nat) : Dword := KMap.get 0 k.m n

/-- Compact predicate p`n`: p0 reads all true (08 R193). -/
def Kern.pr (k : Kern) (n : Nat) : Pred := if n = 0 then ⟨0, 768⟩ else KMap.get ⟨0, 0⟩ k.p n

/-- Whether the predicate field of a slot that is predicated as a whole is true (08 R195, 09 R230). -/
def Kern.predOn (k : Kern) (p : Nat) : Bool :=
  if p = 0 then true else if p < 8 then decide ((k.pr p).n ≠ 0) else k.stageOn (p - 8)

/-- Cluster register g`n`: g0 reads 0 (09 R231). -/
def Ctx.gr (c : Ctx) (cl n : Nat) : Dword := if n = 0 then 0 else KMap.get 0 c.g (cl * 32 + n)

/-- Cluster register i`n`. -/
def Ctx.ir (c : Ctx) (cl n : Nat) : Nat := (KMap.get 0 c.i (cl * 16 + n)).toNat

/-- Physical v register `n` of a cluster, as a number of 1,024 bits. -/
def Ctx.vphys (c : Ctx) (cl n : Nat) : Nat := (KMap.get 0 c.v (cl * 128 + n)).toNat

/-- The v register that an instruction names as `n`. -/
def Ctx.vr (c : Ctx) (cl n : Nat) : Nat := c.vphys cl (c.kern.phys n)

/-- `n` bytes of the code arenas from a physical address, little-endian (04 R85). -/
def State.codeNat (s : State) (a n : Nat) : Nat := cmRead s.code a n

/-- The address of the bundle after the one at `a` (04 R92). -/
def State.nextBundle (s : State) (a : Nat) : Nat := a + bundleLen (s.codeNat a 2)

/-- The C, M and W slots, and the port and queue instructions, act in the first round of a lock section only (10 R270). -/
def Kern.firstRound (k : Kern) : Bool :=
  match k.lock with
  | none => true
  | some l => decide (l.round = 0)

/-- A lock section as the next bundle that issues finds it: its SLDL has not asked yet. -/
def Kern.reopen (k : Kern) : Kern := { k with lock := k.lock.map fun l => { l with opened := false } }

/-- The clusters in which a slot acts: all of them outside a lock section; inside one, those that hold their lock, or
all of them in the first round only for what works lock-step (10 R270). -/
def Kern.acting (k : Kern) (lockStep : Bool) : List Nat :=
  match k.lock with
  | none => List.range 16
  | some l => if lockStep then (if l.round = 0 then List.range 16 else []) else l.acting

/-- A change of every SP of the issuing bundle whose predicate `p` is true, in the first round of a lock section only. -/
def State.uniform (s : State) (p : Nat) (f : Nat → Ctx → Ctx) : State :=
  s.issue.foldl (fun t k => t.modCtx k fun c => if c.kern.predOn p && c.kern.firstRound then f k c else c) s

/-- A hint of a launch at SP `k`: `n` bytes from an address should be brought into the memory-side cache (12 R306, R325). -/
def State.hint (s : State) (k launch va n : Nat) : State :=
  if n = 0 ∨ 2 ^ 48 ≤ va then s else s.modSp k fun p => { p with hints := p.hints ++ [(launch, va, n)] }

/-- The context whose sequencer fetches the issuing bundle: the first SP's (03 R74). -/
def State.leader (s : State) : Option (Nat × Ctx) :=
  match s.issue with
  | [] => none
  | k :: _ => (s.ctx k).map fun c => (k, c)

/-- A change of control flow: the leader's copy of the uniform state decides, and every SP of the bundle follows. -/
def State.control (s : State) (p : Nat) (f : Ctx → Kern → Kern) : State :=
  match s.leader with
  | none => s
  | some (_, l) =>
    if l.kern.predOn p && l.kern.firstRound then
      s.issue.foldl (fun t k => t.modCtx k fun c => { c with kern := f l c.kern }) s
    else s

/-! ## Landing (08 R196) -/

/-- The result of one register in flight, `left` cycles before it lands. -/
def Kern.later (k : Kern) (left : Nat) (w : Landed) : Kern := { k with land := k.land ++ [⟨left, false, w⟩] }

/-- The same for a context. -/
def Ctx.later (c : Ctx) (left : Nat) (w : Landed) : Ctx := { c with kern := c.kern.later left w }

/-- A list of results in flight. -/
def Ctx.laters (c : Ctx) (left : Nat) (l : List Landed) : Ctx :=
  { c with kern := { c.kern with land := c.kern.land ++ l.map fun w => ⟨left, false, w⟩ } }

/-- Flags raised by an instruction, ORed in when its result lands (05 R119); a set of no flags is not queued. -/
def Ctx.raiseIn (c : Ctx) (left f : Nat) : Ctx := if f = 0 then c else c.later left (.flags f)

/-- Rows of a landing, merged into the v registers by their masks. -/
def landRows (v : KMap Row) : List RowW → KMap Row
  | [] => v
  | r :: l =>
    let key := r.cl * 128 + r.reg
    let old := KMap.get 0 v key
    landRows (KMap.ins key ((old &&& ~~~ r.msk) ||| (r.val &&& r.msk)) v) l

/-- A register result lands. -/
def Ctx.landWord (c : Ctx) (cls : RegClass) (cl n : Nat) (v : Dword) : Ctx :=
  match cls with
  | .q => if n = 0 then c else { c with kern := { c.kern with q := KMap.ins n v c.kern.q } }
  | .b => { c with kern := { c.kern with b := KMap.ins n v c.kern.b } }
  | .c => { c with kern := { c.kern with c := KMap.ins n (decide (v ≠ 0)) c.kern.c } }
  | .p => if n = 0 then c else { c with kern := { c.kern with p := KMap.ins n ⟨v.toNat / 1024, v.toNat % 1024⟩ c.kern.p } }
  | .m => { c with kern := { c.kern with m := KMap.ins n v c.kern.m } }
  | .g => if n = 0 then c else { c with g := KMap.ins (cl * 32 + n) v c.g }
  | .i => { c with i := KMap.ins (cl * 16 + n) (BitVec.ofNat 32 v.toNat) c.i }
  | .v => c

/-! ## Exceptions of the controller (19 R402, R403) -/

/-- Where the waiting set of a launch that has ended stands: its end cause is fixed once (24 R461). -/
def Launch.end_ (l : Launch) (cause rank word addr pc : Nat) : Launch :=
  match l.cause with
  | some _ => l
  | none => { l with cause := some cause, state := 2, crank := rank, cword := word, caddr := addr, cpc := pc }

/-- Where no further bundle issues, a result that lands by bundles lands as many cycles later (08 R226: results in flight still land). -/
def Kern.landsByCycle (k : Kern) : List Landing := k.land.map fun (l : Landing) => { l with perBundle := false }

/-- A context that is stopped because its launch ended (24 R462): the controller stops, its kernel ends as by KKILL,
the matrix call queue is emptied, waiting commands are discarded. A command in the air keeps its entry. -/
def Ctx.stop (c : Ctx) : Ctx :=
  { c with
    halted := true, wait := none, busy := 0, squash := none, resv := none, pipe := none, sweep := none,
    sb := c.sb.filter fun e => decide (e.state = .running) || decide (e.state = .parked) || decide (e.state = .complete),
    kern := { c.kern with phase := if c.kern.phase = .idle then .idle else .ending, kcq := [], land := c.kern.landsByCycle },
    matrix := { c.matrix with queue := [] },
    stages := c.stages.map fun e => (e.1, { e.2 with suspended := none }) }

/-- The tokens that the pre-empted contexts of a launch hold: SP, rank and region. -/
def State.victimTokens (s : State) (id : Nat) : List (Nat × Nat × Nat) :=
  s.sps.flatMap fun e => (e.2.victims.filter fun v => decide (v.ctx.launch = id)).flatMap fun v =>
    (v.ctx.tokens.filter fun q => decide (q.2 = 1)).map fun q => (e.1, v.ctx.rank, q.1)

/-- The end of a launch: its cause is fixed, and every context of it that has not exited is stopped; its pre-empted
contexts are discarded with their images (24 R461, R462). -/
def State.endLaunch (s : State) (id cause rank word addr pc : Nat) : State :=
  match s.launchOf id with
  | none => s
  | some l =>
    if l.cause.isSome then s else
    let s1 := s.modLaunch id fun l => { l.end_ cause rank word addr pc with gone := s.victimTokens id }
    { s1 with
      sps := s1.sps.map fun e =>
        (e.1, { e.2 with
          ctx := e.2.ctx.map fun c => if c.launch = id then c.stop else c,
          victims := e.2.victims.filter fun v => decide (v.ctx.launch ≠ id) }) }

/-- The state after the hardware's part of an exception of the controller of SP `k` (19 R402, RISC-V privileged
architecture): mepc holds the pc of the faulting instruction, mcause and mtval are set, the previous mode and interrupt
enable are kept in mstatus (MPP in bits 12:11, MPIE in bit 7, MIE in bit 3), the reservation is cleared, M mode, pc = mtvec. -/
def Ctx.enterM (c : Ctx) (cause : Nat) (tval : Dword) : Ctx :=
  let mie := bits c.mstatus 3 1
  let keep := c.mstatus.toNat - bits c.mstatus 11 2 * 2 ^ 11 - bits c.mstatus 7 1 * 2 ^ 7 - mie * 2 ^ 3
  { c with
    mepc := c.pc, mcause := BitVec.ofNat 64 cause, mtval := tval, pc := c.mtvec, mmode := true, resv := none, wait := none,
    mstatus := BitVec.ofNat 64 (keep + (if c.mmode then 3 else 0) * 2 ^ 11 + mie * 2 ^ 7) }

/-- The return from M mode: mode and interrupt enable from mstatus, pc = mepc. -/
def Ctx.leaveM (c : Ctx) : Ctx :=
  let mpie := bits c.mstatus 7 1
  let keep := c.mstatus.toNat - bits c.mstatus 11 2 * 2 ^ 11 - mpie * 2 ^ 7 - bits c.mstatus 3 1 * 2 ^ 3
  { c with
    pc := c.mepc, mmode := decide (bits c.mstatus 11 2 = 3),
    mstatus := BitVec.ofNat 64 (keep + mpie * 2 ^ 3 + 2 ^ 7) }

/-- An exception of the controller of SP `k`: it is taken into M mode, and from U mode the controller firmware ends the
launch with end cause CONTROLLER_EXCEPTION, rank, mcause, mtval and mepc (19 R402, R403). -/
def State.takeException (s : State) (k cause : Nat) (tval : Dword) : State :=
  s.withCtx k fun c =>
    let s1 := s.setCtx k (c.enterM cause tval)
    if c.mmode then s1 else s1.endLaunch c.launch 1 c.rank cause tval.toNat c.pc.toNat

/-! ## Kernel events (07 R189 to R191) -/

/-- The pc after a controller instruction of `n` bytes. -/
def Ctx.advance (c : Ctx) (n : Nat) : Ctx := { c with pc := c.pc + BitVec.ofNat 64 n }

/-- A kernel event is recorded: kevent and PEND (07 R189, R190). -/
def Ctx.recordEvent (c : Ctx) (cause slot member trapn : Nat) (offset : Nat) : Ctx :=
  { c with
    kevent := BitVec.ofNat 64 (cause % 8 + member % 16 * 2 ^ 8 + slot % 16 * 2 ^ 12 + trapn % 256 * 2 ^ 16 + offset % 2 ^ 32 * 2 ^ 32),
    pend := true }

/-- A recorded kernel event is delivered, if IE = 1 and ktvec ≠ 0: kepc holds the pc, the handler's address is ktvec,
IE and PEND are cleared, and so is the reservation (07 R191, 06 R131). -/
def Ctx.deliver (c : Ctx) : Ctx :=
  if c.pend && c.ie && decide (c.ktvec ≠ 0) && !c.mmode then
    { c with kepc := c.pc, pc := c.ktvec, ie := false, pend := false, wait := none, resv := none }
  else c

/-- The end of a kernel by ILLEGAL, PRIV, TOWER or KKILL (07 R190): no further bundle, results land, started KCOPYs run on,
matrix calls that have not started are discarded. -/
def Ctx.killKernel (c : Ctx) (status : Nat) : Ctx :=
  { c with
    stopped := false, kres := false,
    kern := { c.kern with
      phase := .ending, ends := false, status := status, loops := [], xfer := none, gap := 0, last := none, delay := 0, lock := none, trapN := none, dike := none, rejoin := false,
      tokLeft := none, land := c.kern.landsByCycle },
    lockHeld := [], matrix := { c.matrix with queue := [] } }

end Sys2Proof.Machine
end

