-- ==== Sys2Proof/Machine/Link.lean ====
section
/-! DEFINITION. The packets of the fabric: their header and tail flits as bytes (15 R374, R375), the transport header of a
scale-out frame (15 R386), and the sending of a packet on a port. -/

namespace Sys2Proof.Machine

/-- One bit step of the CRC-16 of a header flit (15 R375). -/
def crc16Bit (c bit : Nat) : Nat :=
  let t := c / 2 ^ 15
  Nat.xor (c * 2 % 2 ^ 16) (if (t + bit) % 2 = 1 then 0x1021 else 0)

/-- The CRC-16 after the `n` low bits of a byte, the highest first. -/
def crc16Byte (c b : Nat) : Nat → Nat
  | 0 => c
  | n + 1 => crc16Byte (crc16Bit c (b / 2 ^ n % 2)) b n

/-- CRC-16 of a list of bytes: polynomial 0x1021, initial value 0xFFFF, no reflection (15 R375). -/
def crc16 (l : List Byte) : Nat := l.foldl (fun c b => crc16Byte c b.toNat 8) 0xFFFF

/-- Eight bit steps of the reflected CRC-32. -/
def crc32Byte (c : Nat) : Nat → Nat
  | 0 => c
  | n + 1 => crc32Byte (if c % 2 = 1 then Nat.xor (c / 2) 0xEDB88320 else c / 2) n

/-- The IEEE 802.3 CRC-32 of a list of bytes (15 R375). -/
def crc32 (l : List Byte) : Nat :=
  Nat.xor (l.foldl (fun c b => crc32Byte (Nat.xor c b.toNat) 8) 0xFFFFFFFF) 0xFFFFFFFF

/-- Data flits of a packet: its data a beat each, from byte 0 of the flit on (15 R374; log 54). -/
def pktFlits (k : Packet) : Nat := ceilDiv k.data.length 64

/-- Bytes 0 to 61 of the header flit (15 R375). -/
def pktHead (k : Packet) : List Byte :=
  toBytes 1 k.op ++ toBytes 1 (pktFlits k) ++ toBytes 2 k.srcPkg ++ toBytes 2 k.dstPkg ++ toBytes 1 k.srcPart ++ toBytes 1 k.dstPart
    ++ toBytes 8 k.ia ++ toBytes 2 k.engine ++ toBytes 4 k.seq ++ toBytes 1 k.sub ++ toBytes 1 k.status ++ toBytes 8 k.launch
    ++ toBytes 1 k.rank ++ List.replicate 29 0

/-- The header flit with its CRC. -/
def pktHeader (k : Packet) : List Byte := pktHead k ++ toBytes 2 (crc16 (pktHead k))

/-- Bytes `o` up to `o + n - 1` of a list, as a little-endian number. -/
def field (l : List Byte) (o n : Nat) : Nat := ofBytes ((l.drop o).take n)

/-- The packet that a header flit and data flits make. -/
def packetOf (h data : List Byte) (poison : Bool) : Packet :=
  { op := field h 0 1, srcPkg := field h 2 2, dstPkg := field h 4 2, srcPart := field h 6 1, dstPart := field h 7 1, ia := field h 8 8,
    engine := field h 16 2, seq := field h 18 4, sub := field h 22 1, status := field h 23 1, launch := field h 24 8, rank := field h 32 1,
    data := data, poison := poison }

/-- The transport header of a scale-out payload (15 R386). -/
def transportHead (kind seq map : Nat) : List Byte := toBytes 1 1 ++ toBytes 1 kind ++ toBytes 2 0 ++ toBytes 4 seq ++ toBytes 8 map

/-- Fabric cycles as arithmetic cycles: × 0.672, rounded up (15 R392). -/
def fabricToArith (n : Nat) : Nat := ceilDiv (n * 672) 1000

/-- Configuration fields of a port (15 R373). -/
def Port.mode (p : Port) : Nat := bits p.cfg 0 1
def Port.linkState (p : Port) : Nat := bits p.cfg 16 2

/-- Port `n`. -/
def State.port (s : State) (n : Nat) : Port := KMap.get Port.init s.ports n

/-- `s` with port `n` changed by `f`. -/
def State.modPort (s : State) (n : Nat) (f : Port → Port) : State := { s with ports := KMap.ins n (f (s.port n)) s.ports }

/-- A flit of a kind, with bytes of a packet: zeros stand after them. -/
def Flit.of (kind : Nat) (l : List Byte) : Flit :=
  let b := (l ++ List.replicate 64 0).take 64
  ⟨kind, b, l.length, Config.linkCrc b⟩

/-- The data flits of a packet. -/
def pktBeats (k : Packet) : List Flit := (List.range (pktFlits k)).map fun i => Flit.of 2 ((k.data.drop (64 * i)).take 64)

/-- The tail flit of a packet whose data flits are `l`: the CRC-32 over them, and POISON in bit 0 of byte 4 (15 R375). -/
def tailFlit (l : List Flit) (poison : Bool) : Flit := Flit.of 3 (toBytes 4 (crc32 (l.flatMap (·.bytes))) ++ toBytes 1 (if poison then 1 else 0) ++ List.replicate 59 0)

/-- The flits of a packet: header, data, tail (15 R374). -/
def pktFlitList (k : Packet) : List Flit := Flit.of 1 (pktHeader k) :: (pktBeats k ++ [tailFlit (pktBeats k) k.poison])

/-- The bytes of a packet in the payload of a scale-out datagram: header flit and data beats, with no tail (15 R386). -/
def pktPayload (k : Packet) : List Byte := pktHeader k ++ (pktBeats k).flatMap (·.bytes)

/-- Word `i` of PEER entry `w` (15 R387). -/
def Part.peerWord (p : Part) (w i : Nat) : Dword := KMap.get 0 p.peer (2 * w + i)

/-- Entry `i` of a port's table of IPv6 addresses (15 R387): 16 bytes. -/
def Port.ipAt (p : Port) (i : Nat) : Nat := KMap.get 0 p.ip (2 * i) + 2 ^ 64 * KMap.get 0 p.ip (2 * i + 1)

/-- The IPv6 address of a package by scale-out port `n`: the one that a valid PEER entry for the package by that port names in the port's table,
else the one that the last packet of the package came from (15 R387; log 17). -/
def State.farAddr (s : State) (n pkg : Nat) : Nat :=
  match s.parts.findSome? fun e => ((List.range 16).drop 1).findSome? fun w =>
      let a := e.2.peerWord w 0
      if bits a 63 1 = 1 ∧ bits a 32 16 = pkg ∧ bits a 28 4 = n then some (bits a 22 6) else none with
  | some i => (s.port n).ipAt i
  | none => ((KMap.find pkg s.heard).map (·.2)).getD 0

/-- The path of a port to an IPv6 address. -/
def Port.path (p : Port) (addr : Nat) : Path := KMap.get Path.init p.paths addr
def Port.modPath (p : Port) (addr : Nat) (f : Path → Path) : Port := { p with paths := KMap.ins addr (f (p.path addr)) p.paths }

/-- A datagram waits for the line of a scale-out port. -/
def Port.queueFrame (p : Port) (f : OutFrame) : Port := { p with frameQ := p.frameQ ++ [f] }

/-- Flits wait, at an input of a port, for its line; the first may leave from a cycle on (15 R381). -/
def Port.queueFlits (p : Port) (input ready : Nat) (l : List Flit) : Port := { p with queue := p.queue ++ l.map fun f => ⟨input, ready, f⟩ }

/-- A packet goes from an input of a port to its line: as flits in scale-up mode, as the payload of one frame to an IPv6 address in scale-out mode,
kept until it is acknowledged (15 R374, R381, R386). -/
def State.sendOver (s : State) (n input addr ready : Nat) (k : Packet) : State :=
  if (s.port n).mode = 1 then s.modPort n fun p => p.queueFlits input ready (pktFlitList k)
  else s.modPort n fun p =>
    let seq := (p.path addr).txseq
    let f : OutFrame := ⟨input, addr, transportHead 1 seq 0 ++ pktPayload k⟩
    (p.modPath addr fun q => { q with txseq := (seq + 1) % 2 ^ 32, unacked := q.unacked ++ [⟨seq, f, s.now⟩] }).queueFrame f

/-- A packet goes to its package by a port. -/
def State.sendFrom (s : State) (n input ready : Nat) (k : Packet) : State := s.sendOver n input (s.farAddr n k.dstPkg) ready k

/-- Router hops between an SP and the gateway of its die: its own router, and those of the rows from there to row 0 (00 R2; 15 R379, R392; log 54). -/
def routerHops (k : Nat) : Nat := k % 40 / 8 + 1

/-- The address of a beat in a window by port `n`: the entry that the window's PEER entry names in the port's table, where the port is the
entry's own, else that of another route to the package (15 R385, R387). -/
def State.windowAddr (s : State) (p : Part) (ia n pkg : Nat) : Nat :=
  let a := p.peerWord (ia / 2 ^ 48 % 16) 0
  if bits a 28 4 = n then (s.port n).ipAt (bits a 22 6) else s.farAddr n pkg

/-- Input 8 of a port is the gateway of its I/O die (15 R379); from a compute die to it a flit takes 12 fabric cycles (15 R392). -/
def State.sendPacket (s : State) (n : Nat) (k : Packet) : State := s.sendFrom n 8 (s.now + fabricToArith 12) k

/-! ## The line of a port (15 R372, R378, R381) -/

/-- Fabric cycles since the frame epoch at the end of an arithmetic cycle: the epoch is cycle 0 (log 54). -/
def fabricAt (now : Nat) : Nat := now * 1000 / 672

/-- Fabric cycles of a flit on the line. -/
def Port.flitTime (p : Port) : Nat := 2 ^ bits p.cfg 8 2

/-- The slots of the line that begin on an arithmetic cycle. -/
def Port.slotsAt (p : Port) (now : Nat) : List Nat :=
  let a := fabricAt (now - 1) / p.flitTime; let b := fabricAt now / p.flitTime
  (List.range (b - a)).map fun i => (a + 1 + i) % 256

/-- The input whose connection owns the output of port `n` in a slot, by the slot tables of the ports of its I/O die (15 R379 to R381). -/
def State.slotInput (s : State) (n slot : Nat) : Option Nat :=
  (List.range 8).findSome? fun i => (KMap.find slot (s.port (n / 8 * 8 + i)).slots).bind fun e => if e.2.1 = n % 8 then some e.1 else none

/-- The flit at the head of an input of a port, if it may leave. -/
def Port.headAt (p : Port) (now input : Nat) : Option Waiting := (p.queue.find? fun w => decide (w.input = input)).filter fun w => decide (w.ready ≤ now)

/-- The flit that the line takes in a slot: in an owned one that of the owning connection, else one of the inputs in round-robin order. -/
def Port.takes (p : Port) (now : Nat) (owner : Option Nat) : Option Waiting :=
  match owner with
  | some i => p.headAt now i
  | none => ((List.range 9).map fun i => (p.turn + 1 + i) % 9).findSome? (p.headAt now)

/-- One slot of a scale-up line. -/
def State.upSlot (s : State) (n slot : Nat) : State :=
  let owner := s.slotInput n slot
  match (s.port n).takes s.now owner with
  | none => s
  | some w =>
    let s1 := s.modPort n fun p =>
      { p with queue := dropFirst (fun x => decide (x.input = w.input)) p.queue, turn := if owner.isNone then w.input else p.turn,
               replayed := let l := p.replayed ++ [w.flit]; l.drop (l.length - 128) }
    { s1 with fout := s1.fout ++ [(n, w.flit)] }

/-- Slot times of a frame: a datagram with its IPv6 and UDP headers, 48 bytes, the header of the IEEE 802.3 frame, 14, and its check sequence, 4
(15 R381, R386). -/
def OutFrame.slots (f : OutFrame) : Nat := ceilDiv (66 + f.bytes.length) 64

/-- One slot of a scale-out line: the frame on it goes on, or the oldest frame begins for which every slot that it takes is free or owned by its
connection (15 R381). -/
def State.outSlot (s : State) (n slot : Nat) : State :=
  let p := s.port n
  if p.onLine ≠ 0 then s.modPort n fun p => { p with onLine := p.onLine - 1 } else
  let fits := fun (f : OutFrame) => (List.range f.slots).all fun i => match s.slotInput n ((slot + i) % 256) with
    | none => true
    | some o => decide (o = f.input)
  match p.frameQ.find? fits with
  | none => s
  | some f =>
    let s1 := s.modPort n fun p => { p with frameQ := dropFirst fits p.frameQ, onLine := f.slots - 1 }
    { s1 with frames := s1.frames ++ [(n, f)] }

/-- The far end of a scale-up line asks for the last flits again: they are sent again, in order (15 R377). -/
def State.replay (s : State) (n : Nat) : State :=
  match (s.port n).asked with
  | none => s
  | some k =>
    let l := (s.port n).replayed
    let s1 := s.modPort n fun p => { p with asked := none }
    { s1 with fout := s1.fout ++ (l.drop (l.length - k)).map fun f => (n, f) }

/-- The line of a port that is up sends what the slots of the cycle let through. -/
def State.lineTurn (s : State) (n : Nat) : State :=
  let p := s.port n
  if p.linkState ≠ 2 then s
  else if p.mode = 1 then (p.slotsAt s.now).foldl (fun t i => t.upSlot n i) (s.replay n)
  else (p.slotsAt s.now).foldl (fun t i => t.outSlot n i) s

end Sys2Proof.Machine
end

