-- ==== Sys2Proof/Machine/Regs.lean ====
section
/-! DEFINITION. The register space of the device as it is read (25 R474 to R477). The spec gives the blocks and the registers of each; the
offsets that it does not print follow the order in which it lists them (log 21). -/

namespace Sys2Proof.Machine

/-- A counter that saturates at the width of its register. -/
def sat64 (n : Nat) : Dword := BitVec.ofNat 64 (min n (2 ^ 64 - 1))

/-- A hole has been accessed: GCTL.HOLEHIT rises (25 R474). -/
def State.holeHit (s : State) : State := { s with dev := { s.dev with holehit := min 0xFFFF (s.dev.holehit + 1) } }

/-- What a block other than an SP latched for its snapshot register at an address: the spec does not say, so it is left open (log 6). -/
def State.snapWord (s : State) (a : Nat) : Dword :=
  match s.dev.snapNo with
  | none => 0
  | some n => BitVec.ofNat 64 (Config.deviceConst (2 ^ 40 + n * 2 ^ 24 + a))

/-- GCTL: HOLEHIT in [31:16]; WARM, bit 0, reads 0. -/
def Dev.gctl (d : Dev) : Dword := BitVec.ofNat 64 (d.holehit * 2 ^ 16)

/-- The global block. -/
def State.readGlobal (s : State) (o : Nat) : Option Dword :=
  match o with
  | 0x000 => some s.dev.gctl
  | 0x008 => some (BitVec.ofNat 64 s.dev.pkg)
  | 0x010 => some s.dev.bootstat
  | 0x018 => some (if s.dev.warn then 1 else 0)
  | _ => if 0xF00 ≤ o then some (s.snapWord o) else none

/-- The attestation block: ATTNONCE in six words, ATTGO, ATTSTAT, and the report from 0x100 up. -/
def State.readAttest (s : State) (o : Nat) : Option Dword :=
  let word := fun (l : List Byte) (i : Nat) => BitVec.ofNat 64 (ofBytes ((l.drop i).take 8))
  if o < 0x30 then some (word s.dev.attNonce o)
  else if o = 0x30 then some 0
  else if o = 0x38 then some (if s.dev.attDone then 1 else 0)
  else if 0x100 ≤ o ∧ o < 0x300 then some (word s.dev.report (o - 0x100))
  else if 0xF00 ≤ o then some (s.snapWord (0x1000 + o)) else none

/-- The snapshot control block: SNAPCTL, SNAPTRIG, SNAPCYC, SNAPFWD. -/
def State.readSnap (s : State) (o : Nat) : Option Dword :=
  match o with
  | 0x00 => some s.dev.snapctl
  | 0x08 => some 0
  | 0x10 => some s.dev.snapcyc
  | 0x18 => some s.dev.snapfwd
  | _ => if 0xF00 ≤ o then some (s.snapWord (0x2000 + o)) else none

/-- VF `v`: the lost-message counter, and the sequence numbers expected and sent next. -/
def State.readVf (s : State) (v o : Nat) : Option Dword :=
  let f := KMap.get Vf.init s.vfs v
  match o with
  | 0x00 => some (sat64 f.lost)
  | 0x08 => some (BitVec.ofNat 64 (f.expect + f.next * 2 ^ 32))
  | _ => if 0x3C0 ≤ o then some (s.snapWord (0x10000 + 0x400 * v + o)) else none

/-- The window registers of partition `n`: its own, or those that wait for its creation (15 R387 to R389). -/
def State.windows (s : State) (n : Nat) : Windows :=
  match KMap.find n s.parts with
  | some p => ⟨p.peer, p.export_, p.toktab, p.stale⟩
  | none => KMap.get Windows.init s.shelf n

/-- Partition `p`: PEER entry w at 16 (w - 1), EXPORT entry i at 0x100 + 16 i, TOKTAB, and the stale-response counter. -/
def State.readPart (s : State) (n o : Nat) : Option Dword :=
  let p := s.windows n
  if o < 0xF0 then some (KMap.get 0 p.peer (2 * (o / 16 + 1) + o / 8 % 2))
  else if 0x100 ≤ o ∧ o < 0x200 then some (KMap.get 0 p.export_ (2 * ((o - 0x100) / 16) + o / 8 % 2))
  else if o = 0x200 then some p.toktab
  else if o = 0x208 then some (sat64 p.stale)
  else if 0xF00 ≤ o then some (s.snapWord (0x20000 + 0x1000 * n + o)) else none

/-- Port `n`: PORTCFG, PORTCNT and the IPv6 addresses. -/
def State.readPort (s : State) (n o : Nat) : Option Dword :=
  let p := s.port n
  if o = 0 then some p.cfg
  else if o = 8 then some (BitVec.ofNat 64 (p.fcsdrop + p.replay * 2 ^ 16 + p.poisonrx * 2 ^ 32 + p.hdrerr * 2 ^ 48))
  else if 0x400 ≤ o ∧ o < 0x800 then some (BitVec.ofNat 64 (KMap.get 0 p.ip ((o - 0x400) / 8)))
  else if 0xF00 ≤ o then some (s.snapWord (0x40000 + 0x1000 * n + o)) else none

/-- Channel `c`: the corrected-error counter and the poison log. -/
def State.readChannel (s : State) (c o : Nat) : Option Dword :=
  let a := 0x50000 + 0x100 * c + o
  if o < 0x48 then some (KMap.get 0 s.dev.regs a) else if 0xC0 ≤ o then some (s.snapWord a) else none

/-- DBGSTAT: the stop in bit 63, and the pc. -/
def Sp.dbgstat (p : Sp) : Dword := BitVec.ofNat 64 ((if p.dbgStopped then 2 ^ 63 else 0) + ((p.ctx.map fun c => c.pc.toNat % 2 ^ 63).getD 0))

/-- SP `k`: the gather-error counter, DBGCTL with ATTACH in bit 0, DBGSTAT, and its snapshot registers. -/
def State.readSp (s : State) (k o : Nat) : Option Dword :=
  let p := s.sp k
  match o with
  | 0x00 => some (sat64 p.gatherErr)
  | 0x08 => some (if p.attach then 1 else 0)
  | 0x10 => some p.dbgstat
  | _ => if 0xF00 ≤ o ∧ o < 0xF48 then some (p.snap.getD ((o - 0xF00) / 8) 0) else none

/-- The register at an address of the register space; none where it is a hole (25 R475). -/
def State.regRead (s : State) (a : Nat) : Option Dword :=
  if a < 0x1000 then s.readGlobal a
  else if a < 0x2000 then s.readAttest (a - 0x1000)
  else if a < 0x3000 then s.readSnap (a - 0x2000)
  else if a < 0x10000 then none
  else if a < 0x20000 then s.readVf ((a - 0x10000) / 0x400) (a % 0x400)
  else if a < 0x40000 then s.readPart ((a - 0x20000) / 0x1000) (a % 0x1000)
  else if a < 0x50000 then s.readPort ((a - 0x40000) / 0x1000) (a % 0x1000)
  else if a < 0x60000 then s.readChannel ((a - 0x50000) / 0x100) (a % 0x100)
  else if a < 0x100000 ∨ 0x1A0000 ≤ a then none
  else s.readSp ((a - 0x100000) / 0x1000) (a % 0x1000)

/-- A read of the register space: a hole reads 0 and is counted (25 R474). -/
def State.regAccess (s : State) (a : Nat) : Dword × State :=
  match s.regRead a with
  | some v => (v, s)
  | none => (0, s.holeHit)

end Sys2Proof.Machine
end

