-- ==== Sys2Proof/Machine/Operands.lean ====
section
/-! DEFINITION. The operands of slots: predicates and activity (09 R230, R231), the operand space, constants and source
modifiers (04 R101 to R103), and the pops and pushes of stream ports (10 R262 to R265). -/

namespace Sys2Proof.Machine

/-! ## Rows and elements -/

/-- `n` elements of `w` bits of a row, lowest first. -/
def rowElemsN (w row : Nat) : Nat → List Nat
  | 0 => []
  | n + 1 => row % 2 ^ w :: rowElemsN w (row / 2 ^ w) n

/-- The elements of `eb` bytes of a row. -/
def rowElems (eb row : Nat) : List Nat := rowElemsN (8 * eb) row (128 / eb)

/-- The number whose `w`-bit digits are given, lowest first. -/
def packElems (w : Nat) : List Nat → Nat
  | [] => 0
  | x :: l => x % 2 ^ w + 2 ^ w * packElems w l

/-- A list cut into pieces of `n`, at most `k` of them. -/
def chunksOf {α : Type} (n : Nat) : Nat → List α → List (List α)
  | 0, _ => []
  | k + 1, l => if l.isEmpty then [] else l.take n :: chunksOf n k (l.drop n)

/-- An element with the flags that reading it raised. -/
abbrev Elem := Nat × Nat

/-! ## Constants (04 R102) -/

/-- The integer values of the constant table from 224 up. -/
def constInts : List Int :=
  [16, 32, 48, 64, 96, 127, 128, 255, 256, 511, 1024, 4095, 32767, 32768, 65535, 65536,
   -32, -64, -128, -256, -32768, 0x7FFFFFFF, 0x80000000, 0xFFFFFFFF, 0x5555555555555555, 0xAAAAAAAAAAAAAAAA,
   0x3333333333333333, 0x0F0F0F0F0F0F0F0F, 0x00FF00FF00FF00FF, 0x0000FFFF0000FFFF, 0x7FFFFFFFFFFFFFFF, 0x8000000000000000]

/-- The finite values of the constant table from 232 up, each `± m × 2 ^ e`; an irrational one is given to 60 places,
far below the last place of every type. -/
def constFins : List (Bool × Nat × Int) :=
  [(false, 1, -1), (false, 1, -2), (false, 1, -3), (false, 1, -4), (false, 3, -1), (false, 3, -2), (false, 16, 0), (false, 32, 0),
   (false, 64, 0), (false, 128, 0), (false, 256, 0), (false, 1024, 0),
   (false, 0x3243f6a8885a308d, -60), (false, 0xb17217f7d1cf79a, -60), (false, 0x171547652b82fe17, -60), (false, 0x2b7e151628aed2a6, -60),
   (false, 0xb504f333f9de648, -60), (false, 0x16a09e667f3bcc90, -60), (false, 0x517cc1b727220a9, -60), (false, 0x555555555555555, -60),
   (false, 0xa2f9836e4e44152, -60), (false, 0x4d104d427de7fbc, -60), (true, 1, -1), (false, 1, -24)]

/-- The encoding of constant `f` (224 to 255) in type `t`. -/
def constBits (t f : Nat) : Nat :=
  if t < 4 then wrap (8 * 2 ^ t) (constInts.getD (f - 224) 0)
  else
    let m := typeFmt t
    match f - 224 with
    | 0 => m.zeroBits true
    | 1 => m.infBits false
    | 2 => m.infBits true
    | 3 => m.qnan
    | 4 => m.maxBits false
    | 5 => m.maxBits true
    | 6 => 2 ^ m.fb
    | 7 => 1
    | k =>
      let v := constFins.getD (k - 8) (false, 0, 0)
      (m.ofVal 0 false (.fin v.1 v.2.1 v.2.2)).1

/-- The encoding in type `t` of a source field from 144 to 255: a broadcast, an integer or a constant (04 R101). -/
def bcastBits (c : Ctx) (cl t f : Nat) : Nat :=
  let w := 8 * typeBytes t
  if f < 176 then (c.gr cl (f - 144)).toNat % 2 ^ w
  else if f < 192 then (c.kern.qr (f - 176)).toNat % 2 ^ w
  else if f < 224 then
    let i : Int := (f : Int) - 208
    if t < 4 then wrap w i else ((typeFmt t).ofVal 0 false (Val.ofInt i)).1
  else constBits t f

/-! ## Source modifier (04 R103) -/

/-- Where element `j` of a modified row of `n` elements comes from. -/
def modIndex (md n j : Nat) : Nat :=
  let seg := 2 ^ min (md / 64 % 16) (Nat.log2 n)
  let d := md % 64 % seg
  let base := j - j % seg; let k := j % seg
  match md / 1024 with
  | 1 => base + (k + d) % seg
  | 2 => base + Nat.xor k d
  | 3 => base + d
  | _ => j

/-- A row of elements after the modifier. -/
def modifyRow (md : Nat) (l : List Elem) : List Elem :=
  (List.range l.length).map fun j => l.getD (modIndex md l.length j) (0, 0)

/-! ## Activity (09 R231, R232) -/

/-- Whether destination element `i` of `eb` bytes is active under predicate field `p`. -/
def Kern.active (k : Kern) (p eb i : Nat) : Bool :=
  if p = 0 then true
  else if p < 8 then decide (i * eb < (k.pr p).n * 2 ^ (k.pr p).w)
  else k.stageOn (p - 8)

/-- The instructions that write their whole destination whatever their activity (09 R232). -/
def vWhole (op : Nat) : Bool := decide (0x50 ≤ op ∧ op ≤ 0x54) || decide (op = 0x56)

/-- Whether a V slot with opcode `op` has any effect: some element is active, or it writes its whole destination under a
compact predicate. Element 0 is active if any is. -/
def Kern.vRuns (k : Kern) (op p : Nat) : Bool := k.active p 1 0 || (vWhole op && decide (p < 8))

/-! ## Stream ports -/

/-- The descriptor of port `s`, as the kernel command captured it (10 R262). -/
def Kern.port (k : Kern) (s : Nat) : Desc := KMap.get Desc.init k.ports s

/-- The polder of a descriptor, if it names one that is allocated. -/
def Ctx.descPolder (c : Ctx) (d : Desc) : Option Polder := d.polder.bind c.polder

/-- Bytes of a record of a descriptor in the SRF (07 R159). -/
def Desc.recBytes (d : Desc) : Nat := if d.fmt = 13 then d.recn * 3 / 4 else d.recn * fmtBytes d.fmt

/-- Bytes of a record in memory. -/
def Desc.memRecBytes (d : Desc) : Nat := d.recn * fmtBytes d.mfmt

/-- Records of a tile, and records of the whole polder (10 R265). -/
def Desc.tileRecs (d : Desc) : Nat := d.tile * 128 / d.recBytes
def Desc.capacity (d : Desc) (p : Polder) : Nat := p.size / d.recBytes

/-- The difference of two 32-bit counts. -/
def dif32 (a b : Nat) : Nat := (a + 2 ^ 32 - b % 2 ^ 32) % 2 ^ 32

/-- Records available to pops (10 R265): whole tiles, or everything once a queue's EOS is set. -/
def availRecs (d : Desc) (p : Polder) : Nat :=
  let occ := dif32 p.tail p.head
  if p.kind = 2 ∧ p.eos then occ else occ - p.tail % d.tileRecs

/-- Room for pushes, less what issued pushes have reserved (10 R265). -/
def roomRecs (d : Desc) (p : Polder) : Nat :=
  d.capacity p - (dif32 p.tail p.head + p.head % d.tileRecs + p.room)

/-- Elements of a row step (10 R263): of elements of `eb` bytes, or raw when `eb` is 0. -/
def stepElems (d : Desc) (eb : Nat) : Nat := 16 * (128 / (if eb = 0 then fmtBytes d.fmt else eb))

/-- The record at which a pop starts. -/
def popStart (d : Desc) (p : Polder) : Nat := if p.kind = 0 then d.pos else p.head

/-- The number of elements that a pop may read, counted from element 0 of the stream. -/
def popLimit (d : Desc) (p : Polder) : Nat :=
  if p.kind = 0 then d.len * d.recn else (p.head + availRecs d p) * d.recn

/-- The byte offset of record 0 of a stream in its polder. -/
def streamBase (d : Desc) (p : Polder) : Nat := if p.kind = 0 then d.base else 0

/-- The raw bits of stream element `e`; an element of a packed group by the three bytes of its group (05 R122). -/
def rawElem (m : KMap Row) (d : Desc) (p : Polder) (e : Nat) : Nat :=
  let b := streamBase d p
  if d.fmt = 13 then polNum m p (b + e / 4 * 3) 3 / 2 ^ (6 * (e % 4)) % 64
  else polNum m p (b + e * fmtBytes d.fmt) (fmtBytes d.fmt)

/-- The stream is scaled (05 R123). -/
def Desc.scaled (d : Desc) : Bool :=
  (decide (d.fmt = 0) || decide (d.fmt = 11) || decide (d.fmt = 12) || decide (d.fmt = 13)) && decide (1 ≤ d.scale % 8) && decide (d.scale % 8 ≤ 4)

/-- The scale code of element `e`. A handle that names no polder has no code that the spec states: a free value (log 12). -/
def scaleCode (m : KMap Row) (c : Ctx) (d : Desc) (e : Nat) : Nat :=
  match c.polder (d.scale / 16 % 64) with
  | none => Config.freeNat e % 256
  | some p => polNum m p (d.scale / 1024 + e / (8 * 2 ^ (d.scale % 8))) 1

/-- The exact value of stream element `e` with raw bits `raw`, and the flags of its decode (05 R120, R123). -/
def elemVal (m : KMap Row) (c : Ctx) (d : Desc) (e raw : Nat) : WithFlags Val :=
  let r := fmtDecode d.fmt raw
  if d.scaled then
    let code := scaleCode m c d e
    if code = 255 then (.nar, flagOr r.2 fNAR) else (r.1.scaleBy ((code : Int) - 127), r.2)
  else r

/-- The width that R126 calls the source's: that of an integer format that is not scaled, else 0. -/
def Desc.srcWidth (d : Desc) : Nat := if fmtIsInt d.fmt && !d.scaled then 8 * fmtBytes d.fmt else 0

/-- Element `e` of a stream, popped to type `t`: +0 and OVRN at or past `limit`. -/
def popElem (m : KMap Row) (c : Ctx) (d : Desc) (p : Polder) (t mode limit e : Nat) : Elem :=
  if limit ≤ e then (0, fOVRN) else
  let v := elemVal m c d e (rawElem m d p e)
  let r := typeEncode t mode false d.srcWidth v.1
  (r.1, convFlags (decide (t < 4)) v.1 v.2 r.2)

/-- The elements that a pop of `rows` row steps of type `t` delivers to cluster `cl`, row by row (10 R263). -/
def popRows (m : KMap Row) (c : Ctx) (d : Desc) (t mode rows cl : Nat) : List (List Elem) :=
  let n := 128 / typeBytes t
  match c.descPolder d with
  | none => List.replicate rows (List.replicate n (0, 0))
  | some p =>
    (List.range rows).map fun l => (List.range n).map fun j =>
      popElem m c d p t mode (popLimit d p) (popStart d p * d.recn + l * 16 * n + cl * n + j)

/-- The 128 bytes that a raw pop of row `l` delivers to cluster `cl`, and the flags (10 R263, R264). -/
def rawPopRow (m : KMap Row) (c : Ctx) (d : Desc) (l cl : Nat) : Nat × Nat :=
  match c.descPolder d with
  | none => (0, 0)
  | some p =>
    let fb := fmtBytes d.fmt; let n := 128 / fb
    let es := (List.range n).map fun j =>
      let e := popStart d p * d.recn + l * 16 * n + cl * n + j
      if popLimit d p ≤ e then (0, fOVRN) else (rawElem m d p e, 0)
    (packElems (8 * fb) (es.map (·.1)), flagsOf (es.map (·.2)))

/-- `c` after port `s` has moved `n` records on by a pop: POS, which never passes LEN, or the head, which never passes
what is available (10 R262, R264, R265). -/
def Ctx.popAdvance (c : Ctx) (s n : Nat) : Ctx :=
  let d := c.kern.port s
  match c.descPolder d with
  | none => c
  | some p =>
    if p.kind = 0 then { c with kern := { c.kern with ports := KMap.ins s { d with pos := min (d.pos + n) d.len } c.kern.ports } }
    else
      let k := min n (availRecs d p)
      c.modPolder (d.polder.getD 0) fun p => { p with head := (p.head + k) % 2 ^ 32 }

/-- The record at which a push starts, behind the pushes that are issued and not written. -/
def pushStart (k : Kern) (s : Nat) (d : Desc) (p : Polder) : Nat :=
  if p.kind = 0 then min (d.pos + KMap.get 0 k.pushed s) d.len else (p.tail + p.room) % 2 ^ 32

/-- The bytes of `es`, raw elements of a format from element `e` of the stream, as pieces (offset, bytes, value): whole
groups for packed T6 (05 R122). -/
def pushPieces (d : Desc) (p : Polder) (e : Nat) (es : List Nat) : List (Nat × Nat × Nat) :=
  let b := streamBase d p
  if d.fmt = 13 then
    let gs := chunksOf 4 es.length es
    [(b + e / 4 * 3, 3 * gs.length, packElems 24 (gs.map (packElems 6)))]
  else
    let fb := fmtBytes d.fmt
    [(b + e * fb, es.length * fb, packElems (8 * fb) es)]

/-- Those of `es` that stand within the stream's length, on a linear polder (10 R264), and whether some do not. -/
def pushKeep (d : Desc) (p : Polder) (e : Nat) (es : List Nat) : List Nat × Bool :=
  if p.kind = 0 then
    let room := d.len * d.recn - e
    (es.take room, decide (room < es.length))
  else (es, false)

/-- `c` after a push of `rows` to port `s` has been issued: each row is one list of raw elements of the stream, in order
over the clusters. The bytes are written `left` cycles after issue, and the port moves on one cycle later; its place is
reserved now (10 R262, R264, R265). -/
def Ctx.pushRaw (c : Ctx) (s left : Nat) (rows : List (List Nat)) (flags : Nat) : Ctx :=
  let d := c.kern.port s
  match c.descPolder d with
  | none => c.raiseIn left (flagOr flags fOVRN)
  | some p =>
    let es := rows.flatten
    let e0 := pushStart c.kern s d p * d.recn
    let keep := pushKeep d p e0 es
    let recs := es.length / d.recn
    let h := d.polder.getD 0
    let c1 := c.laters left ((pushPieces d p e0 keep.1).map fun q => .srf h q.1 q.2.1 q.2.2)
    let c2 := (c1.later (left + 1) (.advance s recs)).raiseIn left (flagOr flags (flagIf keep.2 fOVRN))
    if p.kind = 0 then { c2 with kern := { c2.kern with pushed := KMap.ins s (KMap.get 0 c2.kern.pushed s + recs) c2.kern.pushed } }
    else c2.modPolder h fun p => { p with room := p.room + recs }

/-- The encoding of a result element in the format of a descriptor (05 R126): an integer is read as signed for an I
format and as unsigned for an N format. -/
def pushElem (d : Desc) (t mode : Nat) (flush : Bool) (bits : Nat) : WithFlags Nat :=
  if t < 4 then
    let w := 8 * 2 ^ t
    fmtEncode d.fmt mode flush w (Val.ofInt (if fmtIsN d.fmt then ((bits % 2 ^ w : Nat) : Int) else sint w bits))
  else fmtEncode d.fmt mode flush 0 ((typeFmt t).decode bits)

/-! ## Sources of a V slot -/

/-- The rounding mode of a V slot (04 R100). -/
def Kern.rndMode (k : Kern) (rnd : Nat) : Nat := if rnd = 0 then k.kmode else rnd - 1

/-- One operand of a V slot in one cluster: the elements of `span` registers or rows in type `t`, after the modifier if
`md` is not 0, and after the operand flush if `flush` (04 R101 to R103; 05 R118: a port is never flushed). -/
def vOperand (m : KMap Row) (c : Ctx) (cl f span t mode md : Nat) (flush : Bool) : List Elem :=
  let eb := typeBytes t
  let rows : List (List Elem) :=
    if f < 128 then (List.range span).map fun r => (rowElems eb (c.vr cl (f + r))).map fun b => (b, 0)
    else if f < 144 then popRows m c (c.kern.port (f - 128)) t mode span cl
    else List.replicate span (List.replicate (128 / eb) (bcastBits c cl t f, 0))
  let rows := if md = 0 then rows else rows.map (modifyRow md)
  let es := rows.flatten
  if flush && decide (4 ≤ t) && !(decide (128 ≤ f) && decide (f < 144)) then es.map fun e => ((typeFmt t).flushIn e.1, e.2) else es

end Sys2Proof.Machine
end

