-- ==== Sys2Proof/Machine/Cslot.lean ====
section
/-! DEFINITION. The C-slot instructions (08 R198 to R229). Those that decide where issue goes next leave their decision in
the kernel state; BUNDLE_ISSUE, LOOP_BACK_EDGE and BRANCH_TRANSFER carry it out. -/

namespace Sys2Proof.Machine

/-! ## Uniform arithmetic -/

/-- An immediate of `n` bits, widened by the high part `x` of an extension word, with its sign (04 R97). -/
def slotImm (n f : Nat) (x : Option Nat) : Dword :=
  match x with
  | none => BitVec.ofInt 64 (sint n f)
  | some h => BitVec.ofInt 64 (sint (n + 24) (h * 2 ^ n + f))

/-- A q register written `lat` cycles after issue with a function of the member's own state. -/
def qWrite (lat p qd : Nat) (f : Nat → Ctx → Dword) (s : State) : State :=
  s.uniform p fun k c => c.later lat (.word .q 0 qd (f k c))

/-- A register form of R199. -/
def qOp (lat p qd qa qb : Nat) (f : Dword → Dword → Dword) (s : State) : State :=
  qWrite lat p qd (fun _ c => f (c.kern.qr qa) (c.kern.qr qb)) s

/-- QADD: (qa + qb) mod 2^64 (08 R199). -/
def execQadd (p qd qa qb : Nat) (s : State) : Host.Outcome State Fault Refusal :=
  .next (qOp 1 p qd qa qb (fun a b => a + b) s)

/-- QSUB: (qa − qb) mod 2^64 (08 R199). -/
def execQsub (p qd qa qb : Nat) (s : State) : Host.Outcome State Fault Refusal :=
  .next (qOp 1 p qd qa qb (fun a b => a - b) s)

/-- QMUL: (qa × qb) mod 2^64, 3 cycles (08 R199). -/
def execQmul (p qd qa qb : Nat) (s : State) : Host.Outcome State Fault Refusal :=
  .next (qOp 3 p qd qa qb (fun a b => a * b) s)

/-- QAND: qa AND qb (08 R199). -/
def execQand (p qd qa qb : Nat) (s : State) : Host.Outcome State Fault Refusal :=
  .next (qOp 1 p qd qa qb (fun a b => a &&& b) s)

/-- QOR: qa OR qb (08 R199). -/
def execQor (p qd qa qb : Nat) (s : State) : Host.Outcome State Fault Refusal :=
  .next (qOp 1 p qd qa qb (fun a b => a ||| b) s)

/-- QXOR: qa XOR qb (08 R199). -/
def execQxor (p qd qa qb : Nat) (s : State) : Host.Outcome State Fault Refusal :=
  .next (qOp 1 p qd qa qb (fun a b => a ^^^ b) s)

/-- QSHL: qa × 2^qb[5:0] (08 R199). -/
def execQshl (p qd qa qb : Nat) (s : State) : Host.Outcome State Fault Refusal :=
  .next (qOp 1 p qd qa qb (fun a b => a <<< (b.toNat % 64)) s)

/-- QSHR: qa ÷ 2^qb[5:0], unsigned (08 R199). -/
def execQshr (p qd qa qb : Nat) (s : State) : Host.Outcome State Fault Refusal :=
  .next (qOp 1 p qd qa qb (fun a b => a >>> (b.toNat % 64)) s)

/-- QSRA: qa ÷ 2^qb[5:0], towards −∞ (08 R199). -/
def execQsra (p qd qa qb : Nat) (s : State) : Host.Outcome State Fault Refusal :=
  .next (qOp 1 p qd qa qb (fun a b => a.sshiftRight (b.toNat % 64)) s)

/-- QMIN: smaller, signed (08 R199). -/
def execQmin (p qd qa qb : Nat) (s : State) : Host.Outcome State Fault Refusal :=
  .next (qOp 1 p qd qa qb (fun a b => if b.slt a then b else a) s)

/-- QMAX: larger, signed (08 R199). -/
def execQmax (p qd qa qb : Nat) (s : State) : Host.Outcome State Fault Refusal :=
  .next (qOp 1 p qd qa qb (fun a b => if a.slt b then b else a) s)

/-- QADDI: qd := qa + the signed immediate (08 R200). -/
def execQaddi (p qd qa imm : Nat) (x : Option Nat) (s : State) : Host.Outcome State Fault Refusal :=
  .next (qWrite 1 p qd (fun _ c => c.kern.qr qa + slotImm 14 imm x) s)

/-- QLI: qd := the signed immediate (08 R200). -/
def execQli (p qd imm : Nat) (x : Option Nat) (s : State) : Host.Outcome State Fault Refusal :=
  .next (qWrite 1 p qd (fun _ _ => slotImm 18 imm x) s)

/-- What QGET reads (08 R201). -/
def qgetVal (s : State) (k : Nat) (c : Ctx) (sel : Nat) : Nat :=
  let top := c.kern.loops.head?
  match sel with
  | 0 => c.kern.cycles
  | 1 => (top.map (·.remaining)).getD 0
  | 2 => (c.kern.modulo.map (·.rrb)).getD 0
  | 3 => (top.map (·.j)).getD 0
  | 4 => c.kern.loops.length
  | 5 => s.member k
  | 6 => (s.issueGroup k).length
  | 7 => k
  | _ => c.rank

/-- QGET: a sequencer quantity (08 R201). -/
def execQget (p qd sel : Nat) (s : State) : Host.Outcome State Fault Refusal :=
  .next (qWrite 1 p qd (fun k c => BitVec.ofNat 64 (qgetVal s k c sel)) s)

/-- What QSD reads of a descriptor as the ports see it (08 R202). -/
def qsdVal (c : Ctx) (s field : Nat) : Nat :=
  let d := c.kern.port s
  let pol := (c.descPolder d).filter fun p => decide (p.kind ≠ 0)
  match field with
  | 0 => d.pos
  | 1 => d.len
  | 2 => d.len - d.pos
  | 3 => (pol.map (·.head)).getD 0
  | _ => (pol.map (·.tail)).getD 0

/-- QSD: a field of a descriptor (08 R202). -/
def execQsd (p qd sn field : Nat) (s : State) : Host.Outcome State Fault Refusal :=
  .next (qWrite 1 p qd (fun _ c => BitVec.ofNat 64 (qsdVal c sn field)) s)

/-! ## Conditions, votes and predicates -/

/-- The conditions of R203. -/
def condHolds (cond : Nat) (a b : Dword) : Bool :=
  match cond with
  | 0 => a == b
  | 1 => a != b
  | 2 => a.slt b
  | 3 => !a.slt b
  | 4 => a.ult b
  | _ => !a.ult b

/-- A condition bit written `lat` cycles after issue. -/
def cWrite (lat p cd : Nat) (f : Nat → Ctx → Bool) (s : State) : State :=
  s.uniform p fun k c => c.later lat (.word .c 0 cd (if f k c then 1 else 0))

/-- CMP (08 R203). -/
def execCmp (p cd cond qa qb : Nat) (s : State) : Host.Outcome State Fault Refusal :=
  .next (cWrite 1 p cd (fun _ c => condHolds cond (c.kern.qr qa) (c.kern.qr qb)) s)

/-- CMPI (08 R203). -/
def execCmpi (p cd cond qa imm : Nat) (s : State) : Host.Outcome State Fault Refusal :=
  .next (cWrite 1 p cd (fun _ c => condHolds cond (c.kern.qr qa) (slotImm 12 imm none)) s)

/-- CLOG: bit 2 × ca + cb of the table (08 R204). -/
def execClog (p cd ca cb table : Nat) (s : State) : Host.Outcome State Fault Refusal :=
  .next (cWrite 1 p cd (fun _ c =>
    decide (table / 2 ^ ((if c.kern.cr ca then 2 else 0) + (if c.kern.cr cb then 1 else 0)) % 2 = 1)) s)

/-- The active elements of register `v` in every cluster of the group, for a vote (08 R205). -/
def voteElems (s : State) (c : Ctx) (v w pn : Nat) : List Nat :=
  let eb := 2 ^ w
  let n := min (c.kern.pr pn).n (128 / eb)
  (s.issue.map fun k => match s.ctx k with
    | none => []
    | some c => ((List.range 16).map fun cl => (rowElems eb (c.vr cl v)).take n).flatten).flatten

/-- The latency of a vote: 3, 5 in a fused pair, 7 in a fused quad (08 R205). -/
def voteLatency (s : State) : Nat := match s.issue.length with | 4 => 7 | 2 => 5 | _ => 3

/-- VANY (08 R205). -/
def execVany (p cd v w pn : Nat) (s : State) : Host.Outcome State Fault Refusal :=
  .next (cWrite (voteLatency s) p cd (fun _ c => (voteElems s c v w pn).any (· ≠ 0)) s)

/-- VALL (08 R205). -/
def execVall (p cd v w pn : Nat) (s : State) : Host.Outcome State Fault Refusal :=
  .next (cWrite (voteLatency s) p cd (fun _ c => (voteElems s c v w pn).all (· ≠ 0)) s)

/-- A compact predicate written one cycle after issue. -/
def pWrite (p pd w : Nat) (f : Ctx → Nat) (s : State) : State :=
  s.uniform p fun _ c => c.later 1 (.word .p 0 pd (BitVec.ofNat 64 (w * 1024 + f c)))

/-- PSET: a count, capped (08 R206). -/
def execPset (p pd w reg n : Nat) (s : State) : Host.Outcome State Fault Refusal :=
  .next (pWrite p pd w (fun c => min (if reg = 0 then n else (c.kern.qr n).toNat) (768 / 2 ^ w)) s)

/-- PTAIL: the element count of the last group of a run (08 R206). -/
def execPtail (p pd w qa len : Nat) (s : State) : Host.Outcome State Fault Refusal :=
  .next (pWrite p pd w (fun c =>
    let n := (c.kern.qr qa).toNat
    if n = 0 then 0 else (n - 1) % ((len + 1) * 128 / 2 ^ w) + 1) s)

/-! ## Branches and loops -/

/-- A result that lands when `n` more bundles have issued. -/
def Kern.laterBundles (k : Kern) (n : Nat) (w : Landed) : Kern := { k with land := k.land ++ [⟨n, true, w⟩] }

/-- PBT: bn := the address of its bundle + 2 × the signed immediate, seen from the second bundle after (08 R207). -/
def execPbt (p b imm : Nat) (s : State) : Host.Outcome State Fault Refusal :=
  .next (s.uniform p fun _ c =>
    { c with kern := c.kern.laterBundles 2 (.word .b 0 b (BitVec.ofNat 64 c.kern.pc + BitVec.ofInt 64 (2 * sint 19 imm))) })

/-- A branch has two delay bundles; a taken one transfers after them (08 R208). -/
def branchTo (taken : Bool) (target : Dword) (k : Kern) : Kern :=
  { k with delay := 2, xfer := if taken then some ⟨target.toNat, 2⟩ else none }

/-- BR.T: taken when cn = 1 (08 R208). -/
def execBrT (p b c : Nat) (s : State) : Host.Outcome State Fault Refusal :=
  .next (s.control p fun l k => branchTo (l.kern.cr c) (l.kern.br b) k)

/-- BR.F: taken when cn = 0 (08 R208). -/
def execBrF (p b c : Nat) (s : State) : Host.Outcome State Fault Refusal :=
  .next (s.control p fun l k => branchTo (!l.kern.cr c) (l.kern.br b) k)

/-- BR (08 R208). -/
def execBr (p b : Nat) (s : State) : Host.Outcome State Fault Refusal :=
  .next (s.control p fun l k => branchTo true (l.kern.br b) k)

/-- BR.R: to the address in q15 (08 R208). -/
def execBrR (p : Nat) (s : State) : Host.Outcome State Fault Refusal :=
  .next (s.control p fun l k => branchTo true (l.kern.qr 15) k)

/-- BRL: BR that writes q15 with the address after its second delay bundle; it lands when the first delay bundle issues
(08 R209). -/
def execBrl (p b : Nat) (s : State) : Host.Outcome State Fault Refusal :=
  .next (s.control p fun l k =>
    let ret := s.nextBundle (s.nextBundle (s.nextBundle l.kern.pc))
    (branchTo true (l.kern.br b) k).laterBundles 1 (.word .q 0 15 (BitVec.ofNat 64 ret)))

/-- A loop instruction (08 R212, R213): with a positive count and a true predicate an entry is pushed and one set-up cycle
passes; otherwise issue goes on after the body, three cycles later. -/
def loopOpen (mode p b reg n stages : Nat) (s : State) : State :=
  match s.leader with
  | none => s
  | some (_, l) =>
    if !l.kern.firstRound then s else
    let cnt := if reg = 0 then n else (l.kern.qr n).toNat % 2 ^ 32
    let stop := (l.kern.br b).toNat
    let f : Kern → Kern := fun k =>
      if l.kern.predOn p && decide (cnt ≠ 0) then
        { k with gap := k.gap + 1, loops := ⟨k.after, stop, cnt + stages, mode, stages, cnt, 0, 0⟩ :: k.loops }
      else { k with gap := k.gap + 3, after := s.nextBundle stop }
    s.issue.foldl (fun t k => t.modCtx k fun c => { c with kern := f c.kern }) s

/-- LOOP: exposed mode (08 R212). -/
def execLoop (p b reg n : Nat) (s : State) : Host.Outcome State Fault Refusal := .next (loopOpen 0 p b reg n 0 s)

/-- LOOPI: interlocked mode (08 R212). -/
def execLoopi (p b reg n : Nat) (s : State) : Host.Outcome State Fault Refusal := .next (loopOpen 1 p b reg n 0 s)

/-- LOOPM: modulo mode with stages + 1 stages (08 R212, R215). -/
def execLoopm (p b reg n stages : Nat) (s : State) : Host.Outcome State Fault Refusal := .next (loopOpen 2 p b reg n stages s)

/-! ## Matrix parameters, status and rounding -/

/-- MSET: md := qa (08 R217). -/
def execMset (p md qa : Nat) (s : State) : Host.Outcome State Fault Refusal :=
  .next (s.uniform p fun _ c => c.later 1 (.word .m 0 md (c.kern.qr qa)))

/-- MWAIT: its bundle issues once the watermark has been reached (08 R218; the stall is BUNDLE_ISSUE's); no other effect. -/
def execMwait (_p _tile _rows : Nat) (s : State) : Host.Outcome State Fault Refusal := .next s

/-- KSR: qd := kstat, and the masked bits are cleared (08 R219). -/
def execKsr (p qd mask : Nat) (s : State) : Host.Outcome State Fault Refusal :=
  .next (s.uniform p fun _ c =>
    { c.later 1 (.word .q 0 qd (BitVec.ofNat 64 c.kstat)) with kstat := flagClear c.kstat mask })

/-- KSC: kstat := qa[12:0]; what is ORed on the same cycle joins it after (08 R220), and what the controller clears on it stays set
(07 R187). -/
def execKsc (p qa : Nat) (s : State) : Host.Outcome State Fault Refusal :=
  .next (s.uniform p fun _ c => let v := (c.kern.qr qa).toNat % 2 ^ 13; { c with kstat := v, kset := flagOr c.kset v })

/-- KMODE: the rounding mode of the bundles from the next cycle on (08 R221). -/
def execKmode (p reg n : Nat) (s : State) : Host.Outcome State Fault Refusal :=
  .next (s.uniform p fun _ c => c.later 1 (.kmode (if reg = 0 then n else (c.kern.qr n).toNat % 4)))

/-- PREF: a hint without visible effect: its beats leave one after the other (08 R222, 12 R306). -/
def execPref (p qa qb : Nat) (s : State) : Host.Outcome State Fault Refusal :=
  .next (s.issue.foldl (fun t k => match t.ctx k with
    | none => t
    | some c => if c.kern.predOn p && c.kern.firstRound then t.hint k c.launch (c.kern.qr qa).toNat (bits (c.kern.qr qb) 0 32) else t) s)

/-! ## Dikes, towers, ending, trapping and yielding -/

/-- SP `k` arrives at the dike of group entry `e` of partition `part` (08 R223, 07 R180); a second arrival of the same member
in one phase counts once. -/
def State.dikeArrive (s : State) (part e k : Nat) : State :=
  s.modPart part fun p =>
    { p with groups := KMap.upd e (fun g =>
        if g.arrived.contains k then g
        else
          let a := g.arrived ++ [k]
          { g with arrived := a, last := s.now, full := g.members.all a.contains }) p.groups }

/-- SYNC: every SP of the bundle arrives at the dike that it holds on the port, and its kernel waits (08 R223). -/
def execSync (p port : Nat) (s : State) : Host.Outcome State Fault Refusal :=
  .next (match s.leader with
    | none => s
    | some (_, l) =>
      if l.kern.predOn p && l.kern.firstRound then
        s.issue.foldl (fun t k =>
          t.withCtx k fun c =>
            let e := KMap.get 0 (t.sp k).dikes port
            (t.setCtx k { c with kern := { c.kern with dike := some (e, c.kern.gap) } }).dikeArrive (t.partOf c) e k) s
      else s)

/-- DECOUPLE: the members of a fused tower issue on their own from the next bundle on (03 R76). -/
def execDecouple (p : Nat) (s : State) : Host.Outcome State Fault Refusal :=
  .next (match s.leader with
    | none => s
    | some (_, l) =>
      if l.kern.predOn p && l.kern.firstRound then s.issue.foldl (fun t k => t.modSp k fun q => { q with fused := false }) s else s)

/-- A kernel event at one SP: recorded and delivered to its controller; the kernel ends (07 R190). -/
def Ctx.fatalEvent (c : Ctx) (cause slot member : Nat) : Ctx :=
  (c.recordEvent cause slot member 0 (c.kern.pc - c.cbase.toNat)).killKernel 2

/-- A change of the context of a launch at an SP, running or pre-empted. -/
def Sp.mapLaunch (p : Sp) (launch : Nat) (f : Ctx → Ctx) : Sp :=
  { p with
    ctx := p.ctx.map fun c => if c.launch = launch then f c else c,
    victims := p.victims.map fun v => if v.ctx.launch = launch then { v with ctx := f v.ctx } else v }

/-- The kernel of a launch at an SP, running or pre-empted, has executed END. -/
def Sp.hasEnded (p : Sp) (launch : Nat) : Bool :=
  (p.ctx.toList ++ p.victims.map (·.ctx)).any fun c => decide (c.launch = launch) && c.kern.phase == .ending && c.kern.ends

/-- REJOIN: a member of a decoupled tower arrives at the tower line and stalls; if a member has already executed END, kernel
event TOWER is raised at every member (03 R76, R77). -/
def execRejoin (p : Nat) (s : State) : Host.Outcome State Fault Refusal :=
  .next (match s.leader with
    | none => s
    | some (k, l) =>
      let tw := s.tower k
      if !(l.kern.predOn p && l.kern.firstRound) || (s.sp k).fused || decide (tw.length ≤ 1) then s
      else if tw.any fun m => (s.sp m).hasEnded l.launch then
        tw.foldl (fun t m => t.modSp m fun p => p.mapLaunch l.launch fun c => c.fatalEvent 5 0 (s.member k)) s
      else
        let s1 := s.modCtx k fun c => { c with kern := { c.kern with rejoin := true } }
        s1.modSp (tw.headD k) fun q => { q with line := q.line ++ [k], lineAt := s.now })

/-- END: the kernel ends after this bundle's empty run (08 R226). -/
def execEndK (p : Nat) (s : State) : Host.Outcome State Fault Refusal :=
  .next (s.control p fun _ k => { k with ends := true })

/-- KTRAP: the kernel stops after this bundle's empty run (08 R227). -/
def execKtrap (p n : Nat) (s : State) : Host.Outcome State Fault Refusal :=
  .next (s.control p fun _ k => { k with trapN := some n })

/-- YIELD: the watchdog restarts, and a pre-emption or a suspension may be taken after this bundle (08 R228). -/
def execYieldK (p : Nat) (s : State) : Host.Outcome State Fault Refusal :=
  .next (match s.leader with
    | none => s
    | some (_, l) =>
      if l.kern.predOn p && l.kern.firstRound then
        s.issue.foldl (fun t k => t.modCtx k fun c => { c with wdog := 0, kern := { c.kern with yielded := true } }) s
      else s)

end Sys2Proof.Machine
end

