-- ==== Sys2Proof/Machine/Sslot.lean ====
section
/-! DEFINITION. The S-slot instructions (09 R230, R233 to R235). -/

namespace Sys2Proof.Machine

/-- A result in every acting cluster of every SP of the bundle whose predicate `p` is true (09 R230, 10 R270). -/
def clusterWrite (lat p : Nat) (f : Nat → Ctx → Nat → Landed) (s : State) : State :=
  s.issue.foldl (fun t k => t.modCtx k fun c =>
    if c.kern.predOn p then c.laters lat ((c.kern.acting false).map (f k c)) else c) s

/-- A g register written from the cluster's own state. -/
def gWrite (lat p gd : Nat) (f : Ctx → Nat → Dword) (s : State) : State :=
  clusterWrite lat p (fun _ c cl => .word .g cl gd (f c cl)) s

/-- A form on two g registers. -/
def gOp (lat p gd ga gb : Nat) (f : Dword → Dword → Dword) (s : State) : State :=
  gWrite lat p gd (fun c cl => f (c.gr cl ga) (c.gr cl gb)) s

/-- GADD: ga + gb (09 R233). -/
def execGadd (p gd ga gb : Nat) (s : State) : Host.Outcome State Fault Refusal :=
  .next (gOp 1 p gd ga gb (fun a b => a + b) s)

/-- GSUB: ga − gb (09 R233). -/
def execGsub (p gd ga gb : Nat) (s : State) : Host.Outcome State Fault Refusal :=
  .next (gOp 1 p gd ga gb (fun a b => a - b) s)

/-- GMUL: low half of ga × gb, 3 cycles (09 R233). -/
def execGmul (p gd ga gb : Nat) (s : State) : Host.Outcome State Fault Refusal :=
  .next (gOp 3 p gd ga gb (fun a b => a * b) s)

/-- GAND: ga AND gb (09 R233). -/
def execGand (p gd ga gb : Nat) (s : State) : Host.Outcome State Fault Refusal :=
  .next (gOp 1 p gd ga gb (fun a b => a &&& b) s)

/-- GOR: ga OR gb (09 R233). -/
def execGor (p gd ga gb : Nat) (s : State) : Host.Outcome State Fault Refusal :=
  .next (gOp 1 p gd ga gb (fun a b => a ||| b) s)

/-- GXOR: ga XOR gb (09 R233). -/
def execGxor (p gd ga gb : Nat) (s : State) : Host.Outcome State Fault Refusal :=
  .next (gOp 1 p gd ga gb (fun a b => a ^^^ b) s)

/-- GSHL: ga × 2^gb[5:0] (09 R233). -/
def execGshl (p gd ga gb : Nat) (s : State) : Host.Outcome State Fault Refusal :=
  .next (gOp 1 p gd ga gb (fun a b => a <<< (b.toNat % 64)) s)

/-- GSHR: ga ÷ 2^gb[5:0], unsigned (09 R233). -/
def execGshr (p gd ga gb : Nat) (s : State) : Host.Outcome State Fault Refusal :=
  .next (gOp 1 p gd ga gb (fun a b => a >>> (b.toNat % 64)) s)

/-- GSRA: ga ÷ 2^gb[5:0], signed (09 R233). -/
def execGsra (p gd ga gb : Nat) (s : State) : Host.Outcome State Fault Refusal :=
  .next (gOp 1 p gd ga gb (fun a b => a.sshiftRight (b.toNat % 64)) s)

/-- GMIN: smaller, signed (09 R233). -/
def execGmin (p gd ga gb : Nat) (s : State) : Host.Outcome State Fault Refusal :=
  .next (gOp 1 p gd ga gb (fun a b => if b.slt a then b else a) s)

/-- GMAX: larger, signed (09 R233). -/
def execGmax (p gd ga gb : Nat) (s : State) : Host.Outcome State Fault Refusal :=
  .next (gOp 1 p gd ga gb (fun a b => if a.slt b then b else a) s)

/-- GSLT: 1 if ga < gb signed, else 0 (09 R233). -/
def execGslt (p gd ga gb : Nat) (s : State) : Host.Outcome State Fault Refusal :=
  .next (gOp 1 p gd ga gb (fun a b => if a.slt b then 1 else 0) s)

/-- GSLTN: 1 if ga < gb unsigned, else 0 (09 R233). -/
def execGsltn (p gd ga gb : Nat) (s : State) : Host.Outcome State Fault Refusal :=
  .next (gOp 1 p gd ga gb (fun a b => if a.ult b then 1 else 0) s)

/-- GADDI: ga + the signed immediate (09 R233). -/
def execGaddi (p gd ga imm : Nat) (x : Option Nat) (s : State) : Host.Outcome State Fault Refusal :=
  .next (gWrite 1 p gd (fun c cl => c.gr cl ga + slotImm 12 imm x) s)

/-- GMULH: the high half of the product, signed (n = 0) or unsigned (09 R233). -/
def execGmulh (p gd ga gb n : Nat) (s : State) : Host.Outcome State Fault Refusal :=
  .next (gOp 3 p gd ga gb (fun a b =>
    if n = 0 then BitVec.ofInt 64 (a.toInt * b.toInt / (2 ^ 64 : Int)) else BitVec.ofNat 64 (a.toNat * b.toNat / 2 ^ 64)) s)

/-- GSHI: a shift or rotation by an immediate, by kind (09 R235). -/
def execGshi (p gd ga k amt : Nat) (s : State) : Host.Outcome State Fault Refusal :=
  .next (gWrite 1 p gd (fun c cl =>
    let a := c.gr cl ga
    match k with
    | 0 => a <<< amt
    | 1 => a >>> amt
    | 2 => a.sshiftRight amt
    | _ => a.rotateRight amt) s)

/-- GLI: the signed immediate (09 R233). -/
def execGli (p gd imm : Nat) (x : Option Nat) (s : State) : Host.Outcome State Fault Refusal :=
  .next (gWrite 1 p gd (fun _ _ => slotImm 12 imm x) s)

/-- GFRQ: a q register in every cluster (09 R233). -/
def execGfrq (p gd n : Nat) (s : State) : Host.Outcome State Fault Refusal :=
  .next (gWrite 1 p gd (fun c _ => c.kern.qr n) s)

/-- GEXT: a bit field, with its sign if imm7[6] = 1 (09 R234). -/
def execGext (p gd ga gb imm : Nat) (s : State) : Host.Outcome State Fault Refusal :=
  .next (gWrite 1 p gd (fun c cl =>
    let len := imm % 64 + 1
    let f := (c.gr cl ga).toNat / 2 ^ ((c.gr cl gb).toNat % 64) % 2 ^ len
    if imm / 64 = 1 then BitVec.ofInt 64 (sint len f) else BitVec.ofNat 64 f) s)

/-- GINS: a bit field of gd replaced (09 R234). -/
def execGins (p gd ga gb imm : Nat) (s : State) : Host.Outcome State Fault Refusal :=
  .next (gWrite 1 p gd (fun c cl =>
    let pos := (c.gr cl gb).toNat % 64
    let m : Dword := BitVec.ofNat 64 ((2 ^ (imm % 64 + 1) - 1) * 2 ^ pos)
    (c.gr cl gd &&& ~~~ m) ||| (BitVec.ofNat 64 ((c.gr cl ga).toNat * 2 ^ pos) &&& m)) s)

/-- GCID: the tower cluster index 16 m + c (09 R233, 03 R74). -/
def execGcid (p gd : Nat) (s : State) : Host.Outcome State Fault Refusal :=
  .next (clusterWrite 1 p (fun k _ cl => .word .g cl gd (BitVec.ofNat 64 (16 * s.member k + cl))) s)

/-- GSEL: ga if gd ≠ 0, else gb (09 R233). -/
def execGsel (p gd ga gb : Nat) (s : State) : Host.Outcome State Fault Refusal :=
  .next (gWrite 1 p gd (fun c cl => if c.gr cl gd ≠ 0 then c.gr cl ga else c.gr cl gb) s)

/-- GCLZ: leading zero bits of ga (09 R233). -/
def execGclz (p gd ga : Nat) (s : State) : Host.Outcome State Fault Refusal :=
  .next (gWrite 1 p gd (fun c cl => BitVec.ofNat 64 (clz 64 (c.gr cl ga).toNat)) s)

end Sys2Proof.Machine
end

