-- ==== Sys2Proof/Machine/Xslot.lean ====
section
/-! DEFINITION. The X-slot instructions and the address and data queues (10 R251 to R260). -/

namespace Sys2Proof.Machine

/-- An i register written from the cluster's own state, reduced modulo 2^32. -/
def iWrite (lat p id : Nat) (f : Ctx → Nat → Nat) (s : State) : State :=
  clusterWrite lat p (fun _ c cl => .word .i cl id (BitVec.ofNat 64 (f c cl % 2 ^ 32))) s

/-- A form on two i registers. -/
def iOp (p id ia ib : Nat) (f : Nat → Nat → Nat) (s : State) : State :=
  iWrite 1 p id (fun c cl => f (c.ir cl ia) (c.ir cl ib)) s

/-- The position, among `n` bits, of the one bit of rank `r` of `v`; `n` if there is none. -/
def rankPos : Nat → Nat → Nat → Nat
  | 0, _, _ => 0
  | n + 1, r, v => if v % 2 = 1 then (if r = 0 then 0 else 1 + rankPos n (r - 1) (v / 2)) else 1 + rankPos n r (v / 2)

/-- XADD: (ia + ib) mod 2^32 (10 R252). -/
def execXadd (p id ia ib : Nat) (s : State) : Host.Outcome State Fault Refusal :=
  .next (iOp p id ia ib (fun a b => a + b) s)

/-- XSUB: (ia − ib) mod 2^32 (10 R252). -/
def execXsub (p id ia ib : Nat) (s : State) : Host.Outcome State Fault Refusal :=
  .next (iOp p id ia ib (fun a b => a + (2 ^ 32 - b)) s)

/-- XSHL: (ia × 2^ib[4:0]) mod 2^32 (10 R252). -/
def execXshl (p id ia ib : Nat) (s : State) : Host.Outcome State Fault Refusal :=
  .next (iOp p id ia ib (fun a b => a * 2 ^ (b % 32)) s)

/-- XAND: ia AND ib (10 R252). -/
def execXand (p id ia ib : Nat) (s : State) : Host.Outcome State Fault Refusal :=
  .next (iOp p id ia ib (fun a b => Nat.land a b) s)

/-- XPOPB: one bits of ia below bit min(ib, 32) (10 R252). -/
def execXpopb (p id ia ib : Nat) (s : State) : Host.Outcome State Fault Refusal :=
  .next (iOp p id ia ib (fun a b => popcount (min b 32) a) s)

/-- XMIN: smaller, unsigned (10 R252). -/
def execXmin (p id ia ib : Nat) (s : State) : Host.Outcome State Fault Refusal :=
  .next (iOp p id ia ib (fun a b => min a b) s)

/-- XMAX: larger, unsigned (10 R252). -/
def execXmax (p id ia ib : Nat) (s : State) : Host.Outcome State Fault Refusal :=
  .next (iOp p id ia ib (fun a b => max a b) s)

/-- XRANK: position of the one bit of rank ib, or 32 (10 R252). -/
def execXrank (p id ia ib : Nat) (s : State) : Host.Outcome State Fault Refusal :=
  .next (iOp p id ia ib (fun a b => rankPos 32 b a) s)

/-- XADDI: ia + the signed immediate (10 R252). -/
def execXaddi (p id ia imm : Nat) (x : Option Nat) (s : State) : Host.Outcome State Fault Refusal :=
  .next (iWrite 1 p id (fun c cl => c.ir cl ia + (slotImm 10 imm x).toNat) s)

/-- XPOPC: number of one bits (10 R252). -/
def execXpopc (p id ia : Nat) (s : State) : Host.Outcome State Fault Refusal :=
  .next (iWrite 1 p id (fun c cl => popcount 32 (c.ir cl ia)) s)

/-- XSEL: ia if id ≠ 0, else ib (10 R252). -/
def execXsel (p id ia ib : Nat) (s : State) : Host.Outcome State Fault Refusal :=
  .next (iWrite 1 p id (fun c cl => if c.ir cl id ≠ 0 then c.ir cl ia else c.ir cl ib) s)

/-- XLI: the signed immediate modulo 2^32 (10 R252). -/
def execXli (p id imm : Nat) (x : Option Nat) (s : State) : Host.Outcome State Fault Refusal :=
  .next (iWrite 1 p id (fun _ _ => (slotImm 10 imm x).toNat) s)

/-- XFRG: gn modulo 2^32 (10 R252). -/
def execXfrg (p id g : Nat) (s : State) : Host.Outcome State Fault Refusal :=
  .next (iWrite 1 p id (fun c cl => (c.gr cl g).toNat) s)

/-- XTOG: ia into a g register, zero-extended (10 R252). -/
def execXtog (p g ia : Nat) (s : State) : Host.Outcome State Fault Refusal :=
  .next (gWrite 1 p g (fun c cl => BitVec.ofNat 64 (c.ir cl ia)) s)

/-- One merge step of two coordinate streams (10 R253). -/
def xcadvStep (pos a b : Nat) : Nat :=
  let pa := pos % 2 ^ 16; let pb := pos / 2 ^ 16
  let pa := if a ≤ b then (pa + 1) % 2 ^ 16 else pa
  let pb := if b ≤ a then (pb + 1) % 2 ^ 16 else pb
  pb * 2 ^ 16 + pa

/-- XCADV, two cycles (10 R253). -/
def execXcadv (p id ia ib : Nat) (s : State) : Host.Outcome State Fault Refusal :=
  .next (iWrite 2 p id (fun c cl => xcadvStep (c.ir cl id) (c.ir cl ia) (c.ir cl ib)) s)

/-- One step of a merge-path search (10 R254). -/
def xdiagNext (st a d : Nat) : Nat :=
  let lo := st % 2 ^ 16; let hi := st / 2 ^ 16
  let mid := (lo + hi) / 2
  if lo < hi then (if a + mid + 1 ≤ d then hi * 2 ^ 16 + (mid + 1) else mid * 2 ^ 16 + lo) else st

/-- XDIAG.STEP, two cycles (10 R254). -/
def execXdiagStep (p id ia ib : Nat) (s : State) : Host.Outcome State Fault Refusal :=
  .next (iWrite 2 p id (fun c cl => xdiagNext (c.ir cl id) (c.ir cl ia) (c.ir cl ib)) s)

/-- XDIAG.MID, two cycles (10 R254). -/
def execXdiagMid (p id ia : Nat) (s : State) : Host.Outcome State Fault Refusal :=
  .next (iWrite 2 p id (fun c cl => (c.ir cl ia % 2 ^ 16 + c.ir cl ia / 2 ^ 16) / 2) s)

/-! ## Address and data queues -/

/-- The address queue and the data queue of a cluster, oldest request first. -/
def Ctx.aqOf (c : Ctx) (cl : Nat) : List AqReq := KMap.get [] c.aq cl
def Ctx.dqOf (c : Ctx) (cl : Nat) : List AqReq := KMap.get [] c.dq cl

/-- The request that XAQ or XAQS pushes in cluster `cl` (10 R255). An XAQS whose descriptor names no polder lands as zeros. -/
def aqRequest (c : Ctx) (srf : Bool) (sn ia imm cl : Nat) : AqReq :=
  let d := c.kern.port sn
  let idx : Int := sint 32 (c.ir cl ia) + sint 10 imm
  if srf then
    let fb := fmtBytes d.fmt
    let a : Int := (d.base : Int) + idx * fb
    { srf := true, addr := wrap 32 a, bytes := fb, handle := (d.polder.getD 64), state := 0, acc := 0, data := 0, due := 0 }
  else
    let mb := fmtBytes d.mfmt
    { srf := false, addr := wrap 48 ((d.dst : Int) + idx * mb), bytes := mb, handle := 0, state := 0, acc := 0, data := 0, due := 0 }

/-- XAQ and XAQS: one request into every cluster's address queue; they act in the first round of a lock section only. -/
def aqPush (srf : Bool) (p sn ia imm : Nat) (s : State) : State :=
  s.uniform p fun _ c =>
    let aq := iterate (fun cl q => KMap.ins cl (KMap.get [] q cl ++ [aqRequest c srf sn ia imm cl]) q) 16 c.aq
    let c1 := { c with aq := aq }
    c1.raiseIn 0 (flagIf (srf && (c.descPolder (c.kern.port sn)).isNone) fOVRN)

/-- XAQ: gather requests to memory (10 R255). -/
def execXaq (p sn ia imm : Nat) (s : State) : Host.Outcome State Fault Refusal := .next (aqPush false p sn ia imm s)

/-- XAQS: gather requests to the SRF (10 R255). -/
def execXaqs (p sn ia imm : Nat) (s : State) : Host.Outcome State Fault Refusal := .next (aqPush true p sn ia imm s)

/-- An entry of the data queue can be popped now (10 R256). -/
def AqReq.landed (r : AqReq) (now : Nat) : Bool := decide (r.state = 1) && decide (r.due ≤ now)

/-- The gather port of a bank serves a request for row `row` that reaches it at `now`: the cycle that serves it, and the
port after it (10 R257). -/
def GPort.serve (g : GPort) (now row : Nat) : Nat × GPort :=
  let rows := if g.at_ = now then g.rows else []
  match rows.find? (·.1 = row) with
  | some r => (r.2, { g with at_ := now, rows := rows })
  | none => let v := max now g.free; (v, ⟨v + 2, now, rows ++ [(row, v)]⟩)

/-- The first request of an address queue goes to the SRF: its bytes are read, and it lands 9 cycles after its bank serves
it (10 R257). A handle that names no polder gives zeros. -/
def aqSendSrf (c : Ctx) (m : KMap Row) (now : Nat) (r : AqReq) : Ctx × AqReq :=
  match c.polder r.handle with
  | none => (c, { r with state := 1, data := 0, due := now + 9 })
  | some p =>
    let q := p.place r.addr
    let key := q.1 * 48 + q.2 / 128 % 48
    let g := (KMap.get ⟨0, now + 1, []⟩ c.gports key).serve now (q.2 / 128)
    ({ c with gports := KMap.ins key g.2 c.gports },
      { r with state := 1, data := BitVec.ofNat 64 (polNum m p r.addr r.bytes), due := g.1 + 9 })

end Sys2Proof.Machine
end

