-- ==== Sys2Proof/Machine/Pslot.lean ====
section
/-! DEFINITION. The P-slot instructions but KCOPY (10 R259, R261 to R270). -/

namespace Sys2Proof.Machine

/-- Every bit of a row. -/
def rowOnes : Row := BitVec.ofNat 1024 (2 ^ 1024 - 1)

/-- A whole register of a cluster as a landing row. -/
def wholeRow (k : Kern) (cl v : Nat) (bits : Nat) : RowW := ⟨cl, k.phys v, BitVec.ofNat 1024 bits, rowOnes⟩

/-- The flag of a use of a port whose descriptor names no polder (10 R262). -/
def noneFlag (c : Ctx) (s : Nat) : Nat := flagIf (c.descPolder (c.kern.port s)).isNone fOVRN

/-- The rows of a raw pop of `len + 1` rows into v registers from `v`, in every cluster. -/
def rawPop (m : KMap Row) (c : Ctx) (sn v len : Nat) : List RowW × Nat :=
  let d := c.kern.port sn
  let all := (List.range (len + 1)).map fun l => (List.range 16).map fun cl => (cl, l, rawPopRow m c d l cl)
  (all.flatten.map fun e => wholeRow c.kern e.1 (v + e.2.1) e.2.2.1, flagOr (flagsOf (all.flatten.map fun e => e.2.2.2)) (noneFlag c sn))

/-- SPOP, and SPEEK, which does not advance: three cycles (10 R264, R266). -/
def rawPopRun (adv : Bool) (p sn v len : Nat) (s : State) : State :=
  s.uniform p fun k c =>
    let d := c.kern.port sn
    let r := rawPop (s.sp k).srf c sn v len
    let c1 := if adv then c.popAdvance sn ((len + 1) * stepElems d 0 / d.recn) else c
    (c1.later 3 (.rows r.1)).raiseIn 3 r.2

/-- SPOP (10 R261). -/
def execSpop (p sn v len : Nat) (s : State) : Host.Outcome State Fault Refusal := .next (rawPopRun true p sn v len s)

/-- SPEEK (10 R266). -/
def execSpeek (p sn v len : Nat) (s : State) : Host.Outcome State Fault Refusal := .next (rawPopRun false p sn v len s)

/-- SPUSH: the rows are written on the next cycle (10 R262). -/
def execSpush (p sn v len : Nat) (s : State) : Host.Outcome State Fault Refusal :=
  .next (s.uniform p fun _ c =>
    let fb := fmtBytes (c.kern.port sn).fmt
    c.pushRaw sn 1 ((List.range (len + 1)).map fun l => ((List.range 16).map fun cl => rowElems fb (c.vr cl (v + l))).flatten) 0)

/-- A port moved by `n` records (10 R266): POS clamped to 0 and LEN on a linear polder, the head on a ring or queue, with OVRN
where it falls short. -/
def Ctx.sadv (c : Ctx) (sn : Nat) (n : Int) : Ctx :=
  let d := c.kern.port sn
  match c.descPolder d with
  | none => c.raiseIn 0 fOVRN
  | some p =>
    if p.kind = 0 then
      let t : Int := (d.pos : Int) + n
      let q : Int := if t < 0 then 0 else if (d.len : Int) < t then d.len else t
      let c1 := { c with kern := { c.kern with ports := KMap.ins sn { d with pos := q.toNat } c.kern.ports } }
      c1.raiseIn 0 (flagIf (decide (q ≠ t)) fOVRN)
    else
      (c.popAdvance sn n.toNat).raiseIn 0 (flagIf (decide (availRecs d p < n.toNat)) fOVRN)

/-- SADV (10 R266). -/
def execSadv (p sn imm : Nat) (x : Option Nat) (s : State) : Host.Outcome State Fault Refusal :=
  .next (s.uniform p fun _ c => c.sadv sn (slotImm 11 imm x).toInt)

/-- SPOS: POS from N32 element 0 of v in cluster 0, at most LEN (10 R266); it moves no record, so a port without a polder takes it too. -/
def execSpos (p sn v : Nat) (s : State) : Host.Outcome State Fault Refusal :=
  .next (s.uniform p fun _ c =>
    let d := c.kern.port sn
    { c with kern := { c.kern with ports := KMap.ins sn { d with pos := min (c.vr 0 v % 2 ^ 32) d.len } c.kern.ports } })

/-- SFLUSH: its bundle issues once the earlier pushes are written (10 R266; the stall is BUNDLE_ISSUE's). -/
def execSflush (_p _s : Nat) (s : State) : Host.Outcome State Fault Refusal := .next s

/-- Cycles until every push to port `sn` in flight has been written and has moved the port on. -/
def pushesLeft (k : Kern) (sn : Nat) : Nat :=
  k.land.foldl (fun m l => match l.what with | .advance q _ => if q = sn then max m l.left else m | _ => m) 0

/-- The EOS mark of a queue set (07 R162); not a queue: nothing. -/
def Ctx.setEos (c : Ctx) (h : Nat) : Ctx := c.modPolder h fun p => if p.kind = 2 then { p with eos := true } else p

/-- SEOS: the mark is set after the earlier pushes have been written (10 R266). -/
def execSeos (p sn : Nat) (s : State) : Host.Outcome State Fault Refusal :=
  .next (s.uniform p fun _ c =>
    let d := c.kern.port sn
    match d.polder with
    | none => c
    | some h =>
      let n := pushesLeft c.kern sn
      if n = 0 then c.setEos h else c.later n (.eos h))

/-! ## Direct access -/

/-- The handle of a port, 64 where its descriptor names no polder. -/
def portHandle (c : Ctx) (sn : Nat) : Nat := ((c.kern.port sn).polder).getD 64

/-- The byte offset of SLD and SST in cluster `cl`: the immediate is unsigned (10 R268). -/
def sldOffset (imm : Nat) (x : Option Nat) (cl : Nat) : Nat := imm + (x.getD 0) * 2 ^ 11 + 128 * cl

/-- SLD: 128 bytes, read on the next cycle and landing two cycles after (10 R267, R268). -/
def execSld (p sn v imm : Nat) (x : Option Nat) (s : State) : Host.Outcome State Fault Refusal :=
  .next (s.issue.foldl (fun t k => t.modCtx k fun c =>
    if c.kern.predOn p then
      (c.later 1 (.fetch (portHandle c sn) ((c.kern.acting false).map fun cl => (cl, c.kern.phys v, sldOffset imm x cl)))).raiseIn 3 (noneFlag c sn)
    else c) s)

/-- SST: 128 bytes of v, written on the next cycle (10 R267, R268). -/
def execSst (p sn v imm : Nat) (x : Option Nat) (s : State) : Host.Outcome State Fault Refusal :=
  .next (s.issue.foldl (fun t k => t.modCtx k fun c =>
    if c.kern.predOn p then
      (c.laters 1 ((c.kern.acting false).map fun cl => .srf (portHandle c sn) (sldOffset imm x cl) 128 (c.vr cl v))).raiseIn 0 (noneFlag c sn)
    else c) s)

/-! ## Locks (10 R269, R270) -/

/-- The element offset of SLDL and SSTU in a cluster. -/
def lockOffset (c : Ctx) (cl ia w : Nat) : Nat := c.ir cl ia / 2 ^ w * 2 ^ w

/-- The lock bit of an element: lane, bank and k as one number (10 R269). -/
def lockId (p : Polder) (o : Nat) : Nat :=
  let q := p.place o
  (q.1 * 48 + q.2 / 128 % 48) * 4 + Nat.xor (q.2 / 8 % 4) (q.2 / 128 % 4)

/-- Locks granted to the clusters of `cand`, in ascending order: a lock goes to the first that asks, unless a cluster that
does not ask holds it. -/
def grantLocks (want : Nat → Nat) (held : KMap Nat) : List Nat → KMap Nat
  | [] => held
  | cl :: l => grantLocks want (if held.any fun e => decide (e.2 = want cl) then held else KMap.ins cl (want cl) held) l

/-- Those of `cand` that hold the lock they want. -/
def lockWinners (want : Nat → Nat) (held : KMap Nat) (cand : List Nat) : List Nat := cand.filter fun cl => decide (KMap.find cl held = some (want cl))

/-- The SLDL of a bundle asks for its locks, once for each issue of the bundle (10 R270): the first bundle of a section for every cluster, in a
later round for those that wait, another SLDL of an open section for those that act. Each cluster that asks first releases what it holds. -/
def Ctx.openLock (c : Ctx) (sn ia w : Nat) : Ctx :=
  let want := fun cl => match c.descPolder (c.kern.port sn) with
    | none => 4 * 768 + cl
    | some p => lockId p (lockOffset c cl ia w)
  let grant (cand : List Nat) : KMap Nat := grantLocks want (cand.foldl (fun h cl => KMap.del cl h) c.lockHeld) cand
  let first :=
    let cand := List.range 16
    let h := grant cand; let win := lockWinners want h cand
    { c with lockHeld := h, kern := { c.kern with lock := some ⟨c.kern.pc, win, cand.filter (!win.contains ·), 0, false, true⟩ } }
  match c.kern.lock with
  | none => first
  | some l =>
    if l.opened then c
    else if l.first = c.kern.pc then
      if l.round = 0 then first
      else
        let h := grant l.waiting; let win := lockWinners want h l.waiting
        { c with lockHeld := h, kern := { c.kern with lock := some { l with acting := win, waiting := l.waiting.filter (!win.contains ·), opened := true } } }
    else
      let h := grant l.acting; let win := lockWinners want h l.acting
      { c with lockHeld := h,
               kern := { c.kern with lock := some { l with acting := win, waiting := l.waiting ++ l.acting.filter (!win.contains ·), opened := true } } }

/-- SLDL: takes the lock and reads one element, zero-extended, in the clusters that hold theirs; three cycles (10 R269). -/
def execSldl (p sn v ia w : Nat) (s : State) : Host.Outcome State Fault Refusal :=
  .next (s.issue.foldl (fun t k => t.modCtx k fun c0 =>
    if c0.kern.predOn p then
      let c := c0.openLock sn ia w
      (c.later 3 (.rows ((c.kern.acting false).map fun cl =>
        wholeRow c.kern cl v (ofBytes (srfLoad (s.sp k).srf c (portHandle c sn) (lockOffset c cl ia w) (2 ^ w)))))).raiseIn 3 (noneFlag c sn)
    else c0) s)

/-- SSTU: stores element 0 of v on the next cycle and releases the lock, in the acting clusters; it closes the section
(10 R269, R270). -/
def execSstu (p sn v ia w : Nat) (s : State) : Host.Outcome State Fault Refusal :=
  .next (s.issue.foldl (fun t k => t.modCtx k fun c =>
    let cls := if c.kern.predOn p then c.kern.acting false else []
    let c1 := (c.laters 1 (cls.map fun cl => .srf (portHandle c sn) (lockOffset c cl ia w) (2 ^ w) (c.vr cl v % 2 ^ (8 * 2 ^ w)))).raiseIn 0
      (if cls.isEmpty then 0 else noneFlag c sn)
    { c1 with lockHeld := cls.foldl (fun h cl => KMap.del cl h) c1.lockHeld,
              kern := { c1.kern with lock := c1.kern.lock.map fun l => { l with closing := true } } }) s)

/-! ## Data queue (10 R259) -/

/-- DQPOP: up to n + 1 landed entries of each data queue as elements of 2^w bytes, the rest 0; DQE where there are fewer. -/
def execDqpop (p v n w : Nat) (s : State) : Host.Outcome State Fault Refusal :=
  .next (s.uniform p fun _ c =>
    let rows := (List.range 16).map fun cl =>
      wholeRow c.kern cl v (packElems (8 * 2 ^ w) (((c.dqOf cl).take (n + 1)).map fun r => r.data.toNat))
    let short := (List.range 16).any fun cl => decide ((c.dqOf cl).length < n + 1)
    let c1 := (c.later 2 (.rows rows)).raiseIn 2 (flagIf short fDQE)
    { c1 with dq := iterate (fun cl q => KMap.ins cl ((KMap.get [] q cl).drop (n + 1)) q) 16 c1.dq })

/-- DQN: landed entries, entries sent and not landed, and address queue occupancy, as N32 elements 0 to 2. An entry behind one that has not
arrived cannot be popped, so it has not landed (10 R256, R258). -/
def execDqn (p v : Nat) (s : State) : Host.Outcome State Fault Refusal :=
  .next (s.uniform p fun _ c =>
    c.later 2 (.rows ((List.range 16).map fun cl =>
      let dq := c.dqOf cl; let n := (dq.takeWhile (·.landed s.now)).length
      wholeRow c.kern cl v (packElems 32 [n, dq.length - n, (c.aqOf cl).length]))))

end Sys2Proof.Machine
end

