-- ==== Sys2Proof/Machine/Segs.lean ====
section
/-! DEFINITION. Segments (12 R309, R310), remote windows (15 R387), the token table of a home and what a context holds
(15 R389, R390), and the checks of a descriptor that a command moves records through (07 R161). -/

namespace Sys2Proof.Machine

/-! ## Segments -/

/-- The number of the segment of a launch that holds `va`, and the segment (12 R310). -/
def Launch.segAt (l : Launch) (va : Nat) : Option (Nat × Segment) :=
  let i := l.segs.findIdx fun g => decide (g.base ≤ va) && decide (va < g.base + g.len)
  l.segs[i]?.map fun g => (i, g)

/-- The IA that an access of a launch reaches at `va`, none where the segment check refuses it (12 R310). -/
def Launch.mapVa (l : Launch) (va : Nat) (rd wr : Bool) : Option Nat :=
  match l.segAt va with
  | none => none
  | some (_, g) => if g.valid && (!rd || g.read) && (!wr || g.write) then some (g.ia + (va - g.base)) else none

/-- The window of an IA, 0 for a local one (15 R387). -/
def iaWindow (ia : Nat) : Nat := ia / 2 ^ 48 % 16

/-- The ports by which a partition reaches a package: those that its valid PEER entries for it name, in the order of their windows (15 R385, R387). -/
def Part.routes (p : Part) (pkg : Nat) : List Nat :=
  (((List.range 16).drop 1).filter fun w => decide (bits (p.peerWord w 0) 63 1 = 1) && decide (bits (p.peerWord w 0) 32 16 = pkg)).map fun w => bits (p.peerWord w 0) 28 4

/-- The port that a beat leaves by: that of its window, or, where its link has failed, the first route to the package whose link has not; none
where every one has (15 R385). -/
def State.portFor (s : State) (p : Part) (port pkg : Nat) : Option Nat := (port :: p.routes pkg).find? fun n => decide ((s.port n).linkState ≠ 3)

/-- Where an access in window `w` at `ia` goes: first port, package, partition and IA there; none when V is 0 (15 R387). -/
def Part.route (p : Part) (ia : Nat) : Option (Nat × Nat × Nat × Nat) :=
  let w := iaWindow ia; let a := p.peerWord w 0; let b := p.peerWord w 1
  if bits a 63 1 = 0 then none
  else some (bits a 28 4, bits a 32 16, bits a 53 5, (bits b 21 31 * 2 ^ 21 + ia % 2 ^ 48) % 2 ^ 52)

/-- Engine `e`, die × 16 + its number on the die. -/
def State.engine (s : State) (e : Nat) : Engine := KMap.get ⟨0, []⟩ s.engines e

/-- The compute die of a channel: two stacks of 32 channels each. -/
def dieOfPa (p : Nat) : Nat := channelOf p / 64

/-! ## Absent migration pages (23 R455) -/

/-- The page of a PA is absent: it has not come from the source of a migration. -/
def Part.absent (p : Part) (pa : Nat) : Bool := decide (p.migr.role = 2) && p.migr.pages.contains (pa / 0x10000)

/-- The engine number under which a die of a partition sends its pull requests; 7 stands for the background pull (log 18). -/
def pullEngine (part die : Nat) : Nat := 256 + 8 * part + die

/-- A pull request for a page goes to the source. -/
def State.sendPull (s : State) (part die page : Nat) (m : Migr) : State :=
  let e := pullEngine part die; let g := s.engine e
  let k : Packet :=
    { op := 2, srcPkg := s.dev.pkg, dstPkg := m.peerPkg, srcPart := part, dstPart := m.peerPart, ia := page * 0x10000, engine := e, seq := g.next, sub := 0,
      status := 0, launch := 0, rank := 0, data := [], poison := false }
  let b : Beat := ⟨k, 0, 0, s.now, false, m.port, s.farAddr m.port m.peerPkg⟩
  let g1 : Engine := { next := (g.next + 1) % 2 ^ 32, beats := g.beats ++ [b] }
  let s1 : State := { s with engines := KMap.ins e g1 s.engines }
  s1.sendPacket m.port k

/-- A page is asked for by a slice of a die, unless it has been: a die holds at most 64 requests outstanding, the others wait. -/
def State.askPage (s : State) (part die page : Nat) : State :=
  match s.part part with
  | none => s
  | some p =>
    if p.migr.pulls.any (fun q => decide (q / 8 = page)) then s else
    let s1 := s.setPart part { p with migr := { p.migr with pulls := p.migr.pulls ++ [page * 8 + die] } }
    if (s.engine (pullEngine part die)).beats.length < 64 then s1.sendPull part die page p.migr else s1

/-! ## Token tables (15 R389) -/

/-- An entry of a token table: its address, and what it says of its holder. -/
structure TokEntry where
  addr : Nat
  held : Bool
  pkg : Nat
  part : Nat
  rank : Nat
  launch : Nat
deriving DecidableEq, Repr

/-- A context as the tokens name it, with the partition it runs in (15 R390). -/
structure TokCtx where
  pkg : Nat
  part : Nat
  rank : Nat
  launch : Nat
deriving DecidableEq, Repr

/-- `n` bytes of linear memory as a number. -/
def State.memNat (s : State) (a n : Nat) : Nat := ofBytes (Memory.read s.linMem a n)

/-- The entry of a region in the token table of a partition; none: the region is unchecked. -/
def State.tokEntry (s : State) (p : Part) (r : Nat) : Option TokEntry :=
  let n := bits p.toktab 0 5; let base := bits p.toktab 12 40 * 2 ^ 12
  if bits p.toktab 63 1 = 0 ∨ n < 8 ∨ 20 < n then none else
  ((List.range 8).map fun i => base + (r + i) % 2 ^ n * 32).findSome? fun a =>
    let w := s.memNat a 8
    if w % 2 = 1 ∧ w / 2 ^ 21 % 2 ^ 31 = r then
      some ⟨a, decide (s.memNat (a + 11) 1 = 1), s.memNat (a + 8) 2, s.memNat (a + 10) 1, s.memNat (a + 12) 1, s.memNat (a + 16) 8⟩
    else none

/-- A page of the token table that has not come from the source of a migration and that holds an entry of a region (23 R455). -/
def Part.tokAbsent (p : Part) (r : Nat) : Option Nat :=
  let n := bits p.toktab 0 5; let base := bits p.toktab 12 40 * 2 ^ 12
  if bits p.toktab 63 1 = 0 ∨ n < 8 ∨ 20 < n then none
  else ((List.range 8).map fun i => base + (r + i) % 2 ^ n * 32).find? p.absent

/-- That page, for a region of a partition of this package. -/
def State.tokAbsent (s : State) (part r : Nat) : Option Nat := (s.part part).bind (·.tokAbsent r)

/-- The page is asked for by the die that holds it. -/
def State.askTable (s : State) (part a : Nat) : State := s.askPage part (dieOfPa a) (a / 0x10000)

/-- The entry names the context: by its launch id, which holds the package it started on, and its rank (15 R390, 23 R445). -/
def TokEntry.heldBy (e : TokEntry) (c : TokCtx) : Bool := e.held && decide (e.rank = c.rank) && decide (e.launch = c.launch)

/-- The entry with a context as holder, or none: at home. -/
def State.tokSet (s : State) (e : TokEntry) (c : Option TokCtx) : State :=
  match c with
  | some c => (s.memWrite (e.addr + 8) (toBytes 2 (c.launch / 2 ^ 48) ++ toBytes 1 c.part ++ toBytes 1 1 ++ toBytes 1 c.rank)).memWrite (e.addr + 16) (toBytes 8 c.launch)
  | none => s.memWrite (e.addr + 11) (toBytes 1 0)

/-- The home's answer to a request: it is granted, the region is unchecked, it waits, it is refused because the queue is full, or the page of
the table has not come (15 R390; 23 R455). -/
inductive TokAnswer | ok | unchecked | waits | refused | absent
deriving DecidableEq, Repr

/-- A request for region `r` at its home, partition `part` of this package. -/
def State.tokAsk (s : State) (part r : Nat) (c : TokCtx) (sp : Nat) : TokAnswer × State :=
  match s.part part with
  | none => (.unchecked, s)
  | some p =>
    match p.tokAbsent r with
    | some a => (.absent, s.askTable part a)
    | none =>
    match s.tokEntry p r with
    | none => (.unchecked, s)
    | some e =>
      if e.heldBy c then (.ok, s)
      else if !e.held then (.ok, s.tokSet e (some c))
      else if p.tokWait.any fun w => decide (w.pkg = c.pkg) && decide (w.launch = c.launch) && decide (w.rank = c.rank) && decide (w.region = r) then (.waits, s)
      else if 64 ≤ p.tokWait.length then (.refused, s)
      else (.waits, s.setPart part { p with tokWait := p.tokWait ++ [⟨c.pkg, c.launch, c.rank, c.part, r, sp⟩] })

/-- The token reply that a home sends to a peer's context (15 R375, op 8). -/
def tokReply (own part r : Nat) (w : TokWait) (status : Nat) : Packet :=
  { op := 8, srcPkg := own, dstPkg := w.pkg, srcPart := part, dstPart := w.part, ia := r * 2 ^ 21, engine := 0, seq := w.sp, sub := 0,
    status := status, launch := w.launch, rank := w.rank, data := [], poison := false }

/-- The port over which a partition reaches a package: the one over which its last packet came, else that of the first valid PEER entry that
names it (log 17). -/
def State.portTo (s : State) (p : Part) (pkg : Nat) : Nat :=
  match KMap.find pkg s.heard with
  | some n => n.1
  | none =>
    ((((List.range 16).drop 1).find? fun w => decide (bits (p.peerWord w 0) 63 1 = 1) && decide (bits (p.peerWord w 0) 32 16 = pkg)).map fun w =>
      bits (p.peerWord w 0) 28 4).getD 0

/-- The running contexts of a launch's rank hear of a token they hold or are refused. -/
def State.tokHeard (s : State) (launch rank region v : Nat) : State :=
  { s with sps := s.sps.map fun e => (e.1, { e.2 with
      ctx := e.2.ctx.map fun c => if c.launch = launch ∧ c.rank = rank then { c with tokens := KMap.ins region v c.tokens } else c,
      victims := e.2.victims.map fun v0 => if v0.ctx.launch = launch ∧ v0.ctx.rank = rank then { v0 with ctx := { v0.ctx with tokens := KMap.ins region v v0.ctx.tokens } } else v0 }) }

/-- The token of region `r` is given up at its home, and the oldest waiter of the region becomes the holder (15 R390); `false`:
the context does not hold it. -/
def State.tokGive (s : State) (part r : Nat) (c : TokCtx) : Bool × State :=
  match s.part part with
  | none => (false, s)
  | some p =>
    match s.tokEntry p r with
    | none => (false, s)
    | some e =>
      if !e.heldBy c then (false, s) else
      match p.tokWait.find? (·.region = r) with
      | none => (true, s.tokSet e none)
      | some w =>
        let s1 := (s.tokSet e (some ⟨w.pkg, w.part, w.rank, w.launch⟩)).setPart part { p with tokWait := dropFirst (fun x => decide (x.region = r)) p.tokWait }
        if w.pkg = s.dev.pkg ∧ w.part = part then (true, s1.tokHeard w.launch w.rank r 1)
        else (true, s1.sendPacket (s.portTo p w.pkg) (tokReply s.dev.pkg part r w 0))

/-- A waiting request is withdrawn. -/
def State.tokWithdraw (s : State) (part r : Nat) (c : TokCtx) : State :=
  s.modPart part fun p => { p with tokWait := dropFirst (fun w => decide (w.region = r) && decide (w.pkg = c.pkg) && decide (w.launch = c.launch) && decide (w.rank = c.rank)) p.tokWait }

/-! ## Tokens as a context sees them -/

/-- The IA of `va`, if it lies in an imported segment of the launch (07 R183, 10 R271). -/
def Launch.importedIa (l : Launch) (va : Nat) : Option Nat :=
  match l.segAt va with
  | none => none
  | some (_, g) => if g.kind = 1 ∧ g.valid then some (g.ia + (va - g.base)) else none

/-- The context as the tokens name it. -/
def State.tokName (s : State) (c : Ctx) : TokCtx := ⟨s.dev.pkg, s.partOf c, c.rank, c.launch⟩

/-- A token packet from a context to the home of an IA in a window: op 7, with what is asked in the sequence field, which the
spec gives no other use there (0 request, 1 release, 2 withdrawal; log 13). -/
def tokPacket (own : TokCtx) (pkg part ia what sp : Nat) : Packet :=
  { op := 7, srcPkg := own.pkg, dstPkg := pkg, srcPart := own.part, dstPart := part, ia := ia, engine := sp, seq := what, sub := 0, status := 0,
    launch := own.launch, rank := own.rank, data := [], poison := false }

/-- A token message of a context of SP `k` about the region of IA `ia`, in a window. -/
def State.tokSend (s : State) (k : Nat) (c : Ctx) (ia what : Nat) : State :=
  match (s.part (s.partOf c)).bind (·.route ia) with
  | none => s
  | some (port, pkg, part, a) =>
    let p := (s.part (s.partOf c)).getD Part.init
    let n := (s.portFor p port pkg).getD port
    s.sendOver n 8 (s.windowAddr p ia n pkg) (s.now + fabricToArith (12 + routerHops k)) (tokPacket (s.tokName c) pkg part a what k)

/-- What a context notes of an answer at cycle `now`: 0 it waits, 1 it holds the token, 2 the region is unchecked, 16 + t refused
at cycle t; one that met an absent page asks again on the next cycle. -/
def TokAnswer.note (now : Nat) : TokAnswer → Nat
  | .ok => 1
  | .unchecked => 2
  | .waits => 0
  | .refused => 16 + now
  | .absent => 16 + (now - fabricToArith 0x1000)

/-- The context of SP `k` asks for the region of IA `ia`, unless it holds it or has asked (15 R390). -/
def State.tokWant (s : State) (k ia : Nat) : State :=
  s.withCtx k fun c =>
    let r := ia / 2 ^ 21
    match KMap.find r c.tokens with
    | some _ => s
    | none =>
      if iaWindow ia = 0 then
        let q := s.tokAsk (s.partOf c) r (s.tokName c) k
        q.2.modCtx k fun c => { c with tokens := KMap.ins r (q.1.note q.2.now) c.tokens }
      else (s.tokSend k c ia 0).modCtx k fun c => { c with tokens := KMap.ins r 0 c.tokens }

/-- The context holds the token of the region of `ia`, as far as it knows, or has been told that the region is unchecked. -/
def Ctx.holds (c : Ctx) (ia : Nat) : Bool :=
  decide (KMap.find (ia / 2 ^ 21) c.tokens = some 1) || decide (KMap.find (ia / 2 ^ 21) c.tokens = some 2)

/-- What the context noted of unchecked regions is forgotten: nothing is held there (15 R390). -/
def Ctx.forgetUnchecked (c : Ctx) : Ctx := { c with tokens := c.tokens.filter fun e => decide (e.2 ≠ 2) }

/-! ## Descriptors of record commands (07 R161) -/

/-- A command refuses to move records through the descriptor. `mem`: the command touches memory; `copy`: it is a copy. -/
def Desc.refused (c : Ctx) (d : Desc) (mem copy : Bool) : Bool :=
  let scaledFmt := decide (d.fmt = 0) || decide (d.fmt = 11) || decide (d.fmt = 12) || decide (d.fmt = 13)
  let blk := d.scale % 8
  match c.descPolder d with
  | none => true
  | some p =>
    decide (d.fmt = 15) || (mem && decide (13 ≤ d.mfmt)) || decide (d.recn = 0) || (decide (d.fmt = 13) && decide (d.recn % 4 ≠ 0))
      || (decide (p.kind ≠ 0) && decide (d.tile = 0)) || decide (5 ≤ blk) || decide (d.scale / 8 % 2 = 1)
      || (decide (1 ≤ blk) && scaledFmt && (c.polder (d.scale / 16 % 64)).isNone)
      || (decide (1 ≤ blk) && scaledFmt && copy && decide (d.fmt ≠ d.mfmt))

end Sys2Proof.Machine
end

