-- ==== Sys2Proof/Machine/Kcopy.lean ====
section
/-! DEFINITION. KCOPY (10 R271). -/

namespace Sys2Proof.Machine

/-- The IA whose token a KCOPY needs: that of DST, in an imported segment. -/
def kcopyToken (s : State) (c : Ctx) (d : Desc) : Option Nat := (s.launchOf c.launch).bind fun l => l.importedIa d.dst

/-- The context may start a copy to or from DST: it holds the token of its region, or the region is one of its own partition that is
unchecked, for which there is no token to hold (10 R271; 15 R389, R390). -/
def kcopyFree (s : State) (c : Ctx) (d : Desc) : Bool :=
  match kcopyToken s c d with
  | none => true
  | some ia => c.holds ia || (decide (iaWindow ia = 0) && ((s.part (s.partOf c)).bind fun p => s.tokEntry p (ia / 2 ^ 21)).isNone)

/-- KCOPY: a copy joins the kernel copy queue, with the descriptor as its port stands; where the token wait has expired, TOKW
is set and none starts (10 R271; the stalls are BUNDLE_ISSUE's). -/
def execKcopy (p sn dir _limit : Nat) (s : State) : Host.Outcome State Fault Refusal :=
  .next (s.uniform p fun _ c =>
    let d := c.kern.port sn
    if kcopyFree s c d then
      { c.forgetUnchecked with kern := { c.kern with kcq := c.kern.kcq ++ [⟨d, Desc.init, dir, c.kern.kcN⟩], kcN := c.kern.kcN + 1 } }
    else c.raiseIn 0 fTOKW)

end Sys2Proof.Machine
end

