-- ==== Sys2Proof/Machine/Matrix.lean ====
section
/-! DEFINITION. The matrix unit (11): the M-slot instructions, the micro-ops, the landing of accumulator updates, and the
start and the retirement of routines. -/

namespace Sys2Proof.Machine

/-! ## Tiles and calls -/

/-- Mode, guard and watermark of a tile; an unlisted watermark is 32 (11 R276). -/
def Matrix.modeOf (m : Matrix) (t : Nat) : Nat := KMap.get 0 m.mode t
def Matrix.guardOf (m : Matrix) (t : Nat) : Nat := KMap.get 0 m.guard t
def Matrix.wmOf (m : Matrix) (t : Nat) : Nat := KMap.get 32 m.wm t

/-- The tiles of a call (11 R282). -/
def MCallE.tiles (e : MCallE) : List Nat := (List.range e.span).map fun i => (e.tile + i) % 4

/-- The calls that have not retired: waiting to retire, running, and queued. -/
def Matrix.outstanding (m : Matrix) : List MCallE :=
  m.retiring.map (·.call) ++ (match m.run with | none => [] | some r => [r.call]) ++ m.queue

/-- An outstanding call names tile `t`. -/
def Matrix.names (m : Matrix) (t : Nat) : Bool := m.outstanding.any fun e => e.tiles.contains t

/-- An outstanding call younger than call `id` names tile `t` (11 R290). -/
def Matrix.younger (m : Matrix) (id t : Nat) : Bool := m.outstanding.any fun e => decide (id < e.id) && e.tiles.contains t

/-- A call enters the queue, and the watermark of every tile of its span becomes 0 (11 R283). It may start two cycles after
its issue. -/
def Ctx.enqueueCall (c : Ctx) (now : Nat) (e : MCallE) : Ctx :=
  let m := c.matrix
  let e := { e with id := m.nextCall, m := c.kern.m, bundle := c.kern.pc, exposed := c.kern.exposed, from_ := now + 2 }
  { c with matrix := { m with queue := m.queue ++ [e], nextCall := m.nextCall + 1,
                              wm := e.tiles.foldl (fun w t => KMap.ins t 0 w) m.wm } }

/-- A call as the M slot names it. -/
def MCallE.mk0 (zero : Bool) (routine tile span a b : Nat) (keep spb : Bool) : MCallE :=
  { id := 0, zero := zero, routine := routine, tile := tile, span := span, a := a, b := b, keep := keep, spb := spb, m := [],
    bundle := 0, exposed := false, from_ := 0 }

/-- MCALL (11 R283). -/
def execMcall (p routine tile a b flags : Nat) (s : State) : Host.Outcome State Fault Refusal :=
  .next (s.uniform p fun _ c =>
    c.enqueueCall s.now (MCallE.mk0 false routine tile (flags / 4 + 1) a b (flags % 2 = 1) (flags / 2 % 2 = 1)))

/-- MZERO (11 R284). -/
def execMzero (p tile : Nat) (s : State) : Host.Outcome State Fault Refusal :=
  .next (s.uniform p fun _ c => c.enqueueCall s.now (MCallE.mk0 true 0 tile 1 0 0 false false))

/-- MMODE (11 R285). -/
def execMmode (p tile v : Nat) (s : State) : Host.Outcome State Fault Refusal :=
  .next (s.uniform p fun _ c => { c with matrix := { c.matrix with mode := KMap.ins tile v c.matrix.mode } })

/-- MFENCE: its bundle issues once the unit is empty (11 R286; the stall is BUNDLE_ISSUE's). -/
def execMfence (_p : Nat) (s : State) : Host.Outcome State Fault Refusal := .next s

/-- MWM: the watermark guard of a tile (11 R287). -/
def execMwm (p tile v : Nat) (s : State) : Host.Outcome State Fault Refusal :=
  .next (s.uniform p fun _ c => { c with matrix := { c.matrix with guard := KMap.ins tile v c.matrix.guard } })

/-! ## The microprogram store (11 R296, R303) -/

/-- A micro-op word from its code and its fields. -/
def microWord (code fields : Nat) : Dword := BitVec.ofNat 64 (code * 2 ^ 58 + fields)

/-- The words of the library (11 R303). Entry 0 as printed; entries 1 to 6 have the printed effect and cycle counts (log 7). -/
def libraryWords : Nat → List Dword
  | 0 => [microWord 0x0C 0, microWord 0x08 0x413FF, microWord 1 0, microWord 1 1, microWord 1 2, microWord 1 0xF, microWord 0x0E 0]
  | 1 => [microWord 0x0C 0, microWord 0x08 0x413FF, microWord 1 0, microWord 1 1, microWord 1 2, microWord 1 0xF, microWord 0x0E 0]
  | 2 => [microWord 0x0C 0, microWord 0x08 0x60004, microWord 0x08 (1018 + 0x1000 + 1 * 2 ^ 16), microWord 1 0xC, microWord 9 0x40,
          microWord 4 0, microWord 4 1, microWord 5 1, microWord 0x0E 0]
  | 3 => [microWord 0x0C 0, microWord 0x08 (454 + 0x1000 + 5 * 2 ^ 16), microWord 0x0A 0, microWord 2 0, microWord 2 1, microWord 2 2,
          microWord 2 0xF, microWord 0x0E 0]
  | 4 => [microWord 0x0C 8, microWord 5 0, microWord 0x0B 0, microWord 0x0B 1, microWord 0x0B 2, microWord 0x0B 3, microWord 0x0E 0]
  | 5 => [microWord 0x0B 4, microWord 0x0B 5, microWord 0x0B 6, microWord 0x0B 7, microWord 0x0E 0]
  | 6 => [microWord 0x0C 8, microWord 5 0, microWord 0x0B 8, microWord 0x0B 9, microWord 0x0B 10, microWord 0x0B 11, microWord 0x0E 0]
  | _ => []

/-- MZERO as a routine (11 R284). -/
def zeroWords : List Dword := [microWord 7 0, microWord 7 1, microWord 7 2, microWord 7 3, microWord 0x0E 0]

/-- The words of routine `n` on an SP, none where the table entry is empty: what MLOAD or the launch engine put there, else
the library's. -/
def Sp.routineWords (p : Sp) (n : Nat) : Option (List Dword) :=
  match KMap.find n p.rtab with
  | some (start, len) => if len = 0 then none else some ((List.range len).map fun i => KMap.get 0 p.ustore (start + i))
  | none => if n ≤ 6 then some (libraryWords n) else none

/-! ## Operands (11 R278 to R281) -/

/-- The k-chunk size of a format, 0 where the unit refuses it. -/
def chunkK : Nat → Nat
  | 0 => 16 | 8 => 8 | 9 => 8 | 10 => 2 | 11 => 16 | 12 => 32 | _ => 0

/-- The checks of MCALL on its descriptors and modes (11 R283). -/
def mcallLegal (p : Sp) (c : Ctx) (routine tile a b flags : Nat) : Bool :=
  let d := c.kern.port a; let e := c.kern.port b; let k := chunkK d.fmt
  let spb := decide (flags / 2 % 2 = 1); let span := flags / 4 + 1
  let ringOk := fun (x : Desc) => (c.descPolder x).any (·.kind ≠ 0)
  let modes := (List.range span).map fun i => c.matrix.modeOf ((tile + i) % 4)
  (p.routineWords routine).isSome && ringOk d && ringOk e && decide (d.fmt = e.fmt) && decide (k ≠ 0)
    && decide (d.recBytes = 16 * 32 * k * fmtBytes d.fmt)
    && decide (e.recBytes = (if spb then 4 else 1) * 32 * k * fmtBytes d.fmt)
    && modes.all (fun m => decide (m = 0) || (decide (d.fmt = 0) && !d.scaled && !e.scaled))
    && ((decide (d.fmt = 0) || decide (d.fmt = 11) || decide (d.fmt = 12)) || (decide (d.scale % 8 = 0) && decide (e.scale % 8 = 0)) || (!d.scaled && !e.scaled))
    && !(spb && e.scaled)

/-- Whether record `x` of a ring may be read now, as it lies below the head plus what is available, and if so whether it is one that a closed
queue will never have (11 R281). -/
def recordReady (d : Desc) (p : Polder) (x : Nat) : Option Bool :=
  if 2 ^ 31 ≤ dif32 x ((p.head + availRecs d p) % 2 ^ 32) then some false
  else if p.kind = 2 ∧ p.eos then some true else none

/-- The value of the element at byte `b` of record `x`, with the flags of its decode; zero when the record is missing. -/
def recordVal (m : KMap Row) (c : Ctx) (d : Desc) (p : Polder) (missing : Bool) (x b : Nat) : WithFlags Val :=
  if missing then (.fin false 0 0, 0) else
  let eb := fmtBytes d.fmt
  elemVal m c d (x * d.recn + b / eb) (polNum m p (x * d.recBytes + b) eb)

/-- The place in an A record of cluster `cl`'s element (i, k) (11 R279). -/
def aByte (kc eb cl i k : Nat) : Nat := let lb := (i * kc + k) * eb; (16 * (lb / 128) + cl) * 128 + lb % 128

/-- The exact sum of a chunk as an accumulator mode takes it: a value with its flags (05 R127, 11 R277). -/
def modeSum (mode : Nat) (l : List (Val × Val)) : WithFlags Val :=
  if mode = 0 then chunkSum l else (Val.ofInt (l.foldl (fun a p => a + p.1.toInt * p.2.toInt) 0), 0)

/-! ## Running (11 R288, R298 to R302) -/

/-- Cycles of micro-ops, beyond which a routine is in error (11 R301). -/
abbrev microLimit : Nat := 4096

/-- An error of the routine: it stops, kernel event ILLEGAL is raised at the MCALL's bundle with SLOT 5, the kernel ends,
the queue is emptied and every watermark becomes 32 (11 R302). -/
def Ctx.routineError (c : Ctx) (bundle member : Nat) : Ctx :=
  let c1 := (c.recordEvent 2 5 member 0 (bundle - c.cbase.toNat)).killKernel 2
  { c1 with matrix := { c1.matrix with queue := [], run := none, retiring := [], upd := [], wm := [] } }

/-- The error of the routine that runs at SP `k`; in a fused tower the event reaches every member (03 R77). -/
def State.routineError (s : State) (k : Nat) : State :=
  s.withCtx k fun c =>
    match c.matrix.run with
    | none => s
    | some r => (s.issueGroup k).foldl (fun t m => t.modCtx m fun c => c.routineError r.call.bundle (s.member k)) s

/-- The next word after the words up to number `last` have executed: the innermost open loop whose body ends there goes
round or closes (11 R300). -/
def microNext (last : Nat) : List MLoop → Nat × List MLoop
  | [] => (last + 1, [])
  | l :: ls =>
    if l.stop = last then
      if 1 < l.left then (l.start, { l with left := l.left - 1 } :: ls) else microNext last ls
    else (last + 1, l :: ls)

/-- The routine after a word: `last` is the last word that it has passed, `n` the cycles it took. -/
def Routine.pass (r : Routine) (last n : Nat) : Routine :=
  let q := microNext last r.loops
  { r with pc := q.1, loops := q.2, cycles := r.cycles + n, wait := n - 1 }

/-- A micro-op of the routine that runs on the current SP. The body answers the new context, or nothing for an error of
the routine; a routine that has used up its cycles is in error at the next one, and not while it waits (11 R301). -/
def microRun (s : State) (f : Sp → Ctx → Routine → Option (Ctx × Routine)) : State :=
  s.withCtx s.cur fun c =>
    match c.matrix.run with
    | none => s
    | some r =>
      match f (s.sp s.cur) c r with
      | none => s.routineError s.cur
      | some q =>
        if microLimit ≤ r.cycles ∧ q.2 ≠ r then s.routineError s.cur else
        s.setCtx s.cur { q.1 with matrix := { q.1.matrix with run := some q.2 } }

/-- The row group and the tile that an update names (11 R299). -/
def Routine.group (r : Routine) (g : Nat) : Nat := (r.gbase + g) % 4
def Routine.selTile (r : Routine) : Nat := (r.call.tile + r.sel) % 4

/-- An update of a row group is queued to land 6 cycles after the micro-op's last cycle; one below the tile's watermark is
an error (11 R289, R290). -/
def accQueue (c : Ctx) (r : Routine) (g kind n : Nat) (sums : List (Nat × Nat × List Val)) (factor : BitVec 32) (flags : Nat) : Option Ctx :=
  let t := r.selTile; let row0 := 8 * r.group g
  let m := c.matrix
  if row0 < m.wmOf t then none
  else
    let u : AccUpd := ⟨5 + n, r.call.id, m.nextUpd, kind, m.modeOf t, r.call.exposed, t, row0, sums, factor, flags⟩
    some { c with matrix := { m with upd := m.upd ++ [u], nextUpd := m.nextUpd + 1 } }

/-- The sums of the 8 rows of a row group in every cluster. `at_` gives the products of cluster, row and column. -/
def groupSums (mode row0 : Nat) (at_ : Nat → Nat → Nat → List (WithFlags Val × WithFlags Val)) : List (Nat × Nat × List Val) × Nat :=
  let cells := (List.range 16).map fun cl => (List.range 8).map fun i =>
    (cl, row0 + i, (List.range 32).map fun n =>
      let ps := at_ cl (row0 + i) n
      let r := modeSum mode (ps.map fun p => (p.1.1, p.2.1))
      (r.1, flagOr r.2 (flagsOf (ps.map fun p => flagOr p.1.2 p.2.2))))
  (cells.flatten.map fun e => (e.1, e.2.1, e.2.2.map (·.1)), flagsOf (cells.flatten.map fun e => flagsOf (e.2.2.map (·.2))))

/-- KSTEP: one dense k-chunk into a row group (11 R299). It waits for its records, which takes no micro-op cycle. -/
def execKstep (g na nb noacc : Nat) (s : State) : Host.Outcome State Fault Refusal :=
  .next (microRun s fun p c r =>
    let d := c.kern.port r.call.a; let e := c.kern.port r.call.b
    match c.descPolder d, c.descPolder e with
    | some pa, some pb =>
      if r.call.spb then none else
      match recordReady d pa r.curA, recordReady e pb r.curB with
      | some ma, some mb =>
        let kc := chunkK d.fmt; let eb := fmtBytes d.fmt
        let row0 := 8 * r.group g; let mode := c.matrix.modeOf r.selTile
        let bv := (List.range kc).map fun k => (List.range 32).map fun n => recordVal p.srf c e pb mb r.curB ((k * 32 + n) * eb)
        let sums := groupSums mode row0 fun cl i n => (List.range kc).map fun k =>
          (recordVal p.srf c d pa ma r.curA (aByte kc eb cl i k), (bv.getD k []).getD n (.fin false 0 0, 0))
        let fl := flagOr sums.2 (flagIf (ma || mb) fOVRN)
        let set := decide (noacc = 1) || (r.firstSet && decide (r.highA = 0 ∨ r.highA = r.curA + 1))
        (accQueue c r g (if set then 1 else 0) 1 sums.1 0 fl).map fun c1 =>
          (c1, { r with curA := r.curA + na, curB := r.curB + nb, highA := max r.highA (r.curA + 1), highB := max r.highB (r.curB + 1) }.pass r.pc 1)
      | _, _ => some (c, r)
    | _, _ => some (c, r))

/-- Rows of the header and bitmap of a sparse block (11 R293). -/
def sparseHead (kc : Nat) : Nat := if kc = 32 then 3 else 2

/-- The present positions of column `n` in a bitmap of `2 K × 32` bits, each with the number of its value. -/
def presentOf (bmap kc n : Nat) : List (Nat × Nat) :=
  (List.range (2 * kc)).filterMap fun k =>
    let b := n * 2 * kc + k
    if bmap / 2 ^ b % 2 = 1 then some (k, popcount b bmap) else none

/-- BMCHK: the header and bitmap of the B record at the cursor (11 R294). -/
def execBmchk (s : State) : Host.Outcome State Fault Refusal :=
  .next (microRun s fun p c r =>
    let e := c.kern.port r.call.b
    match c.descPolder e with
    | none => some (c, r)
    | some pb =>
      if !r.call.spb then none else
      match recordReady e pb r.curB with
      | none => some (c, r)
      | some miss =>
        let kc := chunkK e.fmt; let base := r.curB * e.recBytes
        let len := if miss then 0 else polNum p.srf pb base 4
        let bm := if miss then 0 else polNum p.srf pb (base + 128) (8 * kc)
        let fl := flagOr (flagIf (decide (len ≠ popcount (64 * kc) bm)) fSPLEN) (flagIf miss fOVRN)
        some (c.orKstat fl, { r with checked := some r.curB, bmap := bm, blen := len, highB := max r.highB (r.curB + 1) }.pass r.pc 1))

/-- KSTEPS: one sparse block, two A records, into a row group (11 R295). -/
def execKsteps (g na nb noacc : Nat) (s : State) : Host.Outcome State Fault Refusal :=
  .next (microRun s fun p c r =>
    let d := c.kern.port r.call.a; let e := c.kern.port r.call.b
    match c.descPolder d, c.descPolder e with
    | some pa, some pb =>
      if !r.call.spb || decide (r.checked ≠ some r.curB) then none else
      match recordReady d pa r.curA, recordReady d pa (r.curA + 1), recordReady e pb r.curB with
      | some m0, some m1, some mb =>
        let kc := chunkK d.fmt; let eb := fmtBytes d.fmt
        let row0 := 8 * r.group g; let mode := c.matrix.modeOf r.selTile
        let cols := (List.range 32).map fun n => (presentOf r.bmap kc n).map fun q =>
          (q.1, if r.blen ≤ q.2 then (Val.fin false 0 0, 0) else recordVal p.srf c e pb mb r.curB (sparseHead kc * 128 + q.2 * eb))
        let sums := groupSums mode row0 fun cl i n => (cols.getD n []).map fun q =>
          (if q.1 < kc then recordVal p.srf c d pa m0 r.curA (aByte kc eb cl i q.1)
           else recordVal p.srf c d pa m1 (r.curA + 1) (aByte kc eb cl i (q.1 - kc)), q.2)
        let n := if cols.all fun l => decide (l.length ≤ kc) then 1 else 2
        let fl := flagOr sums.2 (flagIf (m0 || m1 || mb) fOVRN)
        -- its second cycle would be the one beyond the limit
        if microLimit < r.cycles + n ∧ r.cycles < microLimit then some (c, { r with cycles := microLimit }) else
        (accQueue c r g (if noacc = 1 then 1 else 0) n sums.1 0 fl).map fun c1 =>
          (c1, { r with curA := r.curA + 2 * na, curB := r.curB + nb, highA := max r.highA (r.curA + 2), highB := max r.highB (r.curB + 1) }.pass r.pc n)
      | _, _, _ => some (c, r)
    | _, _ => some (c, r))

/-- The count of RPOP and RPEEK: a field, or a k register. -/
def ringCount (r : Routine) (reg n : Nat) : Nat := if reg = 0 then n else (KMap.get 0 r.k n).toNat

/-- RPOP: the head of a ring moves on, and the cursor with it; it waits for the records (11 R299). On a closed queue it takes
what remains and sets OVRN. -/
def execRpop (ring reg n : Nat) (s : State) : Host.Outcome State Fault Refusal :=
  .next (microRun s fun _ c r =>
    let d := c.kern.port (if ring = 0 then r.call.a else r.call.b)
    let cnt := ringCount r reg n
    match c.descPolder d with
    | none => some (c, r)
    | some p =>
      let av := availRecs d p
      if av < cnt ∧ ¬(p.kind = 2 ∧ p.eos) then some (c, r) else
      let head := (p.head + min cnt av) % 2 ^ 32
      let c1 := (c.modPolder (d.polder.getD 0) fun p => { p with head := head }).orKstat (flagIf (decide (av < cnt)) fOVRN)
      let move := fun cur => if dif32 head cur < 2 ^ 31 then head else cur
      some (c1, (if ring = 0 then { r with curA := move r.curA } else { r with curB := move r.curB }).pass r.pc 1))

/-- RPEEK: the cursor is set to HEAD + n (11 R299). -/
def execRpeek (ring reg n : Nat) (s : State) : Host.Outcome State Fault Refusal :=
  .next (microRun s fun _ c r =>
    let d := c.kern.port (if ring = 0 then r.call.a else r.call.b)
    match c.descPolder d with
    | none => some (c, r)
    | some p =>
      let cur := (p.head + ringCount r reg n) % 2 ^ 32
      some (c, (if ring = 0 then { r with curA := cur } else { r with curB := cur }).pass r.pc 1))

/-- ROWG: the base row group (11 R299). -/
def execRowg (inc g : Nat) (s : State) : Host.Outcome State Fault Refusal :=
  .next (microRun s fun _ c r => some (c, { r with gbase := if inc = 1 then (r.gbase + 1) % 4 else g }.pass r.pc 1))

/-- ACCSEL: the selected tile of the span (11 R299). -/
def execAccsel (n : Nat) (s : State) : Host.Outcome State Fault Refusal :=
  .next (microRun s fun _ c r => if r.call.span ≤ n then none else some (c, { r with sel := n }.pass r.pc 1))

/-- ACCZ: a row group becomes 0 (11 R299). -/
def execAccz (g : Nat) (s : State) : Host.Outcome State Fault Refusal :=
  .next (microRun s fun _ c r => (accQueue c r g 5 1 [] 0 0).map fun c1 => (c1, r.pass r.pc 1))

/-- LOOPK: the next `body` words run `max`, or min(k, max), times (11 R299, R300). -/
def execLoopk (max_ reg k body : Nat) (s : State) : Host.Outcome State Fault Refusal :=
  .next (microRun s fun _ c r =>
    let cnt := if reg = 0 then max_ else min (KMap.get 0 r.k k).toNat max_
    if r.words.length ≤ r.pc + body then none
    else if cnt = 0 ∨ body = 0 then some (c, r.pass (r.pc + body) 1)
    else if 2 ≤ r.loops.length then none
    else some (c, { r with pc := r.pc + 1, loops := ⟨cnt, r.pc + 1, r.pc + body⟩ :: r.loops, cycles := r.cycles + 1 }))

/-- The watermark raises of a routine that are due: no earlier update of rows below them is in flight. One whose tile a
younger call names is dropped (11 R290). -/
def raiseWms (m : Matrix) (r : Routine) : Matrix × Routine :=
  let due := fun (w : WmWait) => !(m.upd.any fun u =>
    decide (u.owner = r.call.id) && decide (u.tile = w.tile) && decide (u.no < w.before) && decide (u.row0 < w.rows))
  let m1 := (r.wms.filter due).foldl (fun (m : Matrix) w =>
    if m.younger r.call.id w.tile then m else { m with wm := KMap.ins w.tile (max (m.wmOf w.tile) w.rows) m.wm }) m
  (m1, { r with wms := r.wms.filter fun w => !due w })

/-- WMSET: the watermark of the selected tile rises once the earlier updates below it have landed (11 R290, R299). -/
def execWmset (n g : Nat) (s : State) : Host.Outcome State Fault Refusal :=
  .next (microRun s fun _ c r =>
    if 32 < n then none
    else
      let rows := if g = 1 then 8 * (r.gbase + 1) else n
      let q := raiseWms c.matrix { r with wms := r.wms ++ [WmWait.mk r.selTile rows c.matrix.nextUpd] }
      some ({ c with matrix := q.1 }, q.2.pass r.pc 1))

/-- EPI: a function of every accumulator of a row group (11 R299). -/
def execEpi (g fn k : Nat) (s : State) : Host.Outcome State Fault Refusal :=
  .next (microRun s fun _ c r =>
    if fn = 3 then none
    else (accQueue c r g (2 + fn) 1 [] (KMap.get 0 r.k k) 0).map fun c1 => (c1, r.pass r.pc 1))

/-- PARM: half of a captured m register (11 R299). -/
def execParm (kd m half : Nat) (s : State) : Host.Outcome State Fault Refusal :=
  .next (microRun s fun _ c r =>
    let v := (KMap.get 0 r.call.m m).toNat / 2 ^ (32 * half)
    some (c, { r with k := KMap.ins kd (BitVec.ofNat 32 v) r.k }.pass r.pc 1))

/-- JMP: forwards, inside the routine and inside the body of every open loop (11 R299, R300). -/
def execJmp (d : Nat) (s : State) : Host.Outcome State Fault Refusal :=
  .next (microRun s fun _ c r =>
    if r.words.length ≤ r.pc + d ∨ r.loops.any (fun l => decide (l.stop < r.pc + d)) then none
    else some (c, { r with pc := r.pc + d, cycles := r.cycles + 1 }))

/-- RET: the routine's words end (11 R288); it retires when its results have landed. -/
def execRet (s : State) : Host.Outcome State Fault Refusal :=
  .next (s.withCtx s.cur fun c =>
    match c.matrix.run with
    | none => s
    | some r =>
      if microLimit ≤ r.cycles then s.routineError s.cur else
      s.setCtx s.cur { c with matrix := { c.matrix with run := none, retiring := c.matrix.retiring ++ [{ r with done := true, cycles := r.cycles + 1 }] } })

/-! ## Landing, start and retirement -/

/-- A new accumulator value and its flags (11 R289, R299; 05 R127). -/
def accNew (u : AccUpd) (acc : Nat) (sum : Val) : WithFlags Nat :=
  let f := fmtF32
  match u.kind with
  | 0 => if u.mode = 0 then fAdd f 0 u.exposed (f.decode (if u.exposed then f.flushIn acc else acc)) sum else (wrap 32 ((acc : Int) + sum.toInt), 0)
  | 1 => if u.mode = 0 then f.ofVal 0 u.exposed sum else (wrap 32 sum.toInt, 0)
  | 2 => fMul f 0 u.exposed (f.decode (if u.exposed then f.flushIn acc else acc)) (f.decode u.factor.toNat)
  | 3 =>
    let a := if u.exposed then f.flushIn acc else acc
    match f.decode a with
    | .nan sig => (a, flagIf sig fIV)
    | v => (if valBefore v (.fin false 0 0) then 0 else a, 0)
  | 4 => fMul f 0 u.exposed (Val.ofInt (sint 32 acc)) (f.decode u.factor.toNat)
  | _ => (0, 0)

/-- One row of an update. -/
def accRow (u : AccUpd) (row : Nat) (sums : List Val) : WithFlags Nat :=
  let rs := ((rowElems 4 row).zip (List.range 32)).map fun e => accNew u e.1 (sums.getD e.2 (.fin false 0 0))
  (packElems 32 (rs.map (·.1)), flagsOf (rs.map (·.2)))

/-- An update lands in every cluster. -/
def Ctx.landAcc (c : Ctx) (u : AccUpd) : Ctx :=
  let rows : List (Nat × Nat × List Val) :=
    if u.kind = 0 ∨ u.kind = 1 then u.sums
    else ((List.range 16).map fun cl => (List.range 8).map fun i => (cl, u.row0 + i, [])).flatten
  rows.foldl (fun c e =>
    let key := e.1 * 128 + 32 * u.tile + e.2.1
    let r := accRow u (KMap.get 0 c.v key).toNat e.2.2
    { c.orKstat r.2 with v := KMap.ins key (BitVec.ofNat 1024 r.1) c.v }) (c.orKstat u.flags)

/-- Every routine's due raises. -/
def Matrix.settleWms (m : Matrix) : Matrix :=
  let m1 := match m.run with
    | none => m
    | some r => let q := raiseWms m r; { q.1 with run := some q.2 }
  m1.retiring.foldl (fun (m : Matrix) r =>
    let q := raiseWms m r
    { q.1 with retiring := updFirst (fun x => decide (x.call.id = r.call.id)) (fun _ => q.2) q.1.retiring }) m1

/-- ACC_UPDATE_LANDING: one cycle passes for the updates of an SP; those that are due land, in order (11 R289). -/
def execAccUpdateLanding (sp : Nat) (s : State) : Host.Outcome State Fault Refusal :=
  .next (s.modCtx sp fun c =>
    let us := c.matrix.upd.map fun u => { u with left := u.left - 1 }
    let c1 := { c with matrix := { c.matrix with upd := us.filter fun u => decide (u.left ≠ 0) } }
    let c2 := (us.filter fun u => decide (u.left = 0)).foldl Ctx.landAcc c1
    { c2 with matrix := c2.matrix.settleWms })

/-- A ring's head after a routine that has read up to record `high - 1` (11 R288). -/
def Ctx.popRead (c : Ctx) (sn high : Nat) : Ctx :=
  if high = 0 then c else
  match (c.kern.port sn).polder with
  | none => c
  | some h => c.modPolder h fun p => if dif32 high p.head < 2 ^ 31 then { p with head := high % 2 ^ 32 } else p

/-- A routine that has executed RET retires, once its results have landed: it pops its rings, unless KEEP, and the watermarks of its tiles
become 32, unless a younger call names them (11 R288). -/
def Ctx.retireRoutine (c : Ctx) (r : Routine) : Ctx :=
  if c.matrix.upd.any fun u => decide (u.owner = r.call.id) then c else
  let c1 := if r.call.keep || r.call.zero then c else (c.popRead r.call.a r.highA).popRead r.call.b r.highB
  let m := { c1.matrix with retiring := c1.matrix.retiring.filter fun x => decide (x.call.id ≠ r.call.id) }
  { c1 with matrix := r.call.tiles.foldl (fun (m : Matrix) t =>
      if m.younger r.call.id t then m else { m with wm := KMap.ins t 32 m.wm }) m }

/-- ROUTINE_RETIRE: the routines of an SP that can retire do, the oldest first (11 R288). -/
def execRoutineRetire (sp : Nat) (s : State) : Host.Outcome State Fault Refusal :=
  .next (s.modCtx sp fun c => c.matrix.retiring.foldl Ctx.retireRoutine c)

/-- The start of a routine: registers 0, cursors at the heads of its rings (11 R280, R298). -/
def Routine.start (p : Sp) (c : Ctx) (e : MCallE) : Routine :=
  let head := fun sn => ((c.descPolder (c.kern.port sn)).map (·.head)).getD 0
  { call := e, words := if e.zero then zeroWords else (p.routineWords e.routine).getD [], pc := 0, k := [], loops := [], gbase := 0, sel := 0,
    curA := head e.a, curB := head e.b, highA := 0, highB := 0, checked := none, bmap := 0, blen := 0, wms := [], cycles := 0, wait := 0,
    done := false, firstSet := !e.zero && decide (e.routine = 1) && (KMap.find 1 p.rtab).isNone }

/-- CALL_QUEUE_START: the oldest entry starts when no routine's words run and its cycle has come; a unit that is draining for
a pre-emption starts none (11 R283, R304). -/
def execCallQueueStart (sp : Nat) (s : State) : Host.Outcome State Fault Refusal :=
  .next (s.modCtx sp fun c =>
    match c.matrix.run, c.matrix.queue with
    | none, e :: rest =>
      if decide (e.from_ ≤ s.now) && c.matrix.drain.isNone then
        { c with matrix := { c.matrix with queue := rest, run := some (Routine.start (s.sp sp) c e) } }
      else c
    | _, _ => c)

end Sys2Proof.Machine
end

