-- ==== Sys2Proof/Machine/Special.lean ====
section
/-! DEFINITION. The special functions of 09 R243: each is evaluated in fixed point with `fixP` fraction bits, far below
the last place of every result format, and the result is rounded once. An irrational result carries `sticky`. -/

namespace Sys2Proof.Machine

/-- Fraction bits of the evaluation. -/
abbrev fixP : Nat := 400

/-- One in fixed point. -/
abbrev fixOne : Nat := 2 ^ 400

/-- `Σ ± u ^ (2 k + 1) / (2 k + 1)` for `n` terms, from the power `t` of the term `k`; `alt` alternates the signs. -/
def oddSeries (alt : Bool) (u2 : Nat) : Nat → Nat → Nat → Int → Int
  | 0, _, _, acc => acc
  | n + 1, k, t, acc =>
    let term : Int := ((t / (2 * k + 1) : Nat) : Int)
    oddSeries alt u2 n (k + 1) (t * u2 / fixOne) (if alt && decide (k % 2 = 1) then acc - term else acc + term)

/-- `atanh u` in fixed point, `0 ≤ u ≤ 1/3`. -/
def fixAtanh (u : Nat) : Int := oddSeries false (u * u / fixOne) 130 0 u 0

/-- `atan (1 / n)` in fixed point. -/
def fixAtanInv (n : Nat) : Int := let u := fixOne / n; oddSeries true (u * u / fixOne) 90 0 u 0

/-- ln 2. -/
def fixLn2 : Nat := (2 * fixAtanh (fixOne / 3)).toNat

/-- π, by Machin's formula. -/
def fixPi : Nat := (16 * fixAtanInv 5 - 4 * fixAtanInv 239).toNat

/-- `Σ y ^ k / k!` from `k` up, given the term `t` of index `k - 1`. -/
def expSeries (y : Nat) : Nat → Nat → Nat → Nat → Nat
  | 0, _, _, acc => acc
  | n + 1, k, t, acc => let t' := t * y / fixOne / k; expSeries y n (k + 1) t' (acc + t')

/-- `e ^ y - 1` in fixed point, `0 ≤ y < 1`. -/
def fixExpm1 (y : Nat) : Nat := expSeries y 100 1 fixOne 0

/-- The alternating series of sine (`k = 2`, `t = y`) and cosine (`k = 1`, `t = 1`). -/
def trigSeries (y2 : Nat) : Nat → Nat → Nat → Bool → Int → Int
  | 0, _, _, _, acc => acc
  | n + 1, k, t, plus, acc =>
    trigSeries y2 n (k + 2) (t * y2 / fixOne / (k * (k + 1))) (!plus) (if plus then acc + t else acc - t)

/-- `sin (π t)` for fixed-point `0 ≤ t ≤ 1/2`. -/
def fixSinPi (t : Nat) : Nat := let y := fixPi * t / fixOne; (trigSeries (y * y / fixOne) 60 2 y true 0).toNat

/-- `cos (π t)` for fixed-point `0 ≤ t ≤ 1/2`. -/
def fixCosPi (t : Nat) : Nat := let y := fixPi * t / fixOne; (trigSeries (y * y / fixOne) 60 1 fixOne true 0).toNat

/-- A finite result: sign, magnitude `m × 2 ^ e`, and whether the true magnitude lies a little above it. -/
structure Approx where
  neg : Bool
  m : Nat
  e : Int
  sticky : Bool
deriving DecidableEq, Repr

/-- A positive fixed-point value. -/
def Approx.fix (neg : Bool) (v : Nat) : Approx := ⟨neg, v, -(fixP : Int), true⟩

/-- A value just below `m × 2 ^ e`. -/
def Approx.below (neg : Bool) (m : Nat) (e : Int) : Approx := ⟨neg, m * fixOne - 1, e - fixP, true⟩

/-- The fixed-point value of `m × 2 ^ e`, exact for `-400 ≤ e`. -/
def toFix (m : Nat) (e : Int) : Nat := match e + fixP with
  | .ofNat n => m * 2 ^ n
  | .negSucc n => m / 2 ^ (n + 1)

/-- `1 ÷ x`. -/
def spRcp (neg : Bool) (m : Nat) (e : Int) : Approx :=
  let k := 64 + Nat.log2 m
  ⟨neg, 2 ^ k / m, -e - k, decide (2 ^ k % m ≠ 0)⟩

/-- `1 ÷ √x` for `0 < x`. -/
def spRsq (m : Nat) (e : Int) : Approx :=
  let m' := if e % 2 = 0 then m else 2 * m
  let e' := if e % 2 = 0 then e else e - 1
  let k := 64 + Nat.log2 m'
  let q := isqrt (2 ^ (2 * k) / m')
  ⟨false, q, -(e' / 2) - k, decide (q * q * m' ≠ 2 ^ (2 * k))⟩

/-- `2 ^ x`. -/
def spExp2 (neg : Bool) (m : Nat) (e : Int) : Approx :=
  if 0 ≤ e ∧ 16 ≤ e + Nat.log2 m then (if neg then ⟨false, 1, -100000, true⟩ else ⟨false, 1, 100000, true⟩)
  else if m % 2 ^ (-e).toNat = 0 then ⟨false, 1, signed neg (alignTo m e 0 / 2 ^ (-e).toNat), false⟩
  else
    let x := signed neg (toFix m e)
    let n := x / (fixOne : Int)
    let f := (x % (fixOne : Int)).toNat
    ⟨false, fixOne + fixExpm1 (f * fixLn2 / fixOne), n - fixP, true⟩

/-- `log2 x` for `0 < x`. -/
def spLog2 (m : Nat) (e : Int) : Approx :=
  let l := Nat.log2 m
  let n : Int := e + l
  if m = 2 ^ l then ⟨decide (n < 0), n.natAbs, 0, false⟩
  else
    let z := m * fixOne / 2 ^ l
    let frac := (2 * fixAtanh ((z - fixOne) * fixOne / (z + fixOne))).toNat * fixOne / fixLn2
    let v : Int := n * (fixOne : Int) + (frac : Int)
    if v < 0 then ⟨true, v.natAbs - 1, -(fixP : Int), true⟩ else .fix false v.natAbs

/-- `|x| mod 2` in units of `2 ^ -400`, exact for the formats' inputs. -/
def mod2 (m : Nat) (e : Int) : Nat := toFix m e % (2 * fixOne)

/-- `sin (π x)` of a non-integral x: the magnitude and whether it is negated against the sign of x. -/
def spSin (neg : Bool) (m : Nat) (e : Int) : Approx :=
  let r := mod2 m e
  let flip := decide (fixOne ≤ r)
  let t := r % fixOne
  if t = 0 then ⟨neg, 0, 0, false⟩
  else if 2 * t = fixOne then ⟨neg != flip, 1, 0, false⟩
  else .fix (neg != flip) (fixSinPi (if fixOne < 2 * t then fixOne - t else t))

/-- `cos (π x)`. -/
def spCos (m : Nat) (e : Int) : Approx :=
  let r := mod2 m e
  let t := if fixOne < r then 2 * fixOne - r else r
  if t = 0 then (if e + Nat.log2 m < -100 ∧ m ≠ 0 then .below false 1 0 else ⟨false, 1, 0, false⟩)
  else if t = fixOne then ⟨true, 1, 0, false⟩
  else if 2 * t = fixOne then ⟨false, 0, 0, false⟩
  else if fixOne < 2 * t then
    (if (fixOne - t) * 2 ^ 100 < fixOne then .below true 1 0 else .fix true (fixCosPi (fixOne - t)))
  else if t * 2 ^ 100 < fixOne then .below false 1 0
  else .fix false (fixCosPi t)

/-- `tanh x` of a non-zero x. -/
def spTanh (neg : Bool) (m : Nat) (e : Int) : Approx :=
  let top := e + Nat.log2 m
  if top < -100 then .below neg m e
  else if 8 ≤ top then .below neg 1 0
  else
    let y := 2 * toFix m e
    let n := y / fixLn2
    let ex := fixExpm1 (y % fixLn2)
    -- e ^ y - 1 = 2 ^ n × (1 + ex) - 1
    let em1 := (fixOne + ex) * 2 ^ n - fixOne
    .fix neg (em1 * fixOne / (em1 + 2 * fixOne))

/-- A finite input's result, by opcode (0x48 FRCP to 0x4E FTANH). -/
def spFinite (op : Nat) (neg : Bool) (m : Nat) (e : Int) : Approx :=
  match op with
  | 0x48 => spRcp neg m e
  | 0x49 => spRsq m e
  | 0x4A => spExp2 neg m e
  | 0x4B => spLog2 m e
  | 0x4C => spSin neg m e
  | 0x4D => spCos m e
  | _ => spTanh neg m e

/-- The special inputs of 09 R243: the result and its flags, if the table names one. -/
def spSpecial (f : Fmt) (op : Nat) (v : Val) : Option (WithFlags Nat) :=
  let one := fun neg => (f.ofVal 0 false (.fin neg 1 0)).1
  match v with
  | .nan s => some (f.qnan, flagIf s fIV)
  | .nar => some (f.qnan, 0)
  | .inf n =>
    match op with
    | 0x48 => some (f.zeroBits n, 0)
    | 0x49 => if n then some (f.qnan, fIV) else some (f.zeroBits false, 0)
    | 0x4A => some (if n then f.zeroBits false else f.infBits false, 0)
    | 0x4B => if n then some (f.qnan, fIV) else some (f.infBits false, 0)
    | 0x4E => some (one n, 0)
    | _ => some (f.qnan, fIV)
  | .fin n m _ =>
    if m = 0 then
      match op with
      | 0x48 => some (f.infBits n, fDZ)
      | 0x49 => some (f.infBits n, fDZ)
      | 0x4B => some (f.infBits true, fDZ)
      | 0x4C => some (f.zeroBits n, 0)
      | 0x4E => some (f.zeroBits n, 0)
      | _ => none
    else if n && (decide (op = 0x49) || decide (op = 0x4B)) then some (f.qnan, fIV)
    else none

/-- FRCP to FTANH: F16 and BF16 are correctly rounded in the mode; F32 delivers one of the two neighbours of an
inexact result, chosen by a fixed function of opcode and input bits; tininess is that of the delivered value (09 R243). An exact zero of FLOG2 1 and of FCOS is
+0, and of FSIN carries the sign of x. -/
def special (f : Fmt) (op mode : Nat) (flush : Bool) (b : Nat) : WithFlags Nat :=
  match spSpecial f op (f.decode b) with
  | some r => r
  | none =>
    match f.decode b with
    | .fin neg m e =>
      let a := spFinite op neg m e
      if f.fb < 23 then
        let r := f.round mode false a.neg a.m a.e a.sticky
        let inexact := decide (r.flags / 16 % 2 = 1)
        let tiny := decide (f.expo r.bits = 0) && (inexact || decide (r.bits ≠ f.zeroBits a.neg))
        if tiny && flush then (f.zeroBits a.neg, fUF ||| fNX)
        else (r.bits, flagIf inexact fNX ||| flagIf (r.flags / 4 % 2 = 1) fOF ||| flagIf (tiny && inexact) fUF)
      else
        let low := f.round 1 false a.neg a.m a.e a.sticky
        if low.flags / 16 % 2 = 0 then flushSub f flush (low.bits, 0)
        else
          -- beyond the largest finite value RZ delivers that value, whose upper neighbour is the infinity
          let d := low.bits + (if Config.f32Neighbour op (BitVec.ofNat 32 b) then 1 else 0)
          let tiny := decide (f.expo d = 0)
          if tiny && flush then (f.zeroBits a.neg, fUF ||| fNX)
          else (d, fNX ||| flagIf (d = f.infBits a.neg) fOF ||| flagIf tiny fUF)
    | _ => (f.qnan, 0)

end Sys2Proof.Machine
end

