-- ==== Sys2Proof/Machine/Vector.lean ====
section
/-! DEFINITION. How every V slot runs (09 R230 to R232): its sources are read in every acting cluster, an element function
gives the destination group, and what is active lands or is pushed. -/

namespace Sys2Proof.Machine

/-- What an element function knows beside its operands: type, rounding mode, exposed mode, group length, and which
elements are active. -/
structure VEnv where
  t : Nat
  mode : Nat
  flush : Bool
  len : Nat
  act : List Bool
deriving DecidableEq, Repr

/-- The operands of one cluster, across the group. -/
structure VIn where
  a : List Elem
  b : List Elem
  c : List Elem
  d : List Elem
deriving DecidableEq, Repr

/-- The result of one cluster: the destination elements with their flags, and a second destination, a register field
and a whole row (09 R250). -/
structure VOut where
  dst : List Elem
  extra : Option (Nat × Nat)
deriving DecidableEq, Repr

/-- How an instruction reads and writes: its opcode and latency, the types of a, b and c and of the destination, the
bytes that R231 counts activity by, whether a, b and c take the operand flush, whether vd is read, and whether the
whole destination is written. -/
structure VForm where
  op : Nat
  lat : Nat
  ta : Nat
  tb : Nat
  tc : Nat
  td : Nat
  unit : Nat
  fa : Bool
  fb : Bool
  readD : Bool
  whole : Bool
deriving DecidableEq, Repr

/-- The form of an instruction on elements of one type, whose operands take the operand flush. -/
def VForm.plain (op lat : Nat) (o : VSlot) : VForm := ⟨op, lat, o.ty, o.ty, o.ty, o.ty, typeBytes o.ty, true, true, false, false⟩

/-- The form of one that moves bits: no operand flush. -/
def VForm.move (op lat : Nat) (o : VSlot) : VForm := ⟨op, lat, o.ty, o.ty, o.ty, o.ty, typeBytes o.ty, false, false, false, false⟩

/-- The ports among the sources of a V slot, each once (04 R96), with the rows it pops and the type it pops to. -/
def vPops (fm : VForm) (o : VSlot) : List (Nat × Nat × Nat) :=
  let rd := vReads fm.op; let sp := vSpan fm.op o
  let a := if rd.1 && isPort o.a then [(o.a - 128, sp.a, fm.ta)] else []
  let b := if rd.2.1 && isPort o.b && !(rd.1 && decide (o.a = o.b)) then [(o.b - 128, sp.b, fm.tb)] else []
  let c := if rd.2.2 && isPort o.c && !(rd.1 && decide (o.a = o.c)) && !(rd.2.1 && decide (o.b = o.c)) then [(o.c - 128, sp.c, fm.tc)] else []
  a ++ b ++ c

/-- The operands of cluster `cl`. -/
def vInputs (m : KMap Row) (c : Ctx) (fm : VForm) (o : VSlot) (cl : Nat) : VIn :=
  let rd := vReads fm.op; let sp := vSpan fm.op o
  let k := c.kern; let mode := k.rndMode o.rnd
  let get (on : Bool) (f span t : Nat) (md : Nat) (fl : Bool) : List Elem :=
    if on then vOperand m c cl f span t mode md (fl && k.exposed) else []
  { a := get rd.1 o.a sp.a fm.ta (if o.ms = 0 then o.md else 0) fm.fa,
    b := get rd.2.1 o.b sp.b fm.tb (if o.ms = 1 then o.md else 0) fm.fb,
    c := get rd.2.2 o.c sp.c fm.tc 0 fm.fa,
    d := get fm.readD o.vd sp.vd fm.td 0 false }

/-- The flags of the destination elements that count: those of active elements, or all when the whole is written. -/
def vFlags (whole : Bool) (act : List Bool) (dst : List Elem) : Nat :=
  if whole then flagsOf (dst.map (·.2)) else flagsOf ((dst.zip act).map fun e => if e.2 then e.1.2 else 0)

/-- The rows of a destination group that land in cluster `cl`: each register with its bits and the mask of its active
elements. -/
def vRows (k : Kern) (vd eb cl : Nat) (whole : Bool) (act : List Bool) (dst : List Elem) : List RowW :=
  let n := 128 / eb; let w := 8 * eb
  let bitsL := chunksOf n dst.length (dst.map (·.1))
  let maskL := chunksOf n dst.length ((List.range dst.length).map fun i => if whole || act.getD i false then 2 ^ w - 1 else 0)
  (List.range bitsL.length).filterMap fun r =>
    let m := packElems w (maskL.getD r [])
    if m = 0 then none
    else some ⟨cl, k.phys (vd + r), BitVec.ofNat 1024 (packElems w (bitsL.getD r [])), BitVec.ofNat 1024 m⟩

/-- The pushed rows: for each register of the group, the encoded elements of the clusters in order, an inactive one as
+0, with the flags of the active ones. -/
def vPush (d : Desc) (t mode : Nat) (flush whole : Bool) (act : List Bool) (outs : List (List Elem)) : List (List Nat) × Nat :=
  let n := 128 / typeBytes t
  let rows := match outs with
    | [] => 0
    | o :: _ => o.length / n
  let cells := (List.range rows).map fun r => (outs.map fun o => (List.range n).map fun j =>
    let i := r * n + j
    if whole || act.getD i false then pushElem d t mode flush (o.getD i (0, 0)).1 else ((pushElem d t mode flush 0).1, 0)).flatten
  (cells.map fun l => l.map (·.1), flagsOf (cells.flatten.map (·.2)))

/-- A pop takes an element past the end of its stream, other than one that stands at the place of an inactive destination element (10 R264;
09 R232). -/
def popShort (c : Ctx) (act : List Bool) (q : Nat × Nat × Nat) : Bool :=
  let d := c.kern.port q.1; let n := 128 / typeBytes q.2.2
  match c.descPolder d with
  | none => false
  | some p => (List.range q.2.1).any fun l => (List.range n).any fun j =>
      act.getD (l * n + j) true && decide (popLimit d p ≤ popStart d p * d.recn + l * 16 * n + 15 * n + j)

/-- A V slot in one SP. -/
def vOne (fm : VForm) (o : VSlot) (fn : VEnv → VIn → VOut) (m : KMap Row) (c : Ctx) : Ctx :=
  let k := c.kern
  let pops := vPops fm o
  let cls := k.acting (!pops.isEmpty || isPort o.vd)
  if !k.vRuns fm.op o.pred || cls.isEmpty then c else
  let n := (o.len + 1) * 128 / typeBytes (if fm.op = 0x1A then fm.td else o.ty)
  let env : VEnv := ⟨o.ty, k.rndMode o.rnd, k.exposed, o.len + 1, (List.range n).map (k.active o.pred fm.unit)⟩
  let outs := cls.map fun cl => (cl, fn env (vInputs m c fm o cl))
  let flags := flagsOf (outs.map fun e => vFlags fm.whole env.act e.2.dst)
  let none_ := flagIf (pops.any fun q => (c.descPolder (k.port q.1)).isNone || popShort c env.act q) fOVRN
  let c1 := pops.foldl (fun c q => let d := c.kern.port q.1; c.popAdvance q.1 (q.2.1 * stepElems d (typeBytes q.2.2) / d.recn)) c
  if isPort o.vd then
    let s := o.vd - 128
    let r := vPush (k.port s) fm.td env.mode env.flush fm.whole env.act (outs.map fun e => e.2.dst)
    c1.pushRaw s fm.lat r.1 (flagOr (flagOr flags none_) r.2)
  else
    let rows := (outs.map fun e =>
      vRows k o.vd (typeBytes fm.td) e.1 fm.whole env.act e.2.dst
        ++ match e.2.extra with
           | none => []
           | some x => [⟨e.1, k.phys x.1, BitVec.ofNat 1024 x.2, BitVec.ofNat 1024 (2 ^ 1024 - 1)⟩]).flatten
    (c1.later fm.lat (.rows rows)).raiseIn fm.lat (flagOr flags none_)

/-- A V slot in every SP of the issuing bundle. -/
def vRun (fm : VForm) (o : VSlot) (fn : VEnv → VIn → VOut) (s : State) : State :=
  s.issue.foldl (fun s k => s.modCtx k (vOne fm o fn (s.sp k).srf)) s

/-! ## Element functions -/

/-- A result computed from one operand element by element. -/
def vMap1 (f : VEnv → Nat → Elem) (e : VEnv) (i : VIn) : VOut :=
  ⟨i.a.map fun x => let r := f e x.1; (r.1, flagOr x.2 r.2), none⟩

/-- A result computed from two operands element by element. -/
def vMap2 (f : VEnv → Nat → Nat → Elem) (e : VEnv) (i : VIn) : VOut :=
  ⟨(i.a.zip i.b).map fun p => let r := f e p.1.1 p.2.1; (r.1, flagOr (flagOr p.1.2 p.2.2) r.2), none⟩

/-- A result computed from three operands element by element. -/
def vMap3 (f : VEnv → Nat → Nat → Nat → Elem) (e : VEnv) (i : VIn) : VOut :=
  ⟨((i.a.zip i.b).zip i.c).map fun p =>
    let r := f e p.1.1.1 p.1.2.1 p.2.1; (r.1, flagOr (flagOr p.1.1.2 p.1.2.2) (flagOr p.2.2 r.2)), none⟩

end Sys2Proof.Machine
end

