-- ==== Sys2Proof/Machine/Vint.lean ====
section
/-! DEFINITION. The V-slot integer instructions (09 R236, R237). Operands are bit patterns of `w` bits; none raises a flag
of its own. -/

namespace Sys2Proof.Machine

/-- Element width in bits. -/
def VEnv.w (e : VEnv) : Nat := 8 * typeBytes e.t

/-- An integer instruction of one operand. -/
def vInt1 (op : Nat) (o : VSlot) (f : Nat → Nat → Nat) (s : State) : State :=
  vRun (VForm.plain op 2 o) o (vMap1 fun e a => (f e.w a % 2 ^ e.w, 0)) s

/-- An integer instruction of two operands. -/
def vInt2 (op : Nat) (o : VSlot) (f : Nat → Nat → Nat → Nat) (s : State) : State :=
  vRun (VForm.plain op 2 o) o (vMap2 fun e a b => (f e.w a b % 2 ^ e.w, 0)) s

/-- The shift amount of an element (09 R236). -/
def shAmt (w b : Nat) : Nat := b % w

/-- All ones or zero. -/
def boolMask (w : Nat) (c : Bool) : Nat := if c then 2 ^ w - 1 else 0

/-- `⌊i / 2 ^ s⌋` modulo `2 ^ w`. -/
def sraWrap (w : Nat) (i : Int) (s : Nat) : Nat := wrap w (i / ((2 ^ s : Nat) : Int))

/-- VADD: (a + b) mod 2^w (09 R236). -/
def execVadd (o : VSlot) (s : State) : Host.Outcome State Fault Refusal :=
  .next (vInt2 0x01 o (fun _ a b => a + b) s)

/-- VSUB: (a − b) mod 2^w (09 R236). -/
def execVsub (o : VSlot) (s : State) : Host.Outcome State Fault Refusal :=
  .next (vInt2 0x02 o (fun w a b => a + (2 ^ w - b)) s)

/-- VADDS: signed sum, saturated (09 R236). -/
def execVadds (o : VSlot) (s : State) : Host.Outcome State Fault Refusal :=
  .next (vInt2 0x03 o (fun w a b => (satInt w false (sint w a + sint w b)).1) s)

/-- VADDN: unsigned sum, saturated (09 R236). -/
def execVaddn (o : VSlot) (s : State) : Host.Outcome State Fault Refusal :=
  .next (vInt2 0x04 o (fun w a b => min (a + b) (2 ^ w - 1)) s)

/-- VSUBS: signed difference, saturated (09 R236). -/
def execVsubs (o : VSlot) (s : State) : Host.Outcome State Fault Refusal :=
  .next (vInt2 0x05 o (fun w a b => (satInt w false (sint w a - sint w b)).1) s)

/-- VSUBN: unsigned difference, 0 when b > a (09 R236). -/
def execVsubn (o : VSlot) (s : State) : Host.Outcome State Fault Refusal :=
  .next (vInt2 0x06 o (fun _ a b => a - b) s)

/-- VMUL: (a × b) mod 2^w (09 R236). -/
def execVmul (o : VSlot) (s : State) : Host.Outcome State Fault Refusal :=
  .next (vInt2 0x07 o (fun _ a b => a * b) s)

/-- VMULH: high half of the signed product (09 R236). -/
def execVmulh (o : VSlot) (s : State) : Host.Outcome State Fault Refusal :=
  .next (vInt2 0x08 o (fun w a b => sraWrap w (sint w a * sint w b) w) s)

/-- VMULHN: high half of the unsigned product (09 R236). -/
def execVmulhn (o : VSlot) (s : State) : Host.Outcome State Fault Refusal :=
  .next (vInt2 0x09 o (fun w a b => a * b / 2 ^ w) s)

/-- VMIN: smaller, signed (09 R236). -/
def execVmin (o : VSlot) (s : State) : Host.Outcome State Fault Refusal :=
  .next (vInt2 0x0C o (fun w a b => if sint w b < sint w a then b else a) s)

/-- VMAX: larger, signed (09 R236). -/
def execVmax (o : VSlot) (s : State) : Host.Outcome State Fault Refusal :=
  .next (vInt2 0x0D o (fun w a b => if sint w a < sint w b then b else a) s)

/-- VMINN: smaller, unsigned (09 R236). -/
def execVminn (o : VSlot) (s : State) : Host.Outcome State Fault Refusal :=
  .next (vInt2 0x0E o (fun _ a b => min a b) s)

/-- VMAXN: larger, unsigned (09 R236). -/
def execVmaxn (o : VSlot) (s : State) : Host.Outcome State Fault Refusal :=
  .next (vInt2 0x0F o (fun _ a b => max a b) s)

/-- VABS: the magnitude, −2^(w−1) unchanged (09 R236). -/
def execVabs (o : VSlot) (s : State) : Host.Outcome State Fault Refusal :=
  .next (vInt1 0x10 o (fun w a => wrap w (((sint w a).natAbs : Nat) : Int)) s)

/-- VNEG: (−a) mod 2^w (09 R236). -/
def execVneg (o : VSlot) (s : State) : Host.Outcome State Fault Refusal :=
  .next (vInt1 0x11 o (fun w a => 2 ^ w - a % 2 ^ w) s)

/-- VAND: a AND b (09 R236). -/
def execVand (o : VSlot) (s : State) : Host.Outcome State Fault Refusal :=
  .next (vInt2 0x12 o (fun _ a b => Nat.land a b) s)

/-- VOR: a OR b (09 R236). -/
def execVor (o : VSlot) (s : State) : Host.Outcome State Fault Refusal :=
  .next (vInt2 0x13 o (fun _ a b => Nat.lor a b) s)

/-- VXOR: a XOR b (09 R236). -/
def execVxor (o : VSlot) (s : State) : Host.Outcome State Fault Refusal :=
  .next (vInt2 0x14 o (fun _ a b => Nat.xor a b) s)

/-- VANDN: a AND NOT b (09 R236). -/
def execVandn (o : VSlot) (s : State) : Host.Outcome State Fault Refusal :=
  .next (vInt2 0x15 o (fun w a b => Nat.land a (2 ^ w - 1 - b)) s)

/-- VSHL: (a × 2^s) mod 2^w (09 R236). -/
def execVshl (o : VSlot) (s : State) : Host.Outcome State Fault Refusal :=
  .next (vInt2 0x16 o (fun w a b => a * 2 ^ shAmt w b) s)

/-- VSHR: a ÷ 2^s, unsigned (09 R236). -/
def execVshr (o : VSlot) (s : State) : Host.Outcome State Fault Refusal :=
  .next (vInt2 0x17 o (fun w a b => a / 2 ^ shAmt w b) s)

/-- VSRA: a ÷ 2^s, signed, towards −∞ (09 R236). -/
def execVsra (o : VSlot) (s : State) : Host.Outcome State Fault Refusal :=
  .next (vInt2 0x18 o (fun w a b => sraWrap w (sint w a) (shAmt w b)) s)

/-- VSRAR: (a + 2^(s−1)) ÷ 2^s, signed (09 R236). -/
def execVsrar (o : VSlot) (s : State) : Host.Outcome State Fault Refusal :=
  .next (vInt2 0x19 o (fun w a b => if shAmt w b = 0 then a else sraWrap w (sint w a + ((2 ^ (shAmt w b - 1) : Nat) : Int)) (shAmt w b)) s)

/-- VCMPEQ: all ones if equal (09 R236). -/
def execVcmpeq (o : VSlot) (s : State) : Host.Outcome State Fault Refusal :=
  .next (vInt2 0x1C o (fun w a b => boolMask w (decide (a = b))) s)

/-- VCMPLT: all ones if a < b, signed (09 R236). -/
def execVcmplt (o : VSlot) (s : State) : Host.Outcome State Fault Refusal :=
  .next (vInt2 0x1D o (fun w a b => boolMask w (decide (sint w a < sint w b))) s)

/-- VCMPLTN: all ones if a < b, unsigned (09 R236). -/
def execVcmpltn (o : VSlot) (s : State) : Host.Outcome State Fault Refusal :=
  .next (vInt2 0x1E o (fun w a b => boolMask w (decide (a < b))) s)

/-- VCMPLE: all ones if a ≤ b, signed (09 R236). -/
def execVcmple (o : VSlot) (s : State) : Host.Outcome State Fault Refusal :=
  .next (vInt2 0x1F o (fun w a b => boolMask w (decide (sint w a ≤ sint w b))) s)

/-- VCLZ: leading zero bits (09 R236). -/
def execVclz (o : VSlot) (s : State) : Host.Outcome State Fault Refusal :=
  .next (vInt1 0x21 o (fun w a => clz w a) s)

/-- VPOPC: one bits (09 R236). -/
def execVpopc (o : VSlot) (s : State) : Host.Outcome State Fault Refusal :=
  .next (vInt1 0x22 o (fun w a => popcount w a) s)

/-- VSEL: a where c ≠ 0, else b (09 R236). -/
def execVsel (o : VSlot) (s : State) : Host.Outcome State Fault Refusal :=
  .next (vRun (VForm.plain 0x20 2 o) o (vMap3 fun _ a b c => (if c ≠ 0 then a else b, 0)) s)

/-- VMAC: (vd + a × b) mod 2^w, with vd read at issue (09 R236). -/
def execVmac (o : VSlot) (s : State) : Host.Outcome State Fault Refusal :=
  .next (vRun { VForm.plain 0x0A 2 o with readD := true } o
    (fun e i => ⟨((i.a.zip i.b).zip i.d).map fun p =>
      ((p.2.1 + p.1.1.1 * p.1.2.1) % 2 ^ e.w, flagOr p.1.1.2 p.1.2.2), none⟩) s)

/-- A narrow element of `h` bits extended by sign or zeros (09 R237). -/
def extendNarrow (h : Nat) (uns : Bool) (x : Nat) : Int := if uns then ((x % 2 ^ h : Nat) : Int) else sint h x

/-- VMACW: (vd + a × b) mod 2^w with a and b of half width, read signed or, with c = 1, unsigned (09 R237). -/
def execVmacw (o : VSlot) (s : State) : Host.Outcome State Fault Refusal :=
  .next (vRun { VForm.plain 0x0B 2 o with ta := o.ty - 1, tb := o.ty - 1, readD := true } o
    (fun e i => ⟨((i.d.zip i.a).zip i.b).map fun p =>
      (wrap e.w ((p.1.1.1 : Int) + extendNarrow (e.w / 2) (o.c = 1) p.1.2.1 * extendNarrow (e.w / 2) (o.c = 1) p.2.1),
        flagOr p.1.2.2 p.2.2), none⟩) s)

/-- VNARROW: a mod 2^(w ÷ 2) in elements of half width (09 R237). -/
def execVnarrow (o : VSlot) (s : State) : Host.Outcome State Fault Refusal :=
  .next (vRun { VForm.plain 0x1A 2 o with td := o.ty - 1, unit := typeBytes (o.ty - 1) } o
    (vMap1 fun e a => (a % 2 ^ (e.w / 2), 0)) s)

/-- VWIDEN: a of half width extended with its sign or, with c = 1, with zeros (09 R237). -/
def execVwiden (o : VSlot) (s : State) : Host.Outcome State Fault Refusal :=
  .next (vRun { VForm.plain 0x1B 2 o with ta := o.ty - 1 } o
    (fun e i => ⟨(i.a.take ((o.len + 1) * 128 / typeBytes e.t)).map fun x => (wrap e.w (extendNarrow (e.w / 2) (o.c = 1) x.1), x.2), none⟩) s)

end Sys2Proof.Machine
end

