-- ==== Sys2Proof/Machine/Vfp.lean ====
section
/-! DEFINITION. The V-slot floating-point instructions, the conversions and the special functions (09 R238 to R243). -/

namespace Sys2Proof.Machine

/-- A floating-point instruction of one operand, four cycles. -/
def vFp1 (fm : VForm) (o : VSlot) (f : Fmt → VEnv → Nat → Elem) (s : State) : State :=
  vRun fm o (vMap1 fun e a => f (typeFmt e.t) e a) s

/-- A floating-point instruction of two operands. -/
def vFp2 (fm : VForm) (o : VSlot) (f : Fmt → VEnv → Nat → Nat → Elem) (s : State) : State :=
  vRun fm o (vMap2 fun e a b => f (typeFmt e.t) e a b) s

/-- A floating-point instruction of three operands. -/
def vFp3 (fm : VForm) (o : VSlot) (f : Fmt → VEnv → Nat → Nat → Nat → Elem) (s : State) : State :=
  vRun fm o (vMap3 fun e a b c => f (typeFmt e.t) e a b c) s

/-- The result of a compare: all ones or zero; IV for a signalling NaN, or for any NaN where `anyNan` (09 R238). -/
def fpCompare (f : Fmt) (anyNan : Bool) (r : Val → Val → Bool) (a b : Nat) : Elem :=
  let x := f.decode a; let y := f.decode b
  let nan := x.isNan || y.isNan
  (boolMask f.width (r x y), flagIf (if anyNan then nan else x.isSig || y.isSig) fIV)

/-- FADD: a + b (09 R238). -/
def execFadd (o : VSlot) (s : State) : Host.Outcome State Fault Refusal :=
  .next (vFp2 (VForm.plain 0x30 4 o) o (fun f e a b => fAdd f e.mode e.flush (f.decode a) (f.decode b)) s)

/-- FSUB: a − b (09 R238). -/
def execFsub (o : VSlot) (s : State) : Host.Outcome State Fault Refusal :=
  .next (vFp2 (VForm.plain 0x31 4 o) o (fun f e a b => fAdd f e.mode e.flush (f.decode a) (f.decode b).negate) s)

/-- FMUL: a × b (09 R238). -/
def execFmul (o : VSlot) (s : State) : Host.Outcome State Fault Refusal :=
  .next (vFp2 (VForm.plain 0x32 4 o) o (fun f e a b => fMul f e.mode e.flush (f.decode a) (f.decode b)) s)

/-- FMA: a × b + c, rounded once (09 R238). -/
def execFma (o : VSlot) (s : State) : Host.Outcome State Fault Refusal :=
  .next (vFp3 (VForm.plain 0x33 4 o) o (fun f e a b c => fFma f e.mode e.flush (f.decode a) (f.decode b) (f.decode c)) s)

/-- FMS: a × b − c, rounded once (09 R238). -/
def execFms (o : VSlot) (s : State) : Host.Outcome State Fault Refusal :=
  .next (vFp3 (VForm.plain 0x34 4 o) o (fun f e a b c => fFma f e.mode e.flush (f.decode a) (f.decode b) (f.decode c).negate) s)

/-- FNMA: −(a × b) + c, rounded once (09 R238). -/
def execFnma (o : VSlot) (s : State) : Host.Outcome State Fault Refusal :=
  .next (vFp3 (VForm.plain 0x35 4 o) o (fun f e a b c => fFma f e.mode e.flush (f.decode a).negate (f.decode b) (f.decode c)) s)

/-- FMIN: the smaller, with −0 < +0; a subnormal that it delivers is flushed in exposed mode (09 R238). -/
def execFmin (o : VSlot) (s : State) : Host.Outcome State Fault Refusal :=
  .next (vFp2 (VForm.plain 0x36 4 o) o (fun f e a b => flushSub f e.flush (fMinMax f false a b)) s)

/-- FMAX: the larger, with −0 < +0; a subnormal that it delivers is flushed in exposed mode (09 R238). -/
def execFmax (o : VSlot) (s : State) : Host.Outcome State Fault Refusal :=
  .next (vFp2 (VForm.plain 0x37 4 o) o (fun f e a b => flushSub f e.flush (fMinMax f true a b)) s)

/-- FABS: the sign bit cleared; no flush, no flag (09 R238). -/
def execFabs (o : VSlot) (s : State) : Host.Outcome State Fault Refusal :=
  .next (vFp1 (VForm.move 0x38 4 o) o (fun f _ a => (a % 2 ^ (f.width - 1), 0)) s)

/-- FNEG: the sign bit inverted; no flush, no flag (09 R238). -/
def execFneg (o : VSlot) (s : State) : Host.Outcome State Fault Refusal :=
  .next (vFp1 (VForm.move 0x39 4 o) o (fun f _ a => ((a + 2 ^ (f.width - 1)) % 2 ^ f.width, 0)) s)

/-- FCMPEQ: all ones if a = b; no flush (09 R238). -/
def execFcmpeq (o : VSlot) (s : State) : Host.Outcome State Fault Refusal :=
  .next (vFp2 (VForm.move 0x3A 4 o) o (fun f _ a b => fpCompare f false valEq a b) s)

/-- FCMPLT: all ones if a < b; no flush (09 R238). -/
def execFcmplt (o : VSlot) (s : State) : Host.Outcome State Fault Refusal :=
  .next (vFp2 (VForm.move 0x3B 4 o) o (fun f _ a b => fpCompare f true (fun x y => !x.isNan && !y.isNan && valLt x y) a b) s)

/-- FCMPLE: all ones if a ≤ b; no flush (09 R238). -/
def execFcmple (o : VSlot) (s : State) : Host.Outcome State Fault Refusal :=
  .next (vFp2 (VForm.move 0x3C 4 o) o (fun f _ a b => fpCompare f true (fun x y => !x.isNan && !y.isNan && !valLt y x) a b) s)

/-- FCMPUN: all ones if a or b is a NaN; no flush (09 R238). -/
def execFcmpun (o : VSlot) (s : State) : Host.Outcome State Fault Refusal :=
  .next (vFp2 (VForm.move 0x3D 4 o) o (fun f _ a b => fpCompare f false (fun x y => x.isNan || y.isNan) a b) s)

/-- FCLASS: the class of the raw input bits (09 R239) (09 R238). -/
def execFclass (o : VSlot) (s : State) : Host.Outcome State Fault Refusal :=
  .next (vFp1 (VForm.move 0x3E 4 o) o (fun f _ a => (fClass f a, 0)) s)

/-- An exponent step beyond which every value of a format overflows or underflows. -/
def clampStep (n : Int) : Int := if n < -2000 then -2000 else if 2000 < n then 2000 else n

/-- FSCALE: a × 2^n, n read from b as a signed integer, which is not flushed (09 R238). -/
def execFscale (o : VSlot) (s : State) : Host.Outcome State Fault Refusal :=
  .next (vFp2 { VForm.plain 0x3F 4 o with fb := false } o
    (fun f e a b => fScale f e.mode e.flush (f.decode a) (clampStep (sint f.width b))) s)

/-! ## Conversion and block quantisation -/

/-- One element of VCVT: source type `st`, unsigned where `sn`; destination type `t`, unsigned where `dn` (09 R240). -/
def cvtElem (t st : Nat) (dn sn : Bool) (mode : Nat) (flush : Bool) (a : Nat) : Elem :=
  let v := typeDecode st sn a
  if t < 4 then
    if st < 4 then intToInt (8 * 2 ^ st) (8 * 2 ^ t) dn v.toInt else toIntSat (8 * 2 ^ t) dn mode v
  else (typeFmt t).ofVal mode flush v

/-- VCVT: group a converted from its source type to type t (09 R240). -/
def execVcvt (o : VSlot) (s : State) : Host.Outcome State Fault Refusal :=
  .next (vRun { VForm.plain 0x40 3 o with ta := o.c % 8 } o
    (fun e i => ⟨(i.a.take e.act.length).map fun x =>
      let r := cvtElem e.t (o.c % 8) (o.c / 16 % 2 = 1) (o.c / 8 % 2 = 1) e.mode e.flush x.1
      (r.1, flagOr x.2 r.2), none⟩) s)

/-- The elements of a block of VQNT quantised: the inactive ones take no part and have code 0. The scale code, the codes
and the flags (09 R241, 05 R125). -/
def vqntBlock (t6 : Bool) (f : Fmt) (l : List (Elem × Bool)) : Nat × List Nat × Nat :=
  let on := l.filter (·.2)
  let r := quantBlock t6 (on.map fun e => f.decode e.1.1)
  let codes := l.foldl (fun (acc : List Nat × List Nat) e =>
    if e.2 then (acc.1 ++ [acc.2.headD 0], acc.2.tail) else (acc.1 ++ [0], acc.2)) ([], r.2.1)
  (r.1, codes.1, flagOr r.2.2 (flagsOf (on.map fun e => e.1.2)))

/-- VQNT: the code bytes of group a, and the scale codes in register b (09 R241). -/
def execVqnt (o : VSlot) (s : State) : Host.Outcome State Fault Refusal :=
  .next (vRun { VForm.plain 0x41 4 o with td := 0, unit := 1, whole := true } o
    (fun e i =>
      let blocks := (chunksOf (8 * 2 ^ (o.c / 2)) i.a.length (i.a.zip e.act)).map (vqntBlock (o.c % 2 = 1) (typeFmt e.t))
      let codes := (blocks.map (·.2.1)).flatten
      let fl := flagsOf (blocks.map (·.2.2))
      let pad := (128 - codes.length % 128) % 128
      ⟨(codes ++ List.replicate pad 0).map (fun b => (b, fl)), some (o.b, packElems 8 (blocks.map (·.1)))⟩) s)

/-- One element of VDQ: a code under a scale code, rounded to a format (09 R242, 05 R123). -/
def vdqElem (t6 : Bool) (f : Fmt) (mode : Nat) (flush : Bool) (code scale : Nat) : Elem :=
  let v := taperedDecode (if t6 then 6 else 8) code
  if scale % 256 = 255 then (f.qnan, fNAR)
  else
    let r := f.ofVal mode flush (v.scaleBy ((scale % 256 : Nat) - 127))
    (r.1, flagOr r.2 (flagIf (decide (v = .nar)) fNAR))

/-- VDQ: the codes of group a under the scale codes of register b (09 R242). -/
def execVdq (o : VSlot) (s : State) : Host.Outcome State Fault Refusal :=
  .next (vRun { VForm.move 0x42 3 o with ta := 0, tb := 0 } o
    (fun e i => ⟨(List.range e.act.length).map fun j =>
      let code := i.a.getD j (0, 0); let sc := i.b.getD (j / (8 * 2 ^ (o.c / 2))) (0, 0)
      vdqElem (o.c % 2 = 1) (typeFmt e.t) e.mode e.flush code.1 sc.1, none⟩) s)

/-! ## Special functions (09 R243) -/

/-- A special function, twelve cycles. -/
def vSpecial (op : Nat) (o : VSlot) (s : State) : State :=
  vFp1 (VForm.plain op 12 o) o (fun f e a => special f op e.mode e.flush a) s

/-- FRCP: 1 ÷ x. -/
def execFrcp (o : VSlot) (s : State) : Host.Outcome State Fault Refusal := .next (vSpecial 0x48 o s)

/-- FRSQ: 1 ÷ √x. -/
def execFrsq (o : VSlot) (s : State) : Host.Outcome State Fault Refusal := .next (vSpecial 0x49 o s)

/-- FEXP2: 2^x. -/
def execFexp2 (o : VSlot) (s : State) : Host.Outcome State Fault Refusal := .next (vSpecial 0x4A o s)

/-- FLOG2: log2 x. -/
def execFlog2 (o : VSlot) (s : State) : Host.Outcome State Fault Refusal := .next (vSpecial 0x4B o s)

/-- FSIN: sin πx. -/
def execFsin (o : VSlot) (s : State) : Host.Outcome State Fault Refusal := .next (vSpecial 0x4C o s)

/-- FCOS: cos πx. -/
def execFcos (o : VSlot) (s : State) : Host.Outcome State Fault Refusal := .next (vSpecial 0x4D o s)

/-- FTANH: tanh x. -/
def execFtanh (o : VSlot) (s : State) : Host.Outcome State Fault Refusal := .next (vSpecial 0x4E o s)

end Sys2Proof.Machine
end

