-- ==== Sys2Proof/Machine/Vmove.lean ====
section
/-! DEFINITION. The V-slot reductions, scans, selections and movements (09 R244 to R248; 05 R128). -/

namespace Sys2Proof.Machine

/-- The sum of two elements of a type: wrapping, or rounded once. The flags of both go with it. -/
def addElem (t mode : Nat) (flush : Bool) (a b : Elem) : Elem :=
  if t < 4 then ((a.1 + b.1) % 2 ^ (8 * typeBytes t), flagOr a.2 b.2)
  else
    let f := typeFmt t
    let r := fAdd f mode flush (f.decode a.1) (f.decode b.1)
    (r.1, flagOr (flagOr a.2 b.2) r.2)

/-- What an inactive element enters a sum as: −0, or 0 for integers (05 R128). -/
def sumZero (t : Nat) : Nat := if t < 4 then 0 else (typeFmt t).zeroBits true

/-- One level of the tree: neighbours added in pairs. -/
def pairLevel (f : Elem → Elem → Elem) : List Elem → List Elem
  | a :: b :: l => f a b :: pairLevel f l
  | l => l

/-- The tree over a row of `2 ^ n` elements. -/
def treeSum (f : Elem → Elem → Elem) : Nat → List Elem → Elem
  | 0, l => l.headD (0, 0)
  | n + 1, l => treeSum f n (pairLevel f l)

/-- The level of distance `d` of a scan: every element from `d` on has that `d` before it added on its left. -/
def scanLevel (f : Elem → Elem → Elem) (d : Nat) (l : List Elem) : List Elem := l.take d ++ (l.zip (l.drop d)).map fun p => f p.1 p.2

/-- An element that a scan delivers as it was read: a NaN becomes the canonical NaN, a signalling one sets IV, and the result flush covers it
(05 R117, R118). -/
def passElem (t mode : Nat) (flush : Bool) (x : Elem) : Elem :=
  if t < 4 then x else let r := (typeFmt t).ofVal mode flush ((typeFmt t).decode x.1); (r.1, flagOr x.2 r.2)

/-- The levels 1, 2, 4, … of a scan, `n` of them, from distance `d`. -/
def scanLevels (f : Elem → Elem → Elem) : Nat → Nat → List Elem → List Elem
  | 0, _, l => l
  | n + 1, d, l => scanLevels f n (2 * d) (scanLevel f d l)

/-- The elements with the inactive ones replaced by `z`, without flags. -/
def maskElems (act : List Bool) (z : Nat) (l : List Elem) : List Elem := (l.zip act).map fun p => if p.2 then p.1 else (z, 0)

/-- The latency of the reductions and of VSCAN (09 R244). -/
def sumLatency (o : VSlot) : Nat := if o.ty < 4 then 4 + o.len else 8 + 4 * o.len

/-- The form of a reduction: one register, written whole. -/
def reduceForm (op : Nat) (o : VSlot) : VForm := { VForm.plain op (sumLatency o) o with whole := true }

/-- A value in every element of the destination register. -/
def spread (t : Nat) (r : Elem) : VOut := ⟨List.replicate (128 / typeBytes t) r, none⟩

/-- VRSUM: the tree of each register, then the registers from left to right (09 R244, 05 R128). -/
def execVrsum (o : VSlot) (s : State) : Host.Outcome State Fault Refusal :=
  .next (vRun (reduceForm 0x50 o) o (fun e i =>
    let add := addElem e.t e.mode e.flush
    let n := 128 / typeBytes e.t
    let rows := (chunksOf n e.len (maskElems e.act (sumZero e.t) i.a)).map (treeSum add (Nat.log2 n))
    spread e.t (rows.tail.foldl add (rows.headD (0, 0)))) s)

/-- The larger (`up`) or smaller of two integer elements read as signed. -/
def pickInt (w : Nat) (up : Bool) (a b : Nat) : Nat :=
  if up then (if sint w a < sint w b then b else a) else (if sint w b < sint w a then b else a)

/-- The largest or smallest active element: NaN gives the canonical NaN, a signalling one IV, a subnormal delivered in
exposed mode is flushed (09 R244). `z` is the answer with no active element. -/
def reduceExtreme (e : VEnv) (up : Bool) (z : Nat) (l : List Elem) : Elem :=
  let on := (l.zip e.act).filterMap fun p => if p.2 then some p.1 else none
  let fl := flagsOf (on.map (·.2))
  if e.t < 4 then (on.foldl (fun a x => pickInt (8 * typeBytes e.t) up a x.1) z, fl)
  else
    let f := typeFmt e.t
    let r := on.foldl (fun a x => let m := fMinMax f up a.1 x.1; (m.1, flagOr a.2 m.2)) (z, 0)
    let r := flushSub f e.flush r
    (r.1, flagOr fl r.2)

/-- VRMAX: the largest element (09 R244). -/
def execVrmax (o : VSlot) (s : State) : Host.Outcome State Fault Refusal :=
  .next (vRun (reduceForm 0x51 o) o (fun e i =>
    spread e.t (reduceExtreme e true (if e.t < 4 then 2 ^ (8 * typeBytes e.t - 1) else (typeFmt e.t).infBits true) i.a)) s)

/-- VRMIN: the smallest element (09 R244). -/
def execVrmin (o : VSlot) (s : State) : Host.Outcome State Fault Refusal :=
  .next (vRun (reduceForm 0x52 o) o (fun e i =>
    spread e.t (reduceExtreme e false (if e.t < 4 then 2 ^ (8 * typeBytes e.t - 1) - 1 else (typeFmt e.t).infBits false) i.a)) s)

/-- VAMAX: the largest magnitude; an integer's as an unsigned value (09 R244). -/
def execVamax (o : VSlot) (s : State) : Host.Outcome State Fault Refusal :=
  .next (vRun (reduceForm 0x53 o) o (fun e i =>
    let w := 8 * typeBytes e.t
    if e.t < 4 then
      let on := (i.a.zip e.act).filterMap fun p => if p.2 then some p.1 else none
      spread e.t (on.foldl (fun a x => max a (sint w x.1).natAbs) 0, flagsOf (on.map (·.2)))
    else
      let f := typeFmt e.t
      spread e.t (reduceExtreme e true 0 (i.a.map fun x =>
        (if (f.decode x.1).isNan then x.1 else x.1 % 2 ^ (w - 1), x.2)))) s)

/-- The magnitude rank of VTOPK: NaN above every number (09 R247). -/
def topkKey (t bits : Nat) : Nat :=
  let w := 8 * typeBytes t
  if t < 4 then (sint w bits).natAbs
  else if ((typeFmt t).decode bits).isNan then 2 ^ w else bits % 2 ^ (w - 1)

/-- An element with its index put into a list that falls by rank, equal ranks by index; at most `k` are kept. -/
def topkInsert (t k : Nat) (x : Nat × Nat) : List (Nat × Nat) → List (Nat × Nat)
  | [] => if k = 0 then [] else [x]
  | y :: l => if topkKey t y.1 < topkKey t x.1 then (x :: y :: l).take k else (y :: topkInsert t (k - 1) x l).take k

/-- VTOPK: the elements of largest magnitude, and their group indices in register c (09 R247). b is read in a 32-bit
integer type, so that its low 32 bits arrive. -/
def execVtopk (o : VSlot) (s : State) : Host.Outcome State Fault Refusal :=
  .next (vRun { VForm.move 0x54 8 o with tb := 2, whole := true } o (fun e i =>
    let n := 128 / typeBytes e.t
    let on := ((List.range i.a.length).zip (i.a.zip e.act)).filterMap fun p => if p.2.2 then some (p.2.1.1, p.1) else none
    let k := min (min (i.b.headD (0, 0)).1 64) (min n on.length)
    let top := on.foldl (fun l x => topkInsert e.t k x l) []
    let fl := flagsOf (((i.a.zip e.act).filter (·.2)).map (·.1.2))
    let bitsL := top.map (·.1) ++ List.replicate (n - top.length) 0
    let idx := top.map (·.2) ++ List.replicate (64 - top.length) 0xFFFF
    ⟨bitsL.map (fun b => (b, fl)), some (o.c, packElems 16 idx)⟩) s)

/-- VSCAN: inclusive prefix sums, each register by its levels, then the last element of each register added to the next
(09 R245). Element 0 is delivered without an addition. -/
def execVscan (o : VSlot) (s : State) : Host.Outcome State Fault Refusal :=
  .next (vRun (VForm.plain 0x55 (sumLatency o) o) o (fun e i =>
    let add := addElem e.t e.mode e.flush
    let n := 128 / typeBytes e.t
    let rows := (chunksOf n e.len (maskElems e.act (sumZero e.t) i.a)).map (scanLevels add (Nat.log2 n) 1)
    let r := rows.foldl (fun (acc : List Elem × Option Elem) row =>
      match acc.2 with
      | none => (row, row.getLast?)
      | some x => let row' := row.map (add x); (acc.1 ++ row', row'.getLast?)) ([], none)
    ⟨match r.1 with | [] => [] | x :: l => passElem e.t e.mode e.flush x :: l, none⟩) s)

/-- VCOMPRESS: the active elements whose c is not zero, moved together; the rest of the group is zero (09 R246). -/
def execVcompress (o : VSlot) (s : State) : Host.Outcome State Fault Refusal :=
  .next (vRun { VForm.move 0x56 3 o with whole := true } o (fun e i =>
    let on := ((i.a.zip i.c).zip e.act).filterMap fun p => if p.2 then some p.1 else none
    let fl := flagsOf (on.map fun p => flagOr p.1.2 p.2.2)
    let kept := on.filterMap fun p => if p.2.1 ≠ 0 then some p.1.1 else none
    ⟨(kept ++ List.replicate (i.a.length - kept.length) 0).map fun b => (b, fl), none⟩) s)

/-- The elements of VEXPAND from the list of selectors on (09 R246). -/
def expandFrom : List Elem → List (Elem × Bool) → List Elem
  | _, [] => []
  | a, (c, on) :: l =>
    if on && decide (c.1 ≠ 0) then
      let x := a.headD (0, 0); (x.1, flagOr x.2 c.2) :: expandFrom a.tail l
    else (0, c.2) :: expandFrom a l

/-- VEXPAND: successive elements of a go to the active elements whose c is not zero, 0 to the others (09 R246). -/
def execVexpand (o : VSlot) (s : State) : Host.Outcome State Fault Refusal :=
  .next (vRun (VForm.move 0x57 3 o) o (fun e i => ⟨expandFrom i.a (i.c.zip e.act), none⟩) s)

/-- VIDX: a + i × b, wrapping, or one rounding of the exact value (09 R248). -/
def execVidx (o : VSlot) (s : State) : Host.Outcome State Fault Refusal :=
  .next (vRun (VForm.plain 0x58 (if o.ty < 4 then 2 else 4) o) o (fun e i =>
    ⟨((List.range i.a.length).zip (i.a.zip i.b)).map fun p =>
      let a := p.2.1; let b := p.2.2
      if e.t < 4 then ((a.1 + p.1 * b.1) % 2 ^ (8 * typeBytes e.t), flagOr a.2 b.2)
      else
        let f := typeFmt e.t
        let r := fFma f e.mode e.flush (Val.ofInt p.1) (f.decode b.1) (f.decode a.1)
        (r.1, flagOr (flagOr a.2 b.2) r.2), none⟩) s)

/-- VMOV: the bits of a; a port source is decoded (09 R248). -/
def execVmov (o : VSlot) (s : State) : Host.Outcome State Fault Refusal :=
  .next (vRun (VForm.move 0x59 2 o) o (fun _ i => ⟨i.a, none⟩) s)

/-- VZERO: zero bits (09 R248). -/
def execVzero (o : VSlot) (s : State) : Host.Outcome State Fault Refusal :=
  .next (vRun (VForm.move 0x5A 2 o) o (fun e _ => ⟨e.act.map fun _ => (0, 0), none⟩) s)

end Sys2Proof.Machine
end

