-- ==== Sys2Proof/Machine/Wslot.lean ====
section
/-! DEFINITION. The switch: the W-slot instructions over the clusters of an array or of a fused tower (10 R272 to R274;
05 R129). -/

namespace Sys2Proof.Machine

/-- Clusters that the switch spans (10 R272). -/
def switchSpan (s : State) : Nat := 16 * s.issue.length

/-- Register `vs` of every cluster, by tower cluster index, as each SP names it. -/
def switchRows (s : State) (vs : Nat) : List Nat :=
  (s.issue.map fun k => match s.ctx k with
    | none => List.replicate 16 0
    | some c => (List.range 16).map fun cl => c.vr cl vs).flatten

/-- The latency of the permutations, and of the sums by type (10 R274). -/
def permLatency (s : State) : Nat := match s.issue.length with | 4 => 8 | 2 => 6 | _ => 4
def sumSwitchLatency (s : State) (t : Nat) : Nat :=
  match s.issue.length, decide (t < 4) with
  | 4, true => 14 | 2, true => 11 | _, true => 8
  | 4, false => 20 | 2, false => 16 | _, false => 12

/-- A row for every cluster, from its tower cluster index, with the flags it raised, landing in `vd`. -/
def switchWrite (lat p vd : Nat) (f : Nat → Ctx → Nat → Nat × Nat) (s : State) : State :=
  s.uniform p fun k c =>
    let m := s.issue.idxOf k
    let rs := (List.range 16).map fun cl => (cl, f k c (16 * m + cl))
    (c.later lat (.rows (rs.map fun r => wholeRow c.kern r.1 vd r.2.1))).raiseIn lat (flagsOf (rs.map fun r => r.2.2))

/-- WPERM: vs of cluster i[ia] mod N (10 R272). -/
def execWperm (p vd vs ia : Nat) (s : State) : Host.Outcome State Fault Refusal :=
  .next (switchWrite (permLatency s) p vd (fun _ c t => ((switchRows s vs).getD (c.ir (t % 16) ia % switchSpan s) 0, 0)) s)

/-- WBCAST: vs of cluster n (10 R272). -/
def execWbcast (p vd vs n : Nat) (s : State) : Host.Outcome State Fault Refusal :=
  .next (switchWrite (permLatency s) p vd (fun _ _ _ => ((switchRows s vs).getD n 0, 0)) s)

/-- WROT: vs of cluster (c − n) mod N, n signed (10 R272). -/
def execWrot (p vd vs n : Nat) (s : State) : Host.Outcome State Fault Refusal :=
  .next (switchWrite (permLatency s) p vd (fun _ _ t =>
    ((switchRows s vs).getD (((t : Int) - sint 8 n) % (switchSpan s : Int)).toNat 0, 0)) s)

/-- WBFLY: vs of cluster c XOR n (10 R272). -/
def execWbfly (p vd vs n : Nat) (s : State) : Host.Outcome State Fault Refusal :=
  .next (switchWrite (permLatency s) p vd (fun _ _ t => ((switchRows s vs).getD (Nat.xor t n) 0, 0)) s)

/-- A cluster's elements in a switch sum, and the flags its own additions have raised. -/
abbrev SumRow := List Nat × Nat

/-- Element by element, `a + b`; the flags of `own` grow by those raised. -/
def addRows (t mode : Nat) (flush : Bool) (own : Nat) (a b : List Nat) : SumRow :=
  let es := (a.zip b).map fun p => addElem t mode flush (p.1, 0) (p.2, 0)
  (es.map (·.1), flagOr own (flagsOf (es.map (·.2))))

/-- One stage of distance `d` of the butterfly (05 R129). -/
def butterflyStage (add : Nat → List Nat → List Nat → SumRow) (d : Nat) (x : List SumRow) : List SumRow :=
  (List.range x.length).map fun c =>
    let j := Nat.xor c d
    add (x.getD c ([], 0)).2 (x.getD (min c j) ([], 0)).1 (x.getD (max c j) ([], 0)).1

/-- One level of distance `d` of a scan; `from_ c` is the first cluster of the segment of `c`. -/
def switchScanLevel (add : Nat → List Nat → List Nat → SumRow) (from_ : Nat → Nat) (d : Nat) (x : List SumRow) : List SumRow :=
  (List.range x.length).map fun c =>
    let own := x.getD c ([], 0)
    if d ≤ c ∧ from_ c ≤ c - d then add own.2 (x.getD (c - d) ([], 0)).1 own.1 else own

/-- Stages at the distances 1, 2, 4, … `n` of them, from `d`. -/
def switchStages (f : Nat → List SumRow → List SumRow) : Nat → Nat → List SumRow → List SumRow
  | 0, _, x => x
  | n + 1, d, x => switchStages f n (2 * d) (f d x)

/-- The elements of every cluster, after the operand flush of exposed mode (05 R118). -/
def switchInputs (s : State) (vs t : Nat) : List SumRow :=
  let flush := match s.leader with | some (_, l) => l.kern.exposed | none => false
  (switchRows s vs).map fun r =>
    ((rowElems (typeBytes t) r).map fun b => if flush && decide (4 ≤ t) then (typeFmt t).flushIn b else b, 0)

/-- A row that a switch scan delivers as it was read, in the first cluster of a segment. -/
def passRow (s : State) (t : Nat) (r : SumRow) : SumRow :=
  match s.leader with
  | none => r
  | some (_, l) => let es := r.1.map fun b => passElem t l.kern.kmode l.kern.exposed (b, 0); (es.map (·.1), flagOr r.2 (flagsOf (es.map (·.2))))

/-- A scan over the clusters within segments; `from_ c` is the first cluster of the segment of `c` (05 R129, 10 R273). -/
def switchScan (s : State) (t : Nat) (add : Nat → List Nat → List Nat → SumRow) (from_ : Nat → Nat) (x : List SumRow) : List SumRow :=
  let r := switchStages (switchScanLevel add from_) (Nat.log2 (switchSpan s)) 1 x
  (List.range r.length).map fun c => let own := r.getD c ([], 0); if from_ c = c then passRow s t own else own

/-- The addition of a switch sum: kmode and the result flush (10 R272). -/
def switchAdd (s : State) (t : Nat) : Nat → List Nat → List Nat → SumRow :=
  match s.leader with
  | some (_, l) => addRows t l.kern.kmode l.kern.exposed
  | none => addRows t 0 false

/-- A switch sum lands in every cluster. -/
def switchSum (p vd t : Nat) (res : List SumRow) (s : State) : State :=
  switchWrite (sumSwitchLatency s t) p vd (fun _ _ c =>
    let r := res.getD c ([], 0); (packElems (8 * typeBytes t) r.1, r.2)) s

/-- WRSUM: the sum over all clusters, by the butterfly (05 R129). -/
def execWrsum (p vd vs n : Nat) (s : State) : Host.Outcome State Fault Refusal :=
  .next (switchSum p vd n (switchStages (butterflyStage (switchAdd s n)) (Nat.log2 (switchSpan s)) 1 (switchInputs s vs n)) s)

/-- WRMAX: the element-wise maximum over all clusters by the rules of VRMAX (10 R272, 09 R244). -/
def execWrmax (p vd vs n : Nat) (s : State) : Host.Outcome State Fault Refusal :=
  let x := switchInputs s vs n
  let flush := match s.leader with | some (_, l) => l.kern.exposed | none => false
  let env : VEnv := ⟨n, 0, flush, 1, List.replicate x.length true⟩
  let z := if n < 4 then 2 ^ (8 * typeBytes n - 1) else (typeFmt n).infBits true
  let es := (List.range (128 / typeBytes n)).map fun j => reduceExtreme env true z (x.map fun r => (r.1.getD j 0, 0))
  .next (switchSum p vd n (x.map fun _ => (es.map (·.1), flagsOf (es.map (·.2)))) s)

/-- WSCAN: inclusive prefix sums over the clusters (05 R129). -/
def execWscan (p vd vs n : Nat) (s : State) : Host.Outcome State Fault Refusal :=
  .next (switchSum p vd n (switchScan s n (switchAdd s n) (fun _ => 0) (switchInputs s vs n)) s)

/-- The first cluster of the segment of cluster `c`: the run of equal keys that `c` stands in. -/
def segmentStart (keys : List Nat) : Nat → Nat
  | 0 => 0
  | c + 1 => if keys.getD c 0 = keys.getD (c + 1) 0 then segmentStart keys c else c + 1

/-- WSEGSUM: inclusive sums within segments of equal keys (10 R273). -/
def execWsegsum (p vd vs t ia : Nat) (s : State) : Host.Outcome State Fault Refusal :=
  let keys := (s.issue.map fun k => match s.ctx k with
    | none => List.replicate 16 0
    | some c => (List.range 16).map fun cl => c.ir cl ia).flatten
  .next (switchSum p vd t (switchScan s t (switchAdd s t) (segmentStart keys) (switchInputs s vs t)) s)

end Sys2Proof.Machine
end

