-- ==== Sys2Proof/Machine/Slots.lean ====
section
/-! DEFINITION. From a slot word to the meaning of its instruction: the tables of the slot decoders, with meanings in the
place of instructions. A word that is no instruction has none. `Laws/Slots.lean` proves that they agree with the decoders. -/

namespace Sys2Proof.Machine

/-- A meaning that waits for its state. -/
abbrev Meaning := State → Host.Outcome State Fault Refusal

/-- The C slot (04 R106, 08 R198). -/
def runC (w : Nat) (x : Option Nat) : Option Meaning :=
  match fld w 0 6 with
  | 0x01 => if x = none then some (execPbt (fld w 6 4) (fld w 10 3) (fld w 13 19)) else none
  | 0x02 => if fld w 24 8 = 0 ∧ (fld w 13 3) < 6 ∧ x = none then some (execCmp (fld w 6 4) (fld w 10 3) (fld w 13 3) (fld w 16 4) (fld w 20 4)) else none
  | 0x03 => if (fld w 13 3) < 6 ∧ x = none then some (execCmpi (fld w 6 4) (fld w 10 3) (fld w 13 3) (fld w 16 4) (fld w 20 12)) else none
  | 0x04 =>
    let p := fld w 6 4; let b := fld w 10 3; let c := fld w 13 3
    if fld w 18 14 = 0 ∧ x = none then
      match fld w 16 2 with
      | 0 => some (execBrT p b c)
      | 1 => some (execBrF p b c)
      | 2 => if c = 0 then some (execBr p b) else none
      | _ => if c = 0 ∧ b = 0 then some (execBrR p) else none
    else none
  | 0x05 => if fld w 13 19 = 0 ∧ x = none then some (execBrl (fld w 6 4) (fld w 10 3)) else none
  | 0x06 => if fld w 13 3 = 0 ∧ ((fld w 12 1) = 0 ∨ (fld w 16 16) < 16) ∧ x = none then some (execLoop (fld w 6 4) (fld w 10 2) (fld w 12 1) (fld w 16 16)) else none
  | 0x07 => if fld w 13 3 = 0 ∧ ((fld w 12 1) = 0 ∨ (fld w 16 16) < 16) ∧ x = none then some (execLoopi (fld w 6 4) (fld w 10 2) (fld w 12 1) (fld w 16 16)) else none
  | 0x08 => if ((fld w 12 1) = 0 ∨ (fld w 16 16) < 16) ∧ x = none then some (execLoopm (fld w 6 4) (fld w 10 2) (fld w 12 1) (fld w 16 16) (fld w 13 3)) else none
  | 0x09 => if fld w 25 7 = 0 ∧ x = none then some (execVany (fld w 6 4) (fld w 10 3) (fld w 13 7) (fld w 20 2) (fld w 22 3)) else none
  | 0x0A => if fld w 25 7 = 0 ∧ x = none then some (execVall (fld w 6 4) (fld w 10 3) (fld w 13 7) (fld w 20 2) (fld w 22 3)) else none
  | 0x0B => if fld w 23 9 = 0 ∧ x = none then some (execClog (fld w 6 4) (fld w 10 3) (fld w 13 3) (fld w 16 3) (fld w 19 4)) else none
  | 0x0C => if fld w 10 22 = 0 ∧ x = none then some (execYieldK (fld w 6 4)) else none
  | 0x0D => if fld w 12 20 = 0 ∧ x = none then some (execSync (fld w 6 4) (fld w 10 2)) else none
  | 0x0E => if fld w 10 22 = 0 ∧ x = none then some (execDecouple (fld w 6 4)) else none
  | 0x0F => if fld w 10 22 = 0 ∧ x = none then some (execRejoin (fld w 6 4)) else none
  | 0x10 => if fld w 10 22 = 0 ∧ x = none then some (execEndK (fld w 6 4)) else none
  | 0x11 => if fld w 18 14 = 0 ∧ x = none then some (execKtrap (fld w 6 4) (fld w 10 8)) else none
  | 0x12 => if fld w 22 10 = 0 ∧ x = none then some (execQadd (fld w 6 4) (fld w 10 4) (fld w 14 4) (fld w 18 4)) else none
  | 0x13 => if fld w 22 10 = 0 ∧ x = none then some (execQsub (fld w 6 4) (fld w 10 4) (fld w 14 4) (fld w 18 4)) else none
  | 0x14 => some (execQaddi (fld w 6 4) (fld w 10 4) (fld w 14 4) (fld w 18 14) x)
  | 0x15 => if fld w 22 10 = 0 ∧ x = none then some (execQmul (fld w 6 4) (fld w 10 4) (fld w 14 4) (fld w 18 4)) else none
  | 0x16 => if fld w 22 10 = 0 ∧ x = none then some (execQand (fld w 6 4) (fld w 10 4) (fld w 14 4) (fld w 18 4)) else none
  | 0x17 => if fld w 22 10 = 0 ∧ x = none then some (execQor (fld w 6 4) (fld w 10 4) (fld w 14 4) (fld w 18 4)) else none
  | 0x18 => if fld w 22 10 = 0 ∧ x = none then some (execQxor (fld w 6 4) (fld w 10 4) (fld w 14 4) (fld w 18 4)) else none
  | 0x19 => if fld w 22 10 = 0 ∧ x = none then some (execQshl (fld w 6 4) (fld w 10 4) (fld w 14 4) (fld w 18 4)) else none
  | 0x1A => if fld w 22 10 = 0 ∧ x = none then some (execQshr (fld w 6 4) (fld w 10 4) (fld w 14 4) (fld w 18 4)) else none
  | 0x1B => if fld w 22 10 = 0 ∧ x = none then some (execQsra (fld w 6 4) (fld w 10 4) (fld w 14 4) (fld w 18 4)) else none
  | 0x1C => if fld w 22 10 = 0 ∧ x = none then some (execQmin (fld w 6 4) (fld w 10 4) (fld w 14 4) (fld w 18 4)) else none
  | 0x1D => if fld w 22 10 = 0 ∧ x = none then some (execQmax (fld w 6 4) (fld w 10 4) (fld w 14 4) (fld w 18 4)) else none
  | 0x1E => some (execQli (fld w 6 4) (fld w 10 4) (fld w 14 18) x)
  | 0x1F => if fld w 18 14 = 0 ∧ (fld w 14 4) < 9 ∧ x = none then some (execQget (fld w 6 4) (fld w 10 4) (fld w 14 4)) else none
  | 0x20 => if fld w 17 15 = 0 ∧ x = none then some (execMset (fld w 6 4) (fld w 10 3) (fld w 13 4)) else none
  | 0x21 => if fld w 18 14 = 0 ∧ (fld w 12 6) ≤ 32 ∧ x = none then some (execMwait (fld w 6 4) (fld w 10 2) (fld w 12 6)) else none
  | 0x22 => if fld w 26 6 = 0 ∧ (fld w 10 3) ≠ 0 ∧ ((fld w 15 1) = 0 ∨ (fld w 16 10) < 16) ∧ x = none then some (execPset (fld w 6 4) (fld w 10 3) (fld w 13 2) (fld w 15 1) (fld w 16 10)) else none
  | 0x23 => if fld w 22 10 = 0 ∧ (fld w 10 3) ≠ 0 ∧ (fld w 15 3) < 6 ∧ x = none then some (execPtail (fld w 6 4) (fld w 10 3) (fld w 13 2) (fld w 18 4) (fld w 15 3)) else none
  | 0x24 => if fld w 27 5 = 0 ∧ x = none then some (execKsr (fld w 6 4) (fld w 10 4) (fld w 14 13)) else none
  | 0x25 => if fld w 14 18 = 0 ∧ x = none then some (execKsc (fld w 6 4) (fld w 10 4)) else none
  | 0x26 =>
    if fld w 17 15 = 0 ∧ x = none then
      if fld w 12 1 = 0 then
        if fld w 13 4 = 0 then some (execKmode (fld w 6 4) 0 (fld w 10 2)) else none
      else if fld w 10 2 = 0 then some (execKmode (fld w 6 4) 1 (fld w 13 4)) else none
    else none
  | 0x27 => if fld w 18 14 = 0 ∧ x = none then some (execPref (fld w 6 4) (fld w 10 4) (fld w 14 4)) else none
  | 0x28 => if fld w 21 11 = 0 ∧ (fld w 18 3) < 5 ∧ x = none then some (execQsd (fld w 6 4) (fld w 10 4) (fld w 14 4) (fld w 18 3)) else none
  | _ => none

/-- The S slot (04 R107, 09 R233). -/
def runS (w : Nat) (x : Option Nat) : Option Meaning :=
  match fld w 0 6 with
  | 0x01 => if fld w 25 7 = 0 ∧ x = none then some (execGadd (fld w 6 4) (fld w 10 5) (fld w 15 5) (fld w 20 5)) else none
  | 0x02 => if fld w 25 7 = 0 ∧ x = none then some (execGsub (fld w 6 4) (fld w 10 5) (fld w 15 5) (fld w 20 5)) else none
  | 0x03 => some (execGaddi (fld w 6 4) (fld w 10 5) (fld w 15 5) (fld w 20 12) x)
  | 0x04 => if fld w 25 7 = 0 ∧ x = none then some (execGmul (fld w 6 4) (fld w 10 5) (fld w 15 5) (fld w 20 5)) else none
  | 0x05 => if (fld w 25 7) < 2 ∧ x = none then some (execGmulh (fld w 6 4) (fld w 10 5) (fld w 15 5) (fld w 20 5) (fld w 25 7)) else none
  | 0x06 => if fld w 25 7 = 0 ∧ x = none then some (execGand (fld w 6 4) (fld w 10 5) (fld w 15 5) (fld w 20 5)) else none
  | 0x07 => if fld w 25 7 = 0 ∧ x = none then some (execGor (fld w 6 4) (fld w 10 5) (fld w 15 5) (fld w 20 5)) else none
  | 0x08 => if fld w 25 7 = 0 ∧ x = none then some (execGxor (fld w 6 4) (fld w 10 5) (fld w 15 5) (fld w 20 5)) else none
  | 0x09 => if fld w 25 7 = 0 ∧ x = none then some (execGshl (fld w 6 4) (fld w 10 5) (fld w 15 5) (fld w 20 5)) else none
  | 0x0A => if fld w 25 7 = 0 ∧ x = none then some (execGshr (fld w 6 4) (fld w 10 5) (fld w 15 5) (fld w 20 5)) else none
  | 0x0B => if fld w 25 7 = 0 ∧ x = none then some (execGsra (fld w 6 4) (fld w 10 5) (fld w 15 5) (fld w 20 5)) else none
  | 0x0C => if (fld w 20 5) < 4 ∧ (fld w 25 7) < 64 ∧ x = none then some (execGshi (fld w 6 4) (fld w 10 5) (fld w 15 5) (fld w 20 5) (fld w 25 7)) else none
  | 0x0D => if fld w 25 7 = 0 ∧ x = none then some (execGmin (fld w 6 4) (fld w 10 5) (fld w 15 5) (fld w 20 5)) else none
  | 0x0E => if fld w 25 7 = 0 ∧ x = none then some (execGmax (fld w 6 4) (fld w 10 5) (fld w 15 5) (fld w 20 5)) else none
  | 0x0F => if fld w 25 7 = 0 ∧ x = none then some (execGslt (fld w 6 4) (fld w 10 5) (fld w 15 5) (fld w 20 5)) else none
  | 0x10 => if fld w 25 7 = 0 ∧ x = none then some (execGsltn (fld w 6 4) (fld w 10 5) (fld w 15 5) (fld w 20 5)) else none
  | 0x11 => if fld w 15 5 = 0 then some (execGli (fld w 6 4) (fld w 10 5) (fld w 20 12) x) else none
  | 0x12 => if fld w 19 13 = 0 ∧ x = none then some (execGfrq (fld w 6 4) (fld w 10 5) (fld w 15 4)) else none
  | 0x13 => if x = none then some (execGext (fld w 6 4) (fld w 10 5) (fld w 15 5) (fld w 20 5) (fld w 25 7)) else none
  | 0x14 => if (fld w 25 7) < 64 ∧ x = none then some (execGins (fld w 6 4) (fld w 10 5) (fld w 15 5) (fld w 20 5) (fld w 25 7)) else none
  | 0x15 => if fld w 15 17 = 0 ∧ x = none then some (execGcid (fld w 6 4) (fld w 10 5)) else none
  | 0x16 => if fld w 25 7 = 0 ∧ x = none then some (execGsel (fld w 6 4) (fld w 10 5) (fld w 15 5) (fld w 20 5)) else none
  | 0x17 => if fld w 20 12 = 0 ∧ x = none then some (execGclz (fld w 6 4) (fld w 10 5) (fld w 15 5)) else none
  | _ => none

/-- The X slot (04 R109, 10 R252). -/
def runX (w : Nat) (x : Option Nat) : Option Meaning :=
  match fld w 0 6 with
  | 0x01 => if fld w 22 10 = 0 ∧ x = none then some (execXadd (fld w 6 4) (fld w 10 4) (fld w 14 4) (fld w 18 4)) else none
  | 0x02 => if fld w 18 4 = 0 then some (execXaddi (fld w 6 4) (fld w 10 4) (fld w 14 4) (fld w 22 10) x) else none
  | 0x03 => if fld w 22 10 = 0 ∧ x = none then some (execXsub (fld w 6 4) (fld w 10 4) (fld w 14 4) (fld w 18 4)) else none
  | 0x04 => if fld w 22 10 = 0 ∧ x = none then some (execXshl (fld w 6 4) (fld w 10 4) (fld w 14 4) (fld w 18 4)) else none
  | 0x05 => if fld w 22 10 = 0 ∧ x = none then some (execXand (fld w 6 4) (fld w 10 4) (fld w 14 4) (fld w 18 4)) else none
  | 0x06 => if fld w 18 14 = 0 ∧ x = none then some (execXpopc (fld w 6 4) (fld w 10 4) (fld w 14 4)) else none
  | 0x07 => if fld w 22 10 = 0 ∧ x = none then some (execXpopb (fld w 6 4) (fld w 10 4) (fld w 14 4) (fld w 18 4)) else none
  | 0x08 => if fld w 22 10 = 0 ∧ x = none then some (execXcadv (fld w 6 4) (fld w 10 4) (fld w 14 4) (fld w 18 4)) else none
  | 0x09 =>
    if fld w 23 9 = 0 ∧ x = none then
      if fld w 22 1 = 0 then some (execXdiagStep (fld w 6 4) (fld w 10 4) (fld w 14 4) (fld w 18 4))
      else if fld w 18 4 = 0 then some (execXdiagMid (fld w 6 4) (fld w 10 4) (fld w 14 4)) else none
    else none
  | 0x0A => if fld w 18 4 = 0 ∧ x = none then some (execXaq (fld w 6 4) (fld w 10 4) (fld w 14 4) (fld w 22 10)) else none
  | 0x0B => if fld w 18 4 = 0 ∧ x = none then some (execXaqs (fld w 6 4) (fld w 10 4) (fld w 14 4) (fld w 22 10)) else none
  | 0x0C => if fld w 22 10 = 0 ∧ x = none then some (execXmin (fld w 6 4) (fld w 10 4) (fld w 14 4) (fld w 18 4)) else none
  | 0x0D => if fld w 22 10 = 0 ∧ x = none then some (execXsel (fld w 6 4) (fld w 10 4) (fld w 14 4) (fld w 18 4)) else none
  | 0x0E => if fld w 14 8 = 0 then some (execXli (fld w 6 4) (fld w 10 4) (fld w 22 10) x) else none
  | 0x0F => if fld w 14 8 = 0 ∧ fld w 27 5 = 0 ∧ x = none then some (execXfrg (fld w 6 4) (fld w 10 4) (fld w 22 5)) else none
  | 0x10 => if fld w 10 4 = 0 ∧ fld w 18 4 = 0 ∧ fld w 27 5 = 0 ∧ x = none then some (execXtog (fld w 6 4) (fld w 22 5) (fld w 14 4)) else none
  | 0x11 => if fld w 22 10 = 0 ∧ x = none then some (execXrank (fld w 6 4) (fld w 10 4) (fld w 14 4) (fld w 18 4)) else none
  | 0x12 => if fld w 22 10 = 0 ∧ x = none then some (execXmax (fld w 6 4) (fld w 10 4) (fld w 14 4) (fld w 18 4)) else none
  | _ => none

/-- The M slot (11 R282). -/
def runM (w : Nat) (x : Option Nat) : Option Meaning :=
  match fld w 0 6 with
  | 0x01 => if x = none then some (execMcall (fld w 6 4) (fld w 10 8) (fld w 18 2) (fld w 20 4) (fld w 24 4) (fld w 28 4)) else none
  | 0x02 => if fld w 10 8 = 0 ∧ fld w 20 12 = 0 ∧ x = none then some (execMzero (fld w 6 4) (fld w 18 2)) else none
  | 0x03 => if fld w 10 8 = 0 ∧ fld w 20 8 = 0 ∧ fld w 29 3 = 0 ∧ x = none then some (execMmode (fld w 6 4) (fld w 18 2) (fld w 28 1)) else none
  | 0x04 => if fld w 10 22 = 0 ∧ x = none then some (execMfence (fld w 6 4)) else none
  | 0x05 => if fld w 10 8 = 0 ∧ fld w 20 8 = 0 ∧ fld w 29 3 = 0 ∧ x = none then some (execMwm (fld w 6 4) (fld w 18 2) (fld w 28 1)) else none
  | _ => none

/-- The W slot (10 R272). -/
def runW (w : Nat) (x : Option Nat) : Option Meaning :=
  match fld w 0 6 with
  | 0x01 => if fld w 28 4 = 0 ∧ x = none then some (execWperm (fld w 6 4) (fld w 10 7) (fld w 17 7) (fld w 24 4)) else none
  | 0x02 => if x = none then some (execWbcast (fld w 6 4) (fld w 10 7) (fld w 17 7) (fld w 24 8)) else none
  | 0x03 => if x = none then some (execWrot (fld w 6 4) (fld w 10 7) (fld w 17 7) (fld w 24 8)) else none
  | 0x04 => if x = none then some (execWbfly (fld w 6 4) (fld w 10 7) (fld w 17 7) (fld w 24 8)) else none
  | 0x05 => if fld w 27 5 = 0 ∧ (fld w 24 3) < 7 ∧ x = none then some (execWrsum (fld w 6 4) (fld w 10 7) (fld w 17 7) (fld w 24 3)) else none
  | 0x06 => if fld w 27 5 = 0 ∧ (fld w 24 3) < 7 ∧ x = none then some (execWrmax (fld w 6 4) (fld w 10 7) (fld w 17 7) (fld w 24 3)) else none
  | 0x07 => if fld w 31 1 = 0 ∧ (fld w 24 3) < 7 ∧ x = none then some (execWsegsum (fld w 6 4) (fld w 10 7) (fld w 17 7) (fld w 24 3) (fld w 27 4)) else none
  | 0x08 => if fld w 27 5 = 0 ∧ (fld w 24 3) < 7 ∧ x = none then some (execWscan (fld w 6 4) (fld w 10 7) (fld w 17 7) (fld w 24 3)) else none
  | _ => none

/-- The P slot (10 R261). -/
def runP (w : Nat) (x : Option Nat) : Option Meaning :=
  match fld w 0 6 with
  | 0x01 => if fld w 24 8 = 0 ∧ (fld w 21 3) < 6 ∧ (fld w 14 7) + (fld w 21 3) < 128 ∧ x = none then some (execSpop (fld w 6 4) (fld w 10 4) (fld w 14 7) (fld w 21 3)) else none
  | 0x02 => if fld w 24 8 = 0 ∧ (fld w 21 3) < 6 ∧ (fld w 14 7) + (fld w 21 3) < 128 ∧ x = none then some (execSpush (fld w 6 4) (fld w 10 4) (fld w 14 7) (fld w 21 3)) else none
  | 0x03 => if fld w 14 7 = 0 then some (execSadv (fld w 6 4) (fld w 10 4) (fld w 21 11) x) else none
  | 0x04 => if fld w 24 8 = 0 ∧ (fld w 21 3) < 6 ∧ (fld w 14 7) + (fld w 21 3) < 128 ∧ x = none then some (execSpeek (fld w 6 4) (fld w 10 4) (fld w 14 7) (fld w 21 3)) else none
  | 0x05 => if fld w 27 5 = 0 ∧ x = none then some (execSldl (fld w 6 4) (fld w 10 4) (fld w 14 7) (fld w 21 4) (fld w 25 2)) else none
  | 0x06 => if fld w 27 5 = 0 ∧ x = none then some (execSstu (fld w 6 4) (fld w 10 4) (fld w 14 7) (fld w 21 4) (fld w 25 2)) else none
  | 0x07 => if (fld w 21 11) % 128 = 0 then some (execSld (fld w 6 4) (fld w 10 4) (fld w 14 7) (fld w 21 11) x) else none
  | 0x08 => if (fld w 21 11) % 128 = 0 then some (execSst (fld w 6 4) (fld w 10 4) (fld w 14 7) (fld w 21 11) x) else none
  | 0x09 => if fld w 10 4 = 0 ∧ fld w 28 4 = 0 ∧ (fld w 21 5) < 128 / 2 ^ (fld w 26 2) ∧ x = none then some (execDqpop (fld w 6 4) (fld w 14 7) (fld w 21 5) (fld w 26 2)) else none
  | 0x0A => if fld w 10 4 = 0 ∧ fld w 21 11 = 0 ∧ x = none then some (execDqn (fld w 6 4) (fld w 14 7)) else none
  | 0x0B => if fld w 14 18 = 0 ∧ x = none then some (execSflush (fld w 6 4) (fld w 10 4)) else none
  | 0x0C => if fld w 14 7 = 0 ∧ x = none then some (execKcopy (fld w 6 4) (fld w 10 4) (fld w 21 1) (fld w 22 10)) else none
  | 0x0D => if fld w 21 11 = 0 ∧ x = none then some (execSpos (fld w 6 4) (fld w 10 4) (fld w 14 7)) else none
  | 0x0E => if fld w 14 18 = 0 ∧ x = none then some (execSeos (fld w 6 4) (fld w 10 4)) else none
  | _ => none

/-- The V slots (04 R108). -/
def runV (o : VSlot) : Nat → Option Meaning
  | 0x01 => some (execVadd o)
  | 0x02 => some (execVsub o)
  | 0x03 => some (execVadds o)
  | 0x04 => some (execVaddn o)
  | 0x05 => some (execVsubs o)
  | 0x06 => some (execVsubn o)
  | 0x07 => some (execVmul o)
  | 0x08 => some (execVmulh o)
  | 0x09 => some (execVmulhn o)
  | 0x0A => some (execVmac o)
  | 0x0B => some (execVmacw o)
  | 0x0C => some (execVmin o)
  | 0x0D => some (execVmax o)
  | 0x0E => some (execVminn o)
  | 0x0F => some (execVmaxn o)
  | 0x10 => some (execVabs o)
  | 0x11 => some (execVneg o)
  | 0x12 => some (execVand o)
  | 0x13 => some (execVor o)
  | 0x14 => some (execVxor o)
  | 0x15 => some (execVandn o)
  | 0x16 => some (execVshl o)
  | 0x17 => some (execVshr o)
  | 0x18 => some (execVsra o)
  | 0x19 => some (execVsrar o)
  | 0x1A => some (execVnarrow o)
  | 0x1B => some (execVwiden o)
  | 0x1C => some (execVcmpeq o)
  | 0x1D => some (execVcmplt o)
  | 0x1E => some (execVcmpltn o)
  | 0x1F => some (execVcmple o)
  | 0x20 => some (execVsel o)
  | 0x21 => some (execVclz o)
  | 0x22 => some (execVpopc o)
  | 0x30 => some (execFadd o)
  | 0x31 => some (execFsub o)
  | 0x32 => some (execFmul o)
  | 0x33 => some (execFma o)
  | 0x34 => some (execFms o)
  | 0x35 => some (execFnma o)
  | 0x36 => some (execFmin o)
  | 0x37 => some (execFmax o)
  | 0x38 => some (execFabs o)
  | 0x39 => some (execFneg o)
  | 0x3A => some (execFcmpeq o)
  | 0x3B => some (execFcmplt o)
  | 0x3C => some (execFcmple o)
  | 0x3D => some (execFcmpun o)
  | 0x3E => some (execFclass o)
  | 0x3F => some (execFscale o)
  | 0x40 => some (execVcvt o)
  | 0x41 => some (execVqnt o)
  | 0x42 => some (execVdq o)
  | 0x48 => some (execFrcp o)
  | 0x49 => some (execFrsq o)
  | 0x4A => some (execFexp2 o)
  | 0x4B => some (execFlog2 o)
  | 0x4C => some (execFsin o)
  | 0x4D => some (execFcos o)
  | 0x4E => some (execFtanh o)
  | 0x50 => some (execVrsum o)
  | 0x51 => some (execVrmax o)
  | 0x52 => some (execVrmin o)
  | 0x53 => some (execVamax o)
  | 0x54 => some (execVtopk o)
  | 0x55 => some (execVscan o)
  | 0x56 => some (execVcompress o)
  | 0x57 => some (execVexpand o)
  | 0x58 => some (execVidx o)
  | 0x59 => some (execVmov o)
  | 0x5A => some (execVzero o)
  | _ => none

/-- The meaning of the word of the slot at presence-mask bit `k`; `x` is the high part of an extension word that widens it. -/
def slotMeaning (k w : Nat) (x : Option Nat) : Option Meaning :=
  match k with
  | 0 => runC w x
  | 1 => runS w x
  | 4 => runX w x
  | 5 => runM w x
  | 6 => runW w x
  | 7 => runP w x
  | _ => if vLegal (fld w 0 7) (vslotOf w) then runV (vslotOf w) (fld w 0 7) else none

end Sys2Proof.Machine
end

