-- ==== Sys2Proof/Machine/Bundle.lean ====
section
/-! DEFINITION. Bundles: the registers and ports that slots name, the checks of R110 in their order, the stalls at a bundle
boundary, and BUNDLE_ISSUE (04 R85 to R111; 08; 10 R262 to R271; 11 R283 to R292). -/

namespace Sys2Proof.Machine

/-! ## What a slot names -/

/-- The registers that a slot reads and writes, as encoded, and the stream ports that it names. -/
structure SlotUse where
  reads : List GReg
  writes : List GReg
  ports : List Nat
deriving DecidableEq, Repr

/-- `n` v registers from `v` up. -/
def vRegs (v n : Nat) : List GReg := (List.range n).map fun i => ⟨.v, v + i⟩

/-- The registers of a source field of a V slot that spans `n` registers (04 R101). -/
def operandRegs (f n : Nat) : List GReg :=
  if f < 128 then vRegs f n
  else if 144 ≤ f ∧ f < 176 then [⟨.g, f - 144⟩]
  else if 176 ≤ f ∧ f < 192 then [⟨.q, f - 176⟩]
  else []

/-- The C slot (08 R198). -/
def useC (w : Nat) : SlotUse :=
  let q (lo : Nat) : GReg := ⟨.q, fld w lo 4⟩
  let op := w % 64
  if op = 0x01 then ⟨[], [⟨.b, fld w 10 3⟩], []⟩
  else if op = 0x02 then ⟨[q 16, q 20], [⟨.c, fld w 10 3⟩], []⟩
  else if op = 0x03 then ⟨[q 16], [⟨.c, fld w 10 3⟩], []⟩
  else if op = 0x04 then
    match fld w 16 2 with
    | 3 => ⟨[⟨.q, 15⟩], [], []⟩
    | 2 => ⟨[⟨.b, fld w 10 3⟩], [], []⟩
    | _ => ⟨[⟨.b, fld w 10 3⟩, ⟨.c, fld w 13 3⟩], [], []⟩
  else if op = 0x05 then ⟨[⟨.b, fld w 10 3⟩], [⟨.q, 15⟩], []⟩
  else if op ≤ 0x08 then ⟨⟨.b, fld w 10 2⟩ :: (if fld w 12 1 = 1 then [q 16] else []), [], []⟩
  else if op ≤ 0x0A then ⟨[⟨.v, fld w 13 7⟩, ⟨.p, fld w 22 3⟩], [⟨.c, fld w 10 3⟩], []⟩
  else if op = 0x0B then ⟨[⟨.c, fld w 13 3⟩, ⟨.c, fld w 16 3⟩], [⟨.c, fld w 10 3⟩], []⟩
  else if op ≤ 0x11 then ⟨[], [], []⟩
  else if op = 0x14 then ⟨[q 14], [q 10], []⟩
  else if op ≤ 0x1D then ⟨[q 14, q 18], [q 10], []⟩
  else if op ≤ 0x1F ∨ op = 0x24 ∨ op = 0x28 then ⟨[], [q 10], []⟩
  else if op = 0x20 then ⟨[q 13], [⟨.m, fld w 10 3⟩], []⟩
  else if op = 0x22 then ⟨if fld w 15 1 = 1 then [q 16] else [], [⟨.p, fld w 10 3⟩], []⟩
  else if op = 0x23 then ⟨[q 18], [⟨.p, fld w 10 3⟩], []⟩
  else if op = 0x25 then ⟨[q 10], [], []⟩
  else if op = 0x26 then ⟨if fld w 12 1 = 1 then [q 13] else [], [], []⟩
  else if op = 0x27 then ⟨[q 10, q 14], [], []⟩
  else ⟨[], [], []⟩

/-- The S slot (09 R233). -/
def useS (w : Nat) : SlotUse :=
  let g (lo : Nat) : GReg := ⟨.g, fld w lo 5⟩
  let op := w % 64
  let rs :=
    if op = 0x11 ∨ op = 0x15 then []
    else if op = 0x12 then [⟨.q, fld w 15 4⟩]
    else if op = 0x03 ∨ op = 0x0C ∨ op = 0x17 then [g 15]
    else if op = 0x14 ∨ op = 0x16 then [g 15, g 20, g 10]
    else [g 15, g 20]
  ⟨rs, [g 10], []⟩

/-- The X slot (10 R252 to R255). -/
def useX (w : Nat) : SlotUse :=
  let i (lo : Nat) : GReg := ⟨.i, fld w lo 4⟩
  let op := w % 64
  if op = 0x0A ∨ op = 0x0B then ⟨[i 14], [], []⟩
  else if op = 0x0E then ⟨[], [i 10], []⟩
  else if op = 0x0F then ⟨[⟨.g, fld w 22 5⟩], [i 10], []⟩
  else if op = 0x10 then ⟨[i 14], [⟨.g, fld w 22 5⟩], []⟩
  else if op = 0x02 ∨ op = 0x06 ∨ (op = 0x09 ∧ fld w 22 10 ≠ 0) then ⟨[i 14], [i 10], []⟩
  else if op = 0x08 ∨ op = 0x09 ∨ op = 0x0D then ⟨[i 14, i 18, i 10], [i 10], []⟩
  else ⟨[i 14, i 18], [i 10], []⟩

/-- The M slot: MCALL reads the m registers and counts every register of every tile of its span as written, MZERO those of
its tile (11 R283). -/
def useM (w : Nat) : SlotUse :=
  let tile (t : Nat) : List GReg := vRegs (t % 4 * 32) 32
  if w % 64 = 1 then
    ⟨(List.range 8).map fun i => ⟨.m, i⟩, ((List.range (fld w 30 2 + 1)).map fun i => tile (fld w 18 2 + i)).flatten, []⟩
  else if w % 64 = 2 then ⟨[], tile (fld w 18 2), []⟩
  else ⟨[], [], []⟩

/-- The W slot (10 R272). -/
def useW (w : Nat) : SlotUse :=
  let op := w % 64
  ⟨⟨.v, fld w 17 7⟩ :: (if op = 1 then [⟨.i, fld w 24 4⟩] else if op = 7 then [⟨.i, fld w 27 4⟩] else []), [⟨.v, fld w 10 7⟩], []⟩

/-- The P slot (10 R261). The instructions that pop, push, move, flush, close or copy name their port; SLD, SST, SLDL and SSTU
name a descriptor's polder (log 14). -/
def useP (w : Nat) : SlotUse :=
  let op := w % 64; let v := fld w 14 7; let l := fld w 21 3 + 1; let s := fld w 10 4
  if op = 1 ∨ op = 4 then ⟨[], vRegs v l, [s]⟩
  else if op = 2 then ⟨vRegs v l, [], [s]⟩
  else if op = 5 then ⟨[⟨.i, fld w 21 4⟩], vRegs v 1, []⟩
  else if op = 6 then ⟨⟨.i, fld w 21 4⟩ :: vRegs v 1, [], []⟩
  else if op = 7 ∨ op = 9 ∨ op = 0xA then ⟨[], vRegs v 1, []⟩
  else if op = 8 then ⟨vRegs v 1, [], []⟩
  else if op = 0xD then ⟨vRegs v 1, [], [s]⟩
  else ⟨[], [], [s]⟩

/-- The V slots (04 R101; 09 R250). -/
def useV (w : Nat) : SlotUse :=
  let op := fld w 0 7; let o := vslotOf w; let rd := vReads op; let sp := vSpan op o
  let d := if o.vd < 128 then vRegs o.vd sp.vd else []
  ⟨(if rd.1 then operandRegs o.a sp.a else []) ++ (if rd.2.1 then operandRegs o.b sp.b else []) ++ (if rd.2.2 then operandRegs o.c sp.c else [])
     ++ (if op = 0x0A ∨ op = 0x0B then d else []),
   d ++ (if op = 0x41 then vRegs o.b 1 else []) ++ (if op = 0x54 then vRegs o.c 1 else []),
   ([o.vd] ++ (if rd.1 then [o.a] else []) ++ (if rd.2.1 then [o.b] else []) ++ (if rd.2.2 then [o.c] else [])).filterMap fun f =>
     if isPort f then some (f - 128) else none⟩

/-- The predicate field of a slot word. -/
def slotPred (k w : Nat) : Nat := if k = 2 ∨ k = 3 then fld w 7 4 else fld w 6 4

/-- What a slot names. A compact predicate is read; g0, q0 and p0 do not count (04 R95). -/
def slotUse (k w : Nat) : SlotUse :=
  let u := match k with
    | 0 => useC w
    | 1 => useS w
    | 4 => useX w
    | 5 => useM w
    | 6 => useW w
    | 7 => useP w
    | _ => useV w
  let p := slotPred k w
  let ok (r : GReg) : Bool := decide (r.n ≠ 0) || (decide (r.cls ≠ .g) && decide (r.cls ≠ .q) && decide (r.cls ≠ .p))
  ⟨(if 1 ≤ p ∧ p < 8 then ⟨.p, p⟩ :: u.reads else u.reads).filter ok, u.writes.filter ok, u.ports⟩

/-! ## Whether a slot acts -/

/-- The slot works lock-step or uniform state, so it acts in the first round of a lock section only (10 R270). -/
def slotLockStep (k w : Nat) : Bool :=
  match k with
  | 0 => true
  | 5 => true
  | 6 => true
  | 1 => false
  | 4 => decide (w % 64 = 0xA) || decide (w % 64 = 0xB)
  | 7 => !(decide (5 ≤ w % 64) && decide (w % 64 ≤ 8))
  | _ => !(useV w).ports.isEmpty

/-- The slot has an effect in a context: its predicate lets it, and so does the round. -/
def slotActs (c : Ctx) (k w : Nat) : Bool :=
  (if k = 2 ∨ k = 3 then c.kern.vRuns (fld w 0 7) (fld w 7 4) else c.kern.predOn (slotPred k w))
    && (!slotLockStep k w || c.kern.firstRound)

/-! ## The checks that need the state (04 R110, point 5) -/

/-- The element types of the sources a, b and c and of the destination of a V slot. -/
def vSlotTypes (op : Nat) (o : VSlot) : Nat × Nat × Nat :=
  (if op = 0x40 then o.c % 8 else if op = 0x42 then 0 else if op = 0x0B ∨ op = 0x1B then o.ty - 1 else o.ty,
   if op = 0x0B then o.ty - 1 else if op = 0x42 then 0 else if op = 0x54 then 2 else o.ty,
   if op = 0x41 then 0 else if op = 0x1A then o.ty - 1 else o.ty)

/-- The pops of a V slot: port, rows and bytes of an element. -/
def vSlotPops (w : Nat) : List (Nat × Nat × Nat) :=
  let op := fld w 0 7; let o := vslotOf w; let t := vSlotTypes op o
  (vPops { VForm.plain op 0 o with ta := t.1, tb := t.2.1 } o).map fun q => (q.1, q.2.1, typeBytes q.2.2)

/-- The push of a V slot: port, rows and bytes of an element. -/
def vSlotPush (w : Nat) : Option (Nat × Nat × Nat) :=
  let op := fld w 0 7; let o := vslotOf w
  if isPort o.vd then some (o.vd - 128, (vSpan op o).vd, typeBytes (vSlotTypes op o).2.2) else none

/-- The pops of a P slot; 0 bytes stands for raw elements. -/
def pSlotPops (w : Nat) : List (Nat × Nat × Nat) :=
  if w % 64 = 1 ∨ w % 64 = 4 then [(fld w 10 4, fld w 21 3 + 1, 0)] else []

/-- The pops and the push of a slot. -/
def slotPops (k w : Nat) : List (Nat × Nat × Nat) := if k = 7 then pSlotPops w else if k = 2 ∨ k = 3 then vSlotPops w else []
def slotPush (k w : Nat) : Option (Nat × Nat × Nat) :=
  if k = 7 then (if w % 64 = 2 then some (fld w 10 4, fld w 21 3 + 1, 0) else none) else if k = 2 ∨ k = 3 then vSlotPush w else none

/-- A ring or queue of a port has a whole number of records in a tile, and of tiles (10 R265). -/
def ringLegal (c : Ctx) (d : Desc) : Bool :=
  (c.descPolder d).all fun p =>
    decide (p.kind = 0) || (decide (d.tile * 128 % d.recBytes = 0) && decide (p.size % (d.tile * 128) = 0) && decide (d.tile ≠ 0))

/-- A port may be popped or pushed in steps of elements of `eb` bytes, raw when 0 (10 R262, R263, R265). -/
def portLegal (c : Ctx) (q : Nat × Nat × Nat) : Bool :=
  let d := c.kern.port q.1
  decide (d.fmt ≠ 15) && !(decide (q.2.2 = 0) && decide (d.fmt = 13)) && decide (stepElems d q.2.2 % d.recn = 0) && ringLegal c d

/-- The descriptor of a port stands on a ring or a queue. -/
def portRing (c : Ctx) (sn : Nat) : Bool := (c.descPolder (c.kern.port sn)).any fun p => decide (p.kind ≠ 0)

/-- The checks of a P slot on its port, in one SP. -/
def pSlotLegal (c : Ctx) (w : Nat) (x : Option Nat) : Bool :=
  let op := w % 64; let sn := fld w 10 4; let d := c.kern.port sn
  if op = 1 ∨ op = 2 ∨ op = 4 then portLegal c (sn, 1, 0)
  else if op = 3 then
    decide (d.fmt ≠ 15) && (!portRing c sn || (decide (0 ≤ (slotImm 11 (fld w 21 11) x).toInt) && ringLegal c d))
  else if op = 0xB ∨ op = 0xE then decide (d.fmt ≠ 15) && ringLegal c d
  else if op = 0xC then decide (d.fmt ≠ 15) && ringLegal c d && !d.refused c true true && decide (d.idx / 16 = 0)
  else if op = 0xD then decide (d.fmt ≠ 15) && !portRing c sn
  else true

/-- The port of the SP holds a group of the context's launch (08 R223). -/
def State.holdsDike (s : State) (m : Nat) (c : Ctx) (port : Nat) : Bool :=
  ((KMap.find port (s.sp m).dikes).bind fun e => (s.part (s.partOf c)).bind fun p => KMap.find e p.groups).any fun g => decide (g.launch = c.launch)

/-- The checks of a C slot, in one SP: a branch, loop or END in a delay bundle (08 R210), a seventh loop (R213), the target
of BR.R (R209), a SYNC on a port without a group (R223). -/
def cSlotLegal (s : State) (m : Nat) (c : Ctx) (w : Nat) : Bool :=
  let op := w % 64; let k := c.kern
  let flow := decide (4 ≤ op ∧ op ≤ 8) || decide (op = 0x10)
  !k.firstRound ||
    (!(flow && decide (k.delay ≠ 0)) && !(decide (6 ≤ op ∧ op ≤ 8) && decide (6 ≤ k.loops.length))
      && !(decide (op = 4 ∧ fld w 16 2 = 3) && k.predOn (fld w 6 4)
        && (decide ((k.qr 15).toNat % 2 = 1) || decide ((k.qr 15).toNat < k.lo) || decide (k.hi ≤ (k.qr 15).toNat)))
      && !(decide (op = 0xD) && k.predOn (fld w 6 4) && !s.holdsDike m c (fld w 10 2)))

/-- The checks of a slot on the state, in one SP. -/
def slotLegalIn (s : State) (m : Nat) (c : Ctx) (k w : Nat) (x : Option Nat) : Bool :=
  match k with
  | 0 => cSlotLegal s m c w
  | 1 => true
  | 4 =>
    let d := c.kern.port (fld w 10 4)
    !(decide (w % 64 = 0xA) && decide (13 ≤ d.mfmt)) && !(decide (w % 64 = 0xB) && (decide (d.fmt = 13) || decide (d.fmt = 15)))
  | 5 => !decide (w % 64 = 1) || !slotActs c 5 w || mcallLegal (s.sp m) c (fld w 10 8) (fld w 18 2) (fld w 20 4) (fld w 24 4) (fld w 28 4)
  | 6 => true
  | 7 => pSlotLegal c w x
  | _ => (slotPops k w).all (portLegal c) && (slotPush k w).all (portLegal c)

/-- The limits of WBCAST and WBFLY, by the clusters in force (10 R272). -/
def wSlotLegal (s : State) (k w : Nat) : Bool := decide (k ≠ 6) || !(decide (w % 64 = 2) || decide (w % 64 = 4)) || decide (fld w 24 8 < 16 * s.issue.length)

/-- What the checks of a slot find in SP `m`: 2 ILLEGAL or 4 PRIV, in the order of R110: its opcode, its privilege, its fields, and with these
what its own rule calls illegal in the state that it meets. -/
def slotFault (s : State) (m : Nat) (c : Ctx) (k w : Nat) (x : Option Nat) : Option Nat :=
  if !opLegal k (slotOp k w) c.profile11 then some 2
  else if k = 0 ∧ w % 64 = 0x25 ∧ !c.sysb then some 4
  else if (slotMeaning k w x).isNone ∨ !wSlotLegal s k w ∨ !slotLegalIn s m c k w x then some 2
  else none

/-! ## The bundle at the pc -/

/-- A bundle as it stands in the code: header, slots with their words, and the extension word. -/
structure Bundle where
  addr : Nat
  hdr : Nat
  slots : List (Nat × Nat)
  ext : Nat
deriving DecidableEq, Repr

/-- The bundle at an address (04 R91, R92). -/
def State.bundleAt (s : State) (a : Nat) : Bundle :=
  let hdr := s.codeNat a 2
  let r := slotWords (s.codeNat (a + 2) 44) (slotsOf (hdr % 256))
  ⟨a, hdr, r.1, r.2 % 2 ^ 32⟩

/-- The high part of the extension word for the slot at bit `k` (04 R97). -/
def Bundle.extFor (b : Bundle) (k : Nat) : Option Nat :=
  if bundleXI b.hdr && decide (extSlot (b.ext % 256) = some k) then some (b.ext / 256) else none

/-- The header checks (04 R98). -/
def Bundle.headLegal (b : Bundle) (p11 : Bool) : Bool :=
  !bundleXI b.hdr ||
    (p11 && match extSlot (b.ext % 256) with
      | none => false
      | some k => b.slots.any fun q => decide (q.1 = k) && acceptsExt k (slotOp k q.2))

/-- The names of every slot. -/
def Bundle.uses (b : Bundle) : List SlotUse := b.slots.map fun q => slotUse q.1 q.2

/-- Two lists of one list of lists share an element. -/
def clash {α : Type} [DecidableEq α] : List (List α) → Bool
  | [] => false
  | l :: r => r.any (fun m => m.any l.contains) || clash r

/-- The bundle-wide rules of R95 and R96, against the registers written in the group so far. -/
def Bundle.rulesHold (b : Bundle) (group : List GReg) : Bool :=
  let us := b.uses
  !us.any (fun u => (u.reads ++ u.writes).any group.contains) && !clash (us.map (·.writes)) && !clash (us.map (·.ports))

/-- The clusters that wait once the bundle has issued: those of its lock section, opened or not (10 R270). -/
def Bundle.waiting (b : Bundle) (c : Ctx) : List Nat :=
  let c1 := match b.slots.find? fun q => decide (q.1 = 7) && decide (q.2 % 64 = 5) with
    | some q => if c.kern.predOn (fld q.2 6 4) then ({ c with kern := c.kern.reopen } : Ctx).openLock (fld q.2 10 4) (fld q.2 21 4) (fld q.2 25 2) else c
    | none => c
  (c1.kern.lock.map (·.waiting)).getD []

/-- A taken branch or END of the bundle would leave a lock section in which a cluster waits (10 R270). -/
def Bundle.leavesLock (b : Bundle) (c : Ctx) : Bool :=
  c.kern.firstRound && (b.slots.any fun q =>
    decide (q.1 = 0) && c.kern.predOn (fld q.2 6 4)
      && (decide (q.2 % 64 = 0x10) || decide (q.2 % 64 = 5)
        || (decide (q.2 % 64 = 4) && match fld q.2 16 2 with
          | 0 => c.kern.cr (fld q.2 13 3)
          | 1 => !c.kern.cr (fld q.2 13 3)
          | _ => true)))
    && !(b.waiting c).isEmpty

/-- What the checks of R110 find before a bundle issues: the cause, the slot index and the SP whose check failed. -/
structure BundleFault where
  cause : Nat
  slot : Nat
  sp : Nat
deriving DecidableEq, Repr

/-- The members of the issuing group, with their contexts. -/
def State.issuers (s : State) : List (Nat × Ctx) := s.issue.filterMap fun k => (s.ctx k).map fun c => (k, c)

/-- FETCH_BOUND of the bundle at `a` (04 R87). -/
def State.outOfBound (s : State) (c : Ctx) (a : Nat) : Bool :=
  decide (a < c.cbase.toNat) || decide (c.cbound.toNat < a + 2) || decide (c.cbound.toNat < a + bundleLen (s.codeNat a 2))

/-- The address of the first poisoned line that a byte of the bundle at `a` lies in (04 R90). -/
def State.poisonedBeat (s : State) (a : Nat) : Option Nat :=
  (s.poison.find? fun l => decide (l * 64 < a + bundleLen (s.codeNat a 2)) && decide (a < l * 64 + 64)).map (64 * ·)

/-- Points 1 to 4 of R110, for the leader `k`. -/
def State.headFault (s : State) (k : Nat) (c : Ctx) (b : Bundle) : Option BundleFault :=
  if s.outOfBound c b.addr then some ⟨3, 8, k⟩
  else if c.kern.hi ≤ b.addr then some ⟨2, 8, k⟩
  else if (s.poisonedBeat b.addr).isSome then some ⟨2, 9, k⟩
  else if !b.headLegal c.profile11 then some ⟨2, 8, k⟩
  else none

/-- Points 5 and 6, and then a lock section that would be left. -/
def State.slotFaults (s : State) (k : Nat) (c : Ctx) (b : Bundle) : Option BundleFault :=
  match b.slots.findSome? fun q => s.issuers.findSome? fun m => (slotFault s m.1 m.2 q.1 q.2 (b.extFor q.1)).map fun f => BundleFault.mk f q.1 m.1 with
  | some f => some f
  | none =>
    if !b.rulesHold c.kern.group then some ⟨2, 8, k⟩
    else (s.issuers.find? fun m => b.leavesLock m.2).map fun m => ⟨2, 8, m.1⟩

/-! ## The stalls at the boundary -/

/-- A result in flight goes to register `r`, named by a slot at bit `k`: an M slot names v registers unrotated (08 R216). -/
def Landed.hits (kn : Kern) (k : Nat) (r : GReg) (w : Landed) : Bool :=
  let ph := if k = 5 then r.n else kn.phys r.n
  match w with
  | .word cls _ n _ => decide (cls = r.cls) && decide (n = r.n)
  | .rows l => decide (r.cls = .v) && l.any fun e => decide (e.reg = ph)
  | .fetch _ l => decide (r.cls = .v) && l.any fun e => decide (e.2.1 = ph)
  | _ => false

/-- A result of an instruction that lands by cycles is in flight to a register that the bundle names (08 R196). -/
def Bundle.hazard (b : Bundle) (kn : Kern) : Bool :=
  b.slots.any fun q => let u := slotUse q.1 q.2
    (u.reads ++ u.writes).any fun r => kn.land.any fun l => !l.perBundle && decide (l.left ≠ 0) && l.what.hits kn q.1 r

/-- The same for one that lands by bundles, and will not have landed when this bundle issues (08 R207). -/
def Bundle.bundleHazard (b : Bundle) (kn : Kern) : Bool :=
  b.slots.any fun q => let u := slotUse q.1 q.2
    (u.reads ++ u.writes).any fun r => kn.land.any fun l => l.perBundle && decide (1 < l.left) && l.what.hits kn q.1 r

/-- A pop of a slot must wait for records (10 R265). -/
def popWaits (c : Ctx) (q : Nat × Nat × Nat) : Bool :=
  let d := c.kern.port q.1
  match c.descPolder d with
  | none => false
  | some p => decide (p.kind ≠ 0) && !(decide (p.kind = 2) && p.eos) && decide (availRecs d p < q.2.1 * stepElems d q.2.2 / d.recn)

/-- A push must wait for room (10 R265). -/
def pushWaits (c : Ctx) (q : Nat × Nat × Nat) : Bool :=
  let d := c.kern.port q.1
  match c.descPolder d with
  | none => false
  | some p => decide (p.kind ≠ 0) && decide (roomRecs d p < q.2.1 * stepElems d q.2.2 / d.recn)

/-- A tile row that the slot reads or writes is not final: physical register `r` (11 R291, R292). -/
def rowWaits (c : Ctx) (write : Bool) (r : Nat) : Bool :=
  let t := r / 32; let m := c.matrix
  decide (m.wmOf t ≤ r % 32) && m.names t && (!c.kern.exposed || (!write && decide (m.guardOf t = 1)))

/-- The stall of a C slot: MWAIT (08 R218). -/
def cSlotWaits (c : Ctx) (w : Nat) : Bool := decide (w % 64 = 0x21) && decide (c.matrix.wmOf (fld w 10 2) < fld w 12 6)

/-- The stall of an M slot: a full call queue, MMODE on a tile in use, MFENCE (11 R283, R285, R286). -/
def mSlotWaits (c : Ctx) (w : Nat) : Bool :=
  match w % 64 with
  | 1 => decide (4 ≤ c.matrix.queue.length)
  | 2 => decide (4 ≤ c.matrix.queue.length)
  | 3 => c.matrix.names (fld w 18 2)
  | 4 => !c.matrix.outstanding.isEmpty
  | _ => false

/-- The stall of a P slot other than those of its pops and its push. -/
def pSlotWaits (s : State) (c : Ctx) (w : Nat) (x : Option Nat) : Bool :=
  let sn := fld w 10 4; let d := c.kern.port sn
  match w % 64 with
  | 3 =>
    match c.descPolder d with
    | none => false
    | some p => decide (p.kind ≠ 0) && !(decide (p.kind = 2) && p.eos) && decide (availRecs d p < (slotImm 11 (fld w 21 11) x).toNat)
  | 9 =>
    (List.range 16).any fun cl =>
      let n := min (fld w 21 5 + 1) ((c.dqOf cl).length + (c.aqOf cl).length)
      decide (((c.dqOf cl).takeWhile (·.landed s.now)).length < n)
  | 0xB => decide (pushesLeft c.kern sn ≠ 0)
  | 0xC =>
    if kcopyFree s c d then decide (4 ≤ c.kern.kcq.length) else decide (fld w 22 10 ≠ 0) && decide (c.kern.tokLeft ≠ some 0)
  | _ => false

/-- A slot that acts must wait at the bundle boundary, in one SP. -/
def slotWaits (s : State) (c : Ctx) (k w : Nat) (x : Option Nat) : Bool :=
  slotActs c k w &&
    ((slotPops k w).any (popWaits c) || (slotPush k w).any (pushWaits c)
      || ((decide (k = 2) || decide (k = 3) || decide (k = 6) || decide (k = 7)) &&
          (((slotUse k w).reads.any fun r => decide (r.cls = .v) && rowWaits c false (c.kern.phys r.n))
            || ((slotUse k w).writes.any fun r => decide (r.cls = .v) && rowWaits c true (c.kern.phys r.n))))
      || match k with
        | 0 => cSlotWaits c w
        | 4 => (decide (w % 64 = 0xA) || decide (w % 64 = 0xB)) && (List.range 16).any fun cl => decide (32 ≤ (c.aqOf cl).length)
        | 5 => mSlotWaits c w
        | 7 => pSlotWaits s c w x
        | _ => false)

/-- The KCOPY of a bundle that waits for a token, in one SP: the IA and the limit in cycles (10 R271). -/
def Bundle.tokenWait (b : Bundle) (s : State) (c : Ctx) : Option (Nat × Nat) :=
  match b.slots.find? fun q => decide (q.1 = 7) && decide (q.2 % 64 = 0xC) with
  | none => none
  | some q =>
    let d := c.kern.port (fld q.2 10 4)
    if slotActs c 7 q.2 && !kcopyFree s c d && decide (fld q.2 22 10 ≠ 0) then (kcopyToken s c d).map fun ia => (ia, 64 * fld q.2 22 10) else none

/-! ## Events of a bundle -/

/-- A kernel event at every SP of the bundle: ILLEGAL and PRIV end the kernel, FETCH_BOUND stops it with its results held,
so that on resumption the bundle issues with them as they stand, and the cycle is not counted (07 R190; 08 R197, R201; 03 R77; 04 R87). An
uncorrectable error in the bundle's bytes is logged (04 R90). -/
def State.bundleEvent (s : State) (f : BundleFault) (a : Nat) : State :=
  let mem := s.member f.sp
  s.issue.foldl (fun t k => t.modCtx k fun c =>
    let c1 := c.recordEvent f.cause f.slot mem 0 (a - c.cbase.toNat)
    if f.cause = 3 then
      { c1 with stopped := true, kres := false,
                kern := { c1.kern with phase := .stopped, haltPoint := 6, cycles := c1.kern.cycles - 1, land := c1.kern.land.map fun l => if l.perBundle ∨ l.left = 0 then l else { l with left := l.left + 1 } } }
    else c1.killKernel 2) (if f.slot = 9 then ((s.poisonedBeat a).map fun x => s.logPoison x x).getD s else s)

/-! ## Issue -/

/-- The order in which the slots of a bundle act in the model: as each reads its sources on the issue cycle and results land
later, only DECOUPLE and the loops, which change what later bundles see, must come last (04 R96; log 15). -/
def Bundle.actOrder (b : Bundle) : List (Nat × Nat) :=
  let last := b.slots.filter fun q => decide (q.1 = 0) && (decide (6 ≤ q.2 % 64 ∧ q.2 % 64 ≤ 8) || decide (q.2 % 64 = 0xE))
  (b.slots.filter fun q => !last.contains q) ++ last

/-- The slots act one after another. -/
def actSlots (b : Bundle) : List (Nat × Nat) → State → Host.Outcome State Fault Refusal
  | [], s => .next s
  | q :: l, s =>
    match slotMeaning q.1 q.2 (b.extFor q.1) with
    | none => actSlots b l s
    | some f =>
      match f s with
      | .next t => actSlots b l t
      | o => o

/-- The kernel state as a bundle at `a` with length `len` issues: it occupies 1 + E cycles, and results that land by bundles,
delay bundles and a pending transfer count it. -/
def Kern.startBundle (k : Kern) (b : Bundle) : Kern :=
  { k with
    gap := bundleE b.hdr, last := some b.addr, after := b.addr + bundleLen b.hdr, delay := if k.firstRound then k.delay - 1 else k.delay, haltPoint := 0, tokLeft := none, yielded := false, begun := true,
    xfer := if k.firstRound then k.xfer.map fun x => { x with left := x.left - 1 } else k.xfer,
    land := k.land.map fun l => if l.perBundle then { l with left := l.left - 1 } else l,
    group := if bundleStop b.hdr then [] else k.group ++ (b.uses.map (·.writes)).flatten }

/-- Results that land by bundles and have counted down land now, as the bundle issues (08 R207, R209). -/
def Ctx.landBundles (c : Ctx) : Ctx :=
  let due := c.kern.land.filter fun l => l.perBundle && decide (l.left = 0)
  let c1 := { c with kern := { c.kern with land := c.kern.land.filter fun l => !(l.perBundle && decide (l.left = 0)) } }
  due.foldl (fun c l => match l.what with
    | .word cls cl n v => c.landWord cls cl n v
    | _ => c) c1

/-- The lock section of a bundle with SLDL opens before its slots act (10 R270). -/
def Bundle.preLock (b : Bundle) (c : Ctx) : Ctx :=
  match b.slots.find? fun q => decide (q.1 = 7) && decide (q.2 % 64 = 5) with
  | some q => if c.kern.predOn (fld q.2 6 4) then ({ c with kern := c.kern.reopen } : Ctx).openLock (fld q.2 10 4) (fld q.2 21 4) (fld q.2 25 2) else c
  | none => c

/-- The bundle issues in every SP of the group; the watchdog restarts with the first bundle of a kernel or activation (06 R148). -/
def State.issueBundle (s : State) (b : Bundle) : Host.Outcome State Fault Refusal :=
  actSlots b b.actOrder (s.issue.foldl (fun t k => t.modCtx k fun c =>
    b.preLock ({ c with kern := c.kern.startBundle b, wdog := if c.kern.begun then c.wdog else 0 }).landBundles) s)

/-- A stalled bundle: a result that lands by bundles is seen one cycle later, the token limit runs, and the context asks for
the token it waits for. A stall is a pre-emption point (19 R407). -/
def State.stallBundle (s : State) (b : Bundle) (byBundle : Bool) : State :=
  s.issue.foldl (fun t k =>
    t.withCtx k fun c =>
      let k1 := if byBundle then
          { c.kern with land := c.kern.land.map fun l => if l.perBundle ∧ 1 < l.left then { l with left := 1, perBundle := false } else l } else c.kern
      let tw := b.tokenWait t c
      let left := tw.map fun q => match c.kern.tokLeft with | none => q.2 - 1 | some n => n - 1
      let t1 := t.setCtx k { c with kern := { k1 with haltPoint := 3, yielded := false, tokLeft := left } }
      match tw with
      | none => t1
      | some q => t1.tokWant k q.1) s

/-- The leader of the SPs that issue with `k`. -/
def State.issueAs (s : State) (k : Nat) : State := { s with issue := s.issueGroup k }

/-- BUNDLE_ISSUE: the next bundle of the kernel on SP `k`, if it may issue on this cycle (04 R110): it raises an event, or it
stalls at its boundary, or it issues with all its slots. -/
def execBundleIssue (k : Nat) (s0 : State) : Host.Outcome State Fault Refusal :=
  let s := s0.issueAs k
  match s.leader with
  | none => .next s0
  | some (m, c) =>
    let kn := c.kern
    if kn.phase ≠ .running ∨ kn.gap ≠ 0 ∨ kn.last.isSome ∨ kn.dike.isSome ∨ kn.rejoin ∨ kn.ends ∨ kn.trapN.isSome then .next s0 else
    let b := s.bundleAt kn.pc
    match s.headFault m c b with
    | some f => .next (s.bundleEvent f b.addr)
    | none =>
      let sound := b.slots.all fun q => opLegal q.1 (slotOp q.1 q.2) c.profile11 && (slotMeaning q.1 q.2 (b.extFor q.1)).isSome
      let inter := sound && !kn.exposed
      if inter && s.issuers.any (fun e => b.bundleHazard e.2.kern) then .next (s.stallBundle b true)
      else if inter && s.issuers.any (fun e => b.hazard e.2.kern) then .next (s.stallBundle b false)
      else
        match s.slotFaults m c b with
        | some f => .next (s.bundleEvent f b.addr)
        | none =>
          if s.issuers.any fun e => b.slots.any fun q => slotWaits s e.2 q.1 q.2 (b.extFor q.1) then .next (s.stallBundle b false)
          else s.issueBundle b

end Sys2Proof.Machine
end

