-- ==== Sys2Proof/Machine/Seq.lean ====
section
/-! DEFINITION. The kernel sequencer after and between bundles: results land (08 R196, R197), the decision at the end of a bundle
(lock round 10 R270, END 08 R226, transfer R211, back-edge R214, KTRAP R227), dikes and tower lines (R223 to R225), and what the
controller and the watchdog do to a kernel (07 R188, R190, R192; 06 R148). -/

namespace Sys2Proof.Machine

/-! ## Landing -/

/-- A push has been written: its port moves on (10 R262, R264, R265). -/
def Ctx.pushDone (c : Ctx) (sn recs : Nat) : Ctx :=
  let d := c.kern.port sn
  match c.descPolder d with
  | none => c
  | some p =>
    if p.kind = 0 then
      { c with kern := { c.kern with
          ports := KMap.ins sn { d with pos := min (d.pos + recs) d.len } c.kern.ports,
          pushed := KMap.ins sn (KMap.get 0 c.kern.pushed sn - recs) c.kern.pushed } }
    else c.modPolder (d.polder.getD 0) fun p => { p with tail := (p.tail + recs) % 2 ^ 32, room := p.room - recs }

/-- One result lands in an SP. -/
def Sp.landOne (p : Sp) (w : Landed) : Sp :=
  match p.ctx with
  | none => p
  | some c =>
    match w with
    | .word cls cl n v => { p with ctx := some (c.landWord cls cl n v) }
    | .kmode v => { p with ctx := some { c with kern := { c.kern with kmode := v } } }
    | .rows l => { p with ctx := some { c with v := landRows c.v l } }
    | .fetch h l =>
      { p with ctx := some (c.later 2 (.rows (l.map fun e => ⟨e.1, e.2.1, BitVec.ofNat 1024 (ofBytes (srfLoad p.srf c h e.2.2 128)), rowOnes⟩))) }
    | .flags f => { p with ctx := some (c.orKstat f) }
    | .srf h off n v => { p with srf := srfStore p.srf c h off (toBytes n v) }
    | .advance sn recs => { p with ctx := some (c.pushDone sn recs) }
    | .eos h => { p with ctx := some (c.setEos h) }

/-- A landing that is due now. -/
def Landing.due (l : Landing) : Bool := !l.perBundle && decide (l.left = 0)

/-- The results in flight of a stopped or halted kernel are frozen (08 R197). -/
def Kern.frozen (k : Kern) : Bool :=
  match k.phase with
  | .stopped => true
  | .halted => true
  | .resuming n => decide (1 < n)
  | .reloading n => decide (1 < n)
  | _ => false

/-- One cycle passes for the results in flight; those that are due land, in the order of their issue. -/
def Sp.landDue (p : Sp) : Sp :=
  match p.ctx with
  | none => p
  | some c =>
    if c.kern.frozen then p else
    let ls := c.kern.land.map fun l => if l.perBundle then l else { l with left := l.left - 1 }
    let due := ls.filter Landing.due
    let c1 := { c with kern := { c.kern with land := ls.filter fun l => !l.due } }
    due.foldl (fun q l => q.landOne l.what) { p with ctx := some c1 }

/-- RESULT_LANDING: one cycle of the landing queue of SP `k` (08 R196). -/
def execResultLanding (k : Nat) (s : State) : Host.Outcome State Fault Refusal := .next (s.modSp k Sp.landDue)

/-! ## The end of a bundle -/

/-- The kernels of a list of SPs changed alike. -/
def State.kernAll (s : State) (ks : List Nat) (f : Kern → Kern) : State :=
  ks.foldl (fun t k => t.modCtx k fun c => { c with kern := f c.kern }) s

/-- What falls due when the last cycle of a bundle has passed. -/
inductive BundleEnd
  /-- no bundle has ended -/
  | none
  | round
  | ends
  | transfer (target : Nat)
  | edge
  | settle
deriving DecidableEq, Repr

/-- Some SP of the bundle has clusters that wait for a lock. -/
def State.lockWaiting (s : State) : Bool := s.issuers.any fun m => m.2.kern.lock.any fun l => !l.waiting.isEmpty

/-- The bundle that ends holds the SSTU of the lock section. -/
def Kern.lockCloses (k : Kern) : Bool := k.lock.any (·.closing)

/-- What falls due at the end of the last bundle of the leader's kernel: a lock round first, then END, then a transfer, which
takes the place of a back-edge (08 R211). -/
def State.bundleEnd (s : State) (k : Kern) : BundleEnd :=
  match k.last with
  | Option.none => .none
  | some b =>
    if k.phase ≠ .running ∨ k.gap ≠ 0 then .none
    else if k.lockCloses && s.lockWaiting then .round
    else if k.ends || (k.yielded && decide (k.status = 8) && k.stage.isNone) then .ends
    else
      match k.xfer with
      | some x => if x.left = 0 then .transfer x.target else if k.loops.head?.any (fun e => decide (e.stop = b)) then .edge else .settle
      | Option.none => if k.loops.head?.any (fun e => decide (e.stop = b)) then .edge else .settle

/-- The kernel goes on at `pc` after a bundle; a lock section that has been closed is left. -/
def Kern.goOn (k : Kern) (pc : Nat) : Kern :=
  { k with pc := pc, last := none, lock := if k.lockCloses then none else k.lock }

/-- A KTRAP of the bundle at `b` stops the kernel in every SP of the bundle, once the decision has been made (08 R227); MEMBER is that of the SP
whose sequencer issued it (07 R189). -/
def State.trapStop (s : State) (b : Nat) : State :=
  s.issue.foldl (fun t k => t.modCtx k fun c =>
    match c.kern.trapN with
    | none => c
    | some n =>
      let c1 := c.recordEvent 1 0 (s.member (s.issue.headD k)) n (b - c.cbase.toNat)
      { c1 with stopped := true, kres := false, kern := { c1.kern with phase := .stopped, trapN := none, haltPoint := 6 } }) s

/-- The end of the leader's last bundle: `f` on the state in which the leader's kernel and the bundle's address are known. -/
def State.atEnd (s0 : State) (k : Nat) (f : State → Nat → Kern → Nat → State) : State :=
  let s := s0.issueAs k
  match s.leader with
  | none => s0
  | some (m, c) => if m ≠ k then s0 else
    match c.kern.last with
    | none => s0
    | some b => f s m c.kern b

/-- LOCK_ROUND: the section is issued again from its first bundle on the third cycle after the SSTU bundle (10 R270); a
pre-emption point (19 R407). A KTRAP of the bundle stops the kernel before the round (08 R227). -/
def execLockRound (k : Nat) (s : State) : Host.Outcome State Fault Refusal :=
  .next (s.atEnd k fun s _ kn b =>
    if s.bundleEnd kn = .round then
      (s.kernAll s.issue fun q =>
        match q.lock with
        | none => q
        | some l =>
          { q with gap := 2, pc := l.first, last := none, group := [], haltPoint := 4,
                   lock := some { l with round := l.round + 1, acting := [], closing := false } }).trapStop b
    else s)

/-- The clusters of a kernel release their SRF locks and its loops and transfer are dropped (08 R226). -/
def Ctx.endKernel (c : Ctx) : Ctx :=
  { c with
    lockHeld := [],
    kern := { c.kern with
      phase := .ending, last := none, loops := [], xfer := none, lock := none, ends := true, trapN := none, group := [], land := c.kern.landsByCycle,
      status := if c.kern.status = 8 ∧ (c.kern.ends ∨ c.kern.stage.isSome) then 0 else c.kern.status } }

/-- BRANCH_TRANSFER: issue goes on at the target, and the loops that do not hold it are left (08 R211). Leaving a lock section
in which a cluster waits is ILLEGAL (10 R270). -/
def execBranchTransfer (k : Nat) (s : State) : Host.Outcome State Fault Refusal :=
  .next (s.atEnd k fun s m kn b =>
    match s.bundleEnd kn with
    | .transfer t =>
      if s.lockWaiting && !kn.lockCloses then s.bundleEvent ⟨2, 8, m⟩ b
      else
        (s.kernAll s.issue fun q =>
          { q.goOn t with xfer := none, group := [], haltPoint := if q.yielded then 2 else q.haltPoint, loops := q.loops.dropWhile fun e => !(decide (e.start ≤ t) && decide (t ≤ e.stop)) }).trapStop b
    | _ => s)

/-- The back-edge decisions of a bundle at `b`: where the body repeats, if it does, and the loop stack (08 R214). -/
def backEdge (b : Nat) : List LoopE → Option Nat × List LoopE
  | [] => (none, [])
  | e :: l =>
    if e.stop ≠ b then (none, e :: l)
    else if 1 < e.remaining then
      (some e.start, { e with remaining := e.remaining - 1, j := e.j + 1, rrb := if e.mode = 2 then (e.rrb + 63) % 64 else e.rrb } :: l)
    else backEdge b l

/-- LOOP_BACK_EDGE: the loop repeats without cost, or is popped; a pre-emption point (08 R214). -/
def execLoopBackEdge (k : Nat) (s : State) : Host.Outcome State Fault Refusal :=
  .next (s.atEnd k fun s m kn b =>
    if s.bundleEnd kn = .edge then
      if s.lockWaiting && !kn.lockCloses then s.bundleEvent ⟨2, 8, m⟩ b
      else
        (s.kernAll s.issue fun q =>
          let r := backEdge b q.loops
          { q.goOn (r.1.getD q.after) with loops := r.2, group := [], haltPoint := 1 }).trapStop b
    else s)

/-- The end of a bundle at which no loop, transfer or round falls due: END, or the next bundle. A bundle with YIELD is a
pre-emption point (08 R226, R228). -/
def State.settle (s0 : State) (k : Nat) : State :=
  s0.atEnd k fun s _ kn b =>
    match s.bundleEnd kn with
    | .ends => s.issue.foldl (fun t m => t.modCtx m Ctx.endKernel) s
    | .settle => (s.kernAll s.issue fun q => { q.goOn q.after with haltPoint := if q.yielded then 2 else q.haltPoint }).trapStop b
    | _ => s

/-! ## Dikes and tower lines -/

/-- A member of a dike is released: its next bundle issues after the empty run of its SYNC's bundle; one that has been
pre-empted restarts after its resume, with DESYNC (08 R223, R224). A controller that waits for the dike retires. -/
def Ctx.dikeFree (e : Nat) (running : Bool) (c : Ctx) : Ctx :=
  let c1 := match c.kern.dike with
    | some (d, n) =>
      if d = e then { c with kstat := if running then c.kstat else flagOr c.kstat fDESYNC,
                             kern := { c.kern with dike := none, gap := if running then n else 0 } }
      else c
    | none => c
  { c1 with sbar := KMap.upd e (fun _ => 2) c1.sbar }

/-- DIKE_RELEASE: 40 cycles after the last arrival, the phase of the group entry ends for every member (08 R223). -/
def execDikeRelease (part entry : Nat) (s : State) : Host.Outcome State Fault Refusal :=
  .next (match (s.part part).bind fun p => KMap.find entry p.groups with
  | none => s
  | some g =>
    if !g.full || decide (s.now < g.last + 40) then s else
    let s1 := s.modPart part fun p => { p with groups := KMap.upd entry (fun g => { g with arrived := [], full := false }) p.groups }
    g.members.foldl (fun t k => t.modSp k fun p =>
      { p with
        ctx := p.ctx.map fun c => if c.launch = g.launch then c.dikeFree entry (decide (c.preempt.isNone ∨ c.kern.phase ≠ .halted)) else c,
        victims := p.victims.map fun v => if v.ctx.launch = g.launch then { v with ctx := v.ctx.dikeFree entry false } else v }) s1)

/-- The result belongs to the uniform state (08 R193). -/
def Landing.uniform (l : Landing) : Bool :=
  match l.what with
  | .word cls _ _ _ => decide (cls ≠ .g) && decide (cls ≠ .i) && decide (cls ≠ .v)
  | .kmode _ => true
  | _ => false

/-- The kernel of a follower whose uniform state has been replaced by the leader's (03 R76). -/
def Kern.follow (k l : Kern) : Kern :=
  { k with
    pc := l.pc, q := l.q, b := l.b, c := l.c, p := l.p, m := l.m, kmode := l.kmode, loops := l.loops, xfer := l.xfer, delay := l.delay,
    group := l.group, gap := l.gap, last := l.last, after := l.after, rejoin := false,
    land := (k.land.filter fun x => !x.uniform) ++ l.land.filter Landing.uniform }

/-- TOWER_LINE_RELEASE: 40 cycles after the last REJOIN the tower of leader `k` is fused again (03 R76). -/
def execTowerLineRelease (k : Nat) (s : State) : Host.Outcome State Fault Refusal :=
  .next (
    let p := s.sp k; let tw := s.tower k
    match s.ctx k with
    | none => s
    | some l =>
      if decide (tw.length ≤ 1) || decide (tw.headD k ≠ k) || decide (p.line.length < tw.length) || decide (s.now < p.lineAt + 40) then s else
      tw.foldl (fun t m => t.modSp m fun q =>
        { q with fused := true, line := [], ctx := q.ctx.map fun c => { c with kern := if m = k then { c.kern with rejoin := false } else c.kern.follow l.kern } }) s)

/-! ## The controller and the watchdog -/

/-- A stopped kernel goes on: results count again from the next bundle's cycle (07 R192, 08 R197). -/
def Ctx.resumeKernel (c : Ctx) : Ctx :=
  { c with stopped := false, kres := false, kern := { c.kern with phase := if c.kern.phase = .stopped then .running else c.kern.phase, haltPoint := 0 } }

/-- A write of 1 to KRES at SP `k`: a stopped kernel resumes; on a fused tower once every member has written KRES (07 R192). -/
def State.kresWrite (s : State) (k : Nat) : State :=
  s.withCtx k fun c =>
    if !c.stopped then s else
    let s1 := s.setCtx k { c with kres := true }
    let ms := s.issueGroup k
    if ms.all fun m => (s1.ctx m).any (·.kres) then ms.foldl (fun t m => t.modCtx m Ctx.resumeKernel) s1 else s1

/-- KSTATUS_KRES (07 R192). -/
def execKstatusKres (k : Nat) (s : State) : Host.Outcome State Fault Refusal := .next (s.kresWrite k)

/-- The context has a kernel that runs, is about to, or is stopped. -/
def Ctx.kernelLive (c : Ctx) : Bool :=
  match c.kern.phase with
  | .starting _ => true
  | .running => true
  | .stopped => true
  | .resuming _ => true
  | .reloading _ => true
  | _ => false

/-- A write of 1 to KKILL at SP `k`: the kernel of every member of the tower ends, and its command completes CANCELLED
(07 R188, R190, R192). -/
def State.kkillWrite (s : State) (k : Nat) : State :=
  (s.tower k).foldl (fun t m => t.modCtx m fun c => if c.kernelLive then c.killKernel 2 else c) s

/-- KSTATUS_KKILL (07 R188). -/
def execKstatusKkill (k : Nat) (s : State) : Host.Outcome State Fault Refusal := .next (s.kkillWrite k)

/-- WATCHDOG_EXPIRY: the launch ends with WATCHDOG when the count has reached its limit (06 R148, 24 R461). -/
def execWatchdogExpiry (k : Nat) (s : State) : Host.Outcome State Fault Refusal :=
  .next (s.withCtx k fun c =>
    if c.wdog < 2 ^ c.mwdog then s else s.endLaunch c.launch 2 c.rank 0 (c.kern.pc - c.cbase.toNat) 0)

/-! ## The sequencer's turn -/

/-- A kernel that counts this cycle: the count goes on once the first bundle has issued (08 R201). -/
def Kern.counted (k : Kern) : Kern := { k with phase := .running, cycles := if k.begun then k.cycles + 1 else k.cycles }

/-- The counters of the kernel's cycle `now`: its start or restore, its cycle count. -/
def Kern.tick (now : Nat) (k0 : Kern) : Kern :=
  let k := { k0 with ticked := now + 1 }
  match k.phase with
  | .running => k.counted
  | .starting n => if n ≤ 1 then k.counted else { k with phase := .starting (n - 1) }
  | .resuming n => if n ≤ 1 then k.counted else { k with phase := .resuming (n - 1) }
  | .reloading n => if n ≤ 1 then k.counted else { k with phase := .reloading (n - 1) }
  | _ => k

/-- A kernel that moves on this cycle is past its start or restore. -/
def KPhase.goes (p : KPhase) : Bool :=
  match p with
  | .running => true
  | .starting n => decide (n ≤ 1)
  | .resuming n => decide (n ≤ 1)
  | .reloading n => decide (n ≤ 1)
  | _ => false

/-- No kernel moves or is about to. -/
def KPhase.rests (p : KPhase) : Bool :=
  match p with
  | .stopped => true
  | .halted => true
  | .idle => true
  | .ending => true
  | _ => false

/-- The cycle of the kernel of leader `k` before its bundle: the counters of every SP that issues with it, and an empty cycle
where one is owed. The answer says whether a bundle may issue. A member that DECOUPLE released on this cycle has been counted with its
leader (03 R76). -/
def State.seqTick (s : State) (k : Nat) : Bool × State :=
  match s.ctx k with
  | none => (false, s)
  | some c =>
    let ks := s.issueGroup k
    if ks.headD k ≠ k ∨ c.kern.ticked = s.now + 1 ∨ c.kern.phase.rests then (false, s) else
    let s1 := s.kernAll ks (Kern.tick s.now)
    if !c.kern.phase.goes then (false, s1)
    else if c.kern.gap ≠ 0 then (false, s1.kernAll ks fun q => { q with gap := q.gap - 1 })
    else (true, s1)

end Sys2Proof.Machine
end

