-- ==== Sys2Proof/Machine/Rv.lean ====
section
/-! DEFINITION. The standard integer, memory and control-flow instructions of the stream controller: RV64I, M, A and their
compressed forms (06 R131, R132), with the exceptions of 19 R402. The controller is that of SP `cur`. -/

namespace Sys2Proof.Machine

/-- The word that the controller of SP `k` fetches at `a`: four bytes of control memory (02 R56). -/
def State.fetchWord (s : State) (k a : Nat) : Nat := cmRead (s.sp k).cm a 4

/-- The instruction word that stands at the pc, 16 bits of it when it is compressed. -/
def State.wordAt (s : State) (k : Nat) (c : Ctx) : Dword :=
  let w := s.fetchWord k c.pc.toNat
  BitVec.ofNat 64 (if ctlLength w = 4 then w else w % 2 ^ 16)

/-- The illegal-instruction exception of the controller of `cur`, with the word in mtval (19 R402). -/
def State.illegal (s : State) : State := s.withCtx s.cur fun c => s.takeException s.cur 2 (s.wordAt s.cur c)

/-- Bytes of an instruction that has a compressed form. -/
def rvLen (c : Bool) : Nat := if c then 2 else 4

/-- The controller's context changed, and its pc moved past an instruction of `n` bytes. -/
def rvStep (n : Nat) (f : Ctx → Ctx) (s : State) : State := s.modCtx s.cur fun c => (f c).advance n

/-- A 32-bit result, sign-extended. -/
def sext32 (v : Nat) : Dword := BitVec.ofInt 64 (sint 32 v)

/-! ## Integer arithmetic -/

/-- The result of an ALU operation; `half` is a W form (RV64I). -/
def aluVal (op : AluOp) (half : Bool) (pc a b : Dword) : Dword :=
  let sh := if half then b.toNat % 32 else b.toNat % 64
  let a32 := a.toNat % 2 ^ 32
  match op with
  | .add => if half then sext32 (a + b).toNat else a + b
  | .sub => if half then sext32 (a - b).toNat else a - b
  | .sll => if half then sext32 (a32 * 2 ^ sh) else a <<< sh
  | .slt => if a.slt b then 1 else 0
  | .sltu => if a.ult b then 1 else 0
  | .xor => a ^^^ b
  | .srl => if half then sext32 (a32 / 2 ^ sh) else a >>> sh
  | .sra => if half then BitVec.ofInt 64 (sint 32 a32 / 2 ^ sh) else a.sshiftRight sh
  | .or => a ||| b
  | .and => a &&& b
  | .lui => b
  | .auipc => pc + b

/-- The second operand. -/
def Ctx.rvSrc (c : Ctx) : RvSrc → Dword
  | .reg n => c.xr n
  | .imm v => v

/-- Integer ALU, LUI and AUIPC (06 R131). -/
def execRvIntegerAlu (c : Bool) (op : AluOp) (w : Bool) (rd rs1 : Nat) (src : RvSrc) (s : State) : Host.Outcome State Fault Refusal :=
  .next (rvStep (rvLen c) (fun x => x.setX rd (aluVal op w x.pc (x.xr rs1) (x.rvSrc src))) s)

/-- The result of a multiply (RV64M). -/
def mulVal (op : MulOp) (a b : Dword) : Dword :=
  match op with
  | .mul => a * b
  | .mulh => BitVec.ofInt 64 (a.toInt * b.toInt / 2 ^ 64)
  | .mulhsu => BitVec.ofInt 64 (a.toInt * (b.toNat : Int) / 2 ^ 64)
  | .mulhu => BitVec.ofNat 64 (a.toNat * b.toNat / 2 ^ 64)
  | .mulw => sext32 (a * b).toNat

/-- MUL, MULH, MULHSU, MULHU, MULW (06 R131). -/
def execRvMultiply (op : MulOp) (rd rs1 rs2 : Nat) (s : State) : Host.Outcome State Fault Refusal :=
  .next (rvStep 4 (fun x => x.setX rd (mulVal op (x.xr rs1) (x.xr rs2))) s)

/-- Quotient or remainder of `n`-bit operands, as RV64M gives them: a division by zero gives all ones and the dividend. -/
def divNum (op : DivOp) (n a b : Nat) : Int :=
  let u := a % 2 ^ n; let v := b % 2 ^ n
  match op with
  | .div => if v = 0 then -1 else Int.tdiv (sint n a) (sint n b)
  | .divu => if v = 0 then ((2 ^ n - 1 : Nat) : Int) else ((u / v : Nat) : Int)
  | .rem => if v = 0 then sint n a else Int.tmod (sint n a) (sint n b)
  | .remu => if v = 0 then (u : Int) else ((u % v : Nat) : Int)

/-- The result of a divide; a W result is sign-extended. -/
def divVal (op : DivOp) (half : Bool) (a b : Dword) : Dword :=
  if half then sext32 (wrap 32 (divNum op 32 a.toNat b.toNat)) else BitVec.ofInt 64 (divNum op 64 a.toNat b.toNat)

/-- The context before an instruction that blocks issue, which a request undoes until it retires (19 R406). -/
def Ctx.before (c : Ctx) : Squash := ⟨c.pc, c.x, c.f, c.fcsr⟩

/-- DIV, DIVU, REM, REMU and their W forms: issue is blocked for 34 cycles (06 R131). -/
def execRvDivide (op : DivOp) (w : Bool) (rd rs1 rs2 : Nat) (s : State) : Host.Outcome State Fault Refusal :=
  .next (rvStep 4 (fun x => { x.setX rd (divVal op w (x.xr rs1) (x.xr rs2)) with busy := 33, squash := some x.before }) s)

/-! ## Control memory -/

/-- The first address that a load, or a store, of the context may not reach (02 R56, 19 R402). -/
def Ctx.loadTop (c : Ctx) : Nat := if c.mmode then 0x40000 else 0x38C00
def Ctx.storeTop (c : Ctx) : Nat := if c.mmode then 0x40000 else 0x38000

/-- A read of `n` bytes at `a`: the exception it raises, misalignment first (log 16), or its value. -/
def State.ctlRead (s : State) (c : Ctx) (a n : Nat) : Nat ⊕ Nat :=
  if a % n ≠ 0 then .inl 4 else if c.loadTop < a + n then .inl 5 else .inr (cmRead (s.sp s.cur).cm a n)

/-- What a write of `n` bytes at `a` raises, if anything. -/
def Ctx.storeFault (c : Ctx) (a n : Nat) : Option Nat :=
  if a % n ≠ 0 then some 6 else if c.storeTop < a + n then some 7 else none

/-- Where the register space of the device lies for a controller in M mode (25 R474). -/
abbrev regBase : Nat := 0x100000000

/-- The address lies in the register space, as the context reaches it. -/
def Ctx.reachesRegs (c : Ctx) (a : Nat) : Bool := c.mmode && decide (regBase ≤ a) && decide (a < regBase + 2 ^ 24)

/-- Size of a load and how its value is put into a register. -/
def loadBytes : LoadKind → Nat
  | .lb => 1
  | .lh => 2
  | .lw => 4
  | .ld => 8
  | .lbu => 1
  | .lhu => 2
  | .lwu => 4
  | .flw => 4
  | .fld => 8

/-- A single-precision value in a 64-bit register: NaN-boxed. -/
def boxF (v : Nat) : Dword := BitVec.ofNat 64 (0xFFFFFFFF * 2 ^ 32 + v % 2 ^ 32)

/-- The register written by a load of value `v`. -/
def Ctx.loadInto (c : Ctx) (k : LoadKind) (rd v : Nat) : Ctx :=
  match k with
  | .lb => c.setX rd (BitVec.ofInt 64 (sint 8 v))
  | .lh => c.setX rd (BitVec.ofInt 64 (sint 16 v))
  | .lw => c.setX rd (sext32 v)
  | .flw => c.setF rd (boxF v)
  | .fld => c.setF rd (BitVec.ofNat 64 v)
  | _ => c.setX rd (BitVec.ofNat 64 v)

/-- Loads from control memory (06 R131; 19 R402), and LD of a register of the device in M mode (25 R474). -/
def execRvLoad (c : Bool) (k : LoadKind) (rd rs1 : Nat) (off : Dword) (s : State) : Host.Outcome State Fault Refusal :=
  .next (s.withCtx s.cur fun x =>
    let a := (x.xr rs1 + off).toNat
    if x.reachesRegs a ∧ k = .ld ∧ a % 8 = 0 then
      let q := s.regAccess (a - regBase)
      q.2.setCtx s.cur ((x.setX rd q.1).advance (rvLen c))
    else
    match s.ctlRead x a (loadBytes k) with
    | .inl e => s.takeException s.cur e (BitVec.ofNat 64 a)
    | .inr v => s.setCtx s.cur ((x.loadInto k rd v).advance (rvLen c)))

/-- Size of a store. -/
def storeBytes : StoreKind → Nat
  | .sb => 1
  | .sh => 2
  | .sw => 4
  | .sd => 8
  | .fsw => 4
  | .fsd => 8

/-- The value that a store writes. -/
def Ctx.storeVal (c : Ctx) (k : StoreKind) (rs2 : Nat) : Nat :=
  match k with
  | .fsw => (c.fr rs2).toNat
  | .fsd => (c.fr rs2).toNat
  | _ => (c.xr rs2).toNat

/-- `n` bytes of the control memory of `cur` written. -/
def State.ctlWrite (s : State) (a n v : Nat) : State := s.modSp s.cur fun p => { p with cm := cmWrite p.cm a n v }

/-- Stores to control memory (06 R131; 19 R402), and SD to a register of the device in M mode, which is performed next (25 R474). -/
def execRvStore (c : Bool) (k : StoreKind) (rs2 rs1 : Nat) (off : Dword) (s : State) : Host.Outcome State Fault Refusal :=
  .next (s.withCtx s.cur fun x =>
    let a := (x.xr rs1 + off).toNat
    if x.reachesRegs a ∧ k = .sd ∧ a % 8 = 0 then
      rvStep (rvLen c) id { s with inbox := s.inbox ++ [.registerWrite (a - regBase) (x.xr rs2)] }
    else
    match x.storeFault a (storeBytes k) with
    | some e => s.takeException s.cur e (BitVec.ofNat 64 a)
    | none => rvStep (rvLen c) id (s.ctlWrite a (storeBytes k) (x.storeVal k rs2)))

/-! ## Atomics -/

/-- Bytes of a W or D form. -/
def amoBytes (d : Bool) : Nat := if d then 8 else 4

/-- A value of a W or D form as a register holds it. -/
def amoSext (d : Bool) (v : Nat) : Dword := if d then BitVec.ofNat 64 v else sext32 v

/-- LR.W and LR.D: a load that sets the reservation (06 R131). -/
def execLr (d : Bool) (_aqrl rd rs1 : Nat) (s : State) : Host.Outcome State Fault Refusal :=
  .next (s.withCtx s.cur fun x =>
    let a := (x.xr rs1).toNat
    match s.ctlRead x a (amoBytes d) with
    | .inl e => s.takeException s.cur e (BitVec.ofNat 64 a)
    | .inr v => s.setCtx s.cur (({ x with resv := some a }.setX rd (amoSext d v)).advance 4))

/-- SC.W and SC.D: succeeds exactly on a standing reservation of the same address, and clears it (06 R131). -/
def execSc (d : Bool) (_aqrl rd rs1 rs2 : Nat) (s : State) : Host.Outcome State Fault Refusal :=
  .next (s.withCtx s.cur fun x =>
    let a := (x.xr rs1).toNat
    match x.storeFault a (amoBytes d) with
    | some e => s.takeException s.cur e (BitVec.ofNat 64 a)
    | none =>
      let ok := decide (x.resv = some a)
      let s1 := if ok then s.ctlWrite a (amoBytes d) (x.xr rs2).toNat else s
      rvStep 4 (fun y => { y with resv := none }.setX rd (if ok then 0 else 1)) s1)

/-- The new value of an atomic on `n`-bit values. -/
def amoVal (op : AmoOp) (n a b : Nat) : Nat :=
  match op with
  | .swap => b
  | .add => a + b
  | .and => Nat.land a b
  | .or => Nat.lor a b
  | .xor => Nat.xor a b
  | .min => if sint n b < sint n a then b else a
  | .max => if sint n a < sint n b then b else a
  | .minu => if b % 2 ^ n < a % 2 ^ n then b else a
  | .maxu => if a % 2 ^ n < b % 2 ^ n then b else a

/-- AMOs on control memory: issue is blocked for 2 cycles (06 R131). -/
def execRvAmo (op : AmoOp) (d : Bool) (_aqrl rd rs1 rs2 : Nat) (s : State) : Host.Outcome State Fault Refusal :=
  .next (s.withCtx s.cur fun x =>
    let a := (x.xr rs1).toNat; let n := amoBytes d
    match x.storeFault a n with
    | some e => s.takeException s.cur e (BitVec.ofNat 64 a)
    | none =>
      let v := cmRead (s.sp s.cur).cm a n
      rvStep 4 (fun y => { y.setX rd (amoSext d v) with busy := 1 }) (s.ctlWrite a n (amoVal op (8 * n) v (x.xr rs2).toNat)))

/-- FENCE and FENCE.I: one cycle, since only the controller reads control memory (06 R131). -/
def execFence (_i : Bool) (_bits : Nat) (s : State) : Host.Outcome State Fault Refusal := .next (rvStep 4 id s)

/-! ## Control flow -/

/-- Whether a conditional branch is taken. -/
def brTaken (k : BrKind) (a b : Dword) : Bool :=
  match k with
  | .beq => a == b
  | .bne => a != b
  | .blt => a.slt b
  | .bge => !a.slt b
  | .bltu => a.ult b
  | .bgeu => !a.ult b

/-- Conditional branches: backward ones are predicted taken, and a misprediction costs three cycles (06 R131, R132). -/
def execRvBranch (c : Bool) (k : BrKind) (rs1 rs2 : Nat) (off : Dword) (s : State) : Host.Outcome State Fault Refusal :=
  .next (s.modCtx s.cur fun x =>
    let t := brTaken k (x.xr rs1) (x.xr rs2)
    let back := off.slt 0
    { (if t then { x with pc := x.pc + off } else x.advance (rvLen c)) with busy := if t == back then 0 else 3 })

/-- JAL (06 R131). -/
def execJal (c : Bool) (rd : Nat) (off : Dword) (s : State) : Host.Outcome State Fault Refusal :=
  .next (s.modCtx s.cur fun x => { x.setX rd (x.pc + BitVec.ofNat 64 (rvLen c)) with pc := x.pc + off })

/-- JALR: bit 0 of the target is cleared; a pending write of IE takes effect (06 R131, 07 R191). -/
def execJalr (c : Bool) (rd rs1 : Nat) (off : Dword) (s : State) : Host.Outcome State Fault Refusal :=
  .next (s.modCtx s.cur fun x =>
    let t := BitVec.ofNat 64 ((x.xr rs1 + off).toNat / 2 * 2)
    { x.setX rd (x.pc + BitVec.ofNat 64 (rvLen c)) with pc := t, busy := 3, ie := x.ieWait.getD x.ie, ieWait := none })

/-! ## Traps -/

/-- ECALL: the environment call from U mode, which ends the launch (19 R402, R403). From M mode the privileged architecture
gives mcause 11. -/
def execEcall (s : State) : Host.Outcome State Fault Refusal :=
  .next (s.withCtx s.cur fun x => s.takeException s.cur (if x.mmode then 11 else 8) 0)

/-- EBREAK: a breakpoint; under debug attachment the controller stops before it (19 R403, 25 R479). -/
def execEbreak (_c : Bool) (s : State) : Host.Outcome State Fault Refusal :=
  .next (s.withCtx s.cur fun x =>
    if (s.sp s.cur).attach then s.modSp s.cur fun p => { p with dbgStopped := true }
    else s.takeException s.cur 3 x.pc)

end Sys2Proof.Machine
end

