-- ==== Sys2Proof/Machine/RvFloat.lean ====
section
/-! DEFINITION. The F and D instructions of the stream controller (06 R131), as RV64FD gives them. -/

namespace Sys2Proof.Machine

/-- The format of a single or a double operation. -/
def rvFmt (dbl : Bool) : Fmt := if dbl then fmtF64 else fmtF32

/-- The bits of an operand: a single that is not NaN-boxed reads as the canonical NaN. -/
def Ctx.fbits (c : Ctx) (dbl : Bool) (n : Nat) : Nat :=
  let v := (c.fr n).toNat
  if dbl then v else if v / 2 ^ 32 = 0xFFFFFFFF then v % 2 ^ 32 else fmtF32.qnan

/-- A floating-point result, boxed if it is a single. -/
def Ctx.setFbits (c : Ctx) (dbl : Bool) (n v : Nat) : Ctx := c.setF n (if dbl then BitVec.ofNat 64 v else boxF v)

/-- Flags joined to fcsr. -/
def Ctx.orFflags (c : Ctx) (f : Nat) : Ctx := { c with fcsr := c.fcsr ||| BitVec.ofNat 32 (f % 32) }

/-- The rounding mode of an instruction: 7 names that of fcsr; none for a reserved one. -/
def Ctx.rvRound (c : Ctx) (rm : Nat) : Option Nat :=
  let m := if rm = 7 then c.fcsr.toNat / 32 % 8 else rm
  if m < 5 then some m else none

/-- A value as an integer of `w` bits, saturated; NaN gives the largest. The flags are fflags: NV alone, or NX. -/
def rvToInt (w : Nat) (uns : Bool) (mode : Nat) (v : Val) : Nat × Nat :=
  let hi : Int := if uns then ((2 ^ w - 1 : Nat) : Int) else ((2 ^ (w - 1) - 1 : Nat) : Int)
  let lo : Int := if uns then 0 else -((2 ^ (w - 1) : Nat) : Int)
  match v with
  | .inf true => (wrap w lo, 16)
  | .fin n m e =>
    let r := roundShift mode n m (-e) false
    let i := signed n r.1
    if i < lo then (wrap w lo, 16) else if hi < i then (wrap w hi, 16) else (wrap w i, if r.2 then 1 else 0)
  | _ => (wrap w hi, 16)

/-- FMIN and FMAX: a NaN gives the other operand, two give the canonical NaN, a signalling one sets NV. -/
def rvMinMax (f : Fmt) (larger : Bool) (a b : Nat) : Nat × Nat :=
  let x := f.decode a; let y := f.decode b
  let fl := if x.isSig || y.isSig then 16 else 0
  if x.isNan && y.isNan then (f.qnan, fl)
  else if x.isNan then (b, fl)
  else if y.isNan then (a, fl)
  else if larger then (if valBefore x y then b else a, fl)
  else (if valBefore y x then b else a, fl)

/-- A bit pattern with its sign replaced. -/
def withSign (f : Fmt) (v : Nat) (neg : Bool) : Nat := v % 2 ^ (f.width - 1) + f.zeroBits neg

/-- An operation whose result is a floating-point register. -/
def rvFloatRes (op : FOp) (dbl : Bool) (mode : Nat) (c : Ctx) (rs1 rs2 rs3 : Nat) : Nat × Nat :=
  let f := rvFmt dbl
  let a := c.fbits dbl rs1; let b := c.fbits dbl rs2
  let x := f.decode a; let y := f.decode b; let z := f.decode (c.fbits dbl rs3)
  let fl := fun (r : WithFlags Nat) => (r.1, fflagsOf r.2)
  let i := (c.xr rs1).toNat
  match op with
  | .add => fl (fAdd f mode false x y)
  | .sub => fl (fAdd f mode false x y.negate)
  | .mul => fl (fMul f mode false x y)
  | .madd => fl (fFma f mode false x y z)
  | .msub => fl (fFma f mode false x y z.negate)
  | .nmsub => fl (fFma f mode false x.negate y z)
  | .nmadd => fl (fFma f mode false x.negate y z.negate)
  | .sgnj => (withSign f a (f.sign b), 0)
  | .sgnjn => (withSign f a (!f.sign b), 0)
  | .sgnjx => (withSign f a (f.sign a != f.sign b), 0)
  | .min => rvMinMax f false a b
  | .max => rvMinMax f true a b
  | .cvtFW => fl (f.ofVal mode false (Val.ofInt (sint 32 i)))
  | .cvtFWu => fl (f.ofVal mode false (Val.ofInt ((i % 2 ^ 32 : Nat) : Int)))
  | .cvtFL => fl (f.ofVal mode false (Val.ofInt (sint 64 i)))
  | .cvtFLu => fl (f.ofVal mode false (Val.ofInt ((i : Nat) : Int)))
  | .cvtFF => fl (f.ofVal mode false ((rvFmt (!dbl)).decode (c.fbits (!dbl) rs1)))
  | _ => (i, 0)

/-- An operation whose result is an integer register. -/
def rvIntRes (op : FOp) (dbl : Bool) (mode : Nat) (c : Ctx) (rs1 rs2 : Nat) : Dword × Nat :=
  let f := rvFmt dbl
  let a := c.fbits dbl rs1; let x := f.decode a; let y := f.decode (c.fbits dbl rs2)
  let nan := x.isNan || y.isNan; let sig := x.isSig || y.isSig
  let bit := fun (b : Bool) => if b then (1 : Dword) else 0
  match op with
  | .eq => (bit (valEq x y), if sig then 16 else 0)
  | .lt => (bit (!nan && valLt x y), if nan then 16 else 0)
  | .le => (bit (!nan && !valLt y x), if nan then 16 else 0)
  | .cls => (BitVec.ofNat 64 (fClass f a), 0)
  | .cvtWF => let r := rvToInt 32 false mode x; (sext32 r.1, r.2)
  | .cvtWuF => let r := rvToInt 32 true mode x; (sext32 r.1, r.2)
  | .cvtLF => let r := rvToInt 64 false mode x; (BitVec.ofNat 64 r.1, r.2)
  | .cvtLuF => let r := rvToInt 64 true mode x; (BitVec.ofNat 64 r.1, r.2)
  | _ => (if dbl then c.fr rs1 else sext32 (c.fr rs1).toNat, 0)

/-- The result goes to an integer register. -/
def fopToX : FOp → Bool
  | .eq => true
  | .lt => true
  | .le => true
  | .cls => true
  | .cvtWF => true
  | .cvtWuF => true
  | .cvtLF => true
  | .cvtLuF => true
  | .mvXF => true
  | _ => false

/-- F and D arithmetic, conversions, moves and compares; a reserved rounding mode in fcsr is an illegal instruction. -/
def execRvFloatOp (op : FOp) (dbl : Bool) (rd rs1 rs2 rs3 rm : Nat) (s : State) : Host.Outcome State Fault Refusal :=
  .next (s.withCtx s.cur fun c =>
    match c.rvRound rm with
    | none => s.illegal
    | some mode =>
      rvStep 4 (fun c =>
        if fopToX op then let r := rvIntRes op dbl mode c rs1 rs2; (c.setX rd r.1).orFflags r.2
        else let r := rvFloatRes op dbl mode c rs1 rs2 rs3; (c.setFbits dbl rd r.1).orFflags r.2) s)

/-- FDIV and FSQRT: issue is blocked for 20 cycles (06 R131). -/
def execRvFdivFsqrt (sqrt dbl : Bool) (rd rs1 rs2 rm : Nat) (s : State) : Host.Outcome State Fault Refusal :=
  .next (s.withCtx s.cur fun c =>
    match c.rvRound rm with
    | none => s.illegal
    | some mode =>
      rvStep 4 (fun c =>
        let f := rvFmt dbl
        let x := f.decode (c.fbits dbl rs1)
        let r := if sqrt then fSqrt f mode false x else fDiv f mode false x (f.decode (c.fbits dbl rs2))
        { (c.setFbits dbl rd r.1).orFflags (fflagsOf r.2) with busy := 19, squash := some c.before }) s)

end Sys2Proof.Machine
end

