-- ==== Sys2Proof/Machine/Csr.lean ====
section
/-! DEFINITION. The control and status registers of the stream controller (07 R187 to R191, 01 R25) and the delivery of kernel
events. -/

namespace Sys2Proof.Machine

/-- kevent's kstatus word as it reads (07 R188). -/
def Ctx.kstatusWord (c : Ctx) : Nat :=
  let busy := c.sb.any fun e => decide (e.cls = 1) && decide (e.state = .running)
  (if busy then 32 else 0) + (if c.stopped then 16 else 0) + (if c.ie then 8 else 0) + (if c.pend then 4 else 0)

/-- A CSR that exists: whether U mode may reach it, and its value. The floating-point CSRs and the machine trap CSRs are those of
the RISC-V architecture. -/
def Ctx.csr (c : Ctx) (k n : Nat) : Option (Bool × Nat) :=
  match n with
  | 0x001 => some (true, c.fcsr.toNat % 32)
  | 0x002 => some (true, c.fcsr.toNat / 32 % 8)
  | 0x003 => some (true, c.fcsr.toNat % 256)
  | 0x800 => some (true, c.kevent.toNat)
  | 0x801 => some (true, c.kstatusWord)
  | 0x802 => some (true, c.ktvec.toNat)
  | 0x803 => some (true, c.kepc.toNat)
  | 0x804 => some (true, c.cbase.toNat)
  | 0x805 => some (true, c.cbound.toNat)
  | 0x806 => some (true, c.cceil.toNat)
  | 0x807 => some (true, k)
  | 0x808 => some (true, c.rank)
  | 0x809 => some (true, c.kstat)
  | 0x80A => some (true, c.hw)
  | 0x7C0 => some (c.sysb, if c.sysb then 1 else 0)
  | 0x7C1 => some (c.sysb, c.mwdog)
  | 0x7C2 => some (c.sysb, if c.mpreq then 1 else 0)
  | 0x300 => some (false, c.mstatus.toNat)
  | 0x305 => some (false, c.mtvec.toNat)
  | 0x341 => some (false, c.mepc.toNat)
  | 0x342 => some (false, c.mcause.toNat)
  | 0x343 => some (false, c.mtval.toNat)
  | _ => none

/-- A write of cbound: a value from cbase to the ceiling; another leaves it as it is (01 R25, 04 R88). -/
def Ctx.writeCbound (c : Ctx) (v : Dword) : Ctx := if c.cbase ≤ v ∧ v ≤ c.cceil then { c with cbound := v } else c

/-- A write of kstatus.IE: 0 takes effect at once, 1 after the next JALR that retires (07 R191). -/
def Ctx.writeIe (c : Ctx) (v : Bool) : Ctx := if v then { c with ieWait := some true } else { c with ie := false, ieWait := none }

/-- A write of 1 to PEND. -/
def Ctx.clearPend (c : Ctx) : Ctx := { c with pend := false }

/-- A write of ones to kstat bits; a bit that a kernel sets on this cycle is still in flight and stays set (07 R187). -/
def Ctx.clearKstat (c : Ctx) (mask : Nat) : Ctx := { c with kstat := flagClear c.kstat mask }

/-- A write of 1 to mpreq bit 0 (19 R405): the request arrives on the next cycle. -/
def Ctx.requestPreempt (c : Ctx) : Ctx := { c with mpreq := true }

/-- A write of kstatus by the controller of SP `k`: `v` is the value, `m` the bits that the instruction writes. KRES with KKILL
acts as KKILL (07 R188). -/
def State.writeKstatus (s : State) (k : Nat) (v m : Dword) : State :=
  let on := fun i => bits m i 1 = 1 ∧ bits v i 1 = 1
  let s1 := s.modCtx k fun c => if bits m 3 1 = 1 then c.writeIe (bits v 3 1 = 1) else c
  let s2 := if on 2 then s1.modCtx k Ctx.clearPend else s1
  if on 0 then s2.kkillWrite k else if on 1 then s2.kresWrite k else s2

/-- A write of CSR `n`: `v` is the new value, and `m` the bits that the instruction writes. A read-only CSR is left (07 R187). -/
def State.writeCsr (s : State) (k n : Nat) (v m : Dword) : State :=
  let st := fun f => s.modCtx k f
  match n with
  | 0x001 => st fun c => { c with fcsr := BitVec.ofNat 32 (c.fcsr.toNat / 32 % 8 * 32 + v.toNat % 32) }
  | 0x002 => st fun c => { c with fcsr := BitVec.ofNat 32 (v.toNat % 8 * 32 + c.fcsr.toNat % 32) }
  | 0x003 => st fun c => { c with fcsr := BitVec.ofNat 32 (v.toNat % 256) }
  | 0x801 => s.writeKstatus k v m
  | 0x802 => st fun c => { c with ktvec := v &&& ~~~ 1 }
  | 0x803 => st fun c => { c with kepc := v &&& ~~~ 1 }
  | 0x805 => st fun c => c.writeCbound v
  | 0x809 => st fun c => c.clearKstat (v &&& m).toNat
  | 0x7C1 => st fun c => if 20 ≤ v.toNat ∧ v.toNat ≤ 40 then { c with mwdog := v.toNat } else c
  | 0x7C2 => st fun c => if bits v 0 1 = 1 then c.requestPreempt else c
  | 0x300 => st fun c => { c with mstatus := v }
  | 0x305 => st fun c => { c with mtvec := v }
  | 0x341 => st fun c => { c with mepc := v &&& ~~~ 1 }
  | 0x342 => st fun c => { c with mcause := v }
  | 0x343 => st fun c => { c with mtval := v }
  | _ => s

/-- CSR access (Zicsr): the old value goes to rd; CSRRS and CSRRC with x0 or an immediate of 0 write nothing. An undefined number,
or one that the mode may not reach, is an illegal instruction (07 R187). -/
def execRvCsrAccess (op : CsrOp) (imm : Bool) (csr rd src : Nat) (s : State) : Host.Outcome State Fault Refusal :=
  .next (s.withCtx s.cur fun c =>
    match c.csr s.cur csr with
    | none => s.illegal
    | some (user, old) =>
      if !user && !c.mmode then s.illegal else
      let a : Dword := if imm then BitVec.ofNat 64 src else c.xr src
      let o := BitVec.ofNat 64 old
      let s1 := match op with
        | .rw => s.writeCsr s.cur csr a (BitVec.allOnes 64)
        | .rs => if src = 0 then s else s.writeCsr s.cur csr (o ||| a) a
        | .rc => if src = 0 then s else s.writeCsr s.cur csr (o &&& ~~~ a) a
      rvStep 4 (fun c => c.setX rd o) s1)

/-- KSTATUS_IE_WRITE (07 R191). -/
def execKstatusIeWrite (k : Nat) (v : Bool) (s : State) : Host.Outcome State Fault Refusal := .next (s.modCtx k fun c => c.writeIe v)

/-- KSTATUS_PEND_CLEAR (07 R188). -/
def execKstatusPendClear (k : Nat) (s : State) : Host.Outcome State Fault Refusal := .next (s.modCtx k Ctx.clearPend)

/-- KSTAT_CLEAR (07 R187). -/
def execKstatClear (k : Nat) (mask : BitVec 13) (s : State) : Host.Outcome State Fault Refusal :=
  .next (s.modCtx k fun c => c.clearKstat mask.toNat)

/-- CBOUND_WRITE (01 R25). -/
def execCboundWrite (k : Nat) (v : Dword) (s : State) : Host.Outcome State Fault Refusal := .next (s.modCtx k fun c => c.writeCbound v)

/-- MPREQ_WRITE (19 R405). -/
def execMpreqWrite (k : Nat) (s : State) : Host.Outcome State Fault Refusal := .next (s.modCtx k Ctx.requestPreempt)

/-- KEVENT_DELIVERY (07 R191). -/
def execKeventDelivery (k : Nat) (s : State) : Host.Outcome State Fault Refusal := .next (s.modCtx k Ctx.deliver)

end Sys2Proof.Machine
end

