-- ==== Sys2Proof/Machine/Sets.lean ====
section
/-! DEFINITION. Commands and the scoreboard: result codes (07 R153), arrival references (R163), engine classes (06 R135), read and
write sets and conflicts (R136 to R138), and the entry of a command (R134). -/

namespace Sys2Proof.Machine

/-! ## Result codes (07 R153) -/

abbrev rcOk : Nat := 0
abbrev rcNoSpace : Nat := 1
abbrev rcBadHandle : Nat := 2
abbrev rcBadDesc : Nat := 3
abbrev rcBadAw : Nat := 4
abbrev rcBadArg : Nat := 5
abbrev rcPoolFull : Nat := 6
abbrev rcNotMember : Nat := 7
abbrev rcTimeout : Nat := 8
abbrev rcNotHeld : Nat := 9
abbrev rcBusy : Nat := 10

/-- The first code of a list of checks that applies, in the order in which they are listed: `true` is a breach. -/
def firstCode : List (Bool × Nat) → Nat
  | [] => 0
  | q :: l => if q.1 then q.2 else firstCode l

/-- An arrival reference breaks R163. `satom`: bits [36:32] are its own. -/
def awBad (c : Ctx) (satom : Bool) (r : Dword) : Bool :=
  if bits r 63 1 = 1 then false else
  decide (bits r 37 26 ≠ 0) || (!satom && decide (bits r 32 5 ≠ 0)) || decide (bits r 28 4 ≠ 0) || decide (bits r 0 22 % 16 ≠ 0)
    || (c.polder (bits r 22 6)).isNone

/-! ## Sets (06 R136, R137) -/

/-- A range addressed as bytes: a ring or queue is then named with its head and tail, as written. -/
def byteRange (c : Ctx) (h o n : Nat) : List SetR × List SetR :=
  ([.bytes h o n], match c.polder h with
    | some p => if p.kind = 0 then [] else [.head h, .tail h]
    | none => [])

/-- The bytes of records `lo` up to `hi` of a linear descriptor. -/
def linearRange (d : Desc) (h lo hi : Nat) : List SetR := if hi ≤ lo then [] else [.bytes h (d.base + lo * d.recBytes) ((hi - lo) * d.recBytes)]

/-- What a command that reads records `lo` up to `hi` through a descriptor reads and writes; on a ring or queue it pops. -/
def readSet (c : Ctx) (d : Desc) (lo hi : Nat) : List SetR × List SetR :=
  match d.polder, c.descPolder d with
  | some h, some p => if p.kind = 0 then (linearRange d h lo hi, []) else ([], [.head h])
  | _, _ => ([], [])

/-- The same for one that writes them; on a ring or queue it pushes. -/
def writeSet (c : Ctx) (d : Desc) (lo hi : Nat) : List SetR × List SetR :=
  match d.polder, c.descPolder d with
  | some h, some p => if p.kind = 0 then ([], linearRange d h lo hi) else ([], [.tail h])
  | _, _ => ([], [])

/-- A command that reads records without popping. -/
def peekSet (c : Ctx) (d : Desc) (lo hi : Nat) : List SetR × List SetR :=
  match d.polder, c.descPolder d with
  | some h, some p => if p.kind = 0 then (linearRange d h lo hi, []) else ([.head h], [])
  | _, _ => ([], [])

/-- The arrival word of a reference is written. -/
def awSet (c : Ctx) (r : Dword) : List SetR × List SetR :=
  if bits r 63 1 = 1 then ([], []) else let q := byteRange c (bits r 22 6) (bits r 0 22) 16; ([], q.1 ++ q.2)

/-- Sets joined. -/
def joinSets (l : List (List SetR × List SetR)) : List SetR × List SetR := ((l.map (·.1)).flatten, (l.map (·.2)).flatten)

/-- Two byte ranges of a polder of `z` bytes meet, every offset wrapping. -/
def arcsMeet (z o1 n1 o2 n2 : Nat) : Bool :=
  decide (n1 ≠ 0) && decide (n2 ≠ 0) &&
    (decide (z ≤ n1) || decide (z ≤ n2) || decide ((o2 % z + z - o1 % z) % z < n1) || decide ((o1 % z + z - o2 % z) % z < n2))

/-- Two ranges meet. -/
def SetR.meets (c : Ctx) : SetR → SetR → Bool
  | .bytes h o n, .bytes h' o' n' => decide (h = h') && arcsMeet ((c.polder h).elim 1 Polder.size) o n o' n'
  | .head h, .head h' => decide (h = h')
  | .tail h, .tail h' => decide (h = h')
  | _, _ => false

/-- Two sets meet. -/
def setsMeet (c : Ctx) (a b : List SetR) : Bool := a.any fun x => b.any fun y => x.meets c y

/-- The handle that a range names. -/
def SetR.handle : SetR → Nat
  | .bytes h _ _ => h
  | .head h => h
  | .tail h => h

/-- The entry names a handle. -/
def Entry.names (e : Entry) (h : Nat) : Bool := (e.reads ++ e.writes).any fun r => decide (r.handle = h)

/-- The entries of the scoreboard, without copies that have been read out and KCOPYs (06 R140, 10 R271). -/
def Ctx.entries (c : Ctx) : List Entry := c.sb.filter fun e => !e.freed

/-- Commands with sets conflict with an older uncompleted entry (06 R138). -/
def Ctx.conflicts (c : Ctx) (seq : Nat) (reads writes : List SetR) : Bool :=
  c.entries.any fun e => decide (e.seq < seq) && (setsMeet c reads e.writes || setsMeet c writes e.reads || setsMeet c writes e.writes)

/-- The entry of sequence `n` changed. -/
def Ctx.modEntry (c : Ctx) (n : Nat) (f : Entry → Entry) : Ctx :=
  { c with sb := updFirst (fun e => decide (e.seq = n)) f c.sb }

/-- The entry of sequence `n` removed: it has completed. -/
def Ctx.dropEntry (c : Ctx) (n : Nat) : Ctx := { c with sb := dropFirst (fun e => decide (e.seq = n)) c.sb }

/-! ## Entering a command (06 R134, R136) -/

/-- Status codes of arrival words (07 R164). -/
abbrev stOk : Nat := 0
abbrev stCancelled : Nat := 2
abbrev stNoToken : Nat := 3
abbrev stPerm : Nat := 4
abbrev stSpillFull : Nat := 5
abbrev stRemoteDown : Nat := 6
abbrev stPoison : Nat := 7
abbrev stHalted : Nat := 8

/-- Engine classes. -/
abbrev clsCopy : Nat := 0
abbrev clsKernel : Nat := 1
abbrev clsMerge : Nat := 2
abbrev clsMicro : Nat := 3

/-- A new entry. -/
def Entry.mk0 (seq : Nat) (i : Instr) (a b : Dword) (cls : Nat) (sets : List SetR × List SetR) (descs : KMap Desc) (size : Nat) : Entry :=
  { seq := seq, instr := i, rs1 := a, rs2 := b, cls := cls, reads := sets.1, writes := sets.2, descs := descs, state := .waiting, issued := 0,
    rec_ := 0, off := 0, flight := 0, counted := 0, size := size, status := 0, staged := [], moved := 0, tail0 := 0, part := [], block := [],
    kcopy := none, freed := false, beats := 0, caught := [], wrote := [] }

/-- A command as the checks leave it: its class, sets, captured descriptors, counted size and parameter block. -/
structure Command where
  cls : Nat
  sets : List SetR × List SetR
  descs : KMap Desc
  size : Nat
  block : List Byte
deriving DecidableEq, Repr

/-- The controller retires an instruction with a result. -/
def Ctx.retire (c : Ctx) (rd : Nat) (v : Dword) : Ctx := ({ c with wait := none }.setX rd v).advance 4

/-- The same, at the current SP, with a result code. -/
def State.retireCode (s : State) (rd code : Nat) : State := s.modCtx s.cur fun c => c.retire rd (BitVec.ofNat 64 code)

/-- No place of the scoreboard is free for an instruction that retires now, three cycles after it issued: one that was freed then or since
counts as taken (06 R134). -/
def Ctx.full (c : Ctx) : Bool := decide (64 ≤ c.used + c.recent.sum)

/-- A command retires: it stalls at issue while 64 entries are in use or reserved; a non-zero code takes no entry and releases the
reservation (06 R134, 07 R153). -/
def State.enter (s : State) (i : Instr) (rd : Nat) (a b : Dword) (code : Nat) (f : Ctx → Command) : State :=
  s.withCtx s.cur fun c =>
    if c.full then s
    else if code ≠ 0 then s.setCtx s.cur ({ c with used := c.used + 1 }.retire rd (BitVec.ofNat 64 code))
    else
      let m := f c
      let e := { Entry.mk0 c.seq i a b m.cls m.sets m.descs m.size with block := m.block }
      s.setCtx s.cur ({ c with sb := c.sb ++ [e], seq := c.seq + 1, used := c.used + 1 }.retire rd 0)

/-! ## Waiting instructions (07 R154) -/

/-- What a controller-local instruction answers: it retires with a value, or it waits. -/
inductive Ctl
  | done (v : Dword) (s : State)
  | waits (s : State)

/-- The instruction retires or waits, at SP `k`. -/
def State.ctl (k : Nat) (i : Instr) (rd : Nat) (a b : Dword) : Ctl → State
  | .done v s => s.modCtx k fun c => c.retire rd v
  | .waits s => s.modCtx k fun c => { c with wait := some (c.wait.getD ⟨i, a, b, c.seq, 0, none, none⟩) }

/-- A result code, as an answer. -/
def Ctl.code (n : Nat) (s : State) : Ctl := .done (BitVec.ofNat 64 n) s

/-- The wait of a context. -/
def Ctx.waiting (c : Ctx) (i : Instr) (a b : Dword) : Wait := c.wait.getD ⟨i, a, b, c.seq, 0, none, none⟩

end Sys2Proof.Machine
end

