-- ==== Sys2Proof/Machine/Records.lean ====
section
/-! DEFINITION. The records that a copy command moves (07 R167 to R170): their memory addresses, the pieces that share a 64-byte
line, conversion between the two formats, and the checks of the copy commands. -/

namespace Sys2Proof.Machine

/-! ## Kinds of copy -/

/-- The kinds of copy command. -/
inductive CopyKind | load | store | reduce | mem | satom (op : Nat)
deriving DecidableEq, Repr

/-- The kind of a copy command, with the number of its descriptor and whether it is indexed. -/
def copyKind : Instr → Option (CopyKind × Nat × Bool)
  | .sload _ sd _ _ => some (.load, sd, false)
  | .sstore _ sd _ _ => some (.store, sd, false)
  | .sgather _ sd _ _ => some (.load, sd, true)
  | .sscatter _ sd _ _ => some (.store, sd, true)
  | .sscadd _ sd _ _ => some (.reduce, sd, true)
  | .scopy _ sd _ _ => some (.mem, sd, false)
  | .satomAdd _ sd _ _ => some (.satom 0, sd, false)
  | .satomSwap _ sd _ _ => some (.satom 1, sd, false)
  | .satomCas _ sd _ _ => some (.satom 2, sd, false)
  | .satomMin _ sd _ _ => some (.satom 3, sd, false)
  | .satomMax _ sd _ _ => some (.satom 4, sd, false)
  | .satomAnd _ sd _ _ => some (.satom 5, sd, false)
  | .satomOr _ sd _ _ => some (.satom 6, sd, false)
  | _ => none

/-- The kind of an entry. -/
def Entry.kind (e : Entry) : CopyKind := ((copyKind e.instr).map (·.1)).getD .load

/-- The descriptor of an entry's records, captured under key 16, and the index descriptor, under key 17. -/
def Entry.desc (e : Entry) : Desc := KMap.get Desc.init e.descs 16
def Entry.idxDesc (e : Entry) : Desc := KMap.get Desc.init e.descs 17

/-- The kind writes memory. -/
def CopyKind.writesMem : CopyKind → Bool
  | .load => false
  | _ => true

/-- The kind ends its work on the SRF when its last beat has been read from it (06 R140). -/
def CopyKind.outOfSrf : CopyKind → Bool
  | .store => true
  | .reduce => true
  | _ => false

/-! ## Addresses -/

/-- The memory step between records (07 R167). -/
def Desc.step (d : Desc) : Int := if d.stride % 2 ^ 48 = 0 then d.memRecBytes else sint 48 d.stride

/-- Element `i` of an index stream: signed for I32 and I64 (07 R167). -/
def indexElem (m : KMap Row) (c : Ctx) (d : Desc) (i : Nat) : Int :=
  match c.descPolder d with
  | none => 0
  | some p =>
    let r := rawElem m d p ((if p.kind = 0 then 0 else p.head * d.recn) + i)
    if fmtIsN d.fmt then (r : Int) else sint (8 * fmtBytes d.fmt) r

/-- The memory address of record `i` of an entry, and of its destination for SCOPY: 48 bits (07 R167, 10 R271). -/
def Entry.recAddr (m : KMap Row) (c : Ctx) (e : Entry) (i : Nat) : Nat :=
  let d := e.desc
  let n : Int := if d.idx / 16 % 2 = 1 ∧ e.kcopy.isNone then indexElem m c e.idxDesc i else i
  wrap 48 (e.rs1.toNat + n * d.step)
def Entry.dstAddr (e : Entry) (i : Nat) : Nat := wrap 48 (e.desc.dst + (i : Int) * e.desc.step)

/-- Bytes of memory that one record takes: a SATOM touches one element. -/
def Entry.memBytes (e : Entry) : Nat :=
  match e.kind with
  | .satom _ => fmtBytes e.desc.mfmt
  | _ => e.desc.memRecBytes

/-- The number of records. -/
def Entry.recs (e : Entry) : Nat :=
  match e.kind with
  | .satom _ => 1
  | _ => e.desc.len

/-- Bytes of the next piece at byte `o` of a record at address `a`: up to the end of the line, of the record, and for SCOPY of the
destination's line. -/
def Entry.pieceLen (e : Entry) (a b o : Nat) : Nat :=
  let n := min (64 - (a + o) % 64) (e.memBytes - o)
  if e.kind = .mem then min n (64 - (b + o) % 64) else n

/-- Counted bytes of memory bytes `x` up to `y` of a copy: SRF bytes for a load, memory bytes otherwise (07 R167). -/
def Entry.countOf (e : Entry) (x y : Nat) : Nat :=
  match e.kind with
  | .load => y * e.desc.recBytes / e.memBytes - x * e.desc.recBytes / e.memBytes
  | _ => y - x

/-- The entry's counted size. -/
def copySize (k : CopyKind) (d : Desc) : Nat :=
  match k with
  | .load => d.len * d.recBytes
  | .satom _ => fmtBytes d.mfmt
  | _ => d.len * d.memRecBytes

/-- Some record of the entry that has not been sent in full will be written where `p`, which is the same over each 4 KiB page, holds of an address. -/
def Entry.writesAt (m : KMap Row) (c : Ctx) (e : Entry) (p : Nat → Bool) : Bool :=
  decide (e.cls = clsCopy) && e.kind.writesMem && (List.range (e.recs - e.rec_)).any fun j =>
    let i := e.rec_ + j
    let a := if e.kind = .mem then e.dstAddr i else e.recAddr m c i
    (List.range (e.memBytes / 4096 + 1)).any (fun x => p (wrap 48 ((a + 4096 * x : Nat) : Int))) || p (wrap 48 ((a + e.memBytes : Nat) - 1))

/-- Elements that share bytes of the SRF, and the bytes that they share: four elements of a packed group, or one (05 R122). -/
def Desc.unit (d : Desc) : Nat × Nat := if d.fmt = 13 then (4, 3) else (1, fmtBytes d.fmt)

/-! ## Conversion (05 R126) -/

/-- An element of one format delivered in another by a copy: rounded with RNE, never flushed; unchanged where the formats are the
same. -/
def copyConv (src dst raw : Nat) : WithFlags Nat :=
  if src = dst then (raw, 0) else
  let v := fmtDecode src raw
  let r := fmtEncode dst 0 false (if fmtIsInt src then 8 * fmtBytes src else 0) v.1
  (r.1, convFlags (fmtIsInt dst) v.1 v.2 r.2)

/-- The element of a poisoned beat: NaN or NaR (07 R169). -/
def poisonElem (dst : Nat) : WithFlags Nat := fmtEncode dst 0 false 0 (if dst = 11 ∨ dst = 12 ∨ dst = 13 ∨ dst = 14 then .nar else .nan false)

/-! ## The checks of the copy commands -/

/-- The index stream of an indexed copy is refused (07 R167). -/
def idxBad (c : Ctx) (d : Desc) : Bool :=
  let x := KMap.get Desc.init c.descs (d.idx % 16)
  x.refused c true true || decide (x.fmt < 4) || decide (7 < x.fmt) || decide (x.len < d.len)

/-- The pairing of RED with MFMT is refused (07 R168). -/
def redBad (d : Desc) : Bool :=
  match d.red with
  | 0 => decide (d.mfmt ≠ 10)
  | 1 => decide (d.mfmt ≠ 9)
  | 2 => decide (d.mfmt ≠ 4 ∧ d.mfmt ≠ 5)
  | 3 => decide (d.mfmt ≠ 6 ∧ d.mfmt ≠ 7)
  | 4 => decide (d.mfmt ≠ 10)
  | 5 => decide (d.mfmt ≠ 10)
  | 6 => decide (d.mfmt ≠ 4 ∧ d.mfmt ≠ 5)
  | 7 => decide (d.mfmt ≠ 4 ∧ d.mfmt ≠ 5)
  | 8 => !fmtIsInt d.mfmt
  | 9 => !fmtIsInt d.mfmt
  | 10 => !fmtIsInt d.mfmt
  | _ => true

/-- The format rules of a SATOM (07 R170). -/
def satomFmtBad (op : Nat) (d : Desc) : Bool :=
  decide (d.fmt ≠ d.mfmt) || !(decide (4 ≤ d.mfmt) && decide (d.mfmt ≤ 7) || (decide (d.mfmt = 10) && decide (op < 5)))

/-- The code of a copy command with address `a` and reference `b` (07 R153, R161, R163, R167 to R170). -/
def copyCode (c : Ctx) (k : CopyKind) (sd : Nat) (indexed : Bool) (a b : Dword) : Nat :=
  let d := KMap.get Desc.init c.descs sd
  match k with
  | .satom op =>
    firstCode [
      (decide (bits b 32 2 = 0) || decide (4 < bits b 34 3) || decide (a.toNat % max 1 (fmtBytes d.mfmt) ≠ 0), rcBadArg),
      (d.refused c true true || satomFmtBad op d, rcBadDesc), (awBad c true b, rcBadAw)]
  | _ =>
    firstCode [
      (d.refused c true true || decide (d.idx / 16 % 2 = (if indexed then 0 else 1)) || (indexed && idxBad c d)
        || (decide (k = .mem) && decide (d.fmt ≠ d.mfmt)) || (decide (k = .reduce) && redBad d), rcBadDesc),
      (awBad c false b, rcBadAw)]

/-- The command of a copy: what it reads and writes in the SRF, and its captured descriptors (06 R136). -/
def copyCommand (k : CopyKind) (sd : Nat) (indexed : Bool) (b : Dword) (c : Ctx) : Command :=
  let d := KMap.get Desc.init c.descs sd
  let x := KMap.get Desc.init c.descs (d.idx % 16)
  let h := d.polder.getD 0
  let eb := fmtBytes d.mfmt
  let own := match k with
    | .load => writeSet c d 0 d.len
    | .store => readSet c d 0 d.len
    | .reduce => readSet c d 0 d.len
    | .mem => ([], [])
    | .satom _ => joinSets [byteRange c h d.base (2 * eb), ([], (byteRange c h d.base eb).1)]
  { cls := clsCopy, sets := joinSets [own, if indexed then peekSet c x 0 d.len else ([], []), awSet c b],
    descs := if indexed then [(16, d), (17, x)] else [(16, d)], size := copySize k d, block := [] }

/-- A copy command retires (07 R167 to R170). -/
def State.copyEnter (s : State) (i : Instr) (rd rs1 rs2 : Nat) : State :=
  s.withCtx s.cur fun c =>
    match copyKind i with
    | none => s
    | some (k, sd, ix) =>
      let a := c.xr rs1; let b := c.xr rs2
      s.enter i rd a b (copyCode c k sd ix a b) (copyCommand k sd ix b)

/-- SLOAD (07 R167). -/
def execSload (rd sd rs1 rs2 : Nat) (s : State) : Host.Outcome State Fault Refusal := .next (s.copyEnter (.sload rd sd rs1 rs2) rd rs1 rs2)

/-- SSTORE (07 R167). -/
def execSstore (rd sd rs1 rs2 : Nat) (s : State) : Host.Outcome State Fault Refusal := .next (s.copyEnter (.sstore rd sd rs1 rs2) rd rs1 rs2)

/-- SGATHER (07 R167). -/
def execSgather (rd sd rs1 rs2 : Nat) (s : State) : Host.Outcome State Fault Refusal := .next (s.copyEnter (.sgather rd sd rs1 rs2) rd rs1 rs2)

/-- SSCATTER (07 R167). -/
def execSscatter (rd sd rs1 rs2 : Nat) (s : State) : Host.Outcome State Fault Refusal := .next (s.copyEnter (.sscatter rd sd rs1 rs2) rd rs1 rs2)

/-- SSCADD (07 R168). -/
def execSscadd (rd sd rs1 rs2 : Nat) (s : State) : Host.Outcome State Fault Refusal := .next (s.copyEnter (.sscadd rd sd rs1 rs2) rd rs1 rs2)

/-- SCOPY (07 R167). -/
def execScopy (rd sd rs1 rs2 : Nat) (s : State) : Host.Outcome State Fault Refusal := .next (s.copyEnter (.scopy rd sd rs1 rs2) rd rs1 rs2)

/-- SPREF: a hint without visible effect: its beats leave one after the other (07 R171, 06 R133, 12 R306). -/
def execSpref (rs1 rs2 : Nat) (s : State) : Host.Outcome State Fault Refusal :=
  .next (s.withCtx s.cur fun c => (s.hint s.cur c.launch (c.xr rs1).toNat (bits (c.xr rs2) 0 32)).modCtx s.cur fun c => c.advance 4)

/-- SATOM.ADD (07 R170). -/
def execSatomAdd (rd sd rs1 rs2 : Nat) (s : State) : Host.Outcome State Fault Refusal := .next (s.copyEnter (.satomAdd rd sd rs1 rs2) rd rs1 rs2)

/-- SATOM.SWAP (07 R170). -/
def execSatomSwap (rd sd rs1 rs2 : Nat) (s : State) : Host.Outcome State Fault Refusal := .next (s.copyEnter (.satomSwap rd sd rs1 rs2) rd rs1 rs2)

/-- SATOM.CAS (07 R170). -/
def execSatomCas (rd sd rs1 rs2 : Nat) (s : State) : Host.Outcome State Fault Refusal := .next (s.copyEnter (.satomCas rd sd rs1 rs2) rd rs1 rs2)

/-- SATOM.MIN (07 R170). -/
def execSatomMin (rd sd rs1 rs2 : Nat) (s : State) : Host.Outcome State Fault Refusal := .next (s.copyEnter (.satomMin rd sd rs1 rs2) rd rs1 rs2)

/-- SATOM.MAX (07 R170). -/
def execSatomMax (rd sd rs1 rs2 : Nat) (s : State) : Host.Outcome State Fault Refusal := .next (s.copyEnter (.satomMax rd sd rs1 rs2) rd rs1 rs2)

/-- SATOM.AND (07 R170). -/
def execSatomAnd (rd sd rs1 rs2 : Nat) (s : State) : Host.Outcome State Fault Refusal := .next (s.copyEnter (.satomAnd rd sd rs1 rs2) rd rs1 rs2)

/-- SATOM.OR (07 R170). -/
def execSatomOr (rd sd rs1 rs2 : Nat) (s : State) : Host.Outcome State Fault Refusal := .next (s.copyEnter (.satomOr rd sd rs1 rs2) rd rs1 rs2)

end Sys2Proof.Machine
end

