-- ==== Sys2Proof/Machine/KernelCmd.lean ====
section
/-! DEFINITION. Kernel, merge and microprogram commands as the controller retires them (07 R172 to R177, 13 R333, R334): their
checks, sets and captured descriptors; the stage table and KHALT (06 R143, R150). -/

namespace Sys2Proof.Machine

/-! ## KRUN and KPIPE -/

/-- Kernels of the context's object. -/
def State.kernels (s : State) (c : Ctx) : Nat := ((s.codeOfCtx c).map fun o => o.ktab.length).getD 0

/-- The numbers of the descriptors that a mask names. -/
def maskList (m : Nat) : List Nat := (List.range 16).filter fun n => decide (m / 2 ^ n % 2 = 1)

/-- A descriptor of a context, as it stands. -/
def Ctx.descOf (c : Ctx) (n : Nat) : Desc := KMap.get Desc.init c.descs n

/-- The sets of a kernel command's masks: records POS to LEN of each descriptor (06 R136). -/
def maskSets (c : Ctx) (rd wr : List Nat) : List SetR × List SetR :=
  joinSets ((rd.map fun n => readSet c (c.descOf n) (c.descOf n).pos (c.descOf n).len) ++
    wr.map fun n => writeSet c (c.descOf n) (c.descOf n).pos (c.descOf n).len)

/-- The masks of rs1. -/
def readMask (a : Dword) : List Nat := maskList (bits a 16 16)
def writeMask (a : Dword) : List Nat := maskList (bits a 32 16)

/-- A masked descriptor fails R161. -/
def masksBad (c : Ctx) (a : Dword) : Bool := (readMask a ++ writeMask a).any fun n => (c.descOf n).refused c false false

/-- The code of KRUN (07 R172). -/
def krunCode (s : State) (c : Ctx) (a b : Dword) : Nat :=
  firstCode [
    (decide (s.kernels c ≤ bits a 0 8) || decide (bits a 8 8 ≠ 0) || decide (bits a 48 16 ≠ 0), rcBadArg),
    (masksBad c a, rcBadDesc), (awBad c false b, rcBadAw)]

/-- The command of KRUN: every descriptor is captured (10 R262). -/
def krunCommand (a b : Dword) (c : Ctx) : Command :=
  { cls := clsKernel, sets := joinSets [maskSets c (readMask a) (writeMask a), awSet c b], descs := c.descs, size := 0, block := [] }

/-- KRUN (07 R172). -/
def execKrun (rd rs1 rs2 : Nat) (s : State) : Host.Outcome State Fault Refusal :=
  .next (s.withCtx s.cur fun c =>
    let a := c.xr rs1; let b := c.xr rs2
    s.enter (.krun rd rs1 rs2) rd a b (krunCode s c a b) (krunCommand a b))

/-- Stage `n` of a context. -/
def Ctx.stage (c : Ctx) (n : Nat) : Stage := KMap.get Stage.init c.stages n

/-- The input and output descriptors of a declaration. -/
def Stage.inputs (t : Stage) : List Nat := (List.range (bits t.rs2 16 3)).map fun i => bits t.rs2 (4 * i) 4
def Stage.outputs (t : Stage) : List Nat := (List.range (bits t.rs2 36 3)).map fun i => bits t.rs2 (20 + 4 * i) 4

/-- Records per strip, and the other fields of rs1 (07 R173). -/
def Stage.strip (t : Stage) : Nat := bits t.rs1 16 12 + 1
def Stage.kernel (t : Stage) : Nat := bits t.rs1 0 8
def Stage.depth (t : Stage) : Nat := bits t.rs1 12 3
def Stage.limit (t : Stage) : Nat := bits t.rs1 32 16

/-- The declared stages, in rising order. -/
def Ctx.declared (c : Ctx) : List Nat := (List.range 8).filter fun n => (c.stage n).declared

/-- The command of KPIPE: the union of its masks and of its stages' descriptors (07 R174). -/
def kpipeCommand (a b : Dword) (c : Ctx) : Command :=
  let ins := (c.declared.map fun n => (c.stage n).inputs).flatten
  let outs := (c.declared.map fun n => (c.stage n).outputs).flatten
  { cls := clsKernel, sets := joinSets [maskSets c (readMask a ++ ins) (writeMask a ++ outs), awSet c b], descs := c.descs, size := 0, block := [] }

/-- KPIPE (07 R174). -/
def execKpipe (rd rs1 rs2 : Nat) (s : State) : Host.Outcome State Fault Refusal :=
  .next (s.withCtx s.cur fun c =>
    let a := c.xr rs1; let b := c.xr rs2
    s.enter (.kpipe rd rs1 rs2) rd a b
      (firstCode [(decide (bits a 0 16 ≠ 0) || decide (bits a 48 16 ≠ 0), rcBadArg), (masksBad c a, rcBadDesc), (awBad c false b, rcBadAw)])
      (kpipeCommand a b))

/-- The entry is a KPIPE. -/
def Entry.isKpipe (e : Entry) : Bool :=
  match e.instr with
  | .kpipe _ _ _ => true
  | _ => false

/-- The entry is a KRUN. -/
def Entry.isKrun (e : Entry) : Bool :=
  match e.instr with
  | .krun _ _ _ => true
  | _ => false

/-- The code of KSTAGE (07 R173). -/
def kstageCode (s : State) (c : Ctx) (a b : Dword) : Nat :=
  let t : Stage := { Stage.init with rs1 := a, rs2 := b }
  let clear := decide (bits a 63 1 = 1)
  let arg :=
    if clear then decide (bits a 0 8 ≠ 0) || decide (bits a 11 52 ≠ 0) || decide (b ≠ 0)
    else decide (bits a 11 1 ≠ 0) || decide (bits a 15 1 ≠ 0) || decide (bits a 28 4 ≠ 0) || decide (bits a 48 15 ≠ 0)
      || decide (bits b 19 1 ≠ 0) || decide (bits b 39 25 ≠ 0) || decide (4 < bits b 16 3) || decide (4 < bits b 36 3)
      || decide (s.kernels c ≤ t.kernel)
  firstCode [
    (arg, rcBadArg),
    (!clear && t.inputs.any (fun n => !(c.descPolder (c.descOf n)).any (fun p => decide (p.kind = 2))), rcBadDesc),
    ((c.stage (bits a 8 3)).suspended.isSome || c.entries.any Entry.isKpipe, rcBusy)]

/-- KSTAGE: a stage declared or cleared (07 R173). -/
def execKstage (rd rs1 rs2 : Nat) (s : State) : Host.Outcome State Fault Refusal :=
  .next (s.withCtx s.cur fun c =>
    let a := c.xr rs1; let b := c.xr rs2
    let code := kstageCode s c a b
    if code ≠ 0 then s.retireCode rd code else
    let t : Stage := if bits a 63 1 = 1 then Stage.init
      else { declared := true, rs1 := a, rs2 := b, remaining := bits a 32 16, age := 0, finished := false, suspended := none }
    s.setCtx s.cur ({ c with stages := KMap.ins (bits a 8 3) t c.stages }.retire rd 0))

/-- The kernel-class command that has issued. -/
def Ctx.kernelEntry (c : Ctx) : Option Entry := c.entries.find? fun e => decide (e.cls = clsKernel) && decide (e.state = .running)

/-- The kernel-class command has issued and has not begun: it waits for the other members of its tower (03 R75). -/
def Ctx.kernelToBegin (c : Ctx) : Option Entry :=
  if c.kern.phase = .idle ∧ c.pipe.isNone ∧ c.sweep.isNone then c.kernelEntry else none

/-- The kernel-class command has begun and has not completed. -/
def Ctx.kernelBegun (c : Ctx) : Bool := c.kernelEntry.isSome && c.kernelToBegin.isNone

/-- What KHALT does to the kernel-class command that has issued: one that has not begun completes HALTED when it would begin. -/
def Ctx.khaltRunning (c : Ctx) : Ctx :=
  match c.kernelEntry with
  | none => c
  | some e =>
    if !c.kernelBegun then c.modEntry e.seq fun e => { e with status := stHalted }
    else if e.isKpipe then { c with pipe := c.pipe.map fun q => { q with halted := true } }
    else if e.isKrun then { c with kern := { c.kern with status := if c.kern.status = 0 ∧ c.kern.phase ≠ .ending then 8 else c.kern.status } }
    else { c with sweep := c.sweep.map fun q => { q with stop := min q.stop q.next } }

/-- What KHALT does: the running kernel-class command is halted, and those that wait complete on issue (06 R150). -/
def Ctx.khalt (c : Ctx) : Ctx :=
  let d := c.khaltRunning
  { d with sb := d.sb.map fun (e : Entry) => if e.cls = clsKernel ∧ e.state = .waiting then { e with state := .haltOnIssue } else e }

/-- The other members of the tower of SP `k` halt a command that has begun: it is one command of the whole tower (03 R75). -/
def State.khaltOthers (s : State) (k : Nat) (c : Ctx) : State :=
  if !c.kernelBegun then s
  else ((s.tower k).filter (· ≠ k)).foldl (fun t m => t.modSp m fun p => p.mapLaunch c.launch Ctx.khaltRunning) s

/-- KHALT (06 R150). -/
def execKhalt (rd : Nat) (s : State) : Host.Outcome State Fault Refusal :=
  .next (s.withCtx s.cur fun c => (s.khaltOthers s.cur c).setCtx s.cur (c.khalt.retire rd 0))

/-! ## Sweeps -/

/-- What a sweep computes; the numbers are the funct7 values. -/
def sweepOp : Instr → Option Nat
  | .svadd _ _ _ => some 0
  | .svmul _ _ _ => some 1
  | .svfma _ _ _ => some 2
  | .svcvt _ _ _ => some 3
  | .svscale _ _ _ => some 4
  | .svmax _ _ _ => some 5
  | .svmin _ _ _ => some 6
  | .svcopy _ _ _ => some 7
  | .svfill _ _ _ => some 8
  | _ => none

/-- The operands that a sweep reads: 1 a, 2 b, 3 c (0 is d). -/
def sweepReads (op : Nat) : List Nat :=
  match op with
  | 0 => [1, 2]
  | 1 => [1, 2]
  | 2 => [1, 2, 3]
  | 3 => [1]
  | 4 => [1]
  | 5 => [1, 2]
  | 6 => [1, 2]
  | 7 => [1]
  | _ => []

/-- The descriptor number and the byte step of operand `x`. -/
def sweepDesc (a : Dword) (x : Nat) : Nat := bits a (4 * x) 4
def sweepStep (b : Dword) (x : Nat) : Int := sint 16 (bits b (16 * x) 16)

/-- The byte offset of the window of operand `x` on iteration `i`, in a polder of `z` bytes. -/
def sweepOff (d : Desc) (z : Nat) (b : Dword) (x i : Nat) : Nat :=
  (((d.base : Int) + (i : Int) * sweepStep b x) % ((max z 1 : Nat) : Int)).toNat

/-- The code of a sweep (07 R175). -/
def sweepCode (c : Ctx) (op : Nat) (a b : Dword) : Nat :=
  let xs := 0 :: sweepReads op
  firstCode [
    (decide (bits a 28 4 ≠ 0) || decide (bits a 35 1 ≠ 0) || decide (bits a 38 10 ≠ 0) || decide (bits a 32 3 = 7)
      || (decide (op = 4) && decide (bits a 32 3 < 4))
      || xs.any (fun x => decide ((c.descOf (sweepDesc a x)).base % 128 ≠ 0) || decide (sweepStep b x % 128 ≠ 0)), rcBadArg),
    (xs.any (fun x => (c.descOf (sweepDesc a x)).refused c false false), rcBadDesc)]

/-- The command of a sweep (06 R136): the windows of every iteration. -/
def sweepCommand (op : Nat) (a b : Dword) (c : Ctx) : Command :=
  let win (x : Nat) : List (List SetR × List SetR) :=
    let d := c.descOf (sweepDesc a x)
    match d.polder, c.descPolder d with
    | some h, some p => (List.range (bits a 16 12)).map fun i => byteRange c h (sweepOff d p.size b x i) 2048
    | _, _ => []
  { cls := clsKernel,
    sets := joinSets (((sweepReads op).map win).flatten ++ (win 0).map fun q => ([], q.1 ++ q.2)),
    descs := (List.range 4).foldl (fun m x => KMap.ins x (c.descOf (sweepDesc a x)) m) [], size := 0, block := [] }

/-- A sweep retires. It names no arrival word. -/
def State.sweepEnter (s : State) (i : Instr) (rd rs1 rs2 : Nat) : State :=
  s.withCtx s.cur fun c =>
    let op := (sweepOp i).getD 0
    s.enter i rd (c.xr rs1) (c.xr rs2) (sweepCode c op (c.xr rs1) (c.xr rs2)) (sweepCommand op (c.xr rs1) (c.xr rs2))

/-- SVADD (07 R175). -/
def execSvadd (rd rs1 rs2 : Nat) (s : State) : Host.Outcome State Fault Refusal := .next (s.sweepEnter (.svadd rd rs1 rs2) rd rs1 rs2)

/-- SVMUL (07 R175). -/
def execSvmul (rd rs1 rs2 : Nat) (s : State) : Host.Outcome State Fault Refusal := .next (s.sweepEnter (.svmul rd rs1 rs2) rd rs1 rs2)

/-- SVFMA (07 R175). -/
def execSvfma (rd rs1 rs2 : Nat) (s : State) : Host.Outcome State Fault Refusal := .next (s.sweepEnter (.svfma rd rs1 rs2) rd rs1 rs2)

/-- SVCVT (07 R175). -/
def execSvcvt (rd rs1 rs2 : Nat) (s : State) : Host.Outcome State Fault Refusal := .next (s.sweepEnter (.svcvt rd rs1 rs2) rd rs1 rs2)

/-- SVSCALE (07 R175). -/
def execSvscale (rd rs1 rs2 : Nat) (s : State) : Host.Outcome State Fault Refusal := .next (s.sweepEnter (.svscale rd rs1 rs2) rd rs1 rs2)

/-- SVMAX (07 R175). -/
def execSvmax (rd rs1 rs2 : Nat) (s : State) : Host.Outcome State Fault Refusal := .next (s.sweepEnter (.svmax rd rs1 rs2) rd rs1 rs2)

/-- SVMIN (07 R175). -/
def execSvmin (rd rs1 rs2 : Nat) (s : State) : Host.Outcome State Fault Refusal := .next (s.sweepEnter (.svmin rd rs1 rs2) rd rs1 rs2)

/-- SVCOPY (07 R175). -/
def execSvcopy (rd rs1 rs2 : Nat) (s : State) : Host.Outcome State Fault Refusal := .next (s.sweepEnter (.svcopy rd rs1 rs2) rd rs1 rs2)

/-- SVFILL (07 R175). -/
def execSvfill (rd rs1 rs2 : Nat) (s : State) : Host.Outcome State Fault Refusal := .next (s.sweepEnter (.svfill rd rs1 rs2) rd rs1 rs2)

/-! ## MLOAD (07 R176, 11 R296) -/

/-- Start and length of the library's routine `n`: entry 1 stands at word 0, and the others follow it in order (log 7). -/
def libraryRange (n : Nat) : Nat × Nat :=
  (if n = 1 then 0 else (libraryWords 1).length + (((List.range n).filter (· ≠ 1)).map fun i => (libraryWords i).length).sum, (libraryWords n).length)

/-- Start and length that the routine table holds for entry `n`, length 0 when it is empty. -/
def Sp.tableEntry (p : Sp) (n : Nat) : Nat × Nat :=
  match KMap.find n p.rtab with
  | some q => q
  | none => if n ≤ 6 then libraryRange n else (0, 0)

/-- Words of the store that the routine table names. -/
def Sp.usedWords (p : Sp) : Nat := ((List.range 256).map fun n => (p.tableEntry n).2).sum

/-- The context may execute MLOAD (04 R113). -/
def Ctx.privileged (c : Ctx) : Bool := c.sysb || c.mmode

/-- Words that MLOADs of the context that have not completed will take. -/
def Ctx.loadingWords (c : Ctx) : Nat := ((c.entries.filter fun e => decide (e.cls = clsMicro)).map fun e => bits e.rs2 8 12 + 1).sum

/-- MLOAD (07 R176): illegal without the system bit. -/
def execMload (rd rs1 rs2 : Nat) (s : State) : Host.Outcome State Fault Refusal :=
  .next (s.withCtx s.cur fun c =>
    if !c.privileged then s.illegal else
    let a := c.xr rs1; let b := c.xr rs2
    s.enter (.mload rd rs1 rs2) rd a b
      (firstCode [(decide (bits b 20 44 ≠ 0) || decide (a.toNat % 8 ≠ 0), rcBadArg),
        (decide (4096 < (s.sp s.cur).usedWords + c.loadingWords + bits b 8 12 + 1), rcNoSpace)])
      fun _ => ⟨clsMicro, ([], []), [], 0, []⟩)

/-! ## SPMERGE and SPDRAIN (07 R177, 13 R333, R334) -/

/-- Bytes `o` up to `o + n - 1` of a parameter block, as a number. -/
def blk (b : List Byte) (o n : Nat) : Nat := ofBytes ((b.drop o).take n)

/-- The parameter block breaks R333; `csr` says that offsets 24 to 43 are read. -/
def blockBad (b : List Byte) (csr bf16 : Bool) : Bool :=
  decide (blk b 0 8 % 4096 ≠ 0) || decide (blk b 8 8 % 4096 ≠ 0) || decide (8192 < blk b 16 2) || decide (2 ≤ blk b 18 2) || decide (blk b 20 4 ≠ 0)
    || (csr && (decide (blk b 28 4 < blk b 24 4) || decide (blk b 32 4 % 4 ≠ 0) || decide (blk b 36 4 % 4 ≠ 0)
      || decide (blk b 40 4 % (if bf16 then 2 else 4) ≠ 0)))

/-- The inputs of a merge. -/
def mergeInputs (a : Dword) : List Nat := maskList (bits a 0 16)

/-- An input breaks R331 or R161. -/
def mergeInputBad (c : Ctx) (n : Nat) : Bool :=
  let d := c.descOf n
  decide (d.fmt ≠ 7) || decide (d.recn ≠ 2) || decide (d.scale ≠ 0) || d.refused c false false

/-- The output descriptor does not name an allocated linear polder (13 R334). -/
def mergeOutBad (c : Ctx) (n : Nat) : Bool := !(c.descPolder (c.descOf n)).any fun p => decide (p.kind = 0)

/-- The code of SPMERGE (13 R334). -/
def spmergeCode (cm : KMap Byte) (c : Ctx) (a b : Dword) : Nat :=
  let pa := bits a 32 18
  let blkOut := decide (pa % 64 ≠ 0) || decide (0x38000 < pa + 64)
  firstCode [
    (decide (bits a 26 6 ≠ 0) || decide (bits a 50 14 ≠ 0) || decide (2 ≤ bits a 20 2) || decide (bits a 22 2 = 3) || blkOut
      || (mergeInputs a).contains (bits a 16 4) || (decide (bits a 24 1 = 1) && !c.profile11)
      || blockBad (bytesRead cm pa 64) (bits a 20 2 = 0) (bits a 22 2 = 1), rcBadArg),
    ((mergeInputs a).any (mergeInputBad c) || mergeOutBad c (bits a 16 4), rcBadDesc),
    (awBad c false b, rcBadAw)]

/-- The descriptor that an open merge writes to, as a command that retires now will find it: the youngest older merge command
leaves its merge open, or the Spire is open. -/
def Ctx.openOut (c : Ctx) : Option Desc :=
  match (c.entries.filter fun e => decide (e.cls = clsMerge)).getLast? with
  | some e => if bits e.rs1 25 1 = 1 then KMap.find 18 e.descs else none
  | none => if c.spire.phase = 2 then some c.spire.outDesc else none

/-- The whole of the polder of a descriptor, written. -/
def wholeSet (c : Ctx) (d : Desc) : List SetR × List SetR :=
  match d.polder, c.descPolder d with
  | some h, some p => let q := byteRange c h 0 p.size; ([], q.1 ++ q.2)
  | _, _ => ([], [])

/-- The command of SPMERGE (13 R332): descriptors captured under their own numbers, the output under 16, and the output that it
will write under 18. -/
def spmergeCommand (cm : KMap Byte) (a b : Dword) (c : Ctx) : Command :=
  let ins := (mergeInputs a).map fun n => readSet c (c.descOf n) (c.descOf n).pos (c.descOf n).len
  let own := c.descOf (bits a 16 4)
  let out := c.openOut.getD own
  { cls := clsMerge, sets := joinSets (ins ++ [wholeSet c out, awSet c b]),
    descs := (mergeInputs a).foldl (fun m n => KMap.ins n (c.descOf n) m) [(16, own), (18, out)], size := 0,
    block := bytesRead cm (bits a 32 18) 64 }

/-- SPMERGE (07 R177). -/
def execSpmerge (rd rs1 rs2 : Nat) (s : State) : Host.Outcome State Fault Refusal :=
  .next (s.withCtx s.cur fun c =>
    let a := c.xr rs1; let b := c.xr rs2; let cm := (s.sp s.cur).cm
    s.enter (.spmerge rd rs1 rs2) rd a b (spmergeCode cm c a b) (spmergeCommand cm a b))

/-- SPDRAIN (07 R177, 13 R343). -/
def execSpdrain (rd rs2 : Nat) (s : State) : Host.Outcome State Fault Refusal :=
  .next (s.withCtx s.cur fun c =>
    let b := c.xr rs2
    s.enter (.spdrain rd rs2) rd 0 b (firstCode [(awBad c false b, rcBadAw)]) fun c =>
      ⟨clsMerge, joinSets [(c.openOut.map (wholeSet c)).getD ([], []), awSet c b], [], 0, []⟩)

end Sys2Proof.Machine
end

