-- ==== Sys2Proof/Machine/Local.lean ====
section
/-! DEFINITION. The controller-local instructions: polders, descriptors and arrival words (07 R156 to R166), and the waits on
entries, dikes, sync objects and tokens (R178 to R183, R185). -/

namespace Sys2Proof.Machine

/-- A controller-local instruction with operands rs1 and rs2, at the current SP. -/
def State.localOp (s : State) (i : Instr) (rd rs1 rs2 : Nat) (f : State → Nat → Ctx → Dword → Dword → Ctl) : State :=
  s.withCtx s.cur fun c => State.ctl s.cur i rd (c.xr rs1) (c.xr rs2) (f s s.cur c (c.xr rs1) (c.xr rs2))

/-! ## Polders (03 R80 to R82; 07 R156 to R158) -/

/-- The lane share of a polder of `2 ^ log2` bytes. -/
def shareOf (log2 : Nat) : Nat := 2 ^ log2 / 16

/-- Two ranges of a lane overlap. -/
def overlap (a n b m : Nat) : Bool := decide (a < b + m) && decide (b < a + n)

/-- The lane ranges of a list of polders. -/
def polRanges (l : KMap Polder) : List (Nat × Nat) := l.map fun e => (e.2.base, shareOf e.2.log2)

/-- The lane ranges that the pre-empted contexts of an SP hold and that have not been claimed (03 R82). -/
def Sp.victimRanges (p : Sp) : List (Nat × Nat) :=
  (p.victims.map fun v => polRanges (v.ctx.polders.filter fun e => (KMap.find e.1 v.claimed).isNone)).flatten

/-- The lowest base for a share that overlaps none of the ranges (03 R80). -/
def lowestBase (share : Nat) (busy : List (Nat × Nat)) : Option Nat :=
  ((List.range (0x60000 / share)).map (· * share)).find? fun b => decide (b + share ≤ 0x60000) && !busy.any fun r => overlap b share r.1 r.2

/-- Where a new polder of a context goes: into space that no victim holds, else over victims' polders (03 R82). -/
def placePolder (p : Sp) (own : KMap Polder) (log2 : Nat) : Option Nat :=
  match lowestBase (shareOf log2) (polRanges own ++ p.victimRanges) with
  | some b => some b
  | none => lowestBase (shareOf log2) (polRanges own)

/-- A new polder, which waits for its claims and its fill at 1,024 bytes per cycle. -/
def Polder.fresh (kind log2 base : Nat) (pending : Bool) : Polder :=
  { kind := kind, log2 := log2, base := base, head := 0, tail := 0, eos := false, eosReq := none, pending := pending, fill := 2 ^ log2 / 1024, room := 0 }

/-- Every byte of a polder becomes 0. -/
def clearPolder (m : KMap Row) (p : Polder) : KMap Row :=
  m.filter fun e => !(decide (p.base / 128 ≤ e.1 % 3072) && decide (e.1 % 3072 < (p.base + shareOf p.log2) / 128))

/-- PALLOC: a handle found pending with the same kind and size is the allocation executed again (07 R156). -/
def opPalloc (s : State) (k : Nat) (c : Ctx) (a b : Dword) : Ctl :=
  let h := bits a 0 6; let kind := bits b 0 2; let log2 := bits b 8 5
  if bits a 6 58 ≠ 0 ∨ kind = 3 ∨ log2 < 12 ∨ 22 < log2 ∨ bits b 2 6 ≠ 0 ∨ bits b 13 51 ≠ 0 then .code rcBadArg s
  else
    match c.polder h with
    | some p =>
      if !p.pending || decide (p.kind ≠ kind) || decide (p.log2 ≠ log2) then .code rcBadHandle s
      else if p.fill ≠ 0 then .waits s
      else .code rcOk (s.modCtx k fun c => c.modPolder h fun p => { p with pending := false })
    | none =>
      match placePolder (s.sp k) c.polders log2 with
      | none => .code rcNoSpace s
      | some base => .waits (s.modCtx k fun c => { c with polders := KMap.ins h (Polder.fresh kind log2 base true) c.polders })

/-- PALLOC (07 R156). -/
def execPalloc (rd rs1 rs2 : Nat) (s : State) : Host.Outcome State Fault Refusal := .next (s.localOp (.palloc rd rs1 rs2) rd rs1 rs2 opPalloc)

/-- PFREE: waits until no entry names the handle, and every descriptor that names it takes POLDER none (07 R157, 06 R141). -/
def opPfree (s : State) (k : Nat) (c : Ctx) (a _b : Dword) : Ctl :=
  let h := bits a 0 6
  if bits a 6 58 ≠ 0 ∨ (c.polder h).isNone then .code rcBadHandle s
  else if c.entries.any (·.names h) then .waits s
  else .code rcOk (s.modCtx k fun c =>
    { c with polders := KMap.del h c.polders, descs := c.descs.map fun e => (e.1, if e.2.polder = some h then { e.2 with polder := none } else e.2) })

/-- PFREE (07 R157). -/
def execPfree (rd rs1 : Nat) (s : State) : Host.Outcome State Fault Refusal := .next (s.localOp (.pfree rd rs1) rd rs1 0 opPfree)

/-- What PINFO returns of a handle (07 R158). -/
def Ctx.pinfo (c : Ctx) (h : Nat) : Nat :=
  match c.polder h with
  | none => 0
  | some p => 2 ^ 63 + p.kind * 2 ^ 61 + p.log2 * 2 ^ 56 + p.base

/-- PINFO (07 R158). -/
def execPinfo (rd rs1 : Nat) (s : State) : Host.Outcome State Fault Refusal :=
  .next (s.modCtx s.cur fun c => c.retire rd (BitVec.ofNat 64 (c.pinfo (bits (c.xr rs1) 0 6))))

/-! ## Descriptors (07 R159, R160, R162) -/

/-- A field of a descriptor written with the low bits of `v`; `kind` is what KIND takes where the handle names no polder, which
the spec leaves open. -/
def Desc.set (d : Desc) (c : Ctx) (kind field : Nat) (v : Dword) : Desc :=
  match field with
  | 0 =>
    let h := bits v 0 6
    { d with polder := if bits v 6 1 = 1 then none else some h, low := h,
             kind := if bits v 6 1 = 1 then kind else ((c.polder h).map (·.kind)).getD kind }
  | 2 => { d with fmt := bits v 0 4 }
  | 3 => { d with mfmt := bits v 0 4 }
  | 4 => { d with recn := bits v 0 16 }
  | 5 => { d with len := bits v 0 32 }
  | 6 => { d with pos := bits v 0 32 }
  | 7 => { d with base := bits v 0 22 }
  | 8 => { d with stride := bits v 0 48 }
  | 9 => { d with tile := bits v 0 16 }
  | 10 => { d with scale := bits v 0 32 }
  | 11 => { d with idx := bits v 0 5 }
  | 12 => { d with red := bits v 0 4 }
  | 13 => { d with dst := bits v 0 48 }
  | _ => d

/-- An entry older than retirement sequence `n` writes the tail of a polder. -/
def Ctx.tailBusy (c : Ctx) (h n : Nat) : Bool := c.entries.any fun e => decide (e.seq < n) && e.writes.any fun r => decide (r = .tail h)

/-- EOS written through a descriptor: 0 reopens the queue, 1 closes it once no older entry writes its tail (07 R162). -/
def Ctx.writeEos (c : Ctx) (h : Nat) (v : Bool) : Ctx :=
  c.modPolder h fun p =>
    if p.kind ≠ 2 then p
    else if !v then { p with eos := false, eosReq := none }
    else if c.tailBusy h c.seq then { p with eosReq := some (p.eosReq.getD c.seq) } else { p with eos := true, eosReq := none }

/-- SDSET (07 R160). -/
def execSdset (sd rs1 field : Nat) (s : State) : Host.Outcome State Fault Refusal :=
  .next (
    if 16 < field ∨ field = 1 ∨ field = 14 ∨ field = 15 then s.illegal
    else
      let q := s.fresh
      q.2.modCtx s.cur fun c =>
        let v := c.xr rs1; let d := c.descOf sd
        let c1 :=
          if field = 16 then (match d.polder with
            | some h => c.writeEos h (bits v 0 1 = 1)
            | none => c)
          else { c with descs := KMap.ins sd (d.set c (pick q.1 4) field v) c.descs }
        c1.advance 4)

/-- A field of a descriptor, zero-extended; STRIDE and DST are sign-extended (07 R160). -/
def Ctx.sdget (c : Ctx) (d : Desc) (field : Nat) : Dword :=
  let p := c.descPolder d
  let ring := p.filter fun p => decide (p.kind ≠ 0)
  match field with
  | 0 => BitVec.ofNat 64 (d.low + if d.polder.isSome then 0 else 64)
  | 1 => BitVec.ofNat 64 d.kind
  | 2 => BitVec.ofNat 64 d.fmt
  | 3 => BitVec.ofNat 64 d.mfmt
  | 4 => BitVec.ofNat 64 d.recn
  | 5 => BitVec.ofNat 64 d.len
  | 6 => BitVec.ofNat 64 d.pos
  | 7 => BitVec.ofNat 64 d.base
  | 8 => BitVec.ofInt 64 (sint 48 d.stride)
  | 9 => BitVec.ofNat 64 d.tile
  | 10 => BitVec.ofNat 64 d.scale
  | 11 => BitVec.ofNat 64 d.idx
  | 12 => BitVec.ofNat 64 d.red
  | 13 => BitVec.ofInt 64 (sint 48 d.dst)
  | 14 => BitVec.ofNat 64 ((ring.map (·.head)).getD 0)
  | 15 => BitVec.ofNat 64 ((ring.map (·.tail)).getD 0)
  | _ => BitVec.ofNat 64 ((p.map fun p => if p.eos then 1 else 0).getD 0)

/-- SDGET: HEAD and TAIL wait for older entries that write them (06 R141). -/
def opSdget (ss field : Nat) (s : State) (_k : Nat) (c : Ctx) (_a _b : Dword) : Ctl :=
  let d := c.descOf ss
  let h := d.polder.getD 64
  let need : List SetR := if field = 14 then [.head h] else if field = 15 then [.tail h] else []
  if c.conflicts c.seq need [] then .waits s else .done (c.sdget d field) s

/-- SDGET (07 R160). -/
def execSdget (rd ss field : Nat) (s : State) : Host.Outcome State Fault Refusal :=
  .next (if 16 < field then s.illegal else s.localOp (.sdget rd ss field) rd 0 0 (opSdget ss field))

/-- SDCOPY: every field that may be written; KIND is latched anew (07 R159, R160). -/
def execSdcopy (sd ss : Nat) (s : State) : Host.Outcome State Fault Refusal :=
  .next (s.modCtx s.cur fun c =>
    let d := c.descOf ss
    { c with descs := KMap.ins sd { d with kind := ((c.descPolder d).map fun p : Polder => p.kind).getD d.kind } c.descs }.advance 4)

/-- EOS_CLOSE: a queue marked end-of-stream closes once no entry older than the mark writes its tail (07 R162). -/
def execEosClose (k h : Nat) (s : State) : Host.Outcome State Fault Refusal :=
  .next (s.modCtx k fun c =>
    c.modPolder h fun p => if p.eosReq.any fun n => !c.tailBusy h n then { p with eos := true, eosReq := none } else p)

/-! ## Arrival words (07 R165, R166) -/

/-- A reference that must name a word. -/
def awNeeded (c : Ctx) (r : Dword) : Bool := decide (bits r 63 1 = 1) || awBad c false r

/-- AWINIT: target set, count and status cleared, generation kept (07 R165). -/
def opAwinit (s : State) (k : Nat) (c : Ctx) (a b : Dword) : Ctl :=
  if bits b 32 32 ≠ 0 then .code rcBadArg s
  else if awNeeded c a then .code rcBadAw s
  else if c.conflicts c.seq (awSet c a).1 (awSet c a).2 then .waits s
  else .code rcOk (s.modSp k fun p =>
    let old := ArrWord.ofNat (ofBytes (srfLoad p.srf c (bits a 22 6) (bits a 0 22) 16))
    { p with srf := srfStore p.srf c (bits a 22 6) (bits a 0 22) (toBytes 16 (ArrWord.mk (bits b 0 32) 0 old.gen 0).toNat) })

/-- AWINIT (07 R165). -/
def execAwinit (rd rs1 rs2 : Nat) (s : State) : Host.Outcome State Fault Refusal := .next (s.localOp (.awinit rd rs1 rs2) rd rs1 rs2 opAwinit)

/-- AWAIT: waits until the generation has reached the expected value, and returns the status (07 R166). -/
def opAwait (s : State) (k : Nat) (c : Ctx) (a b : Dword) : Ctl :=
  if awNeeded c a then .code rcBadAw s
  else
    let w := ArrWord.ofNat (ofBytes (srfLoad (s.sp k).srf c (bits a 22 6) (bits a 0 22) 16))
    if dif32 w.gen (bits b 0 32) < 2 ^ 31 then .code w.status s else .waits s

/-- AWAIT (07 R166). -/
def execAwait (rd rs1 rs2 : Nat) (s : State) : Host.Outcome State Fault Refusal := .next (s.localOp (.await rd rs1 rs2) rd rs1 rs2 opAwait)

/-! ## Waits on entries (07 R178, R179) -/

/-- An older entry of the classes in `m` has not completed, or a copy's memory accesses have not been performed. -/
def Ctx.fenceBusy (c : Ctx) (m : Nat) : Bool := c.sb.any fun e => e.kcopy.isNone && decide (m / 2 ^ e.cls % 2 = 1)

/-- FENCEX (07 R178). -/
def opFencex (s : State) (_k : Nat) (c : Ctx) (a _b : Dword) : Ctl :=
  if bits a 6 58 ≠ 0 then .code rcBadArg s else if c.fenceBusy (bits a 0 4) then .waits s else .code rcOk s

/-- FENCEX (07 R178). -/
def execFencex (rd rs1 : Nat) (s : State) : Host.Outcome State Fault Refusal := .next (s.localOp (.fencex rd rs1) rd rs1 0 opFencex)

/-- SWAIT (07 R179). -/
def opSwait (s : State) (_k : Nat) (c : Ctx) (a _b : Dword) : Ctl :=
  if bits a 7 57 ≠ 0 then .code rcBadArg s
  else if c.entries.any (fun e => decide (bits a 6 1 = 1) || e.names (bits a 0 6)) then .waits s else .code rcOk s

/-- SWAIT (07 R179). -/
def execSwait (rd rs1 : Nat) (s : State) : Host.Outcome State Fault Refusal := .next (s.localOp (.swait rd rs1) rd rs1 0 opSwait)

/-! ## Dikes (07 R180, R181) -/

/-- The group map's entry of a local group at an SP: the group table entry and the dike port, if the SP is a member (02 R56). -/
def Sp.groupMap (p : Sp) (g : Nat) : Option (Nat × Nat) :=
  let v := cmRead p.cm (0x38080 + 2 * g) 2
  if v / 2 ^ 15 % 2 = 1 then some (v % 256, v / 2 ^ 8 % 4) else none

/-- The arrival at the dike of a group entry, once per phase, and the wait for its release. -/
def State.sbarStep (s : State) (k : Nat) (c : Ctx) (e : Nat) : Ctl :=
  match KMap.find e c.sbar with
  | some 2 => .code rcOk (s.modCtx k fun c => { c with sbar := KMap.del e c.sbar })
  | some _ => .waits s
  | none => .waits ((s.modCtx k fun c => { c with sbar := KMap.ins e 1 c.sbar }).dikeArrive (s.partOf c) e k)

/-- SBAR (07 R180). -/
def opSbar (s : State) (k : Nat) (c : Ctx) (a _b : Dword) : Ctl :=
  match (s.sp k).groupMap (bits a 0 8) with
  | none => .code rcNotMember s
  | some q => s.sbarStep k c q.1

/-- SBAR (07 R180). -/
def execSbar (rd rs1 : Nat) (s : State) : Host.Outcome State Fault Refusal := .next (s.localOp (.sbar rd rs1) rd rs1 0 opSbar)

/-- GSYNC: FENCEX of every class, then SBAR, then an acquire, which orders nothing more in this model (07 R181). -/
def opGsync (s : State) (k : Nat) (c : Ctx) (a _b : Dword) : Ctl :=
  match (s.sp k).groupMap (bits a 0 8) with
  | none => .code rcNotMember s
  | some q => if (KMap.find q.1 c.sbar).isNone && c.fenceBusy 15 then .waits s else s.sbarStep k c q.1

/-- GSYNC (07 R181). -/
def execGsync (rd rs1 : Nat) (s : State) : Host.Outcome State Fault Refusal := .next (s.localOp (.gsync rd rs1) rd rs1 0 opGsync)

/-! ## Sync objects (07 R182, 14 R365, R366) -/

/-- Holders and waiters of a sync object of a launch, as (SP, shared). -/
def Part.syncOf (p : Part) (launch obj : Nat) : List (Nat × Bool) × List (Nat × Bool) :=
  match p.sync.find? fun q => decide (q.1 = launch) && decide (q.2.1 = obj) with
  | some q => q.2.2
  | none => ([], [])

/-- The partition with a sync object's holders and waiters replaced. -/
def Part.setSync (p : Part) (launch obj : Nat) (h w : List (Nat × Bool)) : Part :=
  { p with sync := (p.sync.filter fun q => !(decide (q.1 = launch) && decide (q.2.1 = obj))) ++ if h.isEmpty && w.isEmpty then [] else [(launch, obj, h, w)] }

/-- A request may be granted: exclusive without a holder, shared without an exclusive holder, and no earlier request that must go
first. -/
def grantable (h before : List (Nat × Bool)) (shared : Bool) : Bool :=
  if shared then h.all (·.2) && before.all (·.2) else h.isEmpty && before.isEmpty

/-- ACQ (07 R182). -/
def opAcq (s : State) (k : Nat) (c : Ctx) (a b : Dword) : Ctl :=
  let obj := a.toNat; let shared := decide (bits b 0 1 = 1)
  let bound := (s.launchOf c.launch).any fun l => l.segs.any fun g => decide (g.sync = obj)
  match s.part (s.partOf c) with
  | none => .code rcBadArg s
  | some p =>
    if 0xFFFF ≤ obj ∨ !bound ∨ bits b 3 61 ≠ 0 then .code rcBadArg s else
    let q := p.syncOf c.launch obj
    if q.1.any (·.1 = k) then .code rcBusy s else
    let before := q.2.takeWhile (·.1 ≠ k)
    if grantable q.1 before shared then
      .code rcOk (s.setPart (s.partOf c) (p.setSync c.launch obj (q.1 ++ [(k, shared)]) (q.2.filter (·.1 ≠ k))))
    else if q.2.any (·.1 = k) then .waits s
    else .waits (s.setPart (s.partOf c) (p.setSync c.launch obj q.1 (q.2 ++ [(k, shared)])))

/-- ACQ (07 R182). -/
def execAcq (rd rs1 rs2 : Nat) (s : State) : Host.Outcome State Fault Refusal := .next (s.localOp (.acq rd rs1 rs2) rd rs1 rs2 opAcq)

/-- Some older memory write of the context's copies that lies where `p` holds has not been performed: one that is still to be sent, one that is on
its way, or the write of what SCOPY is reading. -/
def State.writesPending (s : State) (k : Nat) (c : Ctx) (p : Nat → Bool) : Bool :=
  (c.sb.any fun e => e.writesAt (s.sp k).srf c p)
    || s.accs.any fun a =>
      match a.src with
      | .copy sp l q i o => decide (sp = k) && decide (l = c.launch) &&
          (if a.kind = .read then c.sb.any fun e => decide (e.seq = q) && decide (e.kind = .mem) && p (wrap 48 ((e.dstAddr i + o : Nat) : Int))
           else decide (a.state ≠ 3) && p a.va)
      | _ => false

/-- The address lies in a segment bound to a sync object. -/
def State.boundTo (s : State) (c : Ctx) (obj va : Nat) : Bool :=
  (s.launchOf c.launch).any fun l => (l.segAt va).any fun g => decide (g.2.sync = obj)

/-- REL: waits for the older writes to the bound segments (14 R366). -/
def opRel (s : State) (k : Nat) (c : Ctx) (a _b : Dword) : Ctl :=
  match s.part (s.partOf c) with
  | none => .code rcNotHeld s
  | some p =>
    let q := p.syncOf c.launch a.toNat
    if !q.1.any (·.1 = k) then .code rcNotHeld s
    else if s.writesPending k c (s.boundTo c a.toNat) then .waits s
    else .code rcOk (s.setPart (s.partOf c) (p.setSync c.launch a.toNat (q.1.filter (·.1 ≠ k)) q.2))

/-- REL (14 R366). -/
def execRel (rd rs1 : Nat) (s : State) : Host.Outcome State Fault Refusal := .next (s.localOp (.rel rd rs1) rd rs1 0 opRel)

/-! ## Tokens (07 R183, 15 R390) -/

/-- The IA of a token instruction's address. -/
def State.tokIa (s : State) (c : Ctx) (va : Dword) : Option Nat :=
  if 2 ^ 48 ≤ va.toNat then none else (s.launchOf c.launch).bind fun l => l.importedIa va.toNat

/-- TACQ: asks for the token, and waits for it up to a limit (07 R183, 15 R390). -/
def opTacq (s : State) (k : Nat) (c : Ctx) (a b : Dword) : Ctl :=
  match s.tokIa c a with
  | none => .code rcBadArg s
  | some ia =>
    let s1 := s.tokWant k ia
    match (s1.ctx k).bind fun c => KMap.find (ia / 2 ^ 21) c.tokens with
    | some 1 => .code rcOk s1
    | some 2 => .code rcOk (s1.modCtx k fun c => { c with tokens := KMap.del (ia / 2 ^ 21) c.tokens })
    | _ => .waits (s1.modCtx k fun c => { c with wait := some { c.waiting (.tacq 0 0 0) a b with limit := ((c.wait.map (·.limit)).getD (if b = 0 then none else some (s.now + b.toNat))) } })

/-- TACQ (07 R183). -/
def execTacq (rd rs1 rs2 : Nat) (s : State) : Host.Outcome State Fault Refusal :=
  .next (s.withCtx s.cur fun c0 =>
    let s1 := s.localOp (.tacq rd rs1 rs2) rd rs1 rs2 opTacq
    s1.modCtx s.cur fun c => if c0.wait.isNone then { c with wait := c.wait.map fun w => { w with instr := .tacq rd rs1 rs2 } } else c)

/-- The token of a region is given up by a context: at the local home, or by a message. -/
def State.tokRelease (s : State) (k : Nat) (c : Ctx) (ia : Nat) : Bool × State :=
  let r := ia / 2 ^ 21
  let drop := fun (s : State) => s.modCtx k fun c => { c with tokens := KMap.del r c.tokens }
  if iaWindow ia = 0 then let q := s.tokGive (s.partOf c) r (s.tokName c); (q.1, drop q.2)
  else if KMap.find r c.tokens = some 1 then (true, drop (s.tokSend k c ia 1))
  else (false, s)

/-- The absent page of the token table for a region of the context's own partition. -/
def State.tokHere (s : State) (c : Ctx) (ia : Nat) : Option Nat := if iaWindow ia = 0 then s.tokAbsent (s.partOf c) (ia / 2 ^ 21) else none

/-- TREL: waits for the older writes to the region, then gives the token up (07 R183, 14 R369). -/
def opTrel (s : State) (k : Nat) (c : Ctx) (a _b : Dword) : Ctl :=
  match s.tokIa c a with
  | none => .code rcBadArg s
  | some ia =>
    if KMap.find (ia / 2 ^ 21) c.tokens ≠ some 1 then .code rcNotHeld s
    else if s.writesPending k c (fun va => (s.tokIa c (BitVec.ofNat 64 va)).any fun x => decide (x / 2 ^ 21 = ia / 2 ^ 21)) then .waits s
    else match s.tokHere c ia with
    | some a => .waits (s.askTable (s.partOf c) a)
    | none => let q := s.tokRelease k c ia; .code (if q.1 then rcOk else rcNotHeld) q.2

/-- TREL (07 R183). -/
def execTrel (rd rs1 : Nat) (s : State) : Host.Outcome State Fault Refusal := .next (s.localOp (.trel rd rs1) rd rs1 0 opTrel)

/-- TACQ_TIMEOUT: the limit of a waiting TACQ has passed; it returns TIMEOUT and withdraws its request (07 R183, 15 R390). -/
def execTacqTimeout (k : Nat) (s : State) : Host.Outcome State Fault Refusal :=
  .next (s.withCtx k fun c =>
    match c.wait with
    | none => s
    | some w =>
      match w.instr, w.limit with
      | .tacq rd _ _, some t =>
        if s.now < t then s else
        match s.tokIa c w.rs1 with
        | none => s
        | some ia =>
          let s1 := if iaWindow ia = 0 then s.tokWithdraw (s.partOf c) (ia / 2 ^ 21) (s.tokName c) else s.tokSend k c ia 2
          s1.modCtx k fun c => { c with tokens := KMap.del (ia / 2 ^ 21) c.tokens }.retire rd (BitVec.ofNat 64 rcTimeout)
      | _, _ => s)

end Sys2Proof.Machine
end

