-- ==== Sys2Proof/Machine/Tasks.lean ====
section
/-! DEFINITION. Tasks and status (07 R184 to R186; 02 R64 to R67), and the end of a controller's wait (07 R154). -/

namespace Sys2Proof.Machine

/-! ## Contexts of an SP, wherever they stand -/

/-- The context of a launch at an SP: the running one, the one that has exited, or a pre-empted one. -/
def Sp.owner (p : Sp) (launch : Nat) : Option Ctx :=
  match p.ctx.filter fun c => decide (c.launch = launch) with
  | some c => some c
  | none =>
    match p.left.filter fun c => decide (c.launch = launch) with
    | some c => some c
    | none => (p.victims.find? fun v => decide (v.ctx.launch = launch)).map (·.ctx)

/-- That context replaced. -/
def Sp.setOwner (p : Sp) (launch : Nat) (d : Ctx) : Sp :=
  match p.ctx.filter fun c => decide (c.launch = launch) with
  | some _ => { p with ctx := some d }
  | none =>
    match p.left.filter fun c => decide (c.launch = launch) with
    | some _ => { p with left := some d }
    | none => { p with victims := updFirst (fun v => decide (v.ctx.launch = launch)) (fun v => { v with ctx := d }) p.victims }

/-- `s` with the context of a launch at SP `k` changed. -/
def State.modOwner (s : State) (k launch : Nat) (f : Ctx → Ctx) : State :=
  s.modSp k fun p => match p.owner launch with
    | none => p
    | some c => p.setOwner launch (f c)

/-! ## Weights -/

/-- The root's expected total raised by a reseed (02 R65, R66). -/
def State.reseed (s : State) (launch : Nat) : State := s.modLaunch launch fun l => { l with t := l.t + 2 ^ 32 }

/-- The code of SPAWN (07 R184). -/
def spawnCode (s : State) (c : Ctx) (a b : Dword) : Nat :=
  let e := bits a 0 32
  let len := ((s.codeOfCtx c).map fun o => o.ctrl.length).getD 0
  let entry := (s.sp s.cur).groupMap (bits a 32 8)
  firstCode [
    (decide (bits a 40 24 ≠ 0) || decide (e % 2 = 1) || decide (len ≤ e) || decide (b.toNat % 8 ≠ 0) || decide (0x38000 ≤ b.toNat), rcBadArg),
    (entry.isNone, rcNotMember),
    (entry.any fun q => ((s.part (s.partOf c)).bind fun p => KMap.find q.1 p.groups).any fun g => decide (4096 ≤ g.pool.length), rcPoolFull)]

/-- SPAWN: a task record with part of the held weight joins the pool; a weight of 1 is reseeded first (02 R65). -/
def execSpawn (rd rs1 rs2 : Nat) (s : State) : Host.Outcome State Fault Refusal :=
  .next (s.withCtx s.cur fun c =>
    let a := c.xr rs1; let b := c.xr rs2
    let code := spawnCode s c a b
    if code ≠ 0 then s.retireCode rd code else
    let s1 := if c.hw = 1 then s.reseed c.launch else s
    let hw := if c.hw = 1 then c.hw + 2 ^ 32 else c.hw
    let w := c.split.getD (hw / 2)
    let arg := bytesRead (s.sp s.cur).cm b.toNat 32
    let s2 := match (s.sp s.cur).groupMap (bits a 32 8) with
      | none => s1
      | some q => s1.modPart (s.partOf c) fun p => { p with groups := KMap.upd q.1 (fun g => { g with pool := g.pool ++ [(bits a 0 32, arg, w)] }) p.groups }
    s2.setCtx s.cur ({ c with hw := hw - w, split := none }.retire rd 0))

/-- TSPLIT: the child weight of the next SPAWN (02 R66). -/
def execTsplit (rd rs1 : Nat) (s : State) : Host.Outcome State Fault Refusal :=
  .next (s.modCtx s.cur fun c =>
    let k := (c.xr rs1).toNat
    if 1 ≤ k ∧ k + 1 ≤ c.hw then { c with split := some k }.retire rd 0 else c.retire rd (BitVec.ofNat 64 rcBadArg))

/-- TRESEED (02 R66). -/
def execTreseed (rd : Nat) (s : State) : Host.Outcome State Fault Refusal :=
  .next (s.withCtx s.cur fun c =>
    if 2 ^ 63 ≤ c.hw then s.retireCode rd rcBadArg
    else (s.reseed c.launch).setCtx s.cur ({ c with hw := c.hw + 2 ^ 32 }.retire rd 0))

/-! ## TEXIT -/

/-- The sync objects that SP `k` holds for a launch. -/
def Part.heldBy (p : Part) (launch k : Nat) : List Nat :=
  (p.sync.filter fun q => decide (q.1 = launch) && q.2.2.1.any fun h => decide (h.1 = k)).map (·.2.1)

/-- The holds and requests of SP `k` for a launch given up. -/
def Part.dropHolds (p : Part) (launch k : Nat) : Part :=
  { p with sync := (p.sync.map fun q => if q.1 = launch then (q.1, q.2.1, q.2.2.1.filter (·.1 ≠ k), q.2.2.2.filter (·.1 ≠ k)) else q).filter
             (fun q => !(q.2.2.1.isEmpty && q.2.2.2.isEmpty)) }

/-- TEXIT waits: an older entry has not completed, or a hold may not yet be released (07 R185, 14 R366). -/
def State.texitWaits (s : State) (k : Nat) (c : Ctx) : Bool :=
  !c.entries.isEmpty || ((s.part (s.partOf c)).any fun p => (p.heldBy c.launch k).any fun o => s.writesPending k c (s.boundTo c o))

/-- The context of SP `k` ends: its weight comes home, and the launch ends with cause OK once all weight has (02 R67, 24 R461). -/
def State.exitContext (s : State) (k : Nat) (c : Ctx) : State :=
  let s1 := s.modPart (s.partOf c) fun p => p.dropHolds c.launch k
  let s2 := s1.modSp k fun p => { p with ctx := none, left := some { c with wait := none }, idle := true }
  let s3 := s2.modLaunch c.launch fun l => { l with ret := l.ret + c.hw }
  if (s3.launchOf c.launch).any fun l => decide (l.ret = l.t) then s3.endLaunch c.launch 0 0xFFFF 0 0 0 else s3

/-- TEXIT (07 R185). -/
def execTexit (s : State) : Host.Outcome State Fault Refusal :=
  .next (s.withCtx s.cur fun c =>
    if s.texitWaits s.cur c then s.modCtx s.cur fun c => { c with wait := some (c.waiting .texit 0 0) }
    else s.exitContext s.cur c)

/-! ## Status -/

/-- What a blocking instruction has done is undone: it has not retired (19 R406). -/
def Ctx.undo (c : Ctx) : Ctx :=
  match c.squash with
  | none => c
  | some q => { c with pc := q.pc, x := q.x, f := q.f, fcsr := q.fcsr, squash := none }

/-- A pre-emption request has reached the context: the controller stops, the reservation is cleared, and an instruction that
waits or blocks is given up and executed again (19 R405, R406; 06 R131). -/
def Ctx.takeRequest (c : Ctx) : Ctx :=
  match c.preempt with
  | some _ => c
  | none => { c.undo with preempt := some 0, wait := none, busy := 0, resv := none }

/-- SYIELD: a pending pre-emption is taken here (07 R186). -/
def execSyield (rd : Nat) (s : State) : Host.Outcome State Fault Refusal :=
  .next (s.modCtx s.cur fun c => let d := c.retire rd 0; if c.mpreq then d.takeRequest else d)

/-- What SSTAT returns (07 R186). -/
def Ctx.sstat (c : Ctx) (a : Nat) : Nat :=
  match a with
  | 0 => c.entries.length
  | 1 => if c.stopped then 2 else if c.kernelEntry.isSome then 1 else if c.entries.any (fun e => decide (e.cls = clsKernel)) then 3 else 0
  | 2 =>
    match c.spire.phase with
    | 1 => 1
    | 2 => 2
    | 3 => 3
    | 4 => 3
    | _ => 0
  | _ =>
    if 8 ≤ a ∧ a ≤ 15 then
      let t := c.stage (a - 8)
      t.remaining + t.age * 2 ^ 16 + (if t.suspended.isSome then 2 ^ 24 else 0) + (if t.finished then 2 ^ 25 else 0) + (if t.declared then 2 ^ 26 else 0)
    else 0

/-- SSTAT (07 R186). -/
def execSstat (rd rs1 : Nat) (s : State) : Host.Outcome State Fault Refusal :=
  .next (s.modCtx s.cur fun c => c.retire rd (BitVec.ofNat 64 (c.sstat (c.xr rs1).toNat)))

/-! ## The end of a wait -/

/-- The waiting instruction is tried again with the operands that it read; it retires once its condition is met (07 R154). -/
def State.waitStep (s : State) (k : Nat) (w : Wait) : State :=
  s.withCtx k fun c =>
    let go := fun rd (f : State → Nat → Ctx → Dword → Dword → Ctl) => State.ctl k w.instr rd w.rs1 w.rs2 (f s k c w.rs1 w.rs2)
    match w.instr with
    | .palloc rd _ _ => go rd opPalloc
    | .pfree rd _ => go rd opPfree
    | .sdget rd ss fd => go rd (opSdget ss fd)
    | .awinit rd _ _ => go rd opAwinit
    | .await rd _ _ => go rd opAwait
    | .acq rd _ _ => go rd opAcq
    | .rel rd _ => go rd opRel
    | .tacq rd _ _ => go rd opTacq
    | .trel rd _ => go rd opTrel
    | .fencex rd _ => go rd opFencex
    | .swait rd _ => go rd opSwait
    | .sbar rd _ => go rd opSbar
    | .gsync rd _ => go rd opGsync
    | .texit => if s.texitWaits k c then s else s.exitContext k c
    | _ => s

/-- CONTROLLER_WAIT_END (07 R154). -/
def execControllerWaitEnd (k : Nat) (s : State) : Host.Outcome State Fault Refusal :=
  .next (s.withCtx k fun c => match c.wait with
    | none => s
    | some w => s.waitStep k w)

end Sys2Proof.Machine
end

