-- ==== Sys2Proof/Machine/Translate.lean ====
section
/-! DEFINITION. Translation of intermediate addresses (12 R305 to R317): channels and dies, the translation block, page-table entries,
the radix walk and the cuckoo probe, and the checks of a page against its partition. -/

namespace Sys2Proof.Machine

/-! ## Channels and dies (12 R324, R329) -/

/-- Steps between two dies: C0 to C3 are 0 to 3, X0 and X1 are 4 and 5. -/
def dieSteps (a b : Nat) : Nat :=
  if a = b then 0
  else if a < 4 ∧ b < 4 then popcount 2 (Nat.xor a b)
  else if a < 4 then (if a % 2 = (b - 4) % 2 then 1 else 2)
  else if b < 4 then (if b % 2 = (a - 4) % 2 then 1 else 2)
  else 3

/-- The die whose TLB translates for a die: C0's for X0 and C1's for X1 (12 R318). -/
def tlbDie (d : Nat) : Nat := if d < 4 then d else d - 4

/-- The compute die of an SP. -/
def dieOfSp (k : Nat) : Nat := k / 40

/-! ## Ranges of a partition -/

/-- `n` bytes from `a` lie wholly inside one of the ranges. -/
def inRanges (l : List (Nat × Nat)) (a n : Nat) : Bool := l.any fun r => decide (r.1 ≤ a) && decide (a + n ≤ r.1 + r.2)

/-- The base of the translation block: the lowest linear range (12 R308). -/
def Part.tblock (p : Part) : Option Nat :=
  match p.linear.map (·.1) with
  | [] => none
  | a :: l => some (l.foldl min a)

/-- The class of an IA of the package's own memory (12 R305): linear. -/
def iaLinear (ia : Nat) : Bool := decide (ia < 2 ^ 39)

/-- In the hole. -/
def iaHole (ia : Nat) : Bool := decide (2 ^ 39 ≤ ia) && decide (ia < 2 ^ 40)

/-! ## Page-table entries (12 R311) -/

/-- What a walk ends with. -/
inductive Walked
  | page (base size frame : Nat) (r w : Bool)
  | fault (cause : Nat)
deriving DecidableEq, Repr

/-- Causes of a fault record (12 R321). -/
abbrev fcNotMapped : Nat := 1
abbrev fcProt : Nat := 2
abbrev fcBadPte : Nat := 3
abbrev fcRange : Nat := 4
abbrev fcNoForm : Nat := 5

/-- Fields of an entry. -/
def pteV (e : Nat) : Bool := decide (e % 2 = 1)
def pteLeaf (e : Nat) : Bool := decide (e / 2 % 2 = 1)
def pteR (e : Nat) : Bool := decide (e / 4 % 2 = 1)
def pteW (e : Nat) : Bool := decide (e / 8 % 2 = 1)
def pteCont (e : Nat) : Bool := decide (e / 32 % 2 = 1)
def pteAddr (e : Nat) : Nat := e / 4096 % 2 ^ 40 * 4096
def pteReserved (e : Nat) : Bool := decide (e / 2 ^ 52 % 2 ^ 12 ≠ 0) || decide (e / 64 % 64 ≠ 0) || decide (e / 16 % 2 ≠ 0)

/-- A leaf entry as a page of `size` bytes that holds `ia`. -/
def pteLeafPage (e ia size : Nat) : Walked :=
  if pteAddr e % size ≠ 0 then .fault fcBadPte else .page (ia - ia % size) size (pteAddr e) (pteR e) (pteW e)

/-! ## The radix walk (12 R312, R313) -/

/-- Bits of IA below the index of a level. -/
def levelShift (level : Nat) : Nat := 48 - 9 * level

/-- The index of an IA at a level. -/
def levelIndex (level ia : Nat) : Nat := ia / 2 ^ levelShift level % (if level = 0 then 16 else 512)

/-- The walk from the table at `t` of `level`, with `n` levels to go: its result, and the addresses that it reads. -/
def radixWalk (m : List Host.Cell) (ia : Nat) : Nat → Nat → Nat → Walked × List Nat
  | 0, _, _ => (.fault fcBadPte, [])
  | n + 1, level, t =>
    let i := levelIndex level ia
    let a0 := t + 8 * i
    let e0 := ofBytes (Memory.read m a0 8)
    let group := pteCont e0 && decide (i % 16 ≠ 0)
    let a := if group then t + 8 * (i - i % 16) else a0
    let e := ofBytes (Memory.read m a 8)
    let reads := if group then [a0, a] else [a0]
    if !pteV e then (.fault fcNotMapped, reads)
    else if pteReserved e then (.fault fcBadPte, reads)
    else if pteLeaf e then
      if level ≤ 1 then (.fault fcBadPte, reads)
      else (pteLeafPage e ia (2 ^ levelShift level * if group || pteCont e then 16 else 1), reads)
    else if level = 4 then (.fault fcBadPte, reads)
    else let r := radixWalk m ia n (level + 1) (pteAddr e); (r.1, reads ++ r.2)

/-! ## The cuckoo probe (12 R314 to R316) -/

/-- log2 of the page size of a page-size code. -/
def pageBits (code : Nat) : Nat := [12, 16, 21, 25, 30, 34].getD code 12

/-- The hash of a way. -/
def cuckooHash (way x n : Nat) : Nat :=
  (x + 1) * [0x9C4F2B6D1A3E8F57, 0xE3A15D97C2B46F0B, 0xB7D26E19A48C35F3].getD way 0 % 2 ^ 64 / 2 ^ (64 - n)

/-- The slot that a way probes for page number `x`, given the table's descriptor. -/
def cuckooSlot (d : List Byte) (way x : Nat) : Nat :=
  let n := field d 8 1; let nOld := field d 9 1
  let cur := field d 0 8 + (way * 2 ^ n + cuckooHash way x n) * 16
  if nOld = 0 then cur
  else
    let j := cuckooHash way x nOld
    if j < field d 24 8 then cur else field d 16 8 + (way * 2 ^ nOld + j) * 16

/-- The probe of every enabled table, smallest page first, lowest way first. -/
def cuckooWalk (m : List Host.Cell) (head : List Byte) (ia : Nat) : Walked × List Nat :=
  let probes := (List.range 6).flatMap fun code =>
    let d := (head.drop (0x40 + 64 * code)).take 64
    let n := field d 8 1
    if n < 4 ∨ 26 < n then [] else
    let x := ia / 2 ^ pageBits code
    (List.range 3).map fun way => (code, x, cuckooSlot d way x)
  let hit := probes.find? fun q => decide (ofBytes (Memory.read m q.2.2 8) = 2 ^ 63 + q.2.1)
  (match hit with
    | none => .fault fcNotMapped
    | some q =>
      let e := ofBytes (Memory.read m (q.2.2 + 8) 8)
      if !pteV e || pteReserved e || !pteLeaf e then .fault fcBadPte else pteLeafPage e ia (2 ^ pageBits q.1), probes.map (·.2.2))

/-! ## A walk -/

/-- The page is checked against its partition (12 R317). -/
def Walked.check (p : Part) : Walked → Walked
  | .page b n f r w => if inRanges p.paged b n && inRanges p.linear f n then .page b n f r w else .fault fcRange
  | .fault c => .fault c

/-- The walk for a paged IA with the head of the translation block as it stood at its start: the result, and the addresses it reads. -/
def walkIa (m : List Host.Cell) (p : Part) (head : List Byte) (ia : Nat) : Walked × List Nat :=
  let r := match field head 0 8 with
    | 1 => radixWalk m ia 5 0 (field head 8 8)
    | 2 => cuckooWalk m head ia
    | _ => (.fault fcNoForm, [])
  (r.1.check p, r.2)

/-- The head of a partition's translation block. -/
def State.tblockHead (s : State) (p : Part) : List Byte :=
  match p.tblock with
  | none => []
  | some a => Memory.read s.linMem a 0x1C0

/-- Cycles of the reads of a walk, each with what the cache adds to it (12 R329): in sequence for the radix form, the slowest for the cuckoo form. -/
def walkCycles (die : Nat) (head : List Byte) (reads : List (Nat × Nat)) : Nat :=
  let one := fun (a : Nat × Nat) => 48 + 20 * dieSteps die (dieOfPa a.1) + a.2
  if field head 0 8 = 2 then (reads.map one).foldl max 0 else (reads.map one).sum

end Sys2Proof.Machine
end

