-- ==== Sys2Proof/Machine/Vct.lean ====
section
/-! DEFINITION. The host port's protocol VCT (02 R41 to R47): sequence windows, replies, messages of the part and their retransmission. -/

namespace Sys2Proof.Machine

/-- Message types (02 R43). -/
abbrev vtReadData : Nat := 4
abbrev vtComplete : Nat := 5
abbrev vtFault : Nat := 6
abbrev vtMigrate : Nat := 8
abbrev vtLoadResult : Nat := 0xA
abbrev vtAck : Nat := 0xD
abbrev vtNak : Nat := 0xE

/-- NAK codes (02 R46). -/
abbrev nkBadMessage : Nat := 1
abbrev nkPerm : Nat := 2
abbrev nkQueueFull : Nat := 3
abbrev nkBadHandle : Nat := 4
abbrev nkBadEntry : Nat := 5
abbrev nkBadSpset : Nat := 6
abbrev nkOutOfWindow : Nat := 7
abbrev nkBusy : Nat := 8
abbrev nkCancelled : Nat := 9
abbrev nkBadAddress : Nat := 10
abbrev nkUnbound : Nat := 11

/-! ## Messages of the part -/

/-- A message that the part sends under its own sequence number, to a port and address of the host (address 0: where the VF's last message came
from, log 41); it is kept until the host acknowledges it (02 R45). -/
def State.sendOwn (s : State) (vf type_ status tag port addr : Nat) (payload : List Byte) : State :=
  let v := s.vf vf
  let dest := if addr = 0 then v.host else (addr, port)
  let m : Msg := { vf := vf, type_ := type_, seq := v.next, status := status, tag := tag, port := dest.2, addr := dest.1, payload := payload }
  let s1 := s.modVf vf fun v => { v with next := (v.next + 1) % 2 ^ 32, unacked := v.unacked ++ [⟨m, 0, s.now⟩] }
  { s1 with out := s1.out ++ [m] }

/-- The reply to the message of a header: it carries the message's sequence number and tag, goes where the message came from, and is kept so that
a duplicate receives it again (02 R42, R44). -/
def State.reply (s : State) (h : VctHdr) (type_ status : Nat) (payload : List Byte) : State :=
  let m : Msg := { vf := h.vf, type_ := type_, seq := h.seq, status := status, tag := h.tag, port := h.port, addr := h.addr, payload := payload }
  let s1 := s.modVf h.vf fun v => { v with replies := v.replies.filter (fun r => decide (dif32 v.expect r.1 ≤ 64) && decide (r.1 ≠ h.seq)) ++ [(h.seq, m)] }
  { s1 with out := s1.out ++ [m] }

/-- An answer under the part's own sequence number, as LOAD_RESULT is (02 R45); a duplicate of the message receives it again. -/
def State.replyOwn (s : State) (h : VctHdr) (type_ status : Nat) (payload : List Byte) : State :=
  let dest := if h.addr = 0 then (s.vf h.vf).host else (h.addr, h.port)
  let m : Msg := { vf := h.vf, type_ := type_, seq := (s.vf h.vf).next, status := status, tag := h.tag, port := dest.2, addr := dest.1, payload := payload }
  (s.sendOwn h.vf type_ status h.tag h.port h.addr payload).modVf h.vf fun v =>
    { v with replies := v.replies.filter (fun r => decide (dif32 v.expect r.1 ≤ 64) && decide (r.1 ≠ h.seq)) ++ [(h.seq, m)] }

/-- ACK and NAK of a message. -/
def State.ackMsg (s : State) (h : VctHdr) : State := s.reply h vtAck 0 []
def State.nak (s : State) (h : VctHdr) (code : Nat) : State := s.reply h vtNak code []

/-! ## The sequence window (02 R44) -/

/-- What the window does with a sequence number. -/
inductive Window | execute | hold | tooFar | old | duplicate
deriving DecidableEq, Repr

/-- The action for a message with sequence `n` when `e` is expected. -/
def windowOf (e n : Nat) : Window :=
  let d := dif32 n e
  if d = 0 then .execute
  else if d < 64 then .hold
  else if d < 2 ^ 31 then .tooFar
  else if d < 2 ^ 32 - 64 then .old
  else .duplicate

/-- The held message that has become the expected one is executed next, unless one is still being executed (02 R44, R51). -/
def State.nextHeld (s : State) (vf : Nat) : State :=
  let v := s.vf vf
  if v.busy.isSome then s else
  match v.held.find? fun q => decide (q.1 = v.expect) with
  | none => s
  | some q => { s.modVf vf fun v => { v with held := v.held.filter fun r => decide (r.1 ≠ q.1) } with inbox := q.2 :: s.inbox }

/-- The VF's partition is the source of a migration: its messages are answered with BUSY (23 R449). -/
def State.vfMigrating (s : State) (vf : Nat) : Bool := ((s.vf vf).part.bind s.part).any fun p => decide (p.migr.role = 1) || p.moved.isSome

/-- A NAK that consumes no sequence number and is not kept. -/
def State.nakOnly (s : State) (h : VctHdr) (code : Nat) : State :=
  { s with out := s.out ++ [{ vf := h.vf, type_ := vtNak, seq := h.seq, status := code, tag := h.tag, port := h.port, addr := h.addr, payload := [] }] }

/-- A message of the host: `i` is the step that it is, and `f` executes it. While the host port is down no message comes (25 R471). Every
message of an unbound VF is NAK UNBOUND (02 R47), whatever its sequence number and operation and even if it is invalid (log 41). -/
def State.vct (s : State) (h : VctHdr) (i : Instr) (f : State → State) : State :=
  if !s.dev.hostUp then s
  else if h.vf ≠ 0 ∧ (s.vf h.vf).part = none then s.nakOnly h nkUnbound
  else if s.vfMigrating h.vf then s.nakOnly h nkBusy else
  let v := s.vf h.vf
  let hold := s.modVf h.vf fun v => if v.held.any (fun q => decide (q.1 = h.seq)) then v else { v with held := v.held ++ [(h.seq, i)] }
  match windowOf v.expect h.seq with
  | .execute => if v.busy.isSome then hold else (f (s.modVf h.vf fun v => { v with expect := (v.expect + 1) % 2 ^ 32, host := (h.addr, h.port) })).nextHeld h.vf
  | .hold => hold
  | .tooFar => s.nakOnly h nkOutOfWindow
  | .old => s
  | .duplicate =>
    match v.replies.find? fun r => decide (r.1 = h.seq) with
    | none => s
    | some r => { s with out := s.out ++ [r.2] }

/-- A message that only a bound VF may send: NAK PERM for VF 0 (02 R47). -/
def State.vctBound (s : State) (h : VctHdr) (i : Instr) (f : Nat → State → State) : State :=
  s.vct h i fun s =>
    if h.vf = 0 then s.nak h nkPerm
    else match (s.vf h.vf).part with
      | none => s.nak h nkUnbound
      | some p => f p s

/-- A message that only VF 0 may send (02 R47). -/
def State.vctSystem (s : State) (h : VctHdr) (i : Instr) (f : State → State) : State :=
  s.vct h i fun s => if h.vf = 0 then f s else s.nak h nkPerm

/-- ACK: the host has received a message of the part; it is not sent again (02 R45). -/
def execAck (vf seq : Nat) (s : State) : Host.Outcome State Fault Refusal :=
  .next (s.modVf vf fun v => { v with unacked := v.unacked.filter fun u => decide (u.msg.seq ≠ seq) })

/-- VCT_INVALID_MESSAGE: NAK BAD_MESSAGE, no other effect, and the sequence number is consumed (02 R46). -/
def execVctInvalidMessage (h : VctHdr) (s : State) : Host.Outcome State Fault Refusal :=
  .next (s.vct h (.vctInvalidMessage h) fun s => s.nak h nkBadMessage)

/-- Cycles of 100 µs at the arithmetic clock of 1.05 GHz (00 R3). -/
abbrev retransmitCycles : Nat := 105000

/-- VCT_RETRANSMIT_TIMER: a message of the part that is not acknowledged is sent again every 100 µs, up to 16 times; then it is dropped
and the VF's lost-message counter rises (02 R45). -/
def execVctRetransmitTimer (vf seq : Nat) (s : State) : Host.Outcome State Fault Refusal :=
  .next (
    let v := s.vf vf
    match v.unacked.find? fun u => decide (u.msg.seq = seq) with
    | none => s
    | some u =>
      if s.now < u.at_ + retransmitCycles then s
      else if 16 ≤ u.tries then s.modVf vf fun v => { v with unacked := v.unacked.filter (fun u => decide (u.msg.seq ≠ seq)), lost := v.lost + 1 }
      else
        let s1 := s.modVf vf fun v => { v with unacked := updFirst (fun u => decide (u.msg.seq = seq)) (fun u => { u with tries := u.tries + 1, at_ := s.now }) v.unacked }
        { s1 with out := s1.out ++ [u.msg] })

/-! ## Frames (02 R41 to R43, R46) -/

/-- The MAC address and the IPv6 address of a VF: constants of the part, one of its own for each VF (log 6). -/
def vfMac (v : Nat) : Nat := Config.deviceConst 15 % 2 ^ 42 * 64 + v
def vfIp (v : Nat) : Nat := Config.deviceConst 16 % 2 ^ 122 * 64 + v

/-- The UDP port of VCT at the part's end, and the most bytes of Ethernet payload: those of the IPv6 and UDP headers and the message. -/
abbrev vctPort : Nat := 46784
abbrev etherMax : Nat := 9000
abbrev udpHeaders : Nat := 48

/-- The 24-byte header of a message (02 R42). -/
def headerBytes (type_ queue seq length status tag : Nat) : List Byte :=
  toBytes 1 1 ++ toBytes 1 type_ ++ toBytes 1 queue ++ toBytes 1 0 ++ toBytes 4 seq ++ toBytes 4 length ++ toBytes 4 status ++ toBytes 8 tag

/-- The frame in which a message of the part stands on the wire. -/
def Msg.frame (m : Msg) : HostFrame :=
  { mac := vfMac m.vf, ip := vfIp m.vf, port := vctPort, peerIp := m.addr, peerPort := m.port, fragment := false,
    payload := headerBytes m.type_ 0 m.seq m.payload.length m.status m.tag ++ m.payload }

/-- The frames that the part has sent. -/
def State.hostSent (s : State) : List HostFrame := s.out.map Msg.frame

/-- The VF that a frame is for. -/
def HostFrame.vf (f : HostFrame) : Option Nat := (List.range 64).find? fun v => decide (f.mac = vfMac v) && decide (f.ip = vfIp v)

/-- The part takes the frame: it is no fragment and not too long, and goes to the VCT port (02 R41). -/
def HostFrame.taken (f : HostFrame) : Bool := !f.fragment && decide (udpHeaders + f.payload.length ≤ etherMax) && decide (f.port = vctPort)

/-- A message is invalid by its header (02 R46). -/
def badHeader (p : List Byte) : Bool :=
  let t := field p 1 1
  decide (field p 0 1 ≠ 1) || decide (8 ≤ field p 2 1) || decide (field p 3 1 ≠ 0) || decide (field p 8 4 + 24 ≠ p.length)
    || [0, 4, 5, 6, 0xA].contains t || decide (0xE ≤ t)

/-- A launch record of 128 bytes (02 R53). -/
def launchRecOf (l : List Byte) : LaunchRec :=
  { handle := field l 0 8, tag := field l 8 8, entry := field l 16 4, count := field l 20 2, flags := field l 22 1, prio := field l 23 1,
    mask := field l 24 20, port := field l 44 2, reserved := field l 46 2, addr := field l 48 16,
    args := (List.range 8).map fun i => BitVec.ofNat 64 (field l (64 + 8 * i) 8) }

/-- A CONFIG operation (02 R48; 12 R307), none for another code or another length. Partition, VF and arena bytes are fields of 4, 4 and
8 bytes after the code (log 41). -/
def configOf (h : VctHdr) (l : List Byte) : Option Instr :=
  let part := field l 4 4
  match field l 0 4, l.length with
  | 1, 8 => some (.partCreate h part)
  | 2, 8 => some (.partDestroy h part)
  | 3, 28 => some (.partSps h part (field l 8 20))
  | 4, 24 => some (.partMem h part (field l 8 8) (field l 16 8 % 2 ^ 63) (decide (2 ^ 63 ≤ field l 16 8)))
  | 5, 16 => some (.partArena h part (field l 8 8))
  | 6, 12 => some (.vfBind h part (field l 8 4))
  | 7, 8 => some (.vfUnbind h part)
  | _, _ => none

/-- A MIGRATE operation of the host (23 R446, R447), none for another code, another length or a reserved byte that is not 0. -/
def migrateOf (h : VctHdr) (l : List Byte) : Option Instr :=
  let m : MigArgs := { part := field l 4 1, peerPart := field l 5 1, peerPkg := field l 6 2, port := field l 8 1, id := field l 16 8 }
  if l.length ≠ 40 ∨ field l 9 7 ≠ 0 then none else
  match field l 0 4 with
  | 1 => some (.migrateAccept h m)
  | 2 => some (.migrateStart h m)
  | 3 => some (.migrateAbort h m)
  | 4 => some (.migrateRelease h m)
  | _ => none

/-- The step that a message with a valid header is, by its type; none where its payload is not one of that type (02 R43). -/
def payloadOf (h : VctHdr) (t : Nat) (l : List Byte) : Option Instr :=
  match t, l.length with
  | 0x01, 128 => some (.launch h (launchRecOf l))
  | 0x02, n => if 9 ≤ n ∧ n ≤ 8200 then some (.write h (field l 0 8) (l.drop 8)) else none
  | 0x03, 16 => some (.read h (field l 0 8) (field l 8 8))
  | 0x07, _ => configOf h l
  | 0x08, _ => migrateOf h l
  | 0x09, 16 => some (.load h (field l 0 8) (field l 8 8))
  | 0x0B, 8 => some (.unload h (field l 0 8))
  | 0x0C, 8 => some (.cancel h (field l 0 8))
  | 0x0D, 0 => some (.ack h.vf h.seq)
  | _, _ => none

/-- An operation that VF 0 alone may ask for, from another VF: it is refused whatever its payload says (02 R47). -/
def systemOnly (h : VctHdr) (t : Nat) : Bool := decide (h.vf ≠ 0) && (decide (t = 7) || decide (t = 8))

/-- The step that a frame is: none where the part discards it, as it does a frame without a whole header (02 R41, log 41). -/
def HostFrame.message (f : HostFrame) : Option Instr :=
  if !f.taken ∨ f.payload.length < 24 then none else
  f.vf.map fun v =>
    let p := f.payload; let t := field p 1 1
    let h : VctHdr := { vf := v, seq := field p 4 4, queue := field p 2 1, tag := field p 16 8, addr := f.peerIp, port := f.peerPort }
    if badHeader p then .vctInvalidMessage h
    else if systemOnly h t then .partCreate h 0
    else (payloadOf h t (p.drop 24)).getD (.vctInvalidMessage h)

end Sys2Proof.Machine
end

