-- ==== Sys2Proof/Machine/Access.lean ====
section
/-! DEFINITION. Accesses to memory on their way (12 R310, R318 to R323, R328 to R330; 15 R384, R387): range registers, TLBs and
walkers, faults and parking, fabric copy engines, and what a slice does with an access. -/

namespace Sys2Proof.Machine

/-! ## Accesses -/

/-- An access that is about to be sent. -/
def Acc.new (src : Src) (part : Nat) (kind : AKind) (va ia n : Nat) (data : List Byte) (die : Nat) : Acc :=
  { id := 0, src := src, part := part, kind := kind, va := va, ia := ia, pa := 0, n := n, data := data, die := die, ready := 0, state := 0, status := 0,
    result := [], bar := 0, flags := 0, beat := 0, sentAt := 0, eng := none }

/-- The SP and launch of an access, if it comes from an SP. -/
def Src.owner : Src → Option (Nat × Nat)
  | .copy sp l _ _ _ => some (sp, l)
  | .gather sp l _ => some (sp, l)
  | .spire sp l => some (sp, l)
  | .hint sp l => some (sp, l)
  | _ => none

/-- The engine of an access: accesses of one engine to one line keep their order (12 R328). A copy command keeps its address generator until its
last beat has committed (06 R135), so its sequence number names the generator. -/
def Src.engine : Src → Nat × Nat
  | .copy sp _ seq _ _ => (sp, 32 + seq)
  | .gather sp _ cl => (sp, cl)
  | .spire sp _ => (sp, 16)
  | .hint sp _ => (sp, 17)
  | .host id => (256, id)
  | .remote k => (257 + k.srcPkg, k.engine)

/-- The access reads, and it writes. -/
def AKind.reads : AKind → Bool
  | .read => true
  | .atomic _ _ => true
  | _ => false
def AKind.writes : AKind → Bool
  | .read => false
  | _ => true

/-- Permissions that an access needs: the Spire's beats need both (13 R337). -/
def Src.isSpire : Src → Bool
  | .spire _ _ => true
  | _ => false
def Acc.needsRead (a : Acc) : Bool := a.kind.reads || a.src.isSpire
def Acc.needsWrite (a : Acc) : Bool := a.kind.writes || a.src.isSpire

/-- The code of the kind in a fault record (12 R321). -/
def AKind.code : AKind → Nat
  | .read => 0
  | .write => 1
  | .reduce _ _ => 2
  | .atomic _ _ => 3

/-- Access `n`. -/
def State.acc (s : State) (n : Nat) : Option Acc := s.accs.find? fun a => decide (a.id = n)

/-- An access changed. -/
def State.modAcc (s : State) (n : Nat) (f : Acc → Acc) : State := { s with accs := updFirst (fun a => decide (a.id = n)) f s.accs }

/-- An access taken away: nothing of it is left to do. -/
def State.dropAcc (s : State) (n : Nat) : State := { s with accs := dropFirst (fun a => decide (a.id = n)) s.accs }

/-- The die of the agents that translate for the access. -/
def State.mmu (s : State) (d : Nat) : Mmu := KMap.get ⟨[], [], []⟩ s.mmus d
def State.modMmu (s : State) (d : Nat) (f : Mmu → Mmu) : State := { s with mmus := KMap.ins d (f (s.mmu d)) s.mmus }

/-- The access is a hint's: what fails is dropped (06 R133; 12 R306). -/
def Src.isHint : Src → Bool
  | .hint _ _ => true
  | _ => false

/-- The access is refused at its segment check or in the hole: it ends on the cycle on which a request that hits would land (10 R258). -/
def State.accRefuse (s : State) (n status : Nat) : State :=
  if (s.acc n).any (·.src.isHint) then s.dropAcc n else
  s.modAcc n fun a => { a with state := 3, status := status, ready := s.now + 96 }

/-- The access fails later: it ends when the failure is known, and no earlier than 96 cycles after sending (10 R258). -/
def State.accFail (s : State) (n status : Nat) : State :=
  if (s.acc n).any (·.src.isHint) then s.dropAcc n else
  s.modAcc n fun a => { a with state := 3, status := status, ready := max s.now (a.sentAt + 96) }

/-- An access to a line is on its way to its slice. -/
def Acc.goes (a : Acc) (pa : Nat) : Bool := decide (a.state = 2) && decide (a.pa / 64 = pa / 64)

/-- The access leaves for its slice: it arrives 48 cycles later plus the steps between the dies. A read waits at the slice for a time that the spec
leaves open; so do accesses to one line from different engines, whose order it leaves open too (12 R328 to R330). -/
def State.leave (s : State) (n : Nat) : State :=
  match s.acc n with
  | none => s
  | some a =>
    let q := s.fresh
    let meets := fun (b : Acc) => b.goes a.pa && decide (b.src.engine ≠ a.src.engine)
    let crowd := s.accs.any meets
    let s1 : State := if crowd then { q.2 with accs := q.2.accs.map fun b => if meets b then { b with ready := b.ready + Config.freeNat (q.1 + b.id) } else b } else q.2
    s1.modAcc n fun a =>
      { a with state := 2,
               ready := s.now + 48 + 20 * dieSteps a.die (dieOfPa a.pa) + if a.kind = .read ∨ crowd then Config.freeNat (q.1 + n) else 0 }

/-! ## Fabric copy engines (06 R135; 15 R384) -/

/-- Beats that an engine holds. -/
def State.engineLoad (s : State) (e : Nat) : Nat := (s.accs.filter fun a => decide (a.eng = some e) && decide (a.state ≠ 3) && decide (a.state ≠ 5)).length + (s.engine e).beats.length

/-- The lowest-numbered engine of a die that has room: fewer than 256 beats. -/
def State.engineFor (s : State) (die : Nat) : Option Nat := ((List.range 16).map (die * 16 + ·)).find? fun e => decide (s.engineLoad e < 256)

/-- An engine has sent a beat to the line of the package, or of this package's frame address, that is not acknowledged, or performed. -/
def State.engineSent (s : State) (e : Nat) (far : Option (Nat × Nat)) (pa : Nat) : Bool :=
  match far with
  | some (pkg, ia) => (s.engine e).beats.any fun b => decide (b.pkt.dstPkg = pkg) && decide (b.pkt.ia / 64 = ia / 64)
  | none => s.accs.any fun a => decide (a.eng = some e) && (decide (a.state = 2) || decide (a.state = 10)) && decide (a.pa / 64 = pa / 64)

/-- A fabric copy engine takes the access: the one that it has been handed to, or the lowest with room, unless none has, or the engine waits for
a beat to the same line (15 R384). -/
def State.handTo (s : State) (n : Nat) (far : Option (Nat × Nat)) (f : Nat → State → State) : State :=
  match s.acc n with
  | none => s
  | some a =>
    match a.eng.orElse (fun _ => s.engineFor a.die) with
    | none => s.modAcc n fun a => { a with state := 9 }
    | some e =>
      let s1 := s.modAcc n fun a => { a with eng := some e }
      if s.engineSent e far a.pa then s1.modAcc n fun a => { a with state := 9 } else f e s1

/-- The access goes to its slice. The beats of a copy command that reach another die, and those of host transfers, go through a fabric copy engine of
their die (06 R135; 15 R384). -/
def State.toSlice (s : State) (n pa : Nat) : State :=
  match s.acc n with
  | none => s
  | some a =>
    let s1 := s.modAcc n fun a => { a with pa := pa }
    match a.src with
    | .copy _ _ _ _ _ => if dieOfPa pa = a.die then s1.leave n else s1.handTo n none fun _ t => t.leave n
    | .host _ => s1.handTo n none fun _ t => t.leave n
    | _ => s1.leave n

/-! ## Parking (12 R321 to R323) -/

/-- The VF that hears of a fault of the access. -/
def State.faultVf (s : State) (a : Acc) : Option Nat :=
  match a.src.owner with
  | some (_, l) => (s.launchOf l).map (·.vf)
  | none =>
    match a.src with
    | .host id => (s.xfrs.find? fun x => decide (x.id = id)).map (·.vf)
    | _ => ((List.range 64).find? fun v => decide ((s.vf v).part = some a.part))

/-- The payload of a fault record: bytes 8 to 47 of its entry. -/
def FaultRec.payload (r : FaultRec) : List Byte :=
  toBytes 4 r.id ++ toBytes 1 r.cause ++ toBytes 1 r.access ++ toBytes 1 r.die ++ toBytes 1 0 ++ toBytes 8 r.ia ++ toBytes 8 r.va ++ toBytes 8 r.launch
    ++ toBytes 2 r.sp ++ toBytes 2 0 ++ toBytes 4 r.parked.length

/-- The entry of a record in the fault table of its partition, written with a state (12 R308, R321). -/
def State.writeFault (s : State) (p : Part) (r : FaultRec) (state : Nat) : State :=
  match p.tblock with
  | none => s
  | some a => (s.keepOwn (a + 0x1000 + 48 * r.id) 48).memWrite (a + 0x1000 + 48 * r.id) (toBytes 8 state ++ r.payload)

/-- FAULT goes to the VF of the launch or host transfer whose access opened the record, else to the lowest VF of the partition (12 R321; log 18). -/
def State.tellFault (s : State) (part : Nat) (r : FaultRec) : State :=
  match (r.parked.head?.bind s.acc).bind s.faultVf with
  | some v => s.sendOwn v vtFault 0 0 0 0 r.payload
  | none =>
    match (List.range 64).find? fun v => decide ((s.vf v).part = some part) with
    | some v => s.sendOwn v vtFault 0 0 0 0 r.payload
    | none => s

/-- The records of a partition that no FAULT has told of are told of (23 R449). -/
def State.tellFaults (s : State) (part : Nat) : State :=
  match s.part part with
  | none => s
  | some p =>
    (p.faults.filter fun r => !r.told).foldl (fun t r => t.tellFault part r) (s.setPart part { p with faults := p.faults.map fun r => { r with told := true } })

/-- The copy command or host transfer of an access is marked as parked, or as running again; a copy out of the SRF that parks at its last beat keeps
its entry until it is resolved (06 R140; 12 R322). -/
def State.markParked (s : State) (a : Acc) (on : Bool) : State :=
  match a.src with
  | .copy sp l seq _ _ =>
    s.modOwner sp l fun c => c.modEntry seq fun e =>
      if on then (if e.state = .running then { e with state := .parked, freed := e.freed && e.kcopy.isSome } else e)
      else if e.state = .parked then { e with state := .running, freed := e.kcopy.isSome || (e.kind.outOfSrf && decide (e.recs ≤ e.rec_)) } else e
  | .host id => { s with xfrs := updFirst (fun x => decide (x.id = id)) (fun x => { x with parked := on }) s.xfrs }
  | _ => s

/-- The access faults: it joins the open record of its page and cause, or opens the lowest free one, whose entry is written and which
is sent to the VF; while all are open it waits, its cause in its status field (12 R321, R322). A hint is dropped (12 R306). -/
def State.faultAcc (s : State) (n cause : Nat) : State :=
  if (s.acc n).any (·.src.isHint) then s.dropAcc n else
  match s.acc n, (s.acc n).bind fun a => s.part a.part with
  | some a, some p =>
    match p.faults.find? fun r => decide (r.ia / 4096 = a.ia / 4096) && decide (r.cause = cause) with
    | some r =>
      let r1 := { r with parked := r.parked ++ [n] }
      ((s.setPart a.part { p with faults := updFirst (fun x => decide (x.id = r.id)) (fun _ => r1) p.faults }).writeFault p r1 1).modAcc n (fun a => { a with state := 4, status := 0 })
        |>.markParked a true
    | none =>
      match (List.range 1024).find? fun i => !p.faults.any fun r => decide (r.id = i) with
      | none => (s.modAcc n fun a => { a with state := 8, status := cause }).markParked a true
      | some i =>
        let r : FaultRec :=
          { id := i, cause := cause, access := a.kind.code, die := tlbDie a.die, ia := a.ia, va := if a.src.owner.isSome then a.va else 2 ^ 64 - 1,
            launch := (a.src.owner.map (·.2)).getD 0, sp := (a.src.owner.map (·.1)).getD 0xFFFF, parked := [n],
            told := decide (p.migr.role ≠ 1) }
        let s1 := ((s.setPart a.part { p with faults := p.faults ++ [r] }).writeFault p r 1).modAcc n (fun a => { a with state := 4, status := 0 })
        let s2 := s1.markParked a true
        if r.told then s2.tellFault a.part r else s2
  | _, _ => s

/-! ## Beats to peers (15 R384, R385, R387) -/

/-- The packet of an access to a peer (15 R375). -/
def Acc.packet (a : Acc) (own pkg part ia engine seq rank : Nat) : Packet :=
  let launch := (a.src.owner.map (·.2)).getD 0
  { op := match a.kind with | .read => 2 | .write => 1 | .reduce _ _ => 4 | .atomic _ _ => 5,
    srcPkg := own, dstPkg := pkg, srcPart := a.part, dstPart := part, ia := ia, engine := engine, seq := seq,
    sub := match a.kind with | .reduce red _ => red | .atomic op _ => op | _ => 0,
    status := 0, launch := launch, rank := rank, data := a.data, poison := false }

/-- The rank of the context behind an access. -/
def State.accRank (s : State) (a : Acc) : Nat :=
  match a.src.owner with
  | none => 0
  | some (sp, l) => (((s.sp sp).owner l).map (·.rank)).getD 0

/-- Router hops between the SP of an access and its die's gateway. -/
def Acc.routerHops (a : Acc) : Nat := (a.src.owner.map fun o => Machine.routerHops o.1).getD 0

/-- The access goes to its peer: a window whose V is 0 ends it with PERM, and where every route to the peer has failed, with REMOTE_DOWN; otherwise
an engine of the die sends it as a beat, or it waits for one (15 R384, R385, R387). -/
def State.toPeer (s : State) (n : Nat) : State :=
  match s.acc n, (s.acc n).bind fun a => s.part a.part with
  | some a, some p =>
    match p.route a.ia with
    | none => s.accFail n stPerm
    | some (port, pkg, part, ia) =>
      if a.src.isHint then s.dropAcc n else
      match s.portFor p port pkg with
      | none => s.accFail n stRemoteDown
      | some port =>
        s.handTo n (some (pkg, ia)) fun e s =>
          let g := s.engine e
          let k := a.packet s.dev.pkg pkg part ia e g.next (s.accRank a)
          let b : Beat := ⟨k, n, 0, s.now, false, port, s.windowAddr p a.ia port pkg⟩
          let g1 : Engine := { next := (g.next + 1) % 2 ^ 32, beats := g.beats ++ [b] }
          let s1 : State := { s with engines := KMap.ins e g1 s.engines }
          (s1.modAcc n fun a => { a with state := 5 }).sendOver port 8 b.addr (s.now + fabricToArith (12 + a.routerHops)) k
  | _, _ => s

/-! ## Translation (12 R305, R318, R319) -/

/-- The entry of a TLB that holds an IA, taken to the front. -/
def Mmu.lookup (m : Mmu) (part ia : Nat) : Option TlbE := m.tlb.find? fun e => decide (e.part = part) && decide (e.page ≤ ia) && decide (ia < e.page + e.size)

/-- The access goes on with a translation: one that refuses it faults (12 R317). -/
def State.withPage (s : State) (n : Nat) (a : Acc) (base frame : Nat) (r w : Bool) : State :=
  if (a.needsRead && !r) || (a.needsWrite && !w) then s.faultAcc n fcProt else s.toSlice n (frame + (a.ia - base))

/-! ## Walks (12 R319) -/

/-- The walk of a miss is in progress. -/
def Mmu.walking (m : Mmu) (part ia : Nat) : Bool := m.walks.any fun w => decide (w.part = part) && decide (w.ia / 4096 = ia / 4096)

/-- The cycles that the cache adds to each of the reads of a walk, in order, and the lines filled. -/
def State.walkReads (s : State) : List Nat → List Nat × State
  | [] => ([], s)
  | a :: l => let q := s.lineCycles (a / 64) (a / 64); let r := q.2.walkReads l; (q.1 :: r.1, r.2)

/-- A walk for a miss starts; its time is that of its reads, as the tables and the cache stand, and a queueing time that the spec leaves open. -/
def State.startWalk (s : State) (die part ia : Nat) : State :=
  match s.part part with
  | none => s
  | some p =>
    let q := s.fresh
    let head := s.tblockHead p
    let reads := (walkIa s.linMem p head ia).2
    let c := q.2.walkReads reads
    let t := walkCycles die head (reads.zip c.1)
    c.2.modMmu die fun m => { m with walks := m.walks ++ [⟨q.1, part, ia, s.now + t + Config.freeNat q.1, head⟩] }

/-- Misses without a walk take free walkers, in arrival order. -/
def startWalks (die : Nat) : List (Nat × Nat × Nat) → State → State
  | [], s => s
  | q :: l, s =>
    let m := s.mmu die
    if 32 ≤ m.walks.length then s
    else startWalks die l (if m.walking q.2.1 q.2.2 then s else s.startWalk die q.2.1 q.2.2)

/-- The access is translated, on its way from its engine. -/
def State.translate (s : State) (n : Nat) : State :=
  match s.acc n, (s.acc n).bind fun a => s.part a.part with
  | some a, some p =>
    if iaWindow a.ia ≠ 0 then s.toPeer n
    else if iaHole a.ia then s.accRefuse n stPerm
    else if iaLinear a.ia then (if inRanges p.linear a.ia a.n then s.toSlice n a.ia else s.accRefuse n stPerm)
    else
      match (s.mmu (tlbDie a.die)).lookup a.part a.ia with
      | some e =>
        (s.modMmu (tlbDie a.die) fun m => { m with tlb := e :: m.tlb.filter fun x => decide (x ≠ e) }).withPage n a e.page e.frame e.r e.w
      | none =>
        if (s.mmu (tlbDie a.die)).misses.length < 512 then
          let d := tlbDie a.die
          let s1 := (s.modMmu d fun m => { m with misses := m.misses ++ [(n, a.part, a.ia)] }).modAcc n fun a => { a with state := 1 }
          startWalks d (s1.mmu d).misses s1
        else s.modAcc n fun a => { a with state := 0 }
  | _, _ => s.accFail n stPerm

/-! ## Sending (12 R310) -/

/-- A new access, with its number. -/
def State.addAcc (s : State) (a : Acc) : Nat × State :=
  (s.nextAcc, { s with accs := s.accs ++ [{ a with id := s.nextAcc, sentAt := s.now }], nextAcc := s.nextAcc + 1 })

/-- An access that names an IA is sent (host transfers, remote beats). -/
def State.sendIa (s : State) (a : Acc) : State := let q := s.addAcc a; q.2.translate q.1

/-- A gather whose address is not a multiple of its size (10 R258). -/
def Acc.misaligned (a : Acc) : Bool :=
  match a.src with
  | .gather _ _ _ => decide (a.va % a.n ≠ 0)
  | _ => false

/-- The access has passed the range registers of its SP: its segment is checked, and it is translated (12 R310). -/
def State.segmentDone (s : State) (n : Nat) : State :=
  match s.acc n with
  | none => s
  | some a =>
    match a.src.owner.bind fun o => s.launchOf o.2 with
    | none => s.accRefuse n stPerm
    | some l =>
      if a.misaligned then s.accRefuse n stPerm else
      match l.mapVa a.va a.needsRead a.needsWrite with
      | none => s.accRefuse n stPerm
      | some ia => (s.modAcc n fun a => { a with ia := ia }).translate n

/-- The oldest range-register miss of an SP. -/
def State.rangeMiss (s : State) (k : Nat) : Option Acc := s.accs.find? fun a => decide (a.state = 7) && a.src.owner.any fun o => decide (o.1 = k)

/-- An access of an SP at a VA is sent: a range register that hits becomes the most recent; a miss joins the queue of misses, and takes its 8 cycles
at once where no other waits (12 R310). -/
def State.sendVa (s : State) (a : Acc) : State :=
  let q := s.addAcc a
  match a.src.owner with
  | none => q.2.accRefuse q.1 stPerm
  | some (sp, l) =>
    match ((q.2.launchOf l).bind fun l => l.segAt a.va).filter fun e => (q.2.sp sp).ranges.contains e.1 with
    | some (i, _) => (q.2.modSp sp fun p => { p with ranges := i :: p.ranges.filter (· ≠ i) }).segmentDone q.1
    | none => let alone := (s.rangeMiss sp).isNone; q.2.modAcc q.1 fun a => { a with state := 7, ready := if alone then s.now + 8 else 0 }

/-- RANGE_MISS_SERVE: the oldest miss of SP `k` has been searched for in 8 cycles: its segment takes the place of the least recently used
of the 16 range registers, and the next miss takes its own 8 cycles (12 R310). -/
def execRangeMissServe (k : Nat) (s : State) : Host.Outcome State Fault Refusal :=
  .next (match s.rangeMiss k with
    | none => s
    | some a =>
      if s.now < a.ready then s
      else
        let s1 := match a.src.owner.bind fun o => (s.launchOf o.2).bind fun l => l.segAt a.va with
          | some (i, _) => (s.modSp k fun p => { p with ranges := (i :: p.ranges.filter (· ≠ i)).take 16 }).segmentDone a.id
          | none => s.segmentDone a.id
        match s1.rangeMiss k with
        | none => s1
        | some b => s1.modAcc b.id fun b => { b with ready := s.now + 8 })

/-- WALK_START: accesses that wait for room become outstanding misses, and misses that share no walk take free walkers (12 R319). -/
def execWalkStart (die : Nat) (s : State) : Host.Outcome State Fault Refusal :=
  .next (
    let room := 512 - (s.mmu die).misses.length
    let s1 := ((s.accs.filter fun a => decide (a.state = 0) && decide (tlbDie a.die = die)).take room).foldl (fun t a => t.translate a.id) s
    startWalks die (s1.mmu die).misses s1)

/-- WALK_END: the walk installs its translation, or faults, and releases the misses of the page it found (12 R317 to R319). -/
def execWalkEnd (die walk : Nat) (s : State) : Host.Outcome State Fault Refusal :=
  .next (match (s.mmu die).walks.find? fun w => decide (w.id = walk) with
    | none => s
    | some w =>
      if s.now < w.endsAt then s else
      match s.part w.part with
      | none => s.modMmu die fun m => { m with walks := m.walks.filter fun x => decide (x.id ≠ walk) }
      | some p =>
        match (walkIa s.linMem p w.head w.ia).2.find? p.absent with
        | some a => s.askPage w.part (dieOfPa a) (a / 0x10000)
        | none =>
        let r := (walkIa s.linMem p w.head w.ia).1
        let inPage := fun (q : Nat × Nat × Nat) => decide (q.2.1 = w.part) && match r with
          | .page b n _ _ _ => decide (b ≤ q.2.2) && decide (q.2.2 < b + n)
          | .fault _ => decide (q.2.2 / 4096 = w.ia / 4096)
        let go := (s.mmu die).misses.filter inPage
        let s1 := s.modMmu die fun m =>
          { m with
            misses := m.misses.filter fun q => !inPage q, walks := m.walks.filter fun x => decide (x.id ≠ walk),
            tlb := match r with
              | .page b n f rd wr => (⟨w.part, b, n, f, rd, wr⟩ :: m.tlb.filter fun e => !(decide (e.part = w.part) && decide (e.page = b) && decide (e.size = n))).take 4096
              | .fault _ => m.tlb }
        let s2 := go.foldl (fun t q => match t.acc q.1 with
          | none => t
          | some a => match r with
            | .page b _ f rd wr => t.withPage q.1 a b f rd wr
            | .fault c => t.faultAcc q.1 c) s1
        startWalks die (s2.mmu die).misses s2)

/-- TLB_INVALIDATE: every entry of the partition whose page overlaps the range goes, on every die; a length of 0 covers the partition.
Walks that are under way start again, so that none installs what it read before (12 R320). -/
def State.tlbInvalidate (s : State) (part base len : Nat) : State :=
  let hit := fun (b n : Nat) => decide (len = 0) || (decide (b < base + len) && decide (base < b + n))
  { s with mmus := s.mmus.map fun e => (e.1, { e.2 with
      tlb := e.2.tlb.filter fun t => !(decide (t.part = part) && hit t.page t.size),
      walks := e.2.walks.filter fun w => decide (w.part ≠ part) }) }

/-- TLB_INVALIDATE (12 R320). -/
def execTlbInvalidate (part base len : Nat) (s : State) : Host.Outcome State Fault Refusal := .next (s.tlbInvalidate part base len)

/-! ## The end of a copy -/

/-- An entry of a context that is a copy and has issued. -/
def Entry.copyRuns (e : Entry) : Bool := decide (e.cls = clsCopy) && (decide (e.state = .running) || decide (e.state = .parked))

/-- The entry of sequence `n` among a context's issued copies. -/
def Ctx.copyEntry (c : Ctx) (n : Nat) : Option Entry := c.sb.find? fun e => decide (e.seq = n) && e.copyRuns

/-- The copy has sent every beat and every beat has committed: a status other than OK updates the arrival word once more with the bytes
not yet counted, and the entry is freed; a KCOPY's status goes to its kernel command (07 R164, 06 R140, 10 R271). -/
def State.copyFinish (s : State) (k launch seq : Nat) : State :=
  match (s.sp k).owner launch with
  | none => s
  | some c =>
    match c.copyEntry seq with
    | none => s
    | some e =>
      if e.rec_ < e.recs ∨ e.flight ≠ 0 ∨ e.state = .parked then s else
      s.modSp k fun p =>
        let srf := if e.status ≠ 0 then arrive p.srf c e.rs2 (e.size - e.counted) e.status else p.srf
        let c1 := c.dropEntry seq
        let c2 := if e.kcopy.isSome then { c1 with kern := { c1.kern with kcStatus := if c1.kern.kcStatus = 0 then e.status else c1.kern.kcStatus } } else c1
        { p.setOwner launch c2 with srf := srf }

/-! ## Responses (12 R323) -/

/-- The access is parked: on a record, resolved while its context is out, or waiting for a record. -/
def Acc.isParked (a : Acc) : Bool := decide (a.state = 4) || decide (a.state = 6) || decide (a.state = 8)

/-- Two accesses belong to one copy command, or to one host transfer. -/
def Src.same : Src → Src → Bool
  | .copy sp l q _ _, .copy sp' l' q' _ _ => decide (sp = sp') && decide (l = l') && decide (q = q')
  | .host i, .host j => decide (i = j)
  | _, _ => false

/-- Some access of the same command is still parked. -/
def State.stillParked (s : State) (a : Acc) : Bool := s.accs.any fun b => (decide (b.state = 4) || decide (b.state = 8)) && b.src.same a.src

/-- The context behind an access is out: it has been pre-empted and its image saved. -/
def State.ownerOut (s : State) (a : Acc) : Bool :=
  match a.src.owner with
  | none => false
  | some (sp, l) => (s.sp sp).victims.any fun v => decide (v.ctx.launch = l)

/-- An access leaves its record and starts a new translation; that of a context that is out is kept until it resumes (03 R83). -/
def State.unpark (s : State) (n : Nat) : State :=
  match s.acc n with
  | none => s
  | some a =>
    if s.ownerOut a then s.modAcc n fun a => { a with state := 6 } else
    let s1 := (s.modAcc n fun a => { a with state := 0 }).translate n
    if s1.stillParked a then s1 else s1.markParked a false

/-- The record is freed: its entry says so, and the accesses that wait for a record are recorded as far as there is room: one opens it, and those that
match it join it (12 R321). -/
def State.freeFault (s : State) (part : Nat) (r : FaultRec) : State :=
  match s.part part with
  | none => s
  | some p =>
    let s1 := (s.setPart part { p with faults := p.faults.filter fun x => decide (x.id ≠ r.id) }).writeFault p r 0
    (s1.accs.filter fun a => decide (a.state = 8) && decide (a.part = part)).foldl (fun t a => t.faultAcc a.id a.status) s1

/-- Accesses are no longer parked: the records that listed them say how many still are (12 R321). -/
def State.unlist (s : State) (gone : List Nat) : State :=
  s.parts.foldl (fun t e =>
    (e.2.faults.filter fun r => r.parked.any gone.contains).foldl (fun t r =>
      let r1 := { r with parked := r.parked.filter fun i => !gone.contains i }
      (t.modPart e.1 fun p => { p with faults := updFirst (fun x => decide (x.id = r.id)) (fun _ => r1) p.faults }).writeFault e.2 r1 1) t) s

/-- FAULT_RESOLVE (12 R323). -/
def State.faultResolve (s : State) (part id : Nat) : State :=
  match (s.part part).bind fun p => p.faults.find? fun r => decide (r.id = id) with
  | none => s.modPart part fun p => { p with stale := p.stale + 1 }
  | some r => r.parked.foldl State.unpark (s.freeFault part r)

/-- A parked access is cancelled (12 R323): its copy command, or its host transfer, loses every parked beat and is cancelled; a copy completes as its
status becomes CANCELLED, and its arrival word counts the bytes not yet counted (06 R140; 07 R164). A request of an XAQ lands 0. -/
def State.cancelAcc (s : State) (n : Nat) : State :=
  match s.acc n with
  | none => s
  | some a =>
    let mine := fun (b : Acc) => b.isParked && b.src.same a.src
    let gone := (s.accs.filter mine).map (·.id)
    let s1 := ({ s with accs := s.accs.filter fun b => !mine b }).unlist gone
    match a.src with
    | .copy sp l seq _ _ =>
      (s1.modOwner sp l fun c => c.modEntry seq fun e =>
        { e with state := .running, status := if e.status = 0 then stCancelled else e.status, rec_ := e.recs, off := 0, flight := 0 }).copyFinish sp l seq
    | .host id => { s1 with xfrs := updFirst (fun x => decide (x.id = id)) (fun x => { x with cancelled := true, parked := false }) s1.xfrs }
    | _ => s.accFail n stCancelled

/-- FAULT_CANCEL (12 R323). -/
def State.faultCancel (s : State) (part id : Nat) : State :=
  match (s.part part).bind fun p => p.faults.find? fun r => decide (r.id = id) with
  | none => s.modPart part fun p => { p with stale := p.stale + 1 }
  | some r => r.parked.foldl State.cancelAcc (s.freeFault part r)

/-- FAULT_RESOLVE (12 R323). -/
def execFaultResolve (part id : Nat) (s : State) : Host.Outcome State Fault Refusal := .next (s.faultResolve part id)

/-- FAULT_CANCEL (12 R323). -/
def execFaultCancel (part id : Nat) (s : State) : Host.Outcome State Fault Refusal := .next (s.faultCancel part id)

/-- A write of the response word (12 R323). -/
def State.respond (s : State) (part w : Nat) : State :=
  match w / 2 ^ 32 % 4 with
  | 1 => s.faultResolve part (w % 2 ^ 32)
  | 2 => s.faultCancel part (w % 2 ^ 32)
  | _ => s.modPart part fun p => { p with stale := p.stale + 1 }

/-! ## The slice (12 R326 to R328) -/

/-- One element reduced at the memory (12 R327, 07 R168): RED code, format, old value and operand. -/
def reduceElem (red mfmt old x : Nat) : Nat :=
  let w := 8 * fmtBytes mfmt
  let u := fmtIsN mfmt
  let int := fun v : Nat => if u then ((v % 2 ^ w : Nat) : Int) else sint w v
  match red with
  | 0 => (fAdd fmtF32 0 false (fmtF32.decode old) (fmtF32.decode x)).1
  | 1 => (fAdd fmtBF16 0 false (fmtBF16.decode old) (fmtBF16.decode x)).1
  | 2 => (old + x) % 2 ^ 32
  | 3 => (old + x) % 2 ^ 64
  | 4 => (fMinMax fmtF32 false old x).1
  | 5 => (fMinMax fmtF32 true old x).1
  | 6 => if int x < int old then x % 2 ^ w else old
  | 7 => if int old < int x then x % 2 ^ w else old
  | 8 => old &&& x
  | 9 => old ||| x
  | _ => Nat.xor old x

/-- The bytes of a piece of memory after a reduction by `data`, element by element. -/
def reduceBytes (red mfmt : Nat) (old data : List Byte) : List Byte :=
  let eb := fmtBytes mfmt
  ((List.range (data.length / eb)).map fun i => toBytes eb (reduceElem red mfmt (ofBytes ((old.drop (i * eb)).take eb)) (ofBytes ((data.drop (i * eb)).take eb)))).flatten

/-- The new value of a SATOM (07 R170): operation in the low three bits, below scope and order (15 R375), format, old value, elements 0 and 1. -/
def atomicElem (op mfmt old e0 e1 : Nat) : Nat :=
  match op % 8 with
  | 0 => if mfmt = 10 then reduceElem 0 mfmt old e0 else (old + e0) % 2 ^ (8 * fmtBytes mfmt)
  | 1 => e0
  | 2 => if old = e1 then e0 else old
  | 3 => if mfmt = 10 then reduceElem 4 mfmt old e0 else reduceElem 6 mfmt old e0
  | 4 => if mfmt = 10 then reduceElem 5 mfmt old e0 else reduceElem 7 mfmt old e0
  | 5 => old &&& e0
  | _ => old ||| e0

/-- What a slice does with an access at `pa`: the bytes it returns, the bytes it writes, and its status; `poisoned` is the line's. A CAS whose compare
fails writes nothing (14 R358). -/
def sliceResult (k : AKind) (n : Nat) (data old : List Byte) (poisoned : Bool) : List Byte × List Byte × Nat :=
  match k with
  | .read => (old, [], if poisoned then stPoison else 0)
  | .write => ([], data.take n, 0)
  | .reduce red f => if poisoned then ([], [], stPoison) else ([], reduceBytes red f old data, 0)
  | .atomic op f =>
    if poisoned then (old, [], stPoison) else
    let eb := fmtBytes f
    if op % 8 = 2 ∧ old.take eb ≠ (data.drop eb).take eb then (old.take eb, [], 0) else
    (old.take eb, toBytes eb (atomicElem op f (ofBytes (old.take eb)) (ofBytes (data.take eb)) (ofBytes ((data.drop eb).take eb))), 0)

/-- An access that writes covers bytes `o` up to `o + 7` of the translation block of its partition. -/
def State.blockWrite (s : State) (a : Acc) (o : Nat) : Bool :=
  ((s.part a.part).bind (·.tblock)).any fun t => decide (a.pa ≤ t + o) && decide (t + o + 8 ≤ a.pa + a.n)

/-- The IA of an access: of one that waits for its range register, the IA that its segment will give. -/
def State.iaOf (s : State) (a : Acc) : Nat :=
  if a.state ≠ 7 then a.ia else
  (((a.src.owner.bind fun o => s.launchOf o.2).bind fun l => l.segAt a.va).map fun g => g.2.ia + (a.va - g.2.base)).getD 0

/-- An older access of the same engine to the same line has not been applied (12 R328). -/
def State.lineBusy (s : State) (a : Acc) : Bool :=
  s.accs.any fun b => decide (b.id < a.id) && decide (b.src.engine = a.src.engine) && decide (b.state ≠ 3) && decide (s.iaOf b / 64 = a.ia / 64)

/-- The entry of the SSCATTER that an access belongs to. -/
def State.scatterOf (s : State) (a : Acc) : Option Entry :=
  match a.src with
  | .copy sp l seq _ _ => (((s.sp sp).owner l).bind fun c => c.copyEntry seq).filter fun e => match e.instr with
    | .sscatter _ _ _ _ => true
    | _ => false
  | _ => none

/-- What a beat of an SSCATTER leaves of the bytes `l` that it would write over `old`: where an earlier beat of the command has written, the bytes of
one of the two, and which one is left open (07 R168). -/
def Entry.collide (e : Entry) (pa : Nat) (old l : List Byte) (choice : Nat) : List Byte :=
  if choice % 2 = 0 then l else
  (List.range l.length).map fun i => (if e.wrote.any fun q => decide (q.1 ≤ pa + i) && decide (pa + i < q.1 + q.2) then old[i]? else l[i]?).getD 0

/-- The bytes `l` of an access are written through its line; an SSCATTER notes where it has written. -/
def State.sliceWrite (s : State) (a : Acc) (l : List Byte) : State :=
  match s.scatterOf a with
  | none => s.lineWrite a.ia a.pa l
  | some e =>
    let q := s.fresh
    let s1 := q.2.lineWrite a.ia a.pa (e.collide a.pa (s.lineRead a.ia a.pa a.n) l (Config.freeNat q.1))
    match a.src with
    | .copy sp launch seq _ _ => s1.modOwner sp launch fun c => c.modEntry seq fun e => { e with wrote := e.wrote ++ [(a.pa, a.n)] }
    | _ => s1

/-- An access that waits for a fabric copy engine goes on. -/
def State.engineRetry (s : State) (n : Nat) : State :=
  match s.acc n with
  | none => s
  | some a => if iaWindow a.ia ≠ 0 then s.toPeer n else s.toSlice n a.pa

/-- The accesses of a die that wait for a fabric copy engine go on as far as there is room (15 R384). -/
def State.enginesFree (s : State) (die : Nat) : State :=
  (s.accs.filter fun a => decide (a.state = 9) && decide (a.die = die)).foldl (fun t a => t.engineRetry a.id) s

/-- A beat of a peer to a region of the token table that another context holds, or that is at home (15 R391, 23 R445). -/
def State.tokenDenied (s : State) (a : Acc) : Bool :=
  match a.src, s.part a.part with
  | .remote k, some p =>
    match s.tokEntry p (a.ia / 2 ^ 21) with
    | none => false
    | some e => !(e.held && decide (e.launch = k.launch) && decide (e.rank = k.rank))
  | _, _ => false

/-- A beat of a peer waits for a page of the token table, and asks for it (23 R455). -/
def State.tableOf (s : State) (a : Acc) : Option Nat :=
  match a.src with
  | .remote _ => s.tokAbsent a.part (a.ia / 2 ^ 21)
  | _ => none
def State.tableAbsent (s : State) (a : Acc) : Bool := (s.tableOf a).isSome
def State.askTables (s : State) (a : Acc) : State := (s.tableOf a).elim s (s.askTable a.part)

/-- The access is a write of its whole line, which clears poison (12 R326). -/
def Acc.whole (a : Acc) : Bool := decide (a.kind = .write) && decide (a.n = 64) && decide (a.pa % 64 = 0)

/-- The line of an access as its slice finds it: the cycles that finding it takes, and the line in the cache. A write of a whole line needs no
read of HBM4 (12 R325, R326, R329). -/
def State.findLine (s : State) (a : Acc) : Nat × State :=
  if a.whole then (0, { (s.fill (a.ia / 64) (a.pa / 64)) with upsets := s.upsets.filter fun u => decide (u.1 ≠ a.pa / 64), poison := s.poison.filter (· ≠ a.pa / 64) })
  else s.lineCycles (a.ia / 64) (a.pa / 64)

/-- SLICE_APPLY: a slice applies an access that has arrived. A read or a SATOM answers 48 cycles later, and later still by what the cache
adds; a write of the invalidate or of the response word acts; a hint has filled its line (12 R320, R323, R325 to R330). -/
def execSliceApply (n : Nat) (s : State) : Host.Outcome State Fault Refusal :=
  .next (match s.acc n with
    | none => s
    | some a =>
      if a.state ≠ 2 ∨ s.now < a.ready ∨ s.lineBusy a then s
      else if (s.part a.part).any (·.absent a.pa) then
        if a.src.isHint then s.dropAcc n else { (s.modAcc n fun a => { a with state := 10 }) with inbox := s.inbox ++ [.pagePullRequest n] }
      else if s.tableAbsent a then s.askTables a
      else if s.tokenDenied a then s.modAcc n fun a => { a with state := 3, status := stNoToken, ready := s.now }
      else
      let f := s.findLine a
      if a.src.isHint then f.2.dropAcc n else
      let r := sliceResult a.kind a.n a.data (f.2.lineRead a.ia a.pa a.n) (f.2.poison.contains (a.pa / 64))
      let s1 := f.2.sliceWrite a r.2.1
      let writes := !r.2.1.isEmpty
      let inv := writes && s1.blockWrite a 0x208
      let s2 := s1.modAcc n fun a =>
        { a with state := 3, status := r.2.2, result := r.1, ready := if a.kind.reads then s.now + 48 + f.1 else s.now, bar := if inv then s.nextAcc else 0 }
      let s3 := match (s.part a.part).bind (·.tblock) with
        | none => s2
        | some t =>
          let s3 := if inv then s2.tlbInvalidate a.part (s2.memNat (t + 0x200) 8) (s2.memNat (t + 0x208) 8) else s2
          if writes && s1.blockWrite a 0x210 then s3.respond a.part (s3.memNat (t + 0x210) 8) else s3
      if a.eng.isSome then s3.enginesFree a.die else s3)

/-- The access has translated through the TLB and has not performed: it is on its way, waits for an engine, or waits for an absent page. -/
def Acc.translated (a : Acc) : Bool :=
  (decide (a.state = 2) || decide (a.state = 9) || decide (a.state = 10)) && decide (2 ^ 40 ≤ a.ia) && decide (iaWindow a.ia = 0)

/-- The access may be committed: it has been applied or has ended, its answer has come, and every access that translated before the
invalidation that it triggered has performed (12 R320). -/
def State.accDone (s : State) (a : Acc) : Bool :=
  decide (a.state = 3) && decide (a.ready ≤ s.now)
    && (decide (a.bar = 0) || !s.accs.any fun b => decide (b.id < a.bar) && decide (b.part = a.part) && b.translated)

end Sys2Proof.Machine
end

