-- ==== Sys2Proof/Machine/KernelRun.lean ====
section
/-! DEFINITION. Kernel-class commands as they run: their start, alone or at a tower's rendezvous (06 R142, 03 R75), their completion
(06 R140), declared pipelines (R143 to R151) and sweeps (07 R175). -/

namespace Sys2Proof.Machine

/-! ## Completion -/

/-- The command of entry `e` completes in SP `k` with a status: its arrival word receives its full target as one update, each port's
position is written back, and the entry is freed (07 R172; 10 R262; 06 R140). -/
def State.kernelDone (s : State) (k : Nat) (e : Entry) (ports : KMap Desc) (status : Nat) : State :=
  s.modSp k fun p =>
    match p.ctx with
    | none => p
    | some c =>
      let srf := if e.isKrun || e.isKpipe then arrive p.srf c e.rs2 (arriveTarget p.srf c e.rs2) status else p.srf
      let descs := ports.foldl (fun m q => KMap.ins q.1 { KMap.get Desc.init m q.1 with pos := q.2.pos } m) c.descs
      { p with
        srf := srf,
        ctx := some { c.dropEntry e.seq with
          descs := if e.isKrun || e.isKpipe then descs else c.descs, stopped := false, kres := false, kern := Kern.init, pipe := none, sweep := none } }

/-- The same in every SP of a list, with the descriptors as each entry holds them. -/
def State.kernelsDone (s : State) (ks : List Nat) (status : Nat) : State :=
  ks.foldl (fun t m => t.withCtx m fun c =>
    match c.kernelEntry with
    | none => t
    | some e => t.kernelDone m e e.descs (if status = 0 then e.status else status)) s

/-! ## Stages (06 R144 to R146) -/

/-- The polder of descriptor `n` as KPIPE captured it, with its handle and the descriptor. -/
def Ctx.stagePolder (c : Ctx) (e : Entry) (n : Nat) : Option (Nat × Desc × Polder) :=
  let d := KMap.get Desc.init e.descs n
  match d.polder, c.descPolder d with
  | some h, some p => some (h, d, p)
  | _, _ => none

/-- The declared stage that pushes to handle `h`. -/
def Ctx.producer (c : Ctx) (e : Entry) (h : Nat) : Option Nat :=
  c.declared.find? fun n => (c.stage n).outputs.any fun o => (c.stagePolder e o).any fun q => decide (q.1 = h)

/-- An input queue of a stage is closed. -/
def Ctx.inputClosed (c : Ctx) (e : Entry) (n : Nat) : Bool :=
  match c.stagePolder e n with
  | none => true
  | some (h, _, p) =>
    match c.producer e h with
    | some m => (c.stage m).finished
    | none => p.eos

/-- Records that an input holds. -/
def Ctx.inputHolds (c : Ctx) (e : Entry) (n : Nat) : Nat := ((c.stagePolder e n).map fun q => dif32 q.2.2.tail q.2.2.head).getD 0

/-- Every queue output of a stage has room for one strip. -/
def Ctx.outputsRoom (c : Ctx) (e : Entry) (t : Stage) : Bool :=
  t.outputs.all fun n => match c.stagePolder e n with
    | none => true
    | some (_, d, p) => decide (p.kind ≠ 2) || decide (t.strip ≤ roomRecs d p)

/-- A tail activation is owed: the inputs of a stage that is no source are all closed, and some input holds less than a strip. -/
def Ctx.tailOwed (c : Ctx) (e : Entry) (t : Stage) : Bool :=
  !t.inputs.isEmpty && t.inputs.all (c.inputClosed e) && t.inputs.any fun i => decide (c.inputHolds e i < t.strip) && decide (c.inputHolds e i ≠ 0)

/-- The stage is ready: its inputs hold strips, or it has activations left, and its outputs have room; or a tail activation is owed, or it
is suspended. -/
def Ctx.stageReady (c : Ctx) (e : Entry) (n : Nat) : Bool :=
  let t := c.stage n
  t.declared && (t.suspended.isSome || (!t.finished &&
    ((c.outputsRoom e t && (if t.inputs.isEmpty then decide (t.remaining ≠ 0) else t.inputs.all fun i => decide (t.strip ≤ c.inputHolds e i)))
      || c.tailOwed e t)))

/-- The stage has finished. -/
def Ctx.stageDone (c : Ctx) (e : Entry) (n : Nat) : Bool :=
  let t := c.stage n
  decide (c.kern.stage ≠ some n) && t.suspended.isNone &&
    (if t.inputs.isEmpty then decide (t.remaining = 0) else t.inputs.all fun i => c.inputClosed e i && decide (c.inputHolds e i = 0))

/-- A stage that has finished is marked, and the queues that it alone fills are closed. -/
def Ctx.finishStage (c : Ctx) (e : Entry) (n : Nat) : Ctx :=
  let t := c.stage n
  if !t.declared || t.finished || !c.stageDone e n then c else
  t.outputs.foldl (fun c o => match c.stagePolder e o with
    | some (h, _, p) => if p.kind = 2 then c.setEos h else c
    | none => c) { c with stages := KMap.ins n { t with finished := true } c.stages }

/-- Every stage that has finished is marked; one that finishes may let another finish. -/
def Ctx.finishStages (c : Ctx) (e : Entry) : Ctx := iterate (fun _ c => c.declared.foldl (fun c n => c.finishStage e n) c) 8 c

/-- The stages of the pipeline that runs, brought up to date. -/
def Ctx.finishPipe (c : Ctx) : Ctx :=
  match c.pipe, c.kernelEntry with
  | some _, some e => c.finishStages e
  | _, _ => c

/-- Every declared stage has finished. -/
def Ctx.pipeDone (c : Ctx) : Bool := c.declared.all fun n => (c.stage n).finished

/-! ## The start of a command -/

/-- The kernel of a KTAB entry at its first bundle, `n` cycles ahead, with its ports (08 R193). -/
def State.kernelAt (s : State) (c : Ctx) (index n : Nat) (ports : KMap Desc) (stage : Option Nat) : Kern :=
  let o := ((s.codeOfCtx c).bind fun o => o.ktab[index]?).getD ⟨0, 0, false⟩
  let base := c.cbase.toNat
  { Kern.init with
    phase := .starting n, lo := base + o.start, hi := base + o.stop, interlocked := o.interlocked, pc := base + o.start, ports := ports,
    stage := stage, haltPoint := 5 }

/-- What two copies of a command must have in common at the rendezvous: kind, kernel, and the stage table (03 R75, 06 R151). -/
def Ctx.commandKind (c : Ctx) (e : Entry) : Nat × Nat × List (Nat × Dword × Dword) :=
  match sweepOp e.instr with
  | some op => (2 + op, 0, [])
  | none =>
    if e.isKpipe then (1, 0, c.declared.map fun n => (n, (c.stage n).rs1, (c.stage n).rs2)) else (0, bits e.rs1 0 8, [])

/-- The tower of an SP as a new kernel or activation finds it: fused, and with nobody at its line (03 R74, R76). -/
def Sp.fuse (p : Sp) : Sp := { p with fused := decide (1 < p.tower.length), line := [] }

/-- A command begins in SP `k`. -/
def State.beginIn (s : State) (k : Nat) : State :=
  s.withCtx k fun c =>
    match c.kernelToBegin with
    | none => s
    | some e =>
      let s1 := s.modSp k Sp.fuse
      if e.isKrun then
        s1.setCtx k { c with kern := s.kernelAt c (bits e.rs1 0 8) 7 e.descs none, matrix := { Matrix.init with nextCall := c.matrix.nextCall, nextUpd := c.matrix.nextUpd } }
      else if e.isKpipe then
        let c1 : Ctx := { c with pipe := some ⟨e.seq, some (s.now + 1), false, none⟩, stages := c.stages.map fun q => (q.1, { q.2 with age := if q.2.suspended.isSome then 64 else 0, finished := false }) }
        s1.setCtx k (c1.finishStages e)
      else s1.setCtx k ({ c with sweep := some ⟨e.seq, 0, bits e.rs1 16 12, []⟩ }.modEntry e.seq fun e => { e with issued := s.now })

/-- What completes on its issue cycle: a pipeline that has nothing to run, and a sweep of no iteration. -/
def Ctx.doneAtOnce (c : Ctx) : Bool :=
  (c.pipe.isSome && c.pipeDone) || c.sweep.any fun w => decide (w.stop = 0)

/-- TOWER_RENDEZVOUS: every member of the tower of leader `k`, or the SP alone, has issued its copy of a kernel-class command, and it
begins; where the copies differ, kernel event TOWER is raised at every member and no kernel runs (03 R75). A command that KHALT met
while it waited completes HALTED (06 R150). -/
def execTowerRendezvous (k : Nat) (s : State) : Host.Outcome State Fault Refusal :=
  .next (
    let ms := s.tower k
    let es := ms.map fun m => (s.ctx m).bind fun c => c.kernelToBegin.map fun e => (c.commandKind e, e.status)
    if ms.headD k ≠ k ∨ es.any (·.isNone) then s else
    let es := es.filterMap id
    if es.any fun e => decide (e.1 ≠ (es.headD e).1) then
      (ms.foldl (fun t m => t.modCtx m fun c => c.recordEvent 5 0 (s.member m) 0 0) s).kernelsDone ms 2
    else if es.any fun e => decide (e.2 = 8) then s.kernelsDone ms 8
    else
      let s1 := ms.foldl State.beginIn s
      if ms.all fun m => (s1.ctx m).any Ctx.doneAtOnce then s1.kernelsDone ms 0 else s1)

/-! ## The end of a kernel -/

/-- No KCOPY of the command that runs is queued or outstanding (10 R271). -/
def Ctx.copiesOver (c : Ctx) : Bool := c.kern.kcq.isEmpty && !(c.sb.any fun e => e.kcopy.isSome)

/-- The kernel of a context has ended with everything it started (06 R140, 07 R190, 10 R271, 11 R288). -/
def Ctx.kernelOver (c : Ctx) : Bool :=
  decide (c.kern.phase = .ending) && decide (c.kern.gap = 0) && c.kern.land.isEmpty && c.copiesOver
    && c.matrix.outstanding.isEmpty

/-- An activation has ended in SP `k`: the ports' positions stay with the command, and the arbiter decides on the next cycle. -/
def State.activationOver (s : State) (k : Nat) : State :=
  s.modCtx k fun c =>
    match c.kernelEntry with
    | none => c
    | some e =>
      let e1 := { e with descs := c.kern.ports, status := if e.status = 0 then c.kern.kcStatus else e.status }
      let c1 : Ctx := { c with kern := Kern.init, pipe := c.pipe.map fun q => { q with decide_ := some (s.now + 1), seen := none } }
      (c1.modEntry e.seq fun _ => e1).finishStages e1

/-- The pipeline waits for its arbiter, and every stage of it has finished. -/
def Ctx.pipeEnds (c : Ctx) : Bool := c.pipe.any (fun q => !q.halted) && decide (c.kern.phase = .idle) && c.pipeDone

/-- The status with which the kernel of a tower has ended: that of the first member that has one. -/
def State.towerStatus (s : State) (ms : List Nat) : Nat :=
  (ms.findSome? fun m => (s.ctx m).bind fun c => if c.kern.status = 0 then none else some c.kern.status).getD 0

/-- KERNEL_COMMAND_COMPLETE: a kernel is complete when that holds in every member of its tower; a KRUN completes, and the activation of
a pipeline ends, which may be the last (06 R140, R145, R146, R150; 03 R77). The stages of SP `k` that have finished are marked, and a
pipeline whose stages have all finished completes on that cycle (06 R144, R146). -/
def execKernelCommandComplete (k : Nat) (s0 : State) : Host.Outcome State Fault Refusal :=
  .next (
    let s := s0.modCtx k Ctx.finishPipe
    let ms := s.tower k
    if ms.all fun m => (s.ctx m).any Ctx.pipeEnds then s.kernelsDone ms 0 else
    if ms.headD k ≠ k ∨ !(ms.all fun m => (s.ctx m).any Ctx.kernelOver) then s else
    match s.ctx k with
    | none => s
    | some c =>
      let status := s.towerStatus ms
      if c.kern.stage.isNone then
        ms.foldl (fun t m => t.withCtx m fun c => match c.kernelEntry with
          | none => t.setCtx m { c with kern := Kern.init }
          | some e => t.kernelDone m e c.kern.ports (if status ≠ 0 then status else c.kern.kcStatus)) s
      else
        let cancelled := decide (status = 2)
        let s1 := ms.foldl State.activationOver s
        if cancelled then s1.kernelsDone ms 2
        else if c.pipe.any (·.halted) then s1.kernelsDone ms 8
        else if ms.all fun m => (s1.ctx m).any Ctx.pipeDone then s1.kernelsDone ms 0
        else s1)

/-! ## The arbiter -/

/-- Images that the SP keeps in shadow slots (19 R410). -/
def Sp.slotsUsed (p : Sp) : Nat :=
  let susp := fun c : Ctx => (c.stages.filter fun q => q.2.suspended.any fun u => decide (u.place = 1)).length
  (p.victims.map fun v => (if v.place ≤ 1 then 1 else 0) + susp v.ctx).sum + ((p.ctx.map susp).getD 0)

/-- The status of the KCOPYs so far goes to the entry of the command (10 R271). -/
def Ctx.keepStatus (c : Ctx) : Ctx :=
  match c.kernelEntry with
  | none => c
  | some e => (c.modEntry e.seq fun e => { e with status := if e.status = 0 then c.kern.kcStatus else e.status })

/-- The activation of stage `n` is suspended in SP `p`: its kernel, matrix and cluster state are saved, with how its tower stands, and its SRF
locks released (06 R149, 19 R419); the kernel copy queue stays with the SP (10 R271). -/
def Ctx.suspend (c : Ctx) (p : Sp) (n order : Nat) : Ctx :=
  let c := c.keepStatus
  let u : Susp := { kern := { c.kern with haltPoint := 2, yielded := false, kcq := [], kcStatus := 0 }, matrix := c.matrix, g := c.g, i := c.i, v := c.v, aq := c.aq, dq := c.dq,
                    lockHeld := c.lockHeld, place := 1, order := order, fused := p.fused, line := p.line, lineAt := p.lineAt }
  { c with
    stages := KMap.ins n { c.stage n with suspended := some u, age := 64 } c.stages,
    kern := { Kern.init with kcq := c.kern.kcq }, matrix := { Matrix.init with nextCall := c.matrix.nextCall, nextUpd := c.matrix.nextUpd }, lockHeld := [] }

/-- A suspended activation goes on: its state stands again in the SP, and its next bundle issues `cycles` cycles after the decision. -/
def Ctx.resumeStage (c : Ctx) (n : Nat) (u : Susp) (cycles : Nat) : Ctx :=
  { c with
    stages := KMap.upd n (fun t => { t with suspended := none, age := 0 }) c.stages,
    kern := { u.kern with phase := .reloading (cycles + 1), kcq := c.kern.kcq }, matrix := { u.matrix with nextCall := c.matrix.nextCall, nextUpd := c.matrix.nextUpd },
    g := u.g, i := u.i, v := u.v, aq := u.aq, dq := u.dq, lockHeld := u.lockHeld }

/-- The stage that the arbiter chooses among those that are ready: the lowest whose age is 64, else the lowest of the greatest depth. -/
def Ctx.choose (c : Ctx) (ready : List Nat) : Option Nat :=
  match ready.find? fun n => decide (64 ≤ (c.stage n).age) with
  | some n => some n
  | none =>
    let d := (ready.map fun n => (c.stage n).depth).foldl max 0
    ready.find? fun n => decide ((c.stage n).depth = d)

/-- The ages after a decision, with the chosen stage's activation spent if it is a source. -/
def Ctx.ages (c : Ctx) (ready : List Nat) (n : Nat) : Ctx :=
  { c with stages := c.stages.map fun q =>
      (q.1, if q.1 = n then { q.2 with age := 0, remaining := if q.2.inputs.isEmpty && q.2.suspended.isNone then q.2.remaining - 1 else q.2.remaining }
            else if ready.contains q.1 then { q.2 with age := min 64 (q.2.age + 1) } else q.2) }

/-- The chosen stage is activated in SP `k` (06 R142, R145, R149). -/
def State.activate (s : State) (k : Nat) (ready : List Nat) (n : Nat) : State :=
  s.withCtx k fun c =>
    match c.kernelEntry with
    | none => s
    | some e =>
      let t := c.stage n
      let c1 : Ctx := { c.keepStatus.ages ready n with wdog := 0, pipe := c.pipe.map fun q => { q with decide_ := none, seen := none } }
      match t.suspended with
      | some u => (s.modSp k fun p => { p with fused := u.fused, line := u.line, lineAt := u.lineAt }).setCtx k (c1.resumeStage n u (if u.place = 1 then 256 else 1024))
      | none =>
        (s.modSp k Sp.fuse).setCtx k { c1 with
          kern := { s.kernelAt c t.kernel 7 e.descs (some n) with kcq := c.kern.kcq },
          matrix := { Matrix.init with nextCall := c.matrix.nextCall, nextUpd := c.matrix.nextUpd } }

/-- The activation that has just issued YIELD gives way to another stage that is ready and has waited for 64 decisions (06 R149); a
pending pre-emption takes precedence, and after KHALT the activation runs to its END (06 R150). -/
def State.suspends (s : State) (k : Nat) (c : Ctx) : Option Nat :=
  match c.kern.stage with
  | none => none
  | some n =>
    if c.kern.phase = .running ∧ c.kern.yielded ∧ c.kern.last.isNone ∧ c.kern.gap = 0 ∧ c.preempt.isNone ∧ !c.mpreq ∧ !c.pipe.any (·.halted) ∧
        (c.declared.any fun m => decide (m ≠ n) && decide (64 ≤ (c.stage m).age) &&
          (s.tower k).all fun j => (s.ctx j).any fun d => d.kernelEntry.any fun e => d.stageReady e m)
    then some n else none

/-- What the arbiter watches while no stage is ready: the occupancy and the closed state of every input, and the room of every output (06 R146). -/
def Ctx.pipeSees (c : Ctx) (e : Entry) : List Nat :=
  c.declared.flatMap fun n =>
    ((c.stage n).inputs.flatMap fun i => [c.inputHolds e i, if c.inputClosed e i then 1 else 0])
      ++ (c.stage n).outputs.map fun o => ((c.stagePolder e o).map fun q => roomRecs q.2.1 q.2.2).getD 0

/-- ARBITER_DECISION (06 R145, R146, R148, R149, R151): a YIELD suspends the activation, or a decision falls due: the pipeline completes,
a stage is chosen for every member, or the arbiter waits, and decides again once what it sees has changed. -/
def execArbiterDecision (k : Nat) (s : State) : Host.Outcome State Fault Refusal :=
  .next (
    let ms := s.tower k
    match s.ctx k with
    | none => s
    | some c =>
      match c.pipe, c.kernelEntry with
      | some q, some e =>
        if ms.headD k ≠ k ∨ e.seq ≠ q.seq then s else
        match s.suspends k c with
        | some n =>
          let full := ms.any fun m => decide (2 ≤ (s.sp m).slotsUsed)
          ms.foldl (fun t m => (t.modCtx m fun d =>
            let d1 := d.suspend (s.sp m) n s.ctr
            { d1 with pipe := d1.pipe.map fun q => { q with decide_ := some (s.now + if full then 1280 else 256), seen := none } }).modSp m Sp.fuse)
            { s with ctr := s.ctr + 1 }
        | none =>
          match q.decide_ with
          | none => s
          | some t =>
            if s.now < t ∨ c.kern.phase ≠ .idle then s
            else if q.halted then (if ms.all fun m => (s.ctx m).any Ctx.copiesOver then s.kernelsDone ms 8 else s)
            else
              let s1 := ms.foldl (fun t m => t.modCtx m Ctx.finishPipe) s
              if ms.all fun m => (s1.ctx m).any Ctx.pipeDone then s1.kernelsDone ms 0 else
              let seen := ms.flatMap fun m => ((s1.ctx m).bind fun d => d.kernelEntry.map d.pipeSees).getD []
              if q.seen = some seen then s1 else
              let ready := c.declared.filter fun n => ms.all fun m => (s1.ctx m).any fun d => d.kernelEntry.any fun e => d.stageReady e n
              match (s1.ctx k).bind fun d => d.choose ready with
              | none => ms.foldl (fun t m => t.modCtx m fun d => { d with wdog := 0, pipe := d.pipe.map fun q => { q with seen := some seen } }) s1
              | some n => ms.foldl (fun t m => t.activate m ready n) s1
      | _, _ => s)

/-! ## Sweeps (07 R175) -/

/-- Elements of a window in a format. -/
def windowElems (fmt : Nat) : Nat := if fmt = 13 then 2728 else 2048 / fmtBytes fmt

/-- Raw element `j` of the window at byte `o`. -/
def windowRaw (m : KMap Row) (p : Polder) (fmt o j : Nat) : Nat :=
  if fmt = 13 then polNum m p (o + j / 4 * 3) 3 / 2 ^ (6 * (j % 4)) % 64 else polNum m p (o + j * fmtBytes fmt) (fmtBytes fmt)

/-- Element `j` of operand `x` on iteration `i`, decoded to type `t`: the scale of a scaled stream is that of its place counted from
element 0. -/
def sweepElem (m : KMap Row) (c : Ctx) (e : Entry) (t mode x i j : Nat) : Elem :=
  let d := KMap.get Desc.init e.descs x
  match c.descPolder d with
  | none => (0, fOVRN)
  | some p =>
    let place := wrap 48 (if d.fmt = 13 then (i : Int) * sweepStep e.rs2 x * 4 / 3 + j else (i : Int) * sweepStep e.rs2 x / (fmtBytes d.fmt : Nat) + j)
    let v := elemVal m c d place (windowRaw m p d.fmt (sweepOff d p.size e.rs2 x i) j)
    let r := typeEncode t mode false d.srcWidth v.1
    (r.1, convFlags (decide (t < 4)) v.1 v.2 r.2)

/-- The result of a sweep on elements a, b, c of type `t`. -/
def sweepArith (op t mode imm : Nat) (a b c : Nat) : Elem :=
  let w := 8 * typeBytes t
  let ia := sint w a; let ib := sint w b; let f := typeFmt t
  if t < 4 then
    match op with
    | 0 => (wrap w (ia + ib), 0)
    | 1 => (wrap w (ia * ib), 0)
    | 2 => (wrap w (ia * ib + sint w c), 0)
    | 5 => (wrap w (max ia ib), 0)
    | 6 => (wrap w (min ia ib), 0)
    | _ => (a, 0)
  else
    match op with
    | 0 => fAdd f mode false (f.decode a) (f.decode b)
    | 1 => fMul f mode false (f.decode a) (f.decode b)
    | 2 => fFma f mode false (f.decode a) (f.decode b) (f.decode c)
    | 4 => fScale f mode false (f.decode a) (sint 16 imm)
    | 5 => fMinMax f true a b
    | 6 => fMinMax f false a b
    | _ => (a, 0)

/-- The pieces that an iteration writes, (offset, bytes, value), and its flags. -/
def sweepIter (m : KMap Row) (c : Ctx) (e : Entry) (op i : Nat) : List (Nat × Nat × Nat) × Nat :=
  let d := KMap.get Desc.init e.descs 0
  let t := bits e.rs1 32 3; let mode := bits e.rs1 36 2; let imm := bits e.rs1 48 16
  match c.descPolder d with
  | none => ([], fOVRN)
  | some p =>
    let o := sweepOff d p.size e.rs2 0 i
    if op = 8 then ([(o, 2048, packElems 16 (List.replicate 1024 imm))], 0)
    else if op = 7 then
      let a := KMap.get Desc.init e.descs 1
      match c.descPolder a with
      | none => ([], fOVRN)
      | some q => ([(o, 2048, polNum m q (sweepOff a q.size e.rs2 1 i) 2048)], 0)
    else
      let xs := sweepReads op
      let n := ((0 :: xs).map fun x => windowElems (KMap.get Desc.init e.descs x).fmt).foldl min 2728
      let rs := (List.range n).map fun j =>
        let get := fun x => if xs.contains x then sweepElem m c e t mode x i j else (0, 0)
        let a := get 1; let b := get 2; let cc := get 3
        let r := sweepArith op t mode imm a.1 b.1 cc.1
        let w := pushElem d t mode false r.1
        (w.1, flagsOf [a.2, b.2, cc.2, r.2, w.2])
      let raws := rs.map (·.1)
      let gs := chunksOf 4 raws.length raws
      (if d.fmt = 13 then (List.range gs.length).map fun g => (o + g * 3, 3, packElems 6 (gs.getD g []))
       else [(o, n * fmtBytes d.fmt, packElems (8 * fmtBytes d.fmt) raws)], flagsOf (rs.map (·.2)))

/-- Every iteration of the sweep has been written. -/
def Sweep.over (w : Sweep) : Bool := decide (w.stop ≤ w.next) && w.writes.isEmpty

/-- SWEEP_ITERATION: one cycle of a sweep in SP `k`: the windows read four cycles ago are written, the next iteration reads its own,
and the last write of the last member of a tower completes the sweep in all (07 R175; 03 R75). -/
def execSweepIteration (k : Nat) (s : State) : Host.Outcome State Fault Refusal :=
  .next (s.withCtx k fun c =>
    match c.sweep, c.kernelEntry with
    | some w, some e =>
      let op := (sweepOp e.instr).getD 0
      let h := (KMap.get Desc.init e.descs 0).polder.getD 0
      let due := w.writes.filter fun q => decide (q.1 ≤ s.now)
      let srf := due.foldl (fun m q => q.2.1.foldl (fun m x => srfStore m c h x.1 (toBytes x.2.1 x.2.2)) m) (s.sp k).srf
      let c1 := due.foldl (fun c q => c.orKstat q.2.2) c
      let starts := decide (w.next < w.stop) && decide (e.issued + 4 + w.next ≤ s.now)
      let r := if starts then sweepIter srf c e op w.next else ([], 0)
      let w1 : Sweep := { w with
        next := if starts then w.next + 1 else w.next,
        writes := (w.writes.filter fun q => decide (s.now < q.1)) ++ if starts then [(s.now + 4, r.1, r.2)] else [] }
      let s1 := (s.modSp k fun p => { p with srf := srf }).setCtx k { c1 with sweep := some w1 }
      if (s1.tower k).all fun m => (s1.ctx m).any fun c => c.sweep.any Sweep.over then s1.kernelsDone (s1.tower k) 0 else s1
    | _, _ => s)

end Sys2Proof.Machine
end

