-- ==== Sys2Proof/Machine/Copy.lean ====
section
/-! DEFINITION. Copy threads (07 R164, R167 to R170; 10 R271): the beats that an address generator sends, their commitment, the kernel copy
queue; and gathers from memory (10 R256 to R258). -/

namespace Sys2Proof.Machine

/-! ## The context and the entry of a copy -/

/-- The context of SP `k` that has an issued copy of sequence `n`. -/
def Sp.copyOwner (p : Sp) (n : Nat) : Option (Ctx × Entry) :=
  ((p.ctx.toList ++ p.left.toList ++ p.victims.map (·.ctx)).findSome? fun c => (c.copyEntry n).map fun e => (c, e))

/-- A copy of a pre-empted context touches a polder that has been claimed (03 R83). -/
def Sp.claimedFor (p : Sp) (c : Ctx) (e : Entry) : Bool :=
  p.victims.any fun v => decide (v.ctx.launch = c.launch) &&
    ((e.descs.filterMap fun q => q.2.polder) ++ (if bits e.rs2 63 1 = 1 then [] else [bits e.rs2 22 6])).any fun h => (KMap.find h v.claimed).isSome

/-! ## Sending (07 R167) -/

/-- Room for record `i` of a copy into a ring or queue (06 R137, 10 R265). -/
def Entry.ringRoom (e : Entry) (p : Polder) (i : Nat) : Bool :=
  let d := e.desc
  decide (dif32 (e.tail0 + i + 1) (p.head - p.head % max 1 d.tileRecs) ≤ d.capacity p)

/-- Element `j` of the record that a copy out of the SRF reads: its raw bits in memory form and flags; `none` where the queue is closed
and holds fewer records than the copy needs. -/
def outElem (m : KMap Row) (d : Desc) (p : Polder) (start : Option Nat) (j : Nat) : WithFlags Nat :=
  match start with
  | none => let r := copyConv d.fmt d.mfmt 0; (r.1, flagOr r.2 fOVRN)
  | some r => copyConv d.fmt d.mfmt (rawElem m d p (r * d.recn + j))

/-- The memory bytes `o` up to `o + n` of a record with its flags: those of the elements whose last byte lies in the piece. -/
def outBytes (m : KMap Row) (d : Desc) (p : Polder) (start : Option Nat) (o n : Nat) : WithFlags (List Byte) :=
  let mb := fmtBytes d.mfmt
  let j0 := o / mb; let j1 := (o + n + mb - 1) / mb
  let es := (List.range (j1 - j0)).map fun i => outElem m d p start (j0 + i)
  (((es.map fun e => toBytes mb e.1).flatten.drop (o - j0 * mb)).take n,
   flagsOf ((List.range es.length).map fun i => if (j0 + i + 1) * mb ≤ o + n then (es.getD i (0, 0)).2 else 0))

/-- Whether record `i` may be moved now: the record number in the polder to read from, if any (10 R265). -/
inductive RecordAt
  | waits
  | at (start : Option Nat)
deriving DecidableEq, Repr

/-- Where a copy out of the SRF finds its next record. -/
def outRecord (d : Desc) (p : Polder) (i : Nat) : RecordAt :=
  if p.kind = 0 then .at (some i)
  else if availRecs d p ≠ 0 then .at (some p.head)
  else if p.kind = 2 ∧ p.eos then .at none
  else .waits

/-- The entry after a piece of `n` bytes of its current record has been sent: the next piece, or the next record. -/
def Entry.sent (e : Entry) (n : Nat) : Entry :=
  let last := decide (e.memBytes ≤ e.off + n)
  let e1 := { e with off := if last then 0 else e.off + n, rec_ := if last then e.rec_ + 1 else e.rec_ }
  { e1 with freed := e.freed || (e.kind.outOfSrf && decide (e1.recs ≤ e1.rec_)) }

/-- The head of a ring or queue moves past a record that has been read in full. -/
def Ctx.popRecord (c : Ctx) (d : Desc) (last : Bool) : Ctx :=
  match c.descPolder d with
  | none => c
  | some p => if p.kind = 0 ∨ !last ∨ availRecs d p = 0 then c else c.modPolder (d.polder.getD 0) fun p => { p with head := (p.head + 1) % 2 ^ 32 }

/-- What a beat takes in: the context and the entry after it, the address that follows its last byte, and its bytes and flags. -/
structure CopyPiece where
  c : Ctx
  e : Entry
  next : Nat
  n : Nat
  data : List Byte
  flags : Nat
deriving DecidableEq, Repr

/-- The beat with the part of the entry's next record that lies in its line: none where the record has to wait. -/
def CopyPiece.one (m : KMap Row) (q : CopyPiece) : Option CopyPiece :=
  let e := q.e; let d := e.desc; let i := e.rec_; let o := e.off
  let a := e.recAddr m q.c i
  let n := e.pieceLen a (e.dstAddr i) o
  let r : CopyPiece := { q with e := e.sent n, next := a + o + n, n := q.n + n }
  match e.kind with
  | .load => if (q.c.descPolder d).any (fun p => decide (p.kind ≠ 0) && !e.ringRoom p i) then none else some r
  | .mem => some r
  | _ =>
    match q.c.descPolder d with
    | none => none
    | some p =>
      match outRecord d p i with
      | .waits => none
      | .at start =>
        let b := outBytes m d p start o n
        some { r with c := q.c.popRecord d (decide (e.memBytes ≤ o + n)), data := q.data ++ b.1, flags := flagOr q.flags b.2 }

/-- The beat with the records that follow it directly in its line, so that a line is moved whole (14 R347, R354). -/
def CopyPiece.more (m : KMap Row) : Nat → CopyPiece → CopyPiece
  | 0, q => q
  | k + 1, q =>
    if q.e.off = 0 ∧ q.e.rec_ < q.e.recs ∧ q.next % 64 ≠ 0 ∧ q.e.recAddr m q.c q.e.rec_ = q.next ∧ (q.e.kind = .mem → q.e.dstAddr q.e.rec_ % 64 ≠ 0) then
      match q.one m with
      | none => q
      | some r => r.more m k
    else q

/-- The SRF as a copy out of it sees it: a beat of which it has read a part is as it was then (14 R354). -/
def Entry.withCaught (e : Entry) (c : Ctx) (m : KMap Row) : KMap Row :=
  match c.descPolder e.desc with
  | none => m
  | some p => e.caught.foldl (fun m q => polWrite m p q.1 [q.2]) m

/-- The entry with the beat of the SRF in which the next element of a copy out of a linear polder lies, if it has read a part of it. -/
def Entry.catch_ (m : KMap Row) (c : Ctx) (e : Entry) : Entry :=
  match (c.descPolder e.desc).filter fun p => decide (p.kind = 0) with
  | none => e
  | some p =>
    let d := e.desc; let k := d.unit
    let el := e.rec_ * max 1 d.recn + e.off / fmtBytes d.mfmt
    let at_ := d.base + el / k.1 * k.2
    let fresh := decide (at_ % 64 = 0) && decide (el % k.1 = 0) && decide (e.off % fmtBytes d.mfmt = 0)
    { e with caught := if !e.kind.outOfSrf || fresh || decide (e.recs ≤ e.rec_) then [] else
        (List.range (if at_ % 64 + k.2 ≤ 64 then 64 else 128)).foldl (fun t i => KMap.ins (at_ / 64 * 64 + i) ((polRead m p (at_ / 64 * 64 + i) 1).getD 0 0) t) [] }

/-- The access of a beat is sent, with the entry and the context after it. -/
def State.sendBeat (s : State) (k : Nat) (c : Ctx) (e : Entry) (q : CopyPiece) (kind : AKind) (va : Nat) : State :=
  let a := { Acc.new (.copy k c.launch e.seq e.rec_ e.off) (s.partOf c) kind va 0 q.n q.data (dieOfSp k) with flags := q.flags, beat := e.beats }
  (s.modOwner k c.launch fun _ => q.c.modEntry e.seq fun _ => { q.e with flight := e.flight + 1, beats := e.beats + 1 }).sendVa a

/-- A beat of the copy that is 255 or more below the next one has not committed: the next one waits (23 R451). -/
def State.windowFull (s : State) (k : Nat) (c : Ctx) (e : Entry) : Bool :=
  s.accs.any fun a => decide (a.beat + 255 < e.beats) && (match a.src with
    | .copy sp l q _ _ => decide (sp = k) && decide (l = c.launch) && decide (q = e.seq)
    | _ => false)

/-- The partition of a context is frozen by a migration: its copies send nothing more (23 R451). -/
def State.copiesFrozen (s : State) (c : Ctx) : Bool := (s.part (s.partOf c)).any fun p => decide (p.migr.role = 1) && decide (2 ≤ p.migr.phase)

/-- The next beat of a running copy of a context (07 R167 to R170). -/
def State.sendNext (s : State) (k : Nat) (c : Ctx) (e : Entry) : State :=
  let m := e.withCaught c (s.sp k).srf
  let d := e.desc; let i := e.rec_
  let a := e.recAddr m c i
  let va := wrap 48 ((a + e.off : Nat) : Int)
  let start : CopyPiece := ⟨c, e, 0, 0, [], 0⟩
  match e.kind with
  | .satom op =>
    match c.descPolder d with
    | none => s
    | some p =>
      let n := e.pieceLen a 0 0
      s.sendBeat k c e ⟨c, e.sent n, 0, n, polRead m p d.base (2 * fmtBytes d.mfmt), 0⟩ (.atomic (op + 8 * bits e.rs2 32 5) d.mfmt) va
  | kind =>
    match start.one m with
    | none => s
    | some q =>
      if kind = .reduce ∧ a % max 1 (fmtBytes d.mfmt) ≠ 0 then
        -- no element of the record is aligned: none is applied
        s.modOwner k c.launch fun c => (c.popRecord d true).modEntry e.seq fun e =>
          { (e.sent (e.memBytes - e.off)).catch_ m c with status := if e.status = 0 then stPerm else e.status }
      else
        let q := q.more m 64
        s.sendBeat k c e { q with e := q.e.catch_ m c } (match kind with
          | .load => .read
          | .mem => .read
          | .reduce => .reduce d.red d.mfmt
          | _ => .write) va

/-- COPY_BEAT_SEND: the address generator of copy `seq` on SP `k` sends its next beat, if it has one that may go; a copy of a launch that
has ended sends no more, and what it has parked is cancelled (07 R167; 24 R462; 03 R83). -/
def execCopyBeatSend (k seq : Nat) (s : State) : Host.Outcome State Fault Refusal :=
  .next (match (s.sp k).copyOwner seq with
    | none => s
    | some (c, e) =>
      if c.halted then
        match s.accs.find? fun a => a.isParked && a.src.same (.copy k c.launch seq 0 0) with
        | some a => (s.cancelAcc a.id).copyFinish k c.launch seq
        | none => (s.modOwner k c.launch fun c => c.modEntry seq fun e => { e with state := .running, rec_ := max e.rec_ e.recs }).copyFinish k c.launch seq
      else if e.state = .parked ∨ (s.sp k).claimedFor c e ∨ s.windowFull k c e ∨ s.copiesFrozen c then s
      else if e.recs ≤ e.rec_ then s.copyFinish k c.launch seq
      else (s.sendNext k c e).copyFinish k c.launch seq)

/-! ## Commitment -/

/-- The raw value of element `j` of a load, if all its bytes are known. -/
def Entry.elemRaw (e : Entry) (mb j : Nat) : Option Nat :=
  let bs := (List.range mb).map fun i => KMap.find (j * mb + i) e.staged
  if bs.all (·.isSome) then some (ofBytes (bs.filterMap id)) else none

/-- The keys under which an element is marked as read from a poisoned beat, and as one that a failed beat does not bring. -/
def poisonKey (j : Nat) : Nat := 2 ^ 60 + j
def holeKey (j : Nat) : Nat := 2 ^ 61 + j

/-- The bytes `l` of a load from position `o` (the bytes of the records before it counted) are kept; those of a poisoned or of a failed beat are
marked. -/
def Entry.stage (e : Entry) (o n : Nat) (l : List Byte) (status : Nat) : Entry :=
  let mb := fmtBytes e.desc.mfmt
  let js := (List.range ((o + n + mb - 1) / mb - o / mb)).map (o / mb + ·)
  let mark := fun (m : KMap Byte) (k : Nat → Nat) => js.foldl (fun m j => KMap.ins (k j) 1 m) m
  let kept := (List.range l.length).foldl (fun m i => KMap.ins (o + i) (l.getD i 0) m) e.staged
  { e with staged := if status = 0 then kept else if status = stPoison then mark kept poisonKey else mark e.staged holeKey }

/-- Element `j` is settled: its bytes are known, or do not come. -/
def Entry.settled (e : Entry) (j : Nat) : Bool := (KMap.find (holeKey j) e.staged).isSome || (e.elemRaw (fmtBytes e.desc.mfmt) j).isSome

/-- Element `j` as it is written to the SRF, with the flags of its conversion; none where it does not come (07 R167, R169). -/
def Entry.loaded (e : Entry) (j : Nat) : Option (WithFlags Nat) :=
  if (KMap.find (holeKey j) e.staged).isSome then none else
  (e.elemRaw (fmtBytes e.desc.mfmt) j).map fun raw =>
    if (KMap.find (poisonKey j) e.staged).isSome then poisonElem e.desc.fmt else copyConv e.desc.mfmt e.desc.fmt raw

/-- Element `j` is done with: nothing of it is kept. -/
def Entry.unstage (e : Entry) (j : Nat) : Entry :=
  let mb := fmtBytes e.desc.mfmt
  { e with staged := KMap.del (poisonKey j) (KMap.del (holeKey j) ((List.range mb).foldl (fun t b => KMap.del (j * mb + b) t) e.staged)) }

/-- The stream element that element `j` of a load is written to. -/
def Entry.loadElem (e : Entry) (p : Polder) (j : Nat) : Nat :=
  let n := max 1 e.desc.recn
  if p.kind = 0 then j else (e.tail0 + j / n) % 2 ^ 32 * n + j % n

/-- The bytes of a unit with element `x` of it replaced. -/
def Desc.putElem (d : Desc) (l : List Byte) (x raw : Nat) : List Byte :=
  if d.fmt = 13 then
    let old := ofBytes l
    toBytes 3 (old - old / 2 ^ (6 * x) % 64 * 2 ^ (6 * x) + raw % 64 * 2 ^ (6 * x))
  else toBytes (fmtBytes d.fmt) raw

/-- What the commitment of a load's beat leaves: the SRF, the entry, the flags, and the bytes by which the arrival word is updated, a number for each
update. -/
structure LoadDone where
  srf : KMap Row
  entry : Entry
  flags : Nat
  counts : List Nat
deriving DecidableEq, Repr

/-- The elements of a load in unit `u`. -/
def Entry.unitElems (e : Entry) (u : Nat) : List Nat :=
  let k := e.desc.unit.1
  ((List.range k).map (k * u + ·)).filter fun j => decide (e.moved * max 1 e.desc.recn ≤ j) && decide (j < e.recs * max 1 e.desc.recn)

/-- The units of a load that have bytes in beat `b` of a linear polder. -/
def Entry.beatUnits (e : Entry) (b : Nat) : List Nat :=
  let n := e.desc.unit.2
  let u0 := (64 * b - e.desc.base) / n
  ((List.range (64 / n + 2)).map (u0 + ·)).filter fun u =>
    decide (e.desc.base + u * n < 64 * b + 64) && decide (64 * b < e.desc.base + u * n + n) && !(e.unitElems u).isEmpty

/-- The bytes of a unit with what has come for it, and the flags. -/
def Entry.unitBytes (e : Entry) (m : KMap Row) (p : Polder) (u : Nat) : WithFlags (List Byte) :=
  let n := e.desc.unit
  (e.unitElems u).foldl (fun q j => match e.loaded j with
    | none => q
    | some r => (e.desc.putElem q.1 (j % n.1) r.1, flagOr q.2 r.2)) (polRead m p (e.desc.base + u * n.2) n.2, 0)

/-- A beat of the SRF that a load writes to is written once all that the load brings for it is there, so that no read sees a part of it (14 R354, R355);
its bytes count then (07 R164). -/
def LoadDone.beat (p : Polder) (q : LoadDone) (b : Nat) : LoadDone :=
  let e := q.entry; let n := e.desc.unit.2
  let us := e.beatUnits b
  if !us.all fun u => (e.unitElems u).all e.settled then q else
  us.foldl (fun q u =>
    let r := e.unitBytes q.srf p u
    let at_ := e.desc.base + u * n
    let lo := max at_ (64 * b); let hi := min (at_ + n) (64 * b + 64)
    let comes := (e.unitElems u).all fun j => (e.loaded j).isSome
    { srf := polWrite q.srf p lo ((r.1.drop (lo - at_)).take (hi - lo)), flags := flagOr q.flags r.2,
      entry := if 64 * b ≤ at_ ∧ at_ + n ≤ 64 * b + 64 then (e.unitElems u).foldl Entry.unstage q.entry else q.entry,
      counts := match q.counts with
        | [] => []
        | x :: l => (if comes then x + (hi - lo) else x) :: l }) { q with counts := 0 :: q.counts }

/-- The bytes of a beat of a load arrive in a linear polder: every beat of the SRF that they settle is written. -/
def loadLinear (m : KMap Row) (p : Polder) (e : Entry) (o n : Nat) (l : List Byte) (status : Nat) : LoadDone :=
  let mb := fmtBytes e.desc.mfmt; let k := e.desc.unit
  let e1 := e.stage o n l status
  let b0 := (e.desc.base + o / mb / k.1 * k.2) / 64; let b1 := (e.desc.base + ((o + n - 1) / mb / k.1 + 1) * k.2 - 1) / 64
  let r := ((List.range (b1 + 1 - b0)).map (b0 + ·)).foldl (LoadDone.beat p) ⟨m, e1, 0, []⟩
  { r with counts := (r.counts.filter (· ≠ 0)).reverse }

/-- The bytes of a beat of a load arrive in a ring or queue: no record of it is read before its tail has passed it, so that elements are written as
they are complete. -/
def loadRing (m : KMap Row) (p : Polder) (e : Entry) (o n : Nat) (l : List Byte) (status : Nat) : LoadDone :=
  let mb := fmtBytes e.desc.mfmt
  let js := (List.range ((o + n + mb - 1) / mb - o / mb)).map (o / mb + ·)
  js.foldl (fun q j => match q.entry.loaded j with
    | none => q
    | some r =>
      let k := e.desc.unit; let u := e.loadElem p j
      { q with srf := polWrite q.srf p (u / k.1 * k.2) (e.desc.putElem (polRead q.srf p (u / k.1 * k.2) k.2) (u % k.1) r.1), entry := q.entry.unstage j, flags := flagOr q.flags r.2 })
    ⟨m, e.stage o n l status, 0, if status = 0 ∨ status = stPoison then [e.countOf o (o + n)] else []⟩

/-- The bytes of a beat of a load arrive (07 R167, R169). -/
def loadBeat (m : KMap Row) (c : Ctx) (e : Entry) (o n : Nat) (l : List Byte) (status : Nat) : LoadDone :=
  match c.descPolder e.desc with
  | none => ⟨m, e, 0, []⟩
  | some p => if p.kind = 0 then loadLinear m p e o n l status else loadRing m p e o n l status

/-- The records whose bytes have all been committed, in order: the tail of a ring or queue moves past them (06 R137). -/
def advanceTail : Nat → Entry → Nat × Entry
  | 0, e => (0, e)
  | n + 1, e =>
    if e.moved < e.recs ∧ KMap.get 0 e.part e.moved = e.memBytes then
      let r := advanceTail n { e with moved := e.moved + 1, part := KMap.del e.moved e.part }
      (r.1 + 1, r.2)
    else (0, e)

/-- The beat of `n` bytes from position `o` counts towards its records. -/
def Entry.countRecords (e : Entry) (o n : Nat) : Entry :=
  let b := max 1 e.memBytes
  (List.range ((o + n - 1) / b - o / b + 1)).foldl (fun e x =>
    let r := o / b + x
    { e with part := KMap.ins r (KMap.get 0 e.part r + (min ((r + 1) * b) (o + n) - max (r * b) o)) e.part }) e

/-- A beat has committed, or failed: its counted bytes go into the arrival word, and its status becomes the command's if none stands (07 R164, R169). -/
def Entry.committed (e : Entry) (n status : Nat) : Entry :=
  { e with flight := e.flight - 1, counted := e.counted + n, status := if e.status = 0 then status else e.status }

/-- A beat that has failed is not counted. -/
def Entry.failed (e : Entry) (status : Nat) : Entry := e.committed 0 status

/-- The commitment of a beat of entry `e` of context `c` from position `o`, in the SP. -/
def Sp.commitBeat (p : Sp) (c : Ctx) (e : Entry) (a : Acc) (o : Nat) : Sp :=
  let fin (srf : KMap Row) (e1 : Entry) (counts : List Nat) (status flags : Nat) (tail : Nat) : Sp :=
    let c1 := (c.orKstat flags).modEntry e.seq fun _ => e1.committed counts.sum status
    let c2 := if tail = 0 then c1 else c1.modPolder (e.desc.polder.getD 0) fun q => { q with tail := (q.tail + tail) % 2 ^ 32 }
    { p.setOwner c.launch c2 with srf := counts.foldl (fun m n => arrive m c e.rs2 n 0) srf }
  let ring := (c.descPolder e.desc).any fun q => decide (q.kind ≠ 0)
  match e.kind with
  | .load =>
    let r := loadBeat p.srf c e o a.n a.result a.status
    let t := if ring then advanceTail e.recs (r.entry.countRecords o a.n) else (0, r.entry)
    fin r.srf t.2 r.counts a.status r.flags t.1
  | .satom _ =>
    if a.status ≠ 0 then p.setOwner c.launch (c.modEntry e.seq fun e => e.failed a.status)
    else fin (srfStore p.srf c (e.desc.polder.getD 0) e.desc.base a.result) e [a.n] 0 0 0
  | _ =>
    if a.status ≠ 0 then p.setOwner c.launch (c.modEntry e.seq fun e => e.failed a.status) else fin p.srf e [a.n] 0 a.flags 0

/-- COPY_BEAT_COMMIT: an access of a copy has been applied or has ended: its bytes arrive, the arrival word is updated, and the last one
completes the command. The bytes that SCOPY has read are written to their destination, not while the command is parked (07 R164, R167, R169;
12 R322). -/
def execCopyBeatCommit (acc : Nat) (s : State) : Host.Outcome State Fault Refusal :=
  .next (match s.acc acc with
    | none => s
    | some a =>
      match a.src with
      | .copy k launch seq i o =>
        if !s.accDone a then s else
        let s1 := s.dropAcc acc
        match (s1.sp k).owner launch with
        | none => s1
        | some c =>
          match c.copyEntry seq with
          | none => s1
          | some e =>
            if e.kind = .mem ∧ a.kind = .read ∧ a.status = 0 then
              if e.state = .parked then s
              else if c.halted then (s1.modOwner k launch fun c => c.modEntry seq fun e => e.failed stCancelled).copyFinish k launch seq
              else s1.sendVa { Acc.new a.src a.part .write (wrap 48 ((e.dstAddr i + o : Nat) : Int)) 0 a.n a.result a.die with beat := a.beat }
            else (s1.modSp k fun p => p.commitBeat c e a (i * e.memBytes + o)).copyFinish k launch seq
      | _ => s)

/-- The next beat of the oldest hint of SP `k` is sent: a read whose answer nobody takes (12 R306). -/
def State.hintBeat (s : State) (k : Nat) : State :=
  match (s.sp k).hints with
  | [] => s
  | (l, va, n) :: rest =>
    let m := min n (64 - va % 64)
    (s.modSp k fun p => { p with hints := if n ≤ m then rest else (l, va + m, n - m) :: rest }).sendVa
      (Acc.new (.hint k l) (((s.launchOf l).map (·.part)).getD 0) .read va 0 m [] (dieOfSp k))

/-! ## Address generators (06 R135; 10 R271; 19 R418) -/

/-- Address generators of an SP in use: copies of its contexts that have issued; a parked copy of a context that is out holds none. -/
def Sp.agUsed (p : Sp) : Nat :=
  ((p.ctx.toList ++ p.left.toList).map fun c => (c.sb.filter Entry.copyRuns).length).sum
    + (p.victims.map fun v => (v.ctx.sb.filter fun e => decide (e.cls = clsCopy) && decide (e.state = .running)).length).sum

/-- KCOPY_QUEUE_ISSUE: the oldest entry of the kernel copy queue takes a free address generator: a copy of the records from POS to LEN - 1
between the SRF and DST, without an arrival word (10 R271). -/
def execKcopyQueueIssue (k : Nat) (s : State) : Host.Outcome State Fault Refusal :=
  .next (s.withCtx k fun c =>
    match c.kern.kcq with
    | [] => s
    | q :: l =>
      if 2 ≤ (s.sp k).agUsed then s else
      let d := q.desc
      let i : Instr := if q.dir = 1 then .sload 0 0 0 0 else .sstore 0 0 0 0
      let e := { Entry.mk0 c.seq i (BitVec.ofInt 64 (sint 48 d.dst)) (BitVec.ofNat 64 (2 ^ 63)) clsCopy ([], []) [(16, d)]
                   ((d.len - d.pos) * (if q.dir = 1 then d.recBytes else d.memRecBytes)) with
                 state := .running, issued := s.now, rec_ := d.pos, moved := d.pos,
                 tail0 := ((c.descPolder d).map fun p => dif32 p.tail d.pos).getD 0, kcopy := some q.seq, freed := true }
      s.setCtx k { c with sb := c.sb ++ [e], seq := c.seq + 1, kern := { c.kern with kcq := l } })

/-! ## Gathers (10 R256 to R258) -/

/-- The address queues of a context may send: not once its kernel has halted for a pre-emption, nor after its launch has ended. -/
def Ctx.aqOpen (c : Ctx) : Bool :=
  !c.halted && (match c.kern.phase with
    | .halted => false
    | .idle => c.preempt.isNone
    | _ => true)

/-- AQ_SEND: the oldest request of a cluster's address queue, or one that must be sent again, goes to memory or to the SRF, and takes its
place in the data queue (10 R256, R260). -/
def execAqSend (k cl : Nat) (s : State) : Host.Outcome State Fault Refusal :=
  .next (s.withCtx k fun c =>
    if !c.aqOpen then s else
    let send (r : AqReq) : AqReq × State :=
      let q := s.sendVa (Acc.new (.gather k c.launch cl) (s.partOf c) .read r.addr 0 r.bytes [] (dieOfSp k))
      ({ r with state := 0, acc := s.nextAcc }, q)
    match (c.dqOf cl).findIdx? fun r => decide (r.state = 2) with
    | some i =>
      let r := (c.dqOf cl).getD i ⟨false, 0, 0, 0, 0, 0, 0, 0⟩
      let q := send r
      q.2.modCtx k fun c => { c with dq := KMap.ins cl ((c.dqOf cl).set i q.1) c.dq }
    | none =>
      match c.aqOf cl with
      | [] => s
      | r :: l =>
        if 32 ≤ (c.dqOf cl).length then s else
        if r.srf then
          let q := aqSendSrf c (s.sp k).srf s.now r
          s.setCtx k { q.1 with aq := KMap.ins cl l c.aq, dq := KMap.ins cl (c.dqOf cl ++ [q.2]) c.dq }
        else
          let q := send r
          q.2.modCtx k fun c => { c with aq := KMap.ins cl l c.aq, dq := KMap.ins cl (c.dqOf cl ++ [q.1]) c.dq })

/-- The entry of an access in a data queue lands. -/
def landDq (n now : Nat) (v : Dword) (dq : KMap (List AqReq)) : KMap (List AqReq) :=
  dq.map fun q => (q.1, q.2.map fun r => if r.acc = n ∧ r.state = 0 ∧ !r.srf then { r with state := 1, data := v, due := now } else r)

/-- DQ_LAND: the data of a gather lands in its entry, or zeros where it failed, which the SP's gather-error counter counts; a poisoned
element lands with all bits 1 (10 R258). -/
def execDqLand (acc : Nat) (s : State) : Host.Outcome State Fault Refusal :=
  .next (match s.acc acc with
    | none => s
    | some a =>
      match a.src with
      | .gather k launch _ =>
        if !s.accDone a then s else
        let v : Dword := if a.status = 0 then BitVec.ofNat 64 (ofBytes a.result) else if a.status = stPoison then BitVec.allOnes 64 else 0
        let land := landDq acc s.now v
        let s1 := (s.dropAcc acc).modOwner k launch fun c =>
          { c with dq := land c.dq, stages := c.stages.map fun q => (q.1, { q.2 with suspended := q.2.suspended.map fun u => { u with dq := land u.dq } }) }
        if a.status = 0 ∨ a.status = stPoison then s1 else s1.modSp k fun p => { p with gatherErr := p.gatherErr + 1 }
      | _ => s)

end Sys2Proof.Machine
end

