-- ==== Sys2Proof/Machine/Fabric.lean ====
section
/-! DEFINITION. The fabric (15 R372 to R391): ports and links, packets received and forwarded, scale-out frames, the home of remote beats and
of tokens. -/

namespace Sys2Proof.Machine

/-- Statuses of acknowledgements beside those of arrival words (15 R375). -/
abbrev stMoved : Nat := 9
abbrev stHold : Nat := 10

/-- Arithmetic cycles of 2^16 fabric cycles (15 R385). -/
abbrev resendCycles : Nat := fabricToArith 0x10000

/-- A 16-bit counter that saturates (15 R373). -/
def satInc (n : Nat) : Nat := min 0xFFFF (n + 1)

/-! ## PORTCFG and links (15 R373, R377) -/

/-- The port with a link state and a slot delay; the other fields of PORTCFG stay. What waits for a line that has failed is lost: its beats end as
15 R385 states. -/
def Port.withLink (p : Port) (state delay : Nat) : Port :=
  { p with cfg := BitVec.ofNat 64 (bits p.cfg 0 1 + bits p.cfg 8 2 * 2 ^ 8 + state * 2 ^ 16 + delay * 2 ^ 24), fails := 0, replayed := [], asked := none,
           queue := if state = 3 then [] else p.queue, frameQ := if state = 3 then [] else p.frameQ }

/-- A write of PORTCFG: MODE and SPEED are written, and a change of either retrains the link, unless a slot of the port is owned. -/
def Port.writeCfg (p : Port) (owned : Bool) (v : Dword) : Port :=
  let new := bits v 0 1 + bits v 8 2 * 2 ^ 8
  if new = bits p.cfg 0 1 + bits p.cfg 8 2 * 2 ^ 8 then p
  else if owned then p
  else { p with cfg := BitVec.ofNat 64 new, queue := [], frameQ := [], onLine := 0 }.withLink 1 0

/-- A launch owns a slot of the port's table, one that is loaded as free among them (15 R380; log 23). -/
def State.portOwned (s : State) (n : Nat) : Bool := s.launches.any fun l => l.slots.any fun q => decide (q.1 = 256 + n)

/-- PORTCFG_WRITE (15 R373). -/
def execPortcfgWrite (port : Nat) (v : Dword) (s : State) : Host.Outcome State Fault Refusal := .next (s.modPort port fun p => p.writeCfg (s.portOwned port) v)

/-- LINK_TRAINING (15 R377): training ends with the slot delay, 0 in scale-out mode; a cable that needs more than 64 fails the link. -/
def execLinkTraining (port delay : Nat) (s : State) : Host.Outcome State Fault Refusal :=
  .next (
    if 2 ≤ (s.port port).linkState then s else
    s.modPort port fun p => if delay ≤ 64 then p.withLink 2 (if p.mode = 1 then delay else 0) else p.withLink 3 0)

/-- LINK_REPLAY (15 R377): a flit is asked for again; after 16 failed replays of one flit the link fails. -/
def execLinkReplay (port : Nat) (s : State) : Host.Outcome State Fault Refusal :=
  .next (
    let p := s.port port
    if p.mode ≠ 1 ∨ p.linkState ≠ 2 then s else
    s.modPort port fun p => let q := { p with replay := satInc p.replay, fails := p.fails + 1 }; if 16 ≤ q.fails then q.withLink 3 0 else q)

/-! ## Packets (15 R374 to R376, R382, R383) -/

/-- Data flits agree with an op. -/
def opFlits (op n : Nat) : Bool :=
  match op with
  | 1 | 3 | 4 => decide (1 ≤ n) && decide (n ≤ 16)
  | 5 | 10 => decide (n = 1)
  | 2 | 6 | 7 | 8 | 9 => decide (n = 0)
  | _ => false

/-- Engine numbers from here on mark the packets that ship a page (log 18). -/
abbrev pageEngine : Nat := 0x8000

/-- Beat `i` of a packet as a packet of its own: it reaches from its IA to the end of the line. -/
def Packet.beat (k : Packet) (i : Nat) : Packet :=
  let ia := if i = 0 then k.ia else (k.ia / 64 + i) * 64
  { k with ia := ia, seq := (k.seq + i) % 2 ^ 32, data := ((k.data.drop (64 * i)).take 64).take (64 - ia % 64) }

/-- What a packet for this package does: the steps that it causes. -/
def Packet.steps (k : Packet) (port : Nat) : List Instr :=
  match k.op with
  | 1 | 2 | 4 | 5 => if k.op = 1 ∧ pageEngine ≤ k.engine then [.homeBeatApply k] else (List.range (max 1 (pktFlits k))).map fun i => .homeBeatApply (Packet.beat k i)
  | 3 => [.beatAck k]
  | 6 => if k.status = stMoved then [.movedAck k] else [.beatAck k]
  | 7 => [.tokenRequest k]
  | 8 => [.tokenReply k]
  | 9 => [.snapshotPacket port]
  | 10 => [.migrationHello k]
  | _ => []

/-- A packet for this package, from the port at an IPv6 address in scale-out mode, is taken in, unless its op or its number of flits is bad, which HDRERR
counts, or it is poisoned, or has lost data flits, which POISONRX counts (15 R375, R383). -/
def State.takePacket (s : State) (port far flits : Nat) (k : Packet) : State :=
  if !opFlits k.op flits then s.modPort port fun p => { p with hdrerr := satInc p.hdrerr }
  else if k.poison || decide (flits ≠ pktFlits k) then s.modPort port fun p => { p with poisonrx := satInc p.poisonrx }
  else { s with heard := KMap.ins k.srcPkg (port, far) s.heard, inbox := s.inbox ++ Packet.steps k port }

/-- The port through which a packet for another package leaves: the output that the slot table gives the port's line (15 R376, R379). -/
def Port.forwardTo (p : Port) (port : Nat) : Option Nat :=
  ((p.slots.find? fun e => decide (e.2.1 = port % 8) && decide (e.2.2.1 < 8)).map fun e => port / 8 * 8 + e.2.2.1)

/-- A packet that came by the line of port `n` goes on by port `o`, unchanged, two fabric cycles later; one whose header CRC has failed is cut: a tail with
POISON follows its header (15 R382, R383, R392). By a scale-out port it goes as a frame. -/
def State.forward (s : State) (n o : Nat) (hdr tail : List Byte) (k : Packet) (bad : Bool) : State :=
  let at_ := s.now + fabricToArith 2
  if (s.port o).mode = 1 then
    s.modPort o fun p => p.queueFlits (n % 8) at_ (Flit.of 1 hdr :: if bad then [tailFlit [] true] else pktBeats k ++ [Flit.of 3 tail])
  else if bad ∨ k.poison then s else s.sendFrom o (n % 8) at_ k

/-- PACKET_RECEIVE (15 R374 to R376, R382, R383): a packet arrives at a scale-up port, as its header flit, data flits and tail flit. -/
def execPacketReceive (port : Nat) (hdr data tail : List Byte) (s : State) : Host.Outcome State Fault Refusal :=
  .next (
    let p := s.port port
    if p.mode ≠ 1 ∨ p.linkState ≠ 2 then s else
    let s1 := s.modPort port fun p => { p with fails := 0 }
    let bad := decide (crc16 (hdr.take 62) ≠ field hdr 62 2)
    let poison := decide (field tail 4 1 % 2 = 1) || decide (crc32 ((pktBeats (packetOf hdr data false)).flatMap (·.bytes)) ≠ field tail 0 4)
    let k := packetOf hdr data poison
    let s2 := if bad then s1.modPort port fun p => { p with hdrerr := satInc p.hdrerr } else s1
    if k.dstPkg = s.dev.pkg ∨ k.dstPkg = 0xFFFF then (if bad then s2 else s2.takePacket port 0 (field hdr 1 1) k)
    else match p.forwardTo port with
      | none => s2
      | some o => s2.forward port o hdr tail k bad)

/-! ## Scale-out frames (15 R386) -/

/-- Bytes of the payload of a datagram in a frame of at most 9,000 payload bytes, without the IPv6 and UDP headers. -/
abbrev framePayload : Nat := 9000 - 48

/-- A transport header, or what follows it, is bad. -/
def badFrame (bytes : List Byte) : Bool :=
  let kind := field bytes 1 1
  decide (bytes.length < 16) || decide (field bytes 0 1 ≠ 1) || decide (kind = 0) || decide (2 < kind) || decide (field bytes 2 2 ≠ 0)
    || (decide (kind = 1) && decide (bytes.length < 80))

/-- A path after frame `seq` has come: the frames received, and since when one is not acknowledged. -/
def Path.receive (q : Path) (now seq : Nat) : Path :=
  let d := dif32 seq q.rxseq
  if 64 ≤ d ∧ d < 2 ^ 31 then q else
  let q1 := { q with rxcount := q.rxcount + 1, rxAt := if q.rxcount = 0 then now else q.rxAt }
  if 64 ≤ d ∨ q.rxmap / 2 ^ d % 2 = 1 then q1 else
  let map := q.rxmap + 2 ^ d
  let done := ((List.range 65).find? fun i => decide (map / 2 ^ i % 2 = 0)).getD 64
  { q1 with rxseq := (q.rxseq + done) % 2 ^ 32, rxmap := map / 2 ^ done }

/-- The frame has not come on the path before, and lies in the window of its bitmap. -/
def Path.isNew (q : Path) (seq : Nat) : Bool := let d := dif32 seq q.rxseq; decide (d < 64) && decide (q.rxmap / 2 ^ d % 2 = 0)

/-- SCALEOUT_FRAME_RECEIVE: a bad frame is dropped and counted; an acknowledgement is handed on; a packet that has not come before is taken in, or
goes on by a scale-up line (15 R371, R386). A datagram to another UDP port, or one of more than 9,000 bytes, is no frame of this transport and is
dropped (log 54). -/
def execScaleoutFrameReceive (pair : PortPair) (fcsOk : Bool) (d : Datagram) (s : State) : Host.Outcome State Fault Refusal :=
  .next (
    let port := pair.port; let src := pair.far; let bytes := d.bytes
    let p := s.port port
    if p.mode ≠ 0 ∨ d.udp ≠ 46785 ∨ framePayload < bytes.length then s
    else if !fcsOk || badFrame bytes then s.modPort port fun p => { p with fcsdrop := satInc p.fcsdrop }
    else
      let seq := field bytes 4 4
      if field bytes 1 1 = 2 then { s with inbox := s.inbox ++ [.selectiveAckReceive pair seq (BitVec.ofNat 64 (field bytes 8 8))] } else
      let s1 := s.modPort port fun p => p.modPath src fun q => q.receive s.now seq
      if !(p.path src).isNew seq then s1 else
      let hdr := (bytes.drop 16).take 64
      let k := packetOf hdr (bytes.drop 80) false
      if k.dstPkg = s.dev.pkg ∨ k.dstPkg = 0xFFFF then s1.takePacket port src (field hdr 1 1) k
      else match p.forwardTo port with
        | none => s1
        | some o => if (s.port o).mode = 1 then s1.sendFrom o (port % 8) (s.now + fabricToArith 2) k else s1)

/-- Arithmetic cycles of 10 µs and of 200 µs. -/
abbrev ackCycles : Nat := 10500
abbrev frameCycles : Nat := 210000

/-- SELECTIVE_ACK_SEND: after 16 frames, or 10 µs after the first frame that has not been acknowledged. -/
def execSelectiveAckSend (pair : PortPair) (s : State) : Host.Outcome State Fault Refusal :=
  .next (
    let port := pair.port; let far := pair.far
    let q := (s.port port).path far
    if (s.port port).mode = 0 ∧ (16 ≤ q.rxcount ∨ (q.rxcount ≠ 0 ∧ q.rxAt + ackCycles ≤ s.now)) then
      s.modPort port fun p => (p.modPath far fun q => { q with rxcount := 0 }).queueFrame ⟨8, far, transportHead 2 q.rxseq q.rxmap⟩
    else s)

/-- A selective acknowledgement reports a frame as received. -/
def reported (seq : Nat) (bitmap : Dword) (f : Frame) : Bool :=
  let d := dif32 f.seq seq
  decide (2 ^ 31 ≤ d) || (decide (d < 64) && decide (bits bitmap d 1 = 1))

/-- SELECTIVE_ACK_RECEIVE: frames reported as received are forgotten, those reported missing are sent again. -/
def execSelectiveAckReceive (pair : PortPair) (seq : Nat) (bitmap : Dword) (s : State) : Host.Outcome State Fault Refusal :=
  .next (
    let far := pair.far
    let missing := fun (f : Frame) => decide (dif32 f.seq seq < 64) && !reported seq bitmap f
    s.modPort pair.port fun p =>
      let l := ((p.path far).unacked.filter fun f => !reported seq bitmap f).map fun f => if missing f then { f with at_ := s.now } else f
      (l.filter missing).foldl (fun p f => p.queueFrame f.out) (p.modPath far fun q => { q with unacked := l }))

/-- FRAME_RESEND_TIMEOUT: a frame that has not been acknowledged for 200 µs is sent again. -/
def execFrameResendTimeout (pair : PortPair) (seq : Nat) (s : State) : Host.Outcome State Fault Refusal :=
  .next (match ((s.port pair.port).path pair.far).unacked.find? fun f => decide (f.seq = seq) with
    | none => s
    | some f =>
      if s.now < f.at_ + frameCycles then s else
      s.modPort pair.port fun p =>
        (p.modPath pair.far fun q => { q with unacked := updFirst (fun f => decide (f.seq = seq)) (fun f => { f with at_ := s.now }) q.unacked }).queueFrame f.out)

/-! ## The home of a beat (15 R385, R388, R391) -/

/-- The answer to a packet. -/
def answer (own : Nat) (k : Packet) (op status : Nat) (data : List Byte) : Packet :=
  { op := op, srcPkg := own, dstPkg := k.srcPkg, srcPart := k.dstPart, dstPart := k.srcPart, ia := k.ia, engine := k.engine, seq := k.seq, sub := 0, status := status,
    launch := k.launch, rank := k.rank, data := data, poison := false }

/-- A packet is sent to another package on behalf of a partition. -/
def State.sendTo (s : State) (p : Part) (k : Packet) : State := s.sendPacket (s.portTo p k.dstPkg) k

/-- Word `j` of EXPORT entry `i`. -/
def Part.exportWord (p : Part) (i j : Nat) : Dword := KMap.get 0 p.export_ (2 * i + j)

/-- Some export entry lets a beat of `n` bytes in (15 R388). -/
def Part.exports (p : Part) (k : Packet) (n : Nat) : Bool :=
  (List.range 16).any fun i =>
    let a := p.exportWord i 0; let base := bits (p.exportWord i 1) 21 31 * 2 ^ 21; let len := bits a 0 32 * 2 ^ 21
    decide (bits a 63 1 = 1) && decide (bits a 32 16 = k.srcPkg) && decide (bits a 53 5 = k.srcPart) && decide (base ≤ k.ia) && decide (k.ia + n ≤ base + len)
      && (decide (k.op = 1) || decide (k.op = 4) || decide (bits a 61 1 = 1)) && (decide (k.op = 2) || decide (bits a 62 1 = 1))

/-- The record of the beats of an engine. -/
def State.dup (s : State) (k : Packet) : Dup := (s.dups.find? fun d => decide (d.pkg = k.srcPkg) && decide (d.engine = k.engine)).getD ⟨k.srcPkg, k.engine, 0, []⟩

/-- The lowest sequence, from `h` on, that has not been applied. -/
def firstOpen (seen : List (Nat × Packet)) : Nat → Nat → Nat
  | 0, h => h
  | n + 1, h => if seen.any (fun q => decide (q.1 = h)) then firstOpen seen n ((h + 1) % 2 ^ 32) else h

/-- A beat has been applied, with its answer; answers of beats long passed are forgotten. -/
def Dup.note (d : Dup) (seq : Nat) (r : Packet) : Dup :=
  let seen := d.seen ++ [(seq, r)]
  let h := firstOpen seen (seen.length + 1) d.high
  { d with high := h, seen := seen.filter fun q => !(decide (0x10000 < dif32 h q.1) && decide (dif32 h q.1 ≤ 2 ^ 31)) }

/-- The first answer of a beat that has been applied (15 R385). -/
def Dup.first (d : Dup) (own : Nat) (k : Packet) : Option Packet :=
  match d.seen.find? fun q => decide (q.1 = k.seq) with
  | some q => some q.2
  | none => let n := dif32 d.high k.seq; if 0 < n ∧ n ≤ 2 ^ 31 then some (answer own k 6 0 []) else none

/-- The answer to a beat is sent: read data is followed by the acknowledgement of the beat (15 R385). -/
def State.sendAnswer (s : State) (p : Part) (k r : Packet) : State :=
  let s1 := s.sendTo p r
  if r.op = 3 then s1.sendTo p (answer s.dev.pkg k 6 0 []) else s1

/-- A beat is answered for good: the answer is kept, and sent. -/
def State.beatAnswer (s : State) (p : Part) (k r : Packet) : State :=
  let d := (s.dup k).note k.seq r
  ({ s with dups := s.dups.filter (fun (x : Dup) => !(decide (x.pkg = d.pkg) && decide (x.engine = d.engine))) ++ [d] }).sendAnswer p k r

/-- The kind of access that a beat makes. The format of an integer minimum or maximum, and of an atomic, is not in the packet: it is left
open (log 19). -/
def remoteKind (k : Packet) (c : Nat) : AKind :=
  match k.op with
  | 1 => .write
  | 2 => .read
  | 4 =>
    let red := k.sub % 16
    .reduce red (match red with | 0 => 10 | 1 => 9 | 2 => 4 | 3 => 6 | 4 => 10 | 5 => 10 | 6 => 4 + pick c 2 | 7 => 4 + pick c 2 | _ => 0)
  | _ => .atomic k.sub ([4, 5, 6, 7, 10].getD (pick c 5) 4)

/-- Bytes that a beat reaches: those it carries, or up to the end of the line; an atomic reaches one element. -/
def remoteBytes (k : Packet) (kind : AKind) : Nat :=
  match kind with
  | .read => 64 - k.ia % 64
  | .atomic _ f => fmtBytes f
  | _ => k.data.length

/-- The access of a beat at its home, if it is on its way. -/
def State.beatAcc (s : State) (k : Packet) : Option Acc :=
  s.accs.find? fun a => match a.src with
    | .remote j => decide (j.srcPkg = k.srcPkg) && decide (j.engine = k.engine) && decide (j.seq = k.seq)
    | _ => false

/-- The answer of a beat whose access is done. -/
def remoteAnswer (own : Nat) (k : Packet) (a : Acc) : Packet :=
  if a.status = 0 ∧ a.kind.reads then answer own k 3 0 a.result else answer own k 6 a.status []

/-! ## The source of a migration (23 R457 to R459) -/

/-- What a partition does with a remote beat: 0 it is applied, or, at the source of a migration, 1 answered HOLD, 2 forwarded, 3 answered MOVED, which it
still is once the partition has gone, as long as its ranges stand (23 R459). -/
def Part.gate (p : Part) (ia : Nat) : Nat :=
  if p.migr.role = 1 ∧ 2 ≤ p.migr.phase ∧ p.migr.phase ≤ 3 then 1
  else if p.migr.role = 1 ∧ 2 ≤ p.migr.phase ∧ p.migr.phase ≤ 5 then 2
  else if p.moved.isSome ∧ (inRanges p.linear ia 1 ∨ inRanges p.paged ia 1) then 3
  else 0

/-- A beat goes on, unchanged, to the destination (23 R458). -/
def State.forwardBeat (s : State) (part : Nat) (p : Part) (k : Packet) : State :=
  (s.setPart part { p with migr := { p.migr with n1 := p.migr.n1 + 1 } }).sendPacket p.migr.port { k with dstPkg := p.migr.peerPkg, dstPart := p.migr.peerPart }

/-- The answers HOLD and MOVED; in MOVED the IA names the destination. -/
def holdAnswer (own : Nat) (k : Packet) : Packet := answer own k 6 stHold []
def movedAnswer (own : Nat) (k : Packet) (m : Nat × Nat) : Packet := { answer own k 6 stMoved [] with ia := m.1 + m.2 * 2 ^ 16 }

/-- A remote beat as the gateway takes it: `f` applies it. -/
def State.gated (s : State) (p : Part) (k : Packet) (f : State → State) : State :=
  match p.gate k.ia with
  | 0 => f s
  | 1 => (s.setPart k.dstPart { p with migr := { p.migr with n2 := p.migr.n2 + 1 } }).sendTo p (holdAnswer s.dev.pkg k)
  | 2 => s.forwardBeat k.dstPart p k
  | _ => s.sendTo p (movedAnswer s.dev.pkg k (p.moved.getD (0, 0)))

/-- BEAT_FORWARD (23 R458). -/
def execBeatForward (k : Packet) (s : State) : Host.Outcome State Fault Refusal :=
  .next (match s.part k.dstPart with
    | none => s
    | some p => if p.gate k.ia = 2 then s.forwardBeat k.dstPart p k else s)

/-- Bytes are written at a linear IA, but for those in some ranges. -/
def State.memWrites (s : State) (a : Nat) (l : List Byte) (own : List (Nat × Nat)) : State :=
  if own.all fun r => decide (a + l.length ≤ r.1) || decide (r.1 + r.2 ≤ a) then s.memWrite a l
  else s.memChange a l.length fun m => (List.range l.length).foldl (fun m i => if inRanges own (a + i) 1 then m else Memory.set m (a + i) (l.getD i 0)) m

/-- One packet of a page arrives at the destination of a migration: its 16 lines are written, but for what the part itself has written there (log 18), and the last packet of a page makes it present
(23 R455, R456). The lines that are poisoned stand in the sequence field (log 18). -/
def State.pageBeat (s : State) (p : Part) (k : Packet) : State :=
  let page := k.ia / 0x10000
  if !p.absent k.ia then s else
  let got := Nat.lor (KMap.get 0 p.migr.got page) (2 ^ (k.ia % 0x10000 / 1024))
  let lines := (List.range 16).map fun i => k.ia / 64 + i
  let s1 := (s.memWrites k.ia k.data p.migr.own).setPart k.dstPart { p with migr := { p.migr with got := KMap.ins page got p.migr.got } }
  let bad := ((List.range 16).filter fun i => decide (k.seq / 2 ^ i % 2 = 1)).map fun i => k.ia / 64 + i
  let s2 : State := bad.foldl (fun t x => t.logPoison (64 * x) (64 * x)) { s1 with poison := s1.poison.filter (fun x => !lines.contains x) ++ bad }
  if got = 2 ^ 64 - 1 then { s2 with inbox := s2.inbox ++ [.pagePresent k.dstPart page] } else s2

/-- A pull request arrives at the source: the page is shipped in its turn, before the background's (23 R456). -/
def State.pullAsked (s : State) (p : Part) (k : Packet) : State :=
  if p.migr.role ≠ 1 ∨ p.migr.phase < 3 then s else
  let bg := k.engine % 8 / 7; let q := k.ia / 0x10000 * 2 + bg
  if p.migr.pulls.any (fun x => decide (x / 2 = k.ia / 0x10000)) then s else
  let l := if bg = 1 then p.migr.pulls ++ [q] else p.migr.pulls.filter (fun x => decide (x % 2 = 0)) ++ q :: p.migr.pulls.filter (fun x => decide (x % 2 = 1))
  s.setPart k.dstPart { p with migr := { p.migr with pulls := l } }

/-- HOME_BEAT_APPLY (15 R385, R388): a beat is checked, and applied if it has not been; when its access is done, it is answered. -/
def execHomeBeatApply (k : Packet) (s : State) : Host.Outcome State Fault Refusal :=
  .next (match s.part k.dstPart with
    | none => s.sendPacket (s.portTo Part.init k.srcPkg) (answer s.dev.pkg k 6 stPerm [])
    | some p =>
      if k.op = 1 ∧ pageEngine ≤ k.engine then s.pageBeat p k
      else if k.op = 2 ∧ 256 ≤ k.engine then s.pullAsked p k
      else match s.beatAcc k with
      | some a => if s.accDone a then (s.dropAcc a.id).beatAnswer p k (remoteAnswer s.dev.pkg k a) else s
      | none => s.gated p k fun s =>
        match (s.dup k).first s.dev.pkg k with
        | some r => s.sendAnswer p k r
        | none =>
          let q := s.fresh
          let kind := remoteKind k q.1
          let n := remoteBytes k kind
          if !p.exports k n then s.beatAnswer p k (answer s.dev.pkg k 6 stPerm [])
          else q.2.sendIa (Acc.new (.remote k) k.dstPart kind k.ia k.ia n k.data (4 + s.portTo p k.srcPkg / 8)))

/-! ## The home of a token (15 R390) -/

/-- Statuses of a token reply: held, unchecked, refused; HOLD stands for a frozen home (log 13). -/
def TokAnswer.reply : TokAnswer → Option Nat
  | .ok => some 0
  | .unchecked => some 1
  | .refused => some 2
  | .waits => none
  | .absent => none

/-- TOKEN_REQUEST (15 R390): a request, a release or a withdrawal arrives at the home of a region; one that needs an absent page of the token
table waits for it (23 R455). -/
def execTokenRequest (k : Packet) (s : State) : Host.Outcome State Fault Refusal :=
  .next (match s.part k.dstPart with
    | none => s
    | some p =>
      let c : TokCtx := ⟨k.srcPkg, k.srcPart, k.rank, k.launch⟩
      let r := k.ia / 2 ^ 21
      let reply := fun (s : State) (status : Nat) =>
        s.sendTo p { tokReply s.dev.pkg k.dstPart r ⟨k.srcPkg, k.launch, k.rank, k.srcPart, r, k.engine⟩ status with ia := k.ia }
      match p.gate k.ia with
      | 1 => reply (s.setPart k.dstPart { p with migr := { p.migr with n2 := p.migr.n2 + 1 } }) stHold
      | 2 => s.forwardBeat k.dstPart p k
      | 3 => s.sendTo p { movedAnswer s.dev.pkg k (p.moved.getD (0, 0)) with op := 8 }
      | _ =>
        if k.seq ≤ 1 ∧ (p.tokAbsent r).isSome then
          let t := (p.tokAbsent r).elim s (s.askTable k.dstPart)
          { t with later := t.later ++ [.tokenRequest k] }
        else match k.seq with
        | 0 => let q := s.tokAsk k.dstPart r c k.engine; (match TokAnswer.reply q.1 with | none => q.2 | some st => reply q.2 st)
        | 1 => (s.tokGive k.dstPart r c).2
        | _ => s.tokWithdraw k.dstPart r c)

/-- The region of a context's IA that lies at IA `ia` of a peer's partition. -/
def Part.regionAt (p : Part) (pkg part ia : Nat) (l : List Nat) : Option Nat :=
  l.find? fun r => match p.route (r * 2 ^ 21) with
    | none => false
    | some (_, pk, pt, a) => decide (pk = pkg) && decide (pt = part) && decide (a / 2 ^ 21 = ia / 2 ^ 21)

/-- The context of a launch's rank on some SP. -/
def State.ctxOfRank (s : State) (launch rank : Nat) : Option (Nat × Ctx) :=
  s.sps.findSome? fun e => (e.2.owner launch).bind fun c => if c.rank = rank then some (e.1, c) else none

/-- TOKEN_REPLY (15 R390): the context notes what the home answered; one that has withdrawn gives the token up at once. -/
def execTokenReply (k : Packet) (s : State) : Host.Outcome State Fault Refusal :=
  .next (if k.status = stMoved then { s with inbox := s.inbox ++ [.movedAck k] } else
    match s.part k.dstPart, s.ctxOfRank k.launch k.rank with
    | some p, some (_, c) =>
      match p.regionAt k.srcPkg k.srcPart k.ia (c.tokens.map (·.1)) with
      | some r => s.tokHeard k.launch k.rank r (if k.status = 0 then 1 else if k.status = 1 then 2
          else if k.status = stHold then 16 + s.now + resendCycles - fabricToArith 0x1000 else 16 + s.now)
      | none =>
        if k.status = 0 then s.sendTo p (tokPacket ⟨s.dev.pkg, k.dstPart, k.rank, k.launch⟩ k.srcPkg k.srcPart k.ia 1 k.seq) else s
    | _, _ => s)

/-- TOKEN_RETRY (15 R390): a refused request is made again 2^12 fabric cycles later. -/
def execTokenRetry (k : Nat) (s : State) : Host.Outcome State Fault Refusal :=
  .next (s.withCtx k fun c =>
    (c.tokens.filter fun e => decide (16 ≤ e.2) && decide (e.2 - 16 + fabricToArith 0x1000 ≤ s.now)).foldl (fun t e =>
      (t.modCtx k fun c => { c with tokens := KMap.del e.1 c.tokens }).tokWant k (e.1 * 2 ^ 21)) s)

end Sys2Proof.Machine
end

