-- ==== Sys2Proof/Machine/Attest.lean ====
section
/-! DEFINITION. The two standards that signatures rest on (01 R38; 25 R471 to R473): SHA-384 (FIPS 180-4), and ECDSA on the Brainpool 384-bit
curve (RFC 5639, brainpoolP384r1). Their constants are the standards', which the spec names. -/

namespace Sys2Proof.Machine

/-! ## SHA-384 -/

/-- `n` has no divisor from 2 up to itself. -/
def isPrime (n : Nat) : Bool := decide (2 ≤ n) && (List.range n).all fun d => decide (d < 2) || decide (n % d ≠ 0)

/-- The greatest `r` with `r ^ k ≤ x` that `r0` and the `n` bits below it can make. -/
def rootBits (k x : Nat) : Nat → Nat → Nat
  | 0, r => r
  | n + 1, r => rootBits k x n (if (r + 2 ^ n) ^ k ≤ x then r + 2 ^ n else r)

/-- The first 64 bits of the fraction of the `k`-th root of a prime below 512, from which FIPS 180-4 takes its constants. -/
def rootFraction (k p : Nat) : Nat := rootBits k (p * 2 ^ (64 * k)) 70 0 % 2 ^ 64

/-- The round constants: cube roots of the first 80 primes. -/
def shaK : List Nat := ((List.range 410).filter isPrime).map (rootFraction 3)

/-- The initial hash value: square roots of the ninth to sixteenth primes. -/
def shaIv : List Nat := ((List.range 54).filter isPrime).drop 8 |>.map (rootFraction 2)

/-- A 64-bit word rotated right. -/
def ror64 (x n : Nat) : Nat := x / 2 ^ n + x % 2 ^ n * 2 ^ (64 - n)

/-- The four sigma functions. -/
def shaBig0 (x : Nat) : Nat := Nat.xor (Nat.xor (ror64 x 28) (ror64 x 34)) (ror64 x 39)
def shaBig1 (x : Nat) : Nat := Nat.xor (Nat.xor (ror64 x 14) (ror64 x 18)) (ror64 x 41)
def shaSmall0 (x : Nat) : Nat := Nat.xor (Nat.xor (ror64 x 1) (ror64 x 8)) (x / 2 ^ 7)
def shaSmall1 (x : Nat) : Nat := Nat.xor (Nat.xor (ror64 x 19) (ror64 x 61)) (x / 2 ^ 6)

/-- The message schedule, newest word first, after `n` more words. -/
def shaSchedule : Nat → List Nat → List Nat
  | 0, w => w
  | n + 1, w => shaSchedule n ((shaSmall1 (w.getD 1 0) + w.getD 6 0 + shaSmall0 (w.getD 14 0) + w.getD 15 0) % 2 ^ 64 :: w)

/-- One round on the eight working variables. -/
def shaRound (v : List Nat) (kw : Nat × Nat) : List Nat :=
  match v with
  | [a, b, c, d, e, f, g, h] =>
    let t1 := h + shaBig1 e + Nat.xor (Nat.land e f) (Nat.land (2 ^ 64 - 1 - e) g) + kw.1 + kw.2
    let t2 := shaBig0 a + Nat.xor (Nat.xor (Nat.land a b) (Nat.land a c)) (Nat.land b c)
    [(t1 + t2) % 2 ^ 64, a, b, c, (d + t1) % 2 ^ 64, e, f, g]
  | v => v

/-- `n` big-endian bytes as a number. -/
def ofBytesBe (l : List Byte) : Nat := l.foldl (fun a b => a * 256 + b.toNat) 0

/-- One block of 128 bytes. -/
def shaBlock (h : List Nat) (b : List Byte) : List Nat :=
  let w := (List.range 16).map fun i => ofBytesBe ((b.drop (8 * i)).take 8)
  let r := (shaK.zip (shaSchedule 64 w.reverse).reverse).foldl shaRound h
  (h.zip r).map fun p => (p.1 + p.2) % 2 ^ 64

/-- The blocks of a padded message. -/
def shaBlocks : Nat → List Nat → List Byte → List Nat
  | 0, h, _ => h
  | n + 1, h, l => shaBlocks n (shaBlock h (l.take 128)) (l.drop 128)

/-- `n` big-endian bytes of a number. -/
def toBytesBe (n v : Nat) : List Byte := (toBytes n v).reverse

/-- SHA-384. -/
def sha384 (m : List Byte) : List Byte :=
  let z := (239 - m.length % 128) % 128
  let p := m ++ 0x80 :: List.replicate z 0 ++ toBytesBe 16 (8 * m.length)
  ((shaBlocks (p.length / 128) shaIv p).take 6).flatMap (toBytesBe 8)

/-! ## ECDSA on brainpoolP384r1 -/

/-- The curve: the prime, the coefficients, the base point and its order. -/
def ecP : Nat := 0x8CB91E82A3386D280F5D6F7E50E641DF152F7109ED5456B412B1DA197FB71123ACD3A729901D1A71874700133107EC53
def ecA : Nat := 0x7BC382C63D8C150C3C72080ACE05AFA0C2BEA28E4FB22787139165EFBA91F90F8AA5814A503AD4EB04A8C7DD22CE2826
def ecB : Nat := 0x04A8C7DD22CE28268B39B55416F0447C2FB77DE107DCD2A62E880EA53EEB62D57CB4390295DBC9943AB78696FA504C11
def ecGx : Nat := 0x1D1C64F068CF45FFA2A63A81B7C13F6B8847A3E77EF14FE3DB7FCAFE0CBD10E8E826E03436D646AAEF87B2E247D4AF1E
def ecGy : Nat := 0x8ABE1D7520F9C2A45CB1EB8E95CFD55262B70B29FEEC5864E19C054FF99129280E4646217791811142820341263C5315
def ecQ : Nat := 0x8CB91E82A3386D280F5D6F7E50E641DF152F7109ED5456B31F166E6CAC0425A7CF3AB6AF6B7FC3103B883202E9046565

/-- `b` to the power `e` modulo `m`, over the `n` low bits of `e`. -/
def powMod (m : Nat) : Nat → Nat → Nat → Nat
  | 0, _, _ => 1 % m
  | n + 1, b, e => (if e % 2 = 1 then b else 1) * powMod m n (b * b % m) (e / 2) % m

/-- The inverse modulo a prime. -/
def invMod (m a : Nat) : Nat := powMod m 384 (a % m) (m - 2)

/-- A point, none at infinity. -/
abbrev EcPoint := Option (Nat × Nat)

/-- The sum of two points. -/
def ecAdd (p q : EcPoint) : EcPoint :=
  match p, q with
  | none, q => q
  | p, none => p
  | some (x1, y1), some (x2, y2) =>
    if x1 = x2 ∧ (y1 + y2) % ecP = 0 then none else
    let l := if x1 = x2 then (3 * x1 * x1 + ecA) * invMod ecP (2 * y1) % ecP else (y2 + ecP - y1) * invMod ecP (x2 + ecP - x1) % ecP
    let x := (l * l + 2 * ecP - x1 - x2) % ecP
    some (x, (l * (x1 + ecP - x) + ecP - y1) % ecP)

/-- `k` times a point, over the `n` low bits of `k`. -/
def ecMul : Nat → Nat → EcPoint → EcPoint
  | 0, _, _ => none
  | n + 1, k, p => ecAdd (if k % 2 = 1 then p else none) (ecMul n (k / 2) (ecAdd p p))

/-- An uncompressed public key of 97 bytes: a point of the curve. Its coordinates are little-endian, as every encoding of the part is
(00 R7, 01 R38). -/
def ecKey (k : List Byte) : EcPoint :=
  let x := ofBytes ((k.drop 1).take 48); let y := ofBytes ((k.drop 49).take 48)
  if k.length = 97 ∧ k.head? = some 4 ∧ x < ecP ∧ y < ecP ∧ (y * y) % ecP = (x * x * x + ecA * x + ecB) % ecP then some (x, y) else none

/-- A signature r ‖ s verifies over a digest with a key. r and s are little-endian (00 R7); a digest is a string of bytes, which ECDSA reads
as a number from its first byte down (log 53). -/
def ecdsaOk (key digest sig : List Byte) : Bool :=
  let r := ofBytes (sig.take 48); let s := ofBytes ((sig.drop 48).take 48)
  match ecKey key with
  | none => false
  | some q =>
    if r = 0 ∨ ecQ ≤ r ∨ s = 0 ∨ ecQ ≤ s then false else
    let w := invMod ecQ s
    match ecAdd (ecMul 384 (ofBytesBe digest * w % ecQ) (some (ecGx, ecGy))) (ecMul 384 (r * w % ecQ) (some q)) with
    | none => false
    | some p => decide (p.1 % ecQ = r)

end Sys2Proof.Machine
end

