-- ==== Sys2Proof/Machine/Biari.lean ====
section
/-! DEFINITION. The Biari portable form (21 R425 to R436) and its translation into native bundles (22 R439 to R441). A translated block
runs its operations one bundle after the other; an operation that may receive null, or is predicated, is jumped over. The conditions of a
block are shifted into q15, newest lowest; condition globals stand in c1 to c7 and then in the q budget; c0, b0 and the first q of the
budget are temporaries. -/

namespace Sys2Proof.Machine

/-- Loader codes of 21 R428. -/
abbrev ldBadBiari : Nat := 19
abbrev ldBiariBudget : Nat := 20

/-! ## Operations (21 R429, R430) -/

/-- A Biari operation; `at_` is its offset in the object. -/
structure BOp where
  op : Nat
  ty : Nat
  pmode : Nat
  t1 : Nat
  t2 : Nat
  x : Nat
  at_ : Nat
deriving DecidableEq, Repr

/-- The operation of a word. -/
def bopOf (w a : Nat) : BOp :=
  { op := w / 2 ^ 56 % 256, ty := w / 2 ^ 53 % 8, pmode := w / 2 ^ 51 % 4, t1 := w / 2 ^ 41 % 1024, t2 := w / 2 ^ 31 % 1024, x := w % 2 ^ 31, at_ := a }

/-- Its valid targets: consumer and slot. -/
def BOp.targets (o : BOp) : List (Nat × Nat) := ([o.t1, o.t2].filter fun t => decide (512 ≤ t)).map fun t => (t % 512 / 4, t % 4)

/-- A shared V-slot operation; a W-slot one. -/
def BOp.isV (o : BOp) : Bool := decide (1 ≤ o.op) && decide (o.op ≤ 0x5A)
def BOp.isW (o : BOp) : Bool := decide (0x61 ≤ o.op) && decide (o.op ≤ 0x68)

/-- VMAC and VMACW read their accumulator in slot c. -/
def BOp.isMac (o : BOp) : Bool := decide (o.op = 0x0A) || decide (o.op = 0x0B)

/-- The V slot of a shared operation, with its operands. -/
def BOp.vslot (o : BOp) (vd a b c : Nat) : VSlot :=
  let r := vReads o.op
  { pred := 0, len := 0, vd := vd, a := if r.1 then a else 0, b := if r.2.1 then b else 0,
    c := if r.2.2 then c else o.x / 2 ^ 15 % 256, md := o.x % 2 ^ 12, ms := o.x / 2 ^ 12 % 2, ty := o.ty, rnd := o.x / 2 ^ 13 % 4 }

/-- The slots that an operation reads: a, b, c. -/
def BOp.reads (o : BOp) : List Nat :=
  if o.isV then
    let r := vReads o.op
    (if r.1 then [0] else []) ++ (if r.2.1 then [1] else []) ++ (if r.2.2 || o.isMac then [2] else [])
  else if o.isW ∨ o.op = 0x81 ∨ o.op = 0x83 ∨ o.op = 0x85 ∨ o.op = 0x88 ∨ o.op = 0x89 then [0]
  else if o.op = 0x8B then [0, 1]
  else []

/-- The row address of LDS and STS. -/
def BOp.imm (o : BOp) : Nat := o.x / 16

/-- The operation by itself breaks R430. -/
def BOp.bad (p11 : Bool) (o : BOp) : Bool :=
  decide (o.pmode = 3) ||
  (if o.isV then
    !vAssigned o.op || decide (o.op = 0x1A) || decide (o.op = 0x41) || decide (o.op = 0x54) || decide (2 ^ 23 ≤ o.x) || decide (o.ty = 7)
      || ((vReads o.op).2.2 && decide (o.x / 2 ^ 15 % 256 ≠ 0)) || !vLegal o.op (o.vslot 0 0 0 0)
      || decide ((vSpan o.op (o.vslot 0 0 0 0)).a ≠ 1)
  else if o.isW then
    decide (o.op = 0x61) || decide (o.op = 0x67) || decide (o.ty = 7) || decide (256 ≤ o.x) || (decide (0x65 ≤ o.op) && decide (8 ≤ o.x))
  else match o.op with
    | 0x80 => decide (64 ≤ o.x)
    | 0x81 => decide (o.ty ≠ 7) || decide (64 ≤ o.x)
    | 0x82 => decide (o.ty = 7) || decide (16 ≤ o.x)
    | 0x83 => decide (o.ty ≠ 7) || decide (16 ≤ o.x)
    | 0x84 => decide (o.ty = 7) || decide (o.imm % 128 ≠ 0) || (!p11 && decide (1920 < o.imm))
    | 0x85 => decide (o.ty ≠ 7) || decide (o.imm % 128 ≠ 0) || (!p11 && decide (1920 < o.imm))
    | 0x86 => decide (o.ty = 7) || decide (256 ≤ o.x) || decide (o.x < 192)
    | 0x87 => decide (o.ty = 7) || decide (4096 ≤ o.x)
    | 0x88 => decide (o.ty = 7) || decide (o.x ≠ 0)
    | 0x89 => decide (o.ty = 7) || decide (o.x ≠ 0)
    | 0x8A => decide (o.ty ≠ 7) || decide (4096 ≤ o.x)
    | 0x8B => decide (o.ty ≠ 6) || decide (o.x / 2 ^ 15 ≠ 0) || decide (o.x % 2 ^ 13 ≠ 0)
    | _ => true)

/-! ## Blocks (21 R431, R432) -/

/-- The header of a BIARI section (21 R426). -/
structure BHead where
  kernel : Nat
  blocks : Nat
  v0 : Nat
  vn : Nat
  q0 : Nat
  qn : Nat
  spill : Nat
  slots : Nat
  spillOff : Nat
  lits : List Nat
  kinds : List Nat
deriving DecidableEq, Repr

/-- Kind of a global: 0 unused, 1 vector, 2 condition. -/
def BHead.kind (h : BHead) (n : Nat) : Nat := h.kinds.getD n 0

/-- Operation `i` of a block. -/
def bopAt (b : List BOp) (i : Nat) : BOp := b.getD i ⟨0, 7, 0, 0, 0, 0, 0⟩

/-- The producers that name slot `k` of operation `i`. -/
def producers (b : List BOp) (i k : Nat) : List Nat := (List.range b.length).filter fun j => ((bopAt b j).targets.filter (· = (i, k))).length ≠ 0

/-- How often slot `k` of operation `i` is named. -/
def namedBy (b : List BOp) (i k : Nat) : Nat := (b.map fun o => (o.targets.filter (· = (i, k))).length).sum

/-- The operation produces a condition; a vector value. -/
def BOp.isCond (o : BOp) : Bool := decide (o.op = 0x88) || decide (o.op = 0x89) || (decide (o.op = 0x80) && decide (o.ty = 7))
def BOp.isVec (o : BOp) : Bool := o.isV || o.isW || (decide (o.op = 0x80) && decide (o.ty ≠ 7)) || decide (o.op = 0x82) || decide (o.op = 0x84) || decide (o.op = 0x86) || decide (o.op = 0x87) || decide (o.op = 0x8B)

/-- A condition belongs in slot `k` of operation `o`. -/
def BOp.wantsCond (h : BHead) (o : BOp) (k : Nat) : Bool := decide (k = 3) || (decide (o.op = 0x81) && decide (k = 0) && decide (h.kind o.x = 2))

/-- Operation `i` breaks R431 in its block. -/
def badInBlock (h : BHead) (b : List BOp) (i : Nat) : Bool :=
  let o := bopAt b i
  let slots := o.reads ++ (if o.pmode ≠ 0 then [3] else [])
  (o.targets.any fun t => decide (t.1 ≤ i) || decide (b.length ≤ t.1)
      || !((bopAt b t.1).reads ++ (if (bopAt b t.1).pmode ≠ 0 then [3] else [])).contains t.2
      || (if o.isCond then !(bopAt b t.1).wantsCond h t.2 else !o.isVec || (bopAt b t.1).wantsCond h t.2))
    || slots.any (fun k => decide (namedBy b i k ≠ 1))
    || (decide (o.op = 0x80) && decide (h.kind o.x ≠ if o.ty = 7 then 2 else 1))
    || (decide (o.op = 0x81) && decide (h.kind o.x = 0))
    || (decide (o.op = 0x8A) && decide (h.blocks ≤ o.x) && decide (o.x ≠ 0xFFF))
    || (decide (o.op = 0x87) && decide (h.lits.length ≤ o.x))

/-- The offset of the first failing item of a block. -/
def badBlock (h : BHead) (p11 : Bool) (b : List BOp) (at_ : Nat) : Option Nat :=
  match (List.range b.length).find? fun i => (bopAt b i).bad p11 || badInBlock h b i with
  | some i => some (bopAt b i).at_
  | none =>
    let l := bopAt b (b.length - 1)
    if b.isEmpty ∨ l.op ≠ 0x8A ∨ l.pmode ≠ 0 then some (if b.isEmpty then at_ else l.at_) else none

/-! ## Native words -/

/-- An item of the translation: a bundle with its extension word, a PBT of b0 to a label, or a label. -/
inductive BItem
  | bundle (ws : List (Nat × Nat)) (x : Option Nat)
  | pbt (label : Nat)
  | label (n : Nat)
deriving DecidableEq, Repr

/-- Words of the C slot (08 R198). -/
def wQli (q : Nat) (v : Nat) : Nat := 0x1E + q * 2 ^ 10 + v % 2 ^ 18 * 2 ^ 14
def wQaddi (q a v : Nat) : Nat := 0x14 + q * 2 ^ 10 + a * 2 ^ 14 + v % 2 ^ 14 * 2 ^ 18
def wQ (op q a b : Nat) : Nat := op + q * 2 ^ 10 + a * 2 ^ 14 + b * 2 ^ 18
def wBr (c mode : Nat) : Nat := 4 + c * 2 ^ 13 + mode * 2 ^ 16
def wClogCopy (cd c : Nat) : Nat := 0x0B + cd * 2 ^ 10 + c * 2 ^ 13 + c * 2 ^ 16 + 0xC * 2 ^ 19

/-- A bundle with one C-slot word; an empty bundle. -/
def bC (w : Nat) : BItem := .bundle [(0, w)] none
def bEmpty : BItem := .bundle [] none

/-- A bundle with one V-slot word. -/
def bV (op : Nat) (o : VSlot) : BItem := .bundle [(if 0x48 ≤ op ∧ op ≤ 0x4E then 3 else 2, op + vslotWord o)] none

/-- A V slot of one register. -/
def v1 (vd a b c ty rnd : Nat) : VSlot := { pred := 0, len := 0, vd := vd, a := a, b := b, c := c, md := 0, ms := 0, ty := ty, rnd := rnd }

/-- VMOV. -/
def bMov (vd a ty : Nat) : BItem := bV 0x59 (v1 vd a 0 0 ty 0)

/-- SLD (7) or SST (8). -/
def bRow (op s v imm : Nat) : BItem :=
  let w := op + s * 2 ^ 10 + v * 2 ^ 14 + imm % 2 ^ 11 * 2 ^ 21
  .bundle [(7, w)] (if imm < 2048 then none else some (0x80 + imm / 2 ^ 11 * 2 ^ 8))

/-- A jump to a label: always (2), when c0 is 1 (0), when c0 is 0 (1). -/
def bJump (label mode : Nat) : List BItem := [.pbt label, bEmpty, bC (wBr 0 mode), bEmpty, bEmpty]

/-! ## Allocation (21 R436, 22 R441) -/

/-- Where the translation of a block stands: free registers in rising order; the register or spill slot of each live value; the highest slot
in use plus one; the items so far, newest first; the conditions pushed, and the push of each; the next label; whether the budget holds. -/
structure BGen where
  free : List Nat
  reg : KMap Nat
  slot : KMap Nat
  top : Nat
  items : List BItem
  pushes : Nat
  push : KMap Nat
  label : Nat
  ok : Bool
deriving DecidableEq, Repr

/-- Where the vector globals live: register or slot; and the registers left. -/
structure BHomes where
  reg : KMap Nat
  slot : KMap Nat
  free : List Nat
deriving DecidableEq, Repr

/-- Homes of the vector globals. -/
def biariHomes (h : BHead) : BHomes :=
  (List.range 64).foldl (fun (m : BHomes) n =>
    if h.kind n ≠ 1 then m
    else match m.free with
      | r :: l => if 6 < m.free.length then { m with reg := KMap.ins n r m.reg, free := l } else { m with slot := KMap.ins n m.slot.length m.slot }
      | [] => { m with slot := KMap.ins n m.slot.length m.slot }) ⟨[], [], (List.range h.vn).map (h.v0 + ·)⟩

/-- The byte offset of a spill slot; in profile 1.0 only what imm11 reaches. -/
def BHead.slotOff (h : BHead) (k : Nat) : Nat := h.spillOff + 2048 * k
def BHead.slotOk (h : BHead) (p11 : Bool) (k : Nat) : Bool := decide (k < h.slots) && (p11 || decide (h.slotOff k ≤ 1920))

/-- More items. -/
def BGen.add (g : BGen) (l : List BItem) : BGen := { g with items := l.reverse ++ g.items }

/-- A register returned to the free list, which stays in rising order. -/
def insertReg (r : Nat) : List Nat → List Nat
  | [] => [r]
  | a :: l => if r < a then r :: a :: l else if r = a then a :: l else a :: insertReg r l
def BGen.release (g : BGen) (r : Nat) : BGen := { g with free := insertReg r g.free }

/-- The consumers of operation `j`: a commit consumes at the block's end. -/
def consumers (b : List BOp) (j : Nat) : List Nat :=
  (bopAt b j).targets.map fun t => let c := bopAt b t.1; if c.op = 0x81 ∨ c.op = 0x83 ∨ c.op = 0x85 then b.length else t.1

/-- The next consumer of operation `j` from `i` on. -/
def nextUse (b : List BOp) (j i : Nat) : Nat := ((consumers b j).filter (i ≤ ·)).foldl min (b.length + 1)

/-- The live value in a register whose next consumer comes last, the lowest register among equals. -/
def spillVictim (b : List BOp) (i : Nat) (keep : List Nat) (g : BGen) : Option (Nat × Nat) :=
  (g.reg.filter fun e => !keep.contains e.1).foldl (fun (m : Option (Nat × Nat)) e => match m with
    | none => some e
    | some x => if nextUse b x.1 i < nextUse b e.1 i ∨ (nextUse b x.1 i = nextUse b e.1 i ∧ e.2 < x.2) then some e else m) none

/-- The lowest unused slot. -/
def freeSlot (m : BHomes) (g : BGen) : Nat :=
  ((List.range 65).find? fun k => decide (m.slot.length ≤ k) && !(g.slot.any fun e => decide (e.2 = k))).getD 64

/-- The lowest free register; a value is spilled for it where none is free. -/
def takeReg (h : BHead) (p11 : Bool) (m : BHomes) (b : List BOp) (i : Nat) (keep : List Nat) (g : BGen) : Nat × BGen :=
  match g.free with
  | r :: l => (r, { g with free := l })
  | [] =>
    match spillVictim b i keep g with
    | none => (0, { g with ok := false })
    | some (j, r) =>
      let k := freeSlot m g
      (r, ({ g with reg := KMap.del j g.reg, slot := KMap.ins j k g.slot, top := max g.top (k + 1), ok := g.ok && h.slotOk p11 k }).add [bRow 8 h.spill r (h.slotOff k)])

/-- The value of operation `j` read back into a register, if it has been spilled. -/
def reload (h : BHead) (p11 : Bool) (m : BHomes) (b : List BOp) (i : Nat) (keep : List Nat) (j : Nat) (g : BGen) : BGen :=
  match KMap.find j g.slot with
  | none => g
  | some k =>
    let q := takeReg h p11 m b i keep g
    ({ q.2 with slot := KMap.del j q.2.slot, reg := KMap.ins j q.1 q.2.reg }).add [bRow 7 h.spill q.1 (h.slotOff k)]

/-- The register that holds the value of operation `j`: its own, or the home of the global that it reads. -/
def regOf (m : BHomes) (b : List BOp) (g : BGen) (j : Nat) : Nat :=
  match KMap.find j g.reg with
  | some r => r
  | none => KMap.get 0 m.reg (bopAt b j).x

/-- The value of operation `j` returns its register, if it has one of its own. -/
def BGen.drop (g : BGen) (j : Nat) : BGen :=
  match KMap.find j g.reg with
  | none => { g with slot := KMap.del j g.slot }
  | some r => ({ g with reg := KMap.del j g.reg }).release r

/-! ## Conditions -/

/-- What must hold for an operation to execute: conditions of the block with the value each must have (21 R433). -/
abbrev Needs := List (Nat × Bool)

/-- The sources of operation `i`: slot and producer. -/
def sourcesOf (b : List BOp) (i : Nat) : List (Nat × Nat) := [0, 1, 2, 3].flatMap fun k => (producers b i k).map fun j => (k, j)

/-- The needs of every operation, in index order. -/
def needsOf (b : List BOp) : List Needs :=
  (List.range b.length).foldl (fun (l : List Needs) i =>
    l ++ [((sourcesOf b i).flatMap fun q => l.getD q.2 [] ++ if q.1 = 3 then [(q.2, decide ((bopAt b i).pmode = 1))] else []).dedup]) []

/-- The first q of the budget, a temporary. -/
def BHead.qt (h : BHead) : Nat := h.q0

/-- c0 takes condition `j` of the block. -/
def testCond (h : BHead) (g : BGen) (j : Nat) : List BItem :=
  let d := g.pushes - 1 - KMap.get 0 g.push j
  [bC (wQli h.qt (63 - d)), bC (wQ 0x19 h.qt 15 h.qt), bC (3 + 2 * 2 ^ 13 + h.qt * 2 ^ 16)]

/-- Jumps to a label unless every need holds. -/
def skipUnless (h : BHead) (g : BGen) (n : Needs) (label : Nat) : List BItem :=
  n.flatMap fun q => testCond h g q.1 ++ bJump label (if q.2 then 1 else 0)

/-- Items that are executed only when the needs hold. -/
def BGen.guarded (g : BGen) (h : BHead) (n : Needs) (l : List BItem) : BGen :=
  if n.isEmpty then g.add l
  else ({ g with label := g.label + 1 }).add (skipUnless h g n g.label ++ l ++ [BItem.label g.label])

/-- The next push is that of condition `j`. -/
def BGen.pushed (g : BGen) (j : Nat) : BGen := { g with label := g.label + 1, pushes := g.pushes + 1, push := KMap.ins j g.pushes g.push }

/-- The 64th condition back is pushed again while one that is still wanted stands there: the next push would lose it. -/
def BGen.keepConds (h : BHead) (wanted : Nat → Bool) : Nat → BGen → BGen
  | 0, g => { g with ok := false }
  | n + 1, g =>
    match g.push.find? fun e => decide (e.2 + 64 = g.pushes) && wanted e.1 with
    | none => g
    | some (j, _) =>
      BGen.keepConds h wanted n
        ((g.pushed j).add (testCond h g j ++ [bC (wQ 0x12 15 15 15)] ++ bJump g.label 1 ++ [bC (wQaddi 15 15 1), BItem.label g.label]))

/-- A condition of the block is pushed: 0, then 1 more when the items leave 1 in c0. -/
def BGen.pushCond (g0 : BGen) (h : BHead) (wanted : Nat → Bool) (n : Needs) (j : Nat) (l : List BItem) : BGen :=
  let g := BGen.keepConds h wanted 65 g0
  let g1 := g.pushed j
  g1.add ([bC (wQ 0x12 15 15 15)] ++ skipUnless h g1 n g.label ++ l ++ bJump g.label 1 ++ [bC (wQaddi 15 15 1), BItem.label g.label])

/-- Condition `j` is still read at operation `i` or later: by an operation, by a predicate, or by a commit or an exit, which come after all. -/
def condWanted (b : List BOp) (needs : List Needs) (i j : Nat) : Bool :=
  (consumers b j).any (i ≤ ·) || (List.range b.length).any fun k =>
    (needs.getD k []).any (fun q => decide (q.1 = j)) && (decide (i ≤ k) || [0x81, 0x83, 0x85, 0x8A].contains (bopAt b k).op)

/-- The place of condition global `n`: its number among the condition globals. -/
def BHead.condPlace (h : BHead) (n : Nat) : Nat := ((List.range n).filter fun i => decide (h.kind i = 2)).length
def BHead.conds (h : BHead) : Nat := ((List.range 64).filter fun i => decide (h.kind i = 2)).length

/-- c0 takes condition global `n`. -/
def readCondGlobal (h : BHead) (n : Nat) : List BItem :=
  let k := h.condPlace n
  if k < 7 then [bC (wClogCopy 0 (k + 1))] else [bC (3 + 1 * 2 ^ 13 + (h.q0 + k - 6) * 2 ^ 16)]

/-- Condition global `n` takes condition `j` of the block. -/
def BGen.writeCondGlobal (g : BGen) (h : BHead) (needs : Needs) (n j : Nat) : BGen :=
  let k := h.condPlace n
  let l := g.label
  let g1 := { g with label := g.label + 1 }
  g1.guarded h needs (testCond h g1 j ++ if k < 7 then [bC (wClogCopy (k + 1) 0)]
    else [bC (wQli (h.q0 + k - 6) 0)] ++ bJump l 1 ++ [bC (wQli (h.q0 + k - 6) 1), .label l])

/-- Conditions live after operation `i`, the condition globals included. -/
def condsLive (h : BHead) (b : List BOp) (i : Nat) : Nat :=
  h.conds + ((List.range (i + 1)).filter fun j => (bopAt b j).isCond && (consumers b j).any (i < ·)).length

/-! ## One operation (22 R440) -/

/-- A 64-bit value built in a q register: twelve bits, then thirteen at a time. -/
def bLit (q v : Nat) : List BItem :=
  bC (wQli q (v / 2 ^ 52 % 2 ^ 12)) :: [3, 2, 1, 0].flatMap fun k =>
    List.replicate 13 (bC (wQ 0x12 q q q)) ++ [bC (wQaddi q q (v / 2 ^ (13 * k) % 2 ^ 13))]

/-- The sequence of DIV with temporaries `t0`, `t1` and result `r`. -/
def bDiv (a b t0 t1 r rnd : Nat) : List BItem :=
  [bV 0x48 (v1 t0 b 0 0 6 1), bV 0x35 (v1 t1 b t0 209 6 1), bV 0x33 (v1 t0 t0 t1 t0 6 1), bV 0x35 (v1 t1 b t0 209 6 1),
   bV 0x33 (v1 t0 t0 t1 t0 6 1), bV 0x32 (v1 t1 a t0 0 6 1), bV 0x35 (v1 r b t1 a 6 1), bV 0x33 (v1 r r t0 t1 6 rnd)]

/-- The native form of an operation that gives a vector, on the registers of its operands and result. -/
def nativeOp (h : BHead) (o : BOp) (r a b c : Nat) : List BItem :=
  if o.isMac then (if r = c then [] else [bMov r c o.ty]) ++ [bV o.op (o.vslot r a b 0)]
  else if o.isV then [bV o.op (o.vslot r a b c)]
  else if o.isW then [.bundle [(6, o.op - 0x60 + r * 2 ^ 10 + a * 2 ^ 17 + (if 0x65 ≤ o.op then o.ty else o.x % 256) * 2 ^ 24)] none]
  else match o.op with
    | 0x82 => [bMov r (128 + o.x % 16) o.ty]
    | 0x84 => [bRow 7 (o.x % 16) r o.imm]
    | 0x86 => [bMov r (o.x % 256) o.ty]
    | 0x87 => bLit h.qt (h.lits.getD o.x 0) ++ [bMov r (176 + h.qt) o.ty]
    | _ => []

/-- Operation `i` of a block is translated; a commit, and RDG of a register home, give no bundle here. -/
def genOp (h : BHead) (p11 : Bool) (m : BHomes) (b : List BOp) (needs : List Needs) (g0 : BGen) (i : Nat) : BGen :=
  let o := bopAt b i
  let n := needs.getD i []
  let src := fun k => (producers b i k).headD 0
  let g0 := { g0 with ok := g0.ok && decide (condsLive h b i ≤ 8 + h.qn - 1) }
  if o.op = 0x81 ∨ o.op = 0x83 ∨ o.op = 0x85 ∨ o.op = 0x8A then g0
  else if o.op = 0x80 ∧ o.ty = 7 then if (consumers b i).isEmpty then g0 else g0.pushCond h (condWanted b needs i) n i (readCondGlobal h o.x)
  else if o.op = 0x80 ∧ (KMap.find o.x m.reg).isSome then g0
  else
    let vecs := o.reads.map src
    let g1 := vecs.dedup.foldl (fun g j => reload h p11 m b i vecs j g) g0
    let ra := regOf m b g1 (src 0); let rb := regOf m b g1 (src 1); let rc := regOf m b g1 (src 2)
    let dead := fun (g : BGen) (ks : List Nat) => (ks.map src).dedup.foldl (fun g j => if (consumers b j).all (· ≤ i) then g.drop j else g) g
    if o.op = 0x88 ∨ o.op = 0x89 then
      let g2 := if (consumers b i).isEmpty then g1
        else g1.pushCond h (condWanted b needs i) n i [bC (0x09 + (o.op - 0x88) + ra * 2 ^ 13 + Nat.log2 (typeBytes o.ty) * 2 ^ 20)]
      dead g2 [0]
    else
      let early := if o.op = 0x8B then [] else if o.isMac then [2] else o.reads
      let g2 := dead g1 early
      let t0 := if o.op = 0x8B then takeReg h p11 m b i vecs g2 else (0, g2)
      let t1 := if o.op = 0x8B then takeReg h p11 m b i vecs t0.2 else (0, t0.2)
      let r := takeReg h p11 m b i vecs t1.2
      let g3 := r.2.guarded h n (if o.op = 0x80 then [bRow 7 h.spill r.1 (h.slotOff (KMap.get 0 m.slot o.x))]
        else if o.op = 0x8B then bDiv ra rb t0.1 t1.1 r.1 (o.x / 2 ^ 13 % 4) else nativeOp h o r.1 ra rb rc)
      let g4 := if o.op = 0x8B then (dead g3 [0, 1]).release t0.1 |>.release t1.1 else if o.isMac then dead g3 [0, 1] else g3
      if (consumers b i).isEmpty then g4.release r.1 else { g4 with reg := KMap.ins i r.1 g4.reg }

/-! ## Commit and exits (21 R433) -/

/-- The element type of the value that operation `j` sends. -/
def valueType (b : List BOp) (j : Nat) : Nat := (bopAt b j).ty

/-- A store, a push, or a write of a slot home, in index order. -/
def genStore (h : BHead) (p11 : Bool) (m : BHomes) (b : List BOp) (needs : List Needs) (g : BGen) (i : Nat) : BGen :=
  let o := bopAt b i
  let j := (producers b i 0).headD 0
  let n := needs.getD i []
  if o.op = 0x83 ∨ o.op = 0x85 ∨ (o.op = 0x81 ∧ h.kind o.x = 1 ∧ (KMap.find o.x m.slot).isSome) then
    let g1 := reload h p11 m b b.length [j] j g
    let r := regOf m b g1 j
    let later := ((bopAt b j).targets.filter fun t => decide (i < t.1)).length
    let g2 := g1.guarded h n (if o.op = 0x83 then [bMov (128 + o.x % 16) r (valueType b j)]
      else if o.op = 0x85 then [bRow 8 (o.x % 16) r o.imm]
      else [bRow 8 h.spill r (h.slotOff (KMap.get 0 m.slot o.x))])
    if later = 0 ∧ !((bopAt b j).targets.any fun t => decide ((bopAt b t.1).op = 0x81) && (KMap.find (bopAt b t.1).x m.reg).isSome) then g2.drop j else g2
  else g

/-- Writes of register homes still to be made: the home, the value, and the operation. -/
def homeWrites (h : BHead) (m : BHomes) (b : List BOp) : List Nat :=
  (List.range b.length).filter fun i => decide ((bopAt b i).op = 0x81) && decide (h.kind (bopAt b i).x = 1) && (KMap.find (bopAt b i).x m.reg).isSome

/-- Register homes are written as one parallel assignment: a home that no pending write reads goes first; where every one is read, one is
copied aside. -/
def genHomes (h : BHead) (p11 : Bool) (m : BHomes) (b : List BOp) (needs : List Needs) : Nat → List Nat → KMap Nat → BGen → BGen
  | 0, _, _, g => g
  | n + 1, pend, moved, g =>
    let home := fun i => KMap.get 0 m.reg (bopAt b i).x
    let val := fun i => (producers b i 0).headD 0
    let from_ := fun (g : BGen) i => KMap.get (regOf m b g (val i)) moved (val i)
    match pend with
    | [] => g
    | first :: _ =>
      match pend.find? fun i => (pend.takeWhile (· ≠ i)).all (fun k => decide (home k ≠ home i))
          && pend.all (fun k => decide (k = i) || decide (from_ g k ≠ home i)) with
      | some i =>
        let g1 := reload h p11 m b b.length [val i] (val i) g
        let g2 := if from_ g1 i = home i then g1 else g1.guarded h (needs.getD i []) [bMov (home i) (from_ g1 i) 2]
        let g3 := if (pend.filter (· ≠ i)).any fun k => decide (val k = val i) then g2 else g2.drop (val i)
        genHomes h p11 m b needs n (pend.filter (· ≠ i)) moved g3
      | none =>
        match g.free with
        | [] => { g with ok := false }
        | r :: _ =>
          let r0 := home first
          let vs := (pend.filter fun k => decide (from_ g k = r0)).map val
          genHomes h p11 m b needs n pend (vs.dedup.foldl (fun mv v => KMap.ins v r mv) moved) (({ g with free := g.free.drop 1 }).add [bMov r r0 2])

/-- Condition globals are written. -/
def genConds (h : BHead) (b : List BOp) (needs : List Needs) (g : BGen) (i : Nat) : BGen :=
  let o := bopAt b i
  if o.op = 0x81 ∧ h.kind o.x = 2 then g.writeCondGlobal h (needs.getD i []) o.x ((producers b i 0).headD 0) else g

/-- An exit: the end of the kernel, or a jump to its block, whose label is its number. -/
def genExit (h : BHead) (b : List BOp) (needs : List Needs) (g : BGen) (i : Nat) : BGen :=
  let o := bopAt b i
  if o.op = 0x8A then g.guarded h (needs.getD i []) (if o.x = 0xFFF then [bC 0x10] else bJump o.x 2) else g

/-- A block: YIELD, its operations, the commit and the exits. -/
def genBlock (h : BHead) (p11 : Bool) (m : BHomes) (g0 : BGen) (q : Nat × List BOp) : BGen :=
  let b := q.2
  let needs := needsOf b
  let is := List.range b.length
  let g1 := ({ g0 with free := m.free, reg := [], slot := [], pushes := 0, push := [] }).add [.label q.1, bC 0x0C]
  let g2 := is.foldl (genOp h p11 m b needs) g1
  let g3 := is.foldl (genStore h p11 m b needs) g2
  let w := homeWrites h m b
  let g4 := genHomes h p11 m b needs (3 * w.length + 3) w [] g3
  is.foldl (genExit h b needs) (is.foldl (genConds h b needs) g4)

/-- The prologue: every vector global's home becomes zero (22 R439). -/
def genPrologue (h : BHead) (m : BHomes) : List BItem :=
  let n := m.reg.length
  let groups := (List.range ((n + 5) / 6)).map fun i => bV 0x5A { v1 (h.v0 + 6 * i) 0 0 0 6 0 with len := min 6 (n - 6 * i) - 1 }
  let src := h.v0
  groups ++ (if m.slot.isEmpty then [] else (if n = 0 then [bV 0x5A (v1 src 0 0 0 6 0)] else []) ++ m.slot.map fun e => bRow 8 h.spill src (h.slotOff e.2))

/-! ## Assembly -/

/-- Bytes of an item. -/
def BItem.size : BItem → Nat
  | .bundle ws x => 2 + (ws.map fun w => slotBytes w.1).sum + if x.isSome then 4 else 0
  | .pbt _ => 6
  | .label _ => 0

/-- Offsets of the labels. -/
def labelOffs : Nat → List BItem → KMap Nat
  | _, [] => []
  | a, i :: l => match i with
    | .label n => KMap.ins n a (labelOffs a l)
    | _ => labelOffs (a + i.size) l

/-- The bytes of a bundle, with STOP set. -/
def bundleBytes (ws : List (Nat × Nat)) (x : Option Nat) : List Byte :=
  toBytes 2 ((ws.map fun w => 2 ^ w.1).sum + 0x4000 + if x.isSome then 0x8000 else 0) ++ (ws.flatMap fun w => toBytes (slotBytes w.1) w.2)
    ++ (x.map fun v => toBytes 4 v).getD []

/-- The bytes of the items from offset `a` on; none where a target is out of a PBT's reach. -/
def assemble (m : KMap Nat) : Nat → List BItem → Option (List Byte)
  | _, [] => some []
  | a, i :: l =>
    match i with
    | .label _ => assemble m a l
    | .bundle ws x => (assemble m (a + i.size) l).map (bundleBytes ws x ++ ·)
    | .pbt n =>
      let t : Nat := KMap.get 0 m n
      let d : Int := (t : Int) - (a : Int)
      if d < -524288 ∨ 524286 < d then none
      else (assemble m (a + 6) l).map (bundleBytes [(0, 1 + wrap 19 (d / 2) * 2 ^ 13)] none ++ ·)

/-! ## The section (21 R426) -/

/-- The blocks from the bytes of a section: each with the offset of its header. -/
def parseBlocks : Nat → Nat → List Byte → Nat ⊕ List (Nat × List BOp)
  | 0, a, l => if l.isEmpty then .inr [] else .inl a
  | n + 1, a, l =>
    let c := field l 0 2
    if c = 0 ∨ 128 < c ∨ field l 2 6 ≠ 0 ∨ l.length < 8 + 8 * c then .inl a else
    let ops := (List.range c).map fun i => bopOf (field l (8 + 8 * i) 8) (a + 8 + 8 * i)
    match parseBlocks n (a + 8 + 8 * c) (l.drop (8 + 8 * c)) with
    | .inl e => .inl e
    | .inr bs => .inr ((a, ops) :: bs)

/-- The header of a section and its blocks; `a` is the section's offset in the object. -/
def parseBiari (a : Nat) (l : List Byte) : Nat ⊕ (BHead × List (Nat × List BOp)) :=
  let nl := field l 20 4
  let h : BHead :=
    { kernel := field l 4 2, blocks := field l 6 2, v0 := field l 8 1, vn := field l 9 1, q0 := field l 10 1, qn := field l 11 1, spill := field l 12 1,
      slots := field l 13 1, spillOff := field l 16 4, lits := (List.range nl).map fun i => field l (64 + 8 * i) 8,
      kinds := (List.range 64).map fun n => field l (32 + n / 2) 1 / (if n % 2 = 0 then 1 else 16) % 16 }
  if l.length < 64 ∨ field l 0 4 ≠ 1 ∨ h.blocks = 0 ∨ 4096 < h.blocks ∨ h.vn < 8 ∨ 128 < h.v0 + h.vn ∨ h.q0 = 0 ∨ 14 < h.q0 ∨ h.qn = 0 ∨ 14 < h.qn
      ∨ 15 < h.q0 + h.qn ∨ 15 < h.spill ∨ 64 < h.slots ∨ field l 14 2 ≠ 0 ∨ h.spillOff % 2048 ≠ 0 ∨ 4096 < nl ∨ field l 24 8 ≠ 0 ∨ l.length < 64 + 8 * nl
      ∨ h.kinds.any (2 < ·) then .inl a
  else match parseBlocks h.blocks (a + 64 + 8 * nl) (l.drop (64 + 8 * nl)) with
    | .inl e => .inl e
    | .inr bs => .inr (h, bs)

/-- BIARI_TRANSLATE (21 R436): the kernel of a section and its native bytes, or the code and offset of the failure. -/
def translateBiari (p11 : Bool) (a : Nat) (l : List Byte) : (Nat × Nat) ⊕ (Nat × List Byte) :=
  match parseBiari a l with
  | .inl e => .inl (ldBadBiari, e)
  | .inr (h, bs) =>
    match bs.findSome? fun q => badBlock h p11 q.2 q.1 with
    | some e => .inl (ldBadBiari, e)
    | none =>
      let m := biariHomes h
      let g0 : BGen := { free := m.free, reg := [], slot := [], top := m.slot.length, items := [], pushes := 0, push := [], label := 4096,
                         ok := m.slot.all fun e => h.slotOk p11 e.2 }
      let g := ((List.range bs.length).map fun i => (i, (bs.getD i (0, [])).2)).foldl (genBlock h p11 m) (g0.add (genPrologue h m))
      let items := g.items.reverse
      match if g.ok then assemble (labelOffs 0 items) 0 items else none with
      | none => .inl (ldBiariBudget, a)
      | some bytes => .inr (h.kernel, bytes)

end Sys2Proof.Machine
end

