-- ==== Sys2Proof/Machine/Spire.lean ====
section
/-! DEFINITION. The Spire merge network (13): window, spills, merge passes, emission, completion, open merges and the stop for a
pre-emption; and the exact sums of 05 R130. -/

namespace Sys2Proof.Machine

/-! ## Exact sums (05 R130, 13 R336) -/

/-- Form, value type and multi-pass bit of a merge's rs1: 0 CSR, 1 coordinate; 0 F32, 1 BF16, 2 I32 (07 R177). -/
def mergeForm (a : Dword) : Nat := bits a 20 2
def mergeType (a : Dword) : Nat := bits a 22 2
def mergeMulti (a : Dword) : Bool := decide (bits a 24 1 = 1)

/-- A 320-bit two's complement value. -/
def acc320 (v : Int) : Int := sint 320 (wrap 320 v)

/-- The key is marked: its accumulator reaches 2^170 in magnitude, or its count 2^42. -/
def SpKey.mark (k : SpKey) (v : Int) : Bool := k.marked || decide (2 ^ 319 ≤ v.natAbs) || decide (2 ^ 42 ≤ k.count)

/-- A key with an exact sum, flags and count added; `float` says that marks are kept. -/
def SpKey.join (float : Bool) (a b : SpKey) : SpKey :=
  let v := a.acc + b.acc
  let k : SpKey := { a with nan := a.nan || b.nan, pinf := a.pinf || b.pinf, ninf := a.ninf || b.ninf, marked := a.marked || b.marked,
                            count := (a.count + b.count) % 2 ^ 48 }
  { k with acc := acc320 v, marked := float && k.mark v }

/-- A record's key and value as a key of its own. -/
def spRecord (ty key raw : Nat) : SpKey :=
  let z : SpKey := { key := key, acc := 0, nan := false, pinf := false, ninf := false, marked := false, count := 1 }
  if ty = 2 then { z with acc := sint 32 raw } else
  match (if ty = 1 then fmtBF16.decode (raw % 2 ^ 16) else fmtF32.decode (raw % 2 ^ 32)) with
  | .fin n m e => { z with acc := signed n (alignTo m e (-149)) }
  | .inf n => { z with pinf := !n, ninf := n }
  | _ => { z with nan := true }

/-- A key added to a list in rising order of the keys. -/
def spInsert (float : Bool) (k : SpKey) : List SpKey → List SpKey
  | [] => [k]
  | x :: l => if k.key < x.key then k :: x :: l else if x.key = k.key then SpKey.join float x k :: l else x :: spInsert float k l

/-- The emitted value of a key and its flags: IV 1, OF 2, UF 4, NX 8 (13 R340). -/
def SpKey.value (ty : Nat) (k : SpKey) : Nat × Nat :=
  let f := if ty = 1 then fmtBF16 else fmtF32
  if ty = 2 then (wrap 32 k.acc, 0)
  else if k.nan || (k.pinf && k.ninf) || k.marked then (f.qnan, 1)
  else if k.pinf || k.ninf then (f.infBits k.ninf, 0)
  else if k.acc = 0 then (0, 0)
  else
    let r := f.ofVal 0 false (.fin (decide (k.acc < 0)) k.acc.natAbs (-149))
    (r.1, (if r.2 / 4 % 2 = 1 then 2 else 0) + (if r.2 / 8 % 2 = 1 then 4 else 0) + (if r.2 / 16 % 2 = 1 then 8 else 0))

/-! ## Run records and the directory (13 R337, R338) -/

/-- A key as the 64 bytes of a run record. -/
def SpKey.bytes (k : SpKey) : List Byte :=
  toBytes 8 k.key ++ toBytes 2 ((if k.nan then 1 else 0) + (if k.pinf then 2 else 0) + (if k.ninf then 4 else 0) + if k.marked then 8 else 0)
    ++ toBytes 6 k.count ++ toBytes 40 (wrap 320 k.acc) ++ toBytes 8 0

/-- The key of a run record; none where the record breaks the layout. -/
def spOfBytes (l : List Byte) : Option SpKey :=
  let fl := field l 8 2
  if 16 ≤ fl ∨ field l 56 8 ≠ 0 then none
  else some { key := field l 0 8, acc := sint 320 (field l 16 40), nan := decide (fl % 2 = 1), pinf := decide (fl / 2 % 2 = 1), ninf := decide (fl / 4 % 2 = 1),
              marked := decide (fl / 8 % 2 = 1), count := field l 10 6 }

/-- The header of the directory, and the entry of run `e`, as writes. -/
def Spire.headerWrite (sp : Spire) : Nat × List Byte :=
  (0, toBytes 4 sp.runs.length ++ toBytes 4 (sp.runs.filter (·.live)).length ++ toBytes 8 sp.free ++ List.replicate 48 0)
def SpRun.entryWrite (r : SpRun) (e : Nat) : Nat × List Byte :=
  (64 + 32 * e, toBytes 8 r.off ++ toBytes 4 r.keys ++ toBytes 4 r.pass ++ toBytes 4 (if r.live then 1 else 2) ++ List.replicate 12 0)

/-- The whole directory as it stands, as writes. -/
def Spire.directory (sp : Spire) : List (Nat × List Byte) :=
  sp.headerWrite :: (List.range sp.runs.length).map fun e => (sp.runs.getD e ⟨0, 0, 0, false⟩).entryWrite e

/-- The window limit, the spill base and length, and the other fields of the captured block. -/
def Spire.limitOf (b : List Byte) : Nat := if blk b 16 2 = 0 then 8192 else blk b 16 2
def Spire.spillBase (sp : Spire) : Nat := blk sp.block 0 8
def Spire.spillLen (sp : Spire) : Nat := blk sp.block 8 8
def Spire.float (sp : Spire) : Bool := decide (mergeType sp.rs1 ≠ 2)

/-- The Spire with a run to send; a run that R338 refuses ends the merge with SPILL_FULL. -/
def Spire.startRun (sp : Spire) (keys : List SpKey) (pass : Nat) : Spire :=
  let full := decide (sp.spillLen = 0) || decide (sp.spillLen < sp.free + 64 * keys.length) || decide (126 ≤ sp.runs.length)
    || (!mergeMulti sp.rs1 && decide (16 ≤ sp.runs.length))
  if full then { sp with status := if sp.status = 0 then stSpillFull else sp.status }
  else
    let r : SpRun := ⟨sp.free, keys.length, pass, true⟩
    { sp with job := some ⟨0, (List.range keys.length).map fun i => (sp.free + 64 * i, (keys.getD i ⟨0, 0, false, false, false, false, 0⟩).bytes), [], 0, r⟩ }

/-- The Spire with its directory to write. -/
def Spire.startDirectory (sp : Spire) : Spire :=
  if sp.spillLen = 0 then sp else { sp with job := some ⟨1, sp.directory, [], 0, ⟨0, 0, 0, false⟩⟩ }

/-! ## The start of a command (13 R336, R343) -/

/-- An input of a command. -/
def spInput (e : Entry) (n : Nat) : SpIn :=
  let d := KMap.get Desc.init e.descs n
  ⟨n, d, d.pos, false⟩

/-- A merge command completes in SP `k`: its arrival word receives its full target as one update (13 R342, R343). -/
def State.mergeDone (s : State) (k seq status : Nat) : State :=
  s.modSp k fun p =>
    match p.ctx with
    | none => p
    | some c =>
      match c.sb.find? fun e => decide (e.seq = seq) with
      | none => p
      | some e => { p with srf := arrive p.srf c e.rs2 (arriveTarget p.srf c e.rs2) status, ctx := some (c.dropEntry seq) }

/-- A merge command issues in SP `k`: it opens a merge, joins the open one, or closes it; SPDRAIN without an open merge completes. -/
def State.spireBegin (s : State) (k : Nat) (e : Entry) : State :=
  s.withCtx k fun c =>
    let sp := c.spire
    match e.instr with
    | .spdrain _ _ =>
      if sp.phase ≠ 2 then s.mergeDone k e.seq 0
      else s.setCtx k { c with spire := { sp with phase := 1, seq := e.seq, inputs := [], ready := s.now + 4, joined := true } }
    | _ =>
      let ins := (mergeInputs e.rs1).map (spInput e)
      if sp.phase = 2 then s.setCtx k { c with spire := { sp with phase := 1, seq := e.seq, inputs := ins, turn := 0, ready := s.now + 4, joined := true } }
      else
        let sp1 : Spire := { Spire.init with
          phase := 1, seq := e.seq, rs1 := e.rs1, outDesc := KMap.get Desc.init e.descs 16, block := e.block, inputs := ins, limit := Spire.limitOf e.block,
          free := 0x1000, ready := s.now + 4 }
        s.setCtx k { c with spire := sp1.startDirectory }

/-! ## Intake (13 R335, R336) -/

/-- The next record of an input: none where it has none available now. -/
def spNext (c : Ctx) (i : SpIn) : Option Nat :=
  match c.descPolder i.desc with
  | none => none
  | some p =>
    if p.kind = 0 then (if i.next < i.desc.len then some i.next else none)
    else if p.kind = 1 ∧ i.desc.len ≤ i.next - i.desc.pos then none
    else if availRecs i.desc p = 0 then none else some p.head

/-- The input has ended. -/
def spEnded (c : Ctx) (i : SpIn) : Bool :=
  match c.descPolder i.desc with
  | none => true
  | some p =>
    if p.kind = 0 then decide (i.desc.len ≤ i.next)
    else if p.kind = 1 then decide (i.desc.len ≤ i.next - i.desc.pos)
    else p.eos && decide (dif32 p.tail p.head = 0)

/-- One record of the input at place `t` of the round, taken into the window; the answer says whether there was one. -/
def spTake (m : KMap Row) (c : Ctx) (t : Nat) : Bool × Ctx :=
  let sp := c.spire
  match sp.inputs[t]? with
  | none => (false, c)
  | some i =>
    match spNext c i, c.descPolder i.desc with
    | some r, some p =>
      let key := rawElem m i.desc p (2 * r)
      let k := spRecord (mergeType sp.rs1) key (rawElem m i.desc p (2 * r + 1))
      let c1 := if p.kind = 0 then c else c.modPolder (i.desc.polder.getD 0) fun p => { p with head := (p.head + 1) % 2 ^ 32 }
      let sp1 := { sp with inputs := sp.inputs.set t { i with next := i.next + 1 } }
      let sp2 :=
        if sp1.window.any (fun x => decide (x.key = key)) || decide (sp1.window.length < sp1.limit) then { sp1 with window := spInsert sp1.float k sp1.window }
        else { sp1.startRun sp1.window 0 with window := [k] }
      (true, { c1 with spire := sp2 })
    | _, _ => (false, c)

/-- The next record of the input at place `t` of the round would make the window overflow while a job is under way: it waits, so that no beat of the
job is lost (13 R335, R338). -/
def spBlocked (m : KMap Row) (c : Ctx) (t : Nat) : Bool :=
  let sp := c.spire
  sp.job.isSome && decide (sp.limit ≤ sp.window.length) && sp.inputs[t]?.any fun i => match spNext c i, c.descPolder i.desc with
    | some r, some p => !sp.window.any fun x => decide (x.key = rawElem m i.desc p (2 * r))
    | _, _ => false

/-- Up to `n` records in input order; `idle` inputs in succession have had none. A spill that has begun stops the intake. -/
def spIntake (m : KMap Row) : Nat → Nat → Nat → Ctx → Ctx
  | 0, _, _, c => c
  | fuel + 1, n, idle, c =>
    let sp := c.spire; let w := sp.inputs.length
    if n = 0 ∨ w ≤ idle ∨ sp.job.any (fun j => decide (j.kind = 0)) ∨ sp.status ≠ 0 ∨ spBlocked m c (sp.turn % w) then c else
    let r := spTake m c (sp.turn % w)
    let c1 := { r.2 with spire := { r.2.spire with turn := (sp.turn + 1) % w } }
    if r.1 then spIntake m fuel (n - 1) 0 c1 else spIntake m fuel n (idle + 1) c1

/-- The command of the Spire leaves the merge open. -/
def Ctx.mergeOpen (c : Ctx) : Bool :=
  (c.sb.find? fun e => decide (e.seq = c.spire.seq)).any fun e => decide (bits e.rs1 25 1 = 1) && (match e.instr with
    | .spdrain _ _ => false
    | _ => true)

/-- SPIRE_RECORD_INTAKE: up to 16 records in input order; when every input has ended, the merge stays open, or goes on to its output: the
window is emitted, or spilled where runs have been written (13 R335, R336, R340, R343). -/
def execSpireRecordIntake (k : Nat) (s : State) : Host.Outcome State Fault Refusal :=
  .next (s.withCtx k fun c =>
    let sp := c.spire
    if sp.phase ≠ 1 ∨ s.now < sp.ready ∨ sp.stopped ∨ c.preempt.isSome ∨ sp.status ≠ 0 ∨ sp.job.any (fun j => decide (j.kind = 0)) then s
    else if !sp.inputs.all (spEnded c) then s.setCtx k (spIntake (s.sp k).srf (16 * (sp.inputs.length + 1) + 16) 16 0 c)
    else if sp.job.isSome then s
    else if c.mergeOpen then (s.setCtx k { c with spire := { sp with phase := 2, inputs := [] } }).mergeDone k sp.seq 0
    else if sp.runs.isEmpty then s.setCtx k { c with spire := { sp with phase := 4, out := sp.window, window := [], ready := s.now + 16 } }
    else if sp.window.isEmpty then s.setCtx k { c with spire := { sp with phase := 3 } }
    else s.setCtx k { c with spire := { sp.startRun sp.window 0 with window := [], phase := 3 } })

/-! ## Beats (13 R337) -/

/-- Some beat of the SP's Spire is parked. -/
def State.spireParked (s : State) (k launch : Nat) : Bool :=
  s.accs.any fun a => decide (a.src = .spire k launch) && (decide (a.state = 4) || decide (a.state = 8) || decide (a.state = 6))

/-- The next write or read of a job. -/
def State.spireSend (s : State) (k : Nat) (c : Ctx) : State :=
  match c.spire.job with
  | none => s
  | some j =>
    let base := c.spire.spillBase
    let go (kind : AKind) (o n : Nat) (data : List Byte) (j1 : SpJob) : State :=
      (s.setCtx k { c with spire := { c.spire with job := some { j1 with flight := j1.flight + 1 } } }).sendVa
        (Acc.new (.spire k c.launch) (s.partOf c) kind (wrap 48 ((base + o : Nat) : Int)) 0 n data (dieOfSp k))
    match j.writes, j.reads with
    | w :: l, _ => go .write w.1 w.2.length w.2 { j with writes := l }
    | [], o :: l => go .read o 64 [] { j with reads := l }
    | [], [] => s

/-- An access of the Spire has ended: bytes read back join the records; a failure ends the merge, and so does a record that breaks the
layout (13 R337, R339). -/
def State.spireLand (s : State) (k : Nat) (a : Acc) : State :=
  (s.dropAcc a.id).modOwner k ((a.src.owner.map (·.2)).getD 0) fun c =>
    let sp := c.spire
    let sp1 := { sp with job := sp.job.map fun j => { j with flight := j.flight - 1 } }
    let fail (st : Nat) : Spire := { sp1 with status := if sp1.status = 0 then st else sp1.status, job := sp1.job.map fun j => { j with writes := [], reads := [] } }
    { c with spire :=
      if a.status ≠ 0 then fail a.status
      else if a.kind = .read then
        match spOfBytes a.result with
        | none => fail stPoison
        | some x => { sp1 with back := KMap.ins (a.va - sp.spillBase) x sp1.back }
      else sp1 }

/-- The Spire stands at a key boundary of a merge of runs: the job goes on when the context resumes (13 R344). -/
def Spire.paused (sp : Spire) : Bool := sp.stopped && sp.job.any fun j => decide (j.kind = 2) || (decide (j.kind = 0) && decide (j.run.pass ≠ 0))

/-- SPIRE_RUN_WRITTEN: one cycle of the Spire's job: the accesses that have ended are counted, up to two beats are sent, and a run whose
beats have all been written enters the directory (13 R337, R338). -/
def execSpireRunWritten (k : Nat) (s : State) : Host.Outcome State Fault Refusal :=
  .next (s.withCtx k fun c =>
    let done := s.accs.filter fun a => decide (a.src = .spire k c.launch) && s.accDone a
    let s1 := done.foldl (fun t a => t.spireLand k a) s
    let send := fun (t : State) => if t.spireParked k c.launch || c.halted || c.spire.paused then t else t.withCtx k fun c => t.spireSend k c
    let s2 := send (send s1)
    s2.modCtx k fun c =>
      match c.spire.job with
      | none => c
      | some j =>
        if j.flight ≠ 0 ∨ !j.writes.isEmpty ∨ !j.reads.isEmpty then c
        else if j.kind = 1 ∨ c.spire.status ≠ 0 then { c with spire := { c.spire with job := none } }
        else if j.kind = 2 then c
        else
          let sp := c.spire
          { c with spire := { sp with job := none, runs := sp.runs ++ [j.run], free := sp.free + 64 * j.run.keys }.startDirectory })

/-! ## Merge passes (13 R340) -/

/-- The numbers of the runs that are merged next: the 16 live runs with the lowest numbers, or all of them. -/
def Spire.merging (sp : Spire) : List Nat := ((List.range sp.runs.length).filter fun e => (sp.runs.getD e ⟨0, 0, 0, false⟩).live).take 16

/-- The offsets of the records of a list of runs. -/
def Spire.recordsOf (sp : Spire) (l : List Nat) : List Nat :=
  (l.map fun e => let r := sp.runs.getD e ⟨0, 0, 0, false⟩; (List.range r.keys).map fun i => r.off + 64 * i).flatten

/-- The keys of a run as they have been read back; `none` where one is not above the key before it (13 R339). -/
def Spire.runKeys (sp : Spire) (e : Nat) : Option (List SpKey) :=
  let ks := (sp.recordsOf [e]).filterMap fun o => KMap.find o sp.back
  if (List.range (ks.length - 1)).all (fun i => match ks[i]?, ks[i + 1]? with
      | some a, some b => decide (a.key < b.key)
      | _, _ => true) then some ks else none

/-- SPIRE_MERGE_PASS: with no job, the runs to be merged are read back; once they are, they are combined into a new run, or, when
16 or fewer are live, into the keys to be emitted, and marked merged (13 R339, R340). -/
def execSpireMergePass (k : Nat) (s : State) : Host.Outcome State Fault Refusal :=
  .next (s.modCtx k fun c =>
    let sp := c.spire
    if sp.phase ≠ 3 ∨ sp.stopped ∨ sp.status ≠ 0 then c else
    let l := sp.merging
    match sp.job with
    | none => { c with spire := { sp with job := some ⟨2, [], sp.recordsOf l, 0, ⟨0, 0, 0, false⟩⟩, back := [] } }
    | some j =>
      if j.kind ≠ 2 ∨ j.flight ≠ 0 ∨ !j.reads.isEmpty then c else
      let ks := l.map sp.runKeys
      if ks.any (·.isNone) then { c with spire := { sp with status := stPoison, job := none } } else
      let all := (ks.filterMap id).flatten.foldl (fun w x => spInsert sp.float x w) []
      let more := decide (16 < (sp.runs.filter (·.live)).length)
      let runs := (List.range sp.runs.length).map fun e => let r := sp.runs.getD e ⟨0, 0, 0, false⟩; if l.contains e then { r with live := false } else r
      let sp1 : Spire := { sp with job := none, runs := runs, merged := l }
      { c with spire :=
        if more then { sp1.startRun all (sp.pass + 1) with pass := sp.pass + 1 }
        else { sp1.startDirectory with phase := 4, out := all, ready := s.now + 16 } })

/-! ## Emission (13 R340, R341) -/

/-- Bytes of a value. -/
def mergeValBytes (ty : Nat) : Nat := if ty = 1 then 2 else 4

/-- Bytes of output from offset `o` of BASE: they are kept until their beat of the SRF is written. -/
def Spire.put (sp : Spire) (o : Nat) (l : List Byte) : Spire :=
  { sp with outBuf := (List.range l.length).foldl (fun m i => KMap.ins (sp.outDesc.base + o + i) (l.getD i 0) m) sp.outBuf }

/-- The row-pointer entries up to entry `r`, each holding the number of keys emitted so far. -/
def Spire.putRows (sp : Spire) (r : Nat) : Spire :=
  { (List.range (r + 1 - sp.rowp)).foldl (fun (q : Spire) i => q.put (blk sp.block 32 4 + 4 * (sp.rowp + i)) (toBytes 4 sp.emitted)) sp with rowp := max sp.rowp (r + 1) }

/-- One key: dropped, or put out. -/
def Spire.emitKey (sp : Spire) (x : SpKey) : Spire :=
  let ty := mergeType sp.rs1; let csr := decide (mergeForm sp.rs1 = 0)
  let low := blk sp.block 24 4; let high := blk sp.block 28 4; let row := x.key / 2 ^ 32
  let limit := if blk sp.block 44 4 = 0 then 2 ^ 32 - 1 else blk sp.block 44 4
  let v := x.value ty
  let zero := decide (blk sp.block 18 2 % 2 = 1) && decide (x.acc = 0) && !x.nan && !x.pinf && !x.ninf && !x.marked
  if csr ∧ (row < low ∨ high ≤ row) then { sp with dropped := sp.dropped + 1 }
  else if zero then { sp with dropped := sp.dropped + 1 }
  else if limit ≤ sp.emitted then { sp with dropped := sp.dropped + 1, flags := flagOr sp.flags 16 }
  else
    let j := sp.emitted
    let q :=
      if csr then ((sp.putRows (row - low)).put (blk sp.block 36 4 + 4 * j) (toBytes 4 (x.key % 2 ^ 32))).put
        (blk sp.block 40 4 + mergeValBytes ty * j) (toBytes (mergeValBytes ty) v.1)
      else sp.put (16 * j) (toBytes 8 x.key ++ toBytes 8 v.1)
    { q with emitted := j + 1, flags := flagOr sp.flags v.2 }

/-- Up to `n` keys. -/
def Spire.emitKeys (sp : Spire) : Nat → Spire
  | 0 => sp
  | n + 1 =>
    match sp.out with
    | [] => sp
    | x :: l => ({ sp with out := l }.emitKey x).emitKeys n

/-- The arrays of the output: where each begins in the polder, and where it goes on. -/
def Spire.arrays (sp : Spire) : List (Nat × Nat) :=
  let b := sp.outDesc.base
  if mergeForm sp.rs1 ≠ 0 then [(b, b + 16 * sp.emitted)] else
  [(b + blk sp.block 32 4, b + blk sp.block 32 4 + 4 * sp.rowp), (b + blk sp.block 36 4, b + blk sp.block 36 4 + 4 * sp.emitted),
   (b + blk sp.block 40 4, b + blk sp.block 40 4 + mergeValBytes (mergeType sp.rs1) * sp.emitted)]

/-- More output may come into beat `x` of the polder: an array goes on inside it, or begins inside it beside another. -/
def Spire.beatOpen (sp : Spire) (x : Nat) : Bool :=
  sp.arrays.any fun a => (decide (a.2 / 64 = x) && decide (a.2 % 64 ≠ 0)) || (decide (1 < sp.arrays.length) && decide (a.1 / 64 = x) && decide (a.1 % 64 ≠ 0))

/-- The beats of the SRF whose output is whole, or all of them, are written, so that no read sees a part of one (14 R354). -/
def Spire.flush (sp : Spire) (m : KMap Row) (c : Ctx) (all : Bool) : KMap Row × Spire :=
  let go := fun (e : Nat × Byte) => all || !sp.beatOpen (e.1 / 64)
  ((sp.outBuf.filter go).foldl (fun m e => srfStore m c (sp.outDesc.polder.getD 0) e.1 [e.2]) m, { sp with outBuf := sp.outBuf.filter fun e => !go e })

/-- The whole output has been put out. -/
def Spire.emittedAll (sp : Spire) : Bool :=
  decide (sp.phase = 4) && sp.out.isEmpty && (decide (mergeForm sp.rs1 ≠ 0) || decide (blk sp.block 28 4 - blk sp.block 24 4 < sp.rowp))

/-- SPIRE_EMIT: up to 8 keys are emitted; after the last, the row-pointer array is written to its end, and the merge may complete on the next
cycle (13 R341, R342). -/
def execSpireEmit (k : Nat) (s : State) : Host.Outcome State Fault Refusal :=
  .next (s.withCtx k fun c =>
    let sp := c.spire
    if sp.phase ≠ 4 ∨ s.now < sp.ready ∨ sp.stopped ∨ sp.status ≠ 0 ∨ (sp.emittedAll ∧ sp.outBuf.isEmpty) then s else
    let q := sp.emitKeys 8
    let last := q.out.isEmpty
    let r := if last && decide (mergeForm sp.rs1 = 0) then q.putRows (blk sp.block 28 4 - blk sp.block 24 4) else q
    let f := r.flush (s.sp k).srf c last
    (s.modSp k fun p => { p with srf := f.1 }).setCtx k { c with spire := { f.2 with ready := if last then s.now + 1 else sp.ready } })

/-! ## Completion (13 R342) -/

/-- The result words, written into the merge's parameter block in control memory (13 R333). -/
def Spire.results (sp : Spire) : List Byte := toBytes 4 sp.emitted ++ toBytes 4 sp.dropped ++ toBytes 4 sp.runs.length ++ toBytes 4 sp.flags

/-- SPIRE_COMPLETE: the merge has written its output and its beats have been performed, or it has ended with a status: the result words
are written, the arrival word receives its target, and the Spire is idle (13 R342). -/
def execSpireComplete (k : Nat) (s : State) : Host.Outcome State Fault Refusal :=
  .next (s.withCtx k fun c =>
    let sp := c.spire
    if sp.phase = 0 ∨ sp.phase = 2 ∨ sp.job.isSome ∨ sp.stopped ∨ !(sp.emittedAll && decide (sp.ready ≤ s.now) || decide (sp.status ≠ 0)) then s else
    let s1 := s.modSp k fun p => { p with cm := bytesWrite p.cm (bits sp.rs1 32 18 + 48) sp.results }
    (s1.setCtx k { c with spire := Spire.init }).mergeDone k sp.seq sp.status)

/-! ## The stop for a pre-emption (13 R344) -/

/-- The Spire at a record or key boundary, its window spilled as a run of pass 0: with the keys that wait to be emitted where no run has
been written; a refused spill ends the merge. -/
def Spire.preempt (sp : Spire) : Spire :=
  if sp.phase = 1 ∨ sp.phase = 2 then
    (if sp.window.isEmpty then { sp with stopped := true } else { sp.startRun sp.window 0 with window := [], stopped := true })
  else if sp.phase = 4 ∧ sp.runs.isEmpty ∧ !sp.out.isEmpty then { sp.startRun sp.out 0 with out := [], phase := 3, stopped := true }
  else { sp with stopped := true }

/-- The Spire may stop at once: no spill and no directory is being written, or it stands in a merge of runs, which goes on from the key that it has
reached. -/
def Spire.mayStop (sp : Spire) : Bool := sp.job.all fun j => decide (j.kind = 2) || (decide (j.kind = 0) && decide (j.run.pass ≠ 0))

/-- SPIRE_PREEMPT_STOP: with a pre-emption pending, the Spire takes no more records, and stops at a key boundary, or once no spill is being sent; what it
has put out is written (13 R344). -/
def execSpirePreemptStop (k : Nat) (s : State) : Host.Outcome State Fault Refusal :=
  .next (s.withCtx k fun c =>
    if c.preempt.isNone ∨ c.spire.stopped ∨ c.spire.phase = 0 ∨ !c.spire.mayStop then s else
    let sp := if c.spire.job.isSome then { c.spire with stopped := true } else c.spire.preempt
    let f := sp.flush (s.sp k).srf c true
    (s.modSp k fun p => { p with srf := f.1 }).setCtx k { c with spire := f.2 })

/-! ## The small state (13 R344) -/

/-- The key in the combining stage of a merge of runs: the next that it emits, or writes. -/
def Spire.combining (sp : Spire) : Option SpKey :=
  if sp.phase = 4 then (if sp.runs.isEmpty then none else sp.out.head?)
  else (sp.job.filter fun j => decide (j.kind = 0) && decide (j.run.pass ≠ 0)).bind fun j => j.writes.head?.bind fun w => spOfBytes w.2

/-- Keys consumed of each of the runs that are being merged: those up to the key in the combining stage. -/
def Spire.consumed (sp : Spire) : List Nat :=
  if sp.job.any fun j => decide (j.kind = 2) then [] else
  sp.merged.map fun e => ((sp.runKeys e).getD []).countP fun x => match sp.combining with
    | none => true
    | some y => decide (x.key ≤ y.key)

end Sys2Proof.Machine
end

