-- ==== Sys2Proof/Machine/Issue.lean ====
section
/-! DEFINITION. Issue from the scoreboard to the units (06 R135, R138, R140), and the microprogram command (07 R176, 11 R296). -/

namespace Sys2Proof.Machine

/-! ## MLOAD -/

/-- Words of a microprogram in linear memory, from an IA. -/
def State.memWords (s : State) (a n : Nat) : List Dword := (List.range n).map fun i => BitVec.ofNat 64 (s.memNat (a + 8 * i) 8)

/-- The words of the store that entry `n` of the routine table does not need, in rising order of their ranges: the ranges in use. -/
def Sp.usedRanges (p : Sp) (n : Nat) : List (Nat × Nat) :=
  ((List.range 256).filter (· ≠ n)).filterMap fun i => let q := p.tableEntry i; if q.2 = 0 then none else some q

/-- The lowest place in the store for `len` words, clear of the other entries. -/
def Sp.storePlace (p : Sp) (n len : Nat) : Option Nat :=
  (0 :: (p.usedRanges n).map fun q => q.1 + q.2).filter (fun a => decide (a + len ≤ 4096) && !(p.usedRanges n).any fun q => overlap a len q.1 q.2)
    |>.foldl (fun b a => match b with | none => some a | some x => some (min x a)) none

/-- The store with words written from `a` up. -/
def writeStore (m : KMap Dword) (a : Nat) : List Dword → KMap Dword
  | [] => m
  | w :: l => writeStore (KMap.put 0 m a w) (a + 1) l

/-- The store with its routines moved together, so that its free words stand in one piece beside entry `n`, whose words are about to be
replaced. The library's entry 1 stays at word 0 while it stands as installed. -/
def Sp.compact (p : Sp) (n : Nat) : Sp :=
  let lib := (KMap.find 1 p.rtab).isNone && decide (n ≠ 1)
  let es := (List.range 256).filter fun i => decide (i ≠ n) && !(lib && decide (i = 1)) && decide ((p.tableEntry i).2 ≠ 0)
  let r := es.foldl (fun (q : Nat × KMap Dword × KMap (Nat × Nat)) i =>
    let w := (p.routineWords i).getD []
    (q.1 + w.length, writeStore q.2.1 q.1 w, KMap.ins i (q.1, w.length) q.2.2)) (if lib then (libraryWords 1).length else 0, p.ustore, p.rtab)
  { p with ustore := r.2.1, rtab := r.2.2 }

/-- A place for `len` words of entry `n`, in the store as it stands or moved together. -/
def Sp.makePlace (p : Sp) (n len : Nat) : Sp × Option Nat :=
  match p.storePlace n len with
  | some a => (p, some a)
  | none => let q := p.compact n; (q, q.storePlace n len)

/-- MLOAD_COMPLETE: the words stand in the store, the routine table's entry names them, and the command completes (06 R140). -/
def execMloadComplete (k : Nat) (s : State) : Host.Outcome State Fault Refusal :=
  .next (s.withCtx k fun c =>
    match c.sb.find? fun e => decide (e.cls = clsMicro) && decide (e.state = .running) with
    | none => s
    | some e =>
      if s.now < e.size then s else
      let n := bits e.rs2 0 8; let len := bits e.rs2 8 12 + 1
      match (s.part (s.partOf c)).bind fun p => ((List.range len).map fun i => e.rs1.toNat + 8 * i).find? p.absent with
      | some a => s.askPage (s.partOf c) (dieOfPa a) (a / 0x10000)
      | none =>
      (s.modSp k fun p =>
        match p.makePlace n len with
        | (p, none) => p
        | (p, some a) => { p with
            ustore := writeStore p.ustore a (s.memWords e.rs1.toNat len), rtab := KMap.ins n (a, len) p.rtab,
            installed := if 128 ≤ n then none else p.installed }).modCtx k fun c => c.dropEntry e.seq)

/-! ## Issue -/

/-- A free unit of a class (06 R135; 10 R271; 07 R176; 13 R343). -/
def State.unitFree (s : State) (k : Nat) (c : Ctx) (cls : Nat) : Bool :=
  let runs := fun (n : Nat) => c.entries.any fun e => decide (e.cls = n) && decide (e.state = .running)
  if cls = clsCopy then c.kern.kcq.isEmpty && decide ((s.sp k).agUsed < 2)
  else if cls = clsKernel then !runs clsKernel && c.preempt.isNone
  else if cls = clsMerge then !runs clsMerge && !c.spire.stopped && (decide (c.spire.phase = 0) || decide (c.spire.phase = 2)) && c.spire.job.isNone
  else !runs clsKernel && !runs clsMicro

/-- The oldest command of a class that may issue (06 R138). -/
def Ctx.issuable (c : Ctx) (cls : Nat) : Option Entry :=
  c.entries.find? fun e => decide (e.cls = cls) && (decide (e.state = .waiting) || decide (e.state = .haltOnIssue)) && !c.conflicts e.seq e.reads e.writes

/-- A command issues to its unit. A kernel-class command begins at the rendezvous of its tower; a KHALT that met it while it waited is
remembered as its status (06 R150). -/
def State.issueEntry (s : State) (k : Nat) (e : Entry) : State :=
  let q := s.fresh
  let s1 := if e.cls = clsMicro then q.2 else s
  let s2 := s1.modCtx k fun c => c.modEntry e.seq fun e =>
    { e with
      state := .running, issued := s.now, status := if e.state = .haltOnIssue then stHalted else e.status,
      tail0 := ((c.descPolder e.desc).map fun p => p.tail).getD 0,
      size := if e.cls = clsMicro then s.now + 48 + Config.freeNat q.1 else e.size }
  if e.cls = clsMerge then s2.spireBegin k e else s2

/-- The oldest command of a class issues, if its unit is free and it was entered on an earlier cycle. -/
def State.issueClass (s : State) (k cls : Nat) : State :=
  s.withCtx k fun c =>
    if c.halted || !s.unitFree k c cls then s else
    match c.issuable cls with
    | none => s
    | some e => s.issueEntry k e

/-- SCOREBOARD_ISSUE: each class issues at most one command in a cycle (06 R138). -/
def execScoreboardIssue (k : Nat) (s : State) : Host.Outcome State Fault Refusal :=
  .next ([clsCopy, clsKernel, clsMerge, clsMicro].foldl (fun t n => t.issueClass k n) s)

end Sys2Proof.Machine
end

