-- ==== Sys2Proof/Machine/Launch.lean ====
section
/-! DEFINITION. The launch engine (02 R53 to R68; 03 R70 to R73, R80, R81; 12 R309; 11 R297; 15 R379, R380): the checks of a LAUNCH, what a
launch needs to start, its start, placement passes with pre-emption for priority, and the start of tasks. -/

namespace Sys2Proof.Machine

/-! ## Space of a partition -/

/-- `a` rounded up to a multiple of `n`. -/
def alignUp (a n : Nat) : Nat := (a + n - 1) / n * n

/-- Ranges that a new allocation must avoid: those in use, and the translation block. -/
def Part.busyRanges (p : Part) : List (Nat × Nat) := p.used.map (·.2) ++ (p.tblock.map fun a => (a, 0x10000)).toList

/-- The least of a list. -/
def least : List Nat → Option Nat
  | [] => none
  | a :: l => some (l.foldl min a)

/-- The lowest free address, a multiple of `align`, of `len` bytes in a list of ranges (12 R309). -/
def Part.lowestFree (p : Part) (ranges : List (Nat × Nat)) (align len : Nat) : Option Nat :=
  let busy := p.busyRanges
  least (((ranges.map (·.1) ++ busy.map fun r => r.1 + r.2).map fun a => alignUp a align).filter fun a =>
    inRanges ranges a len && !busy.any fun r => overlap a len r.1 r.2)

/-- Bytes of a save area and of the context record after it (03 R81, 19 R410). -/
abbrev saveBytes : Nat := 0x600000
abbrev recordBytes : Nat := 0x940000

/-! ## Segments (01 R27, 12 R309) -/

/-- The SEGTAB entry at byte `o` as a segment at an IA; a sync object binds it only where it is shared (14 R365). -/
def segEntry (t : List Byte) (o ia : Nat) (valid : Bool) : Segment :=
  let f := field t (o + 16) 4
  { base := field t o 8, len := field t (o + 8) 8, ia := ia, read := decide (f % 2 = 1), write := decide (f / 2 % 2 = 1), kind := f / 16 % 4,
    pageable := decide (f / 4 % 2 = 1), valid := valid, sync := if f / 8 % 2 = 1 then field t (o + 20) 2 else 0xFFFF }

/-- An imported base is a multiple of 4 KiB, outside the hole, and of the class that the pageable flag states; a window of a peer has both
(12 R309). -/
def importValid (ia : Nat) (pageable : Bool) : Bool :=
  decide (ia % 4096 = 0) && decide (ia < 2 ^ 52) && !iaHole ia
    && (decide (iaWindow ia ≠ 0) || (if pageable then decide (2 ^ 40 ≤ ia) else iaLinear ia))

/-- The memory of the partition that the imported segments of a launch name: it is no free space while the launch lives (03 R81; 12 R307). -/
def Launch.imports (l : Launch) (t : List Byte) : List (Nat × Nat × Nat) :=
  (List.range (t.length / 32)).filterMap fun i =>
    let g := segEntry t (32 * i) 0 true
    let ia := (l.args.getD (field t (32 * i + 25) 1) 0).toNat
    if g.kind = 1 ∧ importValid ia g.pageable ∧ iaWindow ia = 0 then some (l.id, ia, g.len) else none

/-- The segments of a launch placed one after the other: the segments, and the partition with their space in use. -/
def placeSegs (l : Launch) (t : List Byte) : Nat → Part → List Segment → Option (Part × List Segment)
  | 0, p, acc => some (p, acc)
  | n + 1, p, acc =>
    let o := 32 * acc.length
    let g := segEntry t o 0 true
    if g.kind = 1 then
      let ia := (l.args.getD (field t (o + 25) 1) 0).toNat
      placeSegs l t n p (acc ++ [{ g with ia := ia, valid := importValid ia g.pageable }])
    else
      match if g.pageable then p.lowestFree p.paged (2 ^ pageBits (field t (o + 24) 1)) g.len else p.lowestFree p.linear 0x10000 g.len with
      | none => none
      | some a => placeSegs l t n { p with used := p.used ++ [(l.id, a, g.len)] } (acc ++ [{ g with ia := a }])

/-- The save area and context record of each SP (03 R81, 19 R410). -/
def placeSaves (id : Nat) : List Nat → Part → KMap Nat → Option (Part × KMap Nat)
  | [], p, acc => some (p, acc)
  | k :: ks, p, acc =>
    match p.lowestFree p.linear 0x10000 (saveBytes + recordBytes) with
    | none => none
    | some a => placeSaves id ks { p with used := p.used ++ [(id, a, saveBytes + recordBytes)] } (KMap.ins k a acc)

/-! ## SPs (03 R70 to R73) -/

/-- The SP is free: it holds no context of any launch. -/
def Sp.isFree (p : Sp) : Bool := p.held.isNone && p.ctx.isNone && p.left.isNone && p.victims.isEmpty

/-- A launch may take the SP: it is free, or its context has been pre-empted for the launch and saved, and no other launch has taken it since
(03 R70). -/
def State.canTake (s : State) (l : Launch) (k : Nat) : Bool :=
  let p := s.sp k
  p.isFree || (l.wants.contains k && p.ctx.isNone && p.left.isNone && (p.victims.all fun v => decide (v.place = 1) || decide (v.place = 2))
    && p.held.all fun h => p.victims.any fun v => decide (v.ctx.launch = h))

/-- Members of a tower of a launch. -/
def Launch.towerSize (l : Launch) : Nat := [1, 2, 4].getD l.twr 1

/-- The SPs of a mask, in rising order. -/
def maskSps (m : Nat) : List Nat := (List.range 160).filter fun k => decide (m / 2 ^ k % 2 = 1)

/-- The SPs that a launch receives when `avail` may be taken (03 R71); each belongs to its partition (02 R49). -/
def Launch.pickSps (l : Launch) (sps : List Nat) (avail : Nat → Bool) : Option (List Nat) :=
  if l.setf then
    let ks := maskSps l.mask
    if ks.all fun k => sps.contains k && avail k then some ks else none
  else
    let n := l.towerSize
    let slots := (List.range 160).filter fun k => decide (k % n = 0) && (List.range n).all fun i => sps.contains (k + i) && avail (k + i)
    if slots.length * n < l.count then none
    else some ((slots.take (l.count / n)).flatMap fun k => (List.range n).map (k + ·))

/-! ## Groups and dike ports (02 R62) -/

/-- The groups of an object with a member below the rank count, in rising order of their numbers: number, port asked for, ranks. -/
def Code.liveGroups (c : Code) (count : Nat) : List (Nat × Nat × List Nat) :=
  (List.range 256).filterMap fun g =>
    (c.grptab.find? fun e => decide (e.1.getD 0 0 = g)).bind fun e =>
      let m := e.2.filter (· < count)
      if m.isEmpty then none else some (g, e.1.getD 1 0xFF, m)

/-- The lowest free entries of a group table for a list of groups. -/
def freeEntries (p : Part) (n : Nat) : Option (List Nat) :=
  let l := (List.range 256).filter fun i => (KMap.find i p.groups).isNone
  if l.length < n then none else some (l.take n)

/-- Dike ports given: SP, port, group table entry, local group. -/
abbrev PortGift := Nat × Nat × Nat × Nat

/-- The port is taken at an SP, by another launch or in what has been given. -/
def State.portTaken (s : State) (given : List PortGift) (k port : Nat) : Bool :=
  (KMap.find port (s.sp k).dikes).isSome || given.any fun q => decide (q.1 = k) && decide (q.2.1 = port)

/-- One port given to each SP of a list, by a choice for each; none where a choice fails. -/
def givePorts (choose : List PortGift → Nat → Option Nat) (entry g : Nat) : List Nat → List PortGift → Option (List PortGift)
  | [], acc => some acc
  | k :: ks, acc =>
    match choose acc k with
    | none => none
    | some p => givePorts choose entry g ks (acc ++ [(k, p, entry, g)])

/-- The two passes over the groups, each with its entry and member SPs (02 R62). -/
def State.allPorts (s : State) (gs : List (Nat × Nat × Nat × List Nat)) : Option (List PortGift) :=
  let fixedFor := fun (k port : Nat) => gs.any fun q => decide (q.2.2.1 = port) && q.2.2.2.contains k
  let one := fun (acc : Option (List PortGift)) (q : Nat × Nat × Nat × List Nat) => acc.bind fun a =>
    if q.2.2.1 < 4 then givePorts (fun given k => if s.portTaken given k q.2.2.1 then none else some q.2.2.1) q.2.1 q.1 q.2.2.2 a
    else givePorts (fun given k => (List.range 4).find? fun port => !s.portTaken given k port && !fixedFor k port) q.2.1 q.1 q.2.2.2 a
  (gs.filter fun q => decide (4 ≤ q.2.2.1)).foldl one ((gs.filter fun q => decide (q.2.2.1 < 4)).foldl one (some []))

/-! ## Slot tables (01 R30, 15 R379, R380) -/

/-- A number of a slot entry exists at the router of an SP. -/
def routerHas (k n : Nat) : Bool :=
  let row := k % 40 / 8; let col := k % 8
  match n with
  | 0 => true
  | 1 => decide (row ≠ 0)
  | 2 => decide (col ≠ 7)
  | 3 => decide (row ≠ 4)
  | 4 => decide (col ≠ 0)
  | 5 => decide (row = 0)
  | _ => false

/-- The target of a slot record: the SP of its rank, or 256 plus the port. -/
def slotTarget (sps : List Nat) (kind n : Nat) : Option Nat := if kind = 1 then some (256 + n) else sps[n]?

/-- An entry `io`, input × 16 + output, is loaded at a target; otherwise it is loaded as free. -/
def slotLoads (target io : Nat) : Bool :=
  let a := io / 16; let b := io % 16
  if target < 256 then routerHas target a && routerHas target b
  else decide (a ≤ 8) && decide (b ≤ 8) && (decide (a = (target - 256) % 8) || decide (b = (target - 256) % 8))

/-- The slots that a launch on the given SPs takes: target, slot and connection. It owns the slot of every non-free entry of its SLOTTAB,
those that are loaded as free among them (15 R379, R380; DEDUCED, log 23). -/
def Code.slotsFor (c : Code) (sps : List Nat) : List (Nat × Nat × Nat) :=
  c.slottab.filterMap fun q => (slotTarget sps q.1 q.2.1).bind fun t => some (t, q.2.2.1, q.2.2.2)

/-- A slot is owned. -/
def State.slotOwned (s : State) (target slot : Nat) : Bool := s.launches.any fun l => l.slots.contains (target, slot)

/-! ## The plan of a start -/

/-- What a launch takes when it starts. -/
structure Plan where
  sps : List Nat
  entries : List (Nat × Nat × Nat × List Nat)
  ports : List PortGift
  slots : List (Nat × Nat × Nat)
  segs : List Segment
  saves : KMap Nat
  part : Part
deriving DecidableEq, Repr

/-- The plan of a launch, if everything that it needs is free when the SPs of `avail` may be taken (02 R58, R60, R62; 03 R71, R81;
12 R309; 15 R380). -/
def State.planFor (s : State) (l : Launch) (c : Code) (p : Part) (avail : Nat → Bool) : Option Plan :=
  match l.pickSps p.sps avail with
  | none => none
  | some sps =>
    let live := c.liveGroups l.count
    match freeEntries p live.length with
    | none => none
    | some es =>
      let gs := (List.range live.length).map fun i =>
        let q := live.getD i (0, 0, [])
        (q.1, es.getD i 0, q.2.1, q.2.2.map fun r => sps.getD r 0)
      let slots := c.slotsFor sps
      match s.allPorts gs with
      | none => none
      | some ports =>
        if slots.any (fun q => s.slotOwned q.1 q.2.1) then none else
        match placeSegs l c.segtab (c.segtab.length / 32) { p with used := p.used ++ l.imports c.segtab } [] with
        | none => none
        | some (p1, segs) =>
          match placeSaves l.id sps p1 [] with
          | none => none
          | some (p2, saves) => some ⟨sps, gs, ports, slots, segs, saves, p2⟩

/-! ## Routines of the store (11 R297) -/

/-- The routines of a handle written into entries 128 + i, every other entry from 128 to 255 emptied; nothing where they stand already. -/
def Sp.install (p : Sp) (c : Code) : Sp :=
  if p.installed = some c.handle then p else
  let p0 := { p with rtab := p.rtab.filter fun e => decide (e.1 < 128), installed := some c.handle }
  ((List.range c.routines.length).foldl (fun (q : Sp) i =>
    let w := c.routines.getD i []
    match q.makePlace (128 + i) w.length with
    | (q, none) => q
    | (q, some a) => { q with ustore := writeStore q.ustore a w, rtab := KMap.ins (128 + i) (a, w.length) q.rtab }) p0)

/-- Cycles of that writing: 8 words per cycle. -/
def Sp.installCycles (p : Sp) (c : Code) : Nat := if p.installed = some c.handle then 0 else ((c.routines.map List.length).sum + 7) / 8

/-! ## Contexts -/

/-- The control memory of the pre-empted context that owns it is claimed into its context record: all 256 KiB, in 256 cycles (19 R419). -/
def Sp.claimCm (p : Sp) : Sp :=
  { p with victims := p.victims.map fun v => if v.cm.isNone then { v with cm := some p.cm } else v }

/-- A range of memory emptied and the listed bytes of a store written there. -/
def Memory.store (m : List Host.Cell) (a n : Nat) (b : KMap Byte) : List Host.Cell :=
  b.foldl (fun m e => if e.1 < n then KMap.put 0 m (a + e.1) e.2 else m) (m.filter fun e => !(decide (a ≤ e.1) && decide (e.1 < a + n)))

/-- The address of image `i` of the context record of a launch on SP `k`; image 9 stands for control memory (19 R410). -/
def State.recordAt (s : State) (launch k i : Nat) : Option Nat :=
  ((s.launchOf launch).bind fun l => KMap.find k l.saves).map fun a => a + saveBytes + i * 0x100000

/-- The bytes of control memory that the claim of SP `k` saves, in the context records (19 R419). -/
def State.saveCm (s : State) (k : Nat) : State :=
  (s.sp k).victims.foldl (fun t v => match v.cm, s.recordAt v.ctx.launch k 9 with
    | none, some a => (t.keepOwn a 0x40000).memChange a 0x40000 fun m => Memory.store m a 0x40000 (s.sp k).cm
    | _, _ => t) s

/-- Some pre-empted context's control memory has not been claimed. -/
def Sp.cmUnclaimed (p : Sp) : Bool := p.victims.any fun v => v.cm.isNone

/-- A context of a launch at rank `r` with the state of 02 R55 and the code registers of 01 R25. -/
def Launch.newCtx (l : Launch) (c : Code) (r entry : Nat) : Ctx :=
  { Ctx.init with
    launch := l.id, rank := r, pc := BitVec.ofNat 64 entry,
    x := [(2, 0x38000), (10, BitVec.ofNat 64 r), (11, BitVec.ofNat 64 l.count), (12, 0x38000)],
    cbase := BitVec.ofNat 64 c.base, cbound := BitVec.ofNat 64 (c.base + c.admitted), cceil := BitVec.ofNat 64 (c.base + c.len),
    sysb := c.system, mwdog := c.wdog, profile11 := decide (c.profile = 0x101) }

/-- Sequence numbers at an SP start above those of its pre-empted contexts. -/
def Sp.firstSeq (p : Sp) : Nat := (p.victims.map fun v => v.ctx.seq + 1).foldl max 0

/-- A declared polder placed for a context at its start, at the base that the loader found in an empty SRF: at once where no pre-empted context
holds the space, else after the claims and its fill (01 R31; 03 R80, R82). -/
def Sp.declare (p : Sp) (own : KMap Polder) (e : PoldecE) : KMap Polder :=
  match placePolder Sp.init own e.log2 with
  | none => own
  | some b =>
    let q := Polder.fresh e.kind e.log2 b false
    let free := !p.victimRanges.any fun r => overlap b (shareOf e.log2) r.1 r.2
    KMap.ins e.handle (if free then { q with fill := 0 } else q) own

/-- Words of the launch region (02 R56, R57). -/
def Launch.words (l : Launch) (c : Code) (task : List Byte) : List Byte :=
  toBytes 8 l.tag ++ toBytes 8 l.id ++ toBytes 8 l.handle ++ toBytes 1 l.part ++ toBytes 1 l.vf ++ toBytes 1 l.queue ++ toBytes 1 l.prio
    ++ toBytes 2 l.count ++ toBytes 1 l.towerSize ++ toBytes 1 (c.profile % 256) ++ (task ++ List.replicate (32 - task.length) 0).take 32

/-- The group map of an SP. -/
def groupMapBytes (ports : List PortGift) (k : Nat) : List Byte :=
  (List.range 256).flatMap fun g =>
    match ports.find? fun q => decide (q.1 = k) && decide (q.2.2.2 = g) with
    | none => toBytes 2 0
    | some q => toBytes 2 (0x8000 + q.2.1 * 256 + q.2.2.1)

/-- The rank map. -/
def rankMapBytes (sps : List Nat) : List Byte := (List.range 160).flatMap fun r => toBytes 2 (sps.getD r 0xFFFF)

/-- The launch region from 0x3_8000 up. -/
def Launch.region (l : Launch) (c : Code) (ports : List PortGift) (k : Nat) : List Byte :=
  (l.args.flatMap fun a => toBytes 8 a.toNat) ++ l.words c [] ++ groupMapBytes ports k ++ rankMapBytes l.ranks ++ List.replicate 64 0
    ++ (c.segtab ++ List.replicate (2048 - c.segtab.length) 0)

/-- The first context of a rank starts on an SP. -/
def Sp.begin (p0 : Sp) (l : Launch) (c : Code) (ports : List PortGift) (r k : Nat) : Sp :=
  let wait := p0.installCycles c + if p0.cmUnclaimed then 256 else 0
  let p := (p0.claimCm).install c
  let pols := c.polders.foldl p.declare []
  let srf := pols.foldl (fun m e => if e.2.fill = 0 then clearPolder m e.2 else m) p.srf
  let n := l.towerSize
  { p with
    ctx := some { l.newCtx c r l.entry with polders := pols, seq := p.firstSeq, busy := wait },
    held := some l.id, idle := false, left := none, srf := srf,
    cm := bytesWrite (bytesWrite p.cm 0 c.ctrl) 0x38000 (l.region c ports k),
    dikes := (ports.filter fun q => decide (q.1 = k)).foldl (fun m q => KMap.ins q.2.1 q.2.2.1 m) p.dikes,
    ranges := [], tower := if n = 1 then [] else (List.range n).map fun i => k / n * n + i, fused := decide (n ≠ 1), line := [] }

/-! ## Initial data (01 R28, 12 R309) -/

/-- Memory cells of a range taken away: every byte there reads 0. -/
def Memory.clear (m : List Host.Cell) (a n : Nat) : List Host.Cell := m.filter fun e => !(decide (a ≤ e.1) && decide (e.1 < a + n))

/-- The bytes of DATA for segment `i` of an object, if it is of kind 2. -/
def Code.initial (c : Code) (i : Nat) : List Byte :=
  ((c.data.find? fun q => decide (q.1 = field c.segtab (32 * i + 22) 2)).map (·.2)).getD []

/-- The initial data of a launch: linear segments are written, and the copy of each pageable one is begun. -/
def State.copyInitial (s : State) (l : Launch) (c : Code) : Nat → State
  | 0 => s
  | i + 1 =>
    let t := s.copyInitial l c i
    match l.segs[i]? with
    | none => t
    | some g =>
      if g.kind ≠ 2 then t
      else if g.pageable then
        { t with
          nextAcc := t.nextAcc + 1,
          xfrs := t.xfrs ++ [{ id := t.nextAcc, launch := l.id, vf := l.vf, seq := 0, tag := 0, addr := 0, port := 0, part := l.part, write := true, ia := g.ia, len := g.len, left := g.len,
                               data := c.initial i, parked := false, cancelled := false }] }
      else { ((t.keepOwn g.ia g.len).memChange g.ia g.len fun m => Memory.write (Memory.clear m g.ia g.len) g.ia (c.initial i)) with
        poison := t.poison.filter fun x => !(decide (g.ia ≤ 64 * x) && decide (64 * x < g.ia + g.len)) }

/-! ## The start (02 R58) -/

/-- A placement pass of a partition comes next (02 R60). -/
def State.passSoon (s : State) (p : Nat) : State :=
  if s.inbox.contains (.placementPass p) then s else { s with inbox := s.inbox ++ [.placementPass p] }

/-- The controllers of a launch are released at their entries. -/
def State.beginLaunch (s : State) (l : Launch) (c : Code) : State :=
  let ports : List PortGift := l.groups.flatMap fun g => (List.range l.ranks.length).filterMap fun r =>
    let k := l.ranks.getD r 0
    ((s.sp k).dikes.find? fun q => decide (q.2 = g.2)).map fun q => (k, q.1, g.2, g.1)
  let s1 := (List.range l.ranks.length).foldl (fun t r => let k := l.ranks.getD r 0; (t.saveCm k).modSp k fun p => p.begin l c ports r k) s
  (s1.modLaunch l.id fun l => { l with state := 1, started := s.now, t := l.count * 2 ^ 32, ret := 0,
                                       order := ((s.launches.map (·.order)).foldl max 0) + 1 }).passSoon l.part

/-- A launch takes what its plan names; it starts, or waits for the copy of its initial data first. -/
def State.startLaunch (s : State) (l0 : Launch) (c : Code) (q : Plan) : State :=
  let l := { l0 with ranks := q.sps, segs := q.segs, saves := q.saves, groups := q.entries.map (fun e => (e.1, e.2.1)), slots := q.slots.map (fun e => (e.1, e.2.1)), state := 3 }
  let s1 := s.modLaunch l.id fun _ => l
  let s2 := s1.setPart l.part { q.part with
    groups := q.entries.foldl (fun m e => KMap.ins e.2.1 { launch := l.id, members := e.2.2.2, arrived := [], last := 0, full := false, pool := [] } m) q.part.groups,
    lastStart := KMap.ins l.prio (l.vf, l.queue) q.part.lastStart }
  let s3 := q.slots.foldl (fun t e =>
    let v := (e.2.2 / 16, e.2.2 % 16, l.id)
    if !slotLoads e.1 e.2.2 then t
    else if e.1 < 256 then t.modSp e.1 fun p => { p with router := KMap.ins e.2.1 v p.router }
    else t.modPort (e.1 - 256) fun p => { p with slots := KMap.ins e.2.1 v p.slots }) s2
  let s4 := q.sps.foldl (fun t k => t.modSp k fun p =>
    { p with
      victims := p.victims.map fun v => if p.held = some v.ctx.launch then { v with tower := p.tower, fused := p.fused, line := p.line, lineAt := p.lineAt } else v,
      held := some l.id, dikes := (q.ports.filter fun g => decide (g.1 = k)).foldl (fun m g => KMap.ins g.2.1 g.2.2.1 m) p.dikes }) s3
  let s5 := s4.copyInitial l c l.segs.length
  if s5.xfrs.any fun x => decide (x.launch = l.id) then s5 else s5.beginLaunch l c

/-! ## Placement passes (02 R59 to R61) -/

/-- The eligible head of a queue (02 R59). -/
def State.headOf (s : State) (vf queue : Nat) : Option Launch :=
  let l := s.launches.filter fun l => decide (l.vf = vf) && decide (l.queue = queue)
  match l.find? fun x => decide (x.state = 0) || decide (x.state = 3) with
  | none => none
  | some h => if h.state = 3 ∨ (h.bar ∧ (l.head?.map (·.id)) ≠ some h.id) then none else some h

/-- The eligible heads of a partition at a priority, round-robin from after the pair that last started at it (02 R60). -/
def State.headsAt (s : State) (part prio : Nat) : List Launch :=
  let last := match (s.part part).bind fun p => KMap.find prio p.lastStart with
    | none => 511
    | some q => q.1 * 8 + q.2
  (List.range 512).filterMap fun i =>
    let n := (last + 1 + i) % 512
    if (s.vf (n / 8)).part = some part then (s.headOf (n / 8) (n % 8)).filter fun l => decide (l.prio = prio) else none

/-- The order in which a pass considers the heads. -/
def State.passOrder (s : State) (part : Nat) : List Launch := [3, 2, 1, 0].flatMap fun q => s.headsAt part q

/-- A pre-empted launch of the partition, other than by a freeze, is of the priority of a head or higher: it resumes first (02 R61). -/
def State.resumeFirst (s : State) (h : Launch) : Bool :=
  s.launches.any fun l => decide (l.part = h.part) && decide (l.state = 1) && decide (h.prio ≤ l.prio)
    && l.ranks.any fun k => (s.sp k).victims.any fun v => decide (v.ctx.launch = l.id)

/-- Launches that may be pre-empted for a head of priority 3: running, of priority 0 or 1, lowest priority first, then latest start first. -/
def State.preemptable (s : State) (part : Nat) : List Launch :=
  [0, 1].flatMap fun q =>
    ((s.launches.filter fun l => decide (l.part = part) && decide (l.state = 1) && decide (l.prio = q)).mergeSort fun a b => decide (b.order ≤ a.order))

/-- The SPs on which a launch runs a context. -/
def State.runsOn (s : State) (l : Launch) : List Nat := l.ranks.filter fun k => (s.ctx k).any fun c => decide (c.launch = l.id)

/-- The fewest launches, in order, whose SPs would let a head start: the SPs to be pre-empted. The order alone chooses (02 R61): a launch none of
whose SPs a head in the mask form can use is taken too where it comes before one that the head needs (log 40). -/
def State.preemptFor (s : State) (h : Launch) (c : Code) (p : Part) : List Launch → List Nat → Option (List Nat)
  | [], _ => none
  | l :: ls, ks =>
    let ks1 := ks ++ s.runsOn l
    if (s.planFor h c p fun k => s.canTake h k || ks1.contains k).isSome then some ks1 else s.preemptFor h c p ls ks1

/-- One head is considered: it starts if its resources are free and no other blocking head or pre-empted launch stands before it; else it
is passed over, and a head of priority 3 that lacks only SPs asks for pre-emption. -/
def State.consider (s : State) (blockers : List Launch) (h0 : Launch) : State :=
  match s.launchOf h0.id with
  | none => s
  | some h =>
    let passed := s.modLaunch h.id fun l => { l with passes := l.passes + 1 }
    let mine := blockers.any fun b => decide (b.id = h.id)
    let before := (if mine then blockers.takeWhile fun b => decide (b.id ≠ h.id) else blockers).any fun b => decide (h.prio ≤ b.prio) && (s.launchOf b.id).any fun b => decide (b.state = 0)
    match s.part h.part, s.codeOf h with
    | some p, some c =>
      if before || s.resumeFirst h then passed else
      match s.planFor h c p fun k => s.canTake h k with
      | some q => s.startLaunch h c q
      | none =>
        if h.prio = 3 ∧ h.wants.isEmpty then
          match s.preemptFor h c p (s.preemptable h.part) [] with
          | none => passed
          | some ks =>
            let s1 := passed.modLaunch h.id fun l => { l with wants := ks }
            { s1 with inbox := s1.inbox ++ ks.map .preemptRequest }
        else passed
    | _, _ => passed

/-- PLACEMENT_PASS (02 R60): the heads as they stand at its start, in their order; a migrating source starts none (23 R450). -/
def execPlacementPass (part : Nat) (s : State) : Host.Outcome State Fault Refusal :=
  .next (
    if (s.part part).all fun p => decide (p.migr.role = 1) && decide (2 ≤ p.migr.phase) then s else
    let heads := s.passOrder part
    heads.foldl (fun t h => t.consider (heads.filter fun b => decide (64 ≤ b.passes)) h) s)

/-! ## Tasks (02 R68) -/

/-- The oldest record of the pools of an SP's groups, in the order of its ports: the group entry and the record. -/
def State.taskFor (s : State) (part k : Nat) : Option (Nat × Nat × List Byte × Nat) :=
  (List.range 4).findSome? fun port =>
    (KMap.find port (s.sp k).dikes).bind fun e =>
      ((s.part part).bind fun p => KMap.find e p.groups).bind fun g =>
        if (s.sp k).held = some g.launch then g.pool.head?.map fun r => (e, r) else none

/-- An idle SP may take a task: it is no follower of a fused tower, and its launch runs. -/
def State.mayTake (s : State) (k : Nat) : Bool :=
  let p := s.sp k
  p.idle && p.ctx.isNone && !(p.fused && decide ((s.tower k).headD k ≠ k)) && (p.held.bind s.launchOf).any fun l => decide (l.state = 1)

/-- The context of a task starts: the SP keeps its polders and its control memory below 0x3_8000 (02 R68), and its Spire a merge that is open
(13 R343). -/
def Sp.task (p0 : Sp) (l : Launch) (c : Code) (r : Nat × List Byte × Nat) : Sp :=
  match p0.left with
  | none => p0
  | some d =>
    let p := p0.claimCm
    let c0 := l.newCtx c d.rank r.1
    { p with
      ctx := some { c0 with x := KMap.ins 13 0x38060 c0.x, hw := r.2.2, task := r.2.1, polders := d.polders, tokens := d.tokens, seq := d.seq, spire := if d.spire.phase = 2 then d.spire else Spire.init,
                            sb := d.sb, busy := if p0.cmUnclaimed then 256 else 0 },
      left := none, idle := false, ranges := [], cm := bytesWrite p.cm 0x38060 r.2.1 }

/-- One SP takes a task, if it may. -/
def State.takeTask (s : State) (part k : Nat) : State :=
  if !s.mayTake k then s else
  match s.taskFor part k, (s.sp k).held.bind s.launchOf with
  | some (e, r), some l =>
    match s.codeOf l with
    | none => s
    | some c =>
      (s.modPart part fun p => { p with groups := KMap.upd e (fun g => { g with pool := g.pool.drop 1 }) p.groups }).saveCm k |>.modSp k fun p => p.task l c r
  | _, _ => s

/-- TASK_TAKE (02 R68): the idle SPs of the partition take tasks, the lowest number first. -/
def execTaskTake (part : Nat) (s : State) : Host.Outcome State Fault Refusal :=
  .next (match s.part part with
    | none => s
    | some p => if p.migr.role = 1 ∧ 2 ≤ p.migr.phase then s else ((List.range 160).filter p.sps.contains).foldl (fun t k => t.takeTask part k) s)

end Sys2Proof.Machine
end

