-- ==== Sys2Proof/Machine/Host.lean ====
section
/-! DEFINITION. What the host asks for (02 R48, R50, R51, R53, R54; 12 R307): LAUNCH, WRITE and READ, CONFIG; and how a launch leaves the part
(24 R463 to R466). -/

namespace Sys2Proof.Machine

/-! ## Release (24 R463 to R465) -/

/-- Contexts of a launch at an SP. -/
def Sp.contextsOf (p : Sp) (id : Nat) : List Ctx := (p.ctx.toList ++ p.left.toList ++ p.victims.map (·.ctx)).filter fun c => decide (c.launch = id)

/-- Every write of the launch has been performed, or has ended without being applied. -/
def State.launchQuiet (s : State) (l : Launch) : Bool :=
  (!s.accs.any fun a => (a.src.owner.any fun o => decide (o.2 = l.id)) && a.kind.writes
      && (decide (a.state = 0) || decide (a.state = 1) || decide (a.state = 2) || decide (a.state = 5) || decide (a.state = 7) || decide (a.state = 9) || decide (a.state = 10)))
    && l.ranks.all fun k => ((s.sp k).contextsOf l.id).all fun c => !c.sb.any Entry.copyRuns

/-- The completion record (24 R464). -/
def Launch.record (l : Launch) (now : Nat) : List Byte :=
  let cause := l.cause.getD 0
  let named := decide (cause = 1) || decide (cause = 2)
  toBytes 8 l.tag ++ toBytes 8 l.id ++ toBytes 8 l.handle ++ toBytes 1 cause ++ toBytes 1 l.vf ++ toBytes 1 l.queue ++ toBytes 1 0
    ++ toBytes 2 (if named then l.crank else 0xFFFF) ++ toBytes 2 (if named then l.ranks.getD l.crank 0xFFFF else 0xFFFF)
    ++ toBytes 8 (if cause = 1 then l.cword else 0) ++ toBytes 8 (if named then l.caddr else 0) ++ toBytes 8 (if cause = 1 then l.cpc else 0)
    ++ toBytes 8 (if l.order = 0 then 0 else now - l.started)

/-- COMPLETE is sent to the completion address (24 R464, 02 R45). -/
def State.sendComplete (s : State) (l : Launch) : State := s.sendOwn l.vf vtComplete 0 l.msgTag l.port l.addr (l.record s.now)

/-- The tokens of a launch's contexts at SP `k` are given up as by TREL, those of contexts that were pre-empted when it ended among them (24 R465). -/
def State.dropTokens (s : State) (id k : Nat) : State :=
  let s1 := ((s.sp k).contextsOf id).foldl (fun t c => (c.tokens.filter fun e => decide (e.2 = 1)).foldl (fun t e => (t.tokRelease k c (e.1 * 2 ^ 21)).2) t) s
  let gone := ((s.launchOf id).map fun l => l.gone.filter fun q => decide (q.1 = k)).getD []
  gone.foldl (fun t q => (t.tokRelease k { Ctx.init with launch := id, rank := q.2.1, tokens := [(q.2.2, 1)] } (q.2.2 * 2 ^ 21)).2) s1

/-- A page of the token table that the release of a launch needs and that has not come from the source of a migration (23 R455). -/
def State.tablesAbsent (s : State) (l : Launch) : Option Nat :=
  let held := l.ranks.flatMap fun k => ((s.sp k).contextsOf l.id).flatMap fun c => (c.tokens.filter fun e => decide (e.2 = 1)).map (·.1)
  ((held ++ l.gone.map fun q => q.2.2).filter fun r => decide (iaWindow (r * 2 ^ 21) = 0)).findSome? (s.tokAbsent l.part)

/-- An SP after the release of a launch. -/
def Sp.release (p : Sp) (id : Nat) (entries : List Nat) : Sp :=
  let mine := decide (p.held = some id)
  let vs := p.victims.filter fun v => decide (v.ctx.launch ≠ id)
  { p with
    ctx := p.ctx.filter fun c => decide (c.launch ≠ id), left := p.left.filter fun c => decide (c.launch ≠ id), victims := vs,
    held := if mine then vs.head?.map (·.ctx.launch) else p.held, idle := p.idle && !mine,
    hints := p.hints.filter fun h => decide (h.1 ≠ id), router := p.router.filter fun e => decide (e.2.2.2 ≠ id),
    dikes := p.dikes.filter fun e => !entries.contains e.2, ranges := if mine then [] else p.ranges,
    attach := p.attach && !mine, tower := if mine then [] else p.tower, fused := p.fused && !mine, line := if mine then [] else p.line }

/-- The resources of a launch are freed in the order of 24 R465, and a placement pass follows. -/
def State.freeLaunch (s : State) (l : Launch) : State :=
  let s1 := l.ranks.foldl (fun t k => t.dropTokens l.id k) s
  let entries := l.groups.map (·.2)
  let s2 := s1.modPart l.part fun p =>
    { p with sync := p.sync.filter fun q => decide (q.1 ≠ l.id), groups := p.groups.filter fun e => decide (e.2.launch ≠ l.id),
             used := p.used.filter fun q => decide (q.1 ≠ l.id) }
  let keep := fun (a : Acc) => !(a.src.owner.any fun o => decide (o.2 = l.id)) && !(s.xfrs.any fun x => decide (x.launch = l.id) && decide (a.src = Src.host x.id))
  let s3 : State := { (s2.unlist ((s2.accs.filter fun a => !keep a).map (·.id))) with
    ports := s2.ports.map fun (e : Nat × Port) => (e.1, { e.2 with slots := e.2.slots.filter fun q => decide (q.2.2.2 ≠ l.id) }),
    accs := s2.accs.filter keep, xfrs := s2.xfrs.filter fun x => decide (x.launch ≠ l.id),
    sps := s2.sps.map fun (e : Nat × Sp) => if l.ranks.contains e.1 then (e.1, e.2.release l.id entries) else e,
    launches := s2.launches.filter fun x => decide (x.id ≠ l.id) }
  let s4 := s3.modPart l.part fun p =>
    { p with codes := p.codes.filter fun c => !(c.unloading && !s3.launches.any fun x => decide (x.part = l.part) && decide (x.handle = c.handle)) }
  ((List.range 4).foldl State.enginesFree s4).passSoon l.part

/-- LAUNCH_RELEASE (24 R463): the launch is released and leaves its queue. A source of a migration leaves that to its destination (23 R449). -/
def execLaunchRelease (id : Nat) (s : State) : Host.Outcome State Fault Refusal :=
  .next (match s.launchOf id with
    | none => s
    | some l =>
      if l.state ≠ 2 ∨ !s.launchQuiet l ∨ (s.part l.part).any fun p => decide (p.migr.role = 1) then s
      else match s.tablesAbsent l with
        | some a => s.askTable l.part a
        | none => (s.sendComplete l).freeLaunch l)

/-! ## CANCEL (24 R466) -/

/-- Launches of a VF that a CANCEL names. -/
def State.cancelled (s : State) (vf tag : Nat) : List Launch :=
  s.launches.filter fun l => decide (l.vf = vf) && decide (l.tag = tag) && decide (l.state ≠ 2)

/-- CANCEL: every named launch ends, the message is answered, and then those that had not started complete. -/
def State.cancelTag (s : State) (h : VctHdr) (tag : Nat) : State :=
  let ls := s.cancelled h.vf tag
  if ls.isEmpty then s.nak h nkBadHandle else
  let s1 := ls.foldl (fun t l => t.endLaunch l.id 3 0xFFFF 0 0 0) s
  (ls.filter fun l => decide (l.state ≠ 1)).foldl (fun t l => match t.launchOf l.id with
    | none => t
    | some x => (t.sendComplete x).freeLaunch x) (s1.ackMsg h)

/-- CANCEL (24 R466). -/
def execCancel (h : VctHdr) (tag : Nat) (s : State) : Host.Outcome State Fault Refusal :=
  .next (s.vctBound h (.cancel h tag) fun _ s => s.cancelTag h tag)

/-! ## LAUNCH (02 R53, R54) -/

/-- The mask is made of whole towers of the launch. -/
def wholeTowers (n mask : Nat) : Bool :=
  (maskSps mask).all fun k => (List.range n).all fun i => decide (mask / 2 ^ (k / n * n + i) % 2 = 1)

/-- The NAK code of a launch record, 0 when it is queued. A count of 0 is BAD_SPSET: the model's choice, 02 R53 gives 1 to 160 and R54 names no
check for it (log 41). -/
def State.launchCode (s : State) (h : VctHdr) (p : Part) (r : LaunchRec) : Nat :=
  let twr := r.flags / 4 % 4; let n := [1, 2, 4].getD twr 1
  let setf := decide (r.flags / 2 % 2 = 1)
  let pop := popcount 160 r.mask
  let code := p.codes.find? fun c => decide (c.handle = r.handle) && !c.unloading
  firstCode [
    (decide (16 ≤ r.flags) || decide (twr = 3) || decide (4 ≤ r.prio) || decide (r.reserved ≠ 0), nkBadMessage),
    (code.isNone, nkBadHandle),
    (decide (r.entry % 2 = 1) || code.any fun c => decide (c.ctrl.length ≤ r.entry), nkBadEntry),
    (decide (r.count = 0) || decide (160 < r.count) || (if setf then !(maskSps r.mask).all p.sps.contains || decide (r.count ≠ pop) || decide (2 ^ 160 ≤ r.mask)
        else decide (r.mask ≠ 0) || decide (p.sps.length < r.count))
      || (decide (twr ≠ 0) && (decide (r.count % n ≠ 0) || (setf && !wholeTowers n r.mask))), nkBadSpset),
    (decide (64 ≤ (s.launches.filter fun l => decide (l.vf = h.vf) && decide (l.queue = h.queue)).length), nkQueueFull)]

/-- A launch record as a queued launch; an all-zero completion address means where the LAUNCH came from (02 R53). -/
def LaunchRec.launchAs (r : LaunchRec) (h : VctHdr) (part id : Nat) : Launch :=
  { id := id, vf := h.vf, queue := h.queue, part := part, handle := r.handle, tag := r.tag, msgTag := h.tag, entry := r.entry, count := r.count,
    bar := decide (r.flags % 2 = 1), setf := decide (r.flags / 2 % 2 = 1), twr := r.flags / 4 % 4, prio := r.prio, mask := r.mask, port := if r.addr = 0 then h.port else r.port,
    addr := if r.addr = 0 then h.addr else r.addr, args := r.args, state := 0, passes := 0, started := 0, t := 0, ret := 0, segs := [], ranks := [], groups := [], slots := [],
    cause := none, crank := 0xFFFF, cword := 0, caddr := 0, cpc := 0, order := 0, saves := [], wants := [], gone := [] }

/-- LAUNCH (02 R54): its record is checked and queued. A launch id holds the package id above the counter (23 R445). -/
def execLaunch (h : VctHdr) (r : LaunchRec) (s : State) : Host.Outcome State Fault Refusal :=
  .next (s.vctBound h (.launch h r) fun part s =>
    match s.part part with
    | none => s.nak h nkUnbound
    | some p =>
      let code := s.launchCode h p r
      if code ≠ 0 then s.nak h code else
      (({ s with launches := s.launches ++ [LaunchRec.launchAs r h part (s.dev.pkg * 2 ^ 48 + s.nextId)], nextId := s.nextId + 1 }).ackMsg h).passSoon part)

/-! ## WRITE and READ (02 R50, R51) -/

/-- The range lies in the partition's memory. -/
def Part.inMemory (p : Part) (ia n : Nat) : Bool := inRanges p.linear ia n || inRanges p.paged ia n

/-- Bytes from `ia` up to the end of its 64-byte line, at most `n`. -/
def beatLen (ia n : Nat) : Nat := min n (64 - ia % 64)

/-- Beats of a transfer from byte `o` of it on, at most `n` of them: offset and length. -/
def beatsOf (ia len : Nat) : Nat → Nat → List (Nat × Nat)
  | _, 0 => []
  | o, n + 1 => if len ≤ o then [] else let k := beatLen (ia + o) (len - o); (o, k) :: beatsOf ia len (o + k) n

/-- Bytes `o` up to `o + n` of the data of a transfer; zeros after its end. -/
def Xfr.piece (x : Xfr) (o n : Nat) : List Byte := let l := (x.data.drop o).take n; l ++ List.replicate (n - l.length) 0

/-- The next beat of a transfer is sent by an engine of an I/O die, unless the transfer is parked (12 R322). -/
def State.xfrBeat (s : State) (id : Nat) : State :=
  match s.xfrs.find? fun x => decide (x.id = id) with
  | none => s
  | some x =>
    if x.parked ∨ x.left = 0 then s else
    let o := x.len - x.left; let n := beatLen (x.ia + o) x.left
    ({ s with xfrs := updFirst (fun y => decide (y.id = id)) (fun y => { y with left := y.left - n }) s.xfrs }).sendIa
      (Acc.new (.host id) x.part (if x.write then .write else .read) o (x.ia + o) n (if x.write then x.piece o n else []) 4)

/-- The next beats of a transfer are sent: at most 129 at a time. -/
def State.xfrSend (s : State) (x : Xfr) : State := (List.range 129).foldl (fun t _ => t.xfrBeat x.id) s

/-- A transfer of the host begins: the VF's next message waits for its end (02 R51). -/
def State.xfrBegin (s : State) (h : VctHdr) (part ia len : Nat) (write : Bool) (data : List Byte) : State :=
  let x : Xfr := { id := s.nextAcc, launch := 0, vf := h.vf, seq := h.seq, tag := h.tag, addr := h.addr, port := h.port, part := part, write := write, ia := ia, len := len, left := len, data := data,
                   parked := false, cancelled := false }
  ((({ s with xfrs := s.xfrs ++ [x], nextAcc := s.nextAcc + 1 }).modVf h.vf fun v => { v with busy := some h.seq })).xfrSend x

/-- WRITE (02 R50). -/
def execWrite (h : VctHdr) (ia : Nat) (data : List Byte) (s : State) : Host.Outcome State Fault Refusal :=
  .next (s.vctBound h (.write h ia data) fun part s =>
    if data.isEmpty ∨ 8192 < data.length then s.nak h nkBadMessage
    else if (s.part part).any (·.inMemory ia data.length) then s.xfrBegin h part ia data.length true data
    else s.nak h nkBadAddress)

/-- READ (02 R50). -/
def execRead (h : VctHdr) (ia len : Nat) (s : State) : Host.Outcome State Fault Refusal :=
  .next (s.vctBound h (.read h ia len) fun part s =>
    if len = 0 ∨ 8192 < len then s.nak h nkBadMessage
    else if (s.part part).any (·.inMemory ia len) then s.xfrBegin h part ia len false []
    else s.nak h nkBadAddress)

/-- The bytes that a beat of a READ returns: those of memory; of a poisoned line, bytes that the spec leaves open. -/
def State.readBack (s : State) (a : Acc) : WithFlags (List Byte) :=
  if a.status = stPoison then (toBytes a.n (Config.freeNat (s.ctr + a.va)), 0) else (a.result, 0)

/-- The beats of a transfer that has been sent in full, with what they read put in order of their offsets. -/
def State.xfrData (s : State) (x : Xfr) : List Byte :=
  (beatsOf x.ia x.len 0 x.len).flatMap fun b =>
    match s.accs.find? fun a => decide (a.src = Src.host x.id) && decide (a.va = b.1) with
    | none => List.replicate b.2 0
    | some a => (s.readBack a).1

/-- A transfer has ended: its answer is sent, and the VF's next message is executed; the copy of a launch's initial data may start the
launch (02 R50, R51; 12 R309). -/
def State.xfrEnd (s : State) (x : Xfr) : State :=
  let data := s.xfrData x
  let s1 : State := { s with ctr := s.ctr + 8193, xfrs := s.xfrs.filter fun y => decide (y.id ≠ x.id), accs := s.accs.filter fun a => decide (a.src ≠ Src.host x.id) }
  if x.launch ≠ 0 then
    match s1.launchOf x.launch, (s1.launchOf x.launch).bind s1.codeOf with
    | some l, some c => if s1.xfrs.any (fun y => decide (y.launch = l.id)) || decide (l.state ≠ 3) then s1 else s1.beginLaunch l c
    | _, _ => s1
  else
    let h : VctHdr := ⟨x.vf, x.seq, 0, x.tag, x.addr, x.port⟩
    let s2 := s1.modVf x.vf fun v => { v with busy := none }
    (if x.cancelled then s2.nak h nkCancelled else if x.write then s2.ackMsg h else s2.reply h vtReadData 0 data).nextHeld x.vf

/-- HOST_TRANSFER_COMPLETE: once every beat that has been sent is done, the next ones are sent, or the transfer ends (02 R51). -/
def execHostTransferComplete (id : Nat) (s : State) : Host.Outcome State Fault Refusal :=
  .next (match s.xfrs.find? fun x => decide (x.id = id) with
    | none => s
    | some x =>
      if !x.parked && (s.accs.filter fun a => decide (a.src = Src.host id)).all s.accDone then
        if x.cancelled ∨ x.left = 0 then s.xfrEnd x
        else ({ s with accs := s.accs.filter fun a => !(decide (a.src = Src.host id) && x.write) }).xfrSend x
      else s)

/-! ## CONFIG (02 R48, 12 R307) -/

/-- A CONFIG operation: BAD_MESSAGE for an argument out of range, BUSY where it is refused. -/
def State.config (s : State) (h : VctHdr) (i : Instr) (bad busy : State → Bool) (f : State → State) : State :=
  s.vctSystem h i fun s => if bad s then s.nak h nkBadMessage else if busy s then s.nak h nkBusy else (f s).ackMsg h

/-- PART_CREATE (02 R48): the partition's window registers are as they stand (15 R387 to R389). -/
def execPartCreate (h : VctHdr) (part : Nat) (s : State) : Host.Outcome State Fault Refusal :=
  .next (s.config h (.partCreate h part) (fun _ => decide (32 ≤ part)) (fun s => (s.part part).isSome) fun s =>
    let w := s.windows part
    ({ s with shelf := KMap.del part s.shelf }).setPart part { Part.init with peer := w.peer, export_ := w.export_, toktab := w.toktab, stale := w.stale })

/-- PART_DESTROY (02 R48): the window registers of its number stay. -/
def execPartDestroy (h : VctHdr) (part : Nat) (s : State) : Host.Outcome State Fault Refusal :=
  .next (s.config h (.partDestroy h part) (fun s => decide (32 ≤ part) || (s.part part).isNone)
    (fun s => ((List.range 64).any fun v => decide ((s.vf v).part = some part)) || (s.launches.any fun l => decide (l.part = part))
      || (s.part part).any fun p => !p.codes.isEmpty)
    fun s => { s with shelf := KMap.ins part (s.windows part) s.shelf, parts := KMap.del part s.parts })

/-- PART_SPS (02 R48): SP n at bit n of the mask. -/
def execPartSps (h : VctHdr) (part mask : Nat) (s : State) : Host.Outcome State Fault Refusal :=
  .next (s.config h (.partSps h part mask) (fun s => decide (32 ≤ part) || decide (2 ^ 160 ≤ mask) || (s.part part).isNone)
    (fun s => ((maskSps mask).any fun k => s.parts.any fun e => decide (e.1 ≠ part) && e.2.sps.contains k)
      || (s.part part).any fun p => p.sps.any fun k => decide (mask / 2 ^ k % 2 = 0) && !(s.sp k).isFree)
    fun s => (s.modPart part fun p => { p with sps := maskSps mask }).passSoon part)

/-- A range added to a list of disjoint ranges. -/
def addRange (l : List (Nat × Nat)) (a n : Nat) : List (Nat × Nat) :=
  let near := l.filter fun r => decide (a ≤ r.1 + r.2) && decide (r.1 ≤ a + n)
  let lo := (near.map (·.1)).foldl min a
  let hi := (near.map fun r => r.1 + r.2).foldl max (a + n)
  (l.filter fun r => !(decide (a ≤ r.1 + r.2) && decide (r.1 ≤ a + n))) ++ [(lo, hi - lo)]

/-- A range taken out of a list of disjoint ranges. -/
def cutRange (l : List (Nat × Nat)) (a n : Nat) : List (Nat × Nat) :=
  l.flatMap fun r =>
    if r.1 + r.2 ≤ a ∨ a + n ≤ r.1 then [r]
    else (if r.1 < a then [(r.1, a - r.1)] else []) ++ (if a + n < r.1 + r.2 then [(a + n, r.1 + r.2 - (a + n))] else [])

/-- Two ranges share a byte. -/
def touches (r : Nat × Nat) (a n : Nat) : Bool := overlap r.1 r.2 a n

/-- A page that the radix table at `t` of `level` names has a frame in the range. -/
def radixFrames (m : List Host.Cell) (a len : Nat) : Nat → Nat → Nat → Bool
  | 0, _, _ => false
  | n + 1, level, t =>
    (List.range (if level = 0 then 16 else 512)).any fun i =>
      let e := ofBytes (Memory.read m (t + 8 * i) 8)
      pteV e && (if pteLeaf e then overlap (pteAddr e) (2 ^ levelShift level * if pteCont e then 16 else 1) a len
                 else decide (level < 4) && radixFrames m a len n (level + 1) (pteAddr e))

/-- A page that an enabled cuckoo table names has a frame in the range; during a resize the old table still names those that it holds from the progress
index on (12 R316). -/
def cuckooFrames (m : List Host.Cell) (head : List Byte) (a len : Nat) : Bool :=
  (List.range 6).any fun code =>
    let d := (head.drop (0x40 + 64 * code)).take 64
    let n := field d 8 1
    if n < 4 ∨ 26 < n then false else
    let names := fun (o : Nat) =>
      let e := ofBytes (Memory.read m (o + 8) 8)
      decide (2 ^ 63 ≤ ofBytes (Memory.read m o 8)) && pteV e && overlap (pteAddr e) (2 ^ pageBits code) a len
    let old := field d 9 1
    (List.range (3 * 2 ^ n)).any (fun i => names (field d 0 8 + 16 * i))
      || (decide (old ≠ 0) && (List.range (3 * 2 ^ old)).any fun i => decide (field d 24 8 ≤ i % 2 ^ old) && names (field d 16 8 + 16 * i))

/-- Some page of the partition has a frame in the range. -/
def State.framesIn (s : State) (p : Part) (a len : Nat) : Bool :=
  let head := s.tblockHead p
  match field head 0 8 with
  | 1 => radixFrames s.linMem a len 5 0 (field head 8 8)
  | 2 => cuckooFrames s.linMem head a len
  | _ => false

/-- A range of a partition may not be removed (12 R307). -/
def State.rangeUsed (s : State) (p : Part) (a n : Nat) : Bool :=
  p.used.any (fun q => touches q.2 a n) || (iaLinear a && (s.framesIn p a n || p.tblock.any fun t => overlap t 0x10000 a n))

/-- PART_MEM (12 R307). -/
def execPartMem (h : VctHdr) (part base len : Nat) (remove : Bool) (s : State) : Host.Outcome State Fault Refusal :=
  .next (s.config h (.partMem h part base len remove)
    (fun s => decide (32 ≤ part) || (s.part part).isNone || decide (base % 2 ^ 21 ≠ 0) || decide (len = 0) || decide (len % 2 ^ 21 ≠ 0)
      || !(decide (base + len ≤ 2 ^ 39) || (decide (2 ^ 40 ≤ base) && decide (base + len ≤ 2 ^ 48))))
    (fun s => if remove then (s.part part).any fun p => s.rangeUsed p base len
              else s.parts.any fun e => decide (e.1 ≠ part) && (e.2.linear ++ e.2.paged).any fun r => touches r base len)
    fun s => (s.modPart part fun p =>
      let f := fun l => if remove then cutRange l base len else addRange l base len
      if iaLinear base then { p with linear := f p.linear } else { p with paged := f p.paged }).passSoon part)

/-- Bytes of a code arena in use: up to the end of the last placement. -/
def Part.arenaUsed (p : Part) : Nat := (p.codes.map fun c => c.base + c.len - p.arenaBase).foldl max 0

/-- PART_ARENA (02 R48). Where the arena stands is the firmware's choice: the model leaves it open, at a multiple of 64 and apart from the
other partitions'. -/
def execPartArena (h : VctHdr) (part bytes : Nat) (s : State) : Host.Outcome State Fault Refusal :=
  .next (s.config h (.partArena h part bytes) (fun s => decide (32 ≤ part) || (s.part part).isNone)
    (fun s => (s.part part).any fun p => decide (bytes < p.arenaUsed))
    fun s =>
      let q := s.fresh
      q.2.modPart part fun p =>
        { p with arena := bytes, arenaBase := if p.codes.isEmpty then part * 2 ^ 58 + 64 * (Config.freeNat q.1 % 2 ^ 50) else p.arenaBase })

/-- VF_BIND (02 R48, R44): the VF expects message 0. What the part sends under its own numbers goes on as it was (02 R45): messages that await
their ACK are still sent again. VF 0 and a partition that does not exist are arguments out of range (log 41). -/
def execVfBind (h : VctHdr) (vf part : Nat) (s : State) : Host.Outcome State Fault Refusal :=
  .next (s.config h (.vfBind h vf part) (fun s => decide (vf = 0) || decide (64 ≤ vf) || decide (32 ≤ part) || (s.part part).isNone)
    (fun s => (s.vf vf).part.isSome) fun s => s.modVf vf fun v => { v with part := some part, expect := 0, held := [], replies := [], busy := none })

/-- VF_UNBIND (02 R48). -/
def execVfUnbind (h : VctHdr) (vf : Nat) (s : State) : Host.Outcome State Fault Refusal :=
  .next (s.config h (.vfUnbind h vf) (fun _ => decide (vf = 0) || decide (64 ≤ vf)) (fun s => s.launches.any fun l => decide (l.vf = vf))
    fun s => s.modVf vf fun v => { v with part := none })

end Sys2Proof.Machine
end

