-- ==== Sys2Proof/Machine/KernelCheck.lean ====
section
/-! DEFINITION. The loader's walk over the bundles of a kernel (01 R32 to R35): their lengths, branch targets, loop bodies and the distance
between pre-emption points. Places are indexes into the list of the kernel's bundles. -/

namespace Sys2Proof.Machine

/-! ## Bundles (01 R32) -/

/-- A bundle: its offset in the code image, its length, its empty run and its slot words. -/
structure BInfo where
  at_ : Nat
  len : Nat
  e : Nat
  words : List (Nat × Nat)
deriving DecidableEq, Repr

/-- The bundles from offset `a` up to `stop`, whose bytes start the list; or the offset of the one that breaks R32. -/
def walkBundles (p11 : Bool) (stop : Nat) : Nat → Nat → List Byte → Nat ⊕ List BInfo
  | 0, _, _ => .inr []
  | n + 1, a, l =>
    if stop ≤ a then .inr [] else
    let hdr := field l 0 2
    let len := bundleLen hdr
    if stop < a + 2 ∨ stop < a + len ∨ (bundleXI hdr ∧ !p11) then .inl a else
    let b : BInfo := ⟨a, len, bundleE hdr, (slotWords (field l 2 (len - 2)) (slotsOf (hdr % 256))).1⟩
    match walkBundles p11 stop n (a + len) (l.drop len) with
    | .inl e => .inl e
    | .inr bs => .inr (b :: bs)

/-- The C-slot word, and its opcode: 0 where there is none. -/
def BInfo.cWord (b : BInfo) : Nat := ((b.words.find? fun w => decide (w.1 = 0)).map (·.2)).getD 0
def BInfo.cOp (b : BInfo) : Nat := b.cWord % 64

/-- The C slot is predicated. -/
def BInfo.cPred (b : BInfo) : Bool := decide (b.cWord / 64 % 16 ≠ 0)

/-- Bundle `i`. -/
def bundleAt (bs : List BInfo) (i : Nat) : BInfo := bs.getD i ⟨0, 0, 0, []⟩

/-- The index of the bundle at an offset, if one starts there. -/
def bundleIdx (bs : List BInfo) (a : Int) : Option Nat :=
  let i := bs.findIdx fun b => decide ((b.at_ : Int) = a)
  if i < bs.length then some i else none

/-! ## Branches (01 R33) -/

/-- The target of a PBT. -/
def BInfo.pbtTarget (b : BInfo) : Int := (b.at_ : Int) + 2 * sint 19 (b.cWord / 2 ^ 13)

/-- The bundle that the last PBT of `bn` before bundle `i` names. -/
def lastPbt (bs : List BInfo) (i n : Nat) : Option Nat :=
  (((bs.take i).reverse.find? fun b => decide (b.cOp = 1) && decide (b.cWord / 2 ^ 10 % 8 = n)).bind fun b => bundleIdx bs b.pbtTarget)

/-- A bundle holds BR by a register, BRL, or BR.R. -/
def BInfo.isBr (b : BInfo) : Bool := decide (b.cOp = 4) && decide (b.cWord / 2 ^ 16 % 4 ≠ 3)
def BInfo.isBrl (b : BInfo) : Bool := decide (b.cOp = 5)
def BInfo.isRet (b : BInfo) : Bool := decide (b.cOp = 4) && decide (b.cWord / 2 ^ 16 % 4 = 3)

/-- The target of the branch of bundle `i`. -/
def brTarget (bs : List BInfo) (i : Nat) : Option Nat := lastPbt bs i ((bundleAt bs i).cWord / 2 ^ 10 % 8)

/-- A loop instruction. -/
def BInfo.isLoop (b : BInfo) : Bool := decide (6 ≤ b.cOp) && decide (b.cOp ≤ 8)

/-- The last bundle of the body that bundle `i` opens (08 R212). -/
def loopEnd (bs : List BInfo) (i : Nat) : Option Nat := (lastPbt bs i ((bundleAt bs i).cWord / 2 ^ 10 % 4)).filter (i < ·)

/-- The loop bodies: loop instruction, first and last bundle. -/
def bodiesOf (bs : List BInfo) : List (Nat × Nat × Nat) :=
  (List.range bs.length).filterMap fun i => if (bundleAt bs i).isLoop then (loopEnd bs i).map fun e => (i, i + 1, e) else none

/-- The bundle lies in a body. -/
def inBody (q : Nat × Nat × Nat) (i : Nat) : Bool := decide (q.2.1 ≤ i) && decide (i ≤ q.2.2)

/-- A breach of R33 at bundle `i`. -/
def badBranch (bs : List BInfo) (bodies : List (Nat × Nat × Nat)) (i : Nat) : Bool :=
  let b := bundleAt bs i
  (decide (b.cOp = 1) && (bundleIdx bs b.pbtTarget).isNone)
    || ((b.isBr || b.isBrl) && (brTarget bs i).any fun t => bodies.any fun q => !inBody q i && inBody q t && decide (t ≠ q.2.1))
    || ((b.isBr || b.isBrl || b.isRet) && bodies.any fun q => inBody q i && decide (q.2.2 < i + 2))

/-! ## Loops (01 R34) -/

/-- Bundles that may come after bundle `i` within one routine of the BRL call graph. -/
def localSucc (bs : List BInfo) (i : Nat) : List Nat :=
  let b := bundleAt bs i
  let two := bundleAt bs (i - 2)
  let stops := (decide (b.cOp = 0x10) && !b.cPred)
    || (decide (2 ≤ i) && !two.cPred && ((two.isBr && decide (two.cWord / 2 ^ 16 % 4 = 2)) || two.isRet))
  (if stops then [] else [i + 1]) ++ (if b.isBr then (brTarget bs i).toList else [])

/-- The bundles reached from a list, without calls; `n` is more than the steps that it takes. -/
def reachSet (bs : List BInfo) : Nat → List Nat → List Nat → List Nat
  | 0, _, seen => seen
  | n + 1, todo, seen =>
    match todo with
    | [] => seen
    | i :: l => if seen.contains i ∨ bs.length ≤ i then reachSet bs n l seen else reachSet bs n (localSucc bs i ++ l) (i :: seen)

/-- The greatest number of bodies open at once in the code reached from `entry`, called with `base` bodies open, and in what it calls; none: the
calls form a cycle. A body that holds the entry is open only if the caller has it open, and is counted there. -/
def callDepth (bs : List BInfo) (bodies : List (Nat × Nat × Nat)) : Nat → Nat → Nat → Option Nat
  | 0, _, _ => none
  | n + 1, base, entry =>
    (reachSet bs (3 * bs.length + 3) [entry] []).foldl (fun (m : Option Nat) i =>
      m.bind fun m =>
        let d := base + (bodies.filter fun q => inBody q i && !inBody q entry).length
        match if (bundleAt bs i).isBrl then brTarget bs i else none with
        | none => some (max m d)
        | some t => (callDepth bs bodies n d t).map fun x => max m x) (some base)

/-- A call that leads back to itself: a chain of calls longer than there are call bundles (01 R34). -/
def callCycle (bs : List BInfo) (bodies : List (Nat × Nat × Nat)) (i : Nat) : Bool :=
  (bundleAt bs i).isBrl && (brTarget bs i).any fun t => (callDepth bs bodies ((bs.filter (·.isBrl)).length + 1) 0 t).isNone

/-- The first bundle at which R34 is broken. -/
def badLoop (bs : List BInfo) (bodies : List (Nat × Nat × Nat)) : Option Nat :=
  match (List.range bs.length).find? fun i => (bundleAt bs i).isLoop && (loopEnd bs i).isNone with
  | some i => some i
  | none =>
    match bodies.find? fun q => bodies.any fun r => inBody r q.2.1 && decide (r ≠ q) && decide (r.2.1 ≤ q.2.1) && decide (r.2.2 < q.2.2) with
    | some q => some q.1
    | none =>
      match (List.range bs.length).find? (callCycle bs bodies) with
      | some i => some i
      | none => if (callDepth bs bodies ((bs.filter (·.isBrl)).length + 1) 0 0).all fun d => decide (d ≤ 6) then none else some 0

/-! ## Pre-emption distance (01 R35) -/

/-- A place on a path: the bundle, a pending transfer as delay bundles left and target, the return places of the calls that are open, and the
bodies whose loop entries stand, innermost first. -/
structure PathAt where
  i : Nat
  pend : Option (Nat × Nat)
  calls : List Nat
  loops : List (Nat × Nat × Nat)
deriving DecidableEq, Repr

/-- The V-slot word names a stream port. -/
def portWord (w : Nat) : Bool :=
  let o := vslotOf w; let r := vReads (w % 128)
  isPort o.vd || (r.1 && isPort o.a) || (r.2.1 && isPort o.b) || (r.2.2 && isPort o.c)

/-- A slot that may stall; `wm`: a read of a v register by a V, W or P slot may wait for a watermark (11 R291). -/
def slotStalls (wm : Bool) (q : Nat × Nat) : Bool :=
  let op := slotOp q.1 q.2
  match q.1 with
  | 0 => decide (op = 0x0D) || decide (op = 0x0F) || decide (op = 0x21)
  | 2 => wm || portWord q.2
  | 3 => wm || portWord q.2
  | 4 => decide (op = 0x0A) || decide (op = 0x0B)
  | 5 => decide (op ≤ 4)
  | 6 => wm
  | 7 => decide (op ≤ 4) || decide (op = 9) || decide (op = 0xB) || decide (op = 0xC) || (wm && (decide (op = 6) || decide (op = 8)))
  | _ => false

/-- A bundle issues in interlocked mode under the given loop entries (05 R118). -/
def interlockedAt (bs : List BInfo) (loops : List (Nat × Nat × Nat)) (il : Bool) : Bool :=
  match loops with
  | [] => il
  | q :: _ => decide ((bundleAt bs q.1).cOp = 7)

/-- Where issue goes on after bundle `i` when no transfer moves it: to the start of a body that ends there and whose entry stands, or past it; the
count starts again after a back-edge decision (08 R214), or where `fresh` says so. -/
def afterBundle (i : Nat) (calls : List Nat) (fresh : Bool) : List (Nat × Nat × Nat) → List (PathAt × Bool)
  | [] => [(⟨i + 1, none, calls, []⟩, fresh)]
  | q :: l => if q.2.2 = i then (⟨q.2.1, none, calls, q :: l⟩, true) :: afterBundle i calls true l else [(⟨i + 1, none, calls, q :: l⟩, fresh)]

/-- What may come after a place, and whether the count starts again there. A transfer leaves the loops that do not hold its target (08 R211). -/
def pathNext (bs : List BInfo) (p : PathAt) : List (PathAt × Bool) :=
  let b := bundleAt bs p.i
  let yields := decide (b.cOp = 0x0C)
  match p.pend with
  | some (1, t) => [(⟨t, none, p.calls, p.loops.dropWhile fun q => !inBody q t⟩, yields)]
  | some (n, t) => [({ p with i := p.i + 1, pend := some (n - 1, t) }, yields)]
  | none =>
    let on := afterBundle p.i p.calls yields p.loops
    let maybe := if b.cPred then on else []
    let go := fun (t : Nat) (calls : List Nat) => (({ p with i := p.i + 1, pend := some (2, t), calls := calls } : PathAt), false)
    if b.cOp = 0x10 then maybe
    else if b.isBr then (if b.cWord / 2 ^ 16 % 4 = 2 then maybe else on) ++ (brTarget bs p.i).toList.map fun t => go t p.calls
    else if b.isBrl then maybe ++ (brTarget bs p.i).toList.map fun t => go t ((p.i + 3) :: p.calls)
    else if b.isRet then maybe ++ (match p.calls with | [] => [] | r :: c => [go r c])
    else if b.isLoop then
      (loopEnd bs p.i).toList.flatMap fun e =>
        [(⟨p.i + 1, none, p.calls, (p.i, p.i + 1, e) :: p.loops⟩, false), (⟨e + 1, none, p.calls, p.loops⟩, false)]
    else on

/-- The count entering a place grows along every path; the offset at which it first passes 16,384. -/
def distanceRounds (bs : List BInfo) (il wm : Bool) : Nat → List (PathAt × Nat) → List (PathAt × Nat) → Option Nat
  | 0, _, _ => none
  | n + 1, todo, best =>
    match todo with
    | [] => none
    | (p, c) :: l =>
      if bs.length ≤ p.i then distanceRounds bs il wm n l best
      else if best.any fun q => decide (q.1 = p) && decide (c ≤ q.2) then distanceRounds bs il wm n l best
      else
        let b := bundleAt bs p.i
        let stalls := b.words.any (slotStalls wm) || (interlockedAt bs p.loops il && !b.words.isEmpty)
        let c1 := (if stalls then 0 else c) + 1 + b.e
        if 16384 < c1 then some b.at_
        else distanceRounds bs il wm n (l ++ (pathNext bs p).map fun q => (q.1, if q.2 then 0 else c1)) ((p, c) :: best.filter fun q => decide (q.1 ≠ p))

/-- The offset at which a kernel breaks R35. A place has at most as many open calls as the kernel has BRLs, and at most 6 open loops (R34, checked
before), and the count that enters it grows with every round that it takes: the rounds below are more than there can be. -/
def badDistance (bs : List BInfo) (il : Bool) : Option Nat :=
  let wm := bs.any fun b => b.words.any fun q => decide (q.1 = 5) && decide (slotOp 5 q.2 = 5)
  distanceRounds bs il wm (2 ^ 20 * (2 * bs.length + 8) ^ ((bs.filter (·.isBrl)).length + 10)) [(⟨0, none, [], []⟩, 0)] []

end Sys2Proof.Machine
end

