-- ==== Sys2Proof/Machine/Loader.lean ====
section
/-! DEFINITION. The loader (01 R14 to R40, R480): the checks of a UZO object in the order of R39, its placement in the code arena, and the
messages LOAD and UNLOAD (02 R52). -/

namespace Sys2Proof.Machine

/-- A check of the loader: the result, or the code and the object offset of the first failure (01 R39). -/
abbrev Ld (α : Type) := Except (Nat × Nat) α

/-- The load fails with a code at an offset when `bad` holds. -/
def refuse (bad : Bool) (code off : Nat) : Ld Unit := if bad then .error (code, off) else .ok ()

/-- A check at every element of a list, in order. -/
def eachOf {α : Type} (f : α → Ld Unit) : List α → Ld Unit
  | [] => .ok ()
  | a :: l => match f a with
    | .error e => .error e
    | .ok _ => eachOf f l

/-- Loader codes (01 R39). -/
abbrev ldBadHeader : Nat := 1
abbrev ldBadProfile : Nat := 2
abbrev ldBadBounds : Nat := 3
abbrev ldUnknownSection : Nat := 4
abbrev ldDuplicateSection : Nat := 5
abbrev ldMissingSection : Nat := 6
abbrev ldUnknownNote : Nat := 7
abbrev ldBadLayout : Nat := 8
abbrev ldBadBundle : Nat := 9
abbrev ldBadBranch : Nat := 10
abbrev ldBadLoop : Nat := 11
abbrev ldPreemptDistance : Nat := 12
abbrev ldRoutineLength : Nat := 13
abbrev ldBadSegment : Nat := 14
abbrev ldBadGroup : Nat := 15
abbrev ldBadSlottab : Nat := 16
abbrev ldSignature : Nat := 17
abbrev ldNoSpace : Nat := 18

/-- Some byte is not 0. -/
def anyByte (l : List Byte) (o n : Nat) : Bool := decide (field l o n ≠ 0)

/-! ## Step 1: the header (01 R14, R15) -/

/-- What the header says: section count, SYSREQ, section table offset, profile 1.1, build identifier. -/
structure Uzo where
  count : Nat
  sysreq : Bool
  table : Nat
  p11 : Bool
  build : List Byte
deriving DecidableEq, Repr

/-- The header of an object `b` for which LOAD named the length `b.length`. -/
def loadHeader (b : List Byte) : Ld Uzo := do
  let n := b.length; let count := field b 10 2; let t := field b 24 8
  refuse (decide (n < 64)) ldBadHeader 0
  refuse (decide (field b 0 4 ≠ 0x1A4F5A55)) ldBadHeader 0
  refuse (decide (field b 4 2 ≠ 0x0100)) ldBadHeader 4
  refuse (decide (field b 8 2 ≠ 64)) ldBadHeader 8
  refuse (decide (count = 0) || decide (1024 < count)) ldBadHeader 10
  refuse (decide (2 ≤ field b 12 4)) ldBadHeader 12
  refuse (decide (field b 16 8 ≠ n)) ldBadHeader 16
  refuse (decide (t % 8 ≠ 0) || decide (n < t + 32 * count)) ldBadHeader 24
  refuse (anyByte b 48 16) ldBadHeader 48
  refuse (decide (field b 6 2 ≠ 0x0100) && decide (field b 6 2 ≠ 0x0101)) ldBadProfile 6
  return { count := count, sysreq := decide (field b 12 4 % 2 = 1), table := t, p11 := decide (field b 6 2 = 0x0101), build := (b.drop 32).take 16 }

/-! ## Step 2: the section table (01 R17 to R20) -/

/-- An entry of the section table, with its own offset in the object. -/
structure Sect where
  at_ : Nat
  required : Bool
  type_ : Nat
  flags : Nat
  align : Nat
  off : Nat
  size : Nat
  reserved : Bool
deriving DecidableEq, Repr

/-- The entries. -/
def sectsOf (b : List Byte) (u : Uzo) : List Sect :=
  (List.range u.count).map fun i =>
    let a := u.table + 32 * i
    let e := (b.drop a).take 32
    { at_ := a, required := decide (field e 0 2 / 2 ^ 15 = 1), type_ := field e 0 2 % 2 ^ 15, flags := field e 2 2, align := field e 4 1,
      off := field e 8 8, size := field e 16 8, reserved := anyByte e 5 3 || anyByte e 28 4 }

/-- Types that the loader knows, with the fewest and the most sections of each; `code`: a KCODE or BIARI section is present (01 R18). -/
def sectLimits (code : Bool) : List (Nat × Nat × Nat) :=
  [(1, 1, 1), (2, if code then 1 else 0, if code then 1 else 0), (3, 0, 1024), (4, 0, 1), (5, 0, 1), (6, 0, 1), (7, 0, 1), (8, 0, 1), (9, 0, 1024),
   (10, 0, 1), (11, 0, 1), (12, 0, 1024), (16, 0, 1024), (17, 0, 1024)]

/-- A section of code. -/
def Sect.isCode (e : Sect) : Bool := decide (e.type_ = 3) || decide (e.type_ = 12)

/-- Two contents share a byte. -/
def Sect.meets (e d : Sect) : Bool := decide (e.size ≠ 0) && decide (d.size ≠ 0) && overlap e.off e.size d.off d.size

/-- Step 2, in its four checks. -/
def checkSects (n : Nat) (u : Uzo) (l : List Sect) : Ld Unit := do
  eachOf (fun e => refuse (e.required && !((sectLimits true).any fun q => decide (q.1 = e.type_))) ldUnknownSection e.at_) l
  eachOf (fun q => do
    let got := l.filter fun e => decide (e.type_ = q.1)
    refuse (decide (q.2.2 < got.length)) ldDuplicateSection ((got[q.2.2]?.map (·.at_)).getD u.table)
    refuse (decide (got.length < q.2.1)) ldMissingSection u.table) (sectLimits (l.any (·.isCode)))
  eachOf (fun e => refuse (decide (n < e.off + e.size)
    || (decide (e.size ≠ 0) && (decide (e.off < 64) || overlap e.off e.size u.table (32 * u.count)))
    || l.any (fun d => decide (d.at_ ≠ e.at_) && e.meets d)) ldBadBounds e.at_) l
  eachOf (fun e => refuse (decide (e.off % 8 ≠ 0) || decide (2 ≤ e.flags) || (decide (e.flags = 1) && !e.isCode) || decide (12 < e.align)
    || (e.isCode && decide (1 < e.align)) || e.reserved) ldBadLayout e.at_) l

/-- The content of a section. -/
def Sect.body (e : Sect) (b : List Byte) : List Byte := (b.drop e.off).take e.size

/-- The one section of a type, if it is present. -/
def oneSect (l : List Sect) (t : Nat) : Option Sect := l.find? fun e => decide (e.type_ = t)

/-! ## Step 3: notes (01 R21, R22) -/

/-- ASCII text as bytes. -/
def asciiBytes (s : String) : List Byte := s.toList.map fun c => BitVec.ofNat 8 c.toNat

/-- The running loader firmware's version, a constant of the part (log 6). -/
def firmwareVersion : Nat := Config.deviceConst 12 % 2 ^ 32

/-- The records of a note section from offset `a` on: the descriptor of vw.build and the watchdog exponent. Of a known note that occurs twice the
last counts: the model's choice, the spec is silent (log 53). -/
def loadNotes : Nat → Nat → List Byte → List Byte × Nat → Ld (List Byte × Nat)
  | 0, _, _, r => .ok r
  | n + 1, a, l, r =>
    if l.isEmpty then .ok r else do
    let nl := field l 0 2; let fl := field l 2 2; let dl := field l 4 4
    let d := 8 + alignUp nl 8; let next := d + alignUp dl 8
    refuse (decide (l.length < 8) || decide (nl = 0) || decide (64 < nl) || decide (2 ≤ fl) || decide (l.length < next)
      || anyByte l (8 + nl) (d - (8 + nl)) || anyByte l (d + dl) (next - (d + dl))) ldBadLayout a
    let name := (l.drop 8).take nl; let desc := (l.drop d).take dl
    let go := fun (q : List Byte × Nat) => loadNotes n (a + next) (l.drop next) q
    if name = asciiBytes "vw.build" then go (desc, r.2)
    else if name = asciiBytes "vw.fwmin" then do
      refuse (decide (dl ≠ 4)) ldBadLayout a
      refuse (decide (firmwareVersion < field desc 0 4)) ldUnknownNote a
      go r
    else if name = asciiBytes "vw.watchdog" then do
      refuse (decide (dl ≠ 1) || decide (field desc 0 1 < 20) || decide (40 < field desc 0 1)) ldBadLayout a
      go (r.1, field desc 0 1)
    else do
      refuse (decide (fl = 1)) ldUnknownNote a
      go r

/-! ## Step 4: the signature chain (01 R37, R38; 25 R472) -/

/-- The owner system key: none on a part that is unowned. Both are constants of the part (log 6). -/
def ownerKey : Option (List Byte) := if Config.deviceConst 10 % 2 = 0 then none else some (toBytes 97 (Config.deviceConst 11))

/-- The certificates of a chain: key, reserved bytes and signature of each. -/
def certsOf (c : List Byte) : List (List Byte × List Byte × List Byte) :=
  (List.range (field c 0 4)).map fun i => let e := (c.drop (8 + 200 * i)).take 200; (e.take 97, (e.drop 97).take 7, e.drop 104)

/-- Every certificate after the first verifies over the digest of the key before it. -/
def chainLinks : List (List Byte × List Byte × List Byte) → Bool
  | a :: b :: l => ecdsaOk b.1 (sha384 a.1) b.2.2 && chainLinks (b :: l)
  | _ => true

/-- A chain verifies over an object digest, with the last key equal to the owner's. -/
def chainOk (digest chain : List Byte) : Bool :=
  let cs := certsOf chain; let n := field chain 0 4
  decide (1 ≤ n) && decide (n ≤ 4) && decide (chain.length = 8 + 200 * n) && !anyByte chain 4 4 && cs.all (fun c => !anyByte c.2.1 0 7)
    && (match cs with | [] => false | c :: _ => ecdsaOk c.1 digest c.2.2) && chainLinks cs
    && (match ownerKey, cs.getLast? with | some k, some c => decide (c.1 = k) | _, _ => false)

/-- The object digest: the SIGCHAIN content is read as zeros. -/
def objectDigest (b : List Byte) (l : List Sect) : List Byte :=
  match oneSect l 11 with
  | none => sha384 b
  | some e => sha384 (b.take e.off ++ List.replicate e.size 0 ++ b.drop (e.off + e.size))

/-! ## Step 5: KTAB and the code layout (01 R23 to R26, 21 R427) -/

/-- The code image: its bytes, the bytes of primary code, the pieces as (image offset, length, object offset, translated), the places of the
translations in the native image with their lengths, and the kernels that they fill. -/
structure CodeImage where
  bytes : List Byte
  primary : Option Nat
  pieces : List (Nat × Nat × Nat × Bool)
  inserts : List (Nat × Nat)
  filled : List (Nat × Nat × Nat)
deriving DecidableEq, Repr

/-- The code sections joined in order; `ktab` is the content of KTAB. -/
def joinCode (b : List Byte) (p11 : Bool) (ktab : List Byte) : List Sect → CodeImage → Ld CodeImage
  | [], m => .ok m
  | e :: l, m => do
    let here := m.bytes.length
    let defer := decide (e.flags = 1)
    refuse ((!defer && m.primary.isSome) || decide (e.size % 2 = 1)) ldBadLayout e.at_
    let m1 := if defer && m.primary.isNone then { m with primary := some here } else m
    if e.type_ = 3 then
      joinCode b p11 ktab l { m1 with bytes := m.bytes ++ e.body b, pieces := m.pieces ++ [(here, e.size, e.off, false)] }
    else
      match translateBiari p11 e.off (e.body b) with
      | .inl f => .error f
      | .inr (k, code) => do
        refuse (decide (ktab.length ≤ 16 * k) || m.filled.any (fun q => decide (q.1 = k)) || anyByte ktab (16 * k) 16) ldBadBiari (e.off + 4)
        joinCode b p11 ktab l { m1 with
          bytes := m.bytes ++ code, pieces := m.pieces ++ [(here, code.length, e.off, true)],
          inserts := m.inserts ++ [(here - (m.inserts.map (·.2)).sum, code.length)], filled := m.filled ++ [(k, here, code.length)] }

/-- The object offset of an offset of the code image: in a translation, that of its section. -/
def CodeImage.objectOff (m : CodeImage) (a : Nat) : Nat :=
  match m.pieces.find? fun q => decide (q.1 ≤ a) && decide (a < q.1 + q.2.1) with
  | none => a
  | some (o, _, off, tr) => if tr then off else off + (a - o)

/-- Entry `i` of KTAB as a kernel of the code image. -/
def ktabKernel (m : CodeImage) (ktab : List Byte) (off i : Nat) : Ld KtabE := do
  let start := field ktab (16 * i) 4; let len := field ktab (16 * i + 4) 4; let fl := field ktab (16 * i + 8) 4
  match m.filled.find? fun q => decide (q.1 = i) with
  | some (_, a, n) => return ⟨a, a + n, true⟩
  | none => do
    refuse (decide (2 ≤ fl) || anyByte ktab (16 * i + 12) 4 || m.inserts.any (fun q => decide (start < q.1) && decide (q.1 < start + len))) ldBadLayout (off + 16 * i)
    let a := start + ((m.inserts.filter fun q => decide (q.1 ≤ start)).map (·.2)).sum
    refuse (decide (m.bytes.length < a + len)) ldBadLayout (off + 16 * i)
    return ⟨a, a + len, decide (fl = 1)⟩

/-- The kernels of KTAB, which do not overlap. -/
def loadKtab (m : CodeImage) (ktab : List Byte) (off : Nat) : Nat → List KtabE → Ld (List KtabE)
  | 0, ks => .ok ks
  | n + 1, ks => do
    let i := ks.length
    let k ← ktabKernel m ktab off i
    refuse (decide (k.start < k.stop) && ks.any (fun j => decide (j.start < j.stop) && overlap k.start (k.stop - k.start) j.start (j.stop - j.start))) ldBadLayout (off + 16 * i)
    loadKtab m ktab off n (ks ++ [k])

/-- Step 5: CTRL, the code image and its kernels. -/
def loadCode (b : List Byte) (p11 : Bool) (l : List Sect) : Ld (CodeImage × List KtabE) := do
  eachOf (fun e => refuse (decide (0x38000 < e.size)) ldBadLayout e.at_) (oneSect l 1).toList
  match oneSect l 2 with
  | none => return (⟨[], none, [], [], []⟩, [])
  | some t => do
    refuse (decide (t.size = 0) || decide (t.size % 16 ≠ 0) || decide (4096 < t.size)) ldBadLayout t.at_
    let ktab := t.body b
    let m ← joinCode b p11 ktab (l.filter (·.isCode)) ⟨[], none, [], [], []⟩
    let ks ← loadKtab m ktab t.off (t.size / 16) []
    return (m, ks)

/-! ## Steps 6 to 9: the code (01 R32 to R35) -/

/-- The bundles of a kernel. -/
def KtabE.bundles (k : KtabE) (p11 : Bool) (m : CodeImage) : Nat ⊕ List BInfo :=
  walkBundles p11 k.stop (k.stop - k.start + 1) k.start ((m.bytes.drop k.start).take (k.stop - k.start))

/-- The static checks of every kernel: each step over all kernels before the next. -/
def checkCode (p11 : Bool) (m : CodeImage) (ks : List KtabE) : Ld Unit := do
  eachOf (fun k => match k.bundles p11 m with
    | .inl a => refuse true ldBadBundle (m.objectOff a)
    | .inr _ => .ok ()) ks
  let all := ks.map fun k => (k, match k.bundles p11 m with | .inl _ => [] | .inr bs => bs)
  eachOf (fun q => eachOf (fun i => refuse (badBranch q.2 (bodiesOf q.2) i) ldBadBranch (m.objectOff (bundleAt q.2 i).at_)) (List.range q.2.length)) all
  eachOf (fun q => match badLoop q.2 (bodiesOf q.2) with
    | some i => refuse true ldBadLoop (m.objectOff (bundleAt q.2 i).at_)
    | none => .ok ()) all
  eachOf (fun q => match badDistance q.2 q.1.interlocked with
    | some a => refuse true ldPreemptDistance (m.objectOff a)
    | none => .ok ()) all

/-! ## Step 10: the routines (01 R36, R480) -/

/-- The records of a ROUTINE section from offset `a` on. -/
def loadRoutines : Nat → Nat → List Byte → List (Nat × List Dword) → Ld (List (Nat × List Dword))
  | 0, _, _, rs => .ok rs
  | n + 1, a, l, rs =>
    if l.isEmpty then .ok rs else do
    let w := field l 0 4
    refuse (decide (l.length < 8) || decide (w = 0) || decide (4096 < w) || anyByte l 4 4 || decide (l.length < 8 + 8 * w)) ldBadLayout a
    loadRoutines n (a + 8 + 8 * w) (l.drop (8 + 8 * w)) (rs ++ [(a, (List.range w).map fun i => BitVec.ofNat 64 (field l (8 + 8 * i) 8))])

/-- The most cycles of words `i` up to `stop` of a routine: a LOOPK runs its body the greatest number of times, a KSTEPS takes its overflow
path. -/
def routineCycles (ws : List Dword) (stop : Nat) : Nat → Nat → Nat
  | 0, _ => 0
  | n + 1, i =>
    if stop ≤ i then 0 else
    let w := (ws.getD i 0).toNat
    match w / 2 ^ 58 with
    | 0x02 => 2 + routineCycles ws stop n (i + 1)
    | 0x08 =>
      let last := min stop (i + 1 + w / 2 ^ 16 % 4096)
      1 + w % 4096 * routineCycles ws last n (i + 1) + routineCycles ws stop n last
    | 0x0D => 1 + routineCycles ws stop n (i + w % 4096)
    | 0x0E => 1
    | _ => 1 + routineCycles ws stop n (i + 1)

/-- Words of the store that the standard library leaves free (11 R296, R303). -/
def storeFree : Nat := 4096 - ((List.range 7).map fun i => (libraryWords i).length).sum

/-- Step 10. -/
def checkRoutines (e : Sect) (b : List Byte) : Ld (List (List Dword)) := do
  let rs ← loadRoutines (e.size + 1) e.off (e.body b) []
  eachOf (fun r => refuse (decide (4096 < routineCycles r.2 r.2.length (r.2.length + 1) 0)) ldRoutineLength r.1) rs
  refuse (decide (storeFree < (rs.map fun r => r.2.length).sum) || decide (128 < rs.length)) ldRoutineLength e.at_
  return rs.map (·.2)

/-! ## Step 11: the tables (01 R27 to R31) -/

/-- The SEGTAB entry at offset `o` of the object breaks R28 by itself. -/
def badSegment (b : List Byte) (l : List Sect) (o : Nat) : Bool :=
  let e := (b.drop o).take 32
  let base := field e 0 8; let len := field e 8 8; let fl := field e 16 4; let kind := fl / 16 % 4; let data := field e 22 2; let imp := field e 25 1
  decide (2 ^ 48 ≤ base) || decide (base % 4096 ≠ 0) || decide (len = 0) || decide (len % 4096 ≠ 0) || decide (2 ^ 48 < base + len) || decide (64 ≤ fl)
    || decide (kind = 3) || (decide (fl / 8 % 2 = 1) && decide (field e 20 2 = 0xFFFF)) || decide (5 < field e 24 1) || decide (7 < imp)
    || (decide (kind ≠ 1) && decide (imp ≠ 0)) || (decide (kind ≠ 2) && decide (data ≠ 0xFFFF)) || anyByte e 26 6
    || (decide (kind = 2) && (l[data]?.all fun d => decide (d.type_ ≠ 9) || decide (len < d.size)))

/-- SEGTAB. A size that is 0 or no multiple of 32 is BAD_SEGMENT at the table: the model's choice, the spec names no code for it (log 53). -/
def checkSegtab (b : List Byte) (l : List Sect) (t : Sect) : Ld Unit := do
  refuse (decide (t.size = 0) || decide (t.size % 32 ≠ 0) || decide (2048 < t.size)) ldBadSegment t.at_
  eachOf (fun i =>
    let o := t.off + 32 * i
    refuse (badSegment b l o || (List.range i).any fun j => let q := t.off + 32 * j; overlap (field b o 8) (field b (o + 8) 8) (field b q 8) (field b (q + 8) 8))
      ldBadSegment o) (List.range (t.size / 32))

/-- The ranks of the GRPTAB entry at offset `o`, and the entry as the launch engine keeps it. -/
def groupEntry (b : List Byte) (o : Nat) : List Nat × List Nat :=
  ([field b o 1, field b (o + 1) 1], maskSps (field b (o + 8) 20))

/-- GRPTAB. -/
def checkGrptab (b : List Byte) (t : Sect) : Ld (List (List Nat × List Nat)) := do
  refuse (decide (t.size % 32 ≠ 0) || decide (0x2000 < t.size)) ldBadGroup t.at_
  let es := (List.range (t.size / 32)).map fun i => groupEntry b (t.off + 32 * i)
  eachOf (fun i =>
    let o := t.off + 32 * i; let e := es.getD i ([], []); let before := es.take i; let port := e.1.getD 1 0
    refuse (anyByte b (o + 2) 6 || anyByte b (o + 28) 4 || (decide (3 < port) && decide (port ≠ 0xFF)) || before.any (fun d => decide (d.1.getD 0 0 = e.1.getD 0 0))
      || e.2.any (fun r => decide (4 ≤ (before.filter fun d => d.2.contains r).length) || (decide (port < 4) && before.any fun d => decide (d.1.getD 1 0 = port) && d.2.contains r)))
      ldBadGroup o) (List.range es.length)
  return es

/-- SLOTTAB: the entries that are not free. A size that is no multiple of 520 is BAD_SLOTTAB: the model's choice, the spec names no code for it
(log 53). -/
def checkSlottab (b : List Byte) (t : Sect) : Ld (List (Nat × Nat × Nat × Nat)) := do
  refuse (decide (t.size % 520 ≠ 0)) ldBadSlottab t.at_
  let n := t.size / 520
  let target := fun (i : Nat) => (field b (t.off + 520 * i) 1, field b (t.off + 520 * i + 2) 2)
  eachOf (fun i =>
    let o := t.off + 520 * i; let q := target i
    refuse (decide (1 < q.1) || decide ((if q.1 = 1 then 16 else 160) ≤ q.2) || anyByte b (o + 1) 1 || anyByte b (o + 4) 4 || (List.range i).any (fun j => decide (target j = q))
      || (List.range 256).any fun j => let e := field b (o + 8 + 2 * j) 2; decide (e / 2 ^ 4 % 16 ≠ 0) || decide (e / 2 ^ 12 % 8 ≠ 0)) ldBadSlottab o) (List.range n)
  return (List.range n).flatMap fun i => (List.range 256).filterMap fun j =>
    let e := field b (t.off + 520 * i + 8 + 2 * j) 2
    if e / 2 ^ 15 = 1 then none else some ((target i).1, (target i).2, j, e / 256 % 16 * 16 + e % 16)

/-- The declarations placed one after another in an empty SRF; the first that finds no base. -/
def noBase : List PoldecE → KMap Polder → Option PoldecE
  | [], _ => none
  | e :: l, own =>
    match placePolder Sp.init own e.log2 with
    | none => some e
    | some a => noBase l (KMap.ins e.handle (Polder.fresh e.kind e.log2 a false) own)

/-- POLDER, in handle order. -/
def checkPolders (b : List Byte) (t : Sect) : Ld (List PoldecE) := do
  refuse (decide (t.size % 8 ≠ 0) || decide (512 < t.size)) ldBadLayout t.at_
  let n := t.size / 8
  let dec := fun (i : Nat) => let o := t.off + 8 * i; (⟨field b o 1, field b (o + 1) 1, field b (o + 2) 1⟩ : PoldecE)
  eachOf (fun i =>
    let e := dec i
    refuse (decide (63 < e.handle) || decide (2 < e.kind) || decide (e.log2 < 12) || decide (22 < e.log2) || anyByte b (t.off + 8 * i + 3) 5
      || (List.range i).any fun j => decide ((dec j).handle = e.handle)) ldBadLayout (t.off + 8 * i)) (List.range n)
  let es := (List.range 64).filterMap fun h => ((List.range n).find? fun i => decide ((dec i).handle = h)).map dec
  match noBase es [] with
  | none => return es
  | some e => .error (ldBadLayout, t.off + 8 * (((List.range n).find? fun i => decide ((dec i).handle = e.handle)).getD 0))

/-! ## The whole -/

/-- A table that may be absent. -/
def maybe {α : Type} (d : α) (e : Option Sect) (f : Sect → Ld α) : Ld α := match e with
  | none => .ok d
  | some t => f t

/-- Steps 1 to 11: what the object gives the handle, and its code image. The placement is still to come. -/
def loadObject (b : List Byte) : Ld (Code × List Byte) := do
  let u ← loadHeader b
  let l := sectsOf b u
  checkSects b.length u l
  let notes ← maybe ([], 27) (oneSect l 10) fun t => loadNotes (t.size + 1) t.off (t.body b) ([], 27)
  let digest := objectDigest b l
  let chain := ((oneSect l 11).map fun t => t.body b).getD []
  refuse (u.sysreq && !chainOk digest chain) ldSignature (((oneSect l 11).map (·.at_)).getD 12)
  let code ← loadCode b u.p11 l
  checkCode u.p11 code.1 code.2
  let routines ← maybe [] (oneSect l 4) fun t => checkRoutines t b
  maybe () (oneSect l 5) fun t => checkSegtab b l t
  let groups ← maybe [] (oneSect l 6) fun t => checkGrptab b t
  let slots ← maybe [] (oneSect l 7) fun t => checkSlottab b t
  let polders ← maybe [] (oneSect l 8) fun t => checkPolders b t
  let bytes := code.1.bytes
  let c : Code := {
    handle := 0, base := 0, len := bytes.length, admitted := code.1.primary.getD bytes.length, ctrl := ((oneSect l 1).map fun t => t.body b).getD [], ktab := code.2,
    segtab := ((oneSect l 5).map fun t => t.body b).getD [], grptab := groups, slottab := slots, polders := polders,
    data := (List.range l.length).filterMap (fun i => (l[i]?.filter fun e => decide (e.type_ = 9)).map fun e => (i, e.body b)), routines := routines,
    profile := if u.p11 then 0x101 else 0x100, system := u.sysreq, wdog := notes.2, slots := !slots.isEmpty, unloading := false,
    digest := digest, chain := chain, build := u.build, note := notes.1 }
  return (c, bytes)

/-- The lowest place of an arena for a code image: a multiple of 64, clear of the other placements (01 R25). That the lowest place that fits is
taken is the model's choice: the spec names none of the free ones (log 53). -/
def Part.arenaPlace (p : Part) (len : Nat) : Option Nat :=
  least (((p.arenaBase :: p.codes.map fun c => c.base + c.len).map fun a => alignUp a 64).filter fun a =>
    decide (a + len ≤ p.arenaBase + p.arena) && !p.codes.any fun c => overlap a len c.base c.len)

/-! ## LOAD and UNLOAD (02 R52, 01 R40) -/

/-- One byte of the partition's memory by IA: a linear one stands at its own address, a paged one where its page is; none where no page is
mapped. -/
def State.iaPlace (s : State) (p : Part) (ia : Nat) : Option Nat :=
  if iaLinear ia then some ia else
  match (walkIa s.linMem p (s.tblockHead p) ia).1 with
  | .page b _ f _ _ => some (f + (ia - b))
  | .fault _ => none

/-- The staged bytes, a line at a time; a poisoned line gives bytes that the spec leaves open. -/
def State.stagedBytes (s : State) (p : Part) (ia len : Nat) : Option (List Byte) :=
  (beatsOf ia len 0 len).foldl (fun (m : Option (List Byte)) q =>
    m.bind fun l => (s.iaPlace p (ia + q.1)).map fun a =>
      l ++ (if s.poison.contains (a / 64) then toBytes q.2 (Config.freeNat (s.ctr + q.1)) else s.lineRead (ia + q.1) a q.2)) (some [])

/-- The answer of a load: the handle, and the code in the status field. -/
def State.loadResult (s : State) (h : VctHdr) (handle code : Nat) : State := s.replyOwn h vtLoadResult code (toBytes 8 handle)

/-- A staged object is loaded into partition `part`: the first failure is answered and kept with its offset in the firmware's log; else the
object is placed at once (01 R39, R40). LOAD_RESULT has no field for the offset of the failing item: that it stands in the device's error
log, as code × 2^56 + offset, and that NO_SPACE gives offset 0, are the model's choices (log 53). -/
def State.loadInto (s : State) (h : VctHdr) (part : Nat) (p : Part) (b : List Byte) : State :=
  let fail := fun (e : Nat × Nat) => { s with dev := { s.dev with errlog := s.dev.errlog ++ [BitVec.ofNat 64 (e.1 * 2 ^ 56 + e.2)] } }.loadResult h 0 e.1
  match loadObject b with
  | .error e => fail e
  | .ok (c, bytes) =>
    match p.arenaPlace bytes.length with
    | none => fail (ldNoSpace, 0)
    | some a =>
      let s1 := { s with code := bytesWrite s.code a bytes, nextHandle := s.nextHandle + 1 }
      (s1.setPart part { p with codes := p.codes ++ [{ c with handle := s.nextHandle, base := a }] }).loadResult h s.nextHandle 0

/-- LOAD (02 R52): a range outside the partition's memory, or not mapped, is answered BAD_ADDRESS. -/
def execLoad (h : VctHdr) (ia len : Nat) (s : State) : Host.Outcome State Fault Refusal :=
  .next (s.vctBound h (.load h ia len) fun part s =>
    match s.part part with
    | none => s.nak h nkUnbound
    | some p =>
      match if p.inMemory ia len then s.stagedBytes p ia len else none with
      | none => s.nak h nkBadAddress
      | some b => { s with ctr := s.ctr + len + 1 }.loadInto h part p b)

/-- UNLOAD (01 R40): no launch names the handle from now on; its code is freed once every launch that names it has left. -/
def execUnload (h : VctHdr) (handle : Nat) (s : State) : Host.Outcome State Fault Refusal :=
  .next (s.vctBound h (.unload h handle) fun part s =>
    match s.part part with
    | none => s.nak h nkUnbound
    | some p =>
      if p.codes.all fun c => decide (c.handle ≠ handle) || c.unloading then s.nak h nkBadHandle
      else
        let used := s.launches.any fun l => decide (l.part = part) && decide (l.handle = handle)
        (s.setPart part { p with
          codes := if used then p.codes.map (fun c => if c.handle = handle then { c with unloading := true } else c)
                   else p.codes.filter fun c => decide (c.handle ≠ handle) }).ackMsg h)

end Sys2Proof.Machine
end

