-- ==== Sys2Proof/Machine/Device.lean ====
section
/-! DEFINITION. The device (25 R467 to R479): power, thermal protection, reset and boot, attestation, snapshots, debug, JTAG, and writes of
the register space. -/

namespace Sys2Proof.Machine

/-! ## Reset and boot (25 R468, R470 to R472) -/

/-- The part after a reset: every register at its reset value, no launch, no partition; what it has sent stays sent. -/
def State.cleared (s : State) : State :=
  { State.reset with
    now := s.now, ctr := s.ctr, nextId := s.nextId, nextHandle := s.nextHandle, out := s.out, fout := s.fout, frames := s.frames, recordsOut := s.recordsOut,
    dev := { Dev.init with flash := s.dev.flash, rails := s.dev.rails, tapIr := s.dev.tapIr, tapBypass := s.dev.tapBypass, tapOut := s.dev.tapOut } }

/-- The fuses (25 R472): the digest of key slot `i`, whether it is revoked, the rollback counter, and JTAGREG. -/
def fuseDigest (i : Nat) : List Byte := toBytes 48 (Config.deviceConst (20 + i))
def fuseRevoked (i : Nat) : Bool := decide (Config.deviceConst (24 + i) % 2 = 1)
def fuseRollback : Nat := Config.deviceConst 28 % 2 ^ 32
def fuseJtagReg : Bool := decide (Config.deviceConst 29 % 2 = 1)

/-- Why an image of a type is refused, 0 where it is accepted: 1 header, 2 slot or key, 3 revoked, 4 version, 5 signature (25 R471, R472;
log 21). -/
def imageCause (type : Nat) (l : List Byte) : Nat :=
  let slot := field l 6 2; let n := field l 12 4
  if l.length < 256 ∨ field l 0 4 ≠ 0x3F4E5756 ∨ field l 4 2 ≠ type ∨ 3 < slot ∨ l.length < 256 + n then 1
  else if ownerKey.isNone then 0
  else if sha384 ((l.drop 16).take 97) ≠ fuseDigest slot then 2
  else if fuseRevoked slot then 3
  else if field l 8 4 < fuseRollback then 4
  else if !ecdsaOk ((l.drop 16).take 97) (sha384 (l.take 160 ++ (l.drop 256).take n)) ((l.drop 160).take 96) then 5 else 0

/-- The cause with which both copies of an image fail, 0 where one is accepted. -/
def Dev.bootCause (d : Dev) (type : Nat) : Nat :=
  let one := fun copy => match KMap.find (2 * type + copy) d.flash with
    | none => 0
    | some l => imageCause type l
  if one 0 = 0 then 0 else one 1

/-- The image of a type that is accepted, none where it is one that no flash content of the model holds. -/
def Dev.bootImage (d : Dev) (type : Nat) : Option (List Byte) :=
  (KMap.find (2 * type) d.flash).bind fun l => if imageCause type l = 0 then some l else KMap.find (2 * type + 1) d.flash

/-- The boot chain: images 1 to 5 in their order. The first that fails in both copies leaves its type and cause in BOOTSTAT, and the host
port down. -/
def Dev.boot (d : Dev) : Dev :=
  match [1, 2, 3, 4, 5].find? fun t => decide (d.bootCause t ≠ 0) with
  | none => { d with bootstat := 0, hostUp := true, inReset := 0 }
  | some t => { d with bootstat := BitVec.ofNat 64 (t + d.bootCause t * 2 ^ 8), hostUp := false, inReset := 0 }

/-- The part restarts. -/
def State.restart (s : State) : State := let t := s.cleared; { t with dev := t.dev.boot }

/-- The part is held in reset. -/
def State.hold (s : State) (why : Nat) : State := let t := s.cleared; { t with dev := { t.dev with inReset := why, hostUp := false } }

/-- POWER_ON_RESET (25 R468, R470): the rails have risen in their order. -/
def execPowerOnReset (s : State) : Host.Outcome State Fault Refusal := .next ({ s with dev := { s.dev with rails := [] } }.restart)

/-- RAIL_DROP (25 R468): a rail below 90 % of nominal resets the part, which stays in reset until the rails have risen again. -/
def execRailDrop (rail : Nat) (s : State) : Host.Outcome State Fault Refusal :=
  .next (if 7 ≤ rail then s else { s with dev := { s.dev with rails := rail :: s.dev.rails } }.hold 1)

/-- WARM_RESET (25 R470). -/
def execWarmReset (s : State) : Host.Outcome State Fault Refusal := .next (if s.dev.inReset ≠ 0 then s else s.restart)

/-! ## Temperature (25 R469) -/

/-- Thermal sensors of the part: 16 on each compute die, 4 on each I/O die. -/
abbrev sensors : Nat := 72

/-- THERMAL_WARN: a sensor reads 105 °C. -/
def execThermalWarn (sensor : Nat) (s : State) : Host.Outcome State Fault Refusal :=
  .next (if sensors ≤ sensor ∨ s.dev.inReset ≠ 0 then s else { s with dev := { s.dev with warn := true } })

/-- THERMAL_TRIP: a sensor reads 115 °C: every launch ends as by CANCEL, each COMPLETE is sent, and the part is held in reset. -/
def execThermalTrip (sensor : Nat) (s : State) : Host.Outcome State Fault Refusal :=
  .next (
    if sensors ≤ sensor ∨ s.dev.inReset ≠ 0 then s else
    let s1 := s.launches.foldl (fun t l => t.endLaunch l.id 3 0xFFFF 0 0 0) s
    (s1.launches.foldl (fun t l => t.sendComplete l) s1).hold 2)

/-- THERMAL_RECOVER: every sensor reads below 95 °C, and the part leaves the thermal reset. -/
def execThermalRecover (s : State) : Host.Outcome State Fault Refusal := .next (if s.dev.inReset = 2 then s.restart else s)

/-! ## Attestation (25 R473) -/

/-- The most cycles that a report takes: 10 ms. -/
abbrev reportCycles : Nat := 10500000

/-- The report is begun, unless one is being built. -/
def State.attGo (s : State) : State := if s.dev.attBusy then s else { s with dev := { s.dev with attBusy := true, attDone := false } }

/-- ATTGO. -/
def execAttgo (s : State) : Host.Outcome State Fault Refusal := .next s.attGo

/-- The report: nonce, version and digest of each image, key slot, fuse state and signature, in that order (log 21). What the images, the
fuses and the signature are is the part's (log 6). -/
def State.attReport (s : State) : List Byte :=
  let nonce := (s.dev.attNonce ++ List.replicate 48 0).take 48
  let images := [1, 2, 3, 4, 5].flatMap fun t => match s.dev.bootImage t with
    | none => toBytes 4 (Config.deviceConst (30 + t)) ++ toBytes 48 (Config.deviceConst (40 + t))
    | some l => (l.drop 8).take 4 ++ sha384 ((l.drop 256).take (field l 12 4))
  let body := nonce ++ images ++ toBytes 1 (Config.deviceConst 50 % 4) ++ toBytes 8 (Config.deviceConst 51)
  (body ++ List.replicate 416 0).take 416 ++ toBytes 96 (Config.freeNat s.ctr)

/-- ATTESTATION_DONE: the report is ready. -/
def execAttestationDone (s : State) : Host.Outcome State Fault Refusal :=
  .next (if s.dev.attBusy then { s with ctr := s.ctr + 1, dev := { s.dev with report := s.attReport, attDone := true, attBusy := false } } else s)

/-! ## Snapshots (25 R476, R477) -/

/-- Cycles from a trigger to the latch. -/
abbrev snapDelay : Nat := 64

/-- A trigger: ignored, and counted in LOST, while a snapshot is held. -/
def State.snapTrigger (s : State) : State :=
  if bits s.dev.snapctl 0 1 = 1 then
    let lost := bits s.dev.snapctl 16 16
    { s with dev := { s.dev with snapctl := BitVec.ofNat 64 (s.dev.snapctl.toNat - lost * 2 ^ 16 + min 0xFFFF (lost + 1) * 2 ^ 16) } }
  else { s with dev := { s.dev with snapT := s.dev.snapT ++ [s.now + snapDelay] } }

/-- SNAPTRIG. -/
def execSnaptrig (s : State) : Host.Outcome State Fault Refusal := .next s.snapTrigger

/-- SNAPSHOT_PACKET: a packet of op 9 has come to a scale-up port. -/
def execSnapshotPacket (port : Nat) (s : State) : Host.Outcome State Fault Refusal := .next (if (s.port port).mode = 1 then s.snapTrigger else s)

/-- What an SP latches: kernel pc and cycle count, kstat, controller pc, scoreboard occupancy, and the four watermarks. -/
def Sp.live (p : Sp) : List Dword :=
  match p.ctx with
  | none => List.replicate 9 0
  | some c =>
    [BitVec.ofNat 64 c.kern.pc, BitVec.ofNat 64 c.kern.cycles, BitVec.ofNat 64 c.kstat, c.pc, BitVec.ofNat 64 c.entries.length]
      ++ (List.range 4).map fun t => BitVec.ofNat 64 (c.matrix.wmOf t)

/-- The snapshot packet. -/
def snapPacket (own : Nat) : Packet :=
  { op := 9, srcPkg := own, dstPkg := 0xFFFF, srcPart := 0, dstPart := 0, ia := 0, engine := 0, seq := 0, sub := 0, status := 0, launch := 0, rank := 0, data := [],
    poison := false }

/-- SNAPSHOT_LATCH: on cycle T every block latches its state; with SEND set a packet leaves on each port of SNAPFWD. -/
def execSnapshotLatch (s : State) : Host.Outcome State Fault Refusal :=
  .next (match s.dev.snapT.find? fun t => decide (t ≤ s.now) with
    | none => s
    | some t =>
      let q := s.fresh
      let s1 : State := { q.2 with
        sps := q.2.sps.map fun (e : Nat × Sp) => (e.1, { e.2 with snap := e.2.live }),
        dev := { s.dev with snapT := dropFirst (fun t => decide (t ≤ s.now)) s.dev.snapT, snapcyc := BitVec.ofNat 64 t, snapNo := some q.1, snapctl := s.dev.snapctl ||| 1 } }
      if bits s.dev.snapctl 1 1 = 1 then
        ((List.range 16).filter fun n => decide (bits s.dev.snapfwd n 1 = 1) && decide ((s.port n).mode = 1)).foldl (fun t n => t.sendPacket n (snapPacket s.dev.pkg)) s1
      else s1)

/-- SNAPCTL.VALID written with 1. -/
def State.snapClear (s : State) : State := { s with dev := { s.dev with snapctl := BitVec.ofNat 64 (s.dev.snapctl.toNat - bits s.dev.snapctl 0 1) } }

/-- SNAPCTL_VALID_CLEAR (25 R477). -/
def execSnapctlValidClear (s : State) : Host.Outcome State Fault Refusal := .next s.snapClear

/-! ## Debug (25 R479) -/

/-- DBGCTL.ATTACH written with 1. -/
def execDbgctlAttach (k : Nat) (s : State) : Host.Outcome State Fault Refusal :=
  .next (if 160 ≤ k then s else s.modSp k fun p => { p with attach := true })

/-- DBGCTL.GO written with 1: a stopped controller goes on after its EBREAK (log 21). -/
def State.dbgGo (s : State) (k : Nat) : State :=
  if !(s.sp k).dbgStopped then s else
  s.modSp k fun p =>
    { p with dbgStopped := false, ctx := p.ctx.map fun c => c.advance (if (cmByte p.cm c.pc.toNat).toNat % 4 = 3 then 4 else 2) }

/-- DBGCTL_GO. -/
def execDbgctlGo (k : Nat) (s : State) : Host.Outcome State Fault Refusal := .next (s.dbgGo k)

/-! ## Writes of the register space (25 R474, R475) -/

/-- The bits `mask` of a register written. -/
def written (mask : Nat) (v : Dword) : Dword := v &&& BitVec.ofNat 64 mask

/-- Writable bits of PEER and EXPORT words and of TOKTAB (15 R387 to R389). -/
abbrev peerMask0 : Nat := 2 ^ 63 + 31 * 2 ^ 53 + 0xFFFF * 2 ^ 32 + 15 * 2 ^ 28 + 63 * 2 ^ 22
abbrev exportMask0 : Nat := 7 * 2 ^ 61 + 31 * 2 ^ 53 + 0xFFFF * 2 ^ 32 + 0xFFFFFFFF
abbrev baseMask : Nat := (2 ^ 31 - 1) * 2 ^ 21
abbrev toktabMask : Nat := 2 ^ 63 + (2 ^ 40 - 1) * 2 ^ 12 + 31

/-- The bytes of a list with the 8 from `o` replaced. -/
def putWord (l : List Byte) (n o : Nat) (v : Dword) : List Byte :=
  let l := (l ++ List.replicate n 0).take n
  l.take o ++ toBytes 8 v.toNat ++ l.drop (o + 8)

/-- A window register written. -/
def Windows.writeReg (p : Windows) (o : Nat) (v : Dword) : Windows :=
  let j := o / 8 % 2
  if o < 0xF0 then { p with peer := KMap.put 0 p.peer (2 * (o / 16 + 1) + j) (written (if j = 0 then peerMask0 else baseMask) v) }
  else if 0x100 ≤ o ∧ o < 0x200 then { p with export_ := KMap.put 0 p.export_ (2 * ((o - 0x100) / 16) + j) (written (if j = 0 then exportMask0 else baseMask) v) }
  else if o = 0x200 then { p with toktab := written toktabMask v }
  else p

/-- A window register of partition `n` written, whether the partition exists or not (25 R475). -/
def State.writeWindow (s : State) (n o : Nat) (v : Dword) : State :=
  let w := (s.windows n).writeReg o v
  match s.part n with
  | none => { s with shelf := KMap.ins n w s.shelf }
  | some p => s.setPart n { p with peer := w.peer, export_ := w.export_, toktab := w.toktab }

/-- A write of a register that exists: the writable fields change, a field with an effect has it, the others ignore the write. -/
def State.regSet (s : State) (a : Nat) (v : Dword) : State :=
  if a = 0 then (if bits v 0 1 = 1 then s.restart else s)
  else if a = 8 then { s with dev := { s.dev with pkg := bits v 0 16 } }
  else if 0x1000 ≤ a ∧ a < 0x1030 then { s with dev := { s.dev with attNonce := putWord s.dev.attNonce 48 (a - 0x1000) v } }
  else if a = 0x1030 then (if bits v 0 1 = 1 then s.attGo else s)
  else if a = 0x2000 then
    let s1 := if bits v 0 1 = 1 then s.snapClear else s
    { s1 with dev := { s1.dev with snapctl := BitVec.ofNat 64 (s1.dev.snapctl.toNat - bits s1.dev.snapctl 1 1 * 2 + bits v 1 1 * 2) } }
  else if a = 0x2008 then s.snapTrigger
  else if a = 0x2018 then { s with dev := { s.dev with snapfwd := written 0xFFFF v } }
  else if 0x20000 ≤ a ∧ a < 0x40000 then s.writeWindow ((a - 0x20000) / 0x1000) (a % 0x1000) v
  else if 0x40000 ≤ a ∧ a < 0x50000 then
    let n := (a - 0x40000) / 0x1000; let o := a % 0x1000
    if o = 0 then s.modPort n fun p => p.writeCfg (s.portOwned n) v
    else if 0x400 ≤ o ∧ o < 0x800 then s.modPort n fun p => { p with ip := KMap.put 0 p.ip ((o - 0x400) / 8) v.toNat }
    else s
  else if 0x100000 ≤ a ∧ a < 0x1A0000 ∧ a % 0x1000 = 8 then
    let k := (a - 0x100000) / 0x1000
    let s1 := s.modSp k fun p => { p with attach := p.attach || decide (bits v 0 1 = 1) }
    if bits v 1 1 = 1 then s1.dbgGo k else s1
  else s

/-- A write of the register space: one to a hole is ignored and counted. -/
def State.regWrite (s : State) (a : Nat) (v : Dword) : State :=
  match s.regRead a with
  | none => s.holeHit
  | some _ => s.regSet a v

/-- REGISTER_WRITE (25 R474). -/
def execRegisterWrite (a : Nat) (v : Dword) (s : State) : Host.Outcome State Fault Refusal := .next (if a % 8 = 0 ∧ a < 2 ^ 24 then s.regWrite a v else s)

/-- HOLE_READ (25 R474): a read of a hole by the Amigar core. -/
def execHoleRead (a : Nat) (s : State) : Host.Outcome State Fault Refusal := .next (if a % 8 = 0 ∧ (s.regRead a).isNone then s.holeHit else s)

/-! ## JTAG (25 R478) -/

/-- Codes under which the model keeps the TAP's instruction (log 21). -/
abbrev tapIdcode : Nat := 1
abbrev tapRegacc : Nat := 2
abbrev tapBypass : Nat := 3
abbrev tapSample : Nat := 4
abbrev tapExtest : Nat := 5

/-- An instruction of the TAP, and what it shifts out. -/
def State.tap (s : State) (ir : Nat) (v : List Dword) : State := { s with dev := { s.dev with tapIr := ir, tapOut := s.dev.tapOut ++ v } }

/-- JTAG_REGACC: one access, while fuse JTAGREG is set; otherwise it reads 0 and writes nothing. The word shifted out is what was read. -/
def execJtagRegacc (a : Nat) (wr : Bool) (v : Dword) (s : State) : Host.Outcome State Fault Refusal :=
  .next (
    if !fuseJtagReg ∨ a % 8 ≠ 0 ∨ 2 ^ 24 ≤ a then s.tap tapRegacc [0]
    else if wr then (s.regWrite a v).tap tapRegacc [0]
    else let q := s.regAccess a; q.2.tap tapRegacc [q.1])

/-- IDCODE: revision 1, part 0x4400, the manufacturer identity of the fuses, and 1. -/
def idcode : Dword := BitVec.ofNat 64 (2 ^ 28 + 0x4400 * 2 ^ 12 + Config.deviceConst 14 % 2 ^ 11 * 2 + 1)

/-- JTAG_IDCODE. -/
def execJtagIdcode (s : State) : Host.Outcome State Fault Refusal := .next (s.tap tapIdcode [idcode])

/-- JTAG_BYPASS: one bit delays what is shifted through. -/
def execJtagBypass (tdi : Bool) (s : State) : Host.Outcome State Fault Refusal :=
  .next (
    let t := s.tap tapBypass [if s.dev.tapIr = tapBypass ∧ s.dev.tapBypass then 1 else 0]
    { t with dev := { t.dev with tapBypass := tdi } })

/-- JTAG_SAMPLE_PRELOAD: the state of the pins, which the spec does not give, is shifted out. -/
def execJtagSamplePreload (s : State) : Host.Outcome State Fault Refusal :=
  .next (let q := s.fresh; q.2.tap tapSample [BitVec.ofNat 64 (Config.freeNat q.1)])

/-- JTAG_EXTEST: the pins are driven from the boundary register, which no state of the part depends on. -/
def execJtagExtest (s : State) : Host.Outcome State Fault Refusal := .next (s.tap tapExtest [])

/-- JTAG_TRST: the TAP alone is reset; IDCODE is selected, as IEEE 1149.1 has it. -/
def execJtagTrst (s : State) : Host.Outcome State Fault Refusal :=
  .next { s with dev := { s.dev with tapIr := tapIdcode, tapBypass := false } }

end Sys2Proof.Machine
end

