-- ==== Sys2Proof/Machine/Image.lean ====
section
/-! DEFINITION. The saved image of a context as bytes (19 R411 to R416, 13 R344): what a write-out puts into the context record. The machine
goes on from the context as it was saved; these bytes are what the memory shows of it (log 20). -/

namespace Sys2Proof.Machine

/-- A piece of an image: its offset and its bytes. -/
abbrev Piece := Nat × List Byte

/-- A list of values of `n` bytes each. -/
def words (n : Nat) (l : List Nat) : List Byte := l.flatMap (toBytes n)

/-- The address of a code place as an offset from cbase. -/
def Ctx.offset (c : Ctx) (a : Nat) : Nat := a - c.cbase.toNat

/-! ## Landing entries (19 R413) -/

/-- The tag of an entry. -/
def landTag (kind reg left addr desc : Nat) : Nat := reg % 256 + left % 32 * 2 ^ 8 + kind * 2 ^ 13 + addr * 2 ^ 16 + desc * 2 ^ 36

/-- A uniform entry: value and tag. -/
def uniformEntry (l : Landing) : Option (Nat × Nat) :=
  match l.what with
  | .word .q _ n v => some (v.toNat, landTag 0 n l.left 0 0)
  | .word .c _ n v => some (v.toNat, landTag 1 n l.left 0 0)
  | .word .p _ n v => some (v.toNat / 1024 * 2 ^ 10 + v.toNat % 1024, landTag 2 n l.left 0 0)
  | .word .m _ n v => some (v.toNat, landTag 3 n l.left 0 0)
  | .word .b _ n v => some (v.toNat, landTag 4 n l.left 0 0)
  | .kmode v => some (v, landTag 5 0 l.left 0 0)
  | _ => none

/-- A scalar entry of a cluster. -/
def scalarEntry (cl : Nat) (l : Landing) : Option (Nat × Nat) :=
  match l.what with
  | .word .g k n v => if k = cl then some (v.toNat, landTag 0 n l.left 0 0) else none
  | .word .i k n v => if k = cl then some (v.toNat, landTag 1 n l.left 0 0) else none
  | _ => none

/-- The bytes of a row that a bit mask writes, one bit for each. -/
def byteMask (m : Row) : Nat := ((List.range 128).map fun i => if m.toNat / 2 ^ (8 * i) % 256 = 0 then 0 else 2 ^ i).sum

/-- What a write of `n` bytes `v` at an offset of a polder leaves in each row that it reaches: lane, row address, mask and data. -/
def rowWrites (q : Polder) (o n v : Nat) : List (Nat × Nat × Nat × Nat) :=
  (List.range ((o + n + 127) / 128 - o / 128)).map fun i =>
    let r := (o / 128 + i) * 128; let lo := max o r; let w := min (o + n) (r + 128) - lo; let a := q.place r
    (a.1, a.2, (2 ^ w - 1) * 2 ^ (lo - r), v / 2 ^ (8 * (lo - o)) % 2 ^ (8 * w) * 2 ^ (8 * (lo - r)))

/-- The descriptor whose place a write to polder `h` advances: that of the port that moves on one cycle after it; 0 for SST, which moves none on. -/
def pushPort (c : Ctx) (h left : Nat) : Nat :=
  (c.kern.land.findSome? fun l => match l.what with
    | .advance s _ => if l.left = left + 1 ∧ (c.kern.port s).polder = some h then some s else none
    | _ => none).getD 0

/-- Vector entries of a cluster: tag, mask and data. A write to a row of the SRF stands in the cluster of its lane. -/
def vectorEntries (p : Sp) (c : Ctx) (cl : Nat) (l : Landing) : List (Nat × Nat × Nat) :=
  match l.what with
  | .rows rs => (rs.filter fun r => decide (r.cl = cl)).map fun r => (landTag 0 r.reg l.left 0 0, byteMask r.msk, r.val.toNat)
  | .fetch h rs => (rs.filter fun r => decide (r.1 = cl)).map fun r => (landTag 0 r.2.1 (l.left + 2) 0 0, 2 ^ 128 - 1, ofBytes (srfLoad p.srf c h r.2.2 128))
  | .srf h o n v =>
    match c.polder h with
    | none => []
    | some q => ((rowWrites q o n v).filter fun r => decide (r.1 = cl)).map fun r => (landTag 1 0 l.left r.2.1 (pushPort c h l.left), r.2.2.1, r.2.2.2)
  | _ => []

/-! ## Kernel, matrix and cluster state -/

/-- Flags of the kernel state. -/
def kernFlags (p : Sp) (k : Kern) (stopped suspended : Bool) : Nat :=
  (if k.phase = .idle then 0 else 1) + (if stopped then 2 else 0) + (if p.fused then 4 else 0) + (if !p.tower.isEmpty && !p.fused then 8 else 0)
    + (if suspended then 16 else 0) + (if k.haltPoint = 4 then 32 else 0) + k.loops.length * 2 ^ 6 + (k.haltPoint - 1) * 2 ^ 9 + (if k.rejoin then 2 ^ 12 else 0)

/-- The kernel uniform state (19 R412). -/
def kernImage (p : Sp) (c : Ctx) (k : Kern) (member : Nat) (suspended : Bool) : List Piece :=
  let lock := k.lock
  [(0x000, toBytes 8 c.launch), (0x008, toBytes 8 k.pc), (0x010, toBytes 8 k.cycles), (0x018, toBytes 8 c.wdog),
   (0x020, toBytes 4 (kernFlags p k c.stopped suspended)), (0x024, toBytes 1 member), (0x025, toBytes 1 k.kmode), (0x026, toBytes 2 c.kstat),
   (0x028, toBytes 8 (match k.xfer with | none => 0 | some x => c.offset x.target % 2 ^ 32 + x.left % 4 * 2 ^ 32 + 2 ^ 63)),
   (0x030, toBytes 2 (match lock with | none => 0 | some l => (l.waiting.map (2 ^ ·)).sum)),
   (0x038, toBytes 8 (match lock with | none => 2 ^ 64 - 1 | some l => c.offset l.first)),
   (0x040, words 8 ((List.range 16).map fun n => (k.qr n).toNat)), (0x0C0, words 8 ((List.range 8).map fun n => (k.br n).toNat)),
   (0x100, words 8 ((List.range 8).map fun n => (k.mr n).toNat)),
   (0x140, words 2 ((List.range 8).map fun n => let q := k.pr n; q.n % 1024 + q.w * 2 ^ 10)),
   (0x150, toBytes 8 ((List.range 8).map fun n => if k.cr n then 2 ^ n else 0).sum),
   (0x158, k.loops.reverse.flatMap fun e =>
      words 4 [c.offset e.start, c.offset e.stop, e.remaining, e.n, e.j, e.mode + e.s * 2 ^ 2 + e.rrb * 2 ^ 5]),
   (0x200, (k.land.filterMap uniformEntry).flatMap fun e => words 8 [e.1, e.2])]

/-- The M-slot word of a queued call (11 R283, R284). -/
def MCallE.word (e : MCallE) : Nat :=
  if e.zero then 2 + e.tile * 2 ^ 18
  else 1 + e.routine * 2 ^ 10 + e.tile * 2 ^ 18 + e.a * 2 ^ 20 + e.b * 2 ^ 24 + ((if e.keep then 1 else 0) + (if e.spb then 2 else 0) + (e.span - 1) * 4) * 2 ^ 28

/-- The matrix state (19 R415). -/
def matrixImage (m : Matrix) : List Piece :=
  let q := m.queue.map fun e => toBytes 4 e.word ++ toBytes 4 1 ++ words 8 ((List.range 8).map fun n => (KMap.get 0 e.m n).toNat)
  [(0x1000, toBytes 4 (((List.range 4).map fun t => KMap.get 0 m.mode t * 2 ^ t).sum + ((List.range 4).map fun t => KMap.get 0 m.guard t * 2 ^ (4 + t)).sum)),
   (0x1004, words 1 ((List.range 4).map m.wmOf))] ++ ((List.range q.length).map fun i => (0x1010 + 96 * i, q.getD i []))
  ++ match m.run with
    | none => []
    | some r =>
      [(0x1190, toBytes 2 r.pc), (0x1192, toBytes 1 (1 + r.loops.length * 2)), (0x1193, toBytes 1 (r.gbase + r.sel * 4)),
       (0x1198, words 4 ((List.range 8).map fun n => (KMap.get 0 r.k n).toNat)),
       (0x11B8, r.loops.flatMap fun l => words 4 [l.left] ++ words 2 [l.start, l.stop]), (0x11C8, words 4 [r.curA, r.curB]), (0x11D0, words 4 [r.highA, r.highB]),
       (0x11D8, toBytes 8 (match r.checked with | none => 0 | some b => b % 2 ^ 32 + 2 ^ 32))]

/-- What a cluster area is made from: registers, queues and the lock. -/
structure ClusterState where
  g : KMap Dword
  i : KMap (BitVec 32)
  v : KMap Row
  aq : KMap (List AqReq)
  dq : KMap (List AqReq)
  lockHeld : KMap Nat
deriving DecidableEq, Repr

/-- The area of a cluster (19 R414). -/
def clusterImage (p : Sp) (c : Ctx) (k : Kern) (u : ClusterState) (cl : Nat) : List Piece :=
  let b := 0x40000 + cl * 0xC000
  let aq := KMap.get [] u.aq cl; let dq := KMap.get [] u.dq cl
  let vs := k.land.flatMap (vectorEntries p c cl); let ss := k.land.filterMap (scalarEntry cl)
  let waits := k.lock.any fun l => l.waiting.contains cl
  [(b, (List.range 128).flatMap fun n => toBytes 128 (KMap.get 0 u.v (cl * 128 + n)).toNat),
   (b + 0x4000, words 8 ((List.range 32).map fun n => if n = 0 then 0 else (KMap.get 0 u.g (cl * 32 + n)).toNat)),
   (b + 0x4100, words 4 ((List.range 16).map fun n => (KMap.get 0 u.i (cl * 16 + n)).toNat)),
   (b + 0x4140, aq.flatMap fun r => toBytes 8 r.addr ++ toBytes 1 (if r.srf then 1 else 0) ++ toBytes 1 r.bytes ++ toBytes 1 r.handle ++ toBytes 5 0),
   (b + 0x4340, dq.flatMap fun r => toBytes 8 (if r.state = 1 then r.data.toNat else r.addr) ++ toBytes 1 r.state ++ toBytes 1 r.bytes ++ toBytes 6 0),
   (b + 0x4540, toBytes 4 (aq.length + dq.length * 2 ^ 8 + vs.length * 2 ^ 16 + ss.length * 2 ^ 24)),
   (b + 0x4544, toBytes 4 (match KMap.find cl u.lockHeld with
      | some n => n / 192 + n / 4 % 48 * 2 ^ 4 + n % 4 * 2 ^ 10 + 2 ^ 15
      | none => if waits then 2 ^ 16 else 0)),
   (b + 0x4550, ss.flatMap fun e => words 8 [e.1, e.2]), (b + 0x4650, words 8 (vs.map (·.1))), (b + 0x4C50, words 16 (vs.map (·.2.1))),
   (b + 0x5850, words 128 (vs.map (·.2.2)))]

/-! ## Controller and stream state (19 R416) -/

/-- A descriptor in 128 bytes. -/
def descImage (c : Ctx) (d : Desc) : List Byte :=
  words 8 ((List.range 16).map fun f => let v := (c.sdget d f).toNat; if f = 1 then v + (c.sdget d 16).toNat * 2 ^ 63 else if f = 8 ∨ f = 13 then v % 2 ^ 48 else v)

/-- The state code of an entry. -/
def EState.code : EState → Nat
  | .waiting => 1
  | .running => 2
  | .parked => 3
  | .complete => 4
  | .haltOnIssue => 5

/-- The word of a stream instruction. -/
def streamWord (i : Instr) : Nat := ((encodeStream i).map (·.word)).getD 0

/-- The place in the pool of the first captured descriptor of each entry. -/
def poolPlaces : List Entry → Nat → List Nat
  | [], _ => []
  | e :: l, n => n :: poolPlaces l (n + e.descs.length)

/-- Controller, scoreboard and captured descriptors. -/
def streamImage (c : Ctx) : List Piece :=
  let sb := c.entries
  let places := poolPlaces sb 0
  [(0x2000, words 8 (c.pc.toNat :: (List.range 31).map fun n => (c.xr (n + 1)).toNat)), (0x2100, words 8 ((List.range 32).map fun n => (c.fr n).toNat)),
   (0x2200, toBytes 8 c.fcsr.toNat), (0x2208, words 8 [c.kstatusWord, c.kevent.toNat, c.ktvec.toNat, c.kepc.toNat, c.cbound.toNat, c.mwdog]),
   (0x2238, toBytes 8 c.hw), (0x2240, toBytes 8 (c.split.getD 0)),
   (0x2248, toBytes 8 ((if c.split.isSome then 1 else 0) + (if c.ieWait.isSome then 2 else 0))),
   (0x2300, (List.range 16).flatMap fun n => descImage c (KMap.get Desc.init c.descs n)), (0x2B00, words 8 ((List.range 64).map c.pinfo)),
   (0x2D00, (List.range 8).flatMap fun n =>
      let t := KMap.get Stage.init c.stages n
      words 8 [t.rs1.toNat, t.rs2.toNat, t.remaining, t.age, (if t.declared then 1 else 0) + (if t.finished then 2 else 0) + (if t.suspended.isSome then 4 else 0)] ++ List.replicate 24 0)]
  ++ ((List.range sb.length).flatMap fun i =>
    match sb[i]? with
    | none => []
    | some e =>
      [(0x4000 + 128 * i, toBytes 4 (streamWord e.instr) ++ toBytes 1 e.state.code ++ toBytes 1 0 ++ toBytes 2 (places.getD i 0)
          ++ words 8 [e.rs1.toNat, e.rs2.toNat, e.seq, e.counted]),
       (0x6000 + 128 * places.getD i 0, e.descs.flatMap fun d => descImage c d.2)])

/-- The Spire (13 R344). -/
def spireImage (sp : Spire) (ref : Nat) : List Piece :=
  [(0x1400, toBytes 1 sp.phase ++ toBytes 1 ((if bits sp.rs1 24 1 = 1 then 1 else 0) + (if sp.runs.isEmpty then 0 else 2)) ++ toBytes 6 0 ++ toBytes 8 ref),
   (0x1410, words 4 (sp.inputs.map (·.next))), (0x1450, words 4 sp.consumed), (0x1490, (sp.combining.map fun x => x.bytes.take 56).getD []), (0x14C8, words 4 [sp.emitted, sp.dropped, sp.flags]), (0x1500, sp.block.take 64)]

/-! ## Images -/

/-- The image of a context. -/
def Ctx.image (p : Sp) (c : Ctx) (member : Nat) : List Piece :=
  let u : ClusterState := ⟨c.g, c.i, c.v, c.aq, c.dq, c.lockHeld⟩
  let ref := ((c.sb.find? fun e => decide (e.seq = c.spire.seq)).map fun e => e.rs2.toNat).getD 0
  kernImage p c c.kern member false ++ matrixImage c.matrix ++ spireImage c.spire ref ++ streamImage c ++ (List.range 16).flatMap (clusterImage p c c.kern u)

/-- The image of a suspended activation. -/
def Susp.image (p : Sp) (c : Ctx) (x : Susp) (member : Nat) : List Piece :=
  kernImage { p with fused := x.fused } c x.kern member true ++ matrixImage x.matrix ++ (List.range 16).flatMap (clusterImage p c x.kern ⟨x.g, x.i, x.v, x.aq, x.dq, x.lockHeld⟩)

/-- An image written at an address: every byte that no piece names is 0. -/
def Memory.image (m : List Host.Cell) (a : Nat) (l : List Piece) : List Host.Cell :=
  l.foldl (fun m q => Memory.write m (a + q.1) q.2) (Memory.clear m a 0x100000)

end Sys2Proof.Machine
end

