-- ==== Sys2Proof/Machine/Preempt.lean ====
section
/-! DEFINITION. Pre-emption (19 R405 to R421; 03 R82 to R84; 11 R304): the request, the halt of the kernel, the stop of the units, the save
of a context and the writing out of images, claims, and the restore. -/

namespace Sys2Proof.Machine

/-! ## The request (19 R405, R406) -/

/-- A request reaches a context: the controller and the matrix call queue stop (19 R406; 11 R304). A context whose launch has ended is not
saved. -/
def Ctx.preemptNow (c : Ctx) : Ctx :=
  if c.halted then c else
  let d := c.takeRequest
  let d1 := if c.preempt.isNone then { d with matrix := { d.matrix with drain := some 0 } } else d
  d1

/-- PREEMPT_REQUEST: the request reaches SP `k`, and with it every member of a fused tower; one that meets a restore is taken when the
restore completes (19 R405, R409). -/
def execPreemptRequest (k : Nat) (s : State) : Host.Outcome State Fault Refusal :=
  .next ((s.issueGroup k).foldl (fun t m => t.modSp m fun p =>
    { p with
      ctx := p.ctx.map Ctx.preemptNow,
      victims := p.victims.map fun v => if v.place = 3 then { v with ctx := v.ctx.preemptNow } else v }) s)

/-! ## The halt (19 R407) -/

/-- The pre-emption point at which a kernel stands, if it stands at one: 1 a back-edge, 2 YIELD, 3 a stall, 4 a lock round, 5 its entry, 6
stopped. -/
def Kern.haltAt (k : Kern) : Option Nat :=
  match k.phase with
  | .stopped => some 6
  | .starting _ => some 5
  | .resuming _ => some (if k.haltPoint = 4 then 4 else 5)
  | .reloading _ => some (if k.haltPoint = 4 then 4 else 5)
  | .running =>
    if k.last.isSome ∨ k.gap ≠ 0 then none
    else if k.haltPoint ≠ 0 then some k.haltPoint
    else if k.dike.isSome || k.rejoin then some 3 else none
  | _ => none

/-- KERNEL_HALT: with a request pending, the kernel of leader `k` and of those that issue with it halts at its first pre-emption point; a token limit
counts afresh from the resume (10 R271). -/
def execKernelHalt (k : Nat) (s : State) : Host.Outcome State Fault Refusal :=
  .next (s.withCtx k fun c =>
    let ks := s.issueGroup k
    if c.preempt.isNone ∨ ks.headD k ≠ k then s else
    match c.kern.haltAt with
    | none => s
    | some n => s.kernAll ks fun q => { q with phase := .halted, haltPoint := n, tokLeft := none })

/-- Cycles from the arrival of a request until units that wait are stopped (19 R408; 11 R304). -/
abbrev drainLimit : Nat := 4096

/-- MATRIX_DRAIN_LIMIT: a routine that has not retired is stopped at its next micro-op boundary (11 R304). -/
def execMatrixDrainLimit (k : Nat) (s : State) : Host.Outcome State Fault Refusal :=
  .next (s.modCtx k fun c =>
    if c.preempt.any (fun n => decide (drainLimit < n)) && c.matrix.run.isSome then { c with matrix := { c.matrix with drain := some 1 } } else c)

/-- AQ_RECLAIM: requests sent and not landed are to be sent again; what they bring is discarded (19 R408). -/
def execAqReclaim (k : Nat) (s : State) : Host.Outcome State Fault Refusal :=
  .next (s.modCtx k fun c =>
    if c.preempt.any fun n => decide (drainLimit < n) then
      { c with dq := c.dq.map fun q => (q.1, q.2.map fun r => if r.state = 0 ∧ !r.srf then { r with state := 2 } else r) }
    else c)

/-! ## The save (19 R408 to R410) -/

/-- The kernel has halted, or there is none that issues. -/
def Kern.quiet (k : Kern) : Bool :=
  match k.phase with
  | .halted => true
  | .idle => true
  | .ending => k.land.isEmpty && decide (k.gap = 0)
  | _ => false

/-- The matrix unit has drained, or has stopped its routine, and its updates have landed. -/
def Matrix.drained (m : Matrix) : Bool := (m.run.all fun r => decide (m.drain = some 1) && decide (r.wait = 0)) && m.upd.isEmpty && m.retiring.isEmpty

/-- The Spire has stopped and sent what it spills. -/
def Spire.saved (sp : Spire) : Bool := decide (sp.phase = 0) || (sp.stopped && (sp.paused || sp.job.all fun j => j.writes.isEmpty))

/-- A gather that has met a translation fault and waits for its record (10 R260). -/
def State.parkedReq (s : State) (r : AqReq) : Bool :=
  decide (r.state = 0) && !r.srf && s.accs.any fun a => decide (a.id = r.acc) && (decide (a.state = 4) || decide (a.state = 8))

/-- The events that a save waits for have come (19 R408): with the kernel halted and the units stopped, every request that a data queue waits
for has landed, is parked or has been reclaimed (10 R260). -/
def State.saveReady (s : State) (c : Ctx) : Bool :=
  c.preempt.isSome && !c.halted && c.kern.quiet && (c.pipe.all fun q => q.decide_.isNone || q.seen.isSome) && c.matrix.drained && c.spire.saved && c.sweep.isNone
    && c.dq.all fun q => q.2.all fun r => r.landed s.now || decide (r.state = 2) || s.parkedReq r

/-- The context as it is saved: parked gathers are to be sent again. A decoupled member that is saved alone restarts out of step (03 R77). -/
def State.saving (s : State) (c : Ctx) (alone : Bool) : Ctx :=
  { c with
    preempt := none, wait := none, resv := none, gports := [],
    dq := c.dq.map fun q => (q.1, q.2.map fun r => if s.parkedReq r then { r with state := 2 } else r), kstat := if alone then flagOr c.kstat fDESYNC else c.kstat }

/-- CONTEXT_SAVE: the save of the context of SP `k` begins, into a free slot. -/
def execContextSave (k : Nat) (s : State) : Host.Outcome State Fault Refusal :=
  .next (s.withCtx k fun c =>
    if !s.saveReady c ∨ 2 ≤ (s.sp k).slotsUsed then s else
    s.modSp k fun p =>
      let v : Victim :=
        { ctx := s.saving c (!p.tower.isEmpty && !p.fused && c.kernelEntry.isSome), place := 0, left := 256, claimed := [], cm := none, order := 0, shown := none, tower := p.tower, fused := p.fused,
          line := p.line, lineAt := p.lineAt }
      { p with ctx := none, victims := v :: p.victims })

/-- CONTEXT_SAVE_COMPLETE: the image stands in its slot; the request has been served, and the SP may be taken. -/
def execContextSaveComplete (k : Nat) (s : State) : Host.Outcome State Fault Refusal :=
  .next (match (s.sp k).victims.find? fun v => decide (v.place = 0) && decide (v.left = 0) with
    | none => s
    | some v =>
      let q := s.fresh
      ((q.2.modSp k fun p =>
        { p with victims := updFirst (fun (v : Victim) => decide (v.place = 0) && decide (v.left = 0))
                              (fun v => { v with place := 1, order := q.1, ctx := { v.ctx with mpreq := false } }) p.victims }).modPart (s.partOf v.ctx)
          fun p => if p.migr.role = 1 ∧ p.migr.phase = 2 then { p with migr := { p.migr with saved := s.now } } else p).passSoon (s.partOf v.ctx))

/-! ## Writing out (19 R410) -/

/-- Images of suspended activations of a context that stand in slots: order, launch, and 1 plus the stage. -/
def Ctx.slotImages (c : Ctx) : List (Nat × Nat × Nat) :=
  c.stages.filterMap fun q => (q.2.suspended.filter fun u => decide (u.place = 1)).map fun u => (u.order, c.launch, q.1 + 1)

/-- The images in the slots of an SP. -/
def Sp.slotImages (p : Sp) : List (Nat × Nat × Nat) :=
  (p.victims.flatMap fun v => (if v.place = 1 then [(v.order, v.ctx.launch, 0)] else []) ++ v.ctx.slotImages) ++ (p.ctx.map Ctx.slotImages).getD []

/-- The image saved longest ago. -/
def oldestImage : List (Nat × Nat × Nat) → Option (Nat × Nat × Nat)
  | [] => none
  | a :: l => some (l.foldl (fun a b => if b.1 < a.1 then b else a) a)

/-- The bytes of image `i` of a launch on an SP. -/
def Sp.imageOf (p : Sp) (launch i member : Nat) : List Piece :=
  match p.owner launch with
  | none => []
  | some c =>
    let q := match p.victims.find? fun v => decide (v.ctx.launch = launch) with
      | some v => { p with tower := v.tower, fused := v.fused }
      | none => p
    if i = 0 then c.image q member
    else match (c.stage (i - 1)).suspended with
      | none => []
      | some u => u.image q c member

/-- The image of a context stands in its record, and a command of it has moved on since it was written (19 R418). -/
def Victim.stale (v : Victim) : Bool := decide (v.place = 2) && decide (v.shown ≠ some v.ctx)

/-- Image `i` of a launch on SP `k` is written to its context record. -/
def State.writeImage (s : State) (k launch i : Nat) : State :=
  match s.recordAt launch k i with
  | none => s
  | some a => (s.keepOwn a 0x100000).memChange a 0x100000 fun m => Memory.image m a ((s.sp k).imageOf launch i (s.member k))

/-- The record of a launch on SP `k` shows its context as it stands. -/
def State.showImage (s : State) (k launch : Nat) : State :=
  (s.writeImage k launch 0).modSp k fun p =>
    { p with victims := updFirst (fun v => decide (v.ctx.launch = launch)) (fun v => { v with place := 2, shown := some v.ctx }) p.victims }

/-- SHADOW_WRITE_OUT: what has completed of a context that stands in its record is recorded there (19 R418); and the image saved longest ago
goes from its slot to the context record: 1,024 cycles after the request that needs the slot, or at a suspension that needs it. -/
def execShadowWriteOut (k : Nat) (s0 : State) : Host.Outcome State Fault Refusal :=
  .next (
    let s := ((s0.sp k).victims.filter Victim.stale).foldl (fun t v => t.showImage k v.ctx.launch) s0
    let p := s.sp k
    let due := decide (2 < p.slotsUsed) || (decide (p.slotsUsed = 2) && p.ctx.any fun c => c.preempt.any fun n => decide (1024 < n))
    match oldestImage p.slotImages with
    | none => s
    | some (_, launch, i) =>
      if !due then s
      else if i = 0 then s.showImage k launch
      else (s.writeImage k launch i).modOwner k launch fun c =>
        { c with stages := KMap.upd (i - 1) (fun t => { t with suspended := t.suspended.map fun u => { u with place := 2 } }) c.stages })

/-! ## Claims (03 R82, R83; 19 R419) -/

/-- A beat of a copy of the context that touches polder `h` has been issued and has not been committed; one that is parked on a fault does
not count. -/
def State.claimWaits (s : State) (k : Nat) (c : Ctx) (h : Nat) : Bool :=
  s.accs.any fun a => decide (a.state ≠ 4) && decide (a.state ≠ 6) && decide (a.state ≠ 8) && (match a.src with
    | .copy sp l seq _ _ => decide (sp = k) && decide (l = c.launch) && (c.copyEntry seq).any fun e =>
        e.descs.any (fun q => decide (q.2.polder = some h)) || (decide (bits e.rs2 63 1 = 0) && decide (bits e.rs2 22 6 = h))
    | _ => false)

/-- The rows of a polder. -/
def polderRows (m : KMap Row) (p : Polder) : KMap Row :=
  m.filter fun e => decide (p.base / 128 ≤ e.1 % 3072) && decide (e.1 % 3072 < (p.base + shareOf p.log2) / 128)

/-- Cycles that saving or restoring a polder takes: 1,024 bytes per cycle. -/
def Polder.cycles (p : Polder) : Nat := p.size / 1024

/-- A polder of the victim at place `i` is saved, and its space is free. -/
def Sp.claim (p : Sp) (i h : Nat) : Sp :=
  match p.victims[i]? with
  | none => p
  | some v =>
    match v.ctx.polder h with
    | none => p
    | some q => { p with victims := p.victims.set i { v with claimed := KMap.ins h (polderRows p.srf q) v.claimed } }

/-- The bytes of a polder of a launch go to its save area: in the order of the polder's offsets, from sixteen times its base, the size of the
lanes below it (03 R82; log 20). -/
def State.savePolder (s : State) (k launch : Nat) (q : Polder) : State :=
  match (s.launchOf launch).bind fun l => KMap.find k l.saves with
  | none => s
  | some a => (s.keepOwn (a + 16 * q.base) q.size).memChange (a + 16 * q.base) q.size fun m =>
      (polderRows (s.sp k).srf q).foldl (fun m e => Memory.write m (a + 128 * (16 * (e.1 % 3072) + e.1 / 3072)) (toBytes 128 e.2.toNat))
        (Memory.clear m (a + 16 * q.base) q.size)

/-- The polder of the victim at place `i` of SP `k` is saved, in its save area, and its space is free (03 R82). -/
def State.claim (s : State) (k i h : Nat) : State :=
  match (s.sp k).victims[i]? with
  | none => s
  | some v =>
    match v.ctx.polder h with
    | none => s
    | some q => (s.savePolder k v.ctx.launch q).modSp k fun p => p.claim i h

/-- POLDER_CLAIM: a victim's polder that lies in the range of a pending allocation is saved once its issued beats have been committed; the
allocation's time grows by that of the copy (03 R82). -/
def execPolderClaim (k victim h : Nat) (s : State) : Host.Outcome State Fault Refusal :=
  .next (match (s.sp k).victims[victim]? with
    | none => s
    | some v =>
      match v.ctx.polder h with
      | none => s
      | some q =>
        if (KMap.find h v.claimed).isSome || s.claimWaits k v.ctx h then s else
        let meets := fun (x : Polder) => decide (x.fill ≠ 0) && overlap x.base (shareOf x.log2) q.base (shareOf q.log2)
        (s.claim k victim h).modSp k fun p =>
          { p with ctx := p.ctx.map fun c => { c with polders := c.polders.map fun e => (e.1, if meets e.2 then { e.2 with fill := e.2.fill + q.cycles } else e.2) } })

/-- CONTROL_MEMORY_CLAIM: control memory that a pre-empted context left in place is saved to its context record (19 R419). -/
def execControlMemoryClaim (k : Nat) (s : State) : Host.Outcome State Fault Refusal := .next ((s.saveCm k).modSp k Sp.claimCm)

/-! ## The restore (03 R84; 19 R420, R421) -/

/-- The priority of the launch of a victim. -/
def State.victimPrio (s : State) (v : Victim) : Nat := ((s.launchOf v.ctx.launch).map (·.prio)).getD 0

/-- The victim that an SP restores next: of the highest priority, then the last saved. -/
def State.nextVictim (s : State) (k : Nat) : Option Nat :=
  let vs := (s.sp k).victims
  let top := (vs.map s.victimPrio).foldl max 0
  vs.findIdx? fun v => decide (s.victimPrio v = top)

/-- The partition of a victim lets contexts run: it is not frozen by a migration (23 R450, R454). -/
def State.thawed (s : State) (v : Victim) : Bool :=
  (s.part (s.partOf v.ctx)).any fun p => decide (p.migr.role = 0) || (decide (p.migr.role = 1) && decide (p.migr.phase < 2)) || (decide (p.migr.role = 2) && decide (3 ≤ p.migr.phase))

/-- SP `k` may restore the context of a launch: it holds no other, and no launch that asked for the SP waits (02 R61; 03 R70). -/
def State.mayRestore (s : State) (k launch : Nat) : Bool :=
  let p := s.sp k
  p.ctx.isNone && p.left.isNone && (p.held.isNone || p.victims.any fun v => decide (p.held = some v.ctx.launch))
    && (p.victims.all fun v => decide (v.place = 1) || decide (v.place = 2))
    && ((s.nextVictim k).bind fun i => p.victims[i]?).any (fun v => decide (v.ctx.launch = launch) && s.thawed v)
    && !s.launches.any fun l => decide (l.state = 0) && l.wants.contains k

/-- The SPs that are restored with a victim: those members of a fused tower that have one of the launch. -/
def State.restoreGroup (s : State) (k : Nat) (v : Victim) : List Nat :=
  if v.fused then v.tower.filter fun m => (s.sp m).victims.any fun w => decide (w.ctx.launch = v.ctx.launch) else [k]

/-- The polders of other victims that stand where claimed polders of a victim go back to: victim and handle. -/
def Sp.conflicts (p : Sp) (v : Victim) : List (Nat × Nat) :=
  let back := v.ctx.polders.filter fun e => (KMap.find e.1 v.claimed).isSome
  (List.range p.victims.length).flatMap fun i =>
    match p.victims[i]? with
    | none => []
    | some w =>
      if w.ctx.launch = v.ctx.launch then [] else
      (w.ctx.polders.filter fun e => (KMap.find e.1 w.claimed).isNone && back.any fun b => overlap e.2.base (shareOf e.2.log2) b.2.base (shareOf b.2.log2)).map fun e => (i, e.1)

/-- The conflicting polder may be claimed now. -/
def State.claimable (s : State) (k : Nat) (q : Nat × Nat) : Bool := (s.sp k).victims[q.1]?.all fun w => !s.claimWaits k w.ctx q.2

/-- Cycles of a restore: control memory, polders saved and claimed, the image, and the routines of the object (19 R421; 03 R84; 11 R297). -/
def State.restoreCycles (s : State) (k : Nat) (v : Victim) (free : Nat) : Nat :=
  let p := s.sp k
  (if v.cm.isSome then 256 else 0) + ((v.ctx.polders.filter fun e => (KMap.find e.1 v.claimed).isSome).map fun e => e.2.cycles).sum
    + ((p.conflicts v).map fun q => ((p.victims[q.1]?.bind fun w => w.ctx.polder q.2).map Polder.cycles).getD 0).sum
    + (if v.place = 1 then 256 else 1024 + free) + ((s.codeOfCtx v.ctx).map p.installCycles).getD 0

/-- A page of the save area or context record that a restore reads and that has not come from the source of a migration (23 R454, R455). -/
def State.recordAbsent (s : State) (k : Nat) (v : Victim) : Option Nat :=
  if v.place ≠ 2 ∧ v.claimed.isEmpty ∧ v.cm.isNone then none else
  (s.part (s.partOf v.ctx)).bind fun p => ((s.launchOf v.ctx.launch).bind fun l => KMap.find k l.saves).bind fun a =>
    ((List.range ((saveBytes + recordBytes) / 0x10000)).map fun i => a + i * 0x10000).find? p.absent

/-- The victim of a launch on SP `k`. -/
def State.victimOf (s : State) (k launch : Nat) : Option Victim := (s.sp k).victims.find? fun v => decide (v.ctx.launch = launch)

/-- The restore of a victim begins: what stands in its place is claimed. -/
def State.restoreBegin (s : State) (k launch left : Nat) : State :=
  match s.victimOf k launch with
  | none => s
  | some v => (((s.sp k).conflicts v).foldl (fun t q => t.claim k q.1 q.2) s).modSp k fun p =>
    { p with victims := updFirst (fun v => decide (v.ctx.launch = launch)) (fun v => { v with place := 3, left := left }) p.victims }

/-- The context as it runs again: a kernel that was stopped stays so, another issues its next bundle on the cycle after the next, and the
units go on. -/
def Ctx.restored (c : Ctx) : Ctx :=
  { c with
    frozen := false, used := c.entries.length, recent := [], matrix := { c.matrix with drain := if c.preempt.isSome then some 0 else none }, spire := { c.spire with stopped := false },
    kern := if c.kern.phase = .halted then { c.kern with phase := if c.stopped then .stopped else .resuming 2 } else c.kern }

/-- The SP with a victim back in its place: control memory, claimed polders, the routines of its object, tower and context. -/
def Sp.restore (p : Sp) (v : Victim) (code : Option Code) : Sp :=
  let srf := v.claimed.foldl (fun m e => match v.ctx.polder e.1 with
    | none => m
    | some q => e.2.foldl (fun m r => KMap.put 0 m r.1 r.2) (clearPolder m q)) p.srf
  let p1 := match code with | none => p | some c => p.install c
  let same := decide (p.held = some v.ctx.launch)
  { p1 with
    ctx := some v.ctx.restored, victims := p1.victims.filter fun w => decide (w.ctx.launch ≠ v.ctx.launch), srf := srf, cm := v.cm.getD p.cm,
    held := some v.ctx.launch, idle := false, ranges := [], tower := v.tower, fused := v.fused, line := if same then p.line else v.line, lineAt := if same then p.lineAt else v.lineAt }

/-- A restored context runs: accesses that were resolved while it was out go on (03 R83), and members that wait for it at the tower's line
set DESYNC with it (08 R225). -/
def State.restoreEnd (s : State) (k launch : Nat) : State :=
  match s.victimOf k launch with
  | none => s
  | some v =>
    let s1 := s.modSp k fun p => p.restore v (s.codeOfCtx v.ctx)
    let tw := s1.tower k
    let waits := !(s1.sp k).fused && !(s1.sp (tw.headD k)).line.isEmpty && !((s1.sp (tw.headD k)).line.contains k)
    let s2 := if waits then tw.foldl (fun t m => t.modCtx m fun c => { c with kstat := flagOr c.kstat fDESYNC }) s1 else s1
    ((s2.accs.filter fun a => decide (a.state = 6) && decide (a.src.owner = some (k, launch))).map (·.id)).foldl State.unpark s2

/-- CONTEXT_RESTORE: the restore of a victim begins, for every member of a fused tower at once, or ends for all of them. -/
def execContextRestore (k victim : Nat) (s : State) : Host.Outcome State Fault Refusal :=
  .next (match (s.sp k).victims[victim]? with
    | none => s
    | some v =>
      let launch := v.ctx.launch
      let ks := s.restoreGroup k v
      if v.place = 3 then
        if ks.all fun m => (s.victimOf m launch).any fun w => decide (w.place = 3) && decide (w.left = 0) then ks.foldl (fun t m => t.restoreEnd m launch) s else s
      else if !ks.all fun m => s.mayRestore m launch then s
      else if !ks.all fun m => (s.victimOf m launch).all fun w => ((s.sp m).conflicts w).all (s.claimable m) then s
      else
        match ks.findSome? fun m => (s.victimOf m launch).bind fun w => s.recordAbsent m w with
        | some a => s.askPage (s.partOf v.ctx) (dieOfPa a) (a / 0x10000)
        | none =>
          let q := s.fresh
          let left := (ks.map fun m => ((s.victimOf m launch).map fun w => s.restoreCycles m w (Config.freeNat q.1)).getD 0).foldl max 0
          ks.foldl (fun t m => t.restoreBegin m launch left) q.2)

end Sys2Proof.Machine
end

