-- ==== Sys2Proof/Machine/Migrate.lean ====
section
/-! DEFINITION. Acknowledgements of beats (15 R385) and the migration of a partition (23 R444 to R460): its messages, the freeze, the state
records, the resume, demand paging, and the redirection of remote traffic. -/

namespace Sys2Proof.Machine

/-! ## Packets of a migration that are not beats of an access (log 18) -/

/-- The engine number of the hello of a partition, and of the notices by which the two packages tell each other of a change of phase. -/
def helloEngine (part : Nat) : Nat := 0x4000 + part
abbrev noticeEngine : Nat := 0xFFFF

/-- Notices: the destination has resumed; the migration has failed, with its reason in the status field; every page is present. -/
abbrev ntResumed : Nat := 1
abbrev ntFailed : Nat := 2
abbrev ntPulled : Nat := 3

/-- A packet of a partition to the peer of its migration. -/
def migPacket (own part : Nat) (m : Migr) (op ia engine seq status : Nat) (data : List Byte) : Packet :=
  { op := op, srcPkg := own, dstPkg := m.peerPkg, srcPart := part, dstPart := m.peerPart, ia := ia, engine := engine, seq := seq, sub := 0, status := status,
    launch := 0, rank := 0, data := data, poison := false }

/-- A notice to the peer. -/
def State.notice (s : State) (part : Nat) (m : Migr) (code reason : Nat) : State :=
  s.sendPacket m.port (migPacket s.dev.pkg part m 6 0 noticeEngine code reason [])

/-! ## MIGRATE messages (23 R446, R447) -/

/-- Reasons of FAILED (23 R447). -/
abbrev mgMismatch : Nat := 1
abbrev mgSlotOwned : Nat := 2
abbrev mgSignature : Nat := 3
abbrev mgAborted : Nat := 4
abbrev mgLink : Nat := 5

/-- A MIGRATE message of the part to VF 0. -/
def State.migSay (s : State) (op part : Nat) (m : Migr) (count1 count2 : Nat) : State :=
  s.sendOwn 0 vtMigrate 0 0 0 0
    (toBytes 4 op ++ toBytes 1 part ++ toBytes 1 m.peerPart ++ toBytes 2 m.peerPkg ++ toBytes 1 m.port ++ List.replicate 7 0 ++ toBytes 8 m.id
      ++ toBytes 8 count1 ++ toBytes 8 count2)

/-- A MIGRATE message of the host: BAD_MESSAGE for a value out of range, BUSY in a state that does not accept it. -/
def State.migOp (s : State) (h : VctHdr) (i : Instr) (m : MigArgs) (may : Migr → Bool) (f : State → Part → State) : State :=
  s.vctSystem h i fun s =>
    if 32 ≤ m.part ∨ 32 ≤ m.peerPart ∨ 16 ≤ m.port ∨ 2 ^ 16 ≤ m.peerPkg then s.nak h nkBadMessage else
    match s.part m.part with
    | none => s.nak h nkBusy
    | some p => if may p.migr then f (s.ackMsg h) p else s.nak h nkBusy

/-- The partition is not migrating: it is no source, and as a destination it has every page (23 R447). -/
def Migr.free (m : Migr) : Bool := decide (m.role = 0) || (decide (m.role = 2) && decide (m.phase = 5))

/-- What a message says of a migration. -/
def MigArgs.begin (m : MigArgs) (role : Nat) (now : Nat) : Migr :=
  { Migr.init with role := role, phase := 1, id := m.id, peerPkg := m.peerPkg, peerPart := m.peerPart, port := m.port, start := now, at_ := now }

/-- MIGRATE_ACCEPT (23 R447, R448): the partition is prepared, in the place of an earlier ACCEPT; it migrates once a hello matches. -/
def execMigrateAccept (h : VctHdr) (m : MigArgs) (s : State) : Host.Outcome State Fault Refusal :=
  .next (s.migOp h (.migrateAccept h m) m Migr.free fun s p =>
    let g := MigArgs.begin m 2 s.now
    (s.setPart m.part { p with accept := some g }).migSay 0x11 m.part g 0 0)

/-- MIGRATE_START (23 R447, R448): the hello goes to the destination. -/
def execMigrateStart (h : VctHdr) (m : MigArgs) (s : State) : Host.Outcome State Fault Refusal :=
  .next (s.migOp h (.migrateStart h m) m Migr.free fun s p =>
    let e := helloEngine m.part; let n := (s.engine e).next
    let k := migPacket s.dev.pkg m.part (MigArgs.begin m 1 s.now) 10 0 e n 0 (toBytes 8 m.id ++ toBytes 1 m.part ++ toBytes 1 m.peerPart ++ List.replicate 54 0)
    let b : Beat := ⟨k, 0, 0, s.now, false, m.port, s.farAddr m.port m.peerPkg⟩
    let g1 : Engine := { next := (n + 1) % 2 ^ 32, beats := [b] }
    let s1 : State := { s with engines := KMap.ins e g1 s.engines }
    (s1.setPart m.part { p with migr := MigArgs.begin m 1 s.now }).sendPacket m.port k)

/-! ## The end of a migration that has failed (23 R453) -/

/-- The source goes on: its contexts are restored on their own SPs, faults that it has kept to itself are told of, and placement starts again. -/
def State.thaw (s : State) (part : Nat) (p : Part) : State :=
  let open_ := fun (c : Ctx) => { c with frozen := false }
  let s1 := p.sps.foldl (fun t k => t.modSp k fun q => { q with ctx := q.ctx.map open_, victims := q.victims.map fun v => { v with ctx := open_ v.ctx } }) s
  let s2 : State := { s1 with engines := KMap.upd (helloEngine part) (fun g => { g with beats := [] }) s1.engines }
  ((s2.setPart part { p with migr := Migr.init }).tellFaults part).passSoon part

/-- What the partition runs leaves the package: its launches, codes, contexts and slots. What MLOAD has put into a routine store lasts until reset
(11 R297). -/
def State.discard (s : State) (part : Nat) (p : Part) : State :=
  let gone := (s.launches.filter fun l => decide (l.part = part)).map (·.id)
  let keep := fun (q : Sp) => { Sp.init with gatherErr := q.gatherErr, attach := q.attach, dbgStopped := q.dbgStopped, snap := q.snap, ustore := q.ustore, rtab := q.rtab, installed := q.installed }
  let s1 := p.sps.foldl (fun t k => t.modSp k keep) s
  let s2 : State := { s1 with
    launches := s1.launches.filter fun l => !gone.contains l.id,
    accs := s1.accs.filter fun a => decide (a.part ≠ part),
    ports := s1.ports.map fun (e : Nat × Port) => (e.1, { e.2 with slots := e.2.slots.filter fun q => !gone.contains q.2.2.2 }) }
  s2.setPart part { p with codes := [], groups := [], used := [], sync := [], tokWait := [], faults := [] }

/-- The migration of a partition fails: FAILED goes to VF 0, the source thaws, the destination discards what it has received; `tell`: the
peer hears of it. -/
def State.migFail (s : State) (part reason : Nat) (tell : Bool) : State :=
  match s.part part with
  | none => s
  | some p =>
    if p.migr.role = 0 then s else
    let s1 : State :=
      if p.migr.role = 1 then s.thaw part p
      else { s.discard part { p with migr := Migr.init } with records := s.records.filter fun r => decide (r.1 ≠ part), taken := s.taken.filter fun r => decide (r.1 ≠ part) }
    let s2 := s1.migSay 0x17 part p.migr reason 0
    if tell then s2.notice part p.migr ntFailed reason else s2

/-- MIGRATE_ABORT (23 R447, R453). -/
def execMigrateAbort (h : VctHdr) (m : MigArgs) (s : State) : Host.Outcome State Fault Refusal :=
  .next (s.migOp h (.migrateAbort h m) m (fun g => decide (g.role = 1) && decide (g.phase ≤ 3)) fun s _ => s.migFail m.part mgAborted true)

/-- MIGRATE_RELEASE (23 R447, R449, R459): the source's SPs, launches and slots are free; it goes on answering MOVED. -/
def execMigrateRelease (h : VctHdr) (m : MigArgs) (s : State) : Host.Outcome State Fault Refusal :=
  .next (s.migOp h (.migrateRelease h m) m (fun g => decide (g.role = 1) && decide (g.phase = 6)) fun s p =>
    (s.discard m.part { p with migr := Migr.init, accept := none, moved := some (p.migr.peerPkg, p.migr.peerPart) }).migSay 0x16 m.part p.migr 0 0)

/-! ## The hello (23 R448) -/

/-- MIGRATION_HELLO: a hello that matches the ACCEPT of its partition is answered OK, and the partition migrates; any other is answered
PERM. One that comes again receives its first answer. -/
def execMigrationHello (k : Packet) (s : State) : Host.Outcome State Fault Refusal :=
  .next (match s.part k.dstPart with
    | none => s.sendPacket (s.portTo Part.init k.srcPkg) (answer s.dev.pkg k 6 stPerm [])
    | some p =>
      match (s.dup k).first s.dev.pkg k with
      | some r => s.sendTo p r
      | none =>
        let ok := fun (g : Migr) => p.migr.free && decide (field k.data 0 8 = g.id) && decide (k.srcPkg = g.peerPkg)
          && decide (field k.data 8 1 = g.peerPart) && decide (field k.data 9 1 = k.dstPart)
        let g := p.accept.filter ok
        let p1 := match g with
          | none => p
          | some g => { p with migr := { g with phase := 2, start := s.now, at_ := s.now }, accept := none, moved := none }
        let ok := g.isSome
        (s.setPart k.dstPart p1).beatAnswer p1 k (answer s.dev.pkg k 6 (if ok then 0 else stPerm) []))

/-! ## The freeze (23 R450, R451) -/

/-- A merge that a freeze meets: one whose inputs are all linear, and that has joined no open merge, is issued again from its start; any other ends with
CANCELLED, with the counts reached (13 R342, R345). -/
def Ctx.freezeMerge (c : Ctx) : Ctx :=
  let sp := c.spire
  let linear := fun (i : SpIn) => (c.descPolder i.desc).all fun p => decide (p.kind = 0)
  if sp.phase = 0 ∨ sp.status ≠ 0 then c
  else if sp.phase ≠ 2 ∧ !sp.joined ∧ sp.inputs.all linear then { c.modEntry sp.seq (fun e => { e with state := .waiting }) with spire := Spire.init }
  else { c with spire := { sp with phase := 1, inputs := [], window := [], out := [], job := none, status := stCancelled, stopped := true } }

/-- The merges of a partition's contexts, running and pre-empted, end or are to be issued again; their spill beats are dropped (13 R345; log 46). -/
def State.freezeMerges (s : State) (part : Nat) (p : Part) : State :=
  { s with
    accs := s.accs.filter fun a => !(decide (a.part = part) && match a.src with
      | .spire _ _ => true
      | _ => false),
    sps := s.sps.map fun (e : Nat × Sp) => if p.sps.contains e.1 then (e.1, { e.2 with
      ctx := e.2.ctx.map Ctx.freezeMerge, victims := e.2.victims.map fun v => { v with ctx := v.ctx.freezeMerge } }) else e }

/-- Every running context of a partition is asked to be saved by the freeze. -/
def State.freezeContexts (s : State) (p : Part) : State :=
  p.sps.foldl (fun t k => match t.ctx k with
    | none => t
    | some c => if c.halted ∨ c.frozen then t else { (t.setCtx k { c with frozen := true }) with inbox := t.inbox ++ [.preemptRequest k] }) s

/-- The destination has confirmed the hello: the freeze begins (23 R450). -/
def State.freeze (s : State) (part : Nat) : State :=
  match s.part part with
  | none => s
  | some p => ((s.setPart part { p with migr := { p.migr with phase := 2, at_ := s.now } }).freezeMerges part p).freezeContexts p

/-- The access does not hold the freeze up: it is parked, and is sent again at the destination or by its peer. -/
def Acc.parkedOut (a : Acc) : Bool :=
  (decide (a.state = 4) || decide (a.state = 6) || decide (a.state = 8)) && (match a.src with
    | .host _ => false
    | _ => true)

/-- Every context of the partition has been saved, and what the partition has sent has been performed. -/
def State.migQuiet (s : State) (part : Nat) (p : Part) : Bool :=
  p.sps.all (fun k => (s.ctx k).all (·.halted) && (s.sp k).victims.all fun v => decide (v.place = 1) || decide (v.place = 2))
    && s.accs.all (fun a => decide (a.part ≠ part) || a.parkedOut) && s.xfrs.all fun x => decide (x.part ≠ part)

/-! ## State records (23 R452) -/

/-- The SPs of a partition in ascending order. -/
def Part.spList (p : Part) : List Nat := (List.range 160).filter p.sps.contains

/-- Bytes of the code arena in use. -/
def Part.codeBytes (p : Part) : Nat := alignUp (p.codes.map (·.len)).sum 64

/-- Bytes of the polders of an SP's contexts that stand in its SRF. -/
def Sp.polderBytes (p : Sp) : Nat :=
  let all := fun (c : Ctx) (gone : KMap (KMap Row)) => ((c.polders.filter fun e => (KMap.find e.1 gone).isNone).map fun e => e.2.size).sum
  ((p.ctx.toList ++ p.left.toList).map fun c => all c []).sum + (p.victims.map fun v => all v.ctx v.claimed).sum

/-- Bytes of the records of a partition. -/
def migBytes (p : Part) (dups : Nat) (sps : List Sp) : Nat :=
  0x10000 + 1024 * p.codes.length + p.codeBytes + 64 * dups + (sps.map fun q => 0x48000 + q.slotsUsed * 0x100000 + q.polderBytes).sum

/-- The state records of a partition, in their order. -/
def State.migRecords (s : State) (part : Nat) (p : Part) : List MigRec :=
  let ls := s.launches.filter fun l => decide (l.part = part)
  let vfs := (List.range 64).filter fun v => decide ((s.vf v).part = some part)
  let parked := s.accs.filter fun a => decide (a.part = part) && (match a.src with
    | .copy _ _ _ _ _ => true
    | _ => false)
  let code := (s.code.filter fun e => decide (p.arenaBase ≤ e.1) && decide (e.1 < p.arenaBase + p.arena)).map fun e => (e.1 - p.arenaBase, e.2)
  let recs := [MigRec.part p ls vfs s.ports parked] ++ p.codes.map MigRec.handle ++ [MigRec.code code] ++ s.dups.map MigRec.dup ++ p.spList.map fun k => MigRec.sp k (s.sp k)
  recs ++ [MigRec.last recs.length]

/-- MIGRATION_FROZEN (23 R449, R451, R452): once everything is saved and drained, FROZEN is sent and the state records follow. -/
def execMigrationFrozen (part : Nat) (s : State) : Host.Outcome State Fault Refusal :=
  .next (match s.part part with
    | none => s
    | some p =>
      if p.migr.role ≠ 1 ∨ p.migr.phase ≠ 2 then s
      else if !s.migQuiet part p then s.freezeContexts p
      else
        let n := migBytes p s.dups.length (p.spList.map s.sp)
        let s1 := (s.setPart part { p with migr := { p.migr with phase := 3, at_ := s.now, bytes := n } }).migSay 0x12 part p.migr (p.migr.saved - p.migr.start) n
        { s1 with recordsOut := s1.recordsOut ++ (s1.migRecords part p).map fun r => (p.migr.port, r) })

/-! ## The destination takes the records (23 R444, R453, R454) -/

/-- Two lists of ranges are the same IA: they agree at every bound, between which neither changes (23 R444). -/
def sameRanges (l m : List (Nat × Nat)) : Bool := ((l ++ m).flatMap fun r => [r.1, r.1 + r.2]).all fun a => decide (inRanges l a 1 = inRanges m a 1)

/-- The destination partition meets the conditions of a migration (23 R444). -/
def State.migMatches (s : State) (part : Nat) (p q : Part) (vfs : List Nat) : Bool :=
  decide (p.spList = q.spList) && sameRanges p.linear q.linear && sameRanges p.paged q.paged && p.used.isEmpty && decide (q.codeBytes ≤ p.arena)
    && p.codes.isEmpty && s.launches.all (fun l => decide (l.part ≠ part)) && vfs.all fun v => decide ((s.vf v).part = some part)

/-- A kernel whose code stands elsewhere: its addresses, and those in its branch-target registers. -/
def Kern.rebase (f : Nat → Nat) (k : Kern) : Kern :=
  if k.phase = .idle then k else
  { k with
    lo := f k.lo, hi := f k.hi, pc := f k.pc, after := f k.after, last := k.last.map f, loops := k.loops.map fun e => { e with start := f e.start, stop := f e.stop },
    xfer := k.xfer.map fun x => { x with target := f x.target }, lock := k.lock.map fun l => { l with first := f l.first },
    b := k.b.map fun e => (e.1, BitVec.ofNat 64 (f e.2.toNat)),
    land := k.land.map fun (l : Landing) => match l.what with
      | .word .b cl n v => { l with what := .word .b cl n (BitVec.ofNat 64 (f v.toNat)) }
      | _ => l }

/-- The calls of a matrix unit whose code stands elsewhere: each names the bundle that issued it. -/
def Matrix.rebase (f : Nat → Nat) (m : Matrix) : Matrix :=
  let call := fun (e : MCallE) => { e with bundle := f e.bundle }
  let rout := fun (r : Routine) => { r with call := call r.call }
  { m with queue := m.queue.map call, run := m.run.map rout, retiring := m.retiring.map rout }

/-- A context whose code stands elsewhere (23 R454). -/
def Ctx.rebase (f : Nat → Nat) (c : Ctx) : Ctx :=
  let w := fun (v : Dword) => BitVec.ofNat 64 (f v.toNat)
  { c with
    cbase := w c.cbase, cbound := w c.cbound, cceil := w c.cceil, kern := c.kern.rebase f, matrix := c.matrix.rebase f,
    stages := c.stages.map fun e => (e.1, { e.2 with suspended := e.2.suspended.map fun u => { u with kern := u.kern.rebase f, matrix := u.matrix.rebase f } }) }

/-- An SP as its record gives it. -/
def Sp.arrives (f : Nat → Nat) (old p : Sp) : Sp :=
  { p with
    ctx := p.ctx.map (Ctx.rebase f), left := p.left.map (Ctx.rebase f), victims := p.victims.map fun v => { v with ctx := v.ctx.rebase f }, ranges := [],
    gatherErr := old.gatherErr, attach := old.attach, dbgStopped := false, snap := old.snap }

/-- The migration pages of a partition (23 R455). -/
def Part.migPages (p : Part) : List Nat := p.linear.flatMap fun r => (List.range (r.2 / 0x10000)).map fun i => r.1 / 0x10000 + i

/-- The records of a partition. -/
def State.takenOf (s : State) (part : Nat) : List MigRec := (s.taken.filter fun r => decide (r.1 = part)).map (·.2)

/-- The reason for which the records are refused at the end, 0 for none (23 R453). -/
def State.migRefused (s : State) (recs : List MigRec) : Nat :=
  let bad := recs.any fun r => match r with
    | .handle c => c.system && !chainOk c.digest c.chain
    | _ => false
  let owned := recs.any fun r => match r with
    | .part _ ls _ _ _ => ls.any fun l => l.slots.any fun q => s.slotOwned q.1 q.2
    | _ => false
  if bad then mgSignature else if owned then mgSlotOwned else 0

/-- One record takes effect at the destination: partition, code, duplicate records, SPs. -/
def State.migApply (s : State) (part : Nat) (own : Part) (f : Nat → Nat) : MigRec → State
  | .part q ls _ ports parked =>
    let no := fun i => i + s.nextAcc
    let here := fun (w : TokWait) => if w.pkg = own.migr.peerPkg ∧ w.part = own.migr.peerPart then { w with pkg := s.dev.pkg, part := part } else w
    let ids := parked.map (·.id)
    let s1 := s.setPart part { q with
      arena := own.arena, arenaBase := own.arenaBase, codes := q.codes.map fun c => { c with base := f c.base }, tokWait := q.tokWait.map here,
      faults := q.faults.map fun r => { r with parked := (r.parked.filter ids.contains).map no }, migr := own.migr, accept := own.accept, moved := none }
    let slots := fun (n : Nat) => ((KMap.get Port.init ports n).slots.filter fun e => ls.any fun l => decide (l.id = e.2.2.2))
    { s1 with
      launches := s1.launches ++ ls.map fun l => { l with part := part }, nextAcc := s1.nextAcc + (ids.foldl max 0) + 1,
      accs := s1.accs ++ parked.map fun a => { a with id := no a.id, part := part },
      ports := (List.range 16).foldl (fun m n => if (slots n).isEmpty then m else
        KMap.ins n (let o := KMap.get Port.init m n; { o with slots := (slots n).foldl (fun t e => KMap.ins e.1 e.2 t) o.slots }) m) s1.ports }
  | .handle _ => s
  | .code l => { s with code := l.foldl (fun m e => KMap.put 0 m (own.arenaBase + e.1) e.2) s.code }
  | .dup d => { s with dups := s.dups.filter (fun (x : Dup) => !(decide (x.pkg = d.pkg) && decide (x.engine = d.engine))) ++ [d] }
  | .sp k p => s.modSp k fun old => Sp.arrives f old p
  | .last _ => s

/-- Contexts that the freeze saved, in a list of records. -/
def migContexts (recs : List MigRec) : Nat :=
  (recs.map fun r => match r with
    | .sp _ p => (p.victims.filter fun v => v.ctx.frozen).length
    | _ => 0).sum

/-- The records have all come and are accepted: they take effect, and the restores begin. -/
def State.migInstall (s : State) (part : Nat) (p : Part) (recs : List MigRec) : State :=
  match recs.findSome? (fun r => match r with | .part q _ _ _ _ => some q | _ => none) with
  | none => s.migFail part mgMismatch true
  | some q =>
    let sps := recs.filterMap fun r => match r with | .sp _ p => some p | _ => none
    let dups := (recs.filter fun r => match r with | .dup _ => true | _ => false).length
    let own := { p with migr := { p.migr with phase := 3, at_ := s.now, pages := q.migPages, bytes := migBytes q dups sps, contexts := migContexts recs } }
    let s1 := recs.foldl (fun t r => t.migApply part own (fun a => a + own.arenaBase - q.arenaBase) r) s
    ({ s1 with taken := s1.taken.filter fun r => decide (r.1 ≠ part) } : State).tellFaults part

/-- STATE_RECORD (23 R452 to R454): the next state record of a partition arrives at the destination. -/
def execStateRecord (part : Nat) (s : State) : Host.Outcome State Fault Refusal :=
  .next (match s.part part, s.records.find? fun r => decide (r.1 = part) with
    | some p, some r =>
      if p.migr.role ≠ 2 ∨ p.migr.phase ≠ 2 then s else
      let s1 : State := { s with records := dropFirst (fun r => decide (r.1 = part)) s.records, taken := s.taken ++ [r] }
      let s2 := s1.setPart part { p with migr := { p.migr with at_ := s.now } }
      match r.2 with
      | .part q _ vfs _ _ => if s.migMatches part p q vfs then s2 else s2.migFail part mgMismatch true
      | .last n =>
        let recs := (s.takenOf part)
        if recs.length ≠ n then s2.migFail part mgLink true
        else
          let bad := s.migRefused recs
          if bad ≠ 0 then s2.migFail part bad true else s2.migInstall part p recs
      | _ => s2
    | _, _ => s)

/-- Arithmetic cycles of 2^24 and of 2^20 fabric cycles. -/
abbrev recordCycles : Nat := fabricToArith 0x1000000
abbrev graceCycles : Nat := fabricToArith 0x100000

/-- STATE_RECORD_TIMEOUT (23 R453). -/
def execStateRecordTimeout (part : Nat) (s : State) : Host.Outcome State Fault Refusal :=
  .next (match s.part part with
    | none => s
    | some p => if p.migr.role = 2 ∧ p.migr.phase = 2 ∧ p.migr.at_ + recordCycles ≤ s.now then s.migFail part mgLink true else s)

/-! ## Paging (23 R455, R456) -/

/-- The background pull asks for the lowest page that no one has asked for, one page at a time; when no page is absent, PULLED is sent. -/
def State.backgroundPull (s : State) (part : Nat) : State :=
  match s.part part with
  | none => s
  | some p =>
    if p.migr.role ≠ 2 ∨ p.migr.phase ≠ 4 then s
    else if p.migr.pages.isEmpty then
      ((s.setPart part { p with migr := { p.migr with phase := 5, at_ := s.now } }).migSay 0x14 part p.migr p.migr.n1 p.migr.n2).notice part p.migr ntPulled 0
    else if p.migr.pulls.any fun q => decide (q % 8 = 7) then s
    else
      match least (p.migr.pages.filter fun g => !p.migr.pulls.any fun q => decide (q / 8 = g)) with
      | none => s
      | some g => s.askPage part 7 g

/-- MIGRATION_RESUMED (23 R449, R454): every context that the freeze saved has been restored: RESUMED is sent, and paging begins. -/
def execMigrationResumed (part : Nat) (s : State) : Host.Outcome State Fault Refusal :=
  .next (match s.part part with
    | none => s
    | some p =>
      if p.migr.role ≠ 2 ∨ p.migr.phase ≠ 3 ∨ p.sps.any (fun k => (s.sp k).victims.any fun v => v.ctx.frozen) then s else
      let s1 := (s.setPart part { p with migr := { p.migr with phase := 4, at_ := s.now } }).migSay 0x13 part p.migr p.migr.bytes p.migr.contexts
      ((s1.notice part p.migr ntResumed 0).backgroundPull part).passSoon part)

/-- PAGE_PULL_REQUEST (23 R455): the slice of an access that waits for an absent page asks for it. -/
def execPagePullRequest (acc : Nat) (s : State) : Host.Outcome State Fault Refusal :=
  .next (match s.acc acc with
    | none => s
    | some a => if a.state = 10 then s.askPage a.part (dieOfPa a.pa) (a.pa / 0x10000) else s)

/-- Packet `i` of a page: 16 lines, with those that are poisoned in the sequence field (log 18). -/
def State.pagePacket (s : State) (part page i : Nat) (m : Migr) : Packet :=
  let a := page * 0x10000 + i * 1024
  let map := ((List.range 16).map fun j => if s.poison.contains (a / 64 + j) then 2 ^ j else 0).sum
  migPacket s.dev.pkg part m 1 a (pageEngine + part) map 0 (Memory.read s.mem a 1024)

/-- PAGE_SHIP (23 R456): the page first in the order of the pulls is sent, once the slices have performed what they hold on its lines and written
back what they have cached of it. -/
def execPageShip (part page : Nat) (s0 : State) : Host.Outcome State Fault Refusal :=
  let s := s0.writeBack fun l => decide (l.beat / 1024 = page)
  .next (match s.part part with
    | none => s
    | some p =>
      if p.migr.role ≠ 1 ∨ p.migr.phase < 3 ∨ p.migr.pulls.head?.map (· / 2) ≠ some page then s
      else if s.accs.any (fun a => decide (a.part = part) && decide (a.state = 2) && decide (a.pa / 0x10000 = page)) then s
      else
        let s1 := s.setPart part { p with migr := { p.migr with pulls := p.migr.pulls.drop 1, pages := p.migr.pages.filter (· ≠ page) ++ [page] } }
        (List.range 64).foldl (fun t i => t.sendPacket p.migr.port (s.pagePacket part page i p.migr)) s1)

/-- PAGE_PRESENT (23 R455): the page has been written: the accesses that wait for it go on, in their order, the next request of its die is
sent, and the background pull goes on. -/
def execPagePresent (part page : Nat) (s : State) : Host.Outcome State Fault Refusal :=
  .next (match s.part part with
    | none => s
    | some p =>
      if p.migr.role ≠ 2 ∨ !p.migr.pages.contains page then s else
      let die := ((p.migr.pulls.find? fun q => decide (q / 8 = page)).map (· % 8)).getD 7
      let pulls := p.migr.pulls.filter fun q => decide (q / 8 ≠ page)
      let g := { p.migr with
        pages := p.migr.pages.filter (· ≠ page), own := p.migr.own.filter fun r => decide (r.1 / 0x10000 ≠ page), pulls := pulls, got := KMap.del page p.migr.got,
        n1 := if die = 7 then p.migr.n1 else p.migr.n1 + 1, n2 := if die = 7 then p.migr.n2 + 1 else p.migr.n2 }
      let s1 := s.setPart part { p with migr := g }
      let s2 : State := { s1 with
        engines := KMap.upd (pullEngine part die) (fun (e : Engine) => { e with beats := e.beats.filter fun b => decide (b.pkt.ia ≠ page * 0x10000) }) s1.engines,
        accs := s1.accs.map fun (a : Acc) => if a.state = 10 ∧ a.part = part ∧ a.pa / 0x10000 = page then { a with state := 2, ready := s.now } else a }
      let sent := (s2.engine (pullEngine part die)).beats
      let s3 := match pulls.find? fun q => decide (q % 8 = die) && !sent.any fun b => decide (b.pkt.ia = q / 8 * 0x10000) with
        | some q => if sent.length < 64 then s2.sendPull part die (q / 8) g else s2
        | none => s2
      s3.backgroundPull part)

/-! ## Acknowledgements (15 R385; 23 R457, R458) -/

/-- The beat of an engine with a sequence number. -/
def State.beatOf (s : State) (e seq : Nat) : Option Beat := (s.engine e).beats.find? fun b => decide (b.pkt.seq = seq)

/-- It changed. -/
def State.modBeat (s : State) (e seq : Nat) (f : Beat → Beat) : State :=
  { s with engines := KMap.upd e (fun (g : Engine) => { g with beats := updFirst (fun b => decide (b.pkt.seq = seq)) f g.beats }) s.engines }

/-- The beat is done with: the engine has room for the accesses of its die that wait for one (15 R384). -/
def State.dropBeat (s : State) (e seq : Nat) : State :=
  let s1 : State := { s with engines := KMap.upd e (fun (g : Engine) => { g with beats := dropFirst (fun b => decide (b.pkt.seq = seq)) g.beats }) s.engines }
  s1.enginesFree (e / 16)

/-- The access of a beat ends with a status and the bytes of its answer, unless it has ended, once they have come through the routers of its die
(15 R392); a failure no earlier than 96 cycles after sending (10 R258). -/
def State.beatLands (s : State) (b : Beat) (status : Nat) (data : List Byte) : State :=
  s.modAcc b.acc fun a => if a.state ≠ 5 then a else
    { a with state := 3, status := status, ready := let t := s.now + fabricToArith a.routerHops; if status = 0 ∨ status = stPoison then t else max t (a.sentAt + 96),
             result := if a.kind.reads then (data ++ List.replicate a.n 0).take a.n else [] }

/-- The beat has ended, and its access with it. -/
def State.beatDone (s : State) (b : Beat) (status : Nat) (data : List Byte) : State := (s.beatLands b status data).dropBeat b.pkt.engine b.pkt.seq

/-- The data of a beat that reads has not come. -/
def State.dataDue (s : State) (b : Beat) : Bool := (s.acc b.acc).any fun a => decide (a.state = 5) && a.kind.reads

/-- A notice of the peer of a migration. -/
def State.noticed (s : State) (k : Packet) : State :=
  match s.part k.dstPart with
  | none => s
  | some p =>
    if p.migr.peerPkg ≠ k.srcPkg ∨ p.migr.peerPart ≠ k.srcPart then s
    else if k.seq = ntFailed then (if (p.migr.role = 1 ∧ p.migr.phase ≤ 3) ∨ (p.migr.role = 2 ∧ (p.migr.phase = 2 ∨ p.migr.phase = 3)) then s.migFail k.dstPart k.status false else s)
    else if p.migr.role ≠ 1 then s
    else if k.seq = ntResumed ∧ p.migr.phase = 3 then s.setPart k.dstPart { p with migr := { p.migr with phase := 4, at_ := s.now } }
    else if k.seq = ntPulled ∧ p.migr.phase = 4 then s.setPart k.dstPart { p with migr := { p.migr with phase := 5, at_ := s.now } }
    else s

/-- BEAT_ACK (15 R385): an acknowledgement ends its beat, unless it says OK and the data that it is to follow has not come; read data ends the access; HOLD
keeps the beat to be sent again; the answer to a hello begins the freeze or ends the migration (23 R448, R450). -/
def execBeatAck (k : Packet) (s : State) : Host.Outcome State Fault Refusal :=
  .next (
    if k.op = 6 ∧ k.engine = noticeEngine then s.noticed k else
    match s.beatOf k.engine k.seq with
    | none => s
    | some b =>
      if b.pkt.op = 10 then
        let s1 := s.dropBeat k.engine k.seq
        if k.status = 0 then s1.freeze b.pkt.srcPart else s1.migFail b.pkt.srcPart mgMismatch false
      else if k.op = 6 ∧ k.status = stHold then s.modBeat k.engine k.seq fun b => { b with hold := true, at_ := s.now }
      else if k.op = 3 then s.beatLands b k.status k.data
      else if k.status = 0 ∧ s.dataDue b then s
      else s.beatDone b k.status k.data)

/-- A beat is sent once more. -/
def State.sendAgain (s : State) (e : Nat) (b : Beat) : State :=
  (s.modBeat e b.pkt.seq fun _ => b).sendOver b.port 8 b.addr (s.now + fabricToArith 12) b.pkt

/-- A beat by another port. -/
def State.beatBy (s : State) (b : Beat) (n : Nat) : Beat := { b with port := n, addr := if n = b.port then b.addr else s.farAddr n b.pkt.dstPkg }

/-- BEAT_RESEND_TIMEOUT (15 R385): a beat without an answer for 2^16 fabric cycles is sent again; after 8 resends, or when every route to its peer has
failed, it ends with REMOTE_DOWN: a hello fails the migration (23 R448), a pull leaves its page poisoned (23 R455). -/
def execBeatResendTimeout (engine seq : Nat) (s : State) : Host.Outcome State Fault Refusal :=
  .next (match s.beatOf engine seq with
    | none => s
    | some b =>
      let route := match s.part b.pkt.srcPart with
        | none => if (s.port b.port).linkState = 3 then none else some b.port
        | some p => s.portFor p b.port b.pkt.dstPkg
      let down := route.isNone
      if b.hold ∨ !(down || decide (b.at_ + resendCycles ≤ s.now)) then s
      else if !down && decide (b.tries < 8) then s.sendAgain engine { s.beatBy b (route.getD b.port) with tries := b.tries + 1, at_ := s.now }
      else if b.pkt.op = 10 then (s.dropBeat engine seq).migFail b.pkt.srcPart mgLink false
      else if 256 ≤ engine then
        let g := b.pkt.ia / 0x10000
        let s1 := s.dropBeat engine seq
        let lines := (List.range 1024).map fun i => g * 1024 + i
        lines.foldl (fun t x => t.logPoison (64 * x) (64 * x)) { s1 with poison := s1.poison.filter (fun x => decide (x / 1024 ≠ g)) ++ lines, inbox := s1.inbox ++ [.pagePresent b.pkt.srcPart g] }
      else s.beatDone b stRemoteDown [])

/-- HOLD_RESEND (23 R457): a beat answered HOLD is sent again 2^16 fabric cycles later; this does not count. -/
def execHoldResend (engine seq : Nat) (s : State) : Host.Outcome State Fault Refusal :=
  .next (match s.beatOf engine seq with
    | none => s
    | some b => if b.hold ∧ b.at_ + resendCycles ≤ s.now then s.sendAgain engine { b with hold := false, at_ := s.now } else s)

/-- A PEER entry whose peer has moved (23 R458). -/
def Part.repeer (p : Part) (w pkg part : Nat) : Part :=
  let a := p.peerWord w 0
  let v := a.toNat - bits a 32 16 * 2 ^ 32 - bits a 53 5 * 2 ^ 53 + pkg % 2 ^ 16 * 2 ^ 32 + part % 32 * 2 ^ 53
  { p with peer := KMap.ins (2 * w) (BitVec.ofNat 64 v) p.peer }

/-- The contexts of a launch, running and pre-empted, changed. -/
def State.modContexts (s : State) (launch : Nat) (f : Ctx → Ctx) : State :=
  { s with sps := s.sps.map fun (e : Nat × Sp) => (e.1, { e.2 with
      ctx := e.2.ctx.map fun c => if c.launch = launch then f c else c,
      victims := e.2.victims.map fun v => if v.ctx.launch = launch then { v with ctx := f v.ctx } else v }) }

/-- The PEER entries of a partition that name the answering partition name its new place, and the token requests that wait for it are made
again. -/
def State.tokensMoved (s : State) (k : Packet) (pkg part : Nat) : State :=
  match s.part k.dstPart with
  | none => s
  | some p =>
    let ws := ((List.range 16).drop 1).filter fun w => let a := p.peerWord w 0
      decide (bits a 63 1 = 1) && decide (bits a 32 16 = k.srcPkg) && decide (bits a 53 5 = k.srcPart)
    let p1 := ws.foldl (fun p w => p.repeer w pkg part) p
    let again := fun (c : Ctx) => { c with tokens := c.tokens.map fun e => if e.2 = 0 ∧ ws.contains (iaWindow (e.1 * 2 ^ 21)) then (e.1, 16 + s.now) else e }
    (s.setPart k.dstPart p1).modContexts k.launch again

/-- MOVED_ACK (23 R458): the PEER entry that routed the beat takes the new package and partition, and the beat is sent again. -/
def execMovedAck (k : Packet) (s : State) : Host.Outcome State Fault Refusal :=
  .next (
    let pkg := k.ia % 2 ^ 16; let part := k.ia / 2 ^ 16 % 32
    if k.op = 8 then s.tokensMoved k pkg part else
    match s.beatOf k.engine k.seq with
    | none => s
    | some b =>
      match s.acc b.acc with
      | none => s
      | some a =>
        let w := iaWindow a.ia
        let s1 := if w = 0 then s else s.modPart a.part fun p => p.repeer w pkg part
        let port := ((s1.part a.part).map fun p => bits (p.peerWord w 0) 28 4).getD b.port
        let addr := ((s1.part a.part).map fun p => s1.windowAddr p a.ia port pkg).getD b.addr
        s1.sendAgain k.engine { b with pkt := { b.pkt with dstPkg := pkg, dstPart := part }, at_ := s.now, hold := false, port := port, addr := addr })

/-- GRACE_EXPIRY (23 R449): 2^20 fabric cycles after PULLED, DRAINED is sent. -/
def execGraceExpiry (part : Nat) (s : State) : Host.Outcome State Fault Refusal :=
  .next (match s.part part with
    | none => s
    | some p =>
      if p.migr.role = 1 ∧ p.migr.phase = 5 ∧ p.migr.at_ + graceCycles ≤ s.now then
        (s.setPart part { p with migr := { p.migr with phase := 6, at_ := s.now }, moved := some (p.migr.peerPkg, p.migr.peerPart) }).migSay 0x15 part p.migr p.migr.n1 p.migr.n2
      else s)

end Sys2Proof.Machine
end

