-- ==== Sys2Proof/Machine/Dispatch.lean ====
section
/-! DEFINITION. One arm per constructor of `Instr`: a call of its meaning, or a rejection by name. -/

namespace Sys2Proof.Machine

/-- The effect of an instruction or of a step of the part. -/
def exec (i : Instr) (s : State) : Host.Outcome State Fault Refusal :=
  match i with
  | .launch h r => Sys2Proof.Machine.execLaunch h r s
  | .write h ia data => Sys2Proof.Machine.execWrite h ia data s
  | .read h ia len => Sys2Proof.Machine.execRead h ia len s
  | .hostTransferComplete id => Sys2Proof.Machine.execHostTransferComplete id s
  | .load h ia len => Sys2Proof.Machine.execLoad h ia len s
  | .unload h handle => Sys2Proof.Machine.execUnload h handle s
  | .cancel h tag => Sys2Proof.Machine.execCancel h tag s
  | .ack vf seq => Sys2Proof.Machine.execAck vf seq s
  | .vctInvalidMessage h => Sys2Proof.Machine.execVctInvalidMessage h s
  | .vctRetransmitTimer vf seq => Sys2Proof.Machine.execVctRetransmitTimer vf seq s
  | .partCreate h part => Sys2Proof.Machine.execPartCreate h part s
  | .partDestroy h part => Sys2Proof.Machine.execPartDestroy h part s
  | .partSps h part mask => Sys2Proof.Machine.execPartSps h part mask s
  | .partMem h part base len remove => Sys2Proof.Machine.execPartMem h part base len remove s
  | .partArena h part bytes => Sys2Proof.Machine.execPartArena h part bytes s
  | .vfBind h vf part => Sys2Proof.Machine.execVfBind h vf part s
  | .vfUnbind h vf => Sys2Proof.Machine.execVfUnbind h vf s
  | .migrateAccept h m => Sys2Proof.Machine.execMigrateAccept h m s
  | .migrateStart h m => Sys2Proof.Machine.execMigrateStart h m s
  | .migrateAbort h m => Sys2Proof.Machine.execMigrateAbort h m s
  | .migrateRelease h m => Sys2Proof.Machine.execMigrateRelease h m s
  | .placementPass part => Sys2Proof.Machine.execPlacementPass part s
  | .taskTake part => Sys2Proof.Machine.execTaskTake part s
  | .launchRelease id => Sys2Proof.Machine.execLaunchRelease id s
  | .palloc rd rs1 rs2 => Sys2Proof.Machine.execPalloc rd rs1 rs2 s
  | .pfree rd rs1 => Sys2Proof.Machine.execPfree rd rs1 s
  | .pinfo rd rs1 => Sys2Proof.Machine.execPinfo rd rs1 s
  | .sdset sd rs1 field => Sys2Proof.Machine.execSdset sd rs1 field s
  | .sdget rd ss field => Sys2Proof.Machine.execSdget rd ss field s
  | .sdcopy sd ss => Sys2Proof.Machine.execSdcopy sd ss s
  | .eosClose sp handle => Sys2Proof.Machine.execEosClose sp handle s
  | .sload rd sd rs1 rs2 => Sys2Proof.Machine.execSload rd sd rs1 rs2 s
  | .sstore rd sd rs1 rs2 => Sys2Proof.Machine.execSstore rd sd rs1 rs2 s
  | .sgather rd sd rs1 rs2 => Sys2Proof.Machine.execSgather rd sd rs1 rs2 s
  | .sscatter rd sd rs1 rs2 => Sys2Proof.Machine.execSscatter rd sd rs1 rs2 s
  | .sscadd rd sd rs1 rs2 => Sys2Proof.Machine.execSscadd rd sd rs1 rs2 s
  | .scopy rd sd rs1 rs2 => Sys2Proof.Machine.execScopy rd sd rs1 rs2 s
  | .spref rs1 rs2 => Sys2Proof.Machine.execSpref rs1 rs2 s
  | .satomAdd rd sd rs1 rs2 => Sys2Proof.Machine.execSatomAdd rd sd rs1 rs2 s
  | .satomSwap rd sd rs1 rs2 => Sys2Proof.Machine.execSatomSwap rd sd rs1 rs2 s
  | .satomCas rd sd rs1 rs2 => Sys2Proof.Machine.execSatomCas rd sd rs1 rs2 s
  | .satomMin rd sd rs1 rs2 => Sys2Proof.Machine.execSatomMin rd sd rs1 rs2 s
  | .satomMax rd sd rs1 rs2 => Sys2Proof.Machine.execSatomMax rd sd rs1 rs2 s
  | .satomAnd rd sd rs1 rs2 => Sys2Proof.Machine.execSatomAnd rd sd rs1 rs2 s
  | .satomOr rd sd rs1 rs2 => Sys2Proof.Machine.execSatomOr rd sd rs1 rs2 s
  | .krun rd rs1 rs2 => Sys2Proof.Machine.execKrun rd rs1 rs2 s
  | .kstage rd rs1 rs2 => Sys2Proof.Machine.execKstage rd rs1 rs2 s
  | .kpipe rd rs1 rs2 => Sys2Proof.Machine.execKpipe rd rs1 rs2 s
  | .khalt rd => Sys2Proof.Machine.execKhalt rd s
  | .svadd rd rs1 rs2 => Sys2Proof.Machine.execSvadd rd rs1 rs2 s
  | .svmul rd rs1 rs2 => Sys2Proof.Machine.execSvmul rd rs1 rs2 s
  | .svfma rd rs1 rs2 => Sys2Proof.Machine.execSvfma rd rs1 rs2 s
  | .svcvt rd rs1 rs2 => Sys2Proof.Machine.execSvcvt rd rs1 rs2 s
  | .svscale rd rs1 rs2 => Sys2Proof.Machine.execSvscale rd rs1 rs2 s
  | .svmax rd rs1 rs2 => Sys2Proof.Machine.execSvmax rd rs1 rs2 s
  | .svmin rd rs1 rs2 => Sys2Proof.Machine.execSvmin rd rs1 rs2 s
  | .svcopy rd rs1 rs2 => Sys2Proof.Machine.execSvcopy rd rs1 rs2 s
  | .svfill rd rs1 rs2 => Sys2Proof.Machine.execSvfill rd rs1 rs2 s
  | .sweepIteration sp => Sys2Proof.Machine.execSweepIteration sp s
  | .mload rd rs1 rs2 => Sys2Proof.Machine.execMload rd rs1 rs2 s
  | .mloadComplete sp => Sys2Proof.Machine.execMloadComplete sp s
  | .spmerge rd rs1 rs2 => Sys2Proof.Machine.execSpmerge rd rs1 rs2 s
  | .spdrain rd rs2 => Sys2Proof.Machine.execSpdrain rd rs2 s
  | .awinit rd rs1 rs2 => Sys2Proof.Machine.execAwinit rd rs1 rs2 s
  | .await rd rs1 rs2 => Sys2Proof.Machine.execAwait rd rs1 rs2 s
  | .acq rd rs1 rs2 => Sys2Proof.Machine.execAcq rd rs1 rs2 s
  | .rel rd rs1 => Sys2Proof.Machine.execRel rd rs1 s
  | .tacq rd rs1 rs2 => Sys2Proof.Machine.execTacq rd rs1 rs2 s
  | .trel rd rs1 => Sys2Proof.Machine.execTrel rd rs1 s
  | .fencex rd rs1 => Sys2Proof.Machine.execFencex rd rs1 s
  | .swait rd rs1 => Sys2Proof.Machine.execSwait rd rs1 s
  | .sbar rd rs1 => Sys2Proof.Machine.execSbar rd rs1 s
  | .spawn rd rs1 rs2 => Sys2Proof.Machine.execSpawn rd rs1 rs2 s
  | .texit => Sys2Proof.Machine.execTexit s
  | .tsplit rd rs1 => Sys2Proof.Machine.execTsplit rd rs1 s
  | .treseed rd => Sys2Proof.Machine.execTreseed rd s
  | .gsync rd rs1 => Sys2Proof.Machine.execGsync rd rs1 s
  | .syield rd => Sys2Proof.Machine.execSyield rd s
  | .sstat rd rs1 => Sys2Proof.Machine.execSstat rd rs1 s
  | .controllerWaitEnd sp => Sys2Proof.Machine.execControllerWaitEnd sp s
  | .rvIntegerAlu c op w rd rs1 src => Sys2Proof.Machine.execRvIntegerAlu c op w rd rs1 src s
  | .rvMultiply op rd rs1 rs2 => Sys2Proof.Machine.execRvMultiply op rd rs1 rs2 s
  | .rvDivide op w rd rs1 rs2 => Sys2Proof.Machine.execRvDivide op w rd rs1 rs2 s
  | .rvLoad c k rd rs1 off => Sys2Proof.Machine.execRvLoad c k rd rs1 off s
  | .rvStore c k rs2 rs1 off => Sys2Proof.Machine.execRvStore c k rs2 rs1 off s
  | .rvFloatOp op dbl rd rs1 rs2 rs3 rm => Sys2Proof.Machine.execRvFloatOp op dbl rd rs1 rs2 rs3 rm s
  | .rvFdivFsqrt sqrt dbl rd rs1 rs2 rm => Sys2Proof.Machine.execRvFdivFsqrt sqrt dbl rd rs1 rs2 rm s
  | .rvBranch c k rs1 rs2 off => Sys2Proof.Machine.execRvBranch c k rs1 rs2 off s
  | .jal c rd off => Sys2Proof.Machine.execJal c rd off s
  | .jalr c rd rs1 off => Sys2Proof.Machine.execJalr c rd rs1 off s
  | .fence ii bits => Sys2Proof.Machine.execFence ii bits s
  | .lr d aqrl rd rs1 => Sys2Proof.Machine.execLr d aqrl rd rs1 s
  | .sc d aqrl rd rs1 rs2 => Sys2Proof.Machine.execSc d aqrl rd rs1 rs2 s
  | .rvAmo op d aqrl rd rs1 rs2 => Sys2Proof.Machine.execRvAmo op d aqrl rd rs1 rs2 s
  | .rvCsrAccess op imm csr rd src => Sys2Proof.Machine.execRvCsrAccess op imm csr rd src s
  | .ecall => Sys2Proof.Machine.execEcall s
  | .ebreak c => Sys2Proof.Machine.execEbreak c s
  | .kstatusKres sp => Sys2Proof.Machine.execKstatusKres sp s
  | .kstatusKkill sp => Sys2Proof.Machine.execKstatusKkill sp s
  | .kstatusIeWrite sp v => Sys2Proof.Machine.execKstatusIeWrite sp v s
  | .kstatusPendClear sp => Sys2Proof.Machine.execKstatusPendClear sp s
  | .kstatClear sp mask => Sys2Proof.Machine.execKstatClear sp mask s
  | .cboundWrite sp v => Sys2Proof.Machine.execCboundWrite sp v s
  | .mpreqWrite sp => Sys2Proof.Machine.execMpreqWrite sp s
  | .keventDelivery sp => Sys2Proof.Machine.execKeventDelivery sp s
  | .scoreboardIssue sp => Sys2Proof.Machine.execScoreboardIssue sp s
  | .towerRendezvous sp => Sys2Proof.Machine.execTowerRendezvous sp s
  | .copyBeatSend sp seq => Sys2Proof.Machine.execCopyBeatSend sp seq s
  | .copyBeatCommit acc => Sys2Proof.Machine.execCopyBeatCommit acc s
  | .kcopyQueueIssue sp => Sys2Proof.Machine.execKcopyQueueIssue sp s
  | .kernelCommandComplete sp => Sys2Proof.Machine.execKernelCommandComplete sp s
  | .bundleIssue sp => Sys2Proof.Machine.execBundleIssue sp s
  | .resultLanding sp => Sys2Proof.Machine.execResultLanding sp s
  | .loopBackEdge sp => Sys2Proof.Machine.execLoopBackEdge sp s
  | .branchTransfer sp => Sys2Proof.Machine.execBranchTransfer sp s
  | .dikeRelease part entry => Sys2Proof.Machine.execDikeRelease part entry s
  | .towerLineRelease sp => Sys2Proof.Machine.execTowerLineRelease sp s
  | .arbiterDecision sp => Sys2Proof.Machine.execArbiterDecision sp s
  | .watchdogExpiry sp => Sys2Proof.Machine.execWatchdogExpiry sp s
  | .aqSend sp cluster => Sys2Proof.Machine.execAqSend sp cluster s
  | .dqLand acc => Sys2Proof.Machine.execDqLand acc s
  | .callQueueStart sp => Sys2Proof.Machine.execCallQueueStart sp s
  | .accUpdateLanding sp => Sys2Proof.Machine.execAccUpdateLanding sp s
  | .routineRetire sp => Sys2Proof.Machine.execRoutineRetire sp s
  | .lockRound sp => Sys2Proof.Machine.execLockRound sp s
  | .spireRecordIntake sp => Sys2Proof.Machine.execSpireRecordIntake sp s
  | .spireRunWritten sp => Sys2Proof.Machine.execSpireRunWritten sp s
  | .spireMergePass sp => Sys2Proof.Machine.execSpireMergePass sp s
  | .spireEmit sp => Sys2Proof.Machine.execSpireEmit sp s
  | .spireComplete sp => Sys2Proof.Machine.execSpireComplete sp s
  | .rangeMissServe sp => Sys2Proof.Machine.execRangeMissServe sp s
  | .walkStart die => Sys2Proof.Machine.execWalkStart die s
  | .walkEnd die walk => Sys2Proof.Machine.execWalkEnd die walk s
  | .faultResolve part id => Sys2Proof.Machine.execFaultResolve part id s
  | .faultCancel part id => Sys2Proof.Machine.execFaultCancel part id s
  | .tlbInvalidate part base len => Sys2Proof.Machine.execTlbInvalidate part base len s
  | .sliceApply acc => Sys2Proof.Machine.execSliceApply acc s
  | .packetReceive port hdr data tail => Sys2Proof.Machine.execPacketReceive port hdr data tail s
  | .linkReplay port => Sys2Proof.Machine.execLinkReplay port s
  | .linkTraining port delay => Sys2Proof.Machine.execLinkTraining port delay s
  | .portcfgWrite port v => Sys2Proof.Machine.execPortcfgWrite port v s
  | .homeBeatApply k => Sys2Proof.Machine.execHomeBeatApply k s
  | .beatAck k => Sys2Proof.Machine.execBeatAck k s
  | .beatResendTimeout engine seq => Sys2Proof.Machine.execBeatResendTimeout engine seq s
  | .tokenRequest k => Sys2Proof.Machine.execTokenRequest k s
  | .tokenReply k => Sys2Proof.Machine.execTokenReply k s
  | .tokenRetry sp => Sys2Proof.Machine.execTokenRetry sp s
  | .tacqTimeout sp => Sys2Proof.Machine.execTacqTimeout sp s
  | .scaleoutFrameReceive pair fcsOk d => Sys2Proof.Machine.execScaleoutFrameReceive pair fcsOk d s
  | .selectiveAckSend pair => Sys2Proof.Machine.execSelectiveAckSend pair s
  | .selectiveAckReceive pair seq bitmap => Sys2Proof.Machine.execSelectiveAckReceive pair seq bitmap s
  | .frameResendTimeout pair seq => Sys2Proof.Machine.execFrameResendTimeout pair seq s
  | .preemptRequest sp => Sys2Proof.Machine.execPreemptRequest sp s
  | .kernelHalt sp => Sys2Proof.Machine.execKernelHalt sp s
  | .matrixDrainLimit sp => Sys2Proof.Machine.execMatrixDrainLimit sp s
  | .spirePreemptStop sp => Sys2Proof.Machine.execSpirePreemptStop sp s
  | .aqReclaim sp => Sys2Proof.Machine.execAqReclaim sp s
  | .contextSave sp => Sys2Proof.Machine.execContextSave sp s
  | .contextSaveComplete sp => Sys2Proof.Machine.execContextSaveComplete sp s
  | .shadowWriteOut sp => Sys2Proof.Machine.execShadowWriteOut sp s
  | .polderClaim sp victim handle => Sys2Proof.Machine.execPolderClaim sp victim handle s
  | .controlMemoryClaim sp => Sys2Proof.Machine.execControlMemoryClaim sp s
  | .contextRestore sp victim => Sys2Proof.Machine.execContextRestore sp victim s
  | .migrationHello k => Sys2Proof.Machine.execMigrationHello k s
  | .migrationFrozen part => Sys2Proof.Machine.execMigrationFrozen part s
  | .stateRecord part => Sys2Proof.Machine.execStateRecord part s
  | .stateRecordTimeout part => Sys2Proof.Machine.execStateRecordTimeout part s
  | .migrationResumed part => Sys2Proof.Machine.execMigrationResumed part s
  | .pagePullRequest acc => Sys2Proof.Machine.execPagePullRequest acc s
  | .pageShip part page => Sys2Proof.Machine.execPageShip part page s
  | .pagePresent part page => Sys2Proof.Machine.execPagePresent part page s
  | .holdResend engine seq => Sys2Proof.Machine.execHoldResend engine seq s
  | .beatForward k => Sys2Proof.Machine.execBeatForward k s
  | .movedAck k => Sys2Proof.Machine.execMovedAck k s
  | .graceExpiry part => Sys2Proof.Machine.execGraceExpiry part s
  | .powerOnReset => Sys2Proof.Machine.execPowerOnReset s
  | .railDrop rail => Sys2Proof.Machine.execRailDrop rail s
  | .warmReset => Sys2Proof.Machine.execWarmReset s
  | .thermalWarn sensor => Sys2Proof.Machine.execThermalWarn sensor s
  | .thermalTrip sensor => Sys2Proof.Machine.execThermalTrip sensor s
  | .thermalRecover => Sys2Proof.Machine.execThermalRecover s
  | .attgo => Sys2Proof.Machine.execAttgo s
  | .attestationDone => Sys2Proof.Machine.execAttestationDone s
  | .snaptrig => Sys2Proof.Machine.execSnaptrig s
  | .snapshotPacket port => Sys2Proof.Machine.execSnapshotPacket port s
  | .snapshotLatch => Sys2Proof.Machine.execSnapshotLatch s
  | .snapctlValidClear => Sys2Proof.Machine.execSnapctlValidClear s
  | .dbgctlAttach sp => Sys2Proof.Machine.execDbgctlAttach sp s
  | .dbgctlGo sp => Sys2Proof.Machine.execDbgctlGo sp s
  | .jtagRegacc addr wr v => Sys2Proof.Machine.execJtagRegacc addr wr v s
  | .jtagIdcode => Sys2Proof.Machine.execJtagIdcode s
  | .jtagBypass tdi => Sys2Proof.Machine.execJtagBypass tdi s
  | .jtagSamplePreload => Sys2Proof.Machine.execJtagSamplePreload s
  | .jtagExtest => Sys2Proof.Machine.execJtagExtest s
  | .jtagTrst => Sys2Proof.Machine.execJtagTrst s
  | .registerWrite addr v => Sys2Proof.Machine.execRegisterWrite addr v s
  | .holeRead addr => Sys2Proof.Machine.execHoleRead addr s
  | .kstep g na nb noacc => Sys2Proof.Machine.execKstep g na nb noacc s
  | .ksteps g na nb noacc => Sys2Proof.Machine.execKsteps g na nb noacc s
  | .rpop ring reg n => Sys2Proof.Machine.execRpop ring reg n s
  | .rpeek ring reg n => Sys2Proof.Machine.execRpeek ring reg n s
  | .rowg inc g => Sys2Proof.Machine.execRowg inc g s
  | .accsel n => Sys2Proof.Machine.execAccsel n s
  | .accz g => Sys2Proof.Machine.execAccz g s
  | .loopk max reg k body => Sys2Proof.Machine.execLoopk max reg k body s
  | .wmset n g => Sys2Proof.Machine.execWmset n g s
  | .bmchk => Sys2Proof.Machine.execBmchk s
  | .epi g fn k => Sys2Proof.Machine.execEpi g fn k s
  | .parm kd m half => Sys2Proof.Machine.execParm kd m half s
  | .jmp d => Sys2Proof.Machine.execJmp d s
  | .ret => Sys2Proof.Machine.execRet s
  | .pbt p b imm => Sys2Proof.Machine.execPbt p b imm s
  | .cmp p cd cond qa qb => Sys2Proof.Machine.execCmp p cd cond qa qb s
  | .cmpi p cd cond qa imm => Sys2Proof.Machine.execCmpi p cd cond qa imm s
  | .brT p b c => Sys2Proof.Machine.execBrT p b c s
  | .brF p b c => Sys2Proof.Machine.execBrF p b c s
  | .br p b => Sys2Proof.Machine.execBr p b s
  | .brR p => Sys2Proof.Machine.execBrR p s
  | .brl p b => Sys2Proof.Machine.execBrl p b s
  | .loop p b reg n => Sys2Proof.Machine.execLoop p b reg n s
  | .loopi p b reg n => Sys2Proof.Machine.execLoopi p b reg n s
  | .loopm p b reg n stages => Sys2Proof.Machine.execLoopm p b reg n stages s
  | .vany p cd v w pn => Sys2Proof.Machine.execVany p cd v w pn s
  | .vall p cd v w pn => Sys2Proof.Machine.execVall p cd v w pn s
  | .clog p cd ca cb table => Sys2Proof.Machine.execClog p cd ca cb table s
  | .yieldK p => Sys2Proof.Machine.execYieldK p s
  | .sync p port => Sys2Proof.Machine.execSync p port s
  | .decouple p => Sys2Proof.Machine.execDecouple p s
  | .rejoin p => Sys2Proof.Machine.execRejoin p s
  | .endK p => Sys2Proof.Machine.execEndK p s
  | .ktrap p n => Sys2Proof.Machine.execKtrap p n s
  | .qadd p qd qa qb => Sys2Proof.Machine.execQadd p qd qa qb s
  | .qsub p qd qa qb => Sys2Proof.Machine.execQsub p qd qa qb s
  | .qaddi p qd qa imm x => Sys2Proof.Machine.execQaddi p qd qa imm x s
  | .qmul p qd qa qb => Sys2Proof.Machine.execQmul p qd qa qb s
  | .qand p qd qa qb => Sys2Proof.Machine.execQand p qd qa qb s
  | .qor p qd qa qb => Sys2Proof.Machine.execQor p qd qa qb s
  | .qxor p qd qa qb => Sys2Proof.Machine.execQxor p qd qa qb s
  | .qshl p qd qa qb => Sys2Proof.Machine.execQshl p qd qa qb s
  | .qshr p qd qa qb => Sys2Proof.Machine.execQshr p qd qa qb s
  | .qsra p qd qa qb => Sys2Proof.Machine.execQsra p qd qa qb s
  | .qmin p qd qa qb => Sys2Proof.Machine.execQmin p qd qa qb s
  | .qmax p qd qa qb => Sys2Proof.Machine.execQmax p qd qa qb s
  | .qli p qd imm x => Sys2Proof.Machine.execQli p qd imm x s
  | .qget p qd sel => Sys2Proof.Machine.execQget p qd sel s
  | .mset p md qa => Sys2Proof.Machine.execMset p md qa s
  | .mwait p tile rows => Sys2Proof.Machine.execMwait p tile rows s
  | .pset p pd w reg n => Sys2Proof.Machine.execPset p pd w reg n s
  | .ptail p pd w qa len => Sys2Proof.Machine.execPtail p pd w qa len s
  | .ksr p qd mask => Sys2Proof.Machine.execKsr p qd mask s
  | .ksc p qa => Sys2Proof.Machine.execKsc p qa s
  | .kmode p reg n => Sys2Proof.Machine.execKmode p reg n s
  | .pref p qa qb => Sys2Proof.Machine.execPref p qa qb s
  | .qsd p qd sd field => Sys2Proof.Machine.execQsd p qd sd field s
  | .gadd p gd ga gb => Sys2Proof.Machine.execGadd p gd ga gb s
  | .gsub p gd ga gb => Sys2Proof.Machine.execGsub p gd ga gb s
  | .gaddi p gd ga imm x => Sys2Proof.Machine.execGaddi p gd ga imm x s
  | .gmul p gd ga gb => Sys2Proof.Machine.execGmul p gd ga gb s
  | .gmulh p gd ga gb n => Sys2Proof.Machine.execGmulh p gd ga gb n s
  | .gand p gd ga gb => Sys2Proof.Machine.execGand p gd ga gb s
  | .gor p gd ga gb => Sys2Proof.Machine.execGor p gd ga gb s
  | .gxor p gd ga gb => Sys2Proof.Machine.execGxor p gd ga gb s
  | .gshl p gd ga gb => Sys2Proof.Machine.execGshl p gd ga gb s
  | .gshr p gd ga gb => Sys2Proof.Machine.execGshr p gd ga gb s
  | .gsra p gd ga gb => Sys2Proof.Machine.execGsra p gd ga gb s
  | .gshi p gd ga k amt => Sys2Proof.Machine.execGshi p gd ga k amt s
  | .gmin p gd ga gb => Sys2Proof.Machine.execGmin p gd ga gb s
  | .gmax p gd ga gb => Sys2Proof.Machine.execGmax p gd ga gb s
  | .gslt p gd ga gb => Sys2Proof.Machine.execGslt p gd ga gb s
  | .gsltn p gd ga gb => Sys2Proof.Machine.execGsltn p gd ga gb s
  | .gli p gd imm x => Sys2Proof.Machine.execGli p gd imm x s
  | .gfrq p gd n => Sys2Proof.Machine.execGfrq p gd n s
  | .gext p gd ga gb imm => Sys2Proof.Machine.execGext p gd ga gb imm s
  | .gins p gd ga gb imm => Sys2Proof.Machine.execGins p gd ga gb imm s
  | .gcid p gd => Sys2Proof.Machine.execGcid p gd s
  | .gsel p gd ga gb => Sys2Proof.Machine.execGsel p gd ga gb s
  | .gclz p gd ga => Sys2Proof.Machine.execGclz p gd ga s
  | .vadd o => Sys2Proof.Machine.execVadd o s
  | .vsub o => Sys2Proof.Machine.execVsub o s
  | .vadds o => Sys2Proof.Machine.execVadds o s
  | .vaddn o => Sys2Proof.Machine.execVaddn o s
  | .vsubs o => Sys2Proof.Machine.execVsubs o s
  | .vsubn o => Sys2Proof.Machine.execVsubn o s
  | .vmul o => Sys2Proof.Machine.execVmul o s
  | .vmulh o => Sys2Proof.Machine.execVmulh o s
  | .vmulhn o => Sys2Proof.Machine.execVmulhn o s
  | .vmac o => Sys2Proof.Machine.execVmac o s
  | .vmacw o => Sys2Proof.Machine.execVmacw o s
  | .vmin o => Sys2Proof.Machine.execVmin o s
  | .vmax o => Sys2Proof.Machine.execVmax o s
  | .vminn o => Sys2Proof.Machine.execVminn o s
  | .vmaxn o => Sys2Proof.Machine.execVmaxn o s
  | .vabs o => Sys2Proof.Machine.execVabs o s
  | .vneg o => Sys2Proof.Machine.execVneg o s
  | .vand o => Sys2Proof.Machine.execVand o s
  | .vor o => Sys2Proof.Machine.execVor o s
  | .vxor o => Sys2Proof.Machine.execVxor o s
  | .vandn o => Sys2Proof.Machine.execVandn o s
  | .vshl o => Sys2Proof.Machine.execVshl o s
  | .vshr o => Sys2Proof.Machine.execVshr o s
  | .vsra o => Sys2Proof.Machine.execVsra o s
  | .vsrar o => Sys2Proof.Machine.execVsrar o s
  | .vnarrow o => Sys2Proof.Machine.execVnarrow o s
  | .vwiden o => Sys2Proof.Machine.execVwiden o s
  | .vcmpeq o => Sys2Proof.Machine.execVcmpeq o s
  | .vcmplt o => Sys2Proof.Machine.execVcmplt o s
  | .vcmpltn o => Sys2Proof.Machine.execVcmpltn o s
  | .vcmple o => Sys2Proof.Machine.execVcmple o s
  | .vsel o => Sys2Proof.Machine.execVsel o s
  | .vclz o => Sys2Proof.Machine.execVclz o s
  | .vpopc o => Sys2Proof.Machine.execVpopc o s
  | .fadd o => Sys2Proof.Machine.execFadd o s
  | .fsub o => Sys2Proof.Machine.execFsub o s
  | .fmul o => Sys2Proof.Machine.execFmul o s
  | .fma o => Sys2Proof.Machine.execFma o s
  | .fms o => Sys2Proof.Machine.execFms o s
  | .fnma o => Sys2Proof.Machine.execFnma o s
  | .fmin o => Sys2Proof.Machine.execFmin o s
  | .fmax o => Sys2Proof.Machine.execFmax o s
  | .fabs o => Sys2Proof.Machine.execFabs o s
  | .fneg o => Sys2Proof.Machine.execFneg o s
  | .fcmpeq o => Sys2Proof.Machine.execFcmpeq o s
  | .fcmplt o => Sys2Proof.Machine.execFcmplt o s
  | .fcmple o => Sys2Proof.Machine.execFcmple o s
  | .fcmpun o => Sys2Proof.Machine.execFcmpun o s
  | .fclass o => Sys2Proof.Machine.execFclass o s
  | .fscale o => Sys2Proof.Machine.execFscale o s
  | .vcvt o => Sys2Proof.Machine.execVcvt o s
  | .vqnt o => Sys2Proof.Machine.execVqnt o s
  | .vdq o => Sys2Proof.Machine.execVdq o s
  | .frcp o => Sys2Proof.Machine.execFrcp o s
  | .frsq o => Sys2Proof.Machine.execFrsq o s
  | .fexp2 o => Sys2Proof.Machine.execFexp2 o s
  | .flog2 o => Sys2Proof.Machine.execFlog2 o s
  | .fsin o => Sys2Proof.Machine.execFsin o s
  | .fcos o => Sys2Proof.Machine.execFcos o s
  | .ftanh o => Sys2Proof.Machine.execFtanh o s
  | .vrsum o => Sys2Proof.Machine.execVrsum o s
  | .vrmax o => Sys2Proof.Machine.execVrmax o s
  | .vrmin o => Sys2Proof.Machine.execVrmin o s
  | .vamax o => Sys2Proof.Machine.execVamax o s
  | .vtopk o => Sys2Proof.Machine.execVtopk o s
  | .vscan o => Sys2Proof.Machine.execVscan o s
  | .vcompress o => Sys2Proof.Machine.execVcompress o s
  | .vexpand o => Sys2Proof.Machine.execVexpand o s
  | .vidx o => Sys2Proof.Machine.execVidx o s
  | .vmov o => Sys2Proof.Machine.execVmov o s
  | .vzero o => Sys2Proof.Machine.execVzero o s
  | .xadd p id ia ib => Sys2Proof.Machine.execXadd p id ia ib s
  | .xaddi p id ia imm x => Sys2Proof.Machine.execXaddi p id ia imm x s
  | .xsub p id ia ib => Sys2Proof.Machine.execXsub p id ia ib s
  | .xshl p id ia ib => Sys2Proof.Machine.execXshl p id ia ib s
  | .xand p id ia ib => Sys2Proof.Machine.execXand p id ia ib s
  | .xpopc p id ia => Sys2Proof.Machine.execXpopc p id ia s
  | .xpopb p id ia ib => Sys2Proof.Machine.execXpopb p id ia ib s
  | .xcadv p id ia ib => Sys2Proof.Machine.execXcadv p id ia ib s
  | .xdiagStep p id ia ib => Sys2Proof.Machine.execXdiagStep p id ia ib s
  | .xdiagMid p id ia => Sys2Proof.Machine.execXdiagMid p id ia s
  | .xaq p sd ia imm => Sys2Proof.Machine.execXaq p sd ia imm s
  | .xaqs p sd ia imm => Sys2Proof.Machine.execXaqs p sd ia imm s
  | .xmin p id ia ib => Sys2Proof.Machine.execXmin p id ia ib s
  | .xsel p id ia ib => Sys2Proof.Machine.execXsel p id ia ib s
  | .xli p id imm x => Sys2Proof.Machine.execXli p id imm x s
  | .xfrg p id g => Sys2Proof.Machine.execXfrg p id g s
  | .xtog p g ia => Sys2Proof.Machine.execXtog p g ia s
  | .xrank p id ia ib => Sys2Proof.Machine.execXrank p id ia ib s
  | .xmax p id ia ib => Sys2Proof.Machine.execXmax p id ia ib s
  | .mcall p routine tile a b flags => Sys2Proof.Machine.execMcall p routine tile a b flags s
  | .mzero p tile => Sys2Proof.Machine.execMzero p tile s
  | .mmode p tile v => Sys2Proof.Machine.execMmode p tile v s
  | .mfence p => Sys2Proof.Machine.execMfence p s
  | .mwm p tile v => Sys2Proof.Machine.execMwm p tile v s
  | .wperm p vd vs ia => Sys2Proof.Machine.execWperm p vd vs ia s
  | .wbcast p vd vs n => Sys2Proof.Machine.execWbcast p vd vs n s
  | .wrot p vd vs n => Sys2Proof.Machine.execWrot p vd vs n s
  | .wbfly p vd vs n => Sys2Proof.Machine.execWbfly p vd vs n s
  | .wrsum p vd vs n => Sys2Proof.Machine.execWrsum p vd vs n s
  | .wrmax p vd vs n => Sys2Proof.Machine.execWrmax p vd vs n s
  | .wsegsum p vd vs t ia => Sys2Proof.Machine.execWsegsum p vd vs t ia s
  | .wscan p vd vs n => Sys2Proof.Machine.execWscan p vd vs n s
  | .spop p sd v len => Sys2Proof.Machine.execSpop p sd v len s
  | .spush p sd v len => Sys2Proof.Machine.execSpush p sd v len s
  | .sadv p sd imm x => Sys2Proof.Machine.execSadv p sd imm x s
  | .speek p sd v len => Sys2Proof.Machine.execSpeek p sd v len s
  | .sldl p sd v ia w => Sys2Proof.Machine.execSldl p sd v ia w s
  | .sstu p sd v ia w => Sys2Proof.Machine.execSstu p sd v ia w s
  | .sld p sd v imm x => Sys2Proof.Machine.execSld p sd v imm x s
  | .sst p sd v imm x => Sys2Proof.Machine.execSst p sd v imm x s
  | .dqpop p v n w => Sys2Proof.Machine.execDqpop p v n w s
  | .dqn p v => Sys2Proof.Machine.execDqn p v s
  | .sflush p sd => Sys2Proof.Machine.execSflush p sd s
  | .kcopy p sd dir limit => Sys2Proof.Machine.execKcopy p sd dir limit s
  | .spos p sd v => Sys2Proof.Machine.execSpos p sd v s
  | .seos p sd => Sys2Proof.Machine.execSeos p sd s

end Sys2Proof.Machine
end

