-- ==== Sys2Proof/Machine/Turns.lean ====
section
/-! DEFINITION. The turns of a cycle: which agents move, in which order, and what each one's next step is. The stream
controller fetches at its pc, decodes and executes. -/

namespace Sys2Proof.Machine

/-- What the controller of SP `k` with context `c` executes: an instruction, or the exception of its fetch (19 R402). A
fetch in U mode that reaches 0x3_8000 faults; so does an undefined encoding, with the instruction word in mtval. -/
def controllerStep (k : Nat) (c : Ctx) (s : State) : Host.Outcome State Fault Refusal :=
  let w := s.fetchWord k c.pc.toNat
  if !c.mmode && decide (0x38000 < c.pc.toNat + ctlLength w) then .next (s.takeException k 1 c.pc)
  else
    match decodeCtl w with
    | some i => exec i s
    | none => .next (s.takeException k 2 (BitVec.ofNat 64 (if ctlLength w = 4 then w else w % 2 ^ 16)))

/-- A polder declared by the object has not been filled: the entry point has not run (03 R80). -/
def Ctx.filling (c : Ctx) : Bool := c.polders.any fun e => !e.2.pending && decide (e.2.fill ≠ 0)

/-- The turn of the controller of SP `k`: nothing while it is stopped or a blocking instruction holds it, the end of a wait,
the delivery of a kernel event, or the next instruction. -/
def controllerTurn (k : Nat) (s : State) : Host.Outcome State Fault Refusal :=
  match s.ctx k with
  | none => .next s
  | some c =>
    if c.halted || c.preempt.isSome || (s.sp k).dbgStopped || c.filling then .next s
    else if c.busy ≠ 0 then .next (s.setCtx k { c with busy := c.busy - 1, squash := if c.busy = 1 then none else c.squash })
    else if c.pend && c.ie && decide (c.ktvec ≠ 0) && !c.mmode then exec (.keventDelivery k) s
    else if c.wait.isSome then exec (.controllerWaitEnd k) s
    else controllerStep k c { s with cur := k }

/-! ## The matrix unit and the sequencer -/

/-- The turn of the matrix unit of SP `k`: the next micro-op, unless the last one still takes cycles or the unit has been stopped for a
pre-emption (11 R298 to R302, R304). -/
def matrixTurn (k : Nat) (s : State) : Host.Outcome State Fault Refusal :=
  match s.ctx k with
  | none => .next s
  | some c =>
    match c.matrix.run with
    | none => .next s
    | some r =>
      if r.wait ≠ 0 then .next (s.setCtx k { c with matrix := { c.matrix with run := some { r with wait := r.wait - 1 } } })
      else if c.matrix.drain = some 1 then .next s
      else
        match (r.words[r.pc]?).bind fun w => decodeMicro w.toNat with
        | none => .next (s.routineError k)
        | some i => exec i { s with cur := k }

/-- The end of the leader's last bundle, if it ends on this cycle: a lock round, a transfer, a back-edge, or the next bundle. -/
def bundleEndTurn (k : Nat) (s : State) : Host.Outcome State Fault Refusal :=
  match s.ctx k with
  | none => .next s
  | some c =>
    match (s.issueAs k).bundleEnd c.kern with
    | .none => .next s
    | .round => exec (.lockRound k) s
    | .transfer _ => exec (.branchTransfer k) s
    | .edge => exec (.loopBackEdge k) s
    | _ => .next (s.settle k)

/-- The turn of the sequencer of SP `k`: counters, the next bundle if it may issue, and the decision at the end of a bundle. -/
def sequencerTurn (k : Nat) (s : State) : Host.Outcome State Fault Refusal :=
  let q := s.seqTick k
  if q.1 then
    match exec (.bundleIssue k) q.2 with
    | .next t => bundleEndTurn k t
    | o => o
  else bundleEndTurn k q.2

/-! ## Counters -/

/-- The watchdog counts this cycle: a kernel-class command has issued and not completed, and the context is not out, from its halt to the
cycle before its next bundle (06 R148, 19 R404, R421). -/
def Ctx.watched (c : Ctx) : Bool :=
  c.kernelEntry.isSome && !c.halted && (match c.kern.phase with
    | .halted => false
    | .resuming _ => false
    | _ => true)

/-- The polders of a running context after one cycle of filling: one that waits for a claim waits (03 R82; 07 R156). -/
def Sp.fillTick (p : Sp) (c : Ctx) : Sp :=
  let waits := fun (q : Polder) => p.victimRanges.any fun r => overlap q.base (shareOf q.log2) r.1 r.2
  let done := c.polders.filter fun e => decide (e.2.fill = 1) && !waits e.2
  { p with
    srf := done.foldl (fun m e => clearPolder m e.2) p.srf,
    ctx := some { c with polders := c.polders.map fun e => (e.1, if e.2.fill = 0 ∨ waits e.2 then e.2 else { e.2 with fill := e.2.fill - 1 }) } }

/-- One cycle of the counters of an SP: watchdog, time since a pre-emption request, polders, saves and restores, the places that the scoreboard
has freed, and the flags of the cycle. -/
def Sp.tick (p0 : Sp) : Sp :=
  let p : Sp := { p0 with victims := p0.victims.map fun (v : Victim) => if v.place = 0 ∨ v.place = 3 then { v with left := v.left - 1 } else v }
  match p.ctx with
  | none => p
  | some c =>
    p.fillTick { c.joinKstat with
      wdog := if c.watched then c.wdog + 1 else c.wdog, preempt := c.preempt.map (· + 1),
      recent := ((c.used - c.entries.length) :: c.recent).take 3, used := c.entries.length }

/-! ## The steps of a cycle -/

/-- The steps that `b` asks for. -/
def when (b : Bool) (l : List Instr) : List Turn := if b then l.map .run else []

/-- Before anything else on a cycle: a snapshot is latched, a request that the context itself has made arrives (19 R405), the arbiter decides, commands issue and begin. -/
def Sp.issueTurns (k : Nat) (p : Sp) : List Turn :=
  match p.ctx with
  | none => []
  | some c =>
    when (c.mpreq && c.preempt.isNone) [.preemptRequest k] ++ when c.pipe.isSome [.arbiterDecision k]
      ++ when (!c.sb.isEmpty) [.scoreboardIssue k]

/-- Kernel-class commands that have issued begin, once every member's has (03 R75, 06 R142). -/
def Sp.beginTurns (k : Nat) (p : Sp) : List Turn := when (p.ctx.any fun c => !c.sb.isEmpty) [.towerRendezvous k]

/-- What an access needs on a cycle: to be applied, to be committed, or to be answered. -/
def Acc.turns (a : Acc) : List Turn :=
  match a.state with
  | 2 => [.run (.sliceApply a.id)]
  | 3 =>
    match a.src with
    | .copy _ _ _ _ _ => [.run (.copyBeatCommit a.id)]
    | .gather _ _ _ => [.run (.dqLand a.id)]
    | .remote k => [.run (.homeBeatApply k)]
    | _ => []
  | _ => []

/-- The memory side of a cycle. -/
def State.memoryTurns (s : State) : List Turn :=
  (s.sps.flatMap fun e => when ((s.rangeMiss e.1).isSome) [.rangeMissServe e.1])
    ++ (List.range 4).flatMap (fun d => when (!(s.mmu d).misses.isEmpty || s.accs.any fun a => decide (a.state = 0)) [.walkStart d]
        ++ when true ((s.mmu d).walks.map fun w => .walkEnd d w.id))
    ++ s.accs.flatMap Acc.turns ++ s.xfrs.map fun x => .run (.hostTransferComplete x.id)

/-- Releases of dikes and tower lines. -/
def State.releaseTurns (s : State) : List Turn :=
  (s.parts.flatMap fun e => (e.2.groups.filter fun g => g.2.full).map fun g => .run (.dikeRelease e.1 g.1))
    ++ s.sps.flatMap fun e => when (!e.2.line.isEmpty) [.towerLineRelease e.1]

/-- Results land, and then the matrix unit moves: what it retires is seen by the bundle of the same cycle (11 R288). -/
def Sp.landTurns (k : Nat) (p : Sp) : List Turn :=
  match p.ctx with
  | none => []
  | some c =>
    when (!c.matrix.upd.isEmpty || !c.matrix.retiring.isEmpty || c.matrix.run.isSome) [.accUpdateLanding k] ++ when (!c.kern.land.isEmpty) [.resultLanding k]
      ++ when (!c.matrix.queue.isEmpty) [.callQueueStart k] ++ (if c.matrix.run.isSome || !c.matrix.queue.isEmpty then [.matrix k] else [])
      ++ when (c.matrix.run.isSome || !c.matrix.retiring.isEmpty) [.routineRetire k]

/-- The kernel's turn. -/
def Sp.kernelTurns (k : Nat) (p : Sp) : List Turn :=
  match p.ctx with
  | none => []
  | some c => (if c.kern.phase = .idle then [] else [.sequencer k]) ++ when (decide (c.kern.phase ≠ .idle) || c.pipe.isSome) [.kernelCommandComplete k]

/-- Clusters whose address queue has something to send. -/
def Ctx.aqClusters (c : Ctx) : List Nat := (List.range 16).filter fun cl => !(c.aqOf cl).isEmpty || (c.dqOf cl).any fun r => decide (r.state = 2)

/-- The issued copies of an SP's contexts, in order. -/
def Sp.copySeqs (p : Sp) : List Nat :=
  (p.ctx.toList ++ p.left.toList ++ p.victims.map (·.ctx)).flatMap fun c => (c.sb.filter Entry.copyRuns).map (·.seq)

/-- The engines of an SP. -/
def Sp.engineTurns (k : Nat) (p : Sp) : List Turn :=
  (match p.ctx with
  | none => []
  | some c =>
    when true (c.aqClusters.map (.aqSend k ·)) ++ when (!c.kern.kcq.isEmpty) [.kcopyQueueIssue k] ++ when c.sweep.isSome [.sweepIteration k]
      ++ when (c.sb.any fun e => decide (e.cls = clsMicro)) [.mloadComplete k]
      ++ when (decide (c.spire.phase ≠ 0))
          [.spirePreemptStop k, .spireRecordIntake k, .spireRunWritten k, .spireMergePass k, .spireEmit k, .spireComplete k])
    ++ when true (p.copySeqs.map (.copyBeatSend k ·)) ++ (if p.hints.isEmpty then [] else [.hint k])

/-- The controller, the queues that it has marked, and the counters. -/
def Sp.controlTurns (k : Nat) (p : Sp) : List Turn :=
  match p.ctx with
  | none => [.tick k]
  | some c => [.controller k] ++ when true ((c.polders.filter fun e => e.2.eosReq.isSome).map fun e => .eosClose k e.1) ++ [.tick k]

/-- Claims that the polders of a running context wait for. -/
def Sp.claimTurns (k : Nat) (p : Sp) : List Turn :=
  let want := ((p.ctx.map fun c => c.polders.filter fun e => decide (e.2.fill ≠ 0)).getD []).map fun e => (e.2.base, shareOf e.2.log2)
  if want.isEmpty then [] else
  (List.range p.victims.length).flatMap fun i => match p.victims[i]? with
    | none => []
    | some v => (v.ctx.polders.filter fun e => (KMap.find e.1 v.claimed).isNone && want.any fun r => overlap r.1 r.2 e.2.base (shareOf e.2.log2)).map fun e =>
        .run (.polderClaim k i e.1)

/-- Pre-emption, timeouts and the watchdog of an SP. -/
def State.serviceTurns (s : State) (k : Nat) (p : Sp) : List Turn :=
  (match p.ctx with
  | none => []
  | some c =>
    when (c.pipe.isSome && decide (c.kern.phase = .idle)) [.kernelCommandComplete k]
      ++ when (decide (c.wdog ≠ 0)) [.watchdogExpiry k] ++ when (c.preempt.isSome && decide (c.kern.phase ≠ .idle)) [.kernelHalt k]
      ++ when c.preempt.isSome [.aqReclaim k, .matrixDrainLimit k, .contextSave k] ++ when (c.wait.any fun w => w.limit.isSome) [.tacqTimeout k]
      ++ when (c.tokens.any fun e => decide (16 ≤ e.2)) [.tokenRetry k])
    ++ when (decide (2 ≤ p.slotsUsed) || p.victims.any Victim.stale) [.shadowWriteOut k] ++ when (p.victims.any fun v => decide (v.place = 0)) [.contextSaveComplete k] ++ p.claimTurns k
    ++ when true (match p.victims.findIdx? fun v => decide (v.place = 3) with
        | some i => [.contextRestore k i]
        | none => match s.nextVictim k with
          | some i => [.contextRestore k i]
          | none => [])

/-- The migration of a partition. -/
def State.migrationTurns (s : State) (n : Nat) (p : Part) : List Turn :=
  match p.migr.role with
  | 1 => when (decide (p.migr.phase = 2)) [.migrationFrozen n] ++ when (decide (3 ≤ p.migr.phase)) ((p.migr.pulls.head?.map fun q => Instr.pageShip n (q / 2)).toList)
      ++ when (decide (p.migr.phase = 5)) [.graceExpiry n]
  | 2 => when (decide (p.migr.phase = 2)) ((if s.records.any fun r => decide (r.1 = n) then [.stateRecord n] else []) ++ [.stateRecordTimeout n])
      ++ when (decide (p.migr.phase = 3)) [.migrationResumed n]
  | _ => []

/-- Timers of the host port, the engines and the scale-out ports, and the end of an attestation report. -/
def State.timerTurns (s : State) : List Turn :=
  (s.vfs.flatMap fun e => e.2.unacked.map fun u => .run (.vctRetransmitTimer e.1 u.msg.seq))
    ++ (s.engines.flatMap fun e => e.2.beats.map fun b => .run (if b.hold then .holdResend e.1 b.pkt.seq else .beatResendTimeout e.1 b.pkt.seq))
    ++ (s.ports.flatMap fun e =>
        (e.2.paths.flatMap fun q => when (decide (q.2.rxcount ≠ 0)) [.selectiveAckSend ⟨e.1, q.1⟩] ++ q.2.unacked.map fun f => .run (.frameResendTimeout ⟨e.1, q.1⟩ f.seq))
          ++ if e.2.queue.isEmpty && e.2.frameQ.isEmpty && decide (e.2.onLine = 0) && e.2.asked.isNone then [] else [.line e.1])
    ++ when s.dev.attBusy [.attestationDone]

/-- The turns of a stage of the cycle (log 10). -/
def State.stageTurns (s : State) : Nat → List Turn
  | 0 => when (s.dev.snapT.any fun t => decide (t ≤ s.now)) [.snapshotLatch] ++ s.sps.flatMap (fun e => e.2.issueTurns e.1)
      ++ s.sps.flatMap fun e => e.2.beginTurns e.1
  | 1 => s.memoryTurns
  | 2 => s.releaseTurns ++ s.sps.flatMap fun e => e.2.landTurns e.1
  | 3 => s.sps.flatMap fun e => e.2.kernelTurns e.1
  | 4 => s.sps.flatMap fun e => e.2.engineTurns e.1
  | 5 => s.sps.flatMap fun e => e.2.controlTurns e.1
  | 6 => s.sps.flatMap fun e => s.serviceTurns e.1 e.2
  | 7 =>
    s.parts.flatMap (fun e => when (e.2.groups.any fun g => !g.2.pool.isEmpty) [.taskTake e.1] ++ s.migrationTurns e.1 e.2)
      ++ (s.launches.filter fun l => decide (l.state = 2)).map fun l => .run (.launchRelease l.id)
  | _ => s.timerTurns ++ (if s.later.isEmpty then [] else [Turn.later]) ++ s.hostIn.map fun _ => .hostPort

/-- The host port looks at the frame that came first, and executes the message that it holds (02 R41 to R46). -/
def hostPortTurn (s : State) : Host.Outcome State Fault Refusal :=
  match s.hostIn with
  | [] => .next s
  | f :: l =>
    match f.message with
    | none => .next { s with hostIn := l }
    | some i => exec i { s with hostIn := l }

/-- One turn. -/
def runTurn (t : Turn) (s : State) : Host.Outcome State Fault Refusal :=
  match t with
  | .run i => exec i s
  | .controller k => controllerTurn k s
  | .matrix k => matrixTurn k s
  | .sequencer k => sequencerTurn k s
  | .tick k => .next (s.modSp k Sp.tick)
  | .hostPort => hostPortTurn s
  | .hint k => .next (s.hintBeat k)
  | .line n => .next (s.lineTurn n)
  | .later => .next { s with later := [], inbox := s.inbox ++ s.later }
  | .stage n => .next { s with turns := s.stageTurns n ++ s.turns }

/-- The next arithmetic cycle begins: the clock moves on, and the stages of the cycle follow. -/
def State.nextCycle (s : State) : State := { s with now := s.now + 1, turns := (List.range 9).map .stage }

end Sys2Proof.Machine
end

