-- ==== Sys2Proof/Machine/Step.lean ====
section
/-! DEFINITION. One step of the machine. -/

namespace Sys2Proof.Machine

/-- One step: an event from outside, else the next turn of this cycle, else the start of the next arithmetic cycle. -/
def step (s : State) : Host.Outcome State Fault Refusal :=
  match s.inbox with
  | i :: l => exec i { s with inbox := l }
  | [] =>
    match s.turns with
    | t :: l => runTurn t { s with turns := l }
    | [] => .next s.nextCycle

/-- `s` in which the controller of SP 0 executes the given instruction word next: a context with its pc at 0 whose
control memory starts with the bytes of the word, and the turn of its controller (a program comes to run in the part by
LOAD and LAUNCH; this stands for them). -/
def State.withFetchWord (s : State) (_nbits w : Nat) : State :=
  let c := match s.ctx 0 with
    | some c => c
    | none => Ctx.init
  let s1 := s.modSp 0 fun p =>
    { p with
      ctx := some { c with pc := 0, mmode := false, halted := false, busy := 0, squash := none, wait := none, pend := false, preempt := none },
      cm := cmWrite p.cm 0 4 (w % 2 ^ 32), dbgStopped := false }
  { s1 with inbox := [], turns := [.controller 0] }

end Sys2Proof.Machine
end

