-- ==== Sys2Proof/Safety.lean ====
section
/-! DEFINITION. What a claim calls a safe run, and the words in which claims say what an instruction does: what it changes
in each SP of the issuing bundle, in one SP, or in one context, everything else standing as it was. -/

namespace Sys2Proof.Machine

/-- The outcome is a next state. -/
def Answers (o : Host.Outcome State Fault Refusal) : Prop := ∃ t, o = .next t

/-- The next `n` steps from `s` all answer a next state. -/
def SafeFor : Nat → State → Prop
  | 0, _ => True
  | n + 1, s => ∃ t, step s = .next t ∧ SafeFor n t

/-! ## Slots of a bundle -/

/-- `t` is `s` but for the contexts of the SPs of the issuing bundle, and that of SP `k` has been changed by `f k`. -/
def EachIssuing (s : State) (f : Nat → Ctx → Ctx) (t : State) : Prop :=
  t = { s with sps := t.sps } ∧ ∀ k, t.sp k = if k ∈ s.issue then { s.sp k with ctx := (s.ctx k).map (f k) } else s.sp k

/-- From every state in which the bundle issues once at each of its SPs, `i` completes, and changes the context of each of them by
`f`, and nothing else of the machine. -/
def SlotRule (i : Instr) (f : State → Nat → Ctx → Ctx) : Prop :=
  ∀ s : State, s.issue.Nodup → ∃ t, exec i s = .next t ∧ EachIssuing s (f s) t

/-- `f` where the predicate field `p` is true, in the first round of a lock section only (08 R195, 10 R270). -/
def whenTrue (p : Nat) (f : State → Nat → Ctx → Ctx) : State → Nat → Ctx → Ctx :=
  fun s k c => if c.kern.predOn p && c.kern.firstRound then f s k c else c

/-- `f` where the predicate is true in the member whose sequencer fetches the bundle. -/
def whenLeads (p : Nat) (f : State → Ctx → Nat → Ctx → Ctx) : State → Nat → Ctx → Ctx :=
  fun s k c => match s.leader with
    | none => c
    | some (_, l) => if l.kern.predOn p && l.kern.firstRound then f s l k c else c

/-- Register q`qd` receives `v`, `lat` cycles after issue. -/
def QResult (i : Instr) (p lat qd : Nat) (v : State → Nat → Ctx → Dword) : Prop :=
  SlotRule i (whenTrue p fun s k c => c.later lat (.word .q 0 qd (v s k c)))

/-- Bit c`cd` receives `v`, `lat` cycles after issue. -/
def CResult (i : Instr) (p : Nat) (lat : State → Nat) (cd : Nat) (v : State → Ctx → Bool) : Prop :=
  SlotRule i (whenTrue p fun s _ c => c.later (lat s) (.word .c 0 cd (if v s c then 1 else 0)))

/-- Compact predicate p`pd` receives width code `w` and count `n`, one cycle after issue (a predicate lands as width × 1024 + count). -/
def PResult (i : Instr) (p pd w : Nat) (n : Ctx → Nat) : Prop :=
  SlotRule i (whenTrue p fun _ _ c => c.later 1 (.word .p 0 pd (BitVec.ofNat 64 (w * 1024 + n c))))

/-- One result for every cluster that acts: all sixteen outside a lock section, those that hold their lock inside one. -/
def ClusterResults (i : Instr) (p lat : Nat) (r : State → Nat → Ctx → Nat → Landed) : Prop :=
  SlotRule i fun s k c => if c.kern.predOn p then c.laters lat ((c.kern.acting false).map (r s k c)) else c

/-- Register g`gd` of every acting cluster receives `v`, `lat` cycles after issue. -/
def GResult (i : Instr) (p lat gd : Nat) (v : State → Nat → Ctx → Nat → Dword) : Prop :=
  ClusterResults i p lat fun s k c cl => .word .g cl gd (v s k c cl)

/-- Register i`id` of every acting cluster receives `v` modulo 2^32, `lat` cycles after issue. -/
def IResult (i : Instr) (p lat id : Nat) (v : Ctx → Nat → Int) : Prop :=
  ClusterResults i p lat fun _ _ c cl => .word .i cl id (BitVec.ofInt 64 (v c cl % 2 ^ 32))

/-! ## Vector slots -/

/-- A V slot runs in every SP of the bundle by `vOne`, with the form and the element function given. -/
def VRule (i : VSlot → Instr) (fm : VSlot → VForm) (fn : VSlot → VEnv → VIn → VOut) : Prop :=
  ∀ o, SlotRule (i o) fun s k c => vOne (fm o) o (fn o) (s.sp k).srf c

/-- An integer instruction of one operand, two cycles: an element of `w` bits becomes `r` of it. No flag of its own. -/
def VInt1 (i : VSlot → Instr) (op : Nat) (r : (w : Nat) → BitVec w → BitVec w) : Prop :=
  ∃ f : Nat → Nat → Nat, (∀ w a, 0 < w → a < 2 ^ w → f w a = (r w (BitVec.ofNat w a)).toNat) ∧
    VRule i (VForm.plain op 2) fun _ => vMap1 fun e a => (f (8 * typeBytes e.t) a, 0)

/-- An integer instruction of two operands, two cycles: elements of `w` bits become `r` of them. No flag of its own. -/
def VInt2 (i : VSlot → Instr) (op : Nat) (r : (w : Nat) → BitVec w → BitVec w → BitVec w) : Prop :=
  ∃ f : Nat → Nat → Nat → Nat, (∀ w a b, 0 < w → a < 2 ^ w → b < 2 ^ w → f w a b = (r w (BitVec.ofNat w a) (BitVec.ofNat w b)).toNat) ∧
    VRule i (VForm.plain op 2) fun _ => vMap2 fun e a b => (f (8 * typeBytes e.t) a b, 0)

/-- The integer nearest to `v` that a signed word of `w` bits holds. -/
def clampSigned (w : Nat) (v : Int) : Int := max (-2 ^ (w - 1)) (min (2 ^ (w - 1) - 1) v)

/-- All ones where the comparison holds, else zero. -/
def ones (w : Nat) (b : Bool) : BitVec w := if b then BitVec.allOnes w else 0#w

/-- A floating-point instruction of one operand: its format, rounding mode and result flush are the slot's. -/
def VFp1 (i : VSlot → Instr) (fm : VSlot → VForm) (g : Fmt → Nat → Bool → Nat → Elem) : Prop :=
  VRule i fm fun _ => vMap1 fun e a => g (typeFmt e.t) e.mode e.flush a

/-- One of two operands. -/
def VFp2 (i : VSlot → Instr) (fm : VSlot → VForm) (g : Fmt → Nat → Bool → Nat → Nat → Elem) : Prop :=
  VRule i fm fun _ => vMap2 fun e a b => g (typeFmt e.t) e.mode e.flush a b

/-- One of three operands. -/
def VFp3 (i : VSlot → Instr) (fm : VSlot → VForm) (g : Fmt → Nat → Bool → Nat → Nat → Nat → Elem) : Prop :=
  VRule i fm fun _ => vMap3 fun e a b c => g (typeFmt e.t) e.mode e.flush a b c

/-! ## Switch -/

/-- Whole rows land in register vd of the sixteen clusters of each SP, `lat` cycles after issue: cluster `t` of the span (16 × the SP's place in
the bundle + its own number) receives `row t`, and raises the flags beside it. -/
def SwitchRule (i : Instr) (p vd : Nat) (lat : State → Nat) (row : State → Ctx → Nat → Nat × Nat) : Prop :=
  SlotRule i (whenTrue p fun s k c =>
    (c.later (lat s) (.rows ((List.range 16).map fun cl =>
      ⟨cl, c.kern.phys vd, BitVec.ofNat 1024 (row s c (16 * s.issue.idxOf k + cl)).1, rowOnes⟩))).raiseIn (lat s)
        (flagsOf ((List.range 16).map fun cl => (row s c (16 * s.issue.idxOf k + cl)).2)))

/-- By the number of SPs of the bundle: one, a pair, a quad. -/
def bySpan (one two four : Nat) (s : State) : Nat := if s.issue.length = 4 then four else if s.issue.length = 2 then two else one

/-! ## One SP -/

/-- `t` is `s` with `p` in the place of SP `k`; everything else stands as it was. -/
def WithSp (s : State) (k : Nat) (p : Sp) (t : State) : Prop := t = { s with sps := t.sps } ∧ ∀ j, t.sp j = if j = k then p else s.sp j

/-- The instruction or step completes: SP `k` becomes `p`, and nothing else of the machine changes. -/
def SpStep (i : Instr) (s : State) (k : Nat) (p : Sp) : Prop := ∃ t, exec i s = .next t ∧ WithSp s k p t

/-- It completes: the context of SP `k` becomes `d`, and nothing else of the machine changes. -/
def CtxStep (i : Instr) (s : State) (k : Nat) (d : Ctx) : Prop := SpStep i s k { s.sp k with ctx := some d }

/-- An instruction of `n` bytes of the controller completes in every context: it does `f`, and the pc moves past it. -/
def CtlRule (i : Instr) (n : Nat) (f : Ctx → Ctx) : Prop :=
  ∀ (s : State) (c : Ctx), s.ctx s.cur = some c → CtxStep i s s.cur { f c with pc := (f c).pc + BitVec.ofNat 64 n }

/-- A controller instruction retires: of the context, `f` has been done, rd holds `v` (x0 discards it), the pc has moved past four bytes, and it
does not wait any more. -/
def Retires (i : Instr) (s : State) (c : Ctx) (rd : Nat) (v : Dword) (f : Ctx → Ctx) : Prop :=
  CtxStep i s s.cur { (f c).setX rd v with pc := c.pc + 4, wait := none }

/-- A controller instruction waits: nothing changes but that the context notes what it waits for. -/
def Waits (i : Instr) (s : State) (c : Ctx) : Prop := ∃ w, CtxStep i s s.cur { c with wait := some w }

/-- `n` is the code of the first condition of the list that holds, and 0 where none does (07 R153). -/
def FirstOf : List (Prop × Nat) → Nat → Prop
  | [], n => n = 0
  | q :: l, n => (q.1 ∧ n = q.2) ∨ (¬q.1 ∧ FirstOf l n)

/-- Descriptor `n` of a context. -/
def Ctx.descNo (c : Ctx) (n : Nat) : Desc := KMap.get Desc.init c.descs n

/-- The descriptor is refused by a command that touches memory (`mem`), or by a copy command (`copy`): the cases of 07 R161, in its order. -/
def Refused (c : Ctx) (mem copy : Bool) (d : Desc) : Prop :=
  d.polder.bind c.polder = none ∨ d.fmt = 15 ∨ (mem = true ∧ 13 ≤ d.mfmt) ∨ d.recn = 0 ∨ (d.fmt = 13 ∧ d.recn % 4 ≠ 0) ∨
  (∃ p, d.polder.bind c.polder = some p ∧ p.kind ≠ 0 ∧ d.tile = 0) ∨ 5 ≤ d.scale % 8 ∨ d.scale / 8 % 2 = 1 ∨
  (1 ≤ d.scale % 8 ∧ d.fmt ∈ [0, 11, 12, 13] ∧ (c.polder (d.scale / 16 % 64) = none ∨ (copy = true ∧ d.fmt ≠ d.mfmt)))

/-- The arrival reference breaks the layout of 07 R163 or names an unallocated handle; the order and scope of a SATOM are checked by R170. -/
def BadRef (c : Ctx) (satom : Bool) (r : Dword) : Prop :=
  r.getLsbD 63 = false ∧
    (r.toNat / 2 ^ 37 % 2 ^ 26 ≠ 0 ∨ (satom = false ∧ r.toNat / 2 ^ 32 % 2 ^ 5 ≠ 0) ∨ r.toNat / 2 ^ 28 % 2 ^ 4 ≠ 0 ∨ r.toNat % 16 ≠ 0 ∨
      c.polder (r.toNat / 2 ^ 22 % 64) = none)

/-- A command of class `cls` retires into the scoreboard: it always completes. It stalls, and nothing changes, while 64 places are in use or reserved, those
freed within the three cycles from issue to retirement among them. Where one of its checks applies, rd holds the code of the first, it takes no entry, and its place
is free from the next cycle on; where none does, one entry that waits for issue goes behind the others, with its operands as read, the SRF ranges it reads and writes,
and its descriptors as they stand, and rd holds 0. -/
def Enters (i : Instr) (rd cls : Nat) (a b : Ctx → Dword) (checks : State → Ctx → List (Prop × Nat)) (sets : Ctx → List SetR × List SetR) : Prop :=
  ∀ (s : State) (c : Ctx), s.ctx s.cur = some c →
    (64 ≤ c.used + c.recent.sum → exec i s = .next s) ∧
    (c.used + c.recent.sum < 64 → ∀ n, FirstOf (checks s c) n →
      (n ≠ 0 → Retires i s c rd (BitVec.ofNat 64 n) fun d => { d with used := d.used + 1 }) ∧
      (n = 0 →
        ∃ e, Retires i s c rd 0 (fun d => { d with sb := d.sb ++ [e], seq := d.seq + 1, used := d.used + 1 }) ∧ e.seq = c.seq ∧ e.instr = i ∧ e.rs1 = a c ∧
          e.rs2 = b c ∧ e.cls = cls ∧ e.state = .waiting ∧ e.reads = (sets c).1 ∧ e.writes = (sets c).2 ∧ e.freed = false ∧ e.status = 0))

/-- The controller of the current SP takes exception `cause` with `tval` in mtval (what that does: `ExceptionEntry`). -/
def Traps (i : Instr) (s : State) (cause : Nat) (tval : Dword) : Prop := exec i s = .next (s.takeException s.cur cause tval)

/-! ## Stream register file -/

/-- `share` lane bytes at `b`, a multiple of their number, lie inside the 384 KB of a lane and meet none of the ranges (base, length) of `busy` (03 R80). -/
def FreeBase (share b : Nat) (busy : List (Nat × Nat)) : Prop :=
  b % share = 0 ∧ b + share ≤ 0x60000 ∧ ∀ r ∈ busy, b + share ≤ r.1 ∨ r.1 + r.2 ≤ b

/-- `b` is the lowest base that is free. -/
def LowestFree (share b : Nat) (busy : List (Nat × Nat)) : Prop := FreeBase share b busy ∧ ∀ b', FreeBase share b' busy → b ≤ b'

/-! ## Host port -/

/-- The message of header `h` is the one that its VF expects, and it is executed now: the host port is up, the VF is VF 0 or bound to a partition that does not
migrate, and no message of the VF is being executed or held. -/
def HostTurn (s : State) (h : VctHdr) : Prop :=
  s.dev.hostUp = true ∧ (h.vf = 0 ∨ (s.vf h.vf).part.isSome = true) ∧ s.vfMigrating h.vf = false ∧ (s.vf h.vf).busy = none ∧ (s.vf h.vf).held = [] ∧ h.seq = (s.vf h.vf).expect

/-- In state `t`, which follows `s`, the message of header `h` has been answered: one answer goes to the host, under the message's sequence number and tag,
and the VF expects the next message. -/
def Answered (s : State) (h : VctHdr) (type_ status : Nat) (t : State) : Prop :=
  (t.vf h.vf).expect = ((s.vf h.vf).expect + 1) % 2 ^ 32 ∧
    ∃ m, t.out = s.out ++ [m] ∧ m.vf = h.vf ∧ m.type_ = type_ ∧ m.seq = h.seq ∧ m.status = status ∧ m.tag = h.tag

/-! ## Ports of the fabric -/

/-- The step completes: port `n` becomes `p`, and nothing else of the machine changes. -/
def PortStep (i : Instr) (s : State) (n : Nat) (p : Port) : Prop :=
  ∃ t, exec i s = .next t ∧ t = { s with ports := t.ports } ∧ ∀ j, t.port j = if j = n then p else s.port j

/-- The step completes, and the flits of one packet wait for the line of port `n`, which is in scale-up mode, at the gateway's input. -/
def Sends (i : Instr) (s : State) (n : Nat) (k : Packet) (t : State) : Prop :=
  exec i s = .next t ∧ (t.port n).queue = (s.port n).queue ++ (pktFlitList k).map fun f => ⟨8, s.now + fabricToArith 12, f⟩

/-! ## Micro-ops -/

/-- The micro-op completes: the context of the current SP becomes `c`, with the running routine as `r`; nothing else changes. -/
def MicroStep (i : Instr) (s : State) (c : Ctx) (r : Routine) : Prop :=
  exec i s = .next (s.setCtx s.cur { c with matrix := { c.matrix with run := some r } })

end Sys2Proof.Machine
end

