-- ==== Sys2Proof/WellFormed.lean ====
section
/-! DEFINITION. Well-formed instructions: every operand of an encoded instruction lies in its field and no value the
instruction's own rule calls illegal stands in it. A step of the part that has no encoding carries no such bound. -/

namespace Sys2Proof

/-- The fields of a V slot lie in their widths (04 R100), and type 7 and groups over 6 are excluded by `vLegal`. -/
def vslotFits (o : VSlot) : Bool :=
  decide (o.pred < 16 ∧ o.len < 8 ∧ o.vd < 256 ∧ o.a < 256 ∧ o.b < 256 ∧ o.c < 256 ∧ o.md < 4096 ∧ o.ms < 2 ∧ o.ty < 8 ∧ o.rnd < 4)

/-- The instruction is well formed. -/
def Instr.wf : Instr → Bool
  | .palloc rd rs1 rs2 => decide (rd < 32 ∧ rs1 < 32 ∧ rs2 < 32)
  | .pfree rd rs1 => decide (rd < 32 ∧ rs1 < 32)
  | .pinfo rd rs1 => decide (rd < 32 ∧ rs1 < 32)
  | .sdset rd rs1 field => decide (rd < 16 ∧ rs1 < 32 ∧ field < 128)
  | .sdget rd rs1 field => decide (rd < 32 ∧ rs1 < 16 ∧ field < 128)
  | .sdcopy rd rs1 => decide (rd < 16 ∧ rs1 < 16)
  | .sload rd sd rs1 rs2 => decide (rd < 32 ∧ sd < 16 ∧ rs1 < 32 ∧ rs2 < 32)
  | .sstore rd sd rs1 rs2 => decide (rd < 32 ∧ sd < 16 ∧ rs1 < 32 ∧ rs2 < 32)
  | .sgather rd sd rs1 rs2 => decide (rd < 32 ∧ sd < 16 ∧ rs1 < 32 ∧ rs2 < 32)
  | .sscatter rd sd rs1 rs2 => decide (rd < 32 ∧ sd < 16 ∧ rs1 < 32 ∧ rs2 < 32)
  | .sscadd rd sd rs1 rs2 => decide (rd < 32 ∧ sd < 16 ∧ rs1 < 32 ∧ rs2 < 32)
  | .scopy rd sd rs1 rs2 => decide (rd < 32 ∧ sd < 16 ∧ rs1 < 32 ∧ rs2 < 32)
  | .spref rs1 rs2 => decide (rs1 < 32 ∧ rs2 < 32)
  | .satomAdd rd sd rs1 rs2 => decide (rd < 32 ∧ sd < 16 ∧ rs1 < 32 ∧ rs2 < 32)
  | .satomSwap rd sd rs1 rs2 => decide (rd < 32 ∧ sd < 16 ∧ rs1 < 32 ∧ rs2 < 32)
  | .satomCas rd sd rs1 rs2 => decide (rd < 32 ∧ sd < 16 ∧ rs1 < 32 ∧ rs2 < 32)
  | .satomMin rd sd rs1 rs2 => decide (rd < 32 ∧ sd < 16 ∧ rs1 < 32 ∧ rs2 < 32)
  | .satomMax rd sd rs1 rs2 => decide (rd < 32 ∧ sd < 16 ∧ rs1 < 32 ∧ rs2 < 32)
  | .satomAnd rd sd rs1 rs2 => decide (rd < 32 ∧ sd < 16 ∧ rs1 < 32 ∧ rs2 < 32)
  | .satomOr rd sd rs1 rs2 => decide (rd < 32 ∧ sd < 16 ∧ rs1 < 32 ∧ rs2 < 32)
  | .krun rd rs1 rs2 => decide (rd < 32 ∧ rs1 < 32 ∧ rs2 < 32)
  | .kstage rd rs1 rs2 => decide (rd < 32 ∧ rs1 < 32 ∧ rs2 < 32)
  | .kpipe rd rs1 rs2 => decide (rd < 32 ∧ rs1 < 32 ∧ rs2 < 32)
  | .khalt rd => decide (rd < 32)
  | .svadd rd rs1 rs2 => decide (rd < 32 ∧ rs1 < 32 ∧ rs2 < 32)
  | .svmul rd rs1 rs2 => decide (rd < 32 ∧ rs1 < 32 ∧ rs2 < 32)
  | .svfma rd rs1 rs2 => decide (rd < 32 ∧ rs1 < 32 ∧ rs2 < 32)
  | .svcvt rd rs1 rs2 => decide (rd < 32 ∧ rs1 < 32 ∧ rs2 < 32)
  | .svscale rd rs1 rs2 => decide (rd < 32 ∧ rs1 < 32 ∧ rs2 < 32)
  | .svmax rd rs1 rs2 => decide (rd < 32 ∧ rs1 < 32 ∧ rs2 < 32)
  | .svmin rd rs1 rs2 => decide (rd < 32 ∧ rs1 < 32 ∧ rs2 < 32)
  | .svcopy rd rs1 rs2 => decide (rd < 32 ∧ rs1 < 32 ∧ rs2 < 32)
  | .svfill rd rs1 rs2 => decide (rd < 32 ∧ rs1 < 32 ∧ rs2 < 32)
  | .mload rd rs1 rs2 => decide (rd < 32 ∧ rs1 < 32 ∧ rs2 < 32)
  | .spmerge rd rs1 rs2 => decide (rd < 32 ∧ rs1 < 32 ∧ rs2 < 32)
  | .spdrain rd rs2 => decide (rd < 32 ∧ rs2 < 32)
  | .awinit rd rs1 rs2 => decide (rd < 32 ∧ rs1 < 32 ∧ rs2 < 32)
  | .await rd rs1 rs2 => decide (rd < 32 ∧ rs1 < 32 ∧ rs2 < 32)
  | .acq rd rs1 rs2 => decide (rd < 32 ∧ rs1 < 32 ∧ rs2 < 32)
  | .rel rd rs1 => decide (rd < 32 ∧ rs1 < 32)
  | .tacq rd rs1 rs2 => decide (rd < 32 ∧ rs1 < 32 ∧ rs2 < 32)
  | .trel rd rs1 => decide (rd < 32 ∧ rs1 < 32)
  | .fencex rd rs1 => decide (rd < 32 ∧ rs1 < 32)
  | .swait rd rs1 => decide (rd < 32 ∧ rs1 < 32)
  | .sbar rd rs1 => decide (rd < 32 ∧ rs1 < 32)
  | .spawn rd rs1 rs2 => decide (rd < 32 ∧ rs1 < 32 ∧ rs2 < 32)
  | .texit => true
  | .tsplit rd rs1 => decide (rd < 32 ∧ rs1 < 32)
  | .treseed rd => decide (rd < 32)
  | .gsync rd rs1 => decide (rd < 32 ∧ rs1 < 32)
  | .syield rd => decide (rd < 32)
  | .sstat rd rs1 => decide (rd < 32 ∧ rs1 < 32)
  | .rvIntegerAlu c op half rd rs1 src =>
    !c && decide (rd < 32) && decide (rs1 < 32) &&
      (match op, src with
       | .lui, .imm v => !half && decide (rs1 = 0) && decide (v = sx (fld v.toNat 12 20 * 2 ^ 12) 32)
       | .auipc, .imm v => !half && decide (rs1 = 0) && decide (v = sx (fld v.toNat 12 20 * 2 ^ 12) 32)
       | .lui, .reg _ => false
       | .auipc, .reg _ => false
       | .sub, .imm _ => false
       | op, .reg n => decide (n < 32) && (!half || op = .add || op = .sub || op = .sll || op = .srl || op = .sra)
       | .sll, .imm v => decide (v.toNat < if half then 32 else 64)
       | .srl, .imm v => decide (v.toNat < if half then 32 else 64)
       | .sra, .imm v => decide (v.toNat < if half then 32 else 64)
       | op, .imm v => decide (v = sx (v.toNat % 2 ^ 12) 12) && (!half || op = .add))
  | .rvMultiply _ rd rs1 rs2 => decide (rd < 32 ∧ rs1 < 32 ∧ rs2 < 32)
  | .rvDivide _ _ rd rs1 rs2 => decide (rd < 32 ∧ rs1 < 32 ∧ rs2 < 32)
  | .rvLoad c _ rd rs1 off => !c && decide (rd < 32 ∧ rs1 < 32 ∧ off = sx (off.toNat % 2 ^ 12) 12)
  | .rvStore c _ rs2 rs1 off => !c && decide (rs2 < 32 ∧ rs1 < 32 ∧ off = sx (off.toNat % 2 ^ 12) 12)
  | .rvBranch c _ rs1 rs2 off => !c && decide (rs1 < 32 ∧ rs2 < 32 ∧ off = sx (off.toNat % 2 ^ 13 / 2 * 2) 13)
  | .jal c rd off => !c && decide (rd < 32 ∧ off = sx (off.toNat % 2 ^ 21 / 2 * 2) 21)
  | .jalr c rd rs1 off => !c && decide (rd < 32 ∧ rs1 < 32 ∧ off = sx (off.toNat % 2 ^ 12) 12)
  | .fence _ bits => decide (bits < 4096)
  | .lr _ aqrl rd rs1 => decide (aqrl < 4 ∧ rd < 32 ∧ rs1 < 32)
  | .sc _ aqrl rd rs1 rs2 => decide (aqrl < 4 ∧ rd < 32 ∧ rs1 < 32 ∧ rs2 < 32)
  | .rvAmo _ _ aqrl rd rs1 rs2 => decide (aqrl < 4 ∧ rd < 32 ∧ rs1 < 32 ∧ rs2 < 32)
  | .rvCsrAccess _ _ csr rd src => decide (csr < 4096 ∧ rd < 32 ∧ src < 32)
  | .ebreak c => !c
  | .rvFdivFsqrt sq _ rd rs1 rs2 rm => decide (rd < 32 ∧ rs1 < 32 ∧ rs2 < 32) && rmOk rm && (!sq || decide (rs2 = 0))
  | .rvFloatOp op dbl rd rs1 rs2 rs3 rm =>
    let f := fpFields op dbl
    decide (rd < 32 ∧ rs1 < 32 ∧ rs2 < 32 ∧ rs3 < 32) && (if f.2.2.2 then rmOk rm else decide (rm = 0))
      && (if f.1 = 0x53 then decide (rs3 = 0) else true) && (f.2.1.2.isNone || decide (rs2 = 0))
  | .pbt p b imm => decide (p < 16 ∧ b < 8 ∧ imm < 524288)
  | .cmp p cd cond qa qb => decide (p < 16 ∧ cd < 8 ∧ cond < 8 ∧ qa < 16 ∧ qb < 16 ∧ cond < 6)
  | .cmpi p cd cond qa imm => decide (p < 16 ∧ cd < 8 ∧ cond < 8 ∧ qa < 16 ∧ imm < 4096 ∧ cond < 6)
  | .brl p b => decide (p < 16 ∧ b < 8)
  | .loop p b reg n => decide (p < 16 ∧ b < 4 ∧ reg < 2 ∧ n < 65536 ∧ (reg = 0 ∨ n < 16))
  | .loopi p b reg n => decide (p < 16 ∧ b < 4 ∧ reg < 2 ∧ n < 65536 ∧ (reg = 0 ∨ n < 16))
  | .loopm p b reg n stages => decide (p < 16 ∧ b < 4 ∧ reg < 2 ∧ n < 65536 ∧ stages < 8 ∧ (reg = 0 ∨ n < 16))
  | .vany p cd v w pn => decide (p < 16 ∧ cd < 8 ∧ v < 128 ∧ w < 4 ∧ pn < 8)
  | .vall p cd v w pn => decide (p < 16 ∧ cd < 8 ∧ v < 128 ∧ w < 4 ∧ pn < 8)
  | .clog p cd ca cb table => decide (p < 16 ∧ cd < 8 ∧ ca < 8 ∧ cb < 8 ∧ table < 16)
  | .yieldK p => decide (p < 16)
  | .sync p port => decide (p < 16 ∧ port < 4)
  | .decouple p => decide (p < 16)
  | .rejoin p => decide (p < 16)
  | .endK p => decide (p < 16)
  | .ktrap p n => decide (p < 16 ∧ n < 256)
  | .qadd p qd qa qb => decide (p < 16 ∧ qd < 16 ∧ qa < 16 ∧ qb < 16)
  | .qsub p qd qa qb => decide (p < 16 ∧ qd < 16 ∧ qa < 16 ∧ qb < 16)
  | .qaddi p qd qa imm x => decide (p < 16 ∧ qd < 16 ∧ qa < 16 ∧ imm < 16384 ∧ x.all (· < 2 ^ 24))
  | .qmul p qd qa qb => decide (p < 16 ∧ qd < 16 ∧ qa < 16 ∧ qb < 16)
  | .qand p qd qa qb => decide (p < 16 ∧ qd < 16 ∧ qa < 16 ∧ qb < 16)
  | .qor p qd qa qb => decide (p < 16 ∧ qd < 16 ∧ qa < 16 ∧ qb < 16)
  | .qxor p qd qa qb => decide (p < 16 ∧ qd < 16 ∧ qa < 16 ∧ qb < 16)
  | .qshl p qd qa qb => decide (p < 16 ∧ qd < 16 ∧ qa < 16 ∧ qb < 16)
  | .qshr p qd qa qb => decide (p < 16 ∧ qd < 16 ∧ qa < 16 ∧ qb < 16)
  | .qsra p qd qa qb => decide (p < 16 ∧ qd < 16 ∧ qa < 16 ∧ qb < 16)
  | .qmin p qd qa qb => decide (p < 16 ∧ qd < 16 ∧ qa < 16 ∧ qb < 16)
  | .qmax p qd qa qb => decide (p < 16 ∧ qd < 16 ∧ qa < 16 ∧ qb < 16)
  | .qli p qd imm x => decide (p < 16 ∧ qd < 16 ∧ imm < 262144 ∧ x.all (· < 2 ^ 24))
  | .qget p qd sel => decide (p < 16 ∧ qd < 16 ∧ sel < 16 ∧ sel < 9)
  | .mset p md qa => decide (p < 16 ∧ md < 8 ∧ qa < 16)
  | .mwait p tile rows => decide (p < 16 ∧ tile < 4 ∧ rows < 64 ∧ rows ≤ 32)
  | .pset p pd w reg n => decide (p < 16 ∧ pd < 8 ∧ w < 4 ∧ reg < 2 ∧ n < 1024 ∧ pd ≠ 0 ∧ (reg = 0 ∨ n < 16))
  | .ptail p pd w qa len => decide (p < 16 ∧ pd < 8 ∧ w < 4 ∧ qa < 16 ∧ len < 8 ∧ pd ≠ 0 ∧ len < 6)
  | .ksr p qd mask => decide (p < 16 ∧ qd < 16 ∧ mask < 8192)
  | .ksc p qa => decide (p < 16 ∧ qa < 16)
  | .pref p qa qb => decide (p < 16 ∧ qa < 16 ∧ qb < 16)
  | .qsd p qd s field => decide (p < 16 ∧ qd < 16 ∧ s < 16 ∧ field < 8 ∧ field < 5)
  | .gadd p gd ga gb => decide (p < 16 ∧ gd < 32 ∧ ga < 32 ∧ gb < 32)
  | .gsub p gd ga gb => decide (p < 16 ∧ gd < 32 ∧ ga < 32 ∧ gb < 32)
  | .gaddi p gd ga imm x => decide (p < 16 ∧ gd < 32 ∧ ga < 32 ∧ imm < 4096 ∧ x.all (· < 2 ^ 24))
  | .gmul p gd ga gb => decide (p < 16 ∧ gd < 32 ∧ ga < 32 ∧ gb < 32)
  | .gmulh p gd ga gb n => decide (p < 16 ∧ gd < 32 ∧ ga < 32 ∧ gb < 32 ∧ n < 128 ∧ n < 2)
  | .gand p gd ga gb => decide (p < 16 ∧ gd < 32 ∧ ga < 32 ∧ gb < 32)
  | .gor p gd ga gb => decide (p < 16 ∧ gd < 32 ∧ ga < 32 ∧ gb < 32)
  | .gxor p gd ga gb => decide (p < 16 ∧ gd < 32 ∧ ga < 32 ∧ gb < 32)
  | .gshl p gd ga gb => decide (p < 16 ∧ gd < 32 ∧ ga < 32 ∧ gb < 32)
  | .gshr p gd ga gb => decide (p < 16 ∧ gd < 32 ∧ ga < 32 ∧ gb < 32)
  | .gsra p gd ga gb => decide (p < 16 ∧ gd < 32 ∧ ga < 32 ∧ gb < 32)
  | .gshi p gd ga k amt => decide (p < 16 ∧ gd < 32 ∧ ga < 32 ∧ k < 32 ∧ amt < 128 ∧ k < 4 ∧ amt < 64)
  | .gmin p gd ga gb => decide (p < 16 ∧ gd < 32 ∧ ga < 32 ∧ gb < 32)
  | .gmax p gd ga gb => decide (p < 16 ∧ gd < 32 ∧ ga < 32 ∧ gb < 32)
  | .gslt p gd ga gb => decide (p < 16 ∧ gd < 32 ∧ ga < 32 ∧ gb < 32)
  | .gsltn p gd ga gb => decide (p < 16 ∧ gd < 32 ∧ ga < 32 ∧ gb < 32)
  | .gli p gd imm x => decide (p < 16 ∧ gd < 32 ∧ imm < 4096 ∧ x.all (· < 2 ^ 24))
  | .gfrq p gd n => decide (p < 16 ∧ gd < 32 ∧ n < 16)
  | .gext p gd ga gb imm => decide (p < 16 ∧ gd < 32 ∧ ga < 32 ∧ gb < 32 ∧ imm < 128)
  | .gins p gd ga gb imm => decide (p < 16 ∧ gd < 32 ∧ ga < 32 ∧ gb < 32 ∧ imm < 128 ∧ imm < 64)
  | .gcid p gd => decide (p < 16 ∧ gd < 32)
  | .gsel p gd ga gb => decide (p < 16 ∧ gd < 32 ∧ ga < 32 ∧ gb < 32)
  | .gclz p gd ga => decide (p < 16 ∧ gd < 32 ∧ ga < 32)
  | .xadd p id ia ib => decide (p < 16 ∧ id < 16 ∧ ia < 16 ∧ ib < 16)
  | .xaddi p id ia imm x => decide (p < 16 ∧ id < 16 ∧ ia < 16 ∧ imm < 1024 ∧ x.all (· < 2 ^ 24))
  | .xsub p id ia ib => decide (p < 16 ∧ id < 16 ∧ ia < 16 ∧ ib < 16)
  | .xshl p id ia ib => decide (p < 16 ∧ id < 16 ∧ ia < 16 ∧ ib < 16)
  | .xand p id ia ib => decide (p < 16 ∧ id < 16 ∧ ia < 16 ∧ ib < 16)
  | .xpopc p id ia => decide (p < 16 ∧ id < 16 ∧ ia < 16)
  | .xpopb p id ia ib => decide (p < 16 ∧ id < 16 ∧ ia < 16 ∧ ib < 16)
  | .xcadv p id ia ib => decide (p < 16 ∧ id < 16 ∧ ia < 16 ∧ ib < 16)
  | .xaq p s ia imm => decide (p < 16 ∧ s < 16 ∧ ia < 16 ∧ imm < 1024)
  | .xaqs p s ia imm => decide (p < 16 ∧ s < 16 ∧ ia < 16 ∧ imm < 1024)
  | .xmin p id ia ib => decide (p < 16 ∧ id < 16 ∧ ia < 16 ∧ ib < 16)
  | .xsel p id ia ib => decide (p < 16 ∧ id < 16 ∧ ia < 16 ∧ ib < 16)
  | .xli p id imm x => decide (p < 16 ∧ id < 16 ∧ imm < 1024 ∧ x.all (· < 2 ^ 24))
  | .xfrg p id g => decide (p < 16 ∧ id < 16 ∧ g < 32)
  | .xtog p g ia => decide (p < 16 ∧ g < 32 ∧ ia < 16)
  | .xrank p id ia ib => decide (p < 16 ∧ id < 16 ∧ ia < 16 ∧ ib < 16)
  | .xmax p id ia ib => decide (p < 16 ∧ id < 16 ∧ ia < 16 ∧ ib < 16)
  | .mcall p routine tile a b flags => decide (p < 16 ∧ routine < 256 ∧ tile < 4 ∧ a < 16 ∧ b < 16 ∧ flags < 16)
  | .mzero p tile => decide (p < 16 ∧ tile < 4)
  | .mmode p tile v => decide (p < 16 ∧ tile < 4 ∧ v < 2)
  | .mfence p => decide (p < 16)
  | .mwm p tile v => decide (p < 16 ∧ tile < 4 ∧ v < 2)
  | .wperm p vd vs ia => decide (p < 16 ∧ vd < 128 ∧ vs < 128 ∧ ia < 16)
  | .wbcast p vd vs n => decide (p < 16 ∧ vd < 128 ∧ vs < 128 ∧ n < 256)
  | .wrot p vd vs n => decide (p < 16 ∧ vd < 128 ∧ vs < 128 ∧ n < 256)
  | .wbfly p vd vs n => decide (p < 16 ∧ vd < 128 ∧ vs < 128 ∧ n < 256)
  | .wrsum p vd vs n => decide (p < 16 ∧ vd < 128 ∧ vs < 128 ∧ n < 8 ∧ n < 7)
  | .wrmax p vd vs n => decide (p < 16 ∧ vd < 128 ∧ vs < 128 ∧ n < 8 ∧ n < 7)
  | .wsegsum p vd vs t ia => decide (p < 16 ∧ vd < 128 ∧ vs < 128 ∧ t < 8 ∧ ia < 16 ∧ t < 7)
  | .wscan p vd vs n => decide (p < 16 ∧ vd < 128 ∧ vs < 128 ∧ n < 8 ∧ n < 7)
  | .spop p s v len => decide (p < 16 ∧ s < 16 ∧ v < 128 ∧ len < 8 ∧ len < 6 ∧ v + len < 128)
  | .spush p s v len => decide (p < 16 ∧ s < 16 ∧ v < 128 ∧ len < 8 ∧ len < 6 ∧ v + len < 128)
  | .sadv p s imm x => decide (p < 16 ∧ s < 16 ∧ imm < 2048 ∧ x.all (· < 2 ^ 24))
  | .speek p s v len => decide (p < 16 ∧ s < 16 ∧ v < 128 ∧ len < 8 ∧ len < 6 ∧ v + len < 128)
  | .sldl p s v ia w => decide (p < 16 ∧ s < 16 ∧ v < 128 ∧ ia < 16 ∧ w < 4)
  | .sstu p s v ia w => decide (p < 16 ∧ s < 16 ∧ v < 128 ∧ ia < 16 ∧ w < 4)
  | .sld p s v imm x => decide (p < 16 ∧ s < 16 ∧ v < 128 ∧ imm < 2048 ∧ imm % 128 = 0 ∧ x.all (· < 2 ^ 24))
  | .sst p s v imm x => decide (p < 16 ∧ s < 16 ∧ v < 128 ∧ imm < 2048 ∧ imm % 128 = 0 ∧ x.all (· < 2 ^ 24))
  | .dqpop p v n w => decide (p < 16 ∧ v < 128 ∧ n < 32 ∧ w < 4 ∧ n < 128 / 2 ^ w)
  | .dqn p v => decide (p < 16 ∧ v < 128)
  | .sflush p s => decide (p < 16 ∧ s < 16)
  | .kcopy p s dir limit => decide (p < 16 ∧ s < 16 ∧ dir < 2 ∧ limit < 1024)
  | .spos p s v => decide (p < 16 ∧ s < 16 ∧ v < 128)
  | .seos p s => decide (p < 16 ∧ s < 16)
  | .kstep g na nb noacc => decide (g < 4 ∧ na < 2 ∧ nb < 2 ∧ noacc < 2)
  | .ksteps g na nb noacc => decide (g < 4 ∧ na < 2 ∧ nb < 2 ∧ noacc < 2)
  | .rpop ring reg n => decide (ring < 2 ∧ reg < 2 ∧ n < 4096 ∧ (reg = 0 ∨ n < 8))
  | .rpeek ring reg n => decide (ring < 2 ∧ reg < 2 ∧ n < 4096 ∧ (reg = 0 ∨ n < 8))
  | .rowg inc g => decide (inc < 2 ∧ g < 4 ∧ (inc = 0 ∨ g = 0))
  | .accsel n => decide (n < 4)
  | .accz g => decide (g < 4)
  | .loopk max reg k body => decide (max < 4096 ∧ reg < 2 ∧ k < 8 ∧ body < 4096)
  | .wmset n g => decide (n < 64 ∧ g < 2)
  | .bmchk => true
  | .epi g fn k => decide (g < 4 ∧ fn < 4 ∧ k < 8)
  | .parm kd m half => decide (kd < 8 ∧ m < 8 ∧ half < 2)
  | .jmp d => decide (d < 4096 ∧ d ≠ 0)
  | .ret => true
  | .vadd o => vslotFits o && vLegal 0x01 o
  | .vsub o => vslotFits o && vLegal 0x02 o
  | .vadds o => vslotFits o && vLegal 0x03 o
  | .vaddn o => vslotFits o && vLegal 0x04 o
  | .vsubs o => vslotFits o && vLegal 0x05 o
  | .vsubn o => vslotFits o && vLegal 0x06 o
  | .vmul o => vslotFits o && vLegal 0x07 o
  | .vmulh o => vslotFits o && vLegal 0x08 o
  | .vmulhn o => vslotFits o && vLegal 0x09 o
  | .vmac o => vslotFits o && vLegal 0x0A o
  | .vmacw o => vslotFits o && vLegal 0x0B o
  | .vmin o => vslotFits o && vLegal 0x0C o
  | .vmax o => vslotFits o && vLegal 0x0D o
  | .vminn o => vslotFits o && vLegal 0x0E o
  | .vmaxn o => vslotFits o && vLegal 0x0F o
  | .vabs o => vslotFits o && vLegal 0x10 o
  | .vneg o => vslotFits o && vLegal 0x11 o
  | .vand o => vslotFits o && vLegal 0x12 o
  | .vor o => vslotFits o && vLegal 0x13 o
  | .vxor o => vslotFits o && vLegal 0x14 o
  | .vandn o => vslotFits o && vLegal 0x15 o
  | .vshl o => vslotFits o && vLegal 0x16 o
  | .vshr o => vslotFits o && vLegal 0x17 o
  | .vsra o => vslotFits o && vLegal 0x18 o
  | .vsrar o => vslotFits o && vLegal 0x19 o
  | .vnarrow o => vslotFits o && vLegal 0x1A o
  | .vwiden o => vslotFits o && vLegal 0x1B o
  | .vcmpeq o => vslotFits o && vLegal 0x1C o
  | .vcmplt o => vslotFits o && vLegal 0x1D o
  | .vcmpltn o => vslotFits o && vLegal 0x1E o
  | .vcmple o => vslotFits o && vLegal 0x1F o
  | .vsel o => vslotFits o && vLegal 0x20 o
  | .vclz o => vslotFits o && vLegal 0x21 o
  | .vpopc o => vslotFits o && vLegal 0x22 o
  | .fadd o => vslotFits o && vLegal 0x30 o
  | .fsub o => vslotFits o && vLegal 0x31 o
  | .fmul o => vslotFits o && vLegal 0x32 o
  | .fma o => vslotFits o && vLegal 0x33 o
  | .fms o => vslotFits o && vLegal 0x34 o
  | .fnma o => vslotFits o && vLegal 0x35 o
  | .fmin o => vslotFits o && vLegal 0x36 o
  | .fmax o => vslotFits o && vLegal 0x37 o
  | .fabs o => vslotFits o && vLegal 0x38 o
  | .fneg o => vslotFits o && vLegal 0x39 o
  | .fcmpeq o => vslotFits o && vLegal 0x3A o
  | .fcmplt o => vslotFits o && vLegal 0x3B o
  | .fcmple o => vslotFits o && vLegal 0x3C o
  | .fcmpun o => vslotFits o && vLegal 0x3D o
  | .fclass o => vslotFits o && vLegal 0x3E o
  | .fscale o => vslotFits o && vLegal 0x3F o
  | .vcvt o => vslotFits o && vLegal 0x40 o
  | .vqnt o => vslotFits o && vLegal 0x41 o
  | .vdq o => vslotFits o && vLegal 0x42 o
  | .frcp o => vslotFits o && vLegal 0x48 o
  | .frsq o => vslotFits o && vLegal 0x49 o
  | .fexp2 o => vslotFits o && vLegal 0x4A o
  | .flog2 o => vslotFits o && vLegal 0x4B o
  | .fsin o => vslotFits o && vLegal 0x4C o
  | .fcos o => vslotFits o && vLegal 0x4D o
  | .ftanh o => vslotFits o && vLegal 0x4E o
  | .vrsum o => vslotFits o && vLegal 0x50 o
  | .vrmax o => vslotFits o && vLegal 0x51 o
  | .vrmin o => vslotFits o && vLegal 0x52 o
  | .vamax o => vslotFits o && vLegal 0x53 o
  | .vtopk o => vslotFits o && vLegal 0x54 o
  | .vscan o => vslotFits o && vLegal 0x55 o
  | .vcompress o => vslotFits o && vLegal 0x56 o
  | .vexpand o => vslotFits o && vLegal 0x57 o
  | .vidx o => vslotFits o && vLegal 0x58 o
  | .vmov o => vslotFits o && vLegal 0x59 o
  | .vzero o => vslotFits o && vLegal 0x5A o
  | .brT p b c => decide (p < 16 ∧ b < 8 ∧ c < 8)
  | .brF p b c => decide (p < 16 ∧ b < 8 ∧ c < 8)
  | .br p b => decide (p < 16 ∧ b < 8)
  | .brR p => decide (p < 16)
  | .kmode p reg n => decide (p < 16 ∧ (reg = 0 ∧ n < 4 ∨ reg = 1 ∧ n < 16))
  | .xdiagStep p id ia ib => decide (p < 16 ∧ id < 16 ∧ ia < 16 ∧ ib < 16)
  | .xdiagMid p id ia => decide (p < 16 ∧ id < 16 ∧ ia < 16)
  | _ => true

end Sys2Proof
end

