-- ==== Sys2Proof/Certificates/Slice0/Obligations.lean ====
section
/-! DEFINITION. The statements for the provers: what each instruction and each step of the machine does, from the rules of the spec. -/

open Sys2Proof Sys2Proof.Machine

/-- The machine never gets stuck, and no instruction is refused: from every state, reachable or not, `exec` of every instruction and step completes with a next
state, whatever its operands, and so does the step; none ends in a fault or in a refusal. (What each completes with is said by the statements
on it.) -/
def Obligations.StepAlwaysAnswers : Prop := (∀ (i : Instr) (s : State), ∃ t, exec i s = .next t) ∧ ∀ s : State, Answers (step s)

/-- A step runs one event or turn (the order is the model's own: log 10). An event from outside runs first; else the next turn; else the clock moves on
and the nine stages of a cycle follow. The turn of a controller that is not stopped, held or waiting runs `exec` of the instruction whose bytes stand
in control memory at its pc, four or (compressed) two of them; a fetch in U mode that passes 0x3_8000 takes exception 1, an undefined encoding
exception 2 with the word in mtval. The turn of the host port runs the message that the first frame holds, or drops the frame. The turn of the matrix unit runs the micro-op at its pc. A slot of a bundle means what `exec` gives the
instruction it decodes to. -/
def Obligations.StepRunsTheDecodedInstruction : Prop :=
  (∀ (s : State) (i : Instr) (l : List Instr), s.inbox = i :: l → step s = exec i { s with inbox := l }) ∧
  (∀ (s : State) (i : Instr) (l : List Turn), s.inbox = [] → s.turns = .run i :: l → step s = exec i { s with turns := l }) ∧
  (∀ s : State, s.inbox = [] → s.turns = [] → step s = .next { s with now := s.now + 1, turns := (List.range 9).map .stage }) ∧
  (∀ (s : State) (k : Nat) (l : List Turn) (c : Ctx), s.inbox = [] → s.turns = .controller k :: l → s.ctx k = some c →
    c.halted = false → c.preempt = none → (s.sp k).dbgStopped = false → c.filling = false → c.busy = 0 → c.wait = none → c.pend = false →
    let w := cmRead (s.sp k).cm c.pc.toNat 4
    let n := if w % 4 = 3 then 4 else 2
    (∀ i, (c.mmode = true ∨ c.pc.toNat + n ≤ 0x38000) → decodeCtl w = some i → step s = exec i { s with turns := l, cur := k }) ∧
    ((c.mmode = true ∨ c.pc.toNat + n ≤ 0x38000) → decodeCtl w = none →
      step s = .next (({ s with turns := l, cur := k } : State).takeException k 2 (BitVec.ofNat 64 (w % 2 ^ (8 * n))))) ∧
    (c.mmode = false → 0x38000 < c.pc.toNat + n → step s = .next (({ s with turns := l, cur := k } : State).takeException k 1 c.pc))) ∧
  (∀ (s : State) (k : Nat) (l : List Turn) (c : Ctx) (r : Routine) (w : Dword) (i : Instr), s.inbox = [] → s.turns = .matrix k :: l → s.ctx k = some c →
    c.matrix.run = some r → r.wait = 0 → c.matrix.drain ≠ some 1 → r.words[r.pc]? = some w → decodeMicro w.toNat = some i →
    step s = exec i { s with turns := l, cur := k }) ∧
  (∀ (s : State) (l : List Turn) (f : HostFrame) (r : List HostFrame), s.inbox = [] → s.turns = .hostPort :: l → s.hostIn = f :: r →
    (∀ i, f.message = some i → step s = exec i { s with turns := l, hostIn := r }) ∧ (f.message = none → step s = .next { s with turns := l, hostIn := r })) ∧
  ∀ k w x, k < 8 → slotMeaning k w x = (decodeIn (slotSpace k) w x).map exec

/-- 04 R99 to R112, 07 R155, 11 R298: for every well-formed instruction of the stream extension, of a slot and of a micro-op, the decoder of its space
gives it back from the words it is encoded as, with every operand at every value that the encoding admits. -/
def Obligations.EncodedWordsDecode : Prop :=
  ∀ i : Instr, i.wf = true → ∀ e, encode i = some e → encodeRv i = none → decodeIn e.space e.word e.ext = some i

/-- RV64IMAFD and Zicsr (06 R131): for every well-formed standard instruction in its 32-bit form, the controller's decoder gives it back from the
word that it is encoded as; every such instruction has one. -/
def Obligations.StandardWordsDecode : Prop :=
  (∀ i : Instr, i.wf = true → ∀ e, encodeRv i = some e → e.word < 2 ^ 32 ∧ e.word % 4 = 3 ∧ decodeCtl e.word = some i) ∧
  (∀ op half rd rs1 src, (Instr.rvIntegerAlu false op half rd rs1 src).wf = true → (encodeRv (.rvIntegerAlu false op half rd rs1 src)).isSome = true) ∧
  (∀ k rd rs1 off, (encodeRv (.rvLoad false k rd rs1 off)).isSome = true) ∧ (∀ k rs2 rs1 off, (encodeRv (.rvStore false k rs2 rs1 off)).isSome = true) ∧
  (∀ k rs1 rs2 off, (encodeRv (.rvBranch false k rs1 rs2 off)).isSome = true) ∧ ∀ op dbl rd rs1 rs2 rs3 rm, (encodeRv (.rvFloatOp op dbl rd rs1 rs2 rs3 rm)).isSome = true

/-- A sanity statement: words written out from the encodings of 04 R99 to R112, 07 R155, 08 R207, 11 R298 and the RISC-V standard decode to the instructions
they stand for, one of each space. -/
def Obligations.SampleWordsDecode : Prop :=
  decodeCtl 0x0031008B = some (.palloc 1 2 3) ∧ decodeCtl 0x0200607B = some .texit ∧ decodeCtl 0x00A2D1AB = some (.scopy 3 0 5 10) ∧
  decodeCtl 0xFFF10093 = some (.rvIntegerAlu false .add false 1 2 (.imm (BitVec.ofInt 64 (-1)))) ∧ decodeCtl 0x00833283 = some (.rvLoad false .ld 5 6 8) ∧
  decodeCtl 0x02C5D533 = some (.rvDivide .divu false 10 11 12) ∧ decodeCtl 0x9002 = some (.ebreak true) ∧
  decodeC 0xFFFFF401 none = some (.pbt 0 5 0x7FFFF) ∧ decodeS 0x00520C81 none = some (.gadd 2 3 4 5) ∧ decodeX 0x0010C841 none = some (.xadd 1 2 3 4) ∧
  decodeM 0x000000C4 none = some (.mfence 3) ∧ decodeW 0x070C1403 none = some (.wrot 0 5 6 7) ∧ decodeP 0x00400403 none = some (.sadv 0 1 2 none) ∧
  decodeIn .v 0x1000000302C28001 none = some (.vadd ⟨0, 0, 10, 11, 12, 0, 0, 0, 2, 0⟩) ∧ decodeMicro 0x0400000000000005 = some (.kstep 1 1 0 0)

/-- R326 (12) and log 1: memory keeps its canonical form. From every state, reachable or not, whose memory lists its addresses in strictly rising
order and no byte that an unlisted address reads as, every step leaves it so: a store, a beat of a copy, a token entry, a fault record, an image
written out, a page that arrives, a reset. -/
def Obligations.MemoryStaysCanonical : Prop := ∀ s t : State, Memory.wf s.mem = true → step s = .next t → Memory.wf t.mem = true

/-- R470 (25), R48 (02), R373 (15): right after reset memory is in its canonical form; no partition exists, no launch is queued, no SP holds a context,
every VF is unbound and expects message 0, every port is down with PORTCFG and PORTCNT 0, the device runs and the host port is up. What an unlisted byte
reads as, and that reset lists none, are the model's choices (log 1): the spec leaves the contents of memory after a reset undefined. -/
def Obligations.ResetState : Prop :=
  Memory.wf State.reset.mem = true ∧ State.reset.parts = [] ∧ State.reset.launches = [] ∧ (∀ k, State.reset.ctx k = none) ∧
  (∀ v, (State.reset.vf v).part = none ∧ (State.reset.vf v).expect = 0) ∧
  (∀ n, (State.reset.port n).cfg = 0 ∧ (State.reset.port n).linkState = 0 ∧ (State.reset.port n).hdrerr = 0 ∧ (State.reset.port n).fcsdrop = 0) ∧
  State.reset.dev.inReset = 0 ∧ State.reset.dev.hostUp = true

/-- R131 (06) and RV64I, RV64M: the integer instructions of the controller give the results of the standard, and complete in every
context: the ALU operations on 64 bits and the W forms on the low 32 bits, sign-extended, with shift amounts of 6 and 5 bits; LUI and
AUIPC; the high halves of products; and the divisions, which give all ones and the dividend for a zero divisor, wrap on overflow, and
hold issue for their 34 cycles, until which a pre-emption request undoes them (19 R406). A register x0 as destination discards the result. -/
def Obligations.ControllerIntegerResults : Prop :=
  (∀ (op : AluOp) (half : Bool) (r : Dword → Dword → Dword → Dword),
    ((op, half, r) ∈ ([(.add, false, fun _ a b => a + b), (.sub, false, fun _ a b => a - b), (.sll, false, fun _ a b => a <<< (b.toNat % 64)),
        (.srl, false, fun _ a b => a >>> (b.toNat % 64)), (.sra, false, fun _ a b => a.sshiftRight (b.toNat % 64)),
        (.add, true, fun _ a b => (a.setWidth 32 + b.setWidth 32).signExtend 64), (.sub, true, fun _ a b => (a.setWidth 32 - b.setWidth 32).signExtend 64),
        (.sll, true, fun _ a b => (a.setWidth 32 <<< (b.toNat % 32)).signExtend 64), (.srl, true, fun _ a b => (a.setWidth 32 >>> (b.toNat % 32)).signExtend 64),
        (.sra, true, fun _ a b => ((a.setWidth 32).sshiftRight (b.toNat % 32)).signExtend 64)] : List (AluOp × Bool × (Dword → Dword → Dword → Dword))) ∨
     (op, r) ∈ ([(.slt, fun _ a b => if a.toInt < b.toInt then 1 else 0), (.sltu, fun _ a b => if a.toNat < b.toNat then 1 else 0),
        (.xor, fun _ a b => a ^^^ b), (.or, fun _ a b => a ||| b), (.and, fun _ a b => a &&& b), (.lui, fun _ _ b => b),
        (.auipc, fun pc _ b => pc + b)] : List (AluOp × (Dword → Dword → Dword → Dword)))) →
    ∀ (cmp : Bool) (rd rs1 : Nat) (src : RvSrc), CtlRule (.rvIntegerAlu cmp op half rd rs1 src) (if cmp then 2 else 4) fun c =>
      c.setX rd (r c.pc (c.xr rs1) (match src with | .reg n => c.xr n | .imm v => v))) ∧
  (∀ (op : MulOp) (r : Dword → Dword → Dword),
    (op, r) ∈ ([(.mul, fun a b => a * b), (.mulh, fun a b => ((a.signExtend 128 * b.signExtend 128) >>> 64).setWidth 64),
        (.mulhsu, fun a b => ((a.signExtend 128 * b.setWidth 128) >>> 64).setWidth 64),
        (.mulhu, fun a b => ((a.setWidth 128 * b.setWidth 128) >>> 64).setWidth 64),
        (.mulw, fun a b => (a.setWidth 32 * b.setWidth 32).signExtend 64)] : List (MulOp × (Dword → Dword → Dword))) →
    ∀ rd rs1 rs2, CtlRule (.rvMultiply op rd rs1 rs2) 4 fun c => c.setX rd (r (c.xr rs1) (c.xr rs2))) ∧
  (∀ (op : DivOp) (w : Nat) (r : (n : Nat) → BitVec n → BitVec n → BitVec n),
    (op, r) ∈ ([(.div, fun n a b => if b = 0 then BitVec.allOnes n else a.sdiv b), (.divu, fun n a b => if b = 0 then BitVec.allOnes n else a / b),
        (.rem, fun _ a b => if b = 0 then a else a.srem b), (.remu, fun _ a b => if b = 0 then a else a % b)] :
        List (DivOp × ((n : Nat) → BitVec n → BitVec n → BitVec n))) → (w = 32 ∨ w = 64) →
    ∀ rd rs1 rs2, CtlRule (.rvDivide op (decide (w = 32)) rd rs1 rs2) 4 fun c =>
      { c.setX rd ((r w ((c.xr rs1).setWidth w) ((c.xr rs2).setWidth w)).signExtend 64) with busy := 33, squash := some ⟨c.pc, c.x, c.f, c.fcsr⟩ }) ∧
  ∀ (c : Ctx) (n : Nat) (v : Dword), (c.setX 0 v = c) ∧ c.xr 0 = 0 ∧ (n ≠ 0 → (c.setX n v).xr n = v ∧ ∀ m, m ≠ n → (c.setX n v).xr m = c.xr m)

/-- R131 and R132 (06), R191 (07): the branches, jumps and fences complete in every context. A branch is taken on the comparison of its name,
and costs three cycles more when the static prediction (backward taken, forward not) fails; JAL and JALR write the address of the next
instruction and JALR clears bit 0 of its target, costs three cycles more, and makes a pending write of 1 to IE take effect; FENCE and FENCE.I
pass. -/
def Obligations.ControllerJumps : Prop :=
  (∀ (k : BrKind) (t : Dword → Dword → Bool),
    (k, t) ∈ ([(.beq, fun a b => decide (a = b)), (.bne, fun a b => decide (a ≠ b)), (.blt, fun a b => decide (a.toInt < b.toInt)),
        (.bge, fun a b => decide (b.toInt ≤ a.toInt)), (.bltu, fun a b => decide (a.toNat < b.toNat)),
        (.bgeu, fun a b => decide (b.toNat ≤ a.toNat))] : List (BrKind × (Dword → Dword → Bool))) →
    ∀ (cmp : Bool) (rs1 rs2 : Nat) (off : Dword) (s : State) (c : Ctx), s.ctx s.cur = some c →
      CtxStep (.rvBranch cmp k rs1 rs2 off) s s.cur
        { c with pc := if t (c.xr rs1) (c.xr rs2) then c.pc + off else c.pc + (if cmp then 2 else 4)
                 busy := if t (c.xr rs1) (c.xr rs2) = decide (off.toInt < 0) then 0 else 3 }) ∧
  (∀ (cmp : Bool) (rd : Nat) (off : Dword) (s : State) (c : Ctx), s.ctx s.cur = some c →
    CtxStep (.jal cmp rd off) s s.cur { c.setX rd (c.pc + (if cmp then 2 else 4)) with pc := c.pc + off }) ∧
  (∀ (cmp : Bool) (rd rs1 : Nat) (off : Dword) (s : State) (c : Ctx), s.ctx s.cur = some c →
    CtxStep (.jalr cmp rd rs1 off) s s.cur
      { c.setX rd (c.pc + (if cmp then 2 else 4)) with pc := (c.xr rs1 + off) &&& ~~~ 1, busy := 3, ie := c.ieWait.getD c.ie, ieWait := none }) ∧
  ∀ i b, CtlRule (.fence i b) 4 fun c => c

/-- R131 (06), R56 (02): loads from control memory complete in every context whose address is a multiple of the size and ends below
0x3_8C00, the firmware's limit for U mode: the register receives the little-endian bytes, sign- or zero-extended as the name says (a single in a
floating-point register is boxed in ones), and LR also sets the reservation. -/
def Obligations.ControllerLoads : Prop :=
  (∀ (k : LoadKind) (n : Nat) (f : Nat → Dword),
    (k, n, f) ∈ ([(.lb, 1, fun v => (BitVec.ofNat 8 v).signExtend 64), (.lh, 2, fun v => (BitVec.ofNat 16 v).signExtend 64),
      (.lw, 4, fun v => (BitVec.ofNat 32 v).signExtend 64), (.ld, 8, fun v => BitVec.ofNat 64 v), (.lbu, 1, fun v => BitVec.ofNat 64 v),
      (.lhu, 2, fun v => BitVec.ofNat 64 v), (.lwu, 4, fun v => BitVec.ofNat 64 v)] : List (LoadKind × Nat × (Nat → Dword))) →
    ∀ (cmp : Bool) (rd rs1 : Nat) (off : Dword) (s : State) (c : Ctx), s.ctx s.cur = some c → (c.xr rs1 + off).toNat % n = 0 →
      (c.xr rs1 + off).toNat + n ≤ 0x38C00 →
      CtxStep (.rvLoad cmp k rd rs1 off) s s.cur
        { c.setX rd (f (ofBytes ((List.range n).map fun i => cmByte (s.sp s.cur).cm ((c.xr rs1 + off).toNat + i)))) with
          pc := c.pc + (if cmp then 2 else 4) }) ∧
  (∀ (k : LoadKind) (n : Nat) (f : Nat → Dword),
    (k, n, f) ∈ ([(.flw, 4, fun v => BitVec.allOnes 32 ++ BitVec.ofNat 32 v), (.fld, 8, fun v => BitVec.ofNat 64 v)] : List (LoadKind × Nat × (Nat → Dword))) →
    ∀ (cmp : Bool) (rd rs1 : Nat) (off : Dword) (s : State) (c : Ctx), s.ctx s.cur = some c → (c.xr rs1 + off).toNat % n = 0 →
      (c.xr rs1 + off).toNat + n ≤ 0x38C00 →
      CtxStep (.rvLoad cmp k rd rs1 off) s s.cur
        { c with f := KMap.ins rd (f (ofBytes ((List.range n).map fun i => cmByte (s.sp s.cur).cm ((c.xr rs1 + off).toNat + i)))) c.f
                 pc := c.pc + (if cmp then 2 else 4) }) ∧
  ∀ (d : Bool) (aqrl rd rs1 : Nat) (s : State) (c : Ctx), s.ctx s.cur = some c → (c.xr rs1).toNat % (if d then 8 else 4) = 0 →
    (c.xr rs1).toNat + (if d then 8 else 4) ≤ 0x38C00 →
    let v := ofBytes ((List.range (if d then 8 else 4)).map fun i => cmByte (s.sp s.cur).cm ((c.xr rs1).toNat + i))
    CtxStep (.lr d aqrl rd rs1) s s.cur
      { c.setX rd (if d then BitVec.ofNat 64 v else (BitVec.ofNat 32 v).signExtend 64) with pc := c.pc + 4, resv := some (c.xr rs1).toNat }

/-- R131 (06), R56 (02): stores, SC and the AMOs to an aligned address that ends at or below 0x3_8000 complete in every context. A store writes the
low bytes of its register at the address and nothing else: every other byte of control memory reads as before, and of the context only the pc
moves. SC writes and gives 0 exactly on a reservation of the same address, else writes nothing and gives 1, and clears the reservation. An AMO
gives the old value and stores the result of its operation, and holds issue for its two cycles. -/
def Obligations.ControllerStoresAndAtomics : Prop :=
  (∀ (k : StoreKind) (n : Nat) (f : Ctx → Nat → Dword),
    (k, n, f) ∈ ([(.sb, 1, fun c r => c.xr r), (.sh, 2, fun c r => c.xr r), (.sw, 4, fun c r => c.xr r), (.sd, 8, fun c r => c.xr r),
      (.fsw, 4, fun c r => KMap.get 0 c.f r), (.fsd, 8, fun c r => KMap.get 0 c.f r)] : List (StoreKind × Nat × (Ctx → Nat → Dword))) →
    ∀ (cmp : Bool) (rs2 rs1 : Nat) (off : Dword) (s : State) (c : Ctx), s.ctx s.cur = some c → (c.xr rs1 + off).toNat % n = 0 →
      (c.xr rs1 + off).toNat + n ≤ 0x38000 →
      ∃ m, SpStep (.rvStore cmp k rs2 rs1 off) s s.cur { s.sp s.cur with ctx := some { c with pc := c.pc + (if cmp then 2 else 4) }, cm := m } ∧
        ∀ a, cmByte m a = if (c.xr rs1 + off).toNat ≤ a ∧ a < (c.xr rs1 + off).toNat + n
          then (f c rs2).extractLsb' (8 * (a - (c.xr rs1 + off).toNat)) 8 else cmByte (s.sp s.cur).cm a) ∧
  (∀ (d : Bool) (aqrl rd rs1 rs2 : Nat) (s : State) (c : Ctx), s.ctx s.cur = some c →
    let n := if d then 8 else 4
    (c.xr rs1).toNat % n = 0 → (c.xr rs1).toNat + n ≤ 0x38000 →
    (c.resv = some (c.xr rs1).toNat → ∃ m,
      SpStep (.sc d aqrl rd rs1 rs2) s s.cur { s.sp s.cur with ctx := some { c.setX rd 0 with pc := c.pc + 4, resv := none }, cm := m } ∧
      ∀ a, cmByte m a = if (c.xr rs1).toNat ≤ a ∧ a < (c.xr rs1).toNat + n
        then (c.xr rs2).extractLsb' (8 * (a - (c.xr rs1).toNat)) 8 else cmByte (s.sp s.cur).cm a) ∧
    (c.resv ≠ some (c.xr rs1).toNat → CtxStep (.sc d aqrl rd rs1 rs2) s s.cur { c.setX rd 1 with pc := c.pc + 4, resv := none })) ∧
  ∀ (op : AmoOp) (f : (w : Nat) → BitVec w → BitVec w → BitVec w),
    (op, f) ∈ ([(.swap, fun _ _ b => b), (.add, fun _ a b => a + b), (.and, fun _ a b => a &&& b), (.or, fun _ a b => a ||| b),
      (.xor, fun _ a b => a ^^^ b), (.min, fun _ a b => if b.toInt < a.toInt then b else a), (.max, fun _ a b => if a.toInt < b.toInt then b else a),
      (.minu, fun _ a b => if b.toNat < a.toNat then b else a), (.maxu, fun _ a b => if a.toNat < b.toNat then b else a)] :
      List (AmoOp × ((w : Nat) → BitVec w → BitVec w → BitVec w))) →
    ∀ (d : Bool) (aqrl rd rs1 rs2 : Nat) (s : State) (c : Ctx), s.ctx s.cur = some c →
      let n := if d then 8 else 4
      (c.xr rs1).toNat % n = 0 → (c.xr rs1).toNat + n ≤ 0x38000 →
      let old := BitVec.ofNat (8 * n) (ofBytes ((List.range n).map fun i => cmByte (s.sp s.cur).cm ((c.xr rs1).toNat + i)))
      ∃ m, SpStep (.rvAmo op d aqrl rd rs1 rs2) s s.cur
          { s.sp s.cur with ctx := some { c.setX rd (old.signExtend 64) with pc := c.pc + 4, busy := 1 }, cm := m } ∧
        ∀ a, cmByte m a = if (c.xr rs1).toNat ≤ a ∧ a < (c.xr rs1).toNat + n
          then (f (8 * n) old ((c.xr rs2).setWidth (8 * n))).extractLsb' (8 * (a - (c.xr rs1).toNat)) 8 else cmByte (s.sp s.cur).cm a

/-- R474 (25): in M mode, LD and SD of an aligned address from 0x1_0000_0000 up reach the registers of the device: LD gives the register's
value, or 0 in a hole, which GCTL.HOLEHIT counts up to 0xFFFF; the write of an SD is the machine's next event. -/
def Obligations.ControllerDeviceAccess : Prop :=
  ∀ (cmp : Bool) (rd rs1 rs2 : Nat) (off : Dword) (s : State) (c : Ctx) (a : Nat), s.ctx s.cur = some c → c.mmode = true →
    (c.xr rs1 + off).toNat = 0x100000000 + a → a % 8 = 0 → a < 0x1000000 →
    (∀ v, s.regRead a = some v → CtxStep (.rvLoad cmp .ld rd rs1 off) s s.cur { c.setX rd v with pc := c.pc + (if cmp then 2 else 4) }) ∧
    (s.regRead a = none → ∃ t, exec (.rvLoad cmp .ld rd rs1 off) s = .next t ∧
      t = { s with sps := t.sps, dev := { s.dev with holehit := min 0xFFFF (s.dev.holehit + 1) } } ∧
      ∀ j, t.sp j = if j = s.cur then { s.sp j with ctx := some { c.setX rd 0 with pc := c.pc + (if cmp then 2 else 4) } } else s.sp j) ∧
    ∃ t, exec (.rvStore cmp .sd rs2 rs1 off) s = .next t ∧ t = { s with sps := t.sps, inbox := s.inbox ++ [.registerWrite a (c.xr rs2)] } ∧
      ∀ j, t.sp j = if j = s.cur then { s.sp j with ctx := some { c with pc := c.pc + (if cmp then 2 else 4) } } else s.sp j

/-- R402 and R403 (19): what an exception of the controller does, and what raises one. mepc holds the pc of the faulting instruction, mcause and
mtval the cause and value, M mode is entered at mtvec, MPP, MPIE and MIE of mstatus are set as the privileged architecture says, and the
integer and floating-point registers, control memory and the SRF stand as they were. In M mode nothing else changes; from U mode the launch ends with cause
CONTROLLER_EXCEPTION (1), which records rank, mcause, mtval and mepc, and each of its contexts stops. A misaligned load or store raises 4 or 6 before
any access fault (log 16), an access past the limit of U mode 5 or 7, ECALL 8 with mtval 0, EBREAK 3 with the pc; under debug attachment
EBREAK stops the controller instead. -/
def Obligations.ControllerExceptions : Prop :=
  (∀ (s : State) (k cause : Nat) (tval : Dword) (c : Ctx), s.ctx k = some c → cause < 16 →
    ∃ d, (s.takeException k cause tval).ctx k = some d ∧ d.mepc = c.pc ∧ d.mcause.toNat = cause ∧ d.mtval = tval ∧ d.pc = c.mtvec ∧ d.mmode = true ∧
      d.resv = none ∧ d.mstatus.extractLsb' 11 2 = (if c.mmode then 3 else 0) ∧ d.mstatus.extractLsb' 7 1 = c.mstatus.extractLsb' 3 1 ∧
      d.mstatus.extractLsb' 3 1 = 0 ∧ d.x = c.x ∧ d.f = c.f ∧ (s.takeException k cause tval).mem = s.mem ∧
      ((s.takeException k cause tval).sp k).cm = (s.sp k).cm ∧ ((s.takeException k cause tval).sp k).srf = (s.sp k).srf ∧
      (c.mmode = true → WithSp s k { s.sp k with ctx := some d } (s.takeException k cause tval)) ∧
      (c.mmode = false → ∀ l, s.launchOf c.launch = some l → l.cause = none →
        (∃ gone, (s.takeException k cause tval).launchOf c.launch =
          some { l with cause := some 1, state := 2, crank := c.rank, cword := cause, caddr := tval.toNat, cpc := c.pc.toNat, gone := gone }) ∧
        ∀ j e, s.ctx j = some e → e.launch = c.launch → ∃ e', (s.takeException k cause tval).ctx j = some e' ∧ e'.halted = true)) ∧
  (∀ (cmp : Bool) (k : LoadKind) (n rd rs1 : Nat) (off : Dword) (s : State) (c : Ctx),
    (k, n) ∈ ([(.lb, 1), (.lbu, 1), (.lh, 2), (.lhu, 2), (.lw, 4), (.lwu, 4), (.flw, 4), (.ld, 8), (.fld, 8)] : List (LoadKind × Nat)) →
    s.ctx s.cur = some c →
    ((c.xr rs1 + off).toNat % n ≠ 0 → Traps (.rvLoad cmp k rd rs1 off) s 4 (c.xr rs1 + off)) ∧
    ((c.xr rs1 + off).toNat % n = 0 → c.mmode = false → 0x38C00 ≤ (c.xr rs1 + off).toNat → Traps (.rvLoad cmp k rd rs1 off) s 5 (c.xr rs1 + off))) ∧
  (∀ (cmp : Bool) (k : StoreKind) (n rs2 rs1 : Nat) (off : Dword) (s : State) (c : Ctx),
    (k, n) ∈ ([(.sb, 1), (.sh, 2), (.sw, 4), (.fsw, 4), (.sd, 8), (.fsd, 8)] : List (StoreKind × Nat)) → s.ctx s.cur = some c →
    ((c.xr rs1 + off).toNat % n ≠ 0 → Traps (.rvStore cmp k rs2 rs1 off) s 6 (c.xr rs1 + off)) ∧
    ((c.xr rs1 + off).toNat % n = 0 → c.mmode = false → 0x38000 ≤ (c.xr rs1 + off).toNat → Traps (.rvStore cmp k rs2 rs1 off) s 7 (c.xr rs1 + off))) ∧
  (∀ (s : State) (c : Ctx), s.ctx s.cur = some c → c.mmode = false → Traps .ecall s 8 0) ∧
  ∀ (cmp : Bool) (s : State) (c : Ctx), s.ctx s.cur = some c →
    ((s.sp s.cur).attach = false → Traps (.ebreak cmp) s 3 c.pc) ∧
    ((s.sp s.cur).attach = true → SpStep (.ebreak cmp) s s.cur { s.sp s.cur with dbgStopped := true })

/-- R187 to R189 (07), R25 (01) and Zicsr: a CSR access of a number that exists and that the mode may reach completes: rd receives the value of the
register, and CSRRW, or CSRRS and CSRRC with a source other than x0 or 0, write it. ktvec and kepc keep bit 0 at 0, cbound takes a value from
cbase to the ceiling and ignores others, mwdog takes 20 to 40, ones written to kstat clear its bits, a write of 1 to mpreq bit 0 requests a
pre-emption, and a read-only register ignores the write. A custom number that does not exist, or an M-mode number in U mode without the
system bit, raises the illegal-instruction exception. -/
def Obligations.ControllerCsrs : Prop :=
  (∀ (n : Nat) (r : Nat → Ctx → Dword),
    (n, r) ∈ ([(0x001, fun _ c => (c.fcsr.extractLsb' 0 5).setWidth 64), (0x002, fun _ c => (c.fcsr.extractLsb' 5 3).setWidth 64),
      (0x003, fun _ c => (c.fcsr.extractLsb' 0 8).setWidth 64), (0x800, fun _ c => c.kevent), (0x802, fun _ c => c.ktvec), (0x803, fun _ c => c.kepc),
      (0x804, fun _ c => c.cbase), (0x805, fun _ c => c.cbound), (0x806, fun _ c => c.cceil), (0x807, fun k _ => BitVec.ofNat 64 k),
      (0x808, fun _ c => BitVec.ofNat 64 c.rank), (0x809, fun _ c => BitVec.ofNat 64 c.kstat), (0x80A, fun _ c => BitVec.ofNat 64 c.hw)] :
      List (Nat × (Nat → Ctx → Dword))) →
    ∀ (op : CsrOp) (imm : Bool) (rd : Nat) (s : State) (c : Ctx), s.ctx s.cur = some c → op ≠ .rw →
      CtxStep (.rvCsrAccess op imm n rd 0) s s.cur { c.setX rd (r s.cur c) with pc := c.pc + 4 }) ∧
  (∀ (n : Nat) (r : Ctx → Dword) (w : Ctx → Dword → Ctx),
    (n, r, w) ∈ ([(0x802, fun c => c.ktvec, fun c v => { c with ktvec := v &&& ~~~ 1 }), (0x803, fun c => c.kepc, fun c v => { c with kepc := v &&& ~~~ 1 }),
      (0x805, fun c => c.cbound, fun c v => if c.cbase.toNat ≤ v.toNat ∧ v.toNat ≤ c.cceil.toNat then { c with cbound := v } else c),
      (0x800, fun c => c.kevent, fun c _ => c), (0x804, fun c => c.cbase, fun c _ => c), (0x806, fun c => c.cceil, fun c _ => c),
      (0x808, fun c => BitVec.ofNat 64 c.rank, fun c _ => c), (0x80A, fun c => BitVec.ofNat 64 c.hw, fun c _ => c)] :
      List (Nat × (Ctx → Dword) × (Ctx → Dword → Ctx))) →
    ∀ (imm : Bool) (rd src : Nat) (s : State) (c : Ctx), s.ctx s.cur = some c →
      let v := if imm then BitVec.ofNat 64 src else c.xr src
      let d := fun (u : Dword) => { (w c u).setX rd (r c) with pc := c.pc + 4 }
      CtxStep (.rvCsrAccess .rw imm n rd src) s s.cur (d v) ∧
      (src ≠ 0 → CtxStep (.rvCsrAccess .rs imm n rd src) s s.cur (d (r c ||| v)) ∧ CtxStep (.rvCsrAccess .rc imm n rd src) s s.cur (d (r c &&& ~~~ v)))) ∧
  (∀ (rd rs1 : Nat) (s : State) (c : Ctx), s.ctx s.cur = some c →
    (c.kstat < 2 ^ 13 → ∃ f, CtxStep (.rvCsrAccess .rw false 0x809 rd rs1) s s.cur { c.setX rd (BitVec.ofNat 64 c.kstat) with pc := c.pc + 4, kstat := f } ∧
      ∀ i, f.testBit i = (c.kstat.testBit i && !(c.xr rs1).getLsbD i)) ∧
    (c.mmode = true ∨ c.sysb = true →
      CtxStep (.rvCsrAccess .rw false 0x7C1 rd rs1) s s.cur
        { c.setX rd (BitVec.ofNat 64 c.mwdog) with
          pc := c.pc + 4, mwdog := if 20 ≤ (c.xr rs1).toNat ∧ (c.xr rs1).toNat ≤ 40 then (c.xr rs1).toNat else c.mwdog } ∧
      CtxStep (.rvCsrAccess .rw false 0x7C2 rd rs1) s s.cur
        { c.setX rd (if c.mpreq then 1 else 0) with pc := c.pc + 4, mpreq := c.mpreq || (c.xr rs1).getLsbD 0 })) ∧
  ∀ (op : CsrOp) (imm : Bool) (n rd src : Nat) (s : State) (c : Ctx), s.ctx s.cur = some c → 0x7C0 ≤ n → n ≤ 0x8FF →
    (¬(0x800 ≤ n ∧ n ≤ 0x80A) ∧ ¬(n ≤ 0x7C2) ∨ n ≤ 0x7C2 ∧ c.mmode = false ∧ c.sysb = false) →
    Traps (.rvCsrAccess op imm n rd src) s 2 (s.wordAt s.cur c)

/-- R187, R188, R191 and R192 (07), R25 (01), R405 (19): the steps that a controller's writes and a kernel's events make. A write of 1 to IE
waits for the next JALR, of 0 acts at once; PEND and kstat bits clear on ones; cbound takes a value in its range; mpreq requests. A recorded
event is delivered when IE = 1 and ktvec ≠ 0: kepc holds the pc, the pc goes to ktvec, IE, PEND and the reservation are cleared. KRES resumes
the stopped kernel of a lone SP and does nothing where none is stopped; KKILL ends the kernel of every member of the tower with CANCELLED. -/
def Obligations.ControllerStatusSteps : Prop :=
  ∀ (s : State) (k : Nat) (c : Ctx), s.ctx k = some c →
    CtxStep (.kstatusIeWrite k true) s k { c with ieWait := some true } ∧
    CtxStep (.kstatusIeWrite k false) s k { c with ie := false, ieWait := none } ∧
    CtxStep (.kstatusPendClear k) s k { c with pend := false } ∧
    (∀ mask : BitVec 13, c.kstat < 2 ^ 13 → ∃ f, CtxStep (.kstatClear k mask) s k { c with kstat := f } ∧ ∀ i, f.testBit i = (c.kstat.testBit i && !mask.getLsbD i)) ∧
    (∀ v : Dword, CtxStep (.cboundWrite k v) s k (if c.cbase.toNat ≤ v.toNat ∧ v.toNat ≤ c.cceil.toNat then { c with cbound := v } else c)) ∧
    CtxStep (.mpreqWrite k) s k { c with mpreq := true } ∧
    CtxStep (.keventDelivery k) s k
      (if c.pend = true ∧ c.ie = true ∧ c.ktvec ≠ 0 ∧ c.mmode = false then
        { c with kepc := c.pc, pc := c.ktvec, ie := false, pend := false, wait := none, resv := none } else c) ∧
    (c.stopped = false → exec (.kstatusKres k) s = .next s) ∧
    (c.stopped = true → s.issueGroup k = [k] → CtxStep (.kstatusKres k) s k
      { c with stopped := false, kres := false, kern := { c.kern with phase := if c.kern.phase = .stopped then .running else c.kern.phase, haltPoint := 0 } }) ∧
    ((s.tower k).Nodup → ∃ t, exec (.kstatusKkill k) s = .next t ∧ t = { s with sps := t.sps } ∧
      ∀ j, (j ∉ s.tower k → t.sp j = s.sp j) ∧
        ∀ d, j ∈ s.tower k → s.ctx j = some d → ∃ e, t.ctx j = some e ∧
          ((d.kern.phase = .running ∨ d.kern.phase = .stopped) →
            e.kern.phase = .ending ∧ e.kern.status = 2 ∧ e.stopped = false ∧ e.matrix.queue = [] ∧ e.kern.loops = [] ∧ e.kern.land.map (·.what) = d.kern.land.map (·.what)) ∧
          ((d.kern.phase = .idle ∨ d.kern.phase = .ending) → e = d))

/-- R131 (06) and RV64FD: an F or D operation completes for every valid rounding mode (7 names that of fcsr): the result of the exact operation,
rounded once, goes to its register, a single boxed in ones, its accrued flags join fcsr, and the pc moves on; an unboxed single reads as the
canonical NaN. FDIV and FSQRT hold issue for their twenty cycles, until which a request undoes them. A reserved mode in fcsr is an illegal instruction. -/
def Obligations.ControllerFloatingPoint : Prop :=
  (∀ (dbl : Bool) (rd rs1 rs2 rs3 rm mode : Nat) (s : State) (c : Ctx), s.ctx s.cur = some c →
    mode = (if rm = 7 then (c.fcsr.extractLsb' 5 3).toNat else rm) → mode < 5 →
    let f := if dbl then fmtF64 else fmtF32
    let bits := fun (n : Nat) => if dbl then (KMap.get 0 c.f n).toNat
      else if (KMap.get 0 c.f n).extractLsb' 32 32 = BitVec.allOnes 32 then ((KMap.get 0 c.f n).extractLsb' 0 32).toNat else f.qnan
    let x := f.decode (bits rs1); let y := f.decode (bits rs2); let z := f.decode (bits rs3)
    let box := fun (v : Nat) => if dbl then BitVec.ofNat 64 v else BitVec.allOnes 32 ++ BitVec.ofNat 32 v
    let toF := fun (r : Nat × Nat) => { c with f := KMap.ins rd (box r.1) c.f, fcsr := c.fcsr ||| BitVec.ofNat 32 (r.2 % 32), pc := c.pc + 4 }
    let toX := fun (r : Dword × Nat) => { c.setX rd r.1 with fcsr := c.fcsr ||| BitVec.ofNat 32 (r.2 % 32), pc := c.pc + 4 }
    (∀ (op : FOp) (r : Nat × Nat),
      (op, r) ∈ ([(.add, fAdd f mode false x y), (.sub, fAdd f mode false x y.negate), (.mul, fMul f mode false x y), (.madd, fFma f mode false x y z),
        (.msub, fFma f mode false x y z.negate), (.nmsub, fFma f mode false x.negate y z), (.nmadd, fFma f mode false x.negate y z.negate),
        (.cvtFW, f.ofVal mode false (Val.ofInt ((c.xr rs1).setWidth 32).toInt)), (.cvtFWu, f.ofVal mode false (Val.ofInt ((c.xr rs1).setWidth 32).toNat)),
        (.cvtFL, f.ofVal mode false (Val.ofInt (c.xr rs1).toInt)), (.cvtFLu, f.ofVal mode false (Val.ofInt (c.xr rs1).toNat))] : List (FOp × (Nat × Nat))) →
      CtxStep (.rvFloatOp op dbl rd rs1 rs2 rs3 rm) s s.cur (toF (r.1, fflagsOf r.2))) ∧
    (∀ (op : FOp) (neg : Bool), (op, neg) ∈ ([(.sgnj, f.sign (bits rs2)), (.sgnjn, !f.sign (bits rs2)), (.sgnjx, f.sign (bits rs1) ^^ f.sign (bits rs2))] :
        List (FOp × Bool)) →
      CtxStep (.rvFloatOp op dbl rd rs1 rs2 rs3 rm) s s.cur (toF (bits rs1 % 2 ^ (f.width - 1) + (if neg then 2 ^ (f.width - 1) else 0), 0))) ∧
    CtxStep (.rvFloatOp .mvFX dbl rd rs1 rs2 rs3 rm) s s.cur (toF ((c.xr rs1).toNat, 0)) ∧
    (∀ (op : FOp) (b : Bool) (fl : Nat),
      (op, b, fl) ∈ ([(.eq, valEq x y, if x.isSig || y.isSig then 16 else 0),
        (.lt, !x.isNan && !y.isNan && valLt x y, if x.isNan || y.isNan then 16 else 0),
        (.le, !x.isNan && !y.isNan && !valLt y x, if x.isNan || y.isNan then 16 else 0)] : List (FOp × Bool × Nat)) →
      CtxStep (.rvFloatOp op dbl rd rs1 rs2 rs3 rm) s s.cur (toX (if b then 1 else 0, fl))) ∧
    CtxStep (.rvFdivFsqrt false dbl rd rs1 rs2 rm) s s.cur { toF ((fDiv f mode false x y).1, fflagsOf (fDiv f mode false x y).2) with busy := 19, squash := some ⟨c.pc, c.x, c.f, c.fcsr⟩ } ∧
    CtxStep (.rvFdivFsqrt true dbl rd rs1 rs2 rm) s s.cur { toF ((fSqrt f mode false x).1, fflagsOf (fSqrt f mode false x).2) with busy := 19, squash := some ⟨c.pc, c.x, c.f, c.fcsr⟩ }) ∧
  ∀ (op : FOp) (sq dbl : Bool) (rd rs1 rs2 rs3 : Nat) (s : State) (c : Ctx), s.ctx s.cur = some c → 5 ≤ (c.fcsr.extractLsb' 5 3).toNat →
    Traps (.rvFloatOp op dbl rd rs1 rs2 rs3 7) s 2 (s.wordAt s.cur c) ∧ Traps (.rvFdivFsqrt sq dbl rd rs1 rs2 7) s 2 (s.wordAt s.cur c)

/-- R156 to R162 (07), R80 and R141 (03, 06): the polder and descriptor instructions. PALLOC with good arguments makes a pending polder at the lowest base
that is free (log 45: the lowest outside the space held by pre-empted contexts, and where there is none the lowest over that space), waits for its fill, and then retires with 0; a handle in use is BAD_HANDLE, no space NO_SPACE, bad arguments
BAD_ARG. PFREE waits while an entry names the handle, then frees it, and every descriptor that names it takes POLDER none. PINFO returns
valid, kind, log2 of the size and base. SDSET writes the low bits of rs1 to its field, SDGET returns a field, STRIDE and DST sign-extended, and SDCOPY copies every
field that may be written. -/
def Obligations.PolderAndDescriptorInstructions : Prop :=
  (∀ (rd rs1 : Nat) (s : State) (c : Ctx), s.ctx s.cur = some c →
    CtxStep (.pinfo rd rs1) s s.cur { c.setX rd (match c.polder ((c.xr rs1).toNat % 64) with
      | none => 0
      | some p => BitVec.ofNat 64 (2 ^ 63 + p.kind * 2 ^ 61 + p.log2 * 2 ^ 56 + p.base)) with pc := c.pc + 4, wait := none }) ∧
  (∀ (rd rs1 rs2 h kind log2 : Nat) (s : State) (c : Ctx), s.ctx s.cur = some c → c.wait = none → h < 64 → (c.xr rs1).toNat = h →
    (c.xr rs2).toNat = kind + 2 ^ 8 * log2 → kind < 3 → 12 ≤ log2 → log2 ≤ 22 →
    (∀ p, c.polder h = some p → p.pending = true → p.kind = kind → p.log2 = log2 → p.fill = 0 →
      Retires (.palloc rd rs1 rs2) s c rd 0 fun d => { d with polders := KMap.upd h (fun q => { q with pending := false }) d.polders }) ∧
    (∀ p, c.polder h = some p → p.pending = true → p.kind = kind → p.log2 = log2 → p.fill ≠ 0 → Waits (.palloc rd rs1 rs2) s c) ∧
    (∀ p, c.polder h = some p → (p.pending = false ∨ p.kind ≠ kind ∨ p.log2 ≠ log2) → Retires (.palloc rd rs1 rs2) s c rd 2 id) ∧
    (∀ own, own = c.polders.map (fun q => (q.2.base, 2 ^ q.2.log2 / 16)) → c.polder h = none →
      (∀ b, (LowestFree (2 ^ log2 / 16) b (own ++ (s.sp s.cur).victimRanges) ∨
          ((∀ b', ¬FreeBase (2 ^ log2 / 16) b' (own ++ (s.sp s.cur).victimRanges)) ∧ LowestFree (2 ^ log2 / 16) b own)) →
        ∃ p w, CtxStep (.palloc rd rs1 rs2) s s.cur { c with polders := KMap.ins h p c.polders, wait := some w } ∧
          p.kind = kind ∧ p.log2 = log2 ∧ p.base = b ∧ p.head = 0 ∧ p.tail = 0 ∧ p.eos = false ∧ p.pending = true ∧ p.fill = 2 ^ log2 / 1024) ∧
      ((∀ b, ¬FreeBase (2 ^ log2 / 16) b own) → Retires (.palloc rd rs1 rs2) s c rd 1 id))) ∧
  (∀ (rd rs1 rs2 : Nat) (s : State) (c : Ctx), s.ctx s.cur = some c →
    (64 ≤ (c.xr rs1).toNat ∨ (c.xr rs2).toNat % 4 = 3 ∨ (c.xr rs2).toNat / 2 ^ 8 < 12 ∨ 22 < (c.xr rs2).toNat / 2 ^ 8 ∨ (c.xr rs2).toNat / 4 % 64 ≠ 0) →
    Retires (.palloc rd rs1 rs2) s c rd 5 id) ∧
  (∀ (rd rs1 h : Nat) (s : State) (c : Ctx), s.ctx s.cur = some c → (c.xr rs1).toNat = h →
    ((64 ≤ h ∨ c.polder h = none) → Retires (.pfree rd rs1) s c rd 2 id) ∧
    (h < 64 → c.polder h ≠ none → (∀ e ∈ c.sb, e.freed = false → ∀ r ∈ e.reads ++ e.writes, r.handle ≠ h) →
      Retires (.pfree rd rs1) s c rd 0 fun d =>
        { d with polders := KMap.del h d.polders, descs := d.descs.map (fun e => (e.1, if e.2.polder = some h then { e.2 with polder := none } else e.2)) }) ∧
    (h < 64 → c.polder h ≠ none → c.wait = none → (∃ e ∈ c.sb, e.freed = false ∧ ∃ r ∈ e.reads ++ e.writes, r.handle = h) → Waits (.pfree rd rs1) s c)) ∧
  (∀ (sd rs1 field : Nat) (w : Desc → Nat → Desc),
    (field, w) ∈ ([(2, fun d v => { d with fmt := v % 2 ^ 4 }), (3, fun d v => { d with mfmt := v % 2 ^ 4 }), (4, fun d v => { d with recn := v % 2 ^ 16 }),
      (5, fun d v => { d with len := v % 2 ^ 32 }), (6, fun d v => { d with pos := v % 2 ^ 32 }), (7, fun d v => { d with base := v % 2 ^ 22 }),
      (8, fun d v => { d with stride := v % 2 ^ 48 }), (9, fun d v => { d with tile := v % 2 ^ 16 }), (10, fun d v => { d with scale := v % 2 ^ 32 }),
      (11, fun d v => { d with idx := v % 2 ^ 5 }), (12, fun d v => { d with red := v % 2 ^ 4 }), (13, fun d v => { d with dst := v % 2 ^ 48 })] :
      List (Nat × (Desc → Nat → Desc))) →
    ∀ (s : State) (c : Ctx), s.ctx s.cur = some c → ∃ t, exec (.sdset sd rs1 field) s = .next t ∧
      WithSp { s with ctr := s.ctr + 1 } s.cur { s.sp s.cur with
          ctx := some { c with descs := KMap.ins sd (w (KMap.get Desc.init c.descs sd) (c.xr rs1).toNat) c.descs, pc := c.pc + 4 } } t) ∧
  (∀ (rd ss field : Nat) (r : Ctx → Desc → Int),
    (field, r) ∈ ([(1, fun _ d => d.kind), (2, fun _ d => d.fmt), (3, fun _ d => d.mfmt), (4, fun _ d => d.recn), (5, fun _ d => d.len), (6, fun _ d => d.pos),
      (7, fun _ d => d.base), (8, fun _ d => (BitVec.ofNat 48 d.stride).toInt), (9, fun _ d => d.tile), (10, fun _ d => d.scale), (11, fun _ d => d.idx),
      (12, fun _ d => d.red), (13, fun _ d => (BitVec.ofNat 48 d.dst).toInt)] : List (Nat × (Ctx → Desc → Int))) →
    ∀ (s : State) (c : Ctx), s.ctx s.cur = some c → Retires (.sdget rd ss field) s c rd (BitVec.ofInt 64 (r c (KMap.get Desc.init c.descs ss))) id) ∧
  ∀ (sd ss : Nat) (s : State) (c : Ctx), s.ctx s.cur = some c →
    ∃ d, CtxStep (.sdcopy sd ss) s s.cur { c with descs := KMap.ins sd d c.descs, pc := c.pc + 4 } ∧
      d = { KMap.get Desc.init c.descs ss with kind := d.kind } ∧
      ∀ h p, (KMap.get Desc.init c.descs ss).polder = some h → c.polder h = some p → d.kind = p.kind

/-- R160 and R113 (07, 04): SDSET of KIND, HEAD, TAIL or a field above EOS, and SDGET of a field above EOS, are illegal instructions; SDSET of POLDER
names a handle, or none with bit 6 set, and takes its kind; EOS closes a queue at once where no older entry writes its tail, and
reopens it with 0; while an older one does, the queue keeps the mark, and EOS_CLOSE closes it once no entry older than the marking SDSET writes the tail. -/
def Obligations.DescriptorFieldRules : Prop :=
  (∀ (sd rs1 field : Nat) (s : State) (c : Ctx), s.ctx s.cur = some c → (field = 1 ∨ field = 14 ∨ field = 15 ∨ 16 < field) →
    Traps (.sdset sd rs1 field) s 2 (s.wordAt s.cur c)) ∧
  (∀ (rd ss field : Nat) (s : State) (c : Ctx), s.ctx s.cur = some c → 16 < field → Traps (.sdget rd ss field) s 2 (s.wordAt s.cur c)) ∧
  (∀ (sd rs1 : Nat) (s : State) (c : Ctx), s.ctx s.cur = some c → ∃ t d, exec (.sdset sd rs1 0) s = .next t ∧
    WithSp { s with ctr := s.ctr + 1 } s.cur { s.sp s.cur with ctx := some { c with descs := KMap.ins sd d c.descs, pc := c.pc + 4 } } t ∧
    d.polder = (if (c.xr rs1).getLsbD 6 then none else some ((c.xr rs1).toNat % 64)) ∧ d.len = (KMap.get Desc.init c.descs sd).len ∧
    ∀ p, (c.xr rs1).getLsbD 6 = false → c.polder ((c.xr rs1).toNat % 64) = some p → d.kind = p.kind) ∧
  ∀ (sd rs1 h : Nat) (q : Polder) (s : State) (c : Ctx), s.ctx s.cur = some c → (KMap.get Desc.init c.descs sd).polder = some h → c.polder h = some q →
    q.kind = 2 →
    (∃ t d, exec (.sdset sd rs1 16) s = .next t ∧ t.ctx s.cur = some d ∧ d.pc = c.pc + 4 ∧ d.descs = c.descs ∧ (∀ g, g ≠ h → d.polder g = c.polder g) ∧
      d.polder h = some (
        if (c.xr rs1).getLsbD 0 = false then { q with eos := false, eosReq := none }
        else if ∀ e ∈ c.sb, e.freed = false → e.seq < c.seq → SetR.tail h ∉ e.writes then { q with eos := true, eosReq := none }
        else { q with eosReq := some (q.eosReq.getD c.seq) })) ∧
    CtxStep (.eosClose s.cur h) s s.cur { c with
      polders := KMap.upd h (fun p => if p.eosReq.any fun n => decide (∀ e ∈ c.sb, e.freed = false → e.seq < n → SetR.tail h ∉ e.writes)
        then { p with eos := true, eosReq := none } else p) c.polders }

/-- R154, R165, R166, R178 to R183 (07), R365 and R366 (14), R390 (15): the instructions that may wait. AWINIT sets the target of an arrival word and clears its count and
status; AWAIT returns the status once the generation has reached the expected value, and waits before that; FENCEX waits for the entries of the classes of its mask, SWAIT for
those that name a handle or for all; SBAR and GSYNC arrive once at the dike of a group of which the SP is a member, wait, and retire when it has been released, with
NOT_MEMBER for other groups; ACQ of a sync object without holder is granted, behind an exclusive holder it waits in order, and BUSY answers a second one; REL gives the hold
up, and is NOT_HELD without one; TACQ takes a token that is at home, joins the queue of one that is held, and TREL gives it up, and TACQ waits while the token table's page has not come from the source of a migration; a wait that is tried again retires once its
condition holds, and a TACQ whose limit has passed withdraws with TIMEOUT. Every other part of the machine stands as it was, where the clause names the whole next state. -/
def Obligations.WaitingInstructions : Prop :=
  (∀ (rd rs1 rs2 h o : Nat) (p : Polder) (s : State) (c : Ctx), s.ctx s.cur = some c → c.polder h = some p → h < 64 → o < 2 ^ 22 → o % 16 = 0 →
    (c.xr rs1).toNat = h * 2 ^ 22 + o →
    ((∀ e ∈ c.sb, e.freed = true) → (c.xr rs2).toNat < 2 ^ 32 →
      SpStep (.awinit rd rs1 rs2) s s.cur { s.sp s.cur with
        ctx := some { c.setX rd 0 with pc := c.pc + 4, wait := none },
        srf := polWrite (s.sp s.cur).srf p o (toBytes 16 ((c.xr rs2).toNat + polNum (s.sp s.cur).srf p o 16 / 2 ^ 64 % 2 ^ 32 * 2 ^ 64)) }) ∧
    ((polNum (s.sp s.cur).srf p o 16 / 2 ^ 64 % 2 ^ 32 + 2 ^ 32 - (c.xr rs2).toNat % 2 ^ 32) % 2 ^ 32 < 2 ^ 31 →
      Retires (.await rd rs1 rs2) s c rd (BitVec.ofNat 64 (polNum (s.sp s.cur).srf p o 16 / 2 ^ 96 % 2 ^ 32)) id) ∧
    (2 ^ 31 ≤ (polNum (s.sp s.cur).srf p o 16 / 2 ^ 64 % 2 ^ 32 + 2 ^ 32 - (c.xr rs2).toNat % 2 ^ 32) % 2 ^ 32 → Waits (.await rd rs1 rs2) s c)) ∧
  (∀ (rd rs1 : Nat) (s : State) (c : Ctx), s.ctx s.cur = some c →
    (64 ≤ (c.xr rs1).toNat → Retires (.fencex rd rs1) s c rd 5 id) ∧
    ((c.xr rs1).toNat < 64 → (∀ e ∈ c.sb, e.kcopy = none → (c.xr rs1).getLsbD e.cls = false) → Retires (.fencex rd rs1) s c rd 0 id) ∧
    ((c.xr rs1).toNat < 64 → (∃ e ∈ c.sb, e.kcopy = none ∧ e.cls < 4 ∧ (c.xr rs1).getLsbD e.cls = true) → Waits (.fencex rd rs1) s c) ∧
    (128 ≤ (c.xr rs1).toNat → Retires (.swait rd rs1) s c rd 5 id) ∧
    ((c.xr rs1).toNat < 64 → (∀ e ∈ c.sb, e.freed = false → ∀ r ∈ e.reads ++ e.writes, r.handle ≠ (c.xr rs1).toNat) → Retires (.swait rd rs1) s c rd 0 id) ∧
    ((c.xr rs1).toNat < 128 → (∀ e ∈ c.sb, e.freed = true) → Retires (.swait rd rs1) s c rd 0 id) ∧
    ((c.xr rs1).toNat < 64 → (∃ e ∈ c.sb, e.freed = false ∧ ∃ r ∈ e.reads ++ e.writes, r.handle = (c.xr rs1).toNat) → Waits (.swait rd rs1) s c)) ∧
  (∀ (i : Nat → Nat → Instr) (rd rs1 : Nat) (s : State) (c : Ctx), i ∈ [Instr.sbar, .gsync] → s.ctx s.cur = some c →
    ((s.sp s.cur).groupMap ((c.xr rs1).toNat % 256) = none → Retires (i rd rs1) s c rd 7 id) ∧
    (∀ e port, (s.sp s.cur).groupMap ((c.xr rs1).toNat % 256) = some (e, port) →
      (KMap.find e c.sbar = some 2 → Retires (i rd rs1) s c rd 0 fun d => { d with sbar := KMap.del e d.sbar }) ∧
      (KMap.find e c.sbar = none → c.sb = [] → ∃ t w, exec (i rd rs1) s = .next t ∧ t.ctx s.cur = some { c with sbar := KMap.ins e 1 c.sbar, wait := some w } ∧
        ∀ p g, s.part (s.partOf c) = some p → KMap.find e p.groups = some g → s.cur ∉ g.arrived →
          ∃ q, t.part (s.partOf c) = some q ∧ KMap.find e q.groups = some { g with
            arrived := g.arrived ++ [s.cur], last := s.now, full := decide (∀ m ∈ g.members, m ∈ g.arrived ++ [s.cur]) }))) ∧
  (∀ (rd rs1 rs2 obj : Nat) (s : State) (c : Ctx) (p : Part) (l : Launch) (g : Segment), s.ctx s.cur = some c → s.part (s.partOf c) = some p →
    s.launchOf c.launch = some l → g ∈ l.segs → g.sync = obj → obj < 0xFFFF → (c.xr rs1).toNat = obj → (c.xr rs2).toNat < 8 →
    (p.syncOf c.launch obj = ([], []) → ∃ t q, exec (.acq rd rs1 rs2) s = .next t ∧ t.ctx s.cur = some { c.setX rd 0 with pc := c.pc + 4, wait := none } ∧
      t.part (s.partOf c) = some q ∧ q.syncOf c.launch obj = ([(s.cur, (c.xr rs2).getLsbD 0)], [])) ∧
    (∀ j, j ≠ s.cur → p.syncOf c.launch obj = ([(j, false)], []) → ∃ t q w, exec (.acq rd rs1 rs2) s = .next t ∧ t.ctx s.cur = some { c with wait := some w } ∧
      t.part (s.partOf c) = some q ∧ q.syncOf c.launch obj = ([(j, false)], [(s.cur, (c.xr rs2).getLsbD 0)])) ∧
    (∀ b ws, p.syncOf c.launch obj = ([(s.cur, b)], ws) → Retires (.acq rd rs1 rs2) s c rd 10 id) ∧
    (∀ b, p.syncOf c.launch obj = ([(s.cur, b)], []) → c.sb = [] → s.accs = [] → ∃ t q, exec (.rel rd rs1) s = .next t ∧
      t.ctx s.cur = some { c.setX rd 0 with pc := c.pc + 4, wait := none } ∧ t.part (s.partOf c) = some q ∧ q.syncOf c.launch obj = ([], [])) ∧
    (p.syncOf c.launch obj = ([], []) → Retires (.rel rd rs1) s c rd 9 id)) ∧
  (∀ (rd rs1 rs2 : Nat) (s : State) (c : Ctx), s.ctx s.cur = some c → s.tokIa c (c.xr rs1) = none →
    Retires (.tacq rd rs1 rs2) s c rd 5 id ∧ Retires (.trel rd rs1) s c rd 5 id) ∧
  (∀ (rd rs1 rs2 ia : Nat) (s : State) (c : Ctx) (p : Part) (e : TokEntry), s.ctx s.cur = some c → s.tokIa c (c.xr rs1) = some ia → iaWindow ia = 0 →
    s.part (s.partOf c) = some p → s.tokEntry p (ia / 2 ^ 21) = some e →
    (KMap.find (ia / 2 ^ 21) c.tokens = some 1 → Retires (.tacq rd rs1 rs2) s c rd 0 id) ∧
    (KMap.find (ia / 2 ^ 21) c.tokens = none → Retires (.trel rd rs1) s c rd 9 id) ∧
    (KMap.find (ia / 2 ^ 21) c.tokens = none → (p.tokAbsent (ia / 2 ^ 21)).isSome = true →
      ∃ t d, exec (.tacq rd rs1 rs2) s = .next t ∧ t.ctx s.cur = some d ∧ d.pc = c.pc ∧ d.x = c.x ∧ d.wait.isSome = true) ∧
    (p.tokAbsent (ia / 2 ^ 21) = none →
    (KMap.find (ia / 2 ^ 21) c.tokens = none → e.held = false → ∃ t, exec (.tacq rd rs1 rs2) s = .next t ∧
      WithSp (s.tokSet e (some (s.tokName c))) s.cur { s.sp s.cur with
        ctx := some { c.setX rd 0 with tokens := KMap.ins (ia / 2 ^ 21) 1 c.tokens, pc := c.pc + 4, wait := none } } t) ∧
    (KMap.find (ia / 2 ^ 21) c.tokens = none → e.held = true → (e.rank ≠ c.rank ∨ e.launch ≠ c.launch) → p.tokWait = [] → ∃ t d, exec (.tacq rd rs1 rs2) s = .next t ∧
      t.part (s.partOf c) = some { p with tokWait := [⟨s.dev.pkg, c.launch, c.rank, s.partOf c, ia / 2 ^ 21, s.cur⟩] } ∧
      t.ctx s.cur = some d ∧ d.pc = c.pc ∧ d.x = c.x ∧ d.wait.isSome = true) ∧
    (KMap.find (ia / 2 ^ 21) c.tokens = some 1 → e.held = true → e.rank = c.rank → e.launch = c.launch → (∀ w ∈ p.tokWait, w.region ≠ ia / 2 ^ 21) → c.sb = [] → s.accs = [] →
      ∃ t, exec (.trel rd rs1) s = .next t ∧ WithSp (s.tokSet e none) s.cur { s.sp s.cur with
        ctx := some { c.setX rd 0 with tokens := KMap.del (ia / 2 ^ 21) c.tokens, pc := c.pc + 4, wait := none } } t))) ∧
  (∀ (k rd rs1 : Nat) (s : State) (c : Ctx) (w : Wait), s.ctx k = some c → c.wait = some w → w.instr = .fencex rd rs1 → w.rs1.toNat < 64 →
    (∀ e ∈ c.sb, e.kcopy = none → w.rs1.getLsbD e.cls = false) → CtxStep (.controllerWaitEnd k) s k { c.setX rd 0 with pc := c.pc + 4, wait := none }) ∧
  ∀ (k rd a b tm ia : Nat) (s : State) (c : Ctx) (w : Wait), s.ctx k = some c → c.wait = some w → w.instr = .tacq rd a b → w.limit = some tm → tm ≤ s.now →
    s.tokIa c w.rs1 = some ia → iaWindow ia = 0 → ∃ t, exec (.tacqTimeout k) s = .next t ∧
      WithSp (s.tokWithdraw (s.partOf c) (ia / 2 ^ 21) (s.tokName c)) k { s.sp k with
        ctx := some { c.setX rd 8 with tokens := KMap.del (ia / 2 ^ 21) c.tokens, pc := c.pc + 4, wait := none } } t

/-- R171, R184 to R186 (07), R64 to R68 (02): tasks and status. SPAWN puts a task with the weight of TSPLIT, else half of the held weight, at the end of the pool of a group,
after a reseed where the held weight is 1, and is NOT_MEMBER or POOL_FULL otherwise; TSPLIT keeps the weight of the next child if it lies from 1 to the held weight less 1;
TRESEED raises the held weight and the launch's total by 2^32. TEXIT waits while an entry stands; then the SP is idle, the weight has come home, and the launch ends
with cause OK once all of it has. An idle SP takes the oldest task of its group, with the registers of R55. SYIELD takes a requested pre-emption. SSTAT returns the
quantity that rs1 names. SPREF notes a hint, of an address below 2^48 and a length that is not 0, and has no other effect. -/
def Obligations.TaskInstructions : Prop :=
  (∀ (rd rs1 rs2 e g n port : Nat) (s : State) (c : Ctx) (o : Code) (p : Part) (q : Group), s.ctx s.cur = some c → s.codeOfCtx c = some o →
    (c.xr rs1).toNat = e + 2 ^ 32 * g → g < 256 → e < 2 ^ 32 → e % 2 = 0 → e < o.ctrl.length → (c.xr rs2).toNat % 8 = 0 → (c.xr rs2).toNat < 0x38000 →
    ((s.sp s.cur).groupMap g = none → Retires (.spawn rd rs1 rs2) s c rd 7 id) ∧
    ((s.sp s.cur).groupMap g = some (n, port) → s.part (s.partOf c) = some p → KMap.find n p.groups = some q →
      (4096 ≤ q.pool.length → Retires (.spawn rd rs1 rs2) s c rd 6 id) ∧
      (q.pool.length < 4096 → ∀ hw w, hw = (if c.hw = 1 then 1 + 2 ^ 32 else c.hw) → w = c.split.getD (hw / 2) →
        ∃ t p', exec (.spawn rd rs1 rs2) s = .next t ∧ t.ctx s.cur = some { c.setX rd 0 with hw := hw - w, split := none, pc := c.pc + 4, wait := none } ∧
          t.part (s.partOf c) = some p' ∧ KMap.find n p'.groups = some { q with pool := q.pool ++ [(e, bytesRead (s.sp s.cur).cm (c.xr rs2).toNat 32, w)] } ∧
          t.launchOf c.launch = (s.launchOf c.launch).map fun l => if c.hw = 1 then { l with t := l.t + 2 ^ 32 } else l))) ∧
  (∀ (rd rs1 : Nat) (s : State) (c : Ctx), s.ctx s.cur = some c →
    (1 ≤ (c.xr rs1).toNat → (c.xr rs1).toNat + 1 ≤ c.hw → Retires (.tsplit rd rs1) s c rd 0 fun d => { d with split := some (c.xr rs1).toNat }) ∧
    (((c.xr rs1).toNat = 0 ∨ c.hw ≤ (c.xr rs1).toNat) → Retires (.tsplit rd rs1) s c rd 5 id)) ∧
  (∀ (rd : Nat) (s : State) (c : Ctx), s.ctx s.cur = some c →
    (2 ^ 63 ≤ c.hw → Retires (.treseed rd) s c rd 5 id) ∧
    (c.hw < 2 ^ 63 → ∃ t, exec (.treseed rd) s = .next t ∧ t.ctx s.cur = some { c.setX rd 0 with hw := c.hw + 2 ^ 32, pc := c.pc + 4, wait := none } ∧
      t.launchOf c.launch = (s.launchOf c.launch).map fun l => { l with t := l.t + 2 ^ 32 })) ∧
  (∀ (s : State) (c : Ctx), s.ctx s.cur = some c →
    ((∃ e ∈ c.sb, e.freed = false) → Waits .texit s c) ∧
    (∀ l, c.sb = [] → s.accs = [] → s.launchOf c.launch = some l → l.cause = none → ∃ t m, exec .texit s = .next t ∧
      t.sp s.cur = { s.sp s.cur with
        ctx := none, left := some { c with wait := none }, idle := true, victims := (t.sp s.cur).victims } ∧
      t.launchOf c.launch = some m ∧ m.ret = l.ret + c.hw ∧ m.t = l.t ∧
      (l.ret + c.hw ≠ l.t → m.cause = none ∧ m.state = l.state ∧ (t.sp s.cur).victims = (s.sp s.cur).victims ∧ ∀ j, j ≠ s.cur → t.sp j = s.sp j) ∧
      (l.ret + c.hw = l.t → m.cause = some 0 ∧ m.state = 2))) ∧
  (∀ (part k n port : Nat) (s : State) (p : Part) (l : Launch) (o : Code) (d : Ctx) (g : Group) (r : Nat × List Byte × Nat) (rest : List (Nat × List Byte × Nat)),
    s.part part = some p → p.migr.role = 0 → p.sps = [k] → k < 160 → (s.sp k).idle = true → s.ctx k = none → (s.sp k).left = some d → (s.sp k).fused = false →
    (s.sp k).victims = [] → (s.sp k).held = some l.id → s.launchOf l.id = some l → l.state = 1 → s.codeOf l = some o → port = 0 → KMap.find port (s.sp k).dikes = some n →
    KMap.find n p.groups = some g → g.launch = l.id → g.pool = r :: rest →
    ∃ t c p', exec (.taskTake part) s = .next t ∧ t = { s with sps := t.sps, parts := t.parts } ∧ (∀ j, j ≠ k → t.sp j = s.sp j) ∧ t.ctx k = some c ∧
      (t.sp k).idle = false ∧ c.launch = l.id ∧ c.rank = d.rank ∧ c.pc = BitVec.ofNat 64 r.1 ∧ c.hw = r.2.2 ∧ c.task = r.2.1 ∧ c.polders = d.polders ∧ c.mmode = false ∧
      c.xr 2 = 0x38000 ∧ c.xr 10 = BitVec.ofNat 64 d.rank ∧ c.xr 11 = BitVec.ofNat 64 l.count ∧ c.xr 12 = 0x38000 ∧ c.xr 13 = 0x38060 ∧
      (∀ n, n ∉ [2, 10, 11, 12, 13] → c.xr n = 0) ∧ (∀ i b, r.2.1[i]? = some b → cmByte (t.sp k).cm (0x38060 + i) = b) ∧
      t.part part = some p' ∧ KMap.find n p'.groups = some { g with pool := rest }) ∧
  (∀ (rd : Nat) (s : State) (c : Ctx), s.ctx s.cur = some c →
    (c.mpreq = false → Retires (.syield rd) s c rd 0 id) ∧
    ((c.preempt ≠ none) → Retires (.syield rd) s c rd 0 id) ∧
    (c.mpreq = true → c.preempt = none → c.squash = none → Retires (.syield rd) s c rd 0 fun d => { d with preempt := some 0, busy := 0, resv := none })) ∧
  (∀ (rd rs1 : Nat) (s : State) (c : Ctx), s.ctx s.cur = some c →
    ((c.xr rs1).toNat = 0 → Retires (.sstat rd rs1) s c rd (BitVec.ofNat 64 (c.sb.filter fun e => !e.freed).length) id) ∧
    ((c.xr rs1).toNat = 1 → c.stopped = true → Retires (.sstat rd rs1) s c rd 2 id) ∧
    ((c.xr rs1).toNat = 1 → c.stopped = false → (∀ e ∈ c.sb, e.cls ≠ 1) → Retires (.sstat rd rs1) s c rd 0 id) ∧
    ((c.xr rs1).toNat = 2 → c.spire.phase < 4 → Retires (.sstat rd rs1) s c rd (BitVec.ofNat 64 c.spire.phase) id) ∧
    (∀ n, n < 8 → (c.xr rs1).toNat = 8 + n → ∀ t, t = KMap.get Stage.init c.stages n → Retires (.sstat rd rs1) s c rd (BitVec.ofNat 64
      (t.remaining + t.age * 2 ^ 16 + (if t.suspended.isSome then 2 ^ 24 else 0) + (if t.finished then 2 ^ 25 else 0) + (if t.declared then 2 ^ 26 else 0))) id) ∧
    ((2 < (c.xr rs1).toNat ∧ (c.xr rs1).toNat < 8 ∨ 16 ≤ (c.xr rs1).toNat) → Retires (.sstat rd rs1) s c rd 0 id)) ∧
  ∀ (rs1 rs2 : Nat) (s : State) (c : Ctx), s.ctx s.cur = some c → SpStep (.spref rs1 rs2) s s.cur { s.sp s.cur with
    ctx := some { c with pc := c.pc + 4 },
    hints := (s.sp s.cur).hints ++ if (c.xr rs1).toNat < 2 ^ 48 ∧ (c.xr rs2).toNat % 2 ^ 32 ≠ 0 then [(c.launch, (c.xr rs1).toNat, (c.xr rs2).toNat % 2 ^ 32)] else [] }

/-- R134 to R136 and R150 (06), R153, R161, R163, R167 to R170 and R172 to R177 (07), R333 and R334 (13): every command of the scoreboard completes. It stalls while 64 entries
are in use or reserved; where a condition of its rule applies, rd holds the code of the first, in the order of R153, and it takes no entry; where none does, it becomes the
youngest entry, of its engine class, with its operands and the SRF ranges that it reads and writes, and rd = 0. MLOAD is illegal outside system launches. KSTAGE declares
or clears a stage at once. KHALT marks the commands that wait, so that they complete on issue, and halts the one that runs: a kernel at its next YIELD, a pipeline at its
activation's END, a sweep after the iterations that have started; one that has issued and not begun completes HALTED. -/
def Obligations.CommandsEnterTheScoreboard : Prop :=
  (∀ (i : Nat → Nat → Nat → Nat → Instr) (k : CopyKind) (ix : Bool), (i, k, ix) ∈ ([(Instr.sload, .load, false), (.sstore, .store, false), (.sgather, .load, true),
      (.sscatter, .store, true), (.sscadd, .reduce, true), (.scopy, .mem, false)] : List ((Nat → Nat → Nat → Nat → Instr) × CopyKind × Bool)) → ∀ rd sd rs1 rs2 : Nat,
    Enters (i rd sd rs1 rs2) rd 0 (fun c => c.xr rs1) (fun c => c.xr rs2)
      (fun _ c => [(∃ d x, d = c.descNo sd ∧ x = c.descNo (d.idx % 16) ∧
          (Refused c true true d ∨ d.idx / 16 % 2 ≠ (if ix then 1 else 0) ∨ (ix = true ∧ (Refused c true true x ∨ x.fmt ∉ [4, 5, 6, 7] ∨ x.len < d.len)) ∨
            (k = .mem ∧ d.fmt ≠ d.mfmt) ∨
            (k = .reduce ∧ (d.red, d.mfmt) ∉ ([(0, 10), (1, 9), (2, 4), (2, 5), (3, 6), (3, 7), (4, 10), (5, 10), (6, 4), (6, 5), (7, 4), (7, 5)] : List (Nat × Nat)) ∧
              ¬(8 ≤ d.red ∧ d.red ≤ 10 ∧ d.mfmt < 8))), 3),
        (BadRef c false (c.xr rs2), 4)])
      (fun c => (copyCommand k sd ix (c.xr rs2) c).sets)) ∧
  (∀ (i : Nat → Nat → Nat → Nat → Instr) (op : Nat), (i, op) ∈ ([(Instr.satomAdd, 0), (.satomSwap, 1), (.satomCas, 2), (.satomMin, 3), (.satomMax, 4), (.satomAnd, 5),
      (.satomOr, 6)] : List ((Nat → Nat → Nat → Nat → Instr) × Nat)) → ∀ rd sd rs1 rs2 : Nat,
    Enters (i rd sd rs1 rs2) rd 0 (fun c => c.xr rs1) (fun c => c.xr rs2)
      (fun _ c => [((c.xr rs2).toNat / 2 ^ 32 % 4 = 0 ∨ 4 < (c.xr rs2).toNat / 2 ^ 34 % 8 ∨ (c.xr rs1).toNat % max 1 (fmtBytes (c.descNo sd).mfmt) ≠ 0, 5),
        (Refused c true true (c.descNo sd) ∨ (c.descNo sd).fmt ≠ (c.descNo sd).mfmt ∨
          ((c.descNo sd).mfmt ∉ [4, 5, 6, 7] ∧ ¬((c.descNo sd).mfmt = 10 ∧ op < 5)), 3),
        (BadRef c true (c.xr rs2), 4)])
      (fun c => (copyCommand (.satom op) sd false (c.xr rs2) c).sets)) ∧
  (∀ rd rs1 rs2 : Nat, Enters (.krun rd rs1 rs2) rd 1 (fun c => c.xr rs1) (fun c => c.xr rs2)
    (fun s c => [((∀ o, s.codeOfCtx c = some o → o.ktab.length ≤ (c.xr rs1).toNat % 2 ^ 8) ∨ (c.xr rs1).toNat / 2 ^ 8 % 2 ^ 8 ≠ 0 ∨ (c.xr rs1).toNat / 2 ^ 48 ≠ 0, 5),
      (∃ n, n < 16 ∧ ((c.xr rs1).getLsbD (16 + n) = true ∨ (c.xr rs1).getLsbD (32 + n) = true) ∧ Refused c false false (c.descNo n), 3), (BadRef c false (c.xr rs2), 4)])
    (fun c => (krunCommand (c.xr rs1) (c.xr rs2) c).sets)) ∧
  (∀ rd rs1 rs2 : Nat, Enters (.kpipe rd rs1 rs2) rd 1 (fun c => c.xr rs1) (fun c => c.xr rs2)
    (fun _ c => [((c.xr rs1).toNat % 2 ^ 16 ≠ 0 ∨ (c.xr rs1).toNat / 2 ^ 48 ≠ 0, 5),
      (∃ n, n < 16 ∧ ((c.xr rs1).getLsbD (16 + n) = true ∨ (c.xr rs1).getLsbD (32 + n) = true) ∧ Refused c false false (c.descNo n), 3), (BadRef c false (c.xr rs2), 4)])
    (fun c => (kpipeCommand (c.xr rs1) (c.xr rs2) c).sets)) ∧
  (∀ (i : Nat → Nat → Nat → Instr) (op : Nat) (xs : List Nat), (i, op, xs) ∈ ([(Instr.svadd, 0, [0, 1, 2]), (.svmul, 1, [0, 1, 2]), (.svfma, 2, [0, 1, 2, 3]), (.svcvt, 3, [0, 1]),
      (.svscale, 4, [0, 1]), (.svmax, 5, [0, 1, 2]), (.svmin, 6, [0, 1, 2]), (.svcopy, 7, [0, 1]), (.svfill, 8, [0])] : List ((Nat → Nat → Nat → Instr) × Nat × List Nat)) →
    ∀ rd rs1 rs2 : Nat, Enters (i rd rs1 rs2) rd 1 (fun c => c.xr rs1) (fun c => c.xr rs2)
      (fun _ c => [((c.xr rs1).toNat / 2 ^ 28 % 2 ^ 4 ≠ 0 ∨ (c.xr rs1).getLsbD 35 = true ∨ (c.xr rs1).toNat / 2 ^ 38 % 2 ^ 10 ≠ 0 ∨ (c.xr rs1).toNat / 2 ^ 32 % 8 = 7 ∨
          (op = 4 ∧ (c.xr rs1).toNat / 2 ^ 32 % 8 < 4) ∨
          (∃ x ∈ xs, (c.descNo ((c.xr rs1).toNat / 2 ^ (4 * x) % 16)).base % 128 ≠ 0 ∨ (c.xr rs2).toNat / 2 ^ (16 * x) % 128 ≠ 0), 5),
        (∃ x ∈ xs, Refused c false false (c.descNo ((c.xr rs1).toNat / 2 ^ (4 * x) % 16)), 3)])
      (fun c => (sweepCommand op (c.xr rs1) (c.xr rs2) c).sets)) ∧
  (∀ rd rs1 rs2 : Nat, Enters (.spmerge rd rs1 rs2) rd 2 (fun c => c.xr rs1) (fun c => c.xr rs2)
    (fun s c => [(∃ pa form ty, pa = (c.xr rs1).toNat / 2 ^ 32 % 2 ^ 18 ∧ form = (c.xr rs1).toNat / 2 ^ 20 % 4 ∧ ty = (c.xr rs1).toNat / 2 ^ 22 % 4 ∧
        ((c.xr rs1).toNat / 2 ^ 26 % 2 ^ 6 ≠ 0 ∨ (c.xr rs1).toNat / 2 ^ 50 ≠ 0 ∨ 2 ≤ form ∨ ty = 3 ∨ pa % 64 ≠ 0 ∨ 0x38000 < pa + 64 ∨
          (c.xr rs1).getLsbD ((c.xr rs1).toNat / 2 ^ 16 % 16) = true ∨ ((c.xr rs1).getLsbD 24 = true ∧ c.profile11 = false) ∨
          blockBad (bytesRead (s.sp s.cur).cm pa 64) (form = 0) (ty = 1) = true), 5),
      ((∃ n, n < 16 ∧ (c.xr rs1).getLsbD n = true ∧ ((c.descNo n).fmt ≠ 7 ∨ (c.descNo n).recn ≠ 2 ∨ (c.descNo n).scale ≠ 0 ∨ Refused c false false (c.descNo n))) ∨
        ¬∃ p, (c.descNo ((c.xr rs1).toNat / 2 ^ 16 % 16)).polder.bind c.polder = some p ∧ p.kind = 0, 3),
      (BadRef c false (c.xr rs2), 4)])
    (fun c => (spmergeCommand [] (c.xr rs1) (c.xr rs2) c).sets)) ∧
  (∀ rd rs2 : Nat, Enters (.spdrain rd rs2) rd 2 (fun _ => 0) (fun c => c.xr rs2) (fun _ c => [(BadRef c false (c.xr rs2), 4)])
    (fun c => joinSets [(c.openOut.map (wholeSet c)).getD ([], []), awSet c (c.xr rs2)])) ∧
  (∀ (rd rs1 rs2 : Nat) (s : State) (c : Ctx), s.ctx s.cur = some c →
    (c.sysb = false → c.mmode = false → Traps (.mload rd rs1 rs2) s 2 (s.wordAt s.cur c)) ∧
    ((c.sysb = true ∨ c.mmode = true) → c.used + c.recent.sum < 64 → ∀ n,
      FirstOf [(2 ^ 20 ≤ (c.xr rs2).toNat ∨ (c.xr rs1).toNat % 8 ≠ 0, 5),
        (4096 < (s.sp s.cur).usedWords + c.loadingWords + (c.xr rs2).toNat / 2 ^ 8 % 2 ^ 12 + 1, 1)] n →
      (n ≠ 0 → Retires (.mload rd rs1 rs2) s c rd (BitVec.ofNat 64 n) fun d => { d with used := d.used + 1 }) ∧
      (n = 0 → ∃ e, Retires (.mload rd rs1 rs2) s c rd 0 (fun d => { d with sb := d.sb ++ [e], seq := d.seq + 1, used := d.used + 1 }) ∧
        e.cls = 3 ∧ e.instr = .mload rd rs1 rs2 ∧ e.rs1 = c.xr rs1 ∧ e.rs2 = c.xr rs2 ∧ e.seq = c.seq ∧ e.state = .waiting ∧ e.reads = [] ∧ e.writes = []))) ∧
  (∀ (rd rs1 rs2 : Nat) (s : State) (c : Ctx) (n : Nat), s.ctx s.cur = some c →
    FirstOf [(if (c.xr rs1).getLsbD 63 then (c.xr rs1).toNat % 2 ^ 63 / 2 ^ 11 ≠ 0 ∨ (c.xr rs1).toNat % 2 ^ 8 ≠ 0 ∨ c.xr rs2 ≠ 0
        else (c.xr rs1).getLsbD 11 = true ∨ (c.xr rs1).getLsbD 15 = true ∨ (c.xr rs1).toNat / 2 ^ 28 % 2 ^ 4 ≠ 0 ∨ (c.xr rs1).toNat / 2 ^ 48 ≠ 0 ∨ (c.xr rs2).getLsbD 19 = true ∨
          (c.xr rs2).toNat / 2 ^ 39 ≠ 0 ∨ 4 < (c.xr rs2).toNat / 2 ^ 16 % 8 ∨ 4 < (c.xr rs2).toNat / 2 ^ 36 % 8 ∨
          ∀ o, s.codeOfCtx c = some o → o.ktab.length ≤ (c.xr rs1).toNat % 2 ^ 8, 5),
      ((c.xr rs1).getLsbD 63 = false ∧ ∃ j, j < (c.xr rs2).toNat / 2 ^ 16 % 8 ∧
        ¬∃ p, (c.descNo ((c.xr rs2).toNat / 2 ^ (4 * j) % 16)).polder.bind c.polder = some p ∧ p.kind = 2, 3),
      ((KMap.get Stage.init c.stages ((c.xr rs1).toNat / 2 ^ 8 % 8)).suspended ≠ none ∨ ∃ e ∈ c.sb, e.freed = false ∧ ∃ a b d, e.instr = .kpipe a b d, 10)] n →
    (n ≠ 0 → Retires (.kstage rd rs1 rs2) s c rd (BitVec.ofNat 64 n) id) ∧
    (n = 0 → Retires (.kstage rd rs1 rs2) s c rd 0 fun d => { d with
      stages := KMap.ins ((c.xr rs1).toNat / 2 ^ 8 % 8)
        (if (c.xr rs1).getLsbD 63 then Stage.init
         else ⟨true, c.xr rs1, c.xr rs2, (c.xr rs1).toNat / 2 ^ 32 % 2 ^ 16, 0, false, none⟩) d.stages })) ∧
  ∀ (rd : Nat) (s : State) (c : Ctx) (wait : Entry → Entry), s.ctx s.cur = some c → (∀ m ∈ s.tower s.cur, m = s.cur) →
    wait = (fun e => if e.cls = 1 ∧ e.state = .waiting then { e with state := .haltOnIssue } else e) →
    (c.kernelEntry = none → Retires (.khalt rd) s c rd 0 fun d => { d with sb := d.sb.map wait }) ∧
    (∀ e, c.kernelEntry = some e → c.kern.phase = .idle → c.pipe = none → c.sweep = none →
      Retires (.khalt rd) s c rd 0 fun d => { d with sb := (d.modEntry e.seq fun q => { q with status := 8 }).sb.map wait }) ∧
    (∀ e rd' a b, c.kernelEntry = some e → e.instr = .krun rd' a b → c.kern.phase ≠ .idle →
      Retires (.khalt rd) s c rd 0 fun d => { d with
        sb := d.sb.map wait, kern := { d.kern with status := if c.kern.status = 0 ∧ c.kern.phase ≠ .ending then 8 else c.kern.status } }) ∧
    (∀ e rd' a b q, c.kernelEntry = some e → e.instr = .kpipe rd' a b → c.pipe = some q →
      Retires (.khalt rd) s c rd 0 fun d => { d with sb := d.sb.map wait, pipe := some { q with halted := true } }) ∧
    (∀ e q, c.kernelEntry = some e → (∀ rd' a b, e.instr ≠ .krun rd' a b ∧ e.instr ≠ .kpipe rd' a b) → c.sweep = some q →
      Retires (.khalt rd) s c rd 0 fun d => { d with sb := d.sb.map wait, sweep := some { q with stop := min q.stop q.next } })

/-- R75 to R77 (03), R110 (04), R135, R138, R140, R142, R145, R146, R148 and R150 (06), R190 (07), R211, R223 and R224 (08), R270 (10), R404 (19): the kernel side between and
around bundles. The oldest command without conflicts issues to its free unit; a KRUN begins at the rendezvous of its tower, seven cycles before its first bundle; a bundle
that nothing holds up issues, or raises the event of its first failing check; a taken transfer goes to its target and leaves the loops that do not hold it; a lock section
is issued again for the clusters that wait; the members of a dike go on 40 cycles after its last arrival, and a tower is fused again 40 cycles after its last REJOIN; a kernel
that has ended with all that it started completes its command; the arbiter activates a stage that is ready, and completes a pipeline that was halted; and a launch whose
watchdog has run out ends with cause 2. -/
def Obligations.KernelSteps : Prop :=
  (∀ (k : Nat) (s : State) (c : Ctx) (e : Entry), s.ctx k = some c → c.halted = false → c.sb = [e] → e.freed = false → e.state = .waiting → c.kern.kcq = [] →
    (s.sp k).left = none → (s.sp k).victims = [] → (e.cls = 0 ∨ e.cls = 1 ∧ c.preempt = none) →
    CtxStep (.scoreboardIssue k) s k { c with
      sb := [{ e with state := .running, issued := s.now, tail0 := ((c.descPolder e.desc).map fun p => p.tail).getD 0 }] }) ∧
  (∀ (k rd rs1 rs2 : Nat) (s : State) (c : Ctx) (e : Entry) (o : Code) (q : KtabE), (s.sp k).tower = [] → s.ctx k = some c → c.kern.phase = .idle → c.pipe = none →
    c.sweep = none → c.kernelEntry = some e → e.instr = .krun rd rs1 rs2 → e.status = 0 → s.codeOfCtx c = some o → o.ktab[e.rs1.toNat % 256]? = some q →
    SpStep (.towerRendezvous k) s k { s.sp k with
      fused := false, line := [],
      ctx := some { c with
        matrix := { Matrix.init with nextCall := c.matrix.nextCall, nextUpd := c.matrix.nextUpd },
        kern := { Kern.init with
          phase := .starting 7, lo := c.cbase.toNat + q.start, hi := c.cbase.toNat + q.stop, interlocked := q.interlocked, pc := c.cbase.toNat + q.start,
          ports := e.descs, haltPoint := 5 } } }) ∧
  (∀ (k : Nat) (s : State) (c : Ctx), (s.sp k).fused = false → s.ctx k = some c → c.kern.phase = .running → c.kern.gap = 0 → c.kern.last = none → c.kern.dike = none →
    c.kern.rejoin = false → c.kern.ends = false → c.kern.trapN = none →
    (∀ f, { s with issue := [k] }.headFault k c ({ s with issue := [k] }.bundleAt c.kern.pc) = some f →
      exec (.bundleIssue k) s = .next ({ s with issue := [k] }.bundleEvent f c.kern.pc)) ∧
    (c.cbase.toNat ≤ c.kern.pc → c.cbound.toNat < c.kern.pc + bundleLen (s.codeNat c.kern.pc 2) → ∃ t d, exec (.bundleIssue k) s = .next t ∧ t.ctx k = some d ∧
      d.stopped = true ∧ d.pend = true ∧ d.kern.phase = .stopped ∧ d.kern.pc = c.kern.pc ∧ d.kevent.toNat % 8 = 3) ∧
    (∀ b, b = s.bundleAt c.kern.pc → { s with issue := [k] }.headFault k c b = none → b.slots = [] → c.kern.exposed = true → c.kern.land = [] → c.kern.lock = none →
      ∃ t, exec (.bundleIssue k) s = .next t ∧ WithSp { s with issue := [k] } k { s.sp k with
        ctx := some { c with
          wdog := if c.kern.begun then c.wdog else 0,
          kern := { c.kern with
            begun := true, gap := bundleE b.hdr, last := some c.kern.pc, after := c.kern.pc + bundleLen b.hdr, delay := c.kern.delay - 1, haltPoint := 0, tokLeft := none,
            yielded := false, xfer := c.kern.xfer.map fun x => { x with left := x.left - 1 }, group := if bundleStop b.hdr then [] else c.kern.group } } } t)) ∧
  (∀ (k b : Nat) (s : State) (c : Ctx), (s.issueGroup k).Nodup → (s.issueGroup k).head? = some k → s.ctx k = some c → c.kern.phase = .running → c.kern.gap = 0 →
    c.kern.last = some b → c.kern.ends = false → (c.kern.yielded = true → c.kern.status ≠ 8) →
    (∀ m ∈ s.issueGroup k, ∀ d, s.ctx m = some d → d.kern.lock = none ∧ d.kern.trapN = none) →
    ∀ x, c.kern.xfer = some x → x.left = 0 → ∃ t, exec (.branchTransfer k) s = .next t ∧ EachIssuing { s with issue := s.issueGroup k } (fun _ d => { d with
      kern := { d.kern with
        pc := x.target, last := none, xfer := none, group := [], haltPoint := if d.kern.yielded then 2 else d.kern.haltPoint,
        loops := d.kern.loops.dropWhile fun e => !(decide (e.start ≤ x.target) && decide (x.target ≤ e.stop)) } }) t) ∧
  (∀ (k b : Nat) (s : State) (c : Ctx) (l : LockSec), (s.sp k).fused = false → s.ctx k = some c → c.kern.phase = .running → c.kern.gap = 0 → c.kern.last = some b →
    c.kern.lock = some l → l.closing = true → l.waiting ≠ [] → c.kern.trapN = none → ∃ t, exec (.lockRound k) s = .next t ∧ WithSp { s with issue := [k] } k { s.sp k with
      ctx := some { c with
        kern := { c.kern with
          gap := 2, pc := l.first, last := none, group := [], haltPoint := 4, lock := some { l with round := l.round + 1, acting := [], closing := false } } } } t) ∧
  (∀ (part entry k n : Nat) (s : State) (p : Part) (g : Group) (c : Ctx), s.part part = some p → KMap.find entry p.groups = some g → g.full = true → g.last + 40 ≤ s.now →
    g.members = [k] → s.ctx k = some c → c.launch = g.launch → c.kern.dike = some (entry, n) → c.preempt = none → (s.sp k).victims = [] →
    ∃ t q, exec (.dikeRelease part entry) s = .next t ∧ t.sp k = { s.sp k with
        ctx := some { c with kern := { c.kern with dike := none, gap := n }, sbar := KMap.upd entry (fun _ => 2) c.sbar } } ∧
      (∀ j, j ≠ k → t.sp j = s.sp j) ∧ t.part part = some q ∧ KMap.find entry q.groups = some { g with arrived := [], full := false }) ∧
  (∀ (k : Nat) (s : State) (l : Ctx), (s.sp k).tower.Nodup → (s.sp k).tower.head? = some k → 2 ≤ (s.sp k).tower.length → (s.sp k).tower.length ≤ (s.sp k).line.length →
    (s.sp k).lineAt + 40 ≤ s.now → s.ctx k = some l → ∃ t, exec (.towerLineRelease k) s = .next t ∧ t = { s with sps := t.sps } ∧
      (∀ m, m ∉ (s.sp k).tower → t.sp m = s.sp m) ∧ ∀ m ∈ (s.sp k).tower, t.sp m = { s.sp m with
        fused := true, line := [],
        ctx := (s.ctx m).map fun c => { c with kern := if m = k then { c.kern with rejoin := false } else c.kern.follow l.kern } }) ∧
  (∀ (k rd rs1 rs2 n status : Nat) (q : Desc) (s : State) (c : Ctx) (e : Entry), (s.sp k).tower = [] → s.ctx k = some c → c.pipe = none → c.kern.phase = .ending → c.kern.gap = 0 →
    c.kern.land = [] → c.kern.kcq = [] → c.kern.stage = none → c.matrix.outstanding = [] → c.sb = [e] → e.kcopy = none → e.freed = false → e.cls = 1 → e.state = .running →
    e.instr = .krun rd rs1 rs2 → c.kern.ports = [(n, q)] → status = (if c.kern.status ≠ 0 then c.kern.status else c.kern.kcStatus) →
    SpStep (.kernelCommandComplete k) s k { s.sp k with
      srf := arrive (s.sp k).srf c e.rs2 (arriveTarget (s.sp k).srf c e.rs2) status,
      ctx := some { c with
        sb := [], descs := KMap.ins n { KMap.get Desc.init c.descs n with pos := q.pos } c.descs, stopped := false, kres := false, kern := Kern.init, pipe := none, sweep := none } }) ∧
  (∀ (k rd rs1 rs2 t0 : Nat) (s : State) (c : Ctx) (e : Entry) (q : Pipe), (s.sp k).tower = [] → s.ctx k = some c → c.pipe = some q → q.decide_ = some t0 → t0 ≤ s.now →
    c.kern.phase = .idle → c.kern.stage = none → c.kern.kcq = [] → c.kern.kcStatus = 0 → e.kcopy = none → c.sb = [e] → e.freed = false → e.cls = 1 → e.state = .running → e.instr = .kpipe rd rs1 rs2 → e.seq = q.seq →
    (q.halted = true → e.descs = [] → SpStep (.arbiterDecision k) s k { s.sp k with
      srf := arrive (s.sp k).srf c e.rs2 (arriveTarget (s.sp k).srf c e.rs2) 8,
      ctx := some { c with sb := [], stopped := false, kres := false, kern := Kern.init, pipe := none, sweep := none } }) ∧
    (∀ n st, n < 8 → q.halted = false → q.seen = none → c.stages = [(n, st)] → st.declared = true → st.finished = false → st.remaining ≠ 0 → st.suspended = none →
      st.rs2 = 0 → ∃ t d, exec (.arbiterDecision k) s = .next t ∧ t.ctx k = some d ∧ d.kern.phase = .starting 7 ∧ d.kern.stage = some n ∧ d.wdog = 0 ∧ d.sb = c.sb ∧
        d.x = c.x ∧ KMap.find n d.stages = some { st with remaining := st.remaining - 1, age := 0 } ∧ ∀ j, j ≠ k → t.sp j = s.sp j)) ∧
  ∀ (k : Nat) (s : State) (c : Ctx) (l : Launch), s.ctx k = some c → 2 ^ c.mwdog ≤ c.wdog → s.launchOf c.launch = some l → l.cause = none →
    ∃ t gone, exec (.watchdogExpiry k) s = .next t ∧
      t.launchOf c.launch = some { l with cause := some 2, state := 2, crank := c.rank, cword := 0, caddr := c.kern.pc - c.cbase.toNat, cpc := 0, gone := gone } ∧
      (∀ j d, t.ctx j = some d → d.launch = c.launch → d.halted = true) ∧ (∀ j d, s.ctx j = some d → d.launch ≠ c.launch → t.ctx j = some d) ∧ t.mem = s.mem

/-- R214 (08): when the last cycle of a bundle has passed that ends the body of the innermost loop, and no transfer takes its place, the sequencer makes the back-edge
decision: remaining is counted down; while it is above 0, j is counted up, rrb down modulo 64 where the mode is 2, and the body's first bundle issues next, on the next
cycle; else the entry is popped, the decision is made again for the new top if its end is the same bundle, and the bundle after this one issues next. It is a pre-emption
point (1), and the instruction group ends. Every SP of the issuing group does the same, and nothing else of the machine changes but which SPs issue. -/
def Obligations.BackEdgeDecision : Prop :=
  (∀ (b : Nat) (e : LoopE) (l : List LoopE),
    (e.stop = b → 1 < e.remaining → backEdge b (e :: l) = (some e.start,
      { e with remaining := e.remaining - 1, j := e.j + 1, rrb := if e.mode = 2 then (e.rrb + 63) % 64 else e.rrb } :: l)) ∧
    (e.stop = b → e.remaining ≤ 1 → backEdge b (e :: l) = backEdge b l) ∧
    (e.stop ≠ b → backEdge b (e :: l) = (none, e :: l)) ∧ backEdge b [] = (none, [])) ∧
  ∀ (k b : Nat) (s : State) (c : Ctx) (e : LoopE) (l : List LoopE),
    (s.issueGroup k).Nodup → (s.issueGroup k).head? = some k → s.ctx k = some c → c.kern.phase = .running → c.kern.gap = 0 → c.kern.last = some b →
    c.kern.ends = false → (c.kern.yielded = true → c.kern.status ≠ 8) → c.kern.loops = e :: l → e.stop = b → (∀ x, c.kern.xfer = some x → x.left ≠ 0) →
    (∀ m ∈ s.issueGroup k, ∀ d, s.ctx m = some d → d.kern.lock = none ∧ d.kern.trapN = none) →
    ∃ t, exec (.loopBackEdge k) s = .next t ∧ EachIssuing { s with issue := s.issueGroup k } (fun _ d => { d with
      kern := { d.kern with pc := (backEdge b d.kern.loops).1.getD d.kern.after, loops := (backEdge b d.kern.loops).2, last := none, group := [], haltPoint := 1 } }) t

/-- R221 (08): KMODE sets kmode to its mode, or to bits 1:0 of its q register with REG = 1. The rounding mode stands as it was in its own bundle: the new one lands one cycle
after issue, so that the bundles of the following cycle and later round with it. Each kernel starts with kmode 0. -/
def Obligations.KernelRoundingMode : Prop :=
  (∀ p reg n : Nat, SlotRule (.kmode p reg n) (whenTrue p fun _ _ c =>
    c.later 1 (.kmode (if reg = 0 then n else (c.kern.qr n).toNat % 4)))) ∧
  (∀ (k v : Nat) (s : State) (c : Ctx), s.ctx k = some c → c.kern.phase = .running → c.kern.land = [⟨1, false, .kmode v⟩] →
    CtxStep (.resultLanding k) s k { c with kern := { c.kern with kmode := v, land := [] } }) ∧
  ∀ (s : State) (c : Ctx) (index n : Nat) (ports : KMap Desc) (stage : Option Nat), (s.kernelAt c index n ports stage).kmode = 0

/-- R199 and R200 (08): every form of uniform arithmetic completes from every state, in every SP of the bundle whose predicate is
true: qd receives the value that the rule gives, 3 cycles after issue for QMUL and 1 cycle after it for every other form, and nothing
else of the machine changes (no kstat bit among it). `qr 0` reads 0. -/
def Obligations.UniformArithmeticResults : Prop :=
  ∀ p qd qa qb : Nat,
    QResult (.qadd p qd qa qb) p 1 qd (fun _ _ c => BitVec.ofNat 64 ((c.kern.qr qa).toNat + (c.kern.qr qb).toNat)) ∧
    QResult (.qsub p qd qa qb) p 1 qd (fun _ _ c => BitVec.ofInt 64 ((c.kern.qr qa).toInt - (c.kern.qr qb).toInt)) ∧
    QResult (.qmul p qd qa qb) p 3 qd (fun _ _ c => BitVec.ofNat 64 ((c.kern.qr qa).toNat * (c.kern.qr qb).toNat)) ∧
    QResult (.qand p qd qa qb) p 1 qd (fun _ _ c => c.kern.qr qa &&& c.kern.qr qb) ∧
    QResult (.qor p qd qa qb) p 1 qd (fun _ _ c => c.kern.qr qa ||| c.kern.qr qb) ∧
    QResult (.qxor p qd qa qb) p 1 qd (fun _ _ c => c.kern.qr qa ^^^ c.kern.qr qb) ∧
    QResult (.qshl p qd qa qb) p 1 qd (fun _ _ c => BitVec.ofNat 64 ((c.kern.qr qa).toNat * 2 ^ ((c.kern.qr qb).toNat % 64))) ∧
    QResult (.qshr p qd qa qb) p 1 qd (fun _ _ c => BitVec.ofNat 64 ((c.kern.qr qa).toNat / 2 ^ ((c.kern.qr qb).toNat % 64))) ∧
    QResult (.qsra p qd qa qb) p 1 qd (fun _ _ c => BitVec.ofInt 64 ((c.kern.qr qa).toInt / 2 ^ ((c.kern.qr qb).toNat % 64))) ∧
    QResult (.qmin p qd qa qb) p 1 qd (fun _ _ c => BitVec.ofInt 64 (min (c.kern.qr qa).toInt (c.kern.qr qb).toInt)) ∧
    QResult (.qmax p qd qa qb) p 1 qd (fun _ _ c => BitVec.ofInt 64 (max (c.kern.qr qa).toInt (c.kern.qr qb).toInt)) ∧
    (∀ imm, imm < 2 ^ 14 →
      QResult (.qaddi p qd qa imm none) p 1 qd (fun _ _ c => BitVec.ofInt 64 ((c.kern.qr qa).toInt + (BitVec.ofNat 14 imm).toInt))) ∧
    (∀ imm x, imm < 2 ^ 14 → x < 2 ^ 24 →
      QResult (.qaddi p qd qa imm (some x)) p 1 qd (fun _ _ c => BitVec.ofInt 64 ((c.kern.qr qa).toInt + (BitVec.ofNat 38 (x * 2 ^ 14 + imm)).toInt))) ∧
    (∀ imm, imm < 2 ^ 18 → QResult (.qli p qd imm none) p 1 qd (fun _ _ _ => (BitVec.ofNat 18 imm).signExtend 64)) ∧
    (∀ imm x, imm < 2 ^ 18 → x < 2 ^ 24 → QResult (.qli p qd imm (some x)) p 1 qd (fun _ _ _ => (BitVec.ofNat 42 (x * 2 ^ 18 + imm)).signExtend 64))

/-- R201 and R202 (08): QGET and QSD complete and write qd, one cycle after issue, with the quantity of the sequencer or the field of
the descriptor that the rule names; nothing else changes. HEAD and TAIL read 0 where the polder is neither ring nor queue. -/
def Obligations.SequencerAndDescriptorReads : Prop :=
  (∀ p qd : Nat,
    QResult (.qget p qd 0) p 1 qd (fun _ _ c => BitVec.ofNat 64 c.kern.cycles) ∧
    QResult (.qget p qd 1) p 1 qd (fun _ _ c => match c.kern.loops with | [] => 0 | e :: _ => BitVec.ofNat 64 e.remaining) ∧
    QResult (.qget p qd 2) p 1 qd (fun _ _ c => match c.kern.modulo with | none => 0 | some e => BitVec.ofNat 64 e.rrb) ∧
    QResult (.qget p qd 3) p 1 qd (fun _ _ c => match c.kern.loops with | [] => 0 | e :: _ => BitVec.ofNat 64 e.j) ∧
    QResult (.qget p qd 4) p 1 qd (fun _ _ c => BitVec.ofNat 64 c.kern.loops.length) ∧
    QResult (.qget p qd 5) p 1 qd (fun s k _ => BitVec.ofNat 64 ((s.tower k).idxOf k)) ∧
    QResult (.qget p qd 6) p 1 qd (fun s k _ => BitVec.ofNat 64 (if (s.sp k).fused then (s.tower k).length else 1)) ∧
    QResult (.qget p qd 7) p 1 qd (fun _ k _ => BitVec.ofNat 64 k) ∧
    QResult (.qget p qd 8) p 1 qd (fun _ _ c => BitVec.ofNat 64 c.rank)) ∧
  ∀ p qd sn : Nat,
    QResult (.qsd p qd sn 0) p 1 qd (fun _ _ c => BitVec.ofNat 64 (c.kern.port sn).pos) ∧
    QResult (.qsd p qd sn 1) p 1 qd (fun _ _ c => BitVec.ofNat 64 (c.kern.port sn).len) ∧
    QResult (.qsd p qd sn 2) p 1 qd (fun _ _ c =>
      if (c.kern.port sn).pos ≤ (c.kern.port sn).len then BitVec.ofNat 64 ((c.kern.port sn).len - (c.kern.port sn).pos) else 0) ∧
    QResult (.qsd p qd sn 3) p 1 qd (fun _ _ c => match c.descPolder (c.kern.port sn) with
      | none => 0
      | some q => if q.kind = 0 then 0 else BitVec.ofNat 64 q.head) ∧
    QResult (.qsd p qd sn 4) p 1 qd (fun _ _ c => match c.descPolder (c.kern.port sn) with
      | none => 0
      | some q => if q.kind = 0 then 0 else BitVec.ofNat 64 q.tail)

/-- R203, R204 and R205 (08): every comparison, CLOG and the two votes complete and write cd: one cycle after issue, or for a vote 3
cycles, 5 in a fused pair and 7 in a fused quad. A vote looks at the first k elements of width w of the rotated register in every
cluster of every SP of the bundle, k being the count of pn capped at the row's elements. R206: PSET and PTAIL write pd with the width code and
the count that the rule gives, one cycle after issue. Nothing else changes. -/
def Obligations.ConditionAndPredicateResults : Prop :=
  (∀ p cd qa qb : Nat,
    CResult (.cmp p cd 0 qa qb) p (fun _ => 1) cd (fun _ c => decide (c.kern.qr qa = c.kern.qr qb)) ∧
    CResult (.cmp p cd 1 qa qb) p (fun _ => 1) cd (fun _ c => decide (c.kern.qr qa ≠ c.kern.qr qb)) ∧
    CResult (.cmp p cd 2 qa qb) p (fun _ => 1) cd (fun _ c => decide ((c.kern.qr qa).toInt < (c.kern.qr qb).toInt)) ∧
    CResult (.cmp p cd 3 qa qb) p (fun _ => 1) cd (fun _ c => decide ((c.kern.qr qb).toInt ≤ (c.kern.qr qa).toInt)) ∧
    CResult (.cmp p cd 4 qa qb) p (fun _ => 1) cd (fun _ c => decide ((c.kern.qr qa).toNat < (c.kern.qr qb).toNat)) ∧
    CResult (.cmp p cd 5 qa qb) p (fun _ => 1) cd (fun _ c => decide ((c.kern.qr qb).toNat ≤ (c.kern.qr qa).toNat))) ∧
  (∀ p cd qa imm : Nat, imm < 2 ^ 12 →
    CResult (.cmpi p cd 0 qa imm) p (fun _ => 1) cd (fun _ c => decide (c.kern.qr qa = (BitVec.ofNat 12 imm).signExtend 64)) ∧
    CResult (.cmpi p cd 1 qa imm) p (fun _ => 1) cd (fun _ c => decide (c.kern.qr qa ≠ (BitVec.ofNat 12 imm).signExtend 64)) ∧
    CResult (.cmpi p cd 2 qa imm) p (fun _ => 1) cd (fun _ c => decide ((c.kern.qr qa).toInt < ((BitVec.ofNat 12 imm).signExtend 64).toInt)) ∧
    CResult (.cmpi p cd 3 qa imm) p (fun _ => 1) cd (fun _ c => decide (((BitVec.ofNat 12 imm).signExtend 64).toInt ≤ (c.kern.qr qa).toInt)) ∧
    CResult (.cmpi p cd 4 qa imm) p (fun _ => 1) cd (fun _ c => decide ((c.kern.qr qa).toNat < ((BitVec.ofNat 12 imm).signExtend 64).toNat)) ∧
    CResult (.cmpi p cd 5 qa imm) p (fun _ => 1) cd (fun _ c => decide (((BitVec.ofNat 12 imm).signExtend 64).toNat ≤ (c.kern.qr qa).toNat))) ∧
  (∀ p cd ca cb table : Nat,
    CResult (.clog p cd ca cb table) p (fun _ => 1) cd (fun _ c =>
      table.testBit (2 * (if c.kern.cr ca then 1 else 0) + (if c.kern.cr cb then 1 else 0)))) ∧
  (∀ p cd v w pn : Nat,
    CResult (.vany p cd v w pn) p (fun s => if s.issue.length = 4 then 7 else if s.issue.length = 2 then 5 else 3) cd (fun s c =>
      s.issue.any fun m => (s.ctx m).any fun d => (List.range 16).any fun cl =>
        (List.range (min (c.kern.pr pn).n (128 / 2 ^ w))).any fun j => decide (d.vr cl v / 2 ^ (8 * 2 ^ w * j) % 2 ^ (8 * 2 ^ w) ≠ 0)) ∧
    CResult (.vall p cd v w pn) p (fun s => if s.issue.length = 4 then 7 else if s.issue.length = 2 then 5 else 3) cd (fun s c =>
      s.issue.all fun m => (s.ctx m).all fun d => (List.range 16).all fun cl =>
        (List.range (min (c.kern.pr pn).n (128 / 2 ^ w))).all fun j => decide (d.vr cl v / 2 ^ (8 * 2 ^ w * j) % 2 ^ (8 * 2 ^ w) ≠ 0))) ∧
  ∀ p pd w : Nat, w < 4 →
    (∀ n, PResult (.pset p pd w 0 n) p pd w (fun _ => min n ([768, 384, 192, 96].getD w 0))) ∧
    (∀ qa, PResult (.pset p pd w 1 qa) p pd w (fun c => min (c.kern.qr qa).toNat ([768, 384, 192, 96].getD w 0))) ∧
    ∀ qa l, PResult (.ptail p pd w qa l) p pd w (fun c =>
      if c.kern.qr qa = 0 then 0 else ((c.kern.qr qa).toNat - 1) % ((l + 1) * 128 / 2 ^ w) + 1)

/-- R217 to R222 (08): MSET writes md one cycle after issue; KSR writes qd with kstat and clears the masked bits; KSC sets kstat, so that a clear by the
controller on its cycle leaves the bits that it set (07 R187); KMODE sets the rounding mode for the bundles from the next cycle on; MWAIT (once its bundle issues) changes
nothing, and PREF notes its hint and changes nothing else. Each completes from every state. The lasting effects of C-slot instructions without a register result are these alone. -/
def Obligations.MatrixParameterAndStatusSlots : Prop :=
  (∀ p md qa, SlotRule (.mset p md qa) (whenTrue p fun _ _ c => c.later 1 (.word .m 0 md (c.kern.qr qa)))) ∧
  (∀ p tile rows, SlotRule (.mwait p tile rows) fun _ _ c => c) ∧
  (∀ p qd mask, mask < 2 ^ 13 → SlotRule (.ksr p qd mask) (whenTrue p fun _ _ c =>
    { c.later 1 (.word .q 0 qd (BitVec.ofNat 64 c.kstat)) with kstat := c.kstat &&& (2 ^ 13 - 1 - mask) })) ∧
  (∀ p qa, SlotRule (.ksc p qa) (whenTrue p fun _ _ c =>
    { c with kstat := (c.kern.qr qa).toNat % 2 ^ 13, kset := flagOr c.kset ((c.kern.qr qa).toNat % 2 ^ 13) })) ∧
  (∀ p n, SlotRule (.kmode p 0 n) (whenTrue p fun _ _ c => c.later 1 (.kmode n))) ∧
  (∀ p qa, SlotRule (.kmode p 1 qa) (whenTrue p fun _ _ c => c.later 1 (.kmode ((c.kern.qr qa).toNat % 4)))) ∧
  ∀ (p qa qb : Nat) (s : State), s.issue.Nodup → ∃ t, exec (.pref p qa qb) s = .next t ∧ t = { s with sps := t.sps } ∧
    ∀ k, t.sp k = if k ∈ s.issue then { s.sp k with
        hints := (s.sp k).hints ++ match s.ctx k with
          | none => []
          | some c =>
            if (c.kern.predOn p && c.kern.firstRound) ∧ (c.kern.qr qa).toNat < 2 ^ 48 ∧ (c.kern.qr qb).toNat % 2 ^ 32 ≠ 0
            then [(c.launch, (c.kern.qr qa).toNat, (c.kern.qr qb).toNat % 2 ^ 32)] else [] }
      else s.sp k

/-- R207, R208 and R209 (08): PBT writes bn with the address of its bundle + 2 × the signed immediate, seen from the second bundle
after; a branch that is taken transfers to its target after two delay bundles, one that is not taken has the delay bundles alone; BRL
also writes q15 with the address after its second delay bundle, when the first delay bundle issues. Each completes from every state. -/
def Obligations.BranchSlots : Prop :=
  (∀ p b imm, imm < 2 ^ 19 → SlotRule (.pbt p b imm) (whenTrue p fun _ _ c =>
    { c with kern := { c.kern with land := c.kern.land ++ [⟨2, true, .word .b 0 b (BitVec.ofInt 64 (c.kern.pc + 2 * (BitVec.ofNat 19 imm).toInt))⟩] } })) ∧
  (∀ p b cn, SlotRule (.brT p b cn) (whenLeads p fun _ l _ c =>
    { c with kern := { c.kern with delay := 2, xfer := if l.kern.cr cn then some ⟨(l.kern.br b).toNat, 2⟩ else none } })) ∧
  (∀ p b cn, SlotRule (.brF p b cn) (whenLeads p fun _ l _ c =>
    { c with kern := { c.kern with delay := 2, xfer := if l.kern.cr cn then none else some ⟨(l.kern.br b).toNat, 2⟩ } })) ∧
  (∀ p b, SlotRule (.br p b) (whenLeads p fun _ l _ c => { c with kern := { c.kern with delay := 2, xfer := some ⟨(l.kern.br b).toNat, 2⟩ } })) ∧
  (∀ p, SlotRule (.brR p) (whenLeads p fun _ l _ c => { c with kern := { c.kern with delay := 2, xfer := some ⟨(l.kern.qr 15).toNat, 2⟩ } })) ∧
  (∀ p b, SlotRule (.brl p b) (whenLeads p fun s l _ c =>
    { c with kern := { c.kern with
        delay := 2, xfer := some ⟨(l.kern.br b).toNat, 2⟩,
        land := c.kern.land ++ [⟨1, true, .word .q 0 15 (BitVec.ofNat 64 (s.nextBundle (s.nextBundle (s.nextBundle l.kern.pc))))⟩] } }))

/-- R212 and R213 (08): with a count of at least 1 and a true predicate a loop instruction pushes one entry (start: the bundle after it;
end: the address in bn; remaining n + S, N = n, j = 0, rrb = 0; mode exposed, interlocked or modulo) and one cycle passes; with count 0
or a false predicate nothing is pushed and issue goes on behind the body's last bundle, three cycles later. `n` is the immediate, or
qa[31:0]. Each completes from every state. -/
def Obligations.LoopSlots : Prop :=
  ∀ (mode p b reg n st : Nat), (mode < 2 → st = 0) → mode < 3 → reg < 2 →
    SlotRule (match mode with | 0 => .loop p b reg n | 1 => .loopi p b reg n | _ => .loopm p b reg n st) fun s _ c =>
      match s.leader with
      | none => c
      | some (_, l) =>
        if l.kern.firstRound then
          let count := if reg = 0 then n else (l.kern.qr n).toNat % 2 ^ 32
          if l.kern.predOn p ∧ 1 ≤ count then
            { c with kern := { c.kern with
                gap := c.kern.gap + 1,
                loops := { start := c.kern.after, stop := (l.kern.br b).toNat, remaining := count + st, mode := mode, s := st, n := count, j := 0,
                           rrb := 0 } :: c.kern.loops } }
          else { c with kern := { c.kern with gap := c.kern.gap + 3, after := s.nextBundle (l.kern.br b).toNat } }
        else c

/-- R223, R225 to R228 and R76 (08, 03): END and KTRAP mark what happens behind their bundle; YIELD restarts the watchdog and marks the
point; DECOUPLE ends the fused issue of the members from the next bundle on; each where the predicate is true, and completes from every
state. -/
def Obligations.EndTrapYieldDecouple : Prop :=
  (∀ p, SlotRule (.endK p) (whenLeads p fun _ _ _ c => { c with kern := { c.kern with ends := true } })) ∧
  (∀ p n, SlotRule (.ktrap p n) (whenLeads p fun _ _ _ c => { c with kern := { c.kern with trapN := some n } })) ∧
  (∀ p, SlotRule (.yieldK p) (whenLeads p fun _ _ _ c => { c with wdog := 0, kern := { c.kern with yielded := true } })) ∧
  ∀ (p : Nat) (s : State), s.issue.Nodup → ∃ t, exec (.decouple p) s = .next t ∧ t = { s with sps := t.sps } ∧
    ∀ k, t.sp k = match s.leader with
      | none => s.sp k
      | some (_, l) => if (l.kern.predOn p && l.kern.firstRound) ∧ k ∈ s.issue then { s.sp k with fused := false } else s.sp k

/-- R223, R180 and R76, R77 (08, 07, 03): SYNC, with its predicate true, makes every SP of the bundle arrive at the dike that it holds on
the port, and its kernel waits; an arrival counts once in a phase, sets the cycle of the last arrival and completes the phase when every
member has arrived. REJOIN makes a member of a decoupled tower arrive at the tower's line and wait; where a member's kernel, running or
pre-empted, has executed END, kernel event TOWER (cause 5) ends the kernel of every member. On an SP that is fused or alone, or with a false
predicate, it has no effect. Both complete from every state. -/
def Obligations.SyncAndRejoin : Prop :=
  (∀ (p port : Nat) (s : State), s.issue.Nodup → ∃ t, exec (.sync p port) s = .next t ∧ t = { s with sps := t.sps, parts := t.parts } ∧
    (∀ k, t.sp k = match s.leader with
      | none => s.sp k
      | some (_, l) =>
        if (l.kern.predOn p && l.kern.firstRound) ∧ k ∈ s.issue then
          { s.sp k with ctx := (s.ctx k).map fun c => { c with kern := { c.kern with dike := some (KMap.get 0 (s.sp k).dikes port, c.kern.gap) } } }
        else s.sp k) ∧
    ∀ (k : Nat) (c : Ctx), s.issue = [k] → s.ctx k = some c →
      t.parts = if c.kern.predOn p && c.kern.firstRound then
          KMap.upd (s.partOf c) (fun q => { q with groups := KMap.upd (KMap.get 0 (s.sp k).dikes port) (fun g =>
            if k ∈ g.arrived then g
            else { g with arrived := g.arrived ++ [k], last := s.now, full := g.members.all fun m => decide (m = k ∨ m ∈ g.arrived) }) q.groups }) s.parts
        else s.parts) ∧
  ∀ (p k : Nat) (l : Ctx) (s : State), s.leader = some (k, l) →
    ((!(l.kern.predOn p && l.kern.firstRound) || (s.sp k).fused || decide ((s.tower k).length ≤ 1)) = true → exec (.rejoin p) s = .next s) ∧
    ((l.kern.predOn p && l.kern.firstRound) = true → (s.sp k).fused = false → 1 < (s.tower k).length → (s.tower k).Nodup →
      ((∃ m ∈ s.tower k, ∃ c, (s.ctx m = some c ∨ c ∈ (s.sp m).victims.map (·.ctx)) ∧ c.launch = l.launch ∧ c.kern.phase = .ending ∧ c.kern.ends = true) →
        ∀ f, f = (fun c : Ctx => if c.launch = l.launch then c.fatalEvent 5 0 ((s.tower k).idxOf k) else c) →
        ∃ t, exec (.rejoin p) s = .next t ∧ t = { s with sps := t.sps } ∧
          ∀ m, t.sp m = if m ∈ s.tower k then { s.sp m with ctx := (s.ctx m).map f, victims := (s.sp m).victims.map fun v => { v with ctx := f v.ctx } } else s.sp m) ∧
      ((∀ m ∈ s.tower k, ∀ c, (s.ctx m = some c ∨ c ∈ (s.sp m).victims.map (·.ctx)) → c.launch = l.launch → ¬(c.kern.phase = .ending ∧ c.kern.ends = true)) → ∃ t, exec (.rejoin p) s = .next t ∧ t = { s with sps := t.sps } ∧
        (t.sp ((s.tower k).headD k)).line = (s.sp ((s.tower k).headD k)).line ++ [k] ∧ (t.sp ((s.tower k).headD k)).lineAt = s.now ∧
        t.ctx k = some { l with kern := { l.kern with rejoin := true } } ∧ (∀ m, m ≠ k → t.ctx m = s.ctx m)))

/-- R233, R234 and R235 (09): every S-slot instruction completes from every state and writes gd, in every acting cluster of every SP of the
bundle whose predicate is true, with the value that the rules give from that cluster's own g registers: 3 cycles after issue for GMUL and
GMULH, 1 cycle after it for the others. Nothing else changes, no kstat bit among it. -/
def Obligations.ClusterScalarResults : Prop :=
  (∀ p gd ga gb : Nat,
    GResult (.gadd p gd ga gb) p 1 gd (fun _ _ c cl => BitVec.ofNat 64 ((c.gr cl ga).toNat + (c.gr cl gb).toNat)) ∧
    GResult (.gsub p gd ga gb) p 1 gd (fun _ _ c cl => BitVec.ofInt 64 ((c.gr cl ga).toInt - (c.gr cl gb).toInt)) ∧
    GResult (.gmul p gd ga gb) p 3 gd (fun _ _ c cl => BitVec.ofNat 64 ((c.gr cl ga).toNat * (c.gr cl gb).toNat)) ∧
    GResult (.gmulh p gd ga gb 0) p 3 gd (fun _ _ c cl => BitVec.ofInt 64 ((c.gr cl ga).toInt * (c.gr cl gb).toInt / 2 ^ 64)) ∧
    GResult (.gmulh p gd ga gb 1) p 3 gd (fun _ _ c cl => BitVec.ofNat 64 ((c.gr cl ga).toNat * (c.gr cl gb).toNat / 2 ^ 64)) ∧
    GResult (.gand p gd ga gb) p 1 gd (fun _ _ c cl => c.gr cl ga &&& c.gr cl gb) ∧
    GResult (.gor p gd ga gb) p 1 gd (fun _ _ c cl => c.gr cl ga ||| c.gr cl gb) ∧
    GResult (.gxor p gd ga gb) p 1 gd (fun _ _ c cl => c.gr cl ga ^^^ c.gr cl gb) ∧
    GResult (.gshl p gd ga gb) p 1 gd (fun _ _ c cl => BitVec.ofNat 64 ((c.gr cl ga).toNat * 2 ^ ((c.gr cl gb).toNat % 64))) ∧
    GResult (.gshr p gd ga gb) p 1 gd (fun _ _ c cl => BitVec.ofNat 64 ((c.gr cl ga).toNat / 2 ^ ((c.gr cl gb).toNat % 64))) ∧
    GResult (.gsra p gd ga gb) p 1 gd (fun _ _ c cl => BitVec.ofInt 64 ((c.gr cl ga).toInt / 2 ^ ((c.gr cl gb).toNat % 64))) ∧
    GResult (.gmin p gd ga gb) p 1 gd (fun _ _ c cl => BitVec.ofInt 64 (min (c.gr cl ga).toInt (c.gr cl gb).toInt)) ∧
    GResult (.gmax p gd ga gb) p 1 gd (fun _ _ c cl => BitVec.ofInt 64 (max (c.gr cl ga).toInt (c.gr cl gb).toInt)) ∧
    GResult (.gslt p gd ga gb) p 1 gd (fun _ _ c cl => if (c.gr cl ga).toInt < (c.gr cl gb).toInt then 1 else 0) ∧
    GResult (.gsltn p gd ga gb) p 1 gd (fun _ _ c cl => if (c.gr cl ga).toNat < (c.gr cl gb).toNat then 1 else 0) ∧
    GResult (.gsel p gd ga gb) p 1 gd (fun _ _ c cl => if c.gr cl gd = 0 then c.gr cl gb else c.gr cl ga)) ∧
  (∀ p gd ga imm, imm < 2 ^ 12 →
    GResult (.gaddi p gd ga imm none) p 1 gd (fun _ _ c cl => BitVec.ofInt 64 ((c.gr cl ga).toInt + (BitVec.ofNat 12 imm).toInt)) ∧
    GResult (.gli p gd imm none) p 1 gd (fun _ _ _ _ => (BitVec.ofNat 12 imm).signExtend 64) ∧
    ∀ x, x < 2 ^ 24 →
      GResult (.gaddi p gd ga imm (some x)) p 1 gd (fun _ _ c cl => BitVec.ofInt 64 ((c.gr cl ga).toInt + (BitVec.ofNat 36 (x * 2 ^ 12 + imm)).toInt)) ∧
      GResult (.gli p gd imm (some x)) p 1 gd (fun _ _ _ _ => (BitVec.ofNat 36 (x * 2 ^ 12 + imm)).signExtend 64)) ∧
  (∀ p gd ga amt,
    GResult (.gshi p gd ga 0 amt) p 1 gd (fun _ _ c cl => BitVec.ofNat 64 ((c.gr cl ga).toNat * 2 ^ amt)) ∧
    GResult (.gshi p gd ga 1 amt) p 1 gd (fun _ _ c cl => BitVec.ofNat 64 ((c.gr cl ga).toNat / 2 ^ amt)) ∧
    GResult (.gshi p gd ga 2 amt) p 1 gd (fun _ _ c cl => BitVec.ofInt 64 ((c.gr cl ga).toInt / 2 ^ amt)) ∧
    (amt < 64 → GResult (.gshi p gd ga 3 amt) p 1 gd (fun _ _ c cl =>
      BitVec.ofNat 64 ((c.gr cl ga).toNat / 2 ^ amt + (c.gr cl ga).toNat % 2 ^ amt * 2 ^ (64 - amt))))) ∧
  (∀ p gd n, GResult (.gfrq p gd n) p 1 gd (fun _ _ c _ => c.kern.qr n)) ∧
  (∀ p gd, GResult (.gcid p gd) p 1 gd (fun s k _ cl => BitVec.ofNat 64 (16 * (s.tower k).idxOf k + cl))) ∧
  (∀ p gd ga gb len, len < 64 →
    GResult (.gext p gd ga gb len) p 1 gd (fun _ _ c cl =>
      BitVec.ofNat 64 ((c.gr cl ga).toNat / 2 ^ ((c.gr cl gb).toNat % 64) % 2 ^ (len + 1))) ∧
    GResult (.gext p gd ga gb (64 + len)) p 1 gd (fun _ _ c cl =>
      (BitVec.ofNat (len + 1) ((c.gr cl ga).toNat / 2 ^ ((c.gr cl gb).toNat % 64))).signExtend 64) ∧
    GResult (.gins p gd ga gb len) p 1 gd (fun _ _ c cl =>
      (c.gr cl gd &&& ~~~ BitVec.ofNat 64 ((2 ^ (len + 1) - 1) * 2 ^ ((c.gr cl gb).toNat % 64)))
        ||| (BitVec.ofNat 64 ((c.gr cl ga).toNat * 2 ^ ((c.gr cl gb).toNat % 64)) &&& BitVec.ofNat 64 ((2 ^ (len + 1) - 1) * 2 ^ ((c.gr cl gb).toNat % 64))))) ∧
  ∀ p gd ga, ∃ z : Dword → Nat, (∀ v, z v ≤ 64 ∧ v.toNat < 2 ^ (64 - z v) ∧ (z v < 64 → 2 ^ (63 - z v) ≤ v.toNat)) ∧
    GResult (.gclz p gd ga) p 1 gd (fun _ _ c cl => BitVec.ofNat 64 (z (c.gr cl ga)))

/-- R251 to R254 (10): every X-slot instruction that has a result completes from every state and writes it in every acting cluster, from
that cluster's own registers: one cycle after issue, XCADV and XDIAG two; i registers modulo 2^32, XTOG a g register. Nothing else
changes, no kstat bit among it. -/
def Obligations.IndexArithmeticResults : Prop :=
  (∀ p id ia ib : Nat,
    IResult (.xadd p id ia ib) p 1 id (fun c cl => c.ir cl ia + c.ir cl ib) ∧
    IResult (.xsub p id ia ib) p 1 id (fun c cl => (c.ir cl ia : Int) - c.ir cl ib) ∧
    IResult (.xshl p id ia ib) p 1 id (fun c cl => c.ir cl ia * 2 ^ (c.ir cl ib % 32)) ∧
    IResult (.xand p id ia ib) p 1 id (fun c cl => (c.ir cl ia &&& c.ir cl ib : Nat)) ∧
    IResult (.xpopc p id ia) p 1 id (fun c cl => ((List.range 32).filter fun j => (c.ir cl ia).testBit j).length) ∧
    IResult (.xpopb p id ia ib) p 1 id (fun c cl => ((List.range (min (c.ir cl ib) 32)).filter fun j => (c.ir cl ia).testBit j).length) ∧
    IResult (.xmin p id ia ib) p 1 id (fun c cl => (min (c.ir cl ia) (c.ir cl ib) : Nat)) ∧
    IResult (.xmax p id ia ib) p 1 id (fun c cl => (max (c.ir cl ia) (c.ir cl ib) : Nat)) ∧
    IResult (.xsel p id ia ib) p 1 id (fun c cl => if c.ir cl id = 0 then c.ir cl ib else c.ir cl ia) ∧
    IResult (.xcadv p id ia ib) p 2 id (fun c cl =>
      let pa := c.ir cl id % 2 ^ 16
      let pb := c.ir cl id / 2 ^ 16
      (if c.ir cl ib ≤ c.ir cl ia then (pb + 1) % 2 ^ 16 else pb : Nat) * 2 ^ 16 + (if c.ir cl ia ≤ c.ir cl ib then (pa + 1) % 2 ^ 16 else pa : Nat)) ∧
    IResult (.xdiagStep p id ia ib) p 2 id (fun c cl =>
      let lo := c.ir cl id % 2 ^ 16
      let hi := c.ir cl id / 2 ^ 16
      let mid := (lo + hi) / 2
      if lo < hi then (if c.ir cl ia + mid + 1 ≤ c.ir cl ib then hi * 2 ^ 16 + (mid + 1) else mid * 2 ^ 16 + lo : Nat) else (hi * 2 ^ 16 + lo : Nat)) ∧
    IResult (.xdiagMid p id ia) p 2 id (fun c cl => ((c.ir cl ia % 2 ^ 16 + c.ir cl ia / 2 ^ 16) / 2 : Nat)) ∧
    GResult (.xtog p id ia) p 1 id (fun _ _ c cl => BitVec.ofNat 64 (c.ir cl ia)) ∧
    IResult (.xfrg p id ia) p 1 id (fun c cl => (c.gr cl ia).toNat)) ∧
  (∀ p id ia imm, imm < 2 ^ 10 →
    IResult (.xaddi p id ia imm none) p 1 id (fun c cl => c.ir cl ia + (BitVec.ofNat 10 imm).toInt) ∧
    IResult (.xli p id imm none) p 1 id (fun _ _ => (BitVec.ofNat 10 imm).toInt) ∧
    ∀ x, x < 2 ^ 24 →
      IResult (.xaddi p id ia imm (some x)) p 1 id (fun c cl => c.ir cl ia + (BitVec.ofNat 34 (x * 2 ^ 10 + imm)).toInt) ∧
      IResult (.xli p id imm (some x)) p 1 id (fun _ _ => (BitVec.ofNat 34 (x * 2 ^ 10 + imm)).toInt)) ∧
  ∀ p id ia ib, ∃ pos : Nat → Nat → Nat,
    (∀ a r, (((List.range 32).filter fun j => a.testBit j).length ≤ r → pos a r = 32) ∧
      (r < ((List.range 32).filter fun j => a.testBit j).length →
        pos a r < 32 ∧ a.testBit (pos a r) = true ∧ ((List.range (pos a r)).filter fun j => a.testBit j).length = r)) ∧
    IResult (.xrank p id ia ib) p 1 id (fun c cl => pos (c.ir cl ia) (c.ir cl ib))

/-- R255 and R257 (10): XAQ and XAQS complete from every state: with a true predicate each puts one request behind the others of every
cluster's address queue, for the element idx = sext(i[ia], 32) + sext(imm10, 10): XAQ of MFMT's size at virtual address DST + idx × mb,
XAQS of FMT's size at byte offset BASE + idx × fb of the polder. An XAQS whose descriptor names no polder raises OVRN. -/
def Obligations.GatherRequestSlots : Prop :=
  ∀ p sn ia imm, imm < 2 ^ 10 →
    SlotRule (.xaq p sn ia imm) (whenTrue p fun _ _ c =>
      { c with aq := iterate (fun cl q => KMap.ins cl (KMap.get [] q cl ++ [{
          srf := false, addr := (((c.kern.port sn).dst : Int) + ((BitVec.ofNat 32 (c.ir cl ia)).toInt + (BitVec.ofNat 10 imm).toInt) * fmtBytes (c.kern.port sn).mfmt)
            % 2 ^ 48 |>.toNat,
          bytes := fmtBytes (c.kern.port sn).mfmt, handle := 0, state := 0, acc := 0, data := 0, due := 0 }]) q) 16 c.aq }) ∧
    SlotRule (.xaqs p sn ia imm) (whenTrue p fun _ _ c =>
      let q : Ctx := { c with aq := iterate (fun cl q => KMap.ins cl (KMap.get [] q cl ++ [{
          srf := true, addr := (((c.kern.port sn).base : Int) + ((BitVec.ofNat 32 (c.ir cl ia)).toInt + (BitVec.ofNat 10 imm).toInt) * fmtBytes (c.kern.port sn).fmt)
            % 2 ^ 32 |>.toNat,
          bytes := fmtBytes (c.kern.port sn).fmt, handle := (c.kern.port sn).polder.getD 64, state := 0, acc := 0, data := 0, due := 0 }]) q) 16 c.aq }
      if (c.descPolder (c.kern.port sn)).isNone then q.later 0 (.flags 512) else q)

/-- R236 (09): every integer V-slot instruction of the table with one or two operands completes from every state; each active element of
the destination receives, two cycles after issue, the value that the table gives (`r`, in words of the element width), and none raises a
flag of its own. `x.toInt` reads an element as signed, `x.toNat` as unsigned; a shift amount is b mod w. -/
def Obligations.VectorIntegerResults : Prop :=
  VInt2 .vadd 0x01 (fun _ a b => a + b) ∧
  VInt2 .vsub 0x02 (fun _ a b => a - b) ∧
  VInt2 .vadds 0x03 (fun w a b => BitVec.ofInt w (clampSigned w (a.toInt + b.toInt))) ∧
  VInt2 .vaddn 0x04 (fun w a b => BitVec.ofNat w (min (a.toNat + b.toNat) (2 ^ w - 1))) ∧
  VInt2 .vsubs 0x05 (fun w a b => BitVec.ofInt w (clampSigned w (a.toInt - b.toInt))) ∧
  VInt2 .vsubn 0x06 (fun w a b => BitVec.ofNat w (a.toNat - b.toNat)) ∧
  VInt2 .vmul 0x07 (fun _ a b => a * b) ∧
  VInt2 .vmulh 0x08 (fun w a b => BitVec.ofInt w (a.toInt * b.toInt / 2 ^ w)) ∧
  VInt2 .vmulhn 0x09 (fun w a b => BitVec.ofNat w (a.toNat * b.toNat / 2 ^ w)) ∧
  VInt2 .vmin 0x0C (fun w a b => BitVec.ofInt w (min a.toInt b.toInt)) ∧
  VInt2 .vmax 0x0D (fun w a b => BitVec.ofInt w (max a.toInt b.toInt)) ∧
  VInt2 .vminn 0x0E (fun w a b => BitVec.ofNat w (min a.toNat b.toNat)) ∧
  VInt2 .vmaxn 0x0F (fun w a b => BitVec.ofNat w (max a.toNat b.toNat)) ∧
  VInt1 .vabs 0x10 (fun w a => BitVec.ofInt w |a.toInt|) ∧
  VInt1 .vneg 0x11 (fun _ a => -a) ∧
  VInt2 .vand 0x12 (fun _ a b => a &&& b) ∧
  VInt2 .vor 0x13 (fun _ a b => a ||| b) ∧
  VInt2 .vxor 0x14 (fun _ a b => a ^^^ b) ∧
  VInt2 .vandn 0x15 (fun _ a b => a &&& ~~~b) ∧
  VInt2 .vshl 0x16 (fun w a b => BitVec.ofNat w (a.toNat * 2 ^ (b.toNat % w))) ∧
  VInt2 .vshr 0x17 (fun w a b => BitVec.ofNat w (a.toNat / 2 ^ (b.toNat % w))) ∧
  VInt2 .vsra 0x18 (fun w a b => BitVec.ofInt w (a.toInt / 2 ^ (b.toNat % w))) ∧
  VInt2 .vsrar 0x19 (fun w a b =>
    if b.toNat % w = 0 then a else BitVec.ofInt w ((a.toInt + 2 ^ (b.toNat % w - 1)) / 2 ^ (b.toNat % w))) ∧
  VInt2 .vcmpeq 0x1C (fun w a b => ones w (decide (a = b))) ∧
  VInt2 .vcmplt 0x1D (fun w a b => ones w (decide (a.toInt < b.toInt))) ∧
  VInt2 .vcmpltn 0x1E (fun w a b => ones w (decide (a.toNat < b.toNat))) ∧
  VInt2 .vcmple 0x1F (fun w a b => ones w (decide (a.toInt ≤ b.toInt))) ∧
  (∃ z : (w : Nat) → BitVec w → Nat,
    (∀ w v, z w v ≤ w ∧ v.toNat < 2 ^ (w - z w v) ∧ (z w v < w → 2 ^ (w - 1 - z w v) ≤ v.toNat)) ∧
    VInt1 .vclz 0x21 (fun w a => BitVec.ofNat w (z w a))) ∧
  VInt1 .vpopc 0x22 (fun w a => BitVec.ofNat w ((List.range w).filter fun j => a.toNat.testBit j).length)

/-- R236 and R237 (09): VSEL, VMAC, VMACW, VNARROW and VWIDEN complete from every state: two cycles after issue an active element receives a
where c ≠ 0, else b; vd + a × b with vd read at issue; the same with a and b of half width, signed or (c = 1) unsigned; the low half of a;
a of half width extended with its sign or (c = 1) with zeros. None raises a flag of its own. -/
def Obligations.VectorMixedWidthResults : Prop :=
  VRule .vsel (VForm.plain 0x20 2) (fun _ => vMap3 fun _ a b c => (if c = 0 then b else a, 0)) ∧
  VRule .vmac (fun o => { VForm.plain 0x0A 2 o with readD := true }) (fun _ e i =>
    ⟨((i.a.zip i.b).zip i.d).map fun q => ((q.2.1 + q.1.1.1 * q.1.2.1) % 2 ^ (8 * typeBytes e.t), flagOr q.1.1.2 q.1.2.2), none⟩) ∧
  (∃ ext : Nat → Bool → Nat → Int,
    (∀ h x, 0 < h → ext h false x = (BitVec.ofNat h x).toInt ∧ ext h true x = ((x % 2 ^ h : Nat) : Int)) ∧
    VRule .vmacw (fun o => { VForm.plain 0x0B 2 o with ta := o.ty - 1, tb := o.ty - 1, readD := true }) (fun o e i =>
      ⟨((i.d.zip i.a).zip i.b).map fun q =>
        (wrap (8 * typeBytes e.t) ((q.1.1.1 : Int) + ext (8 * typeBytes e.t / 2) (o.c = 1) q.1.2.1 * ext (8 * typeBytes e.t / 2) (o.c = 1) q.2.1),
          flagOr q.1.2.2 q.2.2), none⟩) ∧
    VRule .vwiden (fun o => { VForm.plain 0x1B 2 o with ta := o.ty - 1 }) (fun o e i =>
      ⟨(i.a.take ((o.len + 1) * 128 / typeBytes e.t)).map fun x => (wrap (8 * typeBytes e.t) (ext (8 * typeBytes e.t / 2) (o.c = 1) x.1), x.2), none⟩)) ∧
  VRule .vnarrow (fun o => { VForm.plain 0x1A 2 o with td := o.ty - 1, unit := typeBytes (o.ty - 1) })
    (fun _ => vMap1 fun e a => (a % 2 ^ (8 * typeBytes e.t / 2), 0))

/-- R238 and R239 (09): the floating-point instructions complete from every state. FADD, FSUB, FMUL, FMA, FMS and FNMA deliver, four cycles
after issue, the exact result of their decoded operands rounded once in the slot's mode (`fAdd`, `fMul`, `fFma`: canonical NaN, IV for a
signalling NaN, for ∞ − ∞ and for 0 × ∞); FMIN and FMAX the smaller or larger with −0 < +0, a NaN giving the canonical NaN; FSCALE a × 2^n
rounded once. FABS and FNEG change the sign bit alone; the compares deliver all ones or 0 and raise IV for a signalling NaN, FCMPLT and
FCMPLE for any NaN; FCLASS the class of the raw bits: these take no operand flush. -/
def Obligations.VectorFloatingPointResults : Prop :=
  VFp2 .fadd (VForm.plain 0x30 4) (fun f mode fl a b => fAdd f mode fl (f.decode a) (f.decode b)) ∧
  VFp2 .fsub (VForm.plain 0x31 4) (fun f mode fl a b => fAdd f mode fl (f.decode a) (f.decode b).negate) ∧
  VFp2 .fmul (VForm.plain 0x32 4) (fun f mode fl a b => fMul f mode fl (f.decode a) (f.decode b)) ∧
  VFp3 .fma (VForm.plain 0x33 4) (fun f mode fl a b c => fFma f mode fl (f.decode a) (f.decode b) (f.decode c)) ∧
  VFp3 .fms (VForm.plain 0x34 4) (fun f mode fl a b c => fFma f mode fl (f.decode a) (f.decode b) (f.decode c).negate) ∧
  VFp3 .fnma (VForm.plain 0x35 4) (fun f mode fl a b c => fFma f mode fl (f.decode a).negate (f.decode b) (f.decode c)) ∧
  VFp2 .fmin (VForm.plain 0x36 4) (fun f _ fl a b => flushSub f fl
    (if (f.decode a).isNan || (f.decode b).isNan then (f.qnan, if (f.decode a).isSig || (f.decode b).isSig then fIV else 0)
     else (if valBefore (f.decode b) (f.decode a) then b else a, 0))) ∧
  VFp2 .fmax (VForm.plain 0x37 4) (fun f _ fl a b => flushSub f fl
    (if (f.decode a).isNan || (f.decode b).isNan then (f.qnan, if (f.decode a).isSig || (f.decode b).isSig then fIV else 0)
     else (if valBefore (f.decode a) (f.decode b) then b else a, 0))) ∧
  VFp1 .fabs (VForm.move 0x38 4) (fun f _ _ a => (a % 2 ^ (f.width - 1), 0)) ∧
  VFp1 .fneg (VForm.move 0x39 4) (fun f _ _ a => ((a + 2 ^ (f.width - 1)) % 2 ^ f.width, 0)) ∧
  VFp2 .fcmpeq (VForm.move 0x3A 4) (fun f _ _ a b =>
    (if valEq (f.decode a) (f.decode b) then 2 ^ f.width - 1 else 0, if (f.decode a).isSig || (f.decode b).isSig then fIV else 0)) ∧
  VFp2 .fcmplt (VForm.move 0x3B 4) (fun f _ _ a b =>
    (if !(f.decode a).isNan && !(f.decode b).isNan && valLt (f.decode a) (f.decode b) then 2 ^ f.width - 1 else 0,
      if (f.decode a).isNan || (f.decode b).isNan then fIV else 0)) ∧
  VFp2 .fcmple (VForm.move 0x3C 4) (fun f _ _ a b =>
    (if !(f.decode a).isNan && !(f.decode b).isNan && !valLt (f.decode b) (f.decode a) then 2 ^ f.width - 1 else 0,
      if (f.decode a).isNan || (f.decode b).isNan then fIV else 0)) ∧
  VFp2 .fcmpun (VForm.move 0x3D 4) (fun f _ _ a b =>
    (if (f.decode a).isNan || (f.decode b).isNan then 2 ^ f.width - 1 else 0, if (f.decode a).isSig || (f.decode b).isSig then fIV else 0)) ∧
  VFp1 .fclass (VForm.move 0x3E 4) (fun f _ _ a =>
    (match f.decode a with
      | .inf n => if n then 2 ^ 0 else 2 ^ 7
      | .nan sig => if sig then 2 ^ 8 else 2 ^ 9
      | .nar => 2 ^ 9
      | .fin n m _ =>
        if m = 0 then (if n then 2 ^ 3 else 2 ^ 4) else if f.expo a = 0 then (if n then 2 ^ 2 else 2 ^ 5) else (if n then 2 ^ 1 else 2 ^ 6), 0)) ∧
  VFp2 .fscale (fun o => { VForm.plain 0x3F 4 o with fb := false })
    (fun f mode fl a b => fScale f mode fl (f.decode a) (max (-2000) (min 2000 (sint f.width b))))

/-- R240 to R243 (09): VCVT, VQNT, VDQ and the special functions complete from every state: VCVT converts element by element, three cycles,
an integer extended by the source's signedness into a destination that is not narrower, and saturated into a narrower one; VQNT delivers the code bytes of each block and the scale codes, four cycles; VDQ decodes a code under its
scale code and rounds it, three cycles, scale 0xFF giving a NaN and NAR; a special function delivers, twelve cycles after issue, what
`special` answers for its opcode, whose choice between two F32 neighbours is free. -/
def Obligations.VectorConversionAndSpecialResults : Prop :=
  VRule .vcvt (fun o => { VForm.plain 0x40 3 o with ta := o.c % 8 }) (fun o e i =>
    ⟨(i.a.take e.act.length).map fun x =>
      let v := typeDecode (o.c % 8) (o.c / 8 % 2 = 1) x.1
      let r := if e.t < 4 then
          (if o.c % 8 < 4 then
            (if o.c % 8 ≤ e.t then ((v.toInt % 2 ^ (8 * 2 ^ e.t)).toNat, 0) else satInt (8 * 2 ^ e.t) (o.c / 16 % 2 = 1) v.toInt)
          else toIntSat (8 * 2 ^ e.t) (o.c / 16 % 2 = 1) e.mode v)
        else (typeFmt e.t).ofVal e.mode e.flush v
      (r.1, flagOr x.2 r.2), none⟩) ∧
  VRule .vqnt (fun o => { VForm.plain 0x41 4 o with td := 0, unit := 1, whole := true }) (fun o e i =>
    let blocks := (chunksOf (8 * 2 ^ (o.c / 2)) i.a.length (i.a.zip e.act)).map (vqntBlock (o.c % 2 = 1) (typeFmt e.t))
    let codes := (blocks.map (·.2.1)).flatten
    let fl := flagsOf (blocks.map (·.2.2))
    ⟨(codes ++ List.replicate ((128 - codes.length % 128) % 128) 0).map (fun b => (b, fl)), some (o.b, packElems 8 (blocks.map (·.1)))⟩) ∧
  VRule .vdq (fun o => { VForm.move 0x42 3 o with ta := 0, tb := 0 }) (fun o e i =>
    ⟨(List.range e.act.length).map fun j =>
      let scale := (i.b.getD (j / (8 * 2 ^ (o.c / 2))) (0, 0)).1 % 256
      let v := taperedDecode (if o.c % 2 = 1 then 6 else 8) (i.a.getD j (0, 0)).1
      if scale = 255 then ((typeFmt e.t).qnan, fNAR)
      else
        let r := (typeFmt e.t).ofVal e.mode e.flush (v.scaleBy (scale - 127))
        (r.1, flagOr r.2 (if v = .nar then fNAR else 0)), none⟩) ∧
  VFp1 .frcp (VForm.plain 0x48 12) (fun f mode fl a => special f 0x48 mode fl a) ∧
  VFp1 .frsq (VForm.plain 0x49 12) (fun f mode fl a => special f 0x49 mode fl a) ∧
  VFp1 .fexp2 (VForm.plain 0x4A 12) (fun f mode fl a => special f 0x4A mode fl a) ∧
  VFp1 .flog2 (VForm.plain 0x4B 12) (fun f mode fl a => special f 0x4B mode fl a) ∧
  VFp1 .fsin (VForm.plain 0x4C 12) (fun f mode fl a => special f 0x4C mode fl a) ∧
  VFp1 .fcos (VForm.plain 0x4D 12) (fun f mode fl a => special f 0x4D mode fl a) ∧
  VFp1 .ftanh (VForm.plain 0x4E 12) (fun f mode fl a => special f 0x4E mode fl a)

/-- R244 to R248 (09): the reductions, VSCAN, VTOPK, VCOMPRESS, VEXPAND, VIDX, VMOV and VZERO complete from every state, with the latencies
that the rules give. VRSUM adds each register by the tree of R128 and then the registers from left to right, inactive elements entering as
−0 or 0; VRMAX, VRMIN and VAMAX take the extreme of the active elements; VSCAN the prefix sums (element 0 delivered by R117 and R118: a NaN
canonical, IV for a signalling one); VCOMPRESS and VEXPAND move selected
elements; VIDX a + i × b; VMOV the bits of a; VZERO zero bits. -/
def Obligations.VectorReductionAndMovementResults : Prop :=
  VRule .vrsum (reduceForm 0x50) (fun _ e i =>
    let add := addElem e.t e.mode e.flush
    let rows := (chunksOf (128 / typeBytes e.t) e.len (maskElems e.act (sumZero e.t) i.a)).map (treeSum add (Nat.log2 (128 / typeBytes e.t)))
    spread e.t (rows.tail.foldl add (rows.headD (0, 0)))) ∧
  VRule .vrmax (reduceForm 0x51) (fun _ e i =>
    spread e.t (reduceExtreme e true (if e.t < 4 then 2 ^ (8 * typeBytes e.t - 1) else (typeFmt e.t).infBits true) i.a)) ∧
  VRule .vrmin (reduceForm 0x52) (fun _ e i =>
    spread e.t (reduceExtreme e false (if e.t < 4 then 2 ^ (8 * typeBytes e.t - 1) - 1 else (typeFmt e.t).infBits false) i.a)) ∧
  VRule .vamax (reduceForm 0x53) (fun _ e i =>
    if e.t < 4 then
      let on : List Elem := (i.a.zip e.act).filterMap fun q => if q.2 then some q.1 else none
      spread e.t (on.foldl (fun (a : Nat) (x : Elem) => max a (sint (8 * typeBytes e.t) x.1).natAbs) 0, flagsOf (on.map (·.2)))
    else
      spread e.t (reduceExtreme e true 0 (i.a.map fun x =>
        (if ((typeFmt e.t).decode x.1).isNan then x.1 else x.1 % 2 ^ (8 * typeBytes e.t - 1), x.2)))) ∧
  VRule .vtopk (fun o => { VForm.move 0x54 8 o with tb := 2, whole := true }) (fun o e i =>
    let n := 128 / typeBytes e.t
    let on : List (Nat × Nat) := ((List.range i.a.length).zip (i.a.zip e.act)).filterMap fun q => if q.2.2 then some (q.2.1.1, q.1) else none
    let k := min (min (i.b.headD (0, 0)).1 64) (min n on.length)
    let top : List (Nat × Nat) := on.foldl (fun l x => topkInsert e.t k x l) []
    let fl := flagsOf (((i.a.zip e.act).filter (·.2)).map (·.1.2))
    let found := top.map (·.1) ++ List.replicate (n - top.length) 0
    let places := top.map (·.2) ++ List.replicate (64 - top.length) 0xFFFF
    ⟨found.map (fun b => (b, fl)), some (o.c, packElems 16 places)⟩) ∧
  VRule .vscan (fun o => VForm.plain 0x55 (sumLatency o) o) (fun _ e i =>
    let add := addElem e.t e.mode e.flush
    let n := 128 / typeBytes e.t
    let rows := (chunksOf n e.len (maskElems e.act (sumZero e.t) i.a)).map (scanLevels add (Nat.log2 n) 1)
    let r := rows.foldl (fun (acc : List Elem × Option Elem) row =>
      match acc.2 with
      | none => (row, row.getLast?)
      | some x => let row' := row.map (add x); (acc.1 ++ row', row'.getLast?)) ([], none)
    ⟨match r.1 with
      | [] => []
      | x :: l => passElem e.t e.mode e.flush x :: l, none⟩) ∧
  VRule .vcompress (fun o => { VForm.move 0x56 3 o with whole := true }) (fun _ e i =>
    let on : List (Elem × Elem) := ((i.a.zip i.c).zip e.act).filterMap fun q => if q.2 then some q.1 else none
    let kept : List Nat := on.filterMap fun (q : Elem × Elem) => if q.2.1 ≠ 0 then some q.1.1 else none
    ⟨(kept ++ List.replicate (i.a.length - kept.length) 0).map fun b => (b, flagsOf (on.map fun (q : Elem × Elem) => flagOr q.1.2 q.2.2)), none⟩) ∧
  VRule .vexpand (VForm.move 0x57 3) (fun _ e i => ⟨expandFrom i.a (i.c.zip e.act), none⟩) ∧
  VRule .vidx (fun o => VForm.plain 0x58 (if o.ty < 4 then 2 else 4) o) (fun _ e i =>
    ⟨((List.range i.a.length).zip (i.a.zip i.b)).map fun q =>
      if e.t < 4 then ((q.2.1.1 + q.1 * q.2.2.1) % 2 ^ (8 * typeBytes e.t), flagOr q.2.1.2 q.2.2.2)
      else
        let r := fFma (typeFmt e.t) e.mode e.flush (Val.ofInt q.1) ((typeFmt e.t).decode q.2.2.1) ((typeFmt e.t).decode q.2.1.1)
        (r.1, flagOr (flagOr q.2.1.2 q.2.2.2) r.2), none⟩) ∧
  VRule .vmov (VForm.move 0x59 2) (fun _ _ i => ⟨i.a, none⟩) ∧
  VRule .vzero (VForm.move 0x5A 2) (fun _ e _ => ⟨e.act.map fun _ => (0, 0), none⟩)

/-- R128, R129, R244, R246 and R247 (05, 09) and R273 (10) in plain words, for integer elements of `w` bits: what the tree of VRSUM adds up to is the sum of the
elements modulo 2^w; the extreme of VRMAX is the largest active element read as signed, or −2^(w−1) with none; VTOPK's list holds at
most k elements, falling by rank; the switch's butterfly leaves in every cluster the sum over all clusters modulo 2^w, and its scan levels
in cluster c the sum of the clusters from the start of its segment to c, shown for one element per cluster. -/
def Obligations.IntegerSumsAndExtremes : Prop :=
  (∀ (t mode n : Nat) (fl : Bool) (l : List Elem), t < 4 → l.length = 2 ^ n → (∀ x ∈ l, x.1 < 2 ^ (8 * typeBytes t)) →
    (treeSum (addElem t mode fl) n l).1 = (l.map (·.1)).sum % 2 ^ (8 * typeBytes t)) ∧
  (∀ (e : VEnv) (l : List Elem), e.t < 4 → (∀ x ∈ l, x.1 < 2 ^ (8 * typeBytes e.t)) →
    let r := (reduceExtreme e true (2 ^ (8 * typeBytes e.t - 1)) l).1
    (∀ q ∈ l.zip e.act, q.2 = true → sint (8 * typeBytes e.t) q.1.1 ≤ sint (8 * typeBytes e.t) r) ∧
    ((∃ q ∈ l.zip e.act, q.2 = true ∧ q.1.1 = r) ∨ r = 2 ^ (8 * typeBytes e.t - 1))) ∧
  (∀ (t k : Nat) (l : List (Nat × Nat)),
    let top := l.foldl (fun m x => topkInsert t k x m) []
    top.length = min k l.length ∧ (top.map fun q => topkKey t q.1).Pairwise (fun a b => b ≤ a) ∧ ∀ q ∈ top, q ∈ l) ∧
  ∀ (n t mode : Nat) (fl : Bool) (x : List Nat), t < 4 → x.length = 2 ^ n → (∀ v ∈ x, v < 2 ^ (8 * typeBytes t)) →
    (∀ c < 2 ^ n, ((switchStages (butterflyStage (addRows t mode fl)) n 1 (x.map fun v => ([v], 0))).getD c ([], 0)).1
      = [x.sum % 2 ^ (8 * typeBytes t)]) ∧
    ∀ (keys : List Nat), ∀ c < 2 ^ n,
      ((switchStages (switchScanLevel (addRows t mode fl) (segmentStart keys)) n 1 (x.map fun v => ([v], 0))).getD c ([], 0)).1
        = [((List.range (c + 1)).filter (segmentStart keys c ≤ ·) |>.map fun j => x.getD j 0).sum % 2 ^ (8 * typeBytes t)]

/-- R272, R273 and R274 (10): the permutations complete from every state and land whole rows in every cluster, 4 cycles after issue (6 in a
fused pair, 8 in a quad), without a flag: WPERM that of cluster i[ia] mod N, WBCAST that of cluster n, WROT that of cluster (c − n) mod N
with n signed, WBFLY that of cluster c XOR n. The sums land 8 cycles after issue for integers and 12 for the other types (11 and 16 in a
pair, 14 and 20 in a quad): WRSUM and WSCAN by the stages of R129, WSEGSUM within runs of equal keys (the first cluster of a
run delivers its own elements by R117 and R118: a NaN canonical, IV for a signalling one), WRMAX the element-wise maximum. -/
def Obligations.SwitchResults : Prop :=
  (∀ p vd vs ia, SwitchRule (.wperm p vd vs ia) p vd (bySpan 4 6 8) (fun s c t =>
    ((switchRows s vs).getD (c.ir (t % 16) ia % (16 * s.issue.length)) 0, 0))) ∧
  (∀ p vd vs n, SwitchRule (.wbcast p vd vs n) p vd (bySpan 4 6 8) (fun s _ _ => ((switchRows s vs).getD n 0, 0))) ∧
  (∀ p vd vs n, n < 2 ^ 8 → SwitchRule (.wrot p vd vs n) p vd (bySpan 4 6 8) (fun s _ t =>
    ((switchRows s vs).getD (((t : Int) - (BitVec.ofNat 8 n).toInt) % ((16 * s.issue.length : Nat) : Int)).toNat 0, 0))) ∧
  (∀ p vd vs n, SwitchRule (.wbfly p vd vs n) p vd (bySpan 4 6 8) (fun s _ t => ((switchRows s vs).getD (t ^^^ n) 0, 0))) ∧
  (∀ p vd vs n, SwitchRule (.wrsum p vd vs n) p vd (if n < 4 then bySpan 8 11 14 else bySpan 12 16 20) (fun s _ t =>
    let r := (switchStages (butterflyStage (switchAdd s n)) (Nat.log2 (16 * s.issue.length)) 1 (switchInputs s vs n)).getD t ([], 0)
    (packElems (8 * typeBytes n) r.1, r.2))) ∧
  (∀ p vd vs n, SwitchRule (.wscan p vd vs n) p vd (if n < 4 then bySpan 8 11 14 else bySpan 12 16 20) (fun s _ t =>
    let own := (switchStages (switchScanLevel (switchAdd s n) (fun _ => 0)) (Nat.log2 (16 * s.issue.length)) 1 (switchInputs s vs n)).getD t ([], 0)
    let r := if t = 0 then passRow s n own else own
    (packElems (8 * typeBytes n) r.1, r.2))) ∧
  (∀ p vd vs n ia, SwitchRule (.wsegsum p vd vs n ia) p vd (if n < 4 then bySpan 8 11 14 else bySpan 12 16 20) (fun s _ t =>
    let keys := (s.issue.map fun k => match s.ctx k with
      | none => List.replicate 16 0
      | some c => (List.range 16).map fun cl => c.ir cl ia).flatten
    let own := (switchStages (switchScanLevel (switchAdd s n) (segmentStart keys)) (Nat.log2 (16 * s.issue.length)) 1 (switchInputs s vs n)).getD t ([], 0)
    let r := if segmentStart keys t = t then passRow s n own else own
    (packElems (8 * typeBytes n) r.1, r.2))) ∧
  ∀ p vd vs n, SwitchRule (.wrmax p vd vs n) p vd (if n < 4 then bySpan 8 11 14 else bySpan 12 16 20) (fun s _ t =>
    let x := switchInputs s vs n
    let env : VEnv := ⟨n, 0, match s.leader with | none => false | some (_, l) => l.kern.exposed, 1, List.replicate x.length true⟩
    let es := (List.range (128 / typeBytes n)).map fun j =>
      reduceExtreme env true (if n < 4 then 2 ^ (8 * typeBytes n - 1) else (typeFmt n).infBits true) (x.map fun r => (r.1.getD j 0, 0))
    if t < x.length then (packElems (8 * typeBytes n) (es.map (·.1)), flagsOf (es.map (·.2))) else (0, 0))

/-- R262 to R266 (10): the port instructions complete from every state. With a true predicate SPOP moves the port on by its row steps and its
rows land three cycles after issue; SPEEK delivers the same rows and moves nothing; SPUSH has its rows written on the next cycle; SADV moves
POS by n records clamped to 0 and LEN, or the head of a ring or queue by at most what is available, with OVRN where it falls short; SPOS
sets POS to element 0 of v in cluster 0, at most LEN; SEOS marks a queue closed once the earlier pushes are written, and does nothing on
another polder; SFLUSH, once its bundle issues, changes nothing. -/
def Obligations.StreamPortSlots : Prop :=
  (∀ p sn v len, SlotRule (.spop p sn v len) (whenTrue p fun s k c =>
    let r := rawPop (s.sp k).srf c sn v len
    ((c.popAdvance sn ((len + 1) * stepElems (c.kern.port sn) 0 / (c.kern.port sn).recn)).later 3 (.rows r.1)).raiseIn 3 r.2)) ∧
  (∀ p sn v len, SlotRule (.speek p sn v len) (whenTrue p fun s k c =>
    let r := rawPop (s.sp k).srf c sn v len
    (c.later 3 (.rows r.1)).raiseIn 3 r.2)) ∧
  (∀ p sn v len, SlotRule (.spush p sn v len) (whenTrue p fun _ _ c =>
    c.pushRaw sn 1 ((List.range (len + 1)).map fun l =>
      ((List.range 16).map fun cl => rowElems (fmtBytes (c.kern.port sn).fmt) (c.vr cl (v + l))).flatten) 0)) ∧
  (∀ p sn imm, imm < 2 ^ 11 → SlotRule (.sadv p sn imm none) (whenTrue p fun _ _ c => c.sadv sn (BitVec.ofNat 11 imm).toInt)) ∧
  (∀ p sn imm x, imm < 2 ^ 11 → x < 2 ^ 24 →
    SlotRule (.sadv p sn imm (some x)) (whenTrue p fun _ _ c => c.sadv sn (BitVec.ofNat 35 (x * 2 ^ 11 + imm)).toInt)) ∧
  (∀ (c : Ctx) (sn : Nat) (n : Int) (q : Polder), c.descPolder (c.kern.port sn) = some q → q.kind = 0 →
    ∃ d fl, c.sadv sn n = ({ c with kern := { c.kern with ports := KMap.ins sn { c.kern.port sn with pos := d } c.kern.ports } } : Ctx).raiseIn 0 fl ∧
      (d : Int) = max 0 (min ((c.kern.port sn).len : Int) (((c.kern.port sn).pos : Int) + n)) ∧ (fl = if (d : Int) = ((c.kern.port sn).pos : Int) + n then 0 else fOVRN)) ∧
  (∀ (c : Ctx) (sn h : Nat) (n : Nat) (q : Polder), (c.kern.port sn).polder = some h → c.polder h = some q → q.kind ≠ 0 →
    c.sadv sn n = (c.modPolder h fun r => { r with head := (r.head + min n (availRecs (c.kern.port sn) q)) % 2 ^ 32 }).raiseIn 0
      (if availRecs (c.kern.port sn) q < n then fOVRN else 0)) ∧
  (∀ p sn v, SlotRule (.spos p sn v) (whenTrue p fun _ _ c =>
    { c with kern := { c.kern with ports := KMap.ins sn { c.kern.port sn with pos := min (c.vr 0 v % 2 ^ 32) (c.kern.port sn).len } c.kern.ports } })) ∧
  (∀ p sn, SlotRule (.sflush p sn) fun _ _ c => c) ∧
  ∀ p sn, SlotRule (.seos p sn) (whenTrue p fun _ _ c =>
    match (c.kern.port sn).polder with
    | none => c
    | some h =>
      if pushesLeft c.kern sn = 0 then c.modPolder h fun q => { q with eos := q.eos || decide (q.kind = 2) } else c.later (pushesLeft c.kern sn) (.eos h))

/-- R264 and R265 (10): what a port lets a pop read, and how pops and pushes move it. On a linear polder an element at or past LEN × RECN pops
as 0 with OVRN, POS never passes LEN, and a pushed element past the end is discarded with OVRN; on a ring or queue the head moves by what is
available, which is whole tiles unless a closed queue, and a push reserves its room. -/
def Obligations.StreamPortLimits : Prop :=
  (∀ (m : KMap Row) (c : Ctx) (d : Desc) (q : Polder) (t mode limit e : Nat), limit ≤ e → popElem m c d q t mode limit e = (0, fOVRN)) ∧
  (∀ (d : Desc) (q : Polder), q.kind = 0 → popLimit d q = d.len * d.recn ∧ popStart d q = d.pos) ∧
  (∀ (d : Desc) (q : Polder), q.kind ≠ 0 → q.head ≤ q.tail → q.tail < 2 ^ 32 →
    popStart d q = q.head ∧
    (q.eos = true → q.kind = 2 → availRecs d q = q.tail - q.head) ∧
    (q.eos = false → availRecs d q = q.tail - q.tail % d.tileRecs - q.head) ∧
    roomRecs d q = d.capacity q - (q.tail - (q.head - q.head % d.tileRecs) + q.room)) ∧
  (∀ (c : Ctx) (sn n : Nat) (q : Polder), c.descPolder (c.kern.port sn) = some q → q.kind = 0 → (c.kern.port sn).pos ≤ (c.kern.port sn).len →
    ((c.popAdvance sn n).kern.port sn).pos = min ((c.kern.port sn).pos + n) (c.kern.port sn).len ∧
    ((c.popAdvance sn n).kern.port sn).pos ≤ ((c.popAdvance sn n).kern.port sn).len ∧ (c.popAdvance sn n).polders = c.polders) ∧
  (∀ (c : Ctx) (sn n h : Nat) (q : Polder), (c.kern.port sn).polder = some h → c.polder h = some q → q.kind ≠ 0 →
    (c.popAdvance sn n).polder h = some { q with head := (q.head + min n (availRecs (c.kern.port sn) q)) % 2 ^ 32 }) ∧
  (∀ (d : Desc) (q : Polder) (e : Nat) (es : List Nat), q.kind = 0 →
    (pushKeep d q e es).1 = es.take (d.len * d.recn - e) ∧ (pushKeep d q e es).2 = decide (d.len * d.recn - e < es.length)) ∧
  (∀ (d : Desc) (q : Polder) (e : Nat) (es : List Nat), q.kind ≠ 0 → pushKeep d q e es = (es, false)) ∧
  ∀ (c : Ctx) (sn left : Nat) (rows : List (List Nat)) (fl h : Nat) (q : Polder), (c.kern.port sn).polder = some h → c.polder h = some q →
    q.kind ≠ 0 → (c.pushRaw sn left rows fl).polder h = some { q with room := q.room + rows.flatten.length / (c.kern.port sn).recn }

/-- R259, R267 to R270 (10): the direct accesses, the lock instructions and the data-queue instructions complete from every state. SLD and SST
take byte offset imm + 128 c, unsigned, in every acting cluster: SLD reads on the next cycle, SST writes then; SLDL takes the locks, reads the
element at i[ia] rounded down, three cycles, in the clusters that hold theirs; SSTU stores element 0 of v on the next cycle, releases the
locks and closes the section; DQPOP pops up to n + 1 entries, the missing ones reading 0 with DQE; DQN counts (an
entry behind one that has not arrived has not landed). A lock goes to
the lowest-numbered cluster that asks, unless another holds it, never to two clusters, and only a cluster that asked acts. -/
def Obligations.DirectAccessAndQueueSlots : Prop :=
  (∀ p sn v imm x, SlotRule (.sld p sn v imm x) fun _ _ c =>
    if c.kern.predOn p then
      (c.later 1 (.fetch (portHandle c sn) ((c.kern.acting false).map fun cl =>
        (cl, c.kern.phys v, (match x with | none => imm | some h => h * 2 ^ 11 + imm) + 128 * cl)))).raiseIn 3 (noneFlag c sn)
    else c) ∧
  (∀ p sn v imm x, SlotRule (.sst p sn v imm x) fun _ _ c =>
    if c.kern.predOn p then
      (c.laters 1 ((c.kern.acting false).map fun cl =>
        .srf (portHandle c sn) ((match x with | none => imm | some h => h * 2 ^ 11 + imm) + 128 * cl) 128 (c.vr cl v))).raiseIn 0 (noneFlag c sn)
    else c) ∧
  (∀ p sn v ia w, SlotRule (.sldl p sn v ia w) fun s k c =>
    if c.kern.predOn p then
      let d := c.openLock sn ia w
      (d.later 3 (.rows ((d.kern.acting false).map fun cl =>
        wholeRow d.kern cl v (ofBytes (srfLoad (s.sp k).srf d (portHandle d sn) (d.ir cl ia - d.ir cl ia % 2 ^ w) (2 ^ w)))))).raiseIn 3 (noneFlag d sn)
    else c) ∧
  (∀ p sn v ia w, SlotRule (.sstu p sn v ia w) fun _ _ c =>
    let cls := if c.kern.predOn p then c.kern.acting false else []
    let d := (c.laters 1 (cls.map fun cl => .srf (portHandle c sn) (c.ir cl ia - c.ir cl ia % 2 ^ w) (2 ^ w) (c.vr cl v % 2 ^ (8 * 2 ^ w)))).raiseIn 0
      (if cls = [] then 0 else noneFlag c sn)
    { d with lockHeld := cls.foldl (fun h cl => KMap.del cl h) d.lockHeld,
             kern := { d.kern with lock := d.kern.lock.map fun l => { l with closing := true } } }) ∧
  (∀ p v n w, SlotRule (.dqpop p v n w) (whenTrue p fun _ _ c =>
    let rows := (List.range 16).map fun cl => wholeRow c.kern cl v (packElems (8 * 2 ^ w) (((c.dqOf cl).take (n + 1)).map fun r => r.data.toNat))
    { (c.later 2 (.rows rows)).raiseIn 2 (if ∃ cl ∈ List.range 16, (c.dqOf cl).length < n + 1 then fDQE else 0) with
        dq := iterate (fun cl q => KMap.ins cl ((KMap.get [] q cl).drop (n + 1)) q) 16 c.dq })) ∧
  (∀ p v, SlotRule (.dqn p v) (whenTrue p fun s _ c =>
    c.later 2 (.rows ((List.range 16).map fun cl =>
      let landed := ((c.dqOf cl).takeWhile fun r => decide (r.state = 1) && decide (r.due ≤ s.now)).length
      wholeRow c.kern cl v (packElems 32 [landed, (c.dqOf cl).length - landed, (c.aqOf cl).length]))))) ∧
  ∀ (want : Nat → Nat) (held : KMap Nat) (cand : List Nat), cand.Pairwise (· < ·) → (∀ cl ∈ cand, KMap.find cl held = none) →
    let h := grantLocks want held cand
    ∀ cl ∈ cand, (cl ∈ lockWinners want h cand ↔ (∀ e ∈ held, e.2 ≠ want cl) ∧ ∀ d ∈ cand, d < cl → want d ≠ want cl)

/-- R271 (10): KCOPY completes from every state: with a true predicate a copy joins the kernel copy queue with the descriptor as the port
stands, unless the token of DST's region is still missing, which sets TOKW and starts none. -/
def Obligations.KernelCopySlot : Prop :=
  ∀ p sn dir limit, SlotRule (.kcopy p sn dir limit) (whenTrue p fun s _ c =>
    if kcopyFree s c (c.kern.port sn) then
      { c.forgetUnchecked with kern := { c.kern with
          kcq := c.kern.kcq ++ [{ desc := c.kern.port sn, idxDesc := Desc.init, dir := dir, seq := c.kern.kcN }], kcN := c.kern.kcN + 1 } }
    else c.later 0 (.flags 4096))

/-- R282 to R287 (11): the M-slot instructions complete from every state. With a true predicate MCALL and MZERO put one entry behind the call
queue, with m0 to m7 as they stand, and set the watermark of every tile of their span to 0; MMODE and MWM set the mode and the guard of their
tile; MFENCE, once its bundle issues, changes nothing. -/
def Obligations.MatrixSlots : Prop :=
  (∀ p routine tile a b flags, SlotRule (.mcall p routine tile a b flags) (whenTrue p fun s _ c =>
    { c with matrix := { c.matrix with
        queue := c.matrix.queue ++ [
          { id := c.matrix.nextCall, zero := false, routine := routine, tile := tile, span := flags / 4 + 1, a := a, b := b,
            keep := flags.testBit 0, spb := flags.testBit 1, m := c.kern.m, bundle := c.kern.pc, exposed := c.kern.exposed, from_ := s.now + 2 }],
        nextCall := c.matrix.nextCall + 1,
        wm := ((List.range (flags / 4 + 1)).map fun i => (tile + i) % 4).foldl (fun w t => KMap.ins t 0 w) c.matrix.wm } })) ∧
  (∀ p tile, tile < 4 → SlotRule (.mzero p tile) (whenTrue p fun s _ c =>
    { c with matrix := { c.matrix with
        queue := c.matrix.queue ++ [
          { id := c.matrix.nextCall, zero := true, routine := 0, tile := tile, span := 1, a := 0, b := 0, keep := false,
            spb := false, m := c.kern.m, bundle := c.kern.pc, exposed := c.kern.exposed, from_ := s.now + 2 }],
        nextCall := c.matrix.nextCall + 1, wm := KMap.ins tile 0 c.matrix.wm } })) ∧
  (∀ p tile v, SlotRule (.mmode p tile v) (whenTrue p fun _ _ c => { c with matrix := { c.matrix with mode := KMap.ins tile v c.matrix.mode } })) ∧
  (∀ p, SlotRule (.mfence p) fun _ _ c => c) ∧
  ∀ p tile v, SlotRule (.mwm p tile v) (whenTrue p fun _ _ c => { c with matrix := { c.matrix with guard := KMap.ins tile v c.matrix.guard } })

/-- R299 and R300 (11): while a routine runs, RPOP moves the head of its ring on by n records (waiting while they are not there) and the cursor with
it; RPEEK sets the cursor to the head + n; ROWG sets the base row group; ACCSEL the selected tile; PARM a register from half of a captured
m register; JMP goes forwards; LOOPK opens a loop of c iterations or skips its body; WMSET raises the tile's watermark at once, or asks for it while an update
of the routine below it is in flight; RET ends the words. Each
completes in one micro-op cycle, and changes nothing else of the machine. -/
def Obligations.MicroOpsThatSteer : Prop :=
  ∀ (s : State) (c : Ctx) (r : Routine), s.ctx s.cur = some c → c.matrix.run = some r → r.cycles < 4096 →
    (∀ ring reg n q h, let sn := if ring = 0 then r.call.a else r.call.b
      (c.kern.port sn).polder = some h → c.polder h = some q →
      (ringCount r reg n ≤ availRecs (c.kern.port sn) q → ∃ r', MicroStep (.rpop ring reg n) s
        (c.modPolder h fun q => { q with head := (q.head + ringCount r reg n) % 2 ^ 32 }) r' ∧
        ((if ring = 0 then r'.curA else r'.curB) =
          let cur := if ring = 0 then r.curA else r.curB
          let head := (q.head + ringCount r reg n) % 2 ^ 32
          if (head + 2 ^ 32 - cur % 2 ^ 32) % 2 ^ 32 < 2 ^ 31 then head else cur) ∧
        (r'.pc, r'.loops) = microNext r.pc r.loops ∧ r'.cycles = r.cycles + 1 ∧ r'.k = r.k) ∧
      (availRecs (c.kern.port sn) q < ringCount r reg n → (q.kind = 2 → q.eos = false) → MicroStep (.rpop ring reg n) s c r) ∧
      ∃ r', MicroStep (.rpeek ring reg n) s c r' ∧ (if ring = 0 then r'.curA else r'.curB) = (q.head + ringCount r reg n) % 2 ^ 32 ∧
        (if ring = 0 then r'.curB else r'.curA) = (if ring = 0 then r.curB else r.curA) ∧ (r'.pc, r'.loops) = microNext r.pc r.loops ∧
        r'.cycles = r.cycles + 1) ∧
    (∀ inc g, MicroStep (.rowg inc g) s c ({ r with gbase := if inc = 1 then (r.gbase + 1) % 4 else g }.pass r.pc 1)) ∧
    (∀ n, n < r.call.span → MicroStep (.accsel n) s c ({ r with sel := n }.pass r.pc 1)) ∧
    (∀ kd m half, MicroStep (.parm kd m half) s c
      ({ r with k := KMap.ins kd (BitVec.ofNat 32 ((KMap.get 0 r.call.m m).toNat / 2 ^ (32 * half))) r.k }.pass r.pc 1)) ∧
    (∀ d, r.pc + d < r.words.length → (∀ l ∈ r.loops, r.pc + d ≤ l.stop) → MicroStep (.jmp d) s c { r with pc := r.pc + d, cycles := r.cycles + 1 }) ∧
    (∀ most reg k body, r.pc + body < r.words.length →
      let n := if reg = 0 then most else min (KMap.get 0 r.k k).toNat most
      (n ≠ 0 → body ≠ 0 → r.loops.length < 2 → MicroStep (.loopk most reg k body) s c
        { r with pc := r.pc + 1, loops := { left := n, start := r.pc + 1, stop := r.pc + body } :: r.loops, cycles := r.cycles + 1 }) ∧
      (n = 0 ∨ body = 0 → MicroStep (.loopk most reg k body) s c (r.pass (r.pc + body) 1))) ∧
    (∀ n g rows, n ≤ 32 → r.wms = [] → rows = (if g = 1 then 8 * (r.gbase + 1) else n) →
      ((∃ u ∈ c.matrix.upd, u.owner = r.call.id ∧ u.tile = r.selTile ∧ u.no < c.matrix.nextUpd ∧ u.row0 < rows) →
        MicroStep (.wmset n g) s c (Routine.pass { r with wms := [{ tile := r.selTile, rows := rows, before := c.matrix.nextUpd }] } r.pc 1)) ∧
      ((∀ u ∈ c.matrix.upd, u.owner = r.call.id → u.tile = r.selTile → u.no < c.matrix.nextUpd → rows ≤ u.row0) → c.matrix.younger r.call.id r.selTile = false →
        MicroStep (.wmset n g) s { c with matrix := { c.matrix with wm := KMap.ins r.selTile (max (c.matrix.wmOf r.selTile) rows) c.matrix.wm } } (r.pass r.pc 1))) ∧
    exec .ret s = .next (s.setCtx s.cur { c with matrix := { c.matrix with
      run := none, retiring := c.matrix.retiring ++ [{ r with done := true, cycles := r.cycles + 1 }] } })

/-- R289, R294, R295 and R299 (11): while a routine runs and the records are there, KSTEP and KSTEPS read one chunk at the cursors and queue, for the
row group of the selected tile, one update of every accumulator with the exact sums of the chunk, KSTEP 6 cycles before it lands; ACCZ queues
zeros and EPI a function of every accumulator; BMCHK checks the header of the B record at the cursor. None applies below the tile's
watermark, where the routine is in error (`MatrixRoutineErrors`). Nothing else of the machine changes. -/
def Obligations.MicroOpsThatUpdate : Prop :=
  ∀ (s : State) (c : Ctx) (r : Routine), s.ctx s.cur = some c → c.matrix.run = some r → r.cycles < 4096 →
    (∀ g, c.matrix.wmOf r.selTile ≤ 8 * r.group g →
      MicroStep (.accz g) s { c with matrix := { c.matrix with
        upd := c.matrix.upd ++ [
          { left := 6, owner := r.call.id, no := c.matrix.nextUpd, kind := 5, mode := c.matrix.modeOf r.selTile,
            exposed := r.call.exposed, tile := r.selTile, row0 := 8 * r.group g, sums := [], factor := 0, flags := 0 }],
        nextUpd := c.matrix.nextUpd + 1 } } (r.pass r.pc 1) ∧
      ∀ fn k, fn < 3 → MicroStep (.epi g fn k) s { c with matrix := { c.matrix with
        upd := c.matrix.upd ++ [
          { left := 6, owner := r.call.id, no := c.matrix.nextUpd, kind := 2 + fn, mode := c.matrix.modeOf r.selTile,
            exposed := r.call.exposed, tile := r.selTile, row0 := 8 * r.group g, sums := [], factor := KMap.get 0 r.k k, flags := 0 }],
        nextUpd := c.matrix.nextUpd + 1 } } (r.pass r.pc 1)) ∧
    (∀ g na nb noacc qa qb, c.descPolder (c.kern.port r.call.a) = some qa → c.descPolder (c.kern.port r.call.b) = some qb → r.call.spb = false →
      2 ^ 31 ≤ dif32 r.curA ((qa.head + availRecs (c.kern.port r.call.a) qa) % 2 ^ 32) → 2 ^ 31 ≤ dif32 r.curB ((qb.head + availRecs (c.kern.port r.call.b) qb) % 2 ^ 32) →
      c.matrix.wmOf r.selTile ≤ 8 * r.group g →
      ∃ sums fl, MicroStep (.kstep g na nb noacc) s { c with matrix := { c.matrix with
          upd := c.matrix.upd ++ [
          { left := 6, owner := r.call.id, no := c.matrix.nextUpd,
            kind := if noacc = 1 ∨ (r.firstSet = true ∧ (r.highA = 0 ∨ r.highA = r.curA + 1)) then 1 else 0, mode := c.matrix.modeOf r.selTile,
            exposed := r.call.exposed, tile := r.selTile, row0 := 8 * r.group g, sums := sums, factor := 0, flags := fl }],
          nextUpd := c.matrix.nextUpd + 1 } }
        ({ r with curA := r.curA + na, curB := r.curB + nb, highA := max r.highA (r.curA + 1), highB := max r.highB (r.curB + 1) }.pass r.pc 1) ∧
      ∀ cl < 16, ∀ i < 8, ∃ row, (cl, 8 * r.group g + i, row) ∈ sums ∧ row.length = 32 ∧ ∀ n < 32,
        row[n]? = some (modeSum (c.matrix.modeOf r.selTile) ((List.range (chunkK (c.kern.port r.call.a).fmt)).map fun k =>
          ((recordVal (s.sp s.cur).srf c (c.kern.port r.call.a) qa false r.curA
              (aByte (chunkK (c.kern.port r.call.a).fmt) (fmtBytes (c.kern.port r.call.a).fmt) cl (8 * r.group g + i) k)).1,
            (recordVal (s.sp s.cur).srf c (c.kern.port r.call.b) qb false r.curB ((k * 32 + n) * fmtBytes (c.kern.port r.call.a).fmt)).1))).1) ∧
    (∀ qb, c.descPolder (c.kern.port r.call.b) = some qb → r.call.spb = true →
      2 ^ 31 ≤ dif32 r.curB ((qb.head + availRecs (c.kern.port r.call.b) qb) % 2 ^ 32) →
      let d := c.kern.port r.call.b
      let len := polNum (s.sp s.cur).srf qb (r.curB * d.recBytes) 4
      let bm := polNum (s.sp s.cur).srf qb (r.curB * d.recBytes + 128) (8 * chunkK d.fmt)
      MicroStep .bmchk s (if len = popcount (64 * chunkK d.fmt) bm then c.orKstat 0 else c.orKstat fSPLEN)
        (Routine.pass { r with checked := some r.curB, bmap := bm, blen := len, highB := max r.highB (r.curB + 1) } r.pc 1)) ∧
    ∀ g na nb noacc qa qb, c.descPolder (c.kern.port r.call.a) = some qa → c.descPolder (c.kern.port r.call.b) = some qb → r.call.spb = true →
      r.checked = some r.curB → r.cycles < 4095 → 2 ^ 31 ≤ dif32 r.curA ((qa.head + availRecs (c.kern.port r.call.a) qa) % 2 ^ 32) →
      2 ^ 31 ≤ dif32 (r.curA + 1) ((qa.head + availRecs (c.kern.port r.call.a) qa) % 2 ^ 32) →
      2 ^ 31 ≤ dif32 r.curB ((qb.head + availRecs (c.kern.port r.call.b) qb) % 2 ^ 32) → c.matrix.wmOf r.selTile ≤ 8 * r.group g →
      ∃ n sums fl, (n = 1 ∨ n = 2) ∧ MicroStep (.ksteps g na nb noacc) s { c with matrix := { c.matrix with
          upd := c.matrix.upd ++ [
          { left := 5 + n, owner := r.call.id, no := c.matrix.nextUpd, kind := if noacc = 1 then 1 else 0,
            mode := c.matrix.modeOf r.selTile, exposed := r.call.exposed, tile := r.selTile, row0 := 8 * r.group g, sums := sums, factor := 0,
            flags := fl }],
          nextUpd := c.matrix.nextUpd + 1 } }
        ({ r with curA := r.curA + 2 * na, curB := r.curB + nb, highA := max r.highA (r.curA + 2), highB := max r.highB (r.curB + 1) }.pass r.pc n)

/-- R301 and R302 (11): the errors of a routine. At its 4,097th cycle every micro-op, RET among them, unless it waits for its records, and otherwise WMSET above 32, EPI with fn 3, ACCSEL
beyond the span, an update below the watermark, KSTEPS on an unchecked block or without SPB, BMCHK without SPB, KSTEP with SPB, a third
open loop, a body or a jump that leaves the routine: the routine stops, kernel event ILLEGAL (cause 2) with SLOT 5 is raised at the MCALL's
bundle, the kernel ends, the queue is emptied and every watermark reads 32. -/
def Obligations.MatrixRoutineErrors : Prop :=
  (∀ (s : State) (c : Ctx) (r : Routine), s.ctx s.cur = some c → c.matrix.run = some r →
    (4096 ≤ r.cycles → exec .ret s = .next (s.routineError s.cur) ∧ ∀ g na nb noacc inc fn k, exec (.accz g) s = .next (s.routineError s.cur) ∧
      exec (.rowg inc g) s = .next (s.routineError s.cur) ∧ exec (.epi g fn k) s = .next (s.routineError s.cur) ∧
      (exec (.kstep g na nb noacc) s = .next (s.routineError s.cur) ∨ MicroStep (.kstep g na nb noacc) s c r) ∧
      (exec (.ksteps g na nb noacc) s = .next (s.routineError s.cur) ∨ MicroStep (.ksteps g na nb noacc) s c r)) ∧
    (r.cycles < 4096 →
      (∀ n g, 32 < n → exec (.wmset n g) s = .next (s.routineError s.cur)) ∧
      (∀ g k, exec (.epi g 3 k) s = .next (s.routineError s.cur)) ∧
      (∀ n, r.call.span ≤ n → exec (.accsel n) s = .next (s.routineError s.cur)) ∧
      (∀ g, 8 * r.group g < c.matrix.wmOf r.selTile → exec (.accz g) s = .next (s.routineError s.cur)) ∧
      (∀ d, r.words.length ≤ r.pc + d ∨ (∃ l ∈ r.loops, l.stop < r.pc + d) → exec (.jmp d) s = .next (s.routineError s.cur)) ∧
      (∀ most reg k body, r.words.length ≤ r.pc + body → exec (.loopk most reg k body) s = .next (s.routineError s.cur)))) ∧
  ∀ (s : State) (k : Nat) (c : Ctx) (r : Routine), s.ctx k = some c → c.matrix.run = some r → (s.sp k).fused = false →
    ∃ d, (s.routineError k).ctx k = some d ∧ d.pend = true ∧ d.kevent.toNat % 8 = 2 ∧ d.kevent.toNat / 2 ^ 12 % 16 = 5 ∧
      d.kevent.toNat / 2 ^ 32 = (r.call.bundle - c.cbase.toNat) % 2 ^ 32 ∧ d.kern.phase = .ending ∧ d.matrix.queue = [] ∧ d.matrix.run = none ∧
      ∀ t, d.matrix.wmOf t = 32

/-- R280, R288 to R290 (11): the matrix unit between its micro-ops. The oldest call starts when no routine's words run and its cycle has come, with
registers 0 and its cursors at the heads of its rings; an accumulator update comes one cycle nearer, and on its landing cycle adds
its sums to the accumulator as it stands then (each element rounded in mode 0, modulo 2^32 in an integer mode); a routine whose results have
landed retires: unless KEEP its rings are popped as far as it has read, and its tiles read 32 rows final. -/
def Obligations.MatrixUnitSteps : Prop :=
  (∀ (k : Nat) (e : MCallE) (l : List MCallE) (s : State) (c : Ctx), s.ctx k = some c → c.matrix.run = none → c.matrix.queue = e :: l → e.from_ ≤ s.now →
    c.matrix.drain = none →
    ∃ r, CtxStep (.callQueueStart k) s k { c with matrix := { c.matrix with queue := l, run := some r } } ∧ r.call = e ∧ r.pc = 0 ∧ r.k = [] ∧
      r.loops = [] ∧ r.cycles = 0 ∧ r.done = false ∧ (e.zero = true → r.words = zeroWords) ∧
      (e.zero = false → ∀ w, (s.sp k).routineWords e.routine = some w → r.words = w) ∧
      (∀ q, c.descPolder (c.kern.port e.a) = some q → r.curA = q.head) ∧ ∀ q, c.descPolder (c.kern.port e.b) = some q → r.curB = q.head) ∧
  (∀ (k : Nat) (u : AccUpd) (s : State) (c : Ctx), s.ctx k = some c → c.matrix.run = none → c.matrix.retiring = [] → c.matrix.upd = [u] →
    (1 < u.left → CtxStep (.accUpdateLanding k) s k { c with matrix := { c.matrix with upd := [{ u with left := u.left - 1 }] } }) ∧
    ∀ cl i sums, u.left = 1 → u.kind = 0 → u.sums = [(cl, i, sums)] → u.flags = 0 →
      let key := cl * 128 + 32 * u.tile + i
      let old := fun j => (KMap.get 0 c.v key).toNat / 2 ^ (32 * j) % 2 ^ 32
      (u.mode = 0 → ∃ f, CtxStep (.accUpdateLanding k) s k { c with
        v := KMap.ins key (BitVec.ofNat 1024 (packElems 32 ((List.range 32).map fun j =>
          (fAdd fmtF32 0 u.exposed (fmtF32.decode (if u.exposed then fmtF32.flushIn (old j) else old j)) (sums.getD j (.fin false 0 0))).1))) c.v,
        kset := f, matrix := { c.matrix with upd := [] } }) ∧
      (u.mode ≠ 0 → CtxStep (.accUpdateLanding k) s k { c with
        v := KMap.ins key (BitVec.ofNat 1024 (packElems 32 ((List.range 32).map fun j =>
          (((old j : Int) + (sums.getD j (.fin false 0 0)).toInt) % 2 ^ 32).toNat))) c.v,
        matrix := { c.matrix with upd := [] } })) ∧
  (∀ (k : Nat) (r : Routine) (s : State) (c : Ctx), s.ctx k = some c → c.matrix.retiring = [r] → c.matrix.run = none → c.matrix.queue = [] →
    (∀ u ∈ c.matrix.upd, u.owner ≠ r.call.id) →
    (r.call.keep = true → CtxStep (.routineRetire k) s k { c with
      matrix := { c.matrix with retiring := [], wm := r.call.tiles.foldl (fun w t => KMap.ins t 32 w) c.matrix.wm } }) ∧
    ∀ h q, r.call.keep = false → r.call.zero = false → 0 < r.highA → r.highB = 0 → (c.kern.port r.call.a).polder = some h → c.polder h = some q →
      dif32 r.highA q.head < 2 ^ 31 →
      CtxStep (.routineRetire k) s k { c.modPolder h (fun q => { q with head := r.highA % 2 ^ 32 }) with
        matrix := { c.matrix with retiring := [], wm := r.call.tiles.foldl (fun w t => KMap.ins t 32 w) c.matrix.wm } })

/-- R335 to R344 (13): the steps of a merge. Intake takes the next record of an input into the window; a full
window that has no place to spill to ends the merge with SPILL_FULL; when every input has ended the command leaves the merge open, or sends the
window on to its output, 16 cycles later; a job of the Spire sends its writes through the context's segments, and a run whose writes
have been performed enters the directory, which is written in its turn; a merge pass reads the live runs back and, of 16 or fewer, makes the
keys to be emitted; emission writes a key and its value behind those before it; completion writes the result words and signals the arrival
word; and a pending pre-emption stops the Spire: a merge of runs where it stands, an
intake with its window spilled as a run. -/
def Obligations.SpireSteps : Prop :=
  (∀ (k : Nat) (i : SpIn) (p : Polder) (s : State) (c : Ctx), s.ctx k = some c → c.spire.phase = 1 → c.spire.ready ≤ s.now → c.spire.stopped = false → c.preempt = none →
    c.spire.status = 0 → c.spire.job = none → c.spire.inputs = [i] → c.descPolder i.desc = some p → p.kind = 0 → i.next + 1 = i.desc.len →
    (c.spire.window = [] → 0 < c.spire.limit →
      CtxStep (.spireRecordIntake k) s k { c with
        spire := { c.spire with
          inputs := [{ i with next := i.next + 1 }], turn := 0,
          window := [spRecord (mergeType c.spire.rs1) (rawElem (s.sp k).srf i.desc p (2 * i.next)) (rawElem (s.sp k).srf i.desc p (2 * i.next + 1))] } }) ∧
    (c.spire.window.length = c.spire.limit → (∀ x ∈ c.spire.window, x.key ≠ rawElem (s.sp k).srf i.desc p (2 * i.next)) → c.spire.spillLen = 0 →
      ∃ d, CtxStep (.spireRecordIntake k) s k { c with spire := d } ∧ d.status = 5 ∧ d.runs = c.spire.runs ∧ d.job = none)) ∧
  (∀ (k : Nat) (i : SpIn) (p : Polder) (s : State) (c : Ctx), s.ctx k = some c → c.spire.phase = 1 → c.spire.ready ≤ s.now → c.spire.stopped = false → c.preempt = none →
    c.spire.status = 0 → c.spire.job = none → c.spire.inputs = [i] → c.descPolder i.desc = some p → p.kind = 0 → i.desc.len ≤ i.next →
    (c.mergeOpen = false → c.spire.runs = [] →
      CtxStep (.spireRecordIntake k) s k { c with spire := { c.spire with phase := 4, out := c.spire.window, window := [], ready := s.now + 16 } }) ∧
    (∀ e, c.mergeOpen = true → c.sb = [e] → e.seq = c.spire.seq →
      SpStep (.spireRecordIntake k) s k { s.sp k with
        srf := arrive (s.sp k).srf c e.rs2 (arriveTarget (s.sp k).srf c e.rs2) 0, ctx := some { c with spire := { c.spire with phase := 2, inputs := [] }, sb := [] } })) ∧
  (∀ (k o : Nat) (l : List Byte) (j : SpJob) (s : State) (c : Ctx), s.ctx k = some c → c.halted = false → c.spire.stopped = false → s.accs = [] →
    s.launchOf c.launch = none → c.spire.job = some j → j.writes = [(o, l)] → j.reads = [] → j.flight = 0 →
    ∃ t a, exec (.spireRunWritten k) s = .next t ∧ t = { s with
        sps := t.sps, accs := [a], nextAcc := s.nextAcc + 1 } ∧
      a.kind = .write ∧ a.src = .spire k c.launch ∧ a.data = l ∧ a.n = l.length ∧
      a.va = (c.spire.spillBase + o) % 2 ^ 48 ∧ t.ctx k = some { c with spire := { c.spire with job := some { j with writes := [], flight := 1 } } }) ∧
  (∀ (k : Nat) (j : SpJob) (s : State) (c : Ctx), s.ctx k = some c → s.accs = [] → c.spire.job = some j → j.kind = 0 → j.writes = [] → j.reads = [] → j.flight = 0 →
    c.spire.status = 0 → c.spire.spillLen ≠ 0 →
    ∃ d, CtxStep (.spireRunWritten k) s k { c with
        spire := { c.spire with job := some d, runs := c.spire.runs ++ [j.run], free := c.spire.free + 64 * j.run.keys } } ∧ d.kind = 1 ∧ d.reads = [] ∧ d.flight = 0 ∧
      d.writes = { c.spire with job := none, runs := c.spire.runs ++ [j.run], free := c.spire.free + 64 * j.run.keys }.directory) ∧
  (∀ (k : Nat) (r : SpRun) (s : State) (c : Ctx), s.ctx k = some c → c.spire.phase = 3 → c.spire.stopped = false → c.spire.status = 0 → c.spire.runs = [r] →
    r.live = true →
    (c.spire.job = none → ∃ d, CtxStep (.spireMergePass k) s k { c with spire := { c.spire with job := some d, back := [] } } ∧ d.kind = 2 ∧ d.writes = [] ∧
      d.flight = 0 ∧ d.reads = (List.range r.keys).map fun i => r.off + 64 * i) ∧
    ∀ j x, c.spire.job = some j → j.kind = 2 → j.flight = 0 → j.reads = [] → r.keys = 1 → KMap.find r.off c.spire.back = some x → c.spire.spillLen ≠ 0 →
      ∃ d, CtxStep (.spireMergePass k) s k { c with
        spire := { c.spire with job := some d, merged := [0], runs := [{ r with live := false }], phase := 4, out := [x], ready := s.now + 16 } } ∧ d.kind = 1) ∧
  (∀ (k : Nat) (x : SpKey) (s : State) (c : Ctx), s.ctx k = some c → c.spire.phase = 4 → c.spire.ready ≤ s.now → c.spire.stopped = false → c.spire.status = 0 →
    c.spire.out = [x] → c.spire.outBuf = [] → mergeForm c.spire.rs1 = 1 → blk c.spire.block 18 2 % 2 = 0 →
    c.spire.emitted < (if blk c.spire.block 44 4 = 0 then 2 ^ 32 - 1 else blk c.spire.block 44 4) →
    SpStep (.spireEmit k) s k { s.sp k with
      srf := srfStore (s.sp k).srf c (c.spire.outDesc.polder.getD 0) (c.spire.outDesc.base + 16 * c.spire.emitted)
        (toBytes 8 x.key ++ toBytes 8 (x.value (mergeType c.spire.rs1)).1),
      ctx := some { c with
        spire := { c.spire with out := [], emitted := c.spire.emitted + 1, ready := s.now + 1, flags := flagOr c.spire.flags (x.value (mergeType c.spire.rs1)).2 } } }) ∧
  (∀ (k : Nat) (s : State) (c : Ctx) (e : Entry), s.ctx k = some c → c.spire.phase = 4 → c.spire.ready ≤ s.now → c.spire.stopped = false → c.spire.job = none →
    c.spire.out = [] → mergeForm c.spire.rs1 = 1 → c.sb = [e] → e.seq = c.spire.seq →
    SpStep (.spireComplete k) s k { s.sp k with
      cm := bytesWrite (s.sp k).cm (bits c.spire.rs1 32 18 + 48)
        (toBytes 4 c.spire.emitted ++ toBytes 4 c.spire.dropped ++ toBytes 4 c.spire.runs.length ++ toBytes 4 c.spire.flags),
      srf := arrive (s.sp k).srf { c with spire := Spire.init } e.rs2 (arriveTarget (s.sp k).srf { c with spire := Spire.init } e.rs2) c.spire.status,
      ctx := some { c with spire := Spire.init, sb := [] } }) ∧
  ∀ (k n : Nat) (s : State) (c : Ctx), s.ctx k = some c → c.preempt = some n → c.spire.stopped = false → c.spire.outBuf = [] →
    (∀ j, c.spire.phase = 3 → c.spire.job = some j → j.kind = 2 → CtxStep (.spirePreemptStop k) s k { c with spire := { c.spire with stopped := true } }) ∧
    (c.spire.phase = 1 → c.spire.job = none →
    (c.spire.window = [] → CtxStep (.spirePreemptStop k) s k { c with spire := { c.spire with stopped := true } }) ∧
    (c.spire.window ≠ [] → 0 < c.spire.spillLen → c.spire.free + 64 * c.spire.window.length ≤ c.spire.spillLen → c.spire.runs.length < 16 →
      ∃ d, CtxStep (.spirePreemptStop k) s k { c with spire := { c.spire with stopped := true, window := [], job := some d } } ∧ d.kind = 0 ∧
        d.run = ⟨c.spire.free, c.spire.window.length, 0, true⟩ ∧ d.writes.length = c.spire.window.length))

/-- R140 (06), R164, R167, R169, R175 and R176 (07), R256, R258 and R271 (10), R296 (11), R310 (12): copies, queues, sweeps and microprograms as they run. An address generator
sends the next beat of a copy, and a copy whose last beat has committed is freed, with one more update where its status is not 0; a beat that has been performed counts its
bytes into the arrival word, one that failed counts none, and its status becomes the command's; what SCOPY has read is written, not while the command is parked; the oldest KCOPY takes a free generator; a cluster's oldest gather request leaves for the SRF or for memory, and its data lands, with zeros and a
count where it failed; a sweep writes on the fourth cycle after it read, and completes with its last write; a microprogram stands in the store when MLOAD completes. -/
def Obligations.CopyAndQueueSteps : Prop :=
  (∀ (k seq : Nat) (s : State) (c : Ctx) (e : Entry), s.ctx k = some c → c.halted = false → c.sb = [e] → e.seq = seq → e.cls = 0 → e.state = .running → e.kcopy = none →
    e.rec_ = e.recs → e.flight = 0 → (s.sp k).victims = [] → s.accs = [] → (∀ p, s.part (s.partOf c) = some p → p.migr.role = 0) →
    SpStep (.copyBeatSend k seq) s k { s.sp k with
      srf := if e.status = 0 then (s.sp k).srf else arrive (s.sp k).srf c e.rs2 (e.size - e.counted) e.status, ctx := some { c with sb := [] } }) ∧
  (∀ (k seq rd sd rs1 rs2 h : Nat) (p : Polder) (s : State) (c : Ctx) (e : Entry), s.ctx k = some c → c.halted = false → c.sb = [e] → e.seq = seq → e.cls = 0 →
    e.state = .running → e.instr = .sload rd sd rs1 rs2 → e.kcopy = none → e.rec_ = 0 → e.off = 0 → e.desc.len = 1 → e.recs = 1 → e.desc.polder = some h → c.polder h = some p →
    p.kind = 0 → e.desc.idx / 16 % 2 = 0 → 0 < e.desc.memRecBytes → e.desc.memRecBytes ≤ 64 - e.rs1.toNat % 64 → e.rs1.toNat < 2 ^ 47 → (s.sp k).victims = [] →
    s.accs = [] → (∀ q, s.part (s.partOf c) = some q → q.migr.role = 0) → s.launchOf c.launch = none →
    ∃ t a, exec (.copyBeatSend k seq) s = .next t ∧ t = { s with
        sps := t.sps, accs := [a], nextAcc := s.nextAcc + 1 } ∧
      a.id = s.nextAcc ∧ a.part = s.partOf c ∧ a.kind = .read ∧ a.va = e.rs1.toNat ∧ a.n = e.desc.memRecBytes ∧ a.src = .copy k c.launch seq 0 0 ∧ a.state = 7 ∧
      a.ready = s.now + 8 ∧ ∀ j, t.sp j = if j = k then { s.sp k with
        ctx := some { c with sb := [{ e with rec_ := 1, flight := e.flight + 1, beats := e.beats + 1, caught := [] }] } } else s.sp j) ∧
  (∀ (k seq rd sd rs1 rs2 n : Nat) (a : Acc) (s : State) (c : Ctx) (e e' : Entry) (m : KMap Row), s.ctx k = some c → s.accs = [a] → a.src = .copy k c.launch seq 0 0 →
    a.kind = .write → a.state = 3 → a.ready ≤ s.now → a.bar = 0 → a.flags = 0 → c.sb = [e] → e.seq = seq → e.cls = 0 → e.state = .running → e.instr = .sstore rd sd rs1 rs2 →
    e.kcopy = none → e.rec_ = e.recs → 0 < e.flight → n = (if a.status = 0 then a.n else 0) →
    e' = { e with flight := e.flight - 1, counted := e.counted + n, status := if e.status = 0 then a.status else e.status } →
    m = (if a.status = 0 then arrive (s.sp k).srf c e.rs2 a.n 0 else (s.sp k).srf) →
    ∃ t, exec (.copyBeatCommit a.id) s = .next t ∧ t = { s with sps := t.sps, accs := [] } ∧ ∀ j, t.sp j = if j = k then { s.sp k with
        srf := if e.flight = 1 ∧ e'.status ≠ 0 then arrive m c e.rs2 (e.size - e'.counted) e'.status else m,
        ctx := some { c with sb := if e.flight = 1 then [] else [e'] } } else s.sp j) ∧
  (∀ (k seq rd sd rs1 rs2 : Nat) (a : Acc) (s : State) (c : Ctx) (e : Entry), s.ctx k = some c → c.halted = false → s.accs = [a] → a.src = .copy k c.launch seq 0 0 →
    a.kind = .read → a.state = 3 → a.status = 0 → a.ready ≤ s.now → a.bar = 0 → c.sb = [e] → e.seq = seq → e.cls = 0 → e.instr = .scopy rd sd rs1 rs2 →
    s.launchOf c.launch = none →
    (e.state = .parked → exec (.copyBeatCommit a.id) s = .next s) ∧
    (e.state = .running → ∃ t b, exec (.copyBeatCommit a.id) s = .next t ∧ t = { s with
        accs := [b], nextAcc := s.nextAcc + 1 } ∧ b.kind = .write ∧ b.va = wrap 48 (e.dstAddr 0) ∧ b.n = a.n ∧ b.data = a.result ∧ b.src = a.src ∧ b.state = 7)) ∧
  (∀ (k : Nat) (q : KCopy) (l : List KCopy) (s : State) (c : Ctx), s.ctx k = some c → c.kern.kcq = q :: l → (s.sp k).agUsed < 2 →
    ∃ e, CtxStep (.kcopyQueueIssue k) s k { c with sb := c.sb ++ [e], seq := c.seq + 1, kern := { c.kern with kcq := l } } ∧ e.seq = c.seq ∧ e.cls = 0 ∧ e.state = .running ∧
      e.kcopy = some q.seq ∧ e.freed = true ∧ e.rec_ = q.desc.pos ∧ e.moved = q.desc.pos ∧ e.desc = q.desc ∧ (∀ p, c.descPolder q.desc = some p → e.tail0 = dif32 p.tail q.desc.pos) ∧ e.kind = (if q.dir = 1 then .load else .store) ∧
      e.size = (q.desc.len - q.desc.pos) * (if q.dir = 1 then q.desc.recBytes else q.desc.memRecBytes)) ∧
  (∀ (k cl h : Nat) (p : Polder) (r : AqReq) (l : List AqReq) (s : State) (c : Ctx), s.ctx k = some c → c.halted = false → c.kern.phase = .running →
    (∀ x ∈ c.dqOf cl, x.state ≠ 2) → (c.dqOf cl).length < 32 → c.aqOf cl = r :: l →
    (r.srf = true → r.handle = h → c.polder h = some p → ∃ g n, CtxStep (.aqSend k cl) s k { c with
      gports := g, aq := KMap.ins cl l c.aq,
      dq := KMap.ins cl (c.dqOf cl ++ [{ r with state := 1, data := BitVec.ofNat 64 (polNum (s.sp k).srf p r.addr r.bytes), due := n }]) c.dq }) ∧
    (r.srf = false → s.launchOf c.launch = none → ∃ t a, exec (.aqSend k cl) s = .next t ∧ a.va = r.addr ∧ a.n = r.bytes ∧ a.kind = .read ∧ a.src = .gather k c.launch cl ∧
      a.id = s.nextAcc ∧ ((∀ b ∈ s.accs, b.id < s.nextAcc) → t.accs = s.accs ++ [a]) ∧
      t.ctx k = some { c with aq := KMap.ins cl l c.aq, dq := KMap.ins cl (c.dqOf cl ++ [{ r with state := 0, acc := s.nextAcc }]) c.dq })) ∧
  (∀ (k cl : Nat) (r : AqReq) (a : Acc) (s : State) (c : Ctx), s.ctx k = some c → s.accs = [a] → a.src = .gather k c.launch cl → a.state = 3 → a.ready ≤ s.now → a.bar = 0 →
    c.stages = [] → c.dq = [(cl, [r])] → r.acc = a.id → r.state = 0 → r.srf = false →
    ∃ t, exec (.dqLand a.id) s = .next t ∧ t.accs = [] ∧ t.sp k = { s.sp k with
      gatherErr := (s.sp k).gatherErr + (if a.status = 0 ∨ a.status = 7 then 0 else 1),
      ctx := some { c with
        dq := [(cl, [{ r with
          state := 1, due := s.now,
          data := if a.status = 0 then BitVec.ofNat 64 (ofBytes a.result) else if a.status = 7 then BitVec.allOnes 64 else 0 }])] } }) ∧
  (∀ (k h : Nat) (p : Polder) (w : Sweep) (s : State) (c : Ctx) (e : Entry), s.ctx k = some c → c.sb = [e] → e.freed = false → e.cls = 1 → e.state = .running →
    (∃ rd rs1 rs2, e.instr = .svadd rd rs1 rs2) → c.sweep = some w → (s.sp k).tower = [] → (KMap.get Desc.init e.descs 0).polder = some h → c.polder h = some p →
    (∀ t0 o n v f, w.writes = [(t0, [(o, n, v)], f)] → t0 ≤ s.now → w.next = w.stop →
      SpStep (.sweepIteration k) s k { s.sp k with
        srf := polWrite (s.sp k).srf p o (toBytes n v),
        ctx := some { c with sb := [], kset := flagOr c.kset f, stopped := false, kres := false, kern := Kern.init, pipe := none, sweep := none } }) ∧
    (w.writes = [] → w.next < w.stop → e.issued + 4 + w.next ≤ s.now →
      CtxStep (.sweepIteration k) s k { c with
        sweep := some { w with
          next := w.next + 1, writes := [(s.now + 4, (sweepIter (s.sp k).srf c e 0 w.next).1, (sweepIter (s.sp k).srf c e 0 w.next).2)] } })) ∧
  ∀ (k a n len : Nat) (p : Part) (s : State) (c : Ctx) (e : Entry), s.ctx k = some c → c.sb = [e] → e.cls = 3 → e.state = .running → e.size ≤ s.now →
    s.part (s.partOf c) = some p → p.migr.role = 0 → n = e.rs2.toNat % 2 ^ 8 → len = e.rs2.toNat / 2 ^ 8 % 2 ^ 12 + 1 → (s.sp k).storePlace n len = some a →
    SpStep (.mloadComplete k) s k { s.sp k with
      ustore := writeStore (s.sp k).ustore a ((List.range len).map fun i => BitVec.ofNat 64 (s.memNat (e.rs1.toNat + 8 * i) 8)),
      rtab := KMap.ins n (a, len) (s.sp k).rtab, installed := if 128 ≤ n then none else (s.sp k).installed, ctx := some { c with sb := [] } }

/-- R305, R308, R310, R317 to R323, R326 to R330 (12): an access on its way to memory. A range-register miss is served once its 8 cycles are over, its segment
becomes the first of the 16 range registers, and its segment check ends it with PERM or passes it on, a beat of a copy to another
die through a fabric copy engine; a miss without a walk takes a
free walker for at least the time of its reads; a walk that ends installs its page and lets the misses of the page go on to their
slice, or parks them under a fault record; FAULT_RESOLVE translates them anew, FAULT_CANCEL ends them with CANCELLED, and a number without a record is counted as
stale; an invalidate takes away what overlaps its range on every die, and every walk of the partition; and a slice performs one access:
a read of a cached line takes its bytes 48 cycles later, a read of another fills the line from HBM4 and takes at least 40 cycles more, and a write goes into the cache and,
once written back, leaves its own bytes in memory and every other byte alone. -/
def Obligations.AccessesToMemory : Prop :=
  (∀ (k l i : Nat) (a : Acc) (x : Launch) (g : Segment) (s : State), s.accs = [a] → a.state = 7 → a.src.owner = some (k, l) → a.src.isHint = false →
    (s.now < a.ready → exec (.rangeMissServe k) s = .next s) ∧
    (a.ready ≤ s.now → a.misaligned = false → s.launchOf l = some x → x.segAt a.va = some (i, g) → ∃ t, exec (.rangeMissServe k) s = .next t ∧
      t.mem = s.mem ∧ t.cache = s.cache ∧ t.sp k = { s.sp k with ranges := (i :: (s.sp k).ranges.filter (· ≠ i)).take 16 } ∧ (∀ j, j ≠ k → t.sp j = s.sp j) ∧
      (x.mapVa a.va a.needsRead a.needsWrite = none → t.accs = [{ a with state := 3, status := 4, ready := s.now + 96 }]) ∧
      ∀ ia p, x.mapVa a.va a.needsRead a.needsWrite = some ia → s.part a.part = some p → ia < 2 ^ 39 → inRanges p.linear ia a.n = true →
        (dieOfPa ia = a.die ∨ (∃ cl, a.src = .gather k l cl) →
          ∃ r, t.accs = [{ a with ia := ia, state := 2, pa := ia, ready := r }] ∧ s.now + 48 + 20 * dieSteps a.die (dieOfPa ia) ≤ r) ∧
        (dieOfPa ia ≠ a.die → (∃ q r o, a.src = .copy k l q r o) → a.eng = none → (s.engine (16 * a.die)).beats = [] →
          ∃ r, t.accs = [{ a with ia := ia, state := 2, pa := ia, ready := r, eng := some (16 * a.die) }] ∧
            s.now + 48 + 20 * dieSteps a.die (dieOfPa ia) ≤ r))) ∧
  (∀ (die n pt ia : Nat) (p : Part) (s : State), s.accs = [] → (s.mmu die).misses = [(n, pt, ia)] → s.part pt = some p →
    ((s.mmu die).walks = [] → ∃ t w, exec (.walkStart die) s = .next t ∧ t.parts = s.parts ∧ t.accs = [] ∧ t.mmu die = { s.mmu die with walks := [w] } ∧
      (∀ d, d ≠ die → t.mmu d = s.mmu d) ∧ w.part = pt ∧ w.ia = ia ∧ w.head = s.tblockHead p ∧
      s.now + walkCycles die (s.tblockHead p) ((walkIa s.linMem p (s.tblockHead p) ia).2.map fun r => (r, 0)) ≤ w.endsAt) ∧
    (32 ≤ (s.mmu die).walks.length → exec (.walkStart die) s = .next s)) ∧
  (∀ (die : Nat) (w : Walk) (a : Acc) (p : Part) (s : State), (s.mmu die).walks = [w] → w.endsAt ≤ s.now → s.part w.part = some p → p.migr.role = 0 → s.accs = [a] →
    a.part = w.part → (s.mmu die).misses = [(a.id, w.part, a.ia)] →
    (∀ b n f rd wr, (walkIa s.linMem p w.head w.ia).1 = .page b n f rd wr → b ≤ a.ia → a.ia < b + n → (a.needsRead = true → rd = true) →
      (a.needsWrite = true → wr = true) → (∀ h, a.src ≠ .host h) → (∀ k l q i o, a.src = .copy k l q i o → dieOfPa (f + (a.ia - b)) = a.die) → ∃ t r, exec (.walkEnd die w.id) s = .next t ∧ t.mem = s.mem ∧
      t.mmu die = ⟨((⟨w.part, b, n, f, rd, wr⟩ : TlbE) :: (s.mmu die).tlb.filter
        fun e => !(decide (e.part = w.part) && decide (e.page = b) && decide (e.size = n))).take 4096, [], []⟩ ∧
      t.accs = [{ a with state := 2, pa := f + (a.ia - b), ready := r }] ∧ s.now + 48 + 20 * dieSteps a.die (dieOfPa (f + (a.ia - b))) ≤ r) ∧
    ∀ cause k l cl, (walkIa s.linMem p w.head w.ia).1 = .fault cause → a.ia / 4096 = w.ia / 4096 → a.src = .gather k l cl → p.faults = [] →
      ∃ t q r, exec (.walkEnd die w.id) s = .next t ∧ t.mmu die = { s.mmu die with misses := [], walks := [] } ∧ t.accs = [{ a with state := 4, status := 0 }] ∧
        t.part w.part = some q ∧ q = { p with faults := [r] } ∧ r.id = 0 ∧ r.cause = cause ∧ r.ia = a.ia ∧ r.va = a.va ∧ r.access = a.kind.code ∧ r.launch = l ∧ r.sp = k ∧
        r.parked = [a.id]) ∧
  (∀ (pt id k l cl : Nat) (a : Acc) (r : FaultRec) (p : Part) (s : State), s.part pt = some p →
    (p.faults = [] → (∃ t, exec (.faultResolve pt id) s = .next t ∧ t.part pt = some { p with stale := p.stale + 1 } ∧ t = { s with parts := t.parts }) ∧
      ∃ t, exec (.faultCancel pt id) s = .next t ∧ t.part pt = some { p with stale := p.stale + 1 } ∧ t = { s with parts := t.parts }) ∧
    (p.faults = [r] → r.id = id → r.parked = [a.id] → s.accs = [a] → a.state = 4 → a.part = pt → a.src = .gather k l cl → s.ownerOut a = false →
      (∃ t, exec (.faultCancel pt id) s = .next t ∧ t.part pt = some { p with faults := [] } ∧
        t.accs = [{ a with state := 3, status := 2, ready := max s.now (a.sentAt + 96) }] ∧
        ∀ b, p.tblock = some b → s.cache = [] → t.mem = Memory.write s.mem (b + 0x1000 + 48 * id) (toBytes 8 0 ++ r.payload)) ∧
      (2 ^ 40 ≤ a.ia → a.ia < 2 ^ 48 → (s.mmu (tlbDie a.die)).lookup pt a.ia = none → (s.mmu (tlbDie a.die)).misses.length < 512 →
        ∃ t, exec (.faultResolve pt id) s = .next t ∧ t.part pt = some { p with faults := [] } ∧ t.accs = [{ a with state := 1 }] ∧
          (t.mmu (tlbDie a.die)).misses = (s.mmu (tlbDie a.die)).misses ++ [(a.id, pt, a.ia)]))) ∧
  (∀ (pt base len : Nat) (s : State), ∃ t, exec (.tlbInvalidate pt base len) s = .next t ∧ t = { s with mmus := t.mmus } ∧ ∀ d,
    t.mmu d = { s.mmu d with
      tlb := (s.mmu d).tlb.filter fun e => decide (e.part ≠ pt) || (decide (len ≠ 0) && (decide (base + len ≤ e.page) || decide (e.page + e.size ≤ base))),
      walks := (s.mmu d).walks.filter fun w => decide (w.part ≠ pt) }) ∧
  ∀ (k l n c e o : Nat) (a : Acc) (p : Part) (s : State), s.accs = [a] → a.id = n → a.state = 2 → a.ready ≤ s.now → a.src = .copy k l c e o → s.part a.part = some p →
    p.migr.role = 0 →
    (a.kind = .read → (∀ u ∈ s.upsets, u.1 ≠ a.pa / 64) →
      (∀ x, s.cache.find? (·.is (a.ia / 64) (a.pa / 64)) = some x → ∃ t, exec (.sliceApply n) s = .next t ∧ t.mem = s.mem ∧ t.accs = [{ a with
        state := 3, status := if s.poison.contains (a.pa / 64) then 7 else 0, result := (x.data.drop (a.pa % 64)).take a.n, ready := s.now + 48, bar := 0 }]) ∧
      (s.cache = [] → ∃ t r, exec (.sliceApply n) s = .next t ∧ t.mem = s.mem ∧ s.now + 88 ≤ r ∧ (∃ x, t.cache = [x] ∧ x.tag = a.ia / 64 ∧ x.beat = a.pa / 64) ∧
        t.accs = [{ a with
          state := 3, status := if s.poison.contains (a.pa / 64) then 7 else 0,
          result := ((Memory.read s.mem (a.pa / 64 * 64) 64).drop (a.pa % 64)).take a.n, ready := r, bar := 0 }])) ∧
    (a.kind = .write → a.data.length = a.n → 0 < a.n → a.pa % 64 + a.n ≤ 64 → (∀ b, p.tblock = some b → a.pa + a.n ≤ b ∨ b + 0x1000 ≤ a.pa) → s.scatterOf a = none →
      s.cache = [] → ∃ t, exec (.sliceApply n) s = .next t ∧ t.accs = [{ a with state := 3, status := 0, result := [], ready := s.now, bar := 0 }] ∧ t.mem = s.mem ∧
      ∀ x, Memory.byte (t.writeBack fun _ => true).mem x = if a.pa ≤ x ∧ x < a.pa + a.n then a.data.getD (x - a.pa) 0 else Memory.byte s.mem x)

/-- R373 to R377, R382, R383 and R386 (15): ports, links and frames. PORTCFG is written, and retrains the link, unless a slot is owned; training ends
with the slot delay, or with a failed link for a delay above 64; the 16th failed replay of a flit fails the link. A packet
that arrives whole causes its steps here or is forwarded by the slot table; one with a bad header is counted, and goes on cut short by a poisoned tail; one with a bad number of flits, or a
poisoned one, is counted. A frame with a bad check is counted; one that has come before is only counted towards the acknowledgement; the next frame in sequence is taken in; an acknowledgement leaves after 16 frames or 10 µs, forgets
what has arrived and has the rest sent again, as 200 µs without one do. -/
def Obligations.LinkSteps : Prop :=
  (∀ (n : Nat) (v : Dword) (s : State), let new := bits v 0 1 + bits v 8 2 * 2 ^ 8
    (new = bits (s.port n).cfg 0 1 + bits (s.port n).cfg 8 2 * 2 ^ 8 ∨ (∃ l ∈ s.launches, ∃ q ∈ l.slots, q.1 = 256 + n) → PortStep (.portcfgWrite n v) s n (s.port n)) ∧
    (new ≠ bits (s.port n).cfg 0 1 + bits (s.port n).cfg 8 2 * 2 ^ 8 → (∀ l ∈ s.launches, ∀ q ∈ l.slots, q.1 ≠ 256 + n) →
      PortStep (.portcfgWrite n v) s n { s.port n with
        cfg := BitVec.ofNat 64 (new + 2 ^ 16), fails := 0, queue := [], frameQ := [], onLine := 0, replayed := [], asked := none })) ∧
  (∀ (n delay : Nat) (s : State),
    (2 ≤ (s.port n).linkState → exec (.linkTraining n delay) s = .next s) ∧
    ((s.port n).linkState < 2 → ∃ q, PortStep (.linkTraining n delay) s n q ∧ q = { s.port n with
        cfg := q.cfg, fails := 0, replayed := [], asked := none, queue := if delay ≤ 64 then (s.port n).queue else [],
        frameQ := if delay ≤ 64 then (s.port n).frameQ else [] } ∧
      q.mode = (s.port n).mode ∧ q.linkState = (if delay ≤ 64 then 2 else 3) ∧ bits q.cfg 24 8 = (if delay ≤ 64 ∧ (s.port n).mode = 1 then delay else 0))) ∧
  (∀ (n : Nat) (s : State),
    ((s.port n).mode ≠ 1 ∨ (s.port n).linkState ≠ 2 → exec (.linkReplay n) s = .next s) ∧
    ((s.port n).mode = 1 → (s.port n).linkState = 2 → (s.port n).fails < 15 →
      PortStep (.linkReplay n) s n { s.port n with replay := min 0xFFFF ((s.port n).replay + 1), fails := (s.port n).fails + 1 }) ∧
    ((s.port n).mode = 1 → (s.port n).linkState = 2 → 15 ≤ (s.port n).fails →
      ∃ q, PortStep (.linkReplay n) s n q ∧ q.linkState = 3 ∧ q.queue = [] ∧ q.replay = min 0xFFFF ((s.port n).replay + 1))) ∧
  (∀ (n : Nat) (hdr data tail : List Byte) (k : Packet) (s : State), (s.port n).mode = 1 → (s.port n).linkState = 2 → k = packetOf hdr data false →
    (crc16 (hdr.take 62) ≠ field hdr 62 2 →
      (k.dstPkg = s.dev.pkg → PortStep (.packetReceive n hdr data tail) s n { s.port n with fails := 0, hdrerr := min 0xFFFF ((s.port n).hdrerr + 1) }) ∧
      (k.dstPkg ≠ s.dev.pkg → k.dstPkg ≠ 0xFFFF → ∀ o, (s.port n).forwardTo n = some o → (s.port o).mode = 1 → ∃ t, exec (.packetReceive n hdr data tail) s = .next t ∧
        t = { s with ports := t.ports } ∧ (t.port n).hdrerr = min 0xFFFF ((s.port n).hdrerr + 1) ∧
        (t.port o).queue = (s.port o).queue ++ [⟨n % 8, s.now + fabricToArith 2, Flit.of 1 hdr⟩, ⟨n % 8, s.now + fabricToArith 2, tailFlit [] true⟩])) ∧
    (crc16 (hdr.take 62) = field hdr 62 2 → crc32 ((pktBeats k).flatMap (·.bytes)) = field tail 0 4 → field tail 4 1 % 2 = 0 →
      (k.dstPkg = s.dev.pkg → opFlits k.op (pktFlits k) = true → field hdr 1 1 = pktFlits k → ∃ t, exec (.packetReceive n hdr data tail) s = .next t ∧
        t = { s with ports := t.ports, heard := KMap.ins k.srcPkg (n, 0) s.heard, inbox := s.inbox ++ Packet.steps k n } ∧
        ∀ j, t.port j = if j = n then { s.port n with fails := 0 } else s.port j) ∧
      (k.dstPkg = s.dev.pkg → opFlits k.op (field hdr 1 1) = false →
        PortStep (.packetReceive n hdr data tail) s n { s.port n with fails := 0, hdrerr := min 0xFFFF ((s.port n).hdrerr + 1) }) ∧
      (k.dstPkg ≠ s.dev.pkg → k.dstPkg ≠ 0xFFFF → ∀ o, (s.port n).forwardTo n = some o → (s.port o).mode = 1 → ∃ t, exec (.packetReceive n hdr data tail) s = .next t ∧
        t = { s with ports := t.ports } ∧ (t.port o).queue = (s.port o).queue ++
          (Flit.of 1 hdr :: (pktBeats k ++ [Flit.of 3 tail])).map fun f => ⟨n % 8, s.now + fabricToArith 2, f⟩)) ∧
    (crc16 (hdr.take 62) = field hdr 62 2 → field tail 4 1 % 2 = 1 → k.dstPkg = s.dev.pkg → opFlits k.op (field hdr 1 1) = true →
      PortStep (.packetReceive n hdr data tail) s n { s.port n with fails := 0, poisonrx := min 0xFFFF ((s.port n).poisonrx + 1) })) ∧
  (∀ (n src udp : Nat) (fcsOk : Bool) (b : List Byte) (q : Path) (s : State), (s.port n).mode = 0 → q = (s.port n).path src →
    (udp ≠ 46785 ∨ 8952 < b.length → exec (.scaleoutFrameReceive ⟨n, src⟩ fcsOk ⟨udp, b⟩) s = .next s) ∧
    (udp = 46785 → b.length ≤ 8952 →
      (fcsOk = false → PortStep (.scaleoutFrameReceive ⟨n, src⟩ fcsOk ⟨udp, b⟩) s n { s.port n with fcsdrop := min 0xFFFF ((s.port n).fcsdrop + 1) }) ∧
      (fcsOk = true → 16 ≤ b.length → field b 0 1 = 1 → field b 2 2 = 0 →
        (field b 1 1 = 2 → ∃ t, exec (.scaleoutFrameReceive ⟨n, src⟩ fcsOk ⟨udp, b⟩) s = .next t ∧
          t = { s with inbox := s.inbox ++ [.selectiveAckReceive ⟨n, src⟩ (field b 4 4) (BitVec.ofNat 64 (field b 8 8))] }) ∧
        (field b 1 1 = 1 → 80 ≤ b.length →
          (2 ^ 31 ≤ dif32 (field b 4 4) q.rxseq → ∃ t, exec (.scaleoutFrameReceive ⟨n, src⟩ fcsOk ⟨udp, b⟩) s = .next t ∧ t = { s with ports := t.ports } ∧
            ((t.port n).path src).rxcount = q.rxcount + 1) ∧
          (field b 4 4 = q.rxseq → q.rxmap = 0 → ∀ k, k = packetOf ((b.drop 16).take 64) (b.drop 80) false → k.dstPkg = s.dev.pkg → opFlits k.op (pktFlits k) = true →
            field ((b.drop 16).take 64) 1 1 = pktFlits k → ∃ t, exec (.scaleoutFrameReceive ⟨n, src⟩ fcsOk ⟨udp, b⟩) s = .next t ∧
              t = { s with ports := t.ports, heard := KMap.ins k.srcPkg (n, src) s.heard, inbox := s.inbox ++ Packet.steps k n } ∧
              ∀ j, t.port j = if j = n then (s.port n).modPath src fun _ => { q with
                rxseq := (q.rxseq + 1) % 2 ^ 32, rxmap := 0, rxcount := q.rxcount + 1, rxAt := if q.rxcount = 0 then s.now else q.rxAt } else s.port j))))) ∧
  (∀ (n far : Nat) (q : Path) (s : State), (s.port n).mode = 0 → q = (s.port n).path far →
    (16 ≤ q.rxcount ∨ (q.rxcount ≠ 0 ∧ q.rxAt + 10500 ≤ s.now) →
      PortStep (.selectiveAckSend ⟨n, far⟩) s n (((s.port n).modPath far fun _ => { q with rxcount := 0 }).queueFrame ⟨8, far, transportHead 2 q.rxseq q.rxmap⟩)) ∧
    (q.rxcount < 16 → s.now < q.rxAt + 10500 → exec (.selectiveAckSend ⟨n, far⟩) s = .next s)) ∧
  ∀ (n far : Nat) (f : Frame) (q : Path) (s : State), q = (s.port n).path far → q.unacked = [f] → f.seq < 2 ^ 32 →
    (∀ bitmap : Dword, bitmap.toNat % 2 = 1 → PortStep (.selectiveAckReceive ⟨n, far⟩ f.seq bitmap) s n ((s.port n).modPath far fun _ => { q with unacked := [] })) ∧
    (∀ bitmap : Dword, bitmap.toNat % 2 = 0 → PortStep (.selectiveAckReceive ⟨n, far⟩ f.seq bitmap) s n
      (((s.port n).modPath far fun _ => { q with unacked := [{ f with at_ := s.now }] }).queueFrame f.out)) ∧
    (f.at_ + 210000 ≤ s.now → PortStep (.frameResendTimeout ⟨n, far⟩ f.seq) s n
      (((s.port n).modPath far fun _ => { q with unacked := [{ f with at_ := s.now }] }).queueFrame f.out)) ∧
    (s.now < f.at_ + 210000 → exec (.frameResendTimeout ⟨n, far⟩ f.seq) s = .next s)

/-- R384, R385, R388, R390 and R391 (15), R457 and R458 (23): remote beats and tokens. A beat that no partition or EXPORT entry takes is answered PERM; one that
is let in becomes an access of its home, and is answered once that is done; one that has been applied receives its first answer again. Read data
ends the access of its beat, and the acknowledgement that follows the beat; one of another kind ends both; a beat without one is sent again every 2^16 fabric cycles, and after 8 resends,
or once every route has failed, ends with REMOTE_DOWN; a beat answered HOLD is sent again without counting, and one answered MOVED goes to the new place. A
home answers a token request, and forgets one that is withdrawn; the context notes what it hears, and asks again after a refusal. -/
def Obligations.BeatAndTokenSteps : Prop :=
  (∀ (k : Packet) (s : State), s.part k.dstPart = none → (s.port (s.portTo Part.init k.srcPkg)).mode = 1 →
    ∃ t, Sends (.homeBeatApply k) s (s.portTo Part.init k.srcPkg) (answer s.dev.pkg k 6 4 []) t ∧ t = { s with ports := t.ports }) ∧
  (∀ (k : Packet) (p : Part) (s : State), s.part k.dstPart = some p → p.migr.role = 0 → p.moved = none → k.engine < 256 → (s.port (s.portTo p k.srcPkg)).mode = 1 →
    (∀ r, s.accs = [] → (s.dup k).first s.dev.pkg k = some r → r.op ≠ 3 → r.dstPkg = k.srcPkg →
      ∃ t, Sends (.homeBeatApply k) s (s.portTo p k.srcPkg) r t ∧ t = { s with ports := t.ports }) ∧
    (s.accs = [] → (s.dup k).first s.dev.pkg k = none → k.op = 2 →
      (p.exports k (64 - k.ia % 64) = false →
        ∃ t, Sends (.homeBeatApply k) s (s.portTo p k.srcPkg) (answer s.dev.pkg k 6 4 []) t ∧ t.accs = [] ∧ t.mem = s.mem) ∧
      (p.exports k (64 - k.ia % 64) = true → k.ia < 2 ^ 39 → inRanges p.linear k.ia (64 - k.ia % 64) = true → ∃ t a, exec (.homeBeatApply k) s = .next t ∧
        t.accs = [a] ∧ a.src = .remote k ∧ a.kind = .read ∧ a.pa = k.ia ∧ a.n = 64 - k.ia % 64 ∧ a.state = 2 ∧ t.mem = s.mem ∧ t.ports = s.ports)) ∧
    ∀ a, s.accs = [a] → a.src = .remote k → s.accDone a = true →
      (a.status = 0 → a.kind.reads = true → ∃ t, exec (.homeBeatApply k) s = .next t ∧ t.accs = [] ∧ t.mem = s.mem ∧
        (t.port (s.portTo p k.srcPkg)).queue = (s.port (s.portTo p k.srcPkg)).queue ++
          (pktFlitList (answer s.dev.pkg k 3 0 a.result) ++ pktFlitList (answer s.dev.pkg k 6 0 [])).map fun f => ⟨8, s.now + fabricToArith 12, f⟩) ∧
      (a.status ≠ 0 ∨ a.kind.reads = false →
        ∃ t, Sends (.homeBeatApply k) s (s.portTo p k.srcPkg) (answer s.dev.pkg k 6 a.status []) t ∧ t.accs = [] ∧ t.mem = s.mem)) ∧
  (∀ (k : Packet) (e : Nat) (b : Beat) (s : State), (s.engine e).beats = [b] → b.pkt.engine = e → b.pkt.op ≠ 10 →
    (∀ a, k.engine = e → e ≠ 0xFFFF → k.seq = b.pkt.seq → s.accs = [a] → a.id = b.acc →
      (k.op = 6 → k.status ≠ 10 → a.state = 5 → k.status ≠ 0 ∨ a.kind.reads = false → ∃ t, exec (.beatAck k) s = .next t ∧ t = { s with
          accs := t.accs, engines := t.engines } ∧
        (t.engine e).beats = [] ∧ t.accs = [{ a with
          state := 3, status := k.status, ready := if k.status = 0 ∨ k.status = 7 then s.now + fabricToArith a.routerHops else max (s.now + fabricToArith a.routerHops) (a.sentAt + 96),
          result := if a.kind.reads then (k.data ++ List.replicate a.n 0).take a.n else [] }]) ∧
      (k.op = 6 → k.status = 0 → a.kind.reads = true → (a.state = 5 → exec (.beatAck k) s = .next s) ∧
        (a.state = 3 → ∃ t, exec (.beatAck k) s = .next t ∧ t = { s with engines := t.engines } ∧ (t.engine e).beats = [])) ∧
      (k.op = 3 → k.status = 0 → a.kind.reads = true → a.state = 5 → ∃ t, exec (.beatAck k) s = .next t ∧ t = { s with
        accs := [{ a with state := 3, status := 0, ready := s.now + fabricToArith a.routerHops, result := (k.data ++ List.replicate a.n 0).take a.n }] })) ∧
    (k.engine = e → e ≠ 0xFFFF → k.seq = b.pkt.seq → k.op = 6 → k.status = 10 → ∃ t, exec (.beatAck k) s = .next t ∧ t = { s with engines := t.engines } ∧
      t.engine e = { s.engine e with beats := [{ b with hold := true, at_ := s.now }] }) ∧
    ((s.port b.port).mode = 1 → (s.port b.port).linkState ≠ 3 →
      (b.hold = false → b.at_ + resendCycles ≤ s.now → b.tries < 8 → ∃ t, Sends (.beatResendTimeout e b.pkt.seq) s b.port b.pkt t ∧
        t = { s with engines := t.engines, ports := t.ports } ∧ t.engine e = { s.engine e with beats := [{ b with tries := b.tries + 1, at_ := s.now }] }) ∧
      (b.hold = false → s.now < b.at_ + resendCycles → exec (.beatResendTimeout e b.pkt.seq) s = .next s) ∧
      (b.hold = true → b.at_ + resendCycles ≤ s.now → ∃ t, Sends (.holdResend e b.pkt.seq) s b.port b.pkt t ∧
        t = { s with engines := t.engines, ports := t.ports } ∧ t.engine e = { s.engine e with beats := [{ b with hold := false, at_ := s.now }] })) ∧
    ∀ a, e < 256 → b.hold = false → (b.at_ + resendCycles ≤ s.now ∧ 8 ≤ b.tries) ∨ (∃ p, s.part b.pkt.srcPart = some p ∧ s.portFor p b.port b.pkt.dstPkg = none) →
      s.accs = [a] → a.id = b.acc → a.state = 5 → ∃ t, exec (.beatResendTimeout e b.pkt.seq) s = .next t ∧ t = { s with accs := t.accs, engines := t.engines } ∧
        (t.engine e).beats = [] ∧ ∃ l, t.accs = [{ a with state := 3, status := 6, ready := max (s.now + fabricToArith a.routerHops) (a.sentAt + 96), result := l }]) ∧
  (∀ (k : Packet) (p : Part) (s : State), s.part k.dstPart = some p → p.migr.role = 1 → p.migr.phase = 4 ∨ p.migr.phase = 5 → (s.port p.migr.port).mode = 1 →
    ∃ t, Sends (.beatForward k) s p.migr.port { k with dstPkg := p.migr.peerPkg, dstPart := p.migr.peerPart } t ∧
      t.part k.dstPart = some { p with migr := { p.migr with n1 := p.migr.n1 + 1 } }) ∧
  (∀ (k : Packet) (b : Beat) (a : Acc) (p : Part) (s : State), k.op ≠ 8 → (s.engine k.engine).beats = [b] → b.pkt.seq = k.seq → s.accs = [a] → a.id = b.acc →
    s.part a.part = some p → 0 < iaWindow a.ia → (∀ n < 16, (s.port n).mode = 1) → let pkg := k.ia % 2 ^ 16; let part := k.ia / 2 ^ 16 % 32
    ∃ t n q, Sends (.movedAck k) s n { b.pkt with dstPkg := pkg, dstPart := part } t ∧ t.part a.part = some q ∧ n = bits (q.peerWord (iaWindow a.ia) 0) 28 4 ∧
      bits (q.peerWord (iaWindow a.ia) 0) 32 16 = pkg ∧ bits (q.peerWord (iaWindow a.ia) 0) 53 5 = part ∧
      (∀ w, w ≠ iaWindow a.ia → q.peerWord w 0 = p.peerWord w 0) ∧ ∀ w, q.peerWord w 1 = p.peerWord w 1) ∧
  (∀ (k : Packet) (p : Part) (s : State), s.part k.dstPart = some p → p.migr.role = 0 → p.moved = none →
    (s.port (s.portTo p k.srcPkg)).mode = 1 →
    (k.seq = 0 → bits p.toktab 63 1 = 0 → ∃ t m, Sends (.tokenRequest k) s (s.portTo p k.srcPkg) m t ∧ m.op = 8 ∧ m.status = 1 ∧ m.dstPkg = k.srcPkg ∧ m.dstPart = k.srcPart ∧
      m.ia = k.ia ∧ m.launch = k.launch ∧ m.rank = k.rank ∧ t.mem = s.mem) ∧
    (∀ e, k.seq = 0 → s.tokEntry p (k.ia / 2 ^ 21) = some e → e.held = false → s.cache = [] → ∃ t m, Sends (.tokenRequest k) s (s.portTo p k.srcPkg) m t ∧ m.op = 8 ∧ m.status = 0 ∧
      m.launch = k.launch ∧ m.rank = k.rank ∧ Memory.byte t.mem (e.addr + 11) = 1 ∧ Memory.read t.mem (e.addr + 16) 8 = toBytes 8 k.launch ∧
      ∀ x, x < e.addr + 8 ∨ e.addr + 24 ≤ x → Memory.byte t.mem x = Memory.byte s.mem x) ∧
    (∀ w, k.seq = 2 → p.tokWait = [w] → w.region = k.ia / 2 ^ 21 → w.pkg = k.srcPkg → w.launch = k.launch → w.rank = k.rank → ∃ t, exec (.tokenRequest k) s = .next t ∧
      t.part k.dstPart = some { p with tokWait := [] } ∧ t = { s with parts := t.parts })) ∧
  (∀ (k : Packet) (sp r : Nat) (c : Ctx) (p : Part) (s : State), s.part k.dstPart = some p → s.ctxOfRank k.launch k.rank = some (sp, c) →
    p.regionAt k.srcPkg k.srcPart k.ia (c.tokens.map (·.1)) = some r → k.status = 0 ∨ k.status = 1 → ∃ t, exec (.tokenReply k) s = .next t ∧ t = { s with sps := t.sps } ∧
      ∀ j d, s.ctx j = some d → t.ctx j = some (if d.launch = k.launch ∧ d.rank = k.rank then { d with tokens := KMap.ins r (k.status + 1) d.tokens } else d)) ∧
  ∀ (k r v : Nat) (c : Ctx) (p : Part) (s : State), s.ctx k = some c → c.tokens = [(r, v)] →
    (v < 16 → exec (.tokenRetry k) s = .next s) ∧
    (16 ≤ v → v - 16 + fabricToArith 0x1000 ≤ s.now → iaWindow (r * 2 ^ 21) = 0 → s.part (s.partOf c) = some p → bits p.toktab 63 1 = 0 →
      CtxStep (.tokenRetry k) s k { c with tokens := [(r, 2)] })

/-- R405 to R410, R419 to R421 (19), R82 to R84 (03) and R304 (11): pre-emption. A request stops the controller and lets the matrix calls drain; the
kernel halts at its first pre-emption point; 4,096 cycles after the request a routine that runs is stopped, and gathers that have not
landed are to be sent again. A context for which all this has come is saved into a free slot in 256 cycles, its SP free then for another; the
image saved longest ago is written out when a slot is needed; a polder, and control memory, that another context needs are
claimed. The context restored comes back as it was saved, in 256 cycles from a slot with 256 more for a claimed control memory, its kernel resuming. -/
def Obligations.PreemptionSteps : Prop :=
  (∀ (k : Nat) (s : State) (c : Ctx), s.ctx k = some c → (s.sp k).fused = false → (s.sp k).victims = [] →
    (c.halted = false → c.preempt = none → CtxStep (.preemptRequest k) s k { c with
      preempt := some 0, wait := none, busy := 0, resv := none, squash := none, matrix := { c.matrix with drain := some 0 },
      pc := (c.squash.map (·.pc)).getD c.pc, x := (c.squash.map (·.x)).getD c.x, f := (c.squash.map (·.f)).getD c.f, fcsr := (c.squash.map (·.fcsr)).getD c.fcsr }) ∧
    (c.halted = true ∨ (∃ n, c.preempt = some n) → CtxStep (.preemptRequest k) s k c)) ∧
  (∀ (k m : Nat) (s : State) (c : Ctx), s.ctx k = some c → (s.sp k).fused = false → c.preempt = some m →
    (∀ n, c.kern.phase = .running → c.kern.last = none → c.kern.gap = 0 → c.kern.haltPoint = n → 0 < n →
      CtxStep (.kernelHalt k) s k { c with kern := { c.kern with phase := .halted, tokLeft := none } }) ∧
    (∀ n, c.kern.phase = .starting n → CtxStep (.kernelHalt k) s k { c with kern := { c.kern with phase := .halted, haltPoint := 5, tokLeft := none } }) ∧
    (∀ n, c.kern.phase = .resuming n → c.kern.haltPoint ≠ 4 → CtxStep (.kernelHalt k) s k { c with kern := { c.kern with phase := .halted, haltPoint := 5, tokLeft := none } }) ∧
    (c.kern.phase = .stopped → CtxStep (.kernelHalt k) s k { c with kern := { c.kern with phase := .halted, haltPoint := 6, tokLeft := none } }) ∧
    (c.kern.phase = .running → c.kern.last = none → c.kern.gap = 0 → c.kern.haltPoint = 0 → c.kern.rejoin = true →
      CtxStep (.kernelHalt k) s k { c with kern := { c.kern with phase := .halted, haltPoint := 3, tokLeft := none } }) ∧
    (c.kern.phase = .running → c.kern.gap ≠ 0 → exec (.kernelHalt k) s = .next s)) ∧
  (∀ (k n : Nat) (s : State) (c : Ctx), s.ctx k = some c → c.preempt = some n →
    (∀ r, 4096 < n → c.matrix.run = some r → CtxStep (.matrixDrainLimit k) s k { c with matrix := { c.matrix with drain := some 1 } }) ∧
    (∀ cl r, 4096 < n → c.dq = [(cl, [r])] → r.state = 0 → r.srf = false → CtxStep (.aqReclaim k) s k { c with dq := [(cl, [{ r with state := 2 }])] }) ∧
    (n ≤ 4096 → CtxStep (.matrixDrainLimit k) s k c ∧ CtxStep (.aqReclaim k) s k c)) ∧
  (∀ (k : Nat) (s : State) (c : Ctx), s.ctx k = some c →
    (s.saveReady c = true → (s.sp k).slotsUsed < 2 → (s.sp k).tower = [] → ∃ v, SpStep (.contextSave k) s k { s.sp k with ctx := none, victims := v :: (s.sp k).victims } ∧
      v.ctx = { c with
        preempt := none, wait := none, resv := none, gports := [],
        dq := c.dq.map fun q => (q.1, q.2.map fun r => if s.parkedReq r then { r with state := 2 } else r) } ∧
      v.place = 0 ∧ v.left = 256 ∧ v.claimed = [] ∧ v.cm = none ∧ v.shown = none) ∧
    (2 ≤ (s.sp k).slotsUsed ∨ s.saveReady c = false → exec (.contextSave k) s = .next s)) ∧
  (∀ (k : Nat) (v : Victim) (s : State), (s.sp k).victims = [v] → v.place = 0 →
    (v.left = 0 → ∃ t, exec (.contextSaveComplete k) s = .next t ∧
      t.sp k = { s.sp k with victims := [{ v with place := 1, order := s.ctr, ctx := { v.ctx with mpreq := false } }] } ∧
      (∀ j, j ≠ k → t.sp j = s.sp j) ∧ t.mem = s.mem ∧ Instr.placementPass (s.partOf v.ctx) ∈ t.inbox) ∧
    (0 < v.left → exec (.contextSaveComplete k) s = .next s)) ∧
  (∀ (k n a : Nat) (v w : Victim) (s : State) (c : Ctx), s.ctx k = some c → c.preempt = some n → c.stages = [] → (s.sp k).victims = [v, w] → v.place = 1 → w.place = 1 →
    v.ctx.stages = [] → w.ctx.stages = [] → v.order < w.order →
    (1024 < n → s.cache = [] → s.recordAt v.ctx.launch k 0 = some a → ∃ t, exec (.shadowWriteOut k) s = .next t ∧ t.sp k = { s.sp k with victims := [{ v with place := 2, shown := some v.ctx }, w] } ∧
      t.mem = Memory.image s.mem a ((s.sp k).imageOf v.ctx.launch 0 (s.member k)) ∧ ∀ j, j ≠ k → t.sp j = s.sp j) ∧
    (n ≤ 1024 → exec (.shadowWriteOut k) s = .next s)) ∧
  (∀ (k h : Nat) (q : Polder) (v : Victim) (s : State), (s.sp k).victims = [v] → v.ctx.polder h = some q → KMap.find h v.claimed = none → s.accs = [] →
    (s.ctx k = none → ∃ t, exec (.polderClaim k 0 h) s = .next t ∧ t.mem = (s.savePolder k v.ctx.launch q).mem ∧
      t.sp k = { s.sp k with victims := [{ v with claimed := KMap.ins h (polderRows (s.sp k).srf q) v.claimed }] } ∧ ∀ j, j ≠ k → t.sp j = s.sp j) ∧
    ∀ c g x, s.ctx k = some c → c.polders = [(g, x)] → 0 < x.fill → x.base < q.base + shareOf q.log2 → q.base < x.base + shareOf x.log2 →
      ∃ t, exec (.polderClaim k 0 h) s = .next t ∧ t.mem = (s.savePolder k v.ctx.launch q).mem ∧ t.sp k = { s.sp k with
          victims := [{ v with claimed := KMap.ins h (polderRows (s.sp k).srf q) v.claimed }],
          ctx := some { c with polders := [(g, { x with fill := x.fill + q.size / 1024 })] } } ∧ ∀ j, j ≠ k → t.sp j = s.sp j) ∧
  (∀ (k a : Nat) (v : Victim) (s : State), (s.sp k).victims = [v] →
    (v.cm = none → s.recordAt v.ctx.launch k 9 = some a → s.cache = [] → ∃ t, exec (.controlMemoryClaim k) s = .next t ∧ t.mem = Memory.store s.mem a 0x40000 (s.sp k).cm ∧
      t.sp k = { s.sp k with victims := [{ v with cm := some (s.sp k).cm }] } ∧ ∀ j, j ≠ k → t.sp j = s.sp j) ∧
    (∀ m, v.cm = some m → SpStep (.controlMemoryClaim k) s k (s.sp k))) ∧
  ∀ (k : Nat) (v : Victim) (p : Part) (s : State), (s.sp k).victims = [v] → v.fused = false → v.tower = [] → v.line = [] → v.claimed = [] → s.accs = [] →
    s.ctx k = none → (s.sp k).left = none → (s.sp k).held = none → (∀ c, s.codeOfCtx v.ctx = some c → (s.sp k).installed = some c.handle) → s.part (s.partOf v.ctx) = some p →
    p.migr.role = 0 → (∀ l ∈ s.launches, l.state ≠ 0) →
    (v.place = 1 → ∃ t, exec (.contextRestore k 0) s = .next t ∧ t.mem = s.mem ∧
      t.sp k = { s.sp k with victims := [{ v with place := 3, left := if v.cm.isSome then 512 else 256 }] } ∧ ∀ j, j ≠ k → t.sp j = s.sp j) ∧
    (v.place = 3 → 0 < v.left → exec (.contextRestore k 0) s = .next s) ∧
    (v.place = 3 → v.left = 0 → v.ctx.preempt = none → v.ctx.kern.phase = .halted → SpStep (.contextRestore k 0) s k { s.sp k with
      ctx := some { v.ctx with
        frozen := false, used := v.ctx.entries.length, recent := [], matrix := { v.ctx.matrix with drain := none }, spire := { v.ctx.spire with stopped := false },
        kern := { v.ctx.kern with phase := if v.ctx.stopped then .stopped else .resuming 2 } },
      victims := [], cm := v.cm.getD (s.sp k).cm, held := some v.ctx.launch, idle := false, ranges := [], tower := [], fused := false, line := [], lineAt := v.lineAt })

/-- R444 to R459 (23): migration. VF 0's messages prepare a partition, start its migration with a hello to the destination, abort it until it has
resumed there, and release it once it has drained; a message in a state that does not take it is NAK BUSY. A hello that matches makes its partition a
destination. The source, once quiet, says FROZEN and sends its state records; the destination takes them in order, and fails the migration for a partition that does
not match, for records that are missing or for none in time. Once every context is restored it says RESUMED, and pages come on demand and in the
background: a page is shipped as 64 packets, and lets what waits for it go on; with the last, PULLED. DRAINED follows when the grace period ends. -/
def Obligations.MigrationSteps : Prop :=
  (∀ (h : VctHdr) (m : MigArgs) (p : Part) (s : State), HostTurn s h → h.vf = 0 → m.part < 32 → m.peerPart < 32 → m.port < 16 → m.peerPkg < 2 ^ 16 →
    s.part m.part = some p →
    (p.migr.role = 1 ∨ (p.migr.role = 2 ∧ p.migr.phase ≠ 5) →
      (∃ t, exec (.migrateAccept h m) s = .next t ∧ Answered s h 0xE 8 t ∧ t.parts = s.parts) ∧ ∃ t, exec (.migrateStart h m) s = .next t ∧ Answered s h 0xE 8 t ∧ t.parts = s.parts) ∧
    (¬(p.migr.role = 1 ∧ p.migr.phase ≤ 3) → ∃ t, exec (.migrateAbort h m) s = .next t ∧ Answered s h 0xE 8 t ∧ t.parts = s.parts) ∧
    (¬(p.migr.role = 1 ∧ p.migr.phase = 6) → ∃ t, exec (.migrateRelease h m) s = .next t ∧ Answered s h 0xE 8 t ∧ t.parts = s.parts) ∧
    (p.migr.role = 0 ∨ (p.migr.role = 2 ∧ p.migr.phase = 5) →
      (∃ t g m1 m2, exec (.migrateAccept h m) s = .next t ∧ t.part m.part = some { p with accept := some g } ∧ g.role = 2 ∧ g.phase = 1 ∧ g.id = m.id ∧
        g.peerPkg = m.peerPkg ∧ g.peerPart = m.peerPart ∧ g.port = m.port ∧ t.out = s.out ++ [m1, m2] ∧ m1.type_ = 0xD ∧ m1.seq = h.seq ∧ m2.type_ = 8 ∧
        field m2.payload 0 4 = 0x11) ∧
      ((s.port m.port).mode = 1 → ∃ t g k, exec (.migrateStart h m) s = .next t ∧ Answered s h 0xD 0 t ∧ Sends (.migrateStart h m) s m.port k t ∧ t.part m.part = some { p with migr := g } ∧
        g.role = 1 ∧ g.phase = 1 ∧ g.id = m.id ∧ k.op = 10 ∧ k.dstPkg = m.peerPkg ∧ k.dstPart = m.peerPart ∧ field k.data 0 8 = m.id % 2 ^ 64 ∧ k.data.length = 64)) ∧
    (p.migr.role = 1 → p.migr.phase ≤ 3 → p.faults = [] → ∃ t m1 m2, exec (.migrateAbort h m) s = .next t ∧ t.part m.part = some { p with migr := Migr.init } ∧
      t.out = s.out ++ [m1, m2] ∧ m1.type_ = 0xD ∧ m1.seq = h.seq ∧ m2.type_ = 8 ∧ field m2.payload 0 4 = 0x17 ∧ field m2.payload 24 8 = 4 ∧ t.mem = s.mem) ∧
    ∀ k, p.migr.role = 1 → p.migr.phase = 6 → p.sps = [k] → (∀ l ∈ s.launches, l.part = m.part) → ∃ t m1 m2 q, exec (.migrateRelease h m) s = .next t ∧ t.launches = [] ∧
      (t.sp k).ctx = none ∧ (t.sp k).victims = [] ∧ (t.sp k).held = none ∧ (t.sp k).ustore = (s.sp k).ustore ∧ t.part m.part = some q ∧ q.migr = Migr.init ∧
      q.moved = some (p.migr.peerPkg, p.migr.peerPart) ∧ q.codes = [] ∧ q.sps = [k] ∧ t.out = s.out ++ [m1, m2] ∧ m1.type_ = 0xD ∧ m2.type_ = 8 ∧
      field m2.payload 0 4 = 0x16) ∧
  (∀ (k : Packet) (p : Part) (s : State), s.part k.dstPart = some p → (s.dup k).first s.dev.pkg k = none → (s.port (s.portTo p k.srcPkg)).mode = 1 →
    (∀ g, p.accept = some g → p.migr.role = 0 ∨ (p.migr.role = 2 ∧ p.migr.phase = 5) → field k.data 0 8 = g.id → k.srcPkg = g.peerPkg → field k.data 8 1 = g.peerPart →
      field k.data 9 1 = k.dstPart → ∃ t, Sends (.migrationHello k) s (s.portTo p k.srcPkg) (answer s.dev.pkg k 6 0 []) t ∧
        t.part k.dstPart = some { p with migr := { g with phase := 2, start := s.now, at_ := s.now }, accept := none, moved := none }) ∧
    ((∀ g, p.accept = some g → field k.data 0 8 ≠ g.id) → ∃ t, Sends (.migrationHello k) s (s.portTo p k.srcPkg) (answer s.dev.pkg k 6 4 []) t ∧
      t.part k.dstPart = some p)) ∧
  (∀ (part : Nat) (p : Part) (s : State), s.part part = some p → p.migr.role = 1 →
    (p.migr.phase = 2 → s.migQuiet part p = true → ∃ (t : State) (l : List MigRec) (m : Msg) (q : Migr), exec (.migrationFrozen part) s = .next t ∧ t.part part = some { p with migr := q } ∧ q.phase = 3 ∧
      q.bytes = migBytes p s.dups.length (p.spList.map s.sp) ∧ t.recordsOut = s.recordsOut ++ l.map (fun r => (p.migr.port, r)) ∧ l.getLast? = some (.last (l.length - 1)) ∧
      t.out = s.out ++ [m] ∧ m.vf = 0 ∧ m.type_ = 8 ∧ field m.payload 0 4 = 0x12 ∧ t.mem = s.mem) ∧
    (p.migr.phase ≠ 2 → exec (.migrationFrozen part) s = .next s) ∧
    (p.migr.phase = 5 → p.migr.at_ + graceCycles ≤ s.now → ∃ t m, exec (.graceExpiry part) s = .next t ∧
      t.part part = some { p with migr := { p.migr with phase := 6, at_ := s.now }, moved := some (p.migr.peerPkg, p.migr.peerPart) } ∧ t.out = s.out ++ [m] ∧ m.vf = 0 ∧ m.type_ = 8 ∧ field m.payload 0 4 = 0x15) ∧
    (s.now < p.migr.at_ + graceCycles → exec (.graceExpiry part) s = .next s) ∧
    ∀ page x b, 3 ≤ p.migr.phase → p.migr.pulls = [x] → x / 2 = page → (s.port p.migr.port).mode = 1 → b = s.writeBack (fun l => decide (l.beat / 1024 = page)) →
      ((∃ a ∈ s.accs, a.part = part ∧ a.state = 2 ∧ a.pa / 0x10000 = page) → exec (.pageShip part page) s = .next b) ∧
      (s.accs = [] → ∃ t, exec (.pageShip part page) s = .next t ∧ t.mem = b.mem ∧ t.cache = b.cache ∧
        (t.port p.migr.port).queue = (s.port p.migr.port).queue ++
          (List.range 64).flatMap (fun i => (pktFlitList (b.pagePacket part page i p.migr)).map fun f => ⟨8, s.now + fabricToArith 12, f⟩) ∧
        t.part part = some { p with migr := { p.migr with pulls := [], pages := p.migr.pages.filter (· ≠ page) ++ [page] } })) ∧
  (∀ (part : Nat) (p : Part) (s : State), s.part part = some p → p.migr.role = 2 → p.migr.phase = 2 →
    (∀ c, s.records = [(part, .handle c)] → ∃ t, exec (.stateRecord part) s = .next t ∧ t.records = [] ∧ t.taken = s.taken ++ [(part, .handle c)] ∧
      t.part part = some { p with migr := { p.migr with at_ := s.now } } ∧ t.mem = s.mem ∧ t.sps = s.sps) ∧
    (∀ q ls vfs ports parked, s.records = [(part, .part q ls vfs ports parked)] → s.migMatches part p q vfs = false → ∃ t m, exec (.stateRecord part) s = .next t ∧
      (∃ r, t.part part = some r ∧ r.migr = Migr.init ∧ r.codes = []) ∧ t.out = s.out ++ [m] ∧ m.type_ = 8 ∧ field m.payload 0 4 = 0x17 ∧ field m.payload 24 8 = 1) ∧
    (∀ n, s.records = [(part, .last n)] → (s.takenOf part).length ≠ n → ∃ t m, exec (.stateRecord part) s = .next t ∧
      (∃ r, t.part part = some r ∧ r.migr = Migr.init ∧ r.codes = []) ∧ t.out = s.out ++ [m] ∧ m.type_ = 8 ∧ field m.payload 0 4 = 0x17 ∧ field m.payload 24 8 = 5) ∧
    (∀ q, s.records = [(part, .last 1)] → s.taken = [(part, .part q [] [] [] [])] → q.faults = [] → q.codes = [] → q.tokWait = [] → ∃ t r, exec (.stateRecord part) s = .next t ∧
      t.records = [] ∧ t.taken = [] ∧ t.mem = s.mem ∧ t.out = s.out ∧ t.part part = some r ∧ r.migr.role = 2 ∧ r.migr.phase = 3 ∧ r.migr.pages = q.migPages ∧
      r.sps = q.sps ∧ r.linear = q.linear ∧ r.paged = q.paged ∧ r.arena = p.arena ∧ r.arenaBase = p.arenaBase) ∧
    (p.migr.at_ + recordCycles ≤ s.now → ∃ t m, exec (.stateRecordTimeout part) s = .next t ∧ (∃ r, t.part part = some r ∧ r.migr = Migr.init ∧ r.codes = []) ∧ t.out = s.out ++ [m] ∧
      m.type_ = 8 ∧ field m.payload 0 4 = 0x17 ∧ field m.payload 24 8 = 5) ∧
    (s.now < p.migr.at_ + recordCycles → exec (.stateRecordTimeout part) s = .next s)) ∧
  ∀ (part page : Nat) (p : Part) (s : State), s.part part = some p → p.migr.role = 2 → p.migr.pages = [page] → p.migr.pulls = [] → (s.port p.migr.port).mode = 1 →
    (p.migr.phase = 3 → (∀ k ∈ p.sps, ∀ v ∈ (s.sp k).victims, v.ctx.frozen = false) → (s.engine (pullEngine part 7)).beats = [] →
      ∃ t q m, exec (.migrationResumed part) s = .next t ∧ t.part part = some { p with migr := q } ∧ q.phase = 4 ∧ q.pages = [page] ∧ q.pulls = [page * 8 + 7] ∧
        t.out = s.out ++ [m] ∧ m.vf = 0 ∧ m.type_ = 8 ∧ field m.payload 0 4 = 0x13 ∧ t.mem = s.mem) ∧
    (∀ a, s.accs = [a] → a.part = part → a.pa / 0x10000 = page → (s.engine (pullEngine part (dieOfPa a.pa))).beats = [] →
      (a.state ≠ 10 → exec (.pagePullRequest a.id) s = .next s) ∧
      (a.state = 10 → ∃ t k, Sends (.pagePullRequest a.id) s p.migr.port k t ∧ k.op = 2 ∧ k.ia = page * 0x10000 ∧ k.dstPkg = p.migr.peerPkg ∧ k.dstPart = p.migr.peerPart ∧
        t.accs = [a] ∧ t.part part = some { p with migr := { p.migr with pulls := [page * 8 + dieOfPa a.pa] } })) ∧
    (∀ a, s.accs = [a] → a.state = 10 → a.part = part → a.pa / 0x10000 = page → p.migr.phase = 3 → ∃ t q, exec (.pagePresent part page) s = .next t ∧
      t.accs = [{ a with state := 2, ready := s.now }] ∧ t.part part = some { p with migr := q } ∧ q.pages = [] ∧ q.n2 = p.migr.n2 + 1 ∧ t.mem = s.mem) ∧
    (s.accs = [] → p.migr.phase = 4 → ∃ t q m, exec (.pagePresent part page) s = .next t ∧ t.part part = some { p with migr := q } ∧ q.pages = [] ∧ q.phase = 5 ∧
      t.out = s.out ++ [m] ∧ m.vf = 0 ∧ m.type_ = 8 ∧ field m.payload 0 4 = 0x14)

/-- R41 to R48, R50 to R54, R58 to R60 (02), R40 (01), R307 (12), R463, R465 and R466 (24): the host port. A frame for a VF is the message that its header and payload say, or
an invalid one; every message of an unbound VF is NAK UNBOUND. A message that its VF expects is executed and answered: CONFIG
creates and destroys partitions, gives them SPs, memory and a code arena, and binds VFs; LOAD places an object and UNLOAD frees it; LAUNCH queues a record whose checks
pass; WRITE and READ send their beats, and are answered once these are done; CANCEL ends queued launches at once. An invalid message is NAK BAD_MESSAGE, one too far
ahead is OUT_OF_WINDOW and consumes nothing. A message of the part is sent again every 100 µs until it is acknowledged, 16 times. A launch whose plan can be met starts
its contexts at the entry, and one that has ended and is quiet is released with COMPLETE, its SPs free. The code arena's place is left open (log 5). -/
def Obligations.HostSteps : Prop :=
  (∀ (v type_ queue seq tag peerIp peerPort : Nat) (l : List Byte) (h : VctHdr) (f : HostFrame), v < 64 → type_ < 2 ^ 8 → queue < 2 ^ 8 → seq < 2 ^ 32 → tag < 2 ^ 64 →
    l.length < 2 ^ 32 → h = ⟨v, seq, queue, tag, peerIp, peerPort⟩ →
    f = ⟨vfMac v, vfIp v, 46784, peerIp, peerPort, false, headerBytes type_ queue seq l.length 0 tag ++ l⟩ →
    (9000 < 48 + 24 + l.length → f.message = none) ∧
    (48 + 24 + l.length ≤ 9000 →
      (8 ≤ queue ∨ type_ ∈ [0, 4, 5, 6, 10] ∨ 14 ≤ type_ → f.message = some (.vctInvalidMessage h)) ∧
      (queue < 8 →
        (∀ ia n, type_ = 3 → ia < 2 ^ 64 → n < 2 ^ 64 → l = toBytes 8 ia ++ toBytes 8 n → f.message = some (.read h ia n)) ∧
        (∀ ia d, type_ = 2 → ia < 2 ^ 64 → l = toBytes 8 ia ++ d → 0 < d.length → d.length ≤ 8192 → f.message = some (.write h ia d)) ∧
        (∀ x, type_ = 12 → x < 2 ^ 64 → l = toBytes 8 x → f.message = some (.cancel h x)) ∧
        (type_ = 13 → l = [] → f.message = some (.ack v seq)) ∧
        (type_ = 1 → l.length ≠ 128 → f.message = some (.vctInvalidMessage h))))) ∧
  (∀ (h : VctHdr) (s : State), HostTurn s h → ∃ t : State, exec (.vctInvalidMessage h) s = .next t ∧ Answered s h 0xE 1 t) ∧
  (∀ (h : VctHdr) (i : Instr) (r : LaunchRec) (m : MigArgs) (a b : Nat) (rm : Bool) (l : List Byte) (s : State), s.dev.hostUp = true → h.vf ≠ 0 → (s.vf h.vf).part = none →
    i ∈ [Instr.vctInvalidMessage h, .launch h r, .write h a l, .read h a b, .load h a b, .unload h a, .cancel h a, .partCreate h a, .partDestroy h a, .partSps h a b, .partMem h a b b rm, .partArena h a b,
      .vfBind h a b, .vfUnbind h a, .migrateAccept h m, .migrateStart h m, .migrateAbort h m, .migrateRelease h m] →
    ∃ x : Msg, exec i s = .next { s with out := s.out ++ [x] } ∧ x.type_ = 0xE ∧ x.status = 11 ∧ x.seq = h.seq ∧ x.tag = h.tag) ∧
  (∀ (h : VctHdr) (s : State), s.dev.hostUp = true → (h.vf = 0 ∨ (s.vf h.vf).part.isSome = true) → s.vfMigrating h.vf = false →
    64 ≤ (h.seq + 2 ^ 32 - (s.vf h.vf).expect % 2 ^ 32) % 2 ^ 32 → (h.seq + 2 ^ 32 - (s.vf h.vf).expect % 2 ^ 32) % 2 ^ 32 < 2 ^ 31 →
    ∃ m : Msg, exec (.vctInvalidMessage h) s = .next { s with out := s.out ++ [m] } ∧ m.type_ = 0xE ∧ m.status = 7 ∧ m.seq = h.seq) ∧
  (∀ (h : VctHdr) (part : Nat) (s : State), HostTurn s h → h.vf = 0 → part < 32 →
    (s.part part = none → ∃ t : State, exec (.partCreate h part) s = .next t ∧ Answered s h 0xD 0 t ∧ t.part part = some { Part.init with
        peer := (s.windows part).peer, export_ := (s.windows part).export_, toktab := (s.windows part).toktab, stale := (s.windows part).stale } ∧ (∀ q, q ≠ part → t.part q = s.part q) ∧ t.launches = s.launches) ∧
    (s.part part ≠ none → ∃ t : State, exec (.partCreate h part) s = .next t ∧ Answered s h 0xE 8 t ∧ t.parts = s.parts)) ∧
  (∀ (h : VctHdr) (part : Nat) (p : Part) (s : State), HostTurn s h → h.vf = 0 → part < 32 → s.part part = some p →
    ((∀ v < 64, (s.vf v).part ≠ some part) → s.launches = [] → p.codes = [] → ∃ t : State, exec (.partDestroy h part) s = .next t ∧ Answered s h 0xD 0 t ∧ t.part part = none) ∧
    ((∃ v < 64, (s.vf v).part = some part) ∨ (∃ l ∈ s.launches, l.part = part) ∨ p.codes ≠ [] →
      ∃ t : State, exec (.partDestroy h part) s = .next t ∧ Answered s h 0xE 8 t ∧ t.parts = s.parts) ∧
    (∀ mask, mask < 2 ^ 160 → p.sps = [] → (∀ q r k, (q, r) ∈ s.parts → q ≠ part → k ∈ r.sps → mask / 2 ^ k % 2 = 0) →
      ∃ t : State, exec (.partSps h part mask) s = .next t ∧ Answered s h 0xD 0 t ∧ t.part part = some { p with sps := (List.range 160).filter fun k => decide (mask / 2 ^ k % 2 = 1) }) ∧
    (∀ base len, base % 2 ^ 21 = 0 → 0 < len → len % 2 ^ 21 = 0 → base + len ≤ 2 ^ 39 → p.linear = [] → (∀ e ∈ s.parts, e.1 = part) →
      ∃ t : State, exec (.partMem h part base len false) s = .next t ∧ Answered s h 0xD 0 t ∧ t.part part = some { p with linear := [(base, len)] }) ∧
    (∀ bytes, p.codes = [] → ∃ (t : State) (b : Nat), exec (.partArena h part bytes) s = .next t ∧ Answered s h 0xD 0 t ∧ b % 64 = 0 ∧ t.part part = some { p with arena := bytes, arenaBase := b }) ∧
    ∀ vf, 0 < vf → vf < 64 →
      ((s.vf vf).part = none → ∃ t : State, exec (.vfBind h vf part) s = .next t ∧ Answered s h 0xD 0 t ∧ (t.vf vf).part = some part ∧ (t.vf vf).expect = 0 ∧ (t.vf vf).next = (s.vf vf).next ∧
          (t.vf vf).unacked = (s.vf vf).unacked) ∧
      ((∀ l ∈ s.launches, l.vf ≠ vf) → ∃ t : State, exec (.vfUnbind h vf) s = .next t ∧ Answered s h 0xD 0 t ∧ (t.vf vf).part = none)) ∧
  (∀ (h : VctHdr) (part : Nat) (p : Part) (s : State), HostTurn s h → h.vf ≠ 0 → (s.vf h.vf).part = some part → s.part part = some p →
    (∀ c : Code, p.codes = [c] → c.unloading = false → s.launches = [] → ∃ t : State, exec (.unload h c.handle) s = .next t ∧ Answered s h 0xD 0 t ∧ t.part part = some { p with codes := [] }) ∧
    (∀ ia len b c bytes a, p.inMemory ia len = true → s.stagedBytes p ia len = some b → loadObject b = .ok (c, bytes) → p.arenaPlace bytes.length = some a →
      ∃ (t : State) (m : Msg), exec (.load h ia len) s = .next t ∧ t.out = s.out ++ [m] ∧ m.type_ = 0xA ∧ m.status = 0 ∧ m.tag = h.tag ∧ m.payload = toBytes 8 s.nextHandle ∧
        t.nextHandle = s.nextHandle + 1 ∧ t.code = bytesWrite s.code a bytes ∧ t.part part = some { p with codes := p.codes ++ [{ c with handle := s.nextHandle, base := a }] }) ∧
    (∀ ia len, p.inMemory ia len = false → ∃ t : State, exec (.load h ia len) s = .next t ∧ Answered s h 0xE 10 t ∧ t.parts = s.parts ∧ t.code = s.code) ∧
    (∀ r : LaunchRec, (s.launchCode h p r ≠ 0 → ∃ t : State, exec (.launch h r) s = .next t ∧ Answered s h 0xE (s.launchCode h p r) t ∧ t.launches = s.launches) ∧
      (s.launchCode h p r = 0 → ∃ (t : State) (l : Launch), exec (.launch h r) s = .next t ∧ Answered s h 0xD 0 t ∧ t.launches = s.launches ++ [l] ∧ l.state = 0 ∧ l.vf = h.vf ∧ l.queue = h.queue ∧ l.part = part ∧
        l.handle = r.handle ∧ l.tag = r.tag ∧ l.entry = r.entry ∧ l.count = r.count ∧ l.prio = r.prio ∧ l.args = r.args ∧ l.id = s.dev.pkg * 2 ^ 48 + s.nextId ∧
        t.nextId = s.nextId + 1 ∧ Instr.placementPass part ∈ t.inbox)) ∧
    (∀ (wr : Bool) (ia : Nat) (data : List Byte), data ≠ [] → data.length ≤ 64 - ia % 64 → ia + data.length ≤ 2 ^ 39 →
      inRanges p.linear ia data.length = true → s.accs = [] → (s.engine 64).beats = [] → (∀ x ∈ s.xfrs, x.id < s.nextAcc) →
      ∃ (t : State) (a : Acc) (x : Xfr), exec (if wr then .write h ia data else .read h ia data.length) s = .next t ∧
        t.accs = [a] ∧ a.eng = some 64 ∧ t.xfrs = s.xfrs ++ [x] ∧ a.src = .host x.id ∧ a.ia = ia ∧ a.pa = ia ∧ a.n = data.length ∧ a.state = 2 ∧
        a.kind = (if wr then .write else .read) ∧ a.data = (if wr then data else []) ∧ x.left = 0 ∧ x.seq = h.seq ∧ x.vf = h.vf ∧
        (t.vf h.vf).busy = some h.seq ∧ t.out = s.out ∧ t.mem = s.mem) ∧
    ∀ tag,
      ((∀ l ∈ s.launches, l.vf ≠ h.vf ∨ l.tag ≠ tag) → ∃ t : State, exec (.cancel h tag) s = .next t ∧ Answered s h 0xE 4 t ∧ t.launches = s.launches) ∧
      (∀ l, s.launches = [l] → l.vf = h.vf → l.tag = tag → l.state = 0 → l.cause = none → l.ranks = [] → ∃ (t : State) (m1 m2 : Msg), exec (.cancel h tag) s = .next t ∧ t.launches = [] ∧
        t.out = s.out ++ [m1, m2] ∧ m1.type_ = 0xD ∧ m1.seq = h.seq ∧ m2.type_ = 5 ∧ m2.tag = l.msgTag ∧ m2.payload[24]? = some 3)) ∧
  (∀ (x : Xfr) (s : State), s.xfrs = [x] → x.launch = 0 → x.left = 0 → x.parked = false → (s.vf x.vf).held = [] → (∀ a ∈ s.accs, a.src = .host x.id → s.accDone a = true) →
    ∃ (t : State) (m : Msg), exec (.hostTransferComplete x.id) s = .next t ∧ t.xfrs = [] ∧ (t.vf x.vf).busy = none ∧ t.out = s.out ++ [m] ∧ m.vf = x.vf ∧ m.seq = x.seq ∧ m.tag = x.tag ∧
      (x.cancelled = true → m.type_ = 0xE ∧ m.status = 9) ∧ (x.cancelled = false → x.write = true → m.type_ = 0xD) ∧
      (x.cancelled = false → x.write = false → m.type_ = 4) ∧
      ∀ a, x.cancelled = false → x.write = false → s.accs = [a] → a.src = .host x.id → a.va = 0 → a.status = 0 → 0 < x.len → x.len ≤ 64 - x.ia % 64 → m.payload = a.result) ∧
  (∀ (vf seq : Nat) (s : State), ∃ t : State, exec (.ack vf seq) s = .next t ∧ t = { s with vfs := t.vfs } ∧
    t.vf vf = { s.vf vf with unacked := (s.vf vf).unacked.filter fun u => decide (u.msg.seq ≠ seq) } ∧ ∀ v, v ≠ vf → t.vf v = s.vf v) ∧
  (∀ (vf : Nat) (u : Unacked) (s : State), (s.vf vf).unacked = [u] → u.at_ + 105000 ≤ s.now →
    (u.tries < 16 → ∃ t : State, exec (.vctRetransmitTimer vf u.msg.seq) s = .next t ∧ t.out = s.out ++ [u.msg] ∧ (t.vf vf).unacked = [{ u with tries := u.tries + 1, at_ := s.now }]) ∧
    (16 ≤ u.tries → ∃ t : State, exec (.vctRetransmitTimer vf u.msg.seq) s = .next t ∧ t.out = s.out ∧ (t.vf vf).unacked = [] ∧ (t.vf vf).lost = (s.vf vf).lost + 1)) ∧
  (∀ (part k : Nat) (p : Part) (l : Launch) (c : Code) (q : Plan) (s : State), s.part part = some p → p.migr.role = 0 → s.passOrder part = [l] → s.launchOf l.id = some l →
    l.part = part → s.codeOf l = some c → s.resumeFirst l = false → (s.planFor l c p fun j => s.canTake l j) = some q →
    exec (.placementPass part) s = .next (s.startLaunch l c q) ∧
    (q.sps = [k] → q.segs = [] → q.slots = [] → q.entries = [] → q.ports = [] → (s.sp k).victims = [] → (∀ x ∈ s.xfrs, x.launch ≠ l.id) →
      ∃ (t : State) (d : Ctx) (m : Launch), exec (.placementPass part) s = .next t ∧ t.ctx k = some d ∧ d.launch = l.id ∧ d.rank = 0 ∧ d.pc = BitVec.ofNat 64 l.entry ∧ d.mmode = false ∧ d.xr 2 = 0x38000 ∧
        d.xr 10 = 0 ∧ d.xr 11 = BitVec.ofNat 64 l.count ∧ d.xr 12 = 0x38000 ∧ d.hw = 2 ^ 32 ∧ (t.sp k).held = some l.id ∧
        (∀ i b, c.ctrl[i]? = some b → i < 0x38000 → cmByte (t.sp k).cm i = b) ∧
        t.launchOf l.id = some m ∧ m.state = 1 ∧ m.started = s.now ∧ m.t = l.count * 2 ^ 32 ∧ m.ranks = [k])) ∧
  ∀ (k : Nat) (l : Launch) (d : Ctx) (s : State), s.launches = [l] → l.state = 2 → s.accs = [] → l.ranks = [k] → (∀ p, s.part l.part = some p → p.migr.role = 0) →
    (s.sp k).ctx = none → (s.sp k).left = some d → (s.sp k).victims = [] → (s.sp k).held = some l.id → d.launch = l.id → d.sb = [] → d.tokens = [] → l.gone = [] →
    ∃ (t : State) (m : Msg), exec (.launchRelease l.id) s = .next t ∧ t.launches = [] ∧ t.out = s.out ++ [m] ∧ m.type_ = 5 ∧ m.vf = l.vf ∧ m.tag = l.msgTag ∧ m.payload = l.record s.now ∧
      (t.sp k).held = none ∧ (t.sp k).ctx = none ∧ (t.sp k).left = none ∧ (t.sp k).victims = [] ∧ Instr.placementPass l.part ∈ t.inbox

/-- R468 to R479 (25): the device. A power-on reset, a warm reset and the recovery from a thermal trip leave no partition, launch, context or memory content, every device
register at its reset value, and the boot status of the first image that fails; a rail that falls, and a sensor at 115 °C, hold the part in reset, the latter after a COMPLETE
for each launch. A warning is noted; a report of 512 bytes with the nonce is built once asked for; a snapshot trigger is latched 64 cycles later or counted as lost while one
is held; the window registers of a partition are written whether it exists or not; a debugger attaches and lets a stopped controller go on; JTAG shifts out the identity, what it reads, and one delayed bit; writes of the register space change
writable fields, and holes are counted up to 0xFFFF. The order of boot images and the layout that the spec does not print are the model's (logs 6, 21). -/
def Obligations.DeviceSteps : Prop :=
  (∀ (i : Instr) (s : State), (i = .powerOnReset ∨ i = .warmReset ∧ s.dev.inReset = 0 ∨ i = .thermalRecover ∧ s.dev.inReset = 2) →
    ∃ t, exec i s = .next t ∧ t.parts = [] ∧ t.launches = [] ∧ t.sps = [] ∧ t.vfs = [] ∧ t.mem = [] ∧ t.cache = [] ∧ t.code = [] ∧ t.ports = [] ∧ t.mmus = [] ∧ t.accs = [] ∧ t.inbox = [] ∧
      t.turns = [] ∧ t.now = s.now ∧ t.dev.inReset = 0 ∧ t.dev.pkg = 0 ∧ t.dev.holehit = 0 ∧ t.dev.snapctl = 0 ∧ t.dev.warn = false ∧ t.dev.regs = [] ∧
      t.dev.rails = (if i = .powerOnReset then [] else s.dev.rails) ∧
      ((∀ n ∈ [1, 2, 3, 4, 5], s.dev.bootCause n = 0) → t.dev.bootstat = 0 ∧ t.dev.hostUp = true) ∧
      ∀ n ∈ [1, 2, 3, 4, 5], (∀ m, 1 ≤ m → m < n → s.dev.bootCause m = 0) → s.dev.bootCause n ≠ 0 →
        t.dev.bootstat = BitVec.ofNat 64 (n + s.dev.bootCause n * 2 ^ 8) ∧ t.dev.hostUp = false) ∧
  (∀ (rail : Nat) (s : State), rail < 7 → ∃ t, exec (.railDrop rail) s = .next t ∧ t.dev.inReset = 1 ∧ t.dev.hostUp = false ∧ t.dev.rails = rail :: s.dev.rails ∧
    t.parts = [] ∧ t.launches = [] ∧ t.sps = []) ∧
  (∀ (sensor : Nat) (s : State), sensor < 72 → s.dev.inReset = 0 →
    exec (.thermalWarn sensor) s = .next { s with dev := { s.dev with warn := true } } ∧
    ∀ l, s.launches = [l] → l.cause = none → ∃ t m, exec (.thermalTrip sensor) s = .next t ∧ t.dev.inReset = 2 ∧ t.dev.hostUp = false ∧ t.parts = [] ∧ t.launches = [] ∧
      t.sps = [] ∧ t.out = s.out ++ [m] ∧ m.type_ = 5 ∧ m.vf = l.vf ∧ m.tag = l.msgTag ∧ (l.addr ≠ 0 → m.port = l.port ∧ m.addr = l.addr) ∧ m.payload[24]? = some 3) ∧
  (∀ s : State,
    (s.dev.attBusy = false → exec .attgo s = .next { s with dev := { s.dev with attBusy := true, attDone := false } }) ∧ (s.dev.attBusy = true → exec .attgo s = .next s) ∧
    (s.dev.attBusy = true → ∃ r, exec .attestationDone s = .next { s with ctr := s.ctr + 1, dev := { s.dev with report := r, attDone := true, attBusy := false } } ∧
      r.length = 512 ∧ (s.dev.attNonce.length = 48 → r.take 48 = s.dev.attNonce))) ∧
  (∀ (i : Instr) (s : State), (i = .snaptrig ∨ ∃ port, i = .snapshotPacket port ∧ (s.port port).mode = 1) →
    (s.dev.snapctl.getLsbD 0 = false → exec i s = .next { s with dev := { s.dev with snapT := s.dev.snapT ++ [s.now + 64] } }) ∧
    (s.dev.snapctl.getLsbD 0 = true → ∃ v : Dword, exec i s = .next { s with dev := { s.dev with snapctl := v } } ∧ v.toNat % 2 ^ 16 = s.dev.snapctl.toNat % 2 ^ 16 ∧
      v.toNat / 2 ^ 32 = s.dev.snapctl.toNat / 2 ^ 32 ∧ v.toNat / 2 ^ 16 % 2 ^ 16 = min 0xFFFF (s.dev.snapctl.toNat / 2 ^ 16 % 2 ^ 16 + 1))) ∧
  (∀ (t0 : Nat) (s : State), s.dev.snapT = [t0] → t0 ≤ s.now → ∃ t, exec .snapshotLatch s = .next t ∧ t.dev.snapT = [] ∧ t.dev.snapcyc = BitVec.ofNat 64 t0 ∧
    t.dev.snapctl = s.dev.snapctl ||| 1 ∧
    (∀ k p c, KMap.find k s.sps = some p → p.ctx = some c → t.sp k = { p with
      snap := [BitVec.ofNat 64 c.kern.pc, BitVec.ofNat 64 c.kern.cycles, BitVec.ofNat 64 c.kstat, c.pc, BitVec.ofNat 64 (c.sb.filter fun e => !e.freed).length,
        BitVec.ofNat 64 (c.matrix.wmOf 0), BitVec.ofNat 64 (c.matrix.wmOf 1), BitVec.ofNat 64 (c.matrix.wmOf 2), BitVec.ofNat 64 (c.matrix.wmOf 3)] }) ∧
    (s.dev.snapctl.getLsbD 1 = false → t.ports = s.ports) ∧
    ∀ n p, s.dev.snapctl.getLsbD 1 = true → n < 16 → s.dev.snapfwd.getLsbD n = true → (s.port n).mode = 1 → p = snapPacket s.dev.pkg →
      (t.port n).queue = (s.port n).queue ++ (pktFlitList p).map fun f => ⟨8, s.now + fabricToArith 12, f⟩) ∧
  (∀ s : State, ∃ v : Dword, exec .snapctlValidClear s = .next { s with dev := { s.dev with snapctl := v } } ∧ v.toNat = s.dev.snapctl.toNat / 2 * 2) ∧
  (∀ (k : Nat) (s : State), k < 160 → SpStep (.dbgctlAttach k) s k { s.sp k with attach := true }) ∧
  (∀ (k : Nat) (s : State) (c : Ctx), (s.sp k).dbgStopped = true → s.ctx k = some c → SpStep (.dbgctlGo k) s k { s.sp k with
    dbgStopped := false, ctx := some { c with pc := c.pc + (if (cmByte (s.sp k).cm c.pc.toNat).toNat % 4 = 3 then 4 else 2) } }) ∧
  (∀ s : State, ∃ id : Dword, exec .jtagIdcode s = .next { s with dev := { s.dev with tapIr := 1, tapOut := s.dev.tapOut ++ [id] } } ∧ id.toNat % 2 = 1 ∧
    id.toNat / 2 ^ 12 % 2 ^ 16 = 0x4400 ∧ id.toNat / 2 ^ 28 = 1) ∧
  (∀ (tdi : Bool) (s : State), s.dev.tapIr = 3 → exec (.jtagBypass tdi) s = .next { s with
    dev := { s.dev with tapIr := 3, tapBypass := tdi, tapOut := s.dev.tapOut ++ [if s.dev.tapBypass then 1 else 0] } }) ∧
  (∀ s : State, (∃ v, exec .jtagSamplePreload s = .next { s with ctr := s.ctr + 1, dev := { s.dev with tapIr := 4, tapOut := s.dev.tapOut ++ [v] } }) ∧
    exec .jtagExtest s = .next { s with dev := { s.dev with tapIr := 5 } } ∧ exec .jtagTrst s = .next { s with dev := { s.dev with tapIr := 1, tapBypass := false } }) ∧
  (∀ (a : Nat) (wr : Bool) (v w : Dword) (s : State),
    (fuseJtagReg = false → exec (.jtagRegacc a wr v) s = .next { s with dev := { s.dev with tapIr := 2, tapOut := s.dev.tapOut ++ [0] } }) ∧
    (fuseJtagReg = true → a % 8 = 0 → a < 2 ^ 24 → s.regRead a = some w → exec (.jtagRegacc a false v) s =
      .next { s with dev := { s.dev with tapIr := 2, tapOut := s.dev.tapOut ++ [w] } })) ∧
  (∀ (v : Dword) (s : State),
    exec (.registerWrite 8 v) s = .next { s with dev := { s.dev with pkg := v.toNat % 2 ^ 16 } } ∧
    exec (.registerWrite 0x2018 v) s = .next { s with dev := { s.dev with snapfwd := v &&& 0xFFFF } } ∧
    exec (.registerWrite 0x10 v) s = .next s ∧
    (∀ n < 32, ∃ t, exec (.registerWrite (0x20000 + 0x1000 * n + 0x200) v) s = .next t ∧
      (t.windows n).toktab = v &&& BitVec.ofNat 64 (2 ^ 63 + (2 ^ 40 - 1) * 2 ^ 12 + 31) ∧ (t.windows n).peer = (s.windows n).peer ∧ ∀ m, m ≠ n → t.windows m = s.windows m) ∧
    (s.dev.inReset = 0 → v.getLsbD 0 = true → exec (.registerWrite 0 v) s = exec .warmReset s)) ∧
  ∀ (a : Nat) (v : Dword) (s : State), a % 8 = 0 → a < 2 ^ 24 → s.regRead a = none →
    exec (.registerWrite a v) s = .next { s with dev := { s.dev with holehit := min 0xFFFF (s.dev.holehit + 1) } } ∧
    exec (.holeRead a) s = .next { s with dev := { s.dev with holehit := min 0xFFFF (s.dev.holehit + 1) } }
end

