-- ==== Sys2Proof/Laws/Maps.lean ====
section
/-! SUPPORT. What the sparse stores do: read after write, that a write leaves every other key alone, and that the writers
keep the canonical form. -/

namespace Sys2Proof.Machine

@[simp] theorem KMap.find_nil {α : Type} (k : Nat) : KMap.find k ([] : KMap α) = none := rfl

theorem KMap.find_ins_self {α : Type} (k : Nat) (v : α) (m : KMap α) : KMap.find k (KMap.ins k v m) = some v := by
  induction m with
  | nil => simp [KMap.ins, KMap.find]
  | cons e l ih =>
    obtain ⟨j, w⟩ := e
    unfold KMap.ins
    split
    · simp [KMap.find]
    · split
      · simp [KMap.find]
      · rename_i h
        simp [KMap.find, h, ih]

theorem KMap.find_ins_other {α : Type} {k i : Nat} (h : i ≠ k) (v : α) (m : KMap α) : KMap.find i (KMap.ins k v m) = KMap.find i m := by
  induction m with
  | nil => simp [KMap.ins, KMap.find, Ne.symm h]
  | cons e l ih =>
    obtain ⟨j, w⟩ := e
    unfold KMap.ins
    split
    · simp [KMap.find, Ne.symm h]
    · split
      · rename_i h2
        subst h2
        simp [KMap.find, Ne.symm h]
      · simp [KMap.find, ih]

/-- Reading after a write. -/
theorem KMap.find_ins {α : Type} (i k : Nat) (v : α) (m : KMap α) : KMap.find i (KMap.ins k v m) = if i = k then some v else KMap.find i m := by
  split
  · rename_i h; subst h; exact KMap.find_ins_self _ _ _
  · rename_i h; exact KMap.find_ins_other h _ _

@[simp] theorem KMap.get_nil {α : Type} (d : α) (k : Nat) : KMap.get d [] k = d := rfl

@[simp] theorem KMap.get_ins_self {α : Type} (d : α) (k : Nat) (v : α) (m : KMap α) : KMap.get d (KMap.ins k v m) k = v := by
  simp [KMap.get, KMap.find_ins_self]

theorem KMap.get_ins_other {α : Type} {k i : Nat} (h : i ≠ k) (d v : α) (m : KMap α) : KMap.get d (KMap.ins k v m) i = KMap.get d m i := by
  simp [KMap.get, KMap.find_ins_other h]

theorem KMap.get_ins {α : Type} (d : α) (i k : Nat) (v : α) (m : KMap α) : KMap.get d (KMap.ins k v m) i = if i = k then v else KMap.get d m i := by
  unfold KMap.get
  rw [KMap.find_ins]
  split <;> rfl

theorem KMap.find_upd {α : Type} (i k : Nat) (f : α → α) (m : KMap α) :
    KMap.find i (KMap.upd k f m) = if i = k then (KMap.find i m).map f else KMap.find i m := by
  induction m with
  | nil => simp [KMap.upd, KMap.find]
  | cons e l ih =>
    obtain ⟨j, w⟩ := e
    unfold KMap.upd
    by_cases hj : j = k
    · by_cases hi : i = k
      · simp [hj, hi, KMap.find]
      · simp [hj, hi, KMap.find, Ne.symm hi]
    · by_cases hji : j = i
      · have hik : i ≠ k := fun h => hj (hji.trans h)
        simp [hj, hik, KMap.find, hji]
      · simp [hj, KMap.find, hji, ih]

/-! ## Keys of a store in canonical form -/

/-- Every listed key of a store whose keys start at `lo` is at least `lo`. -/
theorem KMap.find_below {α : Type} [DecidableEq α] {d : α} {m : KMap α} {lo k : Nat} (h : KMap.wfFrom d lo m = true) (hk : k < lo) :
    KMap.find k m = none := by
  induction m generalizing lo with
  | nil => rfl
  | cons e l ih =>
    obtain ⟨j, w⟩ := e
    simp only [KMap.wfFrom, Bool.and_eq_true, decide_eq_true_eq] at h
    have hj : j ≠ k := by omega
    simp only [KMap.find, hj, if_false]
    exact ih h.2 (by omega)

theorem KMap.wfFrom_mono {α : Type} [DecidableEq α] {d : α} {m : KMap α} {lo lo' : Nat} (h : KMap.wfFrom d lo m = true) (hl : lo' ≤ lo) :
    KMap.wfFrom d lo' m = true := by
  cases m with
  | nil => rfl
  | cons e l =>
    obtain ⟨j, w⟩ := e
    simp only [KMap.wfFrom, Bool.and_eq_true, decide_eq_true_eq] at h ⊢
    exact ⟨⟨by omega, h.1.2⟩, h.2⟩

theorem KMap.wfFrom_ins {α : Type} [DecidableEq α] {d v : α} {m : KMap α} {lo k : Nat} (h : KMap.wfFrom d lo m = true) (hk : lo ≤ k) (hv : v ≠ d) :
    KMap.wfFrom d lo (KMap.ins k v m) = true := by
  induction m generalizing lo with
  | nil => simp [KMap.ins, KMap.wfFrom, hk, hv]
  | cons e l ih =>
    obtain ⟨j, w⟩ := e
    simp only [KMap.wfFrom, Bool.and_eq_true, decide_eq_true_eq] at h
    unfold KMap.ins
    split
    · rename_i hkj
      simp only [KMap.wfFrom, Bool.and_eq_true, decide_eq_true_eq]
      exact ⟨⟨hk, hv⟩, ⟨hkj, h.1.2⟩, h.2⟩
    · split
      · rename_i hjk
        subst hjk
        simp only [KMap.wfFrom, Bool.and_eq_true, decide_eq_true_eq]
        exact ⟨⟨hk, hv⟩, h.2⟩
      · simp only [KMap.wfFrom, Bool.and_eq_true, decide_eq_true_eq]
        exact ⟨h.1, ih h.2 (by omega)⟩

theorem KMap.wfFrom_del {α : Type} [DecidableEq α] {d : α} {m : KMap α} {lo k : Nat} (h : KMap.wfFrom d lo m = true) :
    KMap.wfFrom d lo (KMap.del k m) = true := by
  induction m generalizing lo with
  | nil => rfl
  | cons e l ih =>
    obtain ⟨j, w⟩ := e
    simp only [KMap.wfFrom, Bool.and_eq_true, decide_eq_true_eq] at h
    unfold KMap.del
    split
    · exact KMap.wfFrom_mono (ih h.2) (by omega)
    · simp only [KMap.wfFrom, Bool.and_eq_true, decide_eq_true_eq]
      exact ⟨h.1, ih h.2⟩

/-- A write keeps the canonical form. -/
theorem KMap.wf_put {α : Type} [DecidableEq α] {d : α} {m : KMap α} (h : KMap.wf d m = true) (k : Nat) (v : α) : KMap.wf d (KMap.put d m k v) = true := by
  unfold KMap.put
  split
  · exact KMap.wfFrom_del h
  · rename_i hv; exact KMap.wfFrom_ins h (Nat.zero_le _) hv

theorem KMap.find_del {α : Type} (i k : Nat) (m : KMap α) : KMap.find i (KMap.del k m) = if i = k then none else KMap.find i m := by
  induction m with
  | nil => simp [KMap.del]
  | cons e l ih =>
    obtain ⟨j, w⟩ := e
    unfold KMap.del
    by_cases hj : j = k
    · rw [if_pos hj, ih]
      by_cases hi : i = k
      · simp [hi]
      · have : ¬j = i := fun h => hi (h.symm.trans hj)
        simp [hi, KMap.find, this]
    · rw [if_neg hj]
      by_cases hji : j = i
      · have hik : i ≠ k := fun h2 => hj (hji.trans h2)
        simp [KMap.find, hji, hik]
      · simp [KMap.find, hji, ih]

/-- Reading after a write. -/
theorem KMap.get_put {α : Type} [DecidableEq α] (d : α) (m : KMap α) (i k : Nat) (v : α) :
    KMap.get d (KMap.put d m k v) i = if i = k then v else KMap.get d m i := by
  unfold KMap.put KMap.get
  by_cases hv : v = d
  · simp only [hv, if_true]
    rw [KMap.find_del]
    split <;> rfl
  · simp only [hv, if_false]
    rw [KMap.find_ins]
    split <;> rfl

@[simp] theorem updFirst_length {α : Type} (p : α → Bool) (f : α → α) (l : List α) : (updFirst p f l).length = l.length := by
  induction l with
  | nil => rfl
  | cons a l ih => unfold updFirst; split <;> simp [ih]

end Sys2Proof.Machine
end

