-- ==== Sys2Proof/Laws/State.lean ====
section
/-! SUPPORT. What each update of the state leaves alone, field by field, and what it reads back: the lemmas that let no later
proof unfold a record update. -/

namespace Sys2Proof.Machine

/-! ## State.setSp -/

@[simp] theorem State.setSp_now (s : State) (k : Nat) (p : Sp) : (s.setSp k p).now = s.now := rfl
@[simp] theorem State.setSp_ctr (s : State) (k : Nat) (p : Sp) : (s.setSp k p).ctr = s.ctr := rfl
@[simp] theorem State.setSp_inbox (s : State) (k : Nat) (p : Sp) : (s.setSp k p).inbox = s.inbox := rfl
@[simp] theorem State.setSp_later (s : State) (k : Nat) (p : Sp) : (s.setSp k p).later = s.later := rfl
@[simp] theorem State.setSp_hostIn (s : State) (k : Nat) (p : Sp) : (s.setSp k p).hostIn = s.hostIn := rfl
@[simp] theorem State.setSp_turns (s : State) (k : Nat) (p : Sp) : (s.setSp k p).turns = s.turns := rfl
@[simp] theorem State.setSp_cur (s : State) (k : Nat) (p : Sp) : (s.setSp k p).cur = s.cur := rfl
@[simp] theorem State.setSp_issue (s : State) (k : Nat) (p : Sp) : (s.setSp k p).issue = s.issue := rfl
@[simp] theorem State.setSp_mem (s : State) (k : Nat) (p : Sp) : (s.setSp k p).mem = s.mem := rfl
@[simp] theorem State.setSp_cache (s : State) (k : Nat) (p : Sp) : (s.setSp k p).cache = s.cache := rfl
@[simp] theorem State.setSp_poison (s : State) (k : Nat) (p : Sp) : (s.setSp k p).poison = s.poison := rfl
@[simp] theorem State.setSp_upsets (s : State) (k : Nat) (p : Sp) : (s.setSp k p).upsets = s.upsets := rfl
@[simp] theorem State.setSp_code (s : State) (k : Nat) (p : Sp) : (s.setSp k p).code = s.code := rfl
@[simp] theorem State.setSp_accs (s : State) (k : Nat) (p : Sp) : (s.setSp k p).accs = s.accs := rfl
@[simp] theorem State.setSp_mmus (s : State) (k : Nat) (p : Sp) : (s.setSp k p).mmus = s.mmus := rfl
@[simp] theorem State.setSp_vfs (s : State) (k : Nat) (p : Sp) : (s.setSp k p).vfs = s.vfs := rfl
@[simp] theorem State.setSp_out (s : State) (k : Nat) (p : Sp) : (s.setSp k p).out = s.out := rfl
@[simp] theorem State.setSp_parts (s : State) (k : Nat) (p : Sp) : (s.setSp k p).parts = s.parts := rfl
@[simp] theorem State.setSp_shelf (s : State) (k : Nat) (p : Sp) : (s.setSp k p).shelf = s.shelf := rfl
@[simp] theorem State.setSp_launches (s : State) (k : Nat) (p : Sp) : (s.setSp k p).launches = s.launches := rfl
@[simp] theorem State.setSp_nextId (s : State) (k : Nat) (p : Sp) : (s.setSp k p).nextId = s.nextId := rfl
@[simp] theorem State.setSp_nextHandle (s : State) (k : Nat) (p : Sp) : (s.setSp k p).nextHandle = s.nextHandle := rfl
@[simp] theorem State.setSp_nextAcc (s : State) (k : Nat) (p : Sp) : (s.setSp k p).nextAcc = s.nextAcc := rfl
@[simp] theorem State.setSp_xfrs (s : State) (k : Nat) (p : Sp) : (s.setSp k p).xfrs = s.xfrs := rfl
@[simp] theorem State.setSp_ports (s : State) (k : Nat) (p : Sp) : (s.setSp k p).ports = s.ports := rfl
@[simp] theorem State.setSp_engines (s : State) (k : Nat) (p : Sp) : (s.setSp k p).engines = s.engines := rfl
@[simp] theorem State.setSp_dups (s : State) (k : Nat) (p : Sp) : (s.setSp k p).dups = s.dups := rfl
@[simp] theorem State.setSp_heard (s : State) (k : Nat) (p : Sp) : (s.setSp k p).heard = s.heard := rfl
@[simp] theorem State.setSp_fout (s : State) (k : Nat) (p : Sp) : (s.setSp k p).fout = s.fout := rfl
@[simp] theorem State.setSp_frames (s : State) (k : Nat) (p : Sp) : (s.setSp k p).frames = s.frames := rfl
@[simp] theorem State.setSp_recordsOut (s : State) (k : Nat) (p : Sp) : (s.setSp k p).recordsOut = s.recordsOut := rfl
@[simp] theorem State.setSp_records (s : State) (k : Nat) (p : Sp) : (s.setSp k p).records = s.records := rfl
@[simp] theorem State.setSp_taken (s : State) (k : Nat) (p : Sp) : (s.setSp k p).taken = s.taken := rfl
@[simp] theorem State.setSp_dev (s : State) (k : Nat) (p : Sp) : (s.setSp k p).dev = s.dev := rfl

/-! ## State.modSp -/

@[simp] theorem State.modSp_now (s : State) (k : Nat) (f : Sp → Sp) : (s.modSp k f).now = s.now := rfl
@[simp] theorem State.modSp_ctr (s : State) (k : Nat) (f : Sp → Sp) : (s.modSp k f).ctr = s.ctr := rfl
@[simp] theorem State.modSp_inbox (s : State) (k : Nat) (f : Sp → Sp) : (s.modSp k f).inbox = s.inbox := rfl
@[simp] theorem State.modSp_later (s : State) (k : Nat) (f : Sp → Sp) : (s.modSp k f).later = s.later := rfl
@[simp] theorem State.modSp_hostIn (s : State) (k : Nat) (f : Sp → Sp) : (s.modSp k f).hostIn = s.hostIn := rfl
@[simp] theorem State.modSp_turns (s : State) (k : Nat) (f : Sp → Sp) : (s.modSp k f).turns = s.turns := rfl
@[simp] theorem State.modSp_cur (s : State) (k : Nat) (f : Sp → Sp) : (s.modSp k f).cur = s.cur := rfl
@[simp] theorem State.modSp_issue (s : State) (k : Nat) (f : Sp → Sp) : (s.modSp k f).issue = s.issue := rfl
@[simp] theorem State.modSp_mem (s : State) (k : Nat) (f : Sp → Sp) : (s.modSp k f).mem = s.mem := rfl
@[simp] theorem State.modSp_cache (s : State) (k : Nat) (f : Sp → Sp) : (s.modSp k f).cache = s.cache := rfl
@[simp] theorem State.modSp_poison (s : State) (k : Nat) (f : Sp → Sp) : (s.modSp k f).poison = s.poison := rfl
@[simp] theorem State.modSp_upsets (s : State) (k : Nat) (f : Sp → Sp) : (s.modSp k f).upsets = s.upsets := rfl
@[simp] theorem State.modSp_code (s : State) (k : Nat) (f : Sp → Sp) : (s.modSp k f).code = s.code := rfl
@[simp] theorem State.modSp_accs (s : State) (k : Nat) (f : Sp → Sp) : (s.modSp k f).accs = s.accs := rfl
@[simp] theorem State.modSp_mmus (s : State) (k : Nat) (f : Sp → Sp) : (s.modSp k f).mmus = s.mmus := rfl
@[simp] theorem State.modSp_vfs (s : State) (k : Nat) (f : Sp → Sp) : (s.modSp k f).vfs = s.vfs := rfl
@[simp] theorem State.modSp_out (s : State) (k : Nat) (f : Sp → Sp) : (s.modSp k f).out = s.out := rfl
@[simp] theorem State.modSp_parts (s : State) (k : Nat) (f : Sp → Sp) : (s.modSp k f).parts = s.parts := rfl
@[simp] theorem State.modSp_shelf (s : State) (k : Nat) (f : Sp → Sp) : (s.modSp k f).shelf = s.shelf := rfl
@[simp] theorem State.modSp_launches (s : State) (k : Nat) (f : Sp → Sp) : (s.modSp k f).launches = s.launches := rfl
@[simp] theorem State.modSp_nextId (s : State) (k : Nat) (f : Sp → Sp) : (s.modSp k f).nextId = s.nextId := rfl
@[simp] theorem State.modSp_nextHandle (s : State) (k : Nat) (f : Sp → Sp) : (s.modSp k f).nextHandle = s.nextHandle := rfl
@[simp] theorem State.modSp_nextAcc (s : State) (k : Nat) (f : Sp → Sp) : (s.modSp k f).nextAcc = s.nextAcc := rfl
@[simp] theorem State.modSp_xfrs (s : State) (k : Nat) (f : Sp → Sp) : (s.modSp k f).xfrs = s.xfrs := rfl
@[simp] theorem State.modSp_ports (s : State) (k : Nat) (f : Sp → Sp) : (s.modSp k f).ports = s.ports := rfl
@[simp] theorem State.modSp_engines (s : State) (k : Nat) (f : Sp → Sp) : (s.modSp k f).engines = s.engines := rfl
@[simp] theorem State.modSp_dups (s : State) (k : Nat) (f : Sp → Sp) : (s.modSp k f).dups = s.dups := rfl
@[simp] theorem State.modSp_heard (s : State) (k : Nat) (f : Sp → Sp) : (s.modSp k f).heard = s.heard := rfl
@[simp] theorem State.modSp_fout (s : State) (k : Nat) (f : Sp → Sp) : (s.modSp k f).fout = s.fout := rfl
@[simp] theorem State.modSp_frames (s : State) (k : Nat) (f : Sp → Sp) : (s.modSp k f).frames = s.frames := rfl
@[simp] theorem State.modSp_recordsOut (s : State) (k : Nat) (f : Sp → Sp) : (s.modSp k f).recordsOut = s.recordsOut := rfl
@[simp] theorem State.modSp_records (s : State) (k : Nat) (f : Sp → Sp) : (s.modSp k f).records = s.records := rfl
@[simp] theorem State.modSp_taken (s : State) (k : Nat) (f : Sp → Sp) : (s.modSp k f).taken = s.taken := rfl
@[simp] theorem State.modSp_dev (s : State) (k : Nat) (f : Sp → Sp) : (s.modSp k f).dev = s.dev := rfl

/-! ## State.setCtx -/

@[simp] theorem State.setCtx_now (s : State) (k : Nat) (c : Ctx) : (s.setCtx k c).now = s.now := rfl
@[simp] theorem State.setCtx_ctr (s : State) (k : Nat) (c : Ctx) : (s.setCtx k c).ctr = s.ctr := rfl
@[simp] theorem State.setCtx_inbox (s : State) (k : Nat) (c : Ctx) : (s.setCtx k c).inbox = s.inbox := rfl
@[simp] theorem State.setCtx_later (s : State) (k : Nat) (c : Ctx) : (s.setCtx k c).later = s.later := rfl
@[simp] theorem State.setCtx_hostIn (s : State) (k : Nat) (c : Ctx) : (s.setCtx k c).hostIn = s.hostIn := rfl
@[simp] theorem State.setCtx_turns (s : State) (k : Nat) (c : Ctx) : (s.setCtx k c).turns = s.turns := rfl
@[simp] theorem State.setCtx_cur (s : State) (k : Nat) (c : Ctx) : (s.setCtx k c).cur = s.cur := rfl
@[simp] theorem State.setCtx_issue (s : State) (k : Nat) (c : Ctx) : (s.setCtx k c).issue = s.issue := rfl
@[simp] theorem State.setCtx_mem (s : State) (k : Nat) (c : Ctx) : (s.setCtx k c).mem = s.mem := rfl
@[simp] theorem State.setCtx_cache (s : State) (k : Nat) (c : Ctx) : (s.setCtx k c).cache = s.cache := rfl
@[simp] theorem State.setCtx_poison (s : State) (k : Nat) (c : Ctx) : (s.setCtx k c).poison = s.poison := rfl
@[simp] theorem State.setCtx_upsets (s : State) (k : Nat) (c : Ctx) : (s.setCtx k c).upsets = s.upsets := rfl
@[simp] theorem State.setCtx_code (s : State) (k : Nat) (c : Ctx) : (s.setCtx k c).code = s.code := rfl
@[simp] theorem State.setCtx_accs (s : State) (k : Nat) (c : Ctx) : (s.setCtx k c).accs = s.accs := rfl
@[simp] theorem State.setCtx_mmus (s : State) (k : Nat) (c : Ctx) : (s.setCtx k c).mmus = s.mmus := rfl
@[simp] theorem State.setCtx_vfs (s : State) (k : Nat) (c : Ctx) : (s.setCtx k c).vfs = s.vfs := rfl
@[simp] theorem State.setCtx_out (s : State) (k : Nat) (c : Ctx) : (s.setCtx k c).out = s.out := rfl
@[simp] theorem State.setCtx_parts (s : State) (k : Nat) (c : Ctx) : (s.setCtx k c).parts = s.parts := rfl
@[simp] theorem State.setCtx_shelf (s : State) (k : Nat) (c : Ctx) : (s.setCtx k c).shelf = s.shelf := rfl
@[simp] theorem State.setCtx_launches (s : State) (k : Nat) (c : Ctx) : (s.setCtx k c).launches = s.launches := rfl
@[simp] theorem State.setCtx_nextId (s : State) (k : Nat) (c : Ctx) : (s.setCtx k c).nextId = s.nextId := rfl
@[simp] theorem State.setCtx_nextHandle (s : State) (k : Nat) (c : Ctx) : (s.setCtx k c).nextHandle = s.nextHandle := rfl
@[simp] theorem State.setCtx_nextAcc (s : State) (k : Nat) (c : Ctx) : (s.setCtx k c).nextAcc = s.nextAcc := rfl
@[simp] theorem State.setCtx_xfrs (s : State) (k : Nat) (c : Ctx) : (s.setCtx k c).xfrs = s.xfrs := rfl
@[simp] theorem State.setCtx_ports (s : State) (k : Nat) (c : Ctx) : (s.setCtx k c).ports = s.ports := rfl
@[simp] theorem State.setCtx_engines (s : State) (k : Nat) (c : Ctx) : (s.setCtx k c).engines = s.engines := rfl
@[simp] theorem State.setCtx_dups (s : State) (k : Nat) (c : Ctx) : (s.setCtx k c).dups = s.dups := rfl
@[simp] theorem State.setCtx_heard (s : State) (k : Nat) (c : Ctx) : (s.setCtx k c).heard = s.heard := rfl
@[simp] theorem State.setCtx_fout (s : State) (k : Nat) (c : Ctx) : (s.setCtx k c).fout = s.fout := rfl
@[simp] theorem State.setCtx_frames (s : State) (k : Nat) (c : Ctx) : (s.setCtx k c).frames = s.frames := rfl
@[simp] theorem State.setCtx_recordsOut (s : State) (k : Nat) (c : Ctx) : (s.setCtx k c).recordsOut = s.recordsOut := rfl
@[simp] theorem State.setCtx_records (s : State) (k : Nat) (c : Ctx) : (s.setCtx k c).records = s.records := rfl
@[simp] theorem State.setCtx_taken (s : State) (k : Nat) (c : Ctx) : (s.setCtx k c).taken = s.taken := rfl
@[simp] theorem State.setCtx_dev (s : State) (k : Nat) (c : Ctx) : (s.setCtx k c).dev = s.dev := rfl

/-! ## State.setPart -/

@[simp] theorem State.setPart_now (s : State) (p : Nat) (q : Part) : (s.setPart p q).now = s.now := rfl
@[simp] theorem State.setPart_ctr (s : State) (p : Nat) (q : Part) : (s.setPart p q).ctr = s.ctr := rfl
@[simp] theorem State.setPart_inbox (s : State) (p : Nat) (q : Part) : (s.setPart p q).inbox = s.inbox := rfl
@[simp] theorem State.setPart_later (s : State) (p : Nat) (q : Part) : (s.setPart p q).later = s.later := rfl
@[simp] theorem State.setPart_hostIn (s : State) (p : Nat) (q : Part) : (s.setPart p q).hostIn = s.hostIn := rfl
@[simp] theorem State.setPart_turns (s : State) (p : Nat) (q : Part) : (s.setPart p q).turns = s.turns := rfl
@[simp] theorem State.setPart_cur (s : State) (p : Nat) (q : Part) : (s.setPart p q).cur = s.cur := rfl
@[simp] theorem State.setPart_issue (s : State) (p : Nat) (q : Part) : (s.setPart p q).issue = s.issue := rfl
@[simp] theorem State.setPart_mem (s : State) (p : Nat) (q : Part) : (s.setPart p q).mem = s.mem := rfl
@[simp] theorem State.setPart_cache (s : State) (p : Nat) (q : Part) : (s.setPart p q).cache = s.cache := rfl
@[simp] theorem State.setPart_poison (s : State) (p : Nat) (q : Part) : (s.setPart p q).poison = s.poison := rfl
@[simp] theorem State.setPart_upsets (s : State) (p : Nat) (q : Part) : (s.setPart p q).upsets = s.upsets := rfl
@[simp] theorem State.setPart_code (s : State) (p : Nat) (q : Part) : (s.setPart p q).code = s.code := rfl
@[simp] theorem State.setPart_accs (s : State) (p : Nat) (q : Part) : (s.setPart p q).accs = s.accs := rfl
@[simp] theorem State.setPart_mmus (s : State) (p : Nat) (q : Part) : (s.setPart p q).mmus = s.mmus := rfl
@[simp] theorem State.setPart_vfs (s : State) (p : Nat) (q : Part) : (s.setPart p q).vfs = s.vfs := rfl
@[simp] theorem State.setPart_out (s : State) (p : Nat) (q : Part) : (s.setPart p q).out = s.out := rfl
@[simp] theorem State.setPart_shelf (s : State) (p : Nat) (q : Part) : (s.setPart p q).shelf = s.shelf := rfl
@[simp] theorem State.setPart_launches (s : State) (p : Nat) (q : Part) : (s.setPart p q).launches = s.launches := rfl
@[simp] theorem State.setPart_nextId (s : State) (p : Nat) (q : Part) : (s.setPart p q).nextId = s.nextId := rfl
@[simp] theorem State.setPart_nextHandle (s : State) (p : Nat) (q : Part) : (s.setPart p q).nextHandle = s.nextHandle := rfl
@[simp] theorem State.setPart_nextAcc (s : State) (p : Nat) (q : Part) : (s.setPart p q).nextAcc = s.nextAcc := rfl
@[simp] theorem State.setPart_sps (s : State) (p : Nat) (q : Part) : (s.setPart p q).sps = s.sps := rfl
@[simp] theorem State.setPart_xfrs (s : State) (p : Nat) (q : Part) : (s.setPart p q).xfrs = s.xfrs := rfl
@[simp] theorem State.setPart_ports (s : State) (p : Nat) (q : Part) : (s.setPart p q).ports = s.ports := rfl
@[simp] theorem State.setPart_engines (s : State) (p : Nat) (q : Part) : (s.setPart p q).engines = s.engines := rfl
@[simp] theorem State.setPart_dups (s : State) (p : Nat) (q : Part) : (s.setPart p q).dups = s.dups := rfl
@[simp] theorem State.setPart_heard (s : State) (p : Nat) (q : Part) : (s.setPart p q).heard = s.heard := rfl
@[simp] theorem State.setPart_fout (s : State) (p : Nat) (q : Part) : (s.setPart p q).fout = s.fout := rfl
@[simp] theorem State.setPart_frames (s : State) (p : Nat) (q : Part) : (s.setPart p q).frames = s.frames := rfl
@[simp] theorem State.setPart_recordsOut (s : State) (p : Nat) (q : Part) : (s.setPart p q).recordsOut = s.recordsOut := rfl
@[simp] theorem State.setPart_records (s : State) (p : Nat) (q : Part) : (s.setPart p q).records = s.records := rfl
@[simp] theorem State.setPart_taken (s : State) (p : Nat) (q : Part) : (s.setPart p q).taken = s.taken := rfl
@[simp] theorem State.setPart_dev (s : State) (p : Nat) (q : Part) : (s.setPart p q).dev = s.dev := rfl

/-! ## State.modPart -/

@[simp] theorem State.modPart_now (s : State) (p : Nat) (f : Part → Part) : (s.modPart p f).now = s.now := rfl
@[simp] theorem State.modPart_ctr (s : State) (p : Nat) (f : Part → Part) : (s.modPart p f).ctr = s.ctr := rfl
@[simp] theorem State.modPart_inbox (s : State) (p : Nat) (f : Part → Part) : (s.modPart p f).inbox = s.inbox := rfl
@[simp] theorem State.modPart_later (s : State) (p : Nat) (f : Part → Part) : (s.modPart p f).later = s.later := rfl
@[simp] theorem State.modPart_hostIn (s : State) (p : Nat) (f : Part → Part) : (s.modPart p f).hostIn = s.hostIn := rfl
@[simp] theorem State.modPart_turns (s : State) (p : Nat) (f : Part → Part) : (s.modPart p f).turns = s.turns := rfl
@[simp] theorem State.modPart_cur (s : State) (p : Nat) (f : Part → Part) : (s.modPart p f).cur = s.cur := rfl
@[simp] theorem State.modPart_issue (s : State) (p : Nat) (f : Part → Part) : (s.modPart p f).issue = s.issue := rfl
@[simp] theorem State.modPart_mem (s : State) (p : Nat) (f : Part → Part) : (s.modPart p f).mem = s.mem := rfl
@[simp] theorem State.modPart_cache (s : State) (p : Nat) (f : Part → Part) : (s.modPart p f).cache = s.cache := rfl
@[simp] theorem State.modPart_poison (s : State) (p : Nat) (f : Part → Part) : (s.modPart p f).poison = s.poison := rfl
@[simp] theorem State.modPart_upsets (s : State) (p : Nat) (f : Part → Part) : (s.modPart p f).upsets = s.upsets := rfl
@[simp] theorem State.modPart_code (s : State) (p : Nat) (f : Part → Part) : (s.modPart p f).code = s.code := rfl
@[simp] theorem State.modPart_accs (s : State) (p : Nat) (f : Part → Part) : (s.modPart p f).accs = s.accs := rfl
@[simp] theorem State.modPart_mmus (s : State) (p : Nat) (f : Part → Part) : (s.modPart p f).mmus = s.mmus := rfl
@[simp] theorem State.modPart_vfs (s : State) (p : Nat) (f : Part → Part) : (s.modPart p f).vfs = s.vfs := rfl
@[simp] theorem State.modPart_out (s : State) (p : Nat) (f : Part → Part) : (s.modPart p f).out = s.out := rfl
@[simp] theorem State.modPart_shelf (s : State) (p : Nat) (f : Part → Part) : (s.modPart p f).shelf = s.shelf := rfl
@[simp] theorem State.modPart_launches (s : State) (p : Nat) (f : Part → Part) : (s.modPart p f).launches = s.launches := rfl
@[simp] theorem State.modPart_nextId (s : State) (p : Nat) (f : Part → Part) : (s.modPart p f).nextId = s.nextId := rfl
@[simp] theorem State.modPart_nextHandle (s : State) (p : Nat) (f : Part → Part) : (s.modPart p f).nextHandle = s.nextHandle := rfl
@[simp] theorem State.modPart_nextAcc (s : State) (p : Nat) (f : Part → Part) : (s.modPart p f).nextAcc = s.nextAcc := rfl
@[simp] theorem State.modPart_sps (s : State) (p : Nat) (f : Part → Part) : (s.modPart p f).sps = s.sps := rfl
@[simp] theorem State.modPart_xfrs (s : State) (p : Nat) (f : Part → Part) : (s.modPart p f).xfrs = s.xfrs := rfl
@[simp] theorem State.modPart_ports (s : State) (p : Nat) (f : Part → Part) : (s.modPart p f).ports = s.ports := rfl
@[simp] theorem State.modPart_engines (s : State) (p : Nat) (f : Part → Part) : (s.modPart p f).engines = s.engines := rfl
@[simp] theorem State.modPart_dups (s : State) (p : Nat) (f : Part → Part) : (s.modPart p f).dups = s.dups := rfl
@[simp] theorem State.modPart_heard (s : State) (p : Nat) (f : Part → Part) : (s.modPart p f).heard = s.heard := rfl
@[simp] theorem State.modPart_fout (s : State) (p : Nat) (f : Part → Part) : (s.modPart p f).fout = s.fout := rfl
@[simp] theorem State.modPart_frames (s : State) (p : Nat) (f : Part → Part) : (s.modPart p f).frames = s.frames := rfl
@[simp] theorem State.modPart_recordsOut (s : State) (p : Nat) (f : Part → Part) : (s.modPart p f).recordsOut = s.recordsOut := rfl
@[simp] theorem State.modPart_records (s : State) (p : Nat) (f : Part → Part) : (s.modPart p f).records = s.records := rfl
@[simp] theorem State.modPart_taken (s : State) (p : Nat) (f : Part → Part) : (s.modPart p f).taken = s.taken := rfl
@[simp] theorem State.modPart_dev (s : State) (p : Nat) (f : Part → Part) : (s.modPart p f).dev = s.dev := rfl

/-! ## State.modVf -/

@[simp] theorem State.modVf_now (s : State) (v : Nat) (f : Vf → Vf) : (s.modVf v f).now = s.now := rfl
@[simp] theorem State.modVf_ctr (s : State) (v : Nat) (f : Vf → Vf) : (s.modVf v f).ctr = s.ctr := rfl
@[simp] theorem State.modVf_inbox (s : State) (v : Nat) (f : Vf → Vf) : (s.modVf v f).inbox = s.inbox := rfl
@[simp] theorem State.modVf_later (s : State) (v : Nat) (f : Vf → Vf) : (s.modVf v f).later = s.later := rfl
@[simp] theorem State.modVf_hostIn (s : State) (v : Nat) (f : Vf → Vf) : (s.modVf v f).hostIn = s.hostIn := rfl
@[simp] theorem State.modVf_turns (s : State) (v : Nat) (f : Vf → Vf) : (s.modVf v f).turns = s.turns := rfl
@[simp] theorem State.modVf_cur (s : State) (v : Nat) (f : Vf → Vf) : (s.modVf v f).cur = s.cur := rfl
@[simp] theorem State.modVf_issue (s : State) (v : Nat) (f : Vf → Vf) : (s.modVf v f).issue = s.issue := rfl
@[simp] theorem State.modVf_mem (s : State) (v : Nat) (f : Vf → Vf) : (s.modVf v f).mem = s.mem := rfl
@[simp] theorem State.modVf_cache (s : State) (v : Nat) (f : Vf → Vf) : (s.modVf v f).cache = s.cache := rfl
@[simp] theorem State.modVf_poison (s : State) (v : Nat) (f : Vf → Vf) : (s.modVf v f).poison = s.poison := rfl
@[simp] theorem State.modVf_upsets (s : State) (v : Nat) (f : Vf → Vf) : (s.modVf v f).upsets = s.upsets := rfl
@[simp] theorem State.modVf_code (s : State) (v : Nat) (f : Vf → Vf) : (s.modVf v f).code = s.code := rfl
@[simp] theorem State.modVf_accs (s : State) (v : Nat) (f : Vf → Vf) : (s.modVf v f).accs = s.accs := rfl
@[simp] theorem State.modVf_mmus (s : State) (v : Nat) (f : Vf → Vf) : (s.modVf v f).mmus = s.mmus := rfl
@[simp] theorem State.modVf_out (s : State) (v : Nat) (f : Vf → Vf) : (s.modVf v f).out = s.out := rfl
@[simp] theorem State.modVf_parts (s : State) (v : Nat) (f : Vf → Vf) : (s.modVf v f).parts = s.parts := rfl
@[simp] theorem State.modVf_shelf (s : State) (v : Nat) (f : Vf → Vf) : (s.modVf v f).shelf = s.shelf := rfl
@[simp] theorem State.modVf_launches (s : State) (v : Nat) (f : Vf → Vf) : (s.modVf v f).launches = s.launches := rfl
@[simp] theorem State.modVf_nextId (s : State) (v : Nat) (f : Vf → Vf) : (s.modVf v f).nextId = s.nextId := rfl
@[simp] theorem State.modVf_nextHandle (s : State) (v : Nat) (f : Vf → Vf) : (s.modVf v f).nextHandle = s.nextHandle := rfl
@[simp] theorem State.modVf_nextAcc (s : State) (v : Nat) (f : Vf → Vf) : (s.modVf v f).nextAcc = s.nextAcc := rfl
@[simp] theorem State.modVf_sps (s : State) (v : Nat) (f : Vf → Vf) : (s.modVf v f).sps = s.sps := rfl
@[simp] theorem State.modVf_xfrs (s : State) (v : Nat) (f : Vf → Vf) : (s.modVf v f).xfrs = s.xfrs := rfl
@[simp] theorem State.modVf_ports (s : State) (v : Nat) (f : Vf → Vf) : (s.modVf v f).ports = s.ports := rfl
@[simp] theorem State.modVf_engines (s : State) (v : Nat) (f : Vf → Vf) : (s.modVf v f).engines = s.engines := rfl
@[simp] theorem State.modVf_dups (s : State) (v : Nat) (f : Vf → Vf) : (s.modVf v f).dups = s.dups := rfl
@[simp] theorem State.modVf_heard (s : State) (v : Nat) (f : Vf → Vf) : (s.modVf v f).heard = s.heard := rfl
@[simp] theorem State.modVf_fout (s : State) (v : Nat) (f : Vf → Vf) : (s.modVf v f).fout = s.fout := rfl
@[simp] theorem State.modVf_frames (s : State) (v : Nat) (f : Vf → Vf) : (s.modVf v f).frames = s.frames := rfl
@[simp] theorem State.modVf_recordsOut (s : State) (v : Nat) (f : Vf → Vf) : (s.modVf v f).recordsOut = s.recordsOut := rfl
@[simp] theorem State.modVf_records (s : State) (v : Nat) (f : Vf → Vf) : (s.modVf v f).records = s.records := rfl
@[simp] theorem State.modVf_taken (s : State) (v : Nat) (f : Vf → Vf) : (s.modVf v f).taken = s.taken := rfl
@[simp] theorem State.modVf_dev (s : State) (v : Nat) (f : Vf → Vf) : (s.modVf v f).dev = s.dev := rfl

/-! ## State.modLaunch -/

@[simp] theorem State.modLaunch_now (s : State) (id : Nat) (f : Launch → Launch) : (s.modLaunch id f).now = s.now := rfl
@[simp] theorem State.modLaunch_ctr (s : State) (id : Nat) (f : Launch → Launch) : (s.modLaunch id f).ctr = s.ctr := rfl
@[simp] theorem State.modLaunch_inbox (s : State) (id : Nat) (f : Launch → Launch) : (s.modLaunch id f).inbox = s.inbox := rfl
@[simp] theorem State.modLaunch_later (s : State) (id : Nat) (f : Launch → Launch) : (s.modLaunch id f).later = s.later := rfl
@[simp] theorem State.modLaunch_hostIn (s : State) (id : Nat) (f : Launch → Launch) : (s.modLaunch id f).hostIn = s.hostIn := rfl
@[simp] theorem State.modLaunch_turns (s : State) (id : Nat) (f : Launch → Launch) : (s.modLaunch id f).turns = s.turns := rfl
@[simp] theorem State.modLaunch_cur (s : State) (id : Nat) (f : Launch → Launch) : (s.modLaunch id f).cur = s.cur := rfl
@[simp] theorem State.modLaunch_issue (s : State) (id : Nat) (f : Launch → Launch) : (s.modLaunch id f).issue = s.issue := rfl
@[simp] theorem State.modLaunch_mem (s : State) (id : Nat) (f : Launch → Launch) : (s.modLaunch id f).mem = s.mem := rfl
@[simp] theorem State.modLaunch_cache (s : State) (id : Nat) (f : Launch → Launch) : (s.modLaunch id f).cache = s.cache := rfl
@[simp] theorem State.modLaunch_poison (s : State) (id : Nat) (f : Launch → Launch) : (s.modLaunch id f).poison = s.poison := rfl
@[simp] theorem State.modLaunch_upsets (s : State) (id : Nat) (f : Launch → Launch) : (s.modLaunch id f).upsets = s.upsets := rfl
@[simp] theorem State.modLaunch_code (s : State) (id : Nat) (f : Launch → Launch) : (s.modLaunch id f).code = s.code := rfl
@[simp] theorem State.modLaunch_accs (s : State) (id : Nat) (f : Launch → Launch) : (s.modLaunch id f).accs = s.accs := rfl
@[simp] theorem State.modLaunch_mmus (s : State) (id : Nat) (f : Launch → Launch) : (s.modLaunch id f).mmus = s.mmus := rfl
@[simp] theorem State.modLaunch_vfs (s : State) (id : Nat) (f : Launch → Launch) : (s.modLaunch id f).vfs = s.vfs := rfl
@[simp] theorem State.modLaunch_out (s : State) (id : Nat) (f : Launch → Launch) : (s.modLaunch id f).out = s.out := rfl
@[simp] theorem State.modLaunch_parts (s : State) (id : Nat) (f : Launch → Launch) : (s.modLaunch id f).parts = s.parts := rfl
@[simp] theorem State.modLaunch_shelf (s : State) (id : Nat) (f : Launch → Launch) : (s.modLaunch id f).shelf = s.shelf := rfl
@[simp] theorem State.modLaunch_nextId (s : State) (id : Nat) (f : Launch → Launch) : (s.modLaunch id f).nextId = s.nextId := rfl
@[simp] theorem State.modLaunch_nextHandle (s : State) (id : Nat) (f : Launch → Launch) : (s.modLaunch id f).nextHandle = s.nextHandle := rfl
@[simp] theorem State.modLaunch_nextAcc (s : State) (id : Nat) (f : Launch → Launch) : (s.modLaunch id f).nextAcc = s.nextAcc := rfl
@[simp] theorem State.modLaunch_sps (s : State) (id : Nat) (f : Launch → Launch) : (s.modLaunch id f).sps = s.sps := rfl
@[simp] theorem State.modLaunch_xfrs (s : State) (id : Nat) (f : Launch → Launch) : (s.modLaunch id f).xfrs = s.xfrs := rfl
@[simp] theorem State.modLaunch_ports (s : State) (id : Nat) (f : Launch → Launch) : (s.modLaunch id f).ports = s.ports := rfl
@[simp] theorem State.modLaunch_engines (s : State) (id : Nat) (f : Launch → Launch) : (s.modLaunch id f).engines = s.engines := rfl
@[simp] theorem State.modLaunch_dups (s : State) (id : Nat) (f : Launch → Launch) : (s.modLaunch id f).dups = s.dups := rfl
@[simp] theorem State.modLaunch_heard (s : State) (id : Nat) (f : Launch → Launch) : (s.modLaunch id f).heard = s.heard := rfl
@[simp] theorem State.modLaunch_fout (s : State) (id : Nat) (f : Launch → Launch) : (s.modLaunch id f).fout = s.fout := rfl
@[simp] theorem State.modLaunch_frames (s : State) (id : Nat) (f : Launch → Launch) : (s.modLaunch id f).frames = s.frames := rfl
@[simp] theorem State.modLaunch_recordsOut (s : State) (id : Nat) (f : Launch → Launch) : (s.modLaunch id f).recordsOut = s.recordsOut := rfl
@[simp] theorem State.modLaunch_records (s : State) (id : Nat) (f : Launch → Launch) : (s.modLaunch id f).records = s.records := rfl
@[simp] theorem State.modLaunch_taken (s : State) (id : Nat) (f : Launch → Launch) : (s.modLaunch id f).taken = s.taken := rfl
@[simp] theorem State.modLaunch_dev (s : State) (id : Nat) (f : Launch → Launch) : (s.modLaunch id f).dev = s.dev := rfl

/-! ## State.memWrite -/

@[simp] theorem State.memWrite_now (s : State) (a : Nat) (l : List Byte) : (s.memWrite a l).now = s.now := rfl
@[simp] theorem State.memWrite_ctr (s : State) (a : Nat) (l : List Byte) : (s.memWrite a l).ctr = s.ctr := rfl
@[simp] theorem State.memWrite_inbox (s : State) (a : Nat) (l : List Byte) : (s.memWrite a l).inbox = s.inbox := rfl
@[simp] theorem State.memWrite_later (s : State) (a : Nat) (l : List Byte) : (s.memWrite a l).later = s.later := rfl
@[simp] theorem State.memWrite_hostIn (s : State) (a : Nat) (l : List Byte) : (s.memWrite a l).hostIn = s.hostIn := rfl
@[simp] theorem State.memWrite_turns (s : State) (a : Nat) (l : List Byte) : (s.memWrite a l).turns = s.turns := rfl
@[simp] theorem State.memWrite_cur (s : State) (a : Nat) (l : List Byte) : (s.memWrite a l).cur = s.cur := rfl
@[simp] theorem State.memWrite_issue (s : State) (a : Nat) (l : List Byte) : (s.memWrite a l).issue = s.issue := rfl
@[simp] theorem State.memWrite_poison (s : State) (a : Nat) (l : List Byte) : (s.memWrite a l).poison = s.poison := rfl
@[simp] theorem State.memWrite_upsets (s : State) (a : Nat) (l : List Byte) : (s.memWrite a l).upsets = s.upsets := rfl
@[simp] theorem State.memWrite_code (s : State) (a : Nat) (l : List Byte) : (s.memWrite a l).code = s.code := rfl
@[simp] theorem State.memWrite_accs (s : State) (a : Nat) (l : List Byte) : (s.memWrite a l).accs = s.accs := rfl
@[simp] theorem State.memWrite_mmus (s : State) (a : Nat) (l : List Byte) : (s.memWrite a l).mmus = s.mmus := rfl
@[simp] theorem State.memWrite_vfs (s : State) (a : Nat) (l : List Byte) : (s.memWrite a l).vfs = s.vfs := rfl
@[simp] theorem State.memWrite_out (s : State) (a : Nat) (l : List Byte) : (s.memWrite a l).out = s.out := rfl
@[simp] theorem State.memWrite_parts (s : State) (a : Nat) (l : List Byte) : (s.memWrite a l).parts = s.parts := rfl
@[simp] theorem State.memWrite_shelf (s : State) (a : Nat) (l : List Byte) : (s.memWrite a l).shelf = s.shelf := rfl
@[simp] theorem State.memWrite_launches (s : State) (a : Nat) (l : List Byte) : (s.memWrite a l).launches = s.launches := rfl
@[simp] theorem State.memWrite_nextId (s : State) (a : Nat) (l : List Byte) : (s.memWrite a l).nextId = s.nextId := rfl
@[simp] theorem State.memWrite_nextHandle (s : State) (a : Nat) (l : List Byte) : (s.memWrite a l).nextHandle = s.nextHandle := rfl
@[simp] theorem State.memWrite_nextAcc (s : State) (a : Nat) (l : List Byte) : (s.memWrite a l).nextAcc = s.nextAcc := rfl
@[simp] theorem State.memWrite_sps (s : State) (a : Nat) (l : List Byte) : (s.memWrite a l).sps = s.sps := rfl
@[simp] theorem State.memWrite_xfrs (s : State) (a : Nat) (l : List Byte) : (s.memWrite a l).xfrs = s.xfrs := rfl
@[simp] theorem State.memWrite_ports (s : State) (a : Nat) (l : List Byte) : (s.memWrite a l).ports = s.ports := rfl
@[simp] theorem State.memWrite_engines (s : State) (a : Nat) (l : List Byte) : (s.memWrite a l).engines = s.engines := rfl
@[simp] theorem State.memWrite_dups (s : State) (a : Nat) (l : List Byte) : (s.memWrite a l).dups = s.dups := rfl
@[simp] theorem State.memWrite_heard (s : State) (a : Nat) (l : List Byte) : (s.memWrite a l).heard = s.heard := rfl
@[simp] theorem State.memWrite_fout (s : State) (a : Nat) (l : List Byte) : (s.memWrite a l).fout = s.fout := rfl
@[simp] theorem State.memWrite_frames (s : State) (a : Nat) (l : List Byte) : (s.memWrite a l).frames = s.frames := rfl
@[simp] theorem State.memWrite_recordsOut (s : State) (a : Nat) (l : List Byte) : (s.memWrite a l).recordsOut = s.recordsOut := rfl
@[simp] theorem State.memWrite_records (s : State) (a : Nat) (l : List Byte) : (s.memWrite a l).records = s.records := rfl
@[simp] theorem State.memWrite_taken (s : State) (a : Nat) (l : List Byte) : (s.memWrite a l).taken = s.taken := rfl
@[simp] theorem State.memWrite_dev (s : State) (a : Nat) (l : List Byte) : (s.memWrite a l).dev = s.dev := rfl

/-! ## State.modCtx -/

@[simp] theorem State.modCtx_now (s : State) (k : Nat) (f : Ctx → Ctx) : (s.modCtx k f).now = s.now := by unfold State.modCtx; split <;> rfl
@[simp] theorem State.modCtx_ctr (s : State) (k : Nat) (f : Ctx → Ctx) : (s.modCtx k f).ctr = s.ctr := by unfold State.modCtx; split <;> rfl
@[simp] theorem State.modCtx_inbox (s : State) (k : Nat) (f : Ctx → Ctx) : (s.modCtx k f).inbox = s.inbox := by unfold State.modCtx; split <;> rfl
@[simp] theorem State.modCtx_later (s : State) (k : Nat) (f : Ctx → Ctx) : (s.modCtx k f).later = s.later := by unfold State.modCtx; split <;> rfl
@[simp] theorem State.modCtx_hostIn (s : State) (k : Nat) (f : Ctx → Ctx) : (s.modCtx k f).hostIn = s.hostIn := by unfold State.modCtx; split <;> rfl
@[simp] theorem State.modCtx_turns (s : State) (k : Nat) (f : Ctx → Ctx) : (s.modCtx k f).turns = s.turns := by unfold State.modCtx; split <;> rfl
@[simp] theorem State.modCtx_cur (s : State) (k : Nat) (f : Ctx → Ctx) : (s.modCtx k f).cur = s.cur := by unfold State.modCtx; split <;> rfl
@[simp] theorem State.modCtx_issue (s : State) (k : Nat) (f : Ctx → Ctx) : (s.modCtx k f).issue = s.issue := by unfold State.modCtx; split <;> rfl
@[simp] theorem State.modCtx_mem (s : State) (k : Nat) (f : Ctx → Ctx) : (s.modCtx k f).mem = s.mem := by unfold State.modCtx; split <;> rfl
@[simp] theorem State.modCtx_cache (s : State) (k : Nat) (f : Ctx → Ctx) : (s.modCtx k f).cache = s.cache := by unfold State.modCtx; split <;> rfl
@[simp] theorem State.modCtx_poison (s : State) (k : Nat) (f : Ctx → Ctx) : (s.modCtx k f).poison = s.poison := by unfold State.modCtx; split <;> rfl
@[simp] theorem State.modCtx_upsets (s : State) (k : Nat) (f : Ctx → Ctx) : (s.modCtx k f).upsets = s.upsets := by unfold State.modCtx; split <;> rfl
@[simp] theorem State.modCtx_code (s : State) (k : Nat) (f : Ctx → Ctx) : (s.modCtx k f).code = s.code := by unfold State.modCtx; split <;> rfl
@[simp] theorem State.modCtx_accs (s : State) (k : Nat) (f : Ctx → Ctx) : (s.modCtx k f).accs = s.accs := by unfold State.modCtx; split <;> rfl
@[simp] theorem State.modCtx_mmus (s : State) (k : Nat) (f : Ctx → Ctx) : (s.modCtx k f).mmus = s.mmus := by unfold State.modCtx; split <;> rfl
@[simp] theorem State.modCtx_vfs (s : State) (k : Nat) (f : Ctx → Ctx) : (s.modCtx k f).vfs = s.vfs := by unfold State.modCtx; split <;> rfl
@[simp] theorem State.modCtx_out (s : State) (k : Nat) (f : Ctx → Ctx) : (s.modCtx k f).out = s.out := by unfold State.modCtx; split <;> rfl
@[simp] theorem State.modCtx_parts (s : State) (k : Nat) (f : Ctx → Ctx) : (s.modCtx k f).parts = s.parts := by unfold State.modCtx; split <;> rfl
@[simp] theorem State.modCtx_shelf (s : State) (k : Nat) (f : Ctx → Ctx) : (s.modCtx k f).shelf = s.shelf := by unfold State.modCtx; split <;> rfl
@[simp] theorem State.modCtx_launches (s : State) (k : Nat) (f : Ctx → Ctx) : (s.modCtx k f).launches = s.launches := by unfold State.modCtx; split <;> rfl
@[simp] theorem State.modCtx_nextId (s : State) (k : Nat) (f : Ctx → Ctx) : (s.modCtx k f).nextId = s.nextId := by unfold State.modCtx; split <;> rfl
@[simp] theorem State.modCtx_nextHandle (s : State) (k : Nat) (f : Ctx → Ctx) : (s.modCtx k f).nextHandle = s.nextHandle := by unfold State.modCtx; split <;> rfl
@[simp] theorem State.modCtx_nextAcc (s : State) (k : Nat) (f : Ctx → Ctx) : (s.modCtx k f).nextAcc = s.nextAcc := by unfold State.modCtx; split <;> rfl
@[simp] theorem State.modCtx_xfrs (s : State) (k : Nat) (f : Ctx → Ctx) : (s.modCtx k f).xfrs = s.xfrs := by unfold State.modCtx; split <;> rfl
@[simp] theorem State.modCtx_ports (s : State) (k : Nat) (f : Ctx → Ctx) : (s.modCtx k f).ports = s.ports := by unfold State.modCtx; split <;> rfl
@[simp] theorem State.modCtx_engines (s : State) (k : Nat) (f : Ctx → Ctx) : (s.modCtx k f).engines = s.engines := by unfold State.modCtx; split <;> rfl
@[simp] theorem State.modCtx_dups (s : State) (k : Nat) (f : Ctx → Ctx) : (s.modCtx k f).dups = s.dups := by unfold State.modCtx; split <;> rfl
@[simp] theorem State.modCtx_heard (s : State) (k : Nat) (f : Ctx → Ctx) : (s.modCtx k f).heard = s.heard := by unfold State.modCtx; split <;> rfl
@[simp] theorem State.modCtx_fout (s : State) (k : Nat) (f : Ctx → Ctx) : (s.modCtx k f).fout = s.fout := by unfold State.modCtx; split <;> rfl
@[simp] theorem State.modCtx_frames (s : State) (k : Nat) (f : Ctx → Ctx) : (s.modCtx k f).frames = s.frames := by unfold State.modCtx; split <;> rfl
@[simp] theorem State.modCtx_recordsOut (s : State) (k : Nat) (f : Ctx → Ctx) : (s.modCtx k f).recordsOut = s.recordsOut := by unfold State.modCtx; split <;> rfl
@[simp] theorem State.modCtx_records (s : State) (k : Nat) (f : Ctx → Ctx) : (s.modCtx k f).records = s.records := by unfold State.modCtx; split <;> rfl
@[simp] theorem State.modCtx_taken (s : State) (k : Nat) (f : Ctx → Ctx) : (s.modCtx k f).taken = s.taken := by unfold State.modCtx; split <;> rfl
@[simp] theorem State.modCtx_dev (s : State) (k : Nat) (f : Ctx → Ctx) : (s.modCtx k f).dev = s.dev := by unfold State.modCtx; split <;> rfl

/-! ## Ctx.orKstat -/

@[simp] theorem Ctx.orKstat_launch (c : Ctx) (n : Nat) : (c.orKstat n).launch = c.launch := rfl
@[simp] theorem Ctx.orKstat_rank (c : Ctx) (n : Nat) : (c.orKstat n).rank = c.rank := rfl
@[simp] theorem Ctx.orKstat_task (c : Ctx) (n : Nat) : (c.orKstat n).task = c.task := rfl
@[simp] theorem Ctx.orKstat_hw (c : Ctx) (n : Nat) : (c.orKstat n).hw = c.hw := rfl
@[simp] theorem Ctx.orKstat_split (c : Ctx) (n : Nat) : (c.orKstat n).split = c.split := rfl
@[simp] theorem Ctx.orKstat_pc (c : Ctx) (n : Nat) : (c.orKstat n).pc = c.pc := rfl
@[simp] theorem Ctx.orKstat_x (c : Ctx) (n : Nat) : (c.orKstat n).x = c.x := rfl
@[simp] theorem Ctx.orKstat_f (c : Ctx) (n : Nat) : (c.orKstat n).f = c.f := rfl
@[simp] theorem Ctx.orKstat_fcsr (c : Ctx) (n : Nat) : (c.orKstat n).fcsr = c.fcsr := rfl
@[simp] theorem Ctx.orKstat_mmode (c : Ctx) (n : Nat) : (c.orKstat n).mmode = c.mmode := rfl
@[simp] theorem Ctx.orKstat_resv (c : Ctx) (n : Nat) : (c.orKstat n).resv = c.resv := rfl
@[simp] theorem Ctx.orKstat_mepc (c : Ctx) (n : Nat) : (c.orKstat n).mepc = c.mepc := rfl
@[simp] theorem Ctx.orKstat_mcause (c : Ctx) (n : Nat) : (c.orKstat n).mcause = c.mcause := rfl
@[simp] theorem Ctx.orKstat_mtval (c : Ctx) (n : Nat) : (c.orKstat n).mtval = c.mtval := rfl
@[simp] theorem Ctx.orKstat_mtvec (c : Ctx) (n : Nat) : (c.orKstat n).mtvec = c.mtvec := rfl
@[simp] theorem Ctx.orKstat_mstatus (c : Ctx) (n : Nat) : (c.orKstat n).mstatus = c.mstatus := rfl
@[simp] theorem Ctx.orKstat_kevent (c : Ctx) (n : Nat) : (c.orKstat n).kevent = c.kevent := rfl
@[simp] theorem Ctx.orKstat_stopped (c : Ctx) (n : Nat) : (c.orKstat n).stopped = c.stopped := rfl
@[simp] theorem Ctx.orKstat_ie (c : Ctx) (n : Nat) : (c.orKstat n).ie = c.ie := rfl
@[simp] theorem Ctx.orKstat_pend (c : Ctx) (n : Nat) : (c.orKstat n).pend = c.pend := rfl
@[simp] theorem Ctx.orKstat_ieWait (c : Ctx) (n : Nat) : (c.orKstat n).ieWait = c.ieWait := rfl
@[simp] theorem Ctx.orKstat_ktvec (c : Ctx) (n : Nat) : (c.orKstat n).ktvec = c.ktvec := rfl
@[simp] theorem Ctx.orKstat_kepc (c : Ctx) (n : Nat) : (c.orKstat n).kepc = c.kepc := rfl
@[simp] theorem Ctx.orKstat_cbase (c : Ctx) (n : Nat) : (c.orKstat n).cbase = c.cbase := rfl
@[simp] theorem Ctx.orKstat_cbound (c : Ctx) (n : Nat) : (c.orKstat n).cbound = c.cbound := rfl
@[simp] theorem Ctx.orKstat_cceil (c : Ctx) (n : Nat) : (c.orKstat n).cceil = c.cceil := rfl
@[simp] theorem Ctx.orKstat_kstat (c : Ctx) (n : Nat) : (c.orKstat n).kstat = c.kstat := rfl
@[simp] theorem Ctx.orKstat_sysb (c : Ctx) (n : Nat) : (c.orKstat n).sysb = c.sysb := rfl
@[simp] theorem Ctx.orKstat_mwdog (c : Ctx) (n : Nat) : (c.orKstat n).mwdog = c.mwdog := rfl
@[simp] theorem Ctx.orKstat_mpreq (c : Ctx) (n : Nat) : (c.orKstat n).mpreq = c.mpreq := rfl
@[simp] theorem Ctx.orKstat_profile11 (c : Ctx) (n : Nat) : (c.orKstat n).profile11 = c.profile11 := rfl
@[simp] theorem Ctx.orKstat_wait (c : Ctx) (n : Nat) : (c.orKstat n).wait = c.wait := rfl
@[simp] theorem Ctx.orKstat_busy (c : Ctx) (n : Nat) : (c.orKstat n).busy = c.busy := rfl
@[simp] theorem Ctx.orKstat_squash (c : Ctx) (n : Nat) : (c.orKstat n).squash = c.squash := rfl
@[simp] theorem Ctx.orKstat_kres (c : Ctx) (n : Nat) : (c.orKstat n).kres = c.kres := rfl
@[simp] theorem Ctx.orKstat_polders (c : Ctx) (n : Nat) : (c.orKstat n).polders = c.polders := rfl
@[simp] theorem Ctx.orKstat_descs (c : Ctx) (n : Nat) : (c.orKstat n).descs = c.descs := rfl
@[simp] theorem Ctx.orKstat_sb (c : Ctx) (n : Nat) : (c.orKstat n).sb = c.sb := rfl
@[simp] theorem Ctx.orKstat_seq (c : Ctx) (n : Nat) : (c.orKstat n).seq = c.seq := rfl
@[simp] theorem Ctx.orKstat_used (c : Ctx) (n : Nat) : (c.orKstat n).used = c.used := rfl
@[simp] theorem Ctx.orKstat_recent (c : Ctx) (n : Nat) : (c.orKstat n).recent = c.recent := rfl
@[simp] theorem Ctx.orKstat_stages (c : Ctx) (n : Nat) : (c.orKstat n).stages = c.stages := rfl
@[simp] theorem Ctx.orKstat_pipe (c : Ctx) (n : Nat) : (c.orKstat n).pipe = c.pipe := rfl
@[simp] theorem Ctx.orKstat_sweep (c : Ctx) (n : Nat) : (c.orKstat n).sweep = c.sweep := rfl
@[simp] theorem Ctx.orKstat_kern (c : Ctx) (n : Nat) : (c.orKstat n).kern = c.kern := rfl
@[simp] theorem Ctx.orKstat_wdog (c : Ctx) (n : Nat) : (c.orKstat n).wdog = c.wdog := rfl
@[simp] theorem Ctx.orKstat_matrix (c : Ctx) (n : Nat) : (c.orKstat n).matrix = c.matrix := rfl
@[simp] theorem Ctx.orKstat_spire (c : Ctx) (n : Nat) : (c.orKstat n).spire = c.spire := rfl
@[simp] theorem Ctx.orKstat_g (c : Ctx) (n : Nat) : (c.orKstat n).g = c.g := rfl
@[simp] theorem Ctx.orKstat_i (c : Ctx) (n : Nat) : (c.orKstat n).i = c.i := rfl
@[simp] theorem Ctx.orKstat_v (c : Ctx) (n : Nat) : (c.orKstat n).v = c.v := rfl
@[simp] theorem Ctx.orKstat_aq (c : Ctx) (n : Nat) : (c.orKstat n).aq = c.aq := rfl
@[simp] theorem Ctx.orKstat_dq (c : Ctx) (n : Nat) : (c.orKstat n).dq = c.dq := rfl
@[simp] theorem Ctx.orKstat_lockHeld (c : Ctx) (n : Nat) : (c.orKstat n).lockHeld = c.lockHeld := rfl
@[simp] theorem Ctx.orKstat_gports (c : Ctx) (n : Nat) : (c.orKstat n).gports = c.gports := rfl
@[simp] theorem Ctx.orKstat_tokens (c : Ctx) (n : Nat) : (c.orKstat n).tokens = c.tokens := rfl
@[simp] theorem Ctx.orKstat_sbar (c : Ctx) (n : Nat) : (c.orKstat n).sbar = c.sbar := rfl
@[simp] theorem Ctx.orKstat_preempt (c : Ctx) (n : Nat) : (c.orKstat n).preempt = c.preempt := rfl
@[simp] theorem Ctx.orKstat_frozen (c : Ctx) (n : Nat) : (c.orKstat n).frozen = c.frozen := rfl
@[simp] theorem Ctx.orKstat_halted (c : Ctx) (n : Nat) : (c.orKstat n).halted = c.halted := rfl

/-! ## Ctx.later, Ctx.laters -/

@[simp] theorem Ctx.later_launch (c : Ctx) (n : Nat) (w : Landed) : (c.later n w).launch = c.launch := rfl
@[simp] theorem Ctx.laters_launch (c : Ctx) (n : Nat) (w : List Landed) : (c.laters n w).launch = c.launch := rfl
@[simp] theorem Ctx.later_rank (c : Ctx) (n : Nat) (w : Landed) : (c.later n w).rank = c.rank := rfl
@[simp] theorem Ctx.laters_rank (c : Ctx) (n : Nat) (w : List Landed) : (c.laters n w).rank = c.rank := rfl
@[simp] theorem Ctx.later_task (c : Ctx) (n : Nat) (w : Landed) : (c.later n w).task = c.task := rfl
@[simp] theorem Ctx.laters_task (c : Ctx) (n : Nat) (w : List Landed) : (c.laters n w).task = c.task := rfl
@[simp] theorem Ctx.later_hw (c : Ctx) (n : Nat) (w : Landed) : (c.later n w).hw = c.hw := rfl
@[simp] theorem Ctx.laters_hw (c : Ctx) (n : Nat) (w : List Landed) : (c.laters n w).hw = c.hw := rfl
@[simp] theorem Ctx.later_split (c : Ctx) (n : Nat) (w : Landed) : (c.later n w).split = c.split := rfl
@[simp] theorem Ctx.laters_split (c : Ctx) (n : Nat) (w : List Landed) : (c.laters n w).split = c.split := rfl
@[simp] theorem Ctx.later_pc (c : Ctx) (n : Nat) (w : Landed) : (c.later n w).pc = c.pc := rfl
@[simp] theorem Ctx.laters_pc (c : Ctx) (n : Nat) (w : List Landed) : (c.laters n w).pc = c.pc := rfl
@[simp] theorem Ctx.later_x (c : Ctx) (n : Nat) (w : Landed) : (c.later n w).x = c.x := rfl
@[simp] theorem Ctx.laters_x (c : Ctx) (n : Nat) (w : List Landed) : (c.laters n w).x = c.x := rfl
@[simp] theorem Ctx.later_f (c : Ctx) (n : Nat) (w : Landed) : (c.later n w).f = c.f := rfl
@[simp] theorem Ctx.laters_f (c : Ctx) (n : Nat) (w : List Landed) : (c.laters n w).f = c.f := rfl
@[simp] theorem Ctx.later_fcsr (c : Ctx) (n : Nat) (w : Landed) : (c.later n w).fcsr = c.fcsr := rfl
@[simp] theorem Ctx.laters_fcsr (c : Ctx) (n : Nat) (w : List Landed) : (c.laters n w).fcsr = c.fcsr := rfl
@[simp] theorem Ctx.later_mmode (c : Ctx) (n : Nat) (w : Landed) : (c.later n w).mmode = c.mmode := rfl
@[simp] theorem Ctx.laters_mmode (c : Ctx) (n : Nat) (w : List Landed) : (c.laters n w).mmode = c.mmode := rfl
@[simp] theorem Ctx.later_resv (c : Ctx) (n : Nat) (w : Landed) : (c.later n w).resv = c.resv := rfl
@[simp] theorem Ctx.laters_resv (c : Ctx) (n : Nat) (w : List Landed) : (c.laters n w).resv = c.resv := rfl
@[simp] theorem Ctx.later_mepc (c : Ctx) (n : Nat) (w : Landed) : (c.later n w).mepc = c.mepc := rfl
@[simp] theorem Ctx.laters_mepc (c : Ctx) (n : Nat) (w : List Landed) : (c.laters n w).mepc = c.mepc := rfl
@[simp] theorem Ctx.later_mcause (c : Ctx) (n : Nat) (w : Landed) : (c.later n w).mcause = c.mcause := rfl
@[simp] theorem Ctx.laters_mcause (c : Ctx) (n : Nat) (w : List Landed) : (c.laters n w).mcause = c.mcause := rfl
@[simp] theorem Ctx.later_mtval (c : Ctx) (n : Nat) (w : Landed) : (c.later n w).mtval = c.mtval := rfl
@[simp] theorem Ctx.laters_mtval (c : Ctx) (n : Nat) (w : List Landed) : (c.laters n w).mtval = c.mtval := rfl
@[simp] theorem Ctx.later_mtvec (c : Ctx) (n : Nat) (w : Landed) : (c.later n w).mtvec = c.mtvec := rfl
@[simp] theorem Ctx.laters_mtvec (c : Ctx) (n : Nat) (w : List Landed) : (c.laters n w).mtvec = c.mtvec := rfl
@[simp] theorem Ctx.later_mstatus (c : Ctx) (n : Nat) (w : Landed) : (c.later n w).mstatus = c.mstatus := rfl
@[simp] theorem Ctx.laters_mstatus (c : Ctx) (n : Nat) (w : List Landed) : (c.laters n w).mstatus = c.mstatus := rfl
@[simp] theorem Ctx.later_kevent (c : Ctx) (n : Nat) (w : Landed) : (c.later n w).kevent = c.kevent := rfl
@[simp] theorem Ctx.laters_kevent (c : Ctx) (n : Nat) (w : List Landed) : (c.laters n w).kevent = c.kevent := rfl
@[simp] theorem Ctx.later_stopped (c : Ctx) (n : Nat) (w : Landed) : (c.later n w).stopped = c.stopped := rfl
@[simp] theorem Ctx.laters_stopped (c : Ctx) (n : Nat) (w : List Landed) : (c.laters n w).stopped = c.stopped := rfl
@[simp] theorem Ctx.later_ie (c : Ctx) (n : Nat) (w : Landed) : (c.later n w).ie = c.ie := rfl
@[simp] theorem Ctx.laters_ie (c : Ctx) (n : Nat) (w : List Landed) : (c.laters n w).ie = c.ie := rfl
@[simp] theorem Ctx.later_pend (c : Ctx) (n : Nat) (w : Landed) : (c.later n w).pend = c.pend := rfl
@[simp] theorem Ctx.laters_pend (c : Ctx) (n : Nat) (w : List Landed) : (c.laters n w).pend = c.pend := rfl
@[simp] theorem Ctx.later_ieWait (c : Ctx) (n : Nat) (w : Landed) : (c.later n w).ieWait = c.ieWait := rfl
@[simp] theorem Ctx.laters_ieWait (c : Ctx) (n : Nat) (w : List Landed) : (c.laters n w).ieWait = c.ieWait := rfl
@[simp] theorem Ctx.later_ktvec (c : Ctx) (n : Nat) (w : Landed) : (c.later n w).ktvec = c.ktvec := rfl
@[simp] theorem Ctx.laters_ktvec (c : Ctx) (n : Nat) (w : List Landed) : (c.laters n w).ktvec = c.ktvec := rfl
@[simp] theorem Ctx.later_kepc (c : Ctx) (n : Nat) (w : Landed) : (c.later n w).kepc = c.kepc := rfl
@[simp] theorem Ctx.laters_kepc (c : Ctx) (n : Nat) (w : List Landed) : (c.laters n w).kepc = c.kepc := rfl
@[simp] theorem Ctx.later_cbase (c : Ctx) (n : Nat) (w : Landed) : (c.later n w).cbase = c.cbase := rfl
@[simp] theorem Ctx.laters_cbase (c : Ctx) (n : Nat) (w : List Landed) : (c.laters n w).cbase = c.cbase := rfl
@[simp] theorem Ctx.later_cbound (c : Ctx) (n : Nat) (w : Landed) : (c.later n w).cbound = c.cbound := rfl
@[simp] theorem Ctx.laters_cbound (c : Ctx) (n : Nat) (w : List Landed) : (c.laters n w).cbound = c.cbound := rfl
@[simp] theorem Ctx.later_cceil (c : Ctx) (n : Nat) (w : Landed) : (c.later n w).cceil = c.cceil := rfl
@[simp] theorem Ctx.laters_cceil (c : Ctx) (n : Nat) (w : List Landed) : (c.laters n w).cceil = c.cceil := rfl
@[simp] theorem Ctx.later_kstat (c : Ctx) (n : Nat) (w : Landed) : (c.later n w).kstat = c.kstat := rfl
@[simp] theorem Ctx.laters_kstat (c : Ctx) (n : Nat) (w : List Landed) : (c.laters n w).kstat = c.kstat := rfl
@[simp] theorem Ctx.later_kset (c : Ctx) (n : Nat) (w : Landed) : (c.later n w).kset = c.kset := rfl
@[simp] theorem Ctx.laters_kset (c : Ctx) (n : Nat) (w : List Landed) : (c.laters n w).kset = c.kset := rfl
@[simp] theorem Ctx.later_sysb (c : Ctx) (n : Nat) (w : Landed) : (c.later n w).sysb = c.sysb := rfl
@[simp] theorem Ctx.laters_sysb (c : Ctx) (n : Nat) (w : List Landed) : (c.laters n w).sysb = c.sysb := rfl
@[simp] theorem Ctx.later_mwdog (c : Ctx) (n : Nat) (w : Landed) : (c.later n w).mwdog = c.mwdog := rfl
@[simp] theorem Ctx.laters_mwdog (c : Ctx) (n : Nat) (w : List Landed) : (c.laters n w).mwdog = c.mwdog := rfl
@[simp] theorem Ctx.later_mpreq (c : Ctx) (n : Nat) (w : Landed) : (c.later n w).mpreq = c.mpreq := rfl
@[simp] theorem Ctx.laters_mpreq (c : Ctx) (n : Nat) (w : List Landed) : (c.laters n w).mpreq = c.mpreq := rfl
@[simp] theorem Ctx.later_profile11 (c : Ctx) (n : Nat) (w : Landed) : (c.later n w).profile11 = c.profile11 := rfl
@[simp] theorem Ctx.laters_profile11 (c : Ctx) (n : Nat) (w : List Landed) : (c.laters n w).profile11 = c.profile11 := rfl
@[simp] theorem Ctx.later_wait (c : Ctx) (n : Nat) (w : Landed) : (c.later n w).wait = c.wait := rfl
@[simp] theorem Ctx.laters_wait (c : Ctx) (n : Nat) (w : List Landed) : (c.laters n w).wait = c.wait := rfl
@[simp] theorem Ctx.later_busy (c : Ctx) (n : Nat) (w : Landed) : (c.later n w).busy = c.busy := rfl
@[simp] theorem Ctx.laters_busy (c : Ctx) (n : Nat) (w : List Landed) : (c.laters n w).busy = c.busy := rfl
@[simp] theorem Ctx.later_squash (c : Ctx) (n : Nat) (w : Landed) : (c.later n w).squash = c.squash := rfl
@[simp] theorem Ctx.laters_squash (c : Ctx) (n : Nat) (w : List Landed) : (c.laters n w).squash = c.squash := rfl
@[simp] theorem Ctx.later_kres (c : Ctx) (n : Nat) (w : Landed) : (c.later n w).kres = c.kres := rfl
@[simp] theorem Ctx.laters_kres (c : Ctx) (n : Nat) (w : List Landed) : (c.laters n w).kres = c.kres := rfl
@[simp] theorem Ctx.later_polders (c : Ctx) (n : Nat) (w : Landed) : (c.later n w).polders = c.polders := rfl
@[simp] theorem Ctx.laters_polders (c : Ctx) (n : Nat) (w : List Landed) : (c.laters n w).polders = c.polders := rfl
@[simp] theorem Ctx.later_descs (c : Ctx) (n : Nat) (w : Landed) : (c.later n w).descs = c.descs := rfl
@[simp] theorem Ctx.laters_descs (c : Ctx) (n : Nat) (w : List Landed) : (c.laters n w).descs = c.descs := rfl
@[simp] theorem Ctx.later_sb (c : Ctx) (n : Nat) (w : Landed) : (c.later n w).sb = c.sb := rfl
@[simp] theorem Ctx.laters_sb (c : Ctx) (n : Nat) (w : List Landed) : (c.laters n w).sb = c.sb := rfl
@[simp] theorem Ctx.later_seq (c : Ctx) (n : Nat) (w : Landed) : (c.later n w).seq = c.seq := rfl
@[simp] theorem Ctx.laters_seq (c : Ctx) (n : Nat) (w : List Landed) : (c.laters n w).seq = c.seq := rfl
@[simp] theorem Ctx.later_used (c : Ctx) (n : Nat) (w : Landed) : (c.later n w).used = c.used := rfl
@[simp] theorem Ctx.laters_used (c : Ctx) (n : Nat) (w : List Landed) : (c.laters n w).used = c.used := rfl
@[simp] theorem Ctx.later_recent (c : Ctx) (n : Nat) (w : Landed) : (c.later n w).recent = c.recent := rfl
@[simp] theorem Ctx.laters_recent (c : Ctx) (n : Nat) (w : List Landed) : (c.laters n w).recent = c.recent := rfl
@[simp] theorem Ctx.later_stages (c : Ctx) (n : Nat) (w : Landed) : (c.later n w).stages = c.stages := rfl
@[simp] theorem Ctx.laters_stages (c : Ctx) (n : Nat) (w : List Landed) : (c.laters n w).stages = c.stages := rfl
@[simp] theorem Ctx.later_pipe (c : Ctx) (n : Nat) (w : Landed) : (c.later n w).pipe = c.pipe := rfl
@[simp] theorem Ctx.laters_pipe (c : Ctx) (n : Nat) (w : List Landed) : (c.laters n w).pipe = c.pipe := rfl
@[simp] theorem Ctx.later_sweep (c : Ctx) (n : Nat) (w : Landed) : (c.later n w).sweep = c.sweep := rfl
@[simp] theorem Ctx.laters_sweep (c : Ctx) (n : Nat) (w : List Landed) : (c.laters n w).sweep = c.sweep := rfl
@[simp] theorem Ctx.later_wdog (c : Ctx) (n : Nat) (w : Landed) : (c.later n w).wdog = c.wdog := rfl
@[simp] theorem Ctx.laters_wdog (c : Ctx) (n : Nat) (w : List Landed) : (c.laters n w).wdog = c.wdog := rfl
@[simp] theorem Ctx.later_matrix (c : Ctx) (n : Nat) (w : Landed) : (c.later n w).matrix = c.matrix := rfl
@[simp] theorem Ctx.laters_matrix (c : Ctx) (n : Nat) (w : List Landed) : (c.laters n w).matrix = c.matrix := rfl
@[simp] theorem Ctx.later_spire (c : Ctx) (n : Nat) (w : Landed) : (c.later n w).spire = c.spire := rfl
@[simp] theorem Ctx.laters_spire (c : Ctx) (n : Nat) (w : List Landed) : (c.laters n w).spire = c.spire := rfl
@[simp] theorem Ctx.later_g (c : Ctx) (n : Nat) (w : Landed) : (c.later n w).g = c.g := rfl
@[simp] theorem Ctx.laters_g (c : Ctx) (n : Nat) (w : List Landed) : (c.laters n w).g = c.g := rfl
@[simp] theorem Ctx.later_i (c : Ctx) (n : Nat) (w : Landed) : (c.later n w).i = c.i := rfl
@[simp] theorem Ctx.laters_i (c : Ctx) (n : Nat) (w : List Landed) : (c.laters n w).i = c.i := rfl
@[simp] theorem Ctx.later_v (c : Ctx) (n : Nat) (w : Landed) : (c.later n w).v = c.v := rfl
@[simp] theorem Ctx.laters_v (c : Ctx) (n : Nat) (w : List Landed) : (c.laters n w).v = c.v := rfl
@[simp] theorem Ctx.later_aq (c : Ctx) (n : Nat) (w : Landed) : (c.later n w).aq = c.aq := rfl
@[simp] theorem Ctx.laters_aq (c : Ctx) (n : Nat) (w : List Landed) : (c.laters n w).aq = c.aq := rfl
@[simp] theorem Ctx.later_dq (c : Ctx) (n : Nat) (w : Landed) : (c.later n w).dq = c.dq := rfl
@[simp] theorem Ctx.laters_dq (c : Ctx) (n : Nat) (w : List Landed) : (c.laters n w).dq = c.dq := rfl
@[simp] theorem Ctx.later_lockHeld (c : Ctx) (n : Nat) (w : Landed) : (c.later n w).lockHeld = c.lockHeld := rfl
@[simp] theorem Ctx.laters_lockHeld (c : Ctx) (n : Nat) (w : List Landed) : (c.laters n w).lockHeld = c.lockHeld := rfl
@[simp] theorem Ctx.later_gports (c : Ctx) (n : Nat) (w : Landed) : (c.later n w).gports = c.gports := rfl
@[simp] theorem Ctx.laters_gports (c : Ctx) (n : Nat) (w : List Landed) : (c.laters n w).gports = c.gports := rfl
@[simp] theorem Ctx.later_tokens (c : Ctx) (n : Nat) (w : Landed) : (c.later n w).tokens = c.tokens := rfl
@[simp] theorem Ctx.laters_tokens (c : Ctx) (n : Nat) (w : List Landed) : (c.laters n w).tokens = c.tokens := rfl
@[simp] theorem Ctx.later_sbar (c : Ctx) (n : Nat) (w : Landed) : (c.later n w).sbar = c.sbar := rfl
@[simp] theorem Ctx.laters_sbar (c : Ctx) (n : Nat) (w : List Landed) : (c.laters n w).sbar = c.sbar := rfl
@[simp] theorem Ctx.later_preempt (c : Ctx) (n : Nat) (w : Landed) : (c.later n w).preempt = c.preempt := rfl
@[simp] theorem Ctx.laters_preempt (c : Ctx) (n : Nat) (w : List Landed) : (c.laters n w).preempt = c.preempt := rfl
@[simp] theorem Ctx.later_frozen (c : Ctx) (n : Nat) (w : Landed) : (c.later n w).frozen = c.frozen := rfl
@[simp] theorem Ctx.laters_frozen (c : Ctx) (n : Nat) (w : List Landed) : (c.laters n w).frozen = c.frozen := rfl
@[simp] theorem Ctx.later_halted (c : Ctx) (n : Nat) (w : Landed) : (c.later n w).halted = c.halted := rfl
@[simp] theorem Ctx.laters_halted (c : Ctx) (n : Nat) (w : List Landed) : (c.laters n w).halted = c.halted := rfl

/-! ## Ctx.advance -/

@[simp] theorem Ctx.advance_launch (c : Ctx) (n : Nat) : (c.advance n).launch = c.launch := rfl
@[simp] theorem Ctx.advance_rank (c : Ctx) (n : Nat) : (c.advance n).rank = c.rank := rfl
@[simp] theorem Ctx.advance_task (c : Ctx) (n : Nat) : (c.advance n).task = c.task := rfl
@[simp] theorem Ctx.advance_hw (c : Ctx) (n : Nat) : (c.advance n).hw = c.hw := rfl
@[simp] theorem Ctx.advance_split (c : Ctx) (n : Nat) : (c.advance n).split = c.split := rfl
@[simp] theorem Ctx.advance_x (c : Ctx) (n : Nat) : (c.advance n).x = c.x := rfl
@[simp] theorem Ctx.advance_f (c : Ctx) (n : Nat) : (c.advance n).f = c.f := rfl
@[simp] theorem Ctx.advance_fcsr (c : Ctx) (n : Nat) : (c.advance n).fcsr = c.fcsr := rfl
@[simp] theorem Ctx.advance_mmode (c : Ctx) (n : Nat) : (c.advance n).mmode = c.mmode := rfl
@[simp] theorem Ctx.advance_resv (c : Ctx) (n : Nat) : (c.advance n).resv = c.resv := rfl
@[simp] theorem Ctx.advance_mepc (c : Ctx) (n : Nat) : (c.advance n).mepc = c.mepc := rfl
@[simp] theorem Ctx.advance_mcause (c : Ctx) (n : Nat) : (c.advance n).mcause = c.mcause := rfl
@[simp] theorem Ctx.advance_mtval (c : Ctx) (n : Nat) : (c.advance n).mtval = c.mtval := rfl
@[simp] theorem Ctx.advance_mtvec (c : Ctx) (n : Nat) : (c.advance n).mtvec = c.mtvec := rfl
@[simp] theorem Ctx.advance_mstatus (c : Ctx) (n : Nat) : (c.advance n).mstatus = c.mstatus := rfl
@[simp] theorem Ctx.advance_kevent (c : Ctx) (n : Nat) : (c.advance n).kevent = c.kevent := rfl
@[simp] theorem Ctx.advance_stopped (c : Ctx) (n : Nat) : (c.advance n).stopped = c.stopped := rfl
@[simp] theorem Ctx.advance_ie (c : Ctx) (n : Nat) : (c.advance n).ie = c.ie := rfl
@[simp] theorem Ctx.advance_pend (c : Ctx) (n : Nat) : (c.advance n).pend = c.pend := rfl
@[simp] theorem Ctx.advance_ieWait (c : Ctx) (n : Nat) : (c.advance n).ieWait = c.ieWait := rfl
@[simp] theorem Ctx.advance_ktvec (c : Ctx) (n : Nat) : (c.advance n).ktvec = c.ktvec := rfl
@[simp] theorem Ctx.advance_kepc (c : Ctx) (n : Nat) : (c.advance n).kepc = c.kepc := rfl
@[simp] theorem Ctx.advance_cbase (c : Ctx) (n : Nat) : (c.advance n).cbase = c.cbase := rfl
@[simp] theorem Ctx.advance_cbound (c : Ctx) (n : Nat) : (c.advance n).cbound = c.cbound := rfl
@[simp] theorem Ctx.advance_cceil (c : Ctx) (n : Nat) : (c.advance n).cceil = c.cceil := rfl
@[simp] theorem Ctx.advance_kstat (c : Ctx) (n : Nat) : (c.advance n).kstat = c.kstat := rfl
@[simp] theorem Ctx.advance_kset (c : Ctx) (n : Nat) : (c.advance n).kset = c.kset := rfl
@[simp] theorem Ctx.advance_sysb (c : Ctx) (n : Nat) : (c.advance n).sysb = c.sysb := rfl
@[simp] theorem Ctx.advance_mwdog (c : Ctx) (n : Nat) : (c.advance n).mwdog = c.mwdog := rfl
@[simp] theorem Ctx.advance_mpreq (c : Ctx) (n : Nat) : (c.advance n).mpreq = c.mpreq := rfl
@[simp] theorem Ctx.advance_profile11 (c : Ctx) (n : Nat) : (c.advance n).profile11 = c.profile11 := rfl
@[simp] theorem Ctx.advance_wait (c : Ctx) (n : Nat) : (c.advance n).wait = c.wait := rfl
@[simp] theorem Ctx.advance_busy (c : Ctx) (n : Nat) : (c.advance n).busy = c.busy := rfl
@[simp] theorem Ctx.advance_squash (c : Ctx) (n : Nat) : (c.advance n).squash = c.squash := rfl
@[simp] theorem Ctx.advance_kres (c : Ctx) (n : Nat) : (c.advance n).kres = c.kres := rfl
@[simp] theorem Ctx.advance_polders (c : Ctx) (n : Nat) : (c.advance n).polders = c.polders := rfl
@[simp] theorem Ctx.advance_descs (c : Ctx) (n : Nat) : (c.advance n).descs = c.descs := rfl
@[simp] theorem Ctx.advance_sb (c : Ctx) (n : Nat) : (c.advance n).sb = c.sb := rfl
@[simp] theorem Ctx.advance_seq (c : Ctx) (n : Nat) : (c.advance n).seq = c.seq := rfl
@[simp] theorem Ctx.advance_used (c : Ctx) (n : Nat) : (c.advance n).used = c.used := rfl
@[simp] theorem Ctx.advance_recent (c : Ctx) (n : Nat) : (c.advance n).recent = c.recent := rfl
@[simp] theorem Ctx.advance_stages (c : Ctx) (n : Nat) : (c.advance n).stages = c.stages := rfl
@[simp] theorem Ctx.advance_pipe (c : Ctx) (n : Nat) : (c.advance n).pipe = c.pipe := rfl
@[simp] theorem Ctx.advance_sweep (c : Ctx) (n : Nat) : (c.advance n).sweep = c.sweep := rfl
@[simp] theorem Ctx.advance_kern (c : Ctx) (n : Nat) : (c.advance n).kern = c.kern := rfl
@[simp] theorem Ctx.advance_wdog (c : Ctx) (n : Nat) : (c.advance n).wdog = c.wdog := rfl
@[simp] theorem Ctx.advance_matrix (c : Ctx) (n : Nat) : (c.advance n).matrix = c.matrix := rfl
@[simp] theorem Ctx.advance_spire (c : Ctx) (n : Nat) : (c.advance n).spire = c.spire := rfl
@[simp] theorem Ctx.advance_g (c : Ctx) (n : Nat) : (c.advance n).g = c.g := rfl
@[simp] theorem Ctx.advance_i (c : Ctx) (n : Nat) : (c.advance n).i = c.i := rfl
@[simp] theorem Ctx.advance_v (c : Ctx) (n : Nat) : (c.advance n).v = c.v := rfl
@[simp] theorem Ctx.advance_aq (c : Ctx) (n : Nat) : (c.advance n).aq = c.aq := rfl
@[simp] theorem Ctx.advance_dq (c : Ctx) (n : Nat) : (c.advance n).dq = c.dq := rfl
@[simp] theorem Ctx.advance_lockHeld (c : Ctx) (n : Nat) : (c.advance n).lockHeld = c.lockHeld := rfl
@[simp] theorem Ctx.advance_gports (c : Ctx) (n : Nat) : (c.advance n).gports = c.gports := rfl
@[simp] theorem Ctx.advance_tokens (c : Ctx) (n : Nat) : (c.advance n).tokens = c.tokens := rfl
@[simp] theorem Ctx.advance_sbar (c : Ctx) (n : Nat) : (c.advance n).sbar = c.sbar := rfl
@[simp] theorem Ctx.advance_preempt (c : Ctx) (n : Nat) : (c.advance n).preempt = c.preempt := rfl
@[simp] theorem Ctx.advance_frozen (c : Ctx) (n : Nat) : (c.advance n).frozen = c.frozen := rfl
@[simp] theorem Ctx.advance_halted (c : Ctx) (n : Nat) : (c.advance n).halted = c.halted := rfl

/-! ## Ctx.setX, Ctx.setF -/

@[simp] theorem Ctx.setX_launch (c : Ctx) (n : Nat) (v : Dword) : (c.setX n v).launch = c.launch := by unfold Ctx.setX; split <;> rfl
@[simp] theorem Ctx.setX_rank (c : Ctx) (n : Nat) (v : Dword) : (c.setX n v).rank = c.rank := by unfold Ctx.setX; split <;> rfl
@[simp] theorem Ctx.setX_task (c : Ctx) (n : Nat) (v : Dword) : (c.setX n v).task = c.task := by unfold Ctx.setX; split <;> rfl
@[simp] theorem Ctx.setX_hw (c : Ctx) (n : Nat) (v : Dword) : (c.setX n v).hw = c.hw := by unfold Ctx.setX; split <;> rfl
@[simp] theorem Ctx.setX_split (c : Ctx) (n : Nat) (v : Dword) : (c.setX n v).split = c.split := by unfold Ctx.setX; split <;> rfl
@[simp] theorem Ctx.setX_pc (c : Ctx) (n : Nat) (v : Dword) : (c.setX n v).pc = c.pc := by unfold Ctx.setX; split <;> rfl
@[simp] theorem Ctx.setX_f (c : Ctx) (n : Nat) (v : Dword) : (c.setX n v).f = c.f := by unfold Ctx.setX; split <;> rfl
@[simp] theorem Ctx.setX_fcsr (c : Ctx) (n : Nat) (v : Dword) : (c.setX n v).fcsr = c.fcsr := by unfold Ctx.setX; split <;> rfl
@[simp] theorem Ctx.setX_mmode (c : Ctx) (n : Nat) (v : Dword) : (c.setX n v).mmode = c.mmode := by unfold Ctx.setX; split <;> rfl
@[simp] theorem Ctx.setX_resv (c : Ctx) (n : Nat) (v : Dword) : (c.setX n v).resv = c.resv := by unfold Ctx.setX; split <;> rfl
@[simp] theorem Ctx.setX_mepc (c : Ctx) (n : Nat) (v : Dword) : (c.setX n v).mepc = c.mepc := by unfold Ctx.setX; split <;> rfl
@[simp] theorem Ctx.setX_mcause (c : Ctx) (n : Nat) (v : Dword) : (c.setX n v).mcause = c.mcause := by unfold Ctx.setX; split <;> rfl
@[simp] theorem Ctx.setX_mtval (c : Ctx) (n : Nat) (v : Dword) : (c.setX n v).mtval = c.mtval := by unfold Ctx.setX; split <;> rfl
@[simp] theorem Ctx.setX_mtvec (c : Ctx) (n : Nat) (v : Dword) : (c.setX n v).mtvec = c.mtvec := by unfold Ctx.setX; split <;> rfl
@[simp] theorem Ctx.setX_mstatus (c : Ctx) (n : Nat) (v : Dword) : (c.setX n v).mstatus = c.mstatus := by unfold Ctx.setX; split <;> rfl
@[simp] theorem Ctx.setX_kevent (c : Ctx) (n : Nat) (v : Dword) : (c.setX n v).kevent = c.kevent := by unfold Ctx.setX; split <;> rfl
@[simp] theorem Ctx.setX_stopped (c : Ctx) (n : Nat) (v : Dword) : (c.setX n v).stopped = c.stopped := by unfold Ctx.setX; split <;> rfl
@[simp] theorem Ctx.setX_ie (c : Ctx) (n : Nat) (v : Dword) : (c.setX n v).ie = c.ie := by unfold Ctx.setX; split <;> rfl
@[simp] theorem Ctx.setX_pend (c : Ctx) (n : Nat) (v : Dword) : (c.setX n v).pend = c.pend := by unfold Ctx.setX; split <;> rfl
@[simp] theorem Ctx.setX_ieWait (c : Ctx) (n : Nat) (v : Dword) : (c.setX n v).ieWait = c.ieWait := by unfold Ctx.setX; split <;> rfl
@[simp] theorem Ctx.setX_ktvec (c : Ctx) (n : Nat) (v : Dword) : (c.setX n v).ktvec = c.ktvec := by unfold Ctx.setX; split <;> rfl
@[simp] theorem Ctx.setX_kepc (c : Ctx) (n : Nat) (v : Dword) : (c.setX n v).kepc = c.kepc := by unfold Ctx.setX; split <;> rfl
@[simp] theorem Ctx.setX_cbase (c : Ctx) (n : Nat) (v : Dword) : (c.setX n v).cbase = c.cbase := by unfold Ctx.setX; split <;> rfl
@[simp] theorem Ctx.setX_cbound (c : Ctx) (n : Nat) (v : Dword) : (c.setX n v).cbound = c.cbound := by unfold Ctx.setX; split <;> rfl
@[simp] theorem Ctx.setX_cceil (c : Ctx) (n : Nat) (v : Dword) : (c.setX n v).cceil = c.cceil := by unfold Ctx.setX; split <;> rfl
@[simp] theorem Ctx.setX_kstat (c : Ctx) (n : Nat) (v : Dword) : (c.setX n v).kstat = c.kstat := by unfold Ctx.setX; split <;> rfl
@[simp] theorem Ctx.setX_kset (c : Ctx) (n : Nat) (v : Dword) : (c.setX n v).kset = c.kset := by unfold Ctx.setX; split <;> rfl
@[simp] theorem Ctx.setX_sysb (c : Ctx) (n : Nat) (v : Dword) : (c.setX n v).sysb = c.sysb := by unfold Ctx.setX; split <;> rfl
@[simp] theorem Ctx.setX_mwdog (c : Ctx) (n : Nat) (v : Dword) : (c.setX n v).mwdog = c.mwdog := by unfold Ctx.setX; split <;> rfl
@[simp] theorem Ctx.setX_mpreq (c : Ctx) (n : Nat) (v : Dword) : (c.setX n v).mpreq = c.mpreq := by unfold Ctx.setX; split <;> rfl
@[simp] theorem Ctx.setX_profile11 (c : Ctx) (n : Nat) (v : Dword) : (c.setX n v).profile11 = c.profile11 := by unfold Ctx.setX; split <;> rfl
@[simp] theorem Ctx.setX_wait (c : Ctx) (n : Nat) (v : Dword) : (c.setX n v).wait = c.wait := by unfold Ctx.setX; split <;> rfl
@[simp] theorem Ctx.setX_busy (c : Ctx) (n : Nat) (v : Dword) : (c.setX n v).busy = c.busy := by unfold Ctx.setX; split <;> rfl
@[simp] theorem Ctx.setX_squash (c : Ctx) (n : Nat) (v : Dword) : (c.setX n v).squash = c.squash := by unfold Ctx.setX; split <;> rfl
@[simp] theorem Ctx.setX_kres (c : Ctx) (n : Nat) (v : Dword) : (c.setX n v).kres = c.kres := by unfold Ctx.setX; split <;> rfl
@[simp] theorem Ctx.setX_polders (c : Ctx) (n : Nat) (v : Dword) : (c.setX n v).polders = c.polders := by unfold Ctx.setX; split <;> rfl
@[simp] theorem Ctx.setX_descs (c : Ctx) (n : Nat) (v : Dword) : (c.setX n v).descs = c.descs := by unfold Ctx.setX; split <;> rfl
@[simp] theorem Ctx.setX_sb (c : Ctx) (n : Nat) (v : Dword) : (c.setX n v).sb = c.sb := by unfold Ctx.setX; split <;> rfl
@[simp] theorem Ctx.setX_seq (c : Ctx) (n : Nat) (v : Dword) : (c.setX n v).seq = c.seq := by unfold Ctx.setX; split <;> rfl
@[simp] theorem Ctx.setX_used (c : Ctx) (n : Nat) (v : Dword) : (c.setX n v).used = c.used := by unfold Ctx.setX; split <;> rfl
@[simp] theorem Ctx.setX_recent (c : Ctx) (n : Nat) (v : Dword) : (c.setX n v).recent = c.recent := by unfold Ctx.setX; split <;> rfl
@[simp] theorem Ctx.setX_stages (c : Ctx) (n : Nat) (v : Dword) : (c.setX n v).stages = c.stages := by unfold Ctx.setX; split <;> rfl
@[simp] theorem Ctx.setX_pipe (c : Ctx) (n : Nat) (v : Dword) : (c.setX n v).pipe = c.pipe := by unfold Ctx.setX; split <;> rfl
@[simp] theorem Ctx.setX_sweep (c : Ctx) (n : Nat) (v : Dword) : (c.setX n v).sweep = c.sweep := by unfold Ctx.setX; split <;> rfl
@[simp] theorem Ctx.setX_kern (c : Ctx) (n : Nat) (v : Dword) : (c.setX n v).kern = c.kern := by unfold Ctx.setX; split <;> rfl
@[simp] theorem Ctx.setX_wdog (c : Ctx) (n : Nat) (v : Dword) : (c.setX n v).wdog = c.wdog := by unfold Ctx.setX; split <;> rfl
@[simp] theorem Ctx.setX_matrix (c : Ctx) (n : Nat) (v : Dword) : (c.setX n v).matrix = c.matrix := by unfold Ctx.setX; split <;> rfl
@[simp] theorem Ctx.setX_spire (c : Ctx) (n : Nat) (v : Dword) : (c.setX n v).spire = c.spire := by unfold Ctx.setX; split <;> rfl
@[simp] theorem Ctx.setX_g (c : Ctx) (n : Nat) (v : Dword) : (c.setX n v).g = c.g := by unfold Ctx.setX; split <;> rfl
@[simp] theorem Ctx.setX_i (c : Ctx) (n : Nat) (v : Dword) : (c.setX n v).i = c.i := by unfold Ctx.setX; split <;> rfl
@[simp] theorem Ctx.setX_v (c : Ctx) (n : Nat) (v : Dword) : (c.setX n v).v = c.v := by unfold Ctx.setX; split <;> rfl
@[simp] theorem Ctx.setX_aq (c : Ctx) (n : Nat) (v : Dword) : (c.setX n v).aq = c.aq := by unfold Ctx.setX; split <;> rfl
@[simp] theorem Ctx.setX_dq (c : Ctx) (n : Nat) (v : Dword) : (c.setX n v).dq = c.dq := by unfold Ctx.setX; split <;> rfl
@[simp] theorem Ctx.setX_lockHeld (c : Ctx) (n : Nat) (v : Dword) : (c.setX n v).lockHeld = c.lockHeld := by unfold Ctx.setX; split <;> rfl
@[simp] theorem Ctx.setX_gports (c : Ctx) (n : Nat) (v : Dword) : (c.setX n v).gports = c.gports := by unfold Ctx.setX; split <;> rfl
@[simp] theorem Ctx.setX_tokens (c : Ctx) (n : Nat) (v : Dword) : (c.setX n v).tokens = c.tokens := by unfold Ctx.setX; split <;> rfl
@[simp] theorem Ctx.setX_sbar (c : Ctx) (n : Nat) (v : Dword) : (c.setX n v).sbar = c.sbar := by unfold Ctx.setX; split <;> rfl
@[simp] theorem Ctx.setX_preempt (c : Ctx) (n : Nat) (v : Dword) : (c.setX n v).preempt = c.preempt := by unfold Ctx.setX; split <;> rfl
@[simp] theorem Ctx.setX_frozen (c : Ctx) (n : Nat) (v : Dword) : (c.setX n v).frozen = c.frozen := by unfold Ctx.setX; split <;> rfl
@[simp] theorem Ctx.setX_halted (c : Ctx) (n : Nat) (v : Dword) : (c.setX n v).halted = c.halted := by unfold Ctx.setX; split <;> rfl
@[simp] theorem Ctx.setF_launch (c : Ctx) (n : Nat) (v : Dword) : (c.setF n v).launch = c.launch := rfl
@[simp] theorem Ctx.setF_rank (c : Ctx) (n : Nat) (v : Dword) : (c.setF n v).rank = c.rank := rfl
@[simp] theorem Ctx.setF_task (c : Ctx) (n : Nat) (v : Dword) : (c.setF n v).task = c.task := rfl
@[simp] theorem Ctx.setF_hw (c : Ctx) (n : Nat) (v : Dword) : (c.setF n v).hw = c.hw := rfl
@[simp] theorem Ctx.setF_split (c : Ctx) (n : Nat) (v : Dword) : (c.setF n v).split = c.split := rfl
@[simp] theorem Ctx.setF_pc (c : Ctx) (n : Nat) (v : Dword) : (c.setF n v).pc = c.pc := rfl
@[simp] theorem Ctx.setF_x (c : Ctx) (n : Nat) (v : Dword) : (c.setF n v).x = c.x := rfl
@[simp] theorem Ctx.setF_fcsr (c : Ctx) (n : Nat) (v : Dword) : (c.setF n v).fcsr = c.fcsr := rfl
@[simp] theorem Ctx.setF_mmode (c : Ctx) (n : Nat) (v : Dword) : (c.setF n v).mmode = c.mmode := rfl
@[simp] theorem Ctx.setF_resv (c : Ctx) (n : Nat) (v : Dword) : (c.setF n v).resv = c.resv := rfl
@[simp] theorem Ctx.setF_mepc (c : Ctx) (n : Nat) (v : Dword) : (c.setF n v).mepc = c.mepc := rfl
@[simp] theorem Ctx.setF_mcause (c : Ctx) (n : Nat) (v : Dword) : (c.setF n v).mcause = c.mcause := rfl
@[simp] theorem Ctx.setF_mtval (c : Ctx) (n : Nat) (v : Dword) : (c.setF n v).mtval = c.mtval := rfl
@[simp] theorem Ctx.setF_mtvec (c : Ctx) (n : Nat) (v : Dword) : (c.setF n v).mtvec = c.mtvec := rfl
@[simp] theorem Ctx.setF_mstatus (c : Ctx) (n : Nat) (v : Dword) : (c.setF n v).mstatus = c.mstatus := rfl
@[simp] theorem Ctx.setF_kevent (c : Ctx) (n : Nat) (v : Dword) : (c.setF n v).kevent = c.kevent := rfl
@[simp] theorem Ctx.setF_stopped (c : Ctx) (n : Nat) (v : Dword) : (c.setF n v).stopped = c.stopped := rfl
@[simp] theorem Ctx.setF_ie (c : Ctx) (n : Nat) (v : Dword) : (c.setF n v).ie = c.ie := rfl
@[simp] theorem Ctx.setF_pend (c : Ctx) (n : Nat) (v : Dword) : (c.setF n v).pend = c.pend := rfl
@[simp] theorem Ctx.setF_ieWait (c : Ctx) (n : Nat) (v : Dword) : (c.setF n v).ieWait = c.ieWait := rfl
@[simp] theorem Ctx.setF_ktvec (c : Ctx) (n : Nat) (v : Dword) : (c.setF n v).ktvec = c.ktvec := rfl
@[simp] theorem Ctx.setF_kepc (c : Ctx) (n : Nat) (v : Dword) : (c.setF n v).kepc = c.kepc := rfl
@[simp] theorem Ctx.setF_cbase (c : Ctx) (n : Nat) (v : Dword) : (c.setF n v).cbase = c.cbase := rfl
@[simp] theorem Ctx.setF_cbound (c : Ctx) (n : Nat) (v : Dword) : (c.setF n v).cbound = c.cbound := rfl
@[simp] theorem Ctx.setF_cceil (c : Ctx) (n : Nat) (v : Dword) : (c.setF n v).cceil = c.cceil := rfl
@[simp] theorem Ctx.setF_kstat (c : Ctx) (n : Nat) (v : Dword) : (c.setF n v).kstat = c.kstat := rfl
@[simp] theorem Ctx.setF_kset (c : Ctx) (n : Nat) (v : Dword) : (c.setF n v).kset = c.kset := rfl
@[simp] theorem Ctx.setF_sysb (c : Ctx) (n : Nat) (v : Dword) : (c.setF n v).sysb = c.sysb := rfl
@[simp] theorem Ctx.setF_mwdog (c : Ctx) (n : Nat) (v : Dword) : (c.setF n v).mwdog = c.mwdog := rfl
@[simp] theorem Ctx.setF_mpreq (c : Ctx) (n : Nat) (v : Dword) : (c.setF n v).mpreq = c.mpreq := rfl
@[simp] theorem Ctx.setF_profile11 (c : Ctx) (n : Nat) (v : Dword) : (c.setF n v).profile11 = c.profile11 := rfl
@[simp] theorem Ctx.setF_wait (c : Ctx) (n : Nat) (v : Dword) : (c.setF n v).wait = c.wait := rfl
@[simp] theorem Ctx.setF_busy (c : Ctx) (n : Nat) (v : Dword) : (c.setF n v).busy = c.busy := rfl
@[simp] theorem Ctx.setF_squash (c : Ctx) (n : Nat) (v : Dword) : (c.setF n v).squash = c.squash := rfl
@[simp] theorem Ctx.setF_kres (c : Ctx) (n : Nat) (v : Dword) : (c.setF n v).kres = c.kres := rfl
@[simp] theorem Ctx.setF_polders (c : Ctx) (n : Nat) (v : Dword) : (c.setF n v).polders = c.polders := rfl
@[simp] theorem Ctx.setF_descs (c : Ctx) (n : Nat) (v : Dword) : (c.setF n v).descs = c.descs := rfl
@[simp] theorem Ctx.setF_sb (c : Ctx) (n : Nat) (v : Dword) : (c.setF n v).sb = c.sb := rfl
@[simp] theorem Ctx.setF_seq (c : Ctx) (n : Nat) (v : Dword) : (c.setF n v).seq = c.seq := rfl
@[simp] theorem Ctx.setF_used (c : Ctx) (n : Nat) (v : Dword) : (c.setF n v).used = c.used := rfl
@[simp] theorem Ctx.setF_recent (c : Ctx) (n : Nat) (v : Dword) : (c.setF n v).recent = c.recent := rfl
@[simp] theorem Ctx.setF_stages (c : Ctx) (n : Nat) (v : Dword) : (c.setF n v).stages = c.stages := rfl
@[simp] theorem Ctx.setF_pipe (c : Ctx) (n : Nat) (v : Dword) : (c.setF n v).pipe = c.pipe := rfl
@[simp] theorem Ctx.setF_sweep (c : Ctx) (n : Nat) (v : Dword) : (c.setF n v).sweep = c.sweep := rfl
@[simp] theorem Ctx.setF_kern (c : Ctx) (n : Nat) (v : Dword) : (c.setF n v).kern = c.kern := rfl
@[simp] theorem Ctx.setF_wdog (c : Ctx) (n : Nat) (v : Dword) : (c.setF n v).wdog = c.wdog := rfl
@[simp] theorem Ctx.setF_matrix (c : Ctx) (n : Nat) (v : Dword) : (c.setF n v).matrix = c.matrix := rfl
@[simp] theorem Ctx.setF_spire (c : Ctx) (n : Nat) (v : Dword) : (c.setF n v).spire = c.spire := rfl
@[simp] theorem Ctx.setF_g (c : Ctx) (n : Nat) (v : Dword) : (c.setF n v).g = c.g := rfl
@[simp] theorem Ctx.setF_i (c : Ctx) (n : Nat) (v : Dword) : (c.setF n v).i = c.i := rfl
@[simp] theorem Ctx.setF_v (c : Ctx) (n : Nat) (v : Dword) : (c.setF n v).v = c.v := rfl
@[simp] theorem Ctx.setF_aq (c : Ctx) (n : Nat) (v : Dword) : (c.setF n v).aq = c.aq := rfl
@[simp] theorem Ctx.setF_dq (c : Ctx) (n : Nat) (v : Dword) : (c.setF n v).dq = c.dq := rfl
@[simp] theorem Ctx.setF_lockHeld (c : Ctx) (n : Nat) (v : Dword) : (c.setF n v).lockHeld = c.lockHeld := rfl
@[simp] theorem Ctx.setF_gports (c : Ctx) (n : Nat) (v : Dword) : (c.setF n v).gports = c.gports := rfl
@[simp] theorem Ctx.setF_tokens (c : Ctx) (n : Nat) (v : Dword) : (c.setF n v).tokens = c.tokens := rfl
@[simp] theorem Ctx.setF_sbar (c : Ctx) (n : Nat) (v : Dword) : (c.setF n v).sbar = c.sbar := rfl
@[simp] theorem Ctx.setF_preempt (c : Ctx) (n : Nat) (v : Dword) : (c.setF n v).preempt = c.preempt := rfl
@[simp] theorem Ctx.setF_frozen (c : Ctx) (n : Nat) (v : Dword) : (c.setF n v).frozen = c.frozen := rfl
@[simp] theorem Ctx.setF_halted (c : Ctx) (n : Nat) (v : Dword) : (c.setF n v).halted = c.halted := rfl

/-! ## Reading back -/

@[simp] theorem State.sp_setSp_self (s : State) (k : Nat) (p : Sp) : (s.setSp k p).sp k = p := by simp [State.sp, State.setSp]

theorem State.sp_setSp_other (s : State) {k j : Nat} (h : j ≠ k) (p : Sp) : (s.setSp k p).sp j = s.sp j := by
  simp [State.sp, State.setSp, KMap.get_ins_other h]

@[simp] theorem State.sp_modSp_self (s : State) (k : Nat) (f : Sp → Sp) : (s.modSp k f).sp k = f (s.sp k) := by simp [State.modSp]

theorem State.sp_modSp_other (s : State) {k j : Nat} (h : j ≠ k) (f : Sp → Sp) : (s.modSp k f).sp j = s.sp j := s.sp_setSp_other h _

@[simp] theorem State.ctx_setCtx_self (s : State) (k : Nat) (c : Ctx) : (s.setCtx k c).ctx k = some c := by simp [State.ctx, State.setCtx]

theorem State.ctx_setCtx_other (s : State) {k j : Nat} (h : j ≠ k) (c : Ctx) : (s.setCtx k c).ctx j = s.ctx j := by
  simp [State.ctx, State.setCtx, State.sp_modSp_other s h]

@[simp] theorem State.ctx_modCtx_self (s : State) (k : Nat) (f : Ctx → Ctx) : (s.modCtx k f).ctx k = (s.ctx k).map f := by
  unfold State.modCtx
  split
  · rename_i h; simp [h]
  · rename_i c h; simp [h]

theorem State.sp_modCtx_other (s : State) {k j : Nat} (h : j ≠ k) (f : Ctx → Ctx) : (s.modCtx k f).sp j = s.sp j := by
  unfold State.modCtx
  split
  · rfl
  · exact State.sp_modSp_other s h _

theorem State.ctx_modCtx_other (s : State) {k j : Nat} (h : j ≠ k) (f : Ctx → Ctx) : (s.modCtx k f).ctx j = s.ctx j := by
  simp [State.ctx, State.sp_modCtx_other s h]

/-- A change of the context of one SP changes nothing but that context. -/
theorem State.sp_modCtx_self (s : State) (k : Nat) (f : Ctx → Ctx) : (s.modCtx k f).sp k = { s.sp k with ctx := (s.ctx k).map f } := by
  unfold State.modCtx
  split
  · rename_i h; simp only [h, Option.map_none]; unfold State.ctx at h; rw [← h]
  · rename_i c h; simp [h, State.setCtx]

@[simp] theorem Ctx.xr_zero (c : Ctx) : c.xr 0 = 0 := rfl

theorem Ctx.xr_setX (c : Ctx) (n i : Nat) (v : Dword) : (c.setX n v).xr i = if i = n ∧ n ≠ 0 then v else c.xr i := by
  unfold Ctx.setX
  by_cases hn : n = 0
  · simp [hn]
  · simp only [hn, if_false]
    unfold Ctx.xr
    by_cases hi : i = n
    · subst hi; simp [hn]
    · simp [hi, KMap.get_ins_other hi]

theorem Ctx.fr_setF (c : Ctx) (n i : Nat) (v : Dword) : (c.setF n v).fr i = if i = n then v else c.fr i := by
  simp [Ctx.fr, Ctx.setF, KMap.get_ins]

@[simp] theorem Ctx.xr_advance (c : Ctx) (n i : Nat) : (c.advance n).xr i = c.xr i := rfl

@[simp] theorem Ctx.fr_advance (c : Ctx) (n i : Nat) : (c.advance n).fr i = c.fr i := rfl

/-! ## A change of several SPs -/

/-- The contexts of several SPs changed, each by a function of its own. -/
theorem State.foldl_modCtx (f : Nat → Ctx → Ctx) (l : List Nat) (hl : l.Nodup) (s : State) :
    ∀ k, (l.foldl (fun t k => t.modCtx k (f k)) s).sp k = if k ∈ l then { s.sp k with ctx := (s.ctx k).map (f k) } else s.sp k := by
  induction l generalizing s with
  | nil => intro k; simp
  | cons a l ih =>
    intro k
    have hn := List.nodup_cons.mp hl
    rw [List.foldl_cons, ih hn.2]
    by_cases hka : k = a
    · subst hka
      simp only [hn.1, if_false, List.mem_cons, true_or, if_true]
      exact State.sp_modCtx_self s k _
    · simp only [List.mem_cons, hka, false_or, State.sp_modCtx_other s hka, State.ctx_modCtx_other s hka]

/-- Such a change touches nothing but the SPs. -/
theorem State.foldl_modCtx_sps (f : Nat → Ctx → Ctx) (l : List Nat) (s : State) :
    l.foldl (fun t k => t.modCtx k (f k)) s = { s with sps := (l.foldl (fun t k => t.modCtx k (f k)) s).sps } := by
  induction l generalizing s with
  | nil => rfl
  | cons a l ih =>
    rw [List.foldl_cons, ih]
    have h : s.modCtx a (f a) = { s with sps := (s.modCtx a (f a)).sps } := by unfold State.modCtx; split <;> rfl
    rw [h]

end Sys2Proof.Machine
end

