-- ==== Sys2Proof/Laws/Claims.lean ====
section
/-! SUPPORT. The shared operations in the words of the claims: what each of them changes, once. -/

namespace Sys2Proof.Machine

/-- Two's complement as the model reads it, and as the word type does. -/
theorem sint_eq {w : Nat} (h : 0 < w) (v : Nat) : sint w v = (BitVec.ofNat w v).toInt := by
  obtain ⟨n, rfl⟩ : ∃ n, w = n + 1 := ⟨w - 1, by omega⟩
  unfold sint BitVec.toInt
  simp only [BitVec.toNat_ofNat, Nat.add_sub_cancel, pow_succ]
  split <;> split <;> first | rfl | omega

/-- The fold over the SPs of the bundle changes each of their contexts once, and nothing else. -/
theorem eachIssuing_foldl (s : State) (h : s.issue.Nodup) (f : Nat → Ctx → Ctx) :
    EachIssuing s f (s.issue.foldl (fun t k => t.modCtx k (f k)) s) :=
  ⟨State.foldl_modCtx_sps f s.issue s, State.foldl_modCtx f s.issue h s⟩

/-- A change that leaves every context alone. -/
theorem eachIssuing_refl (s : State) : EachIssuing s (fun _ c => c) s := by
  refine ⟨rfl, fun k => ?_⟩
  split
  · have : (s.ctx k).map (fun c => c) = (s.sp k).ctx := by simp [State.ctx]
    rw [this]
  · rfl

/-- Two ways to say the same change. -/
theorem EachIssuing.congr {s t : State} {f g : Nat → Ctx → Ctx} (h : EachIssuing s f t) (e : ∀ k c, f k c = g k c) : EachIssuing s g t := by
  have : f = g := by funext k c; exact e k c
  rwa [← this]

/-- The uniform operation. -/
theorem eachIssuing_uniform (s : State) (h : s.issue.Nodup) (p : Nat) (f : Nat → Ctx → Ctx) :
    EachIssuing s (fun k c => if c.kern.predOn p && c.kern.firstRound then f k c else c) (s.uniform p f) :=
  eachIssuing_foldl s h _

/-- Control flow: what the leader decides happens at every SP. -/
theorem eachIssuing_control (s : State) (h : s.issue.Nodup) (p : Nat) (f : Ctx → Kern → Kern) :
    EachIssuing s (fun _ c => match s.leader with
      | none => c
      | some (_, l) => if l.kern.predOn p && l.kern.firstRound then { c with kern := f l c.kern } else c) (s.control p f) := by
  unfold State.control
  cases hl : s.leader with
  | none => exact eachIssuing_refl s
  | some q =>
    simp only
    split
    · exact eachIssuing_foldl s h _
    · exact eachIssuing_refl s

/-- A slot whose meaning is a fold over the SPs. -/
theorem slotRule_foldl {i : Instr} {f g : State → Nat → Ctx → Ctx}
    (hi : ∀ s, exec i s = .next (s.issue.foldl (fun t k => t.modCtx k (g s k)) s)) (e : ∀ s k c, g s k c = f s k c) : SlotRule i f :=
  fun s h => ⟨_, hi s, (eachIssuing_foldl s h _).congr (e s)⟩

/-- A slot whose meaning is a uniform change. -/
theorem slotRule_uniform {i : Instr} {p : Nat} {f g : State → Nat → Ctx → Ctx} (hi : ∀ s, exec i s = .next (s.uniform p (g s)))
    (e : ∀ s k c, g s k c = f s k c) : SlotRule i (whenTrue p f) :=
  fun s h => ⟨_, hi s, (eachIssuing_uniform s h p _).congr fun k c => by simp only [whenTrue, e]⟩

/-- A slot whose results differ from cluster to cluster. -/
theorem clusterResults_of {i : Instr} {p lat : Nat} {r g : State → Nat → Ctx → Nat → Landed}
    (hi : ∀ s, exec i s = .next (clusterWrite lat p (g s) s)) (e : ∀ s k c cl, g s k c cl = r s k c cl) : ClusterResults i p lat r := by
  have h : g = r := by funext s k c cl; exact e s k c cl
  subst h
  exact slotRule_foldl hi fun s k c => rfl

/-- A change of a context leaves every SRF alone. -/
theorem State.srf_modCtx (s : State) (j : Nat) (f : Ctx → Ctx) (k : Nat) : ((s.modCtx j f).sp k).srf = (s.sp k).srf := by
  by_cases h : k = j
  · subst h; rw [State.sp_modCtx_self]
  · rw [State.sp_modCtx_other s h]

/-- So it does not matter when the SRFs are read. -/
theorem foldl_srf (g : KMap Row → Nat → Ctx → Ctx) (s0 : State) (l : List Nat) (s : State) (h : ∀ k, (s.sp k).srf = (s0.sp k).srf) :
    l.foldl (fun t k => t.modCtx k (g (t.sp k).srf k)) s = l.foldl (fun t k => t.modCtx k (g (s0.sp k).srf k)) s := by
  induction l generalizing s with
  | nil => rfl
  | cons a l ih =>
    rw [List.foldl_cons, List.foldl_cons, h a]
    exact ih _ fun k => by rw [State.srf_modCtx, h k]

/-- A V slot. -/
theorem vRule_of {i : VSlot → Instr} {fm : VSlot → VForm} {fn : VSlot → VEnv → VIn → VOut}
    (hi : ∀ o s, exec (i o) s = .next (vRun (fm o) o (fn o) s)) : VRule i fm fn :=
  fun o s h => ⟨_, hi o s, by
    unfold vRun
    rw [foldl_srf (fun m _ => vOne (fm o) o (fn o) m) s s.issue s fun _ => rfl]
    exact eachIssuing_foldl s h _⟩

/-- An integer V slot of one operand. -/
theorem vInt1_of {i : VSlot → Instr} {op : Nat} {r : (w : Nat) → BitVec w → BitVec w} (g : Nat → Nat → Nat)
    (hi : ∀ o s, exec (i o) s = .next (Machine.vInt1 op o g s))
    (h : ∀ w a, 0 < w → a < 2 ^ w → g w a % 2 ^ w = (r w (BitVec.ofNat w a)).toNat) : VInt1 i op r :=
  ⟨fun w a => g w a % 2 ^ w, h, vRule_of hi⟩

/-- An integer V slot of two operands. -/
theorem vInt2_of {i : VSlot → Instr} {op : Nat} {r : (w : Nat) → BitVec w → BitVec w → BitVec w} (g : Nat → Nat → Nat → Nat)
    (hi : ∀ o s, exec (i o) s = .next (Machine.vInt2 op o g s))
    (h : ∀ w a b, 0 < w → a < 2 ^ w → b < 2 ^ w → g w a b % 2 ^ w = (r w (BitVec.ofNat w a) (BitVec.ofNat w b)).toNat) : VInt2 i op r :=
  ⟨fun w a b => g w a b % 2 ^ w, h, vRule_of hi⟩

/-- A slot that decides control flow. -/
theorem slotRule_control {i : Instr} {p : Nat} {f : State → Ctx → Nat → Ctx → Ctx} {g : State → Ctx → Kern → Kern}
    (hi : ∀ s, exec i s = .next (s.control p (g s))) (e : ∀ s l k c, ({ c with kern := g s l c.kern } : Ctx) = f s l k c) :
    SlotRule i (whenLeads p f) :=
  fun s h => ⟨_, hi s, (eachIssuing_control s h p _).congr fun k c => by
    unfold whenLeads
    cases s.leader with
    | none => rfl
    | some q => simp only [e _ _ k]⟩

/-- A slot without any effect of its own. -/
theorem slotRule_none {i : Instr} (hi : ∀ s, exec i s = .next s) : SlotRule i fun _ _ c => c :=
  fun s _ => ⟨s, hi s, eachIssuing_refl s⟩

/-- A change of one SP. -/
theorem spStep_mod {i : Instr} {s : State} {k : Nat} (f : Sp → Sp) (h : exec i s = .next (s.modSp k f)) : SpStep i s k (f (s.sp k)) :=
  ⟨_, h, rfl, fun j => by
    by_cases e : j = k
    · subst e; simp
    · rw [State.sp_modSp_other s e, if_neg e]⟩

/-- A change of one context. -/
theorem ctxStep_set {i : Instr} {s : State} {k : Nat} {d : Ctx} (h : exec i s = .next (s.setCtx k d)) : CtxStep i s k d := spStep_mod _ h

/-- The same, from a change by a function. -/
theorem ctxStep_mod {i : Instr} {s : State} {k : Nat} {c : Ctx} (f : Ctx → Ctx) (hc : s.ctx k = some c) (h : exec i s = .next (s.modCtx k f)) :
    CtxStep i s k (f c) := ctxStep_set (by rw [h]; simp [State.modCtx, hc])

end Sys2Proof.Machine
end

