-- ==== Sys2Proof/Laws/Exec.lean ====
section
/-! SUPPORT. `exec` of an instruction is its meaning: one lemma per constructor, so that no proof unfolds the dispatch. -/

namespace Sys2Proof.Machine

@[simp] theorem exec_launch {h r} (s : State) : exec (.launch h r) s = execLaunch h r s := rfl
@[simp] theorem exec_write {h ia data} (s : State) : exec (.write h ia data) s = execWrite h ia data s := rfl
@[simp] theorem exec_read {h ia len} (s : State) : exec (.read h ia len) s = execRead h ia len s := rfl
@[simp] theorem exec_hostTransferComplete {id} (s : State) : exec (.hostTransferComplete id) s = execHostTransferComplete id s := rfl
@[simp] theorem exec_load {h ia len} (s : State) : exec (.load h ia len) s = execLoad h ia len s := rfl
@[simp] theorem exec_unload {h handle} (s : State) : exec (.unload h handle) s = execUnload h handle s := rfl
@[simp] theorem exec_cancel {h tag} (s : State) : exec (.cancel h tag) s = execCancel h tag s := rfl
@[simp] theorem exec_ack {vf seq} (s : State) : exec (.ack vf seq) s = execAck vf seq s := rfl
@[simp] theorem exec_vctInvalidMessage {h} (s : State) : exec (.vctInvalidMessage h) s = execVctInvalidMessage h s := rfl
@[simp] theorem exec_vctRetransmitTimer {vf seq} (s : State) : exec (.vctRetransmitTimer vf seq) s = execVctRetransmitTimer vf seq s := rfl
@[simp] theorem exec_partCreate {h part} (s : State) : exec (.partCreate h part) s = execPartCreate h part s := rfl
@[simp] theorem exec_partDestroy {h part} (s : State) : exec (.partDestroy h part) s = execPartDestroy h part s := rfl
@[simp] theorem exec_partSps {h part mask} (s : State) : exec (.partSps h part mask) s = execPartSps h part mask s := rfl
@[simp] theorem exec_partMem {h part base len remove} (s : State) : exec (.partMem h part base len remove) s = execPartMem h part base len remove s := rfl
@[simp] theorem exec_partArena {h part bytes} (s : State) : exec (.partArena h part bytes) s = execPartArena h part bytes s := rfl
@[simp] theorem exec_vfBind {h vf part} (s : State) : exec (.vfBind h vf part) s = execVfBind h vf part s := rfl
@[simp] theorem exec_vfUnbind {h vf} (s : State) : exec (.vfUnbind h vf) s = execVfUnbind h vf s := rfl
@[simp] theorem exec_migrateAccept {h m} (s : State) : exec (.migrateAccept h m) s = execMigrateAccept h m s := rfl
@[simp] theorem exec_migrateStart {h m} (s : State) : exec (.migrateStart h m) s = execMigrateStart h m s := rfl
@[simp] theorem exec_migrateAbort {h m} (s : State) : exec (.migrateAbort h m) s = execMigrateAbort h m s := rfl
@[simp] theorem exec_migrateRelease {h m} (s : State) : exec (.migrateRelease h m) s = execMigrateRelease h m s := rfl
@[simp] theorem exec_placementPass {part} (s : State) : exec (.placementPass part) s = execPlacementPass part s := rfl
@[simp] theorem exec_taskTake {part} (s : State) : exec (.taskTake part) s = execTaskTake part s := rfl
@[simp] theorem exec_launchRelease {id} (s : State) : exec (.launchRelease id) s = execLaunchRelease id s := rfl
@[simp] theorem exec_palloc {rd rs1 rs2} (s : State) : exec (.palloc rd rs1 rs2) s = execPalloc rd rs1 rs2 s := rfl
@[simp] theorem exec_pfree {rd rs1} (s : State) : exec (.pfree rd rs1) s = execPfree rd rs1 s := rfl
@[simp] theorem exec_pinfo {rd rs1} (s : State) : exec (.pinfo rd rs1) s = execPinfo rd rs1 s := rfl
@[simp] theorem exec_sdset {sd rs1 field} (s : State) : exec (.sdset sd rs1 field) s = execSdset sd rs1 field s := rfl
@[simp] theorem exec_sdget {rd ss field} (s : State) : exec (.sdget rd ss field) s = execSdget rd ss field s := rfl
@[simp] theorem exec_sdcopy {sd ss} (s : State) : exec (.sdcopy sd ss) s = execSdcopy sd ss s := rfl
@[simp] theorem exec_eosClose {sp handle} (s : State) : exec (.eosClose sp handle) s = execEosClose sp handle s := rfl
@[simp] theorem exec_sload {rd sd rs1 rs2} (s : State) : exec (.sload rd sd rs1 rs2) s = execSload rd sd rs1 rs2 s := rfl
@[simp] theorem exec_sstore {rd sd rs1 rs2} (s : State) : exec (.sstore rd sd rs1 rs2) s = execSstore rd sd rs1 rs2 s := rfl
@[simp] theorem exec_sgather {rd sd rs1 rs2} (s : State) : exec (.sgather rd sd rs1 rs2) s = execSgather rd sd rs1 rs2 s := rfl
@[simp] theorem exec_sscatter {rd sd rs1 rs2} (s : State) : exec (.sscatter rd sd rs1 rs2) s = execSscatter rd sd rs1 rs2 s := rfl
@[simp] theorem exec_sscadd {rd sd rs1 rs2} (s : State) : exec (.sscadd rd sd rs1 rs2) s = execSscadd rd sd rs1 rs2 s := rfl
@[simp] theorem exec_scopy {rd sd rs1 rs2} (s : State) : exec (.scopy rd sd rs1 rs2) s = execScopy rd sd rs1 rs2 s := rfl
@[simp] theorem exec_spref {rs1 rs2} (s : State) : exec (.spref rs1 rs2) s = execSpref rs1 rs2 s := rfl
@[simp] theorem exec_satomAdd {rd sd rs1 rs2} (s : State) : exec (.satomAdd rd sd rs1 rs2) s = execSatomAdd rd sd rs1 rs2 s := rfl
@[simp] theorem exec_satomSwap {rd sd rs1 rs2} (s : State) : exec (.satomSwap rd sd rs1 rs2) s = execSatomSwap rd sd rs1 rs2 s := rfl
@[simp] theorem exec_satomCas {rd sd rs1 rs2} (s : State) : exec (.satomCas rd sd rs1 rs2) s = execSatomCas rd sd rs1 rs2 s := rfl
@[simp] theorem exec_satomMin {rd sd rs1 rs2} (s : State) : exec (.satomMin rd sd rs1 rs2) s = execSatomMin rd sd rs1 rs2 s := rfl
@[simp] theorem exec_satomMax {rd sd rs1 rs2} (s : State) : exec (.satomMax rd sd rs1 rs2) s = execSatomMax rd sd rs1 rs2 s := rfl
@[simp] theorem exec_satomAnd {rd sd rs1 rs2} (s : State) : exec (.satomAnd rd sd rs1 rs2) s = execSatomAnd rd sd rs1 rs2 s := rfl
@[simp] theorem exec_satomOr {rd sd rs1 rs2} (s : State) : exec (.satomOr rd sd rs1 rs2) s = execSatomOr rd sd rs1 rs2 s := rfl
@[simp] theorem exec_krun {rd rs1 rs2} (s : State) : exec (.krun rd rs1 rs2) s = execKrun rd rs1 rs2 s := rfl
@[simp] theorem exec_kstage {rd rs1 rs2} (s : State) : exec (.kstage rd rs1 rs2) s = execKstage rd rs1 rs2 s := rfl
@[simp] theorem exec_kpipe {rd rs1 rs2} (s : State) : exec (.kpipe rd rs1 rs2) s = execKpipe rd rs1 rs2 s := rfl
@[simp] theorem exec_khalt {rd} (s : State) : exec (.khalt rd) s = execKhalt rd s := rfl
@[simp] theorem exec_svadd {rd rs1 rs2} (s : State) : exec (.svadd rd rs1 rs2) s = execSvadd rd rs1 rs2 s := rfl
@[simp] theorem exec_svmul {rd rs1 rs2} (s : State) : exec (.svmul rd rs1 rs2) s = execSvmul rd rs1 rs2 s := rfl
@[simp] theorem exec_svfma {rd rs1 rs2} (s : State) : exec (.svfma rd rs1 rs2) s = execSvfma rd rs1 rs2 s := rfl
@[simp] theorem exec_svcvt {rd rs1 rs2} (s : State) : exec (.svcvt rd rs1 rs2) s = execSvcvt rd rs1 rs2 s := rfl
@[simp] theorem exec_svscale {rd rs1 rs2} (s : State) : exec (.svscale rd rs1 rs2) s = execSvscale rd rs1 rs2 s := rfl
@[simp] theorem exec_svmax {rd rs1 rs2} (s : State) : exec (.svmax rd rs1 rs2) s = execSvmax rd rs1 rs2 s := rfl
@[simp] theorem exec_svmin {rd rs1 rs2} (s : State) : exec (.svmin rd rs1 rs2) s = execSvmin rd rs1 rs2 s := rfl
@[simp] theorem exec_svcopy {rd rs1 rs2} (s : State) : exec (.svcopy rd rs1 rs2) s = execSvcopy rd rs1 rs2 s := rfl
@[simp] theorem exec_svfill {rd rs1 rs2} (s : State) : exec (.svfill rd rs1 rs2) s = execSvfill rd rs1 rs2 s := rfl
@[simp] theorem exec_sweepIteration {sp} (s : State) : exec (.sweepIteration sp) s = execSweepIteration sp s := rfl
@[simp] theorem exec_mload {rd rs1 rs2} (s : State) : exec (.mload rd rs1 rs2) s = execMload rd rs1 rs2 s := rfl
@[simp] theorem exec_mloadComplete {sp} (s : State) : exec (.mloadComplete sp) s = execMloadComplete sp s := rfl
@[simp] theorem exec_spmerge {rd rs1 rs2} (s : State) : exec (.spmerge rd rs1 rs2) s = execSpmerge rd rs1 rs2 s := rfl
@[simp] theorem exec_spdrain {rd rs2} (s : State) : exec (.spdrain rd rs2) s = execSpdrain rd rs2 s := rfl
@[simp] theorem exec_awinit {rd rs1 rs2} (s : State) : exec (.awinit rd rs1 rs2) s = execAwinit rd rs1 rs2 s := rfl
@[simp] theorem exec_await {rd rs1 rs2} (s : State) : exec (.await rd rs1 rs2) s = execAwait rd rs1 rs2 s := rfl
@[simp] theorem exec_acq {rd rs1 rs2} (s : State) : exec (.acq rd rs1 rs2) s = execAcq rd rs1 rs2 s := rfl
@[simp] theorem exec_rel {rd rs1} (s : State) : exec (.rel rd rs1) s = execRel rd rs1 s := rfl
@[simp] theorem exec_tacq {rd rs1 rs2} (s : State) : exec (.tacq rd rs1 rs2) s = execTacq rd rs1 rs2 s := rfl
@[simp] theorem exec_trel {rd rs1} (s : State) : exec (.trel rd rs1) s = execTrel rd rs1 s := rfl
@[simp] theorem exec_fencex {rd rs1} (s : State) : exec (.fencex rd rs1) s = execFencex rd rs1 s := rfl
@[simp] theorem exec_swait {rd rs1} (s : State) : exec (.swait rd rs1) s = execSwait rd rs1 s := rfl
@[simp] theorem exec_sbar {rd rs1} (s : State) : exec (.sbar rd rs1) s = execSbar rd rs1 s := rfl
@[simp] theorem exec_spawn {rd rs1 rs2} (s : State) : exec (.spawn rd rs1 rs2) s = execSpawn rd rs1 rs2 s := rfl
@[simp] theorem exec_texit (s : State) : exec (.texit) s = execTexit s := rfl
@[simp] theorem exec_tsplit {rd rs1} (s : State) : exec (.tsplit rd rs1) s = execTsplit rd rs1 s := rfl
@[simp] theorem exec_treseed {rd} (s : State) : exec (.treseed rd) s = execTreseed rd s := rfl
@[simp] theorem exec_gsync {rd rs1} (s : State) : exec (.gsync rd rs1) s = execGsync rd rs1 s := rfl
@[simp] theorem exec_syield {rd} (s : State) : exec (.syield rd) s = execSyield rd s := rfl
@[simp] theorem exec_sstat {rd rs1} (s : State) : exec (.sstat rd rs1) s = execSstat rd rs1 s := rfl
@[simp] theorem exec_controllerWaitEnd {sp} (s : State) : exec (.controllerWaitEnd sp) s = execControllerWaitEnd sp s := rfl
@[simp] theorem exec_rvIntegerAlu {c op w rd rs1 src} (s : State) : exec (.rvIntegerAlu c op w rd rs1 src) s = execRvIntegerAlu c op w rd rs1 src s := rfl
@[simp] theorem exec_rvMultiply {op rd rs1 rs2} (s : State) : exec (.rvMultiply op rd rs1 rs2) s = execRvMultiply op rd rs1 rs2 s := rfl
@[simp] theorem exec_rvDivide {op w rd rs1 rs2} (s : State) : exec (.rvDivide op w rd rs1 rs2) s = execRvDivide op w rd rs1 rs2 s := rfl
@[simp] theorem exec_rvLoad {c k rd rs1 off} (s : State) : exec (.rvLoad c k rd rs1 off) s = execRvLoad c k rd rs1 off s := rfl
@[simp] theorem exec_rvStore {c k rs2 rs1 off} (s : State) : exec (.rvStore c k rs2 rs1 off) s = execRvStore c k rs2 rs1 off s := rfl
@[simp] theorem exec_rvFloatOp {op dbl rd rs1 rs2 rs3 rm} (s : State) : exec (.rvFloatOp op dbl rd rs1 rs2 rs3 rm) s = execRvFloatOp op dbl rd rs1 rs2 rs3 rm s := rfl
@[simp] theorem exec_rvFdivFsqrt {sqrt dbl rd rs1 rs2 rm} (s : State) : exec (.rvFdivFsqrt sqrt dbl rd rs1 rs2 rm) s = execRvFdivFsqrt sqrt dbl rd rs1 rs2 rm s := rfl
@[simp] theorem exec_rvBranch {c k rs1 rs2 off} (s : State) : exec (.rvBranch c k rs1 rs2 off) s = execRvBranch c k rs1 rs2 off s := rfl
@[simp] theorem exec_jal {c rd off} (s : State) : exec (.jal c rd off) s = execJal c rd off s := rfl
@[simp] theorem exec_jalr {c rd rs1 off} (s : State) : exec (.jalr c rd rs1 off) s = execJalr c rd rs1 off s := rfl
@[simp] theorem exec_fence {ii bits} (s : State) : exec (.fence ii bits) s = execFence ii bits s := rfl
@[simp] theorem exec_lr {d aqrl rd rs1} (s : State) : exec (.lr d aqrl rd rs1) s = execLr d aqrl rd rs1 s := rfl
@[simp] theorem exec_sc {d aqrl rd rs1 rs2} (s : State) : exec (.sc d aqrl rd rs1 rs2) s = execSc d aqrl rd rs1 rs2 s := rfl
@[simp] theorem exec_rvAmo {op d aqrl rd rs1 rs2} (s : State) : exec (.rvAmo op d aqrl rd rs1 rs2) s = execRvAmo op d aqrl rd rs1 rs2 s := rfl
@[simp] theorem exec_rvCsrAccess {op imm csr rd src} (s : State) : exec (.rvCsrAccess op imm csr rd src) s = execRvCsrAccess op imm csr rd src s := rfl
@[simp] theorem exec_ecall (s : State) : exec (.ecall) s = execEcall s := rfl
@[simp] theorem exec_ebreak {c} (s : State) : exec (.ebreak c) s = execEbreak c s := rfl
@[simp] theorem exec_kstatusKres {sp} (s : State) : exec (.kstatusKres sp) s = execKstatusKres sp s := rfl
@[simp] theorem exec_kstatusKkill {sp} (s : State) : exec (.kstatusKkill sp) s = execKstatusKkill sp s := rfl
@[simp] theorem exec_kstatusIeWrite {sp v} (s : State) : exec (.kstatusIeWrite sp v) s = execKstatusIeWrite sp v s := rfl
@[simp] theorem exec_kstatusPendClear {sp} (s : State) : exec (.kstatusPendClear sp) s = execKstatusPendClear sp s := rfl
@[simp] theorem exec_kstatClear {sp mask} (s : State) : exec (.kstatClear sp mask) s = execKstatClear sp mask s := rfl
@[simp] theorem exec_cboundWrite {sp v} (s : State) : exec (.cboundWrite sp v) s = execCboundWrite sp v s := rfl
@[simp] theorem exec_mpreqWrite {sp} (s : State) : exec (.mpreqWrite sp) s = execMpreqWrite sp s := rfl
@[simp] theorem exec_keventDelivery {sp} (s : State) : exec (.keventDelivery sp) s = execKeventDelivery sp s := rfl
@[simp] theorem exec_scoreboardIssue {sp} (s : State) : exec (.scoreboardIssue sp) s = execScoreboardIssue sp s := rfl
@[simp] theorem exec_towerRendezvous {sp} (s : State) : exec (.towerRendezvous sp) s = execTowerRendezvous sp s := rfl
@[simp] theorem exec_copyBeatSend {sp seq} (s : State) : exec (.copyBeatSend sp seq) s = execCopyBeatSend sp seq s := rfl
@[simp] theorem exec_copyBeatCommit {acc} (s : State) : exec (.copyBeatCommit acc) s = execCopyBeatCommit acc s := rfl
@[simp] theorem exec_kcopyQueueIssue {sp} (s : State) : exec (.kcopyQueueIssue sp) s = execKcopyQueueIssue sp s := rfl
@[simp] theorem exec_kernelCommandComplete {sp} (s : State) : exec (.kernelCommandComplete sp) s = execKernelCommandComplete sp s := rfl
@[simp] theorem exec_bundleIssue {sp} (s : State) : exec (.bundleIssue sp) s = execBundleIssue sp s := rfl
@[simp] theorem exec_resultLanding {sp} (s : State) : exec (.resultLanding sp) s = execResultLanding sp s := rfl
@[simp] theorem exec_loopBackEdge {sp} (s : State) : exec (.loopBackEdge sp) s = execLoopBackEdge sp s := rfl
@[simp] theorem exec_branchTransfer {sp} (s : State) : exec (.branchTransfer sp) s = execBranchTransfer sp s := rfl
@[simp] theorem exec_dikeRelease {part entry} (s : State) : exec (.dikeRelease part entry) s = execDikeRelease part entry s := rfl
@[simp] theorem exec_towerLineRelease {sp} (s : State) : exec (.towerLineRelease sp) s = execTowerLineRelease sp s := rfl
@[simp] theorem exec_arbiterDecision {sp} (s : State) : exec (.arbiterDecision sp) s = execArbiterDecision sp s := rfl
@[simp] theorem exec_watchdogExpiry {sp} (s : State) : exec (.watchdogExpiry sp) s = execWatchdogExpiry sp s := rfl
@[simp] theorem exec_aqSend {sp cluster} (s : State) : exec (.aqSend sp cluster) s = execAqSend sp cluster s := rfl
@[simp] theorem exec_dqLand {acc} (s : State) : exec (.dqLand acc) s = execDqLand acc s := rfl
@[simp] theorem exec_callQueueStart {sp} (s : State) : exec (.callQueueStart sp) s = execCallQueueStart sp s := rfl
@[simp] theorem exec_accUpdateLanding {sp} (s : State) : exec (.accUpdateLanding sp) s = execAccUpdateLanding sp s := rfl
@[simp] theorem exec_routineRetire {sp} (s : State) : exec (.routineRetire sp) s = execRoutineRetire sp s := rfl
@[simp] theorem exec_lockRound {sp} (s : State) : exec (.lockRound sp) s = execLockRound sp s := rfl
@[simp] theorem exec_spireRecordIntake {sp} (s : State) : exec (.spireRecordIntake sp) s = execSpireRecordIntake sp s := rfl
@[simp] theorem exec_spireRunWritten {sp} (s : State) : exec (.spireRunWritten sp) s = execSpireRunWritten sp s := rfl
@[simp] theorem exec_spireMergePass {sp} (s : State) : exec (.spireMergePass sp) s = execSpireMergePass sp s := rfl
@[simp] theorem exec_spireEmit {sp} (s : State) : exec (.spireEmit sp) s = execSpireEmit sp s := rfl
@[simp] theorem exec_spireComplete {sp} (s : State) : exec (.spireComplete sp) s = execSpireComplete sp s := rfl
@[simp] theorem exec_rangeMissServe {sp} (s : State) : exec (.rangeMissServe sp) s = execRangeMissServe sp s := rfl
@[simp] theorem exec_walkStart {die} (s : State) : exec (.walkStart die) s = execWalkStart die s := rfl
@[simp] theorem exec_walkEnd {die walk} (s : State) : exec (.walkEnd die walk) s = execWalkEnd die walk s := rfl
@[simp] theorem exec_faultResolve {part id} (s : State) : exec (.faultResolve part id) s = execFaultResolve part id s := rfl
@[simp] theorem exec_faultCancel {part id} (s : State) : exec (.faultCancel part id) s = execFaultCancel part id s := rfl
@[simp] theorem exec_tlbInvalidate {part base len} (s : State) : exec (.tlbInvalidate part base len) s = execTlbInvalidate part base len s := rfl
@[simp] theorem exec_sliceApply {acc} (s : State) : exec (.sliceApply acc) s = execSliceApply acc s := rfl
@[simp] theorem exec_packetReceive {port hdr data tail} (s : State) : exec (.packetReceive port hdr data tail) s = execPacketReceive port hdr data tail s := rfl
@[simp] theorem exec_linkReplay {port} (s : State) : exec (.linkReplay port) s = execLinkReplay port s := rfl
@[simp] theorem exec_linkTraining {port delay} (s : State) : exec (.linkTraining port delay) s = execLinkTraining port delay s := rfl
@[simp] theorem exec_portcfgWrite {port v} (s : State) : exec (.portcfgWrite port v) s = execPortcfgWrite port v s := rfl
@[simp] theorem exec_homeBeatApply {k} (s : State) : exec (.homeBeatApply k) s = execHomeBeatApply k s := rfl
@[simp] theorem exec_beatAck {k} (s : State) : exec (.beatAck k) s = execBeatAck k s := rfl
@[simp] theorem exec_beatResendTimeout {engine seq} (s : State) : exec (.beatResendTimeout engine seq) s = execBeatResendTimeout engine seq s := rfl
@[simp] theorem exec_tokenRequest {k} (s : State) : exec (.tokenRequest k) s = execTokenRequest k s := rfl
@[simp] theorem exec_tokenReply {k} (s : State) : exec (.tokenReply k) s = execTokenReply k s := rfl
@[simp] theorem exec_tokenRetry {sp} (s : State) : exec (.tokenRetry sp) s = execTokenRetry sp s := rfl
@[simp] theorem exec_tacqTimeout {sp} (s : State) : exec (.tacqTimeout sp) s = execTacqTimeout sp s := rfl
@[simp] theorem exec_scaleoutFrameReceive {pair fcsOk d} (s : State) : exec (.scaleoutFrameReceive pair fcsOk d) s = execScaleoutFrameReceive pair fcsOk d s := rfl
@[simp] theorem exec_selectiveAckSend {pair} (s : State) : exec (.selectiveAckSend pair) s = execSelectiveAckSend pair s := rfl
@[simp] theorem exec_selectiveAckReceive {pair seq bitmap} (s : State) : exec (.selectiveAckReceive pair seq bitmap) s = execSelectiveAckReceive pair seq bitmap s := rfl
@[simp] theorem exec_frameResendTimeout {pair seq} (s : State) : exec (.frameResendTimeout pair seq) s = execFrameResendTimeout pair seq s := rfl
@[simp] theorem exec_preemptRequest {sp} (s : State) : exec (.preemptRequest sp) s = execPreemptRequest sp s := rfl
@[simp] theorem exec_kernelHalt {sp} (s : State) : exec (.kernelHalt sp) s = execKernelHalt sp s := rfl
@[simp] theorem exec_matrixDrainLimit {sp} (s : State) : exec (.matrixDrainLimit sp) s = execMatrixDrainLimit sp s := rfl
@[simp] theorem exec_spirePreemptStop {sp} (s : State) : exec (.spirePreemptStop sp) s = execSpirePreemptStop sp s := rfl
@[simp] theorem exec_aqReclaim {sp} (s : State) : exec (.aqReclaim sp) s = execAqReclaim sp s := rfl
@[simp] theorem exec_contextSave {sp} (s : State) : exec (.contextSave sp) s = execContextSave sp s := rfl
@[simp] theorem exec_contextSaveComplete {sp} (s : State) : exec (.contextSaveComplete sp) s = execContextSaveComplete sp s := rfl
@[simp] theorem exec_shadowWriteOut {sp} (s : State) : exec (.shadowWriteOut sp) s = execShadowWriteOut sp s := rfl
@[simp] theorem exec_polderClaim {sp victim handle} (s : State) : exec (.polderClaim sp victim handle) s = execPolderClaim sp victim handle s := rfl
@[simp] theorem exec_controlMemoryClaim {sp} (s : State) : exec (.controlMemoryClaim sp) s = execControlMemoryClaim sp s := rfl
@[simp] theorem exec_contextRestore {sp victim} (s : State) : exec (.contextRestore sp victim) s = execContextRestore sp victim s := rfl
@[simp] theorem exec_migrationHello {k} (s : State) : exec (.migrationHello k) s = execMigrationHello k s := rfl
@[simp] theorem exec_migrationFrozen {part} (s : State) : exec (.migrationFrozen part) s = execMigrationFrozen part s := rfl
@[simp] theorem exec_stateRecord {part} (s : State) : exec (.stateRecord part) s = execStateRecord part s := rfl
@[simp] theorem exec_stateRecordTimeout {part} (s : State) : exec (.stateRecordTimeout part) s = execStateRecordTimeout part s := rfl
@[simp] theorem exec_migrationResumed {part} (s : State) : exec (.migrationResumed part) s = execMigrationResumed part s := rfl
@[simp] theorem exec_pagePullRequest {acc} (s : State) : exec (.pagePullRequest acc) s = execPagePullRequest acc s := rfl
@[simp] theorem exec_pageShip {part page} (s : State) : exec (.pageShip part page) s = execPageShip part page s := rfl
@[simp] theorem exec_pagePresent {part page} (s : State) : exec (.pagePresent part page) s = execPagePresent part page s := rfl
@[simp] theorem exec_holdResend {engine seq} (s : State) : exec (.holdResend engine seq) s = execHoldResend engine seq s := rfl
@[simp] theorem exec_beatForward {k} (s : State) : exec (.beatForward k) s = execBeatForward k s := rfl
@[simp] theorem exec_movedAck {k} (s : State) : exec (.movedAck k) s = execMovedAck k s := rfl
@[simp] theorem exec_graceExpiry {part} (s : State) : exec (.graceExpiry part) s = execGraceExpiry part s := rfl
@[simp] theorem exec_powerOnReset (s : State) : exec (.powerOnReset) s = execPowerOnReset s := rfl
@[simp] theorem exec_railDrop {rail} (s : State) : exec (.railDrop rail) s = execRailDrop rail s := rfl
@[simp] theorem exec_warmReset (s : State) : exec (.warmReset) s = execWarmReset s := rfl
@[simp] theorem exec_thermalWarn {sensor} (s : State) : exec (.thermalWarn sensor) s = execThermalWarn sensor s := rfl
@[simp] theorem exec_thermalTrip {sensor} (s : State) : exec (.thermalTrip sensor) s = execThermalTrip sensor s := rfl
@[simp] theorem exec_thermalRecover (s : State) : exec (.thermalRecover) s = execThermalRecover s := rfl
@[simp] theorem exec_attgo (s : State) : exec (.attgo) s = execAttgo s := rfl
@[simp] theorem exec_attestationDone (s : State) : exec (.attestationDone) s = execAttestationDone s := rfl
@[simp] theorem exec_snaptrig (s : State) : exec (.snaptrig) s = execSnaptrig s := rfl
@[simp] theorem exec_snapshotPacket {port} (s : State) : exec (.snapshotPacket port) s = execSnapshotPacket port s := rfl
@[simp] theorem exec_snapshotLatch (s : State) : exec (.snapshotLatch) s = execSnapshotLatch s := rfl
@[simp] theorem exec_snapctlValidClear (s : State) : exec (.snapctlValidClear) s = execSnapctlValidClear s := rfl
@[simp] theorem exec_dbgctlAttach {sp} (s : State) : exec (.dbgctlAttach sp) s = execDbgctlAttach sp s := rfl
@[simp] theorem exec_dbgctlGo {sp} (s : State) : exec (.dbgctlGo sp) s = execDbgctlGo sp s := rfl
@[simp] theorem exec_jtagRegacc {addr wr v} (s : State) : exec (.jtagRegacc addr wr v) s = execJtagRegacc addr wr v s := rfl
@[simp] theorem exec_jtagIdcode (s : State) : exec (.jtagIdcode) s = execJtagIdcode s := rfl
@[simp] theorem exec_jtagBypass {tdi} (s : State) : exec (.jtagBypass tdi) s = execJtagBypass tdi s := rfl
@[simp] theorem exec_jtagSamplePreload (s : State) : exec (.jtagSamplePreload) s = execJtagSamplePreload s := rfl
@[simp] theorem exec_jtagExtest (s : State) : exec (.jtagExtest) s = execJtagExtest s := rfl
@[simp] theorem exec_jtagTrst (s : State) : exec (.jtagTrst) s = execJtagTrst s := rfl
@[simp] theorem exec_registerWrite {addr v} (s : State) : exec (.registerWrite addr v) s = execRegisterWrite addr v s := rfl
@[simp] theorem exec_holeRead {addr} (s : State) : exec (.holeRead addr) s = execHoleRead addr s := rfl
@[simp] theorem exec_kstep {g na nb noacc} (s : State) : exec (.kstep g na nb noacc) s = execKstep g na nb noacc s := rfl
@[simp] theorem exec_ksteps {g na nb noacc} (s : State) : exec (.ksteps g na nb noacc) s = execKsteps g na nb noacc s := rfl
@[simp] theorem exec_rpop {ring reg n} (s : State) : exec (.rpop ring reg n) s = execRpop ring reg n s := rfl
@[simp] theorem exec_rpeek {ring reg n} (s : State) : exec (.rpeek ring reg n) s = execRpeek ring reg n s := rfl
@[simp] theorem exec_rowg {inc g} (s : State) : exec (.rowg inc g) s = execRowg inc g s := rfl
@[simp] theorem exec_accsel {n} (s : State) : exec (.accsel n) s = execAccsel n s := rfl
@[simp] theorem exec_accz {g} (s : State) : exec (.accz g) s = execAccz g s := rfl
@[simp] theorem exec_loopk {max reg k body} (s : State) : exec (.loopk max reg k body) s = execLoopk max reg k body s := rfl
@[simp] theorem exec_wmset {n g} (s : State) : exec (.wmset n g) s = execWmset n g s := rfl
@[simp] theorem exec_bmchk (s : State) : exec (.bmchk) s = execBmchk s := rfl
@[simp] theorem exec_epi {g fn k} (s : State) : exec (.epi g fn k) s = execEpi g fn k s := rfl
@[simp] theorem exec_parm {kd m half} (s : State) : exec (.parm kd m half) s = execParm kd m half s := rfl
@[simp] theorem exec_jmp {d} (s : State) : exec (.jmp d) s = execJmp d s := rfl
@[simp] theorem exec_ret (s : State) : exec (.ret) s = execRet s := rfl
@[simp] theorem exec_pbt {p b imm} (s : State) : exec (.pbt p b imm) s = execPbt p b imm s := rfl
@[simp] theorem exec_cmp {p cd cond qa qb} (s : State) : exec (.cmp p cd cond qa qb) s = execCmp p cd cond qa qb s := rfl
@[simp] theorem exec_cmpi {p cd cond qa imm} (s : State) : exec (.cmpi p cd cond qa imm) s = execCmpi p cd cond qa imm s := rfl
@[simp] theorem exec_brT {p b c} (s : State) : exec (.brT p b c) s = execBrT p b c s := rfl
@[simp] theorem exec_brF {p b c} (s : State) : exec (.brF p b c) s = execBrF p b c s := rfl
@[simp] theorem exec_br {p b} (s : State) : exec (.br p b) s = execBr p b s := rfl
@[simp] theorem exec_brR {p} (s : State) : exec (.brR p) s = execBrR p s := rfl
@[simp] theorem exec_brl {p b} (s : State) : exec (.brl p b) s = execBrl p b s := rfl
@[simp] theorem exec_loop {p b reg n} (s : State) : exec (.loop p b reg n) s = execLoop p b reg n s := rfl
@[simp] theorem exec_loopi {p b reg n} (s : State) : exec (.loopi p b reg n) s = execLoopi p b reg n s := rfl
@[simp] theorem exec_loopm {p b reg n stages} (s : State) : exec (.loopm p b reg n stages) s = execLoopm p b reg n stages s := rfl
@[simp] theorem exec_vany {p cd v w pn} (s : State) : exec (.vany p cd v w pn) s = execVany p cd v w pn s := rfl
@[simp] theorem exec_vall {p cd v w pn} (s : State) : exec (.vall p cd v w pn) s = execVall p cd v w pn s := rfl
@[simp] theorem exec_clog {p cd ca cb table} (s : State) : exec (.clog p cd ca cb table) s = execClog p cd ca cb table s := rfl
@[simp] theorem exec_yieldK {p} (s : State) : exec (.yieldK p) s = execYieldK p s := rfl
@[simp] theorem exec_sync {p port} (s : State) : exec (.sync p port) s = execSync p port s := rfl
@[simp] theorem exec_decouple {p} (s : State) : exec (.decouple p) s = execDecouple p s := rfl
@[simp] theorem exec_rejoin {p} (s : State) : exec (.rejoin p) s = execRejoin p s := rfl
@[simp] theorem exec_endK {p} (s : State) : exec (.endK p) s = execEndK p s := rfl
@[simp] theorem exec_ktrap {p n} (s : State) : exec (.ktrap p n) s = execKtrap p n s := rfl
@[simp] theorem exec_qadd {p qd qa qb} (s : State) : exec (.qadd p qd qa qb) s = execQadd p qd qa qb s := rfl
@[simp] theorem exec_qsub {p qd qa qb} (s : State) : exec (.qsub p qd qa qb) s = execQsub p qd qa qb s := rfl
@[simp] theorem exec_qaddi {p qd qa imm x} (s : State) : exec (.qaddi p qd qa imm x) s = execQaddi p qd qa imm x s := rfl
@[simp] theorem exec_qmul {p qd qa qb} (s : State) : exec (.qmul p qd qa qb) s = execQmul p qd qa qb s := rfl
@[simp] theorem exec_qand {p qd qa qb} (s : State) : exec (.qand p qd qa qb) s = execQand p qd qa qb s := rfl
@[simp] theorem exec_qor {p qd qa qb} (s : State) : exec (.qor p qd qa qb) s = execQor p qd qa qb s := rfl
@[simp] theorem exec_qxor {p qd qa qb} (s : State) : exec (.qxor p qd qa qb) s = execQxor p qd qa qb s := rfl
@[simp] theorem exec_qshl {p qd qa qb} (s : State) : exec (.qshl p qd qa qb) s = execQshl p qd qa qb s := rfl
@[simp] theorem exec_qshr {p qd qa qb} (s : State) : exec (.qshr p qd qa qb) s = execQshr p qd qa qb s := rfl
@[simp] theorem exec_qsra {p qd qa qb} (s : State) : exec (.qsra p qd qa qb) s = execQsra p qd qa qb s := rfl
@[simp] theorem exec_qmin {p qd qa qb} (s : State) : exec (.qmin p qd qa qb) s = execQmin p qd qa qb s := rfl
@[simp] theorem exec_qmax {p qd qa qb} (s : State) : exec (.qmax p qd qa qb) s = execQmax p qd qa qb s := rfl
@[simp] theorem exec_qli {p qd imm x} (s : State) : exec (.qli p qd imm x) s = execQli p qd imm x s := rfl
@[simp] theorem exec_qget {p qd sel} (s : State) : exec (.qget p qd sel) s = execQget p qd sel s := rfl
@[simp] theorem exec_mset {p md qa} (s : State) : exec (.mset p md qa) s = execMset p md qa s := rfl
@[simp] theorem exec_mwait {p tile rows} (s : State) : exec (.mwait p tile rows) s = execMwait p tile rows s := rfl
@[simp] theorem exec_pset {p pd w reg n} (s : State) : exec (.pset p pd w reg n) s = execPset p pd w reg n s := rfl
@[simp] theorem exec_ptail {p pd w qa len} (s : State) : exec (.ptail p pd w qa len) s = execPtail p pd w qa len s := rfl
@[simp] theorem exec_ksr {p qd mask} (s : State) : exec (.ksr p qd mask) s = execKsr p qd mask s := rfl
@[simp] theorem exec_ksc {p qa} (s : State) : exec (.ksc p qa) s = execKsc p qa s := rfl
@[simp] theorem exec_kmode {p reg n} (s : State) : exec (.kmode p reg n) s = execKmode p reg n s := rfl
@[simp] theorem exec_pref {p qa qb} (s : State) : exec (.pref p qa qb) s = execPref p qa qb s := rfl
@[simp] theorem exec_qsd {p qd sd field} (s : State) : exec (.qsd p qd sd field) s = execQsd p qd sd field s := rfl
@[simp] theorem exec_gadd {p gd ga gb} (s : State) : exec (.gadd p gd ga gb) s = execGadd p gd ga gb s := rfl
@[simp] theorem exec_gsub {p gd ga gb} (s : State) : exec (.gsub p gd ga gb) s = execGsub p gd ga gb s := rfl
@[simp] theorem exec_gaddi {p gd ga imm x} (s : State) : exec (.gaddi p gd ga imm x) s = execGaddi p gd ga imm x s := rfl
@[simp] theorem exec_gmul {p gd ga gb} (s : State) : exec (.gmul p gd ga gb) s = execGmul p gd ga gb s := rfl
@[simp] theorem exec_gmulh {p gd ga gb n} (s : State) : exec (.gmulh p gd ga gb n) s = execGmulh p gd ga gb n s := rfl
@[simp] theorem exec_gand {p gd ga gb} (s : State) : exec (.gand p gd ga gb) s = execGand p gd ga gb s := rfl
@[simp] theorem exec_gor {p gd ga gb} (s : State) : exec (.gor p gd ga gb) s = execGor p gd ga gb s := rfl
@[simp] theorem exec_gxor {p gd ga gb} (s : State) : exec (.gxor p gd ga gb) s = execGxor p gd ga gb s := rfl
@[simp] theorem exec_gshl {p gd ga gb} (s : State) : exec (.gshl p gd ga gb) s = execGshl p gd ga gb s := rfl
@[simp] theorem exec_gshr {p gd ga gb} (s : State) : exec (.gshr p gd ga gb) s = execGshr p gd ga gb s := rfl
@[simp] theorem exec_gsra {p gd ga gb} (s : State) : exec (.gsra p gd ga gb) s = execGsra p gd ga gb s := rfl
@[simp] theorem exec_gshi {p gd ga k amt} (s : State) : exec (.gshi p gd ga k amt) s = execGshi p gd ga k amt s := rfl
@[simp] theorem exec_gmin {p gd ga gb} (s : State) : exec (.gmin p gd ga gb) s = execGmin p gd ga gb s := rfl
@[simp] theorem exec_gmax {p gd ga gb} (s : State) : exec (.gmax p gd ga gb) s = execGmax p gd ga gb s := rfl
@[simp] theorem exec_gslt {p gd ga gb} (s : State) : exec (.gslt p gd ga gb) s = execGslt p gd ga gb s := rfl
@[simp] theorem exec_gsltn {p gd ga gb} (s : State) : exec (.gsltn p gd ga gb) s = execGsltn p gd ga gb s := rfl
@[simp] theorem exec_gli {p gd imm x} (s : State) : exec (.gli p gd imm x) s = execGli p gd imm x s := rfl
@[simp] theorem exec_gfrq {p gd n} (s : State) : exec (.gfrq p gd n) s = execGfrq p gd n s := rfl
@[simp] theorem exec_gext {p gd ga gb imm} (s : State) : exec (.gext p gd ga gb imm) s = execGext p gd ga gb imm s := rfl
@[simp] theorem exec_gins {p gd ga gb imm} (s : State) : exec (.gins p gd ga gb imm) s = execGins p gd ga gb imm s := rfl
@[simp] theorem exec_gcid {p gd} (s : State) : exec (.gcid p gd) s = execGcid p gd s := rfl
@[simp] theorem exec_gsel {p gd ga gb} (s : State) : exec (.gsel p gd ga gb) s = execGsel p gd ga gb s := rfl
@[simp] theorem exec_gclz {p gd ga} (s : State) : exec (.gclz p gd ga) s = execGclz p gd ga s := rfl
@[simp] theorem exec_vadd {o} (s : State) : exec (.vadd o) s = execVadd o s := rfl
@[simp] theorem exec_vsub {o} (s : State) : exec (.vsub o) s = execVsub o s := rfl
@[simp] theorem exec_vadds {o} (s : State) : exec (.vadds o) s = execVadds o s := rfl
@[simp] theorem exec_vaddn {o} (s : State) : exec (.vaddn o) s = execVaddn o s := rfl
@[simp] theorem exec_vsubs {o} (s : State) : exec (.vsubs o) s = execVsubs o s := rfl
@[simp] theorem exec_vsubn {o} (s : State) : exec (.vsubn o) s = execVsubn o s := rfl
@[simp] theorem exec_vmul {o} (s : State) : exec (.vmul o) s = execVmul o s := rfl
@[simp] theorem exec_vmulh {o} (s : State) : exec (.vmulh o) s = execVmulh o s := rfl
@[simp] theorem exec_vmulhn {o} (s : State) : exec (.vmulhn o) s = execVmulhn o s := rfl
@[simp] theorem exec_vmac {o} (s : State) : exec (.vmac o) s = execVmac o s := rfl
@[simp] theorem exec_vmacw {o} (s : State) : exec (.vmacw o) s = execVmacw o s := rfl
@[simp] theorem exec_vmin {o} (s : State) : exec (.vmin o) s = execVmin o s := rfl
@[simp] theorem exec_vmax {o} (s : State) : exec (.vmax o) s = execVmax o s := rfl
@[simp] theorem exec_vminn {o} (s : State) : exec (.vminn o) s = execVminn o s := rfl
@[simp] theorem exec_vmaxn {o} (s : State) : exec (.vmaxn o) s = execVmaxn o s := rfl
@[simp] theorem exec_vabs {o} (s : State) : exec (.vabs o) s = execVabs o s := rfl
@[simp] theorem exec_vneg {o} (s : State) : exec (.vneg o) s = execVneg o s := rfl
@[simp] theorem exec_vand {o} (s : State) : exec (.vand o) s = execVand o s := rfl
@[simp] theorem exec_vor {o} (s : State) : exec (.vor o) s = execVor o s := rfl
@[simp] theorem exec_vxor {o} (s : State) : exec (.vxor o) s = execVxor o s := rfl
@[simp] theorem exec_vandn {o} (s : State) : exec (.vandn o) s = execVandn o s := rfl
@[simp] theorem exec_vshl {o} (s : State) : exec (.vshl o) s = execVshl o s := rfl
@[simp] theorem exec_vshr {o} (s : State) : exec (.vshr o) s = execVshr o s := rfl
@[simp] theorem exec_vsra {o} (s : State) : exec (.vsra o) s = execVsra o s := rfl
@[simp] theorem exec_vsrar {o} (s : State) : exec (.vsrar o) s = execVsrar o s := rfl
@[simp] theorem exec_vnarrow {o} (s : State) : exec (.vnarrow o) s = execVnarrow o s := rfl
@[simp] theorem exec_vwiden {o} (s : State) : exec (.vwiden o) s = execVwiden o s := rfl
@[simp] theorem exec_vcmpeq {o} (s : State) : exec (.vcmpeq o) s = execVcmpeq o s := rfl
@[simp] theorem exec_vcmplt {o} (s : State) : exec (.vcmplt o) s = execVcmplt o s := rfl
@[simp] theorem exec_vcmpltn {o} (s : State) : exec (.vcmpltn o) s = execVcmpltn o s := rfl
@[simp] theorem exec_vcmple {o} (s : State) : exec (.vcmple o) s = execVcmple o s := rfl
@[simp] theorem exec_vsel {o} (s : State) : exec (.vsel o) s = execVsel o s := rfl
@[simp] theorem exec_vclz {o} (s : State) : exec (.vclz o) s = execVclz o s := rfl
@[simp] theorem exec_vpopc {o} (s : State) : exec (.vpopc o) s = execVpopc o s := rfl
@[simp] theorem exec_fadd {o} (s : State) : exec (.fadd o) s = execFadd o s := rfl
@[simp] theorem exec_fsub {o} (s : State) : exec (.fsub o) s = execFsub o s := rfl
@[simp] theorem exec_fmul {o} (s : State) : exec (.fmul o) s = execFmul o s := rfl
@[simp] theorem exec_fma {o} (s : State) : exec (.fma o) s = execFma o s := rfl
@[simp] theorem exec_fms {o} (s : State) : exec (.fms o) s = execFms o s := rfl
@[simp] theorem exec_fnma {o} (s : State) : exec (.fnma o) s = execFnma o s := rfl
@[simp] theorem exec_fmin {o} (s : State) : exec (.fmin o) s = execFmin o s := rfl
@[simp] theorem exec_fmax {o} (s : State) : exec (.fmax o) s = execFmax o s := rfl
@[simp] theorem exec_fabs {o} (s : State) : exec (.fabs o) s = execFabs o s := rfl
@[simp] theorem exec_fneg {o} (s : State) : exec (.fneg o) s = execFneg o s := rfl
@[simp] theorem exec_fcmpeq {o} (s : State) : exec (.fcmpeq o) s = execFcmpeq o s := rfl
@[simp] theorem exec_fcmplt {o} (s : State) : exec (.fcmplt o) s = execFcmplt o s := rfl
@[simp] theorem exec_fcmple {o} (s : State) : exec (.fcmple o) s = execFcmple o s := rfl
@[simp] theorem exec_fcmpun {o} (s : State) : exec (.fcmpun o) s = execFcmpun o s := rfl
@[simp] theorem exec_fclass {o} (s : State) : exec (.fclass o) s = execFclass o s := rfl
@[simp] theorem exec_fscale {o} (s : State) : exec (.fscale o) s = execFscale o s := rfl
@[simp] theorem exec_vcvt {o} (s : State) : exec (.vcvt o) s = execVcvt o s := rfl
@[simp] theorem exec_vqnt {o} (s : State) : exec (.vqnt o) s = execVqnt o s := rfl
@[simp] theorem exec_vdq {o} (s : State) : exec (.vdq o) s = execVdq o s := rfl
@[simp] theorem exec_frcp {o} (s : State) : exec (.frcp o) s = execFrcp o s := rfl
@[simp] theorem exec_frsq {o} (s : State) : exec (.frsq o) s = execFrsq o s := rfl
@[simp] theorem exec_fexp2 {o} (s : State) : exec (.fexp2 o) s = execFexp2 o s := rfl
@[simp] theorem exec_flog2 {o} (s : State) : exec (.flog2 o) s = execFlog2 o s := rfl
@[simp] theorem exec_fsin {o} (s : State) : exec (.fsin o) s = execFsin o s := rfl
@[simp] theorem exec_fcos {o} (s : State) : exec (.fcos o) s = execFcos o s := rfl
@[simp] theorem exec_ftanh {o} (s : State) : exec (.ftanh o) s = execFtanh o s := rfl
@[simp] theorem exec_vrsum {o} (s : State) : exec (.vrsum o) s = execVrsum o s := rfl
@[simp] theorem exec_vrmax {o} (s : State) : exec (.vrmax o) s = execVrmax o s := rfl
@[simp] theorem exec_vrmin {o} (s : State) : exec (.vrmin o) s = execVrmin o s := rfl
@[simp] theorem exec_vamax {o} (s : State) : exec (.vamax o) s = execVamax o s := rfl
@[simp] theorem exec_vtopk {o} (s : State) : exec (.vtopk o) s = execVtopk o s := rfl
@[simp] theorem exec_vscan {o} (s : State) : exec (.vscan o) s = execVscan o s := rfl
@[simp] theorem exec_vcompress {o} (s : State) : exec (.vcompress o) s = execVcompress o s := rfl
@[simp] theorem exec_vexpand {o} (s : State) : exec (.vexpand o) s = execVexpand o s := rfl
@[simp] theorem exec_vidx {o} (s : State) : exec (.vidx o) s = execVidx o s := rfl
@[simp] theorem exec_vmov {o} (s : State) : exec (.vmov o) s = execVmov o s := rfl
@[simp] theorem exec_vzero {o} (s : State) : exec (.vzero o) s = execVzero o s := rfl
@[simp] theorem exec_xadd {p id ia ib} (s : State) : exec (.xadd p id ia ib) s = execXadd p id ia ib s := rfl
@[simp] theorem exec_xaddi {p id ia imm x} (s : State) : exec (.xaddi p id ia imm x) s = execXaddi p id ia imm x s := rfl
@[simp] theorem exec_xsub {p id ia ib} (s : State) : exec (.xsub p id ia ib) s = execXsub p id ia ib s := rfl
@[simp] theorem exec_xshl {p id ia ib} (s : State) : exec (.xshl p id ia ib) s = execXshl p id ia ib s := rfl
@[simp] theorem exec_xand {p id ia ib} (s : State) : exec (.xand p id ia ib) s = execXand p id ia ib s := rfl
@[simp] theorem exec_xpopc {p id ia} (s : State) : exec (.xpopc p id ia) s = execXpopc p id ia s := rfl
@[simp] theorem exec_xpopb {p id ia ib} (s : State) : exec (.xpopb p id ia ib) s = execXpopb p id ia ib s := rfl
@[simp] theorem exec_xcadv {p id ia ib} (s : State) : exec (.xcadv p id ia ib) s = execXcadv p id ia ib s := rfl
@[simp] theorem exec_xdiagStep {p id ia ib} (s : State) : exec (.xdiagStep p id ia ib) s = execXdiagStep p id ia ib s := rfl
@[simp] theorem exec_xdiagMid {p id ia} (s : State) : exec (.xdiagMid p id ia) s = execXdiagMid p id ia s := rfl
@[simp] theorem exec_xaq {p sd ia imm} (s : State) : exec (.xaq p sd ia imm) s = execXaq p sd ia imm s := rfl
@[simp] theorem exec_xaqs {p sd ia imm} (s : State) : exec (.xaqs p sd ia imm) s = execXaqs p sd ia imm s := rfl
@[simp] theorem exec_xmin {p id ia ib} (s : State) : exec (.xmin p id ia ib) s = execXmin p id ia ib s := rfl
@[simp] theorem exec_xsel {p id ia ib} (s : State) : exec (.xsel p id ia ib) s = execXsel p id ia ib s := rfl
@[simp] theorem exec_xli {p id imm x} (s : State) : exec (.xli p id imm x) s = execXli p id imm x s := rfl
@[simp] theorem exec_xfrg {p id g} (s : State) : exec (.xfrg p id g) s = execXfrg p id g s := rfl
@[simp] theorem exec_xtog {p g ia} (s : State) : exec (.xtog p g ia) s = execXtog p g ia s := rfl
@[simp] theorem exec_xrank {p id ia ib} (s : State) : exec (.xrank p id ia ib) s = execXrank p id ia ib s := rfl
@[simp] theorem exec_xmax {p id ia ib} (s : State) : exec (.xmax p id ia ib) s = execXmax p id ia ib s := rfl
@[simp] theorem exec_mcall {p routine tile a b flags} (s : State) : exec (.mcall p routine tile a b flags) s = execMcall p routine tile a b flags s := rfl
@[simp] theorem exec_mzero {p tile} (s : State) : exec (.mzero p tile) s = execMzero p tile s := rfl
@[simp] theorem exec_mmode {p tile v} (s : State) : exec (.mmode p tile v) s = execMmode p tile v s := rfl
@[simp] theorem exec_mfence {p} (s : State) : exec (.mfence p) s = execMfence p s := rfl
@[simp] theorem exec_mwm {p tile v} (s : State) : exec (.mwm p tile v) s = execMwm p tile v s := rfl
@[simp] theorem exec_wperm {p vd vs ia} (s : State) : exec (.wperm p vd vs ia) s = execWperm p vd vs ia s := rfl
@[simp] theorem exec_wbcast {p vd vs n} (s : State) : exec (.wbcast p vd vs n) s = execWbcast p vd vs n s := rfl
@[simp] theorem exec_wrot {p vd vs n} (s : State) : exec (.wrot p vd vs n) s = execWrot p vd vs n s := rfl
@[simp] theorem exec_wbfly {p vd vs n} (s : State) : exec (.wbfly p vd vs n) s = execWbfly p vd vs n s := rfl
@[simp] theorem exec_wrsum {p vd vs n} (s : State) : exec (.wrsum p vd vs n) s = execWrsum p vd vs n s := rfl
@[simp] theorem exec_wrmax {p vd vs n} (s : State) : exec (.wrmax p vd vs n) s = execWrmax p vd vs n s := rfl
@[simp] theorem exec_wsegsum {p vd vs t ia} (s : State) : exec (.wsegsum p vd vs t ia) s = execWsegsum p vd vs t ia s := rfl
@[simp] theorem exec_wscan {p vd vs n} (s : State) : exec (.wscan p vd vs n) s = execWscan p vd vs n s := rfl
@[simp] theorem exec_spop {p sd v len} (s : State) : exec (.spop p sd v len) s = execSpop p sd v len s := rfl
@[simp] theorem exec_spush {p sd v len} (s : State) : exec (.spush p sd v len) s = execSpush p sd v len s := rfl
@[simp] theorem exec_sadv {p sd imm x} (s : State) : exec (.sadv p sd imm x) s = execSadv p sd imm x s := rfl
@[simp] theorem exec_speek {p sd v len} (s : State) : exec (.speek p sd v len) s = execSpeek p sd v len s := rfl
@[simp] theorem exec_sldl {p sd v ia w} (s : State) : exec (.sldl p sd v ia w) s = execSldl p sd v ia w s := rfl
@[simp] theorem exec_sstu {p sd v ia w} (s : State) : exec (.sstu p sd v ia w) s = execSstu p sd v ia w s := rfl
@[simp] theorem exec_sld {p sd v imm x} (s : State) : exec (.sld p sd v imm x) s = execSld p sd v imm x s := rfl
@[simp] theorem exec_sst {p sd v imm x} (s : State) : exec (.sst p sd v imm x) s = execSst p sd v imm x s := rfl
@[simp] theorem exec_dqpop {p v n w} (s : State) : exec (.dqpop p v n w) s = execDqpop p v n w s := rfl
@[simp] theorem exec_dqn {p v} (s : State) : exec (.dqn p v) s = execDqn p v s := rfl
@[simp] theorem exec_sflush {p sd} (s : State) : exec (.sflush p sd) s = execSflush p sd s := rfl
@[simp] theorem exec_kcopy {p sd dir limit} (s : State) : exec (.kcopy p sd dir limit) s = execKcopy p sd dir limit s := rfl
@[simp] theorem exec_spos {p sd v} (s : State) : exec (.spos p sd v) s = execSpos p sd v s := rfl
@[simp] theorem exec_seos {p sd} (s : State) : exec (.seos p sd) s = execSeos p sd s := rfl

end Sys2Proof.Machine
end

