-- ==== Sys2Proof/Laws/Memory.lean ====
section
/-! SUPPORT. Memory: every operation over it keeps the canonical form, memory at reset has it, and what a byte reads as after a write. -/

namespace Sys2Proof.Machine

/-! ## Stores without some of their entries -/

theorem KMap.wfFrom_filter {α : Type} [DecidableEq α] {d : α} (p : Nat × α → Bool) {m : KMap α} {lo : Nat} (h : KMap.wfFrom d lo m = true) :
    KMap.wfFrom d lo (m.filter p) = true := by
  induction m generalizing lo with
  | nil => rfl
  | cons e l ih =>
    obtain ⟨j, w⟩ := e
    simp only [KMap.wfFrom, Bool.and_eq_true, decide_eq_true_eq] at h
    rw [List.filter_cons]
    split
    · simp only [KMap.wfFrom, Bool.and_eq_true, decide_eq_true_eq]
      exact ⟨h.1, ih h.2⟩
    · exact KMap.wfFrom_mono (ih h.2) (by omega)

/-! ## The canonical form -/

theorem memory_wf_reset : Memory.wf State.reset.mem = true := rfl

theorem memory_wf_set {m : List Host.Cell} (h : Memory.wf m = true) (a : Nat) (b : Byte) : Memory.wf (Memory.set m a b) = true := KMap.wf_put h a b

theorem memory_wf_write {m : List Host.Cell} (h : Memory.wf m = true) (a : Nat) (l : List Byte) : Memory.wf (Memory.write m a l) = true := by
  unfold Memory.write
  induction l generalizing m a with
  | nil => exact h
  | cons b l ih => exact ih (KMap.wf_put h a b) (a + 1)

theorem memory_wf_clear {m : List Host.Cell} (h : Memory.wf m = true) (a n : Nat) : Memory.wf (Memory.clear m a n) = true := KMap.wfFrom_filter _ h

theorem memory_wf_store {m : List Host.Cell} (h : Memory.wf m = true) (a n : Nat) (b : KMap Byte) : Memory.wf (Memory.store m a n b) = true := by
  unfold Memory.store
  have h1 : Memory.wf (m.filter fun e => !(decide (a ≤ e.1) && decide (e.1 < a + n))) = true := KMap.wfFrom_filter _ h
  generalize m.filter _ = m1 at h1 ⊢
  induction b generalizing m1 with
  | nil => exact h1
  | cons e l ih =>
    rw [List.foldl_cons]
    apply ih
    split
    · exact KMap.wf_put h1 _ _
    · exact h1

theorem memory_wf_image {m : List Host.Cell} (h : Memory.wf m = true) (a : Nat) (l : List Piece) : Memory.wf (Memory.image m a l) = true := by
  unfold Memory.image
  have h1 := memory_wf_clear h a 0x100000
  generalize Memory.clear m a 0x100000 = m1 at h1 ⊢
  induction l generalizing m1 with
  | nil => exact h1
  | cons q l ih => exact ih _ (memory_wf_write h1 _ _)

/-- A line written back. -/
theorem memory_wf_back {m : List Host.Cell} (h : Memory.wf m = true) (l : CacheLine) : Memory.wf (l.back m) = true := by
  unfold CacheLine.back
  split
  · exact memory_wf_write h _ _
  · exact h

/-- Lines leave the cache. -/
theorem memory_wf_writeBack {s : State} (h : Memory.wf s.mem = true) (p : CacheLine → Bool) : Memory.wf (s.writeBack p).mem = true := by
  unfold State.writeBack
  induction s.cache.filter p with
  | nil => exact h
  | cons l r ih => exact memory_wf_back ih l

/-- A line comes into the cache, which may drive another out. -/
theorem memory_wf_fill {s : State} (h : Memory.wf s.mem = true) (tag beat : Nat) : Memory.wf (s.fill tag beat).mem = true := by
  unfold State.fill
  split
  · exact h
  · dsimp only
    split
    · exact h
    · split
      · exact h
      · exact memory_wf_writeBack h _

/-- Bytes of a line written through the cache. -/
theorem memory_wf_lineWrite {s : State} (h : Memory.wf s.mem = true) (ia pa : Nat) (l : List Byte) : Memory.wf (s.lineWrite ia pa l).mem = true := by
  unfold State.lineWrite
  split
  · exact h
  · exact memory_wf_fill h _ _

/-- The part changes memory by a function that keeps the form. -/
theorem memory_wf_memChange {s : State} (h : Memory.wf s.mem = true) (a n : Nat) {f : List Host.Cell → List Host.Cell}
    (hf : ∀ m, Memory.wf m = true → Memory.wf (f m) = true) : Memory.wf (s.memChange a n f).mem = true :=
  hf _ (memory_wf_writeBack h _)

theorem memory_wf_memWrite {s : State} (h : Memory.wf s.mem = true) (a : Nat) (l : List Byte) : Memory.wf (s.memWrite a l).mem = true :=
  memory_wf_memChange h a _ fun _ hm => memory_wf_write hm a l

/-! ## Reading after a write -/

theorem memory_byte_set (m : List Host.Cell) (a i : Nat) (b : Byte) : Memory.byte (Memory.set m a b) i = if i = a then b else Memory.byte m i :=
  KMap.get_put 0 m i a b

/-- A byte after a write: the byte written there, or the one that stood there. -/
theorem memory_byte_write (m : List Host.Cell) (a i : Nat) (l : List Byte) :
    Memory.byte (Memory.write m a l) i = if a ≤ i ∧ i < a + l.length then l.getD (i - a) 0 else Memory.byte m i := by
  unfold Memory.write
  induction l generalizing m a with
  | nil => simp [bytesWrite]
  | cons b l ih =>
    rw [bytesWrite, ih]
    by_cases h : a + 1 ≤ i ∧ i < a + 1 + l.length
    · have e : i - a = i - (a + 1) + 1 := by omega
      rw [if_pos h, if_pos (by simp only [List.length_cons]; omega), e, List.getD_cons_succ]
    · rw [if_neg h]
      unfold Memory.byte
      rw [KMap.get_put]
      by_cases h2 : i = a
      · subst h2; simp
      · rw [if_neg h2, if_neg (by simp only [List.length_cons]; omega)]

end Sys2Proof.Machine
end

