-- ==== Sys2Proof/Laws/PerInstr.lean ====
section
/-! SUPPORT. Statements about every instruction, one lemma per constructor. `RoundTrip`: the decoder of the space of an
encoded instruction gives the instruction back. The standard instructions of the controller (`encodeRv`) are not part of it. -/

namespace Sys2Proof.Laws

/-- What an instruction is encoded as decodes to it. -/
def RoundTrip.Statement (i : Instr) : Prop :=
  i.wf = true → ∀ e, encode i = some e → encodeRv i = none → decodeIn e.space e.word e.ext = some i

/-! ## Slots and micro-ops -/

/-- The arm of the decoder. -/
theorem dec_pbt (w : Nat) (x : Option Nat) (h0 : fld w 0 6 = 0x01) (h1 : x = none) : decodeC w x = some (.pbt (fld w 6 4) (fld w 10 3) (fld w 13 19)) := by
  unfold decodeC
  rw [h0]
  exact if_pos h1
/-- The round trip of `pbt`. -/
theorem RoundTrip.pbt (p b imm : Nat) : RoundTrip.Statement (.pbt p b imm) := by
  intro hw e he _
  have hw := of_decide_eq_true hw
  obtain rfl := Option.some.inj he
  refine (dec_pbt (0x01 + p * 2 ^ 6 + b * 2 ^ 10 + imm * 2 ^ 13) none (by unfold fld; omega) rfl).trans ?_
  congr 2 <;> (unfold fld; omega)

/-- The arm of the decoder. -/
theorem dec_cmp (w : Nat) (x : Option Nat) (h0 : fld w 0 6 = 0x02) (h1 : fld w 24 8 = 0 ∧ (fld w 13 3) < 6 ∧ x = none) : decodeC w x = some (.cmp (fld w 6 4) (fld w 10 3) (fld w 13 3) (fld w 16 4) (fld w 20 4)) := by
  unfold decodeC
  rw [h0]
  exact if_pos h1
/-- The round trip of `cmp`. -/
theorem RoundTrip.cmp (p cd cond qa qb : Nat) : RoundTrip.Statement (.cmp p cd cond qa qb) := by
  intro hw e he _
  have hw := of_decide_eq_true hw
  obtain rfl := Option.some.inj he
  refine (dec_cmp (0x02 + p * 2 ^ 6 + cd * 2 ^ 10 + cond * 2 ^ 13 + qa * 2 ^ 16 + qb * 2 ^ 20) none (by unfold fld; omega) ⟨(by unfold fld; omega), (by unfold fld; omega), rfl⟩).trans ?_
  congr 2 <;> (unfold fld; omega)

/-- The arm of the decoder. -/
theorem dec_cmpi (w : Nat) (x : Option Nat) (h0 : fld w 0 6 = 0x03) (h1 : (fld w 13 3) < 6 ∧ x = none) : decodeC w x = some (.cmpi (fld w 6 4) (fld w 10 3) (fld w 13 3) (fld w 16 4) (fld w 20 12)) := by
  unfold decodeC
  rw [h0]
  exact if_pos h1
/-- The round trip of `cmpi`. -/
theorem RoundTrip.cmpi (p cd cond qa imm : Nat) : RoundTrip.Statement (.cmpi p cd cond qa imm) := by
  intro hw e he _
  have hw := of_decide_eq_true hw
  obtain rfl := Option.some.inj he
  refine (dec_cmpi (0x03 + p * 2 ^ 6 + cd * 2 ^ 10 + cond * 2 ^ 13 + qa * 2 ^ 16 + imm * 2 ^ 20) none (by unfold fld; omega) ⟨(by unfold fld; omega), rfl⟩).trans ?_
  congr 2 <;> (unfold fld; omega)

/-- The arm of the decoder. -/
theorem dec_brl (w : Nat) (x : Option Nat) (h0 : fld w 0 6 = 0x05) (h1 : fld w 13 19 = 0 ∧ x = none) : decodeC w x = some (.brl (fld w 6 4) (fld w 10 3)) := by
  unfold decodeC
  rw [h0]
  exact if_pos h1
/-- The round trip of `brl`. -/
theorem RoundTrip.brl (p b : Nat) : RoundTrip.Statement (.brl p b) := by
  intro hw e he _
  have hw := of_decide_eq_true hw
  obtain rfl := Option.some.inj he
  refine (dec_brl (0x05 + p * 2 ^ 6 + b * 2 ^ 10) none (by unfold fld; omega) ⟨(by unfold fld; omega), rfl⟩).trans ?_
  congr 2 <;> (unfold fld; omega)

/-- The arm of the decoder. -/
theorem dec_loop (w : Nat) (x : Option Nat) (h0 : fld w 0 6 = 0x06) (h1 : fld w 13 3 = 0 ∧ ((fld w 12 1) = 0 ∨ (fld w 16 16) < 16) ∧ x = none) : decodeC w x = some (.loop (fld w 6 4) (fld w 10 2) (fld w 12 1) (fld w 16 16)) := by
  unfold decodeC
  rw [h0]
  exact if_pos h1
/-- The round trip of `loop`. -/
theorem RoundTrip.loop (p b reg n : Nat) : RoundTrip.Statement (.loop p b reg n) := by
  intro hw e he _
  have hw := of_decide_eq_true hw
  obtain rfl := Option.some.inj he
  refine (dec_loop (0x06 + p * 2 ^ 6 + b * 2 ^ 10 + reg * 2 ^ 12 + n * 2 ^ 16) none (by unfold fld; omega) ⟨(by unfold fld; omega), (by unfold fld; omega), rfl⟩).trans ?_
  congr 2 <;> (unfold fld; omega)

/-- The arm of the decoder. -/
theorem dec_loopi (w : Nat) (x : Option Nat) (h0 : fld w 0 6 = 0x07) (h1 : fld w 13 3 = 0 ∧ ((fld w 12 1) = 0 ∨ (fld w 16 16) < 16) ∧ x = none) : decodeC w x = some (.loopi (fld w 6 4) (fld w 10 2) (fld w 12 1) (fld w 16 16)) := by
  unfold decodeC
  rw [h0]
  exact if_pos h1
/-- The round trip of `loopi`. -/
theorem RoundTrip.loopi (p b reg n : Nat) : RoundTrip.Statement (.loopi p b reg n) := by
  intro hw e he _
  have hw := of_decide_eq_true hw
  obtain rfl := Option.some.inj he
  refine (dec_loopi (0x07 + p * 2 ^ 6 + b * 2 ^ 10 + reg * 2 ^ 12 + n * 2 ^ 16) none (by unfold fld; omega) ⟨(by unfold fld; omega), (by unfold fld; omega), rfl⟩).trans ?_
  congr 2 <;> (unfold fld; omega)

/-- The arm of the decoder. -/
theorem dec_loopm (w : Nat) (x : Option Nat) (h0 : fld w 0 6 = 0x08) (h1 : ((fld w 12 1) = 0 ∨ (fld w 16 16) < 16) ∧ x = none) : decodeC w x = some (.loopm (fld w 6 4) (fld w 10 2) (fld w 12 1) (fld w 16 16) (fld w 13 3)) := by
  unfold decodeC
  rw [h0]
  exact if_pos h1
/-- The round trip of `loopm`. -/
theorem RoundTrip.loopm (p b reg n stages : Nat) : RoundTrip.Statement (.loopm p b reg n stages) := by
  intro hw e he _
  have hw := of_decide_eq_true hw
  obtain rfl := Option.some.inj he
  refine (dec_loopm (0x08 + p * 2 ^ 6 + b * 2 ^ 10 + reg * 2 ^ 12 + n * 2 ^ 16 + stages * 2 ^ 13) none (by unfold fld; omega) ⟨(by unfold fld; omega), rfl⟩).trans ?_
  congr 2 <;> (unfold fld; omega)

/-- The arm of the decoder. -/
theorem dec_vany (w : Nat) (x : Option Nat) (h0 : fld w 0 6 = 0x09) (h1 : fld w 25 7 = 0 ∧ x = none) : decodeC w x = some (.vany (fld w 6 4) (fld w 10 3) (fld w 13 7) (fld w 20 2) (fld w 22 3)) := by
  unfold decodeC
  rw [h0]
  exact if_pos h1
/-- The round trip of `vany`. -/
theorem RoundTrip.vany (p cd v w pn : Nat) : RoundTrip.Statement (.vany p cd v w pn) := by
  intro hw e he _
  have hw := of_decide_eq_true hw
  obtain rfl := Option.some.inj he
  refine (dec_vany (0x09 + p * 2 ^ 6 + cd * 2 ^ 10 + v * 2 ^ 13 + w * 2 ^ 20 + pn * 2 ^ 22) none (by unfold fld; omega) ⟨(by unfold fld; omega), rfl⟩).trans ?_
  congr 2 <;> (unfold fld; omega)

/-- The arm of the decoder. -/
theorem dec_vall (w : Nat) (x : Option Nat) (h0 : fld w 0 6 = 0x0A) (h1 : fld w 25 7 = 0 ∧ x = none) : decodeC w x = some (.vall (fld w 6 4) (fld w 10 3) (fld w 13 7) (fld w 20 2) (fld w 22 3)) := by
  unfold decodeC
  rw [h0]
  exact if_pos h1
/-- The round trip of `vall`. -/
theorem RoundTrip.vall (p cd v w pn : Nat) : RoundTrip.Statement (.vall p cd v w pn) := by
  intro hw e he _
  have hw := of_decide_eq_true hw
  obtain rfl := Option.some.inj he
  refine (dec_vall (0x0A + p * 2 ^ 6 + cd * 2 ^ 10 + v * 2 ^ 13 + w * 2 ^ 20 + pn * 2 ^ 22) none (by unfold fld; omega) ⟨(by unfold fld; omega), rfl⟩).trans ?_
  congr 2 <;> (unfold fld; omega)

/-- The arm of the decoder. -/
theorem dec_clog (w : Nat) (x : Option Nat) (h0 : fld w 0 6 = 0x0B) (h1 : fld w 23 9 = 0 ∧ x = none) : decodeC w x = some (.clog (fld w 6 4) (fld w 10 3) (fld w 13 3) (fld w 16 3) (fld w 19 4)) := by
  unfold decodeC
  rw [h0]
  exact if_pos h1
/-- The round trip of `clog`. -/
theorem RoundTrip.clog (p cd ca cb table : Nat) : RoundTrip.Statement (.clog p cd ca cb table) := by
  intro hw e he _
  have hw := of_decide_eq_true hw
  obtain rfl := Option.some.inj he
  refine (dec_clog (0x0B + p * 2 ^ 6 + cd * 2 ^ 10 + ca * 2 ^ 13 + cb * 2 ^ 16 + table * 2 ^ 19) none (by unfold fld; omega) ⟨(by unfold fld; omega), rfl⟩).trans ?_
  congr 2 <;> (unfold fld; omega)

/-- The arm of the decoder. -/
theorem dec_yieldK (w : Nat) (x : Option Nat) (h0 : fld w 0 6 = 0x0C) (h1 : fld w 10 22 = 0 ∧ x = none) : decodeC w x = some (.yieldK (fld w 6 4)) := by
  unfold decodeC
  rw [h0]
  exact if_pos h1
/-- The round trip of `yieldK`. -/
theorem RoundTrip.yieldK (p : Nat) : RoundTrip.Statement (.yieldK p) := by
  intro hw e he _
  have hw := of_decide_eq_true hw
  obtain rfl := Option.some.inj he
  refine (dec_yieldK (0x0C + p * 2 ^ 6) none (by unfold fld; omega) ⟨(by unfold fld; omega), rfl⟩).trans ?_
  congr 2 <;> (unfold fld; omega)

/-- The arm of the decoder. -/
theorem dec_sync (w : Nat) (x : Option Nat) (h0 : fld w 0 6 = 0x0D) (h1 : fld w 12 20 = 0 ∧ x = none) : decodeC w x = some (.sync (fld w 6 4) (fld w 10 2)) := by
  unfold decodeC
  rw [h0]
  exact if_pos h1
/-- The round trip of `sync`. -/
theorem RoundTrip.sync (p port : Nat) : RoundTrip.Statement (.sync p port) := by
  intro hw e he _
  have hw := of_decide_eq_true hw
  obtain rfl := Option.some.inj he
  refine (dec_sync (0x0D + p * 2 ^ 6 + port * 2 ^ 10) none (by unfold fld; omega) ⟨(by unfold fld; omega), rfl⟩).trans ?_
  congr 2 <;> (unfold fld; omega)

/-- The arm of the decoder. -/
theorem dec_decouple (w : Nat) (x : Option Nat) (h0 : fld w 0 6 = 0x0E) (h1 : fld w 10 22 = 0 ∧ x = none) : decodeC w x = some (.decouple (fld w 6 4)) := by
  unfold decodeC
  rw [h0]
  exact if_pos h1
/-- The round trip of `decouple`. -/
theorem RoundTrip.decouple (p : Nat) : RoundTrip.Statement (.decouple p) := by
  intro hw e he _
  have hw := of_decide_eq_true hw
  obtain rfl := Option.some.inj he
  refine (dec_decouple (0x0E + p * 2 ^ 6) none (by unfold fld; omega) ⟨(by unfold fld; omega), rfl⟩).trans ?_
  congr 2 <;> (unfold fld; omega)

/-- The arm of the decoder. -/
theorem dec_rejoin (w : Nat) (x : Option Nat) (h0 : fld w 0 6 = 0x0F) (h1 : fld w 10 22 = 0 ∧ x = none) : decodeC w x = some (.rejoin (fld w 6 4)) := by
  unfold decodeC
  rw [h0]
  exact if_pos h1
/-- The round trip of `rejoin`. -/
theorem RoundTrip.rejoin (p : Nat) : RoundTrip.Statement (.rejoin p) := by
  intro hw e he _
  have hw := of_decide_eq_true hw
  obtain rfl := Option.some.inj he
  refine (dec_rejoin (0x0F + p * 2 ^ 6) none (by unfold fld; omega) ⟨(by unfold fld; omega), rfl⟩).trans ?_
  congr 2 <;> (unfold fld; omega)

/-- The arm of the decoder. -/
theorem dec_endK (w : Nat) (x : Option Nat) (h0 : fld w 0 6 = 0x10) (h1 : fld w 10 22 = 0 ∧ x = none) : decodeC w x = some (.endK (fld w 6 4)) := by
  unfold decodeC
  rw [h0]
  exact if_pos h1
/-- The round trip of `endK`. -/
theorem RoundTrip.endK (p : Nat) : RoundTrip.Statement (.endK p) := by
  intro hw e he _
  have hw := of_decide_eq_true hw
  obtain rfl := Option.some.inj he
  refine (dec_endK (0x10 + p * 2 ^ 6) none (by unfold fld; omega) ⟨(by unfold fld; omega), rfl⟩).trans ?_
  congr 2 <;> (unfold fld; omega)

/-- The arm of the decoder. -/
theorem dec_ktrap (w : Nat) (x : Option Nat) (h0 : fld w 0 6 = 0x11) (h1 : fld w 18 14 = 0 ∧ x = none) : decodeC w x = some (.ktrap (fld w 6 4) (fld w 10 8)) := by
  unfold decodeC
  rw [h0]
  exact if_pos h1
/-- The round trip of `ktrap`. -/
theorem RoundTrip.ktrap (p n : Nat) : RoundTrip.Statement (.ktrap p n) := by
  intro hw e he _
  have hw := of_decide_eq_true hw
  obtain rfl := Option.some.inj he
  refine (dec_ktrap (0x11 + p * 2 ^ 6 + n * 2 ^ 10) none (by unfold fld; omega) ⟨(by unfold fld; omega), rfl⟩).trans ?_
  congr 2 <;> (unfold fld; omega)

/-- The arm of the decoder. -/
theorem dec_qadd (w : Nat) (x : Option Nat) (h0 : fld w 0 6 = 0x12) (h1 : fld w 22 10 = 0 ∧ x = none) : decodeC w x = some (.qadd (fld w 6 4) (fld w 10 4) (fld w 14 4) (fld w 18 4)) := by
  unfold decodeC
  rw [h0]
  exact if_pos h1
/-- The round trip of `qadd`. -/
theorem RoundTrip.qadd (p qd qa qb : Nat) : RoundTrip.Statement (.qadd p qd qa qb) := by
  intro hw e he _
  have hw := of_decide_eq_true hw
  obtain rfl := Option.some.inj he
  refine (dec_qadd (0x12 + p * 2 ^ 6 + qd * 2 ^ 10 + qa * 2 ^ 14 + qb * 2 ^ 18) none (by unfold fld; omega) ⟨(by unfold fld; omega), rfl⟩).trans ?_
  congr 2 <;> (unfold fld; omega)

/-- The arm of the decoder. -/
theorem dec_qsub (w : Nat) (x : Option Nat) (h0 : fld w 0 6 = 0x13) (h1 : fld w 22 10 = 0 ∧ x = none) : decodeC w x = some (.qsub (fld w 6 4) (fld w 10 4) (fld w 14 4) (fld w 18 4)) := by
  unfold decodeC
  rw [h0]
  exact if_pos h1
/-- The round trip of `qsub`. -/
theorem RoundTrip.qsub (p qd qa qb : Nat) : RoundTrip.Statement (.qsub p qd qa qb) := by
  intro hw e he _
  have hw := of_decide_eq_true hw
  obtain rfl := Option.some.inj he
  refine (dec_qsub (0x13 + p * 2 ^ 6 + qd * 2 ^ 10 + qa * 2 ^ 14 + qb * 2 ^ 18) none (by unfold fld; omega) ⟨(by unfold fld; omega), rfl⟩).trans ?_
  congr 2 <;> (unfold fld; omega)

/-- The arm of the decoder. -/
theorem dec_qaddi (w : Nat) (x : Option Nat) (h0 : fld w 0 6 = 0x14) : decodeC w x = some (.qaddi (fld w 6 4) (fld w 10 4) (fld w 14 4) (fld w 18 14) x) := by
  unfold decodeC
  rw [h0]
  exact rfl
/-- The round trip of `qaddi`. -/
theorem RoundTrip.qaddi (p qd qa imm : Nat) (x : Option Nat) : RoundTrip.Statement (.qaddi p qd qa imm x) := by
  intro hw e he _
  have hw := of_decide_eq_true hw
  obtain rfl := Option.some.inj he
  refine (dec_qaddi (0x14 + p * 2 ^ 6 + qd * 2 ^ 10 + qa * 2 ^ 14 + imm * 2 ^ 18) x (by unfold fld; omega)).trans ?_
  congr 2 <;> (unfold fld; omega)

/-- The arm of the decoder. -/
theorem dec_qmul (w : Nat) (x : Option Nat) (h0 : fld w 0 6 = 0x15) (h1 : fld w 22 10 = 0 ∧ x = none) : decodeC w x = some (.qmul (fld w 6 4) (fld w 10 4) (fld w 14 4) (fld w 18 4)) := by
  unfold decodeC
  rw [h0]
  exact if_pos h1
/-- The round trip of `qmul`. -/
theorem RoundTrip.qmul (p qd qa qb : Nat) : RoundTrip.Statement (.qmul p qd qa qb) := by
  intro hw e he _
  have hw := of_decide_eq_true hw
  obtain rfl := Option.some.inj he
  refine (dec_qmul (0x15 + p * 2 ^ 6 + qd * 2 ^ 10 + qa * 2 ^ 14 + qb * 2 ^ 18) none (by unfold fld; omega) ⟨(by unfold fld; omega), rfl⟩).trans ?_
  congr 2 <;> (unfold fld; omega)

/-- The arm of the decoder. -/
theorem dec_qand (w : Nat) (x : Option Nat) (h0 : fld w 0 6 = 0x16) (h1 : fld w 22 10 = 0 ∧ x = none) : decodeC w x = some (.qand (fld w 6 4) (fld w 10 4) (fld w 14 4) (fld w 18 4)) := by
  unfold decodeC
  rw [h0]
  exact if_pos h1
/-- The round trip of `qand`. -/
theorem RoundTrip.qand (p qd qa qb : Nat) : RoundTrip.Statement (.qand p qd qa qb) := by
  intro hw e he _
  have hw := of_decide_eq_true hw
  obtain rfl := Option.some.inj he
  refine (dec_qand (0x16 + p * 2 ^ 6 + qd * 2 ^ 10 + qa * 2 ^ 14 + qb * 2 ^ 18) none (by unfold fld; omega) ⟨(by unfold fld; omega), rfl⟩).trans ?_
  congr 2 <;> (unfold fld; omega)

/-- The arm of the decoder. -/
theorem dec_qor (w : Nat) (x : Option Nat) (h0 : fld w 0 6 = 0x17) (h1 : fld w 22 10 = 0 ∧ x = none) : decodeC w x = some (.qor (fld w 6 4) (fld w 10 4) (fld w 14 4) (fld w 18 4)) := by
  unfold decodeC
  rw [h0]
  exact if_pos h1
/-- The round trip of `qor`. -/
theorem RoundTrip.qor (p qd qa qb : Nat) : RoundTrip.Statement (.qor p qd qa qb) := by
  intro hw e he _
  have hw := of_decide_eq_true hw
  obtain rfl := Option.some.inj he
  refine (dec_qor (0x17 + p * 2 ^ 6 + qd * 2 ^ 10 + qa * 2 ^ 14 + qb * 2 ^ 18) none (by unfold fld; omega) ⟨(by unfold fld; omega), rfl⟩).trans ?_
  congr 2 <;> (unfold fld; omega)

/-- The arm of the decoder. -/
theorem dec_qxor (w : Nat) (x : Option Nat) (h0 : fld w 0 6 = 0x18) (h1 : fld w 22 10 = 0 ∧ x = none) : decodeC w x = some (.qxor (fld w 6 4) (fld w 10 4) (fld w 14 4) (fld w 18 4)) := by
  unfold decodeC
  rw [h0]
  exact if_pos h1
/-- The round trip of `qxor`. -/
theorem RoundTrip.qxor (p qd qa qb : Nat) : RoundTrip.Statement (.qxor p qd qa qb) := by
  intro hw e he _
  have hw := of_decide_eq_true hw
  obtain rfl := Option.some.inj he
  refine (dec_qxor (0x18 + p * 2 ^ 6 + qd * 2 ^ 10 + qa * 2 ^ 14 + qb * 2 ^ 18) none (by unfold fld; omega) ⟨(by unfold fld; omega), rfl⟩).trans ?_
  congr 2 <;> (unfold fld; omega)

/-- The arm of the decoder. -/
theorem dec_qshl (w : Nat) (x : Option Nat) (h0 : fld w 0 6 = 0x19) (h1 : fld w 22 10 = 0 ∧ x = none) : decodeC w x = some (.qshl (fld w 6 4) (fld w 10 4) (fld w 14 4) (fld w 18 4)) := by
  unfold decodeC
  rw [h0]
  exact if_pos h1
/-- The round trip of `qshl`. -/
theorem RoundTrip.qshl (p qd qa qb : Nat) : RoundTrip.Statement (.qshl p qd qa qb) := by
  intro hw e he _
  have hw := of_decide_eq_true hw
  obtain rfl := Option.some.inj he
  refine (dec_qshl (0x19 + p * 2 ^ 6 + qd * 2 ^ 10 + qa * 2 ^ 14 + qb * 2 ^ 18) none (by unfold fld; omega) ⟨(by unfold fld; omega), rfl⟩).trans ?_
  congr 2 <;> (unfold fld; omega)

/-- The arm of the decoder. -/
theorem dec_qshr (w : Nat) (x : Option Nat) (h0 : fld w 0 6 = 0x1A) (h1 : fld w 22 10 = 0 ∧ x = none) : decodeC w x = some (.qshr (fld w 6 4) (fld w 10 4) (fld w 14 4) (fld w 18 4)) := by
  unfold decodeC
  rw [h0]
  exact if_pos h1
/-- The round trip of `qshr`. -/
theorem RoundTrip.qshr (p qd qa qb : Nat) : RoundTrip.Statement (.qshr p qd qa qb) := by
  intro hw e he _
  have hw := of_decide_eq_true hw
  obtain rfl := Option.some.inj he
  refine (dec_qshr (0x1A + p * 2 ^ 6 + qd * 2 ^ 10 + qa * 2 ^ 14 + qb * 2 ^ 18) none (by unfold fld; omega) ⟨(by unfold fld; omega), rfl⟩).trans ?_
  congr 2 <;> (unfold fld; omega)

/-- The arm of the decoder. -/
theorem dec_qsra (w : Nat) (x : Option Nat) (h0 : fld w 0 6 = 0x1B) (h1 : fld w 22 10 = 0 ∧ x = none) : decodeC w x = some (.qsra (fld w 6 4) (fld w 10 4) (fld w 14 4) (fld w 18 4)) := by
  unfold decodeC
  rw [h0]
  exact if_pos h1
/-- The round trip of `qsra`. -/
theorem RoundTrip.qsra (p qd qa qb : Nat) : RoundTrip.Statement (.qsra p qd qa qb) := by
  intro hw e he _
  have hw := of_decide_eq_true hw
  obtain rfl := Option.some.inj he
  refine (dec_qsra (0x1B + p * 2 ^ 6 + qd * 2 ^ 10 + qa * 2 ^ 14 + qb * 2 ^ 18) none (by unfold fld; omega) ⟨(by unfold fld; omega), rfl⟩).trans ?_
  congr 2 <;> (unfold fld; omega)

/-- The arm of the decoder. -/
theorem dec_qmin (w : Nat) (x : Option Nat) (h0 : fld w 0 6 = 0x1C) (h1 : fld w 22 10 = 0 ∧ x = none) : decodeC w x = some (.qmin (fld w 6 4) (fld w 10 4) (fld w 14 4) (fld w 18 4)) := by
  unfold decodeC
  rw [h0]
  exact if_pos h1
/-- The round trip of `qmin`. -/
theorem RoundTrip.qmin (p qd qa qb : Nat) : RoundTrip.Statement (.qmin p qd qa qb) := by
  intro hw e he _
  have hw := of_decide_eq_true hw
  obtain rfl := Option.some.inj he
  refine (dec_qmin (0x1C + p * 2 ^ 6 + qd * 2 ^ 10 + qa * 2 ^ 14 + qb * 2 ^ 18) none (by unfold fld; omega) ⟨(by unfold fld; omega), rfl⟩).trans ?_
  congr 2 <;> (unfold fld; omega)

/-- The arm of the decoder. -/
theorem dec_qmax (w : Nat) (x : Option Nat) (h0 : fld w 0 6 = 0x1D) (h1 : fld w 22 10 = 0 ∧ x = none) : decodeC w x = some (.qmax (fld w 6 4) (fld w 10 4) (fld w 14 4) (fld w 18 4)) := by
  unfold decodeC
  rw [h0]
  exact if_pos h1
/-- The round trip of `qmax`. -/
theorem RoundTrip.qmax (p qd qa qb : Nat) : RoundTrip.Statement (.qmax p qd qa qb) := by
  intro hw e he _
  have hw := of_decide_eq_true hw
  obtain rfl := Option.some.inj he
  refine (dec_qmax (0x1D + p * 2 ^ 6 + qd * 2 ^ 10 + qa * 2 ^ 14 + qb * 2 ^ 18) none (by unfold fld; omega) ⟨(by unfold fld; omega), rfl⟩).trans ?_
  congr 2 <;> (unfold fld; omega)

/-- The arm of the decoder. -/
theorem dec_qli (w : Nat) (x : Option Nat) (h0 : fld w 0 6 = 0x1E) : decodeC w x = some (.qli (fld w 6 4) (fld w 10 4) (fld w 14 18) x) := by
  unfold decodeC
  rw [h0]
  exact rfl
/-- The round trip of `qli`. -/
theorem RoundTrip.qli (p qd imm : Nat) (x : Option Nat) : RoundTrip.Statement (.qli p qd imm x) := by
  intro hw e he _
  have hw := of_decide_eq_true hw
  obtain rfl := Option.some.inj he
  refine (dec_qli (0x1E + p * 2 ^ 6 + qd * 2 ^ 10 + imm * 2 ^ 14) x (by unfold fld; omega)).trans ?_
  congr 2 <;> (unfold fld; omega)

/-- The arm of the decoder. -/
theorem dec_qget (w : Nat) (x : Option Nat) (h0 : fld w 0 6 = 0x1F) (h1 : fld w 18 14 = 0 ∧ (fld w 14 4) < 9 ∧ x = none) : decodeC w x = some (.qget (fld w 6 4) (fld w 10 4) (fld w 14 4)) := by
  unfold decodeC
  rw [h0]
  exact if_pos h1
/-- The round trip of `qget`. -/
theorem RoundTrip.qget (p qd sel : Nat) : RoundTrip.Statement (.qget p qd sel) := by
  intro hw e he _
  have hw := of_decide_eq_true hw
  obtain rfl := Option.some.inj he
  refine (dec_qget (0x1F + p * 2 ^ 6 + qd * 2 ^ 10 + sel * 2 ^ 14) none (by unfold fld; omega) ⟨(by unfold fld; omega), (by unfold fld; omega), rfl⟩).trans ?_
  congr 2 <;> (unfold fld; omega)

/-- The arm of the decoder. -/
theorem dec_mset (w : Nat) (x : Option Nat) (h0 : fld w 0 6 = 0x20) (h1 : fld w 17 15 = 0 ∧ x = none) : decodeC w x = some (.mset (fld w 6 4) (fld w 10 3) (fld w 13 4)) := by
  unfold decodeC
  rw [h0]
  exact if_pos h1
/-- The round trip of `mset`. -/
theorem RoundTrip.mset (p md qa : Nat) : RoundTrip.Statement (.mset p md qa) := by
  intro hw e he _
  have hw := of_decide_eq_true hw
  obtain rfl := Option.some.inj he
  refine (dec_mset (0x20 + p * 2 ^ 6 + md * 2 ^ 10 + qa * 2 ^ 13) none (by unfold fld; omega) ⟨(by unfold fld; omega), rfl⟩).trans ?_
  congr 2 <;> (unfold fld; omega)

/-- The arm of the decoder. -/
theorem dec_mwait (w : Nat) (x : Option Nat) (h0 : fld w 0 6 = 0x21) (h1 : fld w 18 14 = 0 ∧ (fld w 12 6) ≤ 32 ∧ x = none) : decodeC w x = some (.mwait (fld w 6 4) (fld w 10 2) (fld w 12 6)) := by
  unfold decodeC
  rw [h0]
  exact if_pos h1
/-- The round trip of `mwait`. -/
theorem RoundTrip.mwait (p tile rows : Nat) : RoundTrip.Statement (.mwait p tile rows) := by
  intro hw e he _
  have hw := of_decide_eq_true hw
  obtain rfl := Option.some.inj he
  refine (dec_mwait (0x21 + p * 2 ^ 6 + tile * 2 ^ 10 + rows * 2 ^ 12) none (by unfold fld; omega) ⟨(by unfold fld; omega), (by unfold fld; omega), rfl⟩).trans ?_
  congr 2 <;> (unfold fld; omega)

/-- The arm of the decoder. -/
theorem dec_pset (w : Nat) (x : Option Nat) (h0 : fld w 0 6 = 0x22) (h1 : fld w 26 6 = 0 ∧ (fld w 10 3) ≠ 0 ∧ ((fld w 15 1) = 0 ∨ (fld w 16 10) < 16) ∧ x = none) : decodeC w x = some (.pset (fld w 6 4) (fld w 10 3) (fld w 13 2) (fld w 15 1) (fld w 16 10)) := by
  unfold decodeC
  rw [h0]
  exact if_pos h1
/-- The round trip of `pset`. -/
theorem RoundTrip.pset (p pd w reg n : Nat) : RoundTrip.Statement (.pset p pd w reg n) := by
  intro hw e he _
  have hw := of_decide_eq_true hw
  obtain rfl := Option.some.inj he
  refine (dec_pset (0x22 + p * 2 ^ 6 + pd * 2 ^ 10 + w * 2 ^ 13 + reg * 2 ^ 15 + n * 2 ^ 16) none (by unfold fld; omega) ⟨(by unfold fld; omega), (by unfold fld; omega), (by unfold fld; omega), rfl⟩).trans ?_
  congr 2 <;> (unfold fld; omega)

/-- The arm of the decoder. -/
theorem dec_ptail (w : Nat) (x : Option Nat) (h0 : fld w 0 6 = 0x23) (h1 : fld w 22 10 = 0 ∧ (fld w 10 3) ≠ 0 ∧ (fld w 15 3) < 6 ∧ x = none) : decodeC w x = some (.ptail (fld w 6 4) (fld w 10 3) (fld w 13 2) (fld w 18 4) (fld w 15 3)) := by
  unfold decodeC
  rw [h0]
  exact if_pos h1
/-- The round trip of `ptail`. -/
theorem RoundTrip.ptail (p pd w qa len : Nat) : RoundTrip.Statement (.ptail p pd w qa len) := by
  intro hw e he _
  have hw := of_decide_eq_true hw
  obtain rfl := Option.some.inj he
  refine (dec_ptail (0x23 + p * 2 ^ 6 + pd * 2 ^ 10 + w * 2 ^ 13 + qa * 2 ^ 18 + len * 2 ^ 15) none (by unfold fld; omega) ⟨(by unfold fld; omega), (by unfold fld; omega), (by unfold fld; omega), rfl⟩).trans ?_
  congr 2 <;> (unfold fld; omega)

/-- The arm of the decoder. -/
theorem dec_ksr (w : Nat) (x : Option Nat) (h0 : fld w 0 6 = 0x24) (h1 : fld w 27 5 = 0 ∧ x = none) : decodeC w x = some (.ksr (fld w 6 4) (fld w 10 4) (fld w 14 13)) := by
  unfold decodeC
  rw [h0]
  exact if_pos h1
/-- The round trip of `ksr`. -/
theorem RoundTrip.ksr (p qd mask : Nat) : RoundTrip.Statement (.ksr p qd mask) := by
  intro hw e he _
  have hw := of_decide_eq_true hw
  obtain rfl := Option.some.inj he
  refine (dec_ksr (0x24 + p * 2 ^ 6 + qd * 2 ^ 10 + mask * 2 ^ 14) none (by unfold fld; omega) ⟨(by unfold fld; omega), rfl⟩).trans ?_
  congr 2 <;> (unfold fld; omega)

/-- The arm of the decoder. -/
theorem dec_ksc (w : Nat) (x : Option Nat) (h0 : fld w 0 6 = 0x25) (h1 : fld w 14 18 = 0 ∧ x = none) : decodeC w x = some (.ksc (fld w 6 4) (fld w 10 4)) := by
  unfold decodeC
  rw [h0]
  exact if_pos h1
/-- The round trip of `ksc`. -/
theorem RoundTrip.ksc (p qa : Nat) : RoundTrip.Statement (.ksc p qa) := by
  intro hw e he _
  have hw := of_decide_eq_true hw
  obtain rfl := Option.some.inj he
  refine (dec_ksc (0x25 + p * 2 ^ 6 + qa * 2 ^ 10) none (by unfold fld; omega) ⟨(by unfold fld; omega), rfl⟩).trans ?_
  congr 2 <;> (unfold fld; omega)

/-- The arm of the decoder. -/
theorem dec_pref (w : Nat) (x : Option Nat) (h0 : fld w 0 6 = 0x27) (h1 : fld w 18 14 = 0 ∧ x = none) : decodeC w x = some (.pref (fld w 6 4) (fld w 10 4) (fld w 14 4)) := by
  unfold decodeC
  rw [h0]
  exact if_pos h1
/-- The round trip of `pref`. -/
theorem RoundTrip.pref (p qa qb : Nat) : RoundTrip.Statement (.pref p qa qb) := by
  intro hw e he _
  have hw := of_decide_eq_true hw
  obtain rfl := Option.some.inj he
  refine (dec_pref (0x27 + p * 2 ^ 6 + qa * 2 ^ 10 + qb * 2 ^ 14) none (by unfold fld; omega) ⟨(by unfold fld; omega), rfl⟩).trans ?_
  congr 2 <;> (unfold fld; omega)

/-- The arm of the decoder. -/
theorem dec_qsd (w : Nat) (x : Option Nat) (h0 : fld w 0 6 = 0x28) (h1 : fld w 21 11 = 0 ∧ (fld w 18 3) < 5 ∧ x = none) : decodeC w x = some (.qsd (fld w 6 4) (fld w 10 4) (fld w 14 4) (fld w 18 3)) := by
  unfold decodeC
  rw [h0]
  exact if_pos h1
/-- The round trip of `qsd`. -/
theorem RoundTrip.qsd (p qd s field : Nat) : RoundTrip.Statement (.qsd p qd s field) := by
  intro hw e he _
  have hw := of_decide_eq_true hw
  obtain rfl := Option.some.inj he
  refine (dec_qsd (0x28 + p * 2 ^ 6 + qd * 2 ^ 10 + s * 2 ^ 14 + field * 2 ^ 18) none (by unfold fld; omega) ⟨(by unfold fld; omega), (by unfold fld; omega), rfl⟩).trans ?_
  congr 2 <;> (unfold fld; omega)

/-- The arm of the decoder. -/
theorem dec_gadd (w : Nat) (x : Option Nat) (h0 : fld w 0 6 = 0x01) (h1 : fld w 25 7 = 0 ∧ x = none) : decodeS w x = some (.gadd (fld w 6 4) (fld w 10 5) (fld w 15 5) (fld w 20 5)) := by
  unfold decodeS
  rw [h0]
  exact if_pos h1
/-- The round trip of `gadd`. -/
theorem RoundTrip.gadd (p gd ga gb : Nat) : RoundTrip.Statement (.gadd p gd ga gb) := by
  intro hw e he _
  have hw := of_decide_eq_true hw
  obtain rfl := Option.some.inj he
  refine (dec_gadd (0x01 + p * 2 ^ 6 + gd * 2 ^ 10 + ga * 2 ^ 15 + gb * 2 ^ 20) none (by unfold fld; omega) ⟨(by unfold fld; omega), rfl⟩).trans ?_
  congr 2 <;> (unfold fld; omega)

/-- The arm of the decoder. -/
theorem dec_gsub (w : Nat) (x : Option Nat) (h0 : fld w 0 6 = 0x02) (h1 : fld w 25 7 = 0 ∧ x = none) : decodeS w x = some (.gsub (fld w 6 4) (fld w 10 5) (fld w 15 5) (fld w 20 5)) := by
  unfold decodeS
  rw [h0]
  exact if_pos h1
/-- The round trip of `gsub`. -/
theorem RoundTrip.gsub (p gd ga gb : Nat) : RoundTrip.Statement (.gsub p gd ga gb) := by
  intro hw e he _
  have hw := of_decide_eq_true hw
  obtain rfl := Option.some.inj he
  refine (dec_gsub (0x02 + p * 2 ^ 6 + gd * 2 ^ 10 + ga * 2 ^ 15 + gb * 2 ^ 20) none (by unfold fld; omega) ⟨(by unfold fld; omega), rfl⟩).trans ?_
  congr 2 <;> (unfold fld; omega)

/-- The arm of the decoder. -/
theorem dec_gaddi (w : Nat) (x : Option Nat) (h0 : fld w 0 6 = 0x03) : decodeS w x = some (.gaddi (fld w 6 4) (fld w 10 5) (fld w 15 5) (fld w 20 12) x) := by
  unfold decodeS
  rw [h0]
  exact rfl
/-- The round trip of `gaddi`. -/
theorem RoundTrip.gaddi (p gd ga imm : Nat) (x : Option Nat) : RoundTrip.Statement (.gaddi p gd ga imm x) := by
  intro hw e he _
  have hw := of_decide_eq_true hw
  obtain rfl := Option.some.inj he
  refine (dec_gaddi (0x03 + p * 2 ^ 6 + gd * 2 ^ 10 + ga * 2 ^ 15 + imm * 2 ^ 20) x (by unfold fld; omega)).trans ?_
  congr 2 <;> (unfold fld; omega)

/-- The arm of the decoder. -/
theorem dec_gmul (w : Nat) (x : Option Nat) (h0 : fld w 0 6 = 0x04) (h1 : fld w 25 7 = 0 ∧ x = none) : decodeS w x = some (.gmul (fld w 6 4) (fld w 10 5) (fld w 15 5) (fld w 20 5)) := by
  unfold decodeS
  rw [h0]
  exact if_pos h1
/-- The round trip of `gmul`. -/
theorem RoundTrip.gmul (p gd ga gb : Nat) : RoundTrip.Statement (.gmul p gd ga gb) := by
  intro hw e he _
  have hw := of_decide_eq_true hw
  obtain rfl := Option.some.inj he
  refine (dec_gmul (0x04 + p * 2 ^ 6 + gd * 2 ^ 10 + ga * 2 ^ 15 + gb * 2 ^ 20) none (by unfold fld; omega) ⟨(by unfold fld; omega), rfl⟩).trans ?_
  congr 2 <;> (unfold fld; omega)

/-- The arm of the decoder. -/
theorem dec_gmulh (w : Nat) (x : Option Nat) (h0 : fld w 0 6 = 0x05) (h1 : (fld w 25 7) < 2 ∧ x = none) : decodeS w x = some (.gmulh (fld w 6 4) (fld w 10 5) (fld w 15 5) (fld w 20 5) (fld w 25 7)) := by
  unfold decodeS
  rw [h0]
  exact if_pos h1
/-- The round trip of `gmulh`. -/
theorem RoundTrip.gmulh (p gd ga gb n : Nat) : RoundTrip.Statement (.gmulh p gd ga gb n) := by
  intro hw e he _
  have hw := of_decide_eq_true hw
  obtain rfl := Option.some.inj he
  refine (dec_gmulh (0x05 + p * 2 ^ 6 + gd * 2 ^ 10 + ga * 2 ^ 15 + gb * 2 ^ 20 + n * 2 ^ 25) none (by unfold fld; omega) ⟨(by unfold fld; omega), rfl⟩).trans ?_
  congr 2 <;> (unfold fld; omega)

/-- The arm of the decoder. -/
theorem dec_gand (w : Nat) (x : Option Nat) (h0 : fld w 0 6 = 0x06) (h1 : fld w 25 7 = 0 ∧ x = none) : decodeS w x = some (.gand (fld w 6 4) (fld w 10 5) (fld w 15 5) (fld w 20 5)) := by
  unfold decodeS
  rw [h0]
  exact if_pos h1
/-- The round trip of `gand`. -/
theorem RoundTrip.gand (p gd ga gb : Nat) : RoundTrip.Statement (.gand p gd ga gb) := by
  intro hw e he _
  have hw := of_decide_eq_true hw
  obtain rfl := Option.some.inj he
  refine (dec_gand (0x06 + p * 2 ^ 6 + gd * 2 ^ 10 + ga * 2 ^ 15 + gb * 2 ^ 20) none (by unfold fld; omega) ⟨(by unfold fld; omega), rfl⟩).trans ?_
  congr 2 <;> (unfold fld; omega)

/-- The arm of the decoder. -/
theorem dec_gor (w : Nat) (x : Option Nat) (h0 : fld w 0 6 = 0x07) (h1 : fld w 25 7 = 0 ∧ x = none) : decodeS w x = some (.gor (fld w 6 4) (fld w 10 5) (fld w 15 5) (fld w 20 5)) := by
  unfold decodeS
  rw [h0]
  exact if_pos h1
/-- The round trip of `gor`. -/
theorem RoundTrip.gor (p gd ga gb : Nat) : RoundTrip.Statement (.gor p gd ga gb) := by
  intro hw e he _
  have hw := of_decide_eq_true hw
  obtain rfl := Option.some.inj he
  refine (dec_gor (0x07 + p * 2 ^ 6 + gd * 2 ^ 10 + ga * 2 ^ 15 + gb * 2 ^ 20) none (by unfold fld; omega) ⟨(by unfold fld; omega), rfl⟩).trans ?_
  congr 2 <;> (unfold fld; omega)

/-- The arm of the decoder. -/
theorem dec_gxor (w : Nat) (x : Option Nat) (h0 : fld w 0 6 = 0x08) (h1 : fld w 25 7 = 0 ∧ x = none) : decodeS w x = some (.gxor (fld w 6 4) (fld w 10 5) (fld w 15 5) (fld w 20 5)) := by
  unfold decodeS
  rw [h0]
  exact if_pos h1
/-- The round trip of `gxor`. -/
theorem RoundTrip.gxor (p gd ga gb : Nat) : RoundTrip.Statement (.gxor p gd ga gb) := by
  intro hw e he _
  have hw := of_decide_eq_true hw
  obtain rfl := Option.some.inj he
  refine (dec_gxor (0x08 + p * 2 ^ 6 + gd * 2 ^ 10 + ga * 2 ^ 15 + gb * 2 ^ 20) none (by unfold fld; omega) ⟨(by unfold fld; omega), rfl⟩).trans ?_
  congr 2 <;> (unfold fld; omega)

/-- The arm of the decoder. -/
theorem dec_gshl (w : Nat) (x : Option Nat) (h0 : fld w 0 6 = 0x09) (h1 : fld w 25 7 = 0 ∧ x = none) : decodeS w x = some (.gshl (fld w 6 4) (fld w 10 5) (fld w 15 5) (fld w 20 5)) := by
  unfold decodeS
  rw [h0]
  exact if_pos h1
/-- The round trip of `gshl`. -/
theorem RoundTrip.gshl (p gd ga gb : Nat) : RoundTrip.Statement (.gshl p gd ga gb) := by
  intro hw e he _
  have hw := of_decide_eq_true hw
  obtain rfl := Option.some.inj he
  refine (dec_gshl (0x09 + p * 2 ^ 6 + gd * 2 ^ 10 + ga * 2 ^ 15 + gb * 2 ^ 20) none (by unfold fld; omega) ⟨(by unfold fld; omega), rfl⟩).trans ?_
  congr 2 <;> (unfold fld; omega)

/-- The arm of the decoder. -/
theorem dec_gshr (w : Nat) (x : Option Nat) (h0 : fld w 0 6 = 0x0A) (h1 : fld w 25 7 = 0 ∧ x = none) : decodeS w x = some (.gshr (fld w 6 4) (fld w 10 5) (fld w 15 5) (fld w 20 5)) := by
  unfold decodeS
  rw [h0]
  exact if_pos h1
/-- The round trip of `gshr`. -/
theorem RoundTrip.gshr (p gd ga gb : Nat) : RoundTrip.Statement (.gshr p gd ga gb) := by
  intro hw e he _
  have hw := of_decide_eq_true hw
  obtain rfl := Option.some.inj he
  refine (dec_gshr (0x0A + p * 2 ^ 6 + gd * 2 ^ 10 + ga * 2 ^ 15 + gb * 2 ^ 20) none (by unfold fld; omega) ⟨(by unfold fld; omega), rfl⟩).trans ?_
  congr 2 <;> (unfold fld; omega)

/-- The arm of the decoder. -/
theorem dec_gsra (w : Nat) (x : Option Nat) (h0 : fld w 0 6 = 0x0B) (h1 : fld w 25 7 = 0 ∧ x = none) : decodeS w x = some (.gsra (fld w 6 4) (fld w 10 5) (fld w 15 5) (fld w 20 5)) := by
  unfold decodeS
  rw [h0]
  exact if_pos h1
/-- The round trip of `gsra`. -/
theorem RoundTrip.gsra (p gd ga gb : Nat) : RoundTrip.Statement (.gsra p gd ga gb) := by
  intro hw e he _
  have hw := of_decide_eq_true hw
  obtain rfl := Option.some.inj he
  refine (dec_gsra (0x0B + p * 2 ^ 6 + gd * 2 ^ 10 + ga * 2 ^ 15 + gb * 2 ^ 20) none (by unfold fld; omega) ⟨(by unfold fld; omega), rfl⟩).trans ?_
  congr 2 <;> (unfold fld; omega)

/-- The arm of the decoder. -/
theorem dec_gshi (w : Nat) (x : Option Nat) (h0 : fld w 0 6 = 0x0C) (h1 : (fld w 20 5) < 4 ∧ (fld w 25 7) < 64 ∧ x = none) : decodeS w x = some (.gshi (fld w 6 4) (fld w 10 5) (fld w 15 5) (fld w 20 5) (fld w 25 7)) := by
  unfold decodeS
  rw [h0]
  exact if_pos h1
/-- The round trip of `gshi`. -/
theorem RoundTrip.gshi (p gd ga k amt : Nat) : RoundTrip.Statement (.gshi p gd ga k amt) := by
  intro hw e he _
  have hw := of_decide_eq_true hw
  obtain rfl := Option.some.inj he
  refine (dec_gshi (0x0C + p * 2 ^ 6 + gd * 2 ^ 10 + ga * 2 ^ 15 + k * 2 ^ 20 + amt * 2 ^ 25) none (by unfold fld; omega) ⟨(by unfold fld; omega), (by unfold fld; omega), rfl⟩).trans ?_
  congr 2 <;> (unfold fld; omega)

/-- The arm of the decoder. -/
theorem dec_gmin (w : Nat) (x : Option Nat) (h0 : fld w 0 6 = 0x0D) (h1 : fld w 25 7 = 0 ∧ x = none) : decodeS w x = some (.gmin (fld w 6 4) (fld w 10 5) (fld w 15 5) (fld w 20 5)) := by
  unfold decodeS
  rw [h0]
  exact if_pos h1
/-- The round trip of `gmin`. -/
theorem RoundTrip.gmin (p gd ga gb : Nat) : RoundTrip.Statement (.gmin p gd ga gb) := by
  intro hw e he _
  have hw := of_decide_eq_true hw
  obtain rfl := Option.some.inj he
  refine (dec_gmin (0x0D + p * 2 ^ 6 + gd * 2 ^ 10 + ga * 2 ^ 15 + gb * 2 ^ 20) none (by unfold fld; omega) ⟨(by unfold fld; omega), rfl⟩).trans ?_
  congr 2 <;> (unfold fld; omega)

/-- The arm of the decoder. -/
theorem dec_gmax (w : Nat) (x : Option Nat) (h0 : fld w 0 6 = 0x0E) (h1 : fld w 25 7 = 0 ∧ x = none) : decodeS w x = some (.gmax (fld w 6 4) (fld w 10 5) (fld w 15 5) (fld w 20 5)) := by
  unfold decodeS
  rw [h0]
  exact if_pos h1
/-- The round trip of `gmax`. -/
theorem RoundTrip.gmax (p gd ga gb : Nat) : RoundTrip.Statement (.gmax p gd ga gb) := by
  intro hw e he _
  have hw := of_decide_eq_true hw
  obtain rfl := Option.some.inj he
  refine (dec_gmax (0x0E + p * 2 ^ 6 + gd * 2 ^ 10 + ga * 2 ^ 15 + gb * 2 ^ 20) none (by unfold fld; omega) ⟨(by unfold fld; omega), rfl⟩).trans ?_
  congr 2 <;> (unfold fld; omega)

/-- The arm of the decoder. -/
theorem dec_gslt (w : Nat) (x : Option Nat) (h0 : fld w 0 6 = 0x0F) (h1 : fld w 25 7 = 0 ∧ x = none) : decodeS w x = some (.gslt (fld w 6 4) (fld w 10 5) (fld w 15 5) (fld w 20 5)) := by
  unfold decodeS
  rw [h0]
  exact if_pos h1
/-- The round trip of `gslt`. -/
theorem RoundTrip.gslt (p gd ga gb : Nat) : RoundTrip.Statement (.gslt p gd ga gb) := by
  intro hw e he _
  have hw := of_decide_eq_true hw
  obtain rfl := Option.some.inj he
  refine (dec_gslt (0x0F + p * 2 ^ 6 + gd * 2 ^ 10 + ga * 2 ^ 15 + gb * 2 ^ 20) none (by unfold fld; omega) ⟨(by unfold fld; omega), rfl⟩).trans ?_
  congr 2 <;> (unfold fld; omega)

/-- The arm of the decoder. -/
theorem dec_gsltn (w : Nat) (x : Option Nat) (h0 : fld w 0 6 = 0x10) (h1 : fld w 25 7 = 0 ∧ x = none) : decodeS w x = some (.gsltn (fld w 6 4) (fld w 10 5) (fld w 15 5) (fld w 20 5)) := by
  unfold decodeS
  rw [h0]
  exact if_pos h1
/-- The round trip of `gsltn`. -/
theorem RoundTrip.gsltn (p gd ga gb : Nat) : RoundTrip.Statement (.gsltn p gd ga gb) := by
  intro hw e he _
  have hw := of_decide_eq_true hw
  obtain rfl := Option.some.inj he
  refine (dec_gsltn (0x10 + p * 2 ^ 6 + gd * 2 ^ 10 + ga * 2 ^ 15 + gb * 2 ^ 20) none (by unfold fld; omega) ⟨(by unfold fld; omega), rfl⟩).trans ?_
  congr 2 <;> (unfold fld; omega)

/-- The arm of the decoder. -/
theorem dec_gli (w : Nat) (x : Option Nat) (h0 : fld w 0 6 = 0x11) (h1 : fld w 15 5 = 0) : decodeS w x = some (.gli (fld w 6 4) (fld w 10 5) (fld w 20 12) x) := by
  unfold decodeS
  rw [h0]
  exact if_pos h1
/-- The round trip of `gli`. -/
theorem RoundTrip.gli (p gd imm : Nat) (x : Option Nat) : RoundTrip.Statement (.gli p gd imm x) := by
  intro hw e he _
  have hw := of_decide_eq_true hw
  obtain rfl := Option.some.inj he
  refine (dec_gli (0x11 + p * 2 ^ 6 + gd * 2 ^ 10 + imm * 2 ^ 20) x (by unfold fld; omega) (by unfold fld; omega)).trans ?_
  congr 2 <;> (unfold fld; omega)

/-- The arm of the decoder. -/
theorem dec_gfrq (w : Nat) (x : Option Nat) (h0 : fld w 0 6 = 0x12) (h1 : fld w 19 13 = 0 ∧ x = none) : decodeS w x = some (.gfrq (fld w 6 4) (fld w 10 5) (fld w 15 4)) := by
  unfold decodeS
  rw [h0]
  exact if_pos h1
/-- The round trip of `gfrq`. -/
theorem RoundTrip.gfrq (p gd n : Nat) : RoundTrip.Statement (.gfrq p gd n) := by
  intro hw e he _
  have hw := of_decide_eq_true hw
  obtain rfl := Option.some.inj he
  refine (dec_gfrq (0x12 + p * 2 ^ 6 + gd * 2 ^ 10 + n * 2 ^ 15) none (by unfold fld; omega) ⟨(by unfold fld; omega), rfl⟩).trans ?_
  congr 2 <;> (unfold fld; omega)

/-- The arm of the decoder. -/
theorem dec_gext (w : Nat) (x : Option Nat) (h0 : fld w 0 6 = 0x13) (h1 : x = none) : decodeS w x = some (.gext (fld w 6 4) (fld w 10 5) (fld w 15 5) (fld w 20 5) (fld w 25 7)) := by
  unfold decodeS
  rw [h0]
  exact if_pos h1
/-- The round trip of `gext`. -/
theorem RoundTrip.gext (p gd ga gb imm : Nat) : RoundTrip.Statement (.gext p gd ga gb imm) := by
  intro hw e he _
  have hw := of_decide_eq_true hw
  obtain rfl := Option.some.inj he
  refine (dec_gext (0x13 + p * 2 ^ 6 + gd * 2 ^ 10 + ga * 2 ^ 15 + gb * 2 ^ 20 + imm * 2 ^ 25) none (by unfold fld; omega) rfl).trans ?_
  congr 2 <;> (unfold fld; omega)

/-- The arm of the decoder. -/
theorem dec_gins (w : Nat) (x : Option Nat) (h0 : fld w 0 6 = 0x14) (h1 : (fld w 25 7) < 64 ∧ x = none) : decodeS w x = some (.gins (fld w 6 4) (fld w 10 5) (fld w 15 5) (fld w 20 5) (fld w 25 7)) := by
  unfold decodeS
  rw [h0]
  exact if_pos h1
/-- The round trip of `gins`. -/
theorem RoundTrip.gins (p gd ga gb imm : Nat) : RoundTrip.Statement (.gins p gd ga gb imm) := by
  intro hw e he _
  have hw := of_decide_eq_true hw
  obtain rfl := Option.some.inj he
  refine (dec_gins (0x14 + p * 2 ^ 6 + gd * 2 ^ 10 + ga * 2 ^ 15 + gb * 2 ^ 20 + imm * 2 ^ 25) none (by unfold fld; omega) ⟨(by unfold fld; omega), rfl⟩).trans ?_
  congr 2 <;> (unfold fld; omega)

/-- The arm of the decoder. -/
theorem dec_gcid (w : Nat) (x : Option Nat) (h0 : fld w 0 6 = 0x15) (h1 : fld w 15 17 = 0 ∧ x = none) : decodeS w x = some (.gcid (fld w 6 4) (fld w 10 5)) := by
  unfold decodeS
  rw [h0]
  exact if_pos h1
/-- The round trip of `gcid`. -/
theorem RoundTrip.gcid (p gd : Nat) : RoundTrip.Statement (.gcid p gd) := by
  intro hw e he _
  have hw := of_decide_eq_true hw
  obtain rfl := Option.some.inj he
  refine (dec_gcid (0x15 + p * 2 ^ 6 + gd * 2 ^ 10) none (by unfold fld; omega) ⟨(by unfold fld; omega), rfl⟩).trans ?_
  congr 2 <;> (unfold fld; omega)

/-- The arm of the decoder. -/
theorem dec_gsel (w : Nat) (x : Option Nat) (h0 : fld w 0 6 = 0x16) (h1 : fld w 25 7 = 0 ∧ x = none) : decodeS w x = some (.gsel (fld w 6 4) (fld w 10 5) (fld w 15 5) (fld w 20 5)) := by
  unfold decodeS
  rw [h0]
  exact if_pos h1
/-- The round trip of `gsel`. -/
theorem RoundTrip.gsel (p gd ga gb : Nat) : RoundTrip.Statement (.gsel p gd ga gb) := by
  intro hw e he _
  have hw := of_decide_eq_true hw
  obtain rfl := Option.some.inj he
  refine (dec_gsel (0x16 + p * 2 ^ 6 + gd * 2 ^ 10 + ga * 2 ^ 15 + gb * 2 ^ 20) none (by unfold fld; omega) ⟨(by unfold fld; omega), rfl⟩).trans ?_
  congr 2 <;> (unfold fld; omega)

/-- The arm of the decoder. -/
theorem dec_gclz (w : Nat) (x : Option Nat) (h0 : fld w 0 6 = 0x17) (h1 : fld w 20 12 = 0 ∧ x = none) : decodeS w x = some (.gclz (fld w 6 4) (fld w 10 5) (fld w 15 5)) := by
  unfold decodeS
  rw [h0]
  exact if_pos h1
/-- The round trip of `gclz`. -/
theorem RoundTrip.gclz (p gd ga : Nat) : RoundTrip.Statement (.gclz p gd ga) := by
  intro hw e he _
  have hw := of_decide_eq_true hw
  obtain rfl := Option.some.inj he
  refine (dec_gclz (0x17 + p * 2 ^ 6 + gd * 2 ^ 10 + ga * 2 ^ 15) none (by unfold fld; omega) ⟨(by unfold fld; omega), rfl⟩).trans ?_
  congr 2 <;> (unfold fld; omega)

/-- The arm of the decoder. -/
theorem dec_xadd (w : Nat) (x : Option Nat) (h0 : fld w 0 6 = 0x01) (h1 : fld w 22 10 = 0 ∧ x = none) : decodeX w x = some (.xadd (fld w 6 4) (fld w 10 4) (fld w 14 4) (fld w 18 4)) := by
  unfold decodeX
  rw [h0]
  exact if_pos h1
/-- The round trip of `xadd`. -/
theorem RoundTrip.xadd (p id ia ib : Nat) : RoundTrip.Statement (.xadd p id ia ib) := by
  intro hw e he _
  have hw := of_decide_eq_true hw
  obtain rfl := Option.some.inj he
  refine (dec_xadd (0x01 + p * 2 ^ 6 + id * 2 ^ 10 + ia * 2 ^ 14 + ib * 2 ^ 18) none (by unfold fld; omega) ⟨(by unfold fld; omega), rfl⟩).trans ?_
  congr 2 <;> (unfold fld; omega)

/-- The arm of the decoder. -/
theorem dec_xaddi (w : Nat) (x : Option Nat) (h0 : fld w 0 6 = 0x02) (h1 : fld w 18 4 = 0) : decodeX w x = some (.xaddi (fld w 6 4) (fld w 10 4) (fld w 14 4) (fld w 22 10) x) := by
  unfold decodeX
  rw [h0]
  exact if_pos h1
/-- The round trip of `xaddi`. -/
theorem RoundTrip.xaddi (p id ia imm : Nat) (x : Option Nat) : RoundTrip.Statement (.xaddi p id ia imm x) := by
  intro hw e he _
  have hw := of_decide_eq_true hw
  obtain rfl := Option.some.inj he
  refine (dec_xaddi (0x02 + p * 2 ^ 6 + id * 2 ^ 10 + ia * 2 ^ 14 + imm * 2 ^ 22) x (by unfold fld; omega) (by unfold fld; omega)).trans ?_
  congr 2 <;> (unfold fld; omega)

/-- The arm of the decoder. -/
theorem dec_xsub (w : Nat) (x : Option Nat) (h0 : fld w 0 6 = 0x03) (h1 : fld w 22 10 = 0 ∧ x = none) : decodeX w x = some (.xsub (fld w 6 4) (fld w 10 4) (fld w 14 4) (fld w 18 4)) := by
  unfold decodeX
  rw [h0]
  exact if_pos h1
/-- The round trip of `xsub`. -/
theorem RoundTrip.xsub (p id ia ib : Nat) : RoundTrip.Statement (.xsub p id ia ib) := by
  intro hw e he _
  have hw := of_decide_eq_true hw
  obtain rfl := Option.some.inj he
  refine (dec_xsub (0x03 + p * 2 ^ 6 + id * 2 ^ 10 + ia * 2 ^ 14 + ib * 2 ^ 18) none (by unfold fld; omega) ⟨(by unfold fld; omega), rfl⟩).trans ?_
  congr 2 <;> (unfold fld; omega)

/-- The arm of the decoder. -/
theorem dec_xshl (w : Nat) (x : Option Nat) (h0 : fld w 0 6 = 0x04) (h1 : fld w 22 10 = 0 ∧ x = none) : decodeX w x = some (.xshl (fld w 6 4) (fld w 10 4) (fld w 14 4) (fld w 18 4)) := by
  unfold decodeX
  rw [h0]
  exact if_pos h1
/-- The round trip of `xshl`. -/
theorem RoundTrip.xshl (p id ia ib : Nat) : RoundTrip.Statement (.xshl p id ia ib) := by
  intro hw e he _
  have hw := of_decide_eq_true hw
  obtain rfl := Option.some.inj he
  refine (dec_xshl (0x04 + p * 2 ^ 6 + id * 2 ^ 10 + ia * 2 ^ 14 + ib * 2 ^ 18) none (by unfold fld; omega) ⟨(by unfold fld; omega), rfl⟩).trans ?_
  congr 2 <;> (unfold fld; omega)

/-- The arm of the decoder. -/
theorem dec_xand (w : Nat) (x : Option Nat) (h0 : fld w 0 6 = 0x05) (h1 : fld w 22 10 = 0 ∧ x = none) : decodeX w x = some (.xand (fld w 6 4) (fld w 10 4) (fld w 14 4) (fld w 18 4)) := by
  unfold decodeX
  rw [h0]
  exact if_pos h1
/-- The round trip of `xand`. -/
theorem RoundTrip.xand (p id ia ib : Nat) : RoundTrip.Statement (.xand p id ia ib) := by
  intro hw e he _
  have hw := of_decide_eq_true hw
  obtain rfl := Option.some.inj he
  refine (dec_xand (0x05 + p * 2 ^ 6 + id * 2 ^ 10 + ia * 2 ^ 14 + ib * 2 ^ 18) none (by unfold fld; omega) ⟨(by unfold fld; omega), rfl⟩).trans ?_
  congr 2 <;> (unfold fld; omega)

/-- The arm of the decoder. -/
theorem dec_xpopc (w : Nat) (x : Option Nat) (h0 : fld w 0 6 = 0x06) (h1 : fld w 18 14 = 0 ∧ x = none) : decodeX w x = some (.xpopc (fld w 6 4) (fld w 10 4) (fld w 14 4)) := by
  unfold decodeX
  rw [h0]
  exact if_pos h1
/-- The round trip of `xpopc`. -/
theorem RoundTrip.xpopc (p id ia : Nat) : RoundTrip.Statement (.xpopc p id ia) := by
  intro hw e he _
  have hw := of_decide_eq_true hw
  obtain rfl := Option.some.inj he
  refine (dec_xpopc (0x06 + p * 2 ^ 6 + id * 2 ^ 10 + ia * 2 ^ 14) none (by unfold fld; omega) ⟨(by unfold fld; omega), rfl⟩).trans ?_
  congr 2 <;> (unfold fld; omega)

/-- The arm of the decoder. -/
theorem dec_xpopb (w : Nat) (x : Option Nat) (h0 : fld w 0 6 = 0x07) (h1 : fld w 22 10 = 0 ∧ x = none) : decodeX w x = some (.xpopb (fld w 6 4) (fld w 10 4) (fld w 14 4) (fld w 18 4)) := by
  unfold decodeX
  rw [h0]
  exact if_pos h1
/-- The round trip of `xpopb`. -/
theorem RoundTrip.xpopb (p id ia ib : Nat) : RoundTrip.Statement (.xpopb p id ia ib) := by
  intro hw e he _
  have hw := of_decide_eq_true hw
  obtain rfl := Option.some.inj he
  refine (dec_xpopb (0x07 + p * 2 ^ 6 + id * 2 ^ 10 + ia * 2 ^ 14 + ib * 2 ^ 18) none (by unfold fld; omega) ⟨(by unfold fld; omega), rfl⟩).trans ?_
  congr 2 <;> (unfold fld; omega)

/-- The arm of the decoder. -/
theorem dec_xcadv (w : Nat) (x : Option Nat) (h0 : fld w 0 6 = 0x08) (h1 : fld w 22 10 = 0 ∧ x = none) : decodeX w x = some (.xcadv (fld w 6 4) (fld w 10 4) (fld w 14 4) (fld w 18 4)) := by
  unfold decodeX
  rw [h0]
  exact if_pos h1
/-- The round trip of `xcadv`. -/
theorem RoundTrip.xcadv (p id ia ib : Nat) : RoundTrip.Statement (.xcadv p id ia ib) := by
  intro hw e he _
  have hw := of_decide_eq_true hw
  obtain rfl := Option.some.inj he
  refine (dec_xcadv (0x08 + p * 2 ^ 6 + id * 2 ^ 10 + ia * 2 ^ 14 + ib * 2 ^ 18) none (by unfold fld; omega) ⟨(by unfold fld; omega), rfl⟩).trans ?_
  congr 2 <;> (unfold fld; omega)

/-- The arm of the decoder. -/
theorem dec_xaq (w : Nat) (x : Option Nat) (h0 : fld w 0 6 = 0x0A) (h1 : fld w 18 4 = 0 ∧ x = none) : decodeX w x = some (.xaq (fld w 6 4) (fld w 10 4) (fld w 14 4) (fld w 22 10)) := by
  unfold decodeX
  rw [h0]
  exact if_pos h1
/-- The round trip of `xaq`. -/
theorem RoundTrip.xaq (p s ia imm : Nat) : RoundTrip.Statement (.xaq p s ia imm) := by
  intro hw e he _
  have hw := of_decide_eq_true hw
  obtain rfl := Option.some.inj he
  refine (dec_xaq (0x0A + p * 2 ^ 6 + s * 2 ^ 10 + ia * 2 ^ 14 + imm * 2 ^ 22) none (by unfold fld; omega) ⟨(by unfold fld; omega), rfl⟩).trans ?_
  congr 2 <;> (unfold fld; omega)

/-- The arm of the decoder. -/
theorem dec_xaqs (w : Nat) (x : Option Nat) (h0 : fld w 0 6 = 0x0B) (h1 : fld w 18 4 = 0 ∧ x = none) : decodeX w x = some (.xaqs (fld w 6 4) (fld w 10 4) (fld w 14 4) (fld w 22 10)) := by
  unfold decodeX
  rw [h0]
  exact if_pos h1
/-- The round trip of `xaqs`. -/
theorem RoundTrip.xaqs (p s ia imm : Nat) : RoundTrip.Statement (.xaqs p s ia imm) := by
  intro hw e he _
  have hw := of_decide_eq_true hw
  obtain rfl := Option.some.inj he
  refine (dec_xaqs (0x0B + p * 2 ^ 6 + s * 2 ^ 10 + ia * 2 ^ 14 + imm * 2 ^ 22) none (by unfold fld; omega) ⟨(by unfold fld; omega), rfl⟩).trans ?_
  congr 2 <;> (unfold fld; omega)

/-- The arm of the decoder. -/
theorem dec_xmin (w : Nat) (x : Option Nat) (h0 : fld w 0 6 = 0x0C) (h1 : fld w 22 10 = 0 ∧ x = none) : decodeX w x = some (.xmin (fld w 6 4) (fld w 10 4) (fld w 14 4) (fld w 18 4)) := by
  unfold decodeX
  rw [h0]
  exact if_pos h1
/-- The round trip of `xmin`. -/
theorem RoundTrip.xmin (p id ia ib : Nat) : RoundTrip.Statement (.xmin p id ia ib) := by
  intro hw e he _
  have hw := of_decide_eq_true hw
  obtain rfl := Option.some.inj he
  refine (dec_xmin (0x0C + p * 2 ^ 6 + id * 2 ^ 10 + ia * 2 ^ 14 + ib * 2 ^ 18) none (by unfold fld; omega) ⟨(by unfold fld; omega), rfl⟩).trans ?_
  congr 2 <;> (unfold fld; omega)

/-- The arm of the decoder. -/
theorem dec_xsel (w : Nat) (x : Option Nat) (h0 : fld w 0 6 = 0x0D) (h1 : fld w 22 10 = 0 ∧ x = none) : decodeX w x = some (.xsel (fld w 6 4) (fld w 10 4) (fld w 14 4) (fld w 18 4)) := by
  unfold decodeX
  rw [h0]
  exact if_pos h1
/-- The round trip of `xsel`. -/
theorem RoundTrip.xsel (p id ia ib : Nat) : RoundTrip.Statement (.xsel p id ia ib) := by
  intro hw e he _
  have hw := of_decide_eq_true hw
  obtain rfl := Option.some.inj he
  refine (dec_xsel (0x0D + p * 2 ^ 6 + id * 2 ^ 10 + ia * 2 ^ 14 + ib * 2 ^ 18) none (by unfold fld; omega) ⟨(by unfold fld; omega), rfl⟩).trans ?_
  congr 2 <;> (unfold fld; omega)

/-- The arm of the decoder. -/
theorem dec_xli (w : Nat) (x : Option Nat) (h0 : fld w 0 6 = 0x0E) (h1 : fld w 14 8 = 0) : decodeX w x = some (.xli (fld w 6 4) (fld w 10 4) (fld w 22 10) x) := by
  unfold decodeX
  rw [h0]
  exact if_pos h1
/-- The round trip of `xli`. -/
theorem RoundTrip.xli (p id imm : Nat) (x : Option Nat) : RoundTrip.Statement (.xli p id imm x) := by
  intro hw e he _
  have hw := of_decide_eq_true hw
  obtain rfl := Option.some.inj he
  refine (dec_xli (0x0E + p * 2 ^ 6 + id * 2 ^ 10 + imm * 2 ^ 22) x (by unfold fld; omega) (by unfold fld; omega)).trans ?_
  congr 2 <;> (unfold fld; omega)

/-- The arm of the decoder. -/
theorem dec_xfrg (w : Nat) (x : Option Nat) (h0 : fld w 0 6 = 0x0F) (h1 : fld w 14 8 = 0 ∧ fld w 27 5 = 0 ∧ x = none) : decodeX w x = some (.xfrg (fld w 6 4) (fld w 10 4) (fld w 22 5)) := by
  unfold decodeX
  rw [h0]
  exact if_pos h1
/-- The round trip of `xfrg`. -/
theorem RoundTrip.xfrg (p id g : Nat) : RoundTrip.Statement (.xfrg p id g) := by
  intro hw e he _
  have hw := of_decide_eq_true hw
  obtain rfl := Option.some.inj he
  refine (dec_xfrg (0x0F + p * 2 ^ 6 + id * 2 ^ 10 + g * 2 ^ 22) none (by unfold fld; omega) ⟨(by unfold fld; omega), (by unfold fld; omega), rfl⟩).trans ?_
  congr 2 <;> (unfold fld; omega)

/-- The arm of the decoder. -/
theorem dec_xtog (w : Nat) (x : Option Nat) (h0 : fld w 0 6 = 0x10) (h1 : fld w 10 4 = 0 ∧ fld w 18 4 = 0 ∧ fld w 27 5 = 0 ∧ x = none) : decodeX w x = some (.xtog (fld w 6 4) (fld w 22 5) (fld w 14 4)) := by
  unfold decodeX
  rw [h0]
  exact if_pos h1
/-- The round trip of `xtog`. -/
theorem RoundTrip.xtog (p g ia : Nat) : RoundTrip.Statement (.xtog p g ia) := by
  intro hw e he _
  have hw := of_decide_eq_true hw
  obtain rfl := Option.some.inj he
  refine (dec_xtog (0x10 + p * 2 ^ 6 + g * 2 ^ 22 + ia * 2 ^ 14) none (by unfold fld; omega) ⟨(by unfold fld; omega), (by unfold fld; omega), (by unfold fld; omega), rfl⟩).trans ?_
  congr 2 <;> (unfold fld; omega)

/-- The arm of the decoder. -/
theorem dec_xrank (w : Nat) (x : Option Nat) (h0 : fld w 0 6 = 0x11) (h1 : fld w 22 10 = 0 ∧ x = none) : decodeX w x = some (.xrank (fld w 6 4) (fld w 10 4) (fld w 14 4) (fld w 18 4)) := by
  unfold decodeX
  rw [h0]
  exact if_pos h1
/-- The round trip of `xrank`. -/
theorem RoundTrip.xrank (p id ia ib : Nat) : RoundTrip.Statement (.xrank p id ia ib) := by
  intro hw e he _
  have hw := of_decide_eq_true hw
  obtain rfl := Option.some.inj he
  refine (dec_xrank (0x11 + p * 2 ^ 6 + id * 2 ^ 10 + ia * 2 ^ 14 + ib * 2 ^ 18) none (by unfold fld; omega) ⟨(by unfold fld; omega), rfl⟩).trans ?_
  congr 2 <;> (unfold fld; omega)

/-- The arm of the decoder. -/
theorem dec_xmax (w : Nat) (x : Option Nat) (h0 : fld w 0 6 = 0x12) (h1 : fld w 22 10 = 0 ∧ x = none) : decodeX w x = some (.xmax (fld w 6 4) (fld w 10 4) (fld w 14 4) (fld w 18 4)) := by
  unfold decodeX
  rw [h0]
  exact if_pos h1
/-- The round trip of `xmax`. -/
theorem RoundTrip.xmax (p id ia ib : Nat) : RoundTrip.Statement (.xmax p id ia ib) := by
  intro hw e he _
  have hw := of_decide_eq_true hw
  obtain rfl := Option.some.inj he
  refine (dec_xmax (0x12 + p * 2 ^ 6 + id * 2 ^ 10 + ia * 2 ^ 14 + ib * 2 ^ 18) none (by unfold fld; omega) ⟨(by unfold fld; omega), rfl⟩).trans ?_
  congr 2 <;> (unfold fld; omega)

/-- The arm of the decoder. -/
theorem dec_mcall (w : Nat) (x : Option Nat) (h0 : fld w 0 6 = 0x01) (h1 : x = none) : decodeM w x = some (.mcall (fld w 6 4) (fld w 10 8) (fld w 18 2) (fld w 20 4) (fld w 24 4) (fld w 28 4)) := by
  unfold decodeM
  rw [h0]
  exact if_pos h1
/-- The round trip of `mcall`. -/
theorem RoundTrip.mcall (p routine tile a b flags : Nat) : RoundTrip.Statement (.mcall p routine tile a b flags) := by
  intro hw e he _
  have hw := of_decide_eq_true hw
  obtain rfl := Option.some.inj he
  refine (dec_mcall (0x01 + p * 2 ^ 6 + routine * 2 ^ 10 + tile * 2 ^ 18 + a * 2 ^ 20 + b * 2 ^ 24 + flags * 2 ^ 28) none (by unfold fld; omega) rfl).trans ?_
  congr 2 <;> (unfold fld; omega)

/-- The arm of the decoder. -/
theorem dec_mzero (w : Nat) (x : Option Nat) (h0 : fld w 0 6 = 0x02) (h1 : fld w 10 8 = 0 ∧ fld w 20 12 = 0 ∧ x = none) : decodeM w x = some (.mzero (fld w 6 4) (fld w 18 2)) := by
  unfold decodeM
  rw [h0]
  exact if_pos h1
/-- The round trip of `mzero`. -/
theorem RoundTrip.mzero (p tile : Nat) : RoundTrip.Statement (.mzero p tile) := by
  intro hw e he _
  have hw := of_decide_eq_true hw
  obtain rfl := Option.some.inj he
  refine (dec_mzero (0x02 + p * 2 ^ 6 + tile * 2 ^ 18) none (by unfold fld; omega) ⟨(by unfold fld; omega), (by unfold fld; omega), rfl⟩).trans ?_
  congr 2 <;> (unfold fld; omega)

/-- The arm of the decoder. -/
theorem dec_mmode (w : Nat) (x : Option Nat) (h0 : fld w 0 6 = 0x03) (h1 : fld w 10 8 = 0 ∧ fld w 20 8 = 0 ∧ fld w 29 3 = 0 ∧ x = none) : decodeM w x = some (.mmode (fld w 6 4) (fld w 18 2) (fld w 28 1)) := by
  unfold decodeM
  rw [h0]
  exact if_pos h1
/-- The round trip of `mmode`. -/
theorem RoundTrip.mmode (p tile v : Nat) : RoundTrip.Statement (.mmode p tile v) := by
  intro hw e he _
  have hw := of_decide_eq_true hw
  obtain rfl := Option.some.inj he
  refine (dec_mmode (0x03 + p * 2 ^ 6 + tile * 2 ^ 18 + v * 2 ^ 28) none (by unfold fld; omega) ⟨(by unfold fld; omega), (by unfold fld; omega), (by unfold fld; omega), rfl⟩).trans ?_
  congr 2 <;> (unfold fld; omega)

/-- The arm of the decoder. -/
theorem dec_mfence (w : Nat) (x : Option Nat) (h0 : fld w 0 6 = 0x04) (h1 : fld w 10 22 = 0 ∧ x = none) : decodeM w x = some (.mfence (fld w 6 4)) := by
  unfold decodeM
  rw [h0]
  exact if_pos h1
/-- The round trip of `mfence`. -/
theorem RoundTrip.mfence (p : Nat) : RoundTrip.Statement (.mfence p) := by
  intro hw e he _
  have hw := of_decide_eq_true hw
  obtain rfl := Option.some.inj he
  refine (dec_mfence (0x04 + p * 2 ^ 6) none (by unfold fld; omega) ⟨(by unfold fld; omega), rfl⟩).trans ?_
  congr 2 <;> (unfold fld; omega)

/-- The arm of the decoder. -/
theorem dec_mwm (w : Nat) (x : Option Nat) (h0 : fld w 0 6 = 0x05) (h1 : fld w 10 8 = 0 ∧ fld w 20 8 = 0 ∧ fld w 29 3 = 0 ∧ x = none) : decodeM w x = some (.mwm (fld w 6 4) (fld w 18 2) (fld w 28 1)) := by
  unfold decodeM
  rw [h0]
  exact if_pos h1
/-- The round trip of `mwm`. -/
theorem RoundTrip.mwm (p tile v : Nat) : RoundTrip.Statement (.mwm p tile v) := by
  intro hw e he _
  have hw := of_decide_eq_true hw
  obtain rfl := Option.some.inj he
  refine (dec_mwm (0x05 + p * 2 ^ 6 + tile * 2 ^ 18 + v * 2 ^ 28) none (by unfold fld; omega) ⟨(by unfold fld; omega), (by unfold fld; omega), (by unfold fld; omega), rfl⟩).trans ?_
  congr 2 <;> (unfold fld; omega)

/-- The arm of the decoder. -/
theorem dec_wperm (w : Nat) (x : Option Nat) (h0 : fld w 0 6 = 0x01) (h1 : fld w 28 4 = 0 ∧ x = none) : decodeW w x = some (.wperm (fld w 6 4) (fld w 10 7) (fld w 17 7) (fld w 24 4)) := by
  unfold decodeW
  rw [h0]
  exact if_pos h1
/-- The round trip of `wperm`. -/
theorem RoundTrip.wperm (p vd vs ia : Nat) : RoundTrip.Statement (.wperm p vd vs ia) := by
  intro hw e he _
  have hw := of_decide_eq_true hw
  obtain rfl := Option.some.inj he
  refine (dec_wperm (0x01 + p * 2 ^ 6 + vd * 2 ^ 10 + vs * 2 ^ 17 + ia * 2 ^ 24) none (by unfold fld; omega) ⟨(by unfold fld; omega), rfl⟩).trans ?_
  congr 2 <;> (unfold fld; omega)

/-- The arm of the decoder. -/
theorem dec_wbcast (w : Nat) (x : Option Nat) (h0 : fld w 0 6 = 0x02) (h1 : x = none) : decodeW w x = some (.wbcast (fld w 6 4) (fld w 10 7) (fld w 17 7) (fld w 24 8)) := by
  unfold decodeW
  rw [h0]
  exact if_pos h1
/-- The round trip of `wbcast`. -/
theorem RoundTrip.wbcast (p vd vs n : Nat) : RoundTrip.Statement (.wbcast p vd vs n) := by
  intro hw e he _
  have hw := of_decide_eq_true hw
  obtain rfl := Option.some.inj he
  refine (dec_wbcast (0x02 + p * 2 ^ 6 + vd * 2 ^ 10 + vs * 2 ^ 17 + n * 2 ^ 24) none (by unfold fld; omega) rfl).trans ?_
  congr 2 <;> (unfold fld; omega)

/-- The arm of the decoder. -/
theorem dec_wrot (w : Nat) (x : Option Nat) (h0 : fld w 0 6 = 0x03) (h1 : x = none) : decodeW w x = some (.wrot (fld w 6 4) (fld w 10 7) (fld w 17 7) (fld w 24 8)) := by
  unfold decodeW
  rw [h0]
  exact if_pos h1
/-- The round trip of `wrot`. -/
theorem RoundTrip.wrot (p vd vs n : Nat) : RoundTrip.Statement (.wrot p vd vs n) := by
  intro hw e he _
  have hw := of_decide_eq_true hw
  obtain rfl := Option.some.inj he
  refine (dec_wrot (0x03 + p * 2 ^ 6 + vd * 2 ^ 10 + vs * 2 ^ 17 + n * 2 ^ 24) none (by unfold fld; omega) rfl).trans ?_
  congr 2 <;> (unfold fld; omega)

/-- The arm of the decoder. -/
theorem dec_wbfly (w : Nat) (x : Option Nat) (h0 : fld w 0 6 = 0x04) (h1 : x = none) : decodeW w x = some (.wbfly (fld w 6 4) (fld w 10 7) (fld w 17 7) (fld w 24 8)) := by
  unfold decodeW
  rw [h0]
  exact if_pos h1
/-- The round trip of `wbfly`. -/
theorem RoundTrip.wbfly (p vd vs n : Nat) : RoundTrip.Statement (.wbfly p vd vs n) := by
  intro hw e he _
  have hw := of_decide_eq_true hw
  obtain rfl := Option.some.inj he
  refine (dec_wbfly (0x04 + p * 2 ^ 6 + vd * 2 ^ 10 + vs * 2 ^ 17 + n * 2 ^ 24) none (by unfold fld; omega) rfl).trans ?_
  congr 2 <;> (unfold fld; omega)

/-- The arm of the decoder. -/
theorem dec_wrsum (w : Nat) (x : Option Nat) (h0 : fld w 0 6 = 0x05) (h1 : fld w 27 5 = 0 ∧ (fld w 24 3) < 7 ∧ x = none) : decodeW w x = some (.wrsum (fld w 6 4) (fld w 10 7) (fld w 17 7) (fld w 24 3)) := by
  unfold decodeW
  rw [h0]
  exact if_pos h1
/-- The round trip of `wrsum`. -/
theorem RoundTrip.wrsum (p vd vs n : Nat) : RoundTrip.Statement (.wrsum p vd vs n) := by
  intro hw e he _
  have hw := of_decide_eq_true hw
  obtain rfl := Option.some.inj he
  refine (dec_wrsum (0x05 + p * 2 ^ 6 + vd * 2 ^ 10 + vs * 2 ^ 17 + n * 2 ^ 24) none (by unfold fld; omega) ⟨(by unfold fld; omega), (by unfold fld; omega), rfl⟩).trans ?_
  congr 2 <;> (unfold fld; omega)

/-- The arm of the decoder. -/
theorem dec_wrmax (w : Nat) (x : Option Nat) (h0 : fld w 0 6 = 0x06) (h1 : fld w 27 5 = 0 ∧ (fld w 24 3) < 7 ∧ x = none) : decodeW w x = some (.wrmax (fld w 6 4) (fld w 10 7) (fld w 17 7) (fld w 24 3)) := by
  unfold decodeW
  rw [h0]
  exact if_pos h1
/-- The round trip of `wrmax`. -/
theorem RoundTrip.wrmax (p vd vs n : Nat) : RoundTrip.Statement (.wrmax p vd vs n) := by
  intro hw e he _
  have hw := of_decide_eq_true hw
  obtain rfl := Option.some.inj he
  refine (dec_wrmax (0x06 + p * 2 ^ 6 + vd * 2 ^ 10 + vs * 2 ^ 17 + n * 2 ^ 24) none (by unfold fld; omega) ⟨(by unfold fld; omega), (by unfold fld; omega), rfl⟩).trans ?_
  congr 2 <;> (unfold fld; omega)

/-- The arm of the decoder. -/
theorem dec_wsegsum (w : Nat) (x : Option Nat) (h0 : fld w 0 6 = 0x07) (h1 : fld w 31 1 = 0 ∧ (fld w 24 3) < 7 ∧ x = none) : decodeW w x = some (.wsegsum (fld w 6 4) (fld w 10 7) (fld w 17 7) (fld w 24 3) (fld w 27 4)) := by
  unfold decodeW
  rw [h0]
  exact if_pos h1
/-- The round trip of `wsegsum`. -/
theorem RoundTrip.wsegsum (p vd vs t ia : Nat) : RoundTrip.Statement (.wsegsum p vd vs t ia) := by
  intro hw e he _
  have hw := of_decide_eq_true hw
  obtain rfl := Option.some.inj he
  refine (dec_wsegsum (0x07 + p * 2 ^ 6 + vd * 2 ^ 10 + vs * 2 ^ 17 + t * 2 ^ 24 + ia * 2 ^ 27) none (by unfold fld; omega) ⟨(by unfold fld; omega), (by unfold fld; omega), rfl⟩).trans ?_
  congr 2 <;> (unfold fld; omega)

/-- The arm of the decoder. -/
theorem dec_wscan (w : Nat) (x : Option Nat) (h0 : fld w 0 6 = 0x08) (h1 : fld w 27 5 = 0 ∧ (fld w 24 3) < 7 ∧ x = none) : decodeW w x = some (.wscan (fld w 6 4) (fld w 10 7) (fld w 17 7) (fld w 24 3)) := by
  unfold decodeW
  rw [h0]
  exact if_pos h1
/-- The round trip of `wscan`. -/
theorem RoundTrip.wscan (p vd vs n : Nat) : RoundTrip.Statement (.wscan p vd vs n) := by
  intro hw e he _
  have hw := of_decide_eq_true hw
  obtain rfl := Option.some.inj he
  refine (dec_wscan (0x08 + p * 2 ^ 6 + vd * 2 ^ 10 + vs * 2 ^ 17 + n * 2 ^ 24) none (by unfold fld; omega) ⟨(by unfold fld; omega), (by unfold fld; omega), rfl⟩).trans ?_
  congr 2 <;> (unfold fld; omega)

/-- The arm of the decoder. -/
theorem dec_spop (w : Nat) (x : Option Nat) (h0 : fld w 0 6 = 0x01) (h1 : fld w 24 8 = 0 ∧ (fld w 21 3) < 6 ∧ (fld w 14 7) + (fld w 21 3) < 128 ∧ x = none) : decodeP w x = some (.spop (fld w 6 4) (fld w 10 4) (fld w 14 7) (fld w 21 3)) := by
  unfold decodeP
  rw [h0]
  exact if_pos h1
/-- The round trip of `spop`. -/
theorem RoundTrip.spop (p s v len : Nat) : RoundTrip.Statement (.spop p s v len) := by
  intro hw e he _
  have hw := of_decide_eq_true hw
  obtain rfl := Option.some.inj he
  refine (dec_spop (0x01 + p * 2 ^ 6 + s * 2 ^ 10 + v * 2 ^ 14 + len * 2 ^ 21) none (by unfold fld; omega) ⟨(by unfold fld; omega), (by unfold fld; omega), (by unfold fld; omega), rfl⟩).trans ?_
  congr 2 <;> (unfold fld; omega)

/-- The arm of the decoder. -/
theorem dec_spush (w : Nat) (x : Option Nat) (h0 : fld w 0 6 = 0x02) (h1 : fld w 24 8 = 0 ∧ (fld w 21 3) < 6 ∧ (fld w 14 7) + (fld w 21 3) < 128 ∧ x = none) : decodeP w x = some (.spush (fld w 6 4) (fld w 10 4) (fld w 14 7) (fld w 21 3)) := by
  unfold decodeP
  rw [h0]
  exact if_pos h1
/-- The round trip of `spush`. -/
theorem RoundTrip.spush (p s v len : Nat) : RoundTrip.Statement (.spush p s v len) := by
  intro hw e he _
  have hw := of_decide_eq_true hw
  obtain rfl := Option.some.inj he
  refine (dec_spush (0x02 + p * 2 ^ 6 + s * 2 ^ 10 + v * 2 ^ 14 + len * 2 ^ 21) none (by unfold fld; omega) ⟨(by unfold fld; omega), (by unfold fld; omega), (by unfold fld; omega), rfl⟩).trans ?_
  congr 2 <;> (unfold fld; omega)

/-- The arm of the decoder. -/
theorem dec_sadv (w : Nat) (x : Option Nat) (h0 : fld w 0 6 = 0x03) (h1 : fld w 14 7 = 0) : decodeP w x = some (.sadv (fld w 6 4) (fld w 10 4) (fld w 21 11) x) := by
  unfold decodeP
  rw [h0]
  exact if_pos h1
/-- The round trip of `sadv`. -/
theorem RoundTrip.sadv (p s imm : Nat) (x : Option Nat) : RoundTrip.Statement (.sadv p s imm x) := by
  intro hw e he _
  have hw := of_decide_eq_true hw
  obtain rfl := Option.some.inj he
  refine (dec_sadv (0x03 + p * 2 ^ 6 + s * 2 ^ 10 + imm * 2 ^ 21) x (by unfold fld; omega) (by unfold fld; omega)).trans ?_
  congr 2 <;> (unfold fld; omega)

/-- The arm of the decoder. -/
theorem dec_speek (w : Nat) (x : Option Nat) (h0 : fld w 0 6 = 0x04) (h1 : fld w 24 8 = 0 ∧ (fld w 21 3) < 6 ∧ (fld w 14 7) + (fld w 21 3) < 128 ∧ x = none) : decodeP w x = some (.speek (fld w 6 4) (fld w 10 4) (fld w 14 7) (fld w 21 3)) := by
  unfold decodeP
  rw [h0]
  exact if_pos h1
/-- The round trip of `speek`. -/
theorem RoundTrip.speek (p s v len : Nat) : RoundTrip.Statement (.speek p s v len) := by
  intro hw e he _
  have hw := of_decide_eq_true hw
  obtain rfl := Option.some.inj he
  refine (dec_speek (0x04 + p * 2 ^ 6 + s * 2 ^ 10 + v * 2 ^ 14 + len * 2 ^ 21) none (by unfold fld; omega) ⟨(by unfold fld; omega), (by unfold fld; omega), (by unfold fld; omega), rfl⟩).trans ?_
  congr 2 <;> (unfold fld; omega)

/-- The arm of the decoder. -/
theorem dec_sldl (w : Nat) (x : Option Nat) (h0 : fld w 0 6 = 0x05) (h1 : fld w 27 5 = 0 ∧ x = none) : decodeP w x = some (.sldl (fld w 6 4) (fld w 10 4) (fld w 14 7) (fld w 21 4) (fld w 25 2)) := by
  unfold decodeP
  rw [h0]
  exact if_pos h1
/-- The round trip of `sldl`. -/
theorem RoundTrip.sldl (p s v ia w : Nat) : RoundTrip.Statement (.sldl p s v ia w) := by
  intro hw e he _
  have hw := of_decide_eq_true hw
  obtain rfl := Option.some.inj he
  refine (dec_sldl (0x05 + p * 2 ^ 6 + s * 2 ^ 10 + v * 2 ^ 14 + ia * 2 ^ 21 + w * 2 ^ 25) none (by unfold fld; omega) ⟨(by unfold fld; omega), rfl⟩).trans ?_
  congr 2 <;> (unfold fld; omega)

/-- The arm of the decoder. -/
theorem dec_sstu (w : Nat) (x : Option Nat) (h0 : fld w 0 6 = 0x06) (h1 : fld w 27 5 = 0 ∧ x = none) : decodeP w x = some (.sstu (fld w 6 4) (fld w 10 4) (fld w 14 7) (fld w 21 4) (fld w 25 2)) := by
  unfold decodeP
  rw [h0]
  exact if_pos h1
/-- The round trip of `sstu`. -/
theorem RoundTrip.sstu (p s v ia w : Nat) : RoundTrip.Statement (.sstu p s v ia w) := by
  intro hw e he _
  have hw := of_decide_eq_true hw
  obtain rfl := Option.some.inj he
  refine (dec_sstu (0x06 + p * 2 ^ 6 + s * 2 ^ 10 + v * 2 ^ 14 + ia * 2 ^ 21 + w * 2 ^ 25) none (by unfold fld; omega) ⟨(by unfold fld; omega), rfl⟩).trans ?_
  congr 2 <;> (unfold fld; omega)

/-- The arm of the decoder. -/
theorem dec_sld (w : Nat) (x : Option Nat) (h0 : fld w 0 6 = 0x07) (h1 : (fld w 21 11) % 128 = 0) : decodeP w x = some (.sld (fld w 6 4) (fld w 10 4) (fld w 14 7) (fld w 21 11) x) := by
  unfold decodeP
  rw [h0]
  exact if_pos h1
/-- The round trip of `sld`. -/
theorem RoundTrip.sld (p s v imm : Nat) (x : Option Nat) : RoundTrip.Statement (.sld p s v imm x) := by
  intro hw e he _
  have hw := of_decide_eq_true hw
  obtain rfl := Option.some.inj he
  refine (dec_sld (0x07 + p * 2 ^ 6 + s * 2 ^ 10 + v * 2 ^ 14 + imm * 2 ^ 21) x (by unfold fld; omega) (by unfold fld; omega)).trans ?_
  congr 2 <;> (unfold fld; omega)

/-- The arm of the decoder. -/
theorem dec_sst (w : Nat) (x : Option Nat) (h0 : fld w 0 6 = 0x08) (h1 : (fld w 21 11) % 128 = 0) : decodeP w x = some (.sst (fld w 6 4) (fld w 10 4) (fld w 14 7) (fld w 21 11) x) := by
  unfold decodeP
  rw [h0]
  exact if_pos h1
/-- The round trip of `sst`. -/
theorem RoundTrip.sst (p s v imm : Nat) (x : Option Nat) : RoundTrip.Statement (.sst p s v imm x) := by
  intro hw e he _
  have hw := of_decide_eq_true hw
  obtain rfl := Option.some.inj he
  refine (dec_sst (0x08 + p * 2 ^ 6 + s * 2 ^ 10 + v * 2 ^ 14 + imm * 2 ^ 21) x (by unfold fld; omega) (by unfold fld; omega)).trans ?_
  congr 2 <;> (unfold fld; omega)

/-- The arm of the decoder. -/
theorem dec_dqpop (w : Nat) (x : Option Nat) (h0 : fld w 0 6 = 0x09) (h1 : fld w 10 4 = 0 ∧ fld w 28 4 = 0 ∧ (fld w 21 5) < 128 / 2 ^ (fld w 26 2) ∧ x = none) : decodeP w x = some (.dqpop (fld w 6 4) (fld w 14 7) (fld w 21 5) (fld w 26 2)) := by
  unfold decodeP
  rw [h0]
  exact if_pos h1
/-- The round trip of `dqpop`. -/
theorem RoundTrip.dqpop (p v n w : Nat) : RoundTrip.Statement (.dqpop p v n w) := by
  intro hw e he _
  have hw := of_decide_eq_true hw
  obtain rfl := Option.some.inj he
  refine (dec_dqpop (0x09 + p * 2 ^ 6 + v * 2 ^ 14 + n * 2 ^ 21 + w * 2 ^ 26) none (by unfold fld; omega) ⟨(by unfold fld; omega), (by unfold fld; omega), (by rw [show fld _ 21 5 = n by unfold fld; omega, show fld _ 26 2 = w by unfold fld; omega]; exact hw.2.2.2.2), rfl⟩).trans ?_
  congr 2 <;> (unfold fld; omega)

/-- The arm of the decoder. -/
theorem dec_dqn (w : Nat) (x : Option Nat) (h0 : fld w 0 6 = 0x0A) (h1 : fld w 10 4 = 0 ∧ fld w 21 11 = 0 ∧ x = none) : decodeP w x = some (.dqn (fld w 6 4) (fld w 14 7)) := by
  unfold decodeP
  rw [h0]
  exact if_pos h1
/-- The round trip of `dqn`. -/
theorem RoundTrip.dqn (p v : Nat) : RoundTrip.Statement (.dqn p v) := by
  intro hw e he _
  have hw := of_decide_eq_true hw
  obtain rfl := Option.some.inj he
  refine (dec_dqn (0x0A + p * 2 ^ 6 + v * 2 ^ 14) none (by unfold fld; omega) ⟨(by unfold fld; omega), (by unfold fld; omega), rfl⟩).trans ?_
  congr 2 <;> (unfold fld; omega)

/-- The arm of the decoder. -/
theorem dec_sflush (w : Nat) (x : Option Nat) (h0 : fld w 0 6 = 0x0B) (h1 : fld w 14 18 = 0 ∧ x = none) : decodeP w x = some (.sflush (fld w 6 4) (fld w 10 4)) := by
  unfold decodeP
  rw [h0]
  exact if_pos h1
/-- The round trip of `sflush`. -/
theorem RoundTrip.sflush (p s : Nat) : RoundTrip.Statement (.sflush p s) := by
  intro hw e he _
  have hw := of_decide_eq_true hw
  obtain rfl := Option.some.inj he
  refine (dec_sflush (0x0B + p * 2 ^ 6 + s * 2 ^ 10) none (by unfold fld; omega) ⟨(by unfold fld; omega), rfl⟩).trans ?_
  congr 2 <;> (unfold fld; omega)

/-- The arm of the decoder. -/
theorem dec_kcopy (w : Nat) (x : Option Nat) (h0 : fld w 0 6 = 0x0C) (h1 : fld w 14 7 = 0 ∧ x = none) : decodeP w x = some (.kcopy (fld w 6 4) (fld w 10 4) (fld w 21 1) (fld w 22 10)) := by
  unfold decodeP
  rw [h0]
  exact if_pos h1
/-- The round trip of `kcopy`. -/
theorem RoundTrip.kcopy (p s dir limit : Nat) : RoundTrip.Statement (.kcopy p s dir limit) := by
  intro hw e he _
  have hw := of_decide_eq_true hw
  obtain rfl := Option.some.inj he
  refine (dec_kcopy (0x0C + p * 2 ^ 6 + s * 2 ^ 10 + dir * 2 ^ 21 + limit * 2 ^ 22) none (by unfold fld; omega) ⟨(by unfold fld; omega), rfl⟩).trans ?_
  congr 2 <;> (unfold fld; omega)

/-- The arm of the decoder. -/
theorem dec_spos (w : Nat) (x : Option Nat) (h0 : fld w 0 6 = 0x0D) (h1 : fld w 21 11 = 0 ∧ x = none) : decodeP w x = some (.spos (fld w 6 4) (fld w 10 4) (fld w 14 7)) := by
  unfold decodeP
  rw [h0]
  exact if_pos h1
/-- The round trip of `spos`. -/
theorem RoundTrip.spos (p s v : Nat) : RoundTrip.Statement (.spos p s v) := by
  intro hw e he _
  have hw := of_decide_eq_true hw
  obtain rfl := Option.some.inj he
  refine (dec_spos (0x0D + p * 2 ^ 6 + s * 2 ^ 10 + v * 2 ^ 14) none (by unfold fld; omega) ⟨(by unfold fld; omega), rfl⟩).trans ?_
  congr 2 <;> (unfold fld; omega)

/-- The arm of the decoder. -/
theorem dec_seos (w : Nat) (x : Option Nat) (h0 : fld w 0 6 = 0x0E) (h1 : fld w 14 18 = 0 ∧ x = none) : decodeP w x = some (.seos (fld w 6 4) (fld w 10 4)) := by
  unfold decodeP
  rw [h0]
  exact if_pos h1
/-- The round trip of `seos`. -/
theorem RoundTrip.seos (p s : Nat) : RoundTrip.Statement (.seos p s) := by
  intro hw e he _
  have hw := of_decide_eq_true hw
  obtain rfl := Option.some.inj he
  refine (dec_seos (0x0E + p * 2 ^ 6 + s * 2 ^ 10) none (by unfold fld; omega) ⟨(by unfold fld; omega), rfl⟩).trans ?_
  congr 2 <;> (unfold fld; omega)

/-- The arm of the decoder. -/
theorem dec_kstep (w : Nat) (h0 : fld w 58 6 = 0x01) (h1 : fld w 5 53 = 0) : decodeMicro w = some (.kstep (fld w 0 2) (fld w 2 1) (fld w 3 1) (fld w 4 1)) := by
  unfold decodeMicro
  rw [h0]
  exact if_pos h1
/-- The round trip of `kstep`. -/
theorem RoundTrip.kstep (g na nb noacc : Nat) : RoundTrip.Statement (.kstep g na nb noacc) := by
  intro hw e he _
  have hw := of_decide_eq_true hw
  obtain rfl := Option.some.inj he
  refine (dec_kstep (0x01 * 2 ^ 58 + g + na * 2 ^ 2 + nb * 2 ^ 3 + noacc * 2 ^ 4) (by unfold fld; omega) (by unfold fld; omega)).trans ?_
  congr 2 <;> (unfold fld; omega)

/-- The arm of the decoder. -/
theorem dec_ksteps (w : Nat) (h0 : fld w 58 6 = 0x02) (h1 : fld w 5 53 = 0) : decodeMicro w = some (.ksteps (fld w 0 2) (fld w 2 1) (fld w 3 1) (fld w 4 1)) := by
  unfold decodeMicro
  rw [h0]
  exact if_pos h1
/-- The round trip of `ksteps`. -/
theorem RoundTrip.ksteps (g na nb noacc : Nat) : RoundTrip.Statement (.ksteps g na nb noacc) := by
  intro hw e he _
  have hw := of_decide_eq_true hw
  obtain rfl := Option.some.inj he
  refine (dec_ksteps (0x02 * 2 ^ 58 + g + na * 2 ^ 2 + nb * 2 ^ 3 + noacc * 2 ^ 4) (by unfold fld; omega) (by unfold fld; omega)).trans ?_
  congr 2 <;> (unfold fld; omega)

/-- The arm of the decoder. -/
theorem dec_rpop (w : Nat) (h0 : fld w 58 6 = 0x03) (h1 : fld w 14 44 = 0 ∧ ((fld w 1 1) = 0 ∨ (fld w 2 12) < 8)) : decodeMicro w = some (.rpop (fld w 0 1) (fld w 1 1) (fld w 2 12)) := by
  unfold decodeMicro
  rw [h0]
  exact if_pos h1
/-- The round trip of `rpop`. -/
theorem RoundTrip.rpop (ring reg n : Nat) : RoundTrip.Statement (.rpop ring reg n) := by
  intro hw e he _
  have hw := of_decide_eq_true hw
  obtain rfl := Option.some.inj he
  refine (dec_rpop (0x03 * 2 ^ 58 + ring + reg * 2 ^ 1 + n * 2 ^ 2) (by unfold fld; omega) ⟨(by unfold fld; omega), (by unfold fld; omega)⟩).trans ?_
  congr 2 <;> (unfold fld; omega)

/-- The arm of the decoder. -/
theorem dec_rpeek (w : Nat) (h0 : fld w 58 6 = 0x04) (h1 : fld w 14 44 = 0 ∧ ((fld w 1 1) = 0 ∨ (fld w 2 12) < 8)) : decodeMicro w = some (.rpeek (fld w 0 1) (fld w 1 1) (fld w 2 12)) := by
  unfold decodeMicro
  rw [h0]
  exact if_pos h1
/-- The round trip of `rpeek`. -/
theorem RoundTrip.rpeek (ring reg n : Nat) : RoundTrip.Statement (.rpeek ring reg n) := by
  intro hw e he _
  have hw := of_decide_eq_true hw
  obtain rfl := Option.some.inj he
  refine (dec_rpeek (0x04 * 2 ^ 58 + ring + reg * 2 ^ 1 + n * 2 ^ 2) (by unfold fld; omega) ⟨(by unfold fld; omega), (by unfold fld; omega)⟩).trans ?_
  congr 2 <;> (unfold fld; omega)

/-- The arm of the decoder. -/
theorem dec_rowg (w : Nat) (h0 : fld w 58 6 = 0x05) (h1 : fld w 3 55 = 0 ∧ ((fld w 0 1) = 0 ∨ (fld w 1 2) = 0)) : decodeMicro w = some (.rowg (fld w 0 1) (fld w 1 2)) := by
  unfold decodeMicro
  rw [h0]
  exact if_pos h1
/-- The round trip of `rowg`. -/
theorem RoundTrip.rowg (inc g : Nat) : RoundTrip.Statement (.rowg inc g) := by
  intro hw e he _
  have hw := of_decide_eq_true hw
  obtain rfl := Option.some.inj he
  refine (dec_rowg (0x05 * 2 ^ 58 + inc + g * 2 ^ 1) (by unfold fld; omega) ⟨(by unfold fld; omega), (by unfold fld; omega)⟩).trans ?_
  congr 2 <;> (unfold fld; omega)

/-- The arm of the decoder. -/
theorem dec_accsel (w : Nat) (h0 : fld w 58 6 = 0x06) (h1 : fld w 2 56 = 0) : decodeMicro w = some (.accsel (fld w 0 2)) := by
  unfold decodeMicro
  rw [h0]
  exact if_pos h1
/-- The round trip of `accsel`. -/
theorem RoundTrip.accsel (n : Nat) : RoundTrip.Statement (.accsel n) := by
  intro hw e he _
  have hw := of_decide_eq_true hw
  obtain rfl := Option.some.inj he
  refine (dec_accsel (0x06 * 2 ^ 58 + n) (by unfold fld; omega) (by unfold fld; omega)).trans ?_
  congr 2 <;> (unfold fld; omega)

/-- The arm of the decoder. -/
theorem dec_accz (w : Nat) (h0 : fld w 58 6 = 0x07) (h1 : fld w 2 56 = 0) : decodeMicro w = some (.accz (fld w 0 2)) := by
  unfold decodeMicro
  rw [h0]
  exact if_pos h1
/-- The round trip of `accz`. -/
theorem RoundTrip.accz (g : Nat) : RoundTrip.Statement (.accz g) := by
  intro hw e he _
  have hw := of_decide_eq_true hw
  obtain rfl := Option.some.inj he
  refine (dec_accz (0x07 * 2 ^ 58 + g) (by unfold fld; omega) (by unfold fld; omega)).trans ?_
  congr 2 <;> (unfold fld; omega)

/-- The arm of the decoder. -/
theorem dec_loopk (w : Nat) (h0 : fld w 58 6 = 0x08) (h1 : fld w 28 30 = 0) : decodeMicro w = some (.loopk (fld w 0 12) (fld w 12 1) (fld w 13 3) (fld w 16 12)) := by
  unfold decodeMicro
  rw [h0]
  exact if_pos h1
/-- The round trip of `loopk`. -/
theorem RoundTrip.loopk (max reg k body : Nat) : RoundTrip.Statement (.loopk max reg k body) := by
  intro hw e he _
  have hw := of_decide_eq_true hw
  obtain rfl := Option.some.inj he
  refine (dec_loopk (0x08 * 2 ^ 58 + max + reg * 2 ^ 12 + k * 2 ^ 13 + body * 2 ^ 16) (by unfold fld; omega) (by unfold fld; omega)).trans ?_
  congr 2 <;> (unfold fld; omega)

/-- The arm of the decoder. -/
theorem dec_wmset (w : Nat) (h0 : fld w 58 6 = 0x09) (h1 : fld w 7 51 = 0) : decodeMicro w = some (.wmset (fld w 0 6) (fld w 6 1)) := by
  unfold decodeMicro
  rw [h0]
  exact if_pos h1
/-- The round trip of `wmset`. -/
theorem RoundTrip.wmset (n g : Nat) : RoundTrip.Statement (.wmset n g) := by
  intro hw e he _
  have hw := of_decide_eq_true hw
  obtain rfl := Option.some.inj he
  refine (dec_wmset (0x09 * 2 ^ 58 + n + g * 2 ^ 6) (by unfold fld; omega) (by unfold fld; omega)).trans ?_
  congr 2 <;> (unfold fld; omega)

/-- The arm of the decoder. -/
theorem dec_bmchk (w : Nat) (h0 : fld w 58 6 = 0x0A) (h1 : fld w 0 58 = 0) : decodeMicro w = some (.bmchk) := by
  unfold decodeMicro
  rw [h0]
  exact if_pos h1
/-- The round trip of `bmchk`. -/
theorem RoundTrip.bmchk : RoundTrip.Statement .bmchk := by
  intro hw e he _
  obtain rfl := Option.some.inj he
  refine (dec_bmchk (0x0A * 2 ^ 58) (by unfold fld; omega) (by unfold fld; omega)).trans ?_
  rfl

/-- The arm of the decoder. -/
theorem dec_epi (w : Nat) (h0 : fld w 58 6 = 0x0B) (h1 : fld w 7 51 = 0) : decodeMicro w = some (.epi (fld w 0 2) (fld w 2 2) (fld w 4 3)) := by
  unfold decodeMicro
  rw [h0]
  exact if_pos h1
/-- The round trip of `epi`. -/
theorem RoundTrip.epi (g fn k : Nat) : RoundTrip.Statement (.epi g fn k) := by
  intro hw e he _
  have hw := of_decide_eq_true hw
  obtain rfl := Option.some.inj he
  refine (dec_epi (0x0B * 2 ^ 58 + g + fn * 2 ^ 2 + k * 2 ^ 4) (by unfold fld; omega) (by unfold fld; omega)).trans ?_
  congr 2 <;> (unfold fld; omega)

/-- The arm of the decoder. -/
theorem dec_parm (w : Nat) (h0 : fld w 58 6 = 0x0C) (h1 : fld w 7 51 = 0) : decodeMicro w = some (.parm (fld w 0 3) (fld w 3 3) (fld w 6 1)) := by
  unfold decodeMicro
  rw [h0]
  exact if_pos h1
/-- The round trip of `parm`. -/
theorem RoundTrip.parm (kd m half : Nat) : RoundTrip.Statement (.parm kd m half) := by
  intro hw e he _
  have hw := of_decide_eq_true hw
  obtain rfl := Option.some.inj he
  refine (dec_parm (0x0C * 2 ^ 58 + kd + m * 2 ^ 3 + half * 2 ^ 6) (by unfold fld; omega) (by unfold fld; omega)).trans ?_
  congr 2 <;> (unfold fld; omega)

/-- The arm of the decoder. -/
theorem dec_jmp (w : Nat) (h0 : fld w 58 6 = 0x0D) (h1 : fld w 12 46 = 0 ∧ (fld w 0 12) ≠ 0) : decodeMicro w = some (.jmp (fld w 0 12)) := by
  unfold decodeMicro
  rw [h0]
  exact if_pos h1
/-- The round trip of `jmp`. -/
theorem RoundTrip.jmp (d : Nat) : RoundTrip.Statement (.jmp d) := by
  intro hw e he _
  have hw := of_decide_eq_true hw
  obtain rfl := Option.some.inj he
  refine (dec_jmp (0x0D * 2 ^ 58 + d) (by unfold fld; omega) ⟨(by unfold fld; omega), (by unfold fld; omega)⟩).trans ?_
  congr 2 <;> (unfold fld; omega)

/-- The arm of the decoder. -/
theorem dec_ret (w : Nat) (h0 : fld w 58 6 = 0x0E) (h1 : fld w 0 58 = 0) : decodeMicro w = some (.ret) := by
  unfold decodeMicro
  rw [h0]
  exact if_pos h1
/-- The round trip of `ret`. -/
theorem RoundTrip.ret : RoundTrip.Statement .ret := by
  intro hw e he _
  obtain rfl := Option.some.inj he
  refine (dec_ret (0x0E * 2 ^ 58) (by unfold fld; omega) (by unfold fld; omega)).trans ?_
  rfl
/-- The fields of a V slot word are those it was built from. -/
theorem vslotOf_word (op : Nat) (hop : op < 128) (o : VSlot) (h : vslotFits o = true) :
    fld (op + vslotWord o) 0 7 = op ∧ vslotOf (op + vslotWord o) = o := by
  have h := of_decide_eq_true h
  obtain ⟨pred, len, vd, a, b, c, md, ms, ty, rnd⟩ := o
  simp only at h
  refine ⟨by unfold fld vslotWord; dsimp only; omega, ?_⟩
  unfold vslotOf
  congr 1 <;> (unfold fld vslotWord; dsimp only; omega)

/-- The round trip of a V slot. -/
theorem v_round (op : Nat) (hop : op < 128) (o : VSlot) (i : Instr) (hi : vOp o op = some i) (hw : (vslotFits o && vLegal op o) = true) :
    decodeIn .v (op + vslotWord o) none = some i := by
  rw [Bool.and_eq_true] at hw
  have h := vslotOf_word op hop o hw.1
  show (if _ then _ else _) = _
  rw [h.1, h.2, if_pos hw.2, hi]

/-- The round trip of `vadd`. -/
theorem RoundTrip.vadd (o : VSlot) : RoundTrip.Statement (.vadd o) := by
  intro hw e he _
  obtain rfl := Option.some.inj he
  exact v_round 0x01 (by decide) o _ rfl hw

/-- The round trip of `vsub`. -/
theorem RoundTrip.vsub (o : VSlot) : RoundTrip.Statement (.vsub o) := by
  intro hw e he _
  obtain rfl := Option.some.inj he
  exact v_round 0x02 (by decide) o _ rfl hw

/-- The round trip of `vadds`. -/
theorem RoundTrip.vadds (o : VSlot) : RoundTrip.Statement (.vadds o) := by
  intro hw e he _
  obtain rfl := Option.some.inj he
  exact v_round 0x03 (by decide) o _ rfl hw

/-- The round trip of `vaddn`. -/
theorem RoundTrip.vaddn (o : VSlot) : RoundTrip.Statement (.vaddn o) := by
  intro hw e he _
  obtain rfl := Option.some.inj he
  exact v_round 0x04 (by decide) o _ rfl hw

/-- The round trip of `vsubs`. -/
theorem RoundTrip.vsubs (o : VSlot) : RoundTrip.Statement (.vsubs o) := by
  intro hw e he _
  obtain rfl := Option.some.inj he
  exact v_round 0x05 (by decide) o _ rfl hw

/-- The round trip of `vsubn`. -/
theorem RoundTrip.vsubn (o : VSlot) : RoundTrip.Statement (.vsubn o) := by
  intro hw e he _
  obtain rfl := Option.some.inj he
  exact v_round 0x06 (by decide) o _ rfl hw

/-- The round trip of `vmul`. -/
theorem RoundTrip.vmul (o : VSlot) : RoundTrip.Statement (.vmul o) := by
  intro hw e he _
  obtain rfl := Option.some.inj he
  exact v_round 0x07 (by decide) o _ rfl hw

/-- The round trip of `vmulh`. -/
theorem RoundTrip.vmulh (o : VSlot) : RoundTrip.Statement (.vmulh o) := by
  intro hw e he _
  obtain rfl := Option.some.inj he
  exact v_round 0x08 (by decide) o _ rfl hw

/-- The round trip of `vmulhn`. -/
theorem RoundTrip.vmulhn (o : VSlot) : RoundTrip.Statement (.vmulhn o) := by
  intro hw e he _
  obtain rfl := Option.some.inj he
  exact v_round 0x09 (by decide) o _ rfl hw

/-- The round trip of `vmac`. -/
theorem RoundTrip.vmac (o : VSlot) : RoundTrip.Statement (.vmac o) := by
  intro hw e he _
  obtain rfl := Option.some.inj he
  exact v_round 0x0A (by decide) o _ rfl hw

/-- The round trip of `vmacw`. -/
theorem RoundTrip.vmacw (o : VSlot) : RoundTrip.Statement (.vmacw o) := by
  intro hw e he _
  obtain rfl := Option.some.inj he
  exact v_round 0x0B (by decide) o _ rfl hw

/-- The round trip of `vmin`. -/
theorem RoundTrip.vmin (o : VSlot) : RoundTrip.Statement (.vmin o) := by
  intro hw e he _
  obtain rfl := Option.some.inj he
  exact v_round 0x0C (by decide) o _ rfl hw

/-- The round trip of `vmax`. -/
theorem RoundTrip.vmax (o : VSlot) : RoundTrip.Statement (.vmax o) := by
  intro hw e he _
  obtain rfl := Option.some.inj he
  exact v_round 0x0D (by decide) o _ rfl hw

/-- The round trip of `vminn`. -/
theorem RoundTrip.vminn (o : VSlot) : RoundTrip.Statement (.vminn o) := by
  intro hw e he _
  obtain rfl := Option.some.inj he
  exact v_round 0x0E (by decide) o _ rfl hw

/-- The round trip of `vmaxn`. -/
theorem RoundTrip.vmaxn (o : VSlot) : RoundTrip.Statement (.vmaxn o) := by
  intro hw e he _
  obtain rfl := Option.some.inj he
  exact v_round 0x0F (by decide) o _ rfl hw

/-- The round trip of `vabs`. -/
theorem RoundTrip.vabs (o : VSlot) : RoundTrip.Statement (.vabs o) := by
  intro hw e he _
  obtain rfl := Option.some.inj he
  exact v_round 0x10 (by decide) o _ rfl hw

/-- The round trip of `vneg`. -/
theorem RoundTrip.vneg (o : VSlot) : RoundTrip.Statement (.vneg o) := by
  intro hw e he _
  obtain rfl := Option.some.inj he
  exact v_round 0x11 (by decide) o _ rfl hw

/-- The round trip of `vand`. -/
theorem RoundTrip.vand (o : VSlot) : RoundTrip.Statement (.vand o) := by
  intro hw e he _
  obtain rfl := Option.some.inj he
  exact v_round 0x12 (by decide) o _ rfl hw

/-- The round trip of `vor`. -/
theorem RoundTrip.vor (o : VSlot) : RoundTrip.Statement (.vor o) := by
  intro hw e he _
  obtain rfl := Option.some.inj he
  exact v_round 0x13 (by decide) o _ rfl hw

/-- The round trip of `vxor`. -/
theorem RoundTrip.vxor (o : VSlot) : RoundTrip.Statement (.vxor o) := by
  intro hw e he _
  obtain rfl := Option.some.inj he
  exact v_round 0x14 (by decide) o _ rfl hw

/-- The round trip of `vandn`. -/
theorem RoundTrip.vandn (o : VSlot) : RoundTrip.Statement (.vandn o) := by
  intro hw e he _
  obtain rfl := Option.some.inj he
  exact v_round 0x15 (by decide) o _ rfl hw

/-- The round trip of `vshl`. -/
theorem RoundTrip.vshl (o : VSlot) : RoundTrip.Statement (.vshl o) := by
  intro hw e he _
  obtain rfl := Option.some.inj he
  exact v_round 0x16 (by decide) o _ rfl hw

/-- The round trip of `vshr`. -/
theorem RoundTrip.vshr (o : VSlot) : RoundTrip.Statement (.vshr o) := by
  intro hw e he _
  obtain rfl := Option.some.inj he
  exact v_round 0x17 (by decide) o _ rfl hw

/-- The round trip of `vsra`. -/
theorem RoundTrip.vsra (o : VSlot) : RoundTrip.Statement (.vsra o) := by
  intro hw e he _
  obtain rfl := Option.some.inj he
  exact v_round 0x18 (by decide) o _ rfl hw

/-- The round trip of `vsrar`. -/
theorem RoundTrip.vsrar (o : VSlot) : RoundTrip.Statement (.vsrar o) := by
  intro hw e he _
  obtain rfl := Option.some.inj he
  exact v_round 0x19 (by decide) o _ rfl hw

/-- The round trip of `vnarrow`. -/
theorem RoundTrip.vnarrow (o : VSlot) : RoundTrip.Statement (.vnarrow o) := by
  intro hw e he _
  obtain rfl := Option.some.inj he
  exact v_round 0x1A (by decide) o _ rfl hw

/-- The round trip of `vwiden`. -/
theorem RoundTrip.vwiden (o : VSlot) : RoundTrip.Statement (.vwiden o) := by
  intro hw e he _
  obtain rfl := Option.some.inj he
  exact v_round 0x1B (by decide) o _ rfl hw

/-- The round trip of `vcmpeq`. -/
theorem RoundTrip.vcmpeq (o : VSlot) : RoundTrip.Statement (.vcmpeq o) := by
  intro hw e he _
  obtain rfl := Option.some.inj he
  exact v_round 0x1C (by decide) o _ rfl hw

/-- The round trip of `vcmplt`. -/
theorem RoundTrip.vcmplt (o : VSlot) : RoundTrip.Statement (.vcmplt o) := by
  intro hw e he _
  obtain rfl := Option.some.inj he
  exact v_round 0x1D (by decide) o _ rfl hw

/-- The round trip of `vcmpltn`. -/
theorem RoundTrip.vcmpltn (o : VSlot) : RoundTrip.Statement (.vcmpltn o) := by
  intro hw e he _
  obtain rfl := Option.some.inj he
  exact v_round 0x1E (by decide) o _ rfl hw

/-- The round trip of `vcmple`. -/
theorem RoundTrip.vcmple (o : VSlot) : RoundTrip.Statement (.vcmple o) := by
  intro hw e he _
  obtain rfl := Option.some.inj he
  exact v_round 0x1F (by decide) o _ rfl hw

/-- The round trip of `vsel`. -/
theorem RoundTrip.vsel (o : VSlot) : RoundTrip.Statement (.vsel o) := by
  intro hw e he _
  obtain rfl := Option.some.inj he
  exact v_round 0x20 (by decide) o _ rfl hw

/-- The round trip of `vclz`. -/
theorem RoundTrip.vclz (o : VSlot) : RoundTrip.Statement (.vclz o) := by
  intro hw e he _
  obtain rfl := Option.some.inj he
  exact v_round 0x21 (by decide) o _ rfl hw

/-- The round trip of `vpopc`. -/
theorem RoundTrip.vpopc (o : VSlot) : RoundTrip.Statement (.vpopc o) := by
  intro hw e he _
  obtain rfl := Option.some.inj he
  exact v_round 0x22 (by decide) o _ rfl hw

/-- The round trip of `fadd`. -/
theorem RoundTrip.fadd (o : VSlot) : RoundTrip.Statement (.fadd o) := by
  intro hw e he _
  obtain rfl := Option.some.inj he
  exact v_round 0x30 (by decide) o _ rfl hw

/-- The round trip of `fsub`. -/
theorem RoundTrip.fsub (o : VSlot) : RoundTrip.Statement (.fsub o) := by
  intro hw e he _
  obtain rfl := Option.some.inj he
  exact v_round 0x31 (by decide) o _ rfl hw

/-- The round trip of `fmul`. -/
theorem RoundTrip.fmul (o : VSlot) : RoundTrip.Statement (.fmul o) := by
  intro hw e he _
  obtain rfl := Option.some.inj he
  exact v_round 0x32 (by decide) o _ rfl hw

/-- The round trip of `fma`. -/
theorem RoundTrip.fma (o : VSlot) : RoundTrip.Statement (.fma o) := by
  intro hw e he _
  obtain rfl := Option.some.inj he
  exact v_round 0x33 (by decide) o _ rfl hw

/-- The round trip of `fms`. -/
theorem RoundTrip.fms (o : VSlot) : RoundTrip.Statement (.fms o) := by
  intro hw e he _
  obtain rfl := Option.some.inj he
  exact v_round 0x34 (by decide) o _ rfl hw

/-- The round trip of `fnma`. -/
theorem RoundTrip.fnma (o : VSlot) : RoundTrip.Statement (.fnma o) := by
  intro hw e he _
  obtain rfl := Option.some.inj he
  exact v_round 0x35 (by decide) o _ rfl hw

/-- The round trip of `fmin`. -/
theorem RoundTrip.fmin (o : VSlot) : RoundTrip.Statement (.fmin o) := by
  intro hw e he _
  obtain rfl := Option.some.inj he
  exact v_round 0x36 (by decide) o _ rfl hw

/-- The round trip of `fmax`. -/
theorem RoundTrip.fmax (o : VSlot) : RoundTrip.Statement (.fmax o) := by
  intro hw e he _
  obtain rfl := Option.some.inj he
  exact v_round 0x37 (by decide) o _ rfl hw

/-- The round trip of `fabs`. -/
theorem RoundTrip.fabs (o : VSlot) : RoundTrip.Statement (.fabs o) := by
  intro hw e he _
  obtain rfl := Option.some.inj he
  exact v_round 0x38 (by decide) o _ rfl hw

/-- The round trip of `fneg`. -/
theorem RoundTrip.fneg (o : VSlot) : RoundTrip.Statement (.fneg o) := by
  intro hw e he _
  obtain rfl := Option.some.inj he
  exact v_round 0x39 (by decide) o _ rfl hw

/-- The round trip of `fcmpeq`. -/
theorem RoundTrip.fcmpeq (o : VSlot) : RoundTrip.Statement (.fcmpeq o) := by
  intro hw e he _
  obtain rfl := Option.some.inj he
  exact v_round 0x3A (by decide) o _ rfl hw

/-- The round trip of `fcmplt`. -/
theorem RoundTrip.fcmplt (o : VSlot) : RoundTrip.Statement (.fcmplt o) := by
  intro hw e he _
  obtain rfl := Option.some.inj he
  exact v_round 0x3B (by decide) o _ rfl hw

/-- The round trip of `fcmple`. -/
theorem RoundTrip.fcmple (o : VSlot) : RoundTrip.Statement (.fcmple o) := by
  intro hw e he _
  obtain rfl := Option.some.inj he
  exact v_round 0x3C (by decide) o _ rfl hw

/-- The round trip of `fcmpun`. -/
theorem RoundTrip.fcmpun (o : VSlot) : RoundTrip.Statement (.fcmpun o) := by
  intro hw e he _
  obtain rfl := Option.some.inj he
  exact v_round 0x3D (by decide) o _ rfl hw

/-- The round trip of `fclass`. -/
theorem RoundTrip.fclass (o : VSlot) : RoundTrip.Statement (.fclass o) := by
  intro hw e he _
  obtain rfl := Option.some.inj he
  exact v_round 0x3E (by decide) o _ rfl hw

/-- The round trip of `fscale`. -/
theorem RoundTrip.fscale (o : VSlot) : RoundTrip.Statement (.fscale o) := by
  intro hw e he _
  obtain rfl := Option.some.inj he
  exact v_round 0x3F (by decide) o _ rfl hw

/-- The round trip of `vcvt`. -/
theorem RoundTrip.vcvt (o : VSlot) : RoundTrip.Statement (.vcvt o) := by
  intro hw e he _
  obtain rfl := Option.some.inj he
  exact v_round 0x40 (by decide) o _ rfl hw

/-- The round trip of `vqnt`. -/
theorem RoundTrip.vqnt (o : VSlot) : RoundTrip.Statement (.vqnt o) := by
  intro hw e he _
  obtain rfl := Option.some.inj he
  exact v_round 0x41 (by decide) o _ rfl hw

/-- The round trip of `vdq`. -/
theorem RoundTrip.vdq (o : VSlot) : RoundTrip.Statement (.vdq o) := by
  intro hw e he _
  obtain rfl := Option.some.inj he
  exact v_round 0x42 (by decide) o _ rfl hw

/-- The round trip of `frcp`. -/
theorem RoundTrip.frcp (o : VSlot) : RoundTrip.Statement (.frcp o) := by
  intro hw e he _
  obtain rfl := Option.some.inj he
  exact v_round 0x48 (by decide) o _ rfl hw

/-- The round trip of `frsq`. -/
theorem RoundTrip.frsq (o : VSlot) : RoundTrip.Statement (.frsq o) := by
  intro hw e he _
  obtain rfl := Option.some.inj he
  exact v_round 0x49 (by decide) o _ rfl hw

/-- The round trip of `fexp2`. -/
theorem RoundTrip.fexp2 (o : VSlot) : RoundTrip.Statement (.fexp2 o) := by
  intro hw e he _
  obtain rfl := Option.some.inj he
  exact v_round 0x4A (by decide) o _ rfl hw

/-- The round trip of `flog2`. -/
theorem RoundTrip.flog2 (o : VSlot) : RoundTrip.Statement (.flog2 o) := by
  intro hw e he _
  obtain rfl := Option.some.inj he
  exact v_round 0x4B (by decide) o _ rfl hw

/-- The round trip of `fsin`. -/
theorem RoundTrip.fsin (o : VSlot) : RoundTrip.Statement (.fsin o) := by
  intro hw e he _
  obtain rfl := Option.some.inj he
  exact v_round 0x4C (by decide) o _ rfl hw

/-- The round trip of `fcos`. -/
theorem RoundTrip.fcos (o : VSlot) : RoundTrip.Statement (.fcos o) := by
  intro hw e he _
  obtain rfl := Option.some.inj he
  exact v_round 0x4D (by decide) o _ rfl hw

/-- The round trip of `ftanh`. -/
theorem RoundTrip.ftanh (o : VSlot) : RoundTrip.Statement (.ftanh o) := by
  intro hw e he _
  obtain rfl := Option.some.inj he
  exact v_round 0x4E (by decide) o _ rfl hw

/-- The round trip of `vrsum`. -/
theorem RoundTrip.vrsum (o : VSlot) : RoundTrip.Statement (.vrsum o) := by
  intro hw e he _
  obtain rfl := Option.some.inj he
  exact v_round 0x50 (by decide) o _ rfl hw

/-- The round trip of `vrmax`. -/
theorem RoundTrip.vrmax (o : VSlot) : RoundTrip.Statement (.vrmax o) := by
  intro hw e he _
  obtain rfl := Option.some.inj he
  exact v_round 0x51 (by decide) o _ rfl hw

/-- The round trip of `vrmin`. -/
theorem RoundTrip.vrmin (o : VSlot) : RoundTrip.Statement (.vrmin o) := by
  intro hw e he _
  obtain rfl := Option.some.inj he
  exact v_round 0x52 (by decide) o _ rfl hw

/-- The round trip of `vamax`. -/
theorem RoundTrip.vamax (o : VSlot) : RoundTrip.Statement (.vamax o) := by
  intro hw e he _
  obtain rfl := Option.some.inj he
  exact v_round 0x53 (by decide) o _ rfl hw

/-- The round trip of `vtopk`. -/
theorem RoundTrip.vtopk (o : VSlot) : RoundTrip.Statement (.vtopk o) := by
  intro hw e he _
  obtain rfl := Option.some.inj he
  exact v_round 0x54 (by decide) o _ rfl hw

/-- The round trip of `vscan`. -/
theorem RoundTrip.vscan (o : VSlot) : RoundTrip.Statement (.vscan o) := by
  intro hw e he _
  obtain rfl := Option.some.inj he
  exact v_round 0x55 (by decide) o _ rfl hw

/-- The round trip of `vcompress`. -/
theorem RoundTrip.vcompress (o : VSlot) : RoundTrip.Statement (.vcompress o) := by
  intro hw e he _
  obtain rfl := Option.some.inj he
  exact v_round 0x56 (by decide) o _ rfl hw

/-- The round trip of `vexpand`. -/
theorem RoundTrip.vexpand (o : VSlot) : RoundTrip.Statement (.vexpand o) := by
  intro hw e he _
  obtain rfl := Option.some.inj he
  exact v_round 0x57 (by decide) o _ rfl hw

/-- The round trip of `vidx`. -/
theorem RoundTrip.vidx (o : VSlot) : RoundTrip.Statement (.vidx o) := by
  intro hw e he _
  obtain rfl := Option.some.inj he
  exact v_round 0x58 (by decide) o _ rfl hw

/-- The round trip of `vmov`. -/
theorem RoundTrip.vmov (o : VSlot) : RoundTrip.Statement (.vmov o) := by
  intro hw e he _
  obtain rfl := Option.some.inj he
  exact v_round 0x59 (by decide) o _ rfl hw

/-- The round trip of `vzero`. -/
theorem RoundTrip.vzero (o : VSlot) : RoundTrip.Statement (.vzero o) := by
  intro hw e he _
  obtain rfl := Option.some.inj he
  exact v_round 0x5A (by decide) o _ rfl hw
/-! ## Branches, KMODE and XDIAG -/

/-! ## The branch arm of the C decoder -/

theorem dec_brT (w : Nat) (h0 : fld w 0 6 = 0x04) (h16 : fld w 16 2 = 0) (h18 : fld w 18 14 = 0) :
    decodeC w none = some (.brT (fld w 6 4) (fld w 10 3) (fld w 13 3)) := by
  generalize hx : (none : Option Nat) = x
  have h1 : fld w 18 14 = 0 ∧ x = none := ⟨h18, hx.symm⟩
  unfold decodeC
  rw [h0]
  show (if _ then _ else _) = _
  rw [if_pos h1, h16]
  rfl

theorem dec_brF (w : Nat) (h0 : fld w 0 6 = 0x04) (h16 : fld w 16 2 = 1) (h18 : fld w 18 14 = 0) :
    decodeC w none = some (.brF (fld w 6 4) (fld w 10 3) (fld w 13 3)) := by
  generalize hx : (none : Option Nat) = x
  have h1 : fld w 18 14 = 0 ∧ x = none := ⟨h18, hx.symm⟩
  unfold decodeC
  rw [h0]
  show (if _ then _ else _) = _
  rw [if_pos h1, h16]
  rfl

theorem dec_br (w : Nat) (h0 : fld w 0 6 = 0x04) (h16 : fld w 16 2 = 2) (h18 : fld w 18 14 = 0) (h13 : fld w 13 3 = 0) :
    decodeC w none = some (.br (fld w 6 4) (fld w 10 3)) := by
  generalize hx : (none : Option Nat) = x
  have h1 : fld w 18 14 = 0 ∧ x = none := ⟨h18, hx.symm⟩
  unfold decodeC
  rw [h0]
  show (if _ then _ else _) = _
  rw [if_pos h1, h16]
  exact if_pos h13

theorem dec_brR (w : Nat) (h0 : fld w 0 6 = 0x04) (h16 : fld w 16 2 = 3) (h18 : fld w 18 14 = 0) (h13 : fld w 13 3 = 0 ∧ fld w 10 3 = 0) :
    decodeC w none = some (.brR (fld w 6 4)) := by
  generalize hx : (none : Option Nat) = x
  have h1 : fld w 18 14 = 0 ∧ x = none := ⟨h18, hx.symm⟩
  unfold decodeC
  rw [h0]
  show (if _ then _ else _) = _
  rw [if_pos h1, h16]
  exact if_pos h13

/-- The KMODE arm of the C decoder. -/
theorem dec_kmode (w : Nat) (x : Option Nat) (h0 : fld w 0 6 = 0x26) (h1 : fld w 17 15 = 0 ∧ x = none) :
    decodeC w x = if fld w 12 1 = 0 then (if fld w 13 4 = 0 then some (.kmode (fld w 6 4) 0 (fld w 10 2)) else none)
      else if fld w 10 2 = 0 then some (.kmode (fld w 6 4) 1 (fld w 13 4)) else none := by
  unfold decodeC
  rw [h0]
  exact if_pos h1

/-- The XDIAG arm of the X decoder. -/
theorem dec_xdiag (w : Nat) (x : Option Nat) (h0 : fld w 0 6 = 0x09) (h1 : fld w 23 9 = 0 ∧ x = none) :
    decodeX w x = if fld w 22 1 = 0 then some (.xdiagStep (fld w 6 4) (fld w 10 4) (fld w 14 4) (fld w 18 4))
      else if fld w 18 4 = 0 then some (.xdiagMid (fld w 6 4) (fld w 10 4) (fld w 14 4)) else none := by
  unfold decodeX
  rw [h0]
  exact if_pos h1

theorem RoundTrip.kmode (p reg n : Nat) : RoundTrip.Statement (.kmode p reg n) := by
  intro hw e he _
  have hw := of_decide_eq_true hw
  obtain rfl := Option.some.inj he
  by_cases hr : reg = 0
  · subst hr
    refine (dec_kmode (0x26 + p * 2 ^ 6 + n * 2 ^ 10) none (by unfold fld; omega) ⟨by unfold fld; omega, rfl⟩).trans ?_
    rw [if_pos (by unfold fld; omega), if_pos (by unfold fld; omega)]
    congr 2 <;> (unfold fld; omega)
  · have h1 : reg = 1 := by omega
    subst h1
    refine (dec_kmode (0x26 + p * 2 ^ 6 + (2 ^ 12 + n * 2 ^ 13)) none (by unfold fld; omega) ⟨by unfold fld; omega, rfl⟩).trans ?_
    rw [if_neg (by unfold fld; omega), if_pos (by unfold fld; omega)]
    congr 2 <;> (unfold fld; omega)

theorem RoundTrip.xdiagStep (p id ia ib : Nat) : RoundTrip.Statement (.xdiagStep p id ia ib) := by
  intro hw e he _
  have hw := of_decide_eq_true hw
  obtain rfl := Option.some.inj he
  refine (dec_xdiag (0x09 + p * 2 ^ 6 + id * 2 ^ 10 + ia * 2 ^ 14 + ib * 2 ^ 18) none (by unfold fld; omega) ⟨by unfold fld; omega, rfl⟩).trans ?_
  rw [if_pos (by unfold fld; omega)]
  congr 2 <;> (unfold fld; omega)

theorem RoundTrip.xdiagMid (p id ia : Nat) : RoundTrip.Statement (.xdiagMid p id ia) := by
  intro hw e he _
  have hw := of_decide_eq_true hw
  obtain rfl := Option.some.inj he
  refine (dec_xdiag (0x09 + p * 2 ^ 6 + id * 2 ^ 10 + ia * 2 ^ 14 + 1 * 2 ^ 22) none (by unfold fld; omega) ⟨by unfold fld; omega, rfl⟩).trans ?_
  rw [if_neg (by unfold fld; omega), if_pos (by unfold fld; omega)]
  congr 2 <;> (unfold fld; omega)

theorem RoundTrip.brT (p b c : Nat) : RoundTrip.Statement (.brT p b c) := by
  intro hw e he _
  have hw := of_decide_eq_true hw
  obtain rfl := Option.some.inj he
  refine (dec_brT (0x04 + p * 2 ^ 6 + b * 2 ^ 10 + c * 2 ^ 13) (by unfold fld; omega) (by unfold fld; omega) (by unfold fld; omega)).trans ?_
  congr 2 <;> (unfold fld; omega)

theorem RoundTrip.brF (p b c : Nat) : RoundTrip.Statement (.brF p b c) := by
  intro hw e he _
  have hw := of_decide_eq_true hw
  obtain rfl := Option.some.inj he
  refine (dec_brF (0x04 + p * 2 ^ 6 + b * 2 ^ 10 + c * 2 ^ 13 + 1 * 2 ^ 16) (by unfold fld; omega) (by unfold fld; omega) (by unfold fld; omega)).trans ?_
  congr 2 <;> (unfold fld; omega)

theorem RoundTrip.br (p b : Nat) : RoundTrip.Statement (.br p b) := by
  intro hw e he _
  have hw := of_decide_eq_true hw
  obtain rfl := Option.some.inj he
  refine (dec_br (0x04 + p * 2 ^ 6 + b * 2 ^ 10 + 2 * 2 ^ 16) (by unfold fld; omega) (by unfold fld; omega) (by unfold fld; omega) (by unfold fld; omega)).trans ?_
  congr 2 <;> (unfold fld; omega)

theorem RoundTrip.brR (p : Nat) : RoundTrip.Statement (.brR p) := by
  intro hw e he _
  have hw := of_decide_eq_true hw
  obtain rfl := Option.some.inj he
  refine (dec_brR (0x04 + p * 2 ^ 6 + 3 * 2 ^ 16) (by unfold fld; omega) (by unfold fld; omega) (by unfold fld; omega) (by unfold fld; omega)).trans ?_
  congr 2; unfold fld; omega

/-! ## The stream extension -/

/-- A 32-bit word of the controller. -/
theorem decodeCtl_word (w : Nat) (h : w % 4 = 3) (h32 : w < 2 ^ 32) : decodeCtl w = decodeWord w := by
  unfold decodeCtl
  rw [if_pos h, Nat.mod_eq_of_lt h32]

theorem decodeWord_0B (w : Nat) (h : fld w 0 7 = 0x0B) : decodeWord w = decodeStream w := by
  unfold decodeWord
  rw [h]
  rfl

theorem decodeWord_2B (w : Nat) (h : fld w 0 7 = 0x2B) : decodeWord w = decodeStream w := by
  unfold decodeWord
  rw [h]
  rfl

theorem decodeWord_5B (w : Nat) (h : fld w 0 7 = 0x5B) : decodeWord w = decodeStream w := by
  unfold decodeWord
  rw [h]
  rfl

theorem decodeWord_7B (w : Nat) (h : fld w 0 7 = 0x7B) : decodeWord w = decodeStream w := by
  unfold decodeWord
  rw [h]
  rfl

/-- The arm of the decoder. -/
theorem dec_palloc (w : Nat) (h0 : fld w 0 7 = 0x0B) (h12 : fld w 12 3 = 0)  (h1 : fld w 25 7 = 0) : decodeStream w = some (.palloc (fld w 7 5) (fld w 15 5) (fld w 20 5)) := by
  unfold decodeStream
  rw [h0, h12]
  exact if_pos h1

/-- The round trip of `palloc`. -/
theorem RoundTrip.palloc (rd rs1 rs2 : Nat) : RoundTrip.Statement (.palloc rd rs1 rs2) := by
  intro hw e he _
  have hw := of_decide_eq_true hw
  obtain rfl := Option.some.inj he
  show decodeCtl (0x0B + rd * 2 ^ 7 + 0 * 2 ^ 12 + rs1 * 2 ^ 15 + rs2 * 2 ^ 20 + 0 * 2 ^ 25) = _
  rw [decodeCtl_word _ (by omega) (by omega), decodeWord_0B _ (by unfold fld; omega)]
  refine (dec_palloc _ (by unfold fld; omega) (by unfold fld; omega)  (by unfold fld; omega)).trans ?_
  congr 2 <;> (unfold fld; omega)

/-- The arm of the decoder. -/
theorem dec_pfree (w : Nat) (h0 : fld w 0 7 = 0x0B) (h12 : fld w 12 3 = 1)  (h1 : fld w 25 7 = 0 ∧ fld w 20 5 = 0) : decodeStream w = some (.pfree (fld w 7 5) (fld w 15 5)) := by
  unfold decodeStream
  rw [h0, h12]
  exact if_pos h1

/-- The round trip of `pfree`. -/
theorem RoundTrip.pfree (rd rs1 : Nat) : RoundTrip.Statement (.pfree rd rs1) := by
  intro hw e he _
  have hw := of_decide_eq_true hw
  obtain rfl := Option.some.inj he
  show decodeCtl (0x0B + rd * 2 ^ 7 + 1 * 2 ^ 12 + rs1 * 2 ^ 15 + 0 * 2 ^ 20 + 0 * 2 ^ 25) = _
  rw [decodeCtl_word _ (by omega) (by omega), decodeWord_0B _ (by unfold fld; omega)]
  refine (dec_pfree _ (by unfold fld; omega) (by unfold fld; omega)  ⟨(by unfold fld; omega), (by unfold fld; omega)⟩).trans ?_
  congr 2 <;> (unfold fld; omega)

/-- The arm of the decoder. -/
theorem dec_pinfo (w : Nat) (h0 : fld w 0 7 = 0x0B) (h12 : fld w 12 3 = 2)  (h1 : fld w 25 7 = 0 ∧ fld w 20 5 = 0) : decodeStream w = some (.pinfo (fld w 7 5) (fld w 15 5)) := by
  unfold decodeStream
  rw [h0, h12]
  exact if_pos h1

/-- The round trip of `pinfo`. -/
theorem RoundTrip.pinfo (rd rs1 : Nat) : RoundTrip.Statement (.pinfo rd rs1) := by
  intro hw e he _
  have hw := of_decide_eq_true hw
  obtain rfl := Option.some.inj he
  show decodeCtl (0x0B + rd * 2 ^ 7 + 2 * 2 ^ 12 + rs1 * 2 ^ 15 + 0 * 2 ^ 20 + 0 * 2 ^ 25) = _
  rw [decodeCtl_word _ (by omega) (by omega), decodeWord_0B _ (by unfold fld; omega)]
  refine (dec_pinfo _ (by unfold fld; omega) (by unfold fld; omega)  ⟨(by unfold fld; omega), (by unfold fld; omega)⟩).trans ?_
  congr 2 <;> (unfold fld; omega)

/-- The arm of the decoder. -/
theorem dec_sdset (w : Nat) (h0 : fld w 0 7 = 0x0B) (h12 : fld w 12 3 = 3)  (h1 : fld w 20 5 = 0 ∧ fld w 7 5 < 16) : decodeStream w = some (.sdset (fld w 7 5) (fld w 15 5) (fld w 25 7)) := by
  unfold decodeStream
  rw [h0, h12]
  exact if_pos h1

/-- The round trip of `sdset`. -/
theorem RoundTrip.sdset (rd rs1 field : Nat) : RoundTrip.Statement (.sdset rd rs1 field) := by
  intro hw e he _
  have hw := of_decide_eq_true hw
  obtain rfl := Option.some.inj he
  show decodeCtl (0x0B + rd * 2 ^ 7 + 3 * 2 ^ 12 + rs1 * 2 ^ 15 + 0 * 2 ^ 20 + field * 2 ^ 25) = _
  rw [decodeCtl_word _ (by omega) (by omega), decodeWord_0B _ (by unfold fld; omega)]
  refine (dec_sdset _ (by unfold fld; omega) (by unfold fld; omega)  ⟨(by unfold fld; omega), (by unfold fld; omega)⟩).trans ?_
  congr 2 <;> (unfold fld; omega)

/-- The arm of the decoder. -/
theorem dec_sdget (w : Nat) (h0 : fld w 0 7 = 0x0B) (h12 : fld w 12 3 = 4)  (h1 : fld w 20 5 = 0 ∧ fld w 15 5 < 16) : decodeStream w = some (.sdget (fld w 7 5) (fld w 15 5) (fld w 25 7)) := by
  unfold decodeStream
  rw [h0, h12]
  exact if_pos h1

/-- The round trip of `sdget`. -/
theorem RoundTrip.sdget (rd rs1 field : Nat) : RoundTrip.Statement (.sdget rd rs1 field) := by
  intro hw e he _
  have hw := of_decide_eq_true hw
  obtain rfl := Option.some.inj he
  show decodeCtl (0x0B + rd * 2 ^ 7 + 4 * 2 ^ 12 + rs1 * 2 ^ 15 + 0 * 2 ^ 20 + field * 2 ^ 25) = _
  rw [decodeCtl_word _ (by omega) (by omega), decodeWord_0B _ (by unfold fld; omega)]
  refine (dec_sdget _ (by unfold fld; omega) (by unfold fld; omega)  ⟨(by unfold fld; omega), (by unfold fld; omega)⟩).trans ?_
  congr 2 <;> (unfold fld; omega)

/-- The arm of the decoder. -/
theorem dec_sdcopy (w : Nat) (h0 : fld w 0 7 = 0x0B) (h12 : fld w 12 3 = 5)  (h1 : fld w 25 7 = 0 ∧ fld w 20 5 = 0 ∧ fld w 7 5 < 16 ∧ fld w 15 5 < 16) : decodeStream w = some (.sdcopy (fld w 7 5) (fld w 15 5)) := by
  unfold decodeStream
  rw [h0, h12]
  exact if_pos h1

/-- The round trip of `sdcopy`. -/
theorem RoundTrip.sdcopy (rd rs1 : Nat) : RoundTrip.Statement (.sdcopy rd rs1) := by
  intro hw e he _
  have hw := of_decide_eq_true hw
  obtain rfl := Option.some.inj he
  show decodeCtl (0x0B + rd * 2 ^ 7 + 5 * 2 ^ 12 + rs1 * 2 ^ 15 + 0 * 2 ^ 20 + 0 * 2 ^ 25) = _
  rw [decodeCtl_word _ (by omega) (by omega), decodeWord_0B _ (by unfold fld; omega)]
  refine (dec_sdcopy _ (by unfold fld; omega) (by unfold fld; omega)  ⟨(by unfold fld; omega), (by unfold fld; omega), (by unfold fld; omega), (by unfold fld; omega)⟩).trans ?_
  congr 2 <;> (unfold fld; omega)

/-- The arm of the decoder. -/
theorem dec_sload (w : Nat) (h0 : fld w 0 7 = 0x2B) (h12 : fld w 12 3 = 0)  (h1 : fld w 25 7 % 8 = 0) : decodeStream w = some (.sload (fld w 7 5) (fld w 25 7 / 8) (fld w 15 5) (fld w 20 5)) := by
  unfold decodeStream
  rw [h0, h12]
  exact if_pos h1

/-- The round trip of `sload`. -/
theorem RoundTrip.sload (rd sd rs1 rs2 : Nat) : RoundTrip.Statement (.sload rd sd rs1 rs2) := by
  intro hw e he _
  have hw := of_decide_eq_true hw
  obtain rfl := Option.some.inj he
  show decodeCtl (0x2B + rd * 2 ^ 7 + 0 * 2 ^ 12 + rs1 * 2 ^ 15 + rs2 * 2 ^ 20 + (sd * 8) * 2 ^ 25) = _
  rw [decodeCtl_word _ (by omega) (by omega), decodeWord_2B _ (by unfold fld; omega)]
  refine (dec_sload _ (by unfold fld; omega) (by unfold fld; omega)  (by unfold fld; omega)).trans ?_
  congr 2 <;> (unfold fld; omega)

/-- The arm of the decoder. -/
theorem dec_sstore (w : Nat) (h0 : fld w 0 7 = 0x2B) (h12 : fld w 12 3 = 1)  (h1 : fld w 25 7 % 8 = 0) : decodeStream w = some (.sstore (fld w 7 5) (fld w 25 7 / 8) (fld w 15 5) (fld w 20 5)) := by
  unfold decodeStream
  rw [h0, h12]
  exact if_pos h1

/-- The round trip of `sstore`. -/
theorem RoundTrip.sstore (rd sd rs1 rs2 : Nat) : RoundTrip.Statement (.sstore rd sd rs1 rs2) := by
  intro hw e he _
  have hw := of_decide_eq_true hw
  obtain rfl := Option.some.inj he
  show decodeCtl (0x2B + rd * 2 ^ 7 + 1 * 2 ^ 12 + rs1 * 2 ^ 15 + rs2 * 2 ^ 20 + (sd * 8) * 2 ^ 25) = _
  rw [decodeCtl_word _ (by omega) (by omega), decodeWord_2B _ (by unfold fld; omega)]
  refine (dec_sstore _ (by unfold fld; omega) (by unfold fld; omega)  (by unfold fld; omega)).trans ?_
  congr 2 <;> (unfold fld; omega)

/-- The arm of the decoder. -/
theorem dec_sgather (w : Nat) (h0 : fld w 0 7 = 0x2B) (h12 : fld w 12 3 = 2)  (h1 : fld w 25 7 % 8 = 0) : decodeStream w = some (.sgather (fld w 7 5) (fld w 25 7 / 8) (fld w 15 5) (fld w 20 5)) := by
  unfold decodeStream
  rw [h0, h12]
  exact if_pos h1

/-- The round trip of `sgather`. -/
theorem RoundTrip.sgather (rd sd rs1 rs2 : Nat) : RoundTrip.Statement (.sgather rd sd rs1 rs2) := by
  intro hw e he _
  have hw := of_decide_eq_true hw
  obtain rfl := Option.some.inj he
  show decodeCtl (0x2B + rd * 2 ^ 7 + 2 * 2 ^ 12 + rs1 * 2 ^ 15 + rs2 * 2 ^ 20 + (sd * 8) * 2 ^ 25) = _
  rw [decodeCtl_word _ (by omega) (by omega), decodeWord_2B _ (by unfold fld; omega)]
  refine (dec_sgather _ (by unfold fld; omega) (by unfold fld; omega)  (by unfold fld; omega)).trans ?_
  congr 2 <;> (unfold fld; omega)

/-- The arm of the decoder. -/
theorem dec_sscatter (w : Nat) (h0 : fld w 0 7 = 0x2B) (h12 : fld w 12 3 = 3)  (h1 : fld w 25 7 % 8 = 0) : decodeStream w = some (.sscatter (fld w 7 5) (fld w 25 7 / 8) (fld w 15 5) (fld w 20 5)) := by
  unfold decodeStream
  rw [h0, h12]
  exact if_pos h1

/-- The round trip of `sscatter`. -/
theorem RoundTrip.sscatter (rd sd rs1 rs2 : Nat) : RoundTrip.Statement (.sscatter rd sd rs1 rs2) := by
  intro hw e he _
  have hw := of_decide_eq_true hw
  obtain rfl := Option.some.inj he
  show decodeCtl (0x2B + rd * 2 ^ 7 + 3 * 2 ^ 12 + rs1 * 2 ^ 15 + rs2 * 2 ^ 20 + (sd * 8) * 2 ^ 25) = _
  rw [decodeCtl_word _ (by omega) (by omega), decodeWord_2B _ (by unfold fld; omega)]
  refine (dec_sscatter _ (by unfold fld; omega) (by unfold fld; omega)  (by unfold fld; omega)).trans ?_
  congr 2 <;> (unfold fld; omega)

/-- The arm of the decoder. -/
theorem dec_sscadd (w : Nat) (h0 : fld w 0 7 = 0x2B) (h12 : fld w 12 3 = 4)  (h1 : fld w 25 7 % 8 = 0) : decodeStream w = some (.sscadd (fld w 7 5) (fld w 25 7 / 8) (fld w 15 5) (fld w 20 5)) := by
  unfold decodeStream
  rw [h0, h12]
  exact if_pos h1

/-- The round trip of `sscadd`. -/
theorem RoundTrip.sscadd (rd sd rs1 rs2 : Nat) : RoundTrip.Statement (.sscadd rd sd rs1 rs2) := by
  intro hw e he _
  have hw := of_decide_eq_true hw
  obtain rfl := Option.some.inj he
  show decodeCtl (0x2B + rd * 2 ^ 7 + 4 * 2 ^ 12 + rs1 * 2 ^ 15 + rs2 * 2 ^ 20 + (sd * 8) * 2 ^ 25) = _
  rw [decodeCtl_word _ (by omega) (by omega), decodeWord_2B _ (by unfold fld; omega)]
  refine (dec_sscadd _ (by unfold fld; omega) (by unfold fld; omega)  (by unfold fld; omega)).trans ?_
  congr 2 <;> (unfold fld; omega)

/-- The arm of the decoder. -/
theorem dec_scopy (w : Nat) (h0 : fld w 0 7 = 0x2B) (h12 : fld w 12 3 = 5)  (h1 : fld w 25 7 % 8 = 0) : decodeStream w = some (.scopy (fld w 7 5) (fld w 25 7 / 8) (fld w 15 5) (fld w 20 5)) := by
  unfold decodeStream
  rw [h0, h12]
  exact if_pos h1

/-- The round trip of `scopy`. -/
theorem RoundTrip.scopy (rd sd rs1 rs2 : Nat) : RoundTrip.Statement (.scopy rd sd rs1 rs2) := by
  intro hw e he _
  have hw := of_decide_eq_true hw
  obtain rfl := Option.some.inj he
  show decodeCtl (0x2B + rd * 2 ^ 7 + 5 * 2 ^ 12 + rs1 * 2 ^ 15 + rs2 * 2 ^ 20 + (sd * 8) * 2 ^ 25) = _
  rw [decodeCtl_word _ (by omega) (by omega), decodeWord_2B _ (by unfold fld; omega)]
  refine (dec_scopy _ (by unfold fld; omega) (by unfold fld; omega)  (by unfold fld; omega)).trans ?_
  congr 2 <;> (unfold fld; omega)

/-- The arm of the decoder. -/
theorem dec_spref (w : Nat) (h0 : fld w 0 7 = 0x2B) (h12 : fld w 12 3 = 6)  (h1 : fld w 25 7 = 0 ∧ fld w 7 5 = 0) : decodeStream w = some (.spref (fld w 15 5) (fld w 20 5)) := by
  unfold decodeStream
  rw [h0, h12]
  exact if_pos h1

/-- The round trip of `spref`. -/
theorem RoundTrip.spref (rs1 rs2 : Nat) : RoundTrip.Statement (.spref rs1 rs2) := by
  intro hw e he _
  have hw := of_decide_eq_true hw
  obtain rfl := Option.some.inj he
  show decodeCtl (0x2B + 0 * 2 ^ 7 + 6 * 2 ^ 12 + rs1 * 2 ^ 15 + rs2 * 2 ^ 20 + 0 * 2 ^ 25) = _
  rw [decodeCtl_word _ (by omega) (by omega), decodeWord_2B _ (by unfold fld; omega)]
  refine (dec_spref _ (by unfold fld; omega) (by unfold fld; omega)  ⟨(by unfold fld; omega), (by unfold fld; omega)⟩).trans ?_
  congr 2 <;> (unfold fld; omega)

/-- The arm of the decoder. -/
theorem dec_satomAdd (w : Nat) (h0 : fld w 0 7 = 0x2B) (h12 : fld w 12 3 = 7)  (h1 : fld w 25 7 % 8 = 0) : decodeStream w = some (.satomAdd (fld w 7 5) (fld w 25 7 / 8) (fld w 15 5) (fld w 20 5)) := by
  unfold decodeStream
  rw [h0, h12]
  exact if_pos h1

/-- The round trip of `satomAdd`. -/
theorem RoundTrip.satomAdd (rd sd rs1 rs2 : Nat) : RoundTrip.Statement (.satomAdd rd sd rs1 rs2) := by
  intro hw e he _
  have hw := of_decide_eq_true hw
  obtain rfl := Option.some.inj he
  show decodeCtl (0x2B + rd * 2 ^ 7 + 7 * 2 ^ 12 + rs1 * 2 ^ 15 + rs2 * 2 ^ 20 + (sd * 8) * 2 ^ 25) = _
  rw [decodeCtl_word _ (by omega) (by omega), decodeWord_2B _ (by unfold fld; omega)]
  refine (dec_satomAdd _ (by unfold fld; omega) (by unfold fld; omega)  (by unfold fld; omega)).trans ?_
  congr 2 <;> (unfold fld; omega)

/-- The arm of the decoder. -/
theorem dec_satomSwap (w : Nat) (h0 : fld w 0 7 = 0x2B) (h12 : fld w 12 3 = 7) (n0 : ¬ (fld w 25 7 % 8 = 0)) (h1 : fld w 25 7 % 8 = 1) : decodeStream w = some (.satomSwap (fld w 7 5) (fld w 25 7 / 8) (fld w 15 5) (fld w 20 5)) := by
  unfold decodeStream
  rw [h0, h12]
  exact (if_neg n0).trans (if_pos h1)

/-- The round trip of `satomSwap`. -/
theorem RoundTrip.satomSwap (rd sd rs1 rs2 : Nat) : RoundTrip.Statement (.satomSwap rd sd rs1 rs2) := by
  intro hw e he _
  have hw := of_decide_eq_true hw
  obtain rfl := Option.some.inj he
  show decodeCtl (0x2B + rd * 2 ^ 7 + 7 * 2 ^ 12 + rs1 * 2 ^ 15 + rs2 * 2 ^ 20 + (sd * 8 + 1) * 2 ^ 25) = _
  rw [decodeCtl_word _ (by omega) (by omega), decodeWord_2B _ (by unfold fld; omega)]
  refine (dec_satomSwap _ (by unfold fld; omega) (by unfold fld; omega) (by unfold fld; omega) (by unfold fld; omega)).trans ?_
  congr 2 <;> (unfold fld; omega)

/-- The arm of the decoder. -/
theorem dec_satomCas (w : Nat) (h0 : fld w 0 7 = 0x2B) (h12 : fld w 12 3 = 7) (n0 : ¬ (fld w 25 7 % 8 = 0)) (n1 : ¬ (fld w 25 7 % 8 = 1)) (h1 : fld w 25 7 % 8 = 2) : decodeStream w = some (.satomCas (fld w 7 5) (fld w 25 7 / 8) (fld w 15 5) (fld w 20 5)) := by
  unfold decodeStream
  rw [h0, h12]
  exact (if_neg n0).trans ((if_neg n1).trans (if_pos h1))

/-- The round trip of `satomCas`. -/
theorem RoundTrip.satomCas (rd sd rs1 rs2 : Nat) : RoundTrip.Statement (.satomCas rd sd rs1 rs2) := by
  intro hw e he _
  have hw := of_decide_eq_true hw
  obtain rfl := Option.some.inj he
  show decodeCtl (0x2B + rd * 2 ^ 7 + 7 * 2 ^ 12 + rs1 * 2 ^ 15 + rs2 * 2 ^ 20 + (sd * 8 + 2) * 2 ^ 25) = _
  rw [decodeCtl_word _ (by omega) (by omega), decodeWord_2B _ (by unfold fld; omega)]
  refine (dec_satomCas _ (by unfold fld; omega) (by unfold fld; omega) (by unfold fld; omega) (by unfold fld; omega) (by unfold fld; omega)).trans ?_
  congr 2 <;> (unfold fld; omega)

/-- The arm of the decoder. -/
theorem dec_satomMin (w : Nat) (h0 : fld w 0 7 = 0x2B) (h12 : fld w 12 3 = 7) (n0 : ¬ (fld w 25 7 % 8 = 0)) (n1 : ¬ (fld w 25 7 % 8 = 1)) (n2 : ¬ (fld w 25 7 % 8 = 2)) (h1 : fld w 25 7 % 8 = 3) : decodeStream w = some (.satomMin (fld w 7 5) (fld w 25 7 / 8) (fld w 15 5) (fld w 20 5)) := by
  unfold decodeStream
  rw [h0, h12]
  exact (if_neg n0).trans ((if_neg n1).trans ((if_neg n2).trans (if_pos h1)))

/-- The round trip of `satomMin`. -/
theorem RoundTrip.satomMin (rd sd rs1 rs2 : Nat) : RoundTrip.Statement (.satomMin rd sd rs1 rs2) := by
  intro hw e he _
  have hw := of_decide_eq_true hw
  obtain rfl := Option.some.inj he
  show decodeCtl (0x2B + rd * 2 ^ 7 + 7 * 2 ^ 12 + rs1 * 2 ^ 15 + rs2 * 2 ^ 20 + (sd * 8 + 3) * 2 ^ 25) = _
  rw [decodeCtl_word _ (by omega) (by omega), decodeWord_2B _ (by unfold fld; omega)]
  refine (dec_satomMin _ (by unfold fld; omega) (by unfold fld; omega) (by unfold fld; omega) (by unfold fld; omega) (by unfold fld; omega) (by unfold fld; omega)).trans ?_
  congr 2 <;> (unfold fld; omega)

/-- The arm of the decoder. -/
theorem dec_satomMax (w : Nat) (h0 : fld w 0 7 = 0x2B) (h12 : fld w 12 3 = 7) (n0 : ¬ (fld w 25 7 % 8 = 0)) (n1 : ¬ (fld w 25 7 % 8 = 1)) (n2 : ¬ (fld w 25 7 % 8 = 2)) (n3 : ¬ (fld w 25 7 % 8 = 3)) (h1 : fld w 25 7 % 8 = 4) : decodeStream w = some (.satomMax (fld w 7 5) (fld w 25 7 / 8) (fld w 15 5) (fld w 20 5)) := by
  unfold decodeStream
  rw [h0, h12]
  exact (if_neg n0).trans ((if_neg n1).trans ((if_neg n2).trans ((if_neg n3).trans (if_pos h1))))

/-- The round trip of `satomMax`. -/
theorem RoundTrip.satomMax (rd sd rs1 rs2 : Nat) : RoundTrip.Statement (.satomMax rd sd rs1 rs2) := by
  intro hw e he _
  have hw := of_decide_eq_true hw
  obtain rfl := Option.some.inj he
  show decodeCtl (0x2B + rd * 2 ^ 7 + 7 * 2 ^ 12 + rs1 * 2 ^ 15 + rs2 * 2 ^ 20 + (sd * 8 + 4) * 2 ^ 25) = _
  rw [decodeCtl_word _ (by omega) (by omega), decodeWord_2B _ (by unfold fld; omega)]
  refine (dec_satomMax _ (by unfold fld; omega) (by unfold fld; omega) (by unfold fld; omega) (by unfold fld; omega) (by unfold fld; omega) (by unfold fld; omega) (by unfold fld; omega)).trans ?_
  congr 2 <;> (unfold fld; omega)

/-- The arm of the decoder. -/
theorem dec_satomAnd (w : Nat) (h0 : fld w 0 7 = 0x2B) (h12 : fld w 12 3 = 7) (n0 : ¬ (fld w 25 7 % 8 = 0)) (n1 : ¬ (fld w 25 7 % 8 = 1)) (n2 : ¬ (fld w 25 7 % 8 = 2)) (n3 : ¬ (fld w 25 7 % 8 = 3)) (n4 : ¬ (fld w 25 7 % 8 = 4)) (h1 : fld w 25 7 % 8 = 5) : decodeStream w = some (.satomAnd (fld w 7 5) (fld w 25 7 / 8) (fld w 15 5) (fld w 20 5)) := by
  unfold decodeStream
  rw [h0, h12]
  exact (if_neg n0).trans ((if_neg n1).trans ((if_neg n2).trans ((if_neg n3).trans ((if_neg n4).trans (if_pos h1)))))

/-- The round trip of `satomAnd`. -/
theorem RoundTrip.satomAnd (rd sd rs1 rs2 : Nat) : RoundTrip.Statement (.satomAnd rd sd rs1 rs2) := by
  intro hw e he _
  have hw := of_decide_eq_true hw
  obtain rfl := Option.some.inj he
  show decodeCtl (0x2B + rd * 2 ^ 7 + 7 * 2 ^ 12 + rs1 * 2 ^ 15 + rs2 * 2 ^ 20 + (sd * 8 + 5) * 2 ^ 25) = _
  rw [decodeCtl_word _ (by omega) (by omega), decodeWord_2B _ (by unfold fld; omega)]
  refine (dec_satomAnd _ (by unfold fld; omega) (by unfold fld; omega) (by unfold fld; omega) (by unfold fld; omega) (by unfold fld; omega) (by unfold fld; omega) (by unfold fld; omega) (by unfold fld; omega)).trans ?_
  congr 2 <;> (unfold fld; omega)

/-- The arm of the decoder. -/
theorem dec_satomOr (w : Nat) (h0 : fld w 0 7 = 0x2B) (h12 : fld w 12 3 = 7) (n0 : ¬ (fld w 25 7 % 8 = 0)) (n1 : ¬ (fld w 25 7 % 8 = 1)) (n2 : ¬ (fld w 25 7 % 8 = 2)) (n3 : ¬ (fld w 25 7 % 8 = 3)) (n4 : ¬ (fld w 25 7 % 8 = 4)) (n5 : ¬ (fld w 25 7 % 8 = 5)) (h1 : fld w 25 7 % 8 = 6) : decodeStream w = some (.satomOr (fld w 7 5) (fld w 25 7 / 8) (fld w 15 5) (fld w 20 5)) := by
  unfold decodeStream
  rw [h0, h12]
  exact (if_neg n0).trans ((if_neg n1).trans ((if_neg n2).trans ((if_neg n3).trans ((if_neg n4).trans ((if_neg n5).trans (if_pos h1))))))

/-- The round trip of `satomOr`. -/
theorem RoundTrip.satomOr (rd sd rs1 rs2 : Nat) : RoundTrip.Statement (.satomOr rd sd rs1 rs2) := by
  intro hw e he _
  have hw := of_decide_eq_true hw
  obtain rfl := Option.some.inj he
  show decodeCtl (0x2B + rd * 2 ^ 7 + 7 * 2 ^ 12 + rs1 * 2 ^ 15 + rs2 * 2 ^ 20 + (sd * 8 + 6) * 2 ^ 25) = _
  rw [decodeCtl_word _ (by omega) (by omega), decodeWord_2B _ (by unfold fld; omega)]
  refine (dec_satomOr _ (by unfold fld; omega) (by unfold fld; omega) (by unfold fld; omega) (by unfold fld; omega) (by unfold fld; omega) (by unfold fld; omega) (by unfold fld; omega) (by unfold fld; omega) (by unfold fld; omega)).trans ?_
  congr 2 <;> (unfold fld; omega)

/-- The arm of the decoder. -/
theorem dec_krun (w : Nat) (h0 : fld w 0 7 = 0x5B) (h12 : fld w 12 3 = 0)  (h1 : fld w 25 7 = 0) : decodeStream w = some (.krun (fld w 7 5) (fld w 15 5) (fld w 20 5)) := by
  unfold decodeStream
  rw [h0, h12]
  exact if_pos h1

/-- The round trip of `krun`. -/
theorem RoundTrip.krun (rd rs1 rs2 : Nat) : RoundTrip.Statement (.krun rd rs1 rs2) := by
  intro hw e he _
  have hw := of_decide_eq_true hw
  obtain rfl := Option.some.inj he
  show decodeCtl (0x5B + rd * 2 ^ 7 + 0 * 2 ^ 12 + rs1 * 2 ^ 15 + rs2 * 2 ^ 20 + 0 * 2 ^ 25) = _
  rw [decodeCtl_word _ (by omega) (by omega), decodeWord_5B _ (by unfold fld; omega)]
  refine (dec_krun _ (by unfold fld; omega) (by unfold fld; omega)  (by unfold fld; omega)).trans ?_
  congr 2 <;> (unfold fld; omega)

/-- The arm of the decoder. -/
theorem dec_kstage (w : Nat) (h0 : fld w 0 7 = 0x5B) (h12 : fld w 12 3 = 1)  (h1 : fld w 25 7 = 0) : decodeStream w = some (.kstage (fld w 7 5) (fld w 15 5) (fld w 20 5)) := by
  unfold decodeStream
  rw [h0, h12]
  exact if_pos h1

/-- The round trip of `kstage`. -/
theorem RoundTrip.kstage (rd rs1 rs2 : Nat) : RoundTrip.Statement (.kstage rd rs1 rs2) := by
  intro hw e he _
  have hw := of_decide_eq_true hw
  obtain rfl := Option.some.inj he
  show decodeCtl (0x5B + rd * 2 ^ 7 + 1 * 2 ^ 12 + rs1 * 2 ^ 15 + rs2 * 2 ^ 20 + 0 * 2 ^ 25) = _
  rw [decodeCtl_word _ (by omega) (by omega), decodeWord_5B _ (by unfold fld; omega)]
  refine (dec_kstage _ (by unfold fld; omega) (by unfold fld; omega)  (by unfold fld; omega)).trans ?_
  congr 2 <;> (unfold fld; omega)

/-- The arm of the decoder. -/
theorem dec_kpipe (w : Nat) (h0 : fld w 0 7 = 0x5B) (h12 : fld w 12 3 = 2)  (h1 : fld w 25 7 = 0) : decodeStream w = some (.kpipe (fld w 7 5) (fld w 15 5) (fld w 20 5)) := by
  unfold decodeStream
  rw [h0, h12]
  exact if_pos h1

/-- The round trip of `kpipe`. -/
theorem RoundTrip.kpipe (rd rs1 rs2 : Nat) : RoundTrip.Statement (.kpipe rd rs1 rs2) := by
  intro hw e he _
  have hw := of_decide_eq_true hw
  obtain rfl := Option.some.inj he
  show decodeCtl (0x5B + rd * 2 ^ 7 + 2 * 2 ^ 12 + rs1 * 2 ^ 15 + rs2 * 2 ^ 20 + 0 * 2 ^ 25) = _
  rw [decodeCtl_word _ (by omega) (by omega), decodeWord_5B _ (by unfold fld; omega)]
  refine (dec_kpipe _ (by unfold fld; omega) (by unfold fld; omega)  (by unfold fld; omega)).trans ?_
  congr 2 <;> (unfold fld; omega)

/-- The arm of the decoder. -/
theorem dec_khalt (w : Nat) (h0 : fld w 0 7 = 0x5B) (h12 : fld w 12 3 = 3)  (h1 : fld w 25 7 = 0 ∧ fld w 15 5 = 0 ∧ fld w 20 5 = 0) : decodeStream w = some (.khalt (fld w 7 5)) := by
  unfold decodeStream
  rw [h0, h12]
  exact if_pos h1

/-- The round trip of `khalt`. -/
theorem RoundTrip.khalt (rd : Nat) : RoundTrip.Statement (.khalt rd) := by
  intro hw e he _
  have hw := of_decide_eq_true hw
  obtain rfl := Option.some.inj he
  show decodeCtl (0x5B + rd * 2 ^ 7 + 3 * 2 ^ 12 + 0 * 2 ^ 15 + 0 * 2 ^ 20 + 0 * 2 ^ 25) = _
  rw [decodeCtl_word _ (by omega) (by omega), decodeWord_5B _ (by unfold fld; omega)]
  refine (dec_khalt _ (by unfold fld; omega) (by unfold fld; omega)  ⟨(by unfold fld; omega), (by unfold fld; omega), (by unfold fld; omega)⟩).trans ?_
  congr 2 <;> (unfold fld; omega)

/-- The arm of the decoder. -/
theorem dec_svadd (w : Nat) (h0 : fld w 0 7 = 0x5B) (h12 : fld w 12 3 = 4)  (h1 : fld w 25 7 = 0) : decodeStream w = some (.svadd (fld w 7 5) (fld w 15 5) (fld w 20 5)) := by
  unfold decodeStream
  rw [h0, h12]
  exact if_pos h1

/-- The round trip of `svadd`. -/
theorem RoundTrip.svadd (rd rs1 rs2 : Nat) : RoundTrip.Statement (.svadd rd rs1 rs2) := by
  intro hw e he _
  have hw := of_decide_eq_true hw
  obtain rfl := Option.some.inj he
  show decodeCtl (0x5B + rd * 2 ^ 7 + 4 * 2 ^ 12 + rs1 * 2 ^ 15 + rs2 * 2 ^ 20 + 0 * 2 ^ 25) = _
  rw [decodeCtl_word _ (by omega) (by omega), decodeWord_5B _ (by unfold fld; omega)]
  refine (dec_svadd _ (by unfold fld; omega) (by unfold fld; omega)  (by unfold fld; omega)).trans ?_
  congr 2 <;> (unfold fld; omega)

/-- The arm of the decoder. -/
theorem dec_svmul (w : Nat) (h0 : fld w 0 7 = 0x5B) (h12 : fld w 12 3 = 4) (n0 : ¬ (fld w 25 7 = 0)) (h1 : fld w 25 7 = 1) : decodeStream w = some (.svmul (fld w 7 5) (fld w 15 5) (fld w 20 5)) := by
  unfold decodeStream
  rw [h0, h12]
  exact (if_neg n0).trans (if_pos h1)

/-- The round trip of `svmul`. -/
theorem RoundTrip.svmul (rd rs1 rs2 : Nat) : RoundTrip.Statement (.svmul rd rs1 rs2) := by
  intro hw e he _
  have hw := of_decide_eq_true hw
  obtain rfl := Option.some.inj he
  show decodeCtl (0x5B + rd * 2 ^ 7 + 4 * 2 ^ 12 + rs1 * 2 ^ 15 + rs2 * 2 ^ 20 + 1 * 2 ^ 25) = _
  rw [decodeCtl_word _ (by omega) (by omega), decodeWord_5B _ (by unfold fld; omega)]
  refine (dec_svmul _ (by unfold fld; omega) (by unfold fld; omega) (by unfold fld; omega) (by unfold fld; omega)).trans ?_
  congr 2 <;> (unfold fld; omega)

/-- The arm of the decoder. -/
theorem dec_svfma (w : Nat) (h0 : fld w 0 7 = 0x5B) (h12 : fld w 12 3 = 4) (n0 : ¬ (fld w 25 7 = 0)) (n1 : ¬ (fld w 25 7 = 1)) (h1 : fld w 25 7 = 2) : decodeStream w = some (.svfma (fld w 7 5) (fld w 15 5) (fld w 20 5)) := by
  unfold decodeStream
  rw [h0, h12]
  exact (if_neg n0).trans ((if_neg n1).trans (if_pos h1))

/-- The round trip of `svfma`. -/
theorem RoundTrip.svfma (rd rs1 rs2 : Nat) : RoundTrip.Statement (.svfma rd rs1 rs2) := by
  intro hw e he _
  have hw := of_decide_eq_true hw
  obtain rfl := Option.some.inj he
  show decodeCtl (0x5B + rd * 2 ^ 7 + 4 * 2 ^ 12 + rs1 * 2 ^ 15 + rs2 * 2 ^ 20 + 2 * 2 ^ 25) = _
  rw [decodeCtl_word _ (by omega) (by omega), decodeWord_5B _ (by unfold fld; omega)]
  refine (dec_svfma _ (by unfold fld; omega) (by unfold fld; omega) (by unfold fld; omega) (by unfold fld; omega) (by unfold fld; omega)).trans ?_
  congr 2 <;> (unfold fld; omega)

/-- The arm of the decoder. -/
theorem dec_svcvt (w : Nat) (h0 : fld w 0 7 = 0x5B) (h12 : fld w 12 3 = 4) (n0 : ¬ (fld w 25 7 = 0)) (n1 : ¬ (fld w 25 7 = 1)) (n2 : ¬ (fld w 25 7 = 2)) (h1 : fld w 25 7 = 3) : decodeStream w = some (.svcvt (fld w 7 5) (fld w 15 5) (fld w 20 5)) := by
  unfold decodeStream
  rw [h0, h12]
  exact (if_neg n0).trans ((if_neg n1).trans ((if_neg n2).trans (if_pos h1)))

/-- The round trip of `svcvt`. -/
theorem RoundTrip.svcvt (rd rs1 rs2 : Nat) : RoundTrip.Statement (.svcvt rd rs1 rs2) := by
  intro hw e he _
  have hw := of_decide_eq_true hw
  obtain rfl := Option.some.inj he
  show decodeCtl (0x5B + rd * 2 ^ 7 + 4 * 2 ^ 12 + rs1 * 2 ^ 15 + rs2 * 2 ^ 20 + 3 * 2 ^ 25) = _
  rw [decodeCtl_word _ (by omega) (by omega), decodeWord_5B _ (by unfold fld; omega)]
  refine (dec_svcvt _ (by unfold fld; omega) (by unfold fld; omega) (by unfold fld; omega) (by unfold fld; omega) (by unfold fld; omega) (by unfold fld; omega)).trans ?_
  congr 2 <;> (unfold fld; omega)

/-- The arm of the decoder. -/
theorem dec_svscale (w : Nat) (h0 : fld w 0 7 = 0x5B) (h12 : fld w 12 3 = 4) (n0 : ¬ (fld w 25 7 = 0)) (n1 : ¬ (fld w 25 7 = 1)) (n2 : ¬ (fld w 25 7 = 2)) (n3 : ¬ (fld w 25 7 = 3)) (h1 : fld w 25 7 = 4) : decodeStream w = some (.svscale (fld w 7 5) (fld w 15 5) (fld w 20 5)) := by
  unfold decodeStream
  rw [h0, h12]
  exact (if_neg n0).trans ((if_neg n1).trans ((if_neg n2).trans ((if_neg n3).trans (if_pos h1))))

/-- The round trip of `svscale`. -/
theorem RoundTrip.svscale (rd rs1 rs2 : Nat) : RoundTrip.Statement (.svscale rd rs1 rs2) := by
  intro hw e he _
  have hw := of_decide_eq_true hw
  obtain rfl := Option.some.inj he
  show decodeCtl (0x5B + rd * 2 ^ 7 + 4 * 2 ^ 12 + rs1 * 2 ^ 15 + rs2 * 2 ^ 20 + 4 * 2 ^ 25) = _
  rw [decodeCtl_word _ (by omega) (by omega), decodeWord_5B _ (by unfold fld; omega)]
  refine (dec_svscale _ (by unfold fld; omega) (by unfold fld; omega) (by unfold fld; omega) (by unfold fld; omega) (by unfold fld; omega) (by unfold fld; omega) (by unfold fld; omega)).trans ?_
  congr 2 <;> (unfold fld; omega)

/-- The arm of the decoder. -/
theorem dec_svmax (w : Nat) (h0 : fld w 0 7 = 0x5B) (h12 : fld w 12 3 = 4) (n0 : ¬ (fld w 25 7 = 0)) (n1 : ¬ (fld w 25 7 = 1)) (n2 : ¬ (fld w 25 7 = 2)) (n3 : ¬ (fld w 25 7 = 3)) (n4 : ¬ (fld w 25 7 = 4)) (h1 : fld w 25 7 = 5) : decodeStream w = some (.svmax (fld w 7 5) (fld w 15 5) (fld w 20 5)) := by
  unfold decodeStream
  rw [h0, h12]
  exact (if_neg n0).trans ((if_neg n1).trans ((if_neg n2).trans ((if_neg n3).trans ((if_neg n4).trans (if_pos h1)))))

/-- The round trip of `svmax`. -/
theorem RoundTrip.svmax (rd rs1 rs2 : Nat) : RoundTrip.Statement (.svmax rd rs1 rs2) := by
  intro hw e he _
  have hw := of_decide_eq_true hw
  obtain rfl := Option.some.inj he
  show decodeCtl (0x5B + rd * 2 ^ 7 + 4 * 2 ^ 12 + rs1 * 2 ^ 15 + rs2 * 2 ^ 20 + 5 * 2 ^ 25) = _
  rw [decodeCtl_word _ (by omega) (by omega), decodeWord_5B _ (by unfold fld; omega)]
  refine (dec_svmax _ (by unfold fld; omega) (by unfold fld; omega) (by unfold fld; omega) (by unfold fld; omega) (by unfold fld; omega) (by unfold fld; omega) (by unfold fld; omega) (by unfold fld; omega)).trans ?_
  congr 2 <;> (unfold fld; omega)

/-- The arm of the decoder. -/
theorem dec_svmin (w : Nat) (h0 : fld w 0 7 = 0x5B) (h12 : fld w 12 3 = 4) (n0 : ¬ (fld w 25 7 = 0)) (n1 : ¬ (fld w 25 7 = 1)) (n2 : ¬ (fld w 25 7 = 2)) (n3 : ¬ (fld w 25 7 = 3)) (n4 : ¬ (fld w 25 7 = 4)) (n5 : ¬ (fld w 25 7 = 5)) (h1 : fld w 25 7 = 6) : decodeStream w = some (.svmin (fld w 7 5) (fld w 15 5) (fld w 20 5)) := by
  unfold decodeStream
  rw [h0, h12]
  exact (if_neg n0).trans ((if_neg n1).trans ((if_neg n2).trans ((if_neg n3).trans ((if_neg n4).trans ((if_neg n5).trans (if_pos h1))))))

/-- The round trip of `svmin`. -/
theorem RoundTrip.svmin (rd rs1 rs2 : Nat) : RoundTrip.Statement (.svmin rd rs1 rs2) := by
  intro hw e he _
  have hw := of_decide_eq_true hw
  obtain rfl := Option.some.inj he
  show decodeCtl (0x5B + rd * 2 ^ 7 + 4 * 2 ^ 12 + rs1 * 2 ^ 15 + rs2 * 2 ^ 20 + 6 * 2 ^ 25) = _
  rw [decodeCtl_word _ (by omega) (by omega), decodeWord_5B _ (by unfold fld; omega)]
  refine (dec_svmin _ (by unfold fld; omega) (by unfold fld; omega) (by unfold fld; omega) (by unfold fld; omega) (by unfold fld; omega) (by unfold fld; omega) (by unfold fld; omega) (by unfold fld; omega) (by unfold fld; omega)).trans ?_
  congr 2 <;> (unfold fld; omega)

/-- The arm of the decoder. -/
theorem dec_svcopy (w : Nat) (h0 : fld w 0 7 = 0x5B) (h12 : fld w 12 3 = 4) (n0 : ¬ (fld w 25 7 = 0)) (n1 : ¬ (fld w 25 7 = 1)) (n2 : ¬ (fld w 25 7 = 2)) (n3 : ¬ (fld w 25 7 = 3)) (n4 : ¬ (fld w 25 7 = 4)) (n5 : ¬ (fld w 25 7 = 5)) (n6 : ¬ (fld w 25 7 = 6)) (h1 : fld w 25 7 = 7) : decodeStream w = some (.svcopy (fld w 7 5) (fld w 15 5) (fld w 20 5)) := by
  unfold decodeStream
  rw [h0, h12]
  exact (if_neg n0).trans ((if_neg n1).trans ((if_neg n2).trans ((if_neg n3).trans ((if_neg n4).trans ((if_neg n5).trans ((if_neg n6).trans (if_pos h1)))))))

/-- The round trip of `svcopy`. -/
theorem RoundTrip.svcopy (rd rs1 rs2 : Nat) : RoundTrip.Statement (.svcopy rd rs1 rs2) := by
  intro hw e he _
  have hw := of_decide_eq_true hw
  obtain rfl := Option.some.inj he
  show decodeCtl (0x5B + rd * 2 ^ 7 + 4 * 2 ^ 12 + rs1 * 2 ^ 15 + rs2 * 2 ^ 20 + 7 * 2 ^ 25) = _
  rw [decodeCtl_word _ (by omega) (by omega), decodeWord_5B _ (by unfold fld; omega)]
  refine (dec_svcopy _ (by unfold fld; omega) (by unfold fld; omega) (by unfold fld; omega) (by unfold fld; omega) (by unfold fld; omega) (by unfold fld; omega) (by unfold fld; omega) (by unfold fld; omega) (by unfold fld; omega) (by unfold fld; omega)).trans ?_
  congr 2 <;> (unfold fld; omega)

/-- The arm of the decoder. -/
theorem dec_svfill (w : Nat) (h0 : fld w 0 7 = 0x5B) (h12 : fld w 12 3 = 4) (n0 : ¬ (fld w 25 7 = 0)) (n1 : ¬ (fld w 25 7 = 1)) (n2 : ¬ (fld w 25 7 = 2)) (n3 : ¬ (fld w 25 7 = 3)) (n4 : ¬ (fld w 25 7 = 4)) (n5 : ¬ (fld w 25 7 = 5)) (n6 : ¬ (fld w 25 7 = 6)) (n7 : ¬ (fld w 25 7 = 7)) (h1 : fld w 25 7 = 8) : decodeStream w = some (.svfill (fld w 7 5) (fld w 15 5) (fld w 20 5)) := by
  unfold decodeStream
  rw [h0, h12]
  exact (if_neg n0).trans ((if_neg n1).trans ((if_neg n2).trans ((if_neg n3).trans ((if_neg n4).trans ((if_neg n5).trans ((if_neg n6).trans ((if_neg n7).trans (if_pos h1))))))))

/-- The round trip of `svfill`. -/
theorem RoundTrip.svfill (rd rs1 rs2 : Nat) : RoundTrip.Statement (.svfill rd rs1 rs2) := by
  intro hw e he _
  have hw := of_decide_eq_true hw
  obtain rfl := Option.some.inj he
  show decodeCtl (0x5B + rd * 2 ^ 7 + 4 * 2 ^ 12 + rs1 * 2 ^ 15 + rs2 * 2 ^ 20 + 8 * 2 ^ 25) = _
  rw [decodeCtl_word _ (by omega) (by omega), decodeWord_5B _ (by unfold fld; omega)]
  refine (dec_svfill _ (by unfold fld; omega) (by unfold fld; omega) (by unfold fld; omega) (by unfold fld; omega) (by unfold fld; omega) (by unfold fld; omega) (by unfold fld; omega) (by unfold fld; omega) (by unfold fld; omega) (by unfold fld; omega) (by unfold fld; omega)).trans ?_
  congr 2 <;> (unfold fld; omega)

/-- The arm of the decoder. -/
theorem dec_mload (w : Nat) (h0 : fld w 0 7 = 0x5B) (h12 : fld w 12 3 = 5)  (h1 : fld w 25 7 = 0) : decodeStream w = some (.mload (fld w 7 5) (fld w 15 5) (fld w 20 5)) := by
  unfold decodeStream
  rw [h0, h12]
  exact if_pos h1

/-- The round trip of `mload`. -/
theorem RoundTrip.mload (rd rs1 rs2 : Nat) : RoundTrip.Statement (.mload rd rs1 rs2) := by
  intro hw e he _
  have hw := of_decide_eq_true hw
  obtain rfl := Option.some.inj he
  show decodeCtl (0x5B + rd * 2 ^ 7 + 5 * 2 ^ 12 + rs1 * 2 ^ 15 + rs2 * 2 ^ 20 + 0 * 2 ^ 25) = _
  rw [decodeCtl_word _ (by omega) (by omega), decodeWord_5B _ (by unfold fld; omega)]
  refine (dec_mload _ (by unfold fld; omega) (by unfold fld; omega)  (by unfold fld; omega)).trans ?_
  congr 2 <;> (unfold fld; omega)

/-- The arm of the decoder. -/
theorem dec_spmerge (w : Nat) (h0 : fld w 0 7 = 0x5B) (h12 : fld w 12 3 = 6)  (h1 : fld w 25 7 = 0) : decodeStream w = some (.spmerge (fld w 7 5) (fld w 15 5) (fld w 20 5)) := by
  unfold decodeStream
  rw [h0, h12]
  exact if_pos h1

/-- The round trip of `spmerge`. -/
theorem RoundTrip.spmerge (rd rs1 rs2 : Nat) : RoundTrip.Statement (.spmerge rd rs1 rs2) := by
  intro hw e he _
  have hw := of_decide_eq_true hw
  obtain rfl := Option.some.inj he
  show decodeCtl (0x5B + rd * 2 ^ 7 + 6 * 2 ^ 12 + rs1 * 2 ^ 15 + rs2 * 2 ^ 20 + 0 * 2 ^ 25) = _
  rw [decodeCtl_word _ (by omega) (by omega), decodeWord_5B _ (by unfold fld; omega)]
  refine (dec_spmerge _ (by unfold fld; omega) (by unfold fld; omega)  (by unfold fld; omega)).trans ?_
  congr 2 <;> (unfold fld; omega)

/-- The arm of the decoder. -/
theorem dec_spdrain (w : Nat) (h0 : fld w 0 7 = 0x5B) (h12 : fld w 12 3 = 7)  (h1 : fld w 25 7 = 0 ∧ fld w 15 5 = 0) : decodeStream w = some (.spdrain (fld w 7 5) (fld w 20 5)) := by
  unfold decodeStream
  rw [h0, h12]
  exact if_pos h1

/-- The round trip of `spdrain`. -/
theorem RoundTrip.spdrain (rd rs2 : Nat) : RoundTrip.Statement (.spdrain rd rs2) := by
  intro hw e he _
  have hw := of_decide_eq_true hw
  obtain rfl := Option.some.inj he
  show decodeCtl (0x5B + rd * 2 ^ 7 + 7 * 2 ^ 12 + 0 * 2 ^ 15 + rs2 * 2 ^ 20 + 0 * 2 ^ 25) = _
  rw [decodeCtl_word _ (by omega) (by omega), decodeWord_5B _ (by unfold fld; omega)]
  refine (dec_spdrain _ (by unfold fld; omega) (by unfold fld; omega)  ⟨(by unfold fld; omega), (by unfold fld; omega)⟩).trans ?_
  congr 2 <;> (unfold fld; omega)

/-- The arm of the decoder. -/
theorem dec_awinit (w : Nat) (h0 : fld w 0 7 = 0x7B) (h12 : fld w 12 3 = 0)  (h1 : fld w 25 7 = 0) : decodeStream w = some (.awinit (fld w 7 5) (fld w 15 5) (fld w 20 5)) := by
  unfold decodeStream
  rw [h0, h12]
  exact if_pos h1

/-- The round trip of `awinit`. -/
theorem RoundTrip.awinit (rd rs1 rs2 : Nat) : RoundTrip.Statement (.awinit rd rs1 rs2) := by
  intro hw e he _
  have hw := of_decide_eq_true hw
  obtain rfl := Option.some.inj he
  show decodeCtl (0x7B + rd * 2 ^ 7 + 0 * 2 ^ 12 + rs1 * 2 ^ 15 + rs2 * 2 ^ 20 + 0 * 2 ^ 25) = _
  rw [decodeCtl_word _ (by omega) (by omega), decodeWord_7B _ (by unfold fld; omega)]
  refine (dec_awinit _ (by unfold fld; omega) (by unfold fld; omega)  (by unfold fld; omega)).trans ?_
  congr 2 <;> (unfold fld; omega)

/-- The arm of the decoder. -/
theorem dec_await (w : Nat) (h0 : fld w 0 7 = 0x7B) (h12 : fld w 12 3 = 1)  (h1 : fld w 25 7 = 0) : decodeStream w = some (.await (fld w 7 5) (fld w 15 5) (fld w 20 5)) := by
  unfold decodeStream
  rw [h0, h12]
  exact if_pos h1

/-- The round trip of `await`. -/
theorem RoundTrip.await (rd rs1 rs2 : Nat) : RoundTrip.Statement (.await rd rs1 rs2) := by
  intro hw e he _
  have hw := of_decide_eq_true hw
  obtain rfl := Option.some.inj he
  show decodeCtl (0x7B + rd * 2 ^ 7 + 1 * 2 ^ 12 + rs1 * 2 ^ 15 + rs2 * 2 ^ 20 + 0 * 2 ^ 25) = _
  rw [decodeCtl_word _ (by omega) (by omega), decodeWord_7B _ (by unfold fld; omega)]
  refine (dec_await _ (by unfold fld; omega) (by unfold fld; omega)  (by unfold fld; omega)).trans ?_
  congr 2 <;> (unfold fld; omega)

/-- The arm of the decoder. -/
theorem dec_acq (w : Nat) (h0 : fld w 0 7 = 0x7B) (h12 : fld w 12 3 = 2)  (h1 : fld w 25 7 = 0) : decodeStream w = some (.acq (fld w 7 5) (fld w 15 5) (fld w 20 5)) := by
  unfold decodeStream
  rw [h0, h12]
  exact if_pos h1

/-- The round trip of `acq`. -/
theorem RoundTrip.acq (rd rs1 rs2 : Nat) : RoundTrip.Statement (.acq rd rs1 rs2) := by
  intro hw e he _
  have hw := of_decide_eq_true hw
  obtain rfl := Option.some.inj he
  show decodeCtl (0x7B + rd * 2 ^ 7 + 2 * 2 ^ 12 + rs1 * 2 ^ 15 + rs2 * 2 ^ 20 + 0 * 2 ^ 25) = _
  rw [decodeCtl_word _ (by omega) (by omega), decodeWord_7B _ (by unfold fld; omega)]
  refine (dec_acq _ (by unfold fld; omega) (by unfold fld; omega)  (by unfold fld; omega)).trans ?_
  congr 2 <;> (unfold fld; omega)

/-- The arm of the decoder. -/
theorem dec_rel (w : Nat) (h0 : fld w 0 7 = 0x7B) (h12 : fld w 12 3 = 2) (n0 : ¬ (fld w 25 7 = 0)) (h1 : fld w 25 7 = 1 ∧ fld w 20 5 = 0) : decodeStream w = some (.rel (fld w 7 5) (fld w 15 5)) := by
  unfold decodeStream
  rw [h0, h12]
  exact (if_neg n0).trans (if_pos h1)

/-- The round trip of `rel`. -/
theorem RoundTrip.rel (rd rs1 : Nat) : RoundTrip.Statement (.rel rd rs1) := by
  intro hw e he _
  have hw := of_decide_eq_true hw
  obtain rfl := Option.some.inj he
  show decodeCtl (0x7B + rd * 2 ^ 7 + 2 * 2 ^ 12 + rs1 * 2 ^ 15 + 0 * 2 ^ 20 + 1 * 2 ^ 25) = _
  rw [decodeCtl_word _ (by omega) (by omega), decodeWord_7B _ (by unfold fld; omega)]
  refine (dec_rel _ (by unfold fld; omega) (by unfold fld; omega) (by unfold fld; omega) ⟨(by unfold fld; omega), (by unfold fld; omega)⟩).trans ?_
  congr 2 <;> (unfold fld; omega)

/-- The arm of the decoder. -/
theorem dec_tacq (w : Nat) (h0 : fld w 0 7 = 0x7B) (h12 : fld w 12 3 = 3)  (h1 : fld w 25 7 = 0) : decodeStream w = some (.tacq (fld w 7 5) (fld w 15 5) (fld w 20 5)) := by
  unfold decodeStream
  rw [h0, h12]
  exact if_pos h1

/-- The round trip of `tacq`. -/
theorem RoundTrip.tacq (rd rs1 rs2 : Nat) : RoundTrip.Statement (.tacq rd rs1 rs2) := by
  intro hw e he _
  have hw := of_decide_eq_true hw
  obtain rfl := Option.some.inj he
  show decodeCtl (0x7B + rd * 2 ^ 7 + 3 * 2 ^ 12 + rs1 * 2 ^ 15 + rs2 * 2 ^ 20 + 0 * 2 ^ 25) = _
  rw [decodeCtl_word _ (by omega) (by omega), decodeWord_7B _ (by unfold fld; omega)]
  refine (dec_tacq _ (by unfold fld; omega) (by unfold fld; omega)  (by unfold fld; omega)).trans ?_
  congr 2 <;> (unfold fld; omega)

/-- The arm of the decoder. -/
theorem dec_trel (w : Nat) (h0 : fld w 0 7 = 0x7B) (h12 : fld w 12 3 = 3) (n0 : ¬ (fld w 25 7 = 0)) (h1 : fld w 25 7 = 1 ∧ fld w 20 5 = 0) : decodeStream w = some (.trel (fld w 7 5) (fld w 15 5)) := by
  unfold decodeStream
  rw [h0, h12]
  exact (if_neg n0).trans (if_pos h1)

/-- The round trip of `trel`. -/
theorem RoundTrip.trel (rd rs1 : Nat) : RoundTrip.Statement (.trel rd rs1) := by
  intro hw e he _
  have hw := of_decide_eq_true hw
  obtain rfl := Option.some.inj he
  show decodeCtl (0x7B + rd * 2 ^ 7 + 3 * 2 ^ 12 + rs1 * 2 ^ 15 + 0 * 2 ^ 20 + 1 * 2 ^ 25) = _
  rw [decodeCtl_word _ (by omega) (by omega), decodeWord_7B _ (by unfold fld; omega)]
  refine (dec_trel _ (by unfold fld; omega) (by unfold fld; omega) (by unfold fld; omega) ⟨(by unfold fld; omega), (by unfold fld; omega)⟩).trans ?_
  congr 2 <;> (unfold fld; omega)

/-- The arm of the decoder. -/
theorem dec_fencex (w : Nat) (h0 : fld w 0 7 = 0x7B) (h12 : fld w 12 3 = 4)  (h1 : fld w 25 7 = 0 ∧ fld w 20 5 = 0) : decodeStream w = some (.fencex (fld w 7 5) (fld w 15 5)) := by
  unfold decodeStream
  rw [h0, h12]
  exact if_pos h1

/-- The round trip of `fencex`. -/
theorem RoundTrip.fencex (rd rs1 : Nat) : RoundTrip.Statement (.fencex rd rs1) := by
  intro hw e he _
  have hw := of_decide_eq_true hw
  obtain rfl := Option.some.inj he
  show decodeCtl (0x7B + rd * 2 ^ 7 + 4 * 2 ^ 12 + rs1 * 2 ^ 15 + 0 * 2 ^ 20 + 0 * 2 ^ 25) = _
  rw [decodeCtl_word _ (by omega) (by omega), decodeWord_7B _ (by unfold fld; omega)]
  refine (dec_fencex _ (by unfold fld; omega) (by unfold fld; omega)  ⟨(by unfold fld; omega), (by unfold fld; omega)⟩).trans ?_
  congr 2 <;> (unfold fld; omega)

/-- The arm of the decoder. -/
theorem dec_swait (w : Nat) (h0 : fld w 0 7 = 0x7B) (h12 : fld w 12 3 = 5)  (h1 : fld w 25 7 = 0 ∧ fld w 20 5 = 0) : decodeStream w = some (.swait (fld w 7 5) (fld w 15 5)) := by
  unfold decodeStream
  rw [h0, h12]
  exact if_pos h1

/-- The round trip of `swait`. -/
theorem RoundTrip.swait (rd rs1 : Nat) : RoundTrip.Statement (.swait rd rs1) := by
  intro hw e he _
  have hw := of_decide_eq_true hw
  obtain rfl := Option.some.inj he
  show decodeCtl (0x7B + rd * 2 ^ 7 + 5 * 2 ^ 12 + rs1 * 2 ^ 15 + 0 * 2 ^ 20 + 0 * 2 ^ 25) = _
  rw [decodeCtl_word _ (by omega) (by omega), decodeWord_7B _ (by unfold fld; omega)]
  refine (dec_swait _ (by unfold fld; omega) (by unfold fld; omega)  ⟨(by unfold fld; omega), (by unfold fld; omega)⟩).trans ?_
  congr 2 <;> (unfold fld; omega)

/-- The arm of the decoder. -/
theorem dec_sbar (w : Nat) (h0 : fld w 0 7 = 0x7B) (h12 : fld w 12 3 = 5) (n0 : ¬ (fld w 25 7 = 0 ∧ fld w 20 5 = 0)) (h1 : fld w 25 7 = 1 ∧ fld w 20 5 = 0) : decodeStream w = some (.sbar (fld w 7 5) (fld w 15 5)) := by
  unfold decodeStream
  rw [h0, h12]
  exact (if_neg n0).trans (if_pos h1)

/-- The round trip of `sbar`. -/
theorem RoundTrip.sbar (rd rs1 : Nat) : RoundTrip.Statement (.sbar rd rs1) := by
  intro hw e he _
  have hw := of_decide_eq_true hw
  obtain rfl := Option.some.inj he
  show decodeCtl (0x7B + rd * 2 ^ 7 + 5 * 2 ^ 12 + rs1 * 2 ^ 15 + 0 * 2 ^ 20 + 1 * 2 ^ 25) = _
  rw [decodeCtl_word _ (by omega) (by omega), decodeWord_7B _ (by unfold fld; omega)]
  refine (dec_sbar _ (by unfold fld; omega) (by unfold fld; omega) (by unfold fld; omega) ⟨(by unfold fld; omega), (by unfold fld; omega)⟩).trans ?_
  congr 2 <;> (unfold fld; omega)

/-- The arm of the decoder. -/
theorem dec_spawn (w : Nat) (h0 : fld w 0 7 = 0x7B) (h12 : fld w 12 3 = 6)  (h1 : fld w 25 7 = 0) : decodeStream w = some (.spawn (fld w 7 5) (fld w 15 5) (fld w 20 5)) := by
  unfold decodeStream
  rw [h0, h12]
  exact if_pos h1

/-- The round trip of `spawn`. -/
theorem RoundTrip.spawn (rd rs1 rs2 : Nat) : RoundTrip.Statement (.spawn rd rs1 rs2) := by
  intro hw e he _
  have hw := of_decide_eq_true hw
  obtain rfl := Option.some.inj he
  show decodeCtl (0x7B + rd * 2 ^ 7 + 6 * 2 ^ 12 + rs1 * 2 ^ 15 + rs2 * 2 ^ 20 + 0 * 2 ^ 25) = _
  rw [decodeCtl_word _ (by omega) (by omega), decodeWord_7B _ (by unfold fld; omega)]
  refine (dec_spawn _ (by unfold fld; omega) (by unfold fld; omega)  (by unfold fld; omega)).trans ?_
  congr 2 <;> (unfold fld; omega)

/-- The arm of the decoder. -/
theorem dec_texit (w : Nat) (h0 : fld w 0 7 = 0x7B) (h12 : fld w 12 3 = 6) (n0 : ¬ (fld w 25 7 = 0)) (h1 : fld w 25 7 = 1 ∧ fld w 20 5 = 0 ∧ fld w 15 5 = 0 ∧ fld w 7 5 = 0) : decodeStream w = some (.texit) := by
  unfold decodeStream
  rw [h0, h12]
  exact (if_neg n0).trans (if_pos h1)

/-- The round trip of `texit`. -/
theorem RoundTrip.texit : RoundTrip.Statement (.texit) := by
  intro hw e he _
  obtain rfl := Option.some.inj he
  show decodeCtl (0x7B + 0 * 2 ^ 7 + 6 * 2 ^ 12 + 0 * 2 ^ 15 + 0 * 2 ^ 20 + 1 * 2 ^ 25) = _
  rw [decodeCtl_word _ (by omega) (by omega), decodeWord_7B _ (by unfold fld; omega)]
  refine (dec_texit _ (by unfold fld; omega) (by unfold fld; omega) (by unfold fld; omega) ⟨(by unfold fld; omega), (by unfold fld; omega), (by unfold fld; omega), (by unfold fld; omega)⟩).trans ?_
  rfl

/-- The arm of the decoder. -/
theorem dec_tsplit (w : Nat) (h0 : fld w 0 7 = 0x7B) (h12 : fld w 12 3 = 6) (n0 : ¬ (fld w 25 7 = 0)) (n1 : ¬ (fld w 25 7 = 1 ∧ fld w 20 5 = 0 ∧ fld w 15 5 = 0 ∧ fld w 7 5 = 0)) (h1 : fld w 25 7 = 2 ∧ fld w 20 5 = 0) : decodeStream w = some (.tsplit (fld w 7 5) (fld w 15 5)) := by
  unfold decodeStream
  rw [h0, h12]
  exact (if_neg n0).trans ((if_neg n1).trans (if_pos h1))

/-- The round trip of `tsplit`. -/
theorem RoundTrip.tsplit (rd rs1 : Nat) : RoundTrip.Statement (.tsplit rd rs1) := by
  intro hw e he _
  have hw := of_decide_eq_true hw
  obtain rfl := Option.some.inj he
  show decodeCtl (0x7B + rd * 2 ^ 7 + 6 * 2 ^ 12 + rs1 * 2 ^ 15 + 0 * 2 ^ 20 + 2 * 2 ^ 25) = _
  rw [decodeCtl_word _ (by omega) (by omega), decodeWord_7B _ (by unfold fld; omega)]
  refine (dec_tsplit _ (by unfold fld; omega) (by unfold fld; omega) (by unfold fld; omega) (by unfold fld; omega) ⟨(by unfold fld; omega), (by unfold fld; omega)⟩).trans ?_
  congr 2 <;> (unfold fld; omega)

/-- The arm of the decoder. -/
theorem dec_treseed (w : Nat) (h0 : fld w 0 7 = 0x7B) (h12 : fld w 12 3 = 6) (n0 : ¬ (fld w 25 7 = 0)) (n1 : ¬ (fld w 25 7 = 1 ∧ fld w 20 5 = 0 ∧ fld w 15 5 = 0 ∧ fld w 7 5 = 0)) (n2 : ¬ (fld w 25 7 = 2 ∧ fld w 20 5 = 0)) (h1 : fld w 25 7 = 3 ∧ fld w 20 5 = 0 ∧ fld w 15 5 = 0) : decodeStream w = some (.treseed (fld w 7 5)) := by
  unfold decodeStream
  rw [h0, h12]
  exact (if_neg n0).trans ((if_neg n1).trans ((if_neg n2).trans (if_pos h1)))

/-- The round trip of `treseed`. -/
theorem RoundTrip.treseed (rd : Nat) : RoundTrip.Statement (.treseed rd) := by
  intro hw e he _
  have hw := of_decide_eq_true hw
  obtain rfl := Option.some.inj he
  show decodeCtl (0x7B + rd * 2 ^ 7 + 6 * 2 ^ 12 + 0 * 2 ^ 15 + 0 * 2 ^ 20 + 3 * 2 ^ 25) = _
  rw [decodeCtl_word _ (by omega) (by omega), decodeWord_7B _ (by unfold fld; omega)]
  refine (dec_treseed _ (by unfold fld; omega) (by unfold fld; omega) (by unfold fld; omega) (by unfold fld; omega) (by unfold fld; omega) ⟨(by unfold fld; omega), (by unfold fld; omega), (by unfold fld; omega)⟩).trans ?_
  congr 2 <;> (unfold fld; omega)

/-- The arm of the decoder. -/
theorem dec_gsync (w : Nat) (h0 : fld w 0 7 = 0x7B) (h12 : fld w 12 3 = 7)  (h1 : fld w 25 7 = 0 ∧ fld w 20 5 = 0) : decodeStream w = some (.gsync (fld w 7 5) (fld w 15 5)) := by
  unfold decodeStream
  rw [h0, h12]
  exact if_pos h1

/-- The round trip of `gsync`. -/
theorem RoundTrip.gsync (rd rs1 : Nat) : RoundTrip.Statement (.gsync rd rs1) := by
  intro hw e he _
  have hw := of_decide_eq_true hw
  obtain rfl := Option.some.inj he
  show decodeCtl (0x7B + rd * 2 ^ 7 + 7 * 2 ^ 12 + rs1 * 2 ^ 15 + 0 * 2 ^ 20 + 0 * 2 ^ 25) = _
  rw [decodeCtl_word _ (by omega) (by omega), decodeWord_7B _ (by unfold fld; omega)]
  refine (dec_gsync _ (by unfold fld; omega) (by unfold fld; omega)  ⟨(by unfold fld; omega), (by unfold fld; omega)⟩).trans ?_
  congr 2 <;> (unfold fld; omega)

/-- The arm of the decoder. -/
theorem dec_syield (w : Nat) (h0 : fld w 0 7 = 0x7B) (h12 : fld w 12 3 = 7) (n0 : ¬ (fld w 25 7 = 0 ∧ fld w 20 5 = 0)) (h1 : fld w 25 7 = 1 ∧ fld w 20 5 = 0 ∧ fld w 15 5 = 0) : decodeStream w = some (.syield (fld w 7 5)) := by
  unfold decodeStream
  rw [h0, h12]
  exact (if_neg n0).trans (if_pos h1)

/-- The round trip of `syield`. -/
theorem RoundTrip.syield (rd : Nat) : RoundTrip.Statement (.syield rd) := by
  intro hw e he _
  have hw := of_decide_eq_true hw
  obtain rfl := Option.some.inj he
  show decodeCtl (0x7B + rd * 2 ^ 7 + 7 * 2 ^ 12 + 0 * 2 ^ 15 + 0 * 2 ^ 20 + 1 * 2 ^ 25) = _
  rw [decodeCtl_word _ (by omega) (by omega), decodeWord_7B _ (by unfold fld; omega)]
  refine (dec_syield _ (by unfold fld; omega) (by unfold fld; omega) (by unfold fld; omega) ⟨(by unfold fld; omega), (by unfold fld; omega), (by unfold fld; omega)⟩).trans ?_
  congr 2 <;> (unfold fld; omega)

/-- The arm of the decoder. -/
theorem dec_sstat (w : Nat) (h0 : fld w 0 7 = 0x7B) (h12 : fld w 12 3 = 7) (n0 : ¬ (fld w 25 7 = 0 ∧ fld w 20 5 = 0)) (n1 : ¬ (fld w 25 7 = 1 ∧ fld w 20 5 = 0 ∧ fld w 15 5 = 0)) (h1 : fld w 25 7 = 2 ∧ fld w 20 5 = 0) : decodeStream w = some (.sstat (fld w 7 5) (fld w 15 5)) := by
  unfold decodeStream
  rw [h0, h12]
  exact (if_neg n0).trans ((if_neg n1).trans (if_pos h1))

/-- The round trip of `sstat`. -/
theorem RoundTrip.sstat (rd rs1 : Nat) : RoundTrip.Statement (.sstat rd rs1) := by
  intro hw e he _
  have hw := of_decide_eq_true hw
  obtain rfl := Option.some.inj he
  show decodeCtl (0x7B + rd * 2 ^ 7 + 7 * 2 ^ 12 + rs1 * 2 ^ 15 + 0 * 2 ^ 20 + 2 * 2 ^ 25) = _
  rw [decodeCtl_word _ (by omega) (by omega), decodeWord_7B _ (by unfold fld; omega)]
  refine (dec_sstat _ (by unfold fld; omega) (by unfold fld; omega) (by unfold fld; omega) (by unfold fld; omega) ⟨(by unfold fld; omega), (by unfold fld; omega)⟩).trans ?_
  congr 2 <;> (unfold fld; omega)
/-! ## The standard instructions of the controller -/

theorem RoundTrip.rvIntegerAlu (c : Bool) (op : AluOp) (w : Bool) (rd rs1 : Nat) (src : RvSrc) : RoundTrip.Statement (.rvIntegerAlu c op w rd rs1 src) := by
  intro _ e he hn
  unfold encode at he
  rw [hn] at he
  nomatch he

theorem RoundTrip.rvMultiply (op : MulOp) (rd rs1 rs2 : Nat) : RoundTrip.Statement (.rvMultiply op rd rs1 rs2) := by
  intro _ e he hn
  unfold encode at he
  rw [hn] at he
  nomatch he

theorem RoundTrip.rvDivide (op : DivOp) (w : Bool) (rd rs1 rs2 : Nat) : RoundTrip.Statement (.rvDivide op w rd rs1 rs2) := by
  intro _ e he hn
  unfold encode at he
  rw [hn] at he
  nomatch he

theorem RoundTrip.rvLoad (c : Bool) (k : LoadKind) (rd rs1 : Nat) (off : Dword) : RoundTrip.Statement (.rvLoad c k rd rs1 off) := by
  intro _ e he hn
  unfold encode at he
  rw [hn] at he
  nomatch he

theorem RoundTrip.rvStore (c : Bool) (k : StoreKind) (rs2 rs1 : Nat) (off : Dword) : RoundTrip.Statement (.rvStore c k rs2 rs1 off) := by
  intro _ e he hn
  unfold encode at he
  rw [hn] at he
  nomatch he

theorem RoundTrip.rvFloatOp (op : FOp) (dbl : Bool) (rd rs1 rs2 rs3 rm : Nat) : RoundTrip.Statement (.rvFloatOp op dbl rd rs1 rs2 rs3 rm) := by
  intro _ e he hn
  unfold encode at he
  rw [hn] at he
  nomatch he

theorem RoundTrip.rvFdivFsqrt (sqrt dbl : Bool) (rd rs1 rs2 rm : Nat) : RoundTrip.Statement (.rvFdivFsqrt sqrt dbl rd rs1 rs2 rm) := by
  intro _ e he hn
  unfold encode at he
  rw [hn] at he
  nomatch he

theorem RoundTrip.rvBranch (c : Bool) (k : BrKind) (rs1 rs2 : Nat) (off : Dword) : RoundTrip.Statement (.rvBranch c k rs1 rs2 off) := by
  intro _ e he hn
  unfold encode at he
  rw [hn] at he
  nomatch he

theorem RoundTrip.jal (c : Bool) (rd : Nat) (off : Dword) : RoundTrip.Statement (.jal c rd off) := by
  intro _ e he hn
  unfold encode at he
  rw [hn] at he
  nomatch he

theorem RoundTrip.jalr (c : Bool) (rd rs1 : Nat) (off : Dword) : RoundTrip.Statement (.jalr c rd rs1 off) := by
  intro _ e he hn
  unfold encode at he
  rw [hn] at he
  nomatch he

theorem RoundTrip.fence (i : Bool) (bits : Nat) : RoundTrip.Statement (.fence i bits) := by
  intro _ e he hn
  unfold encode at he
  rw [hn] at he
  nomatch he

theorem RoundTrip.lr (d : Bool) (aqrl rd rs1 : Nat) : RoundTrip.Statement (.lr d aqrl rd rs1) := by
  intro _ e he hn
  unfold encode at he
  rw [hn] at he
  nomatch he

theorem RoundTrip.sc (d : Bool) (aqrl rd rs1 rs2 : Nat) : RoundTrip.Statement (.sc d aqrl rd rs1 rs2) := by
  intro _ e he hn
  unfold encode at he
  rw [hn] at he
  nomatch he

theorem RoundTrip.rvAmo (op : AmoOp) (d : Bool) (aqrl rd rs1 rs2 : Nat) : RoundTrip.Statement (.rvAmo op d aqrl rd rs1 rs2) := by
  intro _ e he hn
  unfold encode at he
  rw [hn] at he
  nomatch he

theorem RoundTrip.rvCsrAccess (op : CsrOp) (imm : Bool) (csr rd src : Nat) : RoundTrip.Statement (.rvCsrAccess op imm csr rd src) := by
  intro _ e he hn
  unfold encode at he
  rw [hn] at he
  nomatch he

theorem RoundTrip.ecall : RoundTrip.Statement (.ecall) := by
  intro _ e he hn
  unfold encode at he
  rw [hn] at he
  nomatch he

theorem RoundTrip.ebreak (c : Bool) : RoundTrip.Statement (.ebreak c) := by
  intro _ e he hn
  unfold encode at he
  rw [hn] at he
  nomatch he

/-! ## Steps of the part -/

theorem RoundTrip.launch (h : VctHdr) (r : LaunchRec) : RoundTrip.Statement (.launch h r) := fun _ _ he _ => nomatch he
theorem RoundTrip.write (h : VctHdr) (ia : Nat) (data : List Byte) : RoundTrip.Statement (.write h ia data) := fun _ _ he _ => nomatch he
theorem RoundTrip.read (h : VctHdr) (ia len : Nat) : RoundTrip.Statement (.read h ia len) := fun _ _ he _ => nomatch he
theorem RoundTrip.hostTransferComplete (id : Nat) : RoundTrip.Statement (.hostTransferComplete id) := fun _ _ he _ => nomatch he
theorem RoundTrip.load (h : VctHdr) (ia len : Nat) : RoundTrip.Statement (.load h ia len) := fun _ _ he _ => nomatch he
theorem RoundTrip.unload (h : VctHdr) (handle : Nat) : RoundTrip.Statement (.unload h handle) := fun _ _ he _ => nomatch he
theorem RoundTrip.cancel (h : VctHdr) (tag : Nat) : RoundTrip.Statement (.cancel h tag) := fun _ _ he _ => nomatch he
theorem RoundTrip.ack (vf seq : Nat) : RoundTrip.Statement (.ack vf seq) := fun _ _ he _ => nomatch he
theorem RoundTrip.vctInvalidMessage (h : VctHdr) : RoundTrip.Statement (.vctInvalidMessage h) := fun _ _ he _ => nomatch he
theorem RoundTrip.vctRetransmitTimer (vf seq : Nat) : RoundTrip.Statement (.vctRetransmitTimer vf seq) := fun _ _ he _ => nomatch he
theorem RoundTrip.partCreate (h : VctHdr) (part : Nat) : RoundTrip.Statement (.partCreate h part) := fun _ _ he _ => nomatch he
theorem RoundTrip.partDestroy (h : VctHdr) (part : Nat) : RoundTrip.Statement (.partDestroy h part) := fun _ _ he _ => nomatch he
theorem RoundTrip.partSps (h : VctHdr) (part mask : Nat) : RoundTrip.Statement (.partSps h part mask) := fun _ _ he _ => nomatch he
theorem RoundTrip.partMem (h : VctHdr) (part base len : Nat) (remove : Bool) : RoundTrip.Statement (.partMem h part base len remove) := fun _ _ he _ => nomatch he
theorem RoundTrip.partArena (h : VctHdr) (part bytes : Nat) : RoundTrip.Statement (.partArena h part bytes) := fun _ _ he _ => nomatch he
theorem RoundTrip.vfBind (h : VctHdr) (vf part : Nat) : RoundTrip.Statement (.vfBind h vf part) := fun _ _ he _ => nomatch he
theorem RoundTrip.vfUnbind (h : VctHdr) (vf : Nat) : RoundTrip.Statement (.vfUnbind h vf) := fun _ _ he _ => nomatch he
theorem RoundTrip.migrateAccept (h : VctHdr) (m : MigArgs) : RoundTrip.Statement (.migrateAccept h m) := fun _ _ he _ => nomatch he
theorem RoundTrip.migrateStart (h : VctHdr) (m : MigArgs) : RoundTrip.Statement (.migrateStart h m) := fun _ _ he _ => nomatch he
theorem RoundTrip.migrateAbort (h : VctHdr) (m : MigArgs) : RoundTrip.Statement (.migrateAbort h m) := fun _ _ he _ => nomatch he
theorem RoundTrip.migrateRelease (h : VctHdr) (m : MigArgs) : RoundTrip.Statement (.migrateRelease h m) := fun _ _ he _ => nomatch he
theorem RoundTrip.placementPass (part : Nat) : RoundTrip.Statement (.placementPass part) := fun _ _ he _ => nomatch he
theorem RoundTrip.taskTake (part : Nat) : RoundTrip.Statement (.taskTake part) := fun _ _ he _ => nomatch he
theorem RoundTrip.launchRelease (id : Nat) : RoundTrip.Statement (.launchRelease id) := fun _ _ he _ => nomatch he
theorem RoundTrip.eosClose (sp handle : Nat) : RoundTrip.Statement (.eosClose sp handle) := fun _ _ he _ => nomatch he
theorem RoundTrip.sweepIteration (sp : Nat) : RoundTrip.Statement (.sweepIteration sp) := fun _ _ he _ => nomatch he
theorem RoundTrip.mloadComplete (sp : Nat) : RoundTrip.Statement (.mloadComplete sp) := fun _ _ he _ => nomatch he
theorem RoundTrip.controllerWaitEnd (sp : Nat) : RoundTrip.Statement (.controllerWaitEnd sp) := fun _ _ he _ => nomatch he
theorem RoundTrip.kstatusKres (sp : Nat) : RoundTrip.Statement (.kstatusKres sp) := fun _ _ he _ => nomatch he
theorem RoundTrip.kstatusKkill (sp : Nat) : RoundTrip.Statement (.kstatusKkill sp) := fun _ _ he _ => nomatch he
theorem RoundTrip.kstatusIeWrite (sp : Nat) (v : Bool) : RoundTrip.Statement (.kstatusIeWrite sp v) := fun _ _ he _ => nomatch he
theorem RoundTrip.kstatusPendClear (sp : Nat) : RoundTrip.Statement (.kstatusPendClear sp) := fun _ _ he _ => nomatch he
theorem RoundTrip.kstatClear (sp : Nat) (mask : BitVec 13) : RoundTrip.Statement (.kstatClear sp mask) := fun _ _ he _ => nomatch he
theorem RoundTrip.cboundWrite (sp : Nat) (v : Dword) : RoundTrip.Statement (.cboundWrite sp v) := fun _ _ he _ => nomatch he
theorem RoundTrip.mpreqWrite (sp : Nat) : RoundTrip.Statement (.mpreqWrite sp) := fun _ _ he _ => nomatch he
theorem RoundTrip.keventDelivery (sp : Nat) : RoundTrip.Statement (.keventDelivery sp) := fun _ _ he _ => nomatch he
theorem RoundTrip.scoreboardIssue (sp : Nat) : RoundTrip.Statement (.scoreboardIssue sp) := fun _ _ he _ => nomatch he
theorem RoundTrip.towerRendezvous (sp : Nat) : RoundTrip.Statement (.towerRendezvous sp) := fun _ _ he _ => nomatch he
theorem RoundTrip.copyBeatSend (sp seq : Nat) : RoundTrip.Statement (.copyBeatSend sp seq) := fun _ _ he _ => nomatch he
theorem RoundTrip.copyBeatCommit (acc : Nat) : RoundTrip.Statement (.copyBeatCommit acc) := fun _ _ he _ => nomatch he
theorem RoundTrip.kcopyQueueIssue (sp : Nat) : RoundTrip.Statement (.kcopyQueueIssue sp) := fun _ _ he _ => nomatch he
theorem RoundTrip.kernelCommandComplete (sp : Nat) : RoundTrip.Statement (.kernelCommandComplete sp) := fun _ _ he _ => nomatch he
theorem RoundTrip.bundleIssue (sp : Nat) : RoundTrip.Statement (.bundleIssue sp) := fun _ _ he _ => nomatch he
theorem RoundTrip.resultLanding (sp : Nat) : RoundTrip.Statement (.resultLanding sp) := fun _ _ he _ => nomatch he
theorem RoundTrip.loopBackEdge (sp : Nat) : RoundTrip.Statement (.loopBackEdge sp) := fun _ _ he _ => nomatch he
theorem RoundTrip.branchTransfer (sp : Nat) : RoundTrip.Statement (.branchTransfer sp) := fun _ _ he _ => nomatch he
theorem RoundTrip.dikeRelease (part entry : Nat) : RoundTrip.Statement (.dikeRelease part entry) := fun _ _ he _ => nomatch he
theorem RoundTrip.towerLineRelease (sp : Nat) : RoundTrip.Statement (.towerLineRelease sp) := fun _ _ he _ => nomatch he
theorem RoundTrip.arbiterDecision (sp : Nat) : RoundTrip.Statement (.arbiterDecision sp) := fun _ _ he _ => nomatch he
theorem RoundTrip.watchdogExpiry (sp : Nat) : RoundTrip.Statement (.watchdogExpiry sp) := fun _ _ he _ => nomatch he
theorem RoundTrip.aqSend (sp cluster : Nat) : RoundTrip.Statement (.aqSend sp cluster) := fun _ _ he _ => nomatch he
theorem RoundTrip.dqLand (acc : Nat) : RoundTrip.Statement (.dqLand acc) := fun _ _ he _ => nomatch he
theorem RoundTrip.callQueueStart (sp : Nat) : RoundTrip.Statement (.callQueueStart sp) := fun _ _ he _ => nomatch he
theorem RoundTrip.accUpdateLanding (sp : Nat) : RoundTrip.Statement (.accUpdateLanding sp) := fun _ _ he _ => nomatch he
theorem RoundTrip.routineRetire (sp : Nat) : RoundTrip.Statement (.routineRetire sp) := fun _ _ he _ => nomatch he
theorem RoundTrip.lockRound (sp : Nat) : RoundTrip.Statement (.lockRound sp) := fun _ _ he _ => nomatch he
theorem RoundTrip.spireRecordIntake (sp : Nat) : RoundTrip.Statement (.spireRecordIntake sp) := fun _ _ he _ => nomatch he
theorem RoundTrip.spireRunWritten (sp : Nat) : RoundTrip.Statement (.spireRunWritten sp) := fun _ _ he _ => nomatch he
theorem RoundTrip.spireMergePass (sp : Nat) : RoundTrip.Statement (.spireMergePass sp) := fun _ _ he _ => nomatch he
theorem RoundTrip.spireEmit (sp : Nat) : RoundTrip.Statement (.spireEmit sp) := fun _ _ he _ => nomatch he
theorem RoundTrip.spireComplete (sp : Nat) : RoundTrip.Statement (.spireComplete sp) := fun _ _ he _ => nomatch he
theorem RoundTrip.rangeMissServe (sp : Nat) : RoundTrip.Statement (.rangeMissServe sp) := fun _ _ he _ => nomatch he
theorem RoundTrip.walkStart (die : Nat) : RoundTrip.Statement (.walkStart die) := fun _ _ he _ => nomatch he
theorem RoundTrip.walkEnd (die walk : Nat) : RoundTrip.Statement (.walkEnd die walk) := fun _ _ he _ => nomatch he
theorem RoundTrip.faultResolve (part id : Nat) : RoundTrip.Statement (.faultResolve part id) := fun _ _ he _ => nomatch he
theorem RoundTrip.faultCancel (part id : Nat) : RoundTrip.Statement (.faultCancel part id) := fun _ _ he _ => nomatch he
theorem RoundTrip.tlbInvalidate (part base len : Nat) : RoundTrip.Statement (.tlbInvalidate part base len) := fun _ _ he _ => nomatch he
theorem RoundTrip.sliceApply (acc : Nat) : RoundTrip.Statement (.sliceApply acc) := fun _ _ he _ => nomatch he
theorem RoundTrip.packetReceive (port : Nat) (hdr data tail : List Byte) : RoundTrip.Statement (.packetReceive port hdr data tail) := fun _ _ he _ => nomatch he
theorem RoundTrip.linkReplay (port : Nat) : RoundTrip.Statement (.linkReplay port) := fun _ _ he _ => nomatch he
theorem RoundTrip.linkTraining (port delay : Nat) : RoundTrip.Statement (.linkTraining port delay) := fun _ _ he _ => nomatch he
theorem RoundTrip.portcfgWrite (port : Nat) (v : Dword) : RoundTrip.Statement (.portcfgWrite port v) := fun _ _ he _ => nomatch he
theorem RoundTrip.homeBeatApply (k : Packet) : RoundTrip.Statement (.homeBeatApply k) := fun _ _ he _ => nomatch he
theorem RoundTrip.beatAck (k : Packet) : RoundTrip.Statement (.beatAck k) := fun _ _ he _ => nomatch he
theorem RoundTrip.beatResendTimeout (engine seq : Nat) : RoundTrip.Statement (.beatResendTimeout engine seq) := fun _ _ he _ => nomatch he
theorem RoundTrip.tokenRequest (k : Packet) : RoundTrip.Statement (.tokenRequest k) := fun _ _ he _ => nomatch he
theorem RoundTrip.tokenReply (k : Packet) : RoundTrip.Statement (.tokenReply k) := fun _ _ he _ => nomatch he
theorem RoundTrip.tokenRetry (sp : Nat) : RoundTrip.Statement (.tokenRetry sp) := fun _ _ he _ => nomatch he
theorem RoundTrip.tacqTimeout (sp : Nat) : RoundTrip.Statement (.tacqTimeout sp) := fun _ _ he _ => nomatch he
theorem RoundTrip.scaleoutFrameReceive (pair : PortPair) (fcsOk : Bool) (d : Datagram) : RoundTrip.Statement (.scaleoutFrameReceive pair fcsOk d) := fun _ _ he _ => nomatch he
theorem RoundTrip.selectiveAckSend (pair : PortPair) : RoundTrip.Statement (.selectiveAckSend pair) := fun _ _ he _ => nomatch he
theorem RoundTrip.selectiveAckReceive (pair : PortPair) (seq : Nat) (bitmap : Dword) : RoundTrip.Statement (.selectiveAckReceive pair seq bitmap) := fun _ _ he _ => nomatch he
theorem RoundTrip.frameResendTimeout (pair : PortPair) (seq : Nat) : RoundTrip.Statement (.frameResendTimeout pair seq) := fun _ _ he _ => nomatch he
theorem RoundTrip.preemptRequest (sp : Nat) : RoundTrip.Statement (.preemptRequest sp) := fun _ _ he _ => nomatch he
theorem RoundTrip.kernelHalt (sp : Nat) : RoundTrip.Statement (.kernelHalt sp) := fun _ _ he _ => nomatch he
theorem RoundTrip.matrixDrainLimit (sp : Nat) : RoundTrip.Statement (.matrixDrainLimit sp) := fun _ _ he _ => nomatch he
theorem RoundTrip.spirePreemptStop (sp : Nat) : RoundTrip.Statement (.spirePreemptStop sp) := fun _ _ he _ => nomatch he
theorem RoundTrip.aqReclaim (sp : Nat) : RoundTrip.Statement (.aqReclaim sp) := fun _ _ he _ => nomatch he
theorem RoundTrip.contextSave (sp : Nat) : RoundTrip.Statement (.contextSave sp) := fun _ _ he _ => nomatch he
theorem RoundTrip.contextSaveComplete (sp : Nat) : RoundTrip.Statement (.contextSaveComplete sp) := fun _ _ he _ => nomatch he
theorem RoundTrip.shadowWriteOut (sp : Nat) : RoundTrip.Statement (.shadowWriteOut sp) := fun _ _ he _ => nomatch he
theorem RoundTrip.polderClaim (sp victim handle : Nat) : RoundTrip.Statement (.polderClaim sp victim handle) := fun _ _ he _ => nomatch he
theorem RoundTrip.controlMemoryClaim (sp : Nat) : RoundTrip.Statement (.controlMemoryClaim sp) := fun _ _ he _ => nomatch he
theorem RoundTrip.contextRestore (sp victim : Nat) : RoundTrip.Statement (.contextRestore sp victim) := fun _ _ he _ => nomatch he
theorem RoundTrip.migrationHello (k : Packet) : RoundTrip.Statement (.migrationHello k) := fun _ _ he _ => nomatch he
theorem RoundTrip.migrationFrozen (part : Nat) : RoundTrip.Statement (.migrationFrozen part) := fun _ _ he _ => nomatch he
theorem RoundTrip.stateRecord (part : Nat) : RoundTrip.Statement (.stateRecord part) := fun _ _ he _ => nomatch he
theorem RoundTrip.stateRecordTimeout (part : Nat) : RoundTrip.Statement (.stateRecordTimeout part) := fun _ _ he _ => nomatch he
theorem RoundTrip.migrationResumed (part : Nat) : RoundTrip.Statement (.migrationResumed part) := fun _ _ he _ => nomatch he
theorem RoundTrip.pagePullRequest (acc : Nat) : RoundTrip.Statement (.pagePullRequest acc) := fun _ _ he _ => nomatch he
theorem RoundTrip.pageShip (part page : Nat) : RoundTrip.Statement (.pageShip part page) := fun _ _ he _ => nomatch he
theorem RoundTrip.pagePresent (part page : Nat) : RoundTrip.Statement (.pagePresent part page) := fun _ _ he _ => nomatch he
theorem RoundTrip.holdResend (engine seq : Nat) : RoundTrip.Statement (.holdResend engine seq) := fun _ _ he _ => nomatch he
theorem RoundTrip.beatForward (k : Packet) : RoundTrip.Statement (.beatForward k) := fun _ _ he _ => nomatch he
theorem RoundTrip.movedAck (k : Packet) : RoundTrip.Statement (.movedAck k) := fun _ _ he _ => nomatch he
theorem RoundTrip.graceExpiry (part : Nat) : RoundTrip.Statement (.graceExpiry part) := fun _ _ he _ => nomatch he
theorem RoundTrip.powerOnReset : RoundTrip.Statement (.powerOnReset) := fun _ _ he _ => nomatch he
theorem RoundTrip.railDrop (rail : Nat) : RoundTrip.Statement (.railDrop rail) := fun _ _ he _ => nomatch he
theorem RoundTrip.warmReset : RoundTrip.Statement (.warmReset) := fun _ _ he _ => nomatch he
theorem RoundTrip.thermalWarn (sensor : Nat) : RoundTrip.Statement (.thermalWarn sensor) := fun _ _ he _ => nomatch he
theorem RoundTrip.thermalTrip (sensor : Nat) : RoundTrip.Statement (.thermalTrip sensor) := fun _ _ he _ => nomatch he
theorem RoundTrip.thermalRecover : RoundTrip.Statement (.thermalRecover) := fun _ _ he _ => nomatch he
theorem RoundTrip.attgo : RoundTrip.Statement (.attgo) := fun _ _ he _ => nomatch he
theorem RoundTrip.attestationDone : RoundTrip.Statement (.attestationDone) := fun _ _ he _ => nomatch he
theorem RoundTrip.snaptrig : RoundTrip.Statement (.snaptrig) := fun _ _ he _ => nomatch he
theorem RoundTrip.snapshotPacket (port : Nat) : RoundTrip.Statement (.snapshotPacket port) := fun _ _ he _ => nomatch he
theorem RoundTrip.snapshotLatch : RoundTrip.Statement (.snapshotLatch) := fun _ _ he _ => nomatch he
theorem RoundTrip.snapctlValidClear : RoundTrip.Statement (.snapctlValidClear) := fun _ _ he _ => nomatch he
theorem RoundTrip.dbgctlAttach (sp : Nat) : RoundTrip.Statement (.dbgctlAttach sp) := fun _ _ he _ => nomatch he
theorem RoundTrip.dbgctlGo (sp : Nat) : RoundTrip.Statement (.dbgctlGo sp) := fun _ _ he _ => nomatch he
theorem RoundTrip.jtagRegacc (addr : Nat) (wr : Bool) (v : Dword) : RoundTrip.Statement (.jtagRegacc addr wr v) := fun _ _ he _ => nomatch he
theorem RoundTrip.jtagIdcode : RoundTrip.Statement (.jtagIdcode) := fun _ _ he _ => nomatch he
theorem RoundTrip.jtagBypass (tdi : Bool) : RoundTrip.Statement (.jtagBypass tdi) := fun _ _ he _ => nomatch he
theorem RoundTrip.jtagSamplePreload : RoundTrip.Statement (.jtagSamplePreload) := fun _ _ he _ => nomatch he
theorem RoundTrip.jtagExtest : RoundTrip.Statement (.jtagExtest) := fun _ _ he _ => nomatch he
theorem RoundTrip.jtagTrst : RoundTrip.Statement (.jtagTrst) := fun _ _ he _ => nomatch he
theorem RoundTrip.registerWrite (addr : Nat) (v : Dword) : RoundTrip.Statement (.registerWrite addr v) := fun _ _ he _ => nomatch he
theorem RoundTrip.holeRead (addr : Nat) : RoundTrip.Statement (.holeRead addr) := fun _ _ he _ => nomatch he

end Sys2Proof.Laws
end

