-- ==== Sys2Proof/Laws/Slots.lean ====
section
/-! SUPPORT. The slot tables that the sequencer runs agree with the decoders and with `exec`. -/

namespace Sys2Proof.Machine

/-- The branch forms of the C slot. -/
theorem runC_branch (w m : Nat) :
    (match m with
      | 0 => some (execBrT (fld w 6 4) (fld w 10 3) (fld w 13 3))
      | 1 => some (execBrF (fld w 6 4) (fld w 10 3) (fld w 13 3))
      | 2 => if fld w 13 3 = 0 then some (execBr (fld w 6 4) (fld w 10 3)) else none
      | _ => if fld w 13 3 = 0 ∧ fld w 10 3 = 0 then some (execBrR (fld w 6 4)) else none)
    = Option.map exec (match m with
      | 0 => some (.brT (fld w 6 4) (fld w 10 3) (fld w 13 3))
      | 1 => some (.brF (fld w 6 4) (fld w 10 3) (fld w 13 3))
      | 2 => if fld w 13 3 = 0 then some (.br (fld w 6 4) (fld w 10 3)) else none
      | _ => if fld w 13 3 = 0 ∧ fld w 10 3 = 0 then some (.brR (fld w 6 4)) else none) := by
  rcases m with _ | _ | _ | m
  · rfl
  · rfl
  all_goals (show (if _ then _ else _) = Option.map _ (if _ then _ else _); split <;> rfl)

/-- The meaning of a word of the C slot is that of the instruction it decodes to. -/
theorem runC_eq (w : Nat) (x : Option Nat) : runC w x = (decodeC w x).map exec := by
  have hb : fld w 0 6 < 64 := Nat.mod_lt _ (by decide)
  unfold runC decodeC
  generalize hn : fld w 0 6 = n at hb ⊢
  by_cases h4 : n = 4
  · subst h4
    show (if _ then _ else _) = Option.map _ (if _ then _ else _)
    split
    · exact runC_branch w _
    · rfl
  interval_cases n
  all_goals first | exact absurd rfl h4 | rfl | (show (if _ then _ else _) = Option.map _ (if _ then _ else _); split <;> first | rfl | (split <;> first | rfl | (split <;> rfl)))

/-- The meaning of a word of the S slot is that of the instruction it decodes to. -/
theorem runS_eq (w : Nat) (x : Option Nat) : runS w x = (decodeS w x).map exec := by
  have hb : fld w 0 6 < 64 := Nat.mod_lt _ (by decide)
  unfold runS decodeS
  generalize hn : fld w 0 6 = n at hb ⊢
  interval_cases n
  all_goals first | rfl | (show (if _ then _ else _) = Option.map _ (if _ then _ else _); split <;> first | rfl | (split <;> first | rfl | (split <;> rfl)))

/-- The meaning of a word of the X slot is that of the instruction it decodes to. -/
theorem runX_eq (w : Nat) (x : Option Nat) : runX w x = (decodeX w x).map exec := by
  have hb : fld w 0 6 < 64 := Nat.mod_lt _ (by decide)
  unfold runX decodeX
  generalize hn : fld w 0 6 = n at hb ⊢
  interval_cases n
  all_goals first | rfl | (show (if _ then _ else _) = Option.map _ (if _ then _ else _); split <;> first | rfl | (split <;> first | rfl | (split <;> rfl)))

/-- The meaning of a word of the M slot is that of the instruction it decodes to. -/
theorem runM_eq (w : Nat) (x : Option Nat) : runM w x = (decodeM w x).map exec := by
  have hb : fld w 0 6 < 64 := Nat.mod_lt _ (by decide)
  unfold runM decodeM
  generalize hn : fld w 0 6 = n at hb ⊢
  interval_cases n
  all_goals first | rfl | (show (if _ then _ else _) = Option.map _ (if _ then _ else _); split <;> first | rfl | (split <;> first | rfl | (split <;> rfl)))

/-- The meaning of a word of the W slot is that of the instruction it decodes to. -/
theorem runW_eq (w : Nat) (x : Option Nat) : runW w x = (decodeW w x).map exec := by
  have hb : fld w 0 6 < 64 := Nat.mod_lt _ (by decide)
  unfold runW decodeW
  generalize hn : fld w 0 6 = n at hb ⊢
  interval_cases n
  all_goals first | rfl | (show (if _ then _ else _) = Option.map _ (if _ then _ else _); split <;> first | rfl | (split <;> first | rfl | (split <;> rfl)))

/-- The meaning of a word of the P slot is that of the instruction it decodes to. -/
theorem runP_eq (w : Nat) (x : Option Nat) : runP w x = (decodeP w x).map exec := by
  have hb : fld w 0 6 < 64 := Nat.mod_lt _ (by decide)
  unfold runP decodeP
  generalize hn : fld w 0 6 = n at hb ⊢
  interval_cases n
  all_goals first | rfl | (show (if _ then _ else _) = Option.map _ (if _ then _ else _); split <;> first | rfl | (split <;> first | rfl | (split <;> rfl)))

/-- The meaning of a V slot is that of the instruction it decodes to. -/
theorem runV_eq (o : VSlot) (op : Nat) (h : op < 128) : runV o op = (vOp o op).map exec := by
  interval_cases op <;> rfl

/-- The sequencer runs in a slot the meaning that `exec` gives the decoded instruction. -/
theorem slotMeaning_eq (k w : Nat) (x : Option Nat) (hk : k < 8) : slotMeaning k w x = (decodeIn (slotSpace k) w x).map exec := by
  have hv (w : Nat) : (if vLegal (fld w 0 7) (vslotOf w) then runV (vslotOf w) (fld w 0 7) else none)
      = Option.map exec (if vLegal (fld w 0 7) (vslotOf w) then vOp (vslotOf w) (fld w 0 7) else none) := by
    split
    · exact runV_eq _ _ (Nat.mod_lt _ (by decide))
    · rfl
  rcases k with _ | _ | _ | _ | _ | _ | _ | _ | k
  · exact runC_eq w x
  · exact runS_eq w x
  · exact hv w
  · exact hv w
  · exact runX_eq w x
  · exact runM_eq w x
  · exact runW_eq w x
  · exact runP_eq w x
  · omega

end Sys2Proof.Machine
end

