-- ==== Sys2Proof/Tests/Slice0.lean ====
section
/-! SUPPORT. Tests of the model: the checks of `Instr.wf` refuse an ill-formed term each, words written out by hand from the encodings of the spec decode
to the instructions they stand for, and a witness for every obligation that has hypotheses. -/

namespace Sys2Proof

open Machine

/-! ## Well-formedness

For each instruction, a term with every field at 0, or at the value the check needs, is well-formed, and one with a field out of its range is refused. -/

theorem test_wf_refuses_palloc : ([Instr.palloc, .krun, .kstage, .kpipe, .svadd, .svmul, .svfma, .svcvt, .svscale, .svmax, .svmin, .svcopy, .svfill,
    .mload, .spmerge, .awinit, .await, .acq, .tacq, .spawn] : List (Nat → Nat → Nat → Instr)).all (fun i =>
    (i 0 0 0).wf && !([i 32 0 0, i 0 32 0, i 0 0 32].any Instr.wf)) = true := by decide

theorem test_wf_refuses_pfree : ([Instr.pfree, .pinfo, .spref, .spdrain, .rel, .trel, .fencex, .swait, .sbar, .tsplit, .gsync, .sstat] : List (Nat →
    Nat → Instr)).all (fun i =>
    (i 0 0).wf && !([i 32 0, i 0 32].any Instr.wf)) = true := by decide

theorem test_wf_refuses_sdset : ([Instr.sdset] : List (Nat → Nat → Nat → Instr)).all (fun i =>
    (i 0 0 0).wf && !([i 16 0 0, i 0 32 0, i 0 0 128].any Instr.wf)) = true := by decide

theorem test_wf_refuses_sdget : ([Instr.sdget] : List (Nat → Nat → Nat → Instr)).all (fun i =>
    (i 0 0 0).wf && !([i 32 0 0, i 0 16 0, i 0 0 128].any Instr.wf)) = true := by decide

theorem test_wf_refuses_sdcopy : ([Instr.sdcopy, .ksc, .sflush, .seos] : List (Nat → Nat → Instr)).all (fun i =>
    (i 0 0).wf && !([i 16 0, i 0 16].any Instr.wf)) = true := by decide

theorem test_wf_refuses_sload : ([Instr.sload, .sstore, .sgather, .sscatter, .sscadd, .scopy, .satomAdd, .satomSwap, .satomCas, .satomMin, .satomMax,
    .satomAnd, .satomOr] : List (Nat → Nat → Nat → Nat → Instr)).all (fun i =>
    (i 0 0 0 0).wf && !([i 32 0 0 0, i 0 16 0 0, i 0 0 32 0, i 0 0 0 32].any Instr.wf)) = true := by decide

theorem test_wf_refuses_khalt : ([Instr.khalt, .treseed, .syield] : List (Nat → Instr)).all (fun i =>
    (i 0).wf && !([i 32].any Instr.wf)) = true := by decide

theorem test_wf_refuses_pbt : ([Instr.pbt] : List (Nat → Nat → Nat → Instr)).all (fun i =>
    (i 0 0 0).wf && !([i 16 0 0, i 0 8 0, i 0 0 524288].any Instr.wf)) = true := by decide

theorem test_wf_refuses_cmp : ([Instr.cmp] : List (Nat → Nat → Nat → Nat → Nat → Instr)).all (fun i =>
    (i 0 0 0 0 0).wf && !([i 16 0 0 0 0, i 0 8 0 0 0, i 0 0 8 0 0, i 0 0 0 16 0, i 0 0 0 0 16, i 0 0 6 0 0].any Instr.wf)) = true := by decide

theorem test_wf_refuses_cmpi : ([Instr.cmpi] : List (Nat → Nat → Nat → Nat → Nat → Instr)).all (fun i =>
    (i 0 0 0 0 0).wf && !([i 16 0 0 0 0, i 0 8 0 0 0, i 0 0 8 0 0, i 0 0 0 16 0, i 0 0 0 0 4096, i 0 0 6 0 0].any Instr.wf)) = true := by decide

theorem test_wf_refuses_brl : ([Instr.brl, .br] : List (Nat → Nat → Instr)).all (fun i =>
    (i 0 0).wf && !([i 16 0, i 0 8].any Instr.wf)) = true := by decide

theorem test_wf_refuses_loop : ([Instr.loop, .loopi] : List (Nat → Nat → Nat → Nat → Instr)).all (fun i =>
    (i 0 0 0 0).wf && !([i 16 0 0 0, i 0 4 0 0, i 0 0 2 0, i 0 0 0 65536, i 0 0 1 16].any Instr.wf)) = true := by decide

theorem test_wf_refuses_loopm : ([Instr.loopm] : List (Nat → Nat → Nat → Nat → Nat → Instr)).all (fun i =>
    (i 0 0 0 0 0).wf && !([i 16 0 0 0 0, i 0 4 0 0 0, i 0 0 2 0 0, i 0 0 0 65536 0, i 0 0 0 0 8, i 0 0 1 16 0].any Instr.wf)) = true := by decide

theorem test_wf_refuses_vany : ([Instr.vany, .vall] : List (Nat → Nat → Nat → Nat → Nat → Instr)).all (fun i =>
    (i 0 0 0 0 0).wf && !([i 16 0 0 0 0, i 0 8 0 0 0, i 0 0 128 0 0, i 0 0 0 4 0, i 0 0 0 0 8].any Instr.wf)) = true := by decide

theorem test_wf_refuses_clog : ([Instr.clog] : List (Nat → Nat → Nat → Nat → Nat → Instr)).all (fun i =>
    (i 0 0 0 0 0).wf && !([i 16 0 0 0 0, i 0 8 0 0 0, i 0 0 8 0 0, i 0 0 0 8 0, i 0 0 0 0 16].any Instr.wf)) = true := by decide

theorem test_wf_refuses_yieldK : ([Instr.yieldK, .decouple, .rejoin, .endK, .mfence, .brR] : List (Nat → Instr)).all (fun i =>
    (i 0).wf && !([i 16].any Instr.wf)) = true := by decide

theorem test_wf_refuses_sync : ([Instr.sync, .mzero] : List (Nat → Nat → Instr)).all (fun i =>
    (i 0 0).wf && !([i 16 0, i 0 4].any Instr.wf)) = true := by decide

theorem test_wf_refuses_ktrap : ([Instr.ktrap] : List (Nat → Nat → Instr)).all (fun i =>
    (i 0 0).wf && !([i 16 0, i 0 256].any Instr.wf)) = true := by decide

theorem test_wf_refuses_qadd : ([Instr.qadd, .qsub, .qmul, .qand, .qor, .qxor, .qshl, .qshr, .qsra, .qmin, .qmax, .xadd, .xsub, .xshl, .xand, .xpopb,
    .xcadv, .xmin, .xsel, .xrank, .xmax, .xdiagStep] : List (Nat → Nat → Nat → Nat → Instr)).all (fun i =>
    (i 0 0 0 0).wf && !([i 16 0 0 0, i 0 16 0 0, i 0 0 16 0, i 0 0 0 16].any Instr.wf)) = true := by decide

theorem test_wf_refuses_qaddi : ([Instr.qaddi] : List (Nat → Nat → Nat → Nat → Option Nat → Instr)).all (fun i =>
    (i 0 0 0 0 (some 0)).wf && !([i 16 0 0 0 (some 0), i 0 16 0 0 (some 0), i 0 0 16 0 (some 0), i 0 0 0 16384 (some 0), i 0 0 0 0 (some
    16777216)].any Instr.wf)) = true := by decide

theorem test_wf_refuses_qli : ([Instr.qli] : List (Nat → Nat → Nat → Option Nat → Instr)).all (fun i =>
    (i 0 0 0 (some 0)).wf && !([i 16 0 0 (some 0), i 0 16 0 (some 0), i 0 0 262144 (some 0), i 0 0 0 (some 16777216)].any Instr.wf)) = true := by
    decide

theorem test_wf_refuses_qget : ([Instr.qget] : List (Nat → Nat → Nat → Instr)).all (fun i =>
    (i 0 0 0).wf && !([i 16 0 0, i 0 16 0, i 0 0 16, i 0 0 9].any Instr.wf)) = true := by decide

theorem test_wf_refuses_mset : ([Instr.mset] : List (Nat → Nat → Nat → Instr)).all (fun i =>
    (i 0 0 0).wf && !([i 16 0 0, i 0 8 0, i 0 0 16].any Instr.wf)) = true := by decide

theorem test_wf_refuses_mwait : ([Instr.mwait] : List (Nat → Nat → Nat → Instr)).all (fun i =>
    (i 0 0 0).wf && !([i 16 0 0, i 0 4 0, i 0 0 64, i 0 0 33].any Instr.wf)) = true := by decide

theorem test_wf_refuses_pset : ([Instr.pset] : List (Nat → Nat → Nat → Nat → Nat → Instr)).all (fun i =>
    (i 0 1 0 0 0).wf && !([i 16 1 0 0 0, i 0 8 0 0 0, i 0 1 4 0 0, i 0 1 0 2 0, i 0 1 0 0 1024, i 0 0 0 0 0, i 0 1 0 1 16].any Instr.wf)) = true := by
    decide

theorem test_wf_refuses_ptail : ([Instr.ptail] : List (Nat → Nat → Nat → Nat → Nat → Instr)).all (fun i =>
    (i 0 1 0 0 0).wf && !([i 16 1 0 0 0, i 0 8 0 0 0, i 0 1 4 0 0, i 0 1 0 16 0, i 0 1 0 0 8, i 0 0 0 0 0, i 0 1 0 0 6].any Instr.wf)) = true := by
    decide

theorem test_wf_refuses_ksr : ([Instr.ksr] : List (Nat → Nat → Nat → Instr)).all (fun i =>
    (i 0 0 0).wf && !([i 16 0 0, i 0 16 0, i 0 0 8192].any Instr.wf)) = true := by decide

theorem test_wf_refuses_pref : ([Instr.pref, .xpopc, .xdiagMid] : List (Nat → Nat → Nat → Instr)).all (fun i =>
    (i 0 0 0).wf && !([i 16 0 0, i 0 16 0, i 0 0 16].any Instr.wf)) = true := by decide

theorem test_wf_refuses_qsd : ([Instr.qsd] : List (Nat → Nat → Nat → Nat → Instr)).all (fun i =>
    (i 0 0 0 0).wf && !([i 16 0 0 0, i 0 16 0 0, i 0 0 16 0, i 0 0 0 8, i 0 0 0 5].any Instr.wf)) = true := by decide

theorem test_wf_refuses_gadd : ([Instr.gadd, .gsub, .gmul, .gand, .gor, .gxor, .gshl, .gshr, .gsra, .gmin, .gmax, .gslt, .gsltn, .gsel] : List (Nat →
    Nat → Nat → Nat → Instr)).all (fun i =>
    (i 0 0 0 0).wf && !([i 16 0 0 0, i 0 32 0 0, i 0 0 32 0, i 0 0 0 32].any Instr.wf)) = true := by decide

theorem test_wf_refuses_gaddi : ([Instr.gaddi] : List (Nat → Nat → Nat → Nat → Option Nat → Instr)).all (fun i =>
    (i 0 0 0 0 (some 0)).wf && !([i 16 0 0 0 (some 0), i 0 32 0 0 (some 0), i 0 0 32 0 (some 0), i 0 0 0 4096 (some 0), i 0 0 0 0 (some 16777216)].any
    Instr.wf)) = true := by decide

theorem test_wf_refuses_gmulh : ([Instr.gmulh] : List (Nat → Nat → Nat → Nat → Nat → Instr)).all (fun i =>
    (i 0 0 0 0 0).wf && !([i 16 0 0 0 0, i 0 32 0 0 0, i 0 0 32 0 0, i 0 0 0 32 0, i 0 0 0 0 128, i 0 0 0 0 2].any Instr.wf)) = true := by decide

theorem test_wf_refuses_gshi : ([Instr.gshi] : List (Nat → Nat → Nat → Nat → Nat → Instr)).all (fun i =>
    (i 0 0 0 0 0).wf && !([i 16 0 0 0 0, i 0 32 0 0 0, i 0 0 32 0 0, i 0 0 0 32 0, i 0 0 0 0 128, i 0 0 0 4 0, i 0 0 0 0 64].any Instr.wf)) = true :=
    by decide

theorem test_wf_refuses_gli : ([Instr.gli] : List (Nat → Nat → Nat → Option Nat → Instr)).all (fun i =>
    (i 0 0 0 (some 0)).wf && !([i 16 0 0 (some 0), i 0 32 0 (some 0), i 0 0 4096 (some 0), i 0 0 0 (some 16777216)].any Instr.wf)) = true := by decide

theorem test_wf_refuses_gfrq : ([Instr.gfrq, .xtog] : List (Nat → Nat → Nat → Instr)).all (fun i =>
    (i 0 0 0).wf && !([i 16 0 0, i 0 32 0, i 0 0 16].any Instr.wf)) = true := by decide

theorem test_wf_refuses_gext : ([Instr.gext] : List (Nat → Nat → Nat → Nat → Nat → Instr)).all (fun i =>
    (i 0 0 0 0 0).wf && !([i 16 0 0 0 0, i 0 32 0 0 0, i 0 0 32 0 0, i 0 0 0 32 0, i 0 0 0 0 128].any Instr.wf)) = true := by decide

theorem test_wf_refuses_gins : ([Instr.gins] : List (Nat → Nat → Nat → Nat → Nat → Instr)).all (fun i =>
    (i 0 0 0 0 0).wf && !([i 16 0 0 0 0, i 0 32 0 0 0, i 0 0 32 0 0, i 0 0 0 32 0, i 0 0 0 0 128, i 0 0 0 0 64].any Instr.wf)) = true := by decide

theorem test_wf_refuses_gcid : ([Instr.gcid] : List (Nat → Nat → Instr)).all (fun i =>
    (i 0 0).wf && !([i 16 0, i 0 32].any Instr.wf)) = true := by decide

theorem test_wf_refuses_gclz : ([Instr.gclz] : List (Nat → Nat → Nat → Instr)).all (fun i =>
    (i 0 0 0).wf && !([i 16 0 0, i 0 32 0, i 0 0 32].any Instr.wf)) = true := by decide

theorem test_wf_refuses_xaddi : ([Instr.xaddi] : List (Nat → Nat → Nat → Nat → Option Nat → Instr)).all (fun i =>
    (i 0 0 0 0 (some 0)).wf && !([i 16 0 0 0 (some 0), i 0 16 0 0 (some 0), i 0 0 16 0 (some 0), i 0 0 0 1024 (some 0), i 0 0 0 0 (some 16777216)].any
    Instr.wf)) = true := by decide

theorem test_wf_refuses_xaq : ([Instr.xaq, .xaqs] : List (Nat → Nat → Nat → Nat → Instr)).all (fun i =>
    (i 0 0 0 0).wf && !([i 16 0 0 0, i 0 16 0 0, i 0 0 16 0, i 0 0 0 1024].any Instr.wf)) = true := by decide

theorem test_wf_refuses_xli : ([Instr.xli] : List (Nat → Nat → Nat → Option Nat → Instr)).all (fun i =>
    (i 0 0 0 (some 0)).wf && !([i 16 0 0 (some 0), i 0 16 0 (some 0), i 0 0 1024 (some 0), i 0 0 0 (some 16777216)].any Instr.wf)) = true := by decide

theorem test_wf_refuses_xfrg : ([Instr.xfrg] : List (Nat → Nat → Nat → Instr)).all (fun i =>
    (i 0 0 0).wf && !([i 16 0 0, i 0 16 0, i 0 0 32].any Instr.wf)) = true := by decide

theorem test_wf_refuses_mcall : ([Instr.mcall] : List (Nat → Nat → Nat → Nat → Nat → Nat → Instr)).all (fun i =>
    (i 0 0 0 0 0 0).wf && !([i 16 0 0 0 0 0, i 0 256 0 0 0 0, i 0 0 4 0 0 0, i 0 0 0 16 0 0, i 0 0 0 0 16 0, i 0 0 0 0 0 16].any Instr.wf)) = true :=
    by decide

theorem test_wf_refuses_mmode : ([Instr.mmode, .mwm] : List (Nat → Nat → Nat → Instr)).all (fun i =>
    (i 0 0 0).wf && !([i 16 0 0, i 0 4 0, i 0 0 2].any Instr.wf)) = true := by decide

theorem test_wf_refuses_wperm : ([Instr.wperm] : List (Nat → Nat → Nat → Nat → Instr)).all (fun i =>
    (i 0 0 0 0).wf && !([i 16 0 0 0, i 0 128 0 0, i 0 0 128 0, i 0 0 0 16].any Instr.wf)) = true := by decide

theorem test_wf_refuses_wbcast : ([Instr.wbcast, .wrot, .wbfly] : List (Nat → Nat → Nat → Nat → Instr)).all (fun i =>
    (i 0 0 0 0).wf && !([i 16 0 0 0, i 0 128 0 0, i 0 0 128 0, i 0 0 0 256].any Instr.wf)) = true := by decide

theorem test_wf_refuses_wrsum : ([Instr.wrsum, .wrmax, .wscan] : List (Nat → Nat → Nat → Nat → Instr)).all (fun i =>
    (i 0 0 0 0).wf && !([i 16 0 0 0, i 0 128 0 0, i 0 0 128 0, i 0 0 0 8, i 0 0 0 7].any Instr.wf)) = true := by decide

theorem test_wf_refuses_wsegsum : ([Instr.wsegsum] : List (Nat → Nat → Nat → Nat → Nat → Instr)).all (fun i =>
    (i 0 0 0 0 0).wf && !([i 16 0 0 0 0, i 0 128 0 0 0, i 0 0 128 0 0, i 0 0 0 8 0, i 0 0 0 0 16, i 0 0 0 7 0].any Instr.wf)) = true := by decide

theorem test_wf_refuses_spop : ([Instr.spop, .spush, .speek] : List (Nat → Nat → Nat → Nat → Instr)).all (fun i =>
    (i 0 0 0 0).wf && !([i 16 0 0 0, i 0 16 0 0, i 0 0 128 0, i 0 0 0 8, i 0 0 0 6, i 0 0 127 1].any Instr.wf)) = true := by decide

theorem test_wf_refuses_sadv : ([Instr.sadv] : List (Nat → Nat → Nat → Option Nat → Instr)).all (fun i =>
    (i 0 0 0 (some 0)).wf && !([i 16 0 0 (some 0), i 0 16 0 (some 0), i 0 0 2048 (some 0), i 0 0 0 (some 16777216)].any Instr.wf)) = true := by decide

theorem test_wf_refuses_sldl : ([Instr.sldl, .sstu] : List (Nat → Nat → Nat → Nat → Nat → Instr)).all (fun i =>
    (i 0 0 0 0 0).wf && !([i 16 0 0 0 0, i 0 16 0 0 0, i 0 0 128 0 0, i 0 0 0 16 0, i 0 0 0 0 4].any Instr.wf)) = true := by decide

theorem test_wf_refuses_sld : ([Instr.sld, .sst] : List (Nat → Nat → Nat → Nat → Option Nat → Instr)).all (fun i =>
    (i 0 0 0 0 (some 0)).wf && !([i 16 0 0 0 (some 0), i 0 16 0 0 (some 0), i 0 0 128 0 (some 0), i 0 0 0 2048 (some 0), i 0 0 0 64 (some 0), i 0 0 0
    0 (some 16777216)].any Instr.wf)) = true := by decide

theorem test_wf_refuses_dqpop : ([Instr.dqpop] : List (Nat → Nat → Nat → Nat → Instr)).all (fun i =>
    (i 0 0 0 0).wf && !([i 16 0 0 0, i 0 128 0 0, i 0 0 32 0, i 0 0 0 4, i 0 0 16 3].any Instr.wf)) = true := by decide

theorem test_wf_refuses_dqn : ([Instr.dqn] : List (Nat → Nat → Instr)).all (fun i =>
    (i 0 0).wf && !([i 16 0, i 0 128].any Instr.wf)) = true := by decide

theorem test_wf_refuses_kcopy : ([Instr.kcopy] : List (Nat → Nat → Nat → Nat → Instr)).all (fun i =>
    (i 0 0 0 0).wf && !([i 16 0 0 0, i 0 16 0 0, i 0 0 2 0, i 0 0 0 1024].any Instr.wf)) = true := by decide

theorem test_wf_refuses_spos : ([Instr.spos] : List (Nat → Nat → Nat → Instr)).all (fun i =>
    (i 0 0 0).wf && !([i 16 0 0, i 0 16 0, i 0 0 128].any Instr.wf)) = true := by decide

theorem test_wf_refuses_kstep : ([Instr.kstep, .ksteps] : List (Nat → Nat → Nat → Nat → Instr)).all (fun i =>
    (i 0 0 0 0).wf && !([i 4 0 0 0, i 0 2 0 0, i 0 0 2 0, i 0 0 0 2].any Instr.wf)) = true := by decide

theorem test_wf_refuses_rpop : ([Instr.rpop, .rpeek] : List (Nat → Nat → Nat → Instr)).all (fun i =>
    (i 0 0 0).wf && !([i 2 0 0, i 0 2 0, i 0 0 4096, i 0 1 8].any Instr.wf)) = true := by decide

theorem test_wf_refuses_rowg : ([Instr.rowg] : List (Nat → Nat → Instr)).all (fun i =>
    (i 0 0).wf && !([i 2 0, i 0 4, i 1 1].any Instr.wf)) = true := by decide

theorem test_wf_refuses_accsel : ([Instr.accsel, .accz] : List (Nat → Instr)).all (fun i =>
    (i 0).wf && !([i 4].any Instr.wf)) = true := by decide

theorem test_wf_refuses_loopk : ([Instr.loopk] : List (Nat → Nat → Nat → Nat → Instr)).all (fun i =>
    (i 0 0 0 0).wf && !([i 4096 0 0 0, i 0 2 0 0, i 0 0 8 0, i 0 0 0 4096].any Instr.wf)) = true := by decide

theorem test_wf_refuses_wmset : ([Instr.wmset] : List (Nat → Nat → Instr)).all (fun i =>
    (i 0 0).wf && !([i 64 0, i 0 2].any Instr.wf)) = true := by decide

theorem test_wf_refuses_epi : ([Instr.epi] : List (Nat → Nat → Nat → Instr)).all (fun i =>
    (i 0 0 0).wf && !([i 4 0 0, i 0 4 0, i 0 0 8].any Instr.wf)) = true := by decide

theorem test_wf_refuses_parm : ([Instr.parm] : List (Nat → Nat → Nat → Instr)).all (fun i =>
    (i 0 0 0).wf && !([i 8 0 0, i 0 8 0, i 0 0 2].any Instr.wf)) = true := by decide

theorem test_wf_refuses_jmp : ([Instr.jmp] : List (Nat → Instr)).all (fun i =>
    (i 1).wf && !([i 4096, i 0].any Instr.wf)) = true := by decide

theorem test_wf_refuses_brT : ([Instr.brT, .brF] : List (Nat → Nat → Nat → Instr)).all (fun i =>
    (i 0 0 0).wf && !([i 16 0 0, i 0 8 0, i 0 0 8].any Instr.wf)) = true := by decide

/-- A V slot with every field 0. -/
def slot0 : VSlot := ⟨0, 0, 0, 0, 0, 0, 0, 0, 0, 0⟩

theorem test_wf_refuses_vslot_fields : (Instr.vadd slot0).wf && !([{ slot0 with pred := 16 }, { slot0 with len := 8 }, { slot0 with vd := 256 },
    { slot0 with a := 256 }, { slot0 with b := 256 }, { slot0 with c := 256 }, { slot0 with md := 4096 }, { slot0 with ms := 2 }, { slot0 with ty := 8 },
    { slot0 with rnd := 4 }].any fun o => (Instr.vadd o).wf) = true := by decide

theorem test_wf_refuses_vslot_rules : !([Instr.vadd { slot0 with ty := 4 }, .fadd { slot0 with ty := 3 }, .vadd { slot0 with len := 6 }, .vadd { slot0 with c := 1 },
    .vadd { slot0 with rnd := 1 }, .vadd { slot0 with md := 1 }, .vadd { slot0 with ms := 1 }, .vabs { slot0 with b := 1 }, .vzero { slot0 with a := 1 },
    .vadd { slot0 with vd := 144 }, .vadd { slot0 with vd := 127, len := 1 }, .vadd { slot0 with a := 127, len := 1 }, .vadd { slot0 with b := 127, len := 1 },
    .vmac { slot0 with vd := 128, ty := 2 }, .vtopk { slot0 with b := 143 }, .vqnt { slot0 with ty := 6, b := 128 }, .vdq { slot0 with ty := 6, a := 128 },
    .vqnt { slot0 with ty := 6, b := 0 }].any Instr.wf) = true := by decide

theorem test_wf_refuses_every_vslot : ([Instr.vadd, .vsub, .vadds, .vaddn, .vsubs, .vsubn, .vmul, .vmulh, .vmulhn, .vmac, .vmacw, .vmin, .vmax, .vminn,
    .vmaxn, .vabs, .vneg, .vand, .vor, .vxor, .vandn, .vshl, .vshr, .vsra, .vsrar, .vnarrow, .vwiden, .vcmpeq, .vcmplt, .vcmpltn, .vcmple, .vsel, .vclz,
    .vpopc, .fadd, .fsub, .fmul, .fma, .fms, .fnma, .fmin, .fmax, .fabs, .fneg, .fcmpeq, .fcmplt, .fcmple, .fcmpun, .fclass, .fscale, .vcvt, .vqnt, .vdq,
    .frcp, .frsq, .fexp2, .flog2, .fsin, .fcos, .ftanh, .vrsum, .vrmax, .vrmin, .vamax, .vtopk, .vscan, .vcompress, .vexpand, .vidx, .vmov, .vzero] :
    List (VSlot → Instr)).all (fun i => !([{ slot0 with pred := 16 }, { slot0 with len := 6 }, { slot0 with ty := 7 }].any fun o => (i o).wf)) = true := by decide

theorem test_wf_refuses_rv_integer : !([Instr.rvIntegerAlu true .add false 0 0 (.reg 0), .rvIntegerAlu false .add false 32 0 (.reg 0),
    .rvIntegerAlu false .add false 0 32 (.reg 0), .rvIntegerAlu false .add false 0 0 (.reg 32), .rvIntegerAlu false .xor true 0 0 (.reg 0),
    .rvIntegerAlu false .add false 0 0 (.imm 2048), .rvIntegerAlu false .xor true 0 0 (.imm 0), .rvIntegerAlu false .sub false 0 0 (.imm 0),
    .rvIntegerAlu false .sll false 0 0 (.imm 64), .rvIntegerAlu false .srl true 0 0 (.imm 32), .rvIntegerAlu false .sra false 0 0 (.imm 64),
    .rvIntegerAlu false .lui false 0 0 (.reg 0), .rvIntegerAlu false .lui false 0 0 (.imm 1), .rvIntegerAlu false .lui true 0 0 (.imm 0),
    .rvIntegerAlu false .auipc false 0 1 (.imm 0), .rvIntegerAlu false .auipc false 0 0 (.reg 0), .rvIntegerAlu false .auipc false 0 0 (.imm 1),
    .rvMultiply .mul 32 0 0, .rvMultiply .mul 0 32 0, .rvMultiply .mul 0 0 32, .rvDivide .div false 32 0 0, .rvDivide .div false 0 32 0,
    .rvDivide .div false 0 0 32].any Instr.wf) = true := by decide

theorem test_wf_refuses_rv_memory : !([Instr.rvLoad true .ld 0 0 0, .rvLoad false .ld 32 0 0, .rvLoad false .ld 0 32 0, .rvLoad false .ld 0 0 2048,
    .rvStore true .sd 0 0 0, .rvStore false .sd 32 0 0, .rvStore false .sd 0 32 0, .rvStore false .sd 0 0 2048, .lr true 4 0 0, .lr true 0 32 0,
    .lr true 0 0 32, .sc true 4 0 0 0, .sc true 0 32 0 0, .sc true 0 0 32 0, .sc true 0 0 0 32, .rvAmo .add true 4 0 0 0, .rvAmo .add true 0 32 0 0,
    .rvAmo .add true 0 0 32 0, .rvAmo .add true 0 0 0 32].any Instr.wf) = true := by decide

theorem test_wf_refuses_rv_control : !([Instr.rvBranch true .beq 0 0 0, .rvBranch false .beq 32 0 0, .rvBranch false .beq 0 32 0, .rvBranch false .beq 0 0 4096,
    .rvBranch false .beq 0 0 1, .jal true 0 0, .jal false 32 0, .jal false 0 1, .jal false 0 0x100000, .jalr true 0 0 0, .jalr false 32 0 0, .jalr false 0 32 0,
    .jalr false 0 0 2048, .fence false 4096, .rvCsrAccess .rw false 4096 0 0, .rvCsrAccess .rw false 0 32 0, .rvCsrAccess .rw false 0 0 32,
    .ebreak true].any Instr.wf) = true := by decide

theorem test_wf_refuses_rv_float : !([Instr.rvFdivFsqrt false true 32 0 0 0, .rvFdivFsqrt false true 0 32 0 0, .rvFdivFsqrt false true 0 0 32 0,
    .rvFdivFsqrt false true 0 0 0 5, .rvFdivFsqrt true true 0 0 1 0, .rvFloatOp .add true 32 0 0 0 0, .rvFloatOp .add true 0 32 0 0 0,
    .rvFloatOp .add true 0 0 32 0 0, .rvFloatOp .madd true 0 0 0 32 0, .rvFloatOp .add true 0 0 0 0 6, .rvFloatOp .add true 0 0 0 1 0,
    .rvFloatOp .sgnj true 0 0 0 0 1, .rvFloatOp .cvtWF true 0 0 1 0 0].any Instr.wf) = true := by decide

theorem test_wf_refuses_kmode : (Instr.kmode 0 0 3).wf && (Instr.kmode 0 1 15).wf && !([Instr.kmode 16 0 0, .kmode 0 0 4, .kmode 0 1 16, .kmode 0 2 0].any Instr.wf)
    = true := by decide

/-! Words written out by hand from the encodings of 04 R99 to R112, 07 R155, 08 R198, 11 R298 and the RISC-V standard. -/

theorem test_decode_palloc : decodeCtl 0x0031008B = some (.palloc 1 2 3) := by decide
theorem test_decode_scopy : decodeCtl 0x00A2D1AB = some (.scopy 3 0 5 10) := by decide
theorem test_decode_texit : decodeCtl 0x0200607B = some .texit := by decide
theorem test_decode_addi : decodeCtl 0xFFF10093 = some (.rvIntegerAlu false .add false 1 2 (.imm (BitVec.ofInt 64 (-1)))) := by decide
theorem test_decode_ld : decodeCtl 0x00833283 = some (.rvLoad false .ld 5 6 8) := by decide
theorem test_decode_divu : decodeCtl 0x02C5D533 = some (.rvDivide .divu false 10 11 12) := by decide
theorem test_decode_ebreak : decodeCtl 0x00100073 = some (.ebreak false) ∧ decodeCtl 0x9002 = some (.ebreak true) := by decide
theorem test_decode_pbt : decodeC 0xFFFFF401 none = some (.pbt 0 5 0x7FFFF) := by decide
theorem test_decode_gadd : decodeS 0x00520C81 none = some (.gadd 2 3 4 5) := by decide
theorem test_decode_xadd : decodeX 0x0010C841 none = some (.xadd 1 2 3 4) := by decide
theorem test_decode_mfence : decodeM 0x000000C4 none = some (.mfence 3) := by decide
theorem test_decode_wrot : decodeW 0x070C1403 none = some (.wrot 0 5 6 7) := by decide
theorem test_decode_sadv : decodeP 0x00400403 none = some (.sadv 0 1 2 none) := by decide
theorem test_decode_vadd : decodeIn .v 0x1000000302C28001 none = some (.vadd ⟨0, 0, 10, 11, 12, 0, 0, 0, 2, 0⟩) := by decide
theorem test_decode_kstep : decodeMicro 0x0400000000000005 = some (.kstep 1 1 0 0) := by decide
/-- An all-zero word and an opcode that the table leaves free are refused in every space. -/
theorem test_decode_refuses : decodeCtl 0 = none ∧ decodeC 0x3F none = none ∧ decodeS 0x7F none = none ∧ decodeX 0x3F none = none ∧
    decodeM 0x3F none = none ∧ decodeW 0x3F none = none ∧ decodeP 0x3F none = none ∧ decodeIn .v 0x7F none = none ∧ decodeMicro 0xFF00000000000000 = none := by decide

/-! Each constructor with a word of its own: the word from the opcode and the field places of the rules named, every field with a value of its own. -/

/-- The C slot: opcodes of 04 R106, layouts of 08 R198. -/
theorem test_decode_c_slot_a : ([(0x80007481, .pbt 2 5 0x40003),
    (0x698C82, .cmp 2 3 4 9 6),
    (0x80598C83, .cmpi 2 3 4 9 0x805),
    (0xD484, .brT 2 5 6),
    (0x1D484, .brF 2 5 6),
    (0x21484, .br 2 5),
    (0x30084, .brR 2),
    (0x1485, .brl 2 5),
    (0x80010C86, .loop 2 3 0 0x8001),
    (0x91C87, .loopi 2 3 1 9),
    (0x9BC88, .loopm 2 3 1 9 5),
    (0x1682C89, .vany 2 3 0x41 2 5),
    (0x1682C8A, .vall 2 3 0x41 2 5),
    (0x4D8C8B, .clog 2 3 4 5 9),
    (0x8C, .yieldK 2),
    (0xC8D, .sync 2 3),
    (0x8E, .decouple 2),
    (0x8F, .rejoin 2),
    (0x90, .endK 2),
    (0x20491, .ktrap 2 0x81),
    (0x170C92, .qadd 2 3 12 5),
    (0x170C93, .qsub 2 3 12 5),
    (0x170C95, .qmul 2 3 12 5),
    (0x170C96, .qand 2 3 12 5)] : List (Nat × Instr)).all (fun e => decodeC e.1 none == some e.2) = true := by decide

/-- The C slot: opcodes of 04 R106, layouts of 08 R198. -/
theorem test_decode_c_slot_b : ([(0x170C97, .qor 2 3 12 5),
    (0x170C98, .qxor 2 3 12 5),
    (0x170C99, .qshl 2 3 12 5),
    (0x170C9A, .qshr 2 3 12 5),
    (0x170C9B, .qsra 2 3 12 5),
    (0x170C9C, .qmin 2 3 12 5),
    (0x170C9D, .qmax 2 3 12 5),
    (0x80070C94, .qaddi 2 3 12 0x2001 none),
    (0x80004C9E, .qli 2 3 0x20001 none),
    (0x20C9F, .qget 2 3 8),
    (0x18CA0, .mset 2 3 12),
    (0x20CA1, .mwait 2 3 32),
    (0x2012CA2, .pset 2 3 1 0 0x201),
    (0x32ACA3, .ptail 2 3 1 12 5),
    (0x4004CA4, .ksr 2 3 0x1001),
    (0x30A5, .ksc 2 12),
    (0xCA6, .kmode 2 0 3),
    (0x190A6, .kmode 2 1 12),
    (0x30CA7, .pref 2 3 12),
    (0x130CA8, .qsd 2 3 12 4)] : List (Nat × Instr)).all (fun e => decodeC e.1 none == some e.2) = true := by decide

/-- The S slot: opcodes of 04 R107, layout of R104, fields of 09 R233. -/
theorem test_decode_s_slot : ([(0x9A0C81, .gadd 2 3 20 9),
    (0x9A0C82, .gsub 2 3 20 9),
    (0x9A0C84, .gmul 2 3 20 9),
    (0x9A0C86, .gand 2 3 20 9),
    (0x9A0C87, .gor 2 3 20 9),
    (0x9A0C88, .gxor 2 3 20 9),
    (0x9A0C89, .gshl 2 3 20 9),
    (0x9A0C8A, .gshr 2 3 20 9),
    (0x9A0C8B, .gsra 2 3 20 9),
    (0x9A0C8D, .gmin 2 3 20 9),
    (0x9A0C8E, .gmax 2 3 20 9),
    (0x9A0C8F, .gslt 2 3 20 9),
    (0x9A0C90, .gsltn 2 3 20 9),
    (0x9A0C96, .gsel 2 3 20 9),
    (0x801A0C83, .gaddi 2 3 20 0x801 none),
    (0x29A0C85, .gmulh 2 3 20 9 1),
    (0x421A0C8C, .gshi 2 3 20 1 33),
    (0x80100C91, .gli 2 3 0x801 none),
    (0x60C92, .gfrq 2 3 12),
    (0x829A0C93, .gext 2 3 20 9 65),
    (0x429A0C94, .gins 2 3 20 9 33),
    (0xC95, .gcid 2 3),
    (0xA0C97, .gclz 2 3 20)] : List (Nat × Instr)).all (fun e => decodeS e.1 none == some e.2) = true := by decide

/-- The V slots: opcodes of 04 R108, layout of R100. -/
theorem test_decode_v_slot_a : ([(0x1000000885428901, .vadd ⟨2, 1, 10, 21, 34, 0, 0, 0, 2, 0⟩),
    (0x1000000885428902, .vsub ⟨2, 1, 10, 21, 34, 0, 0, 0, 2, 0⟩),
    (0x1000000885428903, .vadds ⟨2, 1, 10, 21, 34, 0, 0, 0, 2, 0⟩),
    (0x1000000885428904, .vaddn ⟨2, 1, 10, 21, 34, 0, 0, 0, 2, 0⟩),
    (0x1000000885428905, .vsubs ⟨2, 1, 10, 21, 34, 0, 0, 0, 2, 0⟩),
    (0x1000000885428906, .vsubn ⟨2, 1, 10, 21, 34, 0, 0, 0, 2, 0⟩),
    (0x1000000885428907, .vmul ⟨2, 1, 10, 21, 34, 0, 0, 0, 2, 0⟩),
    (0x1000000885428908, .vmulh ⟨2, 1, 10, 21, 34, 0, 0, 0, 2, 0⟩),
    (0x1000000885428909, .vmulhn ⟨2, 1, 10, 21, 34, 0, 0, 0, 2, 0⟩),
    (0x100000088542890A, .vmac ⟨2, 1, 10, 21, 34, 0, 0, 0, 2, 0⟩),
    (0x100000488542890B, .vmacw ⟨2, 1, 10, 21, 34, 1, 0, 0, 2, 0⟩),
    (0x100000088542890C, .vmin ⟨2, 1, 10, 21, 34, 0, 0, 0, 2, 0⟩),
    (0x100000088542890D, .vmax ⟨2, 1, 10, 21, 34, 0, 0, 0, 2, 0⟩),
    (0x100000088542890E, .vminn ⟨2, 1, 10, 21, 34, 0, 0, 0, 2, 0⟩),
    (0x100000088542890F, .vmaxn ⟨2, 1, 10, 21, 34, 0, 0, 0, 2, 0⟩),
    (0x1000000005428910, .vabs ⟨2, 1, 10, 21, 0, 0, 0, 0, 2, 0⟩),
    (0x1000000005428911, .vneg ⟨2, 1, 10, 21, 0, 0, 0, 0, 2, 0⟩),
    (0x1000000885428912, .vand ⟨2, 1, 10, 21, 34, 0, 0, 0, 2, 0⟩),
    (0x1000000885428913, .vor ⟨2, 1, 10, 21, 34, 0, 0, 0, 2, 0⟩),
    (0x1000000885428914, .vxor ⟨2, 1, 10, 21, 34, 0, 0, 0, 2, 0⟩),
    (0x1000000885428915, .vandn ⟨2, 1, 10, 21, 34, 0, 0, 0, 2, 0⟩),
    (0x1000000885428916, .vshl ⟨2, 1, 10, 21, 34, 0, 0, 0, 2, 0⟩),
    (0x1000000885428917, .vshr ⟨2, 1, 10, 21, 34, 0, 0, 0, 2, 0⟩),
    (0x1000000885428918, .vsra ⟨2, 1, 10, 21, 34, 0, 0, 0, 2, 0⟩)] : List (Nat × Instr)).all (fun e => decodeIn .v e.1 none == some e.2) = true := by decide

/-- The V slots: opcodes of 04 R108, layout of R100. -/
theorem test_decode_v_slot_b : ([(0x1000000885428919, .vsrar ⟨2, 1, 10, 21, 34, 0, 0, 0, 2, 0⟩),
    (0x100000000542891A, .vnarrow ⟨2, 1, 10, 21, 0, 0, 0, 0, 2, 0⟩),
    (0x100000400542891B, .vwiden ⟨2, 1, 10, 21, 0, 1, 0, 0, 2, 0⟩),
    (0x100000088542891C, .vcmpeq ⟨2, 1, 10, 21, 34, 0, 0, 0, 2, 0⟩),
    (0x100000088542891D, .vcmplt ⟨2, 1, 10, 21, 34, 0, 0, 0, 2, 0⟩),
    (0x100000088542891E, .vcmpltn ⟨2, 1, 10, 21, 34, 0, 0, 0, 2, 0⟩),
    (0x100000088542891F, .vcmple ⟨2, 1, 10, 21, 34, 0, 0, 0, 2, 0⟩),
    (0x10000BC885428920, .vsel ⟨2, 1, 10, 21, 34, 47, 0, 0, 2, 0⟩),
    (0x1000000005428921, .vclz ⟨2, 1, 10, 21, 0, 0, 0, 0, 2, 0⟩),
    (0x1000000005428922, .vpopc ⟨2, 1, 10, 21, 0, 0, 0, 0, 2, 0⟩),
    (0x3000000885428930, .fadd ⟨2, 1, 10, 21, 34, 0, 0, 0, 6, 0⟩),
    (0x3000000885428931, .fsub ⟨2, 1, 10, 21, 34, 0, 0, 0, 6, 0⟩),
    (0x3000000885428932, .fmul ⟨2, 1, 10, 21, 34, 0, 0, 0, 6, 0⟩),
    (0x30000BC885428933, .fma ⟨2, 1, 10, 21, 34, 47, 0, 0, 6, 0⟩),
    (0x30000BC885428934, .fms ⟨2, 1, 10, 21, 34, 47, 0, 0, 6, 0⟩),
    (0x30000BC885428935, .fnma ⟨2, 1, 10, 21, 34, 47, 0, 0, 6, 0⟩),
    (0x3000000885428936, .fmin ⟨2, 1, 10, 21, 34, 0, 0, 0, 6, 0⟩),
    (0x3000000885428937, .fmax ⟨2, 1, 10, 21, 34, 0, 0, 0, 6, 0⟩),
    (0x2800000005428938, .fabs ⟨2, 1, 10, 21, 0, 0, 0, 0, 5, 0⟩),
    (0x2800000005428939, .fneg ⟨2, 1, 10, 21, 0, 0, 0, 0, 5, 0⟩),
    (0x280000088542893A, .fcmpeq ⟨2, 1, 10, 21, 34, 0, 0, 0, 5, 0⟩),
    (0x280000088542893B, .fcmplt ⟨2, 1, 10, 21, 34, 0, 0, 0, 5, 0⟩),
    (0x280000088542893C, .fcmple ⟨2, 1, 10, 21, 34, 0, 0, 0, 5, 0⟩),
    (0x280000088542893D, .fcmpun ⟨2, 1, 10, 21, 34, 0, 0, 0, 5, 0⟩)] : List (Nat × Instr)).all (fun e => decodeIn .v e.1 none == some e.2) = true := by decide

/-- The V slots: opcodes of 04 R108, layout of R100. -/
theorem test_decode_v_slot_c : ([(0x280000000542893E, .fclass ⟨2, 1, 10, 21, 0, 0, 0, 0, 5, 0⟩),
    (0x280000088542893F, .fscale ⟨2, 1, 10, 21, 34, 0, 0, 0, 5, 0⟩),
    (0x3000008005428940, .vcvt ⟨2, 1, 10, 21, 0, 2, 0, 0, 6, 0⟩),
    (0x3000008885428941, .vqnt ⟨2, 1, 10, 21, 34, 2, 0, 0, 6, 0⟩),
    (0x3000008885428942, .vdq ⟨2, 1, 10, 21, 34, 2, 0, 0, 6, 0⟩),
    (0x2000000005428948, .frcp ⟨2, 1, 10, 21, 0, 0, 0, 0, 4, 0⟩),
    (0x2000000005428949, .frsq ⟨2, 1, 10, 21, 0, 0, 0, 0, 4, 0⟩),
    (0x200000000542894A, .fexp2 ⟨2, 1, 10, 21, 0, 0, 0, 0, 4, 0⟩),
    (0x200000000542894B, .flog2 ⟨2, 1, 10, 21, 0, 0, 0, 0, 4, 0⟩),
    (0x200000000542894C, .fsin ⟨2, 1, 10, 21, 0, 0, 0, 0, 4, 0⟩),
    (0x200000000542894D, .fcos ⟨2, 1, 10, 21, 0, 0, 0, 0, 4, 0⟩),
    (0x200000000542894E, .ftanh ⟨2, 1, 10, 21, 0, 0, 0, 0, 4, 0⟩),
    (0x2000000005428950, .vrsum ⟨2, 1, 10, 21, 0, 0, 0, 0, 4, 0⟩),
    (0x2000000005428951, .vrmax ⟨2, 1, 10, 21, 0, 0, 0, 0, 4, 0⟩),
    (0x2000000005428952, .vrmin ⟨2, 1, 10, 21, 0, 0, 0, 0, 4, 0⟩),
    (0x2000000005428953, .vamax ⟨2, 1, 10, 21, 0, 0, 0, 0, 4, 0⟩),
    (0x20000F2585428954, .vtopk ⟨2, 1, 10, 21, 150, 60, 0, 0, 4, 0⟩),
    (0x2000000005428955, .vscan ⟨2, 1, 10, 21, 0, 0, 0, 0, 4, 0⟩),
    (0x20000BC005428956, .vcompress ⟨2, 1, 10, 21, 0, 47, 0, 0, 4, 0⟩),
    (0x20000BC005428957, .vexpand ⟨2, 1, 10, 21, 0, 47, 0, 0, 4, 0⟩),
    (0x2000000885428958, .vidx ⟨2, 1, 10, 21, 34, 0, 0, 0, 4, 0⟩),
    (0x2000000005428959, .vmov ⟨2, 1, 10, 21, 0, 0, 0, 0, 4, 0⟩),
    (0x200000000002895A, .vzero ⟨2, 1, 10, 0, 0, 0, 0, 0, 4, 0⟩)] : List (Nat × Instr)).all (fun e => decodeIn .v e.1 none == some e.2) = true := by decide

/-- The X slot: 04 R104 and R109, 10 R252. -/
theorem test_decode_x_slot : ([(0x170C81, .xadd 2 3 12 5),
    (0x170C83, .xsub 2 3 12 5),
    (0x170C84, .xshl 2 3 12 5),
    (0x170C85, .xand 2 3 12 5),
    (0x170C87, .xpopb 2 3 12 5),
    (0x170C88, .xcadv 2 3 12 5),
    (0x170C89, .xdiagStep 2 3 12 5),
    (0x170C8C, .xmin 2 3 12 5),
    (0x170C8D, .xsel 2 3 12 5),
    (0x170C91, .xrank 2 3 12 5),
    (0x170C92, .xmax 2 3 12 5),
    (0x80430C82, .xaddi 2 3 12 0x201 none),
    (0x30C86, .xpopc 2 3 12),
    (0x430C89, .xdiagMid 2 3 12),
    (0x80430C8A, .xaq 2 3 12 0x201),
    (0x80430C8B, .xaqs 2 3 12 0x201),
    (0x80400C8E, .xli 2 3 0x201 none),
    (0x5000C8F, .xfrg 2 3 20),
    (0x5030090, .xtog 2 20 12)] : List (Nat × Instr)).all (fun e => decodeX e.1 none == some e.2) = true := by decide

/-- The M slot: 04 R104 and R109, 11 R282. -/
theorem test_decode_m_slot : ([(0x5C3A0481, .mcall 2 0x81 2 3 12 5),
    (0x80082, .mzero 2 2),
    (0x10080083, .mmode 2 2 1),
    (0x84, .mfence 2),
    (0x10080085, .mwm 2 2 1)] : List (Nat × Instr)).all (fun e => decodeM e.1 none == some e.2) = true := by decide

/-- The W slot: 04 R104 and R109, 10 R272. -/
theorem test_decode_w_slot : ([(0xD131882, .wbcast 2 70 9 13),
    (0xD131883, .wrot 2 70 9 13),
    (0xD131884, .wbfly 2 70 9 13),
    (0x6131885, .wrsum 2 70 9 6),
    (0x6131886, .wrmax 2 70 9 6),
    (0x6131888, .wscan 2 70 9 6),
    (0xC131881, .wperm 2 70 9 12),
    (0x66131887, .wsegsum 2 70 9 6 12)] : List (Nat × Instr)).all (fun e => decodeW e.1 none == some e.2) = true := by decide

/-- The P slot: 04 R104 and R109, 10 R259, R261 and R271. -/
theorem test_decode_p_slot : ([(0xB18C81, .spop 2 3 70 5),
    (0xB18C82, .spush 2 3 70 5),
    (0xB18C84, .speek 2 3 70 5),
    (0x80200C83, .sadv 2 3 0x401 none),
    (0x3918C85, .sldl 2 3 70 12 1),
    (0x3918C86, .sstu 2 3 70 12 1),
    (0x90118C87, .sld 2 3 70 0x480 none),
    (0x90118C88, .sst 2 3 70 0x480 none),
    (0x9318089, .dqpop 2 70 9 2),
    (0x11808A, .dqn 2 70),
    (0xC8B, .sflush 2 3),
    (0x80600C8C, .kcopy 2 3 1 0x201),
    (0x118C8D, .spos 2 3 70),
    (0xC8E, .seos 2 3)] : List (Nat × Instr)).all (fun e => decodeP e.1 none == some e.2) = true := by decide

/-- The micro-ops: 11 R298. -/
theorem test_decode_micro : ([(0x400000000000017, .kstep 3 1 0 1),
    (0x80000000000000A, .ksteps 2 0 1 0),
    (0xC00000000002005, .rpop 1 0 0x801),
    (0x1000000000000017, .rpeek 1 1 5),
    (0x1400000000000006, .rowg 0 3),
    (0x1800000000000003, .accsel 3),
    (0x1C00000000000002, .accz 2),
    (0x200000000009B801, .loopk 0x801 1 5 9),
    (0x2400000000000060, .wmset 32 1),
    (0x2800000000000000, .bmchk),
    (0x2C00000000000056, .epi 2 1 5),
    (0x300000000000005D, .parm 5 3 1),
    (0x3400000000000801, .jmp 0x801),
    (0x3800000000000000, .ret)] : List (Nat × Instr)).all (fun e => decodeMicro e.1 == some e.2) = true := by decide

/-- The stream extension: 07 R155. -/
theorem test_decode_stream_a : ([(0x1B9028B, .palloc 5 18 27),
    (0x9128B, .pfree 5 18),
    (0x9228B, .pinfo 5 18),
    (0x2209328B, .sdset 5 18 17),
    (0x2204C28B, .sdget 5 9 17),
    (0x4D28B, .sdcopy 5 9),
    (0xD1B902AB, .sload 5 13 18 27),
    (0xD1B912AB, .sstore 5 13 18 27),
    (0xD1B922AB, .sgather 5 13 18 27),
    (0xD1B932AB, .sscatter 5 13 18 27),
    (0xD1B942AB, .sscadd 5 13 18 27),
    (0xD1B952AB, .scopy 5 13 18 27),
    (0x1B9602B, .spref 18 27),
    (0xD1B972AB, .satomAdd 5 13 18 27),
    (0xD3B972AB, .satomSwap 5 13 18 27),
    (0xD5B972AB, .satomCas 5 13 18 27),
    (0xD7B972AB, .satomMin 5 13 18 27),
    (0xD9B972AB, .satomMax 5 13 18 27),
    (0xDBB972AB, .satomAnd 5 13 18 27),
    (0xDDB972AB, .satomOr 5 13 18 27),
    (0x1B902DB, .krun 5 18 27),
    (0x1B912DB, .kstage 5 18 27),
    (0x1B922DB, .kpipe 5 18 27),
    (0x32DB, .khalt 5)] : List (Nat × Instr)).all (fun e => decodeCtl e.1 == some e.2) = true := by decide

/-- The stream extension: 07 R155. -/
theorem test_decode_stream_b : ([(0x1B942DB, .svadd 5 18 27),
    (0x3B942DB, .svmul 5 18 27),
    (0x5B942DB, .svfma 5 18 27),
    (0x7B942DB, .svcvt 5 18 27),
    (0x9B942DB, .svscale 5 18 27),
    (0xBB942DB, .svmax 5 18 27),
    (0xDB942DB, .svmin 5 18 27),
    (0xFB942DB, .svcopy 5 18 27),
    (0x11B942DB, .svfill 5 18 27),
    (0x1B952DB, .mload 5 18 27),
    (0x1B962DB, .spmerge 5 18 27),
    (0x1B072DB, .spdrain 5 27),
    (0x1B902FB, .awinit 5 18 27),
    (0x1B912FB, .await 5 18 27),
    (0x1B922FB, .acq 5 18 27),
    (0x20922FB, .rel 5 18),
    (0x1B932FB, .tacq 5 18 27),
    (0x20932FB, .trel 5 18),
    (0x942FB, .fencex 5 18),
    (0x952FB, .swait 5 18),
    (0x20952FB, .sbar 5 18),
    (0x1B962FB, .spawn 5 18 27),
    (0x200607B, .texit),
    (0x40962FB, .tsplit 5 18)] : List (Nat × Instr)).all (fun e => decodeCtl e.1 == some e.2) = true := by decide

/-- The stream extension: 07 R155. -/
theorem test_decode_stream_c : ([(0x60062FB, .treseed 5),
    (0x972FB, .gsync 5 18),
    (0x20072FB, .syield 5),
    (0x40972FB, .sstat 5 18)] : List (Nat × Instr)).all (fun e => decodeCtl e.1 == some e.2) = true := by decide

/-- RV64IMAFD and Zicsr (06 R131), from the formats of the RISC-V standard. -/
theorem test_decode_standard_a : ([(0x41B902B3, .rvIntegerAlu false .sub false 5 18 (.reg 27)),
    (0x1B902BB, .rvIntegerAlu false .add true 5 18 (.reg 27)),
    (0x1B932B3, .rvIntegerAlu false .sltu false 5 18 (.reg 27)),
    (0x42195293, .rvIntegerAlu false .sra false 5 18 (.imm 33)),
    (0x3B912B3, .rvMultiply .mulh 5 18 27),
    (0x3B922B3, .rvMultiply .mulhsu 5 18 27),
    (0x3B962B3, .rvDivide .rem false 5 18 27),
    (0x3B952BB, .rvDivide .divu true 5 18 27),
    (0x896283, .rvLoad false .lwu 5 18 8),
    (0x893287, .rvLoad false .fld 5 18 8),
    (0x3B92423, .rvStore false .sw 27 18 40),
    (0x1B95463, .rvBranch false .bge 18 27 8),
    (0x8000EF, .jal false 1 8),
    (0x8900E7, .jalr false 1 18 8),
    (0xFF0000F, .fence false 0xFF),
    (0x100F, .fence true 0),
    (0x100932AF, .lr true 0 5 18),
    (0x19B922AF, .sc false 0 5 18 27),
    (0xE7B932AF, .rvAmo .maxu true 3 5 18 27),
    (0x342922F3, .rvCsrAccess .rs false 0x342 5 18),
    (0x73, .ecall),
    (0x1BB972D3, .rvFdivFsqrt false true 5 18 27 7),
    (0x580912D3, .rvFdivFsqrt true false 5 18 0 1),
    (0x11B902D3, .rvFloatOp .mul false 5 18 27 0 0)] : List (Nat × Instr)).all (fun e => decodeCtl e.1 == some e.2) = true := by decide

/-- RV64IMAFD and Zicsr (06 R131), from the formats of the RISC-V standard. -/
theorem test_decode_standard_b : ([(0x1BB972CF, .rvFloatOp .nmadd true 5 18 27 3 7)] : List (Nat × Instr)).all (fun e => decodeCtl e.1 == some e.2) = true := by decide

/-- The words of the spec's own examples: 04 R98 (GLI with its extension), 07 R155, 08 R198, 10 R252 and R272, 11 R282. -/
theorem test_decode_spec_examples : decodeS 0x78901411 (some 0x123456) = some (.gli 0 5 0x789 (some 0x123456)) ∧
    decodeCtl 0x30B502AB = some (.sload 5 3 10 11) ∧ decodeC 0x00044408 none = some (.loopm 0 1 0 4 2) ∧ decodeC 0x00002804 none = some (.brT 0 2 1) ∧
    decodeX 0x00084C08 none = some (.xcadv 0 3 1 2) ∧ decodeW 0x0110A003 none = some (.wrot 0 40 8 1) ∧
    decodeM 0x05440001 none = some (.mcall 0 0 1 4 5 0) := by decide

/-! ## Witnesses

For each obligation that has hypotheses, a state and operands that meet those of each of its clauses together. What is assumed of a value that a
hypothesis only names (`s.ctx s.cur = some c`) is met by naming it; membership in a list that a statement writes out is met by the list's entries. -/

/-- SP 0 holds context `c`, the bundle issues there, and the clock stands at cycle 1,000,000. -/
def holding (c : Ctx) : State := { State.reset with sps := [(0, { Sp.init with ctx := some c })], issue := [0], now := 1000000 }

/-- The same with SP 0 as `p`. -/
def withSp0 (p : Sp) : State := { State.reset with sps := [(0, p)], now := 1000000 }

/-- A context of launch 1. -/
def ctx1 : Ctx := { Ctx.init with launch := 1 }

/-- Its kernel runs. -/
def running1 : Ctx := { ctx1 with kern := { Kern.init with phase := .running } }

/-- A code object with one kernel, a launch of it and its partition, which owns SP 0. -/
def code1 : Code :=
  { handle := 1, base := 0, len := 64, admitted := 64, ctrl := List.replicate 16 0, ktab := [⟨0, 64, false⟩], segtab := [], grptab := [], slottab := [],
    polders := [], data := [], routines := [], profile := 0, system := false, wdog := 27, slots := false, unloading := false, digest := [], chain := [],
    build := [], note := [] }

def launch1 : Launch :=
  { id := 1, vf := 1, queue := 0, part := 3, handle := 1, tag := 0, msgTag := 0, entry := 0, count := 1, bar := false, setf := false, twr := 0, prio := 0,
    mask := 1, port := 0, addr := 0, args := [], state := 1, passes := 0, started := 0, t := 2 ^ 32, ret := 0, segs := [], ranks := [0], groups := [],
    slots := [], cause := none, crank := 0, cword := 0, caddr := 0, cpc := 0, order := 0, saves := [], wants := [], gone := [] }

def part3 : Part := { Part.init with sps := [0], codes := [code1], linear := [(0, 2 ^ 21)] }

/-- The launch holds SP 0 with context `c`. -/
def launched (p : Part) (c : Ctx) : State := { holding c with launches := [launch1], parts := [(3, p)] }

/-- A waiting copy command, and the packet and access that tests build on. -/
def entry0 : Entry :=
  { seq := 0, instr := .sload 1 0 2 3, rs1 := 0, rs2 := 0, cls := 0, reads := [], writes := [], descs := [], state := .waiting, issued := 0, rec_ := 0,
    off := 0, flight := 0, counted := 0, size := 0, status := 0, staged := [], moved := 0, tail0 := 0, part := [], block := [], kcopy := none,
    freed := false, beats := 0, caught := [], wrote := [] }

def packet0 : Packet := ⟨2, 5, 0, 1, 3, 0, 0, 0, 0, 0, 1, 0, [], false⟩

def acc0 : Acc := ⟨0, .copy 0 1 0 0 0, 3, .read, 0, 0, 0, 8, [], 0, 0, 2, 0, [], 0, 0, 0, 0, none⟩

def polder0 : Polder := ⟨0, 12, 0, 0, 0, false, none, false, 0, 0⟩

def queue0 : Polder := { polder0 with kind := 2 }

def victim0 : Victim := ⟨ctx1, 1, 0, [], none, 0, none, [], false, [], 0⟩

/-- A message of VF 0 and one of VF 1, which is bound to partition 3. -/
def msg0 : VctHdr := ⟨0, 0, 0, 9, 7, 8⟩

def msg1 : VctHdr := ⟨1, 0, 7, 9, 7, 8⟩

theorem test_StepRunsTheDecodedInstruction_witness :
    ({ State.reset with inbox := [.snaptrig] }.inbox = [.snaptrig]) ∧ (State.reset.inbox = [] ∧ State.reset.turns = []) ∧
    (let s := { holding { ctx1 with pc := 0x37FFC } with turns := [.run .snaptrig] }; s.inbox = [] ∧ s.turns = [.run .snaptrig]) ∧
    (let c := { ctx1 with pc := 0x37FFC }
     c.halted = false ∧ c.preempt = none ∧ c.filling = false ∧ c.busy = 0 ∧ c.wait = none ∧ c.pend = false ∧
      (let m := bytesWrite [] 0x37FFC (toBytes 4 0x0200607B)
       c.pc.toNat + 4 ≤ 0x38000 ∧ decodeCtl (cmRead m c.pc.toNat 4) = some .texit) ∧ decodeCtl (cmRead [] c.pc.toNat 4) = none) ∧
    (let c := { ctx1 with pc := 0x38000 }; c.mmode = false ∧ 0x38000 < c.pc.toNat + 2) ∧
    decodeMicro (0x0400000000000005 : Dword).toNat = some (.kstep 1 1 0 0) := by decide

/-- A frame for another port, which is dropped, and an acknowledgement for VF 1. -/
theorem test_StepRunsTheDecodedInstruction_frame_witness (f : HostFrame) :
    (let s := { State.reset with turns := [.hostPort], hostIn := [f] }; s.inbox = [] ∧ s.turns = [.hostPort] ∧ s.hostIn = [f]) ∧
    ({ f with port := 46785 } : HostFrame).message = none ∧ payloadOf msg0 13 [] = some (.ack msg0.vf msg0.seq) :=
  ⟨⟨rfl, rfl, rfl⟩, if_pos (.inl (by simp [HostFrame.taken])), rfl⟩

theorem test_EncodedWordsDecode_witness : (Instr.palloc 31 31 31).wf = true ∧ (encode (.palloc 31 31 31)).isSome = true ∧ encodeRv (.palloc 31 31 31) = none ∧
    (Instr.qli 15 15 262143 (some 16777215)).wf = true ∧ (encode (.qli 15 15 262143 (some 16777215))).isSome = true := by decide

theorem test_StandardWordsDecode_witness : (Instr.rvMultiply .mul 31 31 31).wf = true ∧ (encodeRv (.rvMultiply .mul 31 31 31)).isSome = true ∧
    (Instr.rvIntegerAlu false .add false 31 31 (.reg 31)).wf = true := by decide

theorem test_MemoryStaysCanonical_witness : Memory.wf { State.reset with mem := [(5, 1)] }.mem = true ∧
    step { State.reset with mem := [(5, 1)] } = .next { State.reset with mem := [(5, 1)], now := 1, turns := (List.range 9).map .stage } := ⟨by decide, rfl⟩

theorem test_ControllerIntegerResults_witness : (holding ctx1).ctx (holding ctx1).cur = some ctx1 ∧ (32 = 32 ∨ 32 = 64) ∧ (64 = 32 ∨ 64 = 64) := by decide

theorem test_ControllerJumps_witness : (holding ctx1).ctx (holding ctx1).cur = some ctx1 := by decide

theorem test_ControllerLoads_witness : (holding ctx1).ctx (holding ctx1).cur = some ctx1 ∧
    (ctx1.xr 0 + 0x38BF8).toNat % 8 = 0 ∧ (ctx1.xr 0 + 0x38BF8).toNat + 8 ≤ 0x38C00 ∧
    (let c := { ctx1 with x := [(1, 0x38BFC)] }; (c.xr 1).toNat % 4 = 0 ∧ (c.xr 1).toNat + 4 ≤ 0x38C00) := by decide

theorem test_ControllerStoresAndAtomics_witness :
    (let c := { ctx1 with x := [(1, 0x37FF8)], resv := some 0x37FF8 }
     (c.xr 1 + 0).toNat % 8 = 0 ∧ (c.xr 1 + 0).toNat + 8 ≤ 0x38000 ∧ c.resv = some (c.xr 1).toNat) ∧ ctx1.resv ≠ some (ctx1.xr 1).toNat := by decide

theorem test_ControllerDeviceAccess_witness :
    (let c := { ctx1 with mmode := true }
     c.mmode = true ∧ (c.xr 0 + 0x100000008).toNat = 0x100000000 + 8 ∧ (holding c).regRead 8 = some 0 ∧
      (c.xr 0 + 0x100FFFFF8).toNat = 0x100000000 + 0xFFFFF8 ∧ 0xFFFFF8 % 8 = 0 ∧ 0xFFFFF8 < 0x1000000 ∧ (holding c).regRead 0xFFFFF8 = none) := by decide

theorem test_ControllerExceptions_witness :
    (launched part3 ctx1).ctx 0 = some ctx1 ∧ ctx1.mmode = false ∧ (launched part3 ctx1).launchOf ctx1.launch = some launch1 ∧ launch1.cause = none ∧
    { ctx1 with mmode := true }.mmode = true ∧ (ctx1.xr 0 + 1).toNat % 8 ≠ 0 ∧ (ctx1.xr 0 + 0x38C00).toNat % 8 = 0 ∧ 0x38C00 ≤ (ctx1.xr 0 + 0x38C00).toNat ∧
    (ctx1.xr 0 + 0x38000).toNat % 8 = 0 ∧ 0x38000 ≤ (ctx1.xr 0 + 0x38000).toNat ∧ ((holding ctx1).sp 0).attach = false ∧
    ((withSp0 { Sp.init with ctx := some ctx1, attach := true }).sp 0).attach = true := by decide

theorem test_ControllerCsrs_witness : (holding ctx1).ctx (holding ctx1).cur = some ctx1 ∧ CsrOp.rs ≠ .rw ∧ 31 ≠ 0 ∧ ({ ctx1 with kstat := 2 ^ 13 - 1 }).kstat < 2 ^ 13 ∧
    ({ ctx1 with sysb := true }.mmode = true ∨ { ctx1 with sysb := true }.sysb = true) ∧ ctx1.mmode = false ∧ ctx1.sysb = false ∧
    0x7C0 ≤ 0x8FF ∧ (¬(0x800 ≤ 0x80B ∧ 0x80B ≤ 0x80A) ∧ ¬(0x80B ≤ 0x7C2)) := by decide

theorem test_ControllerStatusSteps_witness :
    (let c := { ctx1 with stopped := true, kern := { Kern.init with phase := .stopped } }
     (holding c).ctx 0 = some c ∧ c.stopped = true ∧ (holding c).issueGroup 0 = [0] ∧ ((holding c).tower 0).Nodup ∧ 0 ∈ (holding c).tower 0 ∧ c.kstat < 2 ^ 13 ∧
      c.kern.phase = .stopped) ∧ ctx1.stopped = false ∧ ctx1.kern.phase = .idle := by decide

theorem test_ControllerFloatingPoint_witness : (holding ctx1).ctx (holding ctx1).cur = some ctx1 ∧
    4 = (if 4 = 7 then (ctx1.fcsr.extractLsb' 5 3).toNat else 4) ∧ 4 < 5 ∧ 0 = (if 7 = 7 then (ctx1.fcsr.extractLsb' 5 3).toNat else 7) ∧
    5 ≤ ({ ctx1 with fcsr := 0xA0 }.fcsr.extractLsb' 5 3).toNat := by decide

theorem test_PolderAndDescriptorInstructions_witness :
    (let c := { ctx1 with x := [(1, 63), (2, 0x1602)] }
     (holding c).ctx (holding c).cur = some c ∧ c.wait = none ∧ 63 < 64 ∧ (c.xr 1).toNat = 63 ∧ (c.xr 2).toNat = 2 + 2 ^ 8 * 22 ∧ 2 < 3 ∧ 12 ≤ 22 ∧ c.polder 63 = none ∧
      ((holding c).sp (holding c).cur).victimRanges = []) ∧
    (let c := { ctx1 with polders := [(63, { polder0 with log2 := 22, pending := true })] }
     c.polder 63 = some { polder0 with log2 := 22, pending := true } ∧ ({ polder0 with log2 := 22, pending := true } : Polder).fill = 0 ∧
      ({ polder0 with pending := true, fill := 4 } : Polder).fill ≠ 0) ∧
    ({ ctx1 with polders := [(63, polder0)] }.polder 63 = some polder0 ∧ polder0.pending = false) ∧
    (let c := { ctx1 with x := [(1, 64)] }; 64 ≤ (c.xr 1).toNat) ∧
    (let c := { ctx1 with x := [(1, 63)], polders := [(63, polder0)] }
     (c.xr 1).toNat = 63 ∧ 63 < 64 ∧ c.polder 63 ≠ none ∧ (∀ e ∈ c.sb, e.freed = false → ∀ r ∈ e.reads ++ e.writes, r.handle ≠ 63)) ∧
    (let c := { ctx1 with x := [(1, 63)], polders := [(63, polder0)], sb := [{ entry0 with reads := [.bytes 63 0 16] }] }
     c.wait = none ∧ ∃ e ∈ c.sb, e.freed = false ∧ ∃ r ∈ e.reads ++ e.writes, r.handle = 63) ∧
    (let c := { ctx1 with polders := [(5, polder0)], descs := [(1, { Desc.init with polder := some 5 })] }
     (KMap.get Desc.init c.descs 1).polder = some 5 ∧ c.polder 5 = some polder0) := by decide

/-- Base 0 is the lowest free one where nothing stands; where a pre-empted context holds it, no base is free, and base 0 is taken over that context's space. -/
theorem test_PolderAndDescriptorInstructions_base_witness :
    LowestFree (2 ^ 22 / 16) 0 [] ∧
    (let v := { victim0 with ctx := { ctx1 with polders := [(1, { polder0 with log2 := 22 })] } }
     let s := withSp0 { Sp.init with ctx := some ctx1, victims := [v] }
     s.ctx s.cur = some ctx1 ∧ (s.sp s.cur).victimRanges = [(0, 2 ^ 22 / 16)] ∧ (∀ b, ¬FreeBase (2 ^ 22 / 16) b [(0, 2 ^ 22 / 16)]) ∧ LowestFree (2 ^ 22 / 16) 0 []) := by
  refine ⟨⟨⟨by decide, by decide, by decide⟩, fun _ _ => Nat.zero_le _⟩, by decide, by decide, fun b h => ?_, ⟨by decide, by decide, by decide⟩, fun _ _ => Nat.zero_le _⟩
  have h1 : b + 0x40000 ≤ 0x60000 := h.2.1
  have h2 : b + 0x40000 ≤ 0 ∨ 0 + 0x40000 ≤ b := h.2.2 _ List.mem_cons_self
  omega

/-- Two polders of 4 MiB leave no base for a third: the clause of PALLOC that answers NO_SPACE. -/
theorem test_PolderAndDescriptorInstructions_full_witness :
    let c := { ctx1 with polders := [(1, { polder0 with log2 := 22 }), (2, { polder0 with log2 := 22, base := 0x40000 })] }
    c.polder 63 = none ∧ ∀ b, ¬FreeBase (2 ^ 22 / 16) b (c.polders.map fun q => (q.2.base, 2 ^ q.2.log2 / 16)) := by
  refine ⟨by decide, fun b h => ?_⟩
  have h1 : b + 0x40000 ≤ 0x60000 := h.2.1
  have h2 : b + 0x40000 ≤ 0 ∨ 0 + 0x40000 ≤ b := h.2.2 _ List.mem_cons_self
  omega

theorem test_DescriptorFieldRules_witness :
    (let c := { ctx1 with x := [(1, 5)], polders := [(5, queue0)], descs := [(1, { Desc.init with polder := some 5 })] }
     (holding c).ctx (holding c).cur = some c ∧ (c.xr 1).getLsbD 6 = false ∧ c.polder ((c.xr 1).toNat % 64) = some queue0 ∧
      (KMap.get Desc.init c.descs 1).polder = some 5 ∧ c.polder 5 = some queue0 ∧ queue0.kind = 2 ∧ (∀ e ∈ c.sb, e.freed = false → SetR.tail 5 ∉ e.writes)) ∧
    (127 = 1 ∨ 127 = 14 ∨ 127 = 15 ∨ 16 < 127) ∧ 16 < 17 := by decide

/-- A launch with one local segment that has sync object 7, and one that is imported. -/
def launchSeg : Launch :=
  { launch1 with segs := [⟨0, 2 ^ 21, 0, true, true, 0, false, true, 7⟩, ⟨2 ^ 21, 2 ^ 21, 2 ^ 21, true, true, 1, false, true, 0xFFFF⟩] }

/-- SP 0 is a member of group 1: entry 5 of the group table, by dike port 0. -/
def grouped (c : Ctx) (g : Group) : State :=
  { launched { part3 with groups := [(5, g)] } c with
    sps := [(0, { Sp.init with ctx := some c, cm := bytesWrite [] 0x38082 (toBytes 2 0x8005), dikes := [(0, 5)] })] }

def group0 : Group := ⟨1, [0], [], 0, false, []⟩

theorem test_WaitingInstructions_witness :
    (let c := { ctx1 with x := [(1, BitVec.ofNat 64 (63 * 2 ^ 22 + (2 ^ 22 - 16))), (2, 0xFFFFFFFF)], polders := [(63, { polder0 with log2 := 22 })] }
     (holding c).ctx (holding c).cur = some c ∧ c.polder 63 = some { polder0 with log2 := 22 } ∧ 63 < 64 ∧ 2 ^ 22 - 16 < 2 ^ 22 ∧ (2 ^ 22 - 16) % 16 = 0 ∧
      (c.xr 1).toNat = 63 * 2 ^ 22 + (2 ^ 22 - 16) ∧ (∀ e ∈ c.sb, e.freed = true) ∧ (c.xr 2).toNat < 2 ^ 32 ∧
      (polNum [] polder0 0 16 / 2 ^ 64 % 2 ^ 32 + 2 ^ 32 - (0 : Nat) % 2 ^ 32) % 2 ^ 32 < 2 ^ 31 ∧
      2 ^ 31 ≤ (polNum [] polder0 0 16 / 2 ^ 64 % 2 ^ 32 + 2 ^ 32 - (1 : Nat) % 2 ^ 32) % 2 ^ 32) ∧
    -- FENCEX and SWAIT: with and without an older entry
    (let c := { ctx1 with x := [(1, 64), (2, 128), (3, 63)] }; 64 ≤ (c.xr 1).toNat ∧ 128 ≤ (c.xr 2).toNat ∧ (c.xr 1).toNat < 128 ∧ (c.xr 3).toNat < 64 ∧
      (∀ e ∈ c.sb, e.kcopy = none → (c.xr 3).getLsbD e.cls = false) ∧ (∀ e ∈ c.sb, e.freed = false → ∀ r ∈ e.reads ++ e.writes, r.handle ≠ (c.xr 3).toNat)) ∧
    (let c := { ctx1 with x := [(1, 1)], sb := [{ entry0 with reads := [.bytes 1 0 16] }] }
     (c.xr 1).toNat < 64 ∧ (∃ e ∈ c.sb, e.kcopy = none ∧ e.cls < 4 ∧ (c.xr 1).getLsbD e.cls = true) ∧
      ∃ e ∈ c.sb, e.freed = false ∧ ∃ r ∈ e.reads ++ e.writes, r.handle = (c.xr 1).toNat) ∧
    -- SBAR and GSYNC: not a member, a first arrival, a released dike
    ((holding ctx1).sp (holding ctx1).cur).groupMap ((ctx1.xr 1).toNat % 256) = none ∧
    (let c := { ctx1 with x := [(1, 1)] }; let s := grouped c group0
     s.ctx s.cur = some c ∧ (s.sp s.cur).groupMap ((c.xr 1).toNat % 256) = some (5, 0) ∧ KMap.find 5 c.sbar = none ∧ c.sb = [] ∧
      s.part (s.partOf c) = some { part3 with groups := [(5, group0)] } ∧ KMap.find 5 ({ part3 with groups := [(5, group0)] } : Part).groups = some group0 ∧
      s.cur ∉ group0.arrived) ∧
    KMap.find 5 { ctx1 with sbar := [(5, 2)] }.sbar = some 2 := by decide +kernel

theorem test_WaitingInstructions_sync_witness :
    let c := { ctx1 with x := [(1, 7), (2, 7)] }
    let s := fun (l : List (Nat × Nat × List (Nat × Bool) × List (Nat × Bool))) => { launched { part3 with sync := l } c with launches := [launchSeg] }
    (s []).ctx (s []).cur = some c ∧ (s []).launchOf c.launch = some launchSeg ∧ (∃ g ∈ launchSeg.segs, g.sync = 7) ∧ 7 < 0xFFFF ∧ (c.xr 1).toNat = 7 ∧ (c.xr 2).toNat < 8 ∧
    (s []).part ((s []).partOf c) = some { part3 with sync := [] } ∧ ({ part3 with sync := [] } : Part).syncOf c.launch 7 = ([], []) ∧
    ({ part3 with sync := [(1, 7, [(9, false)], [])] } : Part).syncOf c.launch 7 = ([(9, false)], []) ∧ 9 ≠ (s []).cur ∧
    ({ part3 with sync := [(1, 7, [(0, true)], [])] } : Part).syncOf c.launch 7 = ([((s []).cur, true)], []) ∧ c.sb = [] ∧ (s []).accs = [] := by decide

/-- A token table of 2^8 entries at 0x10_0000, with the entry of region 1. -/
def tokened (held : Nat) : State :=
  { launched { part3 with toktab := 0x8000000000100008 } { ctx1 with x := [(1, 0x200000)] } with
    launches := [launchSeg]
    mem := Memory.write (Memory.write (Memory.write [] 0x100020 (toBytes 8 0x200001)) 0x10002B [BitVec.ofNat 8 held]) 0x100030 (toBytes 8 1) }

theorem test_WaitingInstructions_token_witness :
    (let c := { ctx1 with x := [(1, 0x200000)] }
     (tokened 0).ctx (tokened 0).cur = some c ∧ (holding ctx1).tokIa ctx1 (ctx1.xr 1) = none ∧ (tokened 0).tokIa c (c.xr 1) = some 0x200000 ∧ iaWindow 0x200000 = 0 ∧
      KMap.find 1 { c with tokens := [(1, 1)] }.tokens = some 1 ∧ KMap.find 1 c.tokens = none ∧
      (∃ e, (tokened 0).tokEntry { part3 with toktab := 0x8000000000100008 } (0x200000 / 2 ^ 21) = some e ∧ e.held = false) ∧
      (∃ e, (tokened 1).tokEntry { part3 with toktab := 0x8000000000100008 } (0x200000 / 2 ^ 21) = some e ∧ e.held = true ∧ e.rank = c.rank ∧ e.launch = c.launch ∧
        (e.rank ≠ 1 ∨ e.launch ≠ 1))) ∧
    (let w : Wait := ⟨.tacq 1 2 3, 0x200000, 0, 0, 0, some 1000000, none⟩
     let c := { ctx1 with wait := some w }
     { tokened 0 with sps := [(0, { Sp.init with ctx := some c })] }.ctx 0 = some c ∧ w.limit = some 1000000 ∧ 1000000 ≤ (tokened 0).now ∧
      (tokened 0).tokIa c w.rs1 = some 0x200000) ∧
    (let w : Wait := ⟨.fencex 1 2, 63, 0, 0, 0, none, none⟩; w.instr = .fencex 1 2 ∧ w.rs1.toNat < 64) :=
  ⟨⟨by decide, by decide, by decide, by decide, by decide, by decide, ⟨_, rfl, by decide⟩, ⟨_, rfl, by decide, by decide, by decide, by decide⟩⟩, by decide, by decide⟩

/-- The token table's page is here, and at the destination of a migration it is not. -/
theorem test_WaitingInstructions_absent_table_witness :
    let p := { part3 with toktab := 0x8000000000100008 }
    let q := { p with migr := { Migr.init with role := 2, pages := [0x10] } }
    p.tokAbsent (0x200000 / 2 ^ 21) = none ∧ p.tokWait = [] ∧ (q.tokAbsent (0x200000 / 2 ^ 21)).isSome = true ∧
    (let s := { tokened 0 with parts := [(3, q)] }
     let c := { ctx1 with x := [(1, 0x200000)] }
     s.ctx s.cur = some c ∧ s.part (s.partOf c) = some q ∧ s.tokIa c (c.xr 1) = some 0x200000 ∧ iaWindow 0x200000 = 0 ∧ KMap.find 1 c.tokens = none ∧
      (s.tokEntry q (0x200000 / 2 ^ 21)).isSome = true) := by decide

/-- The bundle issues once at each of its SPs: what every obligation about a slot supposes of the state (`SlotRule`), those without a witness of their own
among them: SequencerAndDescriptorReads, EndTrapYieldDecouple, VectorMixedWidthResults, VectorFloatingPointResults, VectorConversionAndSpecialResults,
VectorReductionAndMovementResults, KernelCopySlot. -/
theorem test_slot_obligations_witness : (holding running1).issue.Nodup ∧ { holding running1 with issue := [0, 1, 2, 3] }.issue.Nodup := by decide

theorem test_UniformArithmeticResults_witness : (holding running1).issue.Nodup ∧ 2 ^ 14 - 1 < 2 ^ 14 ∧ 2 ^ 18 - 1 < 2 ^ 18 ∧ 2 ^ 24 - 1 < 2 ^ 24 := by decide

theorem test_ConditionAndPredicateResults_witness : (holding running1).issue.Nodup ∧ 2 ^ 12 - 1 < 2 ^ 12 ∧ 3 < 4 := by decide

theorem test_MatrixParameterAndStatusSlots_witness : (holding running1).issue.Nodup ∧ 2 ^ 13 - 1 < 2 ^ 13 := by decide

theorem test_BranchSlots_witness : (holding running1).issue.Nodup ∧ 2 ^ 19 - 1 < 2 ^ 19 := by decide

theorem test_LoopSlots_witness : (holding running1).issue.Nodup ∧ (0 < 2 → 0 = 0) ∧ (2 < 2 → 7 = 0) ∧ 2 < 3 ∧ 1 < 2 := by decide

theorem test_SyncAndRejoin_witness :
    (holding running1).issue = [0] ∧ (holding running1).ctx 0 = some running1 ∧ (holding running1).leader = some (0, running1) ∧
    (!(running1.kern.predOn 0 && running1.kern.firstRound) || ((holding running1).sp 0).fused || decide (((holding running1).tower 0).length ≤ 1)) = true ∧
    (let s := fun (d : Ctx) => { holding running1 with
        sps := [(0, { Sp.init with ctx := some running1, tower := [0, 1] }), (1, { Sp.init with ctx := some d, tower := [0, 1] })] }
     let dead := { ctx1 with kern := { Kern.init with phase := .ending, ends := true } }
     (running1.kern.predOn 0 && running1.kern.firstRound) = true ∧ ((s dead).sp 0).fused = false ∧ 1 < ((s dead).tower 0).length ∧ ((s dead).tower 0).Nodup ∧
      1 ∈ (s dead).tower 0 ∧ (s dead).ctx 1 = some dead ∧ dead.launch = running1.launch ∧ dead.kern.phase = .ending ∧ dead.kern.ends = true ∧
      (s running1).ctx 1 = some running1 ∧ ((s running1).sp 1).victims = [] ∧ running1.kern.phase ≠ .ending) := by decide

theorem test_ClusterScalarResults_witness : (holding running1).issue.Nodup ∧ 2 ^ 12 - 1 < 2 ^ 12 ∧ 2 ^ 24 - 1 < 2 ^ 24 ∧ 63 < 64 := by decide

theorem test_IndexArithmeticResults_witness : (holding running1).issue.Nodup ∧ 2 ^ 10 - 1 < 2 ^ 10 ∧ 2 ^ 24 - 1 < 2 ^ 24 ∧
    ((List.range 32).filter fun j => (5 : Nat).testBit j).length ≤ 2 ∧ 1 < ((List.range 32).filter fun j => (5 : Nat).testBit j).length := by decide

theorem test_GatherRequestSlots_witness : (holding running1).issue.Nodup ∧ 2 ^ 10 - 1 < 2 ^ 10 := by decide

theorem test_VectorIntegerResults_witness : (holding running1).issue.Nodup ∧ 0 < 8 ∧ 255 < 2 ^ 8 ∧ 3 < 8 := by decide

theorem test_IntegerSumsAndExtremes_witness :
    (let l : List Elem := [(255, 0), (1, 0), (7, 0), (128, 0)]
     0 < 4 ∧ l.length = 2 ^ 2 ∧ (∀ x ∈ l, x.1 < 2 ^ (8 * typeBytes 0)) ∧ ((VEnv.mk 0 0 false 0 [true, true, true, true]).t < 4) ∧
      ∃ q ∈ l.zip [true, false, true, true], q.2 = true) ∧
    (let x := [255, 1, 7, 128]; 3 < 4 ∧ x.length = 2 ^ 2 ∧ (∀ v ∈ x, v < 2 ^ (8 * typeBytes 3)) ∧ 3 < 2 ^ 2) := by decide

theorem test_SwitchResults_witness : (holding running1).issue.Nodup ∧ 2 ^ 8 - 1 < 2 ^ 8 := by decide

/-- Port 0 reads polder 5. -/
def ported (q : Polder) (d : Desc) : Ctx :=
  { running1 with polders := [(5, q)], kern := { running1.kern with ports := [(0, { d with polder := some 5 })] } }

theorem test_StreamPortSlots_witness : (holding running1).issue.Nodup ∧ 2 ^ 11 - 1 < 2 ^ 11 ∧ 2 ^ 24 - 1 < 2 ^ 24 ∧
    (let c := ported polder0 Desc.init; c.descPolder (c.kern.port 0) = some polder0 ∧ polder0.kind = 0) ∧
    (let c := ported queue0 Desc.init; (c.kern.port 0).polder = some 5 ∧ c.polder 5 = some queue0 ∧ queue0.kind ≠ 0) := by decide

theorem test_StreamPortLimits_witness : 4 ≤ 4 ∧ polder0.kind = 0 ∧
    (let q := { queue0 with head := 3, tail := 2 ^ 32 - 1, eos := true }; q.kind ≠ 0 ∧ q.head ≤ q.tail ∧ q.tail < 2 ^ 32 ∧ q.eos = true ∧ q.kind = 2 ∧ queue0.eos = false) ∧
    (let c := ported polder0 { Desc.init with pos := 4, len := 4 }; c.descPolder (c.kern.port 0) = some polder0 ∧ (c.kern.port 0).pos ≤ (c.kern.port 0).len) ∧
    (let c := ported queue0 Desc.init; (c.kern.port 0).polder = some 5 ∧ c.polder 5 = some queue0 ∧ queue0.kind ≠ 0) := by decide

theorem test_DirectAccessAndQueueSlots_witness : (holding running1).issue.Nodup ∧ [0, 3, 15].Pairwise (· < ·) ∧
    (∀ cl ∈ [0, 3, 15], KMap.find cl ([(1, 7)] : KMap Nat) = none) ∧ (0 ∈ [0, 3, 15] ∧ 15 ∈ [0, 3, 15]) := by decide

theorem test_MatrixSlots_witness : (holding running1).issue.Nodup ∧ 3 < 4 := by decide

/-- A call on rings 0 and 1 (ports of polder 5), and a routine that runs it. -/
def call0 : MCallE := ⟨0, false, 0, 0, 4, 0, 1, false, false, [], 0, false, 0⟩

def routine0 : Routine :=
  { call := call0, words := List.replicate 8 0, pc := 0, k := [], loops := [], gbase := 0, sel := 0, curA := 0, curB := 0, highA := 0, highB := 0,
    checked := none, bmap := 0, blen := 0, wms := [], cycles := 0, wait := 0, done := false, firstSet := false }

/-- It runs over two operand rings of 32-bit records, each with `n` records to be read. -/
def routined (n : Nat) (r : Routine) : Ctx :=
  let d : Desc := { Desc.init with polder := some 5, fmt := 4, recn := 1024, tile := 1 }
  { ctx1 with
    polders := [(5, { queue0 with log2 := 22, tail := n, eos := true })]
    kern := { Kern.init with phase := .running, ports := [(0, d), (1, d)] }
    matrix := { Matrix.init with run := some r, wm := [(0, 0)] } }

theorem test_MicroOpsThatSteer_witness :
    (let c := routined 1 routine0
     (holding c).ctx (holding c).cur = some c ∧ c.matrix.run = some routine0 ∧ routine0.cycles < 4096 ∧ { routine0 with cycles := 4095 }.cycles < 4096 ∧
      (c.kern.port 0).polder = some 5 ∧ ∃ q, c.polder 5 = some q ∧ ringCount routine0 0 1 ≤ availRecs (c.kern.port 0) q ∧ availRecs (c.kern.port 0) q < ringCount routine0 0 2) ∧
    (let c := { routined 1 routine0 with polders := [(5, { queue0 with log2 := 22 })] }
     ∃ q, c.polder 5 = some q ∧ availRecs (c.kern.port 0) q < ringCount routine0 0 1 ∧ (q.kind = 2 → q.eos = false)) ∧
    3 < routine0.call.span ∧ routine0.pc + 7 < routine0.words.length ∧ (∀ l ∈ routine0.loops, routine0.pc + 7 ≤ l.stop) ∧ routine0.loops.length < 2 ∧
    32 ≤ 32 ∧ routine0.wms = [] ∧
    (let u : AccUpd := { left := 1, owner := 0, no := 0, kind := 0, mode := 0, exposed := true, tile := routine0.selTile, row0 := 24, sums := [], factor := 0, flags := 0 }
     let m := { Matrix.init with upd := [u], nextUpd := 1 }
     (∃ u ∈ m.upd, u.owner = routine0.call.id ∧ u.tile = routine0.selTile ∧ u.no < m.nextUpd ∧ u.row0 < 32) ∧
      (∀ u ∈ m.upd, u.owner = routine0.call.id → u.tile = routine0.selTile → u.no < m.nextUpd → 24 ≤ u.row0) ∧ m.younger routine0.call.id routine0.selTile = false) :=
  ⟨⟨by decide, by decide, by decide, by decide, by decide, _, rfl, by decide, by decide⟩, ⟨_, rfl, by decide, by decide⟩, by decide⟩

theorem test_MicroOpsThatUpdate_witness :
    (let c := routined 1 routine0
     (holding c).ctx (holding c).cur = some c ∧ c.matrix.run = some routine0 ∧ routine0.cycles < 4096 ∧ c.matrix.wmOf routine0.selTile ≤ 8 * routine0.group 0 ∧ 2 < 3 ∧
      routine0.call.spb = false ∧ ∃ q, c.descPolder (c.kern.port 0) = some q ∧
        2 ^ 31 ≤ dif32 routine0.curA ((q.head + availRecs (c.kern.port 0) q) % 2 ^ 32)) ∧
    (let r := { routine0 with call := { call0 with spb := true }, checked := some 0 }
     let c := routined 2 r
     c.matrix.run = some r ∧ r.call.spb = true ∧ r.checked = some r.curB ∧ r.cycles < 4095 ∧ ∃ q, c.descPolder (c.kern.port 0) = some q ∧
      2 ^ 31 ≤ dif32 r.curB ((q.head + availRecs (c.kern.port 0) q) % 2 ^ 32) ∧ 2 ^ 31 ≤ dif32 r.curA ((q.head + availRecs (c.kern.port 0) q) % 2 ^ 32) ∧
      2 ^ 31 ≤ dif32 (r.curA + 1) ((q.head + availRecs (c.kern.port 0) q) % 2 ^ 32)) :=
  ⟨⟨by decide, by decide, by decide, by decide, by decide, by decide, _, rfl, by decide⟩, by decide, by decide, by decide, by decide, _, rfl, by decide, by decide,
    by decide⟩

theorem test_MatrixRoutineErrors_witness :
    (let r := { routine0 with loops := [⟨1, 0, 3⟩] }
     let c := { routined 1 r with matrix := { Matrix.init with run := some r } }
     (holding c).ctx (holding c).cur = some c ∧ c.matrix.run = some r ∧ ((holding c).sp 0).fused = false ∧ 4096 ≤ { r with cycles := 4096 }.cycles ∧
      { r with cycles := 4095 }.cycles < 4096 ∧ 32 < 33 ∧ r.call.span ≤ 4 ∧ 8 * r.group 0 < c.matrix.wmOf r.selTile ∧ r.words.length ≤ r.pc + 8 ∧
      ∃ l ∈ r.loops, l.stop < r.pc + 4) := by decide

/-- The last bundle of a running kernel has passed: its address is 0, and `l` are the loops that are open. -/
def passed (l : List LoopE) : Ctx := { ctx1 with kern := { Kern.init with phase := .running, last := some 0, loops := l } }

theorem test_BackEdgeDecision_witness :
    (let e : LoopE := ⟨0, 0, 2, 2, 0, 2, 0, 0⟩
     let c := passed [e]
     let s := holding c
     e.stop = 0 ∧ 1 < e.remaining ∧ { e with remaining := 1 }.remaining ≤ 1 ∧ { e with stop := 1 }.stop ≠ 0 ∧
      (s.issueGroup 0).Nodup ∧ (s.issueGroup 0).head? = some 0 ∧ s.ctx 0 = some c ∧ c.kern.phase = .running ∧ c.kern.gap = 0 ∧ c.kern.last = some 0 ∧
      c.kern.ends = false ∧ c.kern.yielded = false ∧ c.kern.loops = [e] ∧ c.kern.xfer = none ∧ s.issueGroup 0 = [0] ∧ c.kern.lock = none ∧ c.kern.trapN = none) := by decide

theorem test_KernelRoundingMode_witness : (holding running1).issue.Nodup ∧
    (let c := { running1 with kern := { running1.kern with land := [⟨1, false, .kmode 3⟩] } }
     (holding c).ctx 0 = some c ∧ c.kern.phase = .running ∧ c.kern.land = [⟨1, false, .kmode 3⟩]) := by decide

/-- A kernel command of the kernel numbered 0. -/
def krun0 : Entry := { entry0 with instr := .krun 1 2 3, cls := 1, state := .running }

theorem test_KernelSteps_issue_witness :
    (let e := { entry0 with state := .waiting }
     let c := { ctx1 with sb := [e] }
     (holding c).ctx 0 = some c ∧ c.halted = false ∧ c.sb = [e] ∧ e.freed = false ∧ e.state = .waiting ∧ c.kern.kcq = [] ∧ ((holding c).sp 0).left = none ∧
      ((holding c).sp 0).victims = [] ∧ (e.cls = 0 ∨ e.cls = 1 ∧ c.preempt = none)) ∧
    (let c := { ctx1 with sb := [krun0] }
     let s := launched part3 c
     (s.sp 0).tower = [] ∧ s.ctx 0 = some c ∧ c.kern.phase = .idle ∧ c.pipe = none ∧ c.sweep = none ∧ c.kernelEntry = some krun0 ∧ krun0.instr = .krun 1 2 3 ∧
      krun0.status = 0 ∧ s.codeOfCtx c = some code1 ∧ code1.ktab[krun0.rs1.toNat % 256]? = some ⟨0, 64, false⟩) := by decide

/-- An empty bundle (header 0) stands at address 0 of a kernel that runs exposed, within its bounds or outside of them. -/
def exposed1 (bound : Dword) : Ctx := { running1 with cbound := bound, kern := { running1.kern with hi := 64 } }

theorem test_KernelSteps_bundle_witness :
    (let c := exposed1 64
     let s := holding c
     (s.sp 0).fused = false ∧ s.ctx 0 = some c ∧ c.kern.phase = .running ∧ c.kern.gap = 0 ∧ c.kern.last = none ∧ c.kern.dike = none ∧ c.kern.rejoin = false ∧
      c.kern.ends = false ∧ c.kern.trapN = none ∧ { s with issue := [0] }.headFault 0 c (s.bundleAt c.kern.pc) = none ∧ (s.bundleAt c.kern.pc).slots = [] ∧
      c.kern.exposed = true ∧ c.kern.land = [] ∧ c.kern.lock = none) ∧
    (let c := exposed1 0
     let s := holding c
     (∃ f, { s with issue := [0] }.headFault 0 c ({ s with issue := [0] }.bundleAt c.kern.pc) = some f) ∧ c.cbase.toNat ≤ c.kern.pc ∧
      c.cbound.toNat < c.kern.pc + bundleLen (s.codeNat c.kern.pc 2)) := ⟨by decide, ⟨_, rfl⟩, by decide, by decide⟩

theorem test_KernelSteps_transfer_witness :
    (let c := { passed [] with kern := { (passed []).kern with xfer := some ⟨8, 0⟩ } }
     let s := holding c
     (s.issueGroup 0).Nodup ∧ s.issueGroup 0 = [0] ∧ s.ctx 0 = some c ∧ c.kern.phase = .running ∧ c.kern.gap = 0 ∧ c.kern.last = some 0 ∧ c.kern.ends = false ∧
      c.kern.yielded = false ∧ c.kern.lock = none ∧ c.kern.trapN = none ∧ c.kern.xfer = some ⟨8, 0⟩) ∧
    (let l : LockSec := ⟨0, [0], [1], 0, true, false⟩
     let c := { passed [] with kern := { (passed []).kern with lock := some l } }
     let s := holding c
     (s.sp 0).fused = false ∧ s.ctx 0 = some c ∧ c.kern.phase = .running ∧ c.kern.gap = 0 ∧ c.kern.last = some 0 ∧ c.kern.lock = some l ∧ l.closing = true ∧ l.waiting ≠ []) := by decide

theorem test_KernelSteps_release_witness :
    (let g : Group := { group0 with full := true, arrived := [0], last := 1000000 - 40 }
     let c := { running1 with kern := { running1.kern with dike := some (5, 0) } }
     let s := grouped c g
     s.part 3 = some { part3 with groups := [(5, g)] } ∧ g.full = true ∧ g.last + 40 ≤ s.now ∧ g.members = [0] ∧ s.ctx 0 = some c ∧ c.launch = g.launch ∧
      c.kern.dike = some (5, 0) ∧ c.preempt = none ∧ (s.sp 0).victims = []) ∧
    (let p := { Sp.init with ctx := some running1, tower := [0, 1], line := [0, 1], lineAt := 1000000 - 40 }
     let s := withSp0 p
     (s.sp 0).tower.Nodup ∧ (s.sp 0).tower.head? = some 0 ∧ 2 ≤ (s.sp 0).tower.length ∧ (s.sp 0).tower.length ≤ (s.sp 0).line.length ∧ (s.sp 0).lineAt + 40 ≤ s.now ∧
      s.ctx 0 = some running1) := by decide

theorem test_KernelSteps_completion_witness :
    (let c := { ctx1 with sb := [krun0], kern := { Kern.init with phase := .ending, ports := [(0, Desc.init)] } }
     let s := holding c
     (s.sp 0).tower = [] ∧ s.ctx 0 = some c ∧ c.pipe = none ∧ c.kern.phase = .ending ∧ c.kern.gap = 0 ∧ c.kern.land = [] ∧ c.kern.kcq = [] ∧ c.kern.stage = none ∧
      c.matrix.outstanding = [] ∧ c.sb = [krun0] ∧ krun0.kcopy = none ∧ krun0.freed = false ∧ krun0.cls = 1 ∧ krun0.state = .running ∧ krun0.instr = .krun 1 2 3 ∧
      c.kern.ports = [(0, Desc.init)] ∧ 0 = (if c.kern.status ≠ 0 then c.kern.status else c.kern.kcStatus)) ∧
    (let e := { krun0 with instr := .kpipe 1 2 3 }
     let st : Stage := ⟨true, 0, 0, 1, 0, false, none⟩
     let c := { ctx1 with sb := [e], pipe := some ⟨0, some 1000000, false, none⟩, stages := [(7, st)] }
     ((holding c).sp 0).tower = [] ∧ (holding c).ctx 0 = some c ∧ c.pipe = some ⟨0, some 1000000, false, none⟩ ∧ 1000000 ≤ (holding c).now ∧ c.kern.phase = .idle ∧
      c.kern.stage = none ∧ c.kern.kcq = [] ∧ c.kern.kcStatus = 0 ∧ e.kcopy = none ∧ c.sb = [e] ∧ e.freed = false ∧ e.cls = 1 ∧ e.state = .running ∧ e.instr = .kpipe 1 2 3 ∧ e.seq = 0 ∧ 7 < 8 ∧ c.stages = [(7, st)] ∧ st.declared = true ∧
      st.finished = false ∧ st.remaining ≠ 0 ∧ st.suspended = none ∧ st.rs2 = 0) ∧
    (let q : Pipe := ⟨0, some 1000000, true, none⟩; q.halted = true ∧ krun0.descs = []) ∧
    (let c := { ctx1 with wdog := 2 ^ 27 }
     let s := launched part3 c
     s.ctx 0 = some c ∧ 2 ^ c.mwdog ≤ c.wdog ∧ s.launchOf c.launch = some launch1 ∧ launch1.cause = none) := by decide

/-- A copy that runs, with the descriptor of one record of 8 bytes on polder 5. -/
def copy0 (i : Instr) : Entry :=
  { entry0 with instr := i, state := .running, rs1 := 0x7FFFFFFFFFF8, descs := [(16, { Desc.init with polder := some 5, len := 1, recn := 2, mfmt := 5 })] }

def copying (e : Entry) : Ctx := { ctx1 with sb := [e], polders := [(5, polder0)] }

theorem test_CopyAndQueueSteps_copy_witness :
    (let e := { copy0 (.sload 1 0 2 3) with rec_ := 1 }
     let c := copying e
     let s := launched part3 c
     s.ctx 0 = some c ∧ c.halted = false ∧ c.sb = [e] ∧ e.cls = 0 ∧ e.state = .running ∧ e.kcopy = none ∧ e.rec_ = e.recs ∧ e.flight = 0 ∧ (s.sp 0).victims = [] ∧
      s.accs = [] ∧ s.part (s.partOf c) = some part3 ∧ part3.migr.role = 0) ∧
    (let e := copy0 (.sload 1 0 2 3)
     let c := copying e
     let s := holding c
     s.ctx 0 = some c ∧ c.sb = [e] ∧ e.seq = 0 ∧ e.rec_ = 0 ∧ e.off = 0 ∧ e.desc.len = 1 ∧ e.recs = 1 ∧ e.desc.polder = some 5 ∧ c.polder 5 = some polder0 ∧
      polder0.kind = 0 ∧ e.desc.idx / 16 % 2 = 0 ∧ 0 < e.desc.memRecBytes ∧ e.desc.memRecBytes ≤ 64 - e.rs1.toNat % 64 ∧ e.rs1.toNat < 2 ^ 47 ∧
      (s.sp 0).victims = [] ∧ s.accs = [] ∧ s.launchOf c.launch = none ∧ s.part (s.partOf c) = none) ∧
    (let e := { copy0 (.sstore 1 0 2 3) with rec_ := 1, flight := 1 }
     let c := copying e
     let a := { acc0 with kind := .write, state := 3, ready := 1000000 }
     let s := { holding c with accs := [a] }
     s.ctx 0 = some c ∧ s.accs = [a] ∧ a.src = .copy 0 c.launch 0 0 0 ∧ a.kind = .write ∧ a.state = 3 ∧ a.status = 0 ∧ { a with status := 4 }.status ≠ 0 ∧ a.ready ≤ s.now ∧ a.bar = 0 ∧
      a.flags = 0 ∧ c.sb = [e] ∧ e.cls = 0 ∧ e.state = .running ∧ e.kcopy = none ∧ e.rec_ = e.recs ∧ 0 < e.flight) := by decide

theorem test_CopyAndQueueSteps_scopy_witness :
    (let e := { copy0 (.scopy 1 0 2 3) with rec_ := 1, flight := 1 }
     let c := copying e
     let a := { acc0 with state := 3 }
     let s := { holding c with accs := [a] }
     s.ctx 0 = some c ∧ c.halted = false ∧ s.accs = [a] ∧ a.src = .copy 0 c.launch 0 0 0 ∧ a.kind = .read ∧ a.state = 3 ∧ a.status = 0 ∧ a.ready ≤ s.now ∧ a.bar = 0 ∧
      c.sb = [e] ∧ e.cls = 0 ∧ e.instr = .scopy 1 0 2 3 ∧ s.launchOf c.launch = none ∧ e.state = .running ∧ { e with state := .parked }.state = .parked) ∧
    (let q : KCopy := ⟨Desc.init, Desc.init, 1, 0⟩
     let c := { running1 with kern := { running1.kern with kcq := [q] } }
     (holding c).ctx 0 = some c ∧ c.kern.kcq = [q] ∧ ((holding c).sp 0).agUsed < 2) := by decide

theorem test_CopyAndQueueSteps_gather_witness :
    (let r : AqReq := ⟨true, 0, 8, 5, 0, 0, 0, 0⟩
     let c := { running1 with polders := [(5, polder0)], aq := [(15, [r]), (3, [{ r with srf := false }])] }
     let s := holding c
     s.ctx 0 = some c ∧ c.halted = false ∧ c.kern.phase = .running ∧ (∀ x ∈ c.dqOf 15, x.state ≠ 2) ∧ (c.dqOf 15).length < 32 ∧ c.aqOf 15 = [r] ∧ r.srf = true ∧
      r.handle = 5 ∧ c.polder 5 = some polder0 ∧ c.aqOf 3 = [{ r with srf := false }] ∧ s.launchOf c.launch = none ∧ (∀ b ∈ s.accs, b.id < s.nextAcc)) := by decide

theorem test_CopyAndQueueSteps_landing_witness :
    (let r : AqReq := ⟨false, 0, 8, 0, 0, 0, 0, 0⟩
     let c := { running1 with dq := [(15, [r])] }
     let a := { acc0 with src := .gather 0 1 15, state := 3 }
     let s := { holding c with accs := [a] }
     s.ctx 0 = some c ∧ s.accs = [a] ∧ a.src = .gather 0 c.launch 15 ∧ a.state = 3 ∧ a.ready ≤ s.now ∧ a.bar = 0 ∧ c.stages = [] ∧ c.dq = [(15, [r])] ∧ r.acc = a.id ∧
      r.state = 0 ∧ r.srf = false) := by decide

theorem test_CopyAndQueueSteps_sweep_witness :
    (let e := { entry0 with instr := .svadd 1 2 3, cls := 1, state := .running, descs := [(0, { Desc.init with polder := some 5 })] }
     let w : Sweep := ⟨0, 1, 1, [(1000000, [(0, 2, 7)], 0)]⟩
     let c := { copying e with sweep := some w }
     (holding c).ctx 0 = some c ∧ c.sb = [e] ∧ e.freed = false ∧ e.cls = 1 ∧ e.state = .running ∧ e.instr = .svadd 1 2 3 ∧ c.sweep = some w ∧ ((holding c).sp 0).tower = [] ∧
      (KMap.get Desc.init e.descs 0).polder = some 5 ∧ c.polder 5 = some polder0 ∧ w.writes = [(1000000, [(0, 2, 7)], 0)] ∧ 1000000 ≤ (holding c).now ∧ w.next = w.stop ∧
      (let v := { w with next := 0, writes := [] }; v.writes = [] ∧ v.next < v.stop ∧ e.issued + 4 + v.next ≤ (holding c).now)) := by decide

theorem test_CopyAndQueueSteps_mload_witness :
    (let e := { entry0 with instr := .mload 1 2 3, cls := 3, state := .running, size := 1000000, rs2 := 0xFFFFF }
     let c := { ctx1 with sb := [e] }
     let s := launched part3 c
     s.ctx 0 = some c ∧ c.sb = [e] ∧ e.cls = 3 ∧ e.state = .running ∧ e.size ≤ s.now ∧ s.part (s.partOf c) = some part3 ∧ part3.migr.role = 0 ∧
      255 = e.rs2.toNat % 2 ^ 8 ∧ 4096 = e.rs2.toNat / 2 ^ 8 % 2 ^ 12 + 1) := by decide

/-- An empty store takes a routine of one word at word 0. -/
theorem test_CopyAndQueueSteps_store_witness : ({ Sp.init with rtab := [] }.storePlace 0 1).isSome = true := by decide

theorem test_TaskInstructions_spawn_witness :
    (let c := { ctx1 with x := [(1, 0x10000000E), (2, 0x37FF8)] }
     let s := grouped c group0
     s.ctx s.cur = some c ∧ s.codeOfCtx c = some code1 ∧ (c.xr 1).toNat = 14 + 2 ^ 32 * 1 ∧ 1 < 256 ∧ 14 < 2 ^ 32 ∧ 14 % 2 = 0 ∧ 14 < code1.ctrl.length ∧
      (c.xr 2).toNat % 8 = 0 ∧ (c.xr 2).toNat < 0x38000 ∧ (s.sp s.cur).groupMap 1 = some (5, 0) ∧ s.part (s.partOf c) = some { part3 with groups := [(5, group0)] } ∧
      group0.pool.length < 4096 ∧ (s.sp s.cur).groupMap 0 = none) := by decide

theorem test_TaskInstructions_full_pool_witness : 4096 ≤ { group0 with pool := List.replicate 4096 (0, [], 1) }.pool.length := le_of_eq List.length_replicate.symm

theorem test_TaskInstructions_weight_witness :
    (let c := { ctx1 with hw := 2, x := [(1, 1), (2, 2)] }
     (holding c).ctx (holding c).cur = some c ∧ 1 ≤ (c.xr 1).toNat ∧ (c.xr 1).toNat + 1 ≤ c.hw ∧ ((c.xr 2).toNat = 0 ∨ c.hw ≤ (c.xr 2).toNat)) ∧
    2 ^ 63 ≤ { ctx1 with hw := 2 ^ 63 }.hw ∧ { ctx1 with hw := 2 ^ 63 - 1 }.hw < 2 ^ 63 := by decide

theorem test_TaskInstructions_exit_witness :
    (∃ e ∈ { ctx1 with sb := [entry0] }.sb, e.freed = false) ∧
    (let s := launched part3 ctx1
     s.ctx s.cur = some ctx1 ∧ ctx1.sb = [] ∧ s.accs = [] ∧ s.launchOf ctx1.launch = some launch1 ∧ launch1.cause = none ∧ launch1.ret + ctx1.hw = launch1.t ∧
      launch1.ret + { ctx1 with hw := 1 }.hw ≠ launch1.t) := by decide

theorem test_TaskInstructions_take_witness :
    (let g := { group0 with pool := [(0, [1], 1)] }
     let p := { part3 with groups := [(5, g)] }
     let s := { launched p ctx1 with
       sps := [(0, { Sp.init with left := some ctx1, idle := true, held := some 1, dikes := [(0, 5)] })] }
     s.part 3 = some p ∧ p.migr.role = 0 ∧ p.sps = [0] ∧ (s.sp 0).idle = true ∧ s.ctx 0 = none ∧ (s.sp 0).left = some ctx1 ∧ (s.sp 0).fused = false ∧
      (s.sp 0).victims = [] ∧ (s.sp 0).held = some launch1.id ∧ s.launchOf launch1.id = some launch1 ∧ launch1.state = 1 ∧ s.codeOf launch1 = some code1 ∧
      KMap.find 0 (s.sp 0).dikes = some 5 ∧ KMap.find 5 p.groups = some g ∧ g.launch = launch1.id ∧ g.pool = [(0, [1], 1)]) := by decide

theorem test_TaskInstructions_status_witness :
    ctx1.mpreq = false ∧ (let c := { ctx1 with mpreq := true }; c.mpreq = true ∧ c.preempt = none ∧ c.squash = none ∧ { c with preempt := some 3 }.preempt ≠ none) ∧
    (let c := { ctx1 with x := [(1, 1), (2, 2), (3, 15), (4, 3), (5, 16)] }
     (c.xr 0).toNat = 0 ∧ (c.xr 1).toNat = 1 ∧ c.stopped = false ∧ (∀ e ∈ c.sb, e.cls ≠ 1) ∧ { c with stopped := true }.stopped = true ∧ (c.xr 2).toNat = 2 ∧
      c.spire.phase < 4 ∧ 7 < 8 ∧ (c.xr 3).toNat = 8 + 7 ∧ (2 < (c.xr 4).toNat ∧ (c.xr 4).toNat < 8 ∨ 16 ≤ (c.xr 4).toNat) ∧
      (2 < (c.xr 5).toNat ∧ (c.xr 5).toNat < 8 ∨ 16 ≤ (c.xr 5).toNat)) := by decide

/-- A reference to no arrival word, and an operand that no command takes. -/
def noArrive : Dword := 0x8000000000000000

theorem noArrive_good (c : Ctx) (b : Bool) : ¬BadRef c b noArrive := fun h => absurd h.1 (by decide)

theorem test_CommandsEnterTheScoreboard_witness :
    -- all 64 places in use or reserved, and room
    (let c := { ctx1 with used := 61, recent := [1, 1, 1] }; (holding c).ctx (holding c).cur = some c ∧ 64 ≤ c.used + c.recent.sum) ∧
    ((holding ctx1).ctx (holding ctx1).cur = some ctx1 ∧ ctx1.used + ctx1.recent.sum < 64) ∧
    -- a condition applies, and none does: SPDRAIN
    (FirstOf [(BadRef ctx1 false noArrive, 4)] 0 ∧ FirstOf [(BadRef ctx1 false 0x7FFFFFFFFFFFFFFF, 4)] 4) ∧
    -- a copy whose descriptor names no polder, and a descriptor that is good
    (Refused ctx1 true true (ctx1.descNo 0) ∧
      let c := { ctx1 with polders := [(5, polder0)] }
      let d := { Desc.init with polder := some 5, fmt := 5, mfmt := 5, recn := 1 }
      ¬Refused c true true d) :=
  ⟨by decide, by decide, ⟨.inr ⟨noArrive_good _ _, rfl⟩, .inl ⟨⟨by decide, .inl (by decide)⟩, rfl⟩⟩, .inl (by decide), fun h => by
    rcases h with h | h | h | h | h | ⟨p, h, h', -⟩ | h | h | h
    · revert h; decide
    · revert h; decide
    · exact absurd h.2 (by decide)
    · revert h; decide
    · exact absurd h.1 (by decide)
    · cases h; exact h' rfl
    · revert h; decide
    · revert h; decide
    · exact absurd h.1 (by decide)⟩

theorem test_CommandsEnterTheScoreboard_steps_witness :
    (ctx1.sysb = false ∧ ctx1.mmode = false) ∧
    (let c := { ctx1 with sysb := true, x := [(2, 0xFFFFF)] }
     (c.sysb = true ∨ c.mmode = true) ∧ c.used + c.recent.sum < 64 ∧ (c.xr 2).toNat < 2 ^ 20 ∧ (c.xr 1).toNat % 8 = 0 ∧
      4096 < ({ Sp.init with rtab := [(0, (0, 1))] }).usedWords + c.loadingWords + (c.xr 2).toNat / 2 ^ 8 % 2 ^ 12 + 1 ∧
      Sp.init.usedWords + ctx1.loadingWords + (ctx1.xr 2).toNat / 2 ^ 8 % 2 ^ 12 + 1 ≤ 4096) ∧
    -- KSTAGE: a stage is cleared, and operands that are turned away
    (let c := { ctx1 with x := [(1, 0x8000000000000700), (3, 0x800)] }
     (holding c).ctx (holding c).cur = some c ∧ (c.xr 1).getLsbD 63 = true ∧ (c.xr 1).toNat % 2 ^ 63 / 2 ^ 11 = 0 ∧ (c.xr 1).toNat % 2 ^ 8 = 0 ∧ c.xr 0 = 0 ∧
      (KMap.get Stage.init c.stages ((c.xr 1).toNat / 2 ^ 8 % 8)).suspended = none ∧ c.sb = [] ∧ (c.xr 3).getLsbD 63 = false ∧ (c.xr 3).getLsbD 11 = true) ∧
    -- KHALT: nothing runs, a command that has not begun, a kernel, a pipeline, a sweep
    ((∀ m ∈ (holding ctx1).tower (holding ctx1).cur, m = (holding ctx1).cur) ∧ ctx1.kernelEntry = none) ∧
    (let c := { ctx1 with sb := [krun0] }; c.kernelEntry = some krun0 ∧ c.kern.phase = .idle ∧ c.pipe = none ∧ c.sweep = none) ∧
    (let c := { ctx1 with sb := [krun0], kern := { Kern.init with phase := .running } }
     c.kernelEntry = some krun0 ∧ krun0.instr = .krun 1 2 3 ∧ c.kern.phase ≠ .idle) ∧
    (let e := { krun0 with instr := .kpipe 1 2 3 }
     let c := { ctx1 with sb := [e], pipe := some ⟨0, none, false, none⟩ }
     c.kernelEntry = some e ∧ e.instr = .kpipe 1 2 3 ∧ c.pipe = some ⟨0, none, false, none⟩) ∧
    (let e := { krun0 with instr := .svadd 1 2 3 }
     let c := { ctx1 with sb := [e], sweep := some ⟨0, 1, 4, []⟩ }
     c.kernelEntry = some e ∧ (∀ rd a b, e.instr ≠ .krun rd a b ∧ e.instr ≠ .kpipe rd a b) ∧ c.sweep = some ⟨0, 1, 4, []⟩) :=
  ⟨by decide, by decide +kernel, by decide, by decide, by decide, by decide, by decide, by decide, fun _ _ _ => ⟨Instr.noConfusion, Instr.noConfusion⟩, rfl⟩

theorem test_TaskInstructions_hint_witness :
    (let c := { ctx1 with x := [(1, 0xFFFFFFFFFFFF), (2, 1)] }
     (holding c).ctx (holding c).cur = some c ∧ (c.xr 1).toNat < 2 ^ 48 ∧ (c.xr 2).toNat % 2 ^ 32 ≠ 0) := by decide

theorem test_MatrixUnitSteps_witness :
    (let c := { ctx1 with matrix := { Matrix.init with queue := [call0, { call0 with zero := true }] }, polders := [(5, queue0)] }
     (holding c).ctx 0 = some c ∧ c.matrix.run = none ∧ c.matrix.queue = call0 :: [{ call0 with zero := true }] ∧ call0.from_ ≤ (holding c).now ∧ c.matrix.drain = none ∧
      call0.zero = false) ∧
    (let u : AccUpd := { left := 1, owner := 0, no := 0, kind := 0, mode := 0, exposed := true, tile := 3, row0 := 24, sums := [(15, 31, [])], factor := 0, flags := 0 }
     let c := { ctx1 with matrix := { Matrix.init with upd := [u] } }
     (holding c).ctx 0 = some c ∧ c.matrix.run = none ∧ c.matrix.retiring = [] ∧ c.matrix.upd = [u] ∧ u.left = 1 ∧ u.kind = 0 ∧ u.sums = [(15, 31, [])] ∧ u.flags = 0 ∧
      u.mode = 0 ∧ { u with mode := 1 }.mode ≠ 0 ∧ 1 < { u with left := 2 }.left) ∧
    (let r := { routine0 with highA := 1 }
     let c := { routined 1 r with matrix := { Matrix.init with retiring := [r] } }
     (holding c).ctx 0 = some c ∧ c.matrix.retiring = [r] ∧ c.matrix.run = none ∧ c.matrix.queue = [] ∧ (∀ u ∈ c.matrix.upd, u.owner ≠ r.call.id) ∧
      { call0 with keep := true }.keep = true ∧ r.call.keep = false ∧ r.call.zero = false ∧ 0 < r.highA ∧ r.highB = 0 ∧ (c.kern.port r.call.a).polder = some 5 ∧
      ∃ q, c.polder 5 = some q ∧ dif32 r.highA q.head < 2 ^ 31) :=
  ⟨by decide, by decide, by decide, by decide, by decide, by decide, by decide, by decide, by decide, by decide, by decide, by decide, by decide, _, rfl, by decide⟩

/-- A merge with one linear input of `n` records in polder 5. -/
def merging (phase n : Nat) : Ctx :=
  { ctx1 with
    polders := [(5, polder0)]
    spire := { Spire.init with phase := phase, limit := 8192, inputs := [⟨0, { Desc.init with polder := some 5, len := n }, 0, false⟩] } }

theorem test_SpireSteps_intake_witness :
    (let c := merging 1 1
     let i : SpIn := ⟨0, { Desc.init with polder := some 5, len := 1 }, 0, false⟩
     (holding c).ctx 0 = some c ∧ c.spire.phase = 1 ∧ c.spire.ready ≤ (holding c).now ∧ c.spire.stopped = false ∧ c.preempt = none ∧ c.spire.status = 0 ∧
      c.spire.job = none ∧ c.spire.inputs = [i] ∧ c.descPolder i.desc = some polder0 ∧ polder0.kind = 0 ∧ i.next + 1 = i.desc.len ∧ c.spire.window = [] ∧ 0 < c.spire.limit ∧
      -- a full window with nowhere to spill to: of one key, 7, where the record's is 0
      let d := { c with spire := { c.spire with limit := 1, window := [⟨7, 1, false, false, false, false, 1⟩] } }
      d.spire.window.length = d.spire.limit ∧ (∀ x ∈ d.spire.window, x.key ≠ rawElem ((holding d).sp 0).srf i.desc polder0 (2 * i.next)) ∧ d.spire.spillLen = 0) ∧
    (let c := merging 1 0
     let i : SpIn := ⟨0, { Desc.init with polder := some 5 }, 0, false⟩
     (holding c).ctx 0 = some c ∧ c.spire.inputs = [i] ∧ c.descPolder i.desc = some polder0 ∧ i.desc.len ≤ i.next ∧ c.mergeOpen = false ∧ c.spire.runs = [] ∧
      let d := { c with sb := [{ entry0 with rs1 := 0x2000000 }], spire := { c.spire with rs1 := 0x2000000 } }
      d.mergeOpen = true ∧ d.sb = [{ entry0 with rs1 := 0x2000000 }] ∧ entry0.seq = d.spire.seq) := by decide +kernel

/-- A parameter block with a spill area of 4,096 bytes at address 0. -/
def spillBlock : List Byte := toBytes 8 0 ++ toBytes 8 4096 ++ List.replicate 48 0

theorem test_SpireSteps_spill_witness :
    (let j : SpJob := ⟨0, [(0, [1])], [], 0, ⟨0, 1, 0, true⟩⟩
     let c := { ctx1 with spire := { Spire.init with phase := 1, job := some j } }
     let s := holding c
     s.ctx 0 = some c ∧ c.halted = false ∧ s.accs = [] ∧ s.launchOf c.launch = none ∧ c.spire.job = some j ∧ j.writes = [(0, [1])] ∧ j.reads = [] ∧ j.flight = 0) ∧
    (let j : SpJob := ⟨0, [], [], 0, ⟨0, 1, 0, true⟩⟩
     let c := { ctx1 with spire := { Spire.init with phase := 1, block := spillBlock, job := some j } }
     (holding c).ctx 0 = some c ∧ (holding c).accs = [] ∧ c.spire.job = some j ∧ j.kind = 0 ∧ j.writes = [] ∧ j.reads = [] ∧ j.flight = 0 ∧ c.spire.status = 0 ∧
      c.spire.spillLen ≠ 0) ∧
    (let r : SpRun := ⟨0, 1, 0, true⟩
     let j : SpJob := ⟨2, [], [], 0, r⟩
     let x : SpKey := ⟨7, 1, false, false, false, false, 1⟩
     let c := { ctx1 with spire := { Spire.init with phase := 3, block := spillBlock, runs := [r] } }
     let d := { ctx1 with spire := { c.spire with job := some j, back := [(0, x)] } }
     (holding c).ctx 0 = some c ∧ c.spire.phase = 3 ∧ c.spire.stopped = false ∧ c.spire.status = 0 ∧ c.spire.runs = [r] ∧ r.live = true ∧ c.spire.job = none ∧
      d.spire.job = some j ∧ j.kind = 2 ∧ j.flight = 0 ∧ j.reads = [] ∧ r.keys = 1 ∧ KMap.find r.off d.spire.back = some x ∧ d.spire.spillLen ≠ 0) := by decide

theorem test_SpireSteps_emit_witness :
    (let x : SpKey := ⟨7, 1, false, false, false, false, 1⟩
     let c := { ctx1 with spire := { Spire.init with phase := 4, rs1 := 0x100000, out := [x] } }
     (holding c).ctx 0 = some c ∧ c.spire.phase = 4 ∧ c.spire.ready ≤ (holding c).now ∧ c.spire.stopped = false ∧ c.spire.status = 0 ∧ c.spire.out = [x] ∧ c.spire.outBuf = [] ∧
      mergeForm c.spire.rs1 = 1 ∧ blk c.spire.block 18 2 % 2 = 0 ∧ c.spire.emitted < (if blk c.spire.block 44 4 = 0 then 2 ^ 32 - 1 else blk c.spire.block 44 4)) ∧
    (let c := { ctx1 with sb := [entry0], spire := { Spire.init with phase := 4, rs1 := 0x100000 } }
     (holding c).ctx 0 = some c ∧ c.spire.phase = 4 ∧ c.spire.ready ≤ (holding c).now ∧ c.spire.stopped = false ∧ c.spire.job = none ∧ c.spire.out = [] ∧
      mergeForm c.spire.rs1 = 1 ∧ c.sb = [entry0] ∧ entry0.seq = c.spire.seq) ∧
    (let c := { merging 1 1 with preempt := some 0 }
     let d := { c with spire := { c.spire with block := spillBlock, window := [⟨7, 1, false, false, false, false, 1⟩] } }
     (holding c).ctx 0 = some c ∧ c.preempt = some 0 ∧ c.spire.stopped = false ∧ c.spire.outBuf = [] ∧ c.spire.phase = 1 ∧ c.spire.job = none ∧ c.spire.window = [] ∧
      d.spire.window ≠ [] ∧ 0 < d.spire.spillLen ∧ d.spire.free + 64 * d.spire.window.length ≤ d.spire.spillLen ∧ d.spire.runs.length < 16 ∧
      let j : SpJob := ⟨2, [], [], 0, ⟨0, 1, 0, true⟩⟩
      let m := { c with spire := { c.spire with phase := 3, job := some j } }
      m.spire.phase = 3 ∧ m.spire.job = some j ∧ j.kind = 2) := by decide

theorem test_PreemptionSteps_request_witness :
    ((holding ctx1).ctx 0 = some ctx1 ∧ ((holding ctx1).sp 0).fused = false ∧ ((holding ctx1).sp 0).victims = [] ∧ ctx1.frozen = false ∧ ctx1.halted = false ∧
      ctx1.preempt = none ∧ { ctx1 with preempt := some 0 }.preempt = some 0) ∧
    (let c := { running1 with preempt := some 0, kern := { running1.kern with haltPoint := 1 } }
     (holding c).ctx 0 = some c ∧ ((holding c).sp 0).fused = false ∧ c.preempt = some 0 ∧ c.kern.phase = .running ∧ c.kern.last = none ∧ c.kern.gap = 0 ∧ c.kern.haltPoint = 1 ∧
      { c.kern with phase := .starting 7 }.phase = .starting 7 ∧ { c.kern with phase := .stopped }.phase = .stopped ∧
      { c.kern with phase := .resuming 2 }.phase = .resuming 2 ∧ c.kern.haltPoint ≠ 4 ∧
      (let q := { c.kern with haltPoint := 0, rejoin := true }; q.haltPoint = 0 ∧ q.rejoin = true) ∧ { c.kern with gap := 1 }.gap ≠ 0) ∧
    (let r : AqReq := ⟨false, 0, 8, 0, 0, 0, 0, 0⟩
     let c := { routined 1 routine0 with preempt := some 4097, dq := [(15, [r])] }
     (holding c).ctx 0 = some c ∧ c.preempt = some 4097 ∧ 4096 < 4097 ∧ c.matrix.run = some routine0 ∧ c.dq = [(15, [r])] ∧ r.state = 0 ∧ r.srf = false) := by decide

theorem test_PreemptionSteps_save_witness :
    (let c := { ctx1 with preempt := some 0, matrix := { Matrix.init with drain := some 0 } }
     (holding c).ctx 0 = some c ∧ (holding c).saveReady c = true ∧ ((holding c).sp 0).slotsUsed < 2 ∧ ((holding c).sp 0).tower = []) ∧
    2 ≤ { Sp.init with victims := [victim0, victim0] }.slotsUsed ∧
    (let v := { victim0 with place := 0, left := 0 }; ((withSp0 { Sp.init with victims := [v] }).sp 0).victims = [v] ∧ v.place = 0 ∧ v.left = 0 ∧ 0 < { v with left := 256 }.left) := by decide

/-- Launch 1 with a save area of rank 0 at IA 2^21. -/
def launchSaved : Launch := { launch1 with saves := [(0, 2 ^ 21)] }

theorem test_PreemptionSteps_claim_witness :
    (let c := { ctx1 with launch := 2, preempt := some 1025 }
     let w := { victim0 with order := 1 }
     let s := { withSp0 { Sp.init with ctx := some c, victims := [victim0, w] } with launches := [launchSaved] }
     s.ctx 0 = some c ∧ c.preempt = some 1025 ∧ s.cache = [] ∧ c.stages = [] ∧ (s.sp 0).victims = [victim0, w] ∧ victim0.place = 1 ∧ w.place = 1 ∧ victim0.ctx.stages = [] ∧
      w.ctx.stages = [] ∧ victim0.order < w.order ∧ (s.recordAt victim0.ctx.launch 0 0).isSome = true ∧ (s.recordAt victim0.ctx.launch 0 9).isSome = true ∧
      victim0.cm = none ∧ { victim0 with cm := some [] }.cm = some [] ∧ 1024 < 1025 ∧ 1024 ≤ 1024) ∧
    (let v := { victim0 with ctx := { ctx1 with polders := [(5, polder0)] } }
     let x := { polder0 with pending := true, fill := 4 }
     let c := { ctx1 with launch := 2, polders := [(6, x)] }
     let s := withSp0 { Sp.init with ctx := some c, victims := [v] }
     (s.sp 0).victims = [v] ∧ v.ctx.polder 5 = some polder0 ∧ KMap.find 5 v.claimed = none ∧ s.accs = [] ∧ s.ctx 0 = some c ∧ c.polders = [(6, x)] ∧ 0 < x.fill ∧
      x.base < polder0.base + shareOf polder0.log2 ∧ polder0.base < x.base + shareOf x.log2) ∧
    (withSp0 { Sp.init with victims := [victim0] }).ctx 0 = none := by decide

theorem test_PreemptionSteps_restore_witness :
    (let s := { launched part3 ctx1 with sps := [(0, { Sp.init with victims := [victim0], installed := some 1 })] }
     (s.sp 0).victims = [victim0] ∧ victim0.fused = false ∧ victim0.tower = [] ∧ victim0.line = [] ∧ victim0.claimed = [] ∧ s.accs = [] ∧ s.ctx 0 = none ∧
      (s.sp 0).left = none ∧ (s.sp 0).held = none ∧ s.codeOfCtx victim0.ctx = some code1 ∧ (s.sp 0).installed = some code1.handle ∧
      s.part (s.partOf victim0.ctx) = some part3 ∧ part3.migr.role = 0 ∧ (∀ l ∈ s.launches, l.state ≠ 0) ∧ victim0.place = 1) ∧
    (let v := { victim0 with place := 3, ctx := { ctx1 with kern := { Kern.init with phase := .halted } } }
     v.place = 3 ∧ v.left = 0 ∧ v.ctx.preempt = none ∧ v.ctx.kern.phase = .halted ∧ v.ctx.stopped = false ∧ 0 < { v with left := 1 }.left) := by decide

theorem test_AccessesToMemory_range_witness :
    (let a := { acc0 with state := 7 }
     let s := { launched part3 ctx1 with accs := [a], launches := [launchSeg] }
     s.accs = [a] ∧ a.state = 7 ∧ a.src.owner = some (0, 1) ∧ a.src.isHint = false ∧ s.now < { a with ready := 1000001 }.ready ∧
      { a with ready := 1000000 }.ready ≤ s.now ∧ a.misaligned = false ∧ s.launchOf 1 = some launchSeg ∧ (launchSeg.segAt a.va).isSome = true ∧
      launchSeg.mapVa a.va a.needsRead a.needsWrite = some 0 ∧ s.part a.part = some part3 ∧ 0 < 2 ^ 39 ∧ inRanges part3.linear 0 a.n = true ∧ dieOfPa 0 = a.die ∧
      dieOfPa 0 ≠ { a with die := 1 }.die ∧ a.src = .copy 0 1 0 0 0 ∧ a.eng = none ∧ (s.engine (16 * 1)).beats = []) ∧
    (let l := { launchSeg with segs := [⟨0, 2 ^ 21, 0, false, true, 0, false, true, 7⟩] }
     (l.segAt acc0.va).isSome = true ∧ l.mapVa acc0.va acc0.needsRead acc0.needsWrite = none) := by decide

/-- Partition 3 with a paged range of 1 GiB at IA 2^40, and a radix table that maps it as one page at frame 0. -/
def part3Paged : Part := { part3 with linear := [(0, 2 ^ 31)], paged := [(2 ^ 40, 2 ^ 30)] }

def headRadix : List Byte := toBytes 8 1 ++ toBytes 8 0x100000

def memRadix : List Host.Cell :=
  Memory.write (Memory.write (Memory.write [] 0x100000 (toBytes 8 0x101001)) 0x101010 (toBytes 8 0x102001)) 0x102000 (toBytes 8 15)

theorem test_AccessesToMemory_walk_witness :
    (let s := { holding ctx1 with mmus := [(5, ⟨[], [(0, 3, 2 ^ 40)], []⟩)], parts := [(3, part3Paged)] }
     s.accs = [] ∧ (s.mmu 5).misses = [(0, 3, 2 ^ 40)] ∧ s.part 3 = some part3Paged ∧ (s.mmu 5).walks = []) ∧
    (let w : Walk := ⟨0, 3, 2 ^ 40, 1000000, headRadix⟩
     let a := { acc0 with ia := 2 ^ 40 + 2 ^ 30 - 8, state := 1 }
     let s := { holding ctx1 with mmus := [(5, ⟨[], [(0, 3, a.ia)], [w]⟩)], parts := [(3, part3Paged)], accs := [a], mem := memRadix }
     (s.mmu 5).walks = [w] ∧ w.endsAt ≤ s.now ∧ s.part w.part = some part3Paged ∧ part3Paged.migr.role = 0 ∧ s.accs = [a] ∧ a.part = w.part ∧
      (s.mmu 5).misses = [(a.id, w.part, a.ia)] ∧ (walkIa s.linMem part3Paged w.head w.ia).1 = .page (2 ^ 40) (2 ^ 30) 0 true true ∧ 2 ^ 40 ≤ a.ia ∧ a.ia < 2 ^ 40 + 2 ^ 30 ∧
      a.src = .copy 0 1 0 0 0 ∧ dieOfPa (0 + (a.ia - 2 ^ 40)) = { a with die := dieOfPa (2 ^ 30 - 8) }.die) ∧
    (let w : Walk := ⟨0, 3, 2 ^ 40, 1000000, []⟩
     let a := { acc0 with ia := 2 ^ 40 + 4088, state := 1, src := .gather 0 1 15 }
     (walkIa [] part3Paged w.head w.ia).1 = .fault 5 ∧ a.ia / 4096 = w.ia / 4096 ∧ a.src = .gather 0 1 15 ∧ part3Paged.faults = []) ∧
    32 ≤ (List.replicate 32 (⟨0, 3, 0, 0, []⟩ : Walk)).length := by decide

theorem test_AccessesToMemory_fault_witness :
    (let a := { acc0 with ia := 2 ^ 48 - 8, state := 4, src := .gather 0 1 15 }
     let r : FaultRec := ⟨31, 5, 1, 0, a.ia, 0, 1, 0, [0], true⟩
     let p := { part3Paged with faults := [r] }
     let s := { launched p ctx1 with accs := [a] }
     s.part 3 = some p ∧ p.faults = [r] ∧ part3Paged.faults = [] ∧ r.id = 31 ∧ r.parked = [a.id] ∧ s.accs = [a] ∧ a.state = 4 ∧ a.part = 3 ∧ a.src = .gather 0 1 15 ∧
      s.ownerOut a = false ∧ p.tblock = some 0 ∧ s.cache = [] ∧ 2 ^ 40 ≤ a.ia ∧ a.ia < 2 ^ 48 ∧ (s.mmu (tlbDie a.die)).lookup 3 a.ia = none ∧ (s.mmu (tlbDie a.die)).misses.length < 512) := by decide

theorem test_AccessesToMemory_slice_witness :
    (let a := { acc0 with ready := 1000000, pa := 0x1000 }
     let w := { a with kind := .write, data := List.replicate 8 1 }
     let s := { launched part3 ctx1 with accs := [a] }
     s.accs = [a] ∧ a.id = 0 ∧ a.state = 2 ∧ a.ready ≤ s.now ∧ a.src = .copy 0 1 0 0 0 ∧ s.part a.part = some part3 ∧ part3.migr.role = 0 ∧ a.kind = .read ∧
      (∀ u ∈ s.upsets, u.1 ≠ a.pa / 64) ∧ s.cache = [] ∧
      (let x : CacheLine := ⟨0, 0x40, List.replicate 64 7, false⟩; { s with cache := [x] }.cache.find? (·.is (a.ia / 64) (a.pa / 64)) = some x) ∧
      w.kind = .write ∧ w.data.length = w.n ∧ 0 < w.n ∧ w.pa % 64 + w.n ≤ 64 ∧ part3.tblock = some 0 ∧ (w.pa + w.n ≤ 0 ∨ 0 + 0x1000 ≤ w.pa) ∧
      s.scatterOf w = none) := by decide

/-- Port 0 with the word `cfg` in PORTCFG. -/
def linked (cfg : Dword) : State := { State.reset with ports := [(0, { Port.init with cfg := cfg })], now := 1000000 }

theorem test_LinkSteps_port_witness :
    (bits (0 : Dword) 0 1 + bits (0 : Dword) 8 2 * 2 ^ 8 = bits ((linked 0).port 0).cfg 0 1 + bits ((linked 0).port 0).cfg 8 2 * 2 ^ 8) ∧
    (bits (1 : Dword) 0 1 + bits (1 : Dword) 8 2 * 2 ^ 8 ≠ bits ((linked 0).port 0).cfg 0 1 + bits ((linked 0).port 0).cfg 8 2 * 2 ^ 8 ∧ (linked 0).launches = []) ∧
    (let l := { launch1 with slots := [(256, 3)] }; ∃ q ∈ l.slots, q.1 = 256 + 0) ∧
    2 ≤ ((linked 0x20001).port 0).linkState ∧ ((linked 0x10001).port 0).linkState < 2 ∧ ((linked 0).port 0).mode ≠ 1 ∧
    ((linked 0x20001).port 0).mode = 1 ∧ ((linked 0x20001).port 0).linkState = 2 ∧ { (linked 0x20001).port 0 with fails := 14 }.fails < 15 ∧
    15 ≤ { (linked 0x20001).port 0 with fails := 15 }.fails ∧ ((linked 0).port 0).mode = 0 := by decide

/-- The packet 0 for this package, and the flits and the frame that carry it. -/
def header0 : List Byte := pktHeader packet0

theorem test_LinkSteps_packet_witness :
    (crc16 ((List.replicate 64 (0 : Byte)).take 62) ≠ field (List.replicate 64 0) 62 2 ∧ field (List.replicate 64 0) 4 2 = (linked 0x20001).dev.pkg ∧
      (packetOf (List.replicate 64 1) [] false).dstPkg ≠ (linked 0x20001).dev.pkg ∧ (packetOf (List.replicate 64 1) [] false).dstPkg ≠ 0xFFFF ∧
      crc16 ((List.replicate 64 (1 : Byte)).take 62) ≠ field (List.replicate 64 1) 62 2) ∧
    (let k := packetOf header0 [] false
     crc16 (header0.take 62) = field header0 62 2 ∧ crc32 ((pktBeats k).flatMap (·.bytes)) = field (toBytes 4 0 ++ toBytes 60 0) 0 4 ∧ field (toBytes 4 0 ++ toBytes 60 0) 4 1 % 2 = 0 ∧
      k.dstPkg = (linked 0x20001).dev.pkg ∧ opFlits k.op (pktFlits k) = true ∧ field header0 1 1 = pktFlits k ∧
      -- a wrong number of flits: data with a read; a poisoned tail
      opFlits k.op 1 = false ∧ field (toBytes 4 0 ++ toBytes 60 1) 4 1 % 2 = 1) ∧
    (let h := pktHeader { packet0 with dstPkg := 9 }
     let p := { Port.init with cfg := 0x20001, slots := [(0, (0, 3, 1))] }
     crc16 (h.take 62) = field h 62 2 ∧ (packetOf h [] false).dstPkg ≠ (linked 0).dev.pkg ∧ (packetOf h [] false).dstPkg ≠ 0xFFFF ∧ p.forwardTo 0 = some 3 ∧
      ({ State.reset with ports := [(3, { Port.init with cfg := 0x20001 })] }.port 3).mode = 1) := by decide +kernel

theorem test_LinkSteps_frame_witness :
    (let b := transportHead 2 0 0
     16 ≤ b.length ∧ field b 0 1 = 1 ∧ field b 2 2 = 0 ∧ field b 1 1 = 2) ∧
    (let b := transportHead 1 0 0 ++ header0
     let k := packetOf ((b.drop 16).take 64) (b.drop 80) false
     16 ≤ b.length ∧ field b 0 1 = 1 ∧ field b 2 2 = 0 ∧ field b 1 1 = 1 ∧ 80 ≤ b.length ∧ b.length ≤ 8952 ∧ 46784 ≠ 46785 ∧ field b 4 4 = (((linked 0).port 0).path 7).rxseq ∧ (((linked 0).port 0).path 7).rxmap = 0 ∧
      2 ^ 31 ≤ dif32 (field b 4 4) { Path.init with rxseq := 1 }.rxseq ∧
      k.dstPkg = (linked 0).dev.pkg ∧ opFlits k.op (pktFlits k) = true ∧ field ((b.drop 16).take 64) 1 1 = pktFlits k) ∧
    (16 ≤ { Path.init with rxcount := 16 }.rxcount ∧ (let q := { Path.init with rxcount := 1, rxAt := 1000000 - 10500 }; q.rxcount ≠ 0 ∧ q.rxAt + 10500 ≤ (linked 0).now) ∧
      (let q := { Path.init with rxcount := 15, rxAt := 1000000 }; q.rxcount < 16 ∧ (linked 0).now < q.rxAt + 10500)) ∧
    (let f : Frame := ⟨2 ^ 32 - 1, ⟨8, 7, []⟩, 1000000 - 210000⟩
     let s := { State.reset with ports := [(0, { Port.init with paths := [(7, { Path.init with unacked := [f] })] })], now := 1000000 }
     ((s.port 0).path 7).unacked = [f] ∧ f.seq < 2 ^ 32 ∧ (1 : Dword).toNat % 2 = 1 ∧ (2 : Dword).toNat % 2 = 0 ∧ f.at_ + 210000 ≤ s.now ∧ s.now < { f with at_ := 1000000 }.at_ + 210000) := by
  decide

/-- Every port in scale-up mode, its link up. -/
def fabric (p : Part) (c : Ctx) : State :=
  { launched p c with ports := (List.range 16).map fun n => (n, { Port.init with cfg := 0x20001 }) }

theorem test_BeatAndTokenSteps_home_witness :
    ((fabric part3 ctx1).part { packet0 with dstPart := 4 }.dstPart = none ∧ ((fabric part3 ctx1).port ((fabric part3 ctx1).portTo Part.init 5)).mode = 1) ∧
    (let s := fabric part3 ctx1
     s.part packet0.dstPart = some part3 ∧ part3.migr.role = 0 ∧ part3.moved = none ∧ packet0.engine < 256 ∧ (s.port (s.portTo part3 packet0.srcPkg)).mode = 1 ∧ s.accs = [] ∧
      (s.dup packet0).first s.dev.pkg packet0 = none ∧ packet0.op = 2 ∧ part3.exports packet0 (64 - packet0.ia % 64) = false) ∧
    (let p := { part3 with export_ := [(0, 0xE020000500000001)] }
     p.exports packet0 (64 - packet0.ia % 64) = true ∧ packet0.ia < 2 ^ 39 ∧ inRanges p.linear packet0.ia (64 - packet0.ia % 64) = true) ∧
    (let r := answer 0 packet0 6 0 []
     let s := { fabric part3 ctx1 with dups := [⟨5, 0, 0, [(0, r)]⟩] }
     (s.dup packet0).first s.dev.pkg packet0 = some r ∧ r.op ≠ 3 ∧ r.dstPkg = packet0.srcPkg) ∧
    (let a := { acc0 with src := .remote packet0, state := 3 }
     let s := { fabric part3 ctx1 with accs := [a] }
     s.accs = [a] ∧ a.src = .remote packet0 ∧ s.accDone a = true ∧ a.status = 0 ∧ a.kind.reads = true ∧ { a with kind := .write }.kind.reads = false) := by decide

theorem test_BeatAndTokenSteps_beat_witness :
    (let b : Beat := ⟨packet0, 0, 7, 0, false, 0, 0⟩
     let a := { acc0 with state := 5 }
     let s := { fabric part3 ctx1 with engines := [(0, ⟨1, [b]⟩)], accs := [a] }
     let k := { packet0 with op := 6 }
     (s.engine 0).beats = [b] ∧ b.pkt.engine = 0 ∧ b.pkt.op ≠ 10 ∧ k.engine = 0 ∧ 0 ≠ 0xFFFF ∧ k.seq = b.pkt.seq ∧ k.status ≠ 10 ∧ s.accs = [a] ∧ a.id = b.acc ∧ a.state = 5 ∧ { a with state := 3 }.state = 3 ∧
      k.op = 6 ∧ k.status = 0 ∧ a.kind.reads = true ∧ { a with kind := .write }.kind.reads = false ∧ { k with op := 3 }.op = 3 ∧ { k with status := 10 }.status = 10 ∧ (s.port b.port).mode = 1 ∧ (s.port b.port).linkState ≠ 3 ∧ b.hold = false ∧ b.at_ + resendCycles ≤ s.now ∧
      b.tries < 8 ∧ s.now < { b with at_ := 1000000 }.at_ + resendCycles ∧ { b with hold := true }.hold = true ∧ 0 < 256 ∧ 8 ≤ { b with tries := 8 }.tries) ∧
    (let s := { launched part3 ctx1 with ports := (List.range 16).map fun n => (n, { Port.init with cfg := 0x30001 }) }
     ∃ p, s.part { packet0 with srcPart := 3 }.srcPart = some p ∧ s.portFor p 0 packet0.dstPkg = none) ∧
    (let p := { part3 with migr := { Migr.init with role := 1, phase := 5 } }
     let s := fabric p ctx1
     s.part packet0.dstPart = some p ∧ p.migr.role = 1 ∧ (p.migr.phase = 4 ∨ p.migr.phase = 5) ∧ (s.port p.migr.port).mode = 1) ∧
    (let b : Beat := ⟨packet0, 0, 0, 0, false, 0, 0⟩
     let a := { acc0 with ia := 15 * 2 ^ 48 }
     let k := { packet0 with op := 6, status := 11, ia := 31 * 2 ^ 16 + 0xFFFF }
     let s := { fabric part3 ctx1 with engines := [(0, ⟨1, [b]⟩)], accs := [a] }
     k.op ≠ 8 ∧ (s.engine k.engine).beats = [b] ∧ b.pkt.seq = k.seq ∧ s.accs = [a] ∧ a.id = b.acc ∧ s.part a.part = some part3 ∧ 0 < iaWindow a.ia ∧
      (∀ n < 16, (s.port n).mode = 1)) := by decide

theorem test_BeatAndTokenSteps_token_witness :
    (let s := fabric part3 ctx1
     s.part packet0.dstPart = some part3 ∧ part3.migr.role = 0 ∧ part3.moved = none ∧ s.cache = [] ∧ (s.port (s.portTo part3 packet0.srcPkg)).mode = 1 ∧ packet0.seq = 0 ∧ bits part3.toktab 63 1 = 0) ∧
    (let k := { packet0 with ia := 0x200000 }
     ∃ e, (tokened 0).tokEntry { part3 with toktab := 0x8000000000100008 } (k.ia / 2 ^ 21) = some e ∧ e.held = false) ∧
    (let k := { packet0 with seq := 2, ia := 0x200000 }
     let w : TokWait := ⟨5, 1, 0, 1, 1, 0⟩
     let p := { part3 with tokWait := [w] }
     k.seq = 2 ∧ p.tokWait = [w] ∧ w.region = k.ia / 2 ^ 21 ∧ w.pkg = k.srcPkg ∧ w.launch = k.launch ∧ w.rank = k.rank) :=
  ⟨by decide, ⟨_, rfl, by decide⟩, by decide⟩

theorem test_BeatAndTokenSteps_reply_witness :
    (let c := { ctx1 with tokens := [(2 ^ 27 + 1, 0)] }
     let p := { part3 with peer := [(2, 0x8020000500000000), (3, 0)] }
     let k := { packet0 with op := 8, ia := 0x200000, status := 1 }
     let s := fabric p c
     s.part k.dstPart = some p ∧ s.ctxOfRank k.launch k.rank = some (0, c) ∧ p.regionAt k.srcPkg k.srcPart k.ia (c.tokens.map (·.1)) = some (2 ^ 27 + 1) ∧
      (k.status = 0 ∨ k.status = 1)) ∧
    (let c := { ctx1 with tokens := [(1, 16)] }
     let s := launched part3 c
     s.ctx 0 = some c ∧ c.tokens = [(1, 16)] ∧ 16 ≤ 16 ∧ 15 < 16 ∧ 16 - 16 + fabricToArith 0x1000 ≤ s.now ∧ iaWindow (1 * 2 ^ 21) = 0 ∧ s.part (s.partOf c) = some part3 ∧
      bits part3.toktab 63 1 = 0) := by decide

/-- VF 1 is bound to partition 3, which is `p`. -/
def bound (p : Part) : State := { State.reset with parts := [(3, p)], vfs := [(1, { Vf.init with part := some 3 })], now := 1000000 }

theorem test_HostSteps_frame_witness :
    63 < 64 ∧ 13 < 2 ^ 8 ∧ 7 < 2 ^ 8 ∧ 2 ^ 32 - 1 < 2 ^ 32 ∧ 2 ^ 64 - 1 < 2 ^ 64 ∧ 9000 < 48 + 24 + (List.replicate 8929 (0 : Byte)).length ∧
    48 + 24 + (toBytes 8 0 ++ List.replicate 8192 (0 : Byte)).length ≤ 9000 ∧ 0 < (List.replicate 8192 (0 : Byte)).length ∧ (List.replicate 8192 (0 : Byte)).length ≤ 8192 ∧
    8 ≤ 255 ∧ 10 ∈ [0, 4, 5, 6, 10] ∧ 14 ≤ 14 ∧ ([] : List Byte).length ≠ 128 := by
  have h : (toBytes 8 0).length = 8 := by decide
  simp only [List.length_append, List.length_replicate, h]
  decide

/-- A host port that is up, and VF 63, which is not bound. -/
theorem test_HostSteps_unbound_witness : State.reset.dev.hostUp = true ∧ { msg0 with vf := 63 }.vf ≠ 0 ∧ (State.reset.vf 63).part = none := by decide

theorem test_HostSteps_config_witness :
    HostTurn State.reset msg0 ∧ (State.reset.dev.hostUp = true ∧ (msg0.vf = 0 ∨ (State.reset.vf msg0.vf).part.isSome = true) ∧ State.reset.vfMigrating msg0.vf = false ∧
      64 ≤ (64 + 2 ^ 32 - (State.reset.vf msg0.vf).expect % 2 ^ 32) % 2 ^ 32 ∧ (64 + 2 ^ 32 - (State.reset.vf msg0.vf).expect % 2 ^ 32) % 2 ^ 32 < 2 ^ 31 ∧
      (2 ^ 31 - 1 + 2 ^ 32 - (State.reset.vf msg0.vf).expect % 2 ^ 32) % 2 ^ 32 < 2 ^ 31) ∧
    (msg0.vf = 0 ∧ 31 < 32 ∧ State.reset.part 31 = none) ∧
    (let s := { State.reset with parts := [(31, Part.init)] }
     s.part 31 ≠ none ∧ s.part 31 = some Part.init ∧ (∀ v < 64, (s.vf v).part ≠ some 31) ∧ s.launches = [] ∧ Part.init.codes = [] ∧
      2 ^ 160 - 1 < 2 ^ 160 ∧ Part.init.sps = [] ∧ (∀ e ∈ s.parts, e.1 = 31) ∧ (2 ^ 39 - 2 ^ 21) % 2 ^ 21 = 0 ∧ 2 ^ 39 - 2 ^ 21 + 2 ^ 21 ≤ 2 ^ 39 ∧ Part.init.linear = [] ∧
      63 < 64 ∧ (s.vf 63).part = none ∧ (∀ l ∈ s.launches, l.vf ≠ 63) ∧
      ((let t := { s with launches := [{ launch1 with part := 31 }] }; ∃ l ∈ t.launches, l.part = 31) ∧ { Part.init with codes := [code1] }.codes ≠ [])) := by
  refine ⟨?_, by decide, by decide, by decide⟩
  unfold HostTurn
  decide

theorem test_HostSteps_sps_witness :
    ∀ (q : Nat) (r : Part) (k : Nat), (q, r) ∈ ({ State.reset with parts := [(31, Part.init)] } : State).parts → q ≠ 31 → k ∈ r.sps → (2 ^ 160 - 1) / 2 ^ k % 2 = 0 := by
  intro q r k h hq
  exact absurd (by simpa using congrArg Prod.fst (List.mem_singleton.mp h)) hq

/-- An object with one CTRL section of 8 bytes: the header of 01 R14 and one entry of the section table of R17. -/
def object0 : List Byte :=
  toBytes 4 0x1A4F5A55 ++ toBytes 2 0x0100 ++ toBytes 2 0x0100 ++ toBytes 2 64 ++ toBytes 2 1 ++ toBytes 4 0 ++ toBytes 8 104 ++ toBytes 8 64 ++ toBytes 32 0
    ++ (toBytes 2 1 ++ toBytes 6 0 ++ toBytes 8 96 ++ toBytes 8 8 ++ toBytes 8 0) ++ toBytes 8 0x0200607B

theorem test_HostSteps_load_witness :
    (let s := { bound { part3 with codes := [], arena := 4096 } with mem := Memory.write [] 0x1000 object0 }
     ({ part3 with codes := [], arena := 4096 } : Part).inMemory 0x1000 104 = true ∧ s.stagedBytes { part3 with codes := [], arena := 4096 } 0x1000 104 = some object0) ∧
    (match loadObject object0 with
      | .ok (_, l) => (({ part3 with codes := [], arena := 4096 } : Part).arenaPlace l.length).isSome
      | .error _ => false) = true ∧
    part3.inMemory (2 ^ 21) 1 = false := by decide +kernel

theorem test_HostSteps_vf_witness :
    HostTurn (bound part3) msg1 ∧
    (let s := bound part3
     let r : LaunchRec := ⟨1, 0, 0, 1, 0, 3, 0, 0, 0, 0, []⟩
     msg1.vf ≠ 0 ∧ (s.vf msg1.vf).part = some 3 ∧ s.part 3 = some part3 ∧ part3.codes = [code1] ∧ code1.unloading = false ∧ s.launches = [] ∧
      s.launchCode msg1 part3 r = 0 ∧ s.launchCode msg1 part3 { r with flags := 16 } ≠ 0 ∧ [(1 : Byte)] ≠ [] ∧ [(1 : Byte)].length ≤ 64 - (2 ^ 21 - 1) % 64 ∧
      2 ^ 21 - 1 + [(1 : Byte)].length ≤ 2 ^ 39 ∧ inRanges part3.linear (2 ^ 21 - 1) 1 = true ∧ s.accs = [] ∧ (s.engine 64).beats = [] ∧ (∀ x ∈ s.xfrs, x.id < s.nextAcc) ∧
      (∀ l ∈ s.launches, l.vf ≠ msg1.vf ∨ l.tag ≠ 0)) ∧
    (let l := { launch1 with state := 0, ranks := [] }
     let s := { bound part3 with launches := [l] }
     s.launches = [l] ∧ l.vf = msg1.vf ∧ l.tag = 0 ∧ l.state = 0 ∧ l.cause = none ∧ l.ranks = []) := by
  refine ⟨?_, by decide, by decide⟩
  unfold HostTurn
  decide

theorem test_HostSteps_transfer_witness :
    (let x : Xfr := ⟨4, 0, 1, 0, 9, 7, 8, 3, false, 0, 64, 0, [], false, false⟩
     let a := { acc0 with src := .host 4, state := 3, n := 64 }
     let s := { bound part3 with xfrs := [x], accs := [a] }
     s.xfrs = [x] ∧ x.launch = 0 ∧ x.left = 0 ∧ x.parked = false ∧ x.cancelled = false ∧ { x with cancelled := true }.cancelled = true ∧ { x with write := true }.write = true ∧ (s.vf x.vf).held = [] ∧ (∀ a ∈ s.accs, a.src = .host x.id → s.accDone a = true) ∧ x.write = false ∧
      s.accs = [a] ∧ a.src = .host x.id ∧ a.va = 0 ∧ a.status = 0 ∧ 0 < x.len ∧ x.len ≤ 64 - x.ia % 64) ∧
    (let u : Unacked := ⟨⟨1, 5, 0, 0, 9, 0, 0, []⟩, 15, 1000000 - 105000⟩
     let s := { State.reset with vfs := [(1, { Vf.init with unacked := [u] })], now := 1000000 }
     (s.vf 1).unacked = [u] ∧ u.at_ + 105000 ≤ s.now ∧ u.tries < 16 ∧ 16 ≤ { u with tries := 16 }.tries) := by decide

theorem test_HostSteps_placement_witness :
    (let p := { part3 with linear := [(0, 2 ^ 30)] }
     let l := { launch1 with state := 0, ranks := [] }
     let s := { bound p with launches := [l] }
     s.part 3 = some p ∧ p.migr.role = 0 ∧ s.passOrder 3 = [l] ∧ s.launchOf l.id = some l ∧ l.part = 3 ∧ s.codeOf l = some code1 ∧ s.resumeFirst l = false ∧
      (match s.planFor l code1 p fun j => s.canTake l j with
        | some q => decide (q.sps = [0]) && decide (q.segs = []) && decide (q.slots = []) && decide (q.entries = []) && decide (q.ports = [])
        | none => false) = true ∧ (s.sp 0).victims = [] ∧ (∀ x ∈ s.xfrs, x.launch ≠ l.id)) := by decide +kernel

theorem test_HostSteps_release_witness :
    (let l := { launch1 with state := 2, cause := some 0 }
     let s := { bound part3 with launches := [l], sps := [(0, { Sp.init with left := some ctx1, held := some 1 })] }
     s.launches = [l] ∧ l.state = 2 ∧ s.accs = [] ∧ l.ranks = [0] ∧ s.part l.part = some part3 ∧ part3.migr.role = 0 ∧ (s.sp 0).ctx = none ∧ (s.sp 0).left = some ctx1 ∧
      (s.sp 0).victims = [] ∧ (s.sp 0).held = some l.id ∧ ctx1.launch = l.id ∧ ctx1.sb = [] ∧ ctx1.tokens = [] ∧ l.gone = []) := by decide

theorem test_DeviceSteps_witness :
    (let s := { State.reset with dev := { Dev.init with inReset := 2 } }; s.dev.inReset = 2 ∧ State.reset.dev.inReset = 0 ∧ 6 < 7 ∧ 71 < 72) ∧
    (let s := { State.reset with launches := [launch1] }; s.dev.inReset = 0 ∧ s.launches = [launch1] ∧ launch1.cause = none ∧ { launch1 with addr := 1 }.addr ≠ 0) ∧
    (let d := { Dev.init with attBusy := true, attNonce := List.replicate 48 1 }; Dev.init.attBusy = false ∧ d.attBusy = true ∧ d.attNonce.length = 48) ∧
    ((linked 0x20001).port 0).mode = 1 ∧ Dev.init.snapctl.getLsbD 0 = false ∧ Dev.init.snapT = [] ∧ { Dev.init with snapctl := 1 }.snapctl.getLsbD 0 = true ∧
    (let s := { linked 0x20001 with dev := { Dev.init with snapT := [1000000], snapctl := 2, snapfwd := 1 }, sps := [(0, { Sp.init with ctx := some ctx1 })] }
     s.dev.snapT = [1000000] ∧ 1000000 ≤ s.now ∧ KMap.find 0 s.sps = some { Sp.init with ctx := some ctx1 } ∧ s.dev.snapctl.getLsbD 1 = true ∧ 0 < 16 ∧
      s.dev.snapfwd.getLsbD 0 = true ∧ (s.port 0).mode = 1 ∧ Dev.init.snapctl.getLsbD 1 = false) ∧
    159 < 160 ∧
    (let s := withSp0 { Sp.init with ctx := some ctx1, dbgStopped := true }; (s.sp 0).dbgStopped = true ∧ s.ctx 0 = some ctx1) ∧
    { Dev.init with tapIr := 3 }.tapIr = 3 ∧ State.reset.regRead 8 = some 0 ∧ 8 % 8 = 0 ∧ 8 < 2 ^ 24 ∧ 31 < 32 ∧ (1 : Dword).getLsbD 0 = true ∧
    0xFFFFF8 % 8 = 0 ∧ 0xFFFFF8 < 2 ^ 24 ∧ State.reset.regRead 0xFFFFF8 = none := by decide

/-- The clauses of JTAG_REGACC cover both values of the fuse, a constant of the part. -/
theorem test_DeviceSteps_fuse_witness : fuseJtagReg = false ∨ fuseJtagReg = true := Bool.dichotomy _

/-- An image that the boot chain finds good, and one that it does not: the flash of a part right after reset, and an empty image 1. -/
theorem test_DeviceSteps_boot_witness : (∀ n ∈ [1, 2, 3, 4, 5], Dev.init.bootCause n = 0) ∧
    (let d := { Dev.init with flash := [(2, []), (3, [])] }; d.bootCause 1 ≠ 0) := by decide

/-- Partition 3 in a migration, on a fabric whose ports are in scale-up mode; the VF 0 message comes at its turn. -/
def migrating (g : Migr) (c : Option Ctx) : State :=
  { fabric { part3 with migr := g } ctx1 with sps := [(0, { Sp.init with ctx := c })], launches := [] }

theorem test_MigrationSteps_message_witness :
    (let m : MigArgs := ⟨3, 31, 0xFFFF, 15, 42⟩
     let s := migrating Migr.init none
     HostTurn s msg0 ∧ msg0.vf = 0 ∧ m.part < 32 ∧ m.peerPart < 32 ∧ m.port < 16 ∧ m.peerPkg < 2 ^ 16 ∧ s.part m.part = some { part3 with migr := Migr.init } ∧
      Migr.init.role = 0 ∧ (s.port m.port).mode = 1 ∧ { Migr.init with role := 1 }.role = 1 ∧
      (let g := { Migr.init with role := 2, phase := 3 }; g.role = 2 ∧ g.phase ≠ 5 ∧ ¬(g.role = 1 ∧ g.phase ≤ 3) ∧ ¬(g.role = 1 ∧ g.phase = 6)) ∧
      (let g := { Migr.init with role := 2, phase := 5 }; g.role = 2 ∧ g.phase = 5) ∧ part3.faults = []) ∧
    (let g := { Migr.init with role := 1, phase := 3 }; g.role = 1 ∧ g.phase ≤ 3) ∧
    (let g := { Migr.init with role := 1, phase := 6 }; g.role = 1 ∧ g.phase = 6 ∧ part3.sps = [0] ∧ (∀ l ∈ [launch1], l.part = 3)) := by
  refine ⟨?_, by decide, by decide⟩
  unfold HostTurn
  decide

theorem test_MigrationSteps_hello_witness :
    (let g := { Migr.init with phase := 1, id := 42, peerPkg := 5, peerPart := 1 }
     let k := { packet0 with op := 10, data := toBytes 8 42 ++ toBytes 1 1 ++ toBytes 1 3 ++ List.replicate 54 0 }
     let p := { part3 with accept := some g }
     let s := fabric p ctx1
     s.part k.dstPart = some p ∧ (s.dup k).first s.dev.pkg k = none ∧ (s.port (s.portTo p k.srcPkg)).mode = 1 ∧ p.accept = some g ∧ p.migr.role = 0 ∧ field k.data 0 8 = g.id ∧
      k.srcPkg = g.peerPkg ∧ field k.data 8 1 = g.peerPart ∧ field k.data 9 1 = k.dstPart ∧ field k.data 0 8 ≠ { g with id := 43 }.id) := by decide

theorem test_MigrationSteps_source_witness :
    (let g := { Migr.init with role := 1, phase := 2 }
     let s := migrating g none
     s.part 3 = some { part3 with migr := g } ∧ g.role = 1 ∧ g.phase = 2 ∧ s.migQuiet 3 { part3 with migr := g } = true ∧ { g with phase := 3 }.phase ≠ 2) ∧
    (let g := { Migr.init with role := 1, phase := 5 }
     let s := { migrating g none with now := graceCycles }
     g.phase = 5 ∧ g.at_ + graceCycles ≤ s.now ∧ (migrating { g with at_ := 1000000 } none).now < { g with at_ := 1000000 }.at_ + graceCycles) ∧
    (let g := { Migr.init with role := 1, phase := 3, pulls := [9] }
     let s := migrating g none
     3 ≤ g.phase ∧ g.pulls = [9] ∧ 9 / 2 = 4 ∧ s.accs = [] ∧ (s.port g.port).mode = 1 ∧
      (let t := { s with accs := [{ acc0 with pa := 0x40000 }] }; ∃ a ∈ t.accs, a.part = 3 ∧ a.state = 2 ∧ a.pa / 0x10000 = 4)) := by decide

theorem test_MigrationSteps_records_witness :
    (let g := { Migr.init with role := 2, phase := 2 }
     let p := { part3 with migr := g }
     let s := { migrating g none with records := [(3, .handle code1)] }
     s.part 3 = some p ∧ g.role = 2 ∧ g.phase = 2 ∧ s.records = [(3, .handle code1)] ∧ s.migMatches 3 p { Part.init with sps := [1] } [] = false ∧
      (s.takenOf 3).length ≠ 1 ∧
      (let t := { s with records := [(3, .last 1)], taken := [(3, .part part3 [] [] [] [])] }
       t.records = [(3, .last 1)] ∧ t.taken = [(3, .part part3 [] [] [] [])] ∧ part3.faults = [] ∧ { part3 with codes := [] }.codes = [] ∧ part3.tokWait = []) ∧ s.now < g.at_ + recordCycles ∧ g.at_ + recordCycles ≤ { s with now := recordCycles }.now) := by decide

theorem test_MigrationSteps_pages_witness :
    (let g := { Migr.init with role := 2, phase := 3, pages := [4] }
     let s := migrating g none
     s.part 3 = some { part3 with migr := g } ∧ g.role = 2 ∧ g.pages = [4] ∧ g.pulls = [] ∧ (s.port g.port).mode = 1 ∧ g.phase = 3 ∧
      (∀ k ∈ part3.sps, ∀ v ∈ (s.sp k).victims, v.ctx.frozen = false) ∧ (s.engine (pullEngine 3 7)).beats = [] ∧ s.accs = [] ∧ { g with phase := 4 }.phase = 4) ∧
    (let a := { acc0 with pa := 0x4FFF8, state := 10 }
     let s := { migrating { Migr.init with role := 2, phase := 3, pages := [4] } none with accs := [a] }
     s.accs = [a] ∧ a.part = 3 ∧ a.pa / 0x10000 = 4 ∧ (s.engine (pullEngine 3 (dieOfPa a.pa))).beats = [] ∧ a.state = 10 ∧ { a with state := 2 }.state ≠ 10) := by decide

end Sys2Proof
end

