-- ==== Sys2Proof/Proofs/HostPort.lean ====
section
/-! PROOF. The rules of the host port: reading a VF, a partition or a launch after a write of one; what an answer changes; and what becomes of a
message that its VF expects (02 R42 to R47). -/

namespace Sys2Proof.Machine

/-! ## Reading after a write -/

@[simp] theorem State.vf_modVf_self (s : State) (v : Nat) (f : Vf → Vf) : (s.modVf v f).vf v = f (s.vf v) := KMap.get_ins_self _ _ _ _

theorem State.vf_modVf_other (s : State) {v w : Nat} (h : w ≠ v) (f : Vf → Vf) : (s.modVf v f).vf w = s.vf w := KMap.get_ins_other h _ _ _


@[simp] theorem State.part_setPart_self (s : State) (n : Nat) (p : Part) : (s.setPart n p).part n = some p := KMap.find_ins_self _ _ _

theorem State.part_setPart_other (s : State) {n m : Nat} (h : m ≠ n) (p : Part) : (s.setPart n p).part m = s.part m := KMap.find_ins_other h _ _

@[simp] theorem State.part_modPart_self (s : State) (n : Nat) (f : Part → Part) : (s.modPart n f).part n = (s.part n).map f := by
  simp [State.part, State.modPart, KMap.find_upd]

@[simp] theorem State.vf_modPart (s : State) (n v : Nat) (f : Part → Part) : (s.modPart n f).vf v = s.vf v := rfl

/-! ## A placement pass that comes next -/

@[simp] theorem State.passSoon_vf (s : State) (n v : Nat) : (s.passSoon n).vf v = s.vf v := by unfold State.passSoon; split <;> rfl
@[simp] theorem State.passSoon_out (s : State) (n : Nat) : (s.passSoon n).out = s.out := by unfold State.passSoon; split <;> rfl
@[simp] theorem State.passSoon_part (s : State) (n m : Nat) : (s.passSoon n).part m = s.part m := by unfold State.passSoon; split <;> rfl
@[simp] theorem State.passSoon_sp (s : State) (n k : Nat) : (s.passSoon n).sp k = s.sp k := by unfold State.passSoon; split <;> rfl
@[simp] theorem State.passSoon_launches (s : State) (n : Nat) : (s.passSoon n).launches = s.launches := by unfold State.passSoon; split <;> rfl
@[simp] theorem State.passSoon_nextId (s : State) (n : Nat) : (s.passSoon n).nextId = s.nextId := by unfold State.passSoon; split <;> rfl

theorem State.mem_passSoon_inbox (s : State) (n : Nat) : Instr.placementPass n ∈ (s.passSoon n).inbox := by
  unfold State.passSoon
  split
  · rename_i h; simpa using h
  · simp

/-! ## Answers -/

/-- A message goes out. -/
def State.emit (s : State) (m : Msg) : State := { s with out := s.out ++ [m] }

@[simp] theorem State.emit_vf (s : State) (m : Msg) (v : Nat) : (s.emit m).vf v = s.vf v := rfl

/-- The answer to a message, under the message's own number and tag (02 R42). -/
def hostAnswer (h : VctHdr) (ty st : Nat) (l : List Byte) : Msg :=
  { vf := h.vf, type_ := ty, seq := h.seq, status := st, tag := h.tag, port := h.port, addr := h.addr, payload := l }

/-- An answer kept for the duplicates of its message (02 R44). -/
def Vf.keep (v : Vf) (seq : Nat) (m : Msg) : Vf :=
  { v with replies := v.replies.filter (fun r => decide (dif32 v.expect r.1 ≤ 64) && decide (r.1 ≠ seq)) ++ [(seq, m)] }

section
variable (s : State) (h : VctHdr) (ty st : Nat) (l : List Byte)

theorem State.reply_eq : s.reply h ty st l = (s.modVf h.vf fun v => v.keep h.seq (hostAnswer h ty st l)).emit (hostAnswer h ty st l) := rfl

@[simp] theorem State.reply_part (n : Nat) : (s.reply h ty st l).part n = s.part n := rfl
@[simp] theorem State.reply_launches : (s.reply h ty st l).launches = s.launches := rfl
@[simp] theorem State.reply_inbox : (s.reply h ty st l).inbox = s.inbox := rfl
@[simp] theorem State.reply_xfrs : (s.reply h ty st l).xfrs = s.xfrs := rfl
@[simp] theorem State.reply_out : (s.reply h ty st l).out = s.out ++ [hostAnswer h ty st l] := rfl

@[simp] theorem State.reply_vf_self : (s.reply h ty st l).vf h.vf = (s.vf h.vf).keep h.seq (hostAnswer h ty st l) := by
  rw [State.reply_eq, State.emit_vf, State.vf_modVf_self]

theorem State.reply_vf_other {v : Nat} (hv : v ≠ h.vf) : (s.reply h ty st l).vf v = s.vf v := by
  rw [State.reply_eq, State.emit_vf, s.vf_modVf_other hv]

/-- It does not matter whether the pass is asked for before or after the answer. -/
theorem State.passSoon_reply (n : Nat) : (s.reply h ty st l).passSoon n = (s.passSoon n).reply h ty st l := by
  unfold State.passSoon
  rw [State.reply_inbox]
  split <;> rfl
end

/-! ## Messages under the part's own numbers (02 R45) -/

/-- What the part sends under its own number: to an address of the host, or where the VF's last message came from. -/
def State.ownMsg (s : State) (vf ty st tag port addr : Nat) (l : List Byte) : Msg :=
  let dest := if addr = 0 then (s.vf vf).host else (addr, port)
  { vf := vf, type_ := ty, seq := (s.vf vf).next, status := st, tag := tag, port := dest.2, addr := dest.1, payload := l }

/-- A message of the part is kept until the host acknowledges it. -/
def Vf.send (v : Vf) (m : Msg) (now : Nat) : Vf := { v with next := (v.next + 1) % 2 ^ 32, unacked := v.unacked ++ [⟨m, 0, now⟩] }

theorem State.sendOwn_eq (s : State) (vf ty st tag port addr : Nat) (l : List Byte) : s.sendOwn vf ty st tag port addr l =
    (s.modVf vf fun v => v.send (s.ownMsg vf ty st tag port addr l) s.now).emit (s.ownMsg vf ty st tag port addr l) := rfl

theorem State.replyOwn_eq (s : State) (h : VctHdr) (ty st : Nat) (l : List Byte) : s.replyOwn h ty st l =
    (s.sendOwn h.vf ty st h.tag h.port h.addr l).modVf h.vf fun v => v.keep h.seq (s.ownMsg h.vf ty st h.tag h.port h.addr l) := rfl

@[simp] theorem State.sendOwn_out (s : State) (vf ty st tag port addr : Nat) (l : List Byte) :
    (s.sendOwn vf ty st tag port addr l).out = s.out ++ [s.ownMsg vf ty st tag port addr l] := rfl
@[simp] theorem State.sendOwn_launches (s : State) (vf ty st tag port addr : Nat) (l : List Byte) :
    (s.sendOwn vf ty st tag port addr l).launches = s.launches := rfl

@[simp] theorem State.replyOwn_held (s : State) (h : VctHdr) (ty st : Nat) (l : List Byte) :
    ((s.replyOwn h ty st l).vf h.vf).held = (s.vf h.vf).held := by
  rw [State.replyOwn_eq, State.sendOwn_eq]
  simp [Vf.keep, Vf.send]


/-! ## The next held message -/

@[simp] theorem State.nextHeld_out (s : State) (v : Nat) : (s.nextHeld v).out = s.out := by
  unfold State.nextHeld; simp only; split
  · rfl
  · split <;> rfl

@[simp] theorem State.nextHeld_launches (s : State) (v : Nat) : (s.nextHeld v).launches = s.launches := by
  unfold State.nextHeld; simp only; split
  · rfl
  · split <;> rfl

/-- While a message is being executed, none that is held follows (02 R51). -/
theorem State.nextHeld_of_busy {s : State} {v : Nat} (h : (s.vf v).busy.isSome = true) : s.nextHeld v = s := by
  unfold State.nextHeld; simp only [h, if_true]

theorem State.nextHeld_of_held_nil {s : State} {v : Nat} (h : (s.vf v).held = []) : s.nextHeld v = s := by
  unfold State.nextHeld; simp only [h, List.find?_nil]; split <;> rfl

/-! ## A message that its VF expects -/

theorem HostTurn.held_nil {s : State} {h : VctHdr} (ht : HostTurn s h) : (s.vf h.vf).held = [] := by
  obtain ⟨-, -, -, -, hheld, -⟩ := ht
  exact hheld

/-- The machine as the execution of an expected message finds it: its VF expects the next one (02 R44). -/
def State.expecting (s : State) (h : VctHdr) : State :=
  s.modVf h.vf fun v => { v with expect := (v.expect + 1) % 2 ^ 32, host := (h.addr, h.port) }

@[simp] theorem State.expecting_out (s : State) (h : VctHdr) : (s.expecting h).out = s.out := rfl
@[simp] theorem State.expecting_parts (s : State) (h : VctHdr) : (s.expecting h).parts = s.parts := rfl
@[simp] theorem State.expecting_part (s : State) (h : VctHdr) (n : Nat) : (s.expecting h).part n = s.part n := rfl
@[simp] theorem State.expecting_launches (s : State) (h : VctHdr) : (s.expecting h).launches = s.launches := rfl

@[simp] theorem State.expecting_vf_self (s : State) (h : VctHdr) :
    (s.expecting h).vf h.vf = { s.vf h.vf with expect := ((s.vf h.vf).expect + 1) % 2 ^ 32, host := (h.addr, h.port) } := s.vf_modVf_self _ _

theorem State.expecting_vf_other (s : State) (h : VctHdr) {v : Nat} (hv : v ≠ h.vf) : (s.expecting h).vf v = s.vf v := s.vf_modVf_other hv _

@[simp] theorem State.expecting_vf_part (s : State) (h : VctHdr) (v : Nat) : ((s.expecting h).vf v).part = (s.vf v).part := by
  by_cases hv : v = h.vf
  · subst hv; rw [State.expecting_vf_self]
  · rw [State.expecting_vf_other s h hv]

theorem windowOf_self (n : Nat) : windowOf n n = .execute := by
  have h : dif32 n n = 0 := by unfold dif32; omega
  simp [windowOf, h]

/-- The window executes the message that is expected; then a held one may follow (02 R44). -/
theorem State.vct_of_hostTurn {s : State} {h : VctHdr} (ht : HostTurn s h) (i : Instr) (f : State → State) :
    s.vct h i f = (f (s.expecting h)).nextHeld h.vf := by
  obtain ⟨hup, hb, hm, hbusy, -, hseq⟩ := ht
  have hbound : ¬(h.vf ≠ 0 ∧ (s.vf h.vf).part = none) := by
    rintro ⟨h0, hn⟩
    rcases hb with hb | hb
    · exact h0 hb
    · simp [hn] at hb
  unfold State.vct
  simp only [hup, hm, hseq, hbusy, hbound, windowOf_self, Bool.not_true, Bool.false_eq_true, if_false, Option.isSome_none]
  rfl

theorem State.vctBound_of_hostTurn {s : State} {h : VctHdr} {n : Nat} (ht : HostTurn s h) (h0 : h.vf ≠ 0) (hn : (s.vf h.vf).part = some n)
    (i : Instr) (f : Nat → State → State) : s.vctBound h i f = (f n (s.expecting h)).nextHeld h.vf := by
  unfold State.vctBound
  rw [State.vct_of_hostTurn ht]
  simp only [h0, if_false, State.expecting_vf_part, hn]

theorem State.vctSystem_of_hostTurn {s : State} {h : VctHdr} (ht : HostTurn s h) (h0 : h.vf = 0) (i : Instr) (f : State → State) :
    s.vctSystem h i f = (f (s.expecting h)).nextHeld h.vf := by
  unfold State.vctSystem
  rw [State.vct_of_hostTurn ht]
  simp only [h0, if_true]

/-! ## Execution that answers once -/

/-- So far the execution of the message has sent nothing, and has left its VF as it found it. -/
def Unanswered (s : State) (h : VctHdr) (u : State) : Prop := u.vf h.vf = (s.expecting h).vf h.vf ∧ u.out = s.out

theorem unanswered_expecting (s : State) (h : VctHdr) : Unanswered s h (s.expecting h) := ⟨rfl, rfl⟩

/-- An answer after that is the only one. -/
theorem Unanswered.answered {s u : State} {h : VctHdr} (hu : Unanswered s h u) (ty st : Nat) (l : List Byte) :
    Answered s h ty st (u.reply h ty st l) := by
  obtain ⟨hv, ho⟩ := hu
  refine ⟨?_, _, by rw [State.reply_out, ho], rfl, rfl, rfl, rfl, rfl⟩
  rw [State.reply_vf_self, hv, State.expecting_vf_self]
  rfl

/-- Nothing is held, so nothing follows. -/
theorem Unanswered.nextHeld_reply {s u : State} {h : VctHdr} (hu : Unanswered s h u) (ht : HostTurn s h) (ty st : Nat) (l : List Byte) :
    (u.reply h ty st l).nextHeld h.vf = u.reply h ty st l := by
  refine State.nextHeld_of_held_nil ?_
  rw [State.reply_vf_self, hu.1, State.expecting_vf_self]
  exact ht.held_nil

/-- A message of a bound VF whose execution ends with its answer. -/
theorem vctBound_answered {s u : State} {h : VctHdr} {n ty st : Nat} {l : List Byte} {i : Instr} {f : Nat → State → State}
    (hx : exec i s = .next (s.vctBound h i f)) (ht : HostTurn s h) (h0 : h.vf ≠ 0) (hn : (s.vf h.vf).part = some n)
    (hf : f n (s.expecting h) = u.reply h ty st l) (hu : Unanswered s h u) :
    exec i s = .next (u.reply h ty st l) ∧ Answered s h ty st (u.reply h ty st l) := by
  have he : s.vctBound h i f = u.reply h ty st l := by rw [State.vctBound_of_hostTurn ht h0 hn, hf, hu.nextHeld_reply ht]
  exact ⟨hx.trans (congrArg _ he), hu.answered ty st l⟩

section
variable {s : State} {h : VctHdr} {i : Instr} {bad busy : State → Bool} {f : State → State} (hx : exec i s = .next (s.config h i bad busy f))
  (ht : HostTurn s h) (h0 : h.vf = 0) (hbad : bad (s.expecting h) = false)
include hx ht h0 hbad

/-- A CONFIG operation that is carried out (02 R48). -/
theorem config_done (hbusy : busy (s.expecting h) = false) (hu : Unanswered s h (f (s.expecting h))) :
    exec i s = .next ((f (s.expecting h)).ackMsg h) ∧ Answered s h 0xD 0 ((f (s.expecting h)).ackMsg h) := by
  have he : s.config h i bad busy f = (f (s.expecting h)).ackMsg h := by
    unfold State.config
    rw [State.vctSystem_of_hostTurn ht h0]
    simp only [hbad, hbusy, Bool.false_eq_true, if_false]
    exact hu.nextHeld_reply ht _ _ _
  exact ⟨hx.trans (congrArg _ he), hu.answered _ _ _⟩

/-- A CONFIG operation that is refused as BUSY (02 R48). -/
theorem config_busy (hbusy : busy (s.expecting h) = true) :
    exec i s = .next ((s.expecting h).nak h nkBusy) ∧ Answered s h 0xE 8 ((s.expecting h).nak h nkBusy) := by
  have hu := unanswered_expecting s h
  have he : s.config h i bad busy f = (s.expecting h).nak h nkBusy := by
    unfold State.config
    rw [State.vctSystem_of_hostTurn ht h0]
    simp only [hbad, hbusy, Bool.false_eq_true, if_false, if_true]
    exact hu.nextHeld_reply ht _ _ _
  exact ⟨hx.trans (congrArg _ he), hu.answered _ _ _⟩
end

/-! ## Messages that are not executed -/

/-- An invalid message is NAK BAD_MESSAGE (02 R46). -/
theorem vctInvalidMessage_answered {s : State} {h : VctHdr} (ht : HostTurn s h) :
    ∃ t : State, exec (.vctInvalidMessage h) s = .next t ∧ Answered s h 0xE 1 t := by
  have hu := unanswered_expecting s h
  refine ⟨_, rfl, ?_⟩
  rw [State.vct_of_hostTurn ht]
  exact (hu.nextHeld_reply ht _ _ _).symm ▸ hu.answered _ _ _

section
variable {s : State} {h : VctHdr} (hup : s.dev.hostUp = true) (h0 : h.vf ≠ 0) (hn : (s.vf h.vf).part = none)
include hup h0 hn

/-- Every message of an unbound VF is NAK UNBOUND, whoever may send it (02 R47). -/
theorem State.vct_unbound (i : Instr) (f : State → State) : s.vct h i f = s.nakOnly h nkUnbound := by
  unfold State.vct
  simp only [hup, h0, hn, Bool.not_true, Bool.false_eq_true, if_false, ne_eq, not_false_eq_true, and_self, if_true]

theorem State.vctBound_unbound (i : Instr) (f : Nat → State → State) : s.vctBound h i f = s.nakOnly h nkUnbound := State.vct_unbound hup h0 hn i _

theorem State.vctSystem_unbound (i : Instr) (f : State → State) : s.vctSystem h i f = s.nakOnly h nkUnbound := State.vct_unbound hup h0 hn i _

theorem State.config_unbound (i : Instr) (bad busy : State → Bool) (f : State → State) : s.config h i bad busy f = s.nakOnly h nkUnbound :=
  State.vctSystem_unbound hup h0 hn i _

theorem State.migOp_unbound (i : Instr) (m : MigArgs) (may : Migr → Bool) (f : State → Part → State) :
    s.migOp h i m may f = s.nakOnly h nkUnbound := State.vctSystem_unbound hup h0 hn i _
end

/-- A message too far ahead consumes nothing (02 R44). -/
theorem State.vct_tooFar {s : State} {h : VctHdr} (hup : s.dev.hostUp = true) (hb : h.vf = 0 ∨ (s.vf h.vf).part.isSome = true)
    (hm : s.vfMigrating h.vf = false) (hlo : 64 ≤ dif32 h.seq (s.vf h.vf).expect) (hhi : dif32 h.seq (s.vf h.vf).expect < 2 ^ 31) (i : Instr)
    (f : State → State) : s.vct h i f = s.nakOnly h nkOutOfWindow := by
  have hbound : ¬(h.vf ≠ 0 ∧ (s.vf h.vf).part = none) := by
    rintro ⟨h0, hn⟩
    rcases hb with hb | hb
    · exact h0 hb
    · simp [hn] at hb
  have hw : windowOf (s.vf h.vf).expect h.seq = .tooFar := by
    unfold windowOf
    simp only [show dif32 h.seq (s.vf h.vf).expect ≠ 0 by omega, Nat.not_lt.mpr hlo, hhi, if_false, if_true]
  unfold State.vct
  simp only [hup, hm, hbound, hw, Bool.not_true, Bool.false_eq_true, if_false]

/-! ## The part's own messages (02 R45) -/

/-- The host's ACK: the part does not send that message again. -/
theorem ack_done (vf seq : Nat) (s : State) : ∃ t : State, exec (.ack vf seq) s = .next t ∧ t = { s with vfs := t.vfs } ∧
    t.vf vf = { s.vf vf with unacked := (s.vf vf).unacked.filter fun u => decide (u.msg.seq ≠ seq) } ∧ ∀ v, v ≠ vf → t.vf v = s.vf v :=
  ⟨_, rfl, rfl, s.vf_modVf_self vf _, fun _ hv => s.vf_modVf_other hv _⟩

section
variable {vf : Nat} {u : Unacked} {s : State} (hu : (s.vf vf).unacked = [u]) (hnow : u.at_ + 105000 ≤ s.now)
include hu hnow

/-- The timer sends the message again, up to 16 times. -/
theorem retransmit_again (htries : u.tries < 16) : ∃ t : State, exec (.vctRetransmitTimer vf u.msg.seq) s = .next t ∧ t.out = s.out ++ [u.msg] ∧
    (t.vf vf).unacked = [{ u with tries := u.tries + 1, at_ := s.now }] := by
  refine ⟨_, rfl, ?_⟩
  simp only [hu, List.find?_cons, decide_true, Nat.not_lt.mpr hnow, Nat.not_le.mpr htries, if_false]
  refine ⟨rfl, ?_⟩
  rw [← State.emit, State.emit_vf, State.vf_modVf_self]
  simp [hu, updFirst]

/-- After that the message is lost. -/
theorem retransmit_lost (htries : 16 ≤ u.tries) : ∃ t : State, exec (.vctRetransmitTimer vf u.msg.seq) s = .next t ∧ t.out = s.out ∧
    (t.vf vf).unacked = [] ∧ (t.vf vf).lost = (s.vf vf).lost + 1 := by
  refine ⟨_, rfl, ?_⟩
  simp only [hu, List.find?_cons, decide_true, Nat.not_lt.mpr hnow, htries, if_false, if_true]
  simp [hu]
end

end Sys2Proof.Machine
end

