-- ==== Sys2Proof/Proofs/HostConfig.lean ====
section
/-! PROOF. CONFIG (02 R48; 12 R307): partitions are created and destroyed, receive SPs, memory and a code arena, and VFs are bound. -/

namespace Sys2Proof.Machine

variable {s : State} {h : VctHdr} {part : Nat}

/-! ## PART_CREATE and PART_DESTROY -/

/-- A number that names no partition receives one, with the window registers of the number (15 R387 to R389). -/
theorem partCreate_new (ht : HostTurn s h) (h0 : h.vf = 0) (hlt : part < 32) (hnone : s.part part = none) :
    ∃ t : State, exec (.partCreate h part) s = .next t ∧ Answered s h 0xD 0 t ∧ t.part part = some { Part.init with
        peer := (s.windows part).peer, export_ := (s.windows part).export_, toktab := (s.windows part).toktab, stale := (s.windows part).stale } ∧
      (∀ q, q ≠ part → t.part q = s.part q) ∧ t.launches = s.launches := by
  obtain ⟨he, ha⟩ := config_done (i := .partCreate h part) rfl ht h0 (by simpa using hlt) (by simp [hnone]) ⟨rfl, rfl⟩
  refine ⟨_, he, ha, ?_, fun q hq => ?_, rfl⟩
  · exact State.part_setPart_self _ _ _
  · exact State.part_setPart_other _ hq _

/-- A partition that exists is not created again. -/
theorem partCreate_busy (ht : HostTurn s h) (h0 : h.vf = 0) (hlt : part < 32) (hsome : s.part part ≠ none) :
    ∃ t : State, exec (.partCreate h part) s = .next t ∧ Answered s h 0xE 8 t ∧ t.parts = s.parts := by
  obtain ⟨he, ha⟩ := config_busy (i := .partCreate h part) rfl ht h0 (by simpa using hlt) (Option.isSome_iff_ne_none.mpr hsome)
  exact ⟨_, he, ha, rfl⟩

/-- A partition may not be destroyed: a VF is bound to it, a launch is queued or runs on it, or an object is loaded. -/
def State.partInUse (s : State) (part : Nat) : Bool :=
  ((List.range 64).any fun v => decide ((s.vf v).part = some part)) || (s.launches.any fun l => decide (l.part = part))
    || (s.part part).any fun p => !p.codes.isEmpty

/-- Executing a message changes none of that. -/
theorem State.partInUse_expecting (s : State) (h : VctHdr) (part : Nat) : (s.expecting h).partInUse part = s.partInUse part := by
  simp [State.partInUse]

theorem State.partInUse_iff {p : Part} (hp : s.part part = some p) :
    s.partInUse part = true ↔ (∃ v < 64, (s.vf v).part = some part) ∨ (∃ l ∈ s.launches, l.part = part) ∨ p.codes ≠ [] := by
  simp [State.partInUse, hp, or_assoc]

section
variable {p : Part} (ht : HostTurn s h) (h0 : h.vf = 0) (hlt : part < 32) (hp : s.part part = some p)
include ht h0 hlt hp

theorem partDestroy_unused (hv : ∀ v < 64, (s.vf v).part ≠ some part) (hl : s.launches = []) (hc : p.codes = []) :
    ∃ t : State, exec (.partDestroy h part) s = .next t ∧ Answered s h 0xD 0 t ∧ t.part part = none := by
  have hfree : s.partInUse part = false := by
    rw [Bool.eq_false_iff, Ne, State.partInUse_iff hp]
    rintro (⟨v, hv64, hvp⟩ | ⟨l, hmem, -⟩ | hne)
    · exact hv v hv64 hvp
    · simp [hl] at hmem
    · exact hne hc
  obtain ⟨he, ha⟩ := config_done (i := .partDestroy h part) rfl ht h0 (by simp [hp, hlt])
    ((s.partInUse_expecting h part).trans hfree) ⟨rfl, rfl⟩
  refine ⟨_, he, ha, ?_⟩
  exact (KMap.find_del part part s.parts).trans (if_pos rfl)

theorem partDestroy_busy (hu : (∃ v < 64, (s.vf v).part = some part) ∨ (∃ l ∈ s.launches, l.part = part) ∨ p.codes ≠ []) :
    ∃ t : State, exec (.partDestroy h part) s = .next t ∧ Answered s h 0xE 8 t ∧ t.parts = s.parts := by
  obtain ⟨he, ha⟩ := config_busy (i := .partDestroy h part) rfl ht h0 (by simp [hp, hlt])
    ((s.partInUse_expecting h part).trans ((State.partInUse_iff hp).mpr hu))
  exact ⟨_, he, ha, rfl⟩

/-! ## SPs, memory and arena of a partition -/

/-- A partition without SPs receives those of a mask that no other partition has. -/
theorem partSps_given {mask : Nat} (hmask : mask < 2 ^ 160) (hnil : p.sps = [])
    (hfree : ∀ q r k, (q, r) ∈ s.parts → q ≠ part → k ∈ r.sps → mask / 2 ^ k % 2 = 0) :
    ∃ t : State, exec (.partSps h part mask) s = .next t ∧ Answered s h 0xD 0 t ∧
      t.part part = some { p with sps := (List.range 160).filter fun k => decide (mask / 2 ^ k % 2 = 1) } := by
  have hapart : ((maskSps mask).any fun k => s.parts.any fun e => decide (e.1 ≠ part) && e.2.sps.contains k) = false := by
    simp only [List.any_eq_false, List.any_eq_true, maskSps, List.mem_filter, decide_eq_true_eq, Bool.and_eq_true, List.contains_iff_mem]
    rintro k ⟨-, hk⟩ ⟨e, hmem, hne, hin⟩
    have := hfree e.1 e.2 k hmem hne hin
    omega
  obtain ⟨he, ha⟩ := config_done (i := .partSps h part mask) rfl ht h0 (by simp [hp, hlt]; omega)
    (by simp only [State.expecting_parts, hapart]; simp [hp, hnil]) ⟨by simp, by simp⟩
  refine ⟨_, he, ha, ?_⟩
  change (State.passSoon _ _).part part = _
  simp [hp, maskSps]

/-- A partition without linear memory, alone on the part, receives a linear range. -/
theorem partMem_linear {base len : Nat} (hbase : base % 2 ^ 21 = 0) (hpos : 0 < len) (hlen : len % 2 ^ 21 = 0) (hend : base + len ≤ 2 ^ 39)
    (hnil : p.linear = []) (halone : ∀ e ∈ s.parts, e.1 = part) :
    ∃ t : State, exec (.partMem h part base len false) s = .next t ∧ Answered s h 0xD 0 t ∧ t.part part = some { p with linear := [(base, len)] } := by
  have hlin : iaLinear base = true := by simp only [iaLinear, decide_eq_true_eq]; omega
  have hapart : (s.parts.any fun e => decide (e.1 ≠ part) && (e.2.linear ++ e.2.paged).any fun r => touches r base len) = false := by
    simp only [List.any_eq_false, Bool.and_eq_true, decide_eq_true_eq]
    rintro e hmem ⟨hne, -⟩
    exact hne (halone e hmem)
  obtain ⟨he, ha⟩ := config_done (i := .partMem h part base len false) rfl ht h0
    (by simp [hp, hlt, Nat.ne_of_gt hpos]; omega) hapart ⟨by simp, by simp⟩
  refine ⟨_, he, ha, ?_⟩
  change (State.passSoon _ _).part part = _
  simp [hp, hlin, hnil, addRange]

/-- A partition without code receives an arena of any size; its place is left open. -/
theorem partArena_given (bytes : Nat) (hc : p.codes = []) :
    ∃ (t : State) (b : Nat), exec (.partArena h part bytes) s = .next t ∧ Answered s h 0xD 0 t ∧ b % 64 = 0 ∧
      t.part part = some { p with arena := bytes, arenaBase := b } := by
  obtain ⟨he, ha⟩ := config_done (i := .partArena h part bytes) rfl ht h0 (by simp [hp, hlt]) (by simp [hp, Part.arenaUsed, hc]) ⟨rfl, rfl⟩
  refine ⟨_, part * 2 ^ 58 + 64 * (Config.freeNat s.ctr % 2 ^ 50), he, ha, by omega, ?_⟩
  change (State.modPart _ _ _).part part = _
  rw [State.part_modPart_self]
  change (s.part part).map _ = _
  simp [hp, hc]
  rfl

/-! ## VFs -/

/-- An unbound VF is bound, and expects message 0; what the part sends under its own numbers goes on as it was. -/
theorem vfBind_unbound {vf : Nat} (hv0 : 0 < vf) (hv : vf < 64) (hnone : (s.vf vf).part = none) :
    ∃ t : State, exec (.vfBind h vf part) s = .next t ∧ Answered s h 0xD 0 t ∧ (t.vf vf).part = some part ∧ (t.vf vf).expect = 0 ∧
      (t.vf vf).next = (s.vf vf).next ∧ (t.vf vf).unacked = (s.vf vf).unacked := by
  have hne : vf ≠ h.vf := by omega
  obtain ⟨he, ha⟩ := config_done (i := .vfBind h vf part) rfl ht h0 (by simp [hp, hlt, hv, Nat.ne_of_gt hv0])
    (by simp [hnone]) ⟨State.vf_modVf_other _ hne.symm _, rfl⟩
  refine ⟨_, he, ha, ?_⟩
  simp only [State.ackMsg, State.reply_vf_other _ h _ _ _ hne, State.vf_modVf_self, State.expecting_vf_other s h hne, and_self]

omit hlt hp in
/-- A VF without launches is unbound. -/
theorem vfUnbind_idle {vf : Nat} (hv0 : 0 < vf) (hv : vf < 64) (hl : ∀ l ∈ s.launches, l.vf ≠ vf) :
    ∃ t : State, exec (.vfUnbind h vf) s = .next t ∧ Answered s h 0xD 0 t ∧ (t.vf vf).part = none := by
  have hne : vf ≠ h.vf := by omega
  obtain ⟨he, ha⟩ := config_done (i := .vfUnbind h vf) rfl ht h0 (by simp [hv, Nat.ne_of_gt hv0])
    (by simpa using hl) ⟨State.vf_modVf_other _ hne.symm _, rfl⟩
  refine ⟨_, he, ha, ?_⟩
  simp only [State.ackMsg, State.reply_vf_other _ h _ _ _ hne, State.vf_modVf_self]
end

end Sys2Proof.Machine
end

