-- ==== Sys2Proof/Proofs/HostObjects.lean ====
section
/-! PROOF. UNLOAD, LOAD and LAUNCH of a bound VF (02 R52 to R54; 01 R40). -/

namespace Sys2Proof.Machine

/-! ## Reading staged memory -/

/-- What stands staged in memory does not depend on the VFs. -/
theorem State.stagedBytes_expecting (s : State) (h : VctHdr) (p : Part) (ia len : Nat) :
    (s.expecting h).stagedBytes p ia len = s.stagedBytes p ia len := rfl

/-- A code image stands in a code arena, and its object is a handle of the partition. -/
def State.placeCode (s : State) (part a : Nat) (p : Part) (c : Code) (bytes : List Byte) : State :=
  State.setPart { s with code := bytesWrite s.code a bytes, nextHandle := s.nextHandle + 1 } part
    { p with codes := p.codes ++ [{ c with handle := s.nextHandle, base := a }] }

@[simp] theorem State.placeCode_vf (s : State) (part a v : Nat) (p : Part) (c : Code) (bytes : List Byte) :
    (s.placeCode part a p c bytes).vf v = s.vf v := rfl

/-- An object that the loader accepts and that fits is placed, and its handle answered (01 R39, R40). -/
theorem State.loadInto_placed {b bytes : List Byte} {c : Code} {p : Part} {a : Nat} (hload : loadObject b = .ok (c, bytes))
    (ha : p.arenaPlace bytes.length = some a) (s : State) (h : VctHdr) (part : Nat) : s.loadInto h part p b =
      (s.placeCode part a p c bytes).loadResult h s.nextHandle 0 := by
  unfold State.loadInto
  simp only [hload, ha]
  rfl

/-- A launch joins its queue. -/
def State.enqueue (s : State) (l : Launch) : State := { s with launches := s.launches ++ [l], nextId := s.nextId + 1 }

@[simp] theorem State.enqueue_vf (s : State) (l : Launch) (v : Nat) : (s.enqueue l).vf v = s.vf v := rfl
@[simp] theorem State.enqueue_out (s : State) (l : Launch) : (s.enqueue l).out = s.out := rfl
@[simp] theorem State.enqueue_launches (s : State) (l : Launch) : (s.enqueue l).launches = s.launches ++ [l] := rfl

variable {s : State} {h : VctHdr} {part : Nat} {p : Part} (ht : HostTurn s h) (h0 : h.vf ≠ 0) (hn : (s.vf h.vf).part = some part)
  (hp : s.part part = some p)
include ht h0 hn hp

/-! ## UNLOAD -/

/-- The only handle of a partition without launches is freed at once (01 R40). -/
theorem unload_idle {c : Code} (hc : p.codes = [c]) (hu : c.unloading = false) (hl : s.launches = []) :
    ∃ t : State, exec (.unload h c.handle) s = .next t ∧ Answered s h 0xD 0 t ∧ t.part part = some { p with codes := [] } := by
  obtain ⟨he, ha⟩ := vctBound_answered (i := .unload h c.handle) (u := (s.expecting h).setPart part { p with codes := [] }) (ty := vtAck) (st := 0)
    (l := []) rfl ht h0 hn (by simp [hp, hc, hu, hl]; rfl) ⟨rfl, rfl⟩
  refine ⟨_, he, ha, ?_⟩
  rw [State.reply_part, State.part_setPart_self]

/-! ## LOAD -/

/-- An object that the loader accepts and that fits is placed, and its handle answered (02 R52; 01 R39). -/
theorem load_placed {ia len a : Nat} {b bytes : List Byte} {c : Code} (hin : p.inMemory ia len = true) (hb : s.stagedBytes p ia len = some b)
    (hload : loadObject b = .ok (c, bytes)) (ha : p.arenaPlace bytes.length = some a) :
    ∃ (t : State) (m : Msg), exec (.load h ia len) s = .next t ∧ t.out = s.out ++ [m] ∧ m.type_ = 0xA ∧ m.status = 0 ∧ m.tag = h.tag ∧
      m.payload = toBytes 8 s.nextHandle ∧ t.nextHandle = s.nextHandle + 1 ∧ t.code = bytesWrite s.code a bytes ∧
      t.part part = some { p with codes := p.codes ++ [{ c with handle := s.nextHandle, base := a }] } := by
  refine ⟨_, (s.expecting h).ownMsg h.vf vtLoadResult 0 h.tag h.port h.addr (toBytes 8 s.nextHandle), rfl, ?_⟩
  rw [State.vctBound_of_hostTurn ht h0 hn]
  simp only [State.expecting_part, hp, hin, if_true, State.stagedBytes_expecting, hb, State.loadInto_placed hload ha]
  rw [State.nextHeld_of_held_nil (by
    rw [State.loadResult, State.replyOwn_held, State.placeCode_vf]
    exact (congrArg Vf.held (s.expecting_vf_self h)).trans ht.held_nil)]
  refine ⟨rfl, rfl, rfl, rfl, rfl, rfl, rfl, ?_⟩
  exact State.part_setPart_self _ _ _

/-- A range outside the partition's memory is NAK BAD_ADDRESS. -/
theorem load_outside {ia len : Nat} (hin : p.inMemory ia len = false) :
    ∃ t : State, exec (.load h ia len) s = .next t ∧ Answered s h 0xE 10 t ∧ t.parts = s.parts ∧ t.code = s.code := by
  obtain ⟨he, ha⟩ := vctBound_answered (i := .load h ia len) (ty := vtNak) (st := nkBadAddress) (l := []) rfl ht h0 hn
    (by simp [hp, hin]; rfl) (unanswered_expecting s h)
  exact ⟨_, he, ha, rfl, rfl⟩

/-! ## LAUNCH -/

/-- A record that fails a check is refused with the code of the check (02 R54). -/
theorem launch_refused {r : LaunchRec} (hcode : s.launchCode h p r ≠ 0) :
    ∃ t : State, exec (.launch h r) s = .next t ∧ Answered s h 0xE (s.launchCode h p r) t ∧ t.launches = s.launches := by
  obtain ⟨he, ha⟩ := vctBound_answered (i := .launch h r) (ty := vtNak) (st := s.launchCode h p r) (l := []) rfl ht h0 hn
    (by simp only [State.expecting_part, hp]; exact if_pos hcode) (unanswered_expecting s h)
  exact ⟨_, he, ha, rfl⟩

/-- A record that passes them is queued, and a placement pass follows (02 R54, R60). -/
theorem launch_queued {r : LaunchRec} (hcode : s.launchCode h p r = 0) :
    ∃ (t : State) (l : Launch), exec (.launch h r) s = .next t ∧ Answered s h 0xD 0 t ∧ t.launches = s.launches ++ [l] ∧ l.state = 0 ∧ l.vf = h.vf ∧
      l.queue = h.queue ∧ l.part = part ∧ l.handle = r.handle ∧ l.tag = r.tag ∧ l.entry = r.entry ∧ l.count = r.count ∧ l.prio = r.prio ∧
      l.args = r.args ∧ l.id = s.dev.pkg * 2 ^ 48 + s.nextId ∧ t.nextId = s.nextId + 1 ∧ Instr.placementPass part ∈ t.inbox := by
  let l := LaunchRec.launchAs r h part (s.dev.pkg * 2 ^ 48 + s.nextId)
  let u : State := ((s.expecting h).enqueue l).passSoon part
  obtain ⟨he, ha⟩ := vctBound_answered (i := .launch h r) (u := u) (ty := vtAck) (st := 0) (l := []) rfl ht h0 hn
    (by
      simp only [State.expecting_part, hp]
      exact (if_neg (not_not.mpr hcode)).trans (State.passSoon_reply _ h _ _ _ _)) ⟨by simp [u], by simp [u]⟩
  refine ⟨_, l, he, ha, by simp [u], rfl, rfl, rfl, rfl, rfl, rfl, rfl, rfl, rfl, rfl, rfl, ?_, State.mem_passSoon_inbox _ _⟩
  exact (State.passSoon_nextId _ _).trans rfl

end Sys2Proof.Machine
end

