-- ==== Sys2Proof/Proofs/HostCancel.lean ====
section
/-! PROOF. How launches leave: what freeing one lets the other accesses do sends nothing to the host, a queued launch that is cancelled completes at
once (24 R466), and one that has ended and is quiet is released (24 R463 to R465). -/

namespace Sys2Proof.Machine

/-! ## What the host does not see -/

/-- Nothing has been sent to the host, and the launches stand as they were. -/
def KeepsHost (s t : State) : Prop := t.out = s.out ∧ t.launches = s.launches

theorem KeepsHost.refl (s : State) : KeepsHost s s := ⟨rfl, rfl⟩

theorem KeepsHost.trans {s t u : State} (h : KeepsHost s t) (k : KeepsHost t u) : KeepsHost s u := ⟨k.1.trans h.1, k.2.trans h.2⟩

theorem keepsHost_foldl {α : Type} {f : State → α → State} (h : ∀ t a, KeepsHost t (f t a)) (l : List α) (s : State) : KeepsHost s (l.foldl f s) := by
  induction l generalizing s with
  | nil => exact .refl s
  | cons a l ih => exact (h s a).trans (ih (f s a))

/-- The part writes an entry of a fault table (12 R321). -/
theorem keepsHost_writeFault (s : State) (p : Part) (r : FaultRec) (n : Nat) : KeepsHost s (s.writeFault p r n) := by
  unfold State.writeFault
  split
  · exact .refl s
  · rename_i a _
    have hk : KeepsHost s (s.keepOwn (a + 0x1000 + 48 * r.id) 48) := by
      unfold State.keepOwn
      split <;> exact ⟨rfl, rfl⟩
    exact hk.trans ⟨rfl, rfl⟩

theorem keepsHost_unlist (s : State) (gone : List Nat) : KeepsHost s (s.unlist gone) := by
  refine keepsHost_foldl (fun t e => keepsHost_foldl (fun u r => ?_) _ t) _ s
  refine KeepsHost.trans ?_ (keepsHost_writeFault _ _ _ _)
  exact ⟨rfl, rfl⟩

theorem keepsHost_leave (s : State) (n : Nat) : KeepsHost s (s.leave n) := by
  unfold State.leave
  split
  · exact .refl s
  · dsimp only
    split <;> exact ⟨rfl, rfl⟩

theorem keepsHost_handTo {f : Nat → State → State} (hf : ∀ e t, KeepsHost t (f e t)) (s : State) (n : Nat) (far : Option (Nat × Nat)) :
    KeepsHost s (s.handTo n far f) := by
  unfold State.handTo
  split
  · exact .refl s
  · split
    · exact ⟨rfl, rfl⟩
    · dsimp only
      split
      · exact ⟨rfl, rfl⟩
      · exact KeepsHost.trans ⟨rfl, rfl⟩ (hf _ _)

theorem keepsHost_toSlice (s : State) (n pa : Nat) : KeepsHost s (s.toSlice n pa) := by
  unfold State.toSlice
  split
  · exact .refl s
  · have hl : ∀ t : State, KeepsHost t (t.leave n) := fun t => keepsHost_leave t n
    have hh : ∀ t : State, KeepsHost t (t.handTo n none fun _ t => t.leave n) := fun t => keepsHost_handTo (fun _ t => hl t) t n none
    dsimp only
    split
    · split
      · exact KeepsHost.trans ⟨rfl, rfl⟩ (hl _)
      · exact KeepsHost.trans ⟨rfl, rfl⟩ (hh _)
    · exact KeepsHost.trans ⟨rfl, rfl⟩ (hh _)
    · exact KeepsHost.trans ⟨rfl, rfl⟩ (hl _)

theorem keepsHost_accFail (s : State) (n st : Nat) : KeepsHost s (s.accFail n st) := by
  unfold State.accFail
  split <;> exact ⟨rfl, rfl⟩

theorem keepsHost_sendOver (s : State) (n input addr ready : Nat) (k : Packet) : KeepsHost s (s.sendOver n input addr ready k) := by
  unfold State.sendOver
  split <;> exact ⟨rfl, rfl⟩

theorem keepsHost_toPeer (s : State) (n : Nat) : KeepsHost s (s.toPeer n) := by
  unfold State.toPeer
  split
  · split
    · exact keepsHost_accFail _ _ _
    · split
      · exact ⟨rfl, rfl⟩
      · split
        · exact keepsHost_accFail _ _ _
        · refine keepsHost_handTo (fun e t => ?_) _ _ _
          refine KeepsHost.trans ?_ (keepsHost_sendOver _ _ _ _ _ _)
          exact ⟨rfl, rfl⟩
  · exact .refl s

theorem keepsHost_enginesFree (s : State) (die : Nat) : KeepsHost s (s.enginesFree die) := by
  refine keepsHost_foldl (fun t a => ?_) _ s
  unfold State.engineRetry
  split
  · exact .refl t
  · split
    · exact keepsHost_toPeer _ _
    · exact keepsHost_toSlice _ _ _

/-! ## A launch without ranks leaves -/

theorem freeLaunch_unranked {l : Launch} (hr : l.ranks = []) (s : State) :
    (s.freeLaunch l).out = s.out ∧ (s.freeLaunch l).launches = s.launches.filter fun x => decide (x.id ≠ l.id) := by
  unfold State.freeLaunch
  dsimp only
  rw [State.passSoon_out, State.passSoon_launches, (keepsHost_foldl keepsHost_enginesFree _ _).1, (keepsHost_foldl keepsHost_enginesFree _ _).2, hr]
  exact ⟨(keepsHost_unlist _ _).1, rfl⟩

/-! ## CANCEL (24 R466) -/

/-- Byte 24 of a completion record is the end cause (24 R464). -/
theorem Launch.record_cause (l : Launch) (now : Nat) : (l.record now)[24]? = some (BitVec.ofNat 8 (l.cause.getD 0)) := rfl

/-- A launch that a CANCEL has ended: its cause is 3, and its pre-empted contexts may have held tokens. -/
def Launch.cancelledWith (l : Launch) (gone : List (Nat × Nat × Nat)) : Launch := { l.end_ 3 0xFFFF 0 0 0 with gone := gone }

theorem Launch.cancelledWith_eq {l : Launch} (hc : l.cause = none) (gone : List (Nat × Nat × Nat)) :
    l.cancelledWith gone = { l with cause := some 3, state := 2, crank := 0xFFFF, cword := 0, caddr := 0, cpc := 0, gone := gone } := by
  unfold Launch.cancelledWith Launch.end_
  simp only [hc]

/-- The only launch ends. -/
theorem endLaunch_only {s : State} {l : Launch} (hl : s.launches = [l]) (hc : l.cause = none) :
    (s.endLaunch l.id 3 0xFFFF 0 0 0).out = s.out ∧ (s.endLaunch l.id 3 0xFFFF 0 0 0).launches = [l.cancelledWith (s.victimTokens l.id)] := by
  have hf : s.launchOf l.id = some l := by simp [State.launchOf, hl]
  unfold State.endLaunch
  simp only [hf, hc, Option.isSome_none, Bool.false_eq_true, if_false]
  refine ⟨rfl, ?_⟩
  simp [State.modLaunch, hl, updFirst, Launch.cancelledWith]

section
variable {s : State} {h : VctHdr} {part tag : Nat} (ht : HostTurn s h) (h0 : h.vf ≠ 0) (hn : (s.vf h.vf).part = some part)
include ht h0 hn

/-- A CANCEL that names no launch of its VF is NAK BAD_HANDLE. -/
theorem cancel_unknown (hl : ∀ l ∈ s.launches, l.vf ≠ h.vf ∨ l.tag ≠ tag) :
    ∃ t : State, exec (.cancel h tag) s = .next t ∧ Answered s h 0xE 4 t ∧ t.launches = s.launches := by
  have hnone : (s.expecting h).cancelled h.vf tag = [] := by
    simp only [State.cancelled, State.expecting_launches, List.filter_eq_nil_iff, Bool.and_eq_true, decide_eq_true_eq]
    rintro l hmem ⟨⟨hv, htag⟩, -⟩
    exact (hl l hmem).elim (· hv) (· htag)
  obtain ⟨he, ha⟩ := vctBound_answered (i := .cancel h tag) (ty := vtNak) (st := nkBadHandle) (l := []) rfl ht h0 hn
    (by simp only [State.cancelTag, hnone, List.isEmpty_nil, if_true]; rfl) (unanswered_expecting s h)
  exact ⟨_, he, ha, rfl⟩

/-- A queued launch that is cancelled leaves at once: the message is answered, and then the launch completes with CANCELLED. -/
theorem cancel_queued {l : Launch} (hl : s.launches = [l]) (hv : l.vf = h.vf) (htag : l.tag = tag) (hst : l.state = 0) (hc : l.cause = none)
    (hr : l.ranks = []) : ∃ (t : State) (m1 m2 : Msg), exec (.cancel h tag) s = .next t ∧ t.launches = [] ∧ t.out = s.out ++ [m1, m2] ∧
      m1.type_ = 0xD ∧ m1.seq = h.seq ∧ m2.type_ = 5 ∧ m2.tag = l.msgTag ∧ m2.payload[24]? = some 3 := by
  let u := s.expecting h
  let x := l.cancelledWith (u.victimTokens l.id)
  let t := (u.endLaunch l.id 3 0xFFFF 0 0 0).ackMsg h
  have hx : x = { l with cause := some 3, state := 2, crank := 0xFFFF, cword := 0, caddr := 0, cpc := 0, gone := u.victimTokens l.id } :=
    l.cancelledWith_eq hc _
  obtain ⟨hout, hlaunches⟩ := endLaunch_only (s := u) (l := l) hl hc
  have hfind : t.launchOf l.id = some x := by
    rw [State.launchOf, show t.launches = [x] from hlaunches, List.find?_cons_of_pos (by simp [hx])]
  have hnamed : u.cancelled h.vf tag = [l] := by
    simp [State.cancelled, u, hl, hv, htag, hst]
  have hrun : u.cancelTag h tag = (t.sendComplete x).freeLaunch x := by
    simp only [State.cancelTag, hnamed, List.isEmpty_cons, Bool.false_eq_true, if_false, List.foldl_cons, List.foldl_nil, List.filter_cons, hst,
      List.filter_nil]
    simp only [t] at hfind
    simp [hfind, t]
  obtain ⟨hfo, hfl⟩ := freeLaunch_unranked (l := x) (by rw [hx]; exact hr) (t.sendComplete x)
  refine ⟨_, hostAnswer h vtAck 0 [], t.ownMsg x.vf vtComplete 0 x.msgTag x.port x.addr (x.record t.now), rfl, ?_, ?_, rfl, rfl, rfl, ?_, ?_⟩
  · rw [State.vctBound_of_hostTurn ht h0 hn, State.nextHeld_launches]
    change (u.cancelTag h tag).launches = []
    rw [hrun, hfl]
    simp [State.sendComplete, show t.launches = [x] from hlaunches]
  · rw [State.vctBound_of_hostTurn ht h0 hn, State.nextHeld_out]
    change (u.cancelTag h tag).out = _
    rw [hrun, hfo, State.sendComplete, State.sendOwn_out, show t.out = s.out ++ [hostAnswer h vtAck 0 []] from congrArg (· ++ _) hout, List.append_assoc]
    rfl
  · rw [hx]; rfl
  · exact (Launch.record_cause x t.now).trans (by rw [hx]; rfl)
end

/-! ## Release (24 R463 to R465) -/

theorem KMap.find_mapValues {α : Type} (f : Nat → α → α) (k : Nat) (m : KMap α) :
    KMap.find k (m.map fun e => (e.1, f e.1 e.2)) = (KMap.find k m).map (f k) := by
  induction m with
  | nil => rfl
  | cons e m ih =>
    obtain ⟨j, v⟩ := e
    by_cases hj : j = k
    · subst hj; simp [KMap.find]
    · simpa [KMap.find, hj] using ih

end Sys2Proof.Machine
end

