-- ==== Sys2Proof/Proofs/HostRelease.lean ====
section
/-! PROOF. A launch that has ended and is quiet is released (24 R463 to R465): its SPs are free, and COMPLETE is sent. -/

namespace Sys2Proof.Machine

/-! ## Freeing a launch while no access is in flight -/

/-- No fault record loses an access. -/
theorem State.unlist_nil (s : State) : s.unlist [] = s := by
  have hnone : ∀ l : List FaultRec, (l.filter fun r => r.parked.any ([] : List Nat).contains) = [] := fun l => by simp
  unfold State.unlist
  simp only [hnone, List.foldl_nil]
  exact List.foldl_fixed _

/-- No access waits for a fabric copy engine. -/
theorem State.enginesFree_of_accs_nil {s : State} (ha : s.accs = []) (die : Nat) : s.enginesFree die = s := by
  simp [State.enginesFree, ha]

theorem State.foldl_enginesFree_of_accs_nil {s : State} (ha : s.accs = []) (l : List Nat) : l.foldl State.enginesFree s = s := by
  induction l with
  | nil => rfl
  | cons d l ih => rw [List.foldl_cons, State.enginesFree_of_accs_nil ha, ih]

/-- An SP that is not as at reset is listed. -/
theorem State.find_sps {s : State} {k : Nat} (h : s.sp k ≠ Sp.init) : KMap.find k s.sps = some (s.sp k) := by
  unfold State.sp KMap.get at h ⊢
  cases hf : KMap.find k s.sps with
  | none => simp [hf] at h
  | some p => rfl

/-- SP `n` after the launch has been freed. -/
def Launch.freedSp (l : Launch) (n : Nat) (p : Sp) : Sp := if l.ranks.contains n then p.release l.id (l.groups.map (·.2)) else p

/-- A launch on one SP whose contexts hold no tokens leaves: nothing is sent, and its SP is released. -/
theorem freeLaunch_quiet {s : State} {l : Launch} {k : Nat} (ha : s.accs = []) (hr : l.ranks = [k]) (hd : s.dropTokens l.id k = s)
    (hk : s.sp k ≠ Sp.init) :
    (s.freeLaunch l).out = s.out ∧ (s.freeLaunch l).launches = s.launches.filter (fun x => decide (x.id ≠ l.id)) ∧
      (s.freeLaunch l).sp k = (s.sp k).release l.id (l.groups.map (·.2)) ∧ Instr.placementPass l.part ∈ (s.freeLaunch l).inbox := by
  have hsp : (KMap.find k (s.sps.map fun (e : Nat × Sp) => if l.ranks.contains e.1 then (e.1, e.2.release l.id (l.groups.map (·.2))) else e)) =
      some ((s.sp k).release l.id (l.groups.map (·.2))) := by
    have hmap : (fun (e : Nat × Sp) => if l.ranks.contains e.1 then (e.1, e.2.release l.id (l.groups.map (·.2))) else e) =
        fun e => (e.1, l.freedSp e.1 e.2) := by
      funext e; unfold Launch.freedSp; split <;> rfl
    rw [hmap, KMap.find_mapValues, State.find_sps hk]
    simp [Launch.freedSp, hr]
  unfold State.freeLaunch
  simp only [hr, List.foldl_cons, List.foldl_nil, hd]
  rw [State.foldl_enginesFree_of_accs_nil (by simp [ha])]
  simp only [State.modPart_accs, ha, List.filter_nil, List.map_nil, State.unlist_nil]
  refine ⟨by simp, by simp, ?_, State.mem_passSoon_inbox _ _⟩
  rw [hr] at hsp
  rw [State.passSoon_sp]
  exact congrArg (Option.getD · Sp.init) hsp

/-! ## LAUNCH_RELEASE -/

section
variable {k : Nat} {l : Launch} {d : Ctx} {s : State} (hl : s.launches = [l]) (hr : l.ranks = [k]) (hctx : (s.sp k).ctx = none)
  (hleft : (s.sp k).left = some d) (hvict : (s.sp k).victims = []) (hd : d.launch = l.id)
include hl hr hctx hleft hvict hd

omit hl hr in
/-- The context that has exited is the only one of the launch on its SP. -/
theorem contextsOf_left : (s.sp k).contextsOf l.id = [d] := by
  simp [Sp.contextsOf, hctx, hleft, hvict, hd]

omit hr in
/-- Without tokens there is nothing to give up. -/
theorem dropTokens_none (htok : d.tokens = []) (hgone : l.gone = []) : s.dropTokens l.id k = s := by
  have hf : s.launchOf l.id = some l := by simp [State.launchOf, hl]
  simp [State.dropTokens, contextsOf_left hctx hleft hvict hd, htok, hf, hgone]

/-- An ended launch whose only context has exited, with no write in flight and no token held, is released. -/
theorem launchRelease_done (hst : l.state = 2) (ha : s.accs = []) (hrole : ∀ p, s.part l.part = some p → p.migr.role = 0)
    (hheld : (s.sp k).held = some l.id) (hsb : d.sb = []) (htok : d.tokens = []) (hgone : l.gone = []) :
    ∃ (t : State) (m : Msg), exec (.launchRelease l.id) s = .next t ∧ t.launches = [] ∧ t.out = s.out ++ [m] ∧ m.type_ = 5 ∧ m.vf = l.vf ∧
      m.tag = l.msgTag ∧ m.payload = l.record s.now ∧ (t.sp k).held = none ∧ (t.sp k).ctx = none ∧ (t.sp k).left = none ∧
      (t.sp k).victims = [] ∧ Instr.placementPass l.part ∈ t.inbox := by
  have hf : s.launchOf l.id = some l := by simp [State.launchOf, hl]
  have hcs := contextsOf_left hctx hleft hvict hd
  have hquiet : s.launchQuiet l = true := by simp [State.launchQuiet, ha, hr, hcs, hsb]
  have hsource : ((s.part l.part).any fun p => decide (p.migr.role = 1)) = false := by
    cases hp : s.part l.part with
    | none => rfl
    | some p => simp [hrole p hp]
  have htables : s.tablesAbsent l = none := by simp [State.tablesAbsent, hr, hcs, htok, hgone]
  have hrun : exec (.launchRelease l.id) s = .next ((s.sendComplete l).freeLaunch l) := by
    rw [exec_launchRelease, execLaunchRelease]
    simp [hf, hst, hquiet, hsource, htables]
  have hk : s.sp k ≠ Sp.init := fun h => by simp [h, Sp.init] at hleft
  obtain ⟨hout, hlaunches, hsp, hpass⟩ := freeLaunch_quiet (s := s.sendComplete l) (l := l) (k := k) ha hr
    (dropTokens_none (s := s.sendComplete l) hl hctx hleft hvict hd htok hgone) hk
  have hsp' : ((s.sendComplete l).freeLaunch l).sp k = (s.sp k).release l.id (l.groups.map (·.2)) := hsp
  refine ⟨_, s.ownMsg l.vf vtComplete 0 l.msgTag l.port l.addr (l.record s.now), hrun, ?_, hout, rfl, rfl, rfl, rfl, ?_, ?_, ?_, ?_, hpass⟩
  · rw [hlaunches]
    simp [State.sendComplete, hl]
  all_goals
    rw [hsp']
    simp [Sp.release, hctx, hleft, hvict, hheld, hd]
end

end Sys2Proof.Machine
end

