-- ==== Sys2Proof/Proofs/HostTransfer.lean ====
section
/-! PROOF. WRITE and READ (02 R50, R51): a transfer within one line of linear memory sends its one beat, and a transfer whose beats are all done is
answered. -/

namespace Sys2Proof.Machine

/-! ## The only access in flight -/

section
variable {s : State} {a : Acc} {n : Nat} (hs : s.accs = [a]) (hid : a.id = n)
include hs hid

theorem State.acc_only : s.acc n = some a := by simp [State.acc, hs, hid]

theorem State.modAcc_only (f : Acc → Acc) : s.modAcc n f = { s with accs := [f a] } := by simp [State.modAcc, hs, hid, updFirst]

/-- It leaves for its slice, and meets no other on its line (12 R328 to R330). -/
theorem State.leave_only : ∃ r, s.leave n = { s with ctr := s.ctr + 1, accs := [{ a with state := 2, ready := r }] } := by
  have hcrowd : (s.accs.any fun b => b.goes a.pa && decide (b.src.engine ≠ a.src.engine)) = false := by simp [hs]
  unfold State.leave
  rw [State.acc_only hs hid]
  simp only [hcrowd, Bool.false_eq_true, if_false]
  exact ⟨_, State.modAcc_only (s := s.fresh.2) hs hid _⟩

/-- The first engine of its die takes it, which holds no beat (15 R384). -/
theorem State.handTo_only (heng : a.eng = none) (hdie : a.die = 4) (hfree : (s.engine 64).beats = []) (f : Nat → State → State) :
    s.handTo n none f = f 64 { s with accs := [{ a with eng := some 64 }] } := by
  have hload : s.engineLoad 64 = 0 := by simp [State.engineLoad, hs, heng, hfree]
  have hfor : s.engineFor 4 = some 64 := by
    unfold State.engineFor
    rw [show ((List.range 16).map (4 * 16 + ·)) = 64 :: (List.range' 65 15) from by decide, List.find?_cons_of_pos (by simp [hload])]
  have hsent : s.engineSent 64 none a.pa = false := by simp [State.engineSent, hs, heng]
  unfold State.handTo
  rw [State.acc_only hs hid]
  simp only [heng, hdie, Option.orElse_none, hfor, hsent, Bool.false_eq_true, if_false, State.modAcc_only hs hid]

/-- A beat of a host transfer goes to its slice by that engine. -/
theorem State.toSlice_only {id pa : Nat} (hsrc : a.src = .host id) (heng : a.eng = none) (hdie : a.die = 4) (hfree : (s.engine 64).beats = []) :
    ∃ r, s.toSlice n pa = { s with ctr := s.ctr + 1, accs := [{ a with pa := pa, eng := some 64, state := 2, ready := r }] } := by
  unfold State.toSlice
  rw [State.acc_only hs hid]
  simp only [hsrc]
  rw [State.modAcc_only hs hid, State.handTo_only (s := { s with accs := [{ a with pa := pa }] }) rfl hid heng hdie hfree]
  rw [← hsrc]
  exact State.leave_only (s := { s with accs := [{ a with pa := pa, eng := some 64 }] }) rfl hid

/-- A linear IA inside the partition's memory is the address (12 R305). -/
theorem State.translate_only {id : Nat} {p : Part} (hsrc : a.src = .host id) (heng : a.eng = none) (hdie : a.die = 4)
    (hfree : (s.engine 64).beats = []) (hp : s.part a.part = some p) (hia : a.ia < 2 ^ 39) (hin : inRanges p.linear a.ia a.n = true) :
    ∃ r, s.translate n = { s with ctr := s.ctr + 1, accs := [{ a with pa := a.ia, eng := some 64, state := 2, ready := r }] } := by
  have hw : iaWindow a.ia = 0 := by unfold iaWindow; omega
  have hh : iaHole a.ia = false := by simp only [iaHole, Bool.and_eq_false_iff, decide_eq_false_iff_not]; omega
  have hl : iaLinear a.ia = true := by simpa [iaLinear] using hia
  unfold State.translate
  simp only [State.acc_only hs hid, Option.bind_some, hp, hw, hh, hl, hin, ne_eq, not_true_eq_false, Bool.false_eq_true, if_false, if_true]
  exact State.toSlice_only hs hid hsrc heng hdie hfree
end

/-- A beat of a host transfer is sent while no other access is in flight. -/
theorem State.sendIa_only {s : State} {a : Acc} {id : Nat} {p : Part} (hs : s.accs = []) (hsrc : a.src = .host id) (heng : a.eng = none)
    (hdie : a.die = 4) (hfree : (s.engine 64).beats = []) (hp : s.part a.part = some p) (hia : a.ia < 2 ^ 39)
    (hin : inRanges p.linear a.ia a.n = true) :
    ∃ r, s.sendIa a = { s with ctr := s.ctr + 1, nextAcc := s.nextAcc + 1,
                               accs := [{ a with id := s.nextAcc, sentAt := s.now, pa := a.ia, eng := some 64, state := 2, ready := r }] } :=
  State.translate_only (s := (s.addAcc a).2) (a := { a with id := s.nextAcc, sentAt := s.now }) (by simp [State.addAcc, hs]) rfl hsrc heng hdie
    hfree hp hia hin

/-! ## Beats of a transfer -/

theorem updFirst_append_last {α : Type} {q : α → Bool} {l : List α} {x : α} (hl : ∀ y ∈ l, q y = false) (hx : q x = true) (f : α → α) :
    updFirst q f (l ++ [x]) = l ++ [f x] := by
  induction l with
  | nil => simp [updFirst, hx]
  | cons y l ih =>
    rw [List.cons_append, updFirst, hl y List.mem_cons_self]
    simp [ih fun z hz => hl z (List.mem_cons_of_mem y hz)]

theorem find?_append_last {α : Type} {q : α → Bool} {l : List α} {x : α} (hl : ∀ y ∈ l, q y = false) (hx : q x = true) :
    (l ++ [x]).find? q = some x := by
  rw [List.find?_append, List.find?_eq_none.mpr fun y hy => by simp [hl y hy]]
  simp [hx]

/-- A step that does nothing a second time may as well be done once. -/
theorem foldl_once {α β : Type} {f : β → β} {b : β} (h : f (f b) = f b) {l : List α} (hl : l ≠ []) : l.foldl (fun t _ => f t) b = f b := by
  obtain ⟨a, l, rfl⟩ := List.exists_cons_of_ne_nil hl
  rw [List.foldl_cons]
  induction l with
  | nil => rfl
  | cons c l ih => rw [List.foldl_cons, h]; exact ih (by simp)

/-- A transfer that has been sent in full sends no more. -/
theorem State.xfrBeat_sent {s : State} {id : Nat} {x : Xfr} (hf : (s.xfrs.find? fun y => decide (y.id = id)) = some x) (hleft : x.left = 0) :
    s.xfrBeat id = s := by
  unfold State.xfrBeat
  simp only [hf, hleft, or_true, if_true]

theorem Xfr.piece_all (x : Xfr) : x.piece 0 x.data.length = x.data := by simp [Xfr.piece]

/-- The only beat of a transfer within one line. -/
def Xfr.beat (x : Xfr) : Acc :=
  Acc.new (.host x.id) x.part (if x.write then .write else .read) 0 x.ia x.len (if x.write then x.piece 0 x.len else []) 4

/-- That beat is on its way to its slice, where it arrives on cycle `r`; `l` are the other transfers. -/
def State.xfrSent (s : State) (l : List Xfr) (x : Xfr) (r : Nat) : State :=
  { s with ctr := s.ctr + 1, nextAcc := s.nextAcc + 1, xfrs := l ++ [{ x with left := 0 }],
           accs := [{ x.beat with id := s.nextAcc, sentAt := s.now, pa := x.ia, eng := some 64, state := 2, ready := r }] }

@[simp] theorem State.xfrSent_vf (s : State) (l : List Xfr) (x : Xfr) (r v : Nat) : (s.xfrSent l x r).vf v = s.vf v := rfl

section
variable {s : State} {l : List Xfr} {x : Xfr} {p : Part} (hx : s.xfrs = l ++ [x]) (hid : ∀ y ∈ l, y.id ≠ x.id) (hpark : x.parked = false)
  (hleft : x.left = x.len) (hpos : 0 < x.len) (hline : x.len ≤ 64 - x.ia % 64) (hend : x.ia + x.len ≤ 2 ^ 39) (hp : s.part x.part = some p)
  (hin : inRanges p.linear x.ia x.len = true) (hacc : s.accs = []) (hfree : (s.engine 64).beats = [])
include hx hid hpark hleft hpos hline hend hp hin hacc hfree

theorem State.xfrBeat_line : ∃ r, s.xfrBeat x.id = s.xfrSent l x r := by
  have hother : ∀ y ∈ l, decide (y.id = x.id) = false := fun y hy => by simpa using hid y hy
  have hlen : beatLen x.ia x.len = x.len := by unfold beatLen; omega
  have hfind : (s.xfrs.find? fun y => decide (y.id = x.id)) = some x := by rw [hx]; exact find?_append_last hother (by simp)
  obtain ⟨r, hsend⟩ := State.sendIa_only (s := { s with xfrs := l ++ [{ x with left := 0 }] }) (a := x.beat) hacc rfl rfl rfl hfree hp
    (by change x.ia < _; omega) hin
  refine ⟨r, ?_⟩
  unfold State.xfrBeat
  simp only [hfind, hpark, hleft, Nat.ne_of_gt hpos, Bool.false_eq_true, or_self, if_false, Nat.sub_self, Nat.add_zero, hlen]
  rw [hx, updFirst_append_last hother (by simp)]
  simp only [hleft, Nat.sub_self]
  exact hsend

/-- A transfer within one line of linear memory, the newest of the part, is sent as one beat. -/
theorem State.xfrSend_line : ∃ r, s.xfrSend x = s.xfrSent l x r := by
  obtain ⟨r, hbeat⟩ := State.xfrBeat_line hx hid hpark hleft hpos hline hend hp hin hacc hfree
  have hother : ∀ y ∈ l, decide (y.id = x.id) = false := fun y hy => by simpa using hid y hy
  have hagain : (s.xfrSent l x r).xfrBeat x.id = s.xfrSent l x r :=
    State.xfrBeat_sent (x := { x with left := 0 }) (find?_append_last hother (by simp)) rfl
  refine ⟨r, ?_⟩
  have hne : List.range 129 ≠ [] := List.ne_nil_of_mem (List.mem_range.mpr (Nat.zero_lt_succ 128))
  have honce := foldl_once (f := fun t : State => t.xfrBeat x.id) (b := s) (by simp only [hbeat, hagain]) hne
  unfold State.xfrSend
  rw [honce, hbeat]
end

/-! ## WRITE and READ -/

/-- The transfer that a message begins: its number is the part's next one. -/
def State.newXfr (s : State) (h : VctHdr) (part ia len : Nat) (write : Bool) (data : List Byte) : Xfr :=
  { id := s.nextAcc, launch := 0, vf := h.vf, seq := h.seq, tag := h.tag, addr := h.addr, port := h.port, part := part, write := write, ia := ia,
    len := len, left := len, data := data, parked := false, cancelled := false }

/-- A WRITE or READ within one line of linear memory sends its beat; the message stays in execution (02 R51). -/
theorem transfer_begins {s : State} {h : VctHdr} {part : Nat} {p : Part} (ht : HostTurn s h) (h0 : h.vf ≠ 0) (hn : (s.vf h.vf).part = some part)
    (hp : s.part part = some p) (wr : Bool) {ia : Nat} {data : List Byte} (hne : data ≠ []) (hline : data.length ≤ 64 - ia % 64)
    (hend : ia + data.length ≤ 2 ^ 39) (hin : inRanges p.linear ia data.length = true) (hacc : s.accs = []) (hfree : (s.engine 64).beats = [])
    (hids : ∀ x ∈ s.xfrs, x.id < s.nextAcc) :
    ∃ (t : State) (a : Acc) (x : Xfr), exec (if wr then .write h ia data else .read h ia data.length) s = .next t ∧
      t.accs = [a] ∧ a.eng = some 64 ∧ t.xfrs = s.xfrs ++ [x] ∧ a.src = .host x.id ∧ a.ia = ia ∧ a.pa = ia ∧ a.n = data.length ∧ a.state = 2 ∧
      a.kind = (if wr then .write else .read) ∧ a.data = (if wr then data else []) ∧ x.left = 0 ∧ x.seq = h.seq ∧ x.vf = h.vf ∧
      (t.vf h.vf).busy = some h.seq ∧ t.out = s.out ∧ t.mem = s.mem := by
  have hpos : 0 < data.length := List.length_pos_iff.mpr hne
  have hmem : p.inMemory ia data.length = true := by simp [Part.inMemory, hin]
  let e := s.expecting h
  let x := e.newXfr h part ia data.length wr (if wr then data else [])
  let u : State := State.modVf { e with xfrs := e.xfrs ++ [x], nextAcc := e.nextAcc + 1 } h.vf fun v => { v with busy := some h.seq }
  obtain ⟨r, hsend⟩ := State.xfrSend_line (s := u) (l := s.xfrs) (x := x) (p := p) rfl (fun y hy => Nat.ne_of_lt (hids y hy)) rfl rfl hpos hline hend
    hp hin hacc hfree
  have hbusy : ((u.xfrSent s.xfrs x r).vf h.vf).busy = some h.seq := by simp only [State.xfrSent_vf, u, State.vf_modVf_self]
  have hrun : exec (if wr then .write h ia data else .read h ia data.length) s = .next (u.xfrSent s.xfrs x r) := by
    have hlong : ¬(data.isEmpty = true ∨ 8192 < data.length) := by simp [hne]; omega
    have hlen : ¬(data.length = 0 ∨ 8192 < data.length) := by omega
    have hheld : (u.xfrSent s.xfrs x r).nextHeld h.vf = u.xfrSent s.xfrs x r := State.nextHeld_of_busy (by rw [hbusy]; rfl)
    have hbegin : e.xfrBegin h part ia data.length wr (if wr then data else []) = u.xfrSent s.xfrs x r := hsend
    cases wr
    · simp only [Bool.false_eq_true, if_false, exec_read, execRead]
      rw [State.vctBound_of_hostTurn ht h0 hn]
      simp only [State.expecting_part, hp, Option.any_some, hmem, hlen, if_false, if_true]
      exact congrArg _ ((congrArg (State.nextHeld · h.vf) hbegin).trans hheld)
    · simp only [if_true, exec_write, execWrite]
      rw [State.vctBound_of_hostTurn ht h0 hn]
      simp only [State.expecting_part, hp, Option.any_some, hmem, hlong, if_false, if_true]
      exact congrArg _ ((congrArg (State.nextHeld · h.vf) hbegin).trans hheld)
  refine ⟨_, _, { x with left := 0 }, hrun, rfl, rfl, rfl, rfl, rfl, rfl, rfl, rfl, rfl, ?_, rfl, rfl, rfl, hbusy, rfl, rfl⟩
  cases wr
  · rfl
  · exact Xfr.piece_all x

/-! ## The end of a transfer -/

/-- The header of the message that began a transfer, as its answer needs it. -/
def Xfr.header (x : Xfr) : VctHdr := ⟨x.vf, x.seq, 0, x.tag, x.addr, x.port⟩

/-- A transfer of the host has ended, and its VF is free for the next message. -/
def State.xfrClosed (s : State) (x : Xfr) : State :=
  State.modVf { s with ctr := s.ctr + 8193, xfrs := s.xfrs.filter fun y => decide (y.id ≠ x.id),
                       accs := s.accs.filter fun a => decide (a.src ≠ Src.host x.id) } x.vf fun v => { v with busy := none }

/-- What the host is answered: READ_DATA with what has been read, ACK of a write, or NAK CANCELLED. -/
def Xfr.verdict (x : Xfr) (data : List Byte) : Nat × Nat × List Byte :=
  if x.cancelled then (vtNak, nkCancelled, []) else if x.write then (vtAck, 0, []) else (vtReadData, 0, data)

theorem State.xfrEnd_host {s : State} {x : Xfr} (hl : x.launch = 0) (hheld : (s.vf x.vf).held = []) : s.xfrEnd x =
    (s.xfrClosed x).reply x.header (x.verdict (s.xfrData x)).1 (x.verdict (s.xfrData x)).2.1 (x.verdict (s.xfrData x)).2.2 := by
  have hnext : ∀ ty st l, ((s.xfrClosed x).reply x.header ty st l).nextHeld x.vf = (s.xfrClosed x).reply x.header ty st l := by
    refine fun ty st l => State.nextHeld_of_held_nil ?_
    have hv : ((s.xfrClosed x).reply x.header ty st l).vf x.vf = _ := State.reply_vf_self (s.xfrClosed x) x.header ty st l
    rw [hv]
    refine (congrArg Vf.held (State.vf_modVf_self _ _ _)).trans hheld
  unfold State.xfrEnd Xfr.verdict
  simp only [hl, ne_eq, not_true_eq_false, if_false]
  cases x.cancelled
  · cases x.write
    · exact hnext _ _ _
    · exact hnext _ _ _
  · exact hnext _ _ _

theorem beatsOf_line {ia len : Nat} (hpos : 0 < len) (hline : len ≤ 64 - ia % 64) : beatsOf ia len 0 len = [(0, len)] := by
  have hlen : beatLen ia len = len := by unfold beatLen; omega
  obtain ⟨n, rfl⟩ := Nat.exists_eq_succ_of_ne_zero (Nat.ne_of_gt hpos)
  unfold beatsOf
  simp only [Nat.add_zero, Nat.sub_zero, hlen, Nat.zero_add]
  cases n <;> simp [beatsOf]

/-- A READ within one line returns what its beat has read. -/
theorem State.xfrData_line {s : State} {x : Xfr} {a : Acc} (hs : s.accs = [a]) (hsrc : a.src = .host x.id) (hva : a.va = 0) (hok : a.status = 0)
    (hpos : 0 < x.len) (hline : x.len ≤ 64 - x.ia % 64) : s.xfrData x = a.result := by
  have hback : (s.readBack a).1 = a.result := by simp [State.readBack, hok]
  simp [State.xfrData, beatsOf_line hpos hline, hs, hsrc, hva, hback]

/-- Once every beat is done, the transfer ends and is answered (02 R51). -/
theorem hostTransferComplete_done {x : Xfr} {s : State} (hx : s.xfrs = [x]) (hl : x.launch = 0) (hleft : x.left = 0) (hpark : x.parked = false)
    (hheld : (s.vf x.vf).held = []) (hdone : ∀ a ∈ s.accs, a.src = .host x.id → s.accDone a = true) :
    ∃ (t : State) (m : Msg), exec (.hostTransferComplete x.id) s = .next t ∧ t.xfrs = [] ∧ (t.vf x.vf).busy = none ∧ t.out = s.out ++ [m] ∧
      m.vf = x.vf ∧ m.seq = x.seq ∧ m.tag = x.tag ∧ (x.cancelled = true → m.type_ = 0xE ∧ m.status = 9) ∧
      (x.cancelled = false → x.write = true → m.type_ = 0xD) ∧ (x.cancelled = false → x.write = false → m.type_ = 4) ∧
      ∀ a, x.cancelled = false → x.write = false → s.accs = [a] → a.src = .host x.id → a.va = 0 → a.status = 0 → 0 < x.len →
        x.len ≤ 64 - x.ia % 64 → m.payload = a.result := by
  let w := x.verdict (s.xfrData x)
  have hall : ((s.accs.filter fun a => decide (a.src = Src.host x.id)).all s.accDone) = true := by
    simp only [List.all_eq_true, List.mem_filter, decide_eq_true_eq]
    exact fun a ⟨hmem, hsrc⟩ => hdone a hmem hsrc
  have hrun : exec (.hostTransferComplete x.id) s = .next ((s.xfrClosed x).reply x.header w.1 w.2.1 w.2.2) := by
    rw [exec_hostTransferComplete, execHostTransferComplete]
    simp [hx, hpark, hall, hleft, State.xfrEnd_host hl hheld, w]
  have hverdict : w = x.verdict (s.xfrData x) := rfl
  refine ⟨_, hostAnswer x.header w.1 w.2.1 w.2.2, hrun, ?_, ?_, rfl, rfl, rfl, rfl, fun hc => ?_, fun hc hw => ?_, fun hc hw => ?_, ?_⟩
  · simp [State.xfrClosed, hx]
  · have hv := State.reply_vf_self (s.xfrClosed x) x.header w.1 w.2.1 w.2.2
    exact (congrArg Vf.busy hv).trans (congrArg Vf.busy (State.vf_modVf_self _ _ _))
  · simp [hostAnswer, hverdict, Xfr.verdict, hc]
  · simp [hostAnswer, hverdict, Xfr.verdict, hc, hw]
  · simp [hostAnswer, hverdict, Xfr.verdict, hc, hw]
  · intro a hc hw hs hsrc hva hok hpos hline
    simp [hostAnswer, hverdict, Xfr.verdict, hc, hw, State.xfrData_line hs hsrc hva hok hpos hline]

end Sys2Proof.Machine
end

