-- ==== Sys2Proof/Proofs/HostPlacement.lean ====
section
/-! PROOF. A placement pass starts the head whose plan can be met (02 R58, R60), and what a launch on one SP finds at its start (02 R55, R56). -/

namespace Sys2Proof.Machine

/-! ## The pass -/

/-- A head that no other stands before starts when its plan can be met (02 R60). -/
theorem State.consider_starts {s : State} {l : Launch} {p : Part} {c : Code} {q : Plan} (hf : s.launchOf l.id = some l)
    (hp : s.part l.part = some p) (hc : s.codeOf l = some c) (hres : s.resumeFirst l = false)
    (hplan : (s.planFor l c p fun j => s.canTake l j) = some q) {blockers : List Launch} (hb : blockers = [] ∨ blockers = [l]) :
    s.consider blockers l = s.startLaunch l c q := by
  unfold State.consider
  rcases hb with rfl | rfl <;> simp [hf, hp, hc, hres, hplan]

/-- A pass over a single head starts it. -/
theorem placementPass_starts {s : State} {part : Nat} {l : Launch} {p : Part} {c : Code} {q : Plan} (hp : s.part part = some p)
    (hrole : p.migr.role = 0) (horder : s.passOrder part = [l]) (hf : s.launchOf l.id = some l) (hpart : l.part = part)
    (hc : s.codeOf l = some c) (hres : s.resumeFirst l = false) (hplan : (s.planFor l c p fun j => s.canTake l j) = some q) :
    exec (.placementPass part) s = .next (s.startLaunch l c q) := by
  have hblock : ([l].filter fun b => decide (64 ≤ b.passes)) = [] ∨ ([l].filter fun b => decide (64 ≤ b.passes)) = [l] := by
    by_cases h64 : 64 ≤ l.passes <;> simp [h64]
  rw [exec_placementPass, execPlacementPass]
  simp only [hp, Option.all_some, hrole, horder, List.foldl_cons, List.foldl_nil]
  rw [State.consider_starts hf (hpart ▸ hp) hc hres hplan hblock]
  simp

/-! ## Reading a launch after a change of it -/

theorem find?_updFirst {α : Type} {q : α → Bool} {x : α} {f : α → α} {l : List α} (h : l.find? q = some x) (hf : q (f x) = true) :
    (updFirst q f l).find? q = some (f x) := by
  induction l with
  | nil => simp at h
  | cons y l ih =>
    by_cases hy : q y = true
    · obtain rfl : y = x := by simpa [hy] using h
      simp [updFirst, hy, hf]
    · rw [List.find?_cons_of_neg hy] at h
      simp [updFirst, hy, ih h]

theorem State.launchOf_modLaunch {s : State} {id : Nat} {l : Launch} {f : Launch → Launch} (hl : s.launchOf id = some l) (hf : (f l).id = id) :
    (s.modLaunch id f).launchOf id = some (f l) := find?_updFirst (q := fun x : Launch => decide (x.id = id)) hl (by simpa using hf)

/-! ## The first context of a rank -/

/-- A byte of control memory after bytes are written. -/
theorem cmByte_bytesWrite (m : KMap Byte) (a i : Nat) (l : List Byte) :
    cmByte (bytesWrite m a l) i = if a ≤ i ∧ i < a + l.length then l.getD (i - a) 0 else cmByte m i := memory_byte_write m a i l

/-- Below the launch region, control memory holds the CTRL section (02 R56). -/
theorem Sp.begin_cm (p : Sp) (l : Launch) (c : Code) (ports : List PortGift) (r k : Nat) {i : Nat} {b : Byte} (hi : i < 0x38000)
    (hb : c.ctrl[i]? = some b) : cmByte (p.begin l c ports r k).cm i = b := by
  obtain ⟨hlt, hget⟩ := List.getElem?_eq_some_iff.mp hb
  unfold Sp.begin
  dsimp only
  rw [cmByte_bytesWrite, if_neg (by omega), cmByte_bytesWrite, if_pos (by omega)]
  simp [List.getD_eq_getElem?_getD, hb]

/-- The context of rank 0 starts at the entry with the registers of 02 R55. -/
theorem Sp.begin_ctx (p : Sp) (l : Launch) (c : Code) (ports : List PortGift) (k : Nat) :
    ∃ d, (p.begin l c ports 0 k).ctx = some d ∧ d.launch = l.id ∧ d.rank = 0 ∧ d.pc = BitVec.ofNat 64 l.entry ∧ d.mmode = false ∧
      d.xr 2 = 0x38000 ∧ d.xr 10 = 0 ∧ d.xr 11 = BitVec.ofNat 64 l.count ∧ d.xr 12 = 0x38000 ∧ d.hw = 2 ^ 32 :=
  ⟨_, rfl, rfl, rfl, rfl, rfl, rfl, rfl, rfl, rfl, rfl⟩

theorem Sp.begin_held (p : Sp) (l : Launch) (c : Code) (ports : List PortGift) (r k : Nat) : (p.begin l c ports r k).held = some l.id := rfl

/-! ## The start on one SP -/

/-- The launch with what its plan gives it. -/
def Launch.placedBy (l : Launch) (q : Plan) : Launch :=
  { l with ranks := q.sps, segs := q.segs, saves := q.saves, groups := q.entries.map (fun e => (e.1, e.2.1)),
           slots := q.slots.map (fun e => (e.1, e.2.1)), state := 3 }

/-- The launch once its controllers are released. -/
def Launch.begun (l : Launch) (now order : Nat) : Launch := { l with state := 1, started := now, t := l.count * 2 ^ 32, ret := 0, order := order }

/-- No pre-empted context has control memory to save. -/
theorem State.saveCm_of_victims_nil {s : State} {k : Nat} (hv : (s.sp k).victims = []) : s.saveCm k = s := by simp [State.saveCm, hv]

/-- The controller of a launch on one SP without groups is released (02 R58). -/
theorem State.beginLaunch_one {s : State} {l : Launch} {c : Code} {k : Nat} (hr : l.ranks = [k]) (hg : l.groups = []) (hv : (s.sp k).victims = []) :
    ∃ order, s.beginLaunch l c = ((s.modSp k fun p => p.begin l c [] 0 k).modLaunch l.id fun x => x.begun s.now order).passSoon l.part := by
  unfold State.beginLaunch
  simp only [hr, hg, List.flatMap_nil, List.length_singleton, List.range_one, List.foldl_cons, List.foldl_nil, List.getD_cons_zero,
    State.saveCm_of_victims_nil hv]
  exact ⟨_, rfl⟩

/-- The state in which the controllers of a launch on SP `k` are released: the launch holds the SP and what its plan names. -/
def State.takenBy (s : State) (l : Launch) (q : Plan) (k : Nat) : State :=
  ((s.modLaunch l.id fun _ => l.placedBy q).setPart l.part { q.part with lastStart := KMap.ins l.prio (l.vf, l.queue) q.part.lastStart }).modSp k fun p =>
    { p with
      victims := p.victims.map fun v =>
        if p.held = some v.ctx.launch then { v with tower := p.tower, fused := p.fused, line := p.line, lineAt := p.lineAt } else v,
      held := some l.id }

section
variable {s : State} {l : Launch} {c : Code} {q : Plan} {k : Nat} (hsps : q.sps = [k]) (hsegs : q.segs = []) (hslots : q.slots = [])
  (hents : q.entries = []) (hports : q.ports = [])
include hsps hsegs hslots hents hports

/-- A plan of one SP without segments, groups and slots starts the launch at once, where no initial data is still copied for it. -/
theorem State.startLaunch_one (hx : ∀ x ∈ s.xfrs, x.launch ≠ l.id) : s.startLaunch l c q = (s.takenBy l q k).beginLaunch (l.placedBy q) c := by
  have hcopy : (s.xfrs.any fun x => decide (x.launch = l.id)) = false := by simpa using hx
  unfold State.startLaunch
  simp only [hsps, hsegs, hslots, hents, hports, List.map_nil, List.foldl_nil, List.foldl_cons, List.filter_nil, List.length_nil, State.copyInitial]
  refine (if_neg (by simpa using hx)).trans ?_
  unfold State.takenBy Launch.placedBy
  simp only [hsps, hsegs, hslots, hents, List.map_nil]

/-- What the start leaves: the first context on the SP, which the launch holds, and the launch as running. -/
theorem startLaunch_one_starts (hf : s.launchOf l.id = some l) (hv : (s.sp k).victims = []) (hx : ∀ x ∈ s.xfrs, x.launch ≠ l.id) :
    ((s.startLaunch l c q).sp k) = (((s.takenBy l q k).sp k).begin (l.placedBy q) c [] 0 k) ∧
      ∃ order, (s.startLaunch l c q).launchOf l.id = some ((l.placedBy q).begun s.now order) := by
  obtain ⟨order, hbegin⟩ := State.beginLaunch_one (s := s.takenBy l q k) (l := l.placedBy q) (c := c) (k := k) hsps
    (by simp [Launch.placedBy, hents]) (by simp [State.takenBy]; exact hv)
  rw [State.startLaunch_one hsps hsegs hslots hents hports hx, hbegin]
  have hplaced : (s.takenBy l q k).launchOf l.id = some (l.placedBy q) := State.launchOf_modLaunch (f := fun _ => l.placedBy q) hf rfl
  constructor
  · rw [State.passSoon_sp]
    exact (s.takenBy l q k).sp_modSp_self k fun p => p.begin (l.placedBy q) c [] 0 k
  · refine ⟨order, ?_⟩
    have hrun := State.launchOf_modLaunch (s := (s.takenBy l q k).modSp k fun p => p.begin (l.placedBy q) c [] 0 k)
      (f := fun x => x.begun s.now order) hplaced rfl
    unfold State.launchOf
    rw [State.passSoon_launches]
    exact hrun

/-- The launch's context starts at its entry, with its CTRL section in control memory, and the launch runs (02 R55, R56, R58). -/
theorem placementPass_context {part : Nat} (hpass : exec (.placementPass part) s = .next (s.startLaunch l c q))
    (hf : s.launchOf l.id = some l) (hv : (s.sp k).victims = []) (hx : ∀ x ∈ s.xfrs, x.launch ≠ l.id) :
    ∃ (t : State) (d : Ctx) (m : Launch), exec (.placementPass part) s = .next t ∧ t.ctx k = some d ∧ d.launch = l.id ∧ d.rank = 0 ∧
      d.pc = BitVec.ofNat 64 l.entry ∧ d.mmode = false ∧ d.xr 2 = 0x38000 ∧ d.xr 10 = 0 ∧ d.xr 11 = BitVec.ofNat 64 l.count ∧ d.xr 12 = 0x38000 ∧
      d.hw = 2 ^ 32 ∧ (t.sp k).held = some l.id ∧ (∀ i b, c.ctrl[i]? = some b → i < 0x38000 → cmByte (t.sp k).cm i = b) ∧
      t.launchOf l.id = some m ∧ m.state = 1 ∧ m.started = s.now ∧ m.t = l.count * 2 ^ 32 ∧ m.ranks = [k] := by
  obtain ⟨hsp, order, hrun⟩ := startLaunch_one_starts (c := c) hsps hsegs hslots hents hports hf hv hx
  obtain ⟨d, hd, hlaunch, hrank, hpc, hmode, hx2, hx10, hx11, hx12, hhw⟩ := Sp.begin_ctx ((s.takenBy l q k).sp k) (l.placedBy q) c [] k
  refine ⟨_, d, _, hpass, ?_, hlaunch, hrank, hpc, hmode, hx2, hx10, hx11, hx12, hhw, ?_, fun i b hb hi => ?_, hrun, rfl, rfl, rfl, hsps⟩
  · rw [State.ctx, hsp, hd]
  · rw [hsp, Sp.begin_held]
    rfl
  · rw [hsp]
    exact Sp.begin_cm _ _ _ _ _ _ hi hb
end

end Sys2Proof.Machine
end

