-- ==== Sys2Proof/Proofs/HostFrame.lean ====
section
/-! PROOF. Frames (02 R41 to R43, R46): what the header and the payload of a frame say, and which message it therefore is. -/

namespace Sys2Proof.Machine

/-! ## Fields of bytes -/

@[simp] theorem toBytes_length (n v : Nat) : (toBytes n v).length = n := by
  induction n generalizing v with
  | zero => rfl
  | succ n ih => simp [toBytes, ih]

theorem ofBytes_toBytes (n v : Nat) : ofBytes (toBytes n v) = v % 256 ^ n := by
  induction n generalizing v with
  | zero => simp [toBytes, ofBytes, Nat.mod_one]
  | succ n ih =>
    have hmul : v % (256 * 256 ^ n) = v % 256 + 256 * (v / 256 % 256 ^ n) := Nat.mod_mul
    rw [toBytes, ofBytes, ih, BitVec.toNat_ofNat, pow_succ' 256 n, hmul]

/-- The field that stands first. -/
theorem field_toBytes (n v : Nat) (l : List Byte) : field (toBytes n v ++ l) 0 n = v % 256 ^ n := by
  unfold field
  rw [List.drop_zero, List.take_left' (toBytes_length n v), ofBytes_toBytes]

theorem field_toBytes_all (n v : Nat) : field (toBytes n v) 0 n = v % 256 ^ n := by simpa using field_toBytes n v []

/-- A field behind the first one. -/
theorem field_skip {k o : Nat} (h : k ≤ o) (n v : Nat) (l : List Byte) : field (toBytes k v ++ l) o n = field l (o - k) n := by
  unfold field
  rw [List.drop_append, toBytes_length, List.drop_of_length_le (by simpa using h), List.nil_append]

/-! ## Headers -/

section
variable (ty queue seq length st tag : Nat) (l : List Byte)

@[simp] theorem headerBytes_length : (headerBytes ty queue seq length st tag).length = 24 := by simp [headerBytes]

/-- The header of 02 R42, field by field. -/
theorem headerBytes_fields :
    let p := headerBytes ty queue seq length st tag ++ l
    field p 0 1 = 1 ∧ field p 1 1 = ty % 2 ^ 8 ∧ field p 2 1 = queue % 2 ^ 8 ∧ field p 3 1 = 0 ∧ field p 4 4 = seq % 2 ^ 32 ∧
      field p 8 4 = length % 2 ^ 32 ∧ field p 16 8 = tag % 2 ^ 64 := by
  simp [headerBytes, field_skip, field_toBytes]

theorem headerBytes_drop : (headerBytes ty queue seq length st tag ++ l).drop 24 = l := List.drop_left' (headerBytes_length ..)
end

/-! ## The VF of a frame -/

theorem vfMac_inj {v w : Nat} : vfMac v = vfMac w ↔ v = w := by unfold vfMac; omega

/-- The addresses of a frame name its VF. -/
theorem HostFrame.vf_eq {f : HostFrame} {v : Nat} (hv : v < 64) (hmac : f.mac = vfMac v) (hip : f.ip = vfIp v) : f.vf = some v := by
  unfold HostFrame.vf
  rw [List.find?_range_eq_some]
  refine ⟨by simp [hmac, hip], by simpa using hv, fun w hw => ?_⟩
  have : v ≠ w := by omega
  simp [hmac, vfMac_inj, this]

/-! ## Payloads (02 R43) -/

theorem payloadOf_read (h : VctHdr) {ia n : Nat} (hia : ia < 2 ^ 64) (hn : n < 2 ^ 64) :
    payloadOf h 3 (toBytes 8 ia ++ toBytes 8 n) = some (.read h ia n) := by
  have hfa : field (toBytes 8 ia ++ toBytes 8 n) 0 8 = ia := by rw [field_toBytes]; exact Nat.mod_eq_of_lt hia
  have hfn : field (toBytes 8 ia ++ toBytes 8 n) 8 8 = n := by
    rw [field_skip (by decide), Nat.sub_self, field_toBytes_all]; exact Nat.mod_eq_of_lt hn
  simp [payloadOf, hfa, hfn]

theorem payloadOf_write (h : VctHdr) {ia : Nat} {d : List Byte} (hia : ia < 2 ^ 64) (hpos : 0 < d.length) (hd : d.length ≤ 8192) :
    payloadOf h 2 (toBytes 8 ia ++ d) = some (.write h ia d) := by
  have hfa : field (toBytes 8 ia ++ d) 0 8 = ia := by rw [field_toBytes]; exact Nat.mod_eq_of_lt hia
  have hdrop : (toBytes 8 ia ++ d).drop 8 = d := List.drop_left' (toBytes_length 8 ia)
  have hlen : 9 ≤ 8 + d.length ∧ 8 + d.length ≤ 8200 := by omega
  simp [payloadOf, hfa, hdrop, hlen]

theorem payloadOf_cancel (h : VctHdr) {x : Nat} (hx : x < 2 ^ 64) : payloadOf h 12 (toBytes 8 x) = some (.cancel h x) := by
  have hf : field (toBytes 8 x) 0 8 = x := by rw [field_toBytes_all]; exact Nat.mod_eq_of_lt hx
  simp [payloadOf, hf]

theorem payloadOf_ack (h : VctHdr) : payloadOf h 13 [] = some (.ack h.vf h.seq) := rfl

/-- A launch record has 128 bytes (02 R53). -/
theorem payloadOf_launch_length (h : VctHdr) {l : List Byte} (hl : l.length ≠ 128) : payloadOf h 1 l = none := by
  unfold payloadOf
  split <;> simp_all

/-! ## The message of a frame -/

/-- The frame of a message of the host with the given payload. -/
def hostFrame (v peerIp peerPort : Nat) (payload : List Byte) : HostFrame := ⟨vfMac v, vfIp v, 46784, peerIp, peerPort, false, payload⟩

/-- A type or a queue number that no message of the host has (02 R43, R46). -/
def badKind (ty queue : Nat) : Bool := decide (8 ≤ queue) || [0, 4, 5, 6, 0xA].contains ty || decide (0xE ≤ ty)

theorem badKind_iff (ty queue : Nat) : badKind ty queue = true ↔ 8 ≤ queue ∨ ty ∈ [0, 4, 5, 6, 10] ∨ 14 ≤ ty := by
  simp only [badKind, Bool.or_eq_true, decide_eq_true_eq, List.contains_iff_mem, or_assoc]

theorem badKind_of_queue {ty queue : Nat} (hq : queue < 8) (hty : badKind ty 0 = false) : badKind ty queue = false := by
  have h8 : decide (8 ≤ queue) = decide (8 ≤ 0) := by simp [hq]
  rwa [badKind, h8]

section
variable {v ty queue seq tag peerIp peerPort : Nat} {l : List Byte}

/-- A frame that is too long is discarded (02 R41). -/
theorem message_tooLong (hlen : 9000 < 48 + 24 + l.length) :
    (hostFrame v peerIp peerPort (headerBytes ty queue seq l.length 0 tag ++ l)).message = none := by
  have hlong : (hostFrame v peerIp peerPort (headerBytes ty queue seq l.length 0 tag ++ l)).taken = false := by
    simp only [HostFrame.taken, hostFrame, List.length_append, headerBytes_length]
    simp [udpHeaders, etherMax]; omega
  unfold HostFrame.message
  simp [hlong]

variable (hv : v < 64) (hty : ty < 2 ^ 8) (hqueue : queue < 2 ^ 8) (hseq : seq < 2 ^ 32) (htag : tag < 2 ^ 64) (hl : l.length < 2 ^ 32)
  (hlen : 48 + 24 + l.length ≤ 9000)
include hv hty hqueue hseq htag hl hlen

/-- Any other is the message that its header and payload say (02 R42, R43, R46). -/
theorem message_of_header (h : VctHdr) (hh : h = ⟨v, seq, queue, tag, peerIp, peerPort⟩) :
    (hostFrame v peerIp peerPort (headerBytes ty queue seq l.length 0 tag ++ l)).message = some (
      if badKind ty queue then .vctInvalidMessage h
      else if systemOnly h ty then .partCreate h 0
      else (payloadOf h ty l).getD (.vctInvalidMessage h)) := by
  have hvf : (hostFrame v peerIp peerPort (headerBytes ty queue seq l.length 0 tag ++ l)).vf = some v := HostFrame.vf_eq hv rfl rfl
  have htaken : (hostFrame v peerIp peerPort (headerBytes ty queue seq l.length 0 tag ++ l)).taken = true := by
    simp only [HostFrame.taken, hostFrame, List.length_append, headerBytes_length]
    simp [udpHeaders, etherMax]; omega
  obtain ⟨f0, f1, f2, f3, f4, f8, f16⟩ := headerBytes_fields ty queue seq l.length 0 tag l
  have hbad : badHeader (headerBytes ty queue seq l.length 0 tag ++ l) = badKind ty queue := by
    simp only [badHeader, badKind, f0, f1, f2, f3, f8, Nat.mod_eq_of_lt hty, Nat.mod_eq_of_lt hqueue, Nat.mod_eq_of_lt hl, List.length_append,
      headerBytes_length]
    simp [Nat.add_comm]
  unfold HostFrame.message
  simp only [htaken, hvf, Option.map_some]
  simp only [hostFrame, f1, f2, f4, f16, Nat.mod_eq_of_lt hty, Nat.mod_eq_of_lt hqueue, Nat.mod_eq_of_lt hseq, Nat.mod_eq_of_lt htag, hbad,
    headerBytes_drop, List.length_append, headerBytes_length, ← hh]
  simp

/-- A frame of a type or queue number that no message of the host has is an invalid message (02 R46). -/
theorem message_badKind (h : VctHdr) (hh : h = ⟨v, seq, queue, tag, peerIp, peerPort⟩) (hbad : badKind ty queue = true) :
    (hostFrame v peerIp peerPort (headerBytes ty queue seq l.length 0 tag ++ l)).message = some (.vctInvalidMessage h) := by
  rw [message_of_header hv hty hqueue hseq htag hl hlen h hh, if_pos hbad]

/-- A frame of a type that any VF may send is the message that its payload says, or an invalid one. -/
theorem message_payload (h : VctHdr) (hh : h = ⟨v, seq, queue, tag, peerIp, peerPort⟩) (hgood : badKind ty queue = false)
    (hany : ty ≠ 7 ∧ ty ≠ 8) :
    (hostFrame v peerIp peerPort (headerBytes ty queue seq l.length 0 tag ++ l)).message =
      some ((payloadOf h ty l).getD (.vctInvalidMessage h)) := by
  have hsys : systemOnly h ty = false := by simp [systemOnly, hany.1, hany.2]
  rw [message_of_header hv hty hqueue hseq htag hl hlen h hh, hgood, hsys]
  simp
end

end Sys2Proof.Machine
end

