-- ==== Sys2Proof/Proofs/HostSteps.lean ====
section
/-! PROOF. The statement on the host port, assembled from the rules of its messages. -/

namespace Sys2Proof

open Machine

/-- Whatever message of the host it is, an unbound VF is told so (02 R47). -/
theorem exec_unbound {h : VctHdr} {i : Instr} {r : LaunchRec} {m : MigArgs} {a b : Nat} {rm : Bool} {l : List Byte} {s : State}
    (hup : s.dev.hostUp = true) (h0 : h.vf ≠ 0) (hn : (s.vf h.vf).part = none)
    (hi : i ∈ [Instr.vctInvalidMessage h, .launch h r, .write h a l, .read h a b, .load h a b, .unload h a, .cancel h a, .partCreate h a,
      .partDestroy h a, .partSps h a b, .partMem h a b b rm, .partArena h a b, .vfBind h a b, .vfUnbind h a, .migrateAccept h m, .migrateStart h m,
      .migrateAbort h m, .migrateRelease h m]) : exec i s = .next (s.nakOnly h nkUnbound) := by
  simp only [List.mem_cons, List.not_mem_nil, or_false] at hi
  rcases hi with rfl | rfl | rfl | rfl | rfl | rfl | rfl | rfl | rfl | rfl | rfl | rfl | rfl | rfl | rfl | rfl | rfl | rfl
  · exact congrArg _ (State.vct_unbound hup h0 hn _ _)
  iterate 6 exact congrArg _ (State.vctBound_unbound hup h0 hn _ _)
  iterate 7 exact congrArg _ (State.config_unbound hup h0 hn _ _ _ _)
  iterate 4 exact congrArg _ (State.migOp_unbound hup h0 hn _ _ _ _)

/-- Settles O59: each clause is the rule of its message or step, proved above. -/
theorem hostSteps : Obligations.HostSteps := by
  unfold Obligations.HostSteps
  refine ⟨?_, fun h s ht => vctInvalidMessage_answered ht, ?_, ?_, ?_, ?_, ?_, ?_, ack_done, ?_, ?_, ?_⟩
  · intro v ty queue seq tag peerIp peerPort l h f hv hty hqueue hseq htag hl hh hf
    obtain rfl : f = hostFrame v peerIp peerPort (headerBytes ty queue seq l.length 0 tag ++ l) := hf
    refine ⟨message_tooLong, fun hlen => ⟨fun hbad => ?_, fun hq => ?_⟩⟩
    · exact message_badKind hv hty hqueue hseq htag hl hlen h hh ((badKind_iff ty queue).mpr hbad)
    · have hmsg := fun hgood => message_payload hv hty hqueue hseq htag hl hlen h hh (badKind_of_queue hq hgood)
      refine ⟨?_, ?_, ?_, ?_, ?_⟩
      · rintro ia n rfl hia hn rfl
        rw [hmsg (by decide) (by decide), payloadOf_read h hia hn, Option.getD_some]
      · rintro ia d rfl hia rfl hpos hd
        rw [hmsg (by decide) (by decide), payloadOf_write h hia hpos hd, Option.getD_some]
      · rintro x rfl hx rfl
        rw [hmsg (by decide) (by decide), payloadOf_cancel h hx, Option.getD_some]
      · rintro rfl rfl
        rw [hmsg (by decide) (by decide), payloadOf_ack, Option.getD_some, hh]
      · rintro rfl h128
        rw [hmsg (by decide) (by decide), payloadOf_launch_length h h128, Option.getD_none]
  · intro h i r m a b rm l s hup h0 hn hi
    exact ⟨hostAnswer h vtNak nkUnbound [], exec_unbound hup h0 hn hi, rfl, rfl, rfl, rfl⟩
  · intro h s hup hb hm hlo hhi
    exact ⟨hostAnswer h vtNak nkOutOfWindow [], congrArg _ (State.vct_tooFar hup hb hm hlo hhi _ _), rfl, rfl, rfl⟩
  · exact fun h part s ht h0 hlt => ⟨partCreate_new ht h0 hlt, partCreate_busy ht h0 hlt⟩
  · intro h part p s ht h0 hlt hp
    refine ⟨partDestroy_unused ht h0 hlt hp, partDestroy_busy ht h0 hlt hp, fun mask => partSps_given ht h0 hlt hp,
      fun base len => partMem_linear ht h0 hlt hp, partArena_given ht h0 hlt hp,
      fun vf hv0 hv => ⟨vfBind_unbound ht h0 hlt hp hv0 hv, vfUnbind_idle ht h0 hv0 hv⟩⟩
  · intro h part p s ht h0 hn hp
    refine ⟨fun c => unload_idle ht h0 hn hp, fun ia len b c bytes a => load_placed ht h0 hn hp, fun ia len => load_outside ht h0 hn hp,
      fun r => ⟨launch_refused ht h0 hn hp, launch_queued ht h0 hn hp⟩, fun wr ia data => transfer_begins ht h0 hn hp wr,
      fun tag => ⟨cancel_unknown ht h0 hn, fun l => cancel_queued ht h0 hn⟩⟩
  · exact fun x s => hostTransferComplete_done
  · exact fun vf u s hu hnow => ⟨retransmit_again hu hnow, retransmit_lost hu hnow⟩
  · intro part k p l c q s hp hrole horder hf hpart hc hres hplan
    have hpass := placementPass_starts hp hrole horder hf hpart hc hres hplan
    exact ⟨hpass, fun hsps hsegs hslots hents hports hv hx => placementPass_context hsps hsegs hslots hents hports hpass hf hv hx⟩
  · intro k l d s hl hst ha hr hrole hctx hleft hvict hheld hd hsb htok hgone
    exact launchRelease_done hl hr hctx hleft hvict hd hst ha hrole hheld hsb htok hgone

end Sys2Proof
end

