-- ==== Sys2Proof/Proofs/SpChanges.lean ====
section
/-! PROOF. A change of one SP, and of each SP of a bundle, made in several moves: what each further move adds to what has been done. -/

namespace Sys2Proof.Machine

/-! ## One SP -/

theorem WithSp.refl (s : State) (k : Nat) : WithSp s k (s.sp k) s := ⟨rfl, fun j => by split <;> simp_all⟩

theorem WithSp.sp_self {s t : State} {k : Nat} {p : Sp} (h : WithSp s k p t) : t.sp k = p := by rw [h.2 k, if_pos rfl]

theorem WithSp.sp_other {s t : State} {k : Nat} {p : Sp} (h : WithSp s k p t) {j : Nat} (hj : j ≠ k) : t.sp j = s.sp j := by rw [h.2 j, if_neg hj]

theorem WithSp.ctx_self {s t : State} {k : Nat} {p : Sp} (h : WithSp s k p t) : t.ctx k = p.ctx := by rw [State.ctx, h.sp_self]

theorem WithSp.congr {s t : State} {k : Nat} {p q : Sp} (h : WithSp s k p t) (e : p = q) : WithSp s k q t := e ▸ h

theorem WithSp.modSp {s t : State} {k : Nat} {p : Sp} (h : WithSp s k p t) (f : Sp → Sp) : WithSp s k (f p) (t.modSp k f) := by
  refine ⟨by rw [State.modSp, State.setSp, h.1], fun j => ?_⟩
  by_cases hj : j = k
  · subst hj; rw [State.sp_modSp_self, h.sp_self, if_pos rfl]
  · rw [State.sp_modSp_other t hj, h.sp_other hj, if_neg hj]

theorem WithSp.setCtx {s t : State} {k : Nat} {p : Sp} (h : WithSp s k p t) (c : Ctx) : WithSp s k { p with ctx := some c } (t.setCtx k c) := h.modSp _

theorem WithSp.modCtx {s t : State} {k : Nat} {p : Sp} {c : Ctx} (h : WithSp s k p t) (hc : p.ctx = some c) (f : Ctx → Ctx) :
    WithSp s k { p with ctx := some (f c) } (t.modCtx k f) := by
  have hctx : t.ctx k = some c := by rw [State.ctx, h.sp_self, hc]
  rw [State.modCtx, hctx]
  exact h.setCtx _

theorem withSp_modCtx {s : State} {k : Nat} {c : Ctx} (hc : s.ctx k = some c) (f : Ctx → Ctx) :
    WithSp s k { s.sp k with ctx := some (f c) } (s.modCtx k f) := (WithSp.refl s k).modCtx hc f

theorem State.withCtx_of_ctx {s : State} {k : Nat} {c : Ctx} (hc : s.ctx k = some c) (f : Ctx → State) : s.withCtx k f = f c := by
  rw [State.withCtx, hc]

/-! ## Several SPs -/

/-- Several SPs changed, each by a function of its own. -/
theorem State.sp_foldl_modSp (f : Nat → Sp → Sp) (l : List Nat) (hl : l.Nodup) (s : State) (k : Nat) :
    (l.foldl (fun t m => t.modSp m (f m)) s).sp k = if k ∈ l then f k (s.sp k) else s.sp k := by
  induction l generalizing s with
  | nil => simp
  | cons a l ih =>
    obtain ⟨ha, hl⟩ := List.nodup_cons.mp hl
    rw [List.foldl_cons, ih hl]
    by_cases hka : k = a
    · subst hka; simp [ha]
    · simp [hka, State.sp_modSp_other s hka]

theorem State.foldl_modSp_sps (f : Nat → Sp → Sp) (l : List Nat) (s : State) :
    l.foldl (fun t m => t.modSp m (f m)) s = { s with sps := (l.foldl (fun t m => t.modSp m (f m)) s).sps } := by
  induction l generalizing s with
  | nil => rfl
  | cons a l ih => rw [List.foldl_cons, ih]; rfl

/-! ## The SPs of a bundle -/

theorem EachIssuing.issue_eq {s t : State} {f : Nat → Ctx → Ctx} (h : EachIssuing s f t) : t.issue = s.issue := by rw [h.1]

/-- Two ways to say the same change of the contexts that there are. -/
theorem EachIssuing.congr_on {s t : State} {f g : Nat → Ctx → Ctx} (h : EachIssuing s f t)
    (e : ∀ k ∈ s.issue, ∀ c, s.ctx k = some c → f k c = g k c) : EachIssuing s g t := by
  refine ⟨h.1, fun k => ?_⟩
  rw [h.2 k]
  split
  · rename_i hk
    rw [Option.map_congr fun c hc => e k hk c hc]
  · rfl

/-- A second change of each of them. -/
theorem EachIssuing.foldl {s t : State} {f : Nat → Ctx → Ctx} (h : EachIssuing s f t) (hn : s.issue.Nodup) (g : Nat → Ctx → Ctx) :
    EachIssuing s (fun k c => g k (f k c)) (s.issue.foldl (fun u k => u.modCtx k (g k)) t) := by
  refine ⟨by rw [State.foldl_modCtx_sps g, h.1], fun k => ?_⟩
  rw [State.foldl_modCtx g s.issue hn t k, State.ctx, h.2 k]
  split
  · simp [Function.comp_def]
  · rfl

/-- An SP that issues alone. -/
theorem EachIssuing.withSp {s t : State} {k : Nat} {c : Ctx} {f : Nat → Ctx → Ctx} (h : EachIssuing s f t) (hk : s.issue = [k]) (hc : s.ctx k = some c) :
    WithSp s k { s.sp k with ctx := some (f k c) } t := by
  refine ⟨h.1, fun j => ?_⟩
  rw [h.2 j, hk]
  by_cases hj : j = k
  · subst hj; simp [hc]
  · simp [hj]

/-! ## Towers and groups -/

theorem State.tower_lone {s : State} {k : Nat} (h : (s.sp k).tower = []) : s.tower k = [k] := by simp [State.tower, h]

theorem State.issueGroup_lone {s : State} {k : Nat} (h : (s.sp k).fused = false) : s.issueGroup k = [k] := by simp [State.issueGroup, h]

end Sys2Proof.Machine
end

