-- ==== Sys2Proof/Proofs/KernelIssue.lean ====
section
/-! PROOF. How a kernel-class command or a copy leaves the scoreboard, and how a KRUN begins in an SP that is in no tower (06 R135, R138, R142; 03 R75). -/

namespace Sys2Proof.Machine

/-! ## A scoreboard of one entry -/

section
variable {c : Ctx} {e : Entry} (hsb : c.sb = [e])
include hsb

theorem Ctx.modEntry_only (f : Entry → Entry) : c.modEntry e.seq f = { c with sb := [f e] } := by simp [Ctx.modEntry, hsb, updFirst]

theorem Ctx.dropEntry_only : c.dropEntry e.seq = { c with sb := [] } := by simp [Ctx.dropEntry, hsb, dropFirst]

variable (hfreed : e.freed = false)
include hfreed

theorem Ctx.entries_only : c.entries = [e] := by simp [Ctx.entries, hsb, hfreed]

theorem Ctx.kernelEntry_only (hcls : e.cls = clsKernel) (hst : e.state = .running) : c.kernelEntry = some e := by
  simp [Ctx.kernelEntry, c.entries_only hsb hfreed, hcls, hst]

/-- No entry is older than the only one. -/
theorem Ctx.conflicts_only (reads writes : List SetR) : c.conflicts e.seq reads writes = false := by
  simp [Ctx.conflicts, c.entries_only hsb hfreed]

/-- A command that waits may issue to the units of its own class. -/
theorem Ctx.issuable_waiting (hst : e.state = .waiting) (n : Nat) : c.issuable n = if e.cls = n then some e else none := by
  by_cases hn : e.cls = n <;> simp [Ctx.issuable, c.entries_only hsb hfreed, c.conflicts_only hsb hfreed, hst, hn]

/-- One that runs has issued. -/
theorem Ctx.issuable_running (hst : e.state = .running) (n : Nat) : c.issuable n = none := by
  simp [Ctx.issuable, c.entries_only hsb hfreed, hst]
end

/-! ## Issue (06 R135, R138) -/

/-- The entry of a command that has issued on cycle `now`. -/
def Entry.issuedOn (e : Entry) (c : Ctx) (now : Nat) : Entry :=
  { e with state := .running, issued := now, tail0 := ((c.descPolder e.desc).map fun p => p.tail).getD 0 }

section
variable {s : State} {k : Nat} {c : Ctx} (hc : s.ctx k = some c)
include hc

theorem State.issueClass_none {n : Nat} (hi : c.issuable n = none) : s.issueClass k n = s := by
  rw [State.issueClass, State.withCtx_of_ctx hc, hi]
  simp

theorem State.issueClass_some {n : Nat} {e : Entry} (hh : c.halted = false) (hu : s.unitFree k c n = true) (hi : c.issuable n = some e) :
    s.issueClass k n = s.issueEntry k e := by
  rw [State.issueClass, State.withCtx_of_ctx hc, hi]
  simp [hh, hu]

/-- The classes of which no command may issue are passed over. -/
theorem State.foldl_issueClass_none {l : List Nat} (hi : ∀ n, c.issuable n = none) : l.foldl (fun t n => t.issueClass k n) s = s := by
  induction l with
  | nil => rfl
  | cons n l ih => rw [List.foldl_cons, State.issueClass_none hc (hi n), ih]

variable {e : Entry} (hsb : c.sb = [e]) (hst : e.state = .waiting)
include hsb hst

/-- A copy or a kernel-class command takes its unit. -/
theorem State.issueEntry_only (hcls : e.cls = clsCopy ∨ e.cls = clsKernel) :
    WithSp s k { s.sp k with ctx := some { c with sb := [e.issuedOn c s.now] } } (s.issueEntry k e) := by
  have hmicro : e.cls ≠ clsMicro := by rcases hcls with h | h <;> rw [h] <;> decide
  have hmerge : e.cls ≠ clsMerge := by rcases hcls with h | h <;> rw [h] <;> decide
  simp only [State.issueEntry, if_neg hmicro, if_neg hmerge]
  refine (withSp_modCtx hc _).congr ?_
  rw [c.modEntry_only hsb]
  simp [Entry.issuedOn, hst, hmicro]

/-- An address generator is free: the only entry has not issued. -/
theorem State.unitFree_copy (hkcq : c.kern.kcq = []) (hleft : (s.sp k).left = none) (hvict : (s.sp k).victims = []) : s.unitFree k c clsCopy = true := by
  have hctx : (s.sp k).ctx = some c := hc
  have hag : (s.sp k).agUsed = 0 := by simp [Sp.agUsed, hctx, hleft, hvict, hsb, Entry.copyRuns, hst]
  simp [State.unitFree, hkcq, hag]

variable (hfreed : e.freed = false)
include hfreed

omit hc in
/-- The sequencer is free, unless a pre-emption is pending. -/
theorem State.unitFree_kernel (hpre : c.preempt = none) : s.unitFree k c clsKernel = true := by
  simp [State.unitFree, c.entries_only hsb hfreed, hst, hpre]

/-- The only command of the scoreboard issues to its unit; the other classes have none. -/
theorem scoreboardIssue_only (hh : c.halted = false) (hkcq : c.kern.kcq = []) (hleft : (s.sp k).left = none) (hvict : (s.sp k).victims = [])
    (hcls : e.cls = 0 ∨ e.cls = 1 ∧ c.preempt = none) : CtxStep (.scoreboardIssue k) s k { c with sb := [e.issuedOn c s.now] } := by
  have hissue := State.issueEntry_only hc hsb hst (hcls.imp_right And.left)
  have hrest : ∀ l : List Nat, l.foldl (fun t n => t.issueClass k n) (s.issueEntry k e) = s.issueEntry k e := fun l =>
    State.foldl_issueClass_none hissue.ctx_self (Ctx.issuable_running (e := e.issuedOn c s.now) rfl hfreed rfl)
  have hi := c.issuable_waiting hsb hfreed hst
  refine ⟨s.issueEntry k e, ?_, hissue⟩
  rw [exec_scoreboardIssue, execScoreboardIssue]
  rcases hcls with h0 | ⟨h1, hpre⟩
  · have hcopy : s.issueClass k clsCopy = s.issueEntry k e :=
      State.issueClass_some hc hh (State.unitFree_copy hc hsb hst hkcq hleft hvict) (by rw [hi, if_pos h0])
    rw [List.foldl_cons, hcopy, hrest]
  · have hcopy : s.issueClass k clsCopy = s := State.issueClass_none hc (by rw [hi, if_neg (by rw [h1]; decide)])
    have hkernel : s.issueClass k clsKernel = s.issueEntry k e :=
      State.issueClass_some hc hh (State.unitFree_kernel hsb hst hfreed hpre) (by rw [hi, if_pos h1])
    rw [List.foldl_cons, List.foldl_cons, hcopy, hkernel, hrest]
end

/-! ## The rendezvous (06 R142; 03 R75) -/

theorem Entry.isKrun_of_instr {e : Entry} {rd rs1 rs2 : Nat} (h : e.instr = .krun rd rs1 rs2) : e.isKrun = true := by simp [Entry.isKrun, h]

theorem Entry.isKpipe_of_instr {e : Entry} {rd rs1 rs2 : Nat} (h : e.instr = .kpipe rd rs1 rs2) : e.isKpipe = true := by simp [Entry.isKpipe, h]

/-- The kernel of KTAB entry `q`, `n` cycles before its first bundle. -/
def KtabE.kernel (q : KtabE) (c : Ctx) (n : Nat) (ports : KMap Desc) : Kern :=
  { Kern.init with
    phase := .starting n, lo := c.cbase.toNat + q.start, hi := c.cbase.toNat + q.stop, interlocked := q.interlocked, pc := c.cbase.toNat + q.start,
    ports := ports, haltPoint := 5 }

theorem State.kernelAt_eq {s : State} {c : Ctx} {o : Code} {q : KtabE} {i : Nat} (ho : s.codeOfCtx c = some o) (hq : o.ktab[i]? = some q)
    (n : Nat) (ports : KMap Desc) : s.kernelAt c i n ports none = q.kernel c n ports := by
  simp only [State.kernelAt, ho, hq, Option.bind_some, Option.getD_some]
  rfl

/-- The context as kernel `kn` begins: the matrix unit starts anew too (08 R193; 11 R276). -/
def Ctx.beginKernel (c : Ctx) (kn : Kern) : Ctx :=
  { c with matrix := { Matrix.init with nextCall := c.matrix.nextCall, nextUpd := c.matrix.nextUpd }, kern := kn }

section
variable {s : State} {k : Nat} {c : Ctx} {e : Entry} (hc : s.ctx k = some c) (htower : (s.sp k).tower = []) (hto : c.kernelToBegin = some e)
include hc htower hto

/-- A KRUN begins: the SP stands as for a new kernel, and the kernel of its KTAB entry waits for its first bundle. -/
theorem State.beginIn_krun {o : Code} {q : KtabE} (hrun : e.isKrun = true) (ho : s.codeOfCtx c = some o) (hq : o.ktab[bits e.rs1 0 8]? = some q) :
    WithSp s k { s.sp k with fused := false, line := [], ctx := some (c.beginKernel (q.kernel c 7 e.descs)) } (s.beginIn k) := by
  have heq : s.beginIn k = (s.modSp k Sp.fuse).setCtx k (c.beginKernel (q.kernel c 7 e.descs)) := by
    rw [State.beginIn, State.withCtx_of_ctx hc, hto]
    simp [hrun, State.kernelAt_eq ho hq, Ctx.beginKernel]
  rw [heq]
  simpa [Sp.fuse, htower] using ((WithSp.refl s k).modSp Sp.fuse).setCtx (c.beginKernel (q.kernel c 7 e.descs))

/-- A lone SP meets nobody: its command begins at once, and goes on unless it is done. -/
theorem towerRendezvous_lone {d : Ctx} (hstatus : e.status = 0) (hd : (s.beginIn k).ctx k = some d) (hgoes : d.doneAtOnce = false) :
    exec (.towerRendezvous k) s = .next (s.beginIn k) := by
  rw [exec_towerRendezvous, execTowerRendezvous]
  simp [State.tower_lone htower, hc, hto, hstatus, hd, hgoes]
end

end Sys2Proof.Machine
end

