-- ==== Sys2Proof/Proofs/BundleSteps.lean ====
section
/-! PROOF. What the sequencer does with the bundle at the pc, and what falls due when a bundle has ended: a transfer, or a round of a lock section
(04 R110; 07 R190; 08 R211; 10 R270). -/

namespace Sys2Proof.Machine

/-! ## The SPs that issue -/

theorem State.issueAs_lone {s : State} {k : Nat} (h : (s.sp k).fused = false) : s.issueAs k = { s with issue := [k] } := by
  rw [State.issueAs, State.issueGroup_lone h]

theorem State.leader_issueAs {s : State} {k : Nat} {c : Ctx} (hd : (s.issueGroup k).head? = some k) (hc : s.ctx k = some c) :
    (s.issueAs k).leader = some (k, c) := by
  obtain ⟨l, hl⟩ := List.head?_eq_some_iff.mp hd
  have hissue : (s.issueAs k).issue = k :: l := hl
  have hctx : (s.issueAs k).ctx k = some c := hc
  simp [State.leader, hissue, hctx]

theorem State.leader_lone {s : State} {k : Nat} {c : Ctx} (hk : s.issue = [k]) (hc : s.ctx k = some c) : s.leader = some (k, c) := by
  simp [State.leader, hk, hc]

theorem State.mem_issuers {s : State} {m : Nat × Ctx} : m ∈ s.issuers ↔ m.1 ∈ s.issue ∧ s.ctx m.1 = some m.2 := by
  obtain ⟨k, c⟩ := m
  simp [State.issuers, List.mem_filterMap, Option.map_eq_some_iff]

theorem State.lockWaiting_false {s : State} (h : ∀ m ∈ s.issue, ∀ d, s.ctx m = some d → d.kern.lock = none) : s.lockWaiting = false := by
  rw [State.lockWaiting, List.any_eq_false]
  intro m hm
  obtain ⟨hk, hc⟩ := State.mem_issuers.mp hm
  simp [h m.1 hk m.2 hc]

@[simp] theorem State.bundleAt_addr (s : State) (a : Nat) : (s.bundleAt a).addr = a := rfl

/-! ## A bundle that may issue (04 R110) -/

/-- The next bundle of the kernel is looked at on this cycle. -/
def Kern.opensBundle (k : Kern) : Prop :=
  k.phase = .running ∧ k.gap = 0 ∧ k.last = none ∧ k.dike = none ∧ k.rejoin = false ∧ k.ends = false ∧ k.trapN = none

section
variable {s : State} {k : Nat} {c : Ctx} (hfused : (s.sp k).fused = false) (hc : s.ctx k = some c) (hopen : c.kern.opensBundle)
include hfused hc hopen

/-- The first check that fails raises its event (04 R110). -/
theorem bundleIssue_event {f : BundleFault} (hf : { s with issue := [k] }.headFault k c (s.bundleAt c.kern.pc) = some f) :
    exec (.bundleIssue k) s = .next ({ s with issue := [k] }.bundleEvent f c.kern.pc) := by
  obtain ⟨hphase, hgap, hlast, hdike, hrejoin, hends, htrap⟩ := hopen
  have hlead : ({ s with issue := [k] } : State).leader = some (k, c) := State.leader_lone rfl hc
  have hbundle : ({ s with issue := [k] } : State).bundleAt c.kern.pc = s.bundleAt c.kern.pc := rfl
  simp only [exec_bundleIssue, execBundleIssue, State.issueAs_lone hfused, hlead, hphase, hgap, hlast, hdike, hrejoin, hends, htrap, hbundle, hf]
  simp

/-- An empty bundle that no check holds up issues, in exposed code. -/
theorem bundleIssue_empty (hf : { s with issue := [k] }.headFault k c (s.bundleAt c.kern.pc) = none) (hslots : (s.bundleAt c.kern.pc).slots = [])
    (hexp : c.kern.exposed = true) : exec (.bundleIssue k) s = { s with issue := [k] }.issueBundle (s.bundleAt c.kern.pc) := by
  obtain ⟨hphase, hgap, hlast, hdike, hrejoin, hends, htrap⟩ := hopen
  have hlead : ({ s with issue := [k] } : State).leader = some (k, c) := State.leader_lone rfl hc
  have hbundle : ({ s with issue := [k] } : State).bundleAt c.kern.pc = s.bundleAt c.kern.pc := rfl
  have hfaults : ({ s with issue := [k] } : State).slotFaults k c (s.bundleAt c.kern.pc) = none := by
    simp [State.slotFaults, Bundle.rulesHold, Bundle.uses, Bundle.leavesLock, clash, hslots]
  simp only [exec_bundleIssue, execBundleIssue, State.issueAs_lone hfused, hlead, hphase, hgap, hlast, hdike, hrejoin, hends, htrap, hbundle, hf, hfaults,
    hslots, hexp]
  simp
end

/-- FETCH_BOUND comes before every other check. -/
theorem State.headFault_outOfBound {s : State} {k : Nat} {c : Ctx} {b : Bundle} (h : s.outOfBound c b.addr = true) : s.headFault k c b = some ⟨3, 8, k⟩ := by
  rw [State.headFault, if_pos h]

/-- A kernel that FETCH_BOUND stops: its results are held, and the cycle is not counted (04 R87; 08 R197, R201). -/
def Ctx.stopAtFetch (c : Ctx) : Ctx :=
  { c with
    stopped := true, kres := false,
    kern := { c.kern with
      phase := .stopped, haltPoint := 6, cycles := c.kern.cycles - 1,
      land := c.kern.land.map fun l => if l.perBundle ∨ l.left = 0 then l else { l with left := l.left + 1 } } }

/-- FETCH_BOUND stops the kernel of a lone SP at the bundle, and is recorded (04 R87; 07 R189, R190). -/
theorem State.bundleEvent_fetchBound {s : State} {k : Nat} (hk : s.issue = [k]) (a : Nat) :
    s.bundleEvent ⟨3, 8, k⟩ a = s.modCtx k fun c => (c.recordEvent 3 8 (s.member k) 0 (a - c.cbase.toNat)).stopAtFetch := by
  simp only [State.bundleEvent, hk, List.foldl_cons, List.foldl_nil]
  rfl

/-- A recorded event sets PEND, and bits [2:0] of kevent name its cause (07 R189). -/
theorem Ctx.recordEvent_cause (c : Ctx) {cause : Nat} (h : cause < 8) (slot member trapn offset : Nat) :
    ∃ v : Dword, c.recordEvent cause slot member trapn offset = { c with kevent := v, pend := true } ∧ v.toNat % 8 = cause := by
  refine ⟨_, rfl, ?_⟩
  rw [BitVec.toNat_ofNat]
  omega

/-- A bundle that reaches past cbound does not issue: its kernel stops there (04 R87; 07 R190). -/
theorem bundleIssue_pastBound {s : State} {k : Nat} {c : Ctx} (hfused : (s.sp k).fused = false) (hc : s.ctx k = some c) (hopen : c.kern.opensBundle)
    (hbound : c.cbound.toNat < c.kern.pc + bundleLen (s.codeNat c.kern.pc 2)) : ∃ t d, exec (.bundleIssue k) s = .next t ∧ t.ctx k = some d ∧
      d.stopped = true ∧ d.pend = true ∧ d.kern.phase = .stopped ∧ d.kern.pc = c.kern.pc ∧ d.kevent.toNat % 8 = 3 := by
  have hout : ({ s with issue := [k] } : State).outOfBound c c.kern.pc = true := by
    simp only [State.outOfBound, Bool.or_eq_true, decide_eq_true_eq]
    exact .inr hbound
  have hexec := bundleIssue_event hfused hc hopen (State.headFault_outOfBound (by rw [State.bundleAt_addr]; exact hout))
  rw [State.bundleEvent_fetchBound rfl] at hexec
  have hctx : ({ s with issue := [k] } : State).ctx k = some c := hc
  obtain ⟨v, hv, hcause⟩ := c.recordEvent_cause (cause := 3) (by decide) 8 (({ s with issue := [k] } : State).member k) 0 (c.kern.pc - c.cbase.toNat)
  refine ⟨_, ({ c with kevent := v, pend := true } : Ctx).stopAtFetch, hexec, ?_, rfl, rfl, rfl, rfl, hcause⟩
  rw [State.ctx_modCtx_self, hctx, Option.map_some, hv]

/-- With nothing in flight, nothing lands as a bundle issues. -/
theorem Ctx.landBundles_none {c : Ctx} (h : c.kern.land = []) : c.landBundles = c := by
  simp only [Ctx.landBundles, h, List.filter_nil, List.foldl_nil]
  rw [← h]

/-- What the issue of an empty bundle changes in its SP. -/
theorem Kern.startBundle_empty {k : Kern} {b : Bundle} (hslots : b.slots = []) (hland : k.land = []) (hlock : k.lock = none) : k.startBundle b = { k with
    begun := true, gap := bundleE b.hdr, last := some b.addr, after := b.addr + bundleLen b.hdr, delay := k.delay - 1, haltPoint := 0, tokLeft := none,
    yielded := false, xfer := k.xfer.map fun x => { x with left := x.left - 1 }, group := if bundleStop b.hdr then [] else k.group } := by
  simp [Kern.startBundle, Kern.firstRound, Bundle.uses, hslots, hland, hlock]

theorem State.issueBundle_empty {s : State} {k : Nat} {c : Ctx} {b : Bundle} (hk : s.issue = [k]) (hc : s.ctx k = some c) (hslots : b.slots = [])
    (hland : c.kern.land = []) : ∃ t, s.issueBundle b = .next t ∧
      WithSp s k { s.sp k with ctx := some { c with kern := c.kern.startBundle b, wdog := if c.kern.begun then c.wdog else 0 } } t := by
  have horder : b.actOrder = [] := by simp [Bundle.actOrder, hslots]
  have hstart : (c.kern.startBundle b).land = [] := by simp [Kern.startBundle, hland]
  refine ⟨_, by rw [State.issueBundle, horder]; rfl, ?_⟩
  rw [hk]
  refine (withSp_modCtx hc _).congr ?_
  simp [Bundle.preLock, hslots, Ctx.landBundles_none, hstart]

/-! ## The end of a bundle -/

theorem State.atEnd_eq {s : State} {k b : Nat} {c : Ctx} (hd : (s.issueGroup k).head? = some k) (hc : s.ctx k = some c) (hlast : c.kern.last = some b)
    (f : State → Nat → Kern → Nat → State) : s.atEnd k f = f (s.issueAs k) k c.kern b := by
  simp only [State.atEnd, State.leader_issueAs hd hc]
  simp [hlast]

theorem Kern.lockCloses_none {k : Kern} (h : k.lock = none) : k.lockCloses = false := by simp [Kern.lockCloses, h]

section
variable {s : State} {kn : Kern} {b : Nat} (hphase : kn.phase = .running) (hgap : kn.gap = 0) (hlast : kn.last = some b)
include hphase hgap hlast

/-- A lock section with clusters that wait is issued again. -/
theorem State.bundleEnd_round (hclose : kn.lockCloses = true) (hwait : s.lockWaiting = true) : s.bundleEnd kn = .round := by
  simp [State.bundleEnd, hphase, hgap, hlast, hclose, hwait]

/-- A taken transfer whose delay bundles have issued comes before a back-edge. -/
theorem State.bundleEnd_transfer {x : Xfer} (hlock : kn.lock = none) (hends : kn.ends = false) (hy : kn.yielded = true → kn.status ≠ 8)
    (hx : kn.xfer = some x) (hleft : x.left = 0) : s.bundleEnd kn = .transfer x.target := by
  have hhalt : (kn.yielded && decide (kn.status = 8) && kn.stage.isNone) = false := by
    cases hyield : kn.yielded <;> simp_all
  simp [State.bundleEnd, hphase, hgap, hlast, Kern.lockCloses_none hlock, hends, hhalt, hx, hleft]
end

/-- Every kernel of the bundle changes alike. -/
theorem eachIssuing_kernAll {s : State} (hn : s.issue.Nodup) (f : Kern → Kern) :
    EachIssuing s (fun _ c => { c with kern := f c.kern }) (s.kernAll s.issue f) := eachIssuing_foldl s hn _

/-- A bundle without KTRAP stops no kernel. -/
theorem EachIssuing.trapStop {s t : State} {f : Nat → Ctx → Ctx} (h : EachIssuing s f t) (hn : s.issue.Nodup) (b : Nat)
    (htrap : ∀ m ∈ s.issue, ∀ d, s.ctx m = some d → (f m d).kern.trapN = none) : EachIssuing s f (t.trapStop b) := by
  rw [State.trapStop, h.issue_eq]
  refine (h.foldl hn _).congr_on fun m hm d hd => ?_
  simp only [htrap m hm d hd]

/-- The kernels of a bundle without KTRAP go on as `f` says. -/
theorem eachIssuing_goOn {s : State} (hn : s.issue.Nodup) {f : Kern → Kern} (b : Nat)
    (htrap : ∀ m ∈ s.issue, ∀ d, s.ctx m = some d → (f d.kern).trapN = none) :
    EachIssuing s (fun _ c => { c with kern := f c.kern }) ((s.kernAll s.issue f).trapStop b) :=
  (eachIssuing_kernAll hn f).trapStop hn b htrap

/-- The kernel goes on at the target `t` of a taken transfer, out of the loops that do not hold it (08 R211). -/
def Kern.moveTo (t : Nat) (k : Kern) : Kern :=
  { k.goOn t with
    xfer := none, group := [], haltPoint := if k.yielded then 2 else k.haltPoint,
    loops := k.loops.dropWhile fun e => !(decide (e.start ≤ t) && decide (t ≤ e.stop)) }

theorem Kern.moveTo_of_lock_none {k : Kern} (h : k.lock = none) (t : Nat) : k.moveTo t = { k with
    pc := t, last := none, xfer := none, group := [], haltPoint := if k.yielded then 2 else k.haltPoint,
    loops := k.loops.dropWhile fun e => !(decide (e.start ≤ t) && decide (t ≤ e.stop)) } := by
  simp [Kern.moveTo, Kern.goOn, Kern.lockCloses_none h]

/-- BRANCH_TRANSFER: every SP of the bundle goes on at the target (08 R211). -/
theorem branchTransfer_taken {s : State} {k b : Nat} {c : Ctx} {x : Xfer} (hn : (s.issueGroup k).Nodup) (hd : (s.issueGroup k).head? = some k)
    (hc : s.ctx k = some c) (hphase : c.kern.phase = .running) (hgap : c.kern.gap = 0) (hlast : c.kern.last = some b) (hends : c.kern.ends = false)
    (hy : c.kern.yielded = true → c.kern.status ≠ 8)
    (hcalm : ∀ m ∈ s.issueGroup k, ∀ d, s.ctx m = some d → d.kern.lock = none ∧ d.kern.trapN = none) (hx : c.kern.xfer = some x) (hleft : x.left = 0) :
    ∃ t, exec (.branchTransfer k) s = .next t ∧ EachIssuing (s.issueAs k) (fun _ d => { d with kern := d.kern.moveTo x.target }) t := by
  have hlock : c.kern.lock = none := (hcalm k (List.mem_of_mem_head? hd) c hc).1
  have hend : (s.issueAs k).bundleEnd c.kern = .transfer x.target := State.bundleEnd_transfer hphase hgap hlast hlock hends hy hx hleft
  have hwait : (s.issueAs k).lockWaiting = false := State.lockWaiting_false fun m hm d hd => (hcalm m hm d hd).1
  have hexec : exec (.branchTransfer k) s = .next (((s.issueAs k).kernAll (s.issueAs k).issue (Kern.moveTo x.target)).trapStop b) := by
    simp only [exec_branchTransfer, execBranchTransfer, State.atEnd_eq hd hc hlast, hend, hwait, Bool.false_and, Bool.false_eq_true, if_false]
    rfl
  exact ⟨_, hexec, eachIssuing_goOn (s := s.issueAs k) hn b fun m hm d hd => (hcalm m hm d hd).2⟩

/-- The lock section as its next round finds it (10 R270). -/
def LockSec.again (l : LockSec) : LockSec := { l with round := l.round + 1, acting := [], closing := false }

/-- LOCK_ROUND: the section is issued again from its first bundle (10 R270). -/
theorem lockRound_again {s : State} {k b : Nat} {c : Ctx} {l : LockSec} (hfused : (s.sp k).fused = false) (hc : s.ctx k = some c)
    (hphase : c.kern.phase = .running) (hgap : c.kern.gap = 0) (hlast : c.kern.last = some b) (hl : c.kern.lock = some l) (hclose : l.closing = true)
    (hwait : l.waiting ≠ []) (htrap : c.kern.trapN = none) : ∃ t, exec (.lockRound k) s = .next t ∧ WithSp { s with issue := [k] } k { s.sp k with
      ctx := some { c with kern := { c.kern with gap := 2, pc := l.first, last := none, group := [], haltPoint := 4, lock := some l.again } } } t := by
  have hgroup := State.issueGroup_lone hfused
  have hd : (s.issueGroup k).head? = some k := by rw [hgroup]; rfl
  have hctx : ({ s with issue := [k] } : State).ctx k = some c := hc
  have hw : ({ s with issue := [k] } : State).lockWaiting = true := by
    rw [State.lockWaiting, List.any_eq_true]
    exact ⟨(k, c), State.mem_issuers.mpr ⟨by simp, hctx⟩, by simp [hl, hwait]⟩
  have hend := State.bundleEnd_round hphase hgap hlast (by simp [Kern.lockCloses, hl, hclose]) hw
  refine ⟨_, by rw [exec_lockRound, execLockRound, State.atEnd_eq hd hc hlast, State.issueAs_lone hfused, if_pos hend], ?_⟩
  refine ((eachIssuing_goOn (List.nodup_singleton k) b ?_).withSp rfl hctx).congr ?_
  · intro m hm d hd
    obtain rfl : m = k := List.mem_singleton.mp hm
    obtain rfl : c = d := Option.some.inj (hctx.symm.trans hd)
    simp [hl, htrap]
  · simp only [hl]
    rfl

end Sys2Proof.Machine
end

