-- ==== Sys2Proof/Proofs/KernelReleases.lean ====
section
/-! PROOF. Kernels that go on together: the members of a dike, and those of a tower at its line (03 R76; 08 R223, R224). -/

namespace Sys2Proof.Machine

/-- A member of a dike that runs goes on after the empty run of its SYNC's bundle (08 R223). -/
theorem Ctx.dikeFree_waiting {c : Ctx} {e n : Nat} (h : c.kern.dike = some (e, n)) :
    c.dikeFree e true = { c with kern := { c.kern with dike := none, gap := n }, sbar := KMap.upd e (fun _ => 2) c.sbar } := by
  simp [Ctx.dikeFree, h]

/-- The SP of a member of group `g`, when the phase of group entry `e` has ended. -/
def Group.release (g : Group) (e : Nat) (p : Sp) : Sp :=
  { p with
    ctx := p.ctx.map fun c => if c.launch = g.launch then c.dikeFree e (decide (c.preempt.isNone ∨ c.kern.phase ≠ .halted)) else c,
    victims := p.victims.map fun v => if v.ctx.launch = g.launch then { v with ctx := v.ctx.dikeFree e false } else v }

theorem Group.release_running {g : Group} {e n : Nat} {p : Sp} {c : Ctx} (hc : p.ctx = some c) (hlaunch : c.launch = g.launch)
    (hdike : c.kern.dike = some (e, n)) (hpre : c.preempt = none) (hvict : p.victims = []) : g.release e p = { p with
      ctx := some { c with kern := { c.kern with dike := none, gap := n }, sbar := KMap.upd e (fun _ => 2) c.sbar } } := by
  simp [Group.release, hc, hlaunch, hpre, hvict, Ctx.dikeFree_waiting hdike]

/-- The group entry at the start of its next phase. -/
def Group.emptied (g : Group) : Group := { g with arrived := [], full := false }

/-- DIKE_RELEASE: the phase of a group ends 40 cycles after its last arrival, for every member (08 R223). -/
theorem dikeRelease_eq {part entry : Nat} {s : State} {p : Part} {g : Group} (hp : s.part part = some p)
    (hg : KMap.find entry p.groups = some g) (hfull : g.full = true) (hlast : g.last + 40 ≤ s.now) :
    exec (.dikeRelease part entry) s = .next (g.members.foldl (fun t k => t.modSp k (g.release entry))
      (s.modPart part fun p => { p with groups := KMap.upd entry Group.emptied p.groups })) := by
  simp only [exec_dikeRelease, execDikeRelease, hp, hg, hfull, Option.bind_some, Nat.not_lt.mpr hlast, Bool.not_true, decide_false, Bool.or_self,
    Bool.false_eq_true, if_false]
  rfl

/-- The member of a group of one goes on. -/
theorem dikeRelease_only {part entry k n : Nat} {s : State} {p : Part} {g : Group} {c : Ctx} (hp : s.part part = some p)
    (hg : KMap.find entry p.groups = some g) (hfull : g.full = true) (hlast : g.last + 40 ≤ s.now) (hmem : g.members = [k]) (hc : s.ctx k = some c)
    (hlaunch : c.launch = g.launch) (hdike : c.kern.dike = some (entry, n)) (hpre : c.preempt = none) (hvict : (s.sp k).victims = []) :
    ∃ t q, exec (.dikeRelease part entry) s = .next t ∧ t.sp k = { s.sp k with
        ctx := some { c with kern := { c.kern with dike := none, gap := n }, sbar := KMap.upd entry (fun _ => 2) c.sbar } } ∧
      (∀ j, j ≠ k → t.sp j = s.sp j) ∧ t.part part = some q ∧ KMap.find entry q.groups = some g.emptied := by
  refine ⟨_, { p with groups := KMap.upd entry Group.emptied p.groups }, dikeRelease_eq hp hg hfull hlast, ?_, ?_, ?_, by simp [KMap.find_upd, hg]⟩
  · rw [hmem]
    exact (State.sp_modSp_self _ _ _).trans (Group.release_running hc hlaunch hdike hpre hvict)
  · rw [hmem]
    exact fun j hj => State.sp_modSp_other _ hj _
  · rw [hmem]
    exact (State.part_modPart_self s part _).trans (by rw [hp]; rfl)

/-- A member of a tower that is fused again: its kernel follows that of the leader `k` (03 R76). -/
def Sp.fuseAgain (p : Sp) (k : Nat) (l : Ctx) (m : Nat) : Sp :=
  { p with fused := true, line := [], ctx := p.ctx.map fun c => { c with kern := if m = k then { c.kern with rejoin := false } else c.kern.follow l.kern } }

/-- TOWER_LINE_RELEASE: the tower is fused again 40 cycles after its last REJOIN (03 R76). -/
theorem towerLineRelease_fuses {k : Nat} {s : State} {l : Ctx} (hn : (s.sp k).tower.Nodup) (hd : (s.sp k).tower.head? = some k)
    (htwo : 2 ≤ (s.sp k).tower.length) (hall : (s.sp k).tower.length ≤ (s.sp k).line.length) (hlast : (s.sp k).lineAt + 40 ≤ s.now) (hl : s.ctx k = some l) :
    ∃ t, exec (.towerLineRelease k) s = .next t ∧ t = { s with sps := t.sps } ∧
      ∀ m, t.sp m = if m ∈ (s.sp k).tower then (s.sp m).fuseAgain k l m else s.sp m := by
  obtain ⟨r, hr⟩ := List.head?_eq_some_iff.mp hd
  have htower : s.tower k = (s.sp k).tower := by simp [State.tower, hr]
  have hhead : (s.sp k).tower.headD k = k := by rw [hr]; rfl
  have hguard : (decide ((s.sp k).tower.length ≤ 1) || decide ((s.sp k).tower.headD k ≠ k) || decide ((s.sp k).line.length < (s.sp k).tower.length) ||
      decide (s.now < (s.sp k).lineAt + 40)) = false := by
    simp only [Bool.or_eq_false_iff, decide_eq_false_iff_not, hhead]
    omega
  refine ⟨(s.sp k).tower.foldl (fun t m => t.modSp m fun p => p.fuseAgain k l m) s, ?_, State.foldl_modSp_sps (fun m p => p.fuseAgain k l m) _ _,
    State.sp_foldl_modSp (fun m p => p.fuseAgain k l m) _ hn s⟩
  simp only [exec_towerLineRelease, execTowerLineRelease, hl, htower, hguard, Bool.false_eq_true, if_false]
  rfl

end Sys2Proof.Machine
end

