-- ==== Sys2Proof/Proofs/KernelCompletion.lean ====
section
/-! PROOF. How kernel commands complete in an SP that is in no tower, what the arbiter of a pipeline decides, and the end of a launch by its
watchdog (06 R140, R145 to R150; 24 R461). -/

namespace Sys2Proof.Machine

/-! ## The completion of a command (06 R140) -/

/-- The context without its kernel command: the SP is ready for the next one, and the descriptors are `descs`. -/
def Ctx.kernelGone (c : Ctx) (descs : KMap Desc) : Ctx :=
  { c with sb := [], descs := descs, stopped := false, kres := false, kern := Kern.init, pipe := none, sweep := none }

/-- The descriptors of a context with the positions at which the ports of a kernel stand (10 R262). -/
def Ctx.descsAt (c : Ctx) (ports : KMap Desc) : KMap Desc :=
  ports.foldl (fun m q => KMap.ins q.1 { KMap.get Desc.init m q.1 with pos := q.2.pos } m) c.descs

/-- The only command of the scoreboard, a KRUN or KPIPE, completes: its arrival word is updated by its full target, and its entry is freed. -/
theorem WithSp.kernelDone {s t : State} {k : Nat} {p : Sp} {c : Ctx} {e : Entry} (h : WithSp s k p t) (hc : p.ctx = some c) (hsb : c.sb = [e])
    (hkind : (e.isKrun || e.isKpipe) = true) (ports : KMap Desc) (status : Nat) : WithSp s k { p with
      srf := arrive p.srf c e.rs2 (arriveTarget p.srf c e.rs2) status, ctx := some (c.kernelGone (c.descsAt ports)) } (t.kernelDone k e ports status) := by
  refine (h.modSp _).congr ?_
  simp only [hc, hkind, if_true, c.dropEntry_only hsb]
  rfl

section
variable {s : State} {k : Nat} {c : Ctx} {e : Entry} (hc : s.ctx k = some c) (he : c.kernelEntry = some e)
include hc he

theorem State.kernelsDone_lone (status : Nat) : s.kernelsDone [k] status = s.kernelDone k e e.descs (if status = 0 then e.status else status) := by
  rw [State.kernelsDone, List.foldl_cons, List.foldl_nil, State.withCtx_of_ctx hc]
  simp only [he]
end

theorem Ctx.finishPipe_of_pipe_none {c : Ctx} (h : c.pipe = none) : c.finishPipe = c := by simp [Ctx.finishPipe, h]

/-- Where no stage has finished since, the look at the stages changes nothing. -/
theorem withSp_finishPipe {s : State} {k : Nat} {c : Ctx} (hc : s.ctx k = some c) (h : c.finishPipe = c) :
    WithSp s k (s.sp k) (s.modCtx k Ctx.finishPipe) := by
  have hctx : (s.sp k).ctx = some c := hc
  refine (withSp_modCtx hc _).congr ?_
  rw [h, ← hctx]

/-- The status with which the kernel of a lone SP has ended. -/
theorem State.towerStatus_lone {s : State} {k : Nat} {c : Ctx} (hc : s.ctx k = some c) : s.towerStatus [k] = c.kern.status := by
  by_cases h : c.kern.status = 0 <;> simp [State.towerStatus, hc, h]

/-- A kernel whose results, copies and matrix calls are over has ended. -/
theorem Ctx.kernelOver_of {c : Ctx} {e : Entry} (hphase : c.kern.phase = .ending) (hgap : c.kern.gap = 0) (hland : c.kern.land = []) (hkcq : c.kern.kcq = [])
    (hmatrix : c.matrix.outstanding = []) (hsb : c.sb = [e]) (hcopy : e.kcopy = none) : c.kernelOver = true := by
  simp [Ctx.kernelOver, Ctx.copiesOver, hphase, hgap, hland, hkcq, hmatrix, hsb, hcopy]

section
variable {s : State} {k rd rs1 rs2 : Nat} {c : Ctx} {e : Entry} (htower : (s.sp k).tower = []) (hc : s.ctx k = some c) (hsb : c.sb = [e])
  (hfreed : e.freed = false) (hcls : e.cls = clsKernel) (hst : e.state = .running)
include htower hc hsb hfreed hcls hst

/-- KERNEL_COMMAND_COMPLETE: the KRUN of a lone SP completes when its kernel is over (06 R140). -/
theorem kernelCommandComplete_krun (hi : e.instr = .krun rd rs1 rs2) (hpipe : c.pipe = none) (hstage : c.kern.stage = none) (hover : c.kernelOver = true) :
    SpStep (.kernelCommandComplete k) s k { s.sp k with
      srf := arrive (s.sp k).srf c e.rs2 (arriveTarget (s.sp k).srf c e.rs2) (if c.kern.status ≠ 0 then c.kern.status else c.kern.kcStatus),
      ctx := some (c.kernelGone (c.descsAt c.kern.ports)) } := by
  have hctx : (s.sp k).ctx = some c := hc
  have hw := withSp_finishPipe hc (Ctx.finishPipe_of_pipe_none hpipe)
  have hc1 : (s.modCtx k Ctx.finishPipe).ctx k = some c := by rw [hw.ctx_self, hctx]
  have htower1 : (s.modCtx k Ctx.finishPipe).tower k = [k] := State.tower_lone (by rw [hw.sp_self, htower])
  have hends : c.pipeEnds = false := by simp [Ctx.pipeEnds, hpipe]
  have hentry := c.kernelEntry_only hsb hfreed hcls hst
  refine ⟨_, ?_, hw.kernelDone hctx hsb (by rw [Entry.isKrun_of_instr hi]; rfl) c.kern.ports _⟩
  rw [exec_kernelCommandComplete, execKernelCommandComplete]
  simp [htower1, hc1, hends, hover, hstage, State.towerStatus_lone hc1, State.withCtx_of_ctx hc1, hentry]

/-! ## The arbiter (06 R145, R146, R150) -/

variable {q : Pipe} {t0 : Nat} (hpipe : c.pipe = some q) (hseq : e.seq = q.seq) (hdue : q.decide_ = some t0) (hnow : t0 ≤ s.now)
  (hidle : c.kern.phase = .idle) (hstage : c.kern.stage = none)
include hpipe hseq hdue hnow hidle hstage

/-- A pipeline that KHALT has halted completes HALTED at its next decision, once its copies are over (06 R150). -/
theorem arbiterDecision_halted (hi : e.instr = .kpipe rd rs1 rs2) (hover : c.copiesOver = true) (hhalt : q.halted = true) :
    SpStep (.arbiterDecision k) s k { s.sp k with
      srf := arrive (s.sp k).srf c e.rs2 (arriveTarget (s.sp k).srf c e.rs2) 8, ctx := some (c.kernelGone (c.descsAt e.descs)) } := by
  have hentry := c.kernelEntry_only hsb hfreed hcls hst
  refine ⟨_, ?_, (WithSp.refl s k).kernelDone hc hsb (by rw [Entry.isKpipe_of_instr hi, Bool.or_true]) e.descs 8⟩
  rw [exec_arbiterDecision, execArbiterDecision]
  simp [State.tower_lone htower, hc, hpipe, hentry, hseq, State.suspends, hstage, hdue, Nat.not_lt.mpr hnow, hidle, hhalt, hover, State.kernelsDone_lone hc hentry]

/-- The arbiter activates the stage that it chooses among those that are ready (06 R145, R146). -/
theorem arbiterDecision_activates {n : Nat} (hhalt : q.halted = false) (hseen : q.seen = none) (hfinish : c.finishPipe = c) (hdone : c.pipeDone = false)
    (hready : c.declared.filter (c.stageReady e) = [n]) (hchoose : c.choose [n] = some n) :
    ∃ t, exec (.arbiterDecision k) s = .next (t.activate k [n] n) ∧ WithSp s k (s.sp k) t := by
  have hentry := c.kernelEntry_only hsb hfreed hcls hst
  have hw := withSp_finishPipe hc hfinish
  have hc1 : (s.modCtx k Ctx.finishPipe).ctx k = some c := hw.ctx_self.trans hc
  refine ⟨_, ?_, hw⟩
  rw [exec_arbiterDecision, execArbiterDecision]
  simp [State.tower_lone htower, hc, hpipe, hentry, hseq, State.suspends, hstage, hdue, Nat.not_lt.mpr hnow, hidle, hhalt, hc1, hdone, hseen, hready, hchoose]
end

/-! ## A pipeline of one source stage -/

/-- A declared stage without streams that has activations left and none suspended. -/
structure Stage.SourceReady (st : Stage) : Prop where
  declared : st.declared = true
  finished : st.finished = false
  remaining : st.remaining ≠ 0
  suspended : st.suspended = none
  streams : st.rs2 = 0

theorem Stage.SourceReady.inputs {st : Stage} (h : st.SourceReady) : st.inputs = [] := by simp [Stage.inputs, h.streams, bits]

theorem Stage.SourceReady.outputs {st : Stage} (h : st.SourceReady) : st.outputs = [] := by simp [Stage.outputs, h.streams, bits]

theorem iterate_fixed {α : Type} {f : α → α} {a : α} (h : f a = a) (n : Nat) : iterate (fun _ => f) n a = a := by
  induction n with
  | zero => rfl
  | succ n ih => rw [iterate, ih, h]

/-- Where one stage is ready, the arbiter chooses it. -/
theorem Ctx.choose_only (c : Ctx) (n : Nat) : c.choose [n] = some n := by
  by_cases h : 64 ≤ (c.stage n).age <;> simp [Ctx.choose, h]

section
variable {c : Ctx} {n : Nat} {st : Stage} (hst : c.stages = [(n, st)])
include hst

theorem Ctx.stage_only_self : c.stage n = st := by simp [Ctx.stage, hst, KMap.get, KMap.find]

theorem Ctx.stage_only_other {m : Nat} (h : m ≠ n) : c.stage m = Stage.init := by simp [Ctx.stage, hst, KMap.get, KMap.find, Ne.symm h]

variable (hsrc : st.SourceReady)
include hsrc

theorem Ctx.declared_only (hn : n < 8) : c.declared = [n] := by
  have hd : (fun m => (c.stage m).declared) = fun m => decide (m = n) := by
    funext m
    by_cases h : m = n
    · subst h; simp [c.stage_only_self hst, hsrc.declared]
    · simp [c.stage_only_other hst h, h, Stage.init]
  rw [Ctx.declared, hd]
  exact (by decide : ∀ n < 8, (List.range 8).filter (fun m => decide (m = n)) = [n]) n hn

/-- It has not finished, so nothing of the pipeline is marked. -/
theorem Ctx.finishStage_only (e : Entry) : c.finishStage e n = c := by
  simp [Ctx.finishStage, Ctx.stageDone, c.stage_only_self hst, hsrc.inputs, hsrc.remaining]

theorem Ctx.stageReady_only (e : Entry) : c.stageReady e n = true := by
  simp [Ctx.stageReady, Ctx.outputsRoom, c.stage_only_self hst, hsrc.declared, hsrc.finished, hsrc.remaining, hsrc.inputs, hsrc.outputs]

/-- Its activation is spent. -/
theorem Ctx.ages_only : (c.ages [n] n).stages = [(n, { st with remaining := st.remaining - 1, age := 0 })] := by
  simp [Ctx.ages, hst, hsrc.inputs, hsrc.suspended]

variable (hn : n < 8)
include hn

theorem Ctx.finishPipe_only : c.finishPipe = c := by
  have hpass (e : Entry) : c.finishStages e = c := by
    refine iterate_fixed ?_ 8
    show c.declared.foldl (fun c n => c.finishStage e n) c = c
    rw [c.declared_only hst hsrc hn]
    exact c.finishStage_only hst hsrc e
  unfold Ctx.finishPipe
  split
  · exact hpass _
  · rfl

theorem Ctx.pipeDone_only : c.pipeDone = false := by simp [Ctx.pipeDone, c.declared_only hst hsrc hn, c.stage_only_self hst, hsrc.finished]

theorem Ctx.ready_only (e : Entry) : c.declared.filter (c.stageReady e) = [n] := by
  simp [c.declared_only hst hsrc hn, c.stageReady_only hst hsrc e]
end

/-! ## An activation begins -/

/-- Without a status of its KCOPYs the command keeps its own. -/
theorem Ctx.keepStatus_only {c : Ctx} {e : Entry} (hsb : c.sb = [e]) (he : c.kernelEntry = some e) (hkc : c.kern.kcStatus = 0) : c.keepStatus = c := by
  have hsame : (if e.status = 0 then 0 else e.status) = e.status := by split <;> simp_all
  simp only [Ctx.keepStatus, he, c.modEntry_only hsb, hkc, hsame]
  rw [← hsb]

/-- The context as stage `n`, chosen among those of `ready`, starts its kernel, and the watchdog begins anew (06 R142, R145, R148). -/
def State.activated (s : State) (c : Ctx) (e : Entry) (ready : List Nat) (n : Nat) : Ctx :=
  { (c.ages ready n).beginKernel { s.kernelAt c (c.stage n).kernel 7 e.descs (some n) with kcq := c.kern.kcq } with
    wdog := 0, pipe := c.pipe.map fun q => { q with decide_ := none, seen := none } }

theorem State.activate_fresh {s : State} {k n : Nat} {c : Ctx} {e : Entry} (hc : s.ctx k = some c) (hsb : c.sb = [e]) (he : c.kernelEntry = some e)
    (hkc : c.kern.kcStatus = 0) (hsusp : (c.stage n).suspended = none) (ready : List Nat) :
    s.activate k ready n = (s.modSp k Sp.fuse).setCtx k (s.activated c e ready n) := by
  rw [State.activate, State.withCtx_of_ctx hc]
  simp only [he, hsusp, c.keepStatus_only hsb he hkc]
  rfl

/-- A pipeline of one source stage: its next activation begins (06 R145, R146). -/
theorem arbiterDecision_source {s : State} {k n t0 : Nat} {c : Ctx} {e : Entry} {q : Pipe} {st : Stage} (htower : (s.sp k).tower = [])
    (hc : s.ctx k = some c) (hsb : c.sb = [e]) (hfreed : e.freed = false) (hcls : e.cls = clsKernel) (hst : e.state = .running) (hpipe : c.pipe = some q)
    (hseq : e.seq = q.seq) (hdue : q.decide_ = some t0) (hnow : t0 ≤ s.now) (hidle : c.kern.phase = .idle) (hstage : c.kern.stage = none)
    (hkc : c.kern.kcStatus = 0) (hhalt : q.halted = false) (hseen : q.seen = none) (hn : n < 8) (hstages : c.stages = [(n, st)]) (hsrc : st.SourceReady) :
    ∃ t d, exec (.arbiterDecision k) s = .next t ∧ t.ctx k = some d ∧ d.kern.phase = .starting 7 ∧ d.kern.stage = some n ∧ d.wdog = 0 ∧ d.sb = c.sb ∧
      d.x = c.x ∧ KMap.find n d.stages = some { st with remaining := st.remaining - 1, age := 0 } ∧ ∀ j, j ≠ k → t.sp j = s.sp j := by
  obtain ⟨t, ht, hw⟩ := arbiterDecision_activates htower hc hsb hfreed hcls hst hpipe hseq hdue hnow hidle hstage hhalt hseen
    (c.finishPipe_only hstages hsrc hn) (c.pipeDone_only hstages hsrc hn) (c.ready_only hstages hsrc hn e) (c.choose_only n)
  have hentry := c.kernelEntry_only hsb hfreed hcls hst
  have hsusp : (c.stage n).suspended = none := by rw [c.stage_only_self hstages, hsrc.suspended]
  rw [State.activate_fresh (hw.ctx_self.trans hc) hsb hentry hkc hsusp] at ht
  have hact := (hw.modSp Sp.fuse).setCtx (t.activated c e [n] n)
  have hages : (t.activated c e [n] n).stages = _ := c.ages_only hstages hsrc
  exact ⟨_, _, ht, hact.ctx_self, rfl, rfl, rfl, rfl, rfl, by rw [hages]; simp [KMap.find], fun j hj => hact.sp_other hj⟩

/-! ## The watchdog (06 R148; 24 R461) -/

/-- An SP when a launch has ended: its context of the launch is stopped, and the pre-empted ones are gone. -/
def Sp.endLaunch (id : Nat) (p : Sp) : Sp :=
  { p with ctx := p.ctx.map fun c => if c.launch = id then c.stop else c, victims := p.victims.filter fun v => decide (v.ctx.launch ≠ id) }

section
variable {s : State} {l : Launch} {id : Nat} (hl : s.launchOf id = some l) (hcause : l.cause = none) (cause rank word addr pc : Nat)
include hl hcause

theorem State.launchOf_endLaunch : (s.endLaunch id cause rank word addr pc).launchOf id = some { l with
    cause := some cause, state := 2, crank := rank, cword := word, caddr := addr, cpc := pc, gone := s.victimTokens id } := by
  have hid : l.id = id := by simpa using List.find?_some hl
  have hend : l.end_ cause rank word addr pc = { l with cause := some cause, state := 2, crank := rank, cword := word, caddr := addr, cpc := pc } := by
    simp only [Launch.end_, hcause]
  have hmod := State.launchOf_modLaunch (f := fun l => { l.end_ cause rank word addr pc with gone := s.victimTokens id }) hl (by simp only [hend]; exact hid)
  simp only [State.endLaunch, hl, hcause, Option.isSome_none, Bool.false_eq_true, if_false]
  rw [hend] at hmod
  exact hmod

theorem State.sps_endLaunch : (s.endLaunch id cause rank word addr pc).sps = s.sps.map fun e => (e.1, e.2.endLaunch id) := by
  simp only [State.endLaunch, hl, hcause, Option.isSome_none, Bool.false_eq_true, if_false]
  rfl

theorem State.ctx_endLaunch (j : Nat) :
    (s.endLaunch id cause rank word addr pc).ctx j = (s.ctx j).map fun c => if c.launch = id then c.stop else c := by
  rw [State.ctx, State.sp, s.sps_endLaunch hl hcause, KMap.get, KMap.find_mapValues fun _ => Sp.endLaunch id, State.ctx, State.sp, KMap.get]
  cases KMap.find j s.sps with
  | none => rfl
  | some p => rfl

/-- The contexts of the launch are stopped for good (24 R462). -/
theorem State.halted_endLaunch {j : Nat} {d : Ctx} (hj : (s.endLaunch id cause rank word addr pc).ctx j = some d) (hd : d.launch = id) : d.halted = true := by
  rw [s.ctx_endLaunch hl hcause, Option.map_eq_some_iff] at hj
  obtain ⟨c, -, rfl⟩ := hj
  by_cases h : c.launch = id
  · rw [if_pos h]; rfl
  · rw [if_neg h] at hd; exact absurd hd h

/-- The others stand as they were. -/
theorem State.ctx_endLaunch_other {j : Nat} {d : Ctx} (hj : s.ctx j = some d) (hd : d.launch ≠ id) :
    (s.endLaunch id cause rank word addr pc).ctx j = some d := by rw [s.ctx_endLaunch hl hcause, hj, Option.map_some, if_neg hd]

theorem State.mem_endLaunch : (s.endLaunch id cause rank word addr pc).mem = s.mem := by
  simp only [State.endLaunch, hl, hcause, Option.isSome_none, Bool.false_eq_true, if_false]
  rfl
end

/-- WATCHDOG_EXPIRY: the launch of a context whose count has reached its limit ends with WATCHDOG (06 R148). -/
theorem watchdogExpiry_ends {s : State} {k : Nat} {c : Ctx} (hc : s.ctx k = some c) (hlimit : 2 ^ c.mwdog ≤ c.wdog) :
    exec (.watchdogExpiry k) s = .next (s.endLaunch c.launch 2 c.rank 0 (c.kern.pc - c.cbase.toNat) 0) := by
  rw [exec_watchdogExpiry, execWatchdogExpiry, State.withCtx_of_ctx hc, if_neg (Nat.not_lt.mpr hlimit)]

end Sys2Proof.Machine
end

