-- ==== Sys2Proof/Proofs/KernelSteps.lean ====
section
/-! PROOF. The statement on the kernel side between and around bundles, assembled from the rules of its steps. -/

namespace Sys2Proof

open Machine

/-- Settles O22: each clause is the rule of its step, proved above. -/
theorem kernelSteps : Obligations.KernelSteps := by
  unfold Obligations.KernelSteps
  refine ⟨?_, ?_, ?_, ?_, ?_, ?_, ?_, ?_, ?_, ?_⟩
  · intro k s c e hc hh hsb hfreed hst hkcq hleft hvict hcls
    exact scoreboardIssue_only hc hsb hst hfreed hh hkcq hleft hvict hcls
  · intro k rd rs1 rs2 s c e o q htower hc hidle hpipe hsweep he hi hstatus ho hq
    have hto : c.kernelToBegin = some e := by simp [Ctx.kernelToBegin, hidle, hpipe, hsweep, he]
    have hbits : bits e.rs1 0 8 = e.rs1.toNat % 256 := by simp [bits]
    have hbegin := State.beginIn_krun hc htower hto (Entry.isKrun_of_instr hi) ho (by rw [hbits]; exact hq)
    exact ⟨_, towerRendezvous_lone hc htower hto hstatus hbegin.ctx_self (by simp [Ctx.doneAtOnce, Ctx.beginKernel, hpipe, hsweep]), hbegin⟩
  · intro k s c hfused hc hphase hgap hlast hdike hrejoin hends htrap
    have hopen : c.kern.opensBundle := ⟨hphase, hgap, hlast, hdike, hrejoin, hends, htrap⟩
    refine ⟨fun f => bundleIssue_event hfused hc hopen, fun _ hbound => bundleIssue_pastBound hfused hc hopen hbound, ?_⟩
    rintro b rfl hhead hslots hexp hland hlock
    obtain ⟨t, ht, hw⟩ := State.issueBundle_empty (s := { s with issue := [k] }) rfl hc hslots hland
    rw [Kern.startBundle_empty hslots hland hlock] at hw
    exact ⟨t, (bundleIssue_empty hfused hc hopen hhead hslots hexp).trans ht, hw⟩
  · intro k b s c hn hd hc hphase hgap hlast hends hy hcalm x hx hleft
    obtain ⟨t, ht, hall⟩ := branchTransfer_taken hn hd hc hphase hgap hlast hends hy hcalm hx hleft
    refine ⟨t, ht, hall.congr_on fun m hm d hdm => ?_⟩
    rw [Kern.moveTo_of_lock_none (hcalm m hm d hdm).1]
  · intro k b s c l hfused hc hphase hgap hlast hl hclose hwait htrap
    exact lockRound_again hfused hc hphase hgap hlast hl hclose hwait htrap
  · intro part entry k n s p g c hp hg hfull hlast hmem hc hlaunch hdike hpre hvict
    exact dikeRelease_only hp hg hfull hlast hmem hc hlaunch hdike hpre hvict
  · intro k s l hn hd htwo hall hlast hl
    obtain ⟨t, ht, hsps, hsp⟩ := towerLineRelease_fuses hn hd htwo hall hlast hl
    exact ⟨t, ht, hsps, fun m hm => by rw [hsp m, if_neg hm], fun m hm => by rw [hsp m, if_pos hm]; rfl⟩
  · intro k rd rs1 rs2 n status q s c e htower hc hpipe hphase hgap hland hkcq hstage hmatrix hsb hcopy hfreed hcls hst hi hports hstatus
    have hdone := kernelCommandComplete_krun htower hc hsb hfreed hcls hst hi hpipe hstage
      (Ctx.kernelOver_of hphase hgap hland hkcq hmatrix hsb hcopy)
    rw [← hstatus, hports] at hdone
    exact hdone
  · intro k rd rs1 rs2 t0 s c e q htower hc hpipe hdue hnow hidle hstage hkcq hkc hcopy hsb hfreed hcls hst hi hseq
    refine ⟨fun hhalt hdescs => ?_, fun n st hn hhalt hseen hstages hdecl hfin hrem hsusp hrs2 => ?_⟩
    · have hdone := arbiterDecision_halted htower hc hsb hfreed hcls hst hpipe hseq hdue hnow hidle hstage hi
        (by simp [Ctx.copiesOver, hkcq, hsb, hcopy]) hhalt
      rw [hdescs] at hdone
      exact hdone
    · exact arbiterDecision_source htower hc hsb hfreed hcls hst hpipe hseq hdue hnow hidle hstage hkc hhalt hseen hn hstages
        ⟨hdecl, hfin, hrem, hsusp, hrs2⟩
  · intro k s c l hc hlimit hl hcause
    exact ⟨_, _, watchdogExpiry_ends hc hlimit, s.launchOf_endLaunch hl hcause .., fun j d => s.halted_endLaunch hl hcause _ _ _ _ _,
      fun j d => s.ctx_endLaunch_other hl hcause _ _ _ _ _, s.mem_endLaunch hl hcause ..⟩

end Sys2Proof
end

