-- ==== Sys2Proof/Proofs/RoundTrips.lean ====
section
/-! PROOF. What an instruction of the stream extension, of a slot or of a micro-op is encoded as decodes to it, and sample words of every space
decode to what they stand for (04 R99 to R112, 07 R155, 11 R298). -/

namespace Sys2Proof.Laws.RoundTrip

/-- The case split over the constructors of `Instr`, in their order: each case is the law of that constructor. -/
theorem all (i : Instr) : Statement i :=
  Instr.casesOn (motive := Statement) i
    -- the host's messages, and the launch engine
    launch write read hostTransferComplete load unload cancel ack vctInvalidMessage vctRetransmitTimer partCreate partDestroy partSps partMem
    partArena vfBind vfUnbind migrateAccept migrateStart migrateAbort migrateRelease placementPass taskTake launchRelease
    -- the stream extension, with the steps that end its commands (07 R155)
    palloc pfree pinfo sdset sdget sdcopy eosClose sload sstore sgather sscatter sscadd scopy spref satomAdd satomSwap satomCas satomMin satomMax
    satomAnd satomOr krun kstage kpipe khalt svadd svmul svfma svcvt svscale svmax svmin svcopy svfill sweepIteration mload mloadComplete spmerge
    spdrain awinit await acq rel tacq trel fencex swait sbar spawn texit tsplit treseed gsync syield sstat controllerWaitEnd
    -- the standard instructions, which the statement leaves out (06 R131)
    rvIntegerAlu rvMultiply rvDivide rvLoad rvStore rvFloatOp rvFdivFsqrt rvBranch jal jalr fence lr sc rvAmo rvCsrAccess ecall ebreak
    -- the steps of the part, which no word encodes
    kstatusKres kstatusKkill kstatusIeWrite kstatusPendClear kstatClear cboundWrite mpreqWrite keventDelivery scoreboardIssue towerRendezvous
    copyBeatSend copyBeatCommit kcopyQueueIssue kernelCommandComplete bundleIssue resultLanding loopBackEdge branchTransfer dikeRelease
    towerLineRelease arbiterDecision watchdogExpiry aqSend dqLand callQueueStart accUpdateLanding routineRetire lockRound spireRecordIntake
    spireRunWritten spireMergePass spireEmit spireComplete rangeMissServe walkStart walkEnd faultResolve faultCancel tlbInvalidate sliceApply
    packetReceive linkReplay linkTraining portcfgWrite homeBeatApply beatAck beatResendTimeout tokenRequest tokenReply tokenRetry tacqTimeout
    scaleoutFrameReceive selectiveAckSend selectiveAckReceive frameResendTimeout preemptRequest kernelHalt matrixDrainLimit spirePreemptStop
    aqReclaim contextSave contextSaveComplete shadowWriteOut polderClaim controlMemoryClaim contextRestore migrationHello migrationFrozen
    stateRecord stateRecordTimeout migrationResumed pagePullRequest pageShip pagePresent holdResend beatForward movedAck graceExpiry powerOnReset
    railDrop warmReset thermalWarn thermalTrip thermalRecover attgo attestationDone snaptrig snapshotPacket snapshotLatch snapctlValidClear
    dbgctlAttach dbgctlGo jtagRegacc jtagIdcode jtagBypass jtagSamplePreload jtagExtest jtagTrst registerWrite holeRead
    -- the micro-ops (11 R298)
    kstep ksteps rpop rpeek rowg accsel accz loopk wmset bmchk epi parm jmp ret
    -- the C slot (04 R106)
    pbt cmp cmpi brT brF br brR brl loop loopi loopm vany vall clog yieldK sync decouple rejoin endK ktrap qadd qsub qaddi qmul qand qor qxor qshl
    qshr qsra qmin qmax qli qget mset mwait pset ptail ksr ksc kmode pref qsd
    -- the S slot (04 R107)
    gadd gsub gaddi gmul gmulh gand gor gxor gshl gshr gsra gshi gmin gmax gslt gsltn gli gfrq gext gins gcid gsel gclz
    -- the V slots (04 R108)
    vadd vsub vadds vaddn vsubs vsubn vmul vmulh vmulhn vmac vmacw vmin vmax vminn vmaxn vabs vneg vand vor vxor vandn vshl vshr vsra vsrar
    vnarrow vwiden vcmpeq vcmplt vcmpltn vcmple vsel vclz vpopc fadd fsub fmul fma fms fnma fmin fmax fabs fneg fcmpeq fcmplt fcmple fcmpun fclass
    fscale vcvt vqnt vdq frcp frsq fexp2 flog2 fsin fcos ftanh vrsum vrmax vrmin vamax vtopk vscan vcompress vexpand vidx vmov vzero
    -- the X slot (04 R109)
    xadd xaddi xsub xshl xand xpopc xpopb xcadv xdiagStep xdiagMid xaq xaqs xmin xsel xli xfrg xtog xrank xmax
    -- the M slot (11 R282)
    mcall mzero mmode mfence mwm
    -- the W slot (10 R272)
    wperm wbcast wrot wbfly wrsum wrmax wsegsum wscan
    -- the P slot (10 R261)
    spop spush sadv speek sldl sstu sld sst dqpop dqn sflush kcopy spos seos

end Sys2Proof.Laws.RoundTrip

namespace Sys2Proof

/-- Settles O3: for each constructor, the arm of the decoder reads back the fields that the encoder has packed. -/
theorem encodedWordsDecode : Obligations.EncodedWordsDecode := Laws.RoundTrip.all

/-- Settles O5: each word is closed, so both sides of each clause evaluate to one instruction. -/
theorem sampleWordsDecode : Obligations.SampleWordsDecode :=
  ⟨rfl, rfl, rfl, rfl, rfl, rfl, rfl, rfl, rfl, rfl, rfl, rfl, rfl, rfl, rfl⟩

end Sys2Proof
end

