-- ==== Sys2Proof/Proofs/IntegerReductions.lean ====
section
/-! PROOF. The reductions of a row of integers: the tree of VRSUM (05 R128), the extreme of VRMAX (09 R244) and the list of VTOPK (09 R247). -/

namespace Sys2Proof.Machine

/-! ## The tree of VRSUM -/

theorem addElem_int {t : Nat} (ht : t < 4) (mode : Nat) (flush : Bool) (a b : Elem) :
    (addElem t mode flush a b).1 = (a.1 + b.1) % 2 ^ (8 * typeBytes t) := by rw [addElem, if_pos ht]

theorem length_pairLevel (f : Elem → Elem → Elem) : ∀ l, (pairLevel f l).length = (l.length + 1) / 2
  | [] => rfl
  | [_] => by simp [pairLevel]
  | a :: b :: l => by simp only [pairLevel, List.length_cons, length_pairLevel f l]; omega

theorem lt_of_mem_pairLevel {f : Elem → Elem → Elem} {m : Nat} (hf : ∀ a b, (f a b).1 < m) :
    ∀ l : List Elem, (∀ x ∈ l, x.1 < m) → ∀ x ∈ pairLevel f l, x.1 < m
  | [], h | [_], h => h
  | a :: b :: l, h => List.forall_mem_cons.mpr ⟨hf a b, lt_of_mem_pairLevel hf l fun x hx => h x (by simp [hx])⟩

theorem sum_pairLevel {t : Nat} (ht : t < 4) (mode : Nat) (flush : Bool) :
    ∀ l, ((pairLevel (addElem t mode flush) l).map (·.1)).sum ≡ (l.map (·.1)).sum [MOD 2 ^ (8 * typeBytes t)]
  | [] | [_] => rfl
  | a :: b :: l => by
    simp only [pairLevel, List.map_cons, List.sum_cons, addElem_int ht, ← Nat.add_assoc]
    exact (Nat.mod_modEq _ _).add (sum_pairLevel ht mode flush l)

/-- Each level halves the row and keeps its sum modulo 2^w. -/
theorem treeSum_addElem {t : Nat} (ht : t < 4) (mode : Nat) (flush : Bool) (n : Nat) (l : List Elem) (hl : l.length = 2 ^ n)
    (hlt : ∀ x ∈ l, x.1 < 2 ^ (8 * typeBytes t)) :
    (treeSum (addElem t mode flush) n l).1 = (l.map (·.1)).sum % 2 ^ (8 * typeBytes t) := by
  induction n generalizing l with
  | zero =>
    obtain ⟨x, rfl⟩ := List.length_eq_one_iff.mp hl
    simpa [treeSum] using (Nat.mod_eq_of_lt (hlt x (by simp))).symm
  | succ n ih =>
    have hhalf : (pairLevel (addElem t mode flush) l).length = 2 ^ n := by rw [length_pairLevel, hl, pow_succ]; omega
    have hsmall := lt_of_mem_pairLevel (fun a b => addElem_int ht mode flush a b ▸ Nat.mod_lt _ (by positivity)) l hlt
    exact (ih _ hhalf hsmall).trans (sum_pairLevel ht mode flush l)

/-! ## The extreme of VRMAX -/

/-- The larger of two is one of them, and no smaller than either. -/
theorem pickInt_true (w a b : Nat) :
    sint w a ≤ sint w (pickInt w true a b) ∧ sint w b ≤ sint w (pickInt w true a b) ∧ (pickInt w true a b = a ∨ pickInt w true a b = b) := by
  by_cases h : sint w a < sint w b
  · simp [pickInt, h, h.le]
  · simp [pickInt, h, not_lt.mp h]

/-- The largest element of `l` that a walk from `z` finds. -/
def largestFrom (w z : Nat) (l : List Elem) : Nat := l.foldl (fun a x => pickInt w true a x.1) z

theorem largestFrom_concat (w z : Nat) (l : List Elem) (y : Elem) : largestFrom w z (l ++ [y]) = pickInt w true (largestFrom w z l) y.1 := by
  simp [largestFrom]

theorem largestFrom_spec (w z : Nat) (l : List Elem) :
    (∀ x ∈ l, sint w x.1 ≤ sint w (largestFrom w z l)) ∧ ((∃ x ∈ l, x.1 = largestFrom w z l) ∨ largestFrom w z l = z) := by
  induction l using List.reverseRecOn with
  | nil => simp [largestFrom]
  | append_singleton l y ih =>
    obtain ⟨hle, hmem⟩ := ih
    obtain ⟨hold, hnew, heq⟩ := pickInt_true w (largestFrom w z l) y.1
    simp only [largestFrom_concat, List.mem_append, List.mem_singleton]
    refine ⟨?_, ?_⟩
    · rintro x (hx | rfl)
      · exact (hle x hx).trans hold
      · exact hnew
    · rcases heq with heq | heq <;> rw [heq]
      · exact hmem.imp_left fun ⟨x, hx, hr⟩ => ⟨x, .inl hx, hr⟩
      · exact .inl ⟨y, .inr rfl, rfl⟩

/-- The elements of `l` that the environment holds active. -/
def VEnv.active (e : VEnv) (l : List Elem) : List Elem := (l.zip e.act).filterMap fun p => if p.2 then some p.1 else none

theorem VEnv.mem_active {e : VEnv} {l : List Elem} {x : Elem} : x ∈ e.active l ↔ ∃ q ∈ l.zip e.act, q.2 = true ∧ q.1 = x := by
  simp [VEnv.active, List.mem_filterMap]

theorem reduceExtreme_int {e : VEnv} (ht : e.t < 4) (z : Nat) (l : List Elem) :
    (reduceExtreme e true z l).1 = largestFrom (8 * typeBytes e.t) z (e.active l) := by
  rw [reduceExtreme, if_pos ht, largestFrom, VEnv.active]

theorem reduceExtreme_largest {e : VEnv} (ht : e.t < 4) (z : Nat) (l : List Elem) :
    (∀ q ∈ l.zip e.act, q.2 = true → sint (8 * typeBytes e.t) q.1.1 ≤ sint (8 * typeBytes e.t) (reduceExtreme e true z l).1) ∧
    ((∃ q ∈ l.zip e.act, q.2 = true ∧ q.1.1 = (reduceExtreme e true z l).1) ∨ (reduceExtreme e true z l).1 = z) := by
  rw [reduceExtreme_int ht]
  obtain ⟨hle, hmem⟩ := largestFrom_spec (8 * typeBytes e.t) z (e.active l)
  refine ⟨fun q hq hon => hle q.1 (VEnv.mem_active.mpr ⟨q, hq, hon, rfl⟩), hmem.imp_left fun ⟨x, hx, hr⟩ => ?_⟩
  obtain ⟨q, hq, hon, rfl⟩ := VEnv.mem_active.mp hx
  exact ⟨q, hq, hon, hr⟩

/-! ## The list of VTOPK -/

section
variable {t : Nat} {x : Nat × Nat}

theorem mem_of_mem_topkInsert {q : Nat × Nat} : ∀ {l : List (Nat × Nat)} {k : Nat}, q ∈ topkInsert t k x l → q = x ∨ q ∈ l
  | [], k, h => by
    rw [topkInsert] at h
    split at h
    · cases h
    · exact .inl (List.mem_singleton.mp h)
  | y :: l, k, h => by
    rw [topkInsert] at h
    split at h
    · exact List.mem_cons.mp (List.mem_of_mem_take h)
    · rcases List.mem_cons.mp (List.mem_of_mem_take h) with rfl | h
      · exact .inr List.mem_cons_self
      · exact (mem_of_mem_topkInsert h).imp_right (List.mem_cons_of_mem y)

/-- A list that falls by rank still does with the element put in. -/
theorem pairwise_topkInsert : ∀ {l : List (Nat × Nat)} (k : Nat), l.Pairwise (fun a b => topkKey t b.1 ≤ topkKey t a.1) →
    (topkInsert t k x l).Pairwise fun a b => topkKey t b.1 ≤ topkKey t a.1
  | [], k, _ => by rw [topkInsert]; split <;> simp
  | y :: l, k, h => by
    obtain ⟨hy, hl⟩ := List.pairwise_cons.mp h
    rw [topkInsert]
    split
    · next hlt =>
      have hx : ∀ q ∈ y :: l, topkKey t q.1 ≤ topkKey t x.1 := List.forall_mem_cons.mpr ⟨hlt.le, fun q hq => (hy q hq).trans hlt.le⟩
      exact (List.pairwise_cons.mpr ⟨hx, h⟩).take
    · next hle =>
      refine (List.pairwise_cons.mpr ⟨fun q hq => ?_, pairwise_topkInsert (k - 1) hl⟩).take
      rcases mem_of_mem_topkInsert hq with rfl | hq
      · exact not_lt.mp hle
      · exact hy q hq

theorem length_topkInsert : ∀ {l : List (Nat × Nat)} {k : Nat}, l.length ≤ k → (topkInsert t k x l).length = min k (l.length + 1)
  | [], k, _ => by
    rw [topkInsert]
    split
    · next h => rw [h, Nat.zero_min, List.length_nil]
    · next h => rw [List.length_singleton, List.length_nil]; omega
  | y :: l, k, h => by
    rw [List.length_cons] at h
    rw [topkInsert]
    split
    · simp
    · rw [List.length_take, List.length_cons, length_topkInsert (by omega), List.length_cons]; omega
end

/-- What VTOPK keeps of the elements of `l`, put in one after the other. -/
def topkOf (t k : Nat) (l : List (Nat × Nat)) : List (Nat × Nat) := l.foldl (fun m x => topkInsert t k x m) []

theorem topkOf_concat (t k : Nat) (l : List (Nat × Nat)) (y : Nat × Nat) : topkOf t k (l ++ [y]) = topkInsert t k y (topkOf t k l) := by
  simp [topkOf]

theorem topkOf_spec (t k : Nat) (l : List (Nat × Nat)) :
    (topkOf t k l).length = min k l.length ∧ (topkOf t k l).Pairwise (fun a b => topkKey t b.1 ≤ topkKey t a.1) ∧ ∀ q ∈ topkOf t k l, q ∈ l := by
  induction l using List.reverseRecOn with
  | nil => simp [topkOf]
  | append_singleton l y ih =>
    obtain ⟨hlen, hfalls, hmem⟩ := ih
    simp only [topkOf_concat, List.mem_append, List.mem_singleton, List.length_append, List.length_singleton]
    refine ⟨?_, pairwise_topkInsert k hfalls, fun q hq => ?_⟩
    · rw [length_topkInsert (by omega), hlen]; omega
    · rcases mem_of_mem_topkInsert hq with rfl | hq
      · exact .inr rfl
      · exact .inl (hmem q hq)

end Sys2Proof.Machine
end

