-- ==== Sys2Proof/Proofs/SwitchSums.lean ====
section
/-! PROOF. The switch sums of one integer element per cluster (05 R129, 10 R273): what every cluster holds after the stages of the
butterfly, and after the levels of a scan within segments. -/

namespace Sys2Proof.Machine

/-- Each of the `N` clusters holds one element of `w` bits: that of cluster `c` is `f c` modulo 2^w. -/
structure RowsHold (w N : Nat) (f : Nat → Nat) (x : List SumRow) : Prop where
  length_eq : x.length = N
  row : ∀ c < N, (x.getD c ([], 0)).1 = [f c % 2 ^ w]

theorem RowsHold.congr {w N : Nat} {f g : Nat → Nat} {x : List SumRow} (h : RowsHold w N f x) (hfg : ∀ c < N, f c = g c) : RowsHold w N g x :=
  ⟨h.length_eq, fun c hc => hfg c hc ▸ h.row c hc⟩

theorem RowsHold.of_elements {w N : Nat} {x : List Nat} (hN : x.length = N) (hlt : ∀ v ∈ x, v < 2 ^ w) :
    RowsHold w N (fun c => x.getD c 0) (x.map fun v => ([v], 0)) := by
  subst hN
  refine ⟨List.length_map _, fun c hc => ?_⟩
  simp [hc, Nat.mod_eq_of_lt (hlt _ (List.getElem_mem hc))]

theorem addRows_int {t : Nat} (ht : t < 4) (mode : Nat) (flush : Bool) (own a b : Nat) :
    (addRows t mode flush own [a % 2 ^ (8 * typeBytes t)] [b % 2 ^ (8 * typeBytes t)]).1 = [(a + b) % 2 ^ (8 * typeBytes t)] := by
  simp [addRows, addElem_int ht]

/-- What holds of the clusters before the first stage, and which each stage takes one further, holds after all of them. -/
theorem switchStages_induction {f : Nat → List SumRow → List SumRow} {P : Nat → List SumRow → Prop} {n : Nat} (k : Nat) (x : List SumRow)
    (hstep : ∀ i y, i < k + n → P i y → P (i + 1) (f (2 ^ i) y)) (hk : P k x) : P (k + n) (switchStages f n (2 ^ k) x) := by
  induction n generalizing k x with
  | zero => exact hk
  | succ n ih =>
    have hnext := ih (k + 1) (f (2 ^ k) x) (fun i y hi => hstep i y (by omega)) (hstep k x (by omega) hk)
    rwa [pow_succ', Nat.add_right_comm] at hnext

/-! ## The butterfly -/

theorem RowsHold.butterflyStage {t N d : Nat} {f : Nat → Nat} {x : List SumRow} (ht : t < 4) (mode : Nat) (flush : Bool)
    (h : RowsHold (8 * typeBytes t) N f x) (hd : ∀ c < N, c ^^^ d < N) :
    RowsHold (8 * typeBytes t) N (fun c => f c + f (c ^^^ d)) (butterflyStage (addRows t mode flush) d x) := by
  have hlen := h.length_eq
  refine ⟨by simp [Machine.butterflyStage, hlen], fun c hc => ?_⟩
  have hpair : ((Machine.butterflyStage (addRows t mode flush) d x).getD c ([], 0)).1
      = [(f (min c (c ^^^ d)) + f (max c (c ^^^ d))) % 2 ^ (8 * typeBytes t)] := by
    rw [← addRows_int ht mode flush (x.getD c ([], 0)).2, ← h.row _ (min_lt_of_left_lt hc), ← h.row _ (max_lt hc (hd c hc))]
    simp [Machine.butterflyStage, hlen, hc]
  rw [hpair]
  rcases le_total c (c ^^^ d) with hle | hle
  · rw [min_eq_left hle, max_eq_right hle]
  · rw [min_eq_right hle, max_eq_left hle, Nat.add_comm]

theorem two_pow_add_eq_xor {i m : Nat} (h : m < 2 ^ i) : 2 ^ i + m = 2 ^ i ^^^ m := by
  refine Nat.eq_of_testBit_eq fun j => ?_
  rw [Nat.testBit_xor, Nat.testBit_two_pow]
  rcases lt_trichotomy j i with hj | rfl | hj
  · simp [Nat.testBit_two_pow_add_gt hj, hj.ne']
  · simp [Nat.testBit_two_pow_add_eq]
  · have hsum : 2 ^ i + m < 2 ^ j := (by rw [pow_succ]; omega : 2 ^ i + m < 2 ^ (i + 1)).trans_le (Nat.pow_le_pow_right (by decide) hj)
    simp [Nat.testBit_lt_two_pow hsum, Nat.testBit_lt_two_pow ((Nat.le_add_left m _).trans_lt hsum), hj.ne]

/-- After `i` stages cluster `c` holds the sum of the 2^i clusters whose number differs from `c` in the low `i` bits at most. -/
def blockSum (x : List Nat) (i c : Nat) : Nat := ∑ m ∈ Finset.range (2 ^ i), x.getD (c ^^^ m) 0

theorem blockSum_zero (x : List Nat) (c : Nat) : blockSum x 0 c = x.getD c 0 := by simp [blockSum]

theorem blockSum_succ (x : List Nat) (i c : Nat) : blockSum x (i + 1) c = blockSum x i c + blockSum x i (c ^^^ 2 ^ i) := by
  rw [blockSum, pow_succ, Nat.mul_two, Finset.sum_range_add]
  refine congrArg (blockSum x i c + ·) (Finset.sum_congr rfl fun m hm => ?_)
  rw [two_pow_add_eq_xor (Finset.mem_range.mp hm), Nat.xor_assoc]

theorem sum_range_getD (x : List Nat) : ∑ j ∈ Finset.range x.length, x.getD j 0 = x.sum := by
  rw [Finset.sum_range, ← Fin.sum_univ_getElem]
  exact Finset.sum_congr rfl fun i _ => List.getD_eq_getElem _ _ i.isLt

/-- The block of all clusters is the array: XOR with `c` permutes it. -/
theorem blockSum_all {x : List Nat} {n c : Nat} (hx : x.length = 2 ^ n) (hc : c < 2 ^ n) : blockSum x n c = x.sum := by
  rw [← sum_range_getD, hx]
  have hxor : ∀ j ∈ Finset.range (2 ^ n), c ^^^ j ∈ Finset.range (2 ^ n) := fun j hj =>
    Finset.mem_range.mpr (Nat.xor_lt_two_pow hc (Finset.mem_range.mp hj))
  exact Finset.sum_nbij' (c ^^^ ·) (c ^^^ ·) hxor hxor (fun j _ => Nat.xor_xor_cancel_left c j) (fun j _ => Nat.xor_xor_cancel_left c j)
    fun _ _ => rfl

theorem butterfly_sum {t n : Nat} {x : List Nat} (ht : t < 4) (mode : Nat) (flush : Bool) (hx : x.length = 2 ^ n)
    (hlt : ∀ v ∈ x, v < 2 ^ (8 * typeBytes t)) :
    RowsHold (8 * typeBytes t) (2 ^ n) (fun _ => x.sum) (switchStages (butterflyStage (addRows t mode flush)) n 1 (x.map fun v => ([v], 0))) := by
  have hblocks := switchStages_induction (f := butterflyStage (addRows t mode flush)) (n := n)
    (P := fun i => RowsHold (8 * typeBytes t) (2 ^ n) (blockSum x i)) 0 (x.map fun v => ([v], 0))
    (fun i y hi hy => (hy.butterflyStage ht mode flush fun c hc =>
      Nat.xor_lt_two_pow hc (Nat.pow_lt_pow_right (by decide) (by omega))).congr fun c _ => (blockSum_succ x i c).symm)
    ((RowsHold.of_elements hx hlt).congr fun c _ => (blockSum_zero x c).symm)
  rw [Nat.zero_add] at hblocks
  exact hblocks.congr fun c hc => blockSum_all hx hc

/-! ## The scan within segments -/

theorem segmentStart_le (keys : List Nat) : ∀ c, segmentStart keys c ≤ c
  | 0 => le_rfl
  | c + 1 => by
    rw [segmentStart]
    split
    · exact (segmentStart_le keys c).trans (Nat.le_succ c)
    · exact le_rfl

/-- The clusters of a segment have one start. -/
theorem segmentStart_eq {keys : List Nat} {j : Nat} : ∀ {c}, segmentStart keys c ≤ j → j ≤ c → segmentStart keys j = segmentStart keys c
  | 0, _, hj => by rw [Nat.le_zero.mp hj]
  | c + 1, hs, hj => by
    rcases hj.eq_or_lt with rfl | hlt
    · rfl
    · rw [segmentStart] at hs ⊢
      split at hs
      · next hkey => rw [if_pos hkey, segmentStart_eq hs (Nat.le_of_lt_succ hlt)]
      · omega

/-- The sum of the last `d` clusters up to `c`, those before the cluster `s` left out. -/
def runSum (x : List Nat) (s d c : Nat) : Nat := ∑ j ∈ Finset.Ico (max s (c + 1 - d)) (c + 1), x.getD j 0

theorem runSum_one (x : List Nat) {s c : Nat} (hs : s ≤ c) : runSum x s 1 c = x.getD c 0 := by
  simp [runSum, max_eq_right hs]

/-- Where the cluster `d` before `c` lies in the segment, its sum goes on the left of that of `c`. -/
theorem runSum_double (x : List Nat) {s d c : Nat} (hd : d ≤ c) (hs : s ≤ c - d) :
    runSum x s d (c - d) + runSum x s d c = runSum x s (2 * d) c := by
  have hfirst : max s (c + 1 - d) = c - d + 1 := by omega
  have hlast : max s (c - d + 1 - d) = max s (c + 1 - 2 * d) := by omega
  rw [runSum, runSum, runSum, hfirst, hlast]
  exact Finset.sum_Ico_consecutive _ (by omega) (by omega)

/-- Once `d` clusters reach back to the start, so do more. -/
theorem runSum_full (x : List Nat) {s d e c : Nat} (hs : c + 1 - d ≤ s) (hde : d ≤ e) : runSum x s e c = runSum x s d c := by
  rw [runSum, runSum, max_eq_left hs, max_eq_left (by omega)]

theorem runSum_eq_filter (x : List Nat) {s d c : Nat} (hd : c < d) :
    runSum x s d c = ((List.range (c + 1)).filter (s ≤ ·) |>.map fun j => x.getD j 0).sum := by
  rw [← List.sum_toFinset _ (List.nodup_range.filter _), runSum]
  refine Finset.sum_congr (Finset.ext fun j => ?_) fun _ _ => rfl
  simp only [Finset.mem_Ico, List.mem_toFinset, List.mem_filter, List.mem_range, decide_eq_true_eq]
  omega

theorem RowsHold.switchScanLevel {t N d : Nat} {x : List Nat} {y : List SumRow} (ht : t < 4) (mode : Nat) (flush : Bool) (keys : List Nat)
    (h : RowsHold (8 * typeBytes t) N (fun c => runSum x (segmentStart keys c) d c) y) :
    RowsHold (8 * typeBytes t) N (fun c => runSum x (segmentStart keys c) (2 * d) c)
      (switchScanLevel (addRows t mode flush) (segmentStart keys) d y) := by
  have hlen := h.length_eq
  refine ⟨by simp [Machine.switchScanLevel, hlen], fun c hc => ?_⟩
  have hown := h.row c hc
  by_cases hin : d ≤ c ∧ segmentStart keys c ≤ c - d
  · obtain ⟨hd, hs⟩ := hin
    have hbefore := h.row (c - d) (by omega)
    rw [segmentStart_eq hs (Nat.sub_le c d)] at hbefore
    rw [← runSum_double x hd hs, ← addRows_int ht mode flush (y.getD c ([], 0)).2, ← hbefore, ← hown]
    simp [Machine.switchScanLevel, hlen, hc, hd, hs]
  · have hle := segmentStart_le keys c
    rw [runSum_full x (d := d) (c := c) (by omega) (by omega), ← hown]
    simp [Machine.switchScanLevel, hlen, hc, hin]

theorem switchScan_sum {t n : Nat} {x : List Nat} (ht : t < 4) (mode : Nat) (flush : Bool) (keys : List Nat) (hx : x.length = 2 ^ n)
    (hlt : ∀ v ∈ x, v < 2 ^ (8 * typeBytes t)) :
    RowsHold (8 * typeBytes t) (2 ^ n) (fun c => ((List.range (c + 1)).filter (segmentStart keys c ≤ ·) |>.map fun j => x.getD j 0).sum)
      (switchStages (switchScanLevel (addRows t mode flush) (segmentStart keys)) n 1 (x.map fun v => ([v], 0))) := by
  have hruns := switchStages_induction (f := switchScanLevel (addRows t mode flush) (segmentStart keys)) (n := n)
    (P := fun i => RowsHold (8 * typeBytes t) (2 ^ n) fun c => runSum x (segmentStart keys c) (2 ^ i) c) 0 (x.map fun v => ([v], 0))
    (fun i y _ hy => by rw [pow_succ']; exact hy.switchScanLevel ht mode flush keys)
    ((RowsHold.of_elements hx hlt).congr fun c _ => (runSum_one x (segmentStart_le keys c)).symm)
  rw [Nat.zero_add] at hruns
  exact hruns.congr fun c hc => runSum_eq_filter x hc

end Sys2Proof.Machine
end

