-- ==== Sys2Proof/Proofs/IntegerSums.lean ====
section
/-! PROOF. The statement on integer sums and extremes, assembled from the rules of the reductions and of the switch. -/

namespace Sys2Proof

open Machine

/-- Settles O41: each level of the tree keeps the sum, each step of the folds keeps the extreme and the order, and each stage of the switch
doubles the clusters that a cluster has the sum of. -/
theorem integerSumsAndExtremes : Obligations.IntegerSumsAndExtremes := by
  unfold Obligations.IntegerSumsAndExtremes
  refine ⟨?_, ?_, ?_, ?_⟩
  · intro t mode n fl l ht hl hlt
    exact treeSum_addElem ht mode fl n l hl hlt
  · intro e l ht _
    exact reduceExtreme_largest ht _ l
  · intro t k l
    obtain ⟨hlen, hfalls, hmem⟩ := topkOf_spec t k l
    exact ⟨hlen, List.pairwise_map.mpr hfalls, hmem⟩
  · intro n t mode fl x ht hx hlt
    exact ⟨(butterfly_sum ht mode fl hx hlt).row, fun keys => (switchScan_sum ht mode fl keys hx hlt).row⟩

end Sys2Proof
end

