-- ==== Sys2Proof/Proofs/ControllerRules.lean ====
section
/-! PROOF. How a controller instruction completes: a change of its context, after which the pc has moved past it (06 R131). -/

namespace Sys2Proof.Machine

theorem rvLen_eq (cmp : Bool) : rvLen cmp = if cmp then 2 else 4 := rfl

/-- An instruction whose meaning is one change of the context. -/
theorem ctlRule_of_rvStep {i : Instr} {n : Nat} {f : Ctx → Ctx} (hi : ∀ s, exec i s = .next (rvStep n f s)) : CtlRule i n f :=
  fun s _ hc => ctxStep_mod _ hc (hi s)

/-- The same at one context, after checks of it that leave the state alone. -/
theorem ctxStep_of_rvStep {i : Instr} {n : Nat} {f : Ctx → Ctx} {s : State} {c : Ctx} (hc : s.ctx s.cur = some c)
    (hi : exec i s = .next (rvStep n f s)) : CtxStep i s s.cur ((f c).advance n) := ctxStep_mod _ hc hi

theorem CtxStep.congr {i : Instr} {s : State} {k : Nat} {d e : Ctx} (h : CtxStep i s k d) (hde : d = e) : CtxStep i s k e := hde ▸ h

theorem State.illegal_of_ctx {s : State} {c : Ctx} (hc : s.ctx s.cur = some c) : s.illegal = s.takeException s.cur 2 (s.wordAt s.cur c) :=
  State.withCtx_of_ctx hc _

/-! ## Registers -/

theorem Ctx.setX_zero (c : Ctx) (v : Dword) : c.setX 0 v = c := rfl

/-- A word read as two's complement, in a longer word. -/
theorem ofInt_sint {w n : Nat} (hw : 0 < w) (v : Nat) : BitVec.ofInt n (sint w v) = (BitVec.ofNat w v).signExtend n := by
  rw [sint_eq hw, BitVec.signExtend]

/-- A 32-bit result, as a register of 64 bits holds it. -/
theorem sext32_eq (v : Nat) : sext32 v = (BitVec.ofNat 32 v).signExtend 64 := ofInt_sint (by decide) v

/-- A single in a register of 64 bits stands under ones. -/
theorem boxF_eq (v : Nat) : boxF v = BitVec.allOnes 32 ++ BitVec.ofNat 32 v := by
  refine BitVec.eq_of_toNat_eq ?_
  rw [BitVec.toNat_append, boxF, BitVec.toNat_ofNat, BitVec.toNat_ofNat, BitVec.toNat_allOnes, Nat.shiftLeft_eq,
    Nat.mul_comm (2 ^ 32 - 1), ← Nat.two_pow_add_eq_or_of_lt (Nat.mod_lt _ (by decide))]
  omega

end Sys2Proof.Machine
end

