-- ==== Sys2Proof/Proofs/ControllerIntegers.lean ====
section
/-! PROOF. The integer instructions of the controller compute what RV64I and RV64M say (06 R131). -/

namespace Sys2Proof.Machine

/-! ## The ALU: W forms work on the low 32 bits -/

section
variable (pc a b : Dword)

theorem aluVal_addw : aluVal .add true pc a b = (a.setWidth 32 + b.setWidth 32).signExtend 64 := by
  rw [aluVal, if_pos rfl, sext32_eq, BitVec.ofNat_toNat, BitVec.setWidth_add _ _ (by decide)]

theorem aluVal_subw : aluVal .sub true pc a b = (a.setWidth 32 - b.setWidth 32).signExtend 64 := by
  rw [aluVal, if_pos rfl, sext32_eq, BitVec.ofNat_toNat, BitVec.sub_eq_add_neg, BitVec.setWidth_add _ _ (by decide),
    BitVec.setWidth_neg_of_le (by decide), ← BitVec.sub_eq_add_neg]

theorem aluVal_sllw : aluVal .sll true pc a b = (a.setWidth 32 <<< (b.toNat % 32)).signExtend 64 := by
  have hword : BitVec.ofNat 32 (a.toNat % 2 ^ 32 * 2 ^ (b.toNat % 32)) = a.setWidth 32 <<< (b.toNat % 32) :=
    BitVec.eq_of_toNat_eq (by simp [Nat.shiftLeft_eq])
  simp only [aluVal, if_true, sext32_eq, hword]

theorem aluVal_srlw : aluVal .srl true pc a b = (a.setWidth 32 >>> (b.toNat % 32)).signExtend 64 := by
  have hword : BitVec.ofNat 32 (a.toNat % 2 ^ 32 / 2 ^ (b.toNat % 32)) = a.setWidth 32 >>> (b.toNat % 32) := by
    refine BitVec.eq_of_toNat_eq ?_
    rw [BitVec.toNat_ofNat, BitVec.toNat_ushiftRight, BitVec.toNat_setWidth, Nat.shiftRight_eq_div_pow]
    exact Nat.mod_eq_of_lt (lt_of_le_of_lt (Nat.div_le_self _ _) (Nat.mod_lt _ (by decide)))
  simp only [aluVal, if_true, sext32_eq, hword]

theorem aluVal_sraw : aluVal .sra true pc a b = ((a.setWidth 32).sshiftRight (b.toNat % 32)).signExtend 64 := by
  have hword : BitVec.ofNat 32 (a.toNat % 2 ^ 32) = a.setWidth 32 := BitVec.eq_of_toNat_eq (by simp)
  simp only [aluVal, if_true, sint_eq (w := 32) (by decide), hword, BitVec.signExtend, BitVec.toInt_sshiftRight, Int.shiftRight_eq_div_pow]
  norm_cast

theorem aluVal_slt (half : Bool) : aluVal .slt half pc a b = if a.toInt < b.toInt then 1 else 0 := by simp [aluVal, BitVec.slt]

theorem aluVal_sltu (half : Bool) : aluVal .sltu half pc a b = if a.toNat < b.toNat then 1 else 0 := by simp [aluVal, BitVec.ult]
end

/-- An ALU instruction, from the result of its operation. -/
theorem rvIntegerAlu_rule {op : AluOp} {half : Bool} {r : Dword → Dword → Dword → Dword} (hr : ∀ pc a b, aluVal op half pc a b = r pc a b)
    (cmp : Bool) (rd rs1 : Nat) (src : RvSrc) : CtlRule (.rvIntegerAlu cmp op half rd rs1 src) (if cmp then 2 else 4) fun c =>
      c.setX rd (r c.pc (c.xr rs1) (match src with | .reg n => c.xr n | .imm v => v)) := by
  refine ctlRule_of_rvStep fun s => ?_
  rw [exec_rvIntegerAlu, execRvIntegerAlu, rvLen_eq]
  simp only [hr]
  cases src <;> rfl

/-! ## High halves of products -/

/-- Bits 127 to 64 of an integer, whatever stands above them. -/
theorem ofInt_shiftRight_high (z : Int) : ((BitVec.ofInt 128 z) >>> 64).setWidth 64 = BitVec.ofInt 64 (z / 2 ^ 64) := by
  refine BitVec.eq_of_toNat_eq ?_
  rw [BitVec.toNat_setWidth, BitVec.toNat_ushiftRight, Nat.shiftRight_eq_div_pow, BitVec.toNat_ofInt, BitVec.toNat_ofInt]
  omega

theorem setWidth_eq_ofInt (a : Dword) : a.setWidth 128 = BitVec.ofInt 128 (a.toNat : Int) := by
  rw [BitVec.ofInt_natCast, BitVec.ofNat_toNat]

section
variable (a b : Dword)

theorem mulVal_mulh : mulVal .mulh a b = ((a.signExtend 128 * b.signExtend 128) >>> 64).setWidth 64 := by
  rw [BitVec.signExtend, BitVec.signExtend, ← BitVec.ofInt_mul, ofInt_shiftRight_high, mulVal]

theorem mulVal_mulhsu : mulVal .mulhsu a b = ((a.signExtend 128 * b.setWidth 128) >>> 64).setWidth 64 := by
  rw [BitVec.signExtend, setWidth_eq_ofInt, ← BitVec.ofInt_mul, ofInt_shiftRight_high, mulVal]

theorem mulVal_mulhu : mulVal .mulhu a b = ((a.setWidth 128 * b.setWidth 128) >>> 64).setWidth 64 := by
  rw [setWidth_eq_ofInt, setWidth_eq_ofInt, ← BitVec.ofInt_mul, ofInt_shiftRight_high, mulVal, ← BitVec.ofInt_natCast]
  norm_cast

theorem mulVal_mulw : mulVal .mulw a b = (a.setWidth 32 * b.setWidth 32).signExtend 64 := by
  rw [mulVal, sext32_eq, BitVec.ofNat_toNat, BitVec.setWidth_mul _ _ (by decide)]
end

theorem rvMultiply_rule {op : MulOp} {r : Dword → Dword → Dword} (hr : ∀ a b, mulVal op a b = r a b) (rd rs1 rs2 : Nat) :
    CtlRule (.rvMultiply op rd rs1 rs2) 4 fun c => c.setX rd (r (c.xr rs1) (c.xr rs2)) :=
  ctlRule_of_rvStep fun s => by rw [exec_rvMultiply, execRvMultiply]; simp only [hr]

/-! ## Divisions -/

section
variable {n : Nat} (hn : 0 < n) (a b : Nat)

theorem mod_two_pow_eq_zero_iff : b % 2 ^ n = 0 ↔ BitVec.ofNat n b = 0 := by
  rw [← BitVec.toNat_inj, BitVec.toNat_ofNat]; simp

theorem divNum_divu : BitVec.ofInt n (divNum .divu n a b) =
    if BitVec.ofNat n b = 0 then BitVec.allOnes n else BitVec.ofNat n a / BitVec.ofNat n b := by
  simp only [divNum, mod_two_pow_eq_zero_iff]
  split
  · rw [BitVec.ofInt_natCast, ← BitVec.toNat_allOnes, BitVec.ofNat_toNat, BitVec.setWidth_eq]
  · rw [BitVec.ofInt_natCast, ← BitVec.toNat_ofNat a, ← BitVec.toNat_ofNat b, ← BitVec.toNat_udiv, BitVec.ofNat_toNat, BitVec.setWidth_eq]

theorem divNum_remu : BitVec.ofInt n (divNum .remu n a b) =
    if BitVec.ofNat n b = 0 then BitVec.ofNat n a else BitVec.ofNat n a % BitVec.ofNat n b := by
  simp only [divNum, mod_two_pow_eq_zero_iff]
  split
  · rw [BitVec.ofInt_natCast, ← BitVec.toNat_ofNat, BitVec.ofNat_toNat, BitVec.setWidth_eq]
  · rw [BitVec.ofInt_natCast, ← BitVec.toNat_ofNat a, ← BitVec.toNat_ofNat b, ← BitVec.toNat_umod, BitVec.ofNat_toNat, BitVec.setWidth_eq]

include hn

theorem divNum_div : BitVec.ofInt n (divNum .div n a b) =
    if BitVec.ofNat n b = 0 then BitVec.allOnes n else (BitVec.ofNat n a).sdiv (BitVec.ofNat n b) := by
  simp only [divNum, mod_two_pow_eq_zero_iff, sint_eq hn]
  split
  · rw [← BitVec.neg_one_eq_allOnes, BitVec.ofInt_neg]; rfl
  · exact BitVec.eq_of_toInt_eq (by rw [BitVec.toInt_sdiv, BitVec.toInt_ofInt])

theorem divNum_rem : BitVec.ofInt n (divNum .rem n a b) =
    if BitVec.ofNat n b = 0 then BitVec.ofNat n a else (BitVec.ofNat n a).srem (BitVec.ofNat n b) := by
  simp only [divNum, mod_two_pow_eq_zero_iff, sint_eq hn]
  split
  · exact BitVec.ofInt_toInt
  · rw [← BitVec.toInt_srem, BitVec.ofInt_toInt]
end

/-- A quotient or remainder of either width, sign-extended. -/
theorem divVal_eq {w : Nat} (hw : w = 32 ∨ w = 64) (op : DivOp) (a b : Dword) :
    divVal op (decide (w = 32)) a b = (BitVec.ofInt w (divNum op w a.toNat b.toNat)).signExtend 64 := by
  rcases hw with rfl | rfl
  · have hword (z : Int) : BitVec.ofNat 32 (wrap 32 z) = BitVec.ofInt 32 z :=
      BitVec.eq_of_toNat_eq (by rw [BitVec.toNat_ofNat, BitVec.toNat_ofInt, wrap]; omega)
    rw [divVal, if_pos (by decide), sext32_eq, hword]
  · rw [divVal, if_neg (by decide), BitVec.signExtend_eq]

theorem rvDivide_rule {op : DivOp} {w : Nat} {r : (n : Nat) → BitVec n → BitVec n → BitVec n} (hw : w = 32 ∨ w = 64)
    (hr : ∀ a b, BitVec.ofInt w (divNum op w a b) = r w (BitVec.ofNat w a) (BitVec.ofNat w b)) (rd rs1 rs2 : Nat) :
    CtlRule (.rvDivide op (decide (w = 32)) rd rs1 rs2) 4 fun c =>
      { c.setX rd ((r w ((c.xr rs1).setWidth w) ((c.xr rs2).setWidth w)).signExtend 64) with busy := 33, squash := some ⟨c.pc, c.x, c.f, c.fcsr⟩ } :=
  ctlRule_of_rvStep fun s => by
    rw [exec_rvDivide, execRvDivide]
    simp only [divVal_eq hw, hr, BitVec.ofNat_toNat, Ctx.before]

end Sys2Proof.Machine

namespace Sys2Proof

open Machine

/-- Settles O8: each operation of the model is that of the standard, by the lemma of its name. -/
theorem controllerIntegerResults : Obligations.ControllerIntegerResults := by
  unfold Obligations.ControllerIntegerResults
  refine ⟨?_, ?_, ?_, ?_⟩
  · intro op half r h
    simp only [List.mem_cons, List.not_mem_nil, or_false, Prod.mk.injEq] at h
    refine rvIntegerAlu_rule fun pc a b => ?_
    rcases h with h | h
    · rcases h with ⟨rfl, rfl, rfl⟩ | ⟨rfl, rfl, rfl⟩ | ⟨rfl, rfl, rfl⟩ | ⟨rfl, rfl, rfl⟩ | ⟨rfl, rfl, rfl⟩ | ⟨rfl, rfl, rfl⟩ | ⟨rfl, rfl, rfl⟩ |
        ⟨rfl, rfl, rfl⟩ | ⟨rfl, rfl, rfl⟩ | ⟨rfl, rfl, rfl⟩
      · rfl
      · rfl
      · rfl
      · rfl
      · rfl
      · exact aluVal_addw pc a b
      · exact aluVal_subw pc a b
      · exact aluVal_sllw pc a b
      · exact aluVal_srlw pc a b
      · exact aluVal_sraw pc a b
    · rcases h with ⟨rfl, rfl⟩ | ⟨rfl, rfl⟩ | ⟨rfl, rfl⟩ | ⟨rfl, rfl⟩ | ⟨rfl, rfl⟩ | ⟨rfl, rfl⟩ | ⟨rfl, rfl⟩
      · exact aluVal_slt pc a b half
      · exact aluVal_sltu pc a b half
      · rfl
      · rfl
      · rfl
      · rfl
      · rfl
  · intro op r h
    simp only [List.mem_cons, List.not_mem_nil, or_false, Prod.mk.injEq] at h
    refine rvMultiply_rule fun a b => ?_
    rcases h with ⟨rfl, rfl⟩ | ⟨rfl, rfl⟩ | ⟨rfl, rfl⟩ | ⟨rfl, rfl⟩ | ⟨rfl, rfl⟩
    · rfl
    · exact mulVal_mulh a b
    · exact mulVal_mulhsu a b
    · exact mulVal_mulhu a b
    · exact mulVal_mulw a b
  · intro op w r h hw
    have hpos : 0 < w := by omega
    simp only [List.mem_cons, List.not_mem_nil, or_false, Prod.mk.injEq] at h
    refine rvDivide_rule hw fun a b => ?_
    rcases h with ⟨rfl, rfl⟩ | ⟨rfl, rfl⟩ | ⟨rfl, rfl⟩ | ⟨rfl, rfl⟩
    · exact divNum_div hpos a b
    · exact divNum_divu a b
    · exact divNum_rem hpos a b
    · exact divNum_remu a b
  · intro c n v
    refine ⟨c.setX_zero v, c.xr_zero, fun hn => ⟨?_, fun m hm => ?_⟩⟩
    · rw [Ctx.xr_setX, if_pos ⟨rfl, hn⟩]
    · rw [Ctx.xr_setX, if_neg fun h => hm h.1]

end Sys2Proof
end

