-- ==== Sys2Proof/Proofs/ControllerJumps.lean ====
section
/-! PROOF. Branches, jumps and fences of the controller (06 R131, R132; 07 R191). -/

namespace Sys2Proof.Machine

/-- A conditional branch, from the comparison of its name. -/
theorem rvBranch_step {k : BrKind} {t : Dword → Dword → Bool} (ht : ∀ a b, brTaken k a b = t a b) (cmp : Bool) (rs1 rs2 : Nat) (off : Dword) {s : State}
    {c : Ctx} (hc : s.ctx s.cur = some c) : CtxStep (.rvBranch cmp k rs1 rs2 off) s s.cur
      { c with pc := if t (c.xr rs1) (c.xr rs2) then c.pc + off else c.pc + (if cmp then 2 else 4)
               busy := if t (c.xr rs1) (c.xr rs2) = decide (off.toInt < 0) then 0 else 3 } := by
  refine (ctxStep_mod _ hc (by rw [exec_rvBranch, execRvBranch])).congr ?_
  have hback : off.slt 0 = decide (off.toInt < 0) := by simp [BitVec.slt]
  rw [ht, hback, rvLen_eq]
  cases t (c.xr rs1) (c.xr rs2) <;> cases cmp <;> simp [Ctx.advance]

theorem ofNat_rvLen (cmp : Bool) : BitVec.ofNat 64 (rvLen cmp) = if cmp then 2 else 4 := by cases cmp <;> rfl

/-- Bit 0 of an address cleared. -/
theorem ofNat_half_double (a : Dword) : BitVec.ofNat 64 (a.toNat / 2 * 2) = a &&& ~~~1 := by
  refine BitVec.eq_of_getLsbD_eq fun i hi => ?_
  rw [BitVec.getLsbD_ofNat, BitVec.getLsbD_and, BitVec.getLsbD_not]
  cases i with
  | zero => simp [Nat.testBit_zero]
  | succ i =>
    have hone : (1 : Dword).getLsbD (i + 1) = false := by simp [BitVec.getLsbD_one]
    rw [hone, Nat.testBit_succ, Nat.mul_div_cancel _ (by decide), ← Nat.testBit_succ]
    simp [hi, BitVec.getLsbD]

theorem jal_step (cmp : Bool) (rd : Nat) (off : Dword) {s : State} {c : Ctx} (hc : s.ctx s.cur = some c) :
    CtxStep (.jal cmp rd off) s s.cur { c.setX rd (c.pc + (if cmp then 2 else 4)) with pc := c.pc + off } :=
  (ctxStep_mod _ hc (by rw [exec_jal, execJal])).congr (by rw [ofNat_rvLen])

theorem jalr_step (cmp : Bool) (rd rs1 : Nat) (off : Dword) {s : State} {c : Ctx} (hc : s.ctx s.cur = some c) :
    CtxStep (.jalr cmp rd rs1 off) s s.cur
      { c.setX rd (c.pc + (if cmp then 2 else 4)) with pc := (c.xr rs1 + off) &&& ~~~1, busy := 3, ie := c.ieWait.getD c.ie, ieWait := none } :=
  (ctxStep_mod _ hc (by rw [exec_jalr, execJalr])).congr (by rw [ofNat_rvLen, ofNat_half_double])

end Sys2Proof.Machine

namespace Sys2Proof

open Machine

/-- Settles O9: each branch compares as its name says, and a jump is one change of the context. -/
theorem controllerJumps : Obligations.ControllerJumps := by
  unfold Obligations.ControllerJumps
  refine ⟨?_, fun cmp rd off s c hc => jal_step cmp rd off hc, fun cmp rd rs1 off s c hc => jalr_step cmp rd rs1 off hc,
    fun i b => ctlRule_of_rvStep fun s => by rw [exec_fence, execFence]; rfl⟩
  intro k t h cmp rs1 rs2 off s c hc
  simp only [List.mem_cons, List.not_mem_nil, or_false, Prod.mk.injEq] at h
  refine rvBranch_step (fun a b => ?_) cmp rs1 rs2 off hc
  rcases h with ⟨rfl, rfl⟩ | ⟨rfl, rfl⟩ | ⟨rfl, rfl⟩ | ⟨rfl, rfl⟩ | ⟨rfl, rfl⟩ | ⟨rfl, rfl⟩
  · rfl
  · simp only [brTaken, bne, beq_eq_decide, ne_eq, decide_not]
  · simp [brTaken, BitVec.slt]
  · simp only [brTaken, BitVec.slt, ← decide_not, not_lt]
  · simp [brTaken, BitVec.ult]
  · simp only [brTaken, BitVec.ult, ← decide_not, not_lt]

end Sys2Proof
end

