-- ==== Sys2Proof/Proofs/ControlMemory.lean ====
section
/-! PROOF. Control memory: what a read of several bytes gives, and what a byte reads as after a write of several (02 R56). -/

namespace Sys2Proof.Machine

theorem cmRead_eq (m : KMap Byte) (a n : Nat) : cmRead m a n = ofBytes ((List.range n).map fun i => cmByte m (a + i)) := by
  induction n generalizing a with
  | zero => rfl
  | succ n ih =>
    rw [cmRead, ih, List.range_succ_eq_map, List.map_cons, List.map_map, ofBytes]
    simp only [Function.comp_def, Nat.add_zero, Nat.succ_eq_add_one, Nat.add_assoc, Nat.add_comm 1]

theorem cmRead_lt (m : KMap Byte) (a n : Nat) : cmRead m a n < 2 ^ (8 * n) := by
  induction n generalizing a with
  | zero => simp [cmRead]
  | succ n ih =>
    have hrest := ih (a + 1)
    have hbyte := (cmByte m a).isLt
    rw [cmRead, Nat.mul_succ, pow_add]
    omega

theorem cmByte_put (m : KMap Byte) (a i : Nat) (b : Byte) : cmByte (KMap.put 0 m a b) i = if i = a then b else cmByte m i := KMap.get_put _ _ _ _ _

/-- A byte after a write: its digit of the value, or what stood there. -/
theorem cmByte_cmWrite (m : KMap Byte) (a n v i : Nat) :
    cmByte (cmWrite m a n v) i = if a ≤ i ∧ i < a + n then BitVec.ofNat 8 (v / 256 ^ (i - a)) else cmByte m i := by
  induction n generalizing m a v with
  | zero => rw [cmWrite, if_neg (by omega)]
  | succ n ih =>
    rw [cmWrite, ih, cmByte_put]
    rcases lt_trichotomy i a with hlt | rfl | hgt
    · rw [if_neg (by omega), if_neg (by omega), if_neg (by omega)]
    · rw [if_neg (by omega), if_pos rfl, if_pos (by omega), Nat.sub_self, pow_zero, Nat.div_one]
    · have hdigit : v / 256 ^ (i - a) = v / 256 / 256 ^ (i - (a + 1)) := by
        rw [Nat.div_div_eq_div_mul, ← pow_succ', show i - (a + 1) + 1 = i - a by omega]
      rw [if_neg (by omega : ¬i = a), hdigit]
      exact if_congr (by omega) rfl rfl

/-- Byte `j` of a word of `n` bytes is digit `j` of any number that the word holds the low bits of. -/
theorem extractLsb'_ofNat_byte {j n : Nat} (h : j < n) (v : Nat) : (BitVec.ofNat (8 * n) v).extractLsb' (8 * j) 8 = BitVec.ofNat 8 (v / 256 ^ j) := by
  refine BitVec.eq_of_getLsbD_eq fun i hi => ?_
  have hbit : 8 * j + i < 8 * n := by omega
  rw [show (256 : Nat) = 2 ^ 8 from rfl, ← pow_mul, BitVec.getLsbD_extractLsb', BitVec.getLsbD_ofNat, BitVec.getLsbD_ofNat, Nat.testBit_div_two_pow,
    Nat.add_comm i]
  simp [hi, hbit]

/-- A write of the low `n` bytes of a register, or of a word that an operation has made. -/
theorem cmByte_cmWrite_word {w : Nat} (x : BitVec w) {v n : Nat} (hv : ∀ j < n, BitVec.ofNat 8 (v / 256 ^ j) = x.extractLsb' (8 * j) 8) (m : KMap Byte)
    (a i : Nat) : cmByte (cmWrite m a n v) i = if a ≤ i ∧ i < a + n then x.extractLsb' (8 * (i - a)) 8 else cmByte m i := by
  rw [cmByte_cmWrite]
  split
  · exact hv _ (by omega)
  · rfl

theorem ofNat_digit_dword (x : Dword) (j : Nat) : BitVec.ofNat 8 (x.toNat / 256 ^ j) = x.extractLsb' (8 * j) 8 := by
  rw [BitVec.extractLsb', Nat.shiftRight_eq_div_pow, pow_mul]; norm_num

end Sys2Proof.Machine
end

