-- ==== Sys2Proof/Proofs/ControllerLoads.lean ====
section
/-! PROOF. Loads and LR from control memory (06 R131; 02 R56). -/

namespace Sys2Proof.Machine

/-- Addresses of control memory are none of the register space. -/
theorem Ctx.reachesRegs_false (c : Ctx) {a : Nat} (h : a < regBase) : c.reachesRegs a = false := by
  simp [Ctx.reachesRegs, Nat.not_le.mpr h]

theorem State.ctlRead_ok (s : State) (c : Ctx) {a n : Nat} (hn : a % n = 0) (htop : a + n ≤ 0x38C00) :
    s.ctlRead c a n = .inr (ofBytes ((List.range n).map fun i => cmByte (s.sp s.cur).cm (a + i))) := by
  have hload : ¬c.loadTop < a + n := by unfold Ctx.loadTop; split <;> omega
  rw [State.ctlRead, if_neg (not_not.mpr hn), if_neg hload, cmRead_eq]

theorem rvLoad_step (cmp : Bool) (k : LoadKind) (rd rs1 : Nat) (off : Dword) {s : State} {c : Ctx} (hc : s.ctx s.cur = some c)
    (hn : (c.xr rs1 + off).toNat % loadBytes k = 0) (htop : (c.xr rs1 + off).toNat + loadBytes k ≤ 0x38C00) :
    CtxStep (.rvLoad cmp k rd rs1 off) s s.cur
      ((c.loadInto k rd (ofBytes ((List.range (loadBytes k)).map fun i => cmByte (s.sp s.cur).cm ((c.xr rs1 + off).toNat + i)))).advance (rvLen cmp)) := by
  refine ctxStep_set ?_
  have hregs := c.reachesRegs_false (a := (c.xr rs1 + off).toNat) (by unfold regBase; omega)
  rw [exec_rvLoad, execRvLoad, State.withCtx_of_ctx hc]
  simp only [hregs, Bool.false_eq_true, false_and, if_false, s.ctlRead_ok c hn htop]

/-- A load into an integer register. -/
theorem rvLoad_x {k : LoadKind} {n : Nat} {f : Nat → Dword} (hk : loadBytes k = n) (hf : ∀ (c : Ctx) rd v, c.loadInto k rd v = c.setX rd (f v)) (cmp : Bool)
    (rd rs1 : Nat) (off : Dword) {s : State} {c : Ctx} (hc : s.ctx s.cur = some c) (hn : (c.xr rs1 + off).toNat % n = 0)
    (htop : (c.xr rs1 + off).toNat + n ≤ 0x38C00) :
    CtxStep (.rvLoad cmp k rd rs1 off) s s.cur
      { c.setX rd (f (ofBytes ((List.range n).map fun i => cmByte (s.sp s.cur).cm ((c.xr rs1 + off).toNat + i)))) with
        pc := c.pc + (if cmp then 2 else 4) } := by
  subst hk
  exact (rvLoad_step cmp k rd rs1 off hc hn htop).congr (by rw [hf, Ctx.advance, Ctx.setX_pc, ofNat_rvLen])

/-- A load into a floating-point register. -/
theorem rvLoad_f {k : LoadKind} {n : Nat} {f : Nat → Dword} (hk : loadBytes k = n) (hf : ∀ (c : Ctx) rd v, c.loadInto k rd v = c.setF rd (f v)) (cmp : Bool)
    (rd rs1 : Nat) (off : Dword) {s : State} {c : Ctx} (hc : s.ctx s.cur = some c) (hn : (c.xr rs1 + off).toNat % n = 0)
    (htop : (c.xr rs1 + off).toNat + n ≤ 0x38C00) :
    CtxStep (.rvLoad cmp k rd rs1 off) s s.cur
      { c with f := KMap.ins rd (f (ofBytes ((List.range n).map fun i => cmByte (s.sp s.cur).cm ((c.xr rs1 + off).toNat + i)))) c.f
               pc := c.pc + (if cmp then 2 else 4) } := by
  subst hk
  exact (rvLoad_step cmp k rd rs1 off hc hn htop).congr (by rw [hf, Ctx.advance, ofNat_rvLen]; rfl)

theorem amoSext_eq (d : Bool) (v : Nat) : amoSext d v = if d then BitVec.ofNat 64 v else (BitVec.ofNat 32 v).signExtend 64 := by rw [amoSext, sext32_eq]

theorem lr_step (d : Bool) (aqrl rd rs1 : Nat) {s : State} {c : Ctx} (hc : s.ctx s.cur = some c) (hn : (c.xr rs1).toNat % amoBytes d = 0)
    (htop : (c.xr rs1).toNat + amoBytes d ≤ 0x38C00) : CtxStep (.lr d aqrl rd rs1) s s.cur
      { c.setX rd (amoSext d (ofBytes ((List.range (amoBytes d)).map fun i => cmByte (s.sp s.cur).cm ((c.xr rs1).toNat + i)))) with
        pc := c.pc + 4, resv := some (c.xr rs1).toNat } := by
  refine ctxStep_set ?_
  rw [exec_lr, execLr, State.withCtx_of_ctx hc]
  simp only [s.ctlRead_ok c hn htop]
  unfold Ctx.setX
  split <;> rfl

end Sys2Proof.Machine

namespace Sys2Proof

open Machine

/-- Settles O10: a read of control memory below the limit gives its bytes, and each load extends them as its name says. -/
theorem controllerLoads : Obligations.ControllerLoads := by
  unfold Obligations.ControllerLoads
  refine ⟨?_, ?_, ?_⟩
  · intro k n f h cmp rd rs1 off s c hc hn htop
    simp only [List.mem_cons, List.not_mem_nil, or_false, Prod.mk.injEq] at h
    have hload : loadBytes k = n ∧ ∀ (c : Ctx) rd v, c.loadInto k rd v = c.setX rd (f v) := by
      rcases h with ⟨rfl, rfl, rfl⟩ | ⟨rfl, rfl, rfl⟩ | ⟨rfl, rfl, rfl⟩ | ⟨rfl, rfl, rfl⟩ | ⟨rfl, rfl, rfl⟩ | ⟨rfl, rfl, rfl⟩ | ⟨rfl, rfl, rfl⟩
      · exact ⟨rfl, fun c rd v => by rw [Ctx.loadInto, ofInt_sint (by decide)]⟩
      · exact ⟨rfl, fun c rd v => by rw [Ctx.loadInto, ofInt_sint (by decide)]⟩
      · exact ⟨rfl, fun c rd v => by rw [Ctx.loadInto, sext32_eq]⟩
      · exact ⟨rfl, fun c rd v => rfl⟩
      · exact ⟨rfl, fun c rd v => rfl⟩
      · exact ⟨rfl, fun c rd v => rfl⟩
      · exact ⟨rfl, fun c rd v => rfl⟩
    exact rvLoad_x hload.1 hload.2 cmp rd rs1 off hc hn htop
  · intro k n f h cmp rd rs1 off s c hc hn htop
    simp only [List.mem_cons, List.not_mem_nil, or_false, Prod.mk.injEq] at h
    have hload : loadBytes k = n ∧ ∀ (c : Ctx) rd v, c.loadInto k rd v = c.setF rd (f v) := by
      rcases h with ⟨rfl, rfl, rfl⟩ | ⟨rfl, rfl, rfl⟩
      · exact ⟨rfl, fun c rd v => by rw [Ctx.loadInto, boxF_eq]⟩
      · exact ⟨rfl, fun c rd v => rfl⟩
    exact rvLoad_f hload.1 hload.2 cmp rd rs1 off hc hn htop
  · intro d aqrl rd rs1 s c hc hn htop v
    rw [← amoSext_eq]
    exact lr_step d aqrl rd rs1 hc hn htop

end Sys2Proof
end

