-- ==== Sys2Proof/Proofs/ControllerStores.lean ====
section
/-! PROOF. Stores, SC and the AMOs on control memory (06 R131; 02 R56). -/

namespace Sys2Proof.Machine

theorem Ctx.storeFault_none (c : Ctx) {a n : Nat} (hn : a % n = 0) (htop : a + n ≤ 0x38000) : c.storeFault a n = none := by
  have hstore : ¬c.storeTop < a + n := by unfold Ctx.storeTop; split <;> omega
  rw [Ctx.storeFault, if_neg (not_not.mpr hn), if_neg hstore]

/-- An instruction that writes control memory and retires. -/
theorem spStep_of_ctlWrite {i : Instr} {s : State} {c d : Ctx} {a n v : Nat} (len : Nat) (f : Ctx → Ctx) (hc : s.ctx s.cur = some c)
    (hi : exec i s = .next (rvStep len f (s.ctlWrite a n v))) (hd : (f c).advance len = d) :
    SpStep i s s.cur { s.sp s.cur with ctx := some d, cm := cmWrite (s.sp s.cur).cm a n v } :=
  ⟨_, hi, hd ▸ ((WithSp.refl s s.cur).modSp fun p => { p with cm := cmWrite p.cm a n v }).modCtx hc fun c => (f c).advance len⟩

/-- A store, from the register that it writes. -/
theorem rvStore_step {k : StoreKind} {n : Nat} {f : Ctx → Nat → Dword} (hk : storeBytes k = n) (hf : ∀ (c : Ctx) r, c.storeVal k r = (f c r).toNat)
    (cmp : Bool) (rs2 rs1 : Nat) (off : Dword) {s : State} {c : Ctx} (hc : s.ctx s.cur = some c) (hn : (c.xr rs1 + off).toNat % n = 0)
    (htop : (c.xr rs1 + off).toNat + n ≤ 0x38000) :
    SpStep (.rvStore cmp k rs2 rs1 off) s s.cur { s.sp s.cur with
      ctx := some { c with pc := c.pc + (if cmp then 2 else 4) }, cm := cmWrite (s.sp s.cur).cm (c.xr rs1 + off).toNat n (f c rs2).toNat } := by
  have hregs := c.reachesRegs_false (a := (c.xr rs1 + off).toNat) (by unfold regBase; omega)
  subst hk
  refine spStep_of_ctlWrite (rvLen cmp) id hc ?_ ?_
  · rw [exec_rvStore, execRvStore, State.withCtx_of_ctx hc]
    simp only [hregs, Bool.false_eq_true, false_and, if_false, c.storeFault_none hn htop, hf]
  · rw [id, Ctx.advance, ofNat_rvLen]

/-! ## SC -/

section
variable (d : Bool) (aqrl rd rs1 rs2 : Nat) {s : State} {c : Ctx} (hc : s.ctx s.cur = some c) (hn : (c.xr rs1).toNat % amoBytes d = 0)
  (htop : (c.xr rs1).toNat + amoBytes d ≤ 0x38000)
include hc hn htop

theorem sc_stores (hresv : c.resv = some (c.xr rs1).toNat) : SpStep (.sc d aqrl rd rs1 rs2) s s.cur { s.sp s.cur with
    ctx := some { c.setX rd 0 with pc := c.pc + 4, resv := none }, cm := cmWrite (s.sp s.cur).cm (c.xr rs1).toNat (amoBytes d) (c.xr rs2).toNat } := by
  refine spStep_of_ctlWrite 4 (fun y => { y with resv := none }.setX rd 0) hc ?_ ?_
  · rw [exec_sc, execSc, State.withCtx_of_ctx hc]
    simp only [c.storeFault_none hn htop, hresv, decide_true, if_true]
  · unfold Ctx.setX
    split <;> rfl

theorem sc_fails (hresv : c.resv ≠ some (c.xr rs1).toNat) :
    CtxStep (.sc d aqrl rd rs1 rs2) s s.cur { c.setX rd 1 with pc := c.pc + 4, resv := none } := by
  refine (ctxStep_of_rvStep (n := 4) (f := fun y => { y with resv := none }.setX rd 1) hc ?_).congr ?_
  · rw [exec_sc, execSc, State.withCtx_of_ctx hc]
    simp only [c.storeFault_none hn htop, hresv, decide_false, Bool.false_eq_true, if_false]
  · unfold Ctx.setX
    split <;> rfl

/-! ## AMOs -/

theorem rvAmo_step (op : AmoOp) {v : Nat} (hv : cmRead (s.sp s.cur).cm (c.xr rs1).toNat (amoBytes d) = v) :
    SpStep (.rvAmo op d aqrl rd rs1 rs2) s s.cur { s.sp s.cur with
      ctx := some { c.setX rd (amoSext d v) with pc := c.pc + 4, busy := 1 },
      cm := cmWrite (s.sp s.cur).cm (c.xr rs1).toNat (amoBytes d) (amoVal op (8 * amoBytes d) v (c.xr rs2).toNat) } := by
  refine spStep_of_ctlWrite 4 (fun y => { y.setX rd (amoSext d v) with busy := 1 }) hc ?_ ?_
  · rw [exec_rvAmo, execRvAmo, State.withCtx_of_ctx hc]
    simp only [c.storeFault_none hn htop, hv]
  · simp only [Ctx.advance, Ctx.setX_pc]
    rfl
end

section
variable {w : Nat} (hw : 0 < w) (a b : Nat)

theorem amoVal_minu : BitVec.ofNat w (amoVal .minu w a b) =
    if (BitVec.ofNat w b).toNat < (BitVec.ofNat w a).toNat then BitVec.ofNat w b else BitVec.ofNat w a := by
  rw [amoVal, BitVec.toNat_ofNat, BitVec.toNat_ofNat, apply_ite (BitVec.ofNat w)]

theorem amoVal_maxu : BitVec.ofNat w (amoVal .maxu w a b) =
    if (BitVec.ofNat w a).toNat < (BitVec.ofNat w b).toNat then BitVec.ofNat w b else BitVec.ofNat w a := by
  rw [amoVal, BitVec.toNat_ofNat, BitVec.toNat_ofNat, apply_ite (BitVec.ofNat w)]

include hw

theorem amoVal_min : BitVec.ofNat w (amoVal .min w a b) =
    if (BitVec.ofNat w b).toInt < (BitVec.ofNat w a).toInt then BitVec.ofNat w b else BitVec.ofNat w a := by
  rw [amoVal, sint_eq hw, sint_eq hw, apply_ite (BitVec.ofNat w)]

theorem amoVal_max : BitVec.ofNat w (amoVal .max w a b) =
    if (BitVec.ofNat w a).toInt < (BitVec.ofNat w b).toInt then BitVec.ofNat w b else BitVec.ofNat w a := by
  rw [amoVal, sint_eq hw, sint_eq hw, apply_ite (BitVec.ofNat w)]
end

theorem amoBytes_pos (d : Bool) : 0 < 8 * amoBytes d := by cases d <;> decide

/-- What an AMO leaves in rd: the old value of its width, sign-extended. -/
theorem amoSext_eq_signExtend (d : Bool) (v : Nat) : amoSext d v = (BitVec.ofNat (8 * amoBytes d) v).signExtend 64 := by
  cases d
  · exact sext32_eq v
  · exact (BitVec.signExtend_eq _).symm

end Sys2Proof.Machine

namespace Sys2Proof

open Machine

/-- Settles O11: a byte of control memory after the write is its byte of the value, or what stood there. -/
theorem controllerStoresAndAtomics : Obligations.ControllerStoresAndAtomics := by
  unfold Obligations.ControllerStoresAndAtomics
  refine ⟨?_, ?_, ?_⟩
  · intro k n f h cmp rs2 rs1 off s c hc hn htop
    simp only [List.mem_cons, List.not_mem_nil, or_false, Prod.mk.injEq] at h
    have hstore : storeBytes k = n ∧ ∀ (c : Ctx) r, c.storeVal k r = (f c r).toNat := by
      rcases h with ⟨rfl, rfl, rfl⟩ | ⟨rfl, rfl, rfl⟩ | ⟨rfl, rfl, rfl⟩ | ⟨rfl, rfl, rfl⟩ | ⟨rfl, rfl, rfl⟩ | ⟨rfl, rfl, rfl⟩ <;>
        exact ⟨rfl, fun _ _ => rfl⟩
    exact ⟨_, rvStore_step hstore.1 hstore.2 cmp rs2 rs1 off hc hn htop, cmByte_cmWrite_word _ (fun j _ => ofNat_digit_dword _ j) _ _⟩
  · intro d aqrl rd rs1 rs2 s c hc n hn htop
    exact ⟨fun hresv => ⟨_, sc_stores d aqrl rd rs1 rs2 hc hn htop hresv, cmByte_cmWrite_word _ (fun j _ => ofNat_digit_dword _ j) _ _⟩,
      sc_fails d aqrl rd rs1 rs2 hc hn htop⟩
  · intro op f h d aqrl rd rs1 rs2 s c hc n hn htop old
    simp only [List.mem_cons, List.not_mem_nil, or_false, Prod.mk.injEq] at h
    have hval (a b : Nat) : BitVec.ofNat (8 * n) (amoVal op (8 * n) a b) = f (8 * n) (BitVec.ofNat (8 * n) a) (BitVec.ofNat (8 * n) b) := by
      have hw : 0 < 8 * n := amoBytes_pos d
      rcases h with ⟨rfl, rfl⟩ | ⟨rfl, rfl⟩ | ⟨rfl, rfl⟩ | ⟨rfl, rfl⟩ | ⟨rfl, rfl⟩ | ⟨rfl, rfl⟩ | ⟨rfl, rfl⟩ | ⟨rfl, rfl⟩ | ⟨rfl, rfl⟩
      · rfl
      · exact BitVec.ofNat_add _ _
      · exact BitVec.ofNat_and
      · exact BitVec.ofNat_or
      · exact BitVec.ofNat_xor
      · exact amoVal_min hw a b
      · exact amoVal_max hw a b
      · exact amoVal_minu a b
      · exact amoVal_maxu a b
    have hstep := rvAmo_step d aqrl rd rs1 rs2 hc hn htop op (cmRead_eq _ _ _)
    rw [amoSext_eq_signExtend] at hstep
    refine ⟨_, hstep, cmByte_cmWrite_word _ (fun j hj => ?_) _ _⟩
    have hword (v : Nat) : BitVec.ofNat (8 * n) (amoVal op (8 * n) v (c.xr rs2).toNat) = f (8 * n) (BitVec.ofNat (8 * n) v) ((c.xr rs2).setWidth (8 * n)) := by
      rw [hval, BitVec.ofNat_toNat]
    exact (extractLsb'_ofNat_byte hj _).symm.trans (congrArg (BitVec.extractLsb' (8 * j) 8) (hword _))

end Sys2Proof
end

