-- ==== Sys2Proof/Proofs/ControllerFloats.lean ====
section
/-! PROOF. The F and D operations of the controller (06 R131): operands and results in registers, the rounding mode, and completion. -/

namespace Sys2Proof.Machine

/-! ## Operands and results -/

/-- The bits of an operand: those of a single stand under ones, or read as the canonical NaN. -/
theorem Ctx.fbits_eq (c : Ctx) (dbl : Bool) (n : Nat) : c.fbits dbl n =
    if dbl then (KMap.get 0 c.f n).toNat
    else if (KMap.get 0 c.f n).extractLsb' 32 32 = BitVec.allOnes 32 then ((KMap.get 0 c.f n).extractLsb' 0 32).toNat else (rvFmt dbl).qnan := by
  cases dbl
  · have hboxed : (KMap.get 0 c.f n).toNat / 2 ^ 32 = 0xFFFFFFFF ↔ (KMap.get 0 c.f n).extractLsb' 32 32 = BitVec.allOnes 32 := by
      rw [← BitVec.toNat_inj, BitVec.extractLsb'_toNat, Nat.shiftRight_eq_div_pow, BitVec.toNat_allOnes]
      have := (KMap.get 0 c.f n).isLt
      omega
    simp only [Ctx.fbits, Ctx.fr, Bool.false_eq_true, if_false, hboxed, BitVec.extractLsb'_toNat, Nat.shiftRight_zero, rvFmt]
  · rfl

/-- A result as a register holds it. -/
def boxBits (dbl : Bool) (v : Nat) : Dword := if dbl then BitVec.ofNat 64 v else BitVec.allOnes 32 ++ BitVec.ofNat 32 v

theorem Ctx.setFbits_eq (c : Ctx) (dbl : Bool) (rd v : Nat) : c.setFbits dbl rd v = { c with f := KMap.ins rd (boxBits dbl v) c.f } := by
  rw [Ctx.setFbits, boxF_eq]; rfl

theorem Ctx.rvRound_eq (c : Ctx) (rm : Nat) : c.rvRound rm =
    if (if rm = 7 then (c.fcsr.extractLsb' 5 3).toNat else rm) < 5 then some (if rm = 7 then (c.fcsr.extractLsb' 5 3).toNat else rm) else none := by
  rw [Ctx.rvRound, BitVec.extractLsb'_toNat, Nat.shiftRight_eq_div_pow]

section
variable (dbl : Bool) (mode : Nat) (c : Ctx) (rs1 rs2 rs3 : Nat)

/-! The four integers that FCVT converts: the low word of the register or all of it, with or without sign. -/

theorem rvFloatRes_cvtFW {r : WithFlags Nat} (hr : (rvFmt dbl).ofVal mode false (Val.ofInt ((c.xr rs1).setWidth 32).toInt) = r) :
    rvFloatRes .cvtFW dbl mode c rs1 rs2 rs3 = (r.1, fflagsOf r.2) := by
  rw [rvFloatRes, sint_eq (by decide), BitVec.ofNat_toNat, hr]

theorem rvFloatRes_cvtFWu {r : WithFlags Nat} (hr : (rvFmt dbl).ofVal mode false (Val.ofInt ((c.xr rs1).setWidth 32).toNat) = r) :
    rvFloatRes .cvtFWu dbl mode c rs1 rs2 rs3 = (r.1, fflagsOf r.2) := by
  rw [rvFloatRes, ← BitVec.toNat_ofNat, BitVec.ofNat_toNat, hr]

theorem rvFloatRes_cvtFL {r : WithFlags Nat} (hr : (rvFmt dbl).ofVal mode false (Val.ofInt (c.xr rs1).toInt) = r) :
    rvFloatRes .cvtFL dbl mode c rs1 rs2 rs3 = (r.1, fflagsOf r.2) := by
  rw [rvFloatRes, sint_eq (by decide), BitVec.ofNat_toNat, BitVec.setWidth_eq, hr]

theorem rvFloatRes_cvtFLu {r : WithFlags Nat} (hr : (rvFmt dbl).ofVal mode false (Val.ofInt (c.xr rs1).toNat) = r) :
    rvFloatRes .cvtFLu dbl mode c rs1 rs2 rs3 = (r.1, fflagsOf r.2) := by rw [rvFloatRes, hr]
end

/-! ## Completion -/

section
variable {s : State} {c : Ctx} (hc : s.ctx s.cur = some c) {rm mode : Nat} (hround : c.rvRound rm = some mode) {dbl : Bool} {rd rs1 rs2 : Nat}
include hc hround

/-- An operation whose result is a floating-point register. -/
theorem rvFloatOp_float {op : FOp} (hop : fopToX op = false) {rs3 : Nat} {r : Nat × Nat} (hr : rvFloatRes op dbl mode c rs1 rs2 rs3 = r) :
    CtxStep (.rvFloatOp op dbl rd rs1 rs2 rs3 rm) s s.cur
      { c with f := KMap.ins rd (boxBits dbl r.1) c.f, fcsr := c.fcsr ||| BitVec.ofNat 32 (r.2 % 32), pc := c.pc + 4 } := by
  refine (ctxStep_of_rvStep (n := 4) hc (by rw [exec_rvFloatOp, execRvFloatOp, State.withCtx_of_ctx hc, hround])).congr ?_
  simp only [hop, Bool.false_eq_true, if_false, hr, Ctx.setFbits_eq]
  rfl

/-- One whose result is an integer register. -/
theorem rvFloatOp_int {op : FOp} (hop : fopToX op = true) {rs3 : Nat} {r : Dword × Nat} (hr : rvIntRes op dbl mode c rs1 rs2 = r) :
    CtxStep (.rvFloatOp op dbl rd rs1 rs2 rs3 rm) s s.cur
      { c.setX rd r.1 with fcsr := c.fcsr ||| BitVec.ofNat 32 (r.2 % 32), pc := c.pc + 4 } := by
  refine (ctxStep_of_rvStep (n := 4) hc (by rw [exec_rvFloatOp, execRvFloatOp, State.withCtx_of_ctx hc, hround])).congr ?_
  simp only [hop, if_true, hr, Ctx.orFflags, Ctx.advance, Ctx.setX_fcsr, Ctx.setX_pc]
  rfl

/-- FDIV and FSQRT. -/
theorem rvFdivFsqrt_step {sq : Bool} {r : WithFlags Nat}
    (hr : (if sq then fSqrt (rvFmt dbl) mode false ((rvFmt dbl).decode (c.fbits dbl rs1))
      else fDiv (rvFmt dbl) mode false ((rvFmt dbl).decode (c.fbits dbl rs1)) ((rvFmt dbl).decode (c.fbits dbl rs2))) = r) :
    CtxStep (.rvFdivFsqrt sq dbl rd rs1 rs2 rm) s s.cur
      { c with f := KMap.ins rd (boxBits dbl r.1) c.f, fcsr := c.fcsr ||| BitVec.ofNat 32 (fflagsOf r.2 % 32), pc := c.pc + 4
               busy := 19, squash := some ⟨c.pc, c.x, c.f, c.fcsr⟩ } := by
  refine (ctxStep_of_rvStep (n := 4) hc (by rw [exec_rvFdivFsqrt, execRvFdivFsqrt, State.withCtx_of_ctx hc, hround])).congr ?_
  simp only [hr, Ctx.setFbits_eq]
  rfl
end

/-- A reserved mode in fcsr. -/
theorem rvFloat_traps {s : State} {c : Ctx} (hc : s.ctx s.cur = some c) {rm : Nat} (hround : c.rvRound rm = none) (op : FOp) (sq dbl : Bool)
    (rd rs1 rs2 rs3 : Nat) : Traps (.rvFloatOp op dbl rd rs1 rs2 rs3 rm) s 2 (s.wordAt s.cur c) ∧
      Traps (.rvFdivFsqrt sq dbl rd rs1 rs2 rm) s 2 (s.wordAt s.cur c) := by
  constructor
  · rw [Traps, exec_rvFloatOp, execRvFloatOp, State.withCtx_of_ctx hc, hround, State.illegal_of_ctx hc]
  · rw [Traps, exec_rvFdivFsqrt, execRvFdivFsqrt, State.withCtx_of_ctx hc, hround, State.illegal_of_ctx hc]

end Sys2Proof.Machine

namespace Sys2Proof

open Machine

/-- Settles O16: the operands are the bits of the registers, and each operation of the model is the exact one, rounded once. -/
theorem controllerFloatingPoint : Obligations.ControllerFloatingPoint := by
  unfold Obligations.ControllerFloatingPoint
  refine ⟨?_, ?_⟩
  · intro dbl rd rs1 rs2 rs3 rm mode s c hc hmode hlt f bits x y z box toF toX
    have hround : c.rvRound rm = some mode := by rw [Ctx.rvRound_eq, ← hmode, if_pos hlt]
    have hbits (n : Nat) : c.fbits dbl n = bits n := c.fbits_eq dbl n
    refine ⟨?_, ?_, ?_, ?_, ?_, ?_⟩
    · intro op r h
      simp only [List.mem_cons, List.not_mem_nil, or_false, Prod.mk.injEq] at h
      have hres : fopToX op = false ∧ rvFloatRes op dbl mode c rs1 rs2 rs3 = (r.1, fflagsOf r.2) := by
        rcases h with ⟨rfl, rfl⟩ | ⟨rfl, rfl⟩ | ⟨rfl, rfl⟩ | ⟨rfl, rfl⟩ | ⟨rfl, rfl⟩ | ⟨rfl, rfl⟩ | ⟨rfl, rfl⟩ | ⟨rfl, rfl⟩ | ⟨rfl, rfl⟩ |
          ⟨rfl, rfl⟩ | ⟨rfl, rfl⟩
        · exact ⟨rfl, by simp only [rvFloatRes, hbits]; rfl⟩
        · exact ⟨rfl, by simp only [rvFloatRes, hbits]; rfl⟩
        · exact ⟨rfl, by simp only [rvFloatRes, hbits]; rfl⟩
        · exact ⟨rfl, by simp only [rvFloatRes, hbits]; rfl⟩
        · exact ⟨rfl, by simp only [rvFloatRes, hbits]; rfl⟩
        · exact ⟨rfl, by simp only [rvFloatRes, hbits]; rfl⟩
        · exact ⟨rfl, by simp only [rvFloatRes, hbits]; rfl⟩
        · exact ⟨rfl, rvFloatRes_cvtFW dbl mode c rs1 rs2 rs3 rfl⟩
        · exact ⟨rfl, rvFloatRes_cvtFWu dbl mode c rs1 rs2 rs3 rfl⟩
        · exact ⟨rfl, rvFloatRes_cvtFL dbl mode c rs1 rs2 rs3 rfl⟩
        · exact ⟨rfl, rvFloatRes_cvtFLu dbl mode c rs1 rs2 rs3 rfl⟩
      exact rvFloatOp_float hc hround hres.1 hres.2
    · intro op neg h
      simp only [List.mem_cons, List.not_mem_nil, or_false, Prod.mk.injEq] at h
      have hres : fopToX op = false ∧ rvFloatRes op dbl mode c rs1 rs2 rs3 = (withSign f (bits rs1) neg, 0) := by
        rcases h with ⟨rfl, rfl⟩ | ⟨rfl, rfl⟩ | ⟨rfl, rfl⟩ <;>
          exact ⟨rfl, by simp only [rvFloatRes, hbits]; rfl⟩
      exact rvFloatOp_float hc hround hres.1 hres.2
    · exact rvFloatOp_float hc hround rfl rfl
    · intro op b fl h
      simp only [List.mem_cons, List.not_mem_nil, or_false, Prod.mk.injEq] at h
      have hres : fopToX op = true ∧ rvIntRes op dbl mode c rs1 rs2 = (if b then 1 else 0, fl) := by
        rcases h with ⟨rfl, rfl, rfl⟩ | ⟨rfl, rfl, rfl⟩ | ⟨rfl, rfl, rfl⟩
        · exact ⟨rfl, by simp only [rvIntRes, hbits]; rfl⟩
        · exact ⟨rfl, by simp only [rvIntRes, hbits, Bool.not_or]; rfl⟩
        · exact ⟨rfl, by simp only [rvIntRes, hbits, Bool.not_or]; rfl⟩
      exact rvFloatOp_int hc hround hres.1 hres.2
    · exact rvFdivFsqrt_step (sq := false) (r := fDiv f mode false x y) hc hround (by rw [hbits, hbits]; rfl)
    · exact rvFdivFsqrt_step (sq := true) (rs2 := rs2) (r := fSqrt f mode false x) hc hround (by rw [hbits]; rfl)
  · intro op sq dbl rd rs1 rs2 rs3 s c hc hmode
    exact rvFloat_traps hc (by rw [Ctx.rvRound_eq, if_pos rfl, if_neg (Nat.not_lt.mpr hmode)]) op sq dbl rd rs1 rs2 rs3

end Sys2Proof
end

