-- ==== Sys2Proof/Proofs/DecodedSteps.lean ====
section
/-! PROOF. A step runs the next event, the next turn, or starts a cycle; what each turn runs (06 R131; 95_what_each_step_holds). -/

namespace Sys2Proof.Machine

/-! ## The step -/

theorem step_event {s : State} {i : Instr} {l : List Instr} (h : s.inbox = i :: l) : step s = exec i { s with inbox := l } := by rw [step, h]

section
variable {s : State} (hin : s.inbox = [])
include hin

theorem step_turn {t : Turn} {l : List Turn} (h : s.turns = t :: l) : step s = runTurn t { s with turns := l } := by simp only [step, hin, h]

theorem step_cycle (h : s.turns = []) : step s = .next s.nextCycle := by simp only [step, hin, h]
end

/-! ## The turn of a controller -/

/-- The bytes of the instruction of a fetched word: all four, or the lower two. -/
theorem instructionWord_eq (m : KMap Byte) (a : Nat) :
    (if ctlLength (cmRead m a 4) = 4 then cmRead m a 4 else cmRead m a 4 % 2 ^ 16) = cmRead m a 4 % 2 ^ (8 * ctlLength (cmRead m a 4)) := by
  have hlt : cmRead m a 4 < 2 ^ 32 := cmRead_lt m a 4
  unfold ctlLength
  by_cases h : cmRead m a 4 % 4 = 3
  · rw [if_pos h, if_pos rfl, Nat.mod_eq_of_lt hlt]
  · rw [if_neg h, if_neg (by decide)]

section
variable {s : State} {k : Nat} {c : Ctx}

/-- A controller that nothing holds up goes on with the instruction at its pc. -/
theorem controllerTurn_fetch (hc : s.ctx k = some c) (hhalt : c.halted = false) (hpre : c.preempt = none) (hdbg : (s.sp k).dbgStopped = false)
    (hfill : c.filling = false) (hbusy : c.busy = 0) (hwait : c.wait = none) (hpend : c.pend = false) :
    controllerTurn k s = controllerStep k c { s with cur := k } := by
  simp [controllerTurn, hc, hhalt, hpre, hdbg, hfill, hbusy, hwait, hpend]

section
variable (hok : c.mmode = true ∨ c.pc.toNat + ctlLength (s.fetchWord k c.pc.toNat) ≤ 0x38000)
include hok

/-- The bytes at the pc may be fetched. -/
theorem fetch_allowed : (!c.mmode && decide (0x38000 < c.pc.toNat + ctlLength (s.fetchWord k c.pc.toNat))) = false := by
  rcases hok with h | h
  · simp [h]
  · simp [Nat.not_lt.mpr h]

theorem controllerStep_decoded {i : Instr} (hi : decodeCtl (s.fetchWord k c.pc.toNat) = some i) : controllerStep k c s = exec i s := by
  simp only [controllerStep, fetch_allowed hok, Bool.false_eq_true, if_false, hi]

theorem controllerStep_undefined (hi : decodeCtl (s.fetchWord k c.pc.toNat) = none) : controllerStep k c s =
    .next (s.takeException k 2 (BitVec.ofNat 64 (s.fetchWord k c.pc.toNat % 2 ^ (8 * ctlLength (s.fetchWord k c.pc.toNat))))) := by
  simp only [controllerStep, fetch_allowed hok, Bool.false_eq_true, if_false, hi]
  rw [State.fetchWord, ← instructionWord_eq]
end

theorem controllerStep_bound (hm : c.mmode = false) (h : 0x38000 < c.pc.toNat + ctlLength (s.fetchWord k c.pc.toNat)) :
    controllerStep k c s = .next (s.takeException k 1 c.pc) := by
  rw [controllerStep, hm, decide_eq_true h]
  rfl
end

/-! ## The turns of the matrix unit and of the host port -/

theorem matrixTurn_runs {s : State} {k : Nat} {c : Ctx} {r : Routine} {w : Dword} {i : Instr} (hc : s.ctx k = some c) (hrun : c.matrix.run = some r)
    (hwait : r.wait = 0) (hdrain : c.matrix.drain ≠ some 1) (hw : r.words[r.pc]? = some w) (hi : decodeMicro w.toNat = some i) :
    matrixTurn k s = exec i { s with cur := k } := by
  simp [matrixTurn, hc, hrun, hwait, hdrain, hw, hi]

theorem hostPortTurn_frame {s : State} {f : HostFrame} {r : List HostFrame} (h : s.hostIn = f :: r) :
    (∀ i, f.message = some i → hostPortTurn s = exec i { s with hostIn := r }) ∧ (f.message = none → hostPortTurn s = .next { s with hostIn := r }) := by
  constructor
  · intro i hi; simp only [hostPortTurn, h, hi]
  · intro hi; simp only [hostPortTurn, h, hi]

end Sys2Proof.Machine

namespace Sys2Proof

open Machine

/-- Settles O2: each clause is the rule of its event or turn, and a slot's meaning is that of the instruction it decodes to. -/
theorem stepRunsTheDecodedInstruction : Obligations.StepRunsTheDecodedInstruction := by
  unfold Obligations.StepRunsTheDecodedInstruction
  refine ⟨fun s i l h => step_event h, fun s i l hin h => step_turn hin h, fun s hin h => step_cycle hin h, ?_, ?_, ?_,
    fun k w x hk => slotMeaning_eq k w x hk⟩
  · intro s k l c hin h hc hhalt hpre hdbg hfill hbusy hwait hpend w n
    have hturn : step s = controllerStep k c { s with turns := l, cur := k } :=
      (step_turn hin h).trans (controllerTurn_fetch (s := { s with turns := l }) hc hhalt hpre hdbg hfill hbusy hwait hpend)
    exact ⟨fun i hok hi => hturn.trans (controllerStep_decoded (s := { s with turns := l, cur := k }) hok hi),
      fun hok hi => hturn.trans (controllerStep_undefined (s := { s with turns := l, cur := k }) hok hi),
      fun hm hbound => hturn.trans (controllerStep_bound (s := { s with turns := l, cur := k }) hm hbound)⟩
  · intro s k l c r w i hin h hc hrun hwait hdrain hw hi
    exact (step_turn hin h).trans (matrixTurn_runs (s := { s with turns := l }) hc hrun hwait hdrain hw hi)
  · intro s l f r hin h hhost
    rw [step_turn hin h]
    exact hostPortTurn_frame (s := { s with turns := l }) hhost

end Sys2Proof
end

