-- ==== Sys2Proof/Proofs/CommandChecks.lean ====
section
/-! PROOF. The checks of the commands, in the words of the statements: fields of a register, arrival references (07 R163), descriptors (07 R161),
and the order of the result codes (07 R153). -/

namespace Sys2Proof.Machine

/-! ## The order of codes -/

/-- A condition of a rule and the model's check of it, with the same code. -/
def CheckIs (q : Prop × Nat) (b : Bool × Nat) : Prop := (b.1 = true ↔ q.1) ∧ b.2 = q.2

theorem checkIs {p : Prop} {b : Bool} (h : b = true ↔ p) (n : Nat) : CheckIs (p, n) (b, n) := ⟨h, rfl⟩

/-- The code of the first condition that applies is the one that the model finds. -/
theorem FirstOf.eq_firstCode {l : List (Prop × Nat)} {m : List (Bool × Nat)} (h : List.Forall₂ CheckIs l m) {n : Nat} (hn : FirstOf l n) :
    n = firstCode m := by
  induction h with
  | nil => exact hn
  | cons hqb _ ih =>
    obtain ⟨hiff, hcode⟩ := hqb
    rcases hn with ⟨hq, rfl⟩ | ⟨hq, hrest⟩
    · rw [firstCode, if_pos (hiff.mpr hq), hcode]
    · rw [firstCode, if_neg (mt hiff.mp hq)]
      exact ih hrest

/-! ## Fields -/

/-- A field that reaches up to bit 63. -/
theorem bits_top (v : Dword) {lo n : Nat} (h : lo + n = 64) : bits v lo n = v.toNat / 2 ^ lo := by
  refine Nat.mod_eq_of_lt (Nat.div_lt_of_lt_mul ?_)
  rw [← pow_add, h]
  exact v.isLt

/-- A field that starts at bit 0. -/
theorem bits_low (v : Dword) (n : Nat) : bits v 0 n = v.toNat % 2 ^ n := by rw [bits, pow_zero, Nat.div_one]

theorem bits_one_eq_one (v : Dword) (i : Nat) : bits v i 1 = 1 ↔ v.getLsbD i = true := by
  rw [bits, BitVec.getLsbD, Nat.testBit_eq_decide_div_mod_eq, decide_eq_true_eq, pow_one]

theorem bits_one_ne_one (v : Dword) (i : Nat) : ¬bits v i 1 = 1 ↔ v.getLsbD i = false := by rw [bits_one_eq_one, Bool.not_eq_true]

theorem bits_one_ne_zero (v : Dword) (i : Nat) : bits v i 1 ≠ 0 ↔ v.getLsbD i = true := by
  have hlt : bits v i 1 < 2 := Nat.mod_lt _ (by decide)
  rw [← bits_one_eq_one]
  omega

/-- The members of a mask field. -/
theorem mem_maskList_bits {v : Dword} {lo n : Nat} : n ∈ maskList (bits v lo 16) ↔ n < 16 ∧ v.getLsbD (lo + n) = true := by
  rw [maskList, List.mem_filter, List.mem_range]
  refine and_congr_right fun hn => ?_
  rw [decide_eq_true_eq, ← bits_one_eq_one, bits, bits, pow_one, Nat.pow_add, ← Nat.div_div_eq_div_mul]
  have hdvd : (2 : Nat) ∣ 2 ^ (16 - n) := dvd_pow_self 2 (by omega)
  rw [show (2 : Nat) ^ 16 = 2 ^ n * 2 ^ (16 - n) by rw [← pow_add]; congr 1; omega, Nat.mod_mul_right_div_self, Nat.mod_mod_of_dvd _ hdvd]

theorem any_eq_true_iff {α : Type} {l : List α} {p : α → Bool} {P : α → Prop} (h : ∀ a, p a = true ↔ P a) : l.any p = true ↔ ∃ a ∈ l, P a := by
  simp only [List.any_eq_true, h]

/-! ## References and descriptors -/

theorem awBad_iff (c : Ctx) (satom : Bool) (r : Dword) : awBad c satom r = true ↔ BadRef c satom r := by
  rw [awBad, BadRef, ← bits_one_ne_one]
  by_cases hown : bits r 63 1 = 1
  · simp only [hown, if_true, Bool.false_eq_true, not_true, false_and]
  · have hlow : bits r 0 22 % 16 = r.toNat % 16 := by rw [bits_low]; omega
    simp only [hown, if_false, not_false_eq_true, true_and, Bool.or_eq_true, Bool.and_eq_true, Bool.not_eq_true', decide_eq_true_eq,
      Option.isNone_iff_eq_none, or_assoc, hlow]
    rfl

theorem refused_iff (c : Ctx) (mem copy : Bool) (d : Desc) : d.refused c mem copy = true ↔ Refused c mem copy d := by
  unfold Desc.refused Refused Ctx.descPolder
  cases hp : d.polder.bind c.polder with
  | none => simp
  | some p =>
    simp only [Bool.or_eq_true, Bool.and_eq_true, decide_eq_true_eq, Option.isNone_iff_eq_none, List.mem_cons, List.not_mem_nil, or_false, reduceCtorEq,
      false_or, Option.some.injEq, exists_eq_left', and_assoc, or_assoc, ← and_or_left]

/-- A descriptor names an allocated polder of the kind. -/
theorem any_descPolder_kind (c : Ctx) (d : Desc) (k : Nat) :
    ((c.descPolder d).any fun p => decide (p.kind = k)) = true ↔ ∃ p, d.polder.bind c.polder = some p ∧ p.kind = k := by
  rw [Ctx.descPolder, Option.any_eq_true]
  simp only [decide_eq_true_eq]

end Sys2Proof.Machine
end

