-- ==== Sys2Proof/Proofs/CommandEntry.lean ====
section
/-! PROOF. How a command retires (06 R134; 07 R153): it stalls, holds the code of its first breach, or becomes the youngest entry. -/

namespace Sys2Proof.Machine

theorem Ctx.retire_eq (c : Ctx) (rd : Nat) (v : Dword) : c.retire rd v = { c.setX rd v with pc := c.pc + 4, wait := none } := by
  unfold Ctx.retire Ctx.setX
  split <;> rfl

/-- An instruction that retires after a change of its context that leaves the pc alone. -/
theorem retires_of_setCtx {i : Instr} {s : State} {c : Ctx} {rd : Nat} {v : Dword} {f : Ctx → Ctx} (hpc : (f c).pc = c.pc)
    (hi : exec i s = .next (s.setCtx s.cur ((f c).retire rd v))) : Retires i s c rd v f := by
  refine (ctxStep_set hi).congr ?_
  rw [Ctx.retire_eq, hpc]

section
variable {i : Instr} {s : State} {c : Ctx} {rd code : Nat} {a b : Dword} {m : Ctx → Command} (hc : s.ctx s.cur = some c)
include hc

theorem State.enter_full (hfull : 64 ≤ c.used + c.recent.sum) : s.enter i rd a b code m = s := by
  have hstall : c.full = true := decide_eq_true hfull
  rw [State.enter, State.withCtx_of_ctx hc, if_pos hstall]

theorem State.enter_refused (hroom : c.used + c.recent.sum < 64) (hcode : code ≠ 0) :
    s.enter i rd a b code m = s.setCtx s.cur ({ c with used := c.used + 1 }.retire rd (BitVec.ofNat 64 code)) := by
  rw [State.enter, State.withCtx_of_ctx hc, if_neg (by simpa [Ctx.full] using hroom), if_pos hcode]

/-- The entry of a command that enters. -/
def Command.entry (m : Command) (c : Ctx) (i : Instr) (a b : Dword) : Entry :=
  { Entry.mk0 c.seq i a b m.cls m.sets m.descs m.size with block := m.block }

theorem State.enter_new (hroom : c.used + c.recent.sum < 64) (hcode : code = 0) : s.enter i rd a b code m =
    s.setCtx s.cur ({ c with sb := c.sb ++ [(m c).entry c i a b], seq := c.seq + 1, used := c.used + 1 }.retire rd 0) := by
  rw [State.enter, State.withCtx_of_ctx hc, if_neg (by simpa [Ctx.full] using hroom), if_neg (not_not.mpr hcode)]
  rfl

/-- A command without room for it, with a breach, and without one. -/
theorem retires_refused (hi : exec i s = .next (s.enter i rd a b code m)) (hroom : c.used + c.recent.sum < 64) (hcode : code ≠ 0) :
    Retires i s c rd (BitVec.ofNat 64 code) fun d => { d with used := d.used + 1 } :=
  retires_of_setCtx rfl (hi.trans (congrArg _ (State.enter_refused hc hroom hcode)))

theorem retires_new (hi : exec i s = .next (s.enter i rd a b code m)) (hroom : c.used + c.recent.sum < 64) (hcode : code = 0) :
    Retires i s c rd 0 fun d => { d with sb := d.sb ++ [(m c).entry c i a b], seq := d.seq + 1, used := d.used + 1 } :=
  retires_of_setCtx rfl (hi.trans (congrArg _ (State.enter_new hc hroom hcode)))
end

/-- What an instruction does at a context that there is. -/
theorem exec_withCtx {i : Instr} {s : State} {k : Nat} {c : Ctx} {f : Ctx → State} (hi : exec i s = .next (s.withCtx k f)) (hc : s.ctx k = some c) :
    exec i s = .next (f c) := by rw [hi, State.withCtx_of_ctx hc]

/-- A command whose code and sets are those of its rule. -/
theorem enters_of_enter {i : Instr} {rd cls : Nat} {a b : Ctx → Dword} {checks : State → Ctx → List (Prop × Nat)} {sets : Ctx → List SetR × List SetR}
    {code : State → Ctx → Nat} {m : State → Ctx → Ctx → Command}
    (hi : ∀ s c, s.ctx s.cur = some c → exec i s = .next (s.enter i rd (a c) (b c) (code s c) (m s c)))
    (hcode : ∀ s c n, FirstOf (checks s c) n → n = code s c) (hcls : ∀ s c, (m s c c).cls = cls) (hsets : ∀ s c, (m s c c).sets = sets c) :
    Enters i rd cls a b checks sets := by
  intro s c hc
  refine ⟨fun hfull => by rw [hi s c hc, State.enter_full hc hfull], fun hroom n hn => ?_⟩
  obtain rfl := hcode s c n hn
  refine ⟨fun hcode => retires_refused hc (hi s c hc) hroom hcode, fun hcode => ⟨(m s c c).entry c i (a c) (b c), retires_new hc (hi s c hc) hroom hcode, ?_⟩⟩
  exact ⟨rfl, rfl, rfl, rfl, hcls s c, rfl, by rw [← hsets s c]; rfl, by rw [← hsets s c]; rfl, rfl, rfl⟩

end Sys2Proof.Machine
end

