-- ==== Sys2Proof/Proofs/CopyCommands.lean ====
section
/-! PROOF. The copy commands and the atomics enter the scoreboard by their rules (07 R161, R163, R167 to R170). -/

namespace Sys2Proof.Machine

/-- The pairs of RED and MFMT that 07 R168 lists. -/
theorem redBad_iff (d : Desc) : redBad d = true ↔
    (d.red, d.mfmt) ∉ ([(0, 10), (1, 9), (2, 4), (2, 5), (3, 6), (3, 7), (4, 10), (5, 10), (6, 4), (6, 5), (7, 4), (7, 5)] : List (Nat × Nat)) ∧
      ¬(8 ≤ d.red ∧ d.red ≤ 10 ∧ d.mfmt < 8) := by
  unfold redBad fmtIsInt
  generalize d.red = n
  generalize d.mfmt = f
  rcases n with _ | _ | _ | _ | _ | _ | _ | _ | _ | _ | _ | n <;>
    simp

theorem idxBad_iff (c : Ctx) (d : Desc) : idxBad c d = true ↔
    Refused c true true (c.descNo (d.idx % 16)) ∨ (c.descNo (d.idx % 16)).fmt ∉ [4, 5, 6, 7] ∨ (c.descNo (d.idx % 16)).len < d.len := by
  rw [idxBad]
  simp only [Bool.or_eq_true, decide_eq_true_eq, refused_iff, List.mem_cons, List.not_mem_nil, or_false, or_assoc]
  refine or_congr_right ?_
  rw [← or_assoc]
  refine or_congr ?_ Iff.rfl
  show (Ctx.descNo c (d.idx % 16)).fmt < 4 ∨ 7 < (Ctx.descNo c (d.idx % 16)).fmt ↔ _
  omega

theorem satomFmtBad_iff (op : Nat) (d : Desc) : satomFmtBad op d = true ↔ d.fmt ≠ d.mfmt ∨ (d.mfmt ∉ [4, 5, 6, 7] ∧ ¬(d.mfmt = 10 ∧ op < 5)) := by
  rw [satomFmtBad]
  simp only [Bool.or_eq_true, Bool.and_eq_true, Bool.not_eq_true', ← Bool.not_eq_true, decide_eq_true_eq, not_or, List.mem_cons, List.not_mem_nil, or_false]
  refine or_congr Iff.rfl (and_congr ?_ Iff.rfl)
  omega

/-- A copy command, from its kind and its code. -/
theorem enters_of_copyEnter {i : Instr} {rd sd rs1 rs2 : Nat} {k : CopyKind} {ix : Bool} (hi : ∀ s, exec i s = .next (s.copyEnter i rd rs1 rs2))
    (hk : copyKind i = some (k, sd, ix)) {checks : Ctx → List (Prop × Nat)}
    (hcode : ∀ c n, FirstOf (checks c) n → n = copyCode c k sd ix (c.xr rs1) (c.xr rs2)) :
    Enters i rd 0 (fun c => c.xr rs1) (fun c => c.xr rs2) (fun _ c => checks c) fun c => (copyCommand k sd ix (c.xr rs2) c).sets :=
  enters_of_enter (code := fun _ c => copyCode c k sd ix (c.xr rs1) (c.xr rs2)) (m := fun _ c => copyCommand k sd ix (c.xr rs2))
    (fun s c hc => by rw [hi, State.copyEnter, State.withCtx_of_ctx hc, hk]) (fun _ => hcode) (fun _ _ => rfl) fun _ _ => rfl

/-- The code of a command that moves records. -/
theorem copyCode_record {k : CopyKind} (hrec : ∀ op, k ≠ .satom op) (c : Ctx) (sd : Nat) (ix : Bool) (a b : Dword) : copyCode c k sd ix a b = firstCode [
    ((c.descNo sd).refused c true true || decide ((c.descNo sd).idx / 16 % 2 = (if ix then 0 else 1)) || (ix && idxBad c (c.descNo sd))
      || (decide (k = .mem) && decide ((c.descNo sd).fmt ≠ (c.descNo sd).mfmt)) || (decide (k = .reduce) && redBad (c.descNo sd)), rcBadDesc),
    (awBad c false b, rcBadAw)] := by
  cases k with
  | satom op => exact absurd rfl (hrec op)
  | _ => rfl

/-- The commands that move records. -/
theorem recordCopy_enters {i : Instr} {rd sd rs1 rs2 : Nat} {k : CopyKind} {ix : Bool} (hi : ∀ s, exec i s = .next (s.copyEnter i rd rs1 rs2))
    (hk : copyKind i = some (k, sd, ix)) (hrec : ∀ op, k ≠ .satom op) :
    Enters i rd 0 (fun c => c.xr rs1) (fun c => c.xr rs2)
      (fun _ c => [(∃ d x, d = c.descNo sd ∧ x = c.descNo (d.idx % 16) ∧
          (Refused c true true d ∨ d.idx / 16 % 2 ≠ (if ix then 1 else 0) ∨ (ix = true ∧ (Refused c true true x ∨ x.fmt ∉ [4, 5, 6, 7] ∨ x.len < d.len)) ∨
            (k = .mem ∧ d.fmt ≠ d.mfmt) ∨
            (k = .reduce ∧ (d.red, d.mfmt) ∉ ([(0, 10), (1, 9), (2, 4), (2, 5), (3, 6), (3, 7), (4, 10), (5, 10), (6, 4), (6, 5), (7, 4), (7, 5)] : List (Nat × Nat)) ∧
              ¬(8 ≤ d.red ∧ d.red ≤ 10 ∧ d.mfmt < 8))), 3),
        (BadRef c false (c.xr rs2), 4)])
      (fun c => (copyCommand k sd ix (c.xr rs2) c).sets) := by
  refine enters_of_copyEnter hi hk fun c n hn => ?_
  rw [copyCode_record hrec]
  refine hn.eq_firstCode (.cons (checkIs ?_ 3) (.cons (checkIs (awBad_iff _ _ _) 4) .nil))
  have hform : (c.descNo sd).idx / 16 % 2 = (if ix then 0 else 1) ↔ (c.descNo sd).idx / 16 % 2 ≠ if ix then 1 else 0 := by cases ix <;> simp
  simp only [Bool.or_eq_true, Bool.and_eq_true, decide_eq_true_eq, refused_iff, idxBad_iff, redBad_iff, hform, or_assoc]
  exact ⟨fun h => ⟨_, _, rfl, rfl, h⟩, fun ⟨_, _, hd, hx, h⟩ => by rwa [hx, hd] at h⟩

/-- The atomics. -/
theorem atomic_enters {i : Instr} {rd sd rs1 rs2 op : Nat} (hi : ∀ s, exec i s = .next (s.copyEnter i rd rs1 rs2))
    (hk : copyKind i = some (.satom op, sd, false)) :
    Enters i rd 0 (fun c => c.xr rs1) (fun c => c.xr rs2)
      (fun _ c => [((c.xr rs2).toNat / 2 ^ 32 % 4 = 0 ∨ 4 < (c.xr rs2).toNat / 2 ^ 34 % 8 ∨ (c.xr rs1).toNat % max 1 (fmtBytes (c.descNo sd).mfmt) ≠ 0, 5),
        (Refused c true true (c.descNo sd) ∨ (c.descNo sd).fmt ≠ (c.descNo sd).mfmt ∨
          ((c.descNo sd).mfmt ∉ [4, 5, 6, 7] ∧ ¬((c.descNo sd).mfmt = 10 ∧ op < 5)), 3),
        (BadRef c true (c.xr rs2), 4)])
      (fun c => (copyCommand (.satom op) sd false (c.xr rs2) c).sets) := by
  refine enters_of_copyEnter hi hk fun c n hn => hn.eq_firstCode
    (.cons (checkIs ?_ 5) (.cons (checkIs ?_ 3) (.cons (checkIs (awBad_iff _ _ _) 4) .nil)))
  · simp only [Bool.or_eq_true, decide_eq_true_eq, or_assoc]
    rfl
  · rw [Bool.or_eq_true, refused_iff, satomFmtBad_iff]
    rfl

end Sys2Proof.Machine
end

