-- ==== Sys2Proof/Proofs/KernelCommands.lean ====
section
/-! PROOF. The kernel, merge and microprogram commands enter the scoreboard by their rules (07 R172, R174 to R177; 13 R333, R334). -/

namespace Sys2Proof.Machine

/-- The kernels of the object of a context, if it has one. -/
theorem State.kernels_le_iff (s : State) (c : Ctx) (n : Nat) : s.kernels c ≤ n ↔ ∀ o, s.codeOfCtx c = some o → o.ktab.length ≤ n := by
  rw [State.kernels]
  cases s.codeOfCtx c <;> simp

theorem masksBad_iff (c : Ctx) (a : Dword) : masksBad c a = true ↔
    ∃ n, n < 16 ∧ (a.getLsbD (16 + n) = true ∨ a.getLsbD (32 + n) = true) ∧ Refused c false false (c.descNo n) := by
  rw [masksBad, any_eq_true_iff fun n => refused_iff _ _ _ _]
  simp only [List.mem_append, readMask, writeMask, mem_maskList_bits, ← and_or_left, and_assoc]
  rfl

theorem krun_enters (rd rs1 rs2 : Nat) : Enters (.krun rd rs1 rs2) rd 1 (fun c => c.xr rs1) (fun c => c.xr rs2)
    (fun s c => [((∀ o, s.codeOfCtx c = some o → o.ktab.length ≤ (c.xr rs1).toNat % 2 ^ 8) ∨ (c.xr rs1).toNat / 2 ^ 8 % 2 ^ 8 ≠ 0 ∨ (c.xr rs1).toNat / 2 ^ 48 ≠ 0, 5),
      (∃ n, n < 16 ∧ ((c.xr rs1).getLsbD (16 + n) = true ∨ (c.xr rs1).getLsbD (32 + n) = true) ∧ Refused c false false (c.descNo n), 3), (BadRef c false (c.xr rs2), 4)])
    (fun c => (krunCommand (c.xr rs1) (c.xr rs2) c).sets) := by
  refine enters_of_enter (fun s c hc => exec_withCtx (exec_krun s) hc) (fun s c n hn => hn.eq_firstCode
    (.cons (checkIs ?_ 5) (.cons (checkIs (masksBad_iff _ _) 3) (.cons (checkIs (awBad_iff _ _ _) 4) .nil)))) (fun _ _ => rfl) fun _ _ => rfl
  simp only [Bool.or_eq_true, decide_eq_true_eq, State.kernels_le_iff, bits_top, bits_low, or_assoc]
  rfl

theorem kpipe_enters (rd rs1 rs2 : Nat) : Enters (.kpipe rd rs1 rs2) rd 1 (fun c => c.xr rs1) (fun c => c.xr rs2)
    (fun _ c => [((c.xr rs1).toNat % 2 ^ 16 ≠ 0 ∨ (c.xr rs1).toNat / 2 ^ 48 ≠ 0, 5),
      (∃ n, n < 16 ∧ ((c.xr rs1).getLsbD (16 + n) = true ∨ (c.xr rs1).getLsbD (32 + n) = true) ∧ Refused c false false (c.descNo n), 3), (BadRef c false (c.xr rs2), 4)])
    (fun c => (kpipeCommand (c.xr rs1) (c.xr rs2) c).sets) := by
  refine enters_of_enter (fun s c hc => exec_withCtx (exec_kpipe s) hc) (fun s c n hn => hn.eq_firstCode
    (.cons (checkIs ?_ 5) (.cons (checkIs (masksBad_iff _ _) 3) (.cons (checkIs (awBad_iff _ _ _) 4) .nil)))) (fun _ _ => rfl) fun _ _ => rfl
  simp only [Bool.or_eq_true, decide_eq_true_eq, bits_top, bits_low]

/-! ## Sweeps -/

/-- A step is a multiple of 128 if its 16 bits are. -/
theorem sweepStep_mod (b : Dword) (x : Nat) : sweepStep b x % 128 ≠ 0 ↔ b.toNat / 2 ^ (16 * x) % 128 ≠ 0 := by
  unfold sweepStep sint bits
  generalize b.toNat / 2 ^ (16 * x) = v
  split <;> omega

theorem sweep_enters {i : Instr} {rd rs1 rs2 op : Nat} {xs : List Nat} (hi : ∀ s, exec i s = .next (s.sweepEnter i rd rs1 rs2))
    (hop : sweepOp i = some op) (hxs : 0 :: sweepReads op = xs) :
    Enters i rd 1 (fun c => c.xr rs1) (fun c => c.xr rs2)
      (fun _ c => [((c.xr rs1).toNat / 2 ^ 28 % 2 ^ 4 ≠ 0 ∨ (c.xr rs1).getLsbD 35 = true ∨ (c.xr rs1).toNat / 2 ^ 38 % 2 ^ 10 ≠ 0 ∨ (c.xr rs1).toNat / 2 ^ 32 % 8 = 7 ∨
          (op = 4 ∧ (c.xr rs1).toNat / 2 ^ 32 % 8 < 4) ∨
          (∃ x ∈ xs, (c.descNo ((c.xr rs1).toNat / 2 ^ (4 * x) % 16)).base % 128 ≠ 0 ∨ (c.xr rs2).toNat / 2 ^ (16 * x) % 128 ≠ 0), 5),
        (∃ x ∈ xs, Refused c false false (c.descNo ((c.xr rs1).toNat / 2 ^ (4 * x) % 16)), 3)])
      (fun c => (sweepCommand op (c.xr rs1) (c.xr rs2) c).sets) := by
  subst hxs
  refine enters_of_enter (code := fun _ c => sweepCode c op (c.xr rs1) (c.xr rs2)) (m := fun _ c => sweepCommand op (c.xr rs1) (c.xr rs2))
    (fun s c hc => by rw [exec_withCtx (hi s) hc, hop, Option.getD_some])
    (fun s c n hn => hn.eq_firstCode (.cons (checkIs ?_ 5) (.cons (checkIs ?_ 3) .nil))) (fun _ _ => rfl) fun _ _ => rfl
  · simp only [Bool.or_eq_true, Bool.and_eq_true, decide_eq_true_eq, bits_one_ne_zero, sweepStep_mod, List.any_eq_true, or_assoc]
    rfl
  · exact any_eq_true_iff fun x => refused_iff _ _ _ _

/-! ## Merges -/

theorem mergeInputBad_iff (c : Ctx) (n : Nat) : mergeInputBad c n = true ↔
    (c.descNo n).fmt ≠ 7 ∨ (c.descNo n).recn ≠ 2 ∨ (c.descNo n).scale ≠ 0 ∨ Refused c false false (c.descNo n) := by
  rw [mergeInputBad]
  simp only [Bool.or_eq_true, decide_eq_true_eq, refused_iff, or_assoc]
  rfl

theorem mem_mergeInputs {a : Dword} {n : Nat} : n ∈ mergeInputs a ↔ n < 16 ∧ a.getLsbD n = true := by
  rw [mergeInputs, mem_maskList_bits, Nat.zero_add]

theorem mergeOutBad_iff (c : Ctx) (n : Nat) : mergeOutBad c n = true ↔ ¬∃ p, (c.descNo n).polder.bind c.polder = some p ∧ p.kind = 0 := by
  rw [mergeOutBad, Bool.not_eq_true', ← Bool.not_eq_true, any_descPolder_kind]
  rfl

theorem spmerge_enters (rd rs1 rs2 : Nat) : Enters (.spmerge rd rs1 rs2) rd 2 (fun c => c.xr rs1) (fun c => c.xr rs2)
    (fun s c => [(∃ pa form ty, pa = (c.xr rs1).toNat / 2 ^ 32 % 2 ^ 18 ∧ form = (c.xr rs1).toNat / 2 ^ 20 % 4 ∧ ty = (c.xr rs1).toNat / 2 ^ 22 % 4 ∧
        ((c.xr rs1).toNat / 2 ^ 26 % 2 ^ 6 ≠ 0 ∨ (c.xr rs1).toNat / 2 ^ 50 ≠ 0 ∨ 2 ≤ form ∨ ty = 3 ∨ pa % 64 ≠ 0 ∨ 0x38000 < pa + 64 ∨
          (c.xr rs1).getLsbD ((c.xr rs1).toNat / 2 ^ 16 % 16) = true ∨ ((c.xr rs1).getLsbD 24 = true ∧ c.profile11 = false) ∨
          blockBad (bytesRead (s.sp s.cur).cm pa 64) (form = 0) (ty = 1) = true), 5),
      ((∃ n, n < 16 ∧ (c.xr rs1).getLsbD n = true ∧ ((c.descNo n).fmt ≠ 7 ∨ (c.descNo n).recn ≠ 2 ∨ (c.descNo n).scale ≠ 0 ∨ Refused c false false (c.descNo n))) ∨
        ¬∃ p, (c.descNo ((c.xr rs1).toNat / 2 ^ 16 % 16)).polder.bind c.polder = some p ∧ p.kind = 0, 3),
      (BadRef c false (c.xr rs2), 4)])
    (fun c => (spmergeCommand [] (c.xr rs1) (c.xr rs2) c).sets) := by
  refine enters_of_enter (fun s c hc => exec_withCtx (exec_spmerge s) hc) (fun s c n hn => hn.eq_firstCode
    (.cons (checkIs ?_ 5) (.cons (checkIs ?_ 3) (.cons (checkIs (awBad_iff _ _ _) 4) .nil)))) (fun _ _ => rfl) fun _ _ => rfl
  · have hout : bits (c.xr rs1) 16 4 < 16 := Nat.mod_lt _ (by decide)
    simp only [Bool.or_eq_true, Bool.and_eq_true, Bool.not_eq_true', decide_eq_true_eq, bits_one_eq_one, bits_top, List.contains_iff_mem, mem_mergeInputs,
      hout, true_and, or_assoc]
    exact ⟨fun h => ⟨_, _, _, rfl, rfl, rfl, h⟩, by rintro ⟨_, _, _, rfl, rfl, rfl, h⟩; exact h⟩
  · rw [Bool.or_eq_true, any_eq_true_iff fun n => mergeInputBad_iff c n, mergeOutBad_iff]
    simp only [mem_mergeInputs, and_assoc]
    rfl

theorem spdrain_enters (rd rs2 : Nat) : Enters (.spdrain rd rs2) rd 2 (fun _ => 0) (fun c => c.xr rs2) (fun _ c => [(BadRef c false (c.xr rs2), 4)])
    (fun c => joinSets [(c.openOut.map (wholeSet c)).getD ([], []), awSet c (c.xr rs2)]) :=
  enters_of_enter (fun s _ hc => exec_withCtx (exec_spdrain s) hc)
    (fun _ _ _ hn => hn.eq_firstCode (.cons (checkIs (awBad_iff _ _ _) 4) .nil)) (fun _ _ => rfl) fun _ _ => rfl

end Sys2Proof.Machine
end

