-- ==== Sys2Proof/Proofs/StageCommands.lean ====
section
/-! PROOF. MLOAD, KSTAGE and KHALT (06 R150; 07 R173, R176). -/

namespace Sys2Proof.Machine

/-! ## MLOAD -/

section
variable {rd rs1 rs2 : Nat} {s : State} {c : Ctx} (hc : s.ctx s.cur = some c)
include hc

theorem mload_traps (hsys : c.sysb = false) (hm : c.mmode = false) : Traps (.mload rd rs1 rs2) s 2 (s.wordAt s.cur c) := by
  have hpriv : (!c.privileged) = true := by simp [Ctx.privileged, hsys, hm]
  rw [Traps, exec_withCtx (exec_mload s) hc, if_pos hpriv, State.illegal_of_ctx hc]

theorem mload_enters (hpriv : c.sysb = true ∨ c.mmode = true) (hroom : c.used + c.recent.sum < 64) {n : Nat}
    (hn : FirstOf [(2 ^ 20 ≤ (c.xr rs2).toNat ∨ (c.xr rs1).toNat % 8 ≠ 0, 5),
      (4096 < (s.sp s.cur).usedWords + c.loadingWords + (c.xr rs2).toNat / 2 ^ 8 % 2 ^ 12 + 1, 1)] n) :
    (n ≠ 0 → Retires (.mload rd rs1 rs2) s c rd (BitVec.ofNat 64 n) fun d => { d with used := d.used + 1 }) ∧
    (n = 0 → ∃ e, Retires (.mload rd rs1 rs2) s c rd 0 (fun d => { d with sb := d.sb ++ [e], seq := d.seq + 1, used := d.used + 1 }) ∧
      e.cls = 3 ∧ e.instr = .mload rd rs1 rs2 ∧ e.rs1 = c.xr rs1 ∧ e.rs2 = c.xr rs2 ∧ e.seq = c.seq ∧ e.state = .waiting ∧ e.reads = [] ∧ e.writes = []) := by
  have hallowed : ¬(!c.privileged) = true := by rcases hpriv with h | h <;> simp [Ctx.privileged, h]
  have hcode := hn.eq_firstCode (.cons (checkIs (b := decide (bits (c.xr rs2) 20 44 ≠ 0) || decide ((c.xr rs1).toNat % 8 ≠ 0))
    (by rw [bits_top _ rfl]; simp only [Bool.or_eq_true, decide_eq_true_eq]; exact or_congr (by omega) Iff.rfl) 5) (.cons (checkIs decide_eq_true_iff 1) .nil))
  have hi := (exec_withCtx (exec_mload (rd := rd) (rs1 := rs1) (rs2 := rs2) s) hc).trans (congrArg _ (if_neg hallowed))
  subst hcode
  exact ⟨retires_refused hc hi hroom, fun h => ⟨_, retires_new hc hi hroom h, rfl, rfl, rfl, rfl, rfl, rfl, rfl, rfl⟩⟩
end

/-! ## KSTAGE -/

/-- The fields of KSTAGE that break its layout. -/
def StageArgBad (s : State) (c : Ctx) (a b : Dword) : Prop :=
  if a.getLsbD 63 then a.toNat % 2 ^ 63 / 2 ^ 11 ≠ 0 ∨ a.toNat % 2 ^ 8 ≠ 0 ∨ b ≠ 0
  else a.getLsbD 11 = true ∨ a.getLsbD 15 = true ∨ a.toNat / 2 ^ 28 % 2 ^ 4 ≠ 0 ∨ a.toNat / 2 ^ 48 ≠ 0 ∨ b.getLsbD 19 = true ∨
    b.toNat / 2 ^ 39 ≠ 0 ∨ 4 < b.toNat / 2 ^ 16 % 8 ∨ 4 < b.toNat / 2 ^ 36 % 8 ∨ ∀ o, s.codeOfCtx c = some o → o.ktab.length ≤ a.toNat % 2 ^ 8

/-- Where bit 63 is clear, it does not count. -/
theorem bits_48_of_clear {a : Dword} (h : a.getLsbD 63 = false) : bits a 48 15 = a.toNat / 2 ^ 48 := by
  have htop : ¬bits a 63 1 = 1 := (bits_one_ne_one a 63).mpr h
  have hlt := a.isLt
  unfold bits at *
  omega

theorem stageArgBad_iff (s : State) (c : Ctx) (a b : Dword) : StageArgBad s c a b ↔
    (if decide (bits a 63 1 = 1) = true then decide (bits a 0 8 ≠ 0) || decide (bits a 11 52 ≠ 0) || decide (b ≠ 0)
      else decide (bits a 11 1 ≠ 0) || decide (bits a 15 1 ≠ 0) || decide (bits a 28 4 ≠ 0) || decide (bits a 48 15 ≠ 0)
        || decide (bits b 19 1 ≠ 0) || decide (bits b 39 25 ≠ 0) || decide (4 < bits b 16 3) || decide (4 < bits b 36 3)
        || decide (s.kernels c ≤ (Stage.mk false a b 0 0 false none).kernel)) = true := by
  by_cases hset : a.getLsbD 63 = true
  · rw [StageArgBad, if_pos hset, if_pos (decide_eq_true ((bits_one_eq_one a 63).mpr hset))]
    have hmid : bits a 11 52 ≠ 0 ↔ a.toNat % 2 ^ 63 / 2 ^ 11 ≠ 0 := by unfold bits; omega
    simp only [Bool.or_eq_true, decide_eq_true_eq, hmid, bits_low, or_assoc]
    exact or_left_comm
  · have hbit : ¬decide (bits a 63 1 = 1) = true := by rwa [decide_eq_true_eq, bits_one_eq_one]
    rw [StageArgBad, if_neg hset, if_neg hbit, bits_48_of_clear (eq_false_of_ne_true hset)]
    simp only [Bool.or_eq_true, decide_eq_true_eq, bits_one_ne_zero, bits_top, State.kernels_le_iff, or_assoc, Stage.kernel, bits_low]
    rfl

/-- The inputs of a declaration that are no queues. -/
theorem stageInputBad_iff (c : Ctx) (a b : Dword) :
    ((Stage.mk false a b 0 0 false none).inputs.any fun n => !(c.descPolder (c.descOf n)).any fun p => decide (p.kind = 2)) = true ↔
    ∃ j, j < b.toNat / 2 ^ 16 % 8 ∧ ¬∃ p, (c.descNo (b.toNat / 2 ^ (4 * j) % 16)).polder.bind c.polder = some p ∧ p.kind = 2 := by
  have hbad (n : Nat) : (!(c.descPolder (c.descOf n)).any fun p => decide (p.kind = 2)) = true ↔
      ¬∃ p, (c.descNo n).polder.bind c.polder = some p ∧ p.kind = 2 := by
    rw [Bool.not_eq_true', ← Bool.not_eq_true, any_descPolder_kind]
    rfl
  rw [any_eq_true_iff hbad]
  simp only [Stage.inputs, List.mem_map, List.mem_range, exists_exists_and_eq_and]
  rfl

theorem Entry.isKpipe_iff (e : Entry) : e.isKpipe = true ↔ ∃ a b d, e.instr = .kpipe a b d := by
  constructor
  · unfold Entry.isKpipe
    split
    next a b d h => exact fun _ => ⟨a, b, d, h⟩
    next => exact fun h => absurd h (by decide)
  · rintro ⟨a, b, d, h⟩
    exact Entry.isKpipe_of_instr h

/-- A stage stays as it is while an activation of it is suspended or a pipeline is in the scoreboard. -/
theorem stageBusy_iff (c : Ctx) (n : Nat) : ((c.stage n).suspended.isSome || c.entries.any Entry.isKpipe) = true ↔
    (KMap.get Stage.init c.stages n).suspended ≠ none ∨ ∃ e ∈ c.sb, e.freed = false ∧ ∃ a b d, e.instr = .kpipe a b d := by
  rw [Bool.or_eq_true, Option.isSome_iff_ne_none, any_eq_true_iff Entry.isKpipe_iff]
  simp only [Ctx.entries, List.mem_filter, Bool.not_eq_true', and_assoc]
  rfl

section
variable {rd rs1 rs2 n : Nat} {s : State} {c : Ctx} (hc : s.ctx s.cur = some c)
include hc

theorem kstage_retires
    (hn : FirstOf [(StageArgBad s c (c.xr rs1) (c.xr rs2), 5),
      ((c.xr rs1).getLsbD 63 = false ∧ ∃ j, j < (c.xr rs2).toNat / 2 ^ 16 % 8 ∧
        ¬∃ p, (c.descNo ((c.xr rs2).toNat / 2 ^ (4 * j) % 16)).polder.bind c.polder = some p ∧ p.kind = 2, 3),
      ((KMap.get Stage.init c.stages ((c.xr rs1).toNat / 2 ^ 8 % 8)).suspended ≠ none ∨ ∃ e ∈ c.sb, e.freed = false ∧ ∃ a b d, e.instr = .kpipe a b d, 10)] n) :
    (n ≠ 0 → Retires (.kstage rd rs1 rs2) s c rd (BitVec.ofNat 64 n) id) ∧
    (n = 0 → Retires (.kstage rd rs1 rs2) s c rd 0 fun d => { d with
      stages := KMap.ins ((c.xr rs1).toNat / 2 ^ 8 % 8)
        (if (c.xr rs1).getLsbD 63 then Stage.init
         else ⟨true, c.xr rs1, c.xr rs2, (c.xr rs1).toNat / 2 ^ 32 % 2 ^ 16, 0, false, none⟩) d.stages }) := by
  have hqueue : (!decide (bits (c.xr rs1) 63 1 = 1) && (Stage.mk false (c.xr rs1) (c.xr rs2) 0 0 false none).inputs.any fun n =>
      !(c.descPolder (c.descOf n)).any fun p => decide (p.kind = 2)) = true ↔
      (c.xr rs1).getLsbD 63 = false ∧ ∃ j, j < (c.xr rs2).toNat / 2 ^ 16 % 8 ∧
        ¬∃ p, (c.descNo ((c.xr rs2).toNat / 2 ^ (4 * j) % 16)).polder.bind c.polder = some p ∧ p.kind = 2 := by
    rw [Bool.and_eq_true, stageInputBad_iff, Bool.not_eq_true', decide_eq_false_iff_not, bits_one_ne_one]
  have hcode : n = kstageCode s c (c.xr rs1) (c.xr rs2) := hn.eq_firstCode
    (.cons (checkIs (stageArgBad_iff s c _ _).symm 5) (.cons (checkIs hqueue 3) (.cons (checkIs (stageBusy_iff c _) 10) .nil)))
  have hi := exec_withCtx (exec_kstage (rd := rd) (rs1 := rs1) (rs2 := rs2) s) hc
  dsimp only at hi
  rw [← hcode] at hi
  constructor
  · intro hne
    rw [if_pos hne] at hi
    refine retires_of_setCtx rfl (hi.trans ?_)
    simp [State.retireCode, State.modCtx, hc]
  · rintro rfl
    refine retires_of_setCtx rfl (hi.trans ?_)
    simp only [ne_eq, not_true, if_false, bits_one_eq_one]
    rfl
end

/-! ## KHALT -/

/-- What KHALT does to a command that waits. -/
def Entry.khalt (e : Entry) : Entry := if e.cls = 1 ∧ e.state = .waiting then { e with state := .haltOnIssue } else e

/-- An SP that is in no tower has no others to halt. -/
theorem State.khaltOthers_alone {s : State} {k : Nat} (h : ∀ m ∈ s.tower k, m = k) (c : Ctx) : s.khaltOthers k c = s := by
  have hnone : (s.tower k).filter (· ≠ k) = [] := by simpa using h
  rw [State.khaltOthers, hnone, List.foldl_nil, ite_self]

section
variable {rd : Nat} {s : State} {c : Ctx} (hc : s.ctx s.cur = some c) (htower : ∀ m ∈ s.tower s.cur, m = s.cur)
include hc htower

/-- KHALT retires with the commands that wait marked and the one that runs halted. -/
theorem khalt_retires {d : Ctx} (hd : c.khaltRunning = d) (hpc : d.pc = c.pc) :
    Retires (.khalt rd) s c rd 0 fun _ => { d with sb := d.sb.map Entry.khalt } := by
  refine retires_of_setCtx hpc ((exec_withCtx (exec_khalt s) hc).trans ?_)
  rw [State.khaltOthers_alone htower, Ctx.khalt, hd]
  rfl
end

section
variable {c : Ctx} {e : Entry}

theorem Ctx.khaltRunning_none (h : c.kernelEntry = none) : c.khaltRunning = c := by rw [Ctx.khaltRunning, h]

variable (he : c.kernelEntry = some e)
include he

theorem Ctx.khaltRunning_toBegin (hidle : c.kern.phase = .idle) (hpipe : c.pipe = none) (hsweep : c.sweep = none) :
    c.khaltRunning = c.modEntry e.seq fun q => { q with status := 8 } := by
  have hnot : c.kernelBegun = false := by simp [Ctx.kernelBegun, Ctx.kernelToBegin, hidle, hpipe, hsweep, he]
  rw [Ctx.khaltRunning, he, hnot]
  rfl

theorem Ctx.kernelBegun_of_unit (h : ¬(c.kern.phase = .idle ∧ c.pipe.isNone ∧ c.sweep.isNone)) : c.kernelBegun = true := by
  rw [Ctx.kernelBegun, Ctx.kernelToBegin, if_neg h, he]
  rfl

theorem Ctx.khaltRunning_krun (hk : e.isKrun = true) (hp : e.isKpipe = false) (hphase : c.kern.phase ≠ .idle) : c.khaltRunning =
    { c with kern := { c.kern with status := if c.kern.status = 0 ∧ c.kern.phase ≠ .ending then 8 else c.kern.status } } := by
  have hbegun := Ctx.kernelBegun_of_unit he fun h => hphase h.1
  simp [Ctx.khaltRunning, he, hbegun, hk, hp]

theorem Ctx.khaltRunning_kpipe (hp : e.isKpipe = true) {q : Pipe} (hpipe : c.pipe = some q) :
    c.khaltRunning = { c with pipe := some { q with halted := true } } := by
  have hbegun := Ctx.kernelBegun_of_unit he fun h => by simp [hpipe] at h
  simp [Ctx.khaltRunning, he, hbegun, hp, hpipe]

theorem Ctx.khaltRunning_sweep (hk : e.isKrun = false) (hp : e.isKpipe = false) {q : Sweep} (hsweep : c.sweep = some q) :
    c.khaltRunning = { c with sweep := some { q with stop := min q.stop q.next } } := by
  have hbegun := Ctx.kernelBegun_of_unit he fun h => by simp [hsweep] at h
  simp [Ctx.khaltRunning, he, hbegun, hk, hp, hsweep]
end

end Sys2Proof.Machine
end

