-- ==== Sys2Proof/Proofs/CommandsEnter.lean ====
section
/-! PROOF. Every command of the scoreboard enters it: the families of the statement, each from the rule of its commands (06 R134 to R136). -/

namespace Sys2Proof.Machine

/-! ## The families -/

/-- The commands that move records. -/
def recordCopies : List ((Nat → Nat → Nat → Nat → Instr) × CopyKind × Bool) :=
  [(.sload, .load, false), (.sstore, .store, false), (.sgather, .load, true), (.sscatter, .store, true), (.sscadd, .reduce, true), (.scopy, .mem, false)]

theorem recordCopies_copyEnter {q : (Nat → Nat → Nat → Nat → Instr) × CopyKind × Bool} (hq : q ∈ recordCopies) (rd sd rs1 rs2 : Nat) :
    (∀ s, exec (q.1 rd sd rs1 rs2) s = .next (s.copyEnter (q.1 rd sd rs1 rs2) rd rs1 rs2)) ∧ copyKind (q.1 rd sd rs1 rs2) = some (q.2.1, sd, q.2.2) ∧
      ∀ op, q.2.1 ≠ .satom op := by
  simp only [recordCopies, List.mem_cons, List.not_mem_nil, or_false] at hq
  rcases hq with rfl | rfl | rfl | rfl | rfl | rfl <;> exact ⟨fun _ => rfl, rfl, nofun⟩

/-- The atomics and their operations. -/
def atomics : List ((Nat → Nat → Nat → Nat → Instr) × Nat) :=
  [(.satomAdd, 0), (.satomSwap, 1), (.satomCas, 2), (.satomMin, 3), (.satomMax, 4), (.satomAnd, 5), (.satomOr, 6)]

theorem atomics_copyEnter {q : (Nat → Nat → Nat → Nat → Instr) × Nat} (hq : q ∈ atomics) (rd sd rs1 rs2 : Nat) :
    (∀ s, exec (q.1 rd sd rs1 rs2) s = .next (s.copyEnter (q.1 rd sd rs1 rs2) rd rs1 rs2)) ∧
      copyKind (q.1 rd sd rs1 rs2) = some (.satom q.2, sd, false) := by
  simp only [atomics, List.mem_cons, List.not_mem_nil, or_false] at hq
  rcases hq with rfl | rfl | rfl | rfl | rfl | rfl | rfl <;> exact ⟨fun _ => rfl, rfl⟩

/-- The sweeps, their operations, and the operands that each of them names. -/
def sweeps : List ((Nat → Nat → Nat → Instr) × Nat × List Nat) :=
  [(.svadd, 0, [0, 1, 2]), (.svmul, 1, [0, 1, 2]), (.svfma, 2, [0, 1, 2, 3]), (.svcvt, 3, [0, 1]), (.svscale, 4, [0, 1]), (.svmax, 5, [0, 1, 2]),
    (.svmin, 6, [0, 1, 2]), (.svcopy, 7, [0, 1]), (.svfill, 8, [0])]

theorem sweeps_sweepEnter {q : (Nat → Nat → Nat → Instr) × Nat × List Nat} (hq : q ∈ sweeps) (rd rs1 rs2 : Nat) :
    (∀ s, exec (q.1 rd rs1 rs2) s = .next (s.sweepEnter (q.1 rd rs1 rs2) rd rs1 rs2)) ∧ sweepOp (q.1 rd rs1 rs2) = some q.2.1 ∧
      0 :: sweepReads q.2.1 = q.2.2 := by
  simp only [sweeps, List.mem_cons, List.not_mem_nil, or_false] at hq
  rcases hq with rfl | rfl | rfl | rfl | rfl | rfl | rfl | rfl | rfl <;> exact ⟨fun _ => rfl, rfl, rfl⟩

/-! ## KHALT, by what runs -/

section
variable {e : Entry} {rd rs1 rs2 : Nat}

theorem Entry.isKpipe_of_krun (h : e.instr = .krun rd rs1 rs2) : e.isKpipe = false := by simp [Entry.isKpipe, h]

theorem Entry.isKpipe_eq_false (h : ∀ rd rs1 rs2, e.instr ≠ .kpipe rd rs1 rs2) : e.isKpipe = false := by
  rw [← Bool.not_eq_true, Entry.isKpipe_iff]
  exact fun ⟨_, _, _, he⟩ => h _ _ _ he

theorem Entry.isKrun_eq_false (h : ∀ rd rs1 rs2, e.instr ≠ .krun rd rs1 rs2) : e.isKrun = false := by
  unfold Entry.isKrun
  split
  next he => exact absurd he (h _ _ _)
  next => rfl
end

/-- What KHALT does in an SP that is in no tower. -/
theorem khalt_halts {rd : Nat} {s : State} {c : Ctx} (hc : s.ctx s.cur = some c) (htower : ∀ m ∈ s.tower s.cur, m = s.cur) :
    (c.kernelEntry = none → Retires (.khalt rd) s c rd 0 fun d => { d with sb := d.sb.map Entry.khalt }) ∧
    (∀ e, c.kernelEntry = some e → c.kern.phase = .idle → c.pipe = none → c.sweep = none →
      Retires (.khalt rd) s c rd 0 fun d => { d with sb := (d.modEntry e.seq fun q => { q with status := 8 }).sb.map Entry.khalt }) ∧
    (∀ e rd' a b, c.kernelEntry = some e → e.instr = .krun rd' a b → c.kern.phase ≠ .idle →
      Retires (.khalt rd) s c rd 0 fun d => { d with
        sb := d.sb.map Entry.khalt, kern := { d.kern with status := if c.kern.status = 0 ∧ c.kern.phase ≠ .ending then 8 else c.kern.status } }) ∧
    (∀ e rd' a b q, c.kernelEntry = some e → e.instr = .kpipe rd' a b → c.pipe = some q →
      Retires (.khalt rd) s c rd 0 fun d => { d with sb := d.sb.map Entry.khalt, pipe := some { q with halted := true } }) ∧
    (∀ e q, c.kernelEntry = some e → (∀ rd' a b, e.instr ≠ .krun rd' a b ∧ e.instr ≠ .kpipe rd' a b) → c.sweep = some q →
      Retires (.khalt rd) s c rd 0 fun d => { d with sb := d.sb.map Entry.khalt, sweep := some { q with stop := min q.stop q.next } }) := by
  refine ⟨fun he => ?_, fun e he hidle hpipe hsweep => ?_, fun e _ _ _ he hi hphase => ?_, fun e _ _ _ q he hi hpipe => ?_, fun e q he hi hsweep => ?_⟩
  · exact khalt_retires hc htower (Ctx.khaltRunning_none he) rfl
  · exact khalt_retires hc htower (Ctx.khaltRunning_toBegin he hidle hpipe hsweep) rfl
  · exact khalt_retires hc htower (Ctx.khaltRunning_krun he (Entry.isKrun_of_instr hi) (Entry.isKpipe_of_krun hi) hphase) rfl
  · exact khalt_retires hc htower (Ctx.khaltRunning_kpipe he (Entry.isKpipe_of_instr hi) hpipe) rfl
  · have hkrun := Entry.isKrun_eq_false fun rd' a b => (hi rd' a b).1
    have hkpipe := Entry.isKpipe_eq_false fun rd' a b => (hi rd' a b).2
    exact khalt_retires hc htower (Ctx.khaltRunning_sweep he hkrun hkpipe hsweep) rfl

end Sys2Proof.Machine

namespace Sys2Proof
open Machine

/-- Settles O21: each family of commands retires by the rule of its commands (`Enters`), MLOAD by its privilege, KSTAGE at once, and KHALT by the unit
that runs. -/
theorem commandsEnterTheScoreboard : Obligations.CommandsEnterTheScoreboard := by
  refine ⟨fun i k ix hq rd sd rs1 rs2 => ?_, fun i op hq rd sd rs1 rs2 => ?_, krun_enters, kpipe_enters, fun i op xs hq rd rs1 rs2 => ?_, spmerge_enters,
    spdrain_enters, fun rd rs1 rs2 s c hc => ⟨mload_traps hc, fun hpriv hroom n hn => mload_enters hc hpriv hroom hn⟩, fun rd rs1 rs2 s c n hc hn => kstage_retires hc hn,
    fun rd s c wait hc htower hwait => ?_⟩
  · obtain ⟨hexec, hkind, hrec⟩ := recordCopies_copyEnter hq rd sd rs1 rs2
    exact recordCopy_enters hexec hkind hrec
  · obtain ⟨hexec, hkind⟩ := atomics_copyEnter hq rd sd rs1 rs2
    exact atomic_enters hexec hkind
  · obtain ⟨hexec, hop, hxs⟩ := sweeps_sweepEnter hq rd rs1 rs2
    exact sweep_enters hexec hop hxs
  · subst hwait
    exact khalt_halts hc htower

end Sys2Proof
end

