-- ==== Sys2Proof/Proofs/CsrAccess.lean ====
section
/-! PROOF. The CSRs of the controller: what an access reads and writes, and when it is illegal (07 R187 to R189; Zicsr). -/

namespace Sys2Proof.Machine

/-! ## What a write leaves of a context -/

/-- A context that stands as it was. -/
theorem withSp_same {s : State} {k : Nat} {c : Ctx} (hc : s.ctx k = some c) : WithSp s k { s.sp k with ctx := some c } s :=
  (WithSp.refl s k).congr (by rw [← hc]; rfl)

/-- A clear of flags takes the bits of its mask from a set of flags. -/
theorem testBit_flagClear {a : Nat} (ha : a < 2 ^ 13) (m i : Nat) : (flagClear a m).testBit i = (a.testBit i && !m.testBit i) := by
  have hlow : m % 2 ^ 13 < 2 ^ 13 := Nat.mod_lt _ (by decide)
  have hsub : 8191 - m % 8192 = 2 ^ 13 - (m % 2 ^ 13 + 1) := by omega
  rw [flagClear, Nat.testBit_and, hsub, Nat.testBit_two_pow_sub_succ hlow, Nat.testBit_mod_two_pow]
  by_cases hi : i < 13
  · simp [hi]
  · have hbit : a.testBit i = false := Nat.testBit_lt_two_pow (ha.trans_le (Nat.pow_le_pow_right (by decide) (by omega)))
    simp [hbit]

/-- A register write changes the registers alone. -/
theorem Ctx.setX_eq (c : Ctx) (n : Nat) (v : Dword) : c.setX n v = { c with x := if n = 0 then c.x else KMap.ins n v c.x } := by
  unfold Ctx.setX
  split <;> rfl

/-! ## An access that the mode allows -/

/-- The operand of a CSR access. -/
def Ctx.csrSrc (c : Ctx) (imm : Bool) (src : Nat) : Dword := if imm then BitVec.ofNat 64 src else c.xr src

/-- What a CSR access writes over the value `o`, with operand `a`. -/
def csrNew (op : CsrOp) (o a : Dword) : Dword :=
  match op with
  | .rw => a
  | .rs => o ||| a
  | .rc => o &&& ~~~ a

/-- The bits that it writes. -/
def csrMask (op : CsrOp) (a : Dword) : Dword :=
  match op with
  | .rw => BitVec.allOnes 64
  | .rs => a
  | .rc => a

section
variable {op : CsrOp} {imm user : Bool} {n old rd src : Nat} {o : Dword} {s : State} {c : Ctx} (hc : s.ctx s.cur = some c)
  (hcsr : c.csr s.cur n = some (user, old)) (ho : BitVec.ofNat 64 old = o) (hmode : user = true ∨ c.mmode = true)
include hc hcsr ho hmode

/-- After the write, rd receives the value that was read. -/
theorem exec_rvCsrAccess_allowed : exec (.rvCsrAccess op imm n rd src) s = .next (rvStep 4 (fun d => d.setX rd o)
    (if op ≠ .rw ∧ src = 0 then s else s.writeCsr s.cur n (csrNew op o (c.csrSrc imm src)) (csrMask op (c.csrSrc imm src)))) := by
  have hreach : ¬(!user && !c.mmode) = true := by rcases hmode with h | h <;> simp [h]
  rw [exec_withCtx (exec_rvCsrAccess s) hc, hcsr]
  dsimp only
  rw [if_neg hreach, ho]
  cases op <;> simp [csrNew, csrMask, Ctx.csrSrc]

/-- CSRRS and CSRRC of x0 or 0 read only. -/
theorem rvCsrAccess_reads (hop : op ≠ .rw) : CtxStep (.rvCsrAccess op imm n rd 0) s s.cur { c.setX rd o with pc := c.pc + 4 } := by
  have hi := exec_rvCsrAccess_allowed (op := op) (imm := imm) (rd := rd) (src := 0) hc hcsr ho hmode
  rw [if_pos ⟨hop, rfl⟩] at hi
  refine (ctxStep_of_rvStep hc hi).congr ?_
  rw [Ctx.advance, Ctx.setX_pc]
  rfl

/-- Any other access writes: `d` is the context after it. -/
theorem rvCsrAccess_writes {d : Ctx} (hop : op = .rw ∨ src ≠ 0) (hpc : d.pc = c.pc)
    (hw : WithSp s s.cur { s.sp s.cur with ctx := some d } (s.writeCsr s.cur n (csrNew op o (c.csrSrc imm src)) (csrMask op (c.csrSrc imm src)))) :
    CtxStep (.rvCsrAccess op imm n rd src) s s.cur { d.setX rd o with pc := c.pc + 4 } := by
  have hi := exec_rvCsrAccess_allowed (op := op) (imm := imm) (rd := rd) (src := src) hc hcsr ho hmode
  rw [if_neg (fun h => hop.elim h.1 (· h.2)), rvStep, show (State.writeCsr ..).cur = s.cur by rw [hw.1]] at hi
  refine CtxStep.congr (d := (d.setX rd o).advance 4) ⟨_, hi, hw.modCtx rfl _⟩ ?_
  rw [Ctx.advance, Ctx.setX_pc, hpc]
  rfl
end

/-- A CSR that does not exist, or that the mode may not reach. -/
theorem rvCsrAccess_traps {n : Nat} {s : State} {c : Ctx} (hc : s.ctx s.cur = some c)
    (hcsr : ∀ q, c.csr s.cur n = some q → q.1 = false ∧ c.mmode = false) (op : CsrOp) (imm : Bool) (rd src : Nat) :
    Traps (.rvCsrAccess op imm n rd src) s 2 (s.wordAt s.cur c) := by
  rw [Traps, exec_withCtx (exec_rvCsrAccess s) hc, ← State.illegal_of_ctx hc]
  cases hq : c.csr s.cur n with
  | none => rfl
  | some q =>
    obtain ⟨huser, hm⟩ := hcsr q hq
    dsimp only
    rw [if_pos (by simp [huser, hm])]

/-! ## The registers, by number -/

/-- Registers that U mode reads, and their values. -/
def userCsrs : List (Nat × (Nat → Ctx → Dword)) :=
  [(0x001, fun _ c => (c.fcsr.extractLsb' 0 5).setWidth 64), (0x002, fun _ c => (c.fcsr.extractLsb' 5 3).setWidth 64),
    (0x003, fun _ c => (c.fcsr.extractLsb' 0 8).setWidth 64), (0x800, fun _ c => c.kevent), (0x802, fun _ c => c.ktvec), (0x803, fun _ c => c.kepc),
    (0x804, fun _ c => c.cbase), (0x805, fun _ c => c.cbound), (0x806, fun _ c => c.cceil), (0x807, fun k _ => BitVec.ofNat 64 k),
    (0x808, fun _ c => BitVec.ofNat 64 c.rank), (0x809, fun _ c => BitVec.ofNat 64 c.kstat), (0x80A, fun _ c => BitVec.ofNat 64 c.hw)]

theorem ofNat_field (w : BitVec 32) (lo n : Nat) : BitVec.ofNat 64 (w.toNat / 2 ^ lo % 2 ^ n) = (w.extractLsb' lo n).setWidth 64 := by
  refine BitVec.eq_of_toNat_eq ?_
  simp [Nat.shiftRight_eq_div_pow]

theorem csr_of_userCsrs {n : Nat} {r : Nat → Ctx → Dword} (h : (n, r) ∈ userCsrs) (k : Nat) (c : Ctx) :
    ∃ old, c.csr k n = some (true, old) ∧ BitVec.ofNat 64 old = r k c := by
  simp only [userCsrs, List.mem_cons, List.not_mem_nil, or_false, Prod.mk.injEq] at h
  rcases h with ⟨rfl, rfl⟩ | ⟨rfl, rfl⟩ | ⟨rfl, rfl⟩ | ⟨rfl, rfl⟩ | ⟨rfl, rfl⟩ | ⟨rfl, rfl⟩ | ⟨rfl, rfl⟩ | ⟨rfl, rfl⟩ | ⟨rfl, rfl⟩ | ⟨rfl, rfl⟩ |
    ⟨rfl, rfl⟩ | ⟨rfl, rfl⟩ | ⟨rfl, rfl⟩
  · exact ⟨_, rfl, by simpa using ofNat_field c.fcsr 0 5⟩
  · exact ⟨_, rfl, ofNat_field c.fcsr 5 3⟩
  · exact ⟨_, rfl, by simpa using ofNat_field c.fcsr 0 8⟩
  iterate 6 exact ⟨_, rfl, by simp⟩
  iterate 4 exact ⟨_, rfl, rfl⟩

/-- Registers of U mode, their values, and what a write of the value `v` makes of the context: nothing, for those that are read-only. -/
def plainCsrs : List (Nat × (Ctx → Dword) × (Ctx → Dword → Ctx)) :=
  [(0x802, fun c => c.ktvec, fun c v => { c with ktvec := v &&& ~~~ 1 }), (0x803, fun c => c.kepc, fun c v => { c with kepc := v &&& ~~~ 1 }),
    (0x805, fun c => c.cbound, fun c v => if c.cbase.toNat ≤ v.toNat ∧ v.toNat ≤ c.cceil.toNat then { c with cbound := v } else c),
    (0x800, fun c => c.kevent, fun c _ => c), (0x804, fun c => c.cbase, fun c _ => c), (0x806, fun c => c.cceil, fun c _ => c),
    (0x808, fun c => BitVec.ofNat 64 c.rank, fun c _ => c), (0x80A, fun c => BitVec.ofNat 64 c.hw, fun c _ => c)]

theorem csr_of_plainCsrs {n : Nat} {r : Ctx → Dword} {w : Ctx → Dword → Ctx} (h : (n, r, w) ∈ plainCsrs) {s : State} {k : Nat} {c : Ctx} (hc : s.ctx k = some c) :
    (∃ old, c.csr k n = some (true, old) ∧ BitVec.ofNat 64 old = r c) ∧
      ∀ v, (w c v).pc = c.pc ∧ ∀ m, WithSp s k { s.sp k with ctx := some (w c v) } (s.writeCsr k n v m) := by
  simp only [plainCsrs, List.mem_cons, List.not_mem_nil, or_false, Prod.mk.injEq] at h
  rcases h with ⟨rfl, rfl, rfl⟩ | ⟨rfl, rfl, rfl⟩ | ⟨rfl, rfl, rfl⟩ | ⟨rfl, rfl, rfl⟩ | ⟨rfl, rfl, rfl⟩ | ⟨rfl, rfl, rfl⟩ | ⟨rfl, rfl, rfl⟩ | ⟨rfl, rfl, rfl⟩
  · exact ⟨⟨_, rfl, by simp⟩, fun v => ⟨rfl, fun m => withSp_modCtx hc _⟩⟩
  · exact ⟨⟨_, rfl, by simp⟩, fun v => ⟨rfl, fun m => withSp_modCtx hc _⟩⟩
  · exact ⟨⟨_, rfl, by simp⟩, fun v => ⟨by dsimp only; split <;> rfl, fun m => withSp_modCtx hc fun c => c.writeCbound v⟩⟩
  · exact ⟨⟨_, rfl, by simp⟩, fun v => ⟨rfl, fun m => withSp_same hc⟩⟩
  · exact ⟨⟨_, rfl, by simp⟩, fun v => ⟨rfl, fun m => withSp_same hc⟩⟩
  · exact ⟨⟨_, rfl, by simp⟩, fun v => ⟨rfl, fun m => withSp_same hc⟩⟩
  · exact ⟨⟨_, rfl, rfl⟩, fun v => ⟨rfl, fun m => withSp_same hc⟩⟩
  · exact ⟨⟨_, rfl, rfl⟩, fun v => ⟨rfl, fun m => withSp_same hc⟩⟩

/-- Custom numbers of no CSR. -/
theorem Ctx.csr_custom_none (c : Ctx) (k : Nat) {n : Nat} (h : 0x7C2 < n) (hgap : n < 0x800 ∨ 0x80A < n) : c.csr k n = none := by
  unfold Ctx.csr
  split <;> simp_all

/-- The machine's custom registers want M mode or the system bit. -/
theorem Ctx.csr_machine {c : Ctx} {k n : Nat} {q : Bool × Nat} (h : 0x7C0 ≤ n) (hn : n ≤ 0x7C2) (hq : c.csr k n = some q) : q.1 = c.sysb := by
  obtain rfl | rfl | rfl : n = 0x7C0 ∨ n = 0x7C1 ∨ n = 0x7C2 := by omega
  all_goals exact (congrArg Prod.fst (Option.some.inj hq)).symm

end Sys2Proof.Machine

namespace Sys2Proof
open Machine

/-- Settles O14: an access that the mode allows reads and writes by `rvCsrAccess_reads` and `rvCsrAccess_writes`, and any other traps. -/
theorem controllerCsrs : Obligations.ControllerCsrs := by
  refine ⟨fun n r h op imm rd s c hc hop => ?_, fun n r w h imm rd src s c hc => ?_, fun rd rs1 s c hc => ⟨fun hk => ?_, fun hmode => ⟨?_, ?_⟩⟩,
    fun op imm n rd src s c hc hlo hhi hno => ?_⟩
  · obtain ⟨old, hcsr, ho⟩ := csr_of_userCsrs h s.cur c
    exact rvCsrAccess_reads hc hcsr ho (.inl rfl) hop
  · obtain ⟨⟨old, hcsr, ho⟩, hw⟩ := csr_of_plainCsrs h hc
    have haccess (op : CsrOp) (hop : op = .rw ∨ src ≠ 0) :=
      rvCsrAccess_writes (imm := imm) (src := src) (rd := rd) hc hcsr ho (.inl rfl) hop (hw _).1 ((hw _).2 _)
    exact ⟨haccess .rw (.inl rfl), fun hsrc => ⟨haccess .rs (.inr hsrc), haccess .rc (.inr hsrc)⟩⟩
  · refine ⟨flagClear c.kstat (c.xr rs1).toNat, ?_, testBit_flagClear hk (c.xr rs1).toNat⟩
    refine (rvCsrAccess_writes hc (n := 0x809) rfl rfl (.inl rfl) (.inl rfl) (d := { c with kstat := flagClear c.kstat (c.xr rs1).toNat }) rfl
      ((withSp_modCtx hc _).congr ?_)).congr (by simp only [Ctx.setX_eq])
    simp only [Ctx.clearKstat, csrNew, csrMask, Ctx.csrSrc, Bool.false_eq_true, if_false, BitVec.and_allOnes]
  · refine (rvCsrAccess_writes hc (n := 0x7C1) rfl rfl hmode.symm (.inl rfl)
      (d := { c with mwdog := if 20 ≤ (c.xr rs1).toNat ∧ (c.xr rs1).toNat ≤ 40 then (c.xr rs1).toNat else c.mwdog }) rfl
      ((withSp_modCtx hc _).congr ?_)).congr (by simp only [Ctx.setX_eq])
    simp only [csrNew, Ctx.csrSrc, Bool.false_eq_true, if_false]
    split <;> rfl
  · refine (rvCsrAccess_writes hc (n := 0x7C2) rfl ?_ hmode.symm (.inl rfl) (d := { c with mpreq := c.mpreq || (c.xr rs1).getLsbD 0 }) rfl
      ((withSp_modCtx hc _).congr ?_)).congr (by simp only [Ctx.setX_eq]; rfl)
    · cases c.mpreq <;> rfl
    · simp only [csrNew, Ctx.csrSrc, Bool.false_eq_true, if_false, bits_one_eq_one]
      cases (c.xr rs1).getLsbD 0 <;> simp [Ctx.requestPreempt]
  · refine rvCsrAccess_traps hc (fun q hq => ?_) op imm rd src
    rcases hno with ⟨hgap, hnot⟩ | ⟨hn, hm, hsys⟩
    · rw [c.csr_custom_none s.cur (by omega) (by omega)] at hq
      exact absurd hq nofun
    · exact ⟨(Ctx.csr_machine hlo hn hq).trans hsys, hm⟩

end Sys2Proof
end

