-- ==== Sys2Proof/Proofs/StatusSteps.lean ====
section
/-! PROOF. What a write of the controller's status does, the delivery of a kernel event, and the resume and the kill of a kernel (07 R187 to R192). -/

namespace Sys2Proof.Machine

/-- Two of the checks of a delivery are Booleans. -/
theorem Ctx.deliver_eq (c : Ctx) : c.deliver = if c.pend = true ∧ c.ie = true ∧ c.ktvec ≠ 0 ∧ c.mmode = false then
    { c with kepc := c.pc, pc := c.ktvec, ie := false, pend := false, wait := none, resv := none } else c := by
  simp only [Ctx.deliver, Bool.and_eq_true, decide_eq_true_eq, Bool.not_eq_true', and_assoc]

/-! ## KRES (07 R192) -/

section
variable {s : State} {k : Nat} {c : Ctx} (hc : s.ctx k = some c)
include hc

theorem kstatusKres_idle (hstop : c.stopped = false) : exec (.kstatusKres k) s = .next s := by
  rw [exec_kstatusKres, execKstatusKres, State.kresWrite, State.withCtx_of_ctx hc, if_pos (by simp [hstop])]

theorem kstatusKres_resumes (hstop : c.stopped = true) (hlone : s.issueGroup k = [k]) : CtxStep (.kstatusKres k) s k c.resumeKernel := by
  have hall : ([k].all fun m => ((s.setCtx k { c with kres := true }).ctx m).any (·.kres)) = true := by simp
  refine ⟨_, exec_kstatusKres s, ?_⟩
  rw [State.kresWrite, State.withCtx_of_ctx hc, if_neg (by simp [hstop]), hlone, if_pos hall, List.foldl_cons, List.foldl_nil]
  exact ((WithSp.refl s k).setCtx { c with kres := true }).modCtx rfl Ctx.resumeKernel
end

/-! ## KKILL (07 R188, R190) -/

/-- KKILL at one context. -/
def Ctx.kkill (c : Ctx) : Ctx := if c.kernelLive then c.killKernel 2 else c

theorem Ctx.kkill_live {c : Ctx} (h : c.kern.phase = .running ∨ c.kern.phase = .stopped) : c.kkill = c.killKernel 2 := by
  rw [Ctx.kkill, if_pos (by rcases h with h | h <;> simp [Ctx.kernelLive, h])]

theorem Ctx.kkill_over {c : Ctx} (h : c.kern.phase = .idle ∨ c.kern.phase = .ending) : c.kkill = c := by
  rw [Ctx.kkill, if_neg (by rcases h with h | h <;> simp [Ctx.kernelLive, h])]

/-- Results in flight still land. -/
theorem Kern.landsByCycle_what (k : Kern) : k.landsByCycle.map (·.what) = k.land.map (·.what) := by simp [Kern.landsByCycle]

theorem kstatusKkill_kills {s : State} {k : Nat} (hn : (s.tower k).Nodup) : ∃ t, exec (.kstatusKkill k) s = .next t ∧ t = { s with sps := t.sps } ∧
    ∀ j, (j ∉ s.tower k → t.sp j = s.sp j) ∧ (j ∈ s.tower k → t.ctx j = (s.ctx j).map Ctx.kkill) := by
  have hsp := State.foldl_modCtx (fun _ => Ctx.kkill) (s.tower k) hn s
  refine ⟨_, exec_kstatusKkill s, State.foldl_modCtx_sps (fun _ => Ctx.kkill) (s.tower k) s, fun j => ⟨fun hj => ?_, fun hj => ?_⟩⟩
  · exact (hsp j).trans (if_neg hj)
  · exact congrArg Sp.ctx ((hsp j).trans (if_pos hj))

end Sys2Proof.Machine

namespace Sys2Proof
open Machine

/-- Settles O15: each step is one change of the context, but for KRES and KKILL, whose rules stand above. -/
theorem controllerStatusSteps : Obligations.ControllerStatusSteps := by
  intro s k c hc
  refine ⟨ctxStep_mod _ hc (exec_kstatusIeWrite s), ctxStep_mod _ hc (exec_kstatusIeWrite s), ctxStep_mod _ hc (exec_kstatusPendClear s), fun mask hk => ?_,
    fun v => ctxStep_mod (fun c => c.writeCbound v) hc (exec_cboundWrite s), ctxStep_mod _ hc (exec_mpreqWrite s), ?_, kstatusKres_idle hc, kstatusKres_resumes hc, fun hn => ?_⟩
  · exact ⟨_, ctxStep_mod _ hc (exec_kstatClear s), testBit_flagClear hk mask.toNat⟩
  · exact (ctxStep_mod _ hc (exec_keventDelivery s)).congr c.deliver_eq
  · obtain ⟨t, ht, hsps, hall⟩ := kstatusKkill_kills hn
    refine ⟨t, ht, hsps, fun j => ⟨(hall j).1, fun d hj hd => ⟨d.kkill, by rw [(hall j).2 hj, hd]; rfl, fun hlive => ?_, Ctx.kkill_over⟩⟩⟩
    rw [Ctx.kkill_live hlive]
    exact ⟨rfl, rfl, rfl, rfl, rfl, d.kern.landsByCycle_what⟩

end Sys2Proof
end

