-- ==== Sys2Proof/Proofs/LocalAnswers.lean ====
section
/-! PROOF. How a controller-local instruction ends its turn: it retires with a value, or it waits (07 R154). -/

namespace Sys2Proof.Machine

section
variable {i : Instr} {rd rs1 rs2 : Nat} {op : State → Nat → Ctx → Dword → Dword → Ctl} {s : State} {c : Ctx} {v : Dword}
  (hi : exec i s = .next (s.localOp i rd rs1 rs2 op)) (hc : s.ctx s.cur = some c)
include hi hc

/-- Its meaning answers; the answer makes the next state. -/
theorem exec_of_answer {r : Ctl} (hop : op s s.cur c (c.xr rs1) (c.xr rs2) = r) : exec i s = .next (State.ctl s.cur i rd (c.xr rs1) (c.xr rs2) r) := by
  rw [exec_withCtx hi hc, hop]

theorem retires_of_done_mod {f : Ctx → Ctx} (hop : op s s.cur c (c.xr rs1) (c.xr rs2) = .done v (s.modCtx s.cur f)) (hpc : (f c).pc = c.pc) :
    Retires i s c rd v f := by
  refine CtxStep.congr (d := (f c).retire rd v) ⟨_, exec_of_answer hi hc hop, (withSp_modCtx hc f).modCtx rfl _⟩ ?_
  rw [Ctx.retire_eq, hpc]

theorem retires_of_done (hop : op s s.cur c (c.xr rs1) (c.xr rs2) = .done v s) : Retires i s c rd v id :=
  CtxStep.congr (d := c.retire rd v) ⟨_, exec_of_answer hi hc hop, (withSp_same hc).modCtx rfl _⟩ (c.retire_eq rd v)

theorem waits_of_waits_mod {f : Ctx → Ctx} (hop : op s s.cur c (c.xr rs1) (c.xr rs2) = .waits (s.modCtx s.cur f)) :
    ∃ w, CtxStep i s s.cur { f c with wait := some w } :=
  ⟨_, _, exec_of_answer hi hc hop, (withSp_modCtx hc f).modCtx rfl _⟩

theorem waits_of_waits (hop : op s s.cur c (c.xr rs1) (c.xr rs2) = .waits s) : Waits i s c :=
  ⟨_, _, exec_of_answer hi hc hop, (withSp_same hc).modCtx rfl _⟩
end

/-! ## Answers that change more than the context -/

section
variable {i : Instr} {rd rs1 rs2 : Nat} {op : State → Nat → Ctx → Dword → Dword → Ctl} {s t : State} {c d : Ctx} {v : Dword}
  (hi : exec i s = .next (s.localOp i rd rs1 rs2 op)) (hc : s.ctx s.cur = some c)
include hi hc

theorem done_of_done (hop : op s s.cur c (c.xr rs1) (c.xr rs2) = .done v t) (hd : t.ctx s.cur = some d) :
    ∃ u, exec i s = .next u ∧ u.ctx s.cur = some { d.setX rd v with pc := d.pc + 4, wait := none } ∧ u.parts = t.parts :=
  ⟨_, exec_of_answer hi hc hop, by rw [State.ctl, State.ctx_modCtx_self, hd, Option.map_some, Ctx.retire_eq], State.modCtx_parts ..⟩

theorem waits_of_waits_parts (hop : op s s.cur c (c.xr rs1) (c.xr rs2) = .waits t) (hd : t.ctx s.cur = some d) :
    ∃ u w, exec i s = .next u ∧ u.ctx s.cur = some { d with wait := some w } ∧ u.parts = t.parts :=
  ⟨_, _, exec_of_answer hi hc hop, by rw [State.ctl, State.ctx_modCtx_self, hd, Option.map_some], State.modCtx_parts ..⟩

/-- One that changes its SP, its context apart. -/
theorem spStep_of_done_modSp {f : Sp → Sp} (hop : op s s.cur c (c.xr rs1) (c.xr rs2) = .done v (s.modSp s.cur f)) (hf : (f (s.sp s.cur)).ctx = some c) :
    SpStep i s s.cur { f (s.sp s.cur) with ctx := some { c.setX rd v with pc := c.pc + 4, wait := none } } := by
  refine ⟨_, exec_of_answer hi hc hop, ?_⟩
  rw [← Ctx.retire_eq]
  exact ((WithSp.refl s s.cur).modSp f).modCtx hf _
end

/-! ## The entries that an instruction looks at -/

theorem Ctx.mem_entries {c : Ctx} {e : Entry} : e ∈ c.entries ↔ e ∈ c.sb ∧ e.freed = false := by simp [Ctx.entries]

theorem Entry.names_iff (e : Entry) (h : Nat) : e.names h = true ↔ ∃ r ∈ e.reads ++ e.writes, r.handle = h := by
  rw [Entry.names, List.any_eq_true]
  simp only [decide_eq_true_eq]

/-- Some entry names the handle. -/
theorem Ctx.any_names_iff (c : Ctx) (h : Nat) :
    (c.entries.any fun e => e.names h) = true ↔ ∃ e ∈ c.sb, e.freed = false ∧ ∃ r ∈ e.reads ++ e.writes, r.handle = h := by
  simp only [List.any_eq_true, Ctx.mem_entries, Entry.names_iff, and_assoc]

/-- Only copies that have been read out stand in the scoreboard. -/
theorem Ctx.entries_eq_nil {c : Ctx} (h : ∀ e ∈ c.sb, e.freed = true) : c.entries = [] := by
  rw [List.eq_nil_iff_forall_not_mem]
  intro e he
  obtain ⟨hmem, hfreed⟩ := Ctx.mem_entries.mp he
  simp [h e hmem] at hfreed

end Sys2Proof.Machine
end

