-- ==== Sys2Proof/Proofs/Polders.lean ====
section
/-! PROOF. PALLOC, PFREE and PINFO (07 R156 to R158), and where a polder is placed (03 R80, R82). -/

namespace Sys2Proof.Machine

/-! ## The lowest base that is free (03 R80) -/

section
variable {share b : Nat} {busy : List (Nat × Nat)}

/-- The test of a base that is a multiple of the share. -/
theorem freeBase_iff (i : Nat) : FreeBase share (i * share) busy ↔
    (decide (i * share + share ≤ 0x60000) && !busy.any fun r => overlap (i * share) share r.1 r.2) = true := by
  simp only [FreeBase, Nat.mul_mod_left, true_and, overlap, Bool.and_eq_true, decide_eq_true_eq, Bool.not_eq_true', List.any_eq_false, not_and_or, not_lt]
  exact and_congr_right fun _ => forall₂_congr fun r _ => or_comm

/-- A free base is one of those that are tried. -/
theorem FreeBase.exists_index (hshare : 0 < share) (h : FreeBase share b busy) : ∃ i < 0x60000 / share, b = i * share := by
  obtain ⟨hdvd, hend, -⟩ := h
  have hb : b = b / share * share := (Nat.div_mul_cancel (Nat.dvd_of_mod_eq_zero hdvd)).symm
  refine ⟨b / share, ?_, hb⟩
  rw [← Nat.add_one_le_iff, Nat.le_div_iff_mul_le hshare, Nat.add_mul, ← hb]
  omega

theorem lowestBase_of_lowestFree (hshare : 0 < share) (h : LowestFree share b busy) : lowestBase share busy = some b := by
  obtain ⟨hfree, hlow⟩ := h
  obtain ⟨i, hi, rfl⟩ := hfree.exists_index hshare
  rw [lowestBase, List.find?_map, Option.map_eq_some_iff]
  refine ⟨i, List.find?_range_eq_some.mpr ⟨(freeBase_iff i).mp hfree, List.mem_range.mpr hi, fun j hj => ?_⟩, rfl⟩
  rw [Bool.not_eq_true', ← Bool.not_eq_true, Function.comp_apply, ← freeBase_iff]
  exact fun hj' => absurd (hlow _ hj') (Nat.not_le.mpr (Nat.mul_lt_mul_of_pos_right hj hshare))

theorem lowestBase_eq_none (h : ∀ b, ¬FreeBase share b busy) : lowestBase share busy = none := by
  rw [lowestBase, List.find?_map, Option.map_eq_none_iff, List.find?_range_eq_none]
  intro i _
  rw [Bool.not_eq_true', ← Bool.not_eq_true, Function.comp_apply, ← freeBase_iff]
  exact h _
end

theorem FreeBase.of_append {share b : Nat} {l m : List (Nat × Nat)} (h : FreeBase share b (l ++ m)) : FreeBase share b l :=
  ⟨h.1, h.2.1, fun r hr => h.2.2 r (List.mem_append_left _ hr)⟩

theorem shareOf_pos {log2 : Nat} (h : 12 ≤ log2) : 0 < shareOf log2 :=
  Nat.div_pos ((by decide : 16 ≤ 2 ^ 12).trans (Nat.pow_le_pow_right (by decide) h)) (by decide)

section
variable {p : Sp} {own : KMap Polder} {log2 : Nat}

theorem placePolder_eq_some {b : Nat} (hlog : 12 ≤ log2) (h : LowestFree (shareOf log2) b (polRanges own ++ p.victimRanges) ∨
    (∀ b', ¬FreeBase (shareOf log2) b' (polRanges own ++ p.victimRanges)) ∧ LowestFree (shareOf log2) b (polRanges own)) :
    placePolder p own log2 = some b := by
  rcases h with h | ⟨hfull, h⟩
  · rw [placePolder, lowestBase_of_lowestFree (shareOf_pos hlog) h]
  · rw [placePolder, lowestBase_eq_none hfull]
    exact lowestBase_of_lowestFree (shareOf_pos hlog) h

theorem placePolder_eq_none (h : ∀ b, ¬FreeBase (shareOf log2) b (polRanges own)) : placePolder p own log2 = none := by
  rw [placePolder, lowestBase_eq_none fun b hb => h b hb.of_append]
  exact lowestBase_eq_none h
end

/-! ## PALLOC (07 R156) -/

/-- The arguments of PALLOC break no rule. -/
structure PallocArgs (a b : Dword) (h kind log2 : Nat) : Prop where
  good : ¬(bits a 6 58 ≠ 0 ∨ bits b 0 2 = 3 ∨ bits b 8 5 < 12 ∨ 22 < bits b 8 5 ∨ bits b 2 6 ≠ 0 ∨ bits b 13 51 ≠ 0)
  handle : bits a 0 6 = h
  kind_ : bits b 0 2 = kind
  log2_ : bits b 8 5 = log2

theorem pallocArgs_of {a b : Dword} {h kind log2 : Nat} (hh : h < 64) (ha : a.toNat = h) (hb : b.toNat = kind + 2 ^ 8 * log2) (hkind : kind < 3)
    (hlo : 12 ≤ log2) (hhi : log2 ≤ 22) : PallocArgs a b h kind log2 := by
  constructor
  all_goals simp only [bits, ha, hb]; omega

theorem opPalloc_badArg {a b : Dword} (hbad : 64 ≤ a.toNat ∨ b.toNat % 4 = 3 ∨ b.toNat / 2 ^ 8 < 12 ∨ 22 < b.toNat / 2 ^ 8 ∨ b.toNat / 4 % 64 ≠ 0)
    (s : State) (k : Nat) (c : Ctx) : opPalloc s k c a b = .code rcBadArg s := by
  have ha := a.isLt
  have hb := b.isLt
  exact if_pos (by simp only [bits]; omega)

section
variable {a b : Dword} {h kind log2 : Nat} (g : PallocArgs a b h kind log2) (s : State) (k : Nat) {c : Ctx}
include g

/-- A handle in use: it is the allocation executed again if it is pending with the same kind and size. -/
theorem opPalloc_used {p : Polder} (hp : c.polder h = some p) : opPalloc s k c a b =
    if !p.pending || decide (p.kind ≠ kind) || decide (p.log2 ≠ log2) then .code rcBadHandle s
    else if p.fill ≠ 0 then .waits s else .code rcOk (s.modCtx k fun c => c.modPolder h fun p => { p with pending := false }) := by
  obtain ⟨hgood, rfl, rfl, rfl⟩ := g
  exact (if_neg hgood).trans (by rw [hp])

theorem opPalloc_again {p : Polder} (hp : c.polder h = some p) (hpend : p.pending = true) (hk : p.kind = kind) (hl : p.log2 = log2) :
    opPalloc s k c a b = if p.fill ≠ 0 then .waits s else .code rcOk (s.modCtx k fun c => c.modPolder h fun p => { p with pending := false }) := by
  rw [opPalloc_used g s k hp, if_neg (by simp [hpend, hk, hl])]

theorem opPalloc_badHandle {p : Polder} (hp : c.polder h = some p) (hno : p.pending = false ∨ p.kind ≠ kind ∨ p.log2 ≠ log2) :
    opPalloc s k c a b = .code rcBadHandle s := by
  rw [opPalloc_used g s k hp, if_pos (by rcases hno with h | h | h <;> simp [h])]

theorem opPalloc_placed {base : Nat} (hp : c.polder h = none) (hplace : placePolder (s.sp k) c.polders log2 = some base) : opPalloc s k c a b =
    .waits (s.modCtx k fun c => { c with polders := KMap.ins h (Polder.fresh kind log2 base true) c.polders }) := by
  obtain ⟨hgood, rfl, rfl, rfl⟩ := g
  exact (if_neg hgood).trans (by rw [hp, hplace])

theorem opPalloc_noSpace (hp : c.polder h = none) (hplace : placePolder (s.sp k) c.polders log2 = none) : opPalloc s k c a b = .code rcNoSpace s := by
  obtain ⟨hgood, rfl, rfl, rfl⟩ := g
  exact (if_neg hgood).trans (by rw [hp, hplace])
end

/-! ## PFREE (07 R157) -/

/-- The context without a polder: descriptors that name it take POLDER none (06 R141). -/
def Ctx.freePolder (c : Ctx) (h : Nat) : Ctx :=
  { c with polders := KMap.del h c.polders, descs := c.descs.map fun e => (e.1, if e.2.polder = some h then { e.2 with polder := none } else e.2) }

section
variable {a : Dword} {h : Nat} (ha : a.toNat = h) (s : State) (k : Nat) {c : Ctx} (b : Dword)
include ha

theorem opPfree_badHandle (hno : 64 ≤ h ∨ c.polder h = none) : opPfree s k c a b = .code rcBadHandle s := by
  have hlt := a.isLt
  refine if_pos ?_
  rw [Option.isNone_iff_eq_none, bits_top a rfl, bits_low, ha]
  by_cases hh : 64 ≤ h
  · exact .inl (by omega)
  · rw [Nat.mod_eq_of_lt (by omega)]
    exact .inr (hno.resolve_left hh)

/-- A handle that names a polder. -/
theorem opPfree_good (hh : h < 64) (hp : c.polder h ≠ none) :
    opPfree s k c a b = if c.entries.any (·.names h) then .waits s else .code rcOk (s.modCtx k fun c => c.freePolder h) := by
  have hlow : bits a 0 6 = h := by rw [bits_low, ha]; exact Nat.mod_eq_of_lt hh
  have hgood : ¬(bits a 6 58 ≠ 0 ∨ (c.polder (bits a 0 6)).isNone) := by
    rw [Option.isNone_iff_eq_none, hlow, bits_top a rfl, ha]
    exact not_or.mpr ⟨by omega, hp⟩
  refine (if_neg hgood).trans ?_
  rw [hlow]
  rfl
end

/-! ## The instructions -/

section
variable {rd rs1 rs2 h : Nat} {s : State} {c : Ctx} (hc : s.ctx s.cur = some c)
include hc

theorem palloc_badArg (hbad : 64 ≤ (c.xr rs1).toNat ∨ (c.xr rs2).toNat % 4 = 3 ∨ (c.xr rs2).toNat / 2 ^ 8 < 12 ∨ 22 < (c.xr rs2).toNat / 2 ^ 8 ∨
    (c.xr rs2).toNat / 4 % 64 ≠ 0) : Retires (.palloc rd rs1 rs2) s c rd 5 id :=
  retires_of_done (exec_palloc s) hc (opPalloc_badArg hbad s s.cur c)

section
variable {kind log2 : Nat} (g : PallocArgs (c.xr rs1) (c.xr rs2) h kind log2)
include g

theorem palloc_filled {p : Polder} (hp : c.polder h = some p) (hpend : p.pending = true) (hk : p.kind = kind) (hl : p.log2 = log2) (hfill : p.fill = 0) :
    Retires (.palloc rd rs1 rs2) s c rd 0 fun d => { d with polders := KMap.upd h (fun q => { q with pending := false }) d.polders } :=
  retires_of_done_mod (exec_palloc s) hc ((opPalloc_again g s s.cur hp hpend hk hl).trans (if_neg (by simp [hfill]))) rfl

theorem palloc_filling {p : Polder} (hp : c.polder h = some p) (hpend : p.pending = true) (hk : p.kind = kind) (hl : p.log2 = log2) (hfill : p.fill ≠ 0) :
    Waits (.palloc rd rs1 rs2) s c :=
  waits_of_waits (exec_palloc s) hc ((opPalloc_again g s s.cur hp hpend hk hl).trans (if_pos hfill))

theorem palloc_badHandle {p : Polder} (hp : c.polder h = some p) (hno : p.pending = false ∨ p.kind ≠ kind ∨ p.log2 ≠ log2) :
    Retires (.palloc rd rs1 rs2) s c rd 2 id := retires_of_done (exec_palloc s) hc (opPalloc_badHandle g s s.cur hp hno)

/-- A new polder stands at its base, pending and empty, before its fill. -/
theorem palloc_placed {b : Nat} (hp : c.polder h = none) (hplace : placePolder (s.sp s.cur) c.polders log2 = some b) :
    ∃ p w, CtxStep (.palloc rd rs1 rs2) s s.cur { c with polders := KMap.ins h p c.polders, wait := some w } ∧
      p.kind = kind ∧ p.log2 = log2 ∧ p.base = b ∧ p.head = 0 ∧ p.tail = 0 ∧ p.eos = false ∧ p.pending = true ∧ p.fill = 2 ^ log2 / 1024 := by
  obtain ⟨w, hw⟩ := waits_of_waits_mod (exec_palloc s) hc (opPalloc_placed g s s.cur hp hplace)
  exact ⟨Polder.fresh kind log2 b true, w, hw, rfl, rfl, rfl, rfl, rfl, rfl, rfl, rfl⟩

theorem palloc_noSpace (hp : c.polder h = none) (hplace : placePolder (s.sp s.cur) c.polders log2 = none) : Retires (.palloc rd rs1 rs2) s c rd 1 id :=
  retires_of_done (exec_palloc s) hc (opPalloc_noSpace g s s.cur hp hplace)
end

section
variable (ha : (c.xr rs1).toNat = h)
include ha

theorem pfree_badHandle (hno : 64 ≤ h ∨ c.polder h = none) : Retires (.pfree rd rs1) s c rd 2 id :=
  retires_of_done (exec_pfree s) hc (opPfree_badHandle ha s s.cur (c.xr 0) hno)

theorem pfree_frees (hh : h < 64) (hp : c.polder h ≠ none) (hfree : ∀ e ∈ c.sb, e.freed = false → ∀ r ∈ e.reads ++ e.writes, r.handle ≠ h) :
    Retires (.pfree rd rs1) s c rd 0 fun d => d.freePolder h := by
  have hnone : ¬(c.entries.any (·.names h)) = true := by
    rw [c.any_names_iff]
    rintro ⟨e, he, hf, r, hr, hrh⟩
    exact hfree e he hf r hr hrh
  exact retires_of_done_mod (exec_pfree s) hc ((opPfree_good ha s s.cur (c.xr 0) hh hp).trans (if_neg hnone)) rfl

theorem pfree_waits (hh : h < 64) (hp : c.polder h ≠ none) (hused : ∃ e ∈ c.sb, e.freed = false ∧ ∃ r ∈ e.reads ++ e.writes, r.handle = h) :
    Waits (.pfree rd rs1) s c :=
  waits_of_waits (exec_pfree s) hc ((opPfree_good ha s s.cur (c.xr 0) hh hp).trans (if_pos ((c.any_names_iff h).mpr hused)))
end

theorem pinfo_step : CtxStep (.pinfo rd rs1) s s.cur { c.setX rd (BitVec.ofNat 64 (c.pinfo ((c.xr rs1).toNat % 64))) with pc := c.pc + 4, wait := none } := by
  refine (ctxStep_mod _ hc (exec_pinfo s)).congr ?_
  rw [Ctx.retire_eq, bits_low]
  rfl
end

end Sys2Proof.Machine
end

