-- ==== Sys2Proof/Proofs/Descriptors.lean ====
section
/-! PROOF. SDSET, SDGET, SDCOPY and the end-of-stream mark of a queue (07 R159 to R162). -/

namespace Sys2Proof.Machine

/-! ## SDSET (07 R160) -/

/-- A field that SDSET may not write. -/
theorem sdset_traps {s : State} {c : Ctx} (hc : s.ctx s.cur = some c) {field : Nat} (h : field = 1 ∨ field = 14 ∨ field = 15 ∨ 16 < field) (sd rs1 : Nat) :
    Traps (.sdset sd rs1 field) s 2 (s.wordAt s.cur c) := by
  rw [Traps, exec_sdset, execSdset, if_pos (by omega), State.illegal_of_ctx hc]

section
variable {s : State} {c : Ctx} (hc : s.ctx s.cur = some c) (sd rs1 : Nat)
include hc

/-- A field of the descriptor itself. -/
theorem sdset_desc {field : Nat} (hfield : field < 14) (hkind : field ≠ 1) : ∃ t, exec (.sdset sd rs1 field) s = .next t ∧
    WithSp { s with ctr := s.ctr + 1 } s.cur { s.sp s.cur with
      ctx := some { c with descs := KMap.ins sd ((c.descOf sd).set c (pick s.ctr 4) field (c.xr rs1)) c.descs, pc := c.pc + 4 } } t := by
  have hleaf : field ≠ 16 := by omega
  refine ⟨_, by rw [exec_sdset, execSdset, if_neg (by omega)], ?_⟩
  simp only [hleaf, if_false]
  exact withSp_modCtx (s := { s with ctr := s.ctr + 1 }) hc _

/-- EOS of the polder that the descriptor names. -/
theorem sdset_eos {h : Nat} (hd : (c.descOf sd).polder = some h) : ∃ t, exec (.sdset sd rs1 16) s = .next t ∧
    t.ctx s.cur = some ((c.writeEos h ((c.xr rs1).getLsbD 0)).advance 4) := by
  refine ⟨_, by rw [exec_sdset, execSdset, if_neg (by omega)], ?_⟩
  refine (withSp_modCtx (s := { s with ctr := s.ctr + 1 }) hc _).ctx_self.trans ?_
  simp only [if_true, hd, bits_one_eq_one, Bool.decide_eq_true]
end

/-- Fields that are written with the low bits of a word. -/
def wordFields : List (Nat × (Desc → Nat → Desc)) :=
  [(2, fun d v => { d with fmt := v % 2 ^ 4 }), (3, fun d v => { d with mfmt := v % 2 ^ 4 }), (4, fun d v => { d with recn := v % 2 ^ 16 }),
    (5, fun d v => { d with len := v % 2 ^ 32 }), (6, fun d v => { d with pos := v % 2 ^ 32 }), (7, fun d v => { d with base := v % 2 ^ 22 }),
    (8, fun d v => { d with stride := v % 2 ^ 48 }), (9, fun d v => { d with tile := v % 2 ^ 16 }), (10, fun d v => { d with scale := v % 2 ^ 32 }),
    (11, fun d v => { d with idx := v % 2 ^ 5 }), (12, fun d v => { d with red := v % 2 ^ 4 }), (13, fun d v => { d with dst := v % 2 ^ 48 })]

theorem set_of_wordFields {field : Nat} {w : Desc → Nat → Desc} (h : (field, w) ∈ wordFields) :
    (2 ≤ field ∧ field < 14) ∧ ∀ (d : Desc) (c : Ctx) (kind : Nat) (v : Dword), d.set c kind field v = w d v.toNat := by
  simp only [wordFields, List.mem_cons, List.not_mem_nil, or_false, Prod.mk.injEq] at h
  rcases h with ⟨rfl, rfl⟩ | ⟨rfl, rfl⟩ | ⟨rfl, rfl⟩ | ⟨rfl, rfl⟩ | ⟨rfl, rfl⟩ | ⟨rfl, rfl⟩ | ⟨rfl, rfl⟩ | ⟨rfl, rfl⟩ | ⟨rfl, rfl⟩ | ⟨rfl, rfl⟩ |
    ⟨rfl, rfl⟩ | ⟨rfl, rfl⟩
  all_goals exact ⟨by decide, fun d c kind v => by simp only [Desc.set, bits_low]⟩

/-- The polder that a write of POLDER names, and the kind that it takes where it names one. -/
theorem Desc.set_polder (d : Desc) (c : Ctx) (kind : Nat) (v : Dword) :
    (d.set c kind 0 v).polder = (if v.getLsbD 6 then none else some (v.toNat % 64)) ∧ (d.set c kind 0 v).len = d.len ∧
      ∀ p, v.getLsbD 6 = false → c.polder (v.toNat % 64) = some p → (d.set c kind 0 v).kind = p.kind := by
  simp only [Desc.set, bits_one_eq_one, bits_low]
  refine ⟨rfl, trivial, fun p hnone hp => ?_⟩
  have hp' : c.polder (v.toNat % 2 ^ 6) = some p := hp
  rw [if_neg (Bool.eq_false_iff.mp hnone), hp']
  rfl

/-! ## SDGET (07 R160) -/

theorem sdget_traps {s : State} {c : Ctx} (hc : s.ctx s.cur = some c) {field : Nat} (h : 16 < field) (rd ss : Nat) :
    Traps (.sdget rd ss field) s 2 (s.wordAt s.cur c) := by
  rw [Traps, exec_sdget, execSdget, if_pos h, State.illegal_of_ctx hc]

/-- Fields that are read at once: those of the descriptor itself. -/
def ownFields : List (Nat × (Ctx → Desc → Int)) :=
  [(1, fun _ d => d.kind), (2, fun _ d => d.fmt), (3, fun _ d => d.mfmt), (4, fun _ d => d.recn), (5, fun _ d => d.len), (6, fun _ d => d.pos),
    (7, fun _ d => d.base), (8, fun _ d => (BitVec.ofNat 48 d.stride).toInt), (9, fun _ d => d.tile), (10, fun _ d => d.scale), (11, fun _ d => d.idx),
    (12, fun _ d => d.red), (13, fun _ d => (BitVec.ofNat 48 d.dst).toInt)]

theorem sdget_of_ownFields {field : Nat} {r : Ctx → Desc → Int} (h : (field, r) ∈ ownFields) :
    field < 14 ∧ ∀ (c : Ctx) (d : Desc), c.sdget d field = BitVec.ofInt 64 (r c d) := by
  simp only [ownFields, List.mem_cons, List.not_mem_nil, or_false, Prod.mk.injEq] at h
  rcases h with ⟨rfl, rfl⟩ | ⟨rfl, rfl⟩ | ⟨rfl, rfl⟩ | ⟨rfl, rfl⟩ | ⟨rfl, rfl⟩ | ⟨rfl, rfl⟩ | ⟨rfl, rfl⟩ | ⟨rfl, rfl⟩ | ⟨rfl, rfl⟩ | ⟨rfl, rfl⟩ |
    ⟨rfl, rfl⟩ | ⟨rfl, rfl⟩ | ⟨rfl, rfl⟩
  all_goals exact ⟨by decide, fun c d => by simp [Ctx.sdget, sint_eq]⟩

/-- What no command writes, no entry holds back. -/
theorem Ctx.conflicts_nil (c : Ctx) (n : Nat) : c.conflicts n [] [] = false := by simp [Ctx.conflicts, setsMeet]

theorem sdget_retires {s : State} {c : Ctx} (hc : s.ctx s.cur = some c) {field : Nat} (hfield : field < 14) (rd ss : Nat) :
    Retires (.sdget rd ss field) s c rd (c.sdget (c.descOf ss) field) id := by
  have hi : exec (.sdget rd ss field) s = .next (s.localOp (.sdget rd ss field) rd 0 0 (opSdget ss field)) := by
    rw [exec_sdget, execSdget, if_neg (by omega)]
  have hhead : field ≠ 14 := by omega
  have htail : field ≠ 15 := by omega
  refine retires_of_done hi hc ?_
  simp only [opSdget, hhead, htail, if_false, c.conflicts_nil, Bool.false_eq_true]

/-! ## SDCOPY (07 R159) -/

theorem sdcopy_step {s : State} {c : Ctx} (hc : s.ctx s.cur = some c) (sd ss : Nat) :
    ∃ d, CtxStep (.sdcopy sd ss) s s.cur { c with descs := KMap.ins sd d c.descs, pc := c.pc + 4 } ∧ d = { c.descOf ss with kind := d.kind } ∧
      ∀ h p, (c.descOf ss).polder = some h → c.polder h = some p → d.kind = p.kind := by
  refine ⟨_, ctxStep_mod _ hc (exec_sdcopy s), rfl, fun h p hh hp => ?_⟩
  simp [Ctx.descPolder, hh, hp]

/-! ## The end of a stream (07 R162) -/

/-- An entry older than `n` writes the tail. -/
theorem Ctx.tailBusy_eq_false {c : Ctx} {h n : Nat} :
    c.tailBusy h n = false ↔ ∀ e ∈ c.sb, e.freed = false → e.seq < n → SetR.tail h ∉ e.writes := by
  rw [Ctx.tailBusy, List.any_eq_false]
  simp only [Ctx.mem_entries, and_imp, Bool.and_eq_true, decide_eq_true_eq, List.any_eq_true, not_and, not_exists]
  exact forall₄_congr fun e _ _ _ => ⟨fun hn hm => hn _ hm rfl, fun hn r hr hrt => hn (hrt ▸ hr)⟩

theorem Ctx.writeEos_polder_other {c : Ctx} {h g : Nat} (hg : g ≠ h) (v : Bool) : (c.writeEos h v).polder g = c.polder g :=
  (KMap.find_upd g h _ _).trans (if_neg hg)

/-- A queue closes at once unless an older entry writes its tail. -/
theorem Ctx.writeEos_polder {c : Ctx} {h : Nat} {q : Polder} (hq : c.polder h = some q) (hkind : q.kind = 2) (v : Bool) :
    (c.writeEos h v).polder h = some (
      if v = false then { q with eos := false, eosReq := none }
      else if ∀ e ∈ c.sb, e.freed = false → e.seq < c.seq → SetR.tail h ∉ e.writes then { q with eos := true, eosReq := none }
      else { q with eosReq := some (q.eosReq.getD c.seq) }) := by
  refine (KMap.find_upd h h _ _).trans ?_
  have hfind : KMap.find h c.polders = some q := hq
  rw [if_pos rfl, hfind, Option.map_some, if_neg (not_not.mpr hkind)]
  cases v with
  | false => rfl
  | true =>
    by_cases hb : c.tailBusy h c.seq = true
    · have hno : ¬∀ e ∈ c.sb, e.freed = false → e.seq < c.seq → SetR.tail h ∉ e.writes := by rw [← Ctx.tailBusy_eq_false, hb]; decide
      simp [hb, hno]
    · have hyes := Ctx.tailBusy_eq_false.mp (Bool.not_eq_true _ ▸ hb)
      simp only [hb, if_pos hyes]
      rfl

theorem eosClose_step {s : State} {c : Ctx} (hc : s.ctx s.cur = some c) (h : Nat) : CtxStep (.eosClose s.cur h) s s.cur { c with
    polders := KMap.upd h (fun p => if p.eosReq.any fun n => decide (∀ e ∈ c.sb, e.freed = false → e.seq < n → SetR.tail h ∉ e.writes)
      then { p with eos := true, eosReq := none } else p) c.polders } := by
  refine (ctxStep_mod _ hc (exec_eosClose s)).congr ?_
  have hbusy (n : Nat) : (!c.tailBusy h n) = decide (∀ e ∈ c.sb, e.freed = false → e.seq < n → SetR.tail h ∉ e.writes) := by
    rw [Bool.eq_iff_iff, Bool.not_eq_true', Ctx.tailBusy_eq_false, decide_eq_true_eq]
  simp only [hbusy, Ctx.modPolder]

end Sys2Proof.Machine

namespace Sys2Proof
open Machine

/-- Settles O17: each instruction by its rule, a new polder at the lowest base that is free. -/
theorem polderAndDescriptorInstructions : Obligations.PolderAndDescriptorInstructions := by
  refine ⟨fun rd rs1 s c hc => ?_, fun rd rs1 rs2 h kind log2 s c hc _ hh ha hb hkind hlo hhi => ?_, fun rd rs1 rs2 s c hc hbad => palloc_badArg hc hbad,
    fun rd rs1 h s c hc ha => ⟨pfree_badHandle hc ha, fun hh hp => pfree_frees hc ha hh hp, fun hh hp _ => pfree_waits hc ha hh hp⟩,
    fun sd rs1 field w h s c hc => ?_, fun rd ss field r h s c hc => ?_, fun sd ss s c hc => sdcopy_step hc sd ss⟩
  · refine (pinfo_step hc).congr ?_
    rw [Ctx.pinfo]
    cases c.polder ((c.xr rs1).toNat % 64) <;> rfl
  · have g := pallocArgs_of hh ha hb hkind hlo hhi
    refine ⟨fun p hp hpend hk hl hfill => palloc_filled hc g hp hpend hk hl hfill, fun p hp hpend hk hl hfill => palloc_filling hc g hp hpend hk hl hfill,
      fun p hp hno => palloc_badHandle hc g hp hno, ?_⟩
    rintro own rfl hp
    exact ⟨fun b hb => palloc_placed hc g hp (placePolder_eq_some hlo hb), fun hfull => palloc_noSpace hc g hp (placePolder_eq_none hfull)⟩
  · obtain ⟨⟨hlo, hhi⟩, hset⟩ := set_of_wordFields h
    obtain ⟨t, ht, hw⟩ := sdset_desc hc sd rs1 hhi (by omega)
    exact ⟨t, ht, hw.congr (by rw [hset]; rfl)⟩
  · obtain ⟨hfield, hget⟩ := sdget_of_ownFields h
    have hret := sdget_retires hc hfield rd ss
    rwa [hget] at hret

/-- Settles O18: fields that may not be reached trap; POLDER and EOS by their rules. -/
theorem descriptorFieldRules : Obligations.DescriptorFieldRules := by
  refine ⟨fun sd rs1 field s c hc h => sdset_traps hc h sd rs1, fun rd ss field s c hc h => sdget_traps hc h rd ss, fun sd rs1 s c hc => ?_,
    fun sd rs1 h q s c hc hd hq hkind => ⟨?_, eosClose_step hc h⟩⟩
  · obtain ⟨t, ht, hw⟩ := sdset_desc hc sd rs1 (field := 0) (by decide) (by decide)
    exact ⟨t, _, ht, hw, Desc.set_polder _ c _ _⟩
  · obtain ⟨t, ht, hctx⟩ := sdset_eos hc sd rs1 hd
    exact ⟨t, _, ht, hctx, rfl, rfl, fun g hg => Ctx.writeEos_polder_other hg _, Ctx.writeEos_polder hq hkind _⟩

end Sys2Proof
end

