-- ==== Sys2Proof/Proofs/EntryWaits.lean ====
section
/-! PROOF. Arrival words and the waits on entries (07 R165, R166, R178, R179). -/

namespace Sys2Proof.Machine

theorem State.part_congr {s t : State} (h : t.parts = s.parts) (n : Nat) : t.part n = s.part n := by rw [State.part, h, State.part]

/-! ## Arrival words -/

/-- An arrival word of no count and no status. -/
theorem ArrWord.toNat_cleared (t g : Nat) : (ArrWord.mk t 0 g 0).toNat = t + g * 2 ^ 64 := by
  simp only [ArrWord.toNat]
  omega

section
variable {c : Ctx} {r : Dword} {h o : Nat} {p : Polder} (hr : r.toNat = h * 2 ^ 22 + o) (hh : h < 64) (ho : o < 2 ^ 22)
include hr hh ho

theorem bits_awRef : bits r 22 6 = h ∧ bits r 0 22 = o := by
  simp only [bits, hr]
  omega

/-- A reference to an aligned word of a polder. -/
theorem awNeeded_good (hp : c.polder h = some p) (halign : o % 16 = 0) : awNeeded c r = false := by
  have htop : bits r 63 1 ≠ 1 := by simp only [bits, hr]; omega
  rw [awNeeded, Bool.or_eq_false_iff, decide_eq_false_iff_not, ← Bool.not_eq_true, awBad_iff]
  refine ⟨htop, fun hbad => ?_⟩
  obtain ⟨-, hbad⟩ := hbad
  have hhandle : r.toNat / 2 ^ 22 % 64 = h := by omega
  rw [hhandle, hp] at hbad
  have hnone : some p ≠ none := nofun
  simp only [hnone, or_false] at hbad
  omega
end

/-- AWAIT looks at the generation and the status of its word. -/
theorem opAwait_word {h o : Nat} {p : Polder} {c : Ctx} {a : Dword} (hp : c.polder h = some p) (hh : h < 64) (ho : o < 2 ^ 22) (halign : o % 16 = 0)
    (hr : a.toNat = h * 2 ^ 22 + o) (s : State) (k : Nat) (b : Dword) : opAwait s k c a b =
      if (polNum (s.sp k).srf p o 16 / 2 ^ 64 % 2 ^ 32 + 2 ^ 32 - b.toNat % 2 ^ 32) % 2 ^ 32 < 2 ^ 31 then
        .code (polNum (s.sp k).srf p o 16 / 2 ^ 96 % 2 ^ 32) s else .waits s := by
  obtain ⟨hhandle, hoff⟩ := bits_awRef hr hh ho
  rw [opAwait, awNeeded_good hr hh ho hp halign]
  simp only [Bool.false_eq_true, if_false, hhandle, hoff, srfLoad, hp, ArrWord.ofNat, dif32, bits_low, Nat.mod_mod]
  exact if_congr Iff.rfl rfl rfl

section
variable {rd rs1 rs2 h o : Nat} {p : Polder} {s : State} {c : Ctx} (hc : s.ctx s.cur = some c) (hp : c.polder h = some p) (hh : h < 64) (ho : o < 2 ^ 22)
  (halign : o % 16 = 0) (hr : (c.xr rs1).toNat = h * 2 ^ 22 + o)
include hc hp hh ho halign hr

/-- AWINIT: target set, count and status cleared, generation kept. -/
theorem awinit_step (hfree : ∀ e ∈ c.sb, e.freed = true) (htarget : (c.xr rs2).toNat < 2 ^ 32) :
    SpStep (.awinit rd rs1 rs2) s s.cur { s.sp s.cur with
      ctx := some { c.setX rd 0 with pc := c.pc + 4, wait := none },
      srf := polWrite (s.sp s.cur).srf p o (toBytes 16 ((c.xr rs2).toNat + polNum (s.sp s.cur).srf p o 16 / 2 ^ 64 % 2 ^ 32 * 2 ^ 64)) } := by
  obtain ⟨hhandle, hoff⟩ := bits_awRef hr hh ho
  have hlow : bits (c.xr rs2) 0 32 = (c.xr rs2).toNat := by rw [bits_low]; exact Nat.mod_eq_of_lt htarget
  have harg : ¬bits (c.xr rs2) 32 32 ≠ 0 := by rw [bits_top _ rfl]; omega
  have hcalm (reads writes : List SetR) : c.conflicts c.seq reads writes = false := by simp [Ctx.conflicts, Ctx.entries_eq_nil hfree]
  have hop : opAwinit s s.cur c (c.xr rs1) (c.xr rs2) = .code rcOk (s.modSp s.cur fun q =>
      { q with srf := polWrite q.srf p o (toBytes 16 ((c.xr rs2).toNat + polNum q.srf p o 16 / 2 ^ 64 % 2 ^ 32 * 2 ^ 64)) }) := by
    rw [opAwinit, if_neg harg, awNeeded_good hr hh ho hp halign, hcalm]
    simp only [Bool.false_eq_true, if_false, hhandle, hoff, hlow, srfStore, srfLoad, hp, ArrWord.toNat_cleared]
    rfl
  exact spStep_of_done_modSp (exec_awinit s) hc hop hc

theorem await_reached (hgen : (polNum (s.sp s.cur).srf p o 16 / 2 ^ 64 % 2 ^ 32 + 2 ^ 32 - (c.xr rs2).toNat % 2 ^ 32) % 2 ^ 32 < 2 ^ 31) :
    Retires (.await rd rs1 rs2) s c rd (BitVec.ofNat 64 (polNum (s.sp s.cur).srf p o 16 / 2 ^ 96 % 2 ^ 32)) id :=
  retires_of_done (exec_await s) hc ((opAwait_word hp hh ho halign hr ..).trans (if_pos hgen))

theorem await_before (hgen : 2 ^ 31 ≤ (polNum (s.sp s.cur).srf p o 16 / 2 ^ 64 % 2 ^ 32 + 2 ^ 32 - (c.xr rs2).toNat % 2 ^ 32) % 2 ^ 32) :
    Waits (.await rd rs1 rs2) s c := waits_of_waits (exec_await s) hc ((opAwait_word hp hh ho halign hr ..).trans (if_neg (Nat.not_lt.mpr hgen)))
end

/-! ## FENCEX (07 R178) -/

/-- A copy or command of a class of the mask has not completed. -/
theorem Ctx.fenceBusy_iff (c : Ctx) (a : Dword) :
    c.fenceBusy (bits a 0 4) = true ↔ ∃ e ∈ c.sb, e.kcopy = none ∧ e.cls < 4 ∧ a.getLsbD e.cls = true := by
  rw [Ctx.fenceBusy, List.any_eq_true]
  refine exists_congr fun e => and_congr_right fun _ => ?_
  rw [Bool.and_eq_true, Option.isNone_iff_eq_none, ← Nat.testBit_eq_decide_div_mod_eq, bits_low, Nat.testBit_mod_two_pow, Bool.and_eq_true, decide_eq_true_eq]
  rfl

theorem Ctx.fenceBusy_nil {c : Ctx} (h : c.sb = []) (m : Nat) : c.fenceBusy m = false := by simp [Ctx.fenceBusy, h]

/-- Only the low six bits of rs1 may be set. -/
theorem opFencex_eq (s : State) (k : Nat) (c : Ctx) (a b : Dword) :
    opFencex s k c a b = if 64 ≤ a.toNat then .code rcBadArg s else if c.fenceBusy (bits a 0 4) then .waits s else .code rcOk s := by
  have hiff : bits a 6 58 ≠ 0 ↔ 64 ≤ a.toNat := by rw [bits_top a rfl]; omega
  simp only [opFencex, hiff]

theorem opFencex_free {a : Dword} {c : Ctx} (ha : a.toNat < 64) (hfree : ∀ e ∈ c.sb, e.kcopy = none → a.getLsbD e.cls = false) (s : State) (k : Nat) (b : Dword) :
    opFencex s k c a b = .code rcOk s := by
  have hno : ¬c.fenceBusy (bits a 0 4) = true := by
    rw [c.fenceBusy_iff]
    rintro ⟨e, he, hk, -, hbit⟩
    exact absurd (hfree e he hk) (by simp [hbit])
  rw [opFencex_eq, if_neg (Nat.not_le.mpr ha), if_neg hno]

section
variable {rd rs1 : Nat} {s : State} {c : Ctx} (hc : s.ctx s.cur = some c)
include hc

theorem fencex_badArg (ha : 64 ≤ (c.xr rs1).toNat) : Retires (.fencex rd rs1) s c rd 5 id :=
  retires_of_done (exec_fencex s) hc ((opFencex_eq ..).trans (if_pos ha))

theorem fencex_free (ha : (c.xr rs1).toNat < 64) (hfree : ∀ e ∈ c.sb, e.kcopy = none → (c.xr rs1).getLsbD e.cls = false) :
    Retires (.fencex rd rs1) s c rd 0 id := retires_of_done (exec_fencex s) hc (opFencex_free ha hfree s s.cur (c.xr 0))

theorem fencex_waits (ha : (c.xr rs1).toNat < 64) (hbusy : ∃ e ∈ c.sb, e.kcopy = none ∧ e.cls < 4 ∧ (c.xr rs1).getLsbD e.cls = true) :
    Waits (.fencex rd rs1) s c := by
  refine waits_of_waits (exec_fencex s) hc ?_
  rw [opFencex_eq, if_neg (Nat.not_le.mpr ha), if_pos ((c.fenceBusy_iff _).mpr hbusy)]
end

/-- The wait of a FENCEX ends once its entries have gone. -/
theorem controllerWaitEnd_fencex {k rd rs1 : Nat} {s : State} {c : Ctx} {w : Wait} (hc : s.ctx k = some c) (hw : c.wait = some w) (hi : w.instr = .fencex rd rs1)
    (ha : w.rs1.toNat < 64) (hfree : ∀ e ∈ c.sb, e.kcopy = none → w.rs1.getLsbD e.cls = false) :
    CtxStep (.controllerWaitEnd k) s k { c.setX rd 0 with pc := c.pc + 4, wait := none } := by
  have hstep : exec (.controllerWaitEnd k) s = .next (s.modCtx k fun c => c.retire rd 0) := by
    rw [exec_withCtx (exec_controllerWaitEnd s) hc, hw]
    simp only [State.waitStep, State.withCtx_of_ctx hc, hi, opFencex_free ha hfree]
    rfl
  exact (ctxStep_mod _ hc hstep).congr (c.retire_eq rd 0)

/-! ## SWAIT (07 R179) -/

/-- Only the low seven bits of rs1 may be set; bit 6 names every entry. -/
theorem opSwait_eq (s : State) (k : Nat) (c : Ctx) (a b : Dword) : opSwait s k c a b =
    if 128 ≤ a.toNat then .code rcBadArg s
    else if c.entries.any (fun e => decide (bits a 6 1 = 1) || e.names (bits a 0 6)) then .waits s else .code rcOk s := by
  have hiff : bits a 7 57 ≠ 0 ↔ 128 ≤ a.toNat := by rw [bits_top a rfl]; omega
  simp only [opSwait, hiff]

/-- A wait on one handle. -/
theorem opSwait_handle {a : Dword} (ha : a.toNat < 64) (s : State) (k : Nat) (c : Ctx) (b : Dword) :
    opSwait s k c a b = if c.entries.any (·.names a.toNat) then .waits s else .code rcOk s := by
  have hone : ¬bits a 6 1 = 1 := by simp only [bits]; omega
  have hlow : bits a 0 6 = a.toNat := by rw [bits_low]; exact Nat.mod_eq_of_lt ha
  rw [opSwait_eq, if_neg (by omega)]
  simp only [hone, decide_false, Bool.false_or, hlow]

section
variable {rd rs1 : Nat} {s : State} {c : Ctx} (hc : s.ctx s.cur = some c)
include hc

theorem swait_badArg (ha : 128 ≤ (c.xr rs1).toNat) : Retires (.swait rd rs1) s c rd 5 id :=
  retires_of_done (exec_swait s) hc ((opSwait_eq ..).trans (if_pos ha))

theorem swait_unnamed (ha : (c.xr rs1).toNat < 64) (hfree : ∀ e ∈ c.sb, e.freed = false → ∀ r ∈ e.reads ++ e.writes, r.handle ≠ (c.xr rs1).toNat) :
    Retires (.swait rd rs1) s c rd 0 id := by
  have hno : ¬(c.entries.any (·.names (c.xr rs1).toNat)) = true := by
    rw [c.any_names_iff]
    rintro ⟨e, he, hf, r, hr, hrh⟩
    exact hfree e he hf r hr hrh
  exact retires_of_done (exec_swait s) hc ((opSwait_handle ha ..).trans (if_neg hno))

theorem swait_empty (ha : (c.xr rs1).toNat < 128) (hfree : ∀ e ∈ c.sb, e.freed = true) : Retires (.swait rd rs1) s c rd 0 id := by
  refine retires_of_done (exec_swait s) hc ?_
  rw [opSwait_eq, if_neg (Nat.not_le.mpr ha), Ctx.entries_eq_nil hfree]
  rfl

theorem swait_waits (ha : (c.xr rs1).toNat < 64) (hused : ∃ e ∈ c.sb, e.freed = false ∧ ∃ r ∈ e.reads ++ e.writes, r.handle = (c.xr rs1).toNat) :
    Waits (.swait rd rs1) s c := waits_of_waits (exec_swait s) hc ((opSwait_handle ha ..).trans (if_pos ((c.any_names_iff _).mpr hused)))
end

end Sys2Proof.Machine
end

