-- ==== Sys2Proof/Proofs/DikesAndSync.lean ====
section
/-! PROOF. The dikes of groups and the sync objects of a launch (07 R180 to R182; 14 R365, R366). -/

namespace Sys2Proof.Machine

/-! ## Dikes (07 R180, R181) -/

/-- The meaning of SBAR or GSYNC: it looks its group up, and then takes the step of the dike, GSYNC once the scoreboard is empty. -/
structure DikeOp (op : State → Nat → Ctx → Dword → Dword → Ctl) : Prop where
  alien : ∀ {s : State} {k : Nat} {a : Dword}, (s.sp k).groupMap (a.toNat % 256) = none → ∀ c b, op s k c a b = .code rcNotMember s
  member : ∀ {s : State} {k : Nat} {a : Dword} {c : Ctx} {e port : Nat}, (s.sp k).groupMap (a.toNat % 256) = some (e, port) →
    KMap.find e c.sbar ≠ none ∨ c.sb = [] → ∀ b, op s k c a b = s.sbarStep k c e

theorem dikeOp_sbar : DikeOp opSbar where
  alien h c b := by simp only [opSbar, bits_low, Nat.reducePow, h]
  member h _ b := by simp only [opSbar, bits_low, Nat.reducePow, h]

theorem dikeOp_gsync : DikeOp opGsync where
  alien h c b := by simp only [opGsync, bits_low, Nat.reducePow, h]
  member h hgo b := by
    simp only [opGsync, bits_low, Nat.reducePow, h]
    refine if_neg ?_
    rw [Bool.and_eq_true, Option.isNone_iff_eq_none]
    rintro ⟨hnone, hbusy⟩
    rcases hgo with hgo | hgo
    · exact hgo hnone
    · rw [Ctx.fenceBusy_nil hgo] at hbusy
      exact absurd hbusy (by decide)

theorem exec_dikeOp {i : Nat → Nat → Instr} (h : i ∈ [Instr.sbar, .gsync]) (rd rs1 : Nat) :
    ∃ op, DikeOp op ∧ ∀ s, exec (i rd rs1) s = .next (s.localOp (i rd rs1) rd rs1 0 op) := by
  simp only [List.mem_cons, List.not_mem_nil, or_false] at h
  rcases h with rfl | rfl
  · exact ⟨_, dikeOp_sbar, fun s => exec_sbar s⟩
  · exact ⟨_, dikeOp_gsync, fun s => exec_gsync s⟩

/-- The arrival of SP `k` at a dike where it has not arrived. -/
def Group.arrive (g : Group) (k now : Nat) : Group :=
  { g with arrived := g.arrived ++ [k], last := now, full := decide (∀ m ∈ g.members, m ∈ g.arrived ++ [k]) }

theorem State.part_dikeArrive {s : State} {n e k : Nat} {p : Part} {g : Group} (hp : s.part n = some p) (hg : KMap.find e p.groups = some g)
    (hk : k ∉ g.arrived) : ∃ q, (s.dikeArrive n e k).part n = some q ∧ KMap.find e q.groups = some (g.arrive k s.now) := by
  refine ⟨_, by rw [State.dikeArrive, State.part_modPart_self, hp, Option.map_some], ?_⟩
  refine (KMap.find_upd e e _ _).trans ?_
  have hall : (g.members.all (g.arrived ++ [k]).contains) = decide (∀ m ∈ g.members, m ∈ g.arrived ++ [k]) := by
    rw [Bool.eq_iff_iff, List.all_eq_true, decide_eq_true_eq]
    simp only [List.contains_iff_mem]
  rw [if_pos rfl, hg, Option.map_some, if_neg (by simpa using hk)]
  simp only [hall]
  rfl

section
variable {i : Nat → Nat → Instr} {rd rs1 : Nat} {s : State} {c : Ctx} (hi : i ∈ [Instr.sbar, .gsync]) (hc : s.ctx s.cur = some c)
include hi hc

theorem dike_notMember (hmap : (s.sp s.cur).groupMap ((c.xr rs1).toNat % 256) = none) : Retires (i rd rs1) s c rd 7 id := by
  obtain ⟨op, hop, hexec⟩ := exec_dikeOp hi rd rs1
  exact retires_of_done (hexec s) hc (hop.alien hmap c _)

variable {e port : Nat} (hmap : (s.sp s.cur).groupMap ((c.xr rs1).toNat % 256) = some (e, port))
include hmap

theorem dike_released (hrel : KMap.find e c.sbar = some 2) : Retires (i rd rs1) s c rd 0 fun d => { d with sbar := KMap.del e d.sbar } := by
  obtain ⟨op, hop, hexec⟩ := exec_dikeOp hi rd rs1
  refine retires_of_done_mod (hexec s) hc ((hop.member hmap (.inl (by simp [hrel])) _).trans ?_) rfl
  rw [State.sbarStep, hrel]
  rfl

theorem dike_arrives (hnew : KMap.find e c.sbar = none) (hsb : c.sb = []) :
    ∃ t w, exec (i rd rs1) s = .next t ∧ t.ctx s.cur = some { c with sbar := KMap.ins e 1 c.sbar, wait := some w } ∧
      ∀ p g, s.part (s.partOf c) = some p → KMap.find e p.groups = some g → s.cur ∉ g.arrived →
        ∃ q, t.part (s.partOf c) = some q ∧ KMap.find e q.groups = some (g.arrive s.cur s.now) := by
  obtain ⟨op, hop, hexec⟩ := exec_dikeOp hi rd rs1
  have hstep : op s s.cur c (c.xr rs1) (c.xr 0) =
      .waits ((s.modCtx s.cur fun c => { c with sbar := KMap.ins e 1 c.sbar }).dikeArrive (s.partOf c) e s.cur) :=
    (hop.member hmap (.inr hsb) _).trans (by rw [State.sbarStep, hnew])
  obtain ⟨t, w, ht, hctx, hparts⟩ := waits_of_waits_parts (hexec s) hc hstep (withSp_modCtx hc _).ctx_self
  refine ⟨t, w, ht, hctx, fun p g hp hg hk => ?_⟩
  obtain ⟨q, hq, hgroup⟩ := State.part_dikeArrive (s := s.modCtx s.cur fun c => { c with sbar := KMap.ins e 1 c.sbar }) (n := s.partOf c)
    ((State.part_congr (State.modCtx_parts ..) _).trans hp) hg hk
  exact ⟨q, (State.part_congr hparts _).trans hq, by rwa [State.modCtx_now] at hgroup⟩
end

/-! ## Sync objects (07 R182) -/

/-- Holders and waiters are what was last written. -/
theorem Part.syncOf_setSync (p : Part) (launch obj : Nat) (h w : List (Nat × Bool)) : (p.setSync launch obj h w).syncOf launch obj = (h, w) := by
  have hrest : (p.sync.filter fun q => !(decide (q.1 = launch) && decide (q.2.1 = obj))).find? (fun q => decide (q.1 = launch) && decide (q.2.1 = obj)) = none := by
    rw [List.find?_eq_none]
    exact fun q hq => by simpa only [Bool.not_eq_true', Bool.not_eq_true] using (List.mem_filter.mp hq).2
  rw [Part.syncOf, Part.setSync, List.find?_append, hrest, Option.none_or]
  by_cases hnil : h.isEmpty && w.isEmpty
  · obtain ⟨hh, hw⟩ := Bool.and_eq_true_iff.mp hnil
    rw [List.isEmpty_iff] at hh hw
    rw [if_pos hnil, hh, hw]
    rfl
  · rw [if_neg hnil, List.find?_cons_of_pos (by simp)]

/-- The arguments of ACQ break no rule: the object is bound to a segment of the launch. -/
structure AcqArgs (s : State) (c : Ctx) (a b : Dword) : Prop where
  number : a.toNat < 0xFFFF
  mode : b.toNat < 8
  bound : ∃ l, s.launchOf c.launch = some l ∧ ∃ g ∈ l.segs, g.sync = a.toNat

section
variable {s : State} {c : Ctx} {a b : Dword} {p : Part} {hs ws : List (Nat × Bool)} (hp : s.part (s.partOf c) = some p)
  (hq : p.syncOf c.launch a.toNat = (hs, ws)) (k : Nat)
include hp hq

/-- ACQ by the holders and waiters of its object. -/
theorem opAcq_eq (g : AcqArgs s c a b) : opAcq s k c a b =
    if hs.any (·.1 = k) then .code rcBusy s
    else if grantable hs (ws.takeWhile (·.1 ≠ k)) (b.getLsbD 0) then
      .code rcOk (s.setPart (s.partOf c) (p.setSync c.launch a.toNat (hs ++ [(k, b.getLsbD 0)]) (ws.filter (·.1 ≠ k))))
    else if ws.any (·.1 = k) then .waits s
    else .waits (s.setPart (s.partOf c) (p.setSync c.launch a.toNat hs (ws ++ [(k, b.getLsbD 0)]))) := by
  obtain ⟨hnum, hmode, l, hl, seg, hseg, hsync⟩ := g
  have hbound : ((s.launchOf c.launch).any fun l => l.segs.any fun g => decide (g.sync = a.toNat)) = true := by
    rw [hl, Option.any_some, List.any_eq_true]
    exact ⟨seg, hseg, decide_eq_true hsync⟩
  have hgood : ¬(0xFFFF ≤ a.toNat ∨ !true ∨ bits b 3 61 ≠ 0) := by
    rw [bits_top b rfl]
    simp only [Bool.not_true, Bool.false_eq_true, false_or]
    omega
  simp only [opAcq, hp, hbound, if_neg hgood, hq, bits_one_eq_one, Bool.decide_eq_true]

/-- REL by the holders and waiters of its object. -/
theorem opRel_eq : opRel s k c a b =
    if !hs.any (·.1 = k) then .code rcNotHeld s
    else if s.writesPending k c (s.boundTo c a.toNat) then .waits s
    else .code rcOk (s.setPart (s.partOf c) (p.setSync c.launch a.toNat (hs.filter (·.1 ≠ k)) ws)) := by
  simp only [opRel, hp, hq]
end

/-- A context without copies has no write to perform. -/
theorem State.writesPending_none {s : State} {c : Ctx} (hsb : c.sb = []) (haccs : s.accs = []) (k : Nat) (f : Nat → Bool) :
    s.writesPending k c f = false := by simp [State.writesPending, hsb, haccs]

section
variable {rd rs1 rs2 : Nat} {s : State} {c : Ctx} {p : Part} (hc : s.ctx s.cur = some c) (hp : s.part (s.partOf c) = some p)
include hc hp

section
variable (g : AcqArgs s c (c.xr rs1) (c.xr rs2))
include g

/-- Without a holder, the request is granted. -/
theorem acq_granted (hq : p.syncOf c.launch (c.xr rs1).toNat = ([], [])) :
    ∃ t q, exec (.acq rd rs1 rs2) s = .next t ∧ t.ctx s.cur = some { c.setX rd 0 with pc := c.pc + 4, wait := none } ∧
      t.part (s.partOf c) = some q ∧ q.syncOf c.launch (c.xr rs1).toNat = ([(s.cur, (c.xr rs2).getLsbD 0)], []) := by
  have hgrant : grantable [] [] ((c.xr rs2).getLsbD 0) = true := by simp [grantable]
  obtain ⟨t, ht, hctx, hparts⟩ := done_of_done (rd := rd) (exec_acq s) hc ((opAcq_eq hp hq s.cur g).trans (if_pos hgrant)) hc
  exact ⟨t, _, ht, hctx, (State.part_congr hparts _).trans (State.part_setPart_self ..), Part.syncOf_setSync ..⟩

/-- Behind an exclusive holder, it waits in order. -/
theorem acq_behind {j : Nat} (hj : j ≠ s.cur) (hq : p.syncOf c.launch (c.xr rs1).toNat = ([(j, false)], [])) :
    ∃ t q w, exec (.acq rd rs1 rs2) s = .next t ∧ t.ctx s.cur = some { c with wait := some w } ∧ t.part (s.partOf c) = some q ∧
      q.syncOf c.launch (c.xr rs1).toNat = ([(j, false)], [(s.cur, (c.xr rs2).getLsbD 0)]) := by
  have hnot : ¬([(j, false)].any (·.1 = s.cur)) = true := by simp [hj]
  have hgrant : ¬grantable [(j, false)] [] ((c.xr rs2).getLsbD 0) = true := by simp [grantable]
  obtain ⟨t, w, ht, hctx, hparts⟩ := waits_of_waits_parts (exec_acq (rd := rd) s) hc
    ((opAcq_eq hp hq s.cur g).trans ((if_neg hnot).trans ((if_neg hgrant).trans (if_neg nofun)))) hc
  exact ⟨t, _, w, ht, hctx, (State.part_congr hparts _).trans (State.part_setPart_self ..), Part.syncOf_setSync ..⟩

theorem acq_busy {b : Bool} {ws : List (Nat × Bool)} (hq : p.syncOf c.launch (c.xr rs1).toNat = ([(s.cur, b)], ws)) :
    Retires (.acq rd rs1 rs2) s c rd 10 id :=
  retires_of_done (exec_acq s) hc ((opAcq_eq hp hq s.cur g).trans (if_pos (by simp)))
end

theorem rel_held {b : Bool} (hq : p.syncOf c.launch (c.xr rs1).toNat = ([(s.cur, b)], [])) (hsb : c.sb = []) (haccs : s.accs = []) :
    ∃ t q, exec (.rel rd rs1) s = .next t ∧ t.ctx s.cur = some { c.setX rd 0 with pc := c.pc + 4, wait := none } ∧
      t.part (s.partOf c) = some q ∧ q.syncOf c.launch (c.xr rs1).toNat = ([], []) := by
  have hheld : ¬(!([(s.cur, b)].any (·.1 = s.cur))) = true := by simp
  have hdone : ¬s.writesPending s.cur c (s.boundTo c (c.xr rs1).toNat) = true := by simp [State.writesPending_none hsb haccs]
  have hleft : [(s.cur, b)].filter (·.1 ≠ s.cur) = [] := by simp
  obtain ⟨t, ht, hctx, hparts⟩ := done_of_done (rd := rd) (exec_rel s) hc ((opRel_eq hp hq s.cur).trans ((if_neg hheld).trans (if_neg hdone))) hc
  refine ⟨t, _, ht, hctx, (State.part_congr hparts _).trans (State.part_setPart_self ..), ?_⟩
  rw [hleft, Part.syncOf_setSync]

theorem rel_notHeld (hq : p.syncOf c.launch (c.xr rs1).toNat = ([], [])) : Retires (.rel rd rs1) s c rd 9 id :=
  retires_of_done (exec_rel s) hc ((opRel_eq hp hq s.cur).trans (if_pos rfl))
end

end Sys2Proof.Machine
end

