-- ==== Sys2Proof/Proofs/Tokens.lean ====
section
/-! PROOF. TACQ and TREL at a home of this partition (07 R183; 15 R390; 23 R455). -/

namespace Sys2Proof.Machine

theorem State.sp_congr {s t : State} (h : t.sps = s.sps) (k : Nat) : t.sp k = s.sp k := by rw [State.sp, h, State.sp]

theorem State.ctx_congr {s t : State} (h : t.sps = s.sps) (k : Nat) : t.ctx k = s.ctx k := congrArg Sp.ctx (State.sp_congr h k)

/-! ## What the home does to its table (15 R389, R390) -/

@[simp] theorem State.tokSet_sps (s : State) (e : TokEntry) (c : Option TokCtx) : (s.tokSet e c).sps = s.sps := by
  cases c <;> rfl

/-- A request for a page changes no SP. -/
theorem State.sendOver_sps (s : State) (n input addr ready : Nat) (k : Packet) : (s.sendOver n input addr ready k).sps = s.sps := by
  unfold State.sendOver
  split <;> rfl

theorem State.askTable_sps (s : State) (part a : Nat) : (s.askTable part a).sps = s.sps := by
  unfold State.askTable State.askPage
  split
  · rfl
  · split
    · rfl
    · dsimp only
      split
      · exact State.sendOver_sps ..
      · rfl

/-- A request behind those that wait for a token. -/
def Part.tokJoin (p : Part) (t : TokCtx) (r sp : Nat) : Part := { p with tokWait := p.tokWait ++ [⟨t.pkg, t.launch, t.rank, t.part, r, sp⟩] }

section
variable {s : State} {n r sp : Nat} {t : TokCtx} {p : Part} (hp : s.part n = some p)
include hp

theorem State.tokAsk_absent {a : Nat} (ha : p.tokAbsent r = some a) : s.tokAsk n r t sp = (.absent, s.askTable n a) := by
  simp only [State.tokAsk, hp, ha]

variable {e : TokEntry} (ha : p.tokAbsent r = none) (he : s.tokEntry p r = some e)
include ha he

theorem State.tokAsk_home (hheld : e.held = false) : s.tokAsk n r t sp = (.ok, s.tokSet e (some t)) := by
  simp [State.tokAsk, hp, ha, he, TokEntry.heldBy, hheld]

theorem State.tokAsk_queue (hheld : e.held = true) (hother : e.rank ≠ t.rank ∨ e.launch ≠ t.launch) (hnone : p.tokWait = []) :
    s.tokAsk n r t sp = (.waits, s.setPart n (p.tokJoin t r sp)) := by
  have hby : e.heldBy t = false := by rcases hother with h | h <;> simp [TokEntry.heldBy, h]
  simp [State.tokAsk, Part.tokJoin, hp, ha, he, hby, hheld, hnone]
end

theorem State.tokGive_home {s : State} {n r : Nat} {t : TokCtx} {p : Part} {e : TokEntry} (hp : s.part n = some p) (he : s.tokEntry p r = some e)
    (hheld : e.heldBy t = true) (hnone : ∀ w ∈ p.tokWait, w.region ≠ r) : s.tokGive n r t = (true, s.tokSet e none) := by
  have hfind : (p.tokWait.find? fun w => decide (w.region = r)) = none := by simpa using hnone
  simp [State.tokGive, hp, he, hheld, hfind]

/-! ## What the context asks -/

/-- What a context that has been answered holds of the region. -/
def Ctx.noted (c : Ctx) (r v : Nat) : Ctx := { c with tokens := KMap.ins r v c.tokens }

@[simp] theorem Ctx.find_noted (c : Ctx) (r v : Nat) : KMap.find r (c.noted r v).tokens = some v := KMap.find_ins_self _ _ _

section
variable {s : State} {k ia : Nat} {c : Ctx} (hc : s.ctx k = some c)
include hc

/-- A context that holds a token, or has asked for it, does not ask. -/
theorem State.tokWant_known {v : Nat} (hv : KMap.find (ia / 2 ^ 21) c.tokens = some v) : s.tokWant k ia = s := by
  simp only [State.tokWant, State.withCtx_of_ctx hc, hv]

/-- One that has not asks its home, and notes the answer. -/
theorem State.tokWant_asks {r : TokAnswer} {t : State} (hnone : KMap.find (ia / 2 ^ 21) c.tokens = none) (hwin : iaWindow ia = 0)
    (hask : s.tokAsk (s.partOf c) (ia / 2 ^ 21) (s.tokName c) k = (r, t)) :
    s.tokWant k ia = t.modCtx k fun c => c.noted (ia / 2 ^ 21) (r.note t.now) := by
  simp only [State.tokWant, State.withCtx_of_ctx hc, hnone, if_pos hwin, hask]
  rfl
end

/-! ## TACQ (07 R183) -/

/-- What a TACQ that waits notes at cycle `now`: the limit counts from its first try. -/
def Ctx.tacqWait (c : Ctx) (a b : Dword) (now : Nat) : Wait :=
  { c.waiting (.tacq 0 0 0) a b with limit := (c.wait.map (·.limit)).getD (if b = 0 then none else some (now + b.toNat)) }

section
variable {s t : State} {k ia : Nat} {c d : Ctx} {a b : Dword} (hia : s.tokIa c a = some ia) (ht : s.tokWant k ia = t) (hd : t.ctx k = some d)
include hia ht hd

theorem opTacq_holds (hv : KMap.find (ia / 2 ^ 21) d.tokens = some 1) : opTacq s k c a b = .code rcOk t := by
  simp only [opTacq, hia, ht, hd, Option.bind_some, hv]

/-- Any other note than "held" and "unchecked" makes it wait. -/
theorem opTacq_waits {v : Nat} (hv : KMap.find (ia / 2 ^ 21) d.tokens = some v) (h1 : v ≠ 1) (h2 : v ≠ 2) :
    opTacq s k c a b = .waits (t.modCtx k fun c => { c with wait := some (c.tacqWait a b s.now) }) := by
  simp only [opTacq, hia, ht, hd, Option.bind_some, hv]
  split
  · rename_i h
    exact absurd (Option.some.inj h) h1
  · rename_i h
    exact absurd (Option.some.inj h) h2
  · rfl
end

section
variable {rd rs1 rs2 : Nat} {s t u : State} {c d : Ctx} (hc : s.ctx s.cur = some c)
include hc

/-- What TACQ does after its answer changes no more than the instruction that a wait names. -/
theorem exec_tacq_of_answer {r : Ctl} (hop : opTacq s s.cur c (c.xr rs1) (c.xr rs2) = r) : exec (.tacq rd rs1 rs2) s =
    .next ((State.ctl s.cur (.tacq rd rs1 rs2) rd (c.xr rs1) (c.xr rs2) r).modCtx s.cur fun d =>
      if c.wait.isNone then { d with wait := d.wait.map fun w => { w with instr := .tacq rd rs1 rs2 } } else d) := by
  rw [exec_withCtx (exec_tacq s) hc, State.localOp, State.withCtx_of_ctx hc, hop]

/-- TACQ that is answered with a code. -/
theorem tacq_done {code : Nat} (hop : opTacq s s.cur c (c.xr rs1) (c.xr rs2) = .code code u) (hw : WithSp t s.cur { s.sp s.cur with ctx := some d } u) :
    ∃ v, exec (.tacq rd rs1 rs2) s = .next v ∧
      WithSp t s.cur { s.sp s.cur with ctx := some { d.setX rd (BitVec.ofNat 64 code) with pc := d.pc + 4, wait := none } } v := by
  refine ⟨_, exec_tacq_of_answer hc hop, ((hw.modCtx rfl fun c => c.retire rd (BitVec.ofNat 64 code)).modCtx rfl _).congr ?_⟩
  rw [Ctx.retire_eq]
  split <;> rfl

theorem tacq_retires {code : Nat} (hop : opTacq s s.cur c (c.xr rs1) (c.xr rs2) = .code code s) :
    Retires (.tacq rd rs1 rs2) s c rd (BitVec.ofNat 64 code) id := tacq_done hc hop (withSp_same hc)

/-- TACQ that waits. -/
theorem tacq_waits {w : Ctx → Option Wait} (hop : opTacq s s.cur c (c.xr rs1) (c.xr rs2) = .waits (u.modCtx s.cur fun c => { c with wait := w c }))
    (hd : u.ctx s.cur = some d) :
    ∃ v e, exec (.tacq rd rs1 rs2) s = .next v ∧ v.parts = u.parts ∧ v.ctx s.cur = some e ∧ e.pc = d.pc ∧ e.x = d.x ∧ e.wait.isSome = true := by
  refine ⟨_, _, exec_tacq_of_answer hc hop, by simp [State.ctl], by simp [State.ctl, hd]; rfl, ?_⟩
  split <;> simp
end

section
variable {rd rs1 rs2 ia : Nat} {s : State} {c : Ctx} (hc : s.ctx s.cur = some c)
include hc

theorem token_badArg (hia : s.tokIa c (c.xr rs1) = none) : Retires (.tacq rd rs1 rs2) s c rd 5 id ∧ Retires (.trel rd rs1) s c rd 5 id :=
  ⟨tacq_retires hc (by simp only [opTacq, hia]), retires_of_done (exec_trel s) hc (by simp only [opTrel, hia]; rfl)⟩

variable (hia : s.tokIa c (c.xr rs1) = some ia)
include hia

theorem tacq_held (hv : KMap.find (ia / 2 ^ 21) c.tokens = some 1) : Retires (.tacq rd rs1 rs2) s c rd 0 id :=
  tacq_retires hc (opTacq_holds hia (State.tokWant_known hc hv) hc hv)

theorem trel_notHeld (hv : KMap.find (ia / 2 ^ 21) c.tokens = none) : Retires (.trel rd rs1) s c rd 9 id :=
  retires_of_done (exec_trel s) hc (by simp only [opTrel, hia, hv]; rfl)

section
variable {p : Part} (hwin : iaWindow ia = 0) (hp : s.part (s.partOf c) = some p) (hv : KMap.find (ia / 2 ^ 21) c.tokens = none)
include hwin hp hv

/-- The table's page has not come (23 R455). -/
theorem tacq_absent (habs : (p.tokAbsent (ia / 2 ^ 21)).isSome = true) :
    ∃ t d, exec (.tacq rd rs1 rs2) s = .next t ∧ t.ctx s.cur = some d ∧ d.pc = c.pc ∧ d.x = c.x ∧ d.wait.isSome = true := by
  obtain ⟨page, hpage⟩ := Option.isSome_iff_exists.mp habs
  have hctx := (State.ctx_congr (State.askTable_sps s (s.partOf c) page) s.cur).trans hc
  have hwant := State.tokWant_asks hc hv hwin (State.tokAsk_absent hp hpage)
  have hop := opTacq_waits (b := c.xr rs2) hia hwant (withSp_modCtx hctx _).ctx_self (Ctx.find_noted c _ _)
    (by simp only [TokAnswer.note]; omega) (by simp only [TokAnswer.note]; omega)
  obtain ⟨t, d, ht, -, hd, hpc, hx, hwait⟩ := tacq_waits (rd := rd) hc hop (withSp_modCtx hctx _).ctx_self
  exact ⟨t, d, ht, hd, hpc, hx, hwait⟩

variable {e : TokEntry} (habs : p.tokAbsent (ia / 2 ^ 21) = none) (he : s.tokEntry p (ia / 2 ^ 21) = some e)
include habs he

/-- The token is at home: it is taken. -/
theorem tacq_home (hheld : e.held = false) : ∃ t, exec (.tacq rd rs1 rs2) s = .next t ∧
    WithSp (s.tokSet e (some (s.tokName c))) s.cur { s.sp s.cur with
      ctx := some { c.setX rd 0 with tokens := KMap.ins (ia / 2 ^ 21) 1 c.tokens, pc := c.pc + 4, wait := none } } t := by
  have hsps := State.tokSet_sps s e (some (s.tokName c))
  have hctx := (State.ctx_congr hsps s.cur).trans hc
  have hwant := State.tokWant_asks hc hv hwin (State.tokAsk_home hp habs he hheld)
  have hw := withSp_modCtx hctx fun c => c.noted (ia / 2 ^ 21) 1
  obtain ⟨t, ht, hdone⟩ := tacq_done (rd := rd) hc (opTacq_holds (b := c.xr rs2) hia hwant hw.ctx_self (Ctx.find_noted c _ _)) (State.sp_congr hsps s.cur ▸ hw)
  exact ⟨t, ht, hdone.congr (by simp only [Ctx.setX_eq, Ctx.noted]; rfl)⟩

/-- Another context holds it: the request joins the queue. -/
theorem tacq_queue (hheld : e.held = true) (hother : e.rank ≠ c.rank ∨ e.launch ≠ c.launch) (hnone : p.tokWait = []) :
    ∃ t d, exec (.tacq rd rs1 rs2) s = .next t ∧
      t.part (s.partOf c) = some { p with tokWait := [⟨s.dev.pkg, c.launch, c.rank, s.partOf c, ia / 2 ^ 21, s.cur⟩] } ∧
      t.ctx s.cur = some d ∧ d.pc = c.pc ∧ d.x = c.x ∧ d.wait.isSome = true := by
  have hctx : (s.setPart (s.partOf c) (p.tokJoin (s.tokName c) (ia / 2 ^ 21) s.cur)).ctx s.cur = some c := hc
  have hwant := State.tokWant_asks hc hv hwin (State.tokAsk_queue (t := s.tokName c) hp habs he hheld hother hnone)
  have hw := (withSp_modCtx hctx fun c => c.noted (ia / 2 ^ 21) 0).ctx_self
  obtain ⟨t, d, ht, hparts, hd, hpc, hx, hwait⟩ := tacq_waits (rd := rd) hc
    (opTacq_waits (b := c.xr rs2) hia hwant hw (Ctx.find_noted c _ _) (by decide) (by decide)) hw
  refine ⟨t, d, ht, ?_, hd, hpc, hx, hwait⟩
  rw [State.part_congr (hparts.trans (State.modCtx_parts ..)), State.part_setPart_self, Part.tokJoin, hnone]
  rfl
end

/-! ## TREL (07 R183) -/

/-- The context holds the token, and nobody waits for it. -/
theorem trel_home {p : Part} {e : TokEntry} (hwin : iaWindow ia = 0) (hp : s.part (s.partOf c) = some p) (habs : p.tokAbsent (ia / 2 ^ 21) = none)
    (he : s.tokEntry p (ia / 2 ^ 21) = some e) (hv : KMap.find (ia / 2 ^ 21) c.tokens = some 1) (hheld : e.heldBy (s.tokName c) = true)
    (hnone : ∀ w ∈ p.tokWait, w.region ≠ ia / 2 ^ 21) (hsb : c.sb = []) (haccs : s.accs = []) :
    ∃ t, exec (.trel rd rs1) s = .next t ∧ WithSp (s.tokSet e none) s.cur { s.sp s.cur with
      ctx := some { c.setX rd 0 with tokens := KMap.del (ia / 2 ^ 21) c.tokens, pc := c.pc + 4, wait := none } } t := by
  have hhere : s.tokHere c ia = none := by rw [State.tokHere, if_pos hwin, State.tokAbsent, hp]; exact habs
  have hop : opTrel s s.cur c (c.xr rs1) (c.xr 0) =
      .code rcOk ((s.tokSet e none).modCtx s.cur fun c => { c with tokens := KMap.del (ia / 2 ^ 21) c.tokens }) := by
    simp only [opTrel, hia, hv, State.writesPending_none hsb haccs, hhere, State.tokRelease, if_pos hwin, State.tokGive_home hp he hheld hnone]
    rfl
  have hsps := State.tokSet_sps s e none
  have hw := withSp_modCtx ((State.ctx_congr hsps s.cur).trans hc) fun c => { c with tokens := KMap.del (ia / 2 ^ 21) c.tokens }
  refine ⟨_, exec_of_answer (exec_trel s) hc hop, ((State.sp_congr hsps s.cur ▸ hw).modCtx rfl fun c => c.retire rd 0).congr ?_⟩
  simp only [Ctx.retire_eq, Ctx.setX_eq]
end

/-! ## TACQ_TIMEOUT (07 R183) -/

theorem tacqTimeout_withdraws {k rd x y tm ia : Nat} {s : State} {c : Ctx} {w : Wait} (hc : s.ctx k = some c) (hw : c.wait = some w)
    (hi : w.instr = .tacq rd x y) (hlimit : w.limit = some tm) (htm : tm ≤ s.now) (hia : s.tokIa c w.rs1 = some ia) (hwin : iaWindow ia = 0) :
    ∃ t, exec (.tacqTimeout k) s = .next t ∧ WithSp (s.tokWithdraw (s.partOf c) (ia / 2 ^ 21) (s.tokName c)) k { s.sp k with
      ctx := some { c.setX rd 8 with tokens := KMap.del (ia / 2 ^ 21) c.tokens, pc := c.pc + 4, wait := none } } t := by
  have hstep : exec (.tacqTimeout k) s = .next ((s.tokWithdraw (s.partOf c) (ia / 2 ^ 21) (s.tokName c)).modCtx k fun c =>
      { c with tokens := KMap.del (ia / 2 ^ 21) c.tokens }.retire rd 8) := by
    rw [exec_withCtx (exec_tacqTimeout s) hc]
    simp only [hw, hi, hlimit, if_neg (Nat.not_lt.mpr htm), hia, if_pos hwin]
    rfl
  refine ⟨_, hstep, (withSp_modCtx (s := s.tokWithdraw (s.partOf c) (ia / 2 ^ 21) (s.tokName c)) hc _).congr ?_⟩
  simp only [Ctx.retire_eq, Ctx.setX_eq]
  rfl

end Sys2Proof.Machine

namespace Sys2Proof
open Machine

/-- Settles O19: each instruction by its rule: it retires once its condition holds, and waits before that. -/
theorem waitingInstructions : Obligations.WaitingInstructions := by
  refine ⟨fun rd rs1 rs2 h o p s c hc hp hh ho halign hr => ?_, fun rd rs1 s c hc => ?_, fun i rd rs1 s c hi hc => ?_,
    fun rd rs1 rs2 obj s c p l g hc hp hl hg hsync hobj ha hb => ?_, fun rd rs1 rs2 s c hc hia => token_badArg hc hia,
    fun rd rs1 rs2 ia s c p e hc hia hwin hp he => ?_, fun k rd rs1 s c w hc hw hi ha hfree => controllerWaitEnd_fencex hc hw hi ha hfree,
    fun k rd x y tm ia s c w hc hw hi hlimit htm hia hwin => tacqTimeout_withdraws hc hw hi hlimit htm hia hwin⟩
  · exact ⟨awinit_step hc hp hh ho halign hr, await_reached hc hp hh ho halign hr, await_before hc hp hh ho halign hr⟩
  · exact ⟨fencex_badArg hc, fencex_free hc, fencex_waits hc, swait_badArg hc, swait_unnamed hc, swait_empty hc, swait_waits hc⟩
  · exact ⟨dike_notMember hi hc, fun e port hmap => ⟨dike_released hi hc hmap, dike_arrives hi hc hmap⟩⟩
  · subst ha
    have g : AcqArgs s c (c.xr rs1) (c.xr rs2) := ⟨hobj, hb, l, hl, _, hg, hsync⟩
    exact ⟨acq_granted hc hp g, fun j hj hq => acq_behind hc hp g hj hq, fun b ws hq => acq_busy hc hp g hq, fun b hq hsb haccs => rel_held hc hp hq hsb haccs,
      rel_notHeld hc hp⟩
  · refine ⟨tacq_held hc hia, trel_notHeld hc hia, fun hv habs => tacq_absent hc hia hwin hp hv habs, fun habs => ⟨fun hv hheld => ?_, ?_, ?_⟩⟩
    · exact tacq_home hc hia hwin hp hv habs he hheld
    · exact fun hv hheld hother hnone => tacq_queue hc hia hwin hp hv habs he hheld hother hnone
    · intro hv hheld hrank hlaunch hnone hsb haccs
      exact trel_home hc hia hwin hp habs he hv (by simp [TokEntry.heldBy, hheld, hrank, hlaunch, State.tokName]) hnone hsb haccs

end Sys2Proof
end

