-- ==== Sys2Proof/Proofs/TaskWeights.lean ====
section
/-! PROOF. SPAWN, TSPLIT and TRESEED: the weight of a task, and the pool that it joins (07 R184; 02 R64 to R66). -/

namespace Sys2Proof.Machine

/-! ## A launch after a reseed -/

theorem find?_updFirst_map {α : Type} {q : α → Bool} {f : α → α} (hf : ∀ x, q (f x) = q x) (l : List α) :
    (updFirst q f l).find? q = (l.find? q).map f := by
  induction l with
  | nil => rfl
  | cons x l ih =>
    by_cases hx : q x = true
    · simp [updFirst, hx, hf]
    · simp [updFirst, hx, ih]

/-- A change of a launch that keeps the identifiers, whether the launch is there or not. -/
theorem State.launchOf_modLaunch_map (s : State) (id : Nat) {f : Launch → Launch} (hf : ∀ l, (f l).id = l.id) :
    (s.modLaunch id f).launchOf id = (s.launchOf id).map f :=
  find?_updFirst_map (q := fun l : Launch => decide (l.id = id)) (fun l => by simp only [hf]) s.launches

theorem State.launchOf_reseed (s : State) (id : Nat) : (s.reseed id).launchOf id = (s.launchOf id).map fun l => { l with t := l.t + 2 ^ 32 } :=
  s.launchOf_modLaunch_map id fun _ => rfl

/-! ## SPAWN (07 R184) -/

/-- The operands of SPAWN break no rule of its arguments: entry `e` and group `g` in rs1, the address of the task's argument in rs2. -/
structure SpawnArgs (s : State) (c : Ctx) (a b : Dword) (e g : Nat) : Prop where
  fields : a.toNat = e + 2 ^ 32 * g
  group : g < 256
  entry : e < 2 ^ 32
  even : e % 2 = 0
  inside : ∃ o, s.codeOfCtx c = some o ∧ e < o.ctrl.length
  aligned : b.toNat % 8 = 0
  below : b.toNat < 0x38000

section
variable {s : State} {c : Ctx} {a b : Dword} {e g : Nat} (ha : SpawnArgs s c a b e g)
include ha

theorem SpawnArgs.bits_entry : bits a 0 32 = e := by
  have hf := ha.fields
  have he := ha.entry
  simp only [bits]
  omega

theorem SpawnArgs.bits_group : bits a 32 8 = g := by
  have hf := ha.fields
  have he := ha.entry
  have hg := ha.group
  simp only [bits]
  omega

/-- Only the group and its pool can refuse. -/
theorem SpawnArgs.code_eq : spawnCode s c a b = firstCode [(((s.sp s.cur).groupMap g).isNone, rcNotMember),
    (((s.sp s.cur).groupMap g).any fun q => ((s.part (s.partOf c)).bind fun p => KMap.find q.1 p.groups).any fun g => decide (4096 ≤ g.pool.length), rcPoolFull)] := by
  obtain ⟨o, ho, hlen⟩ := ha.inside
  have htop : ¬bits a 40 24 ≠ 0 := by
    have hf := ha.fields
    have he := ha.entry
    have hg := ha.group
    simp only [bits]
    omega
  have hodd : ¬e % 2 = 1 := by have := ha.even; omega
  have hfit : ¬o.ctrl.length ≤ e := Nat.not_le.mpr hlen
  have halign : ¬b.toNat % 8 ≠ 0 := not_not.mpr ha.aligned
  have hbelow : ¬0x38000 ≤ b.toNat := Nat.not_le.mpr ha.below
  simp only [spawnCode, ha.bits_entry, ha.bits_group, ho, Option.map_some, Option.getD_some, htop, hodd, hfit, halign, hbelow, decide_false, Bool.or_self]
  rfl

theorem SpawnArgs.code_alien (hmap : (s.sp s.cur).groupMap g = none) : spawnCode s c a b = 7 := by
  rw [ha.code_eq, hmap]
  rfl

variable {n port : Nat} {p : Part} {q : Group} (hmap : (s.sp s.cur).groupMap g = some (n, port)) (hp : s.part (s.partOf c) = some p)
  (hq : KMap.find n p.groups = some q)
include hmap hp hq

theorem SpawnArgs.code_member : spawnCode s c a b = if 4096 ≤ q.pool.length then 6 else 0 := by
  rw [ha.code_eq, hmap, hp]
  simp [firstCode, hq]

end

/-- The weight that a context holds when it spawns: a weight of 1 is reseeded first (02 R65). -/
def Ctx.spawnWeight (c : Ctx) : Nat := if c.hw = 1 then c.hw + 2 ^ 32 else c.hw

/-- The state after that reseed. -/
def State.spawnSeed (s : State) (c : Ctx) : State := if c.hw = 1 then s.reseed c.launch else s

theorem State.spawnSeed_parts (s : State) (c : Ctx) : (s.spawnSeed c).parts = s.parts := by unfold State.spawnSeed; split <;> rfl

theorem State.launchOf_spawnSeed (s : State) (c : Ctx) :
    (s.spawnSeed c).launchOf c.launch = (s.launchOf c.launch).map fun l => if c.hw = 1 then { l with t := l.t + 2 ^ 32 } else l := by
  unfold State.spawnSeed
  split
  · exact s.launchOf_reseed c.launch
  · exact Option.map_id'.symm

/-- A task at the end of the pool of a group entry. -/
def Part.spawn (p : Part) (n : Nat) (r : Nat × List Byte × Nat) : Part := { p with groups := KMap.upd n (fun g => { g with pool := g.pool ++ [r] }) p.groups }

section
variable {rd rs1 rs2 : Nat} {s : State} {c : Ctx} (hc : s.ctx s.cur = some c)
include hc

theorem spawn_refused {code : Nat} (hcode : spawnCode s c (c.xr rs1) (c.xr rs2) = code) (hne : code ≠ 0) :
    Retires (.spawn rd rs1 rs2) s c rd (BitVec.ofNat 64 code) id := by
  have hi : exec (.spawn rd rs1 rs2) s = .next (s.retireCode rd code) := by
    rw [exec_withCtx (exec_spawn s) hc]
    simp only [hcode, if_pos hne]
  exact (ctxStep_mod _ hc hi).congr (c.retire_eq rd _)

/-- The task takes its part of the weight, and joins the pool (02 R65). -/
theorem spawn_joins {e g n port w : Nat} {p : Part} {q : Group} (ha : SpawnArgs s c (c.xr rs1) (c.xr rs2) e g) (hmap : (s.sp s.cur).groupMap g = some (n, port)) (hp : s.part (s.partOf c) = some p)
    (hq : KMap.find n p.groups = some q) (hroom : q.pool.length < 4096) (hw : w = c.split.getD (c.spawnWeight / 2)) :
    ∃ t p', exec (.spawn rd rs1 rs2) s = .next t ∧
      t.ctx s.cur = some { c.setX rd 0 with hw := c.spawnWeight - w, split := none, pc := c.pc + 4, wait := none } ∧
      t.part (s.partOf c) = some p' ∧ KMap.find n p'.groups = some { q with pool := q.pool ++ [(e, bytesRead (s.sp s.cur).cm (c.xr rs2).toNat 32, w)] } ∧
      t.launchOf c.launch = (s.launchOf c.launch).map fun l => if c.hw = 1 then { l with t := l.t + 2 ^ 32 } else l := by
  subst hw
  have hcode : ¬spawnCode s c (c.xr rs1) (c.xr rs2) ≠ 0 := by rw [ha.code_member hmap hp hq, if_neg (Nat.not_le.mpr hroom)]; decide
  have hi : exec (.spawn rd rs1 rs2) s = .next (((s.spawnSeed c).modPart (s.partOf c) fun p =>
      p.spawn n (e, bytesRead (s.sp s.cur).cm (c.xr rs2).toNat 32, c.split.getD (c.spawnWeight / 2))).setCtx s.cur
        ({ c with hw := c.spawnWeight - c.split.getD (c.spawnWeight / 2), split := none }.retire rd 0)) := by
    rw [exec_withCtx (exec_spawn s) hc]
    simp only [if_neg hcode, ha.bits_entry, ha.bits_group, hmap]
    rfl
  refine ⟨_, p.spawn n (e, bytesRead (s.sp s.cur).cm (c.xr rs2).toNat 32, c.split.getD (c.spawnWeight / 2)), hi, ?_, ?_, ?_, s.launchOf_spawnSeed c⟩
  · simp only [State.ctx_setCtx_self, Ctx.retire_eq, Ctx.setX_eq]
  · refine (State.part_modPart_self (s.spawnSeed c) (s.partOf c) _).trans ?_
    rw [State.part_congr (s.spawnSeed_parts c), hp, Option.map_some]
  · exact (KMap.find_upd n n _ _).trans (by rw [if_pos rfl, hq, Option.map_some])
end

/-! ## TSPLIT and TRESEED (02 R66) -/

section
variable {rd rs1 : Nat} {s : State} {c : Ctx} (hc : s.ctx s.cur = some c)
include hc

theorem tsplit_keeps (hlo : 1 ≤ (c.xr rs1).toNat) (hhi : (c.xr rs1).toNat + 1 ≤ c.hw) :
    Retires (.tsplit rd rs1) s c rd 0 fun d => { d with split := some (c.xr rs1).toNat } := by
  refine (ctxStep_mod _ hc (exec_tsplit s)).congr ?_
  rw [if_pos ⟨hlo, hhi⟩, Ctx.retire_eq]

theorem tsplit_badArg (hbad : (c.xr rs1).toNat = 0 ∨ c.hw ≤ (c.xr rs1).toNat) : Retires (.tsplit rd rs1) s c rd 5 id := by
  refine (ctxStep_mod _ hc (exec_tsplit s)).congr ?_
  rw [if_neg (by omega), Ctx.retire_eq]
  rfl

theorem treseed_badArg (hbig : 2 ^ 63 ≤ c.hw) : Retires (.treseed rd) s c rd 5 id := by
  have hi : exec (.treseed rd) s = .next (s.retireCode rd rcBadArg) := by rw [exec_withCtx (exec_treseed s) hc, if_pos hbig]
  exact (ctxStep_mod _ hc hi).congr (c.retire_eq rd _)

theorem treseed_raises (hsmall : c.hw < 2 ^ 63) :
    ∃ t, exec (.treseed rd) s = .next t ∧ t.ctx s.cur = some { c.setX rd 0 with hw := c.hw + 2 ^ 32, pc := c.pc + 4, wait := none } ∧
      t.launchOf c.launch = (s.launchOf c.launch).map fun l => { l with t := l.t + 2 ^ 32 } := by
  have hi : exec (.treseed rd) s = .next ((s.reseed c.launch).setCtx s.cur ({ c with hw := c.hw + 2 ^ 32 }.retire rd 0)) := by
    rw [exec_withCtx (exec_treseed s) hc, if_neg (Nat.not_le.mpr hsmall)]
  refine ⟨_, hi, ?_, s.launchOf_reseed c.launch⟩
  simp only [State.ctx_setCtx_self, Ctx.retire_eq, Ctx.setX_eq]
end

end Sys2Proof.Machine
end

