-- ==== Sys2Proof/Proofs/TaskEnds.lean ====
section
/-! PROOF. TEXIT and the start of the next task on the SP (07 R185; 02 R67, R68). -/

namespace Sys2Proof.Machine

/-! ## TEXIT (07 R185) -/

theorem texit_waits {s : State} {c : Ctx} (hc : s.ctx s.cur = some c) (hbusy : ∃ e ∈ c.sb, e.freed = false) : Waits .texit s c := by
  obtain ⟨e, he, hfreed⟩ := hbusy
  have hne : c.entries ≠ [] := List.ne_nil_of_mem (Ctx.mem_entries.mpr ⟨he, hfreed⟩)
  have hwait : s.texitWaits s.cur c = true := by simp [State.texitWaits, hne]
  exact ⟨_, ctxStep_mod (fun c => { c with wait := some (c.waiting .texit 0 0) }) hc (by rw [exec_withCtx (exec_texit s) hc, if_pos hwait])⟩

theorem State.texitWaits_none {s : State} {c : Ctx} (hsb : c.sb = []) (haccs : s.accs = []) (k : Nat) : s.texitWaits k c = false := by
  cases hp : s.part (s.partOf c) <;> simp [State.texitWaits, Ctx.entries, hsb, State.writesPending_none hsb haccs, hp]

/-- An SP whose context has exited. -/
def Sp.exit (p : Sp) (c : Ctx) : Sp := { p with ctx := none, left := some { c with wait := none }, idle := true }

/-- A context has exited and its weight has come home, before the launch is looked at (02 R67). -/
def State.exited (s : State) (k : Nat) (c : Ctx) : State :=
  ((s.modPart (s.partOf c) fun p => p.dropHolds c.launch k).modSp k fun p => p.exit c).modLaunch c.launch fun l => { l with ret := l.ret + c.hw }

section
variable (s : State) (k : Nat) (c : Ctx)

theorem State.exited_sp_self : (s.exited k c).sp k = (s.sp k).exit c :=
  State.sp_modSp_self (s.modPart (s.partOf c) fun p => p.dropHolds c.launch k) k fun p => p.exit c

theorem State.exited_sp_other {j : Nat} (hj : j ≠ k) : (s.exited k c).sp j = s.sp j :=
  State.sp_modSp_other (s.modPart (s.partOf c) fun p => p.dropHolds c.launch k) hj fun p => p.exit c

theorem State.launchOf_exited : (s.exited k c).launchOf c.launch = (s.launchOf c.launch).map fun l => { l with ret := l.ret + c.hw } :=
  State.launchOf_modLaunch_map _ c.launch fun _ => rfl

theorem State.exitContext_eq : s.exitContext k c =
    if ((s.exited k c).launchOf c.launch).any fun l => decide (l.ret = l.t) then (s.exited k c).endLaunch c.launch 0 0xFFFF 0 0 0 else s.exited k c := rfl
end

/-- An SP that is listed, when a launch has ended. -/
theorem State.sp_endLaunch {s : State} {l : Launch} {id k : Nat} (hl : s.launchOf id = some l) (hcause : l.cause = none) (hk : s.sp k ≠ Sp.init)
    (cause rank word addr pc : Nat) : (s.endLaunch id cause rank word addr pc).sp k = (s.sp k).endLaunch id := by
  rw [State.sp, s.sps_endLaunch hl hcause, KMap.get, KMap.find_mapValues fun _ => Sp.endLaunch id, State.find_sps hk]
  rfl

/-- A context without commands exits; the launch ends with cause OK once all of its weight has come home. -/
theorem texit_exits {s : State} {c : Ctx} {l : Launch} (hc : s.ctx s.cur = some c) (hsb : c.sb = []) (haccs : s.accs = [])
    (hl : s.launchOf c.launch = some l) (hcause : l.cause = none) : ∃ t m, exec .texit s = .next t ∧
      t.sp s.cur = { (s.sp s.cur).exit c with victims := (t.sp s.cur).victims } ∧ t.launchOf c.launch = some m ∧ m.ret = l.ret + c.hw ∧ m.t = l.t ∧
      (l.ret + c.hw ≠ l.t → m.cause = none ∧ m.state = l.state ∧ (t.sp s.cur).victims = (s.sp s.cur).victims ∧ ∀ j, j ≠ s.cur → t.sp j = s.sp j) ∧
      (l.ret + c.hw = l.t → m.cause = some 0 ∧ m.state = 2) := by
  have hi : exec .texit s = .next (s.exitContext s.cur c) := by
    rw [exec_withCtx (exec_texit s) hc, if_neg (by simp [State.texitWaits_none hsb haccs])]
  have hsp := s.exited_sp_self s.cur c
  have hm : (s.exited s.cur c).launchOf c.launch = some { l with ret := l.ret + c.hw } := by rw [s.launchOf_exited, hl, Option.map_some]
  rw [s.exitContext_eq, hm, Option.any_some] at hi
  by_cases hhome : l.ret + c.hw = l.t
  · rw [if_pos (decide_eq_true hhome)] at hi
    have hlisted : (s.exited s.cur c).sp s.cur ≠ Sp.init := by
      rw [hsp]
      exact fun h => nomatch congrArg Sp.left h
    have hend := State.sp_endLaunch hm hcause hlisted 0 0xFFFF 0 0 0
    exact ⟨_, _, hi, by rw [hend, hsp]; rfl, State.launchOf_endLaunch hm hcause .., rfl, rfl, fun h => absurd hhome h, fun _ => ⟨rfl, rfl⟩⟩
  · rw [if_neg (by simpa using hhome)] at hi
    exact ⟨_, _, hi, by rw [hsp], hm, rfl, rfl, fun _ => ⟨hcause, rfl, by rw [hsp]; rfl, fun j hj => s.exited_sp_other s.cur c hj⟩, fun h => absurd h hhome⟩

/-! ## TASK_TAKE (02 R68) -/

/-- The SPs of a partition of one, in the order of their numbers. -/
theorem filter_range_contains_one {k n : Nat} (hk : k < n) : (List.range n).filter [k].contains = [k] := by
  have hpred : [k].contains = fun m => m == k := by funext m; simp [beq_eq_decide]
  rw [hpred, List.filter_beq, List.count_eq_one_of_mem List.nodup_range (List.mem_range.mpr hk)]
  rfl

/-- The registers of a task's context (02 R55), and its argument in control memory. -/
theorem Sp.task_ctx {p : Sp} {d : Ctx} (hleft : p.left = some d) (l : Launch) (o : Code) (r : Nat × List Byte × Nat) :
    ∃ c, (p.task l o r).ctx = some c ∧ (p.task l o r).idle = false ∧ c.launch = l.id ∧ c.rank = d.rank ∧ c.pc = BitVec.ofNat 64 r.1 ∧ c.hw = r.2.2 ∧
      c.task = r.2.1 ∧ c.polders = d.polders ∧ c.mmode = false ∧ c.xr 2 = 0x38000 ∧ c.xr 10 = BitVec.ofNat 64 d.rank ∧ c.xr 11 = BitVec.ofNat 64 l.count ∧
      c.xr 12 = 0x38000 ∧ c.xr 13 = 0x38060 ∧ (∀ n, n ∉ [2, 10, 11, 12, 13] → c.xr n = 0) ∧
      ∀ i b, r.2.1[i]? = some b → cmByte (p.task l o r).cm (0x38060 + i) = b := by
  rw [Sp.task, hleft]
  dsimp only
  refine ⟨_, rfl, rfl, rfl, rfl, rfl, rfl, rfl, rfl, rfl, rfl, rfl, rfl, rfl, rfl, fun n hn => ?_, fun i b hb => ?_⟩
  · simp only [List.mem_cons, List.not_mem_nil, or_false, not_or] at hn
    obtain ⟨h2, h10, h11, h12, h13⟩ := hn
    unfold Ctx.xr
    rw [KMap.get_ins_other h13]
    simp [KMap.get, Launch.newCtx, KMap.find, Ne.symm h2, Ne.symm h10, Ne.symm h11, Ne.symm h12]
  · obtain ⟨hlt, -⟩ := List.getElem?_eq_some_iff.mp hb
    rw [cmByte_bytesWrite, if_pos (by omega)]
    simp [List.getD_eq_getElem?_getD, hb]

/-- The partition after the oldest task of a group entry has been taken. -/
def Part.taken (p : Part) (n : Nat) : Part := { p with groups := KMap.upd n (fun g => { g with pool := g.pool.drop 1 }) p.groups }

section
variable {part k n : Nat} {s : State} {p : Part} {l : Launch} {o : Code} {d : Ctx} {g : Group} {r : Nat × List Byte × Nat} {rest : List (Nat × List Byte × Nat)}
  (hheld : (s.sp k).held = some l.id) (hl : s.launchOf l.id = some l)
include hheld

theorem State.mayTake_idle (hidle : (s.sp k).idle = true) (hc : s.ctx k = none) (hfused : (s.sp k).fused = false)
    (hl : s.launchOf l.id = some l) (hst : l.state = 1) : s.mayTake k = true := by
  have hctx : (s.sp k).ctx = none := hc
  simp [State.mayTake, hidle, hctx, hfused, hheld, hl, hst]

/-- The group of port 0 is asked first. -/
theorem State.taskFor_first (hp : s.part part = some p) (hdike : KMap.find 0 (s.sp k).dikes = some n) (hg : KMap.find n p.groups = some g)
    (hown : g.launch = l.id) (hpool : g.pool = r :: rest) : s.taskFor part k = some (n, r) := by
  have hports : List.range 4 = [0, 1, 2, 3] := rfl
  simp [State.taskFor, hports, hdike, hp, hg, hheld, hown, hpool]

include hl

theorem State.takeTask_taken (hmay : s.mayTake k = true) (htask : s.taskFor part k = some (n, r)) (ho : s.codeOf l = some o) (hvict : (s.sp k).victims = []) :
    s.takeTask part k = (s.modPart part fun p => p.taken n).modSp k fun q => q.task l o r := by
  have hlaunch : (s.sp k).held.bind s.launchOf = some l := by rw [hheld, Option.bind_some, hl]
  have hsave : (s.modPart part fun p => p.taken n).saveCm k = s.modPart part fun p => p.taken n := State.saveCm_of_victims_nil hvict
  rw [State.takeTask, if_neg (by simp [hmay]), htask, hlaunch]
  simp only [ho]
  exact congrArg (fun t => State.modSp t k fun q => q.task l o r) hsave
end

theorem taskTake_one {part k : Nat} {s : State} {p : Part} (hp : s.part part = some p) (hrole : p.migr.role = 0) (hsps : p.sps = [k]) (hk : k < 160) :
    exec (.taskTake part) s = .next (s.takeTask part k) := by
  simp only [exec_taskTake, execTaskTake, hp, if_neg (show ¬(p.migr.role = 1 ∧ 2 ≤ p.migr.phase) by omega), hsps, filter_range_contains_one hk]
  rfl

end Sys2Proof.Machine
end

