-- ==== Sys2Proof/Proofs/TaskInstructions.lean ====
section
/-! PROOF. SYIELD, SSTAT and SPREF (07 R171, R186), and the statement on tasks and status, assembled from the rules of its instructions. -/

namespace Sys2Proof.Machine

section
variable {rd rs1 rs2 : Nat} {s : State} {c : Ctx} (hc : s.ctx s.cur = some c)
include hc

/-! ## SYIELD -/

/-- A pre-emption that has not been requested, or has been taken, is not taken here. -/
theorem syield_goesOn (hno : c.mpreq = false ∨ c.preempt ≠ none) : Retires (.syield rd) s c rd 0 id := by
  refine (ctxStep_mod _ hc (exec_syield s)).congr ?_
  rw [Ctx.retire_eq]
  rcases hno with hreq | hpre
  · simp [hreq]
  · obtain ⟨t, ht⟩ := Option.ne_none_iff_exists'.mp hpre
    simp [Ctx.takeRequest, ht]

theorem syield_takes (hreq : c.mpreq = true) (hpre : c.preempt = none) (hsq : c.squash = none) :
    Retires (.syield rd) s c rd 0 fun d => { d with preempt := some 0, busy := 0, resv := none } := by
  refine (ctxStep_mod _ hc (exec_syield s)).congr ?_
  simp [Ctx.retire_eq, Ctx.setX_eq, Ctx.takeRequest, Ctx.undo, hreq, hpre, hsq]

/-! ## SSTAT -/

theorem sstat_retires {v : Nat} (hv : c.sstat (c.xr rs1).toNat = v) : Retires (.sstat rd rs1) s c rd (BitVec.ofNat 64 v) id := by
  refine (ctxStep_mod _ hc (exec_sstat s)).congr ?_
  rw [Ctx.retire_eq, hv]
  rfl

/-! ## SPREF -/

theorem spref_step : SpStep (.spref rs1 rs2) s s.cur { s.sp s.cur with
    ctx := some { c with pc := c.pc + 4 },
    hints := (s.sp s.cur).hints ++
      if (c.xr rs1).toNat < 2 ^ 48 ∧ (c.xr rs2).toNat % 2 ^ 32 ≠ 0 then [(c.launch, (c.xr rs1).toNat, (c.xr rs2).toNat % 2 ^ 32)] else [] } := by
  have hi := exec_withCtx (exec_spref (rs1 := rs1) (rs2 := rs2) s) hc
  rw [bits_low, State.hint] at hi
  by_cases hgood : (c.xr rs1).toNat < 2 ^ 48 ∧ (c.xr rs2).toNat % 2 ^ 32 ≠ 0
  · rw [if_neg (by omega)] at hi
    rw [if_pos hgood]
    exact ⟨_, hi, ((WithSp.refl s s.cur).modSp _).modCtx hc _⟩
  · rw [if_pos (by omega)] at hi
    rw [if_neg hgood, List.append_nil]
    exact ⟨_, hi, (WithSp.refl s s.cur).modCtx hc _⟩
end

/-- What SSTAT returns of the kernel: nothing runs where no command of its class stands. -/
theorem Ctx.sstat_kernel_none {c : Ctx} (hstop : c.stopped = false) (hnone : ∀ e ∈ c.sb, e.cls ≠ 1) : c.sstat 1 = 0 := by
  have hentry : ∀ e ∈ c.entries, e.cls ≠ 1 := fun e he => hnone e (Ctx.mem_entries.mp he).1
  have hrun : c.kernelEntry = none := by
    rw [Ctx.kernelEntry, List.find?_eq_none]
    intro e he
    simp [hentry e he]
  have hany : (c.entries.any fun e => decide (e.cls = clsKernel)) = false := by
    rw [List.any_eq_false]
    intro e he
    simp [hentry e he]
  simp [Ctx.sstat, hstop, hrun, hany]

theorem Ctx.sstat_spire {c : Ctx} (h : c.spire.phase < 4) : c.sstat 2 = c.spire.phase := by
  obtain h | h | h | h : c.spire.phase = 0 ∨ c.spire.phase = 1 ∨ c.spire.phase = 2 ∨ c.spire.phase = 3 := by omega
  all_goals simp [Ctx.sstat, h]

theorem Ctx.sstat_stage (c : Ctx) {n : Nat} (hn : n < 8) : c.sstat (8 + n) = (c.stage n).remaining + (c.stage n).age * 2 ^ 16 +
    (if (c.stage n).suspended.isSome then 2 ^ 24 else 0) + (if (c.stage n).finished then 2 ^ 25 else 0) + (if (c.stage n).declared then 2 ^ 26 else 0) := by
  unfold Ctx.sstat
  split
  · omega
  · omega
  · omega
  · rw [if_pos (by omega), Nat.add_sub_cancel_left]

theorem Ctx.sstat_other (c : Ctx) {a : Nat} (h : 2 < a ∧ a < 8 ∨ 16 ≤ a) : c.sstat a = 0 := by
  unfold Ctx.sstat
  split
  · omega
  · omega
  · omega
  · exact if_neg (by omega)

end Sys2Proof.Machine

namespace Sys2Proof
open Machine

/-- Settles O20: each instruction and the start of a task by its rule. -/
theorem taskInstructions : Obligations.TaskInstructions := by
  refine ⟨fun rd rs1 rs2 e g n port s c o p q hc ho hf hg he heven hlen halign hbelow => ?_, fun rd rs1 s c hc => ⟨tsplit_keeps hc, tsplit_badArg hc⟩,
    fun rd s c hc => ⟨treseed_badArg hc, treseed_raises hc⟩, fun s c hc => ⟨texit_waits hc, fun l => texit_exits hc⟩, ?_,
    fun rd s c hc => ⟨fun h => syield_goesOn hc (.inl h), fun h => syield_goesOn hc (.inr h), syield_takes hc⟩, fun rd rs1 s c hc => ?_,
    fun rs1 rs2 s c hc => spref_step hc⟩
  · have ha : SpawnArgs s c (c.xr rs1) (c.xr rs2) e g := ⟨hf, hg, he, heven, ⟨o, ho, hlen⟩, halign, hbelow⟩
    refine ⟨fun hmap => spawn_refused hc (ha.code_alien hmap) (by decide), fun hmap hp hq => ⟨fun hfull => ?_, ?_⟩⟩
    · exact spawn_refused hc ((ha.code_member hmap hp hq).trans (if_pos hfull)) (by decide)
    · rintro hroom hw w hhw hw'
      have hweight : hw = c.spawnWeight := by rw [hhw, Ctx.spawnWeight]; split <;> omega
      subst hweight
      exact spawn_joins hc ha hmap hp hq hroom hw'
  · intro part k n port s p l o d g r rest hp hrole hsps hk hidle hc hleft hfused hvict hheld hl hst ho hport hdike hg hown hpool
    subst hport
    have htake := State.takeTask_taken hheld hl (State.mayTake_idle hheld hidle hc hfused hl hst) (State.taskFor_first hheld hp hdike hg hown hpool) ho hvict
    obtain ⟨c, hctx, hnot, hlaunch, hrank, hpc, hhw, htask, hpol, hm, h2, h10, h11, h12, h13, hx, hcm⟩ := Sp.task_ctx hleft l o r
    have hsp : (s.takeTask part k).sp k = (s.sp k).task l o r := by rw [htake, State.sp_modSp_self]; rfl
    refine ⟨_, c, p.taken n, taskTake_one hp hrole hsps hk, by rw [htake]; rfl, fun j hj => by rw [htake]; exact State.sp_modSp_other _ hj _,
      by rw [State.ctx, hsp, hctx], by rw [hsp, hnot], hlaunch, hrank, hpc, hhw, htask, hpol, hm, h2, h10, h11, h12, h13, hx, by rw [hsp]; exact hcm, ?_, ?_⟩
    · rw [htake]
      exact (State.part_modPart_self s part _).trans (by rw [hp, Option.map_some])
    · refine (KMap.find_upd n n _ _).trans ?_
      rw [if_pos rfl, hg, Option.map_some, hpool]
      rfl
  · refine ⟨fun h => sstat_retires hc (by rw [h]; rfl), fun h hstop => ?_, fun h hstop hnone => ?_, fun h hphase => ?_, fun n hn h t ht => ?_, fun h => ?_⟩
    · exact sstat_retires (v := 2) hc (by rw [h]; simp [Ctx.sstat, hstop])
    · exact sstat_retires (v := 0) hc (by rw [h, Ctx.sstat_kernel_none hstop hnone])
    · exact sstat_retires hc (by rw [h, Ctx.sstat_spire hphase])
    · subst ht
      exact sstat_retires hc (by rw [h]; exact c.sstat_stage hn)
    · exact sstat_retires (v := 0) hc (c.sstat_other h)

end Sys2Proof
end

