-- ==== Sys2Proof/Proofs/UniformResults.lean ====
section
/-! PROOF. C slots that write one register of the uniform state: arithmetic, and reads of the sequencer and of descriptors (08 R199 to R202). -/

namespace Sys2Proof.Machine

/-- A slot that writes a q register, from the value that the model computes. -/
theorem qResult_of {i : Instr} {p lat qd : Nat} {f v : State → Nat → Ctx → Dword} (hi : ∀ s, exec i s = .next (qWrite lat p qd (f s) s))
    (hv : ∀ s k c, f s k c = v s k c) : QResult i p lat qd v := slotRule_uniform hi fun s k c => by rw [hv]

/-! ## Register forms (08 R199) -/

section
variable (a b : Dword)

theorem add_eq_ofNat : a + b = BitVec.ofNat 64 (a.toNat + b.toNat) := BitVec.eq_of_toNat_eq (by simp)

theorem sub_eq_ofInt : a - b = BitVec.ofInt 64 (a.toInt - b.toInt) := by
  rw [Int.sub_eq_add_neg, BitVec.ofInt_add, BitVec.ofInt_neg, BitVec.ofInt_toInt, BitVec.ofInt_toInt, BitVec.sub_eq_add_neg]

theorem mul_eq_ofNat : a * b = BitVec.ofNat 64 (a.toNat * b.toNat) := BitVec.eq_of_toNat_eq (by simp)

theorem shiftLeft_eq_ofNat (n : Nat) : a <<< n = BitVec.ofNat 64 (a.toNat * 2 ^ n) := BitVec.eq_of_toNat_eq (by simp [Nat.shiftLeft_eq])

theorem ushiftRight_eq_ofNat (n : Nat) : a >>> n = BitVec.ofNat 64 (a.toNat / 2 ^ n) := by
  rw [← Nat.shiftRight_eq_div_pow, ← BitVec.toNat_ushiftRight, BitVec.ofNat_toNat, BitVec.setWidth_eq]

theorem sshiftRight_eq_ofInt (n : Nat) : a.sshiftRight n = BitVec.ofInt 64 (a.toInt / 2 ^ n) := by
  rw [BitVec.sshiftRight, Int.shiftRight_eq_div_pow]
  norm_cast

theorem smaller_eq_ofInt : (if b.slt a then b else a) = BitVec.ofInt 64 (min a.toInt b.toInt) := by
  simp only [BitVec.slt_iff_toInt_lt]
  split
  · next h => rw [min_eq_right h.le, BitVec.ofInt_toInt]
  · next h => rw [min_eq_left (not_lt.mp h), BitVec.ofInt_toInt]

theorem larger_eq_ofInt : (if a.slt b then b else a) = BitVec.ofInt 64 (max a.toInt b.toInt) := by
  simp only [BitVec.slt_iff_toInt_lt]
  split
  · next h => rw [max_eq_right h.le, BitVec.ofInt_toInt]
  · next h => rw [max_eq_left (not_lt.mp h), BitVec.ofInt_toInt]
end

/-! ## Immediates (04 R97) -/

theorem slotImm_none {n : Nat} (hn : 0 < n) (f : Nat) : slotImm n f none = (BitVec.ofNat n f).signExtend 64 := ofInt_sint hn f

/-- An extension word holds the high 24 bits. -/
theorem slotImm_some (n f x : Nat) : slotImm n f (some x) = (BitVec.ofNat (n + 24) (x * 2 ^ n + f)).signExtend 64 := ofInt_sint (by omega) _

theorem add_signExtend {n : Nat} (a : Dword) (b : BitVec n) : a + b.signExtend 64 = BitVec.ofInt 64 (a.toInt + b.toInt) := by
  rw [BitVec.ofInt_add, BitVec.ofInt_toInt, BitVec.signExtend]

/-! ## Quantities of the sequencer (08 R201) -/

theorem qgetVal_remaining (s : State) (k : Nat) (c : Ctx) :
    BitVec.ofNat 64 (qgetVal s k c 1) = match c.kern.loops with | [] => 0 | e :: _ => BitVec.ofNat 64 e.remaining := by
  cases h : c.kern.loops <;> simp [qgetVal, h]

theorem qgetVal_rrb (s : State) (k : Nat) (c : Ctx) :
    BitVec.ofNat 64 (qgetVal s k c 2) = match c.kern.modulo with | none => 0 | some e => BitVec.ofNat 64 e.rrb := by
  cases h : c.kern.modulo <;> simp [qgetVal, h]

theorem qgetVal_iteration (s : State) (k : Nat) (c : Ctx) :
    BitVec.ofNat 64 (qgetVal s k c 3) = match c.kern.loops with | [] => 0 | e :: _ => BitVec.ofNat 64 e.j := by
  cases h : c.kern.loops <;> simp [qgetVal, h]

/-- The SPs that issue together: the tower while it is fused, one otherwise. -/
theorem State.length_issueGroup (s : State) (k : Nat) : (s.issueGroup k).length = if (s.sp k).fused then (s.tower k).length else 1 := by
  rw [State.issueGroup, apply_ite List.length, List.length_singleton]

/-! ## Fields of a descriptor (08 R202) -/

theorem qsdVal_left (c : Ctx) (n : Nat) : BitVec.ofNat 64 (qsdVal c n 2) =
    if (c.kern.port n).pos ≤ (c.kern.port n).len then BitVec.ofNat 64 ((c.kern.port n).len - (c.kern.port n).pos) else 0 := by
  split
  · rfl
  · next h => rw [qsdVal, Nat.sub_eq_zero_of_le (Nat.le_of_not_le h)]; rfl

/-- A polder that is neither ring nor queue has no head and no tail. -/
theorem polder_count_eq (q : Option Polder) (f : Polder → Nat) :
    BitVec.ofNat 64 (((q.filter fun p => decide (p.kind ≠ 0)).map f).getD 0) =
      match q with
      | none => 0
      | some p => if p.kind = 0 then 0 else BitVec.ofNat 64 (f p) := by
  cases q with
  | none => rfl
  | some p => by_cases h : p.kind = 0 <;> simp [Option.filter, h]

end Sys2Proof.Machine

namespace Sys2Proof

open Machine

/-- Settles O25: the value of each form is that of its rule, by the lemma of its name. -/
theorem uniformArithmeticResults : Obligations.UniformArithmeticResults := by
  intro p qd qa qb
  refine ⟨?_, ?_, ?_, ?_, ?_, ?_, ?_, ?_, ?_, ?_, ?_, fun imm _ => ?_, fun imm x _ _ => ?_, fun imm _ => ?_, fun imm x _ _ => ?_⟩
  · exact qResult_of exec_qadd fun _ _ _ => add_eq_ofNat ..
  · exact qResult_of exec_qsub fun _ _ _ => sub_eq_ofInt ..
  · exact qResult_of exec_qmul fun _ _ _ => mul_eq_ofNat ..
  · exact qResult_of exec_qand fun _ _ _ => rfl
  · exact qResult_of exec_qor fun _ _ _ => rfl
  · exact qResult_of exec_qxor fun _ _ _ => rfl
  · exact qResult_of exec_qshl fun _ _ _ => shiftLeft_eq_ofNat ..
  · exact qResult_of exec_qshr fun _ _ _ => ushiftRight_eq_ofNat ..
  · exact qResult_of exec_qsra fun _ _ _ => sshiftRight_eq_ofInt ..
  · exact qResult_of exec_qmin fun _ _ _ => smaller_eq_ofInt ..
  · exact qResult_of exec_qmax fun _ _ _ => larger_eq_ofInt ..
  · exact qResult_of exec_qaddi fun _ _ _ => by rw [slotImm_none (by decide), add_signExtend]
  · exact qResult_of exec_qaddi fun _ _ _ => by rw [slotImm_some, add_signExtend]
  · exact qResult_of exec_qli fun _ _ _ => slotImm_none (by decide) imm
  · exact qResult_of exec_qli fun _ _ _ => slotImm_some 18 imm x

/-- Settles O26: selector by selector, and field by field. -/
theorem sequencerAndDescriptorReads : Obligations.SequencerAndDescriptorReads := by
  refine ⟨fun p qd => ⟨?_, ?_, ?_, ?_, ?_, ?_, ?_, ?_, ?_⟩, fun p qd sn => ⟨?_, ?_, ?_, ?_, ?_⟩⟩
  · exact qResult_of exec_qget fun _ _ _ => rfl
  · exact qResult_of exec_qget qgetVal_remaining
  · exact qResult_of exec_qget qgetVal_rrb
  · exact qResult_of exec_qget qgetVal_iteration
  · exact qResult_of exec_qget fun _ _ _ => rfl
  · exact qResult_of exec_qget fun _ _ _ => rfl
  · exact qResult_of exec_qget fun s k _ => congrArg _ (s.length_issueGroup k)
  · exact qResult_of exec_qget fun _ _ _ => rfl
  · exact qResult_of exec_qget fun _ _ _ => rfl
  · exact qResult_of exec_qsd fun _ _ _ => rfl
  · exact qResult_of exec_qsd fun _ _ _ => rfl
  · exact qResult_of exec_qsd fun _ _ c => qsdVal_left c sn
  · exact qResult_of exec_qsd fun _ _ c => polder_count_eq (c.descPolder (c.kern.port sn)) (·.head)
  · exact qResult_of exec_qsd fun _ _ c => polder_count_eq (c.descPolder (c.kern.port sn)) (·.tail)

end Sys2Proof
end

