-- ==== Sys2Proof/Proofs/ConditionResults.lean ====
section
/-! PROOF. C slots that write a condition bit or a compact predicate: comparisons, CLOG, votes, PSET and PTAIL (08 R203 to R206). -/

namespace Sys2Proof.Machine

/-- A slot that writes a condition bit, from the truth value that the model computes. -/
theorem cResult_of {i : Instr} {p cd : Nat} {lat : State → Nat} {f : State → Nat → Ctx → Bool} {v : State → Ctx → Bool}
    (hi : ∀ s, exec i s = .next (cWrite (lat s) p cd (f s) s)) (hv : ∀ s k c, f s k c = v s c) : CResult i p lat cd v :=
  slotRule_uniform hi fun s k c => by rw [hv]

/-- A slot that writes a compact predicate, from the count that the model computes. -/
theorem pResult_of {i : Instr} {p pd w : Nat} {f n : Ctx → Nat} (hi : ∀ s, exec i s = .next (pWrite p pd w f s)) (hn : ∀ c, f c = n c) :
    PResult i p pd w n := slotRule_uniform hi fun _ _ c => by rw [hn]

/-! ## Comparisons (08 R203) -/

section
variable (a b : Dword)

theorem condHolds_eq : condHolds 0 a b = decide (a = b) := rfl

theorem condHolds_ne : condHolds 1 a b = decide (a ≠ b) := (decide_not (p := a = b)).symm

theorem condHolds_lt : condHolds 2 a b = decide (a.toInt < b.toInt) := BitVec.slt_eq_decide

theorem condHolds_ge : condHolds 3 a b = decide (b.toInt ≤ a.toInt) := by
  change (!a.slt b) = _
  rw [BitVec.slt_eq_decide, ← decide_not, decide_eq_decide, not_lt]

theorem condHolds_ltu : condHolds 4 a b = decide (a.toNat < b.toNat) := BitVec.ult_eq_decide

theorem condHolds_geu : condHolds 5 a b = decide (b.toNat ≤ a.toNat) := by
  change (!a.ult b) = _
  rw [BitVec.ult_eq_decide, ← decide_not, decide_eq_decide, not_lt]
end

section
variable {cond : Nat} {r : Dword → Dword → Bool} (hr : ∀ a b, condHolds cond a b = r a b) (p cd qa : Nat)
include hr

theorem cmp_result (qb : Nat) : CResult (.cmp p cd cond qa qb) p (fun _ => 1) cd fun _ c => r (c.kern.qr qa) (c.kern.qr qb) :=
  cResult_of exec_cmp fun _ _ _ => hr ..

theorem cmpi_result (imm : Nat) :
    CResult (.cmpi p cd cond qa imm) p (fun _ => 1) cd fun _ c => r (c.kern.qr qa) ((BitVec.ofNat 12 imm).signExtend 64) :=
  cResult_of exec_cmpi fun _ _ _ => by rw [hr, slotImm_none (by decide)]
end

/-! ## CLOG (08 R204) -/

theorem clog_eq_testBit (table : Nat) (a b : Bool) : decide (table / 2 ^ ((if a then 2 else 0) + (if b then 1 else 0)) % 2 = 1) =
    table.testBit (2 * (if a then 1 else 0) + (if b then 1 else 0)) := by
  rw [Nat.testBit_eq_decide_div_mod_eq]
  cases a <;> rfl

/-! ## Votes (08 R205) -/

/-- Digit `j` of a row is element `j`. -/
theorem rowElemsN_eq (w row n : Nat) : rowElemsN w row n = (List.range n).map fun j => row / 2 ^ (w * j) % 2 ^ w := by
  induction n generalizing row with
  | zero => rfl
  | succ n ih =>
    rw [rowElemsN, ih, List.range_succ_eq_map, List.map_cons, List.map_map]
    refine congrArg₂ _ (by simp) (List.map_congr_left fun j _ => ?_)
    rw [Function.comp_apply, Nat.div_div_eq_div_mul, ← pow_add, Nat.mul_succ, Nat.add_comm]

/-- The active elements of one cluster of the context `d`, where `c` decides their number. -/
def voteRow (c d : Ctx) (v w pn cl : Nat) : List Nat :=
  (List.range (min (c.kern.pr pn).n (128 / 2 ^ w))).map fun j => d.vr cl v / 2 ^ (8 * 2 ^ w * j) % 2 ^ (8 * 2 ^ w)

theorem voteElems_eq (s : State) (c : Ctx) (v w pn : Nat) : voteElems s c v w pn =
    s.issue.flatMap fun m => (s.ctx m).elim [] fun d => (List.range 16).flatMap fun cl => voteRow c d v w pn cl := by
  rw [voteElems, ← List.flatMap_def]
  refine congrArg (s.issue.flatMap ·) (funext fun m => ?_)
  cases s.ctx m with
  | none => rfl
  | some d => simp [List.flatMap_def, voteRow, rowElems, rowElemsN_eq, ← List.map_take, List.take_range]

section
variable (s : State) (c : Ctx) (v w pn : Nat)

theorem any_voteElems (P : Nat → Bool) : (voteElems s c v w pn).any P =
    s.issue.any fun m => (s.ctx m).any fun d => (List.range 16).any fun cl => (voteRow c d v w pn cl).any P := by
  rw [voteElems_eq, List.any_flatMap]
  refine congrArg (s.issue.any ·) (funext fun m => ?_)
  cases s.ctx m with
  | none => rfl
  | some d => exact List.any_flatMap

theorem all_voteElems (P : Nat → Bool) : (voteElems s c v w pn).all P =
    s.issue.all fun m => (s.ctx m).all fun d => (List.range 16).all fun cl => (voteRow c d v w pn cl).all P := by
  rw [voteElems_eq, List.all_flatMap]
  refine congrArg (s.issue.all ·) (funext fun m => ?_)
  cases s.ctx m with
  | none => rfl
  | some d => exact List.all_flatMap
end

theorem voteLatency_eq (s : State) : voteLatency s = if s.issue.length = 4 then 7 else if s.issue.length = 2 then 5 else 3 := by
  unfold voteLatency
  split <;> simp_all

/-! ## Predicates (08 R206) -/

/-- A row of the sixteen clusters holds 768 bytes of activity, in elements of 2^w bytes. -/
theorem psetCap_eq {w : Nat} (hw : w < 4) : 768 / 2 ^ w = [768, 384, 192, 96].getD w 0 :=
  (by decide : ∀ w < 4, 768 / 2 ^ w = [768, 384, 192, 96].getD w 0) w hw

theorem ptailCount_eq (a : Dword) (m : Nat) : (if a.toNat = 0 then 0 else (a.toNat - 1) % m + 1) = if a = 0 then 0 else (a.toNat - 1) % m + 1 := by
  have hzero : (a.toNat = 0) = (a = 0) := propext (BitVec.toNat_inj (y := 0))
  simp only [hzero]

end Sys2Proof.Machine

namespace Sys2Proof

open Machine

/-- Settles O27: conditions by `condHolds`, votes by the elements that they look at, predicates by their caps. -/
theorem conditionAndPredicateResults : Obligations.ConditionAndPredicateResults := by
  refine ⟨fun p cd qa qb => ?_, fun p cd qa imm _ => ?_, fun p cd ca cb table => ?_, fun p cd v w pn => ⟨?_, ?_⟩,
    fun p pd w hw => ⟨fun n => ?_, fun qa => ?_, fun qa l => ?_⟩⟩
  · exact ⟨cmp_result condHolds_eq p cd qa qb, cmp_result condHolds_ne p cd qa qb, cmp_result condHolds_lt p cd qa qb, cmp_result condHolds_ge p cd qa qb,
      cmp_result condHolds_ltu p cd qa qb, cmp_result condHolds_geu p cd qa qb⟩
  · exact ⟨cmpi_result condHolds_eq p cd qa imm, cmpi_result condHolds_ne p cd qa imm, cmpi_result condHolds_lt p cd qa imm,
      cmpi_result condHolds_ge p cd qa imm, cmpi_result condHolds_ltu p cd qa imm, cmpi_result condHolds_geu p cd qa imm⟩
  · exact cResult_of exec_clog fun _ _ _ => clog_eq_testBit ..
  · rw [← funext voteLatency_eq]
    refine cResult_of exec_vany fun s _ c => (any_voteElems s c v w pn _).trans ?_
    simp only [voteRow, List.any_map, Function.comp_def]
  · rw [← funext voteLatency_eq]
    refine cResult_of exec_vall fun s _ c => (all_voteElems s c v w pn _).trans ?_
    simp only [voteRow, List.all_map, Function.comp_def]
  · exact pResult_of exec_pset fun _ => by rw [if_pos rfl, psetCap_eq hw]
  · exact pResult_of exec_pset fun _ => by rw [if_neg (by decide), psetCap_eq hw]
  · exact pResult_of exec_ptail fun _ => ptailCount_eq ..

end Sys2Proof
end

