-- ==== Sys2Proof/Proofs/SequencerDecisions.lean ====
section
/-! PROOF. The back-edge decision of the innermost loop (08 R214), and the landing of a rounding mode (08 R221). -/

namespace Sys2Proof.Machine

/-! ## The loop stack at the end of a bundle -/

section
variable {b : Nat} {e : LoopE} {l : List LoopE}

theorem backEdge_repeats (hstop : e.stop = b) (h : 1 < e.remaining) : backEdge b (e :: l) = (some e.start,
    { e with remaining := e.remaining - 1, j := e.j + 1, rrb := if e.mode = 2 then (e.rrb + 63) % 64 else e.rrb } :: l) := by
  rw [backEdge, if_neg (not_not.mpr hstop), if_pos h]

theorem backEdge_pops (hstop : e.stop = b) (h : e.remaining ≤ 1) : backEdge b (e :: l) = backEdge b l := by
  rw [backEdge, if_neg (not_not.mpr hstop), if_neg (Nat.not_lt.mpr h)]

theorem backEdge_elsewhere (hstop : e.stop ≠ b) : backEdge b (e :: l) = (none, e :: l) := by rw [backEdge, if_pos hstop]

/-- At the end of the innermost loop's body a back-edge falls due, unless a transfer takes its place (08 R211, R214). -/
theorem State.bundleEnd_edge {s : State} {kn : Kern} (hphase : kn.phase = .running) (hgap : kn.gap = 0) (hlast : kn.last = some b)
    (hlock : kn.lock = none) (hends : kn.ends = false) (hy : kn.yielded = true → kn.status ≠ 8) (hloops : kn.loops = e :: l) (hstop : e.stop = b)
    (hx : ∀ x, kn.xfer = some x → x.left ≠ 0) : s.bundleEnd kn = .edge := by
  have hhalt : (kn.yielded && decide (kn.status = 8) && kn.stage.isNone) = false := by
    cases hyield : kn.yielded <;> simp_all
  have hedge : kn.loops.head?.any (fun e => decide (e.stop = b)) = true := by simp [hloops, hstop]
  simp only [State.bundleEnd, hlast, hphase, hgap, Kern.lockCloses_none hlock, hends, hhalt, hedge]
  cases hxfer : kn.xfer with
  | none => simp
  | some x => simp [hx x hxfer]
end

/-- The kernel goes on where the back-edge decision of the bundle at `b` says (08 R214). -/
def Kern.turnBack (b : Nat) (k : Kern) : Kern :=
  { k.goOn ((backEdge b k.loops).1.getD k.after) with loops := (backEdge b k.loops).2, group := [], haltPoint := 1 }

theorem Kern.turnBack_of_lock_none {k : Kern} (h : k.lock = none) (b : Nat) : k.turnBack b = { k with
    pc := (backEdge b k.loops).1.getD k.after, loops := (backEdge b k.loops).2, last := none, group := [], haltPoint := 1 } := by
  simp [Kern.turnBack, Kern.goOn, Kern.lockCloses_none h, h]

/-- LOOP_BACK_EDGE: every SP of the bundle makes the decision (08 R214). -/
theorem loopBackEdge_turns {s : State} {k b : Nat} {c : Ctx} {e : LoopE} {l : List LoopE} (hn : (s.issueGroup k).Nodup)
    (hd : (s.issueGroup k).head? = some k) (hc : s.ctx k = some c) (hphase : c.kern.phase = .running) (hgap : c.kern.gap = 0)
    (hlast : c.kern.last = some b) (hends : c.kern.ends = false) (hy : c.kern.yielded = true → c.kern.status ≠ 8) (hloops : c.kern.loops = e :: l)
    (hstop : e.stop = b) (hx : ∀ x, c.kern.xfer = some x → x.left ≠ 0)
    (hcalm : ∀ m ∈ s.issueGroup k, ∀ d, s.ctx m = some d → d.kern.lock = none ∧ d.kern.trapN = none) :
    ∃ t, exec (.loopBackEdge k) s = .next t ∧ EachIssuing (s.issueAs k) (fun _ d => { d with kern := d.kern.turnBack b }) t := by
  have hlock : c.kern.lock = none := (hcalm k (List.mem_of_mem_head? hd) c hc).1
  have hend : (s.issueAs k).bundleEnd c.kern = .edge := State.bundleEnd_edge hphase hgap hlast hlock hends hy hloops hstop hx
  have hwait : (s.issueAs k).lockWaiting = false := State.lockWaiting_false fun m hm d hd => (hcalm m hm d hd).1
  have hexec : exec (.loopBackEdge k) s = .next (((s.issueAs k).kernAll (s.issueAs k).issue (Kern.turnBack b)).trapStop b) := by
    simp only [exec_loopBackEdge, execLoopBackEdge, State.atEnd_eq hd hc hlast, hend, hwait, Bool.false_and, Bool.false_eq_true, if_true, if_false]
    rfl
  exact ⟨_, hexec, eachIssuing_goOn (s := s.issueAs k) hn b fun m hm d hd => (hcalm m hm d hd).2⟩

/-! ## The rounding mode lands (08 R196, R221) -/

/-- With nothing else in flight, the cycle on which a rounding mode lands sets it and changes nothing else. -/
theorem Sp.landDue_kmode {p : Sp} {c : Ctx} {v : Nat} (hc : p.ctx = some c) (hphase : c.kern.phase = .running)
    (hland : c.kern.land = [⟨1, false, .kmode v⟩]) : p.landDue = { p with ctx := some { c with kern := { c.kern with kmode := v, land := [] } } } := by
  have hmoves : c.kern.frozen = false := by rw [Kern.frozen, hphase]
  simp [Sp.landDue, hc, hmoves, hland, Landing.due, Sp.landOne]

end Sys2Proof.Machine

namespace Sys2Proof

open Machine

/-- Settles O23: the decision by the loop stack, and its step at every SP of the bundle. -/
theorem backEdgeDecision : Obligations.BackEdgeDecision := by
  refine ⟨fun b e l => ⟨backEdge_repeats, backEdge_pops, backEdge_elsewhere, rfl⟩, ?_⟩
  intro k b s c e l hn hd hc hphase hgap hlast hends hy hloops hstop hx hcalm
  obtain ⟨t, ht, hall⟩ := loopBackEdge_turns hn hd hc hphase hgap hlast hends hy hloops hstop hx hcalm
  refine ⟨t, ht, hall.congr_on fun m hm d hdm => ?_⟩
  rw [Kern.turnBack_of_lock_none (hcalm m hm d hdm).1]

/-- Settles O24: the mode is in flight from the issue of KMODE, and the landing sets it. -/
theorem kernelRoundingMode : Obligations.KernelRoundingMode := by
  refine ⟨fun p reg n => slotRule_uniform exec_kmode fun _ _ _ => rfl, ?_, fun s c index n ports stage => rfl⟩
  intro k v s c hc hphase hland
  have hstep : SpStep (.resultLanding k) s k (s.sp k).landDue := spStep_mod Sp.landDue (exec_resultLanding s)
  rwa [Sp.landDue_kmode hc hphase hland] at hstep

end Sys2Proof
end

