-- ==== Sys2Proof/Proofs/SpFolds.lean ====
section
/-! PROOF. A move made at each SP of a list, one after the other, and the slots that the leader's predicate decides (08 R195; 03 R74). -/

namespace Sys2Proof.Machine

/-! ## A move at each SP of a list -/

/-- Where the move at an SP changes that SP alone by `f`, the moves at the SPs of a list change each of them by `f`. -/
theorem State.sp_foldl {g : State → Nat → State} {f : Nat → Sp → Sp} (hg : ∀ t k j, (g t k).sp j = if j = k then f k (t.sp k) else t.sp j)
    {l : List Nat} (hl : l.Nodup) (s : State) (j : Nat) : (l.foldl g s).sp j = if j ∈ l then f j (s.sp j) else s.sp j := by
  induction l generalizing s with
  | nil => simp
  | cons a l ih =>
    obtain ⟨ha, hl⟩ := List.nodup_cons.mp hl
    rw [List.foldl_cons, ih hl, hg]
    by_cases hja : j = a
    · subst hja; simp [ha]
    · simp [hja]

theorem sps_frame_trans {s t u : State} (h : t = { s with sps := t.sps }) (h' : u = { t with sps := u.sps }) : u = { s with sps := u.sps } := by
  rw [h', h]

/-- Where each move changes nothing but the SPs, so do all of them. -/
theorem State.foldl_sps {g : State → Nat → State} (hg : ∀ t k, g t k = { t with sps := (g t k).sps }) (l : List Nat) (s : State) :
    l.foldl g s = { s with sps := (l.foldl g s).sps } :=
  List.foldlRecOn l g (motive := fun t => t = { s with sps := t.sps }) rfl fun t ht k _ => sps_frame_trans ht (hg t k)

/-! ## What the leader decides -/

/-- A slot of predicate `p` acts in a kernel (08 R195, 10 R270). -/
def Kern.acts (p : Nat) (k : Kern) : Bool := k.predOn p && k.firstRound

/-- `f` of the leader's context, where `on` holds of its kernel. -/
def State.leads (s : State) (on : Kern → Bool) (f : Ctx → State) : State :=
  match s.leader with
  | none => s
  | some (_, l) => if on l.kern then f l else s

section
variable {s : State} {on : Kern → Bool} {f : Ctx → State}

theorem State.leads_none (h : s.leader = none) : s.leads on f = s := by rw [State.leads, h]

theorem State.leads_some {m : Nat × Ctx} (h : s.leader = some m) : s.leads on f = if on m.2.kern then f m.2 else s := by rw [State.leads, h]
end

/-- What the leader decides happens to the context of every SP of the bundle. -/
theorem eachIssuing_leads {s : State} (hn : s.issue.Nodup) (on : Kern → Bool) (f : Ctx → Nat → Ctx → Ctx) :
    EachIssuing s (fun k c => match s.leader with
      | none => c
      | some (_, l) => if on l.kern then f l k c else c) (s.leads on fun l => s.issue.foldl (fun t k => t.modCtx k (f l k)) s) := by
  cases hl : s.leader with
  | none =>
    rw [State.leads_none hl]
    exact eachIssuing_refl s
  | some m =>
    rw [State.leads_some hl]
    by_cases h : on m.2.kern
    · simpa only [if_pos h] using eachIssuing_foldl s hn (f m.2)
    · simpa only [if_neg h] using eachIssuing_refl s

/-- A slot whose change of each context the leader's predicate decides. -/
theorem slotRule_leads {i : Instr} {p : Nat} {f : State → Ctx → Nat → Ctx → Ctx}
    (hi : ∀ s, exec i s = .next (s.leads (Kern.acts p) fun l => s.issue.foldl (fun t k => t.modCtx k (f s l k)) s)) : SlotRule i (whenLeads p f) :=
  fun s hn => ⟨_, hi s, eachIssuing_leads hn (Kern.acts p) (f s)⟩

end Sys2Proof.Machine
end

