-- ==== Sys2Proof/Proofs/StatusSlots.lean ====
section
/-! PROOF. MSET, MWAIT, KSR, KSC, KMODE and PREF (08 R217 to R222). -/

namespace Sys2Proof.Machine

/-- What KSR leaves of kstat. -/
theorem flagClear_of_lt (a : Nat) {m : Nat} (h : m < 2 ^ 13) : flagClear a m = a &&& (2 ^ 13 - 1 - m) :=
  congrArg (fun n => a &&& (8191 - n)) (Nat.mod_eq_of_lt h)

/-! ## PREF (08 R222) -/

/-- The hint that PREF leaves at an SP, if it does (12 R306). -/
def Ctx.prefHints (p qa qb : Nat) : Option Ctx → List (Nat × Nat × Nat)
  | none => []
  | some c =>
    if (c.kern.predOn p && c.kern.firstRound) ∧ (c.kern.qr qa).toNat < 2 ^ 48 ∧ (c.kern.qr qb).toNat % 2 ^ 32 ≠ 0
    then [(c.launch, (c.kern.qr qa).toNat, (c.kern.qr qb).toNat % 2 ^ 32)] else []

/-- PREF at one SP of the bundle. -/
def State.prefAt (p qa qb : Nat) (t : State) (k : Nat) : State :=
  match t.ctx k with
  | none => t
  | some c => if c.kern.predOn p && c.kern.firstRound then t.hint k c.launch (c.kern.qr qa).toNat (bits (c.kern.qr qb) 0 32) else t

theorem execPref_eq (p qa qb : Nat) (s : State) : execPref p qa qb s = .next (s.issue.foldl (State.prefAt p qa qb) s) := rfl

/-- An SP with no hint more. -/
theorem withSp_noHint (t : State) (k : Nat) : WithSp t k { t.sp k with hints := (t.sp k).hints ++ [] } t :=
  (WithSp.refl t k).congr (by rw [List.append_nil])

/-- A hint of no bytes, or past the address space, is none (12 R306). -/
theorem withSp_hint (t : State) (k launch va n : Nat) :
    WithSp t k { t.sp k with hints := (t.sp k).hints ++ if va < 2 ^ 48 ∧ n ≠ 0 then [(launch, va, n)] else [] } (t.hint k launch va n) := by
  by_cases h : va < 2 ^ 48 ∧ n ≠ 0
  · rw [if_pos h, State.hint, if_neg (by omega)]
    exact (WithSp.refl t k).modSp _
  · rw [if_neg h, State.hint, if_pos (by omega)]
    exact withSp_noHint t k

theorem withSp_prefAt (p qa qb : Nat) (t : State) (k : Nat) :
    WithSp t k { t.sp k with hints := (t.sp k).hints ++ Ctx.prefHints p qa qb (t.ctx k) } (t.prefAt p qa qb k) := by
  cases hc : t.ctx k with
  | none =>
    rw [State.prefAt, hc]
    exact withSp_noHint t k
  | some c =>
    simp only [State.prefAt, hc, Ctx.prefHints, bits_low]
    cases c.kern.predOn p && c.kern.firstRound with
    | true => simpa only [true_and, if_true] using withSp_hint t k c.launch (c.kern.qr qa).toNat ((c.kern.qr qb).toNat % 2 ^ 32)
    | false => simpa only [Bool.false_eq_true, false_and, if_false] using withSp_noHint t k

theorem pref_hints (p qa qb : Nat) {s : State} (hn : s.issue.Nodup) : ∃ t, exec (.pref p qa qb) s = .next t ∧ t = { s with sps := t.sps } ∧
    ∀ k, t.sp k = if k ∈ s.issue then { s.sp k with hints := (s.sp k).hints ++ Ctx.prefHints p qa qb (s.ctx k) } else s.sp k :=
  ⟨_, (exec_pref s).trans (execPref_eq ..), State.foldl_sps (fun t k => (withSp_prefAt p qa qb t k).1) _ s,
    State.sp_foldl (f := fun _ q => { q with hints := q.hints ++ Ctx.prefHints p qa qb q.ctx }) (fun t k => (withSp_prefAt p qa qb t k).2) hn s⟩

end Sys2Proof.Machine

namespace Sys2Proof

open Machine

/-- Settles O28: each slot changes the contexts of its bundle as its rule says, and PREF the hints. -/
theorem matrixParameterAndStatusSlots : Obligations.MatrixParameterAndStatusSlots := by
  refine ⟨fun p md qa => ?_, fun p tile rows => ?_, fun p qd mask hmask => ?_, fun p qa => ?_, fun p n => ?_, fun p qa => ?_, fun p qa qb s hn => ?_⟩
  · exact slotRule_uniform exec_mset fun _ _ _ => rfl
  · exact slotRule_none exec_mwait
  · exact slotRule_uniform exec_ksr fun _ _ c => by rw [flagClear_of_lt _ hmask]
  · exact slotRule_uniform exec_ksc fun _ _ _ => rfl
  · exact slotRule_uniform exec_kmode fun _ _ _ => rfl
  · exact slotRule_uniform exec_kmode fun _ _ _ => rfl
  · obtain ⟨t, ht, hsps, hsp⟩ := pref_hints p qa qb hn
    refine ⟨t, ht, hsps, fun k => (hsp k).trans ?_⟩
    cases s.ctx k <;> rfl

end Sys2Proof
end

