-- ==== Sys2Proof/Proofs/ControlSlots.lean ====
section
/-! PROOF. The C slots that decide where issue goes next: PBT and branches (08 R207 to R209), loops (R212, R213), END, KTRAP, YIELD (R226 to R228) and
DECOUPLE (03 R76). -/

namespace Sys2Proof.Machine

/-! ## Branches -/

/-- The target of PBT: the address of its bundle and twice the signed immediate. -/
theorem pbtTarget_eq (pc imm : Nat) :
    BitVec.ofNat 64 pc + BitVec.ofInt 64 (2 * sint 19 imm) = BitVec.ofInt 64 (pc + 2 * (BitVec.ofNat 19 imm).toInt) := by
  rw [sint_eq (by decide), BitVec.ofInt_add, BitVec.ofInt_natCast]

/-- A branch on a condition that has been negated. -/
theorem branchTo_not (taken : Bool) (target : Dword) (k : Kern) :
    branchTo (!taken) target k = { k with delay := 2, xfer := if taken then none else some ⟨target.toNat, 2⟩ } := by
  cases taken <;> rfl

/-! ## Loops -/

/-- The count of a loop instruction. -/
def Kern.loopCount (k : Kern) (reg n : Nat) : Nat := if reg = 0 then n else (k.qr n).toNat % 2 ^ 32

/-- What a loop instruction does to a context of its bundle, where `l` leads it (08 R212, R213). -/
def Ctx.takeLoop (s : State) (l : Kern) (mode p b reg n st : Nat) (c : Ctx) : Ctx :=
  if l.predOn p ∧ 1 ≤ l.loopCount reg n then
    { c with kern := { c.kern with
        gap := c.kern.gap + 1,
        loops := { start := c.kern.after, stop := (l.br b).toNat, remaining := l.loopCount reg n + st, mode := mode, s := st, n := l.loopCount reg n, j := 0,
                   rrb := 0 } :: c.kern.loops } }
  else { c with kern := { c.kern with gap := c.kern.gap + 3, after := s.nextBundle (l.br b).toNat } }

theorem Ctx.takeLoop_eq (s : State) (l : Kern) (mode p b reg n st : Nat) (c : Ctx) : c.takeLoop s l mode p b reg n st =
    { c with kern := if l.predOn p && decide (l.loopCount reg n ≠ 0) then
        { c.kern with
          gap := c.kern.gap + 1,
          loops := ⟨c.kern.after, (l.br b).toNat, l.loopCount reg n + st, mode, st, l.loopCount reg n, 0, 0⟩ :: c.kern.loops }
      else { c.kern with gap := c.kern.gap + 3, after := s.nextBundle (l.br b).toNat } } := by
  simp only [Ctx.takeLoop, Bool.and_eq_true, decide_eq_true_eq, Nat.one_le_iff_ne_zero]
  split <;> rfl

theorem loopOpen_eq (mode p b reg n st : Nat) (s : State) : loopOpen mode p b reg n st s =
    s.leads Kern.firstRound fun l => s.issue.foldl (fun t k => t.modCtx k (Ctx.takeLoop s l.kern mode p b reg n st)) s := by
  have htake (l : Kern) : Ctx.takeLoop s l mode p b reg n st = _ := funext (Ctx.takeLoop_eq s l mode p b reg n st)
  simp only [loopOpen, State.leads, htake]
  rcases s.leader with _ | ⟨k, l⟩
  · rfl
  · dsimp only
    cases l.kern.firstRound <;> rfl

/-- A loop instruction, in the words of its rule. -/
theorem slotRule_loop {i : Instr} {mode p b reg n st : Nat} (hi : ∀ s, exec i s = .next (loopOpen mode p b reg n st s)) :
    SlotRule i fun s _ c =>
      match s.leader with
      | none => c
      | some (_, l) => if l.kern.firstRound then c.takeLoop s l.kern mode p b reg n st else c :=
  fun s hn => ⟨_, (hi s).trans (congrArg _ (loopOpen_eq ..)), eachIssuing_leads hn Kern.firstRound fun l _ => Ctx.takeLoop s l.kern mode p b reg n st⟩

/-! ## YIELD and DECOUPLE -/

theorem execYieldK_eq (p : Nat) (s : State) : execYieldK p s = .next (s.leads (Kern.acts p) fun _ =>
    s.issue.foldl (fun t k => t.modCtx k fun c => { c with wdog := 0, kern := { c.kern with yielded := true } }) s) := rfl

theorem execDecouple_eq (p : Nat) (s : State) : execDecouple p s = .next (s.leads (Kern.acts p) fun _ =>
    s.issue.foldl (fun t k => t.modSp k fun q => { q with fused := false }) s) := rfl

theorem decouple_each (p : Nat) {s : State} (hn : s.issue.Nodup) : ∃ t, exec (.decouple p) s = .next t ∧ t = { s with sps := t.sps } ∧
    ∀ k, t.sp k = match s.leader with
      | none => s.sp k
      | some (_, l) => if (l.kern.predOn p && l.kern.firstRound) ∧ k ∈ s.issue then { s.sp k with fused := false } else s.sp k := by
  refine ⟨_, (exec_decouple s).trans (execDecouple_eq p s), ?_⟩
  cases hl : s.leader with
  | none =>
    rw [State.leads_none hl]
    exact ⟨rfl, fun _ => rfl⟩
  | some m =>
    rw [State.leads_some hl]
    by_cases h : m.2.kern.acts p
    · rw [if_pos h]
      exact ⟨State.foldl_modSp_sps _ _ s, fun k => (State.sp_foldl_modSp _ _ hn s k).trans (if_congr (and_iff_right h).symm rfl rfl)⟩
    · rw [if_neg h]
      exact ⟨rfl, fun k => (if_neg fun hk => h hk.1).symm⟩

end Sys2Proof.Machine

namespace Sys2Proof

open Machine

/-- Settles O29: PBT by its target, each branch by what it leaves to the end of its second delay bundle. -/
theorem branchSlots : Obligations.BranchSlots := by
  refine ⟨fun p b imm _ => ?_, fun p b cn => ?_, fun p b cn => ?_, fun p b => ?_, fun p => ?_, fun p b => ?_⟩
  · exact slotRule_uniform exec_pbt fun _ _ c => by rw [pbtTarget_eq]; rfl
  · exact slotRule_control exec_brT fun _ _ _ _ => rfl
  · exact slotRule_control exec_brF fun _ _ _ c => by rw [branchTo_not]
  · exact slotRule_control exec_br fun _ _ _ _ => rfl
  · exact slotRule_control exec_brR fun _ _ _ _ => rfl
  · exact slotRule_control exec_brl fun _ _ _ _ => rfl

/-- Settles O30: in each of the three modes. -/
theorem loopSlots : Obligations.LoopSlots := by
  intro mode p b reg n st hst hmode _
  obtain rfl | rfl | rfl : mode = 0 ∨ mode = 1 ∨ mode = 2 := by omega
  · obtain rfl := hst (by decide)
    exact slotRule_loop exec_loop
  · obtain rfl := hst (by decide)
    exact slotRule_loop exec_loopi
  · exact slotRule_loop exec_loopm

/-- Settles O31: what each of them marks, where the leader's predicate is true. -/
theorem endTrapYieldDecouple : Obligations.EndTrapYieldDecouple := by
  refine ⟨fun p => ?_, fun p n => ?_, fun p => ?_, fun p s hn => ?_⟩
  · exact slotRule_control exec_endK fun _ _ _ _ => rfl
  · exact slotRule_control exec_ktrap fun _ _ _ _ => rfl
  · exact slotRule_leads fun s => (exec_yieldK s).trans (execYieldK_eq p s)
  · exact decouple_each p hn

end Sys2Proof
end

