-- ==== Sys2Proof/Proofs/SyncAndRejoin.lean ====
section
/-! PROOF. SYNC at a dike (08 R223; 07 R180) and REJOIN at the tower line (03 R76, R77). -/

namespace Sys2Proof.Machine

/-! ## SYNC -/

/-- SYNC at one SP of the bundle: its kernel waits at the dike that it holds on the port, and has arrived there. -/
def State.syncAt (port : Nat) (t : State) (k : Nat) : State :=
  t.withCtx k fun c =>
    (t.setCtx k { c with kern := { c.kern with dike := some (KMap.get 0 (t.sp k).dikes port, c.kern.gap) } }).dikeArrive (t.partOf c)
      (KMap.get 0 (t.sp k).dikes port) k

theorem execSync_eq (p port : Nat) (s : State) : execSync p port s = .next (s.leads (Kern.acts p) fun _ => s.issue.foldl (State.syncAt port) s) := rfl

/-- An SP whose kernel waits at the dike that it holds on the port. -/
def Sp.syncWait (port : Nat) (q : Sp) : Sp :=
  { q with ctx := q.ctx.map fun c => { c with kern := { c.kern with dike := some (KMap.get 0 q.dikes port, c.kern.gap) } } }

theorem State.sp_syncAt (port : Nat) (t : State) (k j : Nat) : (t.syncAt port k).sp j = if j = k then (t.sp k).syncWait port else t.sp j := by
  rw [State.syncAt, State.withCtx]
  cases hc : t.ctx k with
  | none =>
    have hsp : (t.sp k).syncWait port = t.sp k := by
      have hctx : (t.sp k).ctx = none := hc
      rw [Sp.syncWait, hctx, Option.map_none, ← hctx]
    rw [hsp]
    exact (WithSp.refl t k).2 j
  | some c =>
    have hsp : (t.sp k).syncWait port = { t.sp k with ctx := some { c with kern := { c.kern with dike := some (KMap.get 0 (t.sp k).dikes port, c.kern.gap) } } } := by
      have hctx : (t.sp k).ctx = some c := hc
      rw [Sp.syncWait, hctx, Option.map_some]
    rw [hsp]
    exact ((WithSp.refl t k).setCtx _).2 j

theorem State.syncAt_frame (port : Nat) (t : State) (k : Nat) :
    t.syncAt port k = { t with sps := (t.syncAt port k).sps, parts := (t.syncAt port k).parts } := by
  rw [State.syncAt, State.withCtx]
  cases t.ctx k <;> rfl

theorem State.foldl_syncAt_frame (port : Nat) (l : List Nat) (s : State) :
    l.foldl (State.syncAt port) s = { s with sps := (l.foldl (State.syncAt port) s).sps, parts := (l.foldl (State.syncAt port) s).parts } :=
  List.foldlRecOn l (State.syncAt port) (motive := fun t => t = { s with sps := t.sps, parts := t.parts }) rfl fun t ht k _ => by
    rw [State.syncAt_frame, ht]

/-- The arrival of SP `k` on cycle `now`, which counts once in a phase (07 R180). -/
def Group.arriveOnce (k now : Nat) (g : Group) : Group :=
  if k ∈ g.arrived then g
  else { g with arrived := g.arrived ++ [k], last := now, full := g.members.all fun m => decide (m = k ∨ m ∈ g.arrived) }

theorem State.dikeArrive_eq (s : State) (part e k : Nat) :
    s.dikeArrive part e k = s.modPart part fun p => { p with groups := KMap.upd e (Group.arriveOnce k s.now) p.groups } := by
  have hall (g : Group) : (g.members.all fun m => decide (m = k ∨ m ∈ g.arrived)) = g.members.all (g.arrived ++ [k]).contains := by
    refine congrArg (g.members.all ·) (funext fun m => ?_)
    simp [or_comm]
  have harrive : Group.arriveOnce k s.now = fun g =>
      if g.arrived.contains k then g
      else { g with arrived := g.arrived ++ [k], last := s.now, full := g.members.all (g.arrived ++ [k]).contains } := by
    funext g
    simp only [Group.arriveOnce, hall, List.contains_iff_mem]
  rw [harrive]
  rfl

theorem State.parts_syncAt (port : Nat) {s : State} {k : Nat} {c : Ctx} (hc : s.ctx k = some c) : (s.syncAt port k).parts =
    KMap.upd (s.partOf c) (fun q => { q with groups := KMap.upd (KMap.get 0 (s.sp k).dikes port) (Group.arriveOnce k s.now) q.groups }) s.parts := by
  rw [State.syncAt, State.withCtx_of_ctx hc, State.dikeArrive_eq]
  rfl

/-- SYNC: every SP of the bundle waits at its dike, where the leader's predicate is true. -/
theorem sync_each (p port : Nat) {s : State} (hn : s.issue.Nodup) :
    ∃ t, exec (.sync p port) s = .next t ∧ t = { s with sps := t.sps, parts := t.parts } ∧
      (∀ k, t.sp k = match s.leader with
        | none => s.sp k
        | some (_, l) => if (l.kern.predOn p && l.kern.firstRound) ∧ k ∈ s.issue then (s.sp k).syncWait port else s.sp k) ∧
      ∀ (k : Nat) (c : Ctx), s.issue = [k] → s.ctx k = some c →
        t.parts = if c.kern.predOn p && c.kern.firstRound then (s.syncAt port k).parts else s.parts := by
  refine ⟨_, (exec_sync s).trans (execSync_eq ..), ?_⟩
  cases hl : s.leader with
  | none =>
    rw [State.leads_none hl]
    exact ⟨rfl, fun _ => rfl, fun k c hk hc => nomatch hl.symm.trans (State.leader_lone hk hc)⟩
  | some m =>
    rw [State.leads_some hl]
    have hlone (k : Nat) (c : Ctx) (hk : s.issue = [k]) (hc : s.ctx k = some c) : m = (k, c) :=
      Option.some.inj (hl.symm.trans (State.leader_lone hk hc))
    by_cases h : m.2.kern.acts p
    · rw [if_pos h]
      refine ⟨State.foldl_syncAt_frame port _ s, fun k => (State.sp_foldl (State.sp_syncAt port) hn s k).trans ?_, fun k c hk hc => ?_⟩
      · exact if_congr (and_iff_right h).symm rfl rfl
      · obtain rfl := hlone k c hk hc
        rw [hk]
        exact (if_pos h).symm
    · rw [if_neg h]
      refine ⟨rfl, fun k => (if_neg fun hk => h hk.1).symm, fun k c hk hc => ?_⟩
      obtain rfl := hlone k c hk hc
      exact (if_neg h).symm

/-! ## REJOIN -/

theorem State.ctx_of_leader {s : State} {k : Nat} {l : Ctx} (h : s.leader = some (k, l)) : s.ctx k = some l := by
  unfold State.leader at h
  split at h
  · cases h
  · obtain ⟨c, hc, heq⟩ := Option.map_eq_some_iff.mp h
    obtain ⟨rfl, rfl⟩ := Prod.mk.inj heq
    exact hc

/-- The kernel of the launch at an SP has executed END, in the running context or in a pre-empted one. -/
theorem Sp.hasEnded_iff (p : Sp) (launch : Nat) : p.hasEnded launch = true ↔
    ∃ c, (p.ctx = some c ∨ c ∈ p.victims.map (·.ctx)) ∧ c.launch = launch ∧ c.kern.phase = .ending ∧ c.kern.ends = true := by
  simp only [Sp.hasEnded, List.any_eq_true, List.mem_append, Option.mem_toList, Bool.and_eq_true, decide_eq_true_eq, beq_iff_eq, and_assoc]

/-- The contexts of the launch at an SP, running or pre-empted, are changed by `f`. -/
theorem Sp.mapLaunch_eq (p : Sp) (launch : Nat) (f : Ctx → Ctx) : p.mapLaunch launch f =
    { p with
      ctx := p.ctx.map fun c => if c.launch = launch then f c else c,
      victims := p.victims.map fun v => { v with ctx := if v.ctx.launch = launch then f v.ctx else v.ctx } } := by
  have hvictim : (fun v : Victim => if v.ctx.launch = launch then { v with ctx := f v.ctx } else v) =
      fun v => { v with ctx := if v.ctx.launch = launch then f v.ctx else v.ctx } := by
    funext v
    split <;> rfl
  rw [Sp.mapLaunch, hvictim]

/-- The member arrives at the tower's line and stalls (03 R76). -/
def State.joinLine (s : State) (k : Nat) : State :=
  (s.modCtx k fun c => { c with kern := { c.kern with rejoin := true } }).modSp ((s.tower k).headD k) fun q =>
    { q with line := q.line ++ [k], lineAt := s.now }

section
variable {s : State} {k : Nat} {l : Ctx} (hl : s.leader = some (k, l)) (p : Nat)
include hl

theorem rejoin_eq : exec (.rejoin p) s = .next (
    if !(l.kern.predOn p && l.kern.firstRound) || (s.sp k).fused || decide ((s.tower k).length ≤ 1) then s
    else if (s.tower k).any fun m => (s.sp m).hasEnded l.launch then
      (s.tower k).foldl (fun t m => t.modSp m fun q => q.mapLaunch l.launch fun c => c.fatalEvent 5 0 (s.member k)) s
    else s.joinLine k) := by
  rw [exec_rejoin, execRejoin, hl]
  rfl

variable (hon : (l.kern.predOn p && l.kern.firstRound) = true) (hfused : (s.sp k).fused = false) (htwo : 1 < (s.tower k).length)
include hon hfused htwo

/-- Where a member has executed END, kernel event TOWER is raised at every member (03 R77). -/
theorem rejoin_ended (hended : ((s.tower k).any fun m => (s.sp m).hasEnded l.launch) = true) : exec (.rejoin p) s = .next
    ((s.tower k).foldl (fun t m => t.modSp m fun q => q.mapLaunch l.launch fun c => c.fatalEvent 5 0 (s.member k)) s) := by
  rw [rejoin_eq hl, if_neg (by simp [hon, hfused, htwo]), if_pos hended]

theorem rejoin_waits (hended : ((s.tower k).any fun m => (s.sp m).hasEnded l.launch) = false) : exec (.rejoin p) s = .next (s.joinLine k) := by
  rw [rejoin_eq hl, if_neg (by simp [hon, hfused, htwo]), if_neg (by simp [hended])]
end

/-- Only SPs change as a member arrives at the line. -/
theorem State.joinLine_sps (s : State) (k : Nat) : s.joinLine k = { s with sps := (s.joinLine k).sps } := by
  rw [State.joinLine, State.modCtx]
  split <;> rfl

/-- The line changes no context. -/
theorem State.ctx_joinLine (s : State) (k m : Nat) :
    (s.joinLine k).ctx m = (s.modCtx k fun c => { c with kern := { c.kern with rejoin := true } }).ctx m := by
  rw [State.joinLine, State.ctx]
  by_cases h : m = (s.tower k).headD k
  · rw [h, State.sp_modSp_self]; rfl
  · rw [State.sp_modSp_other _ h]; rfl

theorem State.sp_joinLine_head (s : State) (k : Nat) : ((s.joinLine k).sp ((s.tower k).headD k)).line = (s.sp ((s.tower k).headD k)).line ++ [k] ∧
    ((s.joinLine k).sp ((s.tower k).headD k)).lineAt = s.now := by
  rw [State.joinLine, State.sp_modSp_self]
  refine ⟨?_, rfl⟩
  by_cases h : (s.tower k).headD k = k
  · rw [h, State.sp_modCtx_self]
  · rw [State.sp_modCtx_other s h]

end Sys2Proof.Machine

namespace Sys2Proof

open Machine

/-- Settles O32: SYNC by its step at each SP, REJOIN by whether a member of the tower has executed END. -/
theorem syncAndRejoin : Obligations.SyncAndRejoin := by
  refine ⟨fun p port s hn => ?_, fun p k l s hl => ⟨fun hoff => ?_, fun hon hfused htwo htower => ⟨?_, fun hnone => ?_⟩⟩⟩
  · obtain ⟨t, ht, hframe, hsp, hparts⟩ := sync_each p port hn
    exact ⟨t, ht, hframe, hsp, fun k c hk hc => by rw [hparts k c hk hc, State.parts_syncAt port hc]; rfl⟩
  · rw [rejoin_eq hl, if_pos hoff]
  · rintro ⟨m, hm, c, hc⟩ f rfl
    have hended : ((s.tower k).any fun m => (s.sp m).hasEnded l.launch) = true := List.any_eq_true.mpr ⟨m, hm, (Sp.hasEnded_iff ..).mpr ⟨c, hc⟩⟩
    refine ⟨_, rejoin_ended hl p hon hfused htwo hended, State.foldl_modSp_sps .., fun m => ?_⟩
    rw [State.sp_foldl_modSp _ _ htower, Sp.mapLaunch_eq]
    rfl
  · have hended : ((s.tower k).any fun m => (s.sp m).hasEnded l.launch) = false := by
      refine List.any_eq_false.mpr fun m hm h => ?_
      obtain ⟨c, hc, hlaunch, hend⟩ := (Sp.hasEnded_iff ..).mp h
      exact hnone m hm c hc hlaunch hend
    obtain ⟨hline, hat⟩ := s.sp_joinLine_head k
    refine ⟨_, rejoin_waits hl p hon hfused htwo hended, s.joinLine_sps k, hline, hat, ?_, fun m hm => ?_⟩
    · rw [State.ctx_joinLine, State.ctx_modCtx_self, State.ctx_of_leader hl]
      rfl
    · rw [State.ctx_joinLine, State.ctx_modCtx_other s hm]

end Sys2Proof
end

