-- ==== Sys2Proof/Proofs/ClusterScalars.lean ====
section
/-! PROOF. S slots: a g register of every acting cluster, from that cluster's own registers (09 R233 to R235). -/

namespace Sys2Proof.Machine

/-- A slot that writes a g register of every acting cluster, from the value that the model computes. -/
theorem gResult_of {i : Instr} {p lat gd : Nat} {f v : State → Nat → Ctx → Nat → Dword}
    (hi : ∀ s, exec i s = .next (clusterWrite lat p (fun k c cl => .word .g cl gd (f s k c cl)) s)) (hv : ∀ s k c cl, f s k c cl = v s k c cl) :
    GResult i p lat gd v :=
  clusterResults_of (g := fun s k c cl => .word .g cl gd (f s k c cl)) hi fun s k c cl => by rw [hv]

/-! ## Leading zeros -/

/-- `clz` counts the zero bits above the highest one bit. -/
theorem clz_spec {w v : Nat} (hv : v < 2 ^ w) :
    clz w v ≤ w ∧ v < 2 ^ (w - clz w v) ∧ (clz w v < w → 2 ^ (w - 1 - clz w v) ≤ v) := by
  rw [clz, Nat.mod_eq_of_lt hv]
  by_cases h : v = 0
  · simp [h]
  · have hlog : Nat.log2 v < w := (Nat.log2_lt h).mpr hv
    have hlow : w - 1 - (w - 1 - Nat.log2 v) = Nat.log2 v := by omega
    have hhigh : w - (w - 1 - Nat.log2 v) = Nat.log2 v + 1 := by omega
    rw [if_neg h, hlow, hhigh]
    exact ⟨by omega, Nat.lt_log2_self, fun _ => Nat.log2_self_le h⟩

/-! ## Values -/

section
variable (a b : Dword)

theorem signedLess_eq : (if a.slt b then 1 else 0 : Dword) = if a.toInt < b.toInt then 1 else 0 := by simp only [BitVec.slt_iff_toInt_lt]

theorem unsignedLess_eq : (if a.ult b then 1 else 0 : Dword) = if a.toNat < b.toNat then 1 else 0 := by simp only [BitVec.ult_iff_lt, BitVec.lt_def]

/-- The bits that leave below come back above. -/
theorem rotateRight_eq_ofNat {n : Nat} (hn : n < 64) :
    a.rotateRight n = BitVec.ofNat 64 (a.toNat / 2 ^ n + a.toNat % 2 ^ n * 2 ^ (64 - n)) := by
  have hsplit : 2 ^ (64 - n) * 2 ^ n = 2 ^ 64 := by rw [← pow_add]; congr 1; omega
  have hhigh : a.toNat / 2 ^ n < 2 ^ (64 - n) := Nat.div_lt_of_lt_mul (by rw [Nat.mul_comm, hsplit]; exact a.isLt)
  have hlow : a.toNat * 2 ^ (64 - n) % 2 ^ 64 = a.toNat % 2 ^ n * 2 ^ (64 - n) := by
    rw [← hsplit, Nat.mul_comm (2 ^ (64 - n)), Nat.mul_mod_mul_right]
  have hlt : 2 ^ (64 - n) * (a.toNat % 2 ^ n) + a.toNat / 2 ^ n < 2 ^ 64 := calc
    _ < 2 ^ (64 - n) * (a.toNat % 2 ^ n) + 2 ^ (64 - n) := by omega
    _ = 2 ^ (64 - n) * (a.toNat % 2 ^ n + 1) := (Nat.mul_succ ..).symm
    _ ≤ 2 ^ (64 - n) * 2 ^ n := Nat.mul_le_mul_left _ (Nat.mod_lt _ (Nat.two_pow_pos n))
    _ = 2 ^ 64 := hsplit
  refine BitVec.eq_of_toNat_eq ?_
  rw [BitVec.toNat_rotateRight, Nat.mod_eq_of_lt hn, Nat.shiftRight_eq_div_pow, Nat.shiftLeft_eq, hlow, Nat.or_comm, Nat.mul_comm,
    ← Nat.two_pow_add_eq_or_of_lt hhigh, BitVec.toNat_ofNat, Nat.add_comm (a.toNat / 2 ^ n), Nat.mod_eq_of_lt hlt]
end

/-- A field of `len` + 1 bits, zero-extended. -/
theorem field_unsigned {len : Nat} (h : len < 64) (x : Nat) :
    (if len / 64 = 1 then BitVec.ofInt 64 (sint (len % 64 + 1) (x % 2 ^ (len % 64 + 1))) else BitVec.ofNat 64 (x % 2 ^ (len % 64 + 1))) =
      BitVec.ofNat 64 (x % 2 ^ (len + 1)) := by
  rw [if_neg (by omega), Nat.mod_eq_of_lt h]

/-- The same with imm7[6] = 1, sign-extended. -/
theorem field_signed {len : Nat} (h : len < 64) (x : Nat) :
    (if (64 + len) / 64 = 1 then BitVec.ofInt 64 (sint ((64 + len) % 64 + 1) (x % 2 ^ ((64 + len) % 64 + 1)))
      else BitVec.ofNat 64 (x % 2 ^ ((64 + len) % 64 + 1))) = (BitVec.ofNat (len + 1) x).signExtend 64 := by
  have hlen : (64 + len) % 64 = len := by omega
  rw [if_pos (by omega), hlen, ofInt_sint (by omega)]
  exact congrArg _ (BitVec.eq_of_toNat_eq (by simp))

end Sys2Proof.Machine

namespace Sys2Proof

open Machine

/-- Settles O33: the value of each form is that of its rule, by the lemma of its name. -/
theorem clusterScalarResults : Obligations.ClusterScalarResults := by
  refine ⟨fun p gd ga gb => ⟨?_, ?_, ?_, ?_, ?_, ?_, ?_, ?_, ?_, ?_, ?_, ?_, ?_, ?_, ?_, ?_⟩, fun p gd ga imm _ => ⟨?_, ?_, fun x _ => ⟨?_, ?_⟩⟩,
    fun p gd ga amt => ⟨?_, ?_, ?_, fun hamt => ?_⟩, fun p gd n => ?_, fun p gd => ?_, fun p gd ga gb len hlen => ⟨?_, ?_, ?_⟩,
    fun p gd ga => ⟨fun v => clz 64 v.toNat, fun v => clz_spec v.isLt, ?_⟩⟩
  · exact gResult_of exec_gadd fun _ _ _ _ => add_eq_ofNat ..
  · exact gResult_of exec_gsub fun _ _ _ _ => sub_eq_ofInt ..
  · exact gResult_of exec_gmul fun _ _ _ _ => mul_eq_ofNat ..
  · exact gResult_of exec_gmulh fun _ _ _ _ => if_pos rfl
  · exact gResult_of exec_gmulh fun _ _ _ _ => if_neg (by decide)
  · exact gResult_of exec_gand fun _ _ _ _ => rfl
  · exact gResult_of exec_gor fun _ _ _ _ => rfl
  · exact gResult_of exec_gxor fun _ _ _ _ => rfl
  · exact gResult_of exec_gshl fun _ _ _ _ => shiftLeft_eq_ofNat ..
  · exact gResult_of exec_gshr fun _ _ _ _ => ushiftRight_eq_ofNat ..
  · exact gResult_of exec_gsra fun _ _ _ _ => sshiftRight_eq_ofInt ..
  · exact gResult_of exec_gmin fun _ _ _ _ => smaller_eq_ofInt ..
  · exact gResult_of exec_gmax fun _ _ _ _ => larger_eq_ofInt ..
  · exact gResult_of exec_gslt fun _ _ _ _ => signedLess_eq ..
  · exact gResult_of exec_gsltn fun _ _ _ _ => unsignedLess_eq ..
  · exact gResult_of exec_gsel fun _ _ _ _ => ite_not ..
  · exact gResult_of exec_gaddi fun _ _ _ _ => by rw [slotImm_none (by decide), add_signExtend]
  · exact gResult_of exec_gli fun _ _ _ _ => slotImm_none (by decide) imm
  · exact gResult_of exec_gaddi fun _ _ _ _ => by rw [slotImm_some, add_signExtend]
  · exact gResult_of exec_gli fun _ _ _ _ => slotImm_some 12 imm x
  · exact gResult_of exec_gshi fun _ _ _ _ => shiftLeft_eq_ofNat ..
  · exact gResult_of exec_gshi fun _ _ _ _ => ushiftRight_eq_ofNat ..
  · exact gResult_of exec_gshi fun _ _ _ _ => sshiftRight_eq_ofInt ..
  · exact gResult_of exec_gshi fun _ _ _ _ => rotateRight_eq_ofNat _ hamt
  · exact gResult_of exec_gfrq fun _ _ _ _ => rfl
  · exact gResult_of exec_gcid fun _ _ _ _ => rfl
  · exact gResult_of exec_gext fun _ _ _ _ => field_unsigned hlen _
  · exact gResult_of exec_gext fun _ _ _ _ => field_signed hlen _
  · exact gResult_of exec_gins fun _ _ _ _ => by rw [Nat.mod_eq_of_lt hlen]
  · exact gResult_of exec_gclz fun _ _ _ _ => rfl

end Sys2Proof
end

