-- ==== Sys2Proof/Proofs/VectorIntegers.lean ====
section
/-! PROOF. Integer V slots (09 R236, R237): the table in words of the element width, and the slots of mixed widths. -/

namespace Sys2Proof.Machine

section
variable {i : VSlot → Instr} {op : Nat}

/-- A V slot of one operand, from an equation of words: what the model computes is `r`, modulo 2^w. -/
theorem vInt1_of_words {r : (w : Nat) → BitVec w → BitVec w} {g : Nat → Nat → Nat} (hi : ∀ o s, exec (i o) s = .next (Machine.vInt1 op o g s))
    (h : ∀ w (x : BitVec w), 0 < w → BitVec.ofNat w (g w x.toNat) = r w x) : VInt1 i op r := by
  refine vInt1_of g hi fun w a hw ha => ?_
  rw [← h w _ hw, BitVec.toNat_ofNat, BitVec.toNat_ofNat, Nat.mod_eq_of_lt ha]

/-- One of two operands. -/
theorem vInt2_of_words {r : (w : Nat) → BitVec w → BitVec w → BitVec w} {g : Nat → Nat → Nat → Nat}
    (hi : ∀ o s, exec (i o) s = .next (Machine.vInt2 op o g s))
    (h : ∀ w (x y : BitVec w), 0 < w → BitVec.ofNat w (g w x.toNat y.toNat) = r w x y) : VInt2 i op r := by
  refine vInt2_of g hi fun w a b hw ha hb => ?_
  rw [← h w _ _ hw, BitVec.toNat_ofNat, BitVec.toNat_ofNat, BitVec.toNat_ofNat, Nat.mod_eq_of_lt ha, Nat.mod_eq_of_lt hb]
end

/-! ## Words, read and reduced -/

theorem ofNat_wrap (w : Nat) (n : Int) : BitVec.ofNat w (wrap w n) = BitVec.ofInt w n :=
  BitVec.eq_of_toNat_eq (by rw [BitVec.toNat_ofNat, BitVec.toNat_ofInt, wrap, Nat.mod_eq_of_lt]; have := Nat.two_pow_pos w; omega)

section
variable {w : Nat} (x y : BitVec w)

theorem ofNat_toNat_self : BitVec.ofNat w x.toNat = x := by rw [BitVec.ofNat_toNat, BitVec.setWidth_eq]

theorem sint_toNat (hw : 0 < w) : sint w x.toNat = x.toInt := by rw [sint_eq hw, ofNat_toNat_self]

/-! ## Sums, differences and products -/

theorem word_add : BitVec.ofNat w (x.toNat + y.toNat) = x + y := by rw [BitVec.ofNat_add, ofNat_toNat_self, ofNat_toNat_self]

theorem word_sub : BitVec.ofNat w (x.toNat + (2 ^ w - y.toNat)) = x - y := BitVec.eq_of_toNat_eq (by simp [Nat.add_comm])

theorem word_mul : BitVec.ofNat w (x.toNat * y.toNat) = x * y := by rw [BitVec.ofNat_mul, ofNat_toNat_self, ofNat_toNat_self]

theorem word_neg : BitVec.ofNat w (2 ^ w - x.toNat % 2 ^ w) = -x := BitVec.eq_of_toNat_eq (by simp)

theorem satInt_signed (w : Nat) (n : Int) : (satInt w false n).1 = wrap w (clampSigned w n) := by
  have hpow : ((2 ^ (w - 1) : Nat) : Int) = 2 ^ (w - 1) := by norm_cast
  have hpos : (0 : Int) < 2 ^ (w - 1) := by positivity
  simp only [satInt, Bool.false_eq_true, if_false, hpow, clampSigned]
  split
  · next hbelow => rw [max_eq_left (min_le_of_right_le hbelow.le)]
  · next hbelow =>
    split
    · next habove => rw [min_eq_left habove.le, max_eq_right (by omega)]
    · next habove => rw [min_eq_right (not_lt.mp habove), max_eq_right (not_lt.mp hbelow)]

theorem word_satInt (n : Int) : BitVec.ofNat w (satInt w false n).1 = BitVec.ofInt w (clampSigned w n) := by rw [satInt_signed, ofNat_wrap]

theorem word_sraWrap (n : Int) (k : Nat) : BitVec.ofNat w (sraWrap w n k) = BitVec.ofInt w (n / 2 ^ k) := by
  rw [sraWrap, ofNat_wrap]; norm_cast

/-! ## Extremes and magnitude -/

theorem word_min (hw : 0 < w) : BitVec.ofNat w (if sint w y.toNat < sint w x.toNat then y.toNat else x.toNat) = BitVec.ofInt w (min x.toInt y.toInt) := by
  rw [sint_toNat x hw, sint_toNat y hw]
  split
  · next h => rw [min_eq_right h.le, ofNat_toNat_self, BitVec.ofInt_toInt]
  · next h => rw [min_eq_left (not_lt.mp h), ofNat_toNat_self, BitVec.ofInt_toInt]

theorem word_max (hw : 0 < w) : BitVec.ofNat w (if sint w x.toNat < sint w y.toNat then y.toNat else x.toNat) = BitVec.ofInt w (max x.toInt y.toInt) := by
  rw [sint_toNat x hw, sint_toNat y hw]
  split
  · next h => rw [max_eq_right h.le, ofNat_toNat_self, BitVec.ofInt_toInt]
  · next h => rw [max_eq_left (not_lt.mp h), ofNat_toNat_self, BitVec.ofInt_toInt]

theorem word_abs (hw : 0 < w) : BitVec.ofNat w (wrap w ((sint w x.toNat).natAbs : Nat)) = BitVec.ofInt w |x.toInt| := by
  rw [sint_toNat x hw, ofNat_wrap, Int.natCast_natAbs]

/-! ## Bits -/

theorem word_and : BitVec.ofNat w (Nat.land x.toNat y.toNat) = x &&& y := (congrArg _ (BitVec.toNat_and x y)).symm.trans (ofNat_toNat_self _)

theorem word_or : BitVec.ofNat w (Nat.lor x.toNat y.toNat) = x ||| y := (congrArg _ (BitVec.toNat_or x y)).symm.trans (ofNat_toNat_self _)

theorem word_xor : BitVec.ofNat w (Nat.xor x.toNat y.toNat) = x ^^^ y := (congrArg _ (BitVec.toNat_xor x y)).symm.trans (ofNat_toNat_self _)

theorem word_andn : BitVec.ofNat w (Nat.land x.toNat (2 ^ w - 1 - y.toNat)) = x &&& ~~~y := by rw [← BitVec.toNat_not, word_and]

theorem word_sra (hw : 0 < w) (k : Nat) : BitVec.ofNat w (sraWrap w (sint w x.toNat) k) = BitVec.ofInt w (x.toInt / 2 ^ k) := by
  rw [sint_toNat x hw, word_sraWrap]

/-- A shift of no bits rounds nothing; another adds half of the last place first. -/
theorem word_sra_rounded (hw : 0 < w) (k : Nat) :
    BitVec.ofNat w (if k = 0 then x.toNat else sraWrap w (sint w x.toNat + ((2 ^ (k - 1) : Nat) : Int)) k) =
      if k = 0 then x else BitVec.ofInt w ((x.toInt + 2 ^ (k - 1)) / 2 ^ k) := by
  split
  · exact ofNat_toNat_self x
  · rw [sint_toNat x hw, word_sraWrap]; norm_cast

theorem popcount_eq (w v : Nat) : popcount w v = ((List.range w).filter fun j => v.testBit j).length := by
  induction w generalizing v with
  | zero => rfl
  | succ w ih =>
    have htail : (fun j => v.testBit j) ∘ Nat.succ = fun j => (v / 2).testBit j := funext fun j => Nat.testBit_succ v j
    rw [popcount, ih, List.range_succ_eq_map, List.filter_cons, List.filter_map, htail, Nat.testBit_zero]
    rcases Nat.mod_two_eq_zero_or_one v with h | h
    · simp [h]
    · simp [h, Nat.add_comm]

/-! ## Comparisons -/

theorem word_boolMask (c : Bool) : BitVec.ofNat w (boolMask w c) = ones w c := by
  cases c with
  | false => rfl
  | true => rw [boolMask, if_pos rfl, ones, if_pos rfl, ← BitVec.toNat_allOnes, ofNat_toNat_self]

theorem word_eq : BitVec.ofNat w (boolMask w (decide (x.toNat = y.toNat))) = ones w (decide (x = y)) := by
  rw [word_boolMask]; simp only [BitVec.toNat_inj]

theorem word_lt (hw : 0 < w) : BitVec.ofNat w (boolMask w (decide (sint w x.toNat < sint w y.toNat))) = ones w (decide (x.toInt < y.toInt)) := by
  rw [word_boolMask, sint_toNat x hw, sint_toNat y hw]

theorem word_le (hw : 0 < w) : BitVec.ofNat w (boolMask w (decide (sint w x.toNat ≤ sint w y.toNat))) = ones w (decide (x.toInt ≤ y.toInt)) := by
  rw [word_boolMask, sint_toNat x hw, sint_toNat y hw]
end

/-! ## Elements of half width (09 R237) -/

/-- A narrow element as a word of half the width: signed, or (c = 1) unsigned. -/
theorem extendNarrow_spec (h x : Nat) (hh : 0 < h) :
    extendNarrow h false x = (BitVec.ofNat h x).toInt ∧ extendNarrow h true x = ((x % 2 ^ h : Nat) : Int) := ⟨sint_eq hh x, rfl⟩

end Sys2Proof.Machine

namespace Sys2Proof

open Machine

/-- Settles O36: row by row of the table, each by the equation of words of its name. -/
theorem vectorIntegerResults : Obligations.VectorIntegerResults := by
  refine ⟨?_, ?_, ?_, ?_, ?_, ?_, ?_, ?_, ?_, ?_, ?_, ?_, ?_, ?_, ?_, ?_, ?_, ?_, ?_, ?_, ?_, ?_, ?_, ?_, ?_, ?_, ?_,
    ⟨fun w v => clz w v.toNat, fun w v => clz_spec v.isLt, ?_⟩, ?_⟩
  · exact vInt2_of_words (fun _ => exec_vadd) fun _ x y _ => word_add x y
  · exact vInt2_of_words (fun _ => exec_vsub) fun _ x y _ => word_sub x y
  · exact vInt2_of_words (fun _ => exec_vadds) fun _ x y hw => by rw [sint_toNat x hw, sint_toNat y hw, word_satInt]
  · exact vInt2_of_words (fun _ => exec_vaddn) fun _ _ _ _ => rfl
  · exact vInt2_of_words (fun _ => exec_vsubs) fun _ x y hw => by rw [sint_toNat x hw, sint_toNat y hw, word_satInt]
  · exact vInt2_of_words (fun _ => exec_vsubn) fun _ _ _ _ => rfl
  · exact vInt2_of_words (fun _ => exec_vmul) fun _ x y _ => word_mul x y
  · exact vInt2_of_words (fun _ => exec_vmulh) fun _ x y hw => by rw [sint_toNat x hw, sint_toNat y hw, word_sraWrap]
  · exact vInt2_of_words (fun _ => exec_vmulhn) fun _ _ _ _ => rfl
  · exact vInt2_of_words (fun _ => exec_vmin) fun _ x y hw => word_min x y hw
  · exact vInt2_of_words (fun _ => exec_vmax) fun _ x y hw => word_max x y hw
  · exact vInt2_of_words (fun _ => exec_vminn) fun _ _ _ _ => rfl
  · exact vInt2_of_words (fun _ => exec_vmaxn) fun _ _ _ _ => rfl
  · exact vInt1_of_words (fun _ => exec_vabs) fun _ x hw => word_abs x hw
  · exact vInt1_of_words (fun _ => exec_vneg) fun _ x _ => word_neg x
  · exact vInt2_of_words (fun _ => exec_vand) fun _ x y _ => word_and x y
  · exact vInt2_of_words (fun _ => exec_vor) fun _ x y _ => word_or x y
  · exact vInt2_of_words (fun _ => exec_vxor) fun _ x y _ => word_xor x y
  · exact vInt2_of_words (fun _ => exec_vandn) fun _ x y _ => word_andn x y
  · exact vInt2_of_words (fun _ => exec_vshl) fun _ _ _ _ => rfl
  · exact vInt2_of_words (fun _ => exec_vshr) fun _ _ _ _ => rfl
  · exact vInt2_of_words (fun _ => exec_vsra) fun _ x _ hw => word_sra x hw _
  · exact vInt2_of_words (fun _ => exec_vsrar) fun _ x _ hw => word_sra_rounded x hw _
  · exact vInt2_of_words (fun _ => exec_vcmpeq) fun _ x y _ => word_eq x y
  · exact vInt2_of_words (fun _ => exec_vcmplt) fun _ x y hw => word_lt x y hw
  · exact vInt2_of_words (fun _ => exec_vcmpltn) fun _ _ _ _ => word_boolMask _
  · exact vInt2_of_words (fun _ => exec_vcmple) fun _ x y hw => word_le x y hw
  · exact vInt1_of_words (fun _ => exec_vclz) fun _ _ _ => rfl
  · exact vInt1_of_words (fun _ => exec_vpopc) fun w x _ => congrArg _ (popcount_eq w x.toNat)

/-- Settles O37: the element functions are the model's own; half-width elements are read by `extendNarrow`. -/
theorem vectorMixedWidthResults : Obligations.VectorMixedWidthResults := by
  refine ⟨?_, ?_, ⟨extendNarrow, extendNarrow_spec, ?_, ?_⟩, ?_⟩
  · exact vRule_of fun o s => by simp only [exec_vsel, execVsel, ite_not]
  · exact vRule_of fun _ => exec_vmac
  · exact vRule_of fun _ => exec_vmacw
  · exact vRule_of fun _ => exec_vwiden
  · exact vRule_of fun _ => exec_vnarrow

end Sys2Proof
end

