-- ==== Sys2Proof/Proofs/VectorFloats.lean ====
section
/-! PROOF. Floating-point V slots (09 R238, R239). -/

namespace Sys2Proof.Machine

/-! ## Slots, from an equation of the element that the model computes -/

section
variable {i : VSlot → Instr} {fm : VSlot → VForm}

theorem vFp1_of {f : Fmt → VEnv → Nat → Elem} {g : Fmt → Nat → Bool → Nat → Elem} (hi : ∀ o s, exec (i o) s = .next (vFp1 (fm o) o f s))
    (hf : ∀ m e a, f m e a = g m e.mode e.flush a) : VFp1 i fm g := by
  obtain rfl : f = fun m e a => g m e.mode e.flush a := by funext m e a; exact hf m e a
  exact vRule_of hi

theorem vFp2_of {f : Fmt → VEnv → Nat → Nat → Elem} {g : Fmt → Nat → Bool → Nat → Nat → Elem}
    (hi : ∀ o s, exec (i o) s = .next (vFp2 (fm o) o f s)) (hf : ∀ m e a b, f m e a b = g m e.mode e.flush a b) : VFp2 i fm g := by
  obtain rfl : f = fun m e a b => g m e.mode e.flush a b := by funext m e a b; exact hf m e a b
  exact vRule_of hi

theorem vFp3_of {f : Fmt → VEnv → Nat → Nat → Nat → Elem} {g : Fmt → Nat → Bool → Nat → Nat → Nat → Elem}
    (hi : ∀ o s, exec (i o) s = .next (vFp3 (fm o) o f s)) (hf : ∀ m e a b c, f m e a b c = g m e.mode e.flush a b c) : VFp3 i fm g := by
  obtain rfl : f = fun m e a b c => g m e.mode e.flush a b c := by funext m e a b c; exact hf m e a b c
  exact vRule_of hi
end

/-! ## Extremes, compares and classes -/

section
variable (f : Fmt) (a b : Nat)

theorem nanResult_two (x y : Val) : nanResult f [x, y] = (f.qnan, if x.isSig || y.isSig then fIV else 0) := by
  simp only [nanResult, flagIf, List.any_cons, List.any_nil, Bool.or_false]

theorem fMinMax_smaller : fMinMax f false a b =
    if (f.decode a).isNan || (f.decode b).isNan then (f.qnan, if (f.decode a).isSig || (f.decode b).isSig then fIV else 0)
    else (if valBefore (f.decode b) (f.decode a) then b else a, 0) := by
  rw [← nanResult_two]; rfl

theorem fMinMax_larger : fMinMax f true a b =
    if (f.decode a).isNan || (f.decode b).isNan then (f.qnan, if (f.decode a).isSig || (f.decode b).isSig then fIV else 0)
    else (if valBefore (f.decode a) (f.decode b) then b else a, 0) := by
  rw [← nanResult_two]; rfl

theorem fClass_eq : fClass f a = match f.decode a with
    | .inf n => if n then 2 ^ 0 else 2 ^ 7
    | .nan sig => if sig then 2 ^ 8 else 2 ^ 9
    | .nar => 2 ^ 9
    | .fin n m _ =>
      if m = 0 then (if n then 2 ^ 3 else 2 ^ 4) else if f.expo a = 0 then (if n then 2 ^ 2 else 2 ^ 5) else (if n then 2 ^ 1 else 2 ^ 6) := by
  rw [fClass]
  cases f.decode a with
  | inf n => cases n <;> rfl
  | nan sig => cases sig <;> rfl
  | nar => rfl
  | fin n m e => rfl
end

theorem clampStep_eq (n : Int) : clampStep n = max (-2000) (min 2000 n) := by unfold clampStep; omega

end Sys2Proof.Machine

namespace Sys2Proof

open Machine

/-- Settles O38: sums and products as the model computes them; extremes, classes and steps by the lemma of their name. -/
theorem vectorFloatingPointResults : Obligations.VectorFloatingPointResults := by
  refine ⟨?_, ?_, ?_, ?_, ?_, ?_, ?_, ?_, ?_, ?_, ?_, ?_, ?_, ?_, ?_, ?_⟩
  · exact vFp2_of (fun _ => exec_fadd) fun _ _ _ _ => rfl
  · exact vFp2_of (fun _ => exec_fsub) fun _ _ _ _ => rfl
  · exact vFp2_of (fun _ => exec_fmul) fun _ _ _ _ => rfl
  · exact vFp3_of (fun _ => exec_fma) fun _ _ _ _ _ => rfl
  · exact vFp3_of (fun _ => exec_fms) fun _ _ _ _ _ => rfl
  · exact vFp3_of (fun _ => exec_fnma) fun _ _ _ _ _ => rfl
  · exact vFp2_of (fun _ => exec_fmin) fun m e a b => congrArg (flushSub m e.flush) (fMinMax_smaller m a b)
  · exact vFp2_of (fun _ => exec_fmax) fun m e a b => congrArg (flushSub m e.flush) (fMinMax_larger m a b)
  · exact vFp1_of (fun _ => exec_fabs) fun _ _ _ => rfl
  · exact vFp1_of (fun _ => exec_fneg) fun _ _ _ => rfl
  · exact vFp2_of (fun _ => exec_fcmpeq) fun _ _ _ _ => rfl
  · exact vFp2_of (fun _ => exec_fcmplt) fun _ _ _ _ => rfl
  · exact vFp2_of (fun _ => exec_fcmple) fun _ _ _ _ => rfl
  · exact vFp2_of (fun _ => exec_fcmpun) fun _ _ _ _ => rfl
  · exact vFp1_of (fun _ => exec_fclass) fun m _ a => congrArg (·, 0) (fClass_eq m a)
  · exact vFp2_of (fun _ => exec_fscale) fun m e a b => by rw [clampStep_eq]

end Sys2Proof
end

