-- ==== Sys2Proof/Proofs/VectorConversions.lean ====
section
/-! PROOF. VCVT, VQNT, VDQ and the special functions (09 R240 to R243). -/

namespace Sys2Proof.Machine

/-! ## VCVT -/

theorem intToInt_eq (st t : Nat) (dn : Bool) (i : Int) : intToInt (8 * 2 ^ st) (8 * 2 ^ t) dn i =
    if st ≤ t then ((i % 2 ^ (8 * 2 ^ t)).toNat, 0) else satInt (8 * 2 ^ t) dn i := by
  have hwide : 8 * 2 ^ st ≤ 8 * 2 ^ t ↔ st ≤ t := by rw [Nat.mul_le_mul_left_iff (by decide), Nat.pow_le_pow_iff_right (by decide)]
  have hwrap : wrap (8 * 2 ^ t) i = (i % 2 ^ (8 * 2 ^ t)).toNat := by rw [wrap]; norm_cast
  simp only [intToInt, hwide, hwrap]

theorem cvtElem_eq (t st : Nat) (dn sn : Bool) (mode : Nat) (flush : Bool) (a : Nat) : cvtElem t st dn sn mode flush a =
    if t < 4 then
      (if st < 4 then
        (if st ≤ t then (((typeDecode st sn a).toInt % 2 ^ (8 * 2 ^ t)).toNat, 0) else satInt (8 * 2 ^ t) dn (typeDecode st sn a).toInt)
      else toIntSat (8 * 2 ^ t) dn mode (typeDecode st sn a))
    else (typeFmt t).ofVal mode flush (typeDecode st sn a) := by
  simp only [cvtElem, intToInt_eq]

/-! ## VDQ -/

theorem vdqElem_eq (t6 : Bool) (f : Fmt) (mode : Nat) (flush : Bool) (code scale : Nat) : vdqElem t6 f mode flush code scale =
    if scale % 256 = 255 then (f.qnan, fNAR)
    else
      let r := f.ofVal mode flush ((taperedDecode (if t6 then 6 else 8) code).scaleBy ((scale % 256 : Nat) - 127))
      (r.1, flagOr r.2 (if taperedDecode (if t6 then 6 else 8) code = .nar then fNAR else 0)) := by
  simp only [vdqElem, flagIf, decide_eq_true_eq]

end Sys2Proof.Machine

namespace Sys2Proof

open Machine

/-- Settles O39: VCVT and VDQ by their element; VQNT and the special functions as the model computes them. -/
theorem vectorConversionAndSpecialResults : Obligations.VectorConversionAndSpecialResults := by
  refine ⟨?_, ?_, ?_, ?_, ?_, ?_, ?_, ?_, ?_, ?_⟩
  · exact vRule_of fun o s => by simp only [exec_vcvt, execVcvt, cvtElem_eq]
  · exact vRule_of fun _ => exec_vqnt
  · exact vRule_of fun o s => by simp only [exec_vdq, execVdq, vdqElem_eq, decide_eq_true_eq]
  · exact vFp1_of (fun _ => exec_frcp) fun _ _ _ => rfl
  · exact vFp1_of (fun _ => exec_frsq) fun _ _ _ => rfl
  · exact vFp1_of (fun _ => exec_fexp2) fun _ _ _ => rfl
  · exact vFp1_of (fun _ => exec_flog2) fun _ _ _ => rfl
  · exact vFp1_of (fun _ => exec_fsin) fun _ _ _ => rfl
  · exact vFp1_of (fun _ => exec_fcos) fun _ _ _ => rfl
  · exact vFp1_of (fun _ => exec_ftanh) fun _ _ _ => rfl

end Sys2Proof
end

