-- ==== Sys2Proof/Proofs/VectorMovement.lean ====
section
/-! PROOF. Reductions, VSCAN, VTOPK and movement of the V slot (09 R244 to R248). -/

namespace Sys2Proof

open Machine

/-- Settles O40: each slot runs by the form and the element function that the statement writes out. -/
theorem vectorReductionAndMovementResults : Obligations.VectorReductionAndMovementResults := by
  refine ⟨?_, ?_, ?_, ?_, ?_, ?_, ?_, ?_, ?_, ?_, ?_⟩
  · exact vRule_of fun _ => exec_vrsum
  · exact vRule_of fun _ => exec_vrmax
  · exact vRule_of fun _ => exec_vrmin
  · exact vRule_of fun _ => exec_vamax
  · exact vRule_of fun _ => exec_vtopk
  · exact vRule_of fun _ => exec_vscan
  · exact vRule_of fun _ => exec_vcompress
  · exact vRule_of fun _ => exec_vexpand
  · exact vRule_of fun _ => exec_vidx
  · exact vRule_of fun _ => exec_vmov
  · exact vRule_of fun _ => exec_vzero

end Sys2Proof
end

