-- ==== Sys2Proof/Proofs/IndexResults.lean ====
section
/-! PROOF. X slots: an i or g register of every acting cluster, from that cluster's own registers (10 R251 to R254). -/

namespace Sys2Proof.Machine

/-- A slot that writes an i register of every acting cluster: what the model computes is `v`, modulo 2^32. -/
theorem iResult_of_modEq {i : Instr} {p lat id : Nat} {f : Ctx → Nat → Nat} {v : Ctx → Nat → Int}
    (hi : ∀ s, exec i s = .next (iWrite lat p id f s)) (hv : ∀ c cl, (f c cl : Int) ≡ v c cl [ZMOD 2 ^ 32]) : IResult i p lat id v := by
  refine clusterResults_of (g := fun _ _ c cl => .word .i cl id (BitVec.ofNat 64 (f c cl % 2 ^ 32))) hi fun _ _ c cl => ?_
  have hword : BitVec.ofNat 64 (f c cl % 2 ^ 32) = BitVec.ofInt 64 (v c cl % 2 ^ 32) := by
    rw [← hv c cl, ← BitVec.ofInt_natCast]; norm_cast
  rw [hword]

/-- A slot that computes a natural number, which is `v`. -/
theorem iResult_of_nat {i : Instr} {p lat id : Nat} {f : Ctx → Nat → Nat} {v : Ctx → Nat → Int}
    (hi : ∀ s, exec i s = .next (iWrite lat p id f s)) (hv : ∀ c cl, v c cl = (f c cl : Int)) : IResult i p lat id v :=
  iResult_of_modEq hi fun c cl => by rw [hv]

theorem Ctx.ir_lt (c : Ctx) (cl n : Nat) : c.ir cl n < 2 ^ 32 := BitVec.isLt _

/-! ## Differences and immediates -/

theorem add_complement_modEq {b : Nat} (hb : b < 2 ^ 32) (a : Nat) : ((a + (2 ^ 32 - b) : Nat) : Int) ≡ a - b [ZMOD 2 ^ 32] := by
  rw [Int.modEq_iff_dvd]
  omega

/-- The 64 bits of a sign-extended word keep its value modulo 2^32. -/
theorem toNat_signExtend_modEq {w : Nat} (b : BitVec w) : ((b.signExtend 64).toNat : Int) ≡ b.toInt [ZMOD 2 ^ 32] := by
  have hnonneg : 0 ≤ b.toInt % 2 ^ 64 := Int.emod_nonneg _ (by decide)
  rw [BitVec.signExtend, BitVec.toNat_ofInt, Nat.cast_pow, Nat.cast_ofNat, Int.toNat_of_nonneg hnonneg]
  exact (Int.mod_modEq _ _).of_dvd (by decide)

theorem slotImm_none_modEq (f : Nat) : ((slotImm 10 f none).toNat : Int) ≡ (BitVec.ofNat 10 f).toInt [ZMOD 2 ^ 32] := by
  rw [slotImm_none (by decide)]; exact toNat_signExtend_modEq _

theorem slotImm_some_modEq (f x : Nat) : ((slotImm 10 f (some x)).toNat : Int) ≡ (BitVec.ofNat 34 (x * 2 ^ 10 + f)).toInt [ZMOD 2 ^ 32] := by
  rw [slotImm_some]; exact toNat_signExtend_modEq _

/-! ## One bits -/

theorem popcount_succ (n v : Nat) : popcount (1 + n) v = v % 2 + popcount n (v / 2) := by rw [Nat.add_comm, popcount]

/-- Where there are at most `r` one bits, none has rank `r`. -/
theorem rankPos_of_le {n r v : Nat} (h : popcount n v ≤ r) : rankPos n r v = n := by
  induction n generalizing r v with
  | zero => rfl
  | succ n ih =>
    rw [popcount] at h
    rw [rankPos]
    split
    · rw [if_neg (by omega), ih (by omega)]; omega
    · rw [ih (by omega)]; omega

/-- Where there are more, the position is that of a one bit with `r` one bits below it. -/
theorem rankPos_of_lt {n r v : Nat} (h : r < popcount n v) :
    rankPos n r v < n ∧ v.testBit (rankPos n r v) = true ∧ popcount (rankPos n r v) v = r := by
  induction n generalizing r v with
  | zero => exact absurd h (Nat.not_lt_zero r)
  | succ n ih =>
    rw [popcount] at h
    rw [rankPos]
    split
    · next hodd =>
      split
      · next hr => exact ⟨n.succ_pos, by rw [Nat.testBit_zero, hodd]; rfl, hr.symm⟩
      · next hr =>
        obtain ⟨hlt, hbit, hbelow⟩ := ih (r := r - 1) (v := v / 2) (by omega)
        exact ⟨by omega, by rw [Nat.add_comm, Nat.testBit_succ, hbit], by rw [popcount_succ, hbelow]; omega⟩
    · next heven =>
      obtain ⟨hlt, hbit, hbelow⟩ := ih (r := r) (v := v / 2) (by omega)
      exact ⟨by omega, by rw [Nat.add_comm, Nat.testBit_succ, hbit], by rw [popcount_succ, hbelow]; omega⟩

/-! ## Steps of a merge (10 R253, R254) -/

/-- The state of a search is its two halves; where they have met, the step leaves both. -/
theorem xdiagNext_eq (st a d : Nat) : xdiagNext st a d =
    if st % 2 ^ 16 < st / 2 ^ 16 then
      (if a + (st % 2 ^ 16 + st / 2 ^ 16) / 2 + 1 ≤ d then st / 2 ^ 16 * 2 ^ 16 + ((st % 2 ^ 16 + st / 2 ^ 16) / 2 + 1)
        else (st % 2 ^ 16 + st / 2 ^ 16) / 2 * 2 ^ 16 + st % 2 ^ 16)
    else st / 2 ^ 16 * 2 ^ 16 + st % 2 ^ 16 := by
  simp only [xdiagNext, Nat.div_add_mod']

end Sys2Proof.Machine

namespace Sys2Proof

open Machine

/-- Settles O34: the value of each form is that of its rule modulo 2^32, by the lemma of its name. -/
theorem indexArithmeticResults : Obligations.IndexArithmeticResults := by
  refine ⟨fun p id ia ib => ⟨?_, ?_, ?_, ?_, ?_, ?_, ?_, ?_, ?_, ?_, ?_, ?_, ?_, ?_⟩, fun p id ia imm _ => ⟨?_, ?_, fun x _ => ⟨?_, ?_⟩⟩,
    fun p id ia ib => ⟨fun a r => rankPos 32 r a, fun a r => ?_, ?_⟩⟩
  · exact iResult_of_nat exec_xadd fun _ _ => (Nat.cast_add ..).symm
  · exact iResult_of_modEq exec_xsub fun c cl => add_complement_modEq (c.ir_lt cl ib) _
  · exact iResult_of_nat exec_xshl fun _ _ => by push_cast; rfl
  · exact iResult_of_nat exec_xand fun _ _ => rfl
  · exact iResult_of_nat exec_xpopc fun _ _ => congrArg _ (popcount_eq ..).symm
  · exact iResult_of_nat exec_xpopb fun _ _ => congrArg _ (popcount_eq ..).symm
  · exact iResult_of_nat exec_xmin fun _ _ => rfl
  · exact iResult_of_nat exec_xmax fun _ _ => rfl
  · exact iResult_of_nat exec_xsel fun c cl => by rw [ite_not, Nat.cast_ite]
  · exact iResult_of_nat exec_xcadv fun _ _ => by simp only [xcadvStep, Nat.cast_add, Nat.cast_mul, Nat.cast_pow, Nat.cast_ofNat]
  · exact iResult_of_nat exec_xdiagStep fun _ _ => by simp only [xdiagNext_eq, Nat.cast_ite]
  · exact iResult_of_nat exec_xdiagMid fun _ _ => rfl
  · exact gResult_of exec_xtog fun _ _ _ _ => rfl
  · exact iResult_of_nat exec_xfrg fun _ _ => rfl
  · exact iResult_of_modEq exec_xaddi fun c cl => by rw [Nat.cast_add]; exact (slotImm_none_modEq imm).add_left _
  · exact iResult_of_modEq exec_xli fun _ _ => slotImm_none_modEq imm
  · exact iResult_of_modEq exec_xaddi fun c cl => by rw [Nat.cast_add]; exact (slotImm_some_modEq imm x).add_left _
  · exact iResult_of_modEq exec_xli fun _ _ => slotImm_some_modEq imm x
  · simp only [← popcount_eq]
    exact ⟨rankPos_of_le, rankPos_of_lt⟩
  · exact iResult_of_nat exec_xrank fun _ _ => rfl

end Sys2Proof
end

