-- ==== Sys2Proof/Proofs/GatherRequests.lean ====
section
/-! PROOF. Flags that a slot raises (05 R119), and the gather requests of XAQ and XAQS (10 R255, R257). -/

namespace Sys2Proof.Machine

/-! ## Flags that a slot raises -/

theorem Ctx.raiseIn_zero (c : Ctx) (left : Nat) : c.raiseIn left 0 = c := rfl

theorem Ctx.raiseIn_flagIf (c : Ctx) (left : Nat) (b : Bool) {f : Nat} (hf : f ≠ 0) :
    c.raiseIn left (flagIf b f) = if b then c.later left (.flags f) else c := by
  cases b with
  | false => rfl
  | true => exact if_neg hf

/-! ## Requests -/

section
variable (c : Ctx) (sn ia imm cl : Nat)

/-- The element that a request names. -/
theorem gatherIndex_eq : sint 32 (c.ir cl ia) + sint 10 imm = (BitVec.ofNat 32 (c.ir cl ia)).toInt + (BitVec.ofNat 10 imm).toInt := by
  rw [sint_eq (by decide), sint_eq (by decide)]

theorem aqRequest_memory : aqRequest c false sn ia imm cl = {
    srf := false, addr := ((((c.kern.port sn).dst : Int) + ((BitVec.ofNat 32 (c.ir cl ia)).toInt + (BitVec.ofNat 10 imm).toInt) *
      fmtBytes (c.kern.port sn).mfmt) % 2 ^ 48).toNat,
    bytes := fmtBytes (c.kern.port sn).mfmt, handle := 0, state := 0, acc := 0, data := 0, due := 0 } := by
  rw [← gatherIndex_eq]; rfl

theorem aqRequest_srf : aqRequest c true sn ia imm cl = {
    srf := true, addr := ((((c.kern.port sn).base : Int) + ((BitVec.ofNat 32 (c.ir cl ia)).toInt + (BitVec.ofNat 10 imm).toInt) *
      fmtBytes (c.kern.port sn).fmt) % 2 ^ 32).toNat,
    bytes := fmtBytes (c.kern.port sn).fmt, handle := (c.kern.port sn).polder.getD 64, state := 0, acc := 0, data := 0, due := 0 } := by
  rw [← gatherIndex_eq]; rfl
end

end Sys2Proof.Machine

namespace Sys2Proof

open Machine

/-- Settles O35: the request of each cluster is that of its rule; only XAQS uses the descriptor's polder. -/
theorem gatherRequestSlots : Obligations.GatherRequestSlots := by
  refine fun p sn ia imm _ => ⟨?_, ?_⟩
  · exact slotRule_uniform exec_xaq fun _ _ c => by
      simp only [aqRequest_memory, Bool.false_and]
      exact Ctx.raiseIn_zero _ 0
  · exact slotRule_uniform exec_xaqs fun _ _ c => by
      simp only [aqRequest_srf, Bool.true_and, Ctx.raiseIn_flagIf _ _ _ (show fOVRN ≠ 0 by decide)]

end Sys2Proof
end

