-- ==== Sys2Proof/Proofs/SwitchRows.lean ====
section
/-! PROOF. W slots: the row that each cluster of the span receives, and when it lands (10 R272 to R274). -/

namespace Sys2Proof.Machine

/-- A slot that lands a whole row in every cluster, from the row that the model computes. -/
theorem switchRule_of {i : Instr} {p vd : Nat} {l lat : State → Nat} {f : State → Nat → Ctx → Nat → Nat × Nat} {row : State → Ctx → Nat → Nat × Nat}
    (hi : ∀ s, exec i s = .next (switchWrite (l s) p vd (f s) s)) (hl : ∀ s, l s = lat s) (hf : ∀ s k c t, f s k c t = row s c t) :
    SwitchRule i p vd lat row := by
  obtain rfl : l = lat := funext hl
  refine slotRule_uniform hi fun s k c => ?_
  simp only [List.map_map, Function.comp_def, wholeRow, hf]

/-! ## Latencies (10 R274) -/

theorem permLatency_eq (s : State) : permLatency s = bySpan 4 6 8 s := by
  unfold permLatency bySpan
  split
  · next h => rw [h, if_pos rfl]
  · next h => rw [h, if_neg (by decide), if_pos rfl]
  · next h4 h2 => rw [if_neg h4, if_neg h2]

theorem sumSwitchLatency_eq (n : Nat) (s : State) : sumSwitchLatency s n = (if n < 4 then bySpan 8 11 14 else bySpan 12 16 20) s := by
  unfold sumSwitchLatency
  by_cases hn : n < 4
  · rw [if_pos hn, decide_eq_true hn, bySpan]
    split <;> simp_all
  · rw [if_neg hn, decide_eq_false hn, bySpan]
    split <;> simp_all

/-! ## Rows of the sums -/

/-- The row of a sum as it lands: its bits, and the flags that its additions raised. -/
def sumLands (n : Nat) (r : SumRow) : Nat × Nat := (packElems (8 * typeBytes n) r.1, r.2)

/-- A slot that lands a sum in every cluster, from the rows of the span. -/
theorem switchRule_of_sum {i : Instr} {p vd n : Nat} {res : State → List SumRow} {row : State → Nat → Nat × Nat}
    (hi : ∀ s, exec i s = .next (switchSum p vd n (res s) s)) (hr : ∀ s t, sumLands n ((res s).getD t ([], 0)) = row s t) :
    SwitchRule i p vd (if n < 4 then bySpan 8 11 14 else bySpan 12 16 20) fun s _ t => row s t :=
  switchRule_of (f := fun s _ _ t => sumLands n ((res s).getD t ([], 0))) hi (sumSwitchLatency_eq n) fun s _ _ t => hr s t

/-- Outside the span there is nothing to deliver. -/
theorem passRow_nil (s : State) (n : Nat) : passRow s n ([], 0) = ([], 0) := by
  unfold passRow
  split
  · rfl
  · simp [flagsOf, flagOr]

/-- What a switch scan leaves in a cluster: its row after the levels, delivered through `passRow` in the first cluster of a segment (log 31). -/
theorem switchScan_getD (s : State) (n : Nat) (add : Nat → List Nat → List Nat → SumRow) (first : Nat → Nat) (x : List SumRow) (t : Nat) :
    (switchScan s n add first x).getD t ([], 0) =
      let own := (switchStages (switchScanLevel add first) (Nat.log2 (16 * s.issue.length)) 1 x).getD t ([], 0)
      if first t = t then passRow s n own else own := by
  unfold switchScan switchSpan
  generalize switchStages (switchScanLevel add first) (Nat.log2 (16 * s.issue.length)) 1 x = r
  by_cases ht : t < r.length
  · simp [ht]
  · simp [ht, passRow_nil]

/-- The same row for every cluster of the span. -/
theorem sumLands_const (n : Nat) (x : List SumRow) (r : SumRow) (t : Nat) :
    sumLands n ((x.map fun _ => r).getD t ([], 0)) = if t < x.length then sumLands n r else (0, 0) := by
  by_cases ht : t < x.length
  · simp [ht]
  · simp [ht, sumLands, packElems]

end Sys2Proof.Machine

namespace Sys2Proof

open Machine

/-- Settles O42: permutations as the model moves them; the sums by the row that each leaves in a cluster of the span. -/
theorem switchResults : Obligations.SwitchResults := by
  refine ⟨?_, ?_, ?_, ?_, ?_, ?_, ?_, ?_⟩
  · exact fun p vd vs ia => switchRule_of exec_wperm permLatency_eq fun _ _ _ _ => rfl
  · exact fun p vd vs n => switchRule_of exec_wbcast permLatency_eq fun _ _ _ _ => rfl
  · exact fun p vd vs n _ => switchRule_of exec_wrot permLatency_eq fun _ _ _ _ => by rw [sint_eq (by decide), switchSpan]
  · exact fun p vd vs n => switchRule_of exec_wbfly permLatency_eq fun _ _ _ _ => rfl
  · exact fun p vd vs n => switchRule_of_sum exec_wrsum fun _ _ => rfl
  · exact fun p vd vs n => switchRule_of_sum exec_wscan fun s t =>
      congrArg (sumLands n) ((switchScan_getD s n _ _ _ t).trans (if_congr eq_comm rfl rfl))
  · exact fun p vd vs n ia => switchRule_of_sum exec_wsegsum fun s t => congrArg (sumLands n) (switchScan_getD s n _ _ _ t)
  · exact fun p vd vs n => switchRule_of_sum exec_wrmax fun s t => by
      cases s.leader with
      | none => exact sumLands_const ..
      | some m => exact sumLands_const ..

end Sys2Proof
end

