-- ==== Sys2Proof/Proofs/StreamPorts.lean ====
section
/-! PROOF. Stream ports: what a port lets a pop or a push reach, how both move it, and the instructions of the port (10 R262 to R266). -/

namespace Sys2Proof.Machine

/-! ## Contexts with results in flight -/

@[simp] theorem Ctx.raiseIn_polders (c : Ctx) (left f : Nat) : (c.raiseIn left f).polders = c.polders := by
  unfold Ctx.raiseIn; split <;> rfl

theorem Ctx.polder_modPolder (c : Ctx) (h : Nat) (f : Polder → Polder) : (c.modPolder h f).polder h = (c.polder h).map f := by
  rw [Ctx.polder, Ctx.modPolder, KMap.find_upd, if_pos rfl]; rfl

@[simp] theorem Kern.port_ins (k : Kern) (sn : Nat) (d : Desc) : ({ k with ports := KMap.ins sn d k.ports } : Kern).port sn = d :=
  KMap.get_ins_self _ _ _ _

theorem Ctx.descPolder_of_handle {c : Ctx} {d : Desc} {h : Nat} (hd : d.polder = some h) : c.descPolder d = c.polder h := by
  rw [Ctx.descPolder, hd]; rfl

/-! ## What is there (10 R264, R265) -/

/-- The records of a ring whose counts have not wrapped. -/
theorem dif32_of_le {t h : Nat} (hle : h ≤ t) (hlt : t < 2 ^ 32) : dif32 t h = t - h := by unfold dif32; omega

section
variable {d : Desc} {q : Polder} (hle : q.head ≤ q.tail) (hlt : q.tail < 2 ^ 32)
include hle hlt

theorem availRecs_closed (heos : q.eos = true) (hkind : q.kind = 2) : availRecs d q = q.tail - q.head := by
  rw [availRecs, if_pos ⟨hkind, heos⟩, dif32_of_le hle hlt]

theorem availRecs_open (heos : q.eos = false) : availRecs d q = q.tail - q.tail % d.tileRecs - q.head := by
  rw [availRecs, if_neg (by simp [heos]), dif32_of_le hle hlt, Nat.sub_right_comm]

/-- A tile that has been read in part still takes its room. -/
theorem roomRecs_eq : roomRecs d q = d.capacity q - (q.tail - (q.head - q.head % d.tileRecs) + q.room) := by
  have hpart := Nat.mod_le q.head d.tileRecs
  rw [roomRecs, dif32_of_le hle hlt]
  omega
end

theorem popElem_past_limit {limit e : Nat} (h : limit ≤ e) (m : KMap Row) (c : Ctx) (d : Desc) (q : Polder) (t mode : Nat) :
    popElem m c d q t mode limit e = (0, fOVRN) := if_pos h

section
variable {d : Desc} {q : Polder}

theorem popLimit_linear (hkind : q.kind = 0) : popLimit d q = d.len * d.recn := if_pos hkind

theorem popStart_linear (hkind : q.kind = 0) : popStart d q = d.pos := if_pos hkind

theorem popStart_ring (hkind : q.kind ≠ 0) : popStart d q = q.head := if_neg hkind

theorem pushKeep_linear (hkind : q.kind = 0) (e : Nat) (es : List Nat) :
    pushKeep d q e es = (es.take (d.len * d.recn - e), decide (d.len * d.recn - e < es.length)) := if_pos hkind

theorem pushKeep_ring (hkind : q.kind ≠ 0) (e : Nat) (es : List Nat) : pushKeep d q e es = (es, false) := if_neg hkind
end

/-! ## How a port moves -/

/-- A port with its POS set. -/
def Ctx.setPos (c : Ctx) (sn pos : Nat) : Ctx :=
  { c with kern := { c.kern with ports := KMap.ins sn { c.kern.port sn with pos := pos } c.kern.ports } }

@[simp] theorem Ctx.setPos_port (c : Ctx) (sn pos : Nat) : (c.setPos sn pos).kern.port sn = { c.kern.port sn with pos := pos } := Kern.port_ins ..

@[simp] theorem Ctx.setPos_polders (c : Ctx) (sn pos : Nat) : (c.setPos sn pos).polders = c.polders := rfl

section
variable {c : Ctx} {sn : Nat} {q : Polder}

theorem popAdvance_linear (hq : c.descPolder (c.kern.port sn) = some q) (hkind : q.kind = 0) (n : Nat) :
    c.popAdvance sn n = c.setPos sn (min ((c.kern.port sn).pos + n) (c.kern.port sn).len) := by
  simp only [Ctx.popAdvance, hq, hkind, if_true, Ctx.setPos]

/-- SADV on a linear polder: POS plus `n`, clamped to 0 and LEN, with OVRN where the clamp acts (10 R266). -/
theorem sadv_linear (hq : c.descPolder (c.kern.port sn) = some q) (hkind : q.kind = 0) (n : Int) :
    ∃ d : Nat, (d : Int) = max 0 (min ((c.kern.port sn).len : Int) (((c.kern.port sn).pos : Int) + n)) ∧
      c.sadv sn n = (c.setPos sn d).raiseIn 0 (if (d : Int) = ((c.kern.port sn).pos : Int) + n then 0 else fOVRN) := by
  generalize hclamp : max 0 (min ((c.kern.port sn).len : Int) (((c.kern.port sn).pos : Int) + n)) = p
  have hp : (if ((c.kern.port sn).pos : Int) + n < 0 then 0 else
      if ((c.kern.port sn).len : Int) < ((c.kern.port sn).pos : Int) + n then ((c.kern.port sn).len : Int) else ((c.kern.port sn).pos : Int) + n) = p := by
    omega
  have hpos : (p.toNat : Int) = p := Int.toNat_of_nonneg (by omega)
  refine ⟨p.toNat, hpos, ?_⟩
  simp only [Ctx.sadv, hq, hkind, if_true, hp, hpos, flagIf, decide_eq_true_eq, ite_not, Ctx.setPos]

variable {h : Nat} (hd : (c.kern.port sn).polder = some h) (hq : c.polder h = some q) (hkind : q.kind ≠ 0)
include hd hq hkind

theorem popAdvance_ring (n : Nat) :
    c.popAdvance sn n = c.modPolder h fun r => { r with head := (r.head + min n (availRecs (c.kern.port sn) q)) % 2 ^ 32 } := by
  have hdesc := (Ctx.descPolder_of_handle hd).trans hq
  simp only [Ctx.popAdvance, hdesc, hkind, if_false, hd, Option.getD_some]

/-- SADV on a ring or queue: the head moves by what is there, with OVRN where that is less than `n` (10 R266). -/
theorem sadv_ring (n : Nat) : c.sadv sn n =
    (c.modPolder h fun r => { r with head := (r.head + min n (availRecs (c.kern.port sn) q)) % 2 ^ 32 }).raiseIn 0
      (if availRecs (c.kern.port sn) q < n then fOVRN else 0) := by
  have hdesc := (Ctx.descPolder_of_handle hd).trans hq
  simp only [Ctx.sadv, hdesc, hkind, if_false, Int.toNat_natCast, popAdvance_ring hd hq hkind, flagIf, decide_eq_true_eq]

/-- A push to a ring or queue reserves its room at issue (10 R265). -/
theorem pushRaw_ring (left : Nat) (rows : List (List Nat)) (fl : Nat) :
    (c.pushRaw sn left rows fl).polder h = some { q with room := q.room + rows.flatten.length / (c.kern.port sn).recn } := by
  have hdesc := (Ctx.descPolder_of_handle hd).trans hq
  simp only [Ctx.pushRaw, hdesc, hkind, if_false, hd, Option.getD_some, Ctx.polder_modPolder]
  simp only [Ctx.polder, Ctx.raiseIn_polders, Ctx.later_polders, Ctx.laters_polders]
  rw [← Ctx.polder, hq]; rfl
end

/-- The EOS mark stands on queues only (07 R162). -/
theorem setEos_eq (c : Ctx) (h : Nat) : c.setEos h = c.modPolder h fun q => { q with eos := q.eos || decide (q.kind = 2) } := by
  refine congrArg (c.modPolder h) (funext fun q => ?_)
  by_cases hkind : q.kind = 2
  · simp [hkind]
  · simp [hkind]

end Sys2Proof.Machine

namespace Sys2Proof

open Machine

/-- Settles O43: the slots as the model runs them; SADV by the kind of the polder, and SEOS by what its mark does. -/
theorem streamPortSlots : Obligations.StreamPortSlots := by
  refine ⟨?_, ?_, ?_, ?_, ?_, ?_, ?_, ?_, ?_, ?_⟩
  · exact fun p sn v len => slotRule_uniform exec_spop fun _ _ _ => rfl
  · exact fun p sn v len => slotRule_uniform exec_speek fun _ _ _ => rfl
  · exact fun p sn v len => slotRule_uniform exec_spush fun _ _ _ => rfl
  · exact fun p sn imm _ => slotRule_uniform exec_sadv fun _ _ c => by
      rw [slotImm_none (by decide), BitVec.toInt_signExtend_of_le (by decide)]
  · exact fun p sn imm x _ _ => slotRule_uniform exec_sadv fun _ _ c => by
      rw [slotImm_some, BitVec.toInt_signExtend_of_le (by decide)]
  · intro c sn n q hq hkind
    obtain ⟨d, hd, hadv⟩ := sadv_linear hq hkind n
    exact ⟨d, _, hadv, hd, rfl⟩
  · exact fun c sn h n q hd hq hkind => sadv_ring hd hq hkind n
  · exact fun p sn v => slotRule_uniform exec_spos fun _ _ _ => rfl
  · exact fun p sn => slotRule_none exec_sflush
  · exact fun p sn => slotRule_uniform exec_seos fun _ _ c => by
      cases hd : (c.kern.port sn).polder with
      | none => simp only [hd]
      | some h => simp only [hd, setEos_eq]

/-- Settles O44: by the kind of the polder, each part by the lemma of its name. -/
theorem streamPortLimits : Obligations.StreamPortLimits := by
  refine ⟨?_, ?_, ?_, ?_, ?_, ?_, ?_, ?_⟩
  · exact fun m c d q t mode limit e h => popElem_past_limit h m c d q t mode
  · exact fun d q hkind => ⟨popLimit_linear hkind, popStart_linear hkind⟩
  · exact fun d q hkind hle hlt => ⟨popStart_ring hkind, availRecs_closed hle hlt, availRecs_open hle hlt, roomRecs_eq hle hlt⟩
  · intro c sn n q hq hkind _
    rw [popAdvance_linear hq hkind n, Ctx.setPos_port]
    exact ⟨rfl, min_le_right .., rfl⟩
  · intro c sn n h q hd hq hkind
    rw [popAdvance_ring hd hq hkind, Ctx.polder_modPolder, hq]
    rfl
  · exact fun d q e es hkind => by rw [pushKeep_linear hkind]; exact ⟨rfl, rfl⟩
  · exact fun d q e es hkind => pushKeep_ring hkind e es
  · exact fun c sn left rows fl h q hd hq hkind => pushRaw_ring hd hq hkind left rows fl

end Sys2Proof
end

