-- ==== Sys2Proof/Proofs/LockGrants.lean ====
section
/-! PROOF. How locks are granted: each to the lowest-numbered cluster that asks, unless another holds it (10 R269, R270). -/

namespace Sys2Proof.Machine

/-- A key that was not listed joins the entries of a store, whatever their order. -/
theorem KMap.mem_ins {α : Type} {k : Nat} {m : KMap α} (h : KMap.find k m = none) (v : α) (e : Nat × α) :
    e ∈ KMap.ins k v m ↔ e = (k, v) ∨ e ∈ m := by
  induction m with
  | nil => simp [KMap.ins]
  | cons a m ih =>
    obtain ⟨j, w⟩ := a
    have hne : j ≠ k := by rintro rfl; simp [KMap.find] at h
    rw [KMap.find, if_neg hne] at h
    rw [KMap.ins]
    split
    · exact List.mem_cons
    · rw [List.mem_cons, ih h, List.mem_cons, or_left_comm]

section
variable (want : Nat → Nat)

/-- Some cluster holds the lock that `cl` wants. -/
def LockTaken (held : KMap Nat) (cl : Nat) : Prop := ∃ e ∈ held, e.2 = want cl

/-- The locks after cluster `a` has asked. -/
def grantLock (held : KMap Nat) (a : Nat) : KMap Nat := if held.any fun e => decide (e.2 = want a) then held else KMap.ins a (want a) held

theorem grantLocks_cons (held : KMap Nat) (a : Nat) (l : List Nat) : grantLocks want held (a :: l) = grantLocks want (grantLock want held a) l := rfl

variable {want} {held : KMap Nat} {a : Nat}

theorem grantLock_taken (h : LockTaken want held a) : grantLock want held a = held := if_pos (by simpa [LockTaken] using h)

theorem grantLock_free (h : ¬LockTaken want held a) : grantLock want held a = KMap.ins a (want a) held := if_neg (by simpa [LockTaken] using h)

/-- One grant concerns no other cluster. -/
theorem find_grantLock_other {cl : Nat} (hcl : cl ≠ a) : KMap.find cl (grantLock want held a) = KMap.find cl held := by
  by_cases h : LockTaken want held a
  · rw [grantLock_taken h]
  · rw [grantLock_free h, KMap.find_ins_other hcl]

theorem find_grantLocks_other {cand : List Nat} {cl : Nat} (hcl : cl ∉ cand) : KMap.find cl (grantLocks want held cand) = KMap.find cl held := by
  induction cand generalizing held with
  | nil => rfl
  | cons a l ih =>
    obtain ⟨ha, hl⟩ := not_or.mp (mt List.mem_cons.mpr hcl)
    rw [grantLocks_cons, ih hl, find_grantLock_other ha]

/-- A cluster that holds nothing gets the lock it wants exactly if it is free. -/
theorem find_grantLock_self (hnone : KMap.find a held = none) : KMap.find a (grantLock want held a) = some (want a) ↔ ¬LockTaken want held a := by
  by_cases h : LockTaken want held a
  · simp [grantLock_taken h, hnone, h]
  · simp [grantLock_free h, KMap.find_ins_self, h]

/-- After that, a lock is taken if it was, or if it is the one that was asked for. -/
theorem lockTaken_grantLock (hnone : KMap.find a held = none) (cl : Nat) :
    LockTaken want (grantLock want held a) cl ↔ LockTaken want held cl ∨ want a = want cl := by
  by_cases h : LockTaken want held a
  · rw [grantLock_taken h]
    refine ⟨.inl, fun hor => hor.elim id fun heq => ?_⟩
    rwa [LockTaken, ← heq]
  · rw [grantLock_free h]
    simp only [LockTaken, KMap.mem_ins hnone, or_and_right, exists_or, exists_eq_left]
    exact or_comm

/-- Of clusters that ask in rising order and hold nothing, one gets its lock exactly if nobody held it and none before it wants it. -/
theorem find_grantLocks {cand : List Nat} (hcand : cand.Pairwise (· < ·)) (hnone : ∀ cl ∈ cand, KMap.find cl held = none) {cl : Nat}
    (hcl : cl ∈ cand) :
    KMap.find cl (grantLocks want held cand) = some (want cl) ↔ ¬LockTaken want held cl ∧ ∀ d ∈ cand, d < cl → want d ≠ want cl := by
  induction cand generalizing held with
  | nil => cases hcl
  | cons a l ih =>
    obtain ⟨hlt, hl⟩ := List.pairwise_cons.mp hcand
    obtain ⟨ha, hrest⟩ := List.forall_mem_cons.mp hnone
    rw [grantLocks_cons]
    rcases List.mem_cons.mp hcl with rfl | hmem
    · have hfirst : ∀ d ∈ cl :: l, d < cl → want d ≠ want cl := by
        refine List.forall_mem_cons.mpr ⟨fun h => absurd h (lt_irrefl _), fun d hd h => absurd (hlt d hd) (lt_asymm h)⟩
      have hlater : cl ∉ l := fun h => lt_irrefl _ (hlt cl h)
      rw [find_grantLocks_other hlater, find_grantLock_self ha]
      exact (and_iff_left hfirst).symm
    · have hnone' : ∀ d ∈ l, KMap.find d (grantLock want held a) = none := fun d hd => by
        rw [find_grantLock_other (hlt d hd).ne', hrest d hd]
      rw [ih hl hnone' hmem, lockTaken_grantLock ha, not_or, and_assoc, List.forall_mem_cons, forall_prop_of_true (hlt cl hmem)]

end

theorem mem_lockWinners {want : Nat → Nat} {held : KMap Nat} {cand : List Nat} {cl : Nat} (hcl : cl ∈ cand) :
    cl ∈ lockWinners want held cand ↔ KMap.find cl held = some (want cl) := by
  simp [lockWinners, hcl]

end Sys2Proof.Machine
end

