-- ==== Sys2Proof/Proofs/DirectAccesses.lean ====
section
/-! PROOF. Direct accesses, SRF locks and data queues (10 R259, R267 to R270). -/

namespace Sys2Proof.Machine

@[simp] theorem Ctx.raiseIn_dq (c : Ctx) (left f : Nat) : (c.raiseIn left f).dq = c.dq := by
  unfold Ctx.raiseIn; split <;> rfl

/-- An extension word holds the high bits of the immediate (10 R268). -/
theorem sldOffset_eq (imm : Nat) (x : Option Nat) (cl : Nat) :
    sldOffset imm x cl = (match x with | none => imm | some h => h * 2 ^ 11 + imm) + 128 * cl := by
  cases x with
  | none => simp only [sldOffset, Option.getD_none, Nat.zero_mul, Nat.add_zero]
  | some h => simp only [sldOffset, Option.getD_some, Nat.add_comm imm]

/-- The offset is rounded down to the element (10 R269). -/
theorem lockOffset_eq (c : Ctx) (cl ia w : Nat) : lockOffset c cl ia w = c.ir cl ia - c.ir cl ia % 2 ^ w := by
  have hsplit := Nat.div_add_mod' (c.ir cl ia) (2 ^ w)
  rw [lockOffset]
  omega

theorem flagIf_any {l : List Nat} {P : Nat → Prop} [DecidablePred P] (f : Nat) :
    flagIf (l.any fun x => decide (P x)) f = if ∃ x ∈ l, P x then f else 0 := by
  simp only [flagIf, List.any_eq_true, decide_eq_true_eq]

end Sys2Proof.Machine

namespace Sys2Proof

open Machine

/-- Settles O45: the slots by the offsets that they take; the locks by who asks before. -/
theorem directAccessAndQueueSlots : Obligations.DirectAccessAndQueueSlots := by
  refine ⟨?_, ?_, ?_, ?_, ?_, ?_, ?_⟩
  · exact fun p sn v imm x => slotRule_foldl exec_sld fun _ _ c => by
      cases x with
      | none => simp only [sldOffset_eq]
      | some h => simp only [sldOffset_eq]
  · exact fun p sn v imm x => slotRule_foldl exec_sst fun _ _ c => by
      cases x with
      | none => simp only [sldOffset_eq]
      | some h => simp only [sldOffset_eq]
  · exact fun p sn v ia w => slotRule_foldl exec_sldl fun _ _ c => by simp only [lockOffset_eq]
  · exact fun p sn v ia w => slotRule_foldl exec_sstu fun _ _ c => by simp only [lockOffset_eq, List.isEmpty_iff]
  · exact fun p v n w => slotRule_uniform exec_dqpop fun _ _ c => by simp only [flagIf_any, Ctx.raiseIn_dq, Ctx.later_dq]
  · exact fun p v => slotRule_uniform exec_dqn fun _ _ _ => rfl
  · intro want held cand hcand hnone h cl hcl
    rw [mem_lockWinners hcl, find_grantLocks hcand hnone hcl]
    simp only [LockTaken, not_exists, not_and, ne_eq]

end Sys2Proof
end

