-- ==== Sys2Proof/Proofs/KernelCopies.lean ====
section
/-! PROOF. KCOPY (10 R271). -/

namespace Sys2Proof

open Machine

/-- Settles O46: the copy joins the queue where its token does not hold it back; else TOKW is raised, which is a set of one flag. -/
theorem kernelCopySlot : Obligations.KernelCopySlot := by
  intro p sn dir limit
  refine slotRule_uniform exec_kcopy fun s _ c => ?_
  by_cases hfree : kcopyFree s c (c.kern.port sn)
  · simp only [hfree, if_true]
  · simp only [hfree]
    exact if_neg (by decide)

end Sys2Proof
end

