-- ==== Sys2Proof/Proofs/MatrixSlots.lean ====
section
/-! PROOF. The instructions of the M slot (11 R282 to R287). -/

namespace Sys2Proof

open Machine

/-- Settles O47: a call is as its fields say, KEEP and SPB being bits 0 and 1 of flags; the one tile of MZERO is below 4. -/
theorem matrixSlots : Obligations.MatrixSlots := by
  refine ⟨?_, ?_, ?_, ?_, ?_⟩
  · exact fun p routine tile a b flags => slotRule_uniform exec_mcall fun s _ c => by
      simp only [Ctx.enqueueCall, MCallE.mk0, MCallE.tiles, Nat.testBit_eq_decide_div_mod_eq, pow_zero, Nat.div_one, pow_one]
  · intro p tile htile
    have hone : (tile + 0) % 4 = tile := Nat.mod_eq_of_lt htile
    exact slotRule_uniform exec_mzero fun s _ c => by
      simp only [Ctx.enqueueCall, MCallE.mk0, MCallE.tiles, List.range_one, List.map_cons, List.map_nil, List.foldl_cons, List.foldl_nil, hone]
  · exact fun p tile v => slotRule_uniform exec_mmode fun _ _ _ => rfl
  · exact fun p => slotRule_none exec_mfence
  · exact fun p tile v => slotRule_uniform exec_mwm fun _ _ _ => rfl

end Sys2Proof
end

