-- ==== Sys2Proof/Proofs/SteeringMicroOps.lean ====
section
/-! PROOF. The micro-ops that move a routine's cursors, loops, position and watermarks, and update no accumulator (11 R290, R298 to R300). -/

namespace Sys2Proof.Machine

theorem KMap.upd_congr {α : Type} {k : Nat} {f g : α → α} {m : KMap α} {v : α} (hv : KMap.find k m = some v) (h : f v = g v) :
    KMap.upd k f m = KMap.upd k g m := by
  induction m with
  | nil => rfl
  | cons e l ih =>
    obtain ⟨j, w⟩ := e
    by_cases hj : j = k
    · simp only [KMap.find, hj, if_true, Option.some.injEq] at hv
      simp only [KMap.upd, hj, if_true, hv, h]
    · simp only [KMap.find, hj, if_false] at hv
      simp only [KMap.upd, hj, if_false, ih hv]

/-- Two changes that agree on the polder that stands there. -/
theorem Ctx.modPolder_congr {c : Ctx} {h : Nat} {q : Polder} {f g : Polder → Polder} (hq : c.polder h = some q) (hfg : f q = g q) :
    c.modPolder h f = c.modPolder h g := by rw [Ctx.modPolder, KMap.upd_congr hq hfg, Ctx.modPolder]

theorem Ctx.orKstat_zero (c : Ctx) : c.orKstat 0 = c := by rw [Ctx.orKstat, flagOr, Nat.or_zero]

/-! ## Rings and cursors -/

/-- The port of operand A (ring 0) or B of a routine. -/
def Routine.ringPort (r : Routine) (ring : Nat) : Nat := if ring = 0 then r.call.a else r.call.b

/-- The cursor on operand A (ring 0) or B. -/
def Routine.cursor (r : Routine) (ring : Nat) : Nat := if ring = 0 then r.curA else r.curB

/-- The routine with that cursor elsewhere. -/
def Routine.setCursor (r : Routine) (ring x : Nat) : Routine := if ring = 0 then { r with curA := x } else { r with curB := x }

/-- A cursor behind the head of its ring moves up to it (11 R299). -/
def cursorAtHead (head cur : Nat) : Nat := if dif32 head cur < 2 ^ 31 then head else cur

section
variable (r : Routine) (ring x : Nat)

theorem Routine.ringPort_eq : (if ring = 0 then r.call.a else r.call.b) = r.ringPort ring := rfl

theorem Routine.setCursor_atHead (head : Nat) :
    (if ring = 0 then { r with curA := if dif32 head r.curA < 2 ^ 31 then head else r.curA }
      else { r with curB := if dif32 head r.curB < 2 ^ 31 then head else r.curB }) = r.setCursor ring (cursorAtHead head (r.cursor ring)) := by
  unfold Routine.setCursor Routine.cursor
  split <;> rfl

theorem Routine.cursor_setCursor : (r.setCursor ring x).cursor ring = x := by
  unfold Routine.setCursor Routine.cursor
  split <;> rfl

theorem Routine.setCursor_otherCursor : (if ring = 0 then (r.setCursor ring x).curB else (r.setCursor ring x).curA) = if ring = 0 then r.curB else r.curA := by
  unfold Routine.setCursor
  split <;> rfl

@[simp] theorem Routine.setCursor_loops : (r.setCursor ring x).loops = r.loops := by unfold Routine.setCursor; split <;> rfl
@[simp] theorem Routine.setCursor_cycles : (r.setCursor ring x).cycles = r.cycles := by unfold Routine.setCursor; split <;> rfl
@[simp] theorem Routine.setCursor_k : (r.setCursor ring x).k = r.k := by unfold Routine.setCursor; split <;> rfl
end

/-! ## Watermark raises (11 R290) -/

section
variable {m : Matrix} {r : Routine} {w : WmWait} (hw : r.wms = [w])
include hw

/-- A single raise waits while an earlier update below it is in flight; then it happens, or is dropped where a younger call names the tile. -/
theorem raiseWms_single : raiseWms m r =
    if ∃ u ∈ m.upd, u.owner = r.call.id ∧ u.tile = w.tile ∧ u.no < w.before ∧ u.row0 < w.rows then (m, r)
    else (if m.younger r.call.id w.tile then m else { m with wm := KMap.ins w.tile (max (m.wmOf w.tile) w.rows) m.wm }, { r with wms := [] }) := by
  have hany : (m.upd.any fun u => decide (u.owner = r.call.id) && decide (u.tile = w.tile) && decide (u.no < w.before) && decide (u.row0 < w.rows)) =
      decide (∃ u ∈ m.upd, u.owner = r.call.id ∧ u.tile = w.tile ∧ u.no < w.before ∧ u.row0 < w.rows) := by
    rw [Bool.eq_iff_iff]
    simp only [List.any_eq_true, Bool.and_eq_true, decide_eq_true_eq, and_assoc]
  simp only [raiseWms, hw, hany, List.filter_cons, List.filter_nil, Bool.not_not, Bool.not_eq_true', decide_eq_false_iff_not, decide_eq_true_eq, ite_not]
  split
  · rw [List.foldl_nil, ← hw]
  · rw [List.foldl_cons, List.foldl_nil]

theorem raiseWms_waits (h : ∃ u ∈ m.upd, u.owner = r.call.id ∧ u.tile = w.tile ∧ u.no < w.before ∧ u.row0 < w.rows) : raiseWms m r = (m, r) :=
  (raiseWms_single hw).trans (if_pos h)

theorem raiseWms_raises (h : ∀ u ∈ m.upd, u.owner = r.call.id → u.tile = w.tile → u.no < w.before → w.rows ≤ u.row0)
    (hyounger : m.younger r.call.id w.tile = false) :
    raiseWms m r = ({ m with wm := KMap.ins w.tile (max (m.wmOf w.tile) w.rows) m.wm }, { r with wms := [] }) := by
  rw [raiseWms_single hw, if_neg (fun ⟨u, hu, howner, htile, hno, hrow⟩ => absurd hrow (Nat.not_lt.mpr (h u hu howner htile hno))), hyounger,
    if_neg Bool.false_ne_true]
end

/-! ## The micro-ops (11 R299, R300) -/

section
variable {s : State} {c : Ctx} {r : Routine} (hc : s.ctx s.cur = some c) (hrun : c.matrix.run = some r) (hcycles : r.cycles < 4096)
include hc hrun hcycles

/-- A micro-op within the cycles of its routine does what its body answers. -/
theorem microStep_of_body {i : Instr} {f : Sp → Ctx → Routine → Option (Ctx × Routine)} {d : Ctx} {r' : Routine} (hi : exec i s = .next (microRun s f))
    (hf : f (s.sp s.cur) c r = some (d, r')) : MicroStep i s d r' := by
  have hlimit : ¬(microLimit ≤ r.cycles ∧ r' ≠ r) := fun h => absurd h.1 (Nat.not_le.mpr hcycles)
  rw [MicroStep, exec_withCtx hi hc]
  simp only [hrun, hf, hlimit, if_false]

section
variable {ring reg n h : Nat} {q : Polder} (hd : (c.kern.port (r.ringPort ring)).polder = some h) (hq : c.polder h = some q)
include hd hq

theorem rpop_takes (hn : ringCount r reg n ≤ availRecs (c.kern.port (r.ringPort ring)) q) :
    MicroStep (.rpop ring reg n) s (c.modPolder h fun q => { q with head := (q.head + ringCount r reg n) % 2 ^ 32 })
      ((r.setCursor ring (cursorAtHead ((q.head + ringCount r reg n) % 2 ^ 32) (r.cursor ring))).pass r.pc 1) := by
  refine microStep_of_body hc hrun hcycles (exec_rpop s) ?_
  have hdesc := (Ctx.descPolder_of_handle hd).trans hq
  simp only [Routine.ringPort_eq, hdesc, hd, Nat.not_lt.mpr hn, min_eq_left hn, false_and, if_false, flagIf, decide_false, Bool.false_eq_true,
    Option.getD_some, Ctx.orKstat_zero, Routine.setCursor_atHead]
  exact congrArg (fun d => some (d, _)) (Ctx.modPolder_congr hq rfl)

theorem rpop_waits (hn : availRecs (c.kern.port (r.ringPort ring)) q < ringCount r reg n) (hopen : q.kind = 2 → q.eos = false) :
    MicroStep (.rpop ring reg n) s c r := by
  refine microStep_of_body hc hrun hcycles (exec_rpop s) ?_
  have hdesc := (Ctx.descPolder_of_handle hd).trans hq
  have hshort : ¬(q.kind = 2 ∧ q.eos = true) := fun ⟨hkind, heos⟩ => by simp [hopen hkind] at heos
  simp only [Routine.ringPort_eq, hdesc, hn, hshort, not_false_eq_true, and_self, if_true]

theorem rpeek_moves : MicroStep (.rpeek ring reg n) s c ((r.setCursor ring ((q.head + ringCount r reg n) % 2 ^ 32)).pass r.pc 1) := by
  refine microStep_of_body hc hrun hcycles (exec_rpeek s) ?_
  have hdesc := (Ctx.descPolder_of_handle hd).trans hq
  simp only [Routine.ringPort_eq, hdesc, Routine.setCursor]
end

theorem accsel_selects {n : Nat} (hn : n < r.call.span) : MicroStep (.accsel n) s c ({ r with sel := n }.pass r.pc 1) :=
  microStep_of_body hc hrun hcycles (exec_accsel s) (if_neg (Nat.not_le.mpr hn))

theorem jmp_jumps {d : Nat} (hlen : r.pc + d < r.words.length) (hloops : ∀ l ∈ r.loops, r.pc + d ≤ l.stop) :
    MicroStep (.jmp d) s c { r with pc := r.pc + d, cycles := r.cycles + 1 } := by
  refine microStep_of_body hc hrun hcycles (exec_jmp s) (if_neg (not_or.mpr ⟨Nat.not_le.mpr hlen, ?_⟩))
  simpa only [List.any_eq_true, decide_eq_true_eq, not_exists, not_and, not_lt] using hloops

section
variable {most reg k body : Nat} (hbody : r.pc + body < r.words.length)
include hbody

theorem loopk_opens (hn : (if reg = 0 then most else min (KMap.get 0 r.k k).toNat most) ≠ 0) (hb : body ≠ 0) (hroom : r.loops.length < 2) :
    MicroStep (.loopk most reg k body) s c
      { r with
        pc := r.pc + 1
        loops := { left := if reg = 0 then most else min (KMap.get 0 r.k k).toNat most, start := r.pc + 1, stop := r.pc + body } :: r.loops
        cycles := r.cycles + 1 } :=
  microStep_of_body hc hrun hcycles (exec_loopk s)
    ((if_neg (Nat.not_le.mpr hbody)).trans ((if_neg (not_or.mpr ⟨hn, hb⟩)).trans (if_neg (Nat.not_le.mpr hroom))))

theorem loopk_skips (hn : (if reg = 0 then most else min (KMap.get 0 r.k k).toNat most) = 0 ∨ body = 0) :
    MicroStep (.loopk most reg k body) s c (r.pass (r.pc + body) 1) :=
  microStep_of_body hc hrun hcycles (exec_loopk s) ((if_neg (Nat.not_le.mpr hbody)).trans (if_pos hn))
end

/-- WMSET asks for its raise, which is tried at once. -/
theorem wmset_asks {n g rows : Nat} (hn : n ≤ 32) (hwms : r.wms = []) (hrows : rows = if g = 1 then 8 * (r.gbase + 1) else n) {m : Matrix} {r' : Routine}
    (h : raiseWms c.matrix { r with wms := [{ tile := r.selTile, rows := rows, before := c.matrix.nextUpd }] } = (m, r')) :
    MicroStep (.wmset n g) s { c with matrix := m } (r'.pass r.pc 1) := by
  refine microStep_of_body hc hrun hcycles (exec_wmset s) ((if_neg (Nat.not_lt.mpr hn)).trans ?_)
  simp only [hwms, List.nil_append, ← hrows, h]

theorem ret_ends : exec .ret s = .next (s.setCtx s.cur { c with matrix := { c.matrix with
    run := none, retiring := c.matrix.retiring ++ [{ r with done := true, cycles := r.cycles + 1 }] } }) := by
  rw [exec_withCtx (exec_ret s) hc]
  simp only [hrun, Nat.not_le.mpr hcycles, if_false]
end

end Sys2Proof.Machine

namespace Sys2Proof

open Machine

/-- Settles O48: each micro-op by its rule. -/
theorem microOpsThatSteer : Obligations.MicroOpsThatSteer := by
  intro s c r hc hrun hcycles
  refine ⟨?_, ?_, ?_, ?_, ?_, ?_, ?_, ?_⟩
  · intro ring reg n q h sn hd hq
    refine ⟨fun hn => ⟨_, rpop_takes hc hrun hcycles hd hq hn, ?_, ?_, ?_, ?_⟩, fun hn hopen => rpop_waits hc hrun hcycles hd hq hn hopen,
      ⟨_, rpeek_moves hc hrun hcycles hd hq, ?_, ?_, ?_, ?_⟩⟩
    · exact r.cursor_setCursor ring _
    · simp only [Routine.pass, Routine.setCursor_loops]
    · simp only [Routine.pass, Routine.setCursor_cycles]
    · simp only [Routine.pass, Routine.setCursor_k]
    · exact r.cursor_setCursor ring _
    · exact r.setCursor_otherCursor ring _
    · simp only [Routine.pass, Routine.setCursor_loops]
    · simp only [Routine.pass, Routine.setCursor_cycles]
  · exact fun inc g => microStep_of_body hc hrun hcycles (exec_rowg s) rfl
  · exact fun n hn => accsel_selects hc hrun hcycles hn
  · exact fun kd m half => microStep_of_body hc hrun hcycles (exec_parm s) rfl
  · exact fun d hlen hloops => jmp_jumps hc hrun hcycles hlen hloops
  · exact fun most reg k body hbody => ⟨fun hn hb hroom => loopk_opens hc hrun hcycles hbody hn hb hroom, fun hn => loopk_skips hc hrun hcycles hbody hn⟩
  · intro n g rows hn hwms hrows
    refine ⟨fun hheld => wmset_asks hc hrun hcycles hn hwms hrows (raiseWms_waits rfl hheld), fun hfree hyounger => ?_⟩
    have hstep := wmset_asks hc hrun hcycles hn hwms hrows (raiseWms_raises rfl hfree hyounger)
    rwa [← hwms] at hstep
  · exact ret_ends hc hrun hcycles

end Sys2Proof
end

