-- ==== Sys2Proof/Proofs/MatrixUnit.lean ====
section
/-! PROOF. The matrix unit between its micro-ops: the start of a call, the landing of an update, the retirement of a routine (11 R280, R288 to R290). -/

namespace Sys2Proof.Machine

/-! ## Start of a call (11 R280, R283, R298) -/

theorem callQueueStart_starts {s : State} {k : Nat} {c : Ctx} {e : MCallE} {l : List MCallE} (hc : s.ctx k = some c) (hrun : c.matrix.run = none)
    (hqueue : c.matrix.queue = e :: l) (hfrom : e.from_ ≤ s.now) (hdrain : c.matrix.drain = none) :
    CtxStep (.callQueueStart k) s k { c with matrix := { c.matrix with queue := l, run := some (Routine.start (s.sp k) c e) } } := by
  refine (ctxStep_mod _ hc (exec_callQueueStart s)).congr ?_
  simp only [hrun, hqueue, hfrom, hdrain, decide_true, Option.isNone_none, Bool.and_self, if_true]

/-! ## Landing of an update (11 R289) -/

/-- Accumulator `j` of a row is its digit of 32 bits. -/
theorem accRow_eq (u : AccUpd) (row : Nat) (sums : List Val) : accRow u row sums =
    (packElems 32 ((List.range 32).map fun j => (accNew u (row / 2 ^ (32 * j) % 2 ^ 32) (sums.getD j (.fin false 0 0))).1),
      flagsOf ((List.range 32).map fun j => (accNew u (row / 2 ^ (32 * j) % 2 ^ 32) (sums.getD j (.fin false 0 0))).2)) := by
  have hdigits : rowElems 4 row = (List.range 32).map fun j => row / 2 ^ (32 * j) % 2 ^ 32 := rowElemsN_eq 32 row 32
  have helems : (rowElems 4 row).zip (List.range 32) = (List.range 32).map fun j => (row / 2 ^ (32 * j) % 2 ^ 32, j) := by
    rw [hdigits]
    simpa only [List.map_id, id_eq] using List.zip_map' (f := fun j => row / 2 ^ (32 * j) % 2 ^ 32) (g := id) (l := List.range 32)
  simp only [accRow, helems, List.map_map, Function.comp_def]

section
variable {u : AccUpd} (hkind : u.kind = 0)
include hkind

theorem accNew_float (hmode : u.mode = 0) (acc : Nat) (sum : Val) :
    accNew u acc sum = fAdd fmtF32 0 u.exposed (fmtF32.decode (if u.exposed then fmtF32.flushIn acc else acc)) sum := by
  simp only [accNew, hkind, hmode, if_true]

theorem accNew_int (hmode : u.mode ≠ 0) (acc : Nat) (sum : Val) : accNew u acc sum = ((((acc : Int) + sum.toInt) % 2 ^ 32).toNat, 0) := by
  simp only [accNew, hkind, hmode, if_false]
  rfl

/-- A floating-point sum is added with one rounding, in mode 0. -/
theorem accRow_float (hmode : u.mode = 0) (row : Nat) (sums : List Val) : accRow u row sums =
    (packElems 32 ((List.range 32).map fun j => (fAdd fmtF32 0 u.exposed
        (fmtF32.decode (if u.exposed then fmtF32.flushIn (row / 2 ^ (32 * j) % 2 ^ 32) else row / 2 ^ (32 * j) % 2 ^ 32)) (sums.getD j (.fin false 0 0))).1),
      (accRow u row sums).2) := by
  refine Prod.ext ?_ rfl
  simp only [accRow_eq, accNew_float hkind hmode]

/-- An integer sum is added modulo 2^32, and raises no flag. -/
theorem accRow_int (hmode : u.mode ≠ 0) (row : Nat) (sums : List Val) : accRow u row sums =
    (packElems 32 ((List.range 32).map fun j => (((row / 2 ^ (32 * j) % 2 ^ 32 : Nat) + (sums.getD j (.fin false 0 0)).toInt) % 2 ^ 32).toNat), 0) := by
  simp only [accRow_eq, accNew_int hkind hmode]
  rfl

theorem landAcc_row {cl i : Nat} {sums : List Val} (hsums : u.sums = [(cl, i, sums)]) (hflags : u.flags = 0) (c : Ctx) :
    c.landAcc u = { c.orKstat (accRow u (KMap.get 0 c.v (cl * 128 + 32 * u.tile + i)).toNat sums).2 with
      v := KMap.ins (cl * 128 + 32 * u.tile + i) (BitVec.ofNat 1024 (accRow u (KMap.get 0 c.v (cl * 128 + 32 * u.tile + i)).toNat sums).1) c.v } := by
  simp only [Ctx.landAcc, hkind, hsums, hflags, Ctx.orKstat_zero, true_or, if_true, List.foldl_cons, List.foldl_nil]
end

theorem Matrix.settleWms_idle {m : Matrix} (hrun : m.run = none) (hret : m.retiring = []) : m.settleWms = m := by
  simp only [Matrix.settleWms, hrun, hret, List.foldl_nil]

section
variable {s : State} {k : Nat} {c : Ctx} {u : AccUpd} (hc : s.ctx k = some c) (hrun : c.matrix.run = none) (hret : c.matrix.retiring = [])
  (hupd : c.matrix.upd = [u])
include hc hrun hret hupd

theorem accUpdateLanding_nearer (hleft : 1 < u.left) :
    CtxStep (.accUpdateLanding k) s k { c with matrix := { c.matrix with upd := [{ u with left := u.left - 1 }] } } := by
  refine (ctxStep_mod _ hc (exec_accUpdateLanding s)).congr ?_
  have hnear : u.left - 1 ≠ 0 := by omega
  simp only [hupd, List.map_cons, List.map_nil, List.filter_cons, List.filter_nil, hnear, ne_eq, not_false_eq_true, decide_true, decide_false,
    Bool.false_eq_true, if_true, if_false, List.foldl_nil]
  rw [Matrix.settleWms_idle]
  exacts [hrun, hret]

theorem accUpdateLanding_lands (hleft : u.left = 1) (hkind : u.kind = 0) {cl i : Nat} {sums : List Val} (hsums : u.sums = [(cl, i, sums)])
    (hflags : u.flags = 0) {row : WithFlags Nat} (hrow : accRow { u with left := 0 } (KMap.get 0 c.v (cl * 128 + 32 * u.tile + i)).toNat sums = row) :
    CtxStep (.accUpdateLanding k) s k
      { c.orKstat row.2 with v := KMap.ins (cl * 128 + 32 * u.tile + i) (BitVec.ofNat 1024 row.1) c.v, matrix := { c.matrix with upd := [] } } := by
  subst hrow
  refine (ctxStep_mod _ hc (exec_accUpdateLanding s)).congr ?_
  simp only [hupd, hleft, List.map_cons, List.map_nil, List.filter_cons, List.filter_nil, Nat.sub_self, ne_eq, not_true_eq_false, decide_true, decide_false,
    Bool.false_eq_true, if_true, if_false, List.foldl_cons, List.foldl_nil]
  rw [landAcc_row (u := { u with left := 0 }) hkind hsums hflags, Matrix.settleWms_idle]
  exacts [rfl, hrun, hret]
end

/-! ## Retirement of a routine (11 R288, R290) -/

/-- The rings of a routine popped as far as it has read, unless it keeps them. -/
def Ctx.popRings (c : Ctx) (r : Routine) : Ctx := if r.call.keep || r.call.zero then c else (c.popRead r.call.a r.highA).popRead r.call.b r.highB

@[simp] theorem Ctx.popRead_matrix (c : Ctx) (sn high : Nat) : (c.popRead sn high).matrix = c.matrix := by
  unfold Ctx.popRead
  split
  · rfl
  · split <;> rfl

@[simp] theorem Ctx.popRings_matrix (c : Ctx) (r : Routine) : (c.popRings r).matrix = c.matrix := by
  unfold Ctx.popRings
  split
  · rfl
  · rw [Ctx.popRead_matrix, Ctx.popRead_matrix]

theorem popRead_zero (c : Ctx) (sn : Nat) : c.popRead sn 0 = c := rfl

/-- A ring whose head stands behind what has been read. -/
theorem popRead_behind {c : Ctx} {sn high h : Nat} {q : Polder} (hhigh : 0 < high) (hd : (c.kern.port sn).polder = some h) (hq : c.polder h = some q)
    (hbehind : dif32 high q.head < 2 ^ 31) : c.popRead sn high = c.modPolder h fun q => { q with head := high % 2 ^ 32 } := by
  simp only [Ctx.popRead, Nat.ne_of_gt hhigh, if_false, hd]
  exact Ctx.modPolder_congr hq (if_pos hbehind)

/-- Without outstanding calls none is younger: the watermark of every tile rises. -/
theorem Matrix.foldl_finish {m : Matrix} (hnone : m.outstanding = []) (id : Nat) (tiles : List Nat) :
    tiles.foldl (fun (m : Matrix) t => if m.younger id t then m else { m with wm := KMap.ins t 32 m.wm }) m =
      { m with wm := tiles.foldl (fun w t => KMap.ins t 32 w) m.wm } := by
  induction tiles generalizing m with
  | nil => rfl
  | cons t tiles ih =>
    have hyounger : m.younger id t = false := by rw [Matrix.younger, hnone]; rfl
    have hnext : ({ m with wm := KMap.ins t 32 m.wm } : Matrix).outstanding = [] := hnone
    simp only [List.foldl_cons, hyounger, Bool.false_eq_true, if_false, ih hnext]

/-- The last routine of a unit retires, its results having landed. -/
theorem routineRetire_last {s : State} {k : Nat} {c : Ctx} {r : Routine} (hc : s.ctx k = some c) (hret : c.matrix.retiring = [r])
    (hrun : c.matrix.run = none) (hqueue : c.matrix.queue = []) (hlanded : ∀ u ∈ c.matrix.upd, u.owner ≠ r.call.id) {d : Ctx} (hd : c.popRings r = d) :
    CtxStep (.routineRetire k) s k
      { d with matrix := { c.matrix with retiring := [], wm := r.call.tiles.foldl (fun w t => KMap.ins t 32 w) c.matrix.wm } } := by
  subst hd
  refine (ctxStep_mod _ hc (exec_routineRetire s)).congr ?_
  have hall : (c.matrix.upd.any fun u => decide (u.owner = r.call.id)) = false := by
    simpa only [List.any_eq_false, decide_eq_true_eq] using hlanded
  have hnone : ({ c.matrix with retiring := [] } : Matrix).outstanding = [] := by
    simp only [Matrix.outstanding, hrun, hqueue, List.map_nil, List.append_nil]
  rw [hret, List.foldl_cons, List.foldl_nil, Ctx.retireRoutine, hall, if_neg Bool.false_ne_true, ← Ctx.popRings]
  simp only [Ctx.popRings_matrix, hret, List.filter_cons, List.filter_nil, ne_eq, not_true_eq_false, decide_false, Bool.false_eq_true, if_false]
  rw [Matrix.foldl_finish hnone]

end Sys2Proof.Machine

namespace Sys2Proof

open Machine

/-- Settles O51: each step by its rule; an integer sum raises no flag. -/
theorem matrixUnitSteps : Obligations.MatrixUnitSteps := by
  refine ⟨?_, ?_, ?_⟩
  · intro k e l s c hc hrun hqueue hfrom hdrain
    refine ⟨_, callQueueStart_starts hc hrun hqueue hfrom hdrain, rfl, rfl, rfl, rfl, rfl, rfl, ?_, ?_, ?_, ?_⟩
    · exact fun hzero => if_pos hzero
    · intro hzero w hw
      simp only [Routine.start, hzero, hw, Bool.false_eq_true, if_false, Option.getD_some]
    · intro q hq
      simp only [Routine.start, hq, Option.map_some, Option.getD_some]
    · intro q hq
      simp only [Routine.start, hq, Option.map_some, Option.getD_some]
  · intro k u s c hc hrun hret hupd
    refine ⟨fun hleft => accUpdateLanding_nearer hc hrun hret hupd hleft, ?_⟩
    intro cl i sums hleft hkind hsums hflags key old
    refine ⟨fun hmode => ?_, fun hmode => ?_⟩
    · have hland := accUpdateLanding_lands hc hrun hret hupd hleft hkind hsums hflags (accRow_float (u := { u with left := 0 }) hkind hmode ..)
      exact ⟨_, hland⟩
    · have hland := accUpdateLanding_lands hc hrun hret hupd hleft hkind hsums hflags (accRow_int (u := { u with left := 0 }) hkind hmode ..)
      rwa [Ctx.orKstat_zero] at hland
  · intro k r s c hc hret hrun hqueue hlanded
    refine ⟨fun hkeep => routineRetire_last hc hret hrun hqueue hlanded ?_, fun h q hkeep hzero hhighA hhighB hd hq hbehind =>
      routineRetire_last hc hret hrun hqueue hlanded ?_⟩
    · simp only [Ctx.popRings, hkeep, Bool.true_or, if_true]
    · simp only [Ctx.popRings, hkeep, hzero, hhighB, popRead_zero, Bool.or_self, Bool.false_eq_true, if_false]
      exact popRead_behind hhighA hd hq hbehind

end Sys2Proof
end

-- ==== Sys2Proof/Proofs/MemoryFrames.lean ====

section
/-! SUPPORT. What leaves memory alone (12 R326): every shared operation of the model that neither stores, nor fills or empties a line of the memory-side
cache, nor resets the part, in the order of the model's files. -/

namespace Sys2Proof.Machine

/-- A fold leaves memory alone where each of its steps does. -/
theorem State.foldl_mem {α : Type} {f : State → α → State} (h : ∀ t a, (f t a).mem = t.mem) (l : List α) (s : State) :
    (l.foldl f s).mem = s.mem := by
  induction l generalizing s with
  | nil => rfl
  | cons a l ih => rw [List.foldl_cons, ih, h]

@[simp] theorem State.foldl_modSp_mem {α : Type} (l : List α) (k : α → Nat) (f : State → α → Sp → Sp) (s : State) :
    (l.foldl (fun t a => t.modSp (k a) (f t a)) s).mem = s.mem :=
  State.foldl_mem (fun t a => State.modSp_mem t (k a) (f t a)) l s

@[simp] theorem State.foldl_modCtx_mem {α : Type} (l : List α) (k : α → Nat) (f : State → α → Ctx → Ctx) (s : State) :
    (l.foldl (fun t a => t.modCtx (k a) (f t a)) s).mem = s.mem :=
  State.foldl_mem (fun t a => State.modCtx_mem t (k a) (f t a)) l s

/-! ## Ops -/

theorem State.withCtx_mem {s : State} {k : Nat} {f : Ctx → State} (h : ∀ c, (f c).mem = s.mem) : (s.withCtx k f).mem = s.mem := by
  unfold State.withCtx
  split
  · rfl
  · exact h _

@[simp] theorem State.fresh_mem (s : State) : s.fresh.2.mem = s.mem := rfl

@[simp] theorem State.logPoison_mem (s : State) (a ia : Nat) : (s.logPoison a ia).mem = s.mem := rfl

@[simp] theorem State.countCorrected_mem (s : State) (a : Nat) : (s.countCorrected a).mem = s.mem := rfl

@[simp] theorem State.meetUpset_mem (s : State) (tag beat : Nat) : (s.meetUpset tag beat).2.mem = s.mem := by
  unfold State.meetUpset
  repeat' split
  all_goals rfl

@[simp] theorem State.keepOwn_mem (s : State) (a n : Nat) : (s.keepOwn a n).mem = s.mem := by
  unfold State.keepOwn
  split <;> rfl

@[simp] theorem State.arriveAt_mem (s : State) (k : Nat) (ref : Dword) (n code : Nat) : (s.arriveAt k ref n code).mem = s.mem :=
  State.withCtx_mem fun _ => rfl

@[simp] theorem State.uniform_mem (s : State) (p : Nat) (f : Nat → Ctx → Ctx) : (s.uniform p f).mem = s.mem := State.foldl_mem (fun _ _ => by simp) _ _

@[simp] theorem State.hint_mem (s : State) (k launch va n : Nat) : (s.hint k launch va n).mem = s.mem := by
  unfold State.hint
  split <;> rfl

@[simp] theorem State.control_mem (s : State) (p : Nat) (f : Ctx → Kern → Kern) : (s.control p f).mem = s.mem := by
  unfold State.control
  split
  · rfl
  · split
    · exact State.foldl_mem (fun t k => State.modCtx_mem t k _) _ _
    · rfl

@[simp] theorem State.endLaunch_mem (s : State) (id cause rank word addr pc : Nat) : (s.endLaunch id cause rank word addr pc).mem = s.mem := by
  unfold State.endLaunch
  repeat' split
  all_goals rfl

@[simp] theorem State.takeException_mem (s : State) (k cause : Nat) (tval : Dword) : (s.takeException k cause tval).mem = s.mem :=
  State.withCtx_mem fun _ => by split <;> simp

/-! ## Link -/

@[simp] theorem State.modPort_mem (s : State) (n : Nat) (f : Port → Port) : (s.modPort n f).mem = s.mem := rfl

@[simp] theorem State.sendOver_mem (s : State) (n input addr ready : Nat) (k : Packet) : (s.sendOver n input addr ready k).mem = s.mem := by
  unfold State.sendOver
  split <;> rfl

@[simp] theorem State.sendFrom_mem (s : State) (n input ready : Nat) (k : Packet) : (s.sendFrom n input ready k).mem = s.mem := by simp [State.sendFrom]

@[simp] theorem State.sendPacket_mem (s : State) (n : Nat) (k : Packet) : (s.sendPacket n k).mem = s.mem := by simp [State.sendPacket]

@[simp] theorem State.upSlot_mem (s : State) (n slot : Nat) : (s.upSlot n slot).mem = s.mem := by
  unfold State.upSlot
  dsimp only
  repeat' split
  all_goals rfl

@[simp] theorem State.outSlot_mem (s : State) (n slot : Nat) : (s.outSlot n slot).mem = s.mem := by
  unfold State.outSlot
  dsimp only
  repeat' split
  all_goals rfl

@[simp] theorem State.replay_mem (s : State) (n : Nat) : (s.replay n).mem = s.mem := by
  unfold State.replay
  split <;> rfl

@[simp] theorem State.lineTurn_mem (s : State) (n : Nat) : (s.lineTurn n).mem = s.mem := by
  unfold State.lineTurn
  dsimp only
  repeat' split
  all_goals simp [State.foldl_mem]

/-! ## Regs -/

@[simp] theorem State.holeHit_mem (s : State) : s.holeHit.mem = s.mem := rfl

@[simp] theorem State.regAccess_mem (s : State) (a : Nat) : (s.regAccess a).2.mem = s.mem := by
  unfold State.regAccess
  split <;> rfl

/-! ## Cslot -/

@[simp] theorem qWrite_mem (lat p qd : Nat) (f : Nat → Ctx → Dword) (s : State) : (qWrite lat p qd f s).mem = s.mem := by simp [qWrite]

@[simp] theorem qOp_mem (lat p qd qa qb : Nat) (f : Dword → Dword → Dword) (s : State) : (qOp lat p qd qa qb f s).mem = s.mem := by simp [qOp]

@[simp] theorem cWrite_mem (lat p cd : Nat) (f : Nat → Ctx → Bool) (s : State) : (cWrite lat p cd f s).mem = s.mem := by simp [cWrite]

@[simp] theorem pWrite_mem (p pd w : Nat) (f : Ctx → Nat) (s : State) : (pWrite p pd w f s).mem = s.mem := by simp [pWrite]

@[simp] theorem loopOpen_mem (mode p b reg n stages : Nat) (s : State) : (loopOpen mode p b reg n stages s).mem = s.mem := by
  unfold loopOpen
  dsimp only
  repeat' split
  all_goals simp [State.foldl_mem]

@[simp] theorem State.dikeArrive_mem (s : State) (part e k : Nat) : (s.dikeArrive part e k).mem = s.mem := rfl

/-! ## Sslot -/

@[simp] theorem clusterWrite_mem (lat p : Nat) (f : Nat → Ctx → Nat → Landed) (s : State) : (clusterWrite lat p f s).mem = s.mem :=
  State.foldl_mem (fun _ _ => by simp) _ _

@[simp] theorem gWrite_mem (lat p gd : Nat) (f : Ctx → Nat → Dword) (s : State) : (gWrite lat p gd f s).mem = s.mem := by simp [gWrite]

@[simp] theorem gOp_mem (lat p gd ga gb : Nat) (f : Dword → Dword → Dword) (s : State) : (gOp lat p gd ga gb f s).mem = s.mem := by simp [gOp]

/-! ## Xslot -/

@[simp] theorem iWrite_mem (lat p id : Nat) (f : Ctx → Nat → Nat) (s : State) : (iWrite lat p id f s).mem = s.mem := by simp [iWrite]

@[simp] theorem iOp_mem (p id ia ib : Nat) (f : Nat → Nat → Nat) (s : State) : (iOp p id ia ib f s).mem = s.mem := by simp [iOp]

@[simp] theorem aqPush_mem (srf : Bool) (p sn ia imm : Nat) (s : State) : (aqPush srf p sn ia imm s).mem = s.mem := by simp [aqPush]

/-! ## Pslot -/

@[simp] theorem rawPopRun_mem (adv : Bool) (p sn v len : Nat) (s : State) : (rawPopRun adv p sn v len s).mem = s.mem := by simp [rawPopRun]

/-! ## Segs -/

@[simp] theorem State.sendPull_mem (s : State) (part die page : Nat) (m : Migr) : (s.sendPull part die page m).mem = s.mem := by simp [State.sendPull]

@[simp] theorem State.askPage_mem (s : State) (part die page : Nat) : (s.askPage part die page).mem = s.mem := by
  unfold State.askPage
  repeat' split
  all_goals simp

@[simp] theorem State.askTable_mem (s : State) (part a : Nat) : (s.askTable part a).mem = s.mem := by simp [State.askTable]

@[simp] theorem State.tokHeard_mem (s : State) (launch rank region v : Nat) : (s.tokHeard launch rank region v).mem = s.mem := rfl

@[simp] theorem State.tokWithdraw_mem (s : State) (part r : Nat) (c : TokCtx) : (s.tokWithdraw part r c).mem = s.mem := rfl

@[simp] theorem State.tokSend_mem (s : State) (k : Nat) (c : Ctx) (ia what : Nat) : (s.tokSend k c ia what).mem = s.mem := by
  unfold State.tokSend
  split <;> simp

/-! ## Matrix -/

@[simp] theorem State.routineError_mem (s : State) (k : Nat) : (s.routineError k).mem = s.mem := by
  unfold State.routineError
  refine State.withCtx_mem fun c => ?_
  split
  · rfl
  · exact State.foldl_mem (fun t m => State.modCtx_mem t m _) _ _

@[simp] theorem microRun_mem (s : State) (f : Sp → Ctx → Routine → Option (Ctx × Routine)) : (microRun s f).mem = s.mem := by
  unfold microRun
  refine State.withCtx_mem fun c => ?_
  repeat' split
  all_goals simp

/-! ## Vector -/

@[simp] theorem vRun_mem (fm : VForm) (o : VSlot) (fn : VEnv → VIn → VOut) (s : State) : (vRun fm o fn s).mem = s.mem :=
  State.foldl_mem (fun _ _ => by simp) _ _

/-! ## Vint -/

@[simp] theorem vInt1_mem (op : Nat) (o : VSlot) (f : Nat → Nat → Nat) (s : State) : (vInt1 op o f s).mem = s.mem := by simp [vInt1]

@[simp] theorem vInt2_mem (op : Nat) (o : VSlot) (f : Nat → Nat → Nat → Nat) (s : State) : (vInt2 op o f s).mem = s.mem := by simp [vInt2]

/-! ## Vfp -/

@[simp] theorem vFp1_mem (fm : VForm) (o : VSlot) (f : Fmt → VEnv → Nat → Elem) (s : State) : (vFp1 fm o f s).mem = s.mem := by simp [vFp1]

@[simp] theorem vFp2_mem (fm : VForm) (o : VSlot) (f : Fmt → VEnv → Nat → Nat → Elem) (s : State) : (vFp2 fm o f s).mem = s.mem := by simp [vFp2]

@[simp] theorem vFp3_mem (fm : VForm) (o : VSlot) (f : Fmt → VEnv → Nat → Nat → Nat → Elem) (s : State) :
    (vFp3 fm o f s).mem = s.mem := by simp [vFp3]

@[simp] theorem vSpecial_mem (op : Nat) (o : VSlot) (s : State) : (vSpecial op o s).mem = s.mem := by simp [vSpecial]

/-! ## Wslot -/

@[simp] theorem switchWrite_mem (lat p vd : Nat) (f : Nat → Ctx → Nat → Nat × Nat) (s : State) : (switchWrite lat p vd f s).mem = s.mem :=
  by simp [switchWrite]

@[simp] theorem switchSum_mem (p vd t : Nat) (res : List SumRow) (s : State) : (switchSum p vd t res s).mem = s.mem := by simp [switchSum]

/-! ## Bundle -/

@[simp] theorem State.bundleEvent_mem (s : State) (f : BundleFault) (a : Nat) : (s.bundleEvent f a).mem = s.mem := by
  unfold State.bundleEvent
  rw [State.foldl_mem fun t k => State.modCtx_mem t k _]
  cases s.poisonedBeat a <;> simp [apply_ite State.mem]

@[simp] theorem State.issueAs_mem (s : State) (k : Nat) : (s.issueAs k).mem = s.mem := rfl

/-! ## Seq -/

@[simp] theorem State.kernAll_mem (s : State) (ks : List Nat) (f : Kern → Kern) : (s.kernAll ks f).mem = s.mem :=
  State.foldl_mem (fun _ _ => by simp) _ _

@[simp] theorem State.trapStop_mem (s : State) (b : Nat) : (s.trapStop b).mem = s.mem := State.foldl_mem (fun _ _ => by simp) _ _

theorem State.atEnd_mem {s : State} {k : Nat} {f : State → Nat → Kern → Nat → State} (h : ∀ t m c b, (f t m c b).mem = t.mem) :
    (s.atEnd k f).mem = s.mem := by
  unfold State.atEnd
  dsimp only
  repeat' split
  all_goals simp [h]

@[simp] theorem State.settle_mem (s0 : State) (k : Nat) : (s0.settle k).mem = s0.mem := by
  unfold State.settle
  refine State.atEnd_mem fun t m c b => ?_
  split
  · exact State.foldl_mem (fun t m => State.modCtx_mem t m _) _ _
  · simp
  · rfl

@[simp] theorem State.kresWrite_mem (s : State) (k : Nat) : (s.kresWrite k).mem = s.mem := by
  unfold State.kresWrite
  refine State.withCtx_mem fun c => ?_
  dsimp only
  repeat' split
  all_goals simp [State.foldl_mem]

@[simp] theorem State.kkillWrite_mem (s : State) (k : Nat) : (s.kkillWrite k).mem = s.mem := State.foldl_mem (fun _ _ => by simp) _ _

@[simp] theorem State.seqTick_mem (s : State) (k : Nat) : (s.seqTick k).2.mem = s.mem := by
  unfold State.seqTick
  dsimp only
  repeat' split
  all_goals simp

/-! ## Rv -/

@[simp] theorem State.illegal_mem (s : State) : s.illegal.mem = s.mem := State.withCtx_mem fun _ => by simp

@[simp] theorem rvStep_mem (n : Nat) (f : Ctx → Ctx) (s : State) : (rvStep n f s).mem = s.mem := by simp [rvStep]

@[simp] theorem State.ctlWrite_mem (s : State) (a n v : Nat) : (s.ctlWrite a n v).mem = s.mem := rfl

/-! ## Csr -/

@[simp] theorem State.writeKstatus_mem (s : State) (k : Nat) (v m : Dword) : (s.writeKstatus k v m).mem = s.mem := by
  unfold State.writeKstatus
  dsimp only
  repeat' split
  all_goals simp

@[simp] theorem State.writeCsr_mem (s : State) (k n : Nat) (v m : Dword) : (s.writeCsr k n v m).mem = s.mem := by
  unfold State.writeCsr
  split <;> simp

/-! ## Sets -/

@[simp] theorem State.retireCode_mem (s : State) (rd code : Nat) : (s.retireCode rd code).mem = s.mem := by simp [State.retireCode]

@[simp] theorem State.enter_mem (s : State) (i : Instr) (rd : Nat) (a b : Dword) (code : Nat) (f : Ctx → Command) :
    (s.enter i rd a b code f).mem = s.mem := by
  unfold State.enter
  refine State.withCtx_mem fun c => ?_
  repeat' split
  all_goals simp

/-! ## Records -/

@[simp] theorem State.copyEnter_mem (s : State) (i : Instr) (rd rs1 rs2 : Nat) : (s.copyEnter i rd rs1 rs2).mem = s.mem :=
  State.withCtx_mem fun _ => by split <;> simp

/-! ## KernelCmd -/

@[simp] theorem State.khaltOthers_mem (s : State) (k : Nat) (c : Ctx) : (s.khaltOthers k c).mem = s.mem := by
  unfold State.khaltOthers
  split
  · rfl
  · exact State.foldl_mem (fun t m => State.modSp_mem t m _) _ _

@[simp] theorem State.sweepEnter_mem (s : State) (i : Instr) (rd rs1 rs2 : Nat) : (s.sweepEnter i rd rs1 rs2).mem = s.mem :=
  State.withCtx_mem fun _ => by simp

/-! ## Tasks -/

@[simp] theorem State.modOwner_mem (s : State) (k launch : Nat) (f : Ctx → Ctx) : (s.modOwner k launch f).mem = s.mem := rfl

@[simp] theorem State.reseed_mem (s : State) (launch : Nat) : (s.reseed launch).mem = s.mem := rfl

@[simp] theorem State.exitContext_mem (s : State) (k : Nat) (c : Ctx) : (s.exitContext k c).mem = s.mem := by
  unfold State.exitContext
  dsimp only
  repeat' split
  all_goals simp

/-! ## Vct -/

@[simp] theorem State.sendOwn_mem (s : State) (vf type_ status tag port addr : Nat) (payload : List Byte) :
    (s.sendOwn vf type_ status tag port addr payload).mem = s.mem :=
  rfl

@[simp] theorem State.reply_mem (s : State) (h : VctHdr) (type_ status : Nat) (payload : List Byte) : (s.reply h type_ status payload).mem = s.mem := rfl

@[simp] theorem State.replyOwn_mem (s : State) (h : VctHdr) (type_ status : Nat) (payload : List Byte) : (s.replyOwn h type_ status payload).mem = s.mem :=
  rfl

@[simp] theorem State.ackMsg_mem (s : State) (h : VctHdr) : (s.ackMsg h).mem = s.mem := rfl

@[simp] theorem State.nak_mem (s : State) (h : VctHdr) (code : Nat) : (s.nak h code).mem = s.mem := rfl

@[simp] theorem State.nextHeld_mem (s : State) (vf : Nat) : (s.nextHeld vf).mem = s.mem := by
  unfold State.nextHeld
  dsimp only
  repeat' split
  all_goals rfl

@[simp] theorem State.nakOnly_mem (s : State) (h : VctHdr) (code : Nat) : (s.nakOnly h code).mem = s.mem := rfl

/-! ## Access -/

@[simp] theorem State.modAcc_mem (s : State) (n : Nat) (f : Acc → Acc) : (s.modAcc n f).mem = s.mem := rfl

@[simp] theorem State.dropAcc_mem (s : State) (n : Nat) : (s.dropAcc n).mem = s.mem := rfl

@[simp] theorem State.modMmu_mem (s : State) (d : Nat) (f : Mmu → Mmu) : (s.modMmu d f).mem = s.mem := rfl

@[simp] theorem State.accRefuse_mem (s : State) (n status : Nat) : (s.accRefuse n status).mem = s.mem := by
  unfold State.accRefuse
  split <;> rfl

@[simp] theorem State.accFail_mem (s : State) (n status : Nat) : (s.accFail n status).mem = s.mem := by
  unfold State.accFail
  split <;> rfl

@[simp] theorem State.leave_mem (s : State) (n : Nat) : (s.leave n).mem = s.mem := by
  unfold State.leave
  dsimp only
  repeat' split
  all_goals rfl

theorem State.handTo_mem {s : State} {n : Nat} {far : Option (Nat × Nat)} {f : Nat → State → State} (h : ∀ e t, (f e t).mem = t.mem) :
    (s.handTo n far f).mem = s.mem := by
  unfold State.handTo
  repeat' split
  all_goals simp [h]

@[simp] theorem State.toSlice_mem (s : State) (n pa : Nat) : (s.toSlice n pa).mem = s.mem := by
  unfold State.toSlice
  split
  · rfl
  · dsimp only
    split
    · split
      · simp
      · exact State.handTo_mem fun _ t => State.leave_mem t n
    · exact State.handTo_mem fun _ t => State.leave_mem t n
    · simp

@[simp] theorem State.tellFault_mem (s : State) (part : Nat) (r : FaultRec) : (s.tellFault part r).mem = s.mem := by
  unfold State.tellFault
  repeat' split
  all_goals rfl

@[simp] theorem State.tellFaults_mem (s : State) (part : Nat) : (s.tellFaults part).mem = s.mem := by
  unfold State.tellFaults
  split
  · rfl
  · exact State.foldl_mem (fun t r => State.tellFault_mem t part r) _ _

@[simp] theorem State.markParked_mem (s : State) (a : Acc) (on : Bool) : (s.markParked a on).mem = s.mem := by
  unfold State.markParked
  split <;> rfl

@[simp] theorem State.toPeer_mem (s : State) (n : Nat) : (s.toPeer n).mem = s.mem := by
  unfold State.toPeer
  repeat' split
  any_goals simp
  exact State.handTo_mem fun e t => by simp

@[simp] theorem State.addAcc_mem (s : State) (a : Acc) : (s.addAcc a).2.mem = s.mem := rfl

@[simp] theorem State.tlbInvalidate_mem (s : State) (part base len : Nat) : (s.tlbInvalidate part base len).mem = s.mem := rfl

@[simp] theorem State.copyFinish_mem (s : State) (k launch seq : Nat) : (s.copyFinish k launch seq).mem = s.mem := by
  unfold State.copyFinish
  repeat' split
  all_goals rfl

@[simp] theorem State.engineRetry_mem (s : State) (n : Nat) : (s.engineRetry n).mem = s.mem := by
  unfold State.engineRetry
  repeat' split
  all_goals simp

@[simp] theorem State.enginesFree_mem (s : State) (die : Nat) : (s.enginesFree die).mem = s.mem := State.foldl_mem (fun _ _ => by simp) _ _

@[simp] theorem State.askTables_mem (s : State) (a : Acc) : (s.askTables a).mem = s.mem := by
  unfold State.askTables
  cases s.tableOf a <;> simp

/-! ## KernelRun -/

@[simp] theorem State.kernelDone_mem (s : State) (k : Nat) (e : Entry) (ports : KMap Desc) (status : Nat) : (s.kernelDone k e ports status).mem = s.mem :=
  rfl

@[simp] theorem State.kernelsDone_mem (s : State) (ks : List Nat) (status : Nat) : (s.kernelsDone ks status).mem = s.mem := by
  unfold State.kernelsDone
  refine State.foldl_mem (fun t m => State.withCtx_mem fun c => ?_) _ _
  split <;> simp

@[simp] theorem State.beginIn_mem (s : State) (k : Nat) : (s.beginIn k).mem = s.mem := by
  unfold State.beginIn
  refine State.withCtx_mem fun c => ?_
  repeat' split
  all_goals simp

@[simp] theorem State.activationOver_mem (s : State) (k : Nat) : (s.activationOver k).mem = s.mem := by simp [State.activationOver]

@[simp] theorem State.activate_mem (s : State) (k : Nat) (ready : List Nat) (n : Nat) : (s.activate k ready n).mem = s.mem := by
  unfold State.activate
  refine State.withCtx_mem fun c => ?_
  dsimp only
  repeat' split
  all_goals simp

/-! ## Fabric -/

@[simp] theorem State.takePacket_mem (s : State) (port far flits : Nat) (k : Packet) : (s.takePacket port far flits k).mem = s.mem := by
  unfold State.takePacket
  repeat' split
  all_goals rfl

@[simp] theorem State.forward_mem (s : State) (n o : Nat) (hdr tail : List Byte) (k : Packet) (bad : Bool) :
    (s.forward n o hdr tail k bad).mem = s.mem := by
  unfold State.forward
  repeat' split
  all_goals simp

@[simp] theorem State.sendTo_mem (s : State) (p : Part) (k : Packet) : (s.sendTo p k).mem = s.mem := by simp [State.sendTo]

@[simp] theorem State.sendAnswer_mem (s : State) (p : Part) (k r : Packet) : (s.sendAnswer p k r).mem = s.mem := by
  unfold State.sendAnswer
  split <;> simp

@[simp] theorem State.beatAnswer_mem (s : State) (p : Part) (k r : Packet) : (s.beatAnswer p k r).mem = s.mem := by simp [State.beatAnswer]

@[simp] theorem State.forwardBeat_mem (s : State) (part : Nat) (p : Part) (k : Packet) : (s.forwardBeat part p k).mem = s.mem :=
  by simp [State.forwardBeat]

@[simp] theorem State.pullAsked_mem (s : State) (p : Part) (k : Packet) : (s.pullAsked p k).mem = s.mem := by
  unfold State.pullAsked
  repeat' split
  all_goals rfl

/-! ## Spire -/

@[simp] theorem State.mergeDone_mem (s : State) (k seq status : Nat) : (s.mergeDone k seq status).mem = s.mem := rfl

@[simp] theorem State.spireBegin_mem (s : State) (k : Nat) (e : Entry) : (s.spireBegin k e).mem = s.mem := by
  unfold State.spireBegin
  refine State.withCtx_mem fun c => ?_
  dsimp only
  repeat' split
  all_goals simp

@[simp] theorem State.spireLand_mem (s : State) (k : Nat) (a : Acc) : (s.spireLand k a).mem = s.mem := rfl

/-! ## Issue -/

@[simp] theorem State.issueEntry_mem (s : State) (k : Nat) (e : Entry) : (s.issueEntry k e).mem = s.mem := by
  unfold State.issueEntry
  repeat' split
  all_goals simp

@[simp] theorem State.issueClass_mem (s : State) (k cls : Nat) : (s.issueClass k cls).mem = s.mem := by
  unfold State.issueClass
  refine State.withCtx_mem fun c => ?_
  repeat' split
  all_goals simp

/-! ## Launch -/

@[simp] theorem State.passSoon_mem (s : State) (p : Nat) : (s.passSoon p).mem = s.mem := by
  unfold State.passSoon
  split <;> rfl

/-! ## Host -/

@[simp] theorem State.sendComplete_mem (s : State) (l : Launch) : (s.sendComplete l).mem = s.mem := rfl

/-! ## Loader -/

@[simp] theorem State.loadResult_mem (s : State) (h : VctHdr) (handle code : Nat) : (s.loadResult h handle code).mem = s.mem := rfl

@[simp] theorem State.loadInto_mem (s : State) (h : VctHdr) (part : Nat) (p : Part) (b : List Byte) : (s.loadInto h part p b).mem = s.mem := by
  unfold State.loadInto
  repeat' split
  all_goals rfl

/-! ## Device -/

@[simp] theorem State.attGo_mem (s : State) : s.attGo.mem = s.mem := by
  unfold State.attGo
  split <;> rfl

@[simp] theorem State.snapTrigger_mem (s : State) : s.snapTrigger.mem = s.mem := by
  unfold State.snapTrigger
  split <;> rfl

@[simp] theorem State.snapClear_mem (s : State) : s.snapClear.mem = s.mem := rfl

@[simp] theorem State.dbgGo_mem (s : State) (k : Nat) : (s.dbgGo k).mem = s.mem := by
  unfold State.dbgGo
  split <;> rfl

@[simp] theorem State.writeWindow_mem (s : State) (n o : Nat) (v : Dword) : (s.writeWindow n o v).mem = s.mem := by
  unfold State.writeWindow
  split <;> rfl

@[simp] theorem State.tap_mem (s : State) (ir : Nat) (v : List Dword) : (s.tap ir v).mem = s.mem := rfl

/-! ## Migrate -/

@[simp] theorem State.notice_mem (s : State) (part : Nat) (m : Migr) (code reason : Nat) : (s.notice part m code reason).mem = s.mem :=
  by simp [State.notice]

@[simp] theorem State.migSay_mem (s : State) (op part : Nat) (m : Migr) (count1 count2 : Nat) : (s.migSay op part m count1 count2).mem = s.mem := rfl

@[simp] theorem State.thaw_mem (s : State) (part : Nat) (p : Part) : (s.thaw part p).mem = s.mem := by
  unfold State.thaw
  simp only [State.passSoon_mem, State.tellFaults_mem, State.setPart_mem]
  exact State.foldl_mem (fun t k => State.modSp_mem t k _) _ _

@[simp] theorem State.discard_mem (s : State) (part : Nat) (p : Part) : (s.discard part p).mem = s.mem := by
  unfold State.discard
  simp only [State.setPart_mem]
  exact State.foldl_mem (fun t k => State.modSp_mem t k _) _ _

@[simp] theorem State.migFail_mem (s : State) (part reason : Nat) (tell : Bool) : (s.migFail part reason tell).mem = s.mem := by
  unfold State.migFail
  repeat' split
  all_goals simp

@[simp] theorem State.freezeMerges_mem (s : State) (part : Nat) (p : Part) : (s.freezeMerges part p).mem = s.mem := rfl

@[simp] theorem State.freezeContexts_mem (s : State) (p : Part) : (s.freezeContexts p).mem = s.mem := by
  unfold State.freezeContexts
  refine State.foldl_mem (fun t k => ?_) _ _
  repeat' split
  all_goals simp

@[simp] theorem State.freeze_mem (s : State) (part : Nat) : (s.freeze part).mem = s.mem := by
  unfold State.freeze
  split <;> simp

@[simp] theorem State.migApply_mem (s : State) (part : Nat) (own : Part) (f : Nat → Nat) (r : MigRec) : (s.migApply part own f r).mem = s.mem := by
  cases r <;> simp [State.migApply]

@[simp] theorem State.migInstall_mem (s : State) (part : Nat) (p : Part) (recs : List MigRec) : (s.migInstall part p recs).mem = s.mem := by
  unfold State.migInstall
  split
  · simp
  · simp only [State.tellFaults_mem]
    exact State.foldl_mem (fun t r => State.migApply_mem t _ _ _ r) _ _

@[simp] theorem State.backgroundPull_mem (s : State) (part : Nat) : (s.backgroundPull part).mem = s.mem := by
  unfold State.backgroundPull
  repeat' split
  all_goals simp

@[simp] theorem State.modBeat_mem (s : State) (e seq : Nat) (f : Beat → Beat) : (s.modBeat e seq f).mem = s.mem := rfl

@[simp] theorem State.dropBeat_mem (s : State) (e seq : Nat) : (s.dropBeat e seq).mem = s.mem := by simp [State.dropBeat]

@[simp] theorem State.beatLands_mem (s : State) (b : Beat) (status : Nat) (data : List Byte) : (s.beatLands b status data).mem = s.mem := rfl

@[simp] theorem State.beatDone_mem (s : State) (b : Beat) (status : Nat) (data : List Byte) : (s.beatDone b status data).mem = s.mem :=
  by simp [State.beatDone]

@[simp] theorem State.noticed_mem (s : State) (k : Packet) : (s.noticed k).mem = s.mem := by
  unfold State.noticed
  repeat' split
  all_goals simp

@[simp] theorem State.sendAgain_mem (s : State) (e : Nat) (b : Beat) : (s.sendAgain e b).mem = s.mem := by simp [State.sendAgain]

@[simp] theorem State.modContexts_mem (s : State) (launch : Nat) (f : Ctx → Ctx) : (s.modContexts launch f).mem = s.mem := rfl

@[simp] theorem State.tokensMoved_mem (s : State) (k : Packet) (pkg part : Nat) : (s.tokensMoved k pkg part).mem = s.mem := by
  unfold State.tokensMoved
  split <;> rfl

end Sys2Proof.Machine
end

-- ==== Sys2Proof/Proofs/MemoryForm.lean ====

section
/-! SUPPORT. The canonical form of memory (12 R326) through every shared operation that stores, or fills or empties a line of the memory-side cache:
each writes through `Memory.write`, `Memory.store`, `Memory.clear` or `Memory.set`, which keep the form (Laws/Memory), and the rest leaves memory alone. -/

namespace Sys2Proof.Machine

theorem memory_wf_foldl {α : Type} {f : State → α → State} {s : State} (hs : Memory.wf s.mem = true)
    (h : ∀ t a, Memory.wf t.mem = true → Memory.wf
    (f t a).mem = true)
    {l : List α} : Memory.wf (l.foldl f s).mem = true := by
  induction l generalizing s with
  | nil => exact hs
  | cons a l ih => exact ih (h s a hs)

theorem memory_wf_withCtx {s : State} {k : Nat} {f : Ctx → State} (hs : Memory.wf s.mem = true) (h : ∀ c, Memory.wf (f c).mem = true) :
    Memory.wf (s.withCtx k f).mem = true := by
  unfold State.withCtx
  split
  · exact hs
  · exact h _

@[simp] theorem memory_wf_lineCycles {s : State} (hs : Memory.wf s.mem = true) (tag beat : Nat) : Memory.wf (s.lineCycles tag beat).2.mem = true := by
  unfold State.lineCycles
  dsimp only
  repeat' split
  all_goals simp [hs, memory_wf_fill]

@[simp] theorem memory_wf_saveCm {s : State} (hs : Memory.wf s.mem = true) (k : Nat) : Memory.wf (s.saveCm k).mem = true := by
  refine memory_wf_foldl hs fun t v ht => ?_
  split
  · exact memory_wf_memChange (by simpa using ht) _ _ fun m hm => memory_wf_store hm _ _ _
  · exact ht

@[simp] theorem memory_wf_copyInitial {s : State} (hs : Memory.wf s.mem = true) (l : Launch) (c : Code) (n : Nat) :
    Memory.wf (s.copyInitial l c n).mem = true := by
  induction n with
  | zero => exact hs
  | succ i ih =>
    unfold State.copyInitial
    dsimp only
    repeat' split
    any_goals exact ih
    exact memory_wf_memChange (by simpa using ih) _ _ fun m hm => memory_wf_write (memory_wf_clear hm _ _) _ _

@[simp] theorem memory_wf_writeImage {s : State} (hs : Memory.wf s.mem = true) (k launch i : Nat) : Memory.wf (s.writeImage k launch i).mem = true := by
  unfold State.writeImage
  split
  · exact hs
  · exact memory_wf_memChange (by simpa using hs) _ _ fun m hm => memory_wf_image hm _ _

theorem memory_wf_writes {α : Type} {m : List Host.Cell} (h : Memory.wf m = true) (l : List α) (a : α → Nat) (b : α → List Byte) :
    Memory.wf (l.foldl (fun m x => Memory.write m (a x) (b x)) m) = true := by
  induction l generalizing m with
  | nil => exact h
  | cons x l ih => exact ih (memory_wf_write h _ _)

@[simp] theorem memory_wf_savePolder {s : State} (hs : Memory.wf s.mem = true) (k launch : Nat) (q : Polder) :
    Memory.wf (s.savePolder k launch q).mem = true := by
  unfold State.savePolder
  split
  · exact hs
  · exact memory_wf_memChange (by simpa using hs) _ _ fun m hm => memory_wf_writes (memory_wf_clear hm _ _) _ _ _

@[simp] theorem memory_wf_tokSet {s : State} (hs : Memory.wf s.mem = true) (e : TokEntry) (c : Option TokCtx) : Memory.wf (s.tokSet e c).mem = true := by
  unfold State.tokSet
  split
  · exact memory_wf_memWrite (memory_wf_memWrite hs _ _) _ _
  · exact memory_wf_memWrite hs _ _

@[simp] theorem memory_wf_writeFault {s : State} (hs : Memory.wf s.mem = true) (p : Part) (r : FaultRec) (state : Nat) :
    Memory.wf (s.writeFault p r state).mem = true := by
  unfold State.writeFault
  split
  · exact hs
  · exact memory_wf_memWrite (by simpa using hs) _ _

@[simp] theorem memory_wf_walkReads {s : State} (hs : Memory.wf s.mem = true) (l : List Nat) : Memory.wf (s.walkReads l).2.mem = true := by
  induction l generalizing s with
  | nil => exact hs
  | cons a l ih => exact ih (memory_wf_lineCycles hs _ _)

@[simp] theorem memory_wf_sliceWrite {s : State} (hs : Memory.wf s.mem = true) (a : Acc) (l : List Byte) : Memory.wf (s.sliceWrite a l).mem = true := by
  unfold State.sliceWrite
  dsimp only
  repeat' split
  all_goals simp [hs, memory_wf_lineWrite]

@[simp] theorem memory_wf_findLine {s : State} (hs : Memory.wf s.mem = true) (a : Acc) : Memory.wf (s.findLine a).2.mem = true := by
  unfold State.findLine
  dsimp only
  repeat' split
  all_goals simp [hs, memory_wf_fill]

theorem memory_wf_sets {m : List Host.Cell} (h : Memory.wf m = true) (l : List Nat) (a : Nat) {p : Nat → Bool} {b : Nat → Byte} :
    Memory.wf (l.foldl (fun m i => if p i then m else Memory.set m (a + i) (b i)) m) = true := by
  induction l generalizing m with
  | nil => exact h
  | cons i l ih =>
    rw [List.foldl_cons]
    refine ih ?_
    split
    · exact h
    · exact memory_wf_set h _ _

@[simp] theorem memory_wf_memWrites {s : State} (hs : Memory.wf s.mem = true) (a : Nat) (l : List Byte) (own : List (Nat × Nat)) :
    Memory.wf (s.memWrites a l own).mem = true := by
  unfold State.memWrites
  split
  · exact memory_wf_memWrite hs _ _
  · exact memory_wf_memChange hs _ _ fun m hm => memory_wf_sets hm _ _

@[simp] theorem memory_wf_beginLaunch {s : State} (hs : Memory.wf s.mem = true) (l : Launch) (c : Code) : Memory.wf (s.beginLaunch l c).mem = true := by
  unfold State.beginLaunch
  simp only [State.passSoon_mem, State.modLaunch_mem]
  exact memory_wf_foldl hs fun t r ht => by simp [ht]

@[simp] theorem memory_wf_takeTask {s : State} (hs : Memory.wf s.mem = true) (part k : Nat) : Memory.wf (s.takeTask part k).mem = true := by
  unfold State.takeTask
  repeat' split
  all_goals simp [hs]

@[simp] theorem memory_wf_showImage {s : State} (hs : Memory.wf s.mem = true) (k launch : Nat) :
    Memory.wf (s.showImage k launch).mem = true := by simp [State.showImage, hs]

@[simp] theorem memory_wf_claim {s : State} (hs : Memory.wf s.mem = true) (k i h : Nat) : Memory.wf (s.claim k i h).mem = true := by
  unfold State.claim
  repeat' split
  all_goals simp [hs]

@[simp] theorem memory_wf_tokGive {s : State} (hs : Memory.wf s.mem = true) (part r : Nat) (c : TokCtx) : Memory.wf (s.tokGive part r c).2.mem = true := by
  unfold State.tokGive
  repeat' split
  all_goals simp [hs]

@[simp] theorem memory_wf_faultAcc {s : State} (hs : Memory.wf s.mem = true) (n cause : Nat) : Memory.wf (s.faultAcc n cause).mem = true := by
  unfold State.faultAcc
  dsimp only
  repeat' split
  all_goals simp [hs]

@[simp] theorem memory_wf_startWalk {s : State} (hs : Memory.wf s.mem = true) (die part ia : Nat) : Memory.wf (s.startWalk die part ia).mem = true := by
  unfold State.startWalk
  split <;> simp [hs]

@[simp] theorem memory_wf_unlist {s : State} (hs : Memory.wf s.mem = true) (gone : List Nat) : Memory.wf (s.unlist gone).mem = true := by
  refine memory_wf_foldl hs fun t e ht => memory_wf_foldl ht fun u r hu => memory_wf_writeFault ?_ _ _ _
  simpa using hu

@[simp] theorem memory_wf_pageBeat {s : State} (hs : Memory.wf s.mem = true) (p : Part) (k : Packet) : Memory.wf (s.pageBeat p k).mem = true := by
  unfold State.pageBeat
  dsimp only
  split
  · exact hs
  · split
    all_goals
      refine (congrArg Memory.wf (State.foldl_mem (fun t x => State.logPoison_mem t _ _) _ _)).trans ?_
      exact memory_wf_memWrites hs _ _ _

@[simp] theorem memory_wf_startLaunch {s : State} (hs : Memory.wf s.mem = true) (l0 : Launch) (c : Code) (q : Plan) :
    Memory.wf (s.startLaunch l0 c q).mem = true := by
  unfold State.startLaunch
  dsimp only
  split
  on_goal 2 => refine memory_wf_beginLaunch ?_ _ _
  all_goals
    refine memory_wf_copyInitial (memory_wf_foldl ?_ fun t k ht => ?_) _ _ _
    · refine memory_wf_foldl ?_ fun t e ht => ?_
      · exact hs
      · repeat' split
        all_goals exact ht
    · exact ht

@[simp] theorem memory_wf_xfrEnd {s : State} (hs : Memory.wf s.mem = true) (x : Xfr) : Memory.wf (s.xfrEnd x).mem = true := by
  unfold State.xfrEnd
  dsimp only
  repeat' split
  all_goals simp [hs]

@[simp] theorem memory_wf_restoreBegin {s : State} (hs : Memory.wf s.mem = true) (k launch left : Nat) :
    Memory.wf (s.restoreBegin k launch left).mem = true := by
  unfold State.restoreBegin
  split
  · exact hs
  · exact memory_wf_foldl hs fun t q ht => by simp [ht]

@[simp] theorem memory_wf_tokRelease {s : State} (hs : Memory.wf s.mem = true) (k : Nat) (c : Ctx) (ia : Nat) :
    Memory.wf (s.tokRelease k c ia).2.mem = true := by
  unfold State.tokRelease
  dsimp only
  repeat' split
  all_goals simp [hs]

@[simp] theorem memory_wf_withPage {s : State} (hs : Memory.wf s.mem = true) (n : Nat) (a : Acc) (base frame : Nat) (r w : Bool) :
    Memory.wf (s.withPage n a base frame r w).mem = true := by
  unfold State.withPage
  split <;> simp [hs]

@[simp] theorem memory_wf_startWalks {s : State} (hs : Memory.wf s.mem = true) (die : Nat) (l : List (Nat × Nat × Nat)) :
    Memory.wf (startWalks die l s).mem = true := by
  induction l generalizing s with
  | nil => exact hs
  | cons q l ih =>
    unfold startWalks
    dsimp only
    split
    · exact hs
    · refine ih ?_
      split
      · exact hs
      · exact memory_wf_startWalk hs _ _ _

@[simp] theorem memory_wf_freeFault {s : State} (hs : Memory.wf s.mem = true) (part : Nat) (r : FaultRec) : Memory.wf (s.freeFault part r).mem = true := by
  unfold State.freeFault
  split
  · exact hs
  · exact memory_wf_foldl (memory_wf_writeFault (by simpa using hs) _ _ _) fun t a ht => memory_wf_faultAcc ht _ _

@[simp] theorem memory_wf_cancelAcc {s : State} (hs : Memory.wf s.mem = true) (n : Nat) : Memory.wf (s.cancelAcc n).mem = true := by
  unfold State.cancelAcc
  repeat' split
  all_goals simp [hs]

@[simp] theorem memory_wf_consider {s : State} (hs : Memory.wf s.mem = true) (blockers : List Launch) (h0 : Launch) :
    Memory.wf (s.consider blockers h0).mem = true := by
  unfold State.consider
  dsimp only
  repeat' split
  all_goals simp [hs]

@[simp] theorem memory_wf_translate {s : State} (hs : Memory.wf s.mem = true) (n : Nat) : Memory.wf (s.translate n).mem = true := by
  unfold State.translate
  repeat' split
  all_goals simp [hs]

@[simp] theorem memory_wf_faultCancel {s : State} (hs : Memory.wf s.mem = true) (part id : Nat) : Memory.wf (s.faultCancel part id).mem = true := by
  unfold State.faultCancel
  split
  · simp [hs]
  · exact memory_wf_foldl (memory_wf_freeFault hs _ _) fun t n ht => memory_wf_cancelAcc ht n

theorem memory_wf_foldl_tokRelease {α : Type} {s : State} (hs : Memory.wf s.mem = true) (l : List α) (k : Nat) (c : α → Ctx) (ia : α → Nat) :
    Memory.wf (l.foldl (fun t e => (t.tokRelease k (c e) (ia e)).2) s).mem = true :=
  memory_wf_foldl hs fun _ e ht => memory_wf_tokRelease ht k (c e) (ia e)

@[simp] theorem memory_wf_dropTokens {s : State} (hs : Memory.wf s.mem = true) (id k : Nat) : Memory.wf (s.dropTokens id k).mem = true := by
  unfold State.dropTokens
  refine memory_wf_foldl_tokRelease ?_ _ k _ _
  exact memory_wf_foldl hs fun t c ht => memory_wf_foldl_tokRelease ht _ k (fun _ => c) _

@[simp] theorem memory_wf_tokAsk {s : State} (hs : Memory.wf s.mem = true) (part r : Nat) (c : TokCtx) (sp : Nat) :
    Memory.wf (s.tokAsk part r c sp).2.mem = true := by
  unfold State.tokAsk
  repeat' split
  all_goals simp [hs]

@[simp] theorem memory_wf_sendIa {s : State} (hs : Memory.wf s.mem = true) (a : Acc) : Memory.wf (s.sendIa a).mem = true := by simp [State.sendIa, hs]

@[simp] theorem memory_wf_segmentDone {s : State} (hs : Memory.wf s.mem = true) (n : Nat) : Memory.wf (s.segmentDone n).mem = true := by
  unfold State.segmentDone
  repeat' split
  all_goals simp [hs]

@[simp] theorem memory_wf_unpark {s : State} (hs : Memory.wf s.mem = true) (n : Nat) : Memory.wf (s.unpark n).mem = true := by
  unfold State.unpark
  dsimp only
  repeat' split
  all_goals simp [hs]

@[simp] theorem memory_wf_freeLaunch {s : State} (hs : Memory.wf s.mem = true) (l : Launch) : Memory.wf (s.freeLaunch l).mem = true := by
  unfold State.freeLaunch
  dsimp only
  rw [State.passSoon_mem, State.foldl_mem State.enginesFree_mem, State.modPart_mem]
  refine memory_wf_unlist ?_ _
  exact memory_wf_foldl hs fun t k ht => memory_wf_dropTokens ht _ _

@[simp] theorem memory_wf_tokWant {s : State} (hs : Memory.wf s.mem = true) (k ia : Nat) : Memory.wf (s.tokWant k ia).mem = true := by
  unfold State.tokWant
  refine memory_wf_withCtx hs fun c => ?_
  dsimp only
  repeat' split
  all_goals simp [hs]

@[simp] theorem memory_wf_sendVa {s : State} (hs : Memory.wf s.mem = true) (a : Acc) : Memory.wf (s.sendVa a).mem = true := by
  unfold State.sendVa
  dsimp only
  repeat' split
  all_goals simp [hs]

@[simp] theorem memory_wf_faultResolve {s : State} (hs : Memory.wf s.mem = true) (part id : Nat) : Memory.wf (s.faultResolve part id).mem = true := by
  unfold State.faultResolve
  split
  · simp [hs]
  · exact memory_wf_foldl (memory_wf_freeFault hs _ _) fun t n ht => memory_wf_unpark ht n

@[simp] theorem memory_wf_cancelTag {s : State} (hs : Memory.wf s.mem = true) (h : VctHdr) (tag : Nat) : Memory.wf (s.cancelTag h tag).mem = true := by
  unfold State.cancelTag
  dsimp only
  split
  · simp [hs]
  · refine memory_wf_foldl ?_ fun t l ht => ?_
    · simpa using memory_wf_foldl hs fun t l ht => by simpa using ht
    · split <;> simp [ht]

@[simp] theorem memory_wf_xfrBeat {s : State} (hs : Memory.wf s.mem = true) (id : Nat) : Memory.wf (s.xfrBeat id).mem = true := by
  unfold State.xfrBeat
  repeat' split
  all_goals simp [hs]

@[simp] theorem memory_wf_restoreEnd {s : State} (hs : Memory.wf s.mem = true) (k launch : Nat) : Memory.wf (s.restoreEnd k launch).mem = true := by
  unfold State.restoreEnd
  split
  · exact hs
  · refine memory_wf_foldl ?_ fun t n ht => memory_wf_unpark ht n
    split
    · refine memory_wf_foldl ?_ fun t m ht => ?_
      · exact hs
      · rwa [State.modCtx_mem]
    · exact hs

@[simp] theorem memory_wf_stallBundle {s : State} (hs : Memory.wf s.mem = true) (b : Bundle) (byBundle : Bool) :
    Memory.wf (s.stallBundle b byBundle).mem = true := by
  refine memory_wf_foldl hs fun t k ht => memory_wf_withCtx ht fun c => ?_
  dsimp only
  split <;> simp [ht]

@[simp] theorem memory_wf_respond {s : State} (hs : Memory.wf s.mem = true) (part w : Nat) : Memory.wf (s.respond part w).mem = true := by
  unfold State.respond
  split <;> simp [hs]

@[simp] theorem memory_wf_sendBeat {s : State} (hs : Memory.wf s.mem = true) (k : Nat) (c : Ctx) (e : Entry) (q : CopyPiece) (kind : AKind) (va : Nat) :
    Memory.wf (s.sendBeat k c e q kind va).mem = true := by simp [State.sendBeat, hs]

@[simp] theorem memory_wf_hintBeat {s : State} (hs : Memory.wf s.mem = true) (k : Nat) : Memory.wf (s.hintBeat k).mem = true := by
  unfold State.hintBeat
  split <;> simp [hs]

@[simp] theorem memory_wf_spireSend {s : State} (hs : Memory.wf s.mem = true) (k : Nat) (c : Ctx) : Memory.wf (s.spireSend k c).mem = true := by
  unfold State.spireSend
  repeat' split
  all_goals simp [hs]

@[simp] theorem memory_wf_xfrSend {s : State} (hs : Memory.wf s.mem = true) (x : Xfr) :
    Memory.wf (s.xfrSend x).mem = true := memory_wf_foldl hs fun _ _ ht => by simp [ht]

@[simp] theorem memory_wf_sendNext {s : State} (hs : Memory.wf s.mem = true) (k : Nat) (c : Ctx) (e : Entry) : Memory.wf
    (s.sendNext k c e).mem = true := by
  unfold State.sendNext
  dsimp only
  repeat' split
  all_goals simp [hs]

@[simp] theorem memory_wf_xfrBegin {s : State} (hs : Memory.wf s.mem = true) (h : VctHdr) (part ia len : Nat) (write : Bool) (data : List Byte) :
    Memory.wf (s.xfrBegin h part ia len write data).mem = true := by simp [State.xfrBegin, hs]

end Sys2Proof.Machine
end

-- ==== Sys2Proof/Proofs/MemoryAnswers.lean ====

section
/-! SUPPORT. The canonical form of memory through what admits an operation before it acts: an answer of the controller, a message of the host, a packet
of a peer, a register write, a reset; and through outcomes. -/

namespace Sys2Proof.Machine

/-! ## Answers of the controller-local instructions (07 R154) -/

/-- The state that an answer leaves. -/
def Ctl.state : Ctl → State
  | .done _ s => s
  | .waits s => s

@[simp] theorem Ctl.state_done (v : Dword) (s : State) : (Ctl.done v s).state = s := rfl

@[simp] theorem Ctl.state_waits (s : State) : (Ctl.waits s).state = s := rfl

@[simp] theorem Ctl.state_code (n : Nat) (s : State) : (Ctl.code n s).state = s := rfl

theorem State.ctl_mem (k : Nat) (i : Instr) (rd : Nat) (a b : Dword) (r : Ctl) : (State.ctl k i rd a b r).mem = r.state.mem := by
  cases r <;> simp [State.ctl]

@[simp] theorem opPalloc_mem (s : State) (k : Nat) (c : Ctx) (a b : Dword) : (opPalloc s k c a b).state.mem = s.mem := by
  unfold opPalloc
  dsimp only
  repeat' split
  all_goals simp

@[simp] theorem opPfree_mem (s : State) (k : Nat) (c : Ctx) (a b : Dword) : (opPfree s k c a b).state.mem = s.mem := by
  unfold opPfree
  dsimp only
  repeat' split
  all_goals simp

@[simp] theorem opSdget_mem (ss field : Nat) (s : State) (k : Nat) (c : Ctx) (a b : Dword) : (opSdget ss field s k c a b).state.mem = s.mem := by
  unfold opSdget
  dsimp only
  repeat' split
  all_goals rfl

@[simp] theorem opAwinit_mem (s : State) (k : Nat) (c : Ctx) (a b : Dword) : (opAwinit s k c a b).state.mem = s.mem := by
  unfold opAwinit
  repeat' split
  all_goals simp

@[simp] theorem opAwait_mem (s : State) (k : Nat) (c : Ctx) (a b : Dword) : (opAwait s k c a b).state.mem = s.mem := by
  unfold opAwait
  dsimp only
  repeat' split
  all_goals simp

@[simp] theorem opFencex_mem (s : State) (k : Nat) (c : Ctx) (a b : Dword) : (opFencex s k c a b).state.mem = s.mem := by
  unfold opFencex
  repeat' split
  all_goals simp

@[simp] theorem opSwait_mem (s : State) (k : Nat) (c : Ctx) (a b : Dword) : (opSwait s k c a b).state.mem = s.mem := by
  unfold opSwait
  repeat' split
  all_goals simp

@[simp] theorem State.sbarStep_mem (s : State) (k : Nat) (c : Ctx) (e : Nat) : (s.sbarStep k c e).state.mem = s.mem := by
  unfold State.sbarStep
  split <;> simp

@[simp] theorem opSbar_mem (s : State) (k : Nat) (c : Ctx) (a b : Dword) : (opSbar s k c a b).state.mem = s.mem := by
  unfold opSbar
  split <;> simp

@[simp] theorem opGsync_mem (s : State) (k : Nat) (c : Ctx) (a b : Dword) : (opGsync s k c a b).state.mem = s.mem := by
  unfold opGsync
  repeat' split
  all_goals simp

@[simp] theorem opAcq_mem (s : State) (k : Nat) (c : Ctx) (a b : Dword) : (opAcq s k c a b).state.mem = s.mem := by
  unfold opAcq
  dsimp only
  repeat' split
  all_goals simp

@[simp] theorem opRel_mem (s : State) (k : Nat) (c : Ctx) (a b : Dword) : (opRel s k c a b).state.mem = s.mem := by
  unfold opRel
  dsimp only
  repeat' split
  all_goals simp

@[simp] theorem memory_wf_opTacq {s : State} (hs : Memory.wf s.mem = true) (k : Nat) (c : Ctx) (a b : Dword) :
    Memory.wf (opTacq s k c a b).state.mem = true := by
  unfold opTacq
  dsimp only
  repeat' split
  all_goals simp [hs]

@[simp] theorem memory_wf_opTrel {s : State} (hs : Memory.wf s.mem = true) (k : Nat) (c : Ctx) (a b : Dword) :
    Memory.wf (opTrel s k c a b).state.mem = true := by
  unfold opTrel
  dsimp only
  repeat' split
  all_goals simp [hs]

theorem memory_wf_localOp {s : State} (hs : Memory.wf s.mem = true) (i : Instr) (rd rs1 rs2 : Nat) {f : State → Nat → Ctx → Dword → Dword → Ctl}
    (hf : ∀ c a b, Memory.wf (f s s.cur c a b).state.mem = true) : Memory.wf (s.localOp i rd rs1 rs2 f).mem = true :=
  memory_wf_withCtx hs fun c => by rw [State.ctl_mem]; exact hf _ _ _

@[simp] theorem memory_wf_waitStep {s : State} (hs : Memory.wf s.mem = true) (k : Nat) (w : Wait) : Memory.wf (s.waitStep k w).mem = true := by
  refine memory_wf_withCtx hs fun c => ?_
  dsimp only
  repeat' split
  all_goals simp [hs, State.ctl_mem]

/-! ## Messages of the host and beats of peers: what is done once they are let in -/

theorem memory_wf_vct {s : State} (hs : Memory.wf s.mem = true) {h : VctHdr} {i : Instr} {f : State → State}
    (hf : ∀ t, Memory.wf t.mem = true → Memory.wf (f t).mem = true) : Memory.wf (s.vct h i f).mem = true := by
  unfold State.vct
  dsimp only
  repeat' split
  all_goals simp [hs, hf]

theorem memory_wf_vctBound {s : State} (hs : Memory.wf s.mem = true) {h : VctHdr} {i : Instr} {f : Nat → State → State}
    (hf : ∀ p t, Memory.wf t.mem = true → Memory.wf (f p t).mem = true) : Memory.wf (s.vctBound h i f).mem = true := by
  refine memory_wf_vct hs fun t ht => ?_
  repeat' split
  all_goals simp [ht, hf]

theorem memory_wf_vctSystem {s : State} (hs : Memory.wf s.mem = true) {h : VctHdr} {i : Instr} {f : State → State}
    (hf : ∀ t, Memory.wf t.mem = true → Memory.wf (f t).mem = true) : Memory.wf (s.vctSystem h i f).mem = true :=
  memory_wf_vct hs fun t ht => by split <;> simp [ht, hf]

theorem memory_wf_config {s : State} (hs : Memory.wf s.mem = true) {h : VctHdr} {i : Instr} {bad busy : State → Bool} {f : State → State}
    (hf : ∀ t, Memory.wf t.mem = true → Memory.wf (f t).mem = true) : Memory.wf (s.config h i bad busy f).mem = true := by
  refine memory_wf_vctSystem hs fun t ht => ?_
  repeat' split
  all_goals simp [ht, hf]

theorem memory_wf_migOp {s : State} (hs : Memory.wf s.mem = true) {h : VctHdr} {i : Instr} {m : MigArgs} {may : Migr → Bool}
    {f : State → Part → State}
    (hf : ∀ t p, Memory.wf t.mem = true → Memory.wf (f t p).mem = true) : Memory.wf (s.migOp h i m may f).mem = true := by
  refine memory_wf_vctSystem hs fun t ht => ?_
  repeat' split
  all_goals simp [ht, hf]

theorem memory_wf_gated {s : State} (hs : Memory.wf s.mem = true) (p : Part) (k : Packet) {f : State → State}
    (hf : ∀ t, Memory.wf t.mem = true → Memory.wf (f t).mem = true) : Memory.wf (s.gated p k f).mem = true := by
  unfold State.gated
  split <;> simp [hs, hf]

/-! ## Resets (25 R470): the part begins with memory all 0 -/

@[simp] theorem memory_wf_restart (s : State) : Memory.wf s.restart.mem = true := rfl

@[simp] theorem memory_wf_hold (s : State) (why : Nat) : Memory.wf (s.hold why).mem = true := rfl

theorem memory_wf_ite {c : Prop} [Decidable c] {s t : State} (hs : Memory.wf s.mem = true) (ht : Memory.wf t.mem = true) :
    Memory.wf (if c then s else t).mem = true := by
  split
  · exact hs
  · exact ht

@[simp] theorem memory_wf_regSet {s : State} (hs : Memory.wf s.mem = true) (a : Nat) (v : Dword) : Memory.wf (s.regSet a v).mem = true := by
  unfold State.regSet
  repeat' refine memory_wf_ite ?_ ?_
  all_goals simp [hs]

@[simp] theorem memory_wf_regWrite {s : State} (hs : Memory.wf s.mem = true) (a : Nat) (v : Dword) : Memory.wf (s.regWrite a v).mem = true := by
  unfold State.regWrite
  split <;> simp [hs]

/-! ## Outcomes -/

/-- What an outcome leaves of memory, if it leaves a state, has the canonical form. -/
def Canonical (o : Host.Outcome State Fault Refusal) : Prop := ∀ t, o = .next t → Memory.wf t.mem = true

@[simp] theorem canonical_next {t : State} : Canonical (.next t) ↔ Memory.wf t.mem = true :=
  ⟨fun h => h t rfl, fun h _ ht => by cases ht; exact h⟩

@[simp] theorem canonical_refused (r : Refusal) : Canonical (.refused r) := nofun

end Sys2Proof.Machine
end

-- ==== Sys2Proof/Proofs/MemoryInstructions.lean ====

section
/-! SUPPORT. The instructions that touch memory or reach a shared operation that does, one by one: each keeps the canonical form (12 R326). -/

namespace Sys2Proof.Machine

@[simp] theorem canonical_execPref {s : State} (hs : Memory.wf s.mem = true) (p qa qb : Nat) : Canonical (execPref p qa qb s) := by
  refine canonical_next.mpr (memory_wf_foldl hs fun t k ht => ?_)
  repeat' split
  all_goals simp [ht]

@[simp] theorem canonical_execSync {s : State} (hs : Memory.wf s.mem = true) (p port : Nat) : Canonical (execSync p port s) := by
  unfold execSync
  rw [canonical_next]
  split
  · exact hs
  · split
    · exact memory_wf_foldl hs fun t k ht => memory_wf_withCtx ht fun c => by simp [ht]
    · exact hs

@[simp] theorem canonical_execDecouple {s : State} (hs : Memory.wf s.mem = true) (p : Nat) : Canonical (execDecouple p s) := by
  unfold execDecouple
  rw [canonical_next]
  repeat' split
  all_goals simp [hs]

@[simp] theorem canonical_execRejoin {s : State} (hs : Memory.wf s.mem = true) (p : Nat) : Canonical (execRejoin p s) := by
  unfold execRejoin
  rw [canonical_next]
  dsimp only
  repeat' split
  all_goals simp [hs]

@[simp] theorem canonical_execYieldK {s : State} (hs : Memory.wf s.mem = true) (p : Nat) : Canonical (execYieldK p s) := by
  unfold execYieldK
  rw [canonical_next]
  dsimp only
  repeat' split
  all_goals simp [hs, State.foldl_mem]

@[simp] theorem canonical_execSld {s : State} (hs : Memory.wf s.mem = true) (p sn v imm : Nat) (x : Option Nat) :
    Canonical (execSld p sn v imm x s) := by simp [execSld, hs, State.foldl_mem]

@[simp] theorem canonical_execSst {s : State} (hs : Memory.wf s.mem = true) (p sn v imm : Nat) (x : Option Nat) :
    Canonical (execSst p sn v imm x s) := by simp [execSst, hs, State.foldl_mem]

@[simp] theorem canonical_execSldl {s : State} (hs : Memory.wf s.mem = true) (p sn v ia w : Nat) :
    Canonical (execSldl p sn v ia w s) := by simp [execSldl, hs, State.foldl_mem]

@[simp] theorem canonical_execSstu {s : State} (hs : Memory.wf s.mem = true) (p sn v ia w : Nat) :
    Canonical (execSstu p sn v ia w s) := by simp [execSstu, hs, State.foldl_mem]

@[simp] theorem canonical_execRet {s : State} (hs : Memory.wf s.mem = true)  : Canonical (execRet s) := by
  unfold execRet
  rw [canonical_next]
  refine memory_wf_withCtx hs fun c => ?_
  repeat' split
  all_goals simp [hs]

@[simp] theorem canonical_execLockRound {s : State} (hs : Memory.wf s.mem = true) (k : Nat) : Canonical (execLockRound k s) := by
  refine canonical_next.mpr ?_
  rw [State.atEnd_mem fun t m c b => ?_]
  · exact hs
  · split <;> simp

@[simp] theorem canonical_execBranchTransfer {s : State} (hs : Memory.wf s.mem = true) (k : Nat) : Canonical (execBranchTransfer k s) := by
  refine canonical_next.mpr ?_
  rw [State.atEnd_mem fun t m c b => ?_]
  · exact hs
  · repeat' split
    all_goals simp

@[simp] theorem canonical_execLoopBackEdge {s : State} (hs : Memory.wf s.mem = true) (k : Nat) : Canonical (execLoopBackEdge k s) := by
  refine canonical_next.mpr ?_
  rw [State.atEnd_mem fun t m c b => ?_]
  · exact hs
  · repeat' split
    all_goals simp

@[simp] theorem canonical_execDikeRelease {s : State} (hs : Memory.wf s.mem = true) (part entry : Nat) : Canonical (execDikeRelease part entry s) := by
  unfold execDikeRelease
  rw [canonical_next]
  dsimp only
  repeat' split
  all_goals simp [hs]

@[simp] theorem canonical_execTowerLineRelease {s : State} (hs : Memory.wf s.mem = true) (k : Nat) : Canonical (execTowerLineRelease k s) := by
  unfold execTowerLineRelease
  rw [canonical_next]
  dsimp only
  repeat' split
  all_goals simp [hs]

@[simp] theorem canonical_execWatchdogExpiry {s : State} (hs : Memory.wf s.mem = true) (k : Nat) :
    Canonical (execWatchdogExpiry k s) := canonical_next.mpr (memory_wf_withCtx hs fun _ => by split <;> simp [hs])

@[simp] theorem canonical_execRvLoad {s : State} (hs : Memory.wf s.mem = true) (c : Bool) (k : LoadKind) (rd rs1 : Nat) (off : Dword) :
    Canonical (execRvLoad c k rd rs1 off s) := by
  refine canonical_next.mpr (memory_wf_withCtx hs fun x => memory_wf_ite ?_ ?_)
  · dsimp only
    rwa [State.setCtx_mem, State.regAccess_mem]
  · split <;> simp [hs]

@[simp] theorem canonical_execRvStore {s : State} (hs : Memory.wf s.mem = true) (c : Bool) (k : StoreKind) (rs2 rs1 : Nat) (off : Dword) :
    Canonical (execRvStore c k rs2 rs1 off s) := by
  unfold execRvStore
  rw [canonical_next]
  refine memory_wf_withCtx hs fun c => ?_
  dsimp only
  repeat' split
  all_goals simp [hs]

@[simp] theorem canonical_execLr {s : State} (hs : Memory.wf s.mem = true) (d : Bool) (_aqrl rd rs1 : Nat) : Canonical (execLr d _aqrl rd rs1 s) := by
  unfold execLr
  rw [canonical_next]
  refine memory_wf_withCtx hs fun c => ?_
  dsimp only
  repeat' split
  all_goals simp [hs]

@[simp] theorem canonical_execSc {s : State} (hs : Memory.wf s.mem = true) (d : Bool) (_aqrl rd rs1 rs2 : Nat) :
    Canonical (execSc d _aqrl rd rs1 rs2 s) := by
  unfold execSc
  rw [canonical_next]
  refine memory_wf_withCtx hs fun c => ?_
  dsimp only
  repeat' split
  all_goals simp [hs]

@[simp] theorem canonical_execRvAmo {s : State} (hs : Memory.wf s.mem = true) (op : AmoOp) (d : Bool) (_aqrl rd rs1 rs2 : Nat) :
    Canonical (execRvAmo op d _aqrl rd rs1 rs2 s) := by
  unfold execRvAmo
  rw [canonical_next]
  refine memory_wf_withCtx hs fun c => ?_
  dsimp only
  repeat' split
  all_goals simp [hs]

@[simp] theorem canonical_execEcall {s : State} (hs : Memory.wf s.mem = true)  :
    Canonical (execEcall s) := canonical_next.mpr (memory_wf_withCtx hs fun _ => by simp [hs])

@[simp] theorem canonical_execEbreak {s : State} (hs : Memory.wf s.mem = true) (_c : Bool) :
    Canonical (execEbreak _c s) := canonical_next.mpr (memory_wf_withCtx hs fun _ => by split <;> simp [hs])

@[simp] theorem canonical_execRvFloatOp {s : State} (hs : Memory.wf s.mem = true) (op : FOp) (dbl : Bool) (rd rs1 rs2 rs3 rm : Nat) :
    Canonical (execRvFloatOp op dbl rd rs1 rs2 rs3 rm s) := by
  refine canonical_next.mpr (memory_wf_withCtx hs fun c => ?_)
  split <;> simp [hs]

@[simp] theorem canonical_execRvFdivFsqrt {s : State} (hs : Memory.wf s.mem = true) (sqrt dbl : Bool) (rd rs1 rs2 rm : Nat) :
    Canonical (execRvFdivFsqrt sqrt dbl rd rs1 rs2 rm s) := canonical_next.mpr (memory_wf_withCtx hs fun _ => by split <;> simp [hs])

@[simp] theorem canonical_execRvCsrAccess {s : State} (hs : Memory.wf s.mem = true) (op : CsrOp) (imm : Bool) (csr rd src : Nat) :
    Canonical (execRvCsrAccess op imm csr rd src s) := by
  unfold execRvCsrAccess
  rw [canonical_next]
  refine memory_wf_withCtx hs fun c => ?_
  repeat' split
  all_goals simp [hs]

@[simp] theorem canonical_execSpref {s : State} (hs : Memory.wf s.mem = true) (rs1 rs2 : Nat) :
    Canonical (execSpref rs1 rs2 s) := canonical_next.mpr (memory_wf_withCtx hs fun _ => by simp [hs])

@[simp] theorem canonical_execKrun {s : State} (hs : Memory.wf s.mem = true) (rd rs1 rs2 : Nat) :
    Canonical (execKrun rd rs1 rs2 s) := canonical_next.mpr (memory_wf_withCtx hs fun _ => by simp [hs])

@[simp] theorem canonical_execKpipe {s : State} (hs : Memory.wf s.mem = true) (rd rs1 rs2 : Nat) :
    Canonical (execKpipe rd rs1 rs2 s) := canonical_next.mpr (memory_wf_withCtx hs fun _ => by simp [hs])

@[simp] theorem canonical_execKstage {s : State} (hs : Memory.wf s.mem = true) (rd rs1 rs2 : Nat) : Canonical (execKstage rd rs1 rs2 s) := by
  unfold execKstage
  rw [canonical_next]
  refine memory_wf_withCtx hs fun c => ?_
  dsimp only
  repeat' split
  all_goals simp [hs]

@[simp] theorem canonical_execKhalt {s : State} (hs : Memory.wf s.mem = true) (rd : Nat) :
    Canonical (execKhalt rd s) := canonical_next.mpr (memory_wf_withCtx hs fun _ => by simp [hs])

@[simp] theorem canonical_execMload {s : State} (hs : Memory.wf s.mem = true) (rd rs1 rs2 : Nat) :
    Canonical (execMload rd rs1 rs2 s) := canonical_next.mpr (memory_wf_withCtx hs fun _ => by split <;> simp [hs])

@[simp] theorem canonical_execSpmerge {s : State} (hs : Memory.wf s.mem = true) (rd rs1 rs2 : Nat) :
    Canonical (execSpmerge rd rs1 rs2 s) := canonical_next.mpr (memory_wf_withCtx hs fun _ => by simp [hs])

@[simp] theorem canonical_execSpdrain {s : State} (hs : Memory.wf s.mem = true) (rd rs2 : Nat) :
    Canonical (execSpdrain rd rs2 s) := canonical_next.mpr (memory_wf_withCtx hs fun _ => by simp [hs])

@[simp] theorem canonical_execPalloc {s : State} (hs : Memory.wf s.mem = true) (rd rs1 rs2 : Nat) :
    Canonical (execPalloc rd rs1 rs2 s) := canonical_next.mpr (memory_wf_localOp hs _ _ _ _ fun _ _ _ => by simp [hs])

@[simp] theorem canonical_execPfree {s : State} (hs : Memory.wf s.mem = true) (rd rs1 : Nat) :
    Canonical (execPfree rd rs1 s) := canonical_next.mpr (memory_wf_localOp hs _ _ _ _ fun _ _ _ => by simp [hs])

@[simp] theorem canonical_execSdset {s : State} (hs : Memory.wf s.mem = true) (sd rs1 field : Nat) : Canonical (execSdset sd rs1 field s) := by
  unfold execSdset
  rw [canonical_next]
  split <;> simp [hs]

@[simp] theorem canonical_execSdget {s : State} (hs : Memory.wf s.mem = true) (rd ss field : Nat) : Canonical (execSdget rd ss field s) := by
  refine canonical_next.mpr ?_
  split
  · simp [hs]
  · exact memory_wf_localOp hs _ _ _ _ fun _ _ _ => by simp [hs]

@[simp] theorem canonical_execAwinit {s : State} (hs : Memory.wf s.mem = true) (rd rs1 rs2 : Nat) :
    Canonical (execAwinit rd rs1 rs2 s) := canonical_next.mpr (memory_wf_localOp hs _ _ _ _ fun _ _ _ => by simp [hs])

@[simp] theorem canonical_execAwait {s : State} (hs : Memory.wf s.mem = true) (rd rs1 rs2 : Nat) :
    Canonical (execAwait rd rs1 rs2 s) := canonical_next.mpr (memory_wf_localOp hs _ _ _ _ fun _ _ _ => by simp [hs])

@[simp] theorem canonical_execFencex {s : State} (hs : Memory.wf s.mem = true) (rd rs1 : Nat) :
    Canonical (execFencex rd rs1 s) := canonical_next.mpr (memory_wf_localOp hs _ _ _ _ fun _ _ _ => by simp [hs])

@[simp] theorem canonical_execSwait {s : State} (hs : Memory.wf s.mem = true) (rd rs1 : Nat) :
    Canonical (execSwait rd rs1 s) := canonical_next.mpr (memory_wf_localOp hs _ _ _ _ fun _ _ _ => by simp [hs])

@[simp] theorem canonical_execSbar {s : State} (hs : Memory.wf s.mem = true) (rd rs1 : Nat) :
    Canonical (execSbar rd rs1 s) := canonical_next.mpr (memory_wf_localOp hs _ _ _ _ fun _ _ _ => by simp [hs])

@[simp] theorem canonical_execGsync {s : State} (hs : Memory.wf s.mem = true) (rd rs1 : Nat) :
    Canonical (execGsync rd rs1 s) := canonical_next.mpr (memory_wf_localOp hs _ _ _ _ fun _ _ _ => by simp [hs])

@[simp] theorem canonical_execAcq {s : State} (hs : Memory.wf s.mem = true) (rd rs1 rs2 : Nat) :
    Canonical (execAcq rd rs1 rs2 s) := canonical_next.mpr (memory_wf_localOp hs _ _ _ _ fun _ _ _ => by simp [hs])

@[simp] theorem canonical_execRel {s : State} (hs : Memory.wf s.mem = true) (rd rs1 : Nat) :
    Canonical (execRel rd rs1 s) := canonical_next.mpr (memory_wf_localOp hs _ _ _ _ fun _ _ _ => by simp [hs])

@[simp] theorem canonical_execTacq {s : State} (hs : Memory.wf s.mem = true) (rd rs1 rs2 : Nat) : Canonical (execTacq rd rs1 rs2 s) := by
  refine canonical_next.mpr (memory_wf_withCtx hs fun c => ?_)
  rw [State.modCtx_mem]
  exact memory_wf_localOp hs _ _ _ _ fun _ _ _ => by simp [hs]

@[simp] theorem canonical_execTrel {s : State} (hs : Memory.wf s.mem = true) (rd rs1 : Nat) :
    Canonical (execTrel rd rs1 s) := canonical_next.mpr (memory_wf_localOp hs _ _ _ _ fun _ _ _ => by simp [hs])

@[simp] theorem canonical_execTacqTimeout {s : State} (hs : Memory.wf s.mem = true) (k : Nat) : Canonical (execTacqTimeout k s) := by
  unfold execTacqTimeout
  rw [canonical_next]
  refine memory_wf_withCtx hs fun c => ?_
  repeat' split
  all_goals simp [hs]

@[simp] theorem canonical_execSpawn {s : State} (hs : Memory.wf s.mem = true) (rd rs1 rs2 : Nat) : Canonical (execSpawn rd rs1 rs2 s) := by
  unfold execSpawn
  rw [canonical_next]
  refine memory_wf_withCtx hs fun c => ?_
  dsimp only
  repeat' split
  all_goals simp [hs]

@[simp] theorem canonical_execTreseed {s : State} (hs : Memory.wf s.mem = true) (rd : Nat) :
    Canonical (execTreseed rd s) := canonical_next.mpr (memory_wf_withCtx hs fun _ => by split <;> simp [hs])

@[simp] theorem canonical_execTexit {s : State} (hs : Memory.wf s.mem = true)  :
    Canonical (execTexit s) := canonical_next.mpr (memory_wf_withCtx hs fun _ => by split <;> simp [hs])

@[simp] theorem canonical_execControllerWaitEnd {s : State} (hs : Memory.wf s.mem = true) (k : Nat) :
    Canonical (execControllerWaitEnd k s) := canonical_next.mpr (memory_wf_withCtx hs fun _ => by split <;> simp [hs])

@[simp] theorem canonical_execVctInvalidMessage {s : State} (hs : Memory.wf s.mem = true) (h : VctHdr) :
    Canonical (execVctInvalidMessage h s) := canonical_next.mpr (memory_wf_vct hs fun t ht => by simp [ht])

@[simp] theorem canonical_execVctRetransmitTimer {s : State} (hs : Memory.wf s.mem = true) (vf seq : Nat) :
    Canonical (execVctRetransmitTimer vf seq s) := by
  unfold execVctRetransmitTimer
  rw [canonical_next]
  dsimp only
  repeat' split
  all_goals simp [hs]

@[simp] theorem canonical_execRangeMissServe {s : State} (hs : Memory.wf s.mem = true) (k : Nat) : Canonical (execRangeMissServe k s) := by
  unfold execRangeMissServe
  rw [canonical_next]
  dsimp only
  repeat' split
  all_goals simp [hs]

@[simp] theorem canonical_execWalkStart {s : State} (hs : Memory.wf s.mem = true) (die : Nat) : Canonical (execWalkStart die s) := by
  refine canonical_next.mpr (memory_wf_startWalks (memory_wf_foldl hs fun t a ht => ?_) _ _)
  simp [ht]

@[simp] theorem canonical_execWalkEnd {s : State} (hs : Memory.wf s.mem = true) (die walk : Nat) : Canonical (execWalkEnd die walk s) := by
  unfold execWalkEnd
  rw [canonical_next]
  dsimp only
  repeat' split
  any_goals simp [hs]
  all_goals
    refine memory_wf_startWalks (memory_wf_foldl ?_ fun t q ht => ?_) _ _
    · exact hs
    · split <;> simp [ht]

@[simp] theorem canonical_execSliceApply {s : State} (hs : Memory.wf s.mem = true) (n : Nat) : Canonical (execSliceApply n s) := by
  unfold execSliceApply
  rw [canonical_next]
  split
  · exact hs
  next a ha =>
    have hwrite : ∀ l, Memory.wf ((s.findLine a).2.sliceWrite a l).mem = true := memory_wf_sliceWrite (memory_wf_findLine hs a) a
    repeat' refine memory_wf_ite ?_ ?_
    any_goals simp [hs]
    all_goals
      split
      · exact hwrite _
      · repeat' refine memory_wf_ite ?_ ?_
        · refine memory_wf_respond (memory_wf_ite ?_ ?_) _ _ <;> exact hwrite _
        · exact hwrite _
        · exact hwrite _

@[simp] theorem canonical_execTowerRendezvous {s : State} (hs : Memory.wf s.mem = true) (k : Nat) : Canonical (execTowerRendezvous k s) := by
  unfold execTowerRendezvous
  rw [canonical_next]
  dsimp only
  repeat' split
  all_goals simp [hs, State.foldl_mem]

@[simp] theorem canonical_execKernelCommandComplete {s0 : State} (hs : Memory.wf s0.mem = true) (k : Nat) :
    Canonical (execKernelCommandComplete k s0) := by
  unfold execKernelCommandComplete
  rw [canonical_next]
  dsimp only
  repeat' split
  any_goals simp [hs, State.foldl_mem]
  all_goals
    refine memory_wf_foldl (by simpa using hs) fun t m ht => memory_wf_withCtx ht fun c => ?_
    split <;> simp [ht]

@[simp] theorem canonical_execArbiterDecision {s : State} (hs : Memory.wf s.mem = true) (k : Nat) : Canonical (execArbiterDecision k s) := by
  unfold execArbiterDecision
  rw [canonical_next]
  dsimp only
  repeat' split
  all_goals simp [hs, State.foldl_mem]

@[simp] theorem canonical_execSweepIteration {s : State} (hs : Memory.wf s.mem = true) (k : Nat) : Canonical (execSweepIteration k s) := by
  unfold execSweepIteration
  rw [canonical_next]
  refine memory_wf_withCtx hs fun c => ?_
  dsimp only
  repeat' split
  all_goals simp [hs]

@[simp] theorem canonical_execCopyBeatSend {s : State} (hs : Memory.wf s.mem = true) (k seq : Nat) : Canonical (execCopyBeatSend k seq s) := by
  unfold execCopyBeatSend
  rw [canonical_next]
  repeat' split
  all_goals simp [hs]

@[simp] theorem canonical_execCopyBeatCommit {s : State} (hs : Memory.wf s.mem = true) (acc : Nat) : Canonical (execCopyBeatCommit acc s) := by
  unfold execCopyBeatCommit
  rw [canonical_next]
  dsimp only
  repeat' split
  all_goals simp [hs]

@[simp] theorem canonical_execKcopyQueueIssue {s : State} (hs : Memory.wf s.mem = true) (k : Nat) : Canonical (execKcopyQueueIssue k s) := by
  unfold execKcopyQueueIssue
  rw [canonical_next]
  refine memory_wf_withCtx hs fun c => ?_
  repeat' split
  all_goals simp [hs]

@[simp] theorem canonical_execAqSend {s : State} (hs : Memory.wf s.mem = true) (k cl : Nat) : Canonical (execAqSend k cl s) := by
  unfold execAqSend
  rw [canonical_next]
  refine memory_wf_withCtx hs fun c => ?_
  repeat' split
  all_goals simp [hs]

@[simp] theorem canonical_execDqLand {s : State} (hs : Memory.wf s.mem = true) (acc : Nat) : Canonical (execDqLand acc s) := by
  unfold execDqLand
  rw [canonical_next]
  repeat' split
  all_goals simp [hs]

@[simp] theorem canonical_execLinkTraining {s : State} (hs : Memory.wf s.mem = true) (port delay : Nat) : Canonical (execLinkTraining port delay s) := by
  unfold execLinkTraining
  rw [canonical_next]
  split <;> simp [hs]

@[simp] theorem canonical_execLinkReplay {s : State} (hs : Memory.wf s.mem = true) (port : Nat) : Canonical (execLinkReplay port s) := by
  unfold execLinkReplay
  rw [canonical_next]
  dsimp only
  repeat' split
  all_goals simp [hs]

@[simp] theorem canonical_execPacketReceive {s : State} (hs : Memory.wf s.mem = true) (port : Nat) (hdr data tail : List Byte) :
    Canonical (execPacketReceive port hdr data tail s) := by
  unfold execPacketReceive
  rw [canonical_next]
  dsimp only
  repeat' split
  all_goals simp [hs]

@[simp] theorem canonical_execScaleoutFrameReceive {s : State} (hs : Memory.wf s.mem = true) (pair : PortPair) (fcsOk : Bool) (d : Datagram) :
    Canonical (execScaleoutFrameReceive pair fcsOk d s) := by
  unfold execScaleoutFrameReceive
  rw [canonical_next]
  dsimp only
  repeat' split
  all_goals simp [hs]

@[simp] theorem canonical_execSelectiveAckSend {s : State} (hs : Memory.wf s.mem = true) (pair : PortPair) : Canonical (execSelectiveAckSend pair s) := by
  unfold execSelectiveAckSend
  rw [canonical_next]
  dsimp only
  repeat' split
  all_goals simp [hs]

@[simp] theorem canonical_execFrameResendTimeout {s : State} (hs : Memory.wf s.mem = true) (pair : PortPair) (seq : Nat) :
    Canonical (execFrameResendTimeout pair seq s) := by
  unfold execFrameResendTimeout
  rw [canonical_next]
  repeat' split
  all_goals simp [hs]

@[simp] theorem canonical_execBeatForward {s : State} (hs : Memory.wf s.mem = true) (k : Packet) : Canonical (execBeatForward k s) := by
  unfold execBeatForward
  rw [canonical_next]
  repeat' split
  all_goals simp [hs]

@[simp] theorem canonical_execHomeBeatApply {s : State} (hs : Memory.wf s.mem = true) (k : Packet) : Canonical (execHomeBeatApply k s) := by
  unfold execHomeBeatApply
  rw [canonical_next]
  repeat' split
  any_goals simp [hs]
  refine memory_wf_gated hs _ _ fun t ht => ?_
  split
  · simp [ht]
  · exact memory_wf_ite (by simp [ht]) (by simp [ht])

@[simp] theorem canonical_execTokenRequest {s : State} (hs : Memory.wf s.mem = true) (k : Packet) : Canonical (execTokenRequest k s) := by
  unfold execTokenRequest
  rw [canonical_next]
  split
  · exact hs
  next p hp =>
    dsimp only
    repeat' split
    any_goals simp [hs]
    cases p.tokAbsent (k.ia / 2 ^ 21) <;> simp [hs]

@[simp] theorem canonical_execTokenReply {s : State} (hs : Memory.wf s.mem = true) (k : Packet) : Canonical (execTokenReply k s) := by
  unfold execTokenReply
  rw [canonical_next]
  repeat' split
  all_goals simp [hs]

@[simp] theorem canonical_execTokenRetry {s : State} (hs : Memory.wf s.mem = true) (k : Nat) : Canonical (execTokenRetry k s) := by
  refine canonical_next.mpr (memory_wf_withCtx hs fun c => memory_wf_foldl hs fun t e ht => ?_)
  simp [ht]

@[simp] theorem canonical_execSpireRecordIntake {s : State} (hs : Memory.wf s.mem = true) (k : Nat) : Canonical (execSpireRecordIntake k s) := by
  unfold execSpireRecordIntake
  rw [canonical_next]
  refine memory_wf_withCtx hs fun c => ?_
  dsimp only
  repeat' split
  all_goals simp [hs]

@[simp] theorem canonical_execSpireRunWritten {s : State} (hs : Memory.wf s.mem = true) (k : Nat) : Canonical (execSpireRunWritten k s) := by
  have hland : ∀ l : List Acc, Memory.wf (l.foldl (fun t a => t.spireLand k a) s).mem = true := fun l => memory_wf_foldl hs fun t a ht => by simp [ht]
  have hsend : ∀ (t : State) (p : Prop) [Decidable p], Memory.wf t.mem = true →
      Memory.wf (if p then t else t.withCtx k fun c => t.spireSend k c).mem = true :=
    fun t p _ ht => memory_wf_ite ht (memory_wf_withCtx ht fun c => memory_wf_spireSend ht k c)
  refine canonical_next.mpr (memory_wf_withCtx hs fun c => ?_)
  dsimp only
  rw [State.modCtx_mem]
  exact hsend _ _ (hsend _ _ (hland _))

@[simp] theorem canonical_execSpireEmit {s : State} (hs : Memory.wf s.mem = true) (k : Nat) : Canonical (execSpireEmit k s) := by
  unfold execSpireEmit
  rw [canonical_next]
  refine memory_wf_withCtx hs fun c => ?_
  dsimp only
  repeat' split
  all_goals simp [hs]

@[simp] theorem canonical_execSpireComplete {s : State} (hs : Memory.wf s.mem = true) (k : Nat) : Canonical (execSpireComplete k s) := by
  unfold execSpireComplete
  rw [canonical_next]
  refine memory_wf_withCtx hs fun c => ?_
  dsimp only
  repeat' split
  all_goals simp [hs]

@[simp] theorem canonical_execSpirePreemptStop {s : State} (hs : Memory.wf s.mem = true) (k : Nat) :
    Canonical (execSpirePreemptStop k s) := canonical_next.mpr (memory_wf_withCtx hs fun _ => by split <;> simp [hs])

@[simp] theorem canonical_execMloadComplete {s : State} (hs : Memory.wf s.mem = true) (k : Nat) : Canonical (execMloadComplete k s) := by
  unfold execMloadComplete
  rw [canonical_next]
  refine memory_wf_withCtx hs fun c => ?_
  dsimp only
  repeat' split
  all_goals simp [hs]

@[simp] theorem canonical_execPlacementPass {s : State} (hs : Memory.wf s.mem = true) (part : Nat) : Canonical (execPlacementPass part s) := by
  refine canonical_next.mpr ?_
  split
  · exact hs
  · exact memory_wf_foldl hs fun t h ht => memory_wf_consider ht _ _

@[simp] theorem canonical_execTaskTake {s : State} (hs : Memory.wf s.mem = true) (part : Nat) : Canonical (execTaskTake part s) := by
  refine canonical_next.mpr ?_
  split
  · exact hs
  · split
    · exact hs
    · exact memory_wf_foldl hs fun t k ht => memory_wf_takeTask ht _ _

@[simp] theorem canonical_execLaunchRelease {s : State} (hs : Memory.wf s.mem = true) (id : Nat) : Canonical (execLaunchRelease id s) := by
  unfold execLaunchRelease
  rw [canonical_next]
  repeat' split
  all_goals simp [hs]

@[simp] theorem canonical_execCancel {s : State} (hs : Memory.wf s.mem = true) (h : VctHdr) (tag : Nat) :
    Canonical (execCancel h tag s) := canonical_next.mpr (memory_wf_vctBound hs fun _ _ ht => memory_wf_cancelTag ht _ _)

@[simp] theorem canonical_execLaunch {s : State} (hs : Memory.wf s.mem = true) (h : VctHdr) (r : LaunchRec) : Canonical (execLaunch h r s) := by
  refine canonical_next.mpr (memory_wf_vctBound hs fun p t ht => ?_)
  dsimp only
  repeat' split
  all_goals simp [ht]

@[simp] theorem canonical_execWrite {s : State} (hs : Memory.wf s.mem = true) (h : VctHdr) (ia : Nat) (data : List Byte) :
    Canonical (execWrite h ia data s) := by
  refine canonical_next.mpr (memory_wf_vctBound hs fun p t ht => ?_)
  repeat' split
  all_goals simp [ht]

@[simp] theorem canonical_execRead {s : State} (hs : Memory.wf s.mem = true) (h : VctHdr) (ia len : Nat) : Canonical (execRead h ia len s) := by
  refine canonical_next.mpr (memory_wf_vctBound hs fun p t ht => ?_)
  repeat' split
  all_goals simp [ht]

@[simp] theorem canonical_execHostTransferComplete {s : State} (hs : Memory.wf s.mem = true) (id : Nat) : Canonical (execHostTransferComplete id s) := by
  unfold execHostTransferComplete
  rw [canonical_next]
  repeat' split
  all_goals simp [hs]

@[simp] theorem canonical_execPartCreate {s : State} (hs : Memory.wf s.mem = true) (h : VctHdr) (part : Nat) :
    Canonical (execPartCreate h part s) := canonical_next.mpr (memory_wf_config hs fun _ ht => by simp [ht])

@[simp] theorem canonical_execPartDestroy {s : State} (hs : Memory.wf s.mem = true) (h : VctHdr) (part : Nat) :
    Canonical (execPartDestroy h part s) := canonical_next.mpr (memory_wf_config hs fun _ ht => by simp [ht])

@[simp] theorem canonical_execPartSps {s : State} (hs : Memory.wf s.mem = true) (h : VctHdr) (part mask : Nat) :
    Canonical (execPartSps h part mask s) := canonical_next.mpr (memory_wf_config hs fun _ ht => by simp [ht])

@[simp] theorem canonical_execPartMem {s : State} (hs : Memory.wf s.mem = true) (h : VctHdr) (part base len : Nat) (remove : Bool) :
    Canonical (execPartMem h part base len remove s) := canonical_next.mpr (memory_wf_config hs fun _ ht => by simp [ht])

@[simp] theorem canonical_execPartArena {s : State} (hs : Memory.wf s.mem = true) (h : VctHdr) (part bytes : Nat) :
    Canonical (execPartArena h part bytes s) := canonical_next.mpr (memory_wf_config hs fun _ ht => by simp [ht])

@[simp] theorem canonical_execVfBind {s : State} (hs : Memory.wf s.mem = true) (h : VctHdr) (vf part : Nat) :
    Canonical (execVfBind h vf part s) := canonical_next.mpr (memory_wf_config hs fun _ ht => by simp [ht])

@[simp] theorem canonical_execVfUnbind {s : State} (hs : Memory.wf s.mem = true) (h : VctHdr) (vf : Nat) :
    Canonical (execVfUnbind h vf s) := canonical_next.mpr (memory_wf_config hs fun _ ht => by simp [ht])

@[simp] theorem canonical_execLoad {s : State} (hs : Memory.wf s.mem = true) (h : VctHdr) (ia len : Nat) : Canonical (execLoad h ia len s) := by
  refine canonical_next.mpr (memory_wf_vctBound hs fun p t ht => ?_)
  repeat' split
  all_goals simp [ht]

@[simp] theorem canonical_execUnload {s : State} (hs : Memory.wf s.mem = true) (h : VctHdr) (handle : Nat) : Canonical (execUnload h handle s) := by
  refine canonical_next.mpr (memory_wf_vctBound hs fun p t ht => ?_)
  dsimp only
  repeat' split
  all_goals simp [ht]

@[simp] theorem canonical_execRailDrop {s : State} (hs : Memory.wf s.mem = true) (rail : Nat) : Canonical (execRailDrop rail s) := by
  unfold execRailDrop
  rw [canonical_next]
  split <;> simp [hs]

@[simp] theorem canonical_execWarmReset {s : State} (hs : Memory.wf s.mem = true)  : Canonical (execWarmReset s) := by
  unfold execWarmReset
  rw [canonical_next]
  split <;> simp [hs]

@[simp] theorem canonical_execThermalWarn {s : State} (hs : Memory.wf s.mem = true) (sensor : Nat) : Canonical (execThermalWarn sensor s) := by
  unfold execThermalWarn
  rw [canonical_next]
  split <;> simp [hs]

@[simp] theorem canonical_execThermalTrip {s : State} (hs : Memory.wf s.mem = true) (sensor : Nat) : Canonical (execThermalTrip sensor s) := by
  unfold execThermalTrip
  rw [canonical_next]
  split <;> simp [hs]

@[simp] theorem canonical_execThermalRecover {s : State} (hs : Memory.wf s.mem = true)  : Canonical (execThermalRecover s) := by
  unfold execThermalRecover
  rw [canonical_next]
  split <;> simp [hs]

@[simp] theorem canonical_execAttestationDone {s : State} (hs : Memory.wf s.mem = true)  : Canonical (execAttestationDone s) := by
  unfold execAttestationDone
  rw [canonical_next]
  split <;> simp [hs]

@[simp] theorem canonical_execSnapshotPacket {s : State} (hs : Memory.wf s.mem = true) (port : Nat) : Canonical (execSnapshotPacket port s) := by
  unfold execSnapshotPacket
  rw [canonical_next]
  split <;> simp [hs]

@[simp] theorem canonical_execSnapshotLatch {s : State} (hs : Memory.wf s.mem = true)  : Canonical (execSnapshotLatch s) := by
  unfold execSnapshotLatch
  rw [canonical_next]
  dsimp only
  repeat' split
  all_goals simp [hs, State.foldl_mem]

@[simp] theorem canonical_execDbgctlAttach {s : State} (hs : Memory.wf s.mem = true) (k : Nat) : Canonical (execDbgctlAttach k s) := by
  unfold execDbgctlAttach
  rw [canonical_next]
  split <;> simp [hs]

@[simp] theorem canonical_execRegisterWrite {s : State} (hs : Memory.wf s.mem = true) (a : Nat) (v : Dword) : Canonical (execRegisterWrite a v s) := by
  unfold execRegisterWrite
  rw [canonical_next]
  split <;> simp [hs]

@[simp] theorem canonical_execHoleRead {s : State} (hs : Memory.wf s.mem = true) (a : Nat) : Canonical (execHoleRead a s) := by
  unfold execHoleRead
  rw [canonical_next]
  split <;> simp [hs]

@[simp] theorem canonical_execJtagRegacc {s : State} (hs : Memory.wf s.mem = true) (a : Nat) (wr : Bool) (v : Dword) :
    Canonical (execJtagRegacc a wr v s) := by
  unfold execJtagRegacc
  rw [canonical_next]
  repeat' split
  all_goals simp [hs]

@[simp] theorem canonical_execPreemptRequest {s : State} (hs : Memory.wf s.mem = true) (k : Nat) :
    Canonical (execPreemptRequest k s) := by simp [execPreemptRequest, hs]

@[simp] theorem canonical_execKernelHalt {s : State} (hs : Memory.wf s.mem = true) (k : Nat) : Canonical (execKernelHalt k s) := by
  unfold execKernelHalt
  rw [canonical_next]
  refine memory_wf_withCtx hs fun c => ?_
  dsimp only
  repeat' split
  all_goals simp [hs]

@[simp] theorem canonical_execContextSave {s : State} (hs : Memory.wf s.mem = true) (k : Nat) :
    Canonical (execContextSave k s) := canonical_next.mpr (memory_wf_withCtx hs fun _ => by split <;> simp [hs])

@[simp] theorem canonical_execContextSaveComplete {s : State} (hs : Memory.wf s.mem = true) (k : Nat) : Canonical (execContextSaveComplete k s) := by
  unfold execContextSaveComplete
  rw [canonical_next]
  split <;> simp [hs]

@[simp] theorem canonical_execShadowWriteOut {s : State} (hs : Memory.wf s.mem = true) (k : Nat) : Canonical (execShadowWriteOut k s) := by
  have hstale : Memory.wf (((s.sp k).victims.filter Victim.stale).foldl (fun t v => t.showImage k v.ctx.launch) s).mem = true :=
    memory_wf_foldl hs fun t v ht => memory_wf_showImage ht _ _
  unfold execShadowWriteOut
  rw [canonical_next]
  dsimp only
  repeat' split
  all_goals simp [hstale]

@[simp] theorem canonical_execPolderClaim {s : State} (hs : Memory.wf s.mem = true) (k victim h : Nat) : Canonical (execPolderClaim k victim h s) := by
  unfold execPolderClaim
  rw [canonical_next]
  repeat' split
  all_goals simp [hs]

@[simp] theorem canonical_execContextRestore {s : State} (hs : Memory.wf s.mem = true) (k victim : Nat) : Canonical (execContextRestore k victim s) := by
  unfold execContextRestore
  rw [canonical_next]
  dsimp only
  repeat' split
  any_goals simp [hs]
  · exact memory_wf_foldl hs fun t m ht => memory_wf_restoreEnd ht _ _
  · refine memory_wf_foldl ?_ fun t m ht => memory_wf_restoreBegin ht _ _ _
    exact hs

@[simp] theorem canonical_execMigrateAccept {s : State} (hs : Memory.wf s.mem = true) (h : VctHdr) (m : MigArgs) :
    Canonical (execMigrateAccept h m s) := canonical_next.mpr (memory_wf_migOp hs fun t p ht => by simp [ht])

@[simp] theorem canonical_execMigrateStart {s : State} (hs : Memory.wf s.mem = true) (h : VctHdr) (m : MigArgs) :
    Canonical (execMigrateStart h m s) := canonical_next.mpr (memory_wf_migOp hs fun t p ht => by simp [ht])

@[simp] theorem canonical_execMigrateAbort {s : State} (hs : Memory.wf s.mem = true) (h : VctHdr) (m : MigArgs) :
    Canonical (execMigrateAbort h m s) := canonical_next.mpr (memory_wf_migOp hs fun t p ht => by simp [ht])

@[simp] theorem canonical_execMigrateRelease {s : State} (hs : Memory.wf s.mem = true) (h : VctHdr) (m : MigArgs) :
    Canonical (execMigrateRelease h m s) := canonical_next.mpr (memory_wf_migOp hs fun t p ht => by simp [ht])

@[simp] theorem canonical_execMigrationHello {s : State} (hs : Memory.wf s.mem = true) (k : Packet) : Canonical (execMigrationHello k s) := by
  unfold execMigrationHello
  rw [canonical_next]
  repeat' split
  all_goals simp [hs]

@[simp] theorem canonical_execMigrationFrozen {s : State} (hs : Memory.wf s.mem = true) (part : Nat) : Canonical (execMigrationFrozen part s) := by
  unfold execMigrationFrozen
  rw [canonical_next]
  repeat' split
  all_goals simp [hs]

@[simp] theorem canonical_execStateRecord {s : State} (hs : Memory.wf s.mem = true) (part : Nat) : Canonical (execStateRecord part s) := by
  unfold execStateRecord
  rw [canonical_next]
  dsimp only
  repeat' split
  all_goals simp [hs]

@[simp] theorem canonical_execStateRecordTimeout {s : State} (hs : Memory.wf s.mem = true) (part : Nat) : Canonical (execStateRecordTimeout part s) := by
  unfold execStateRecordTimeout
  rw [canonical_next]
  repeat' split
  all_goals simp [hs]

@[simp] theorem canonical_execMigrationResumed {s : State} (hs : Memory.wf s.mem = true) (part : Nat) : Canonical (execMigrationResumed part s) := by
  unfold execMigrationResumed
  rw [canonical_next]
  repeat' split
  all_goals simp [hs]

@[simp] theorem canonical_execPagePullRequest {s : State} (hs : Memory.wf s.mem = true) (acc : Nat) : Canonical (execPagePullRequest acc s) := by
  unfold execPagePullRequest
  rw [canonical_next]
  repeat' split
  all_goals simp [hs]

@[simp] theorem canonical_execPageShip {s : State} (hs : Memory.wf s.mem = true) (part page : Nat) : Canonical (execPageShip part page s) := by
  have hback := memory_wf_writeBack hs fun l => decide (l.beat / 1024 = page)
  unfold execPageShip
  rw [canonical_next]
  repeat' split
  all_goals simp [hback, State.foldl_mem]

@[simp] theorem canonical_execPagePresent {s : State} (hs : Memory.wf s.mem = true) (part page : Nat) : Canonical (execPagePresent part page s) := by
  unfold execPagePresent
  rw [canonical_next]
  dsimp only
  repeat' split
  all_goals simp [hs]

@[simp] theorem canonical_execBeatAck {s : State} (hs : Memory.wf s.mem = true) (k : Packet) : Canonical (execBeatAck k s) := by
  unfold execBeatAck
  rw [canonical_next]
  repeat' split
  all_goals simp [hs]

@[simp] theorem canonical_execBeatResendTimeout {s : State} (hs : Memory.wf s.mem = true) (engine seq : Nat) :
    Canonical (execBeatResendTimeout engine seq s) := by
  unfold execBeatResendTimeout
  rw [canonical_next]
  split
  · exact hs
  · refine memory_wf_ite hs (memory_wf_ite ?_ (memory_wf_ite ?_ (memory_wf_ite ?_ ?_)))
    · simp [hs]
    · simp [hs]
    · refine memory_wf_foldl ?_ fun t x ht => ?_
      · exact (congrArg Memory.wf (State.dropBeat_mem s engine seq)).trans hs
      · exact ht
    · simp [hs]

@[simp] theorem canonical_execHoldResend {s : State} (hs : Memory.wf s.mem = true) (engine seq : Nat) : Canonical (execHoldResend engine seq s) := by
  unfold execHoldResend
  rw [canonical_next]
  repeat' split
  all_goals simp [hs]

@[simp] theorem canonical_execMovedAck {s : State} (hs : Memory.wf s.mem = true) (k : Packet) : Canonical (execMovedAck k s) := by
  unfold execMovedAck
  rw [canonical_next]
  dsimp only
  repeat' split
  all_goals simp [hs]

@[simp] theorem canonical_execGraceExpiry {s : State} (hs : Memory.wf s.mem = true) (part : Nat) : Canonical (execGraceExpiry part s) := by
  unfold execGraceExpiry
  rw [canonical_next]
  repeat' split
  all_goals simp [hs]

end Sys2Proof.Machine
end

-- ==== Sys2Proof/Proofs/MemoryTurns.lean ====

section
/-! Every step keeps memory in its canonical form: every instruction, every bundle of them, every turn of a cycle. -/

namespace Sys2Proof.Machine

/-- An outcome whose memory is that of the state before. -/
theorem canonical_of_mem {s t : State} (hs : Memory.wf s.mem = true) (h : t.mem = s.mem) : Canonical (.next t) := by rwa [canonical_next, h]

/-! ## Every instruction but the issue of a bundle, whose slots are instructions themselves -/

theorem canonical_exec_of_ne {s : State} (hs : Memory.wf s.mem = true) {i : Instr} (hi : ∀ k, i ≠ .bundleIssue k) : Canonical (exec i s) := by
  cases i with
  | bundleIssue k => exact absurd rfl (hi k)
  | qadd | qsub | qmul | qand | qor | qxor | qshl | qshr | qsra | qmin | qmax =>
    exact canonical_of_mem hs (qOp_mem _ _ _ _ _ _ _)
  | qaddi | qli | qget | qsd =>
    exact canonical_of_mem hs (qWrite_mem _ _ _ _ _)
  | cmp | cmpi | clog | vany | vall =>
    exact canonical_of_mem hs (cWrite_mem _ _ _ _ _)
  | pset | ptail =>
    exact canonical_of_mem hs (pWrite_mem _ _ _ _ _)
  | pbt | mset | ksr | ksc | kmode | spush | sadv | spos | seos | dqpop | dqn | kcopy | mcall | mzero | mmode | mwm =>
    exact canonical_of_mem hs (State.uniform_mem _ _ _)
  | brT | brF | br | brR | brl | endK | ktrap =>
    exact canonical_of_mem hs (State.control_mem _ _ _)
  | loop | loopi | loopm =>
    exact canonical_of_mem hs (loopOpen_mem _ _ _ _ _ _ _)
  | mwait | sflush | mfence =>
    exact canonical_next.mpr hs
  | gadd | gsub | gmul | gand | gor | gxor | gshl | gshr | gsra | gmin | gmax | gslt | gsltn | gmulh =>
    exact canonical_of_mem hs (gOp_mem _ _ _ _ _ _ _)
  | gaddi | gshi | gli | gfrq | gext | gins | gsel | gclz | xtog =>
    exact canonical_of_mem hs (gWrite_mem _ _ _ _ _)
  | gcid =>
    exact canonical_of_mem hs (clusterWrite_mem _ _ _ _)
  | xadd | xsub | xshl | xand | xpopb | xmin | xmax | xrank =>
    exact canonical_of_mem hs (iOp_mem _ _ _ _ _ _)
  | xaddi | xpopc | xsel | xli | xfrg | xcadv | xdiagStep | xdiagMid =>
    exact canonical_of_mem hs (iWrite_mem _ _ _ _ _)
  | xaq | xaqs =>
    exact canonical_of_mem hs (aqPush_mem _ _ _ _ _ _)
  | spop | speek =>
    exact canonical_of_mem hs (rawPopRun_mem _ _ _ _ _ _)
  | kstep | bmchk | ksteps | rpop | rpeek | rowg | accsel | accz | loopk | wmset | epi | parm | jmp =>
    exact canonical_of_mem hs (microRun_mem _ _)
  | accUpdateLanding | routineRetire | callQueueStart | rvBranch | jal | jalr | kstatusIeWrite | kstatusPendClear | kstatClear | cboundWrite
  | mpreqWrite | keventDelivery | pinfo | sdcopy | eosClose | tsplit | syield | sstat | spireMergePass | matrixDrainLimit | aqReclaim =>
    exact canonical_of_mem hs (State.modCtx_mem _ _ _)
  | vadd | vsub | vadds | vaddn | vsubs | vsubn | vmul | vmulh | vmulhn | vmin | vmax | vminn | vmaxn | vand | vor | vxor | vandn | vshl | vshr
  | vsra | vsrar | vcmpeq | vcmplt | vcmpltn | vcmple =>
    exact canonical_of_mem hs (vInt2_mem _ _ _ _)
  | vabs | vneg | vclz | vpopc =>
    exact canonical_of_mem hs (vInt1_mem _ _ _ _)
  | vsel | vmac | vmacw | vnarrow | vwiden | vcvt | vqnt | vdq | vrsum | vrmax | vrmin | vamax | vtopk | vscan | vcompress | vexpand | vidx | vmov
  | vzero =>
    exact canonical_of_mem hs (vRun_mem _ _ _ _)
  | fadd | fsub | fmul | fmin | fmax | fcmpeq | fcmplt | fcmple | fcmpun | fscale =>
    exact canonical_of_mem hs (vFp2_mem _ _ _ _)
  | fma | fms | fnma =>
    exact canonical_of_mem hs (vFp3_mem _ _ _ _)
  | fabs | fneg | fclass =>
    exact canonical_of_mem hs (vFp1_mem _ _ _ _)
  | frcp | frsq | fexp2 | flog2 | fsin | fcos | ftanh =>
    exact canonical_of_mem hs (vSpecial_mem _ _ _)
  | wperm | wbcast | wrot | wbfly =>
    exact canonical_of_mem hs (switchWrite_mem _ _ _ _ _)
  | wrsum | wrmax | wscan | wsegsum =>
    exact canonical_of_mem hs (switchSum_mem _ _ _ _ _)
  | rvIntegerAlu | rvMultiply | rvDivide | fence =>
    exact canonical_of_mem hs (rvStep_mem _ _ _)
  | sload | sstore | sgather | sscatter | sscadd | scopy | satomAdd | satomSwap | satomCas | satomMin | satomMax | satomAnd | satomOr =>
    exact canonical_of_mem hs (State.copyEnter_mem _ _ _ _ _)
  | svadd | svmul | svfma | svcvt | svscale | svmax | svmin | svcopy | svfill =>
    exact canonical_of_mem hs (State.sweepEnter_mem _ _ _ _ _)
  | resultLanding | kstatusKres | kstatusKkill | ack | tlbInvalidate | faultResolve | faultCancel | portcfgWrite | selectiveAckReceive | jtagBypass
  | jtagSamplePreload | scoreboardIssue | powerOnReset | jtagTrst | controlMemoryClaim | attgo | snaptrig | snapctlValidClear | dbgctlGo | jtagIdcode
  | jtagExtest =>
    simp [hs, execResultLanding, execKstatusKres, execKstatusKkill, execAck, execTlbInvalidate, execFaultResolve, execFaultCancel,
      execPortcfgWrite, execSelectiveAckReceive, execJtagBypass, execJtagSamplePreload, execScoreboardIssue, execPowerOnReset, execJtagTrst,
      execControlMemoryClaim, execAttgo, execSnaptrig, execSnapctlValidClear, execDbgctlGo, execJtagIdcode, execJtagExtest]
  | _ => simp [hs]

/-! ## Bundles (08 R192 to R196): the slots of a bundle act one after the other -/

theorem decodeC_ne_bundleIssue (w : Nat) (x : Option Nat) (k : Nat) : decodeC w x ≠ some (.bundleIssue k) := by
  unfold decodeC
  dsimp only
  repeat' split
  all_goals simp

theorem decodeS_ne_bundleIssue (w : Nat) (x : Option Nat) (k : Nat) : decodeS w x ≠ some (.bundleIssue k) := by
  unfold decodeS
  repeat' split
  all_goals simp

theorem decodeX_ne_bundleIssue (w : Nat) (x : Option Nat) (k : Nat) : decodeX w x ≠ some (.bundleIssue k) := by
  unfold decodeX
  repeat' split
  all_goals simp

theorem decodeM_ne_bundleIssue (w : Nat) (x : Option Nat) (k : Nat) : decodeM w x ≠ some (.bundleIssue k) := by
  unfold decodeM
  repeat' split
  all_goals simp

theorem decodeW_ne_bundleIssue (w : Nat) (x : Option Nat) (k : Nat) : decodeW w x ≠ some (.bundleIssue k) := by
  unfold decodeW
  repeat' split
  all_goals simp

theorem decodeP_ne_bundleIssue (w : Nat) (x : Option Nat) (k : Nat) : decodeP w x ≠ some (.bundleIssue k) := by
  unfold decodeP
  repeat' split
  all_goals simp

theorem vOp_ne_bundleIssue (o : VSlot) (op k : Nat) : vOp o op ≠ some (.bundleIssue k) := by
  unfold vOp
  split
  all_goals simp

/-- A slot decodes to no issue of a bundle. -/
theorem decodeIn_slotSpace_ne_bundleIssue (j w : Nat) (x : Option Nat) (k : Nat) : decodeIn (slotSpace j) w x ≠ some (.bundleIssue k) := by
  have hv : (if vLegal (fld w 0 7) (vslotOf w) then vOp (vslotOf w) (fld w 0 7) else none) ≠ some (.bundleIssue k) := by
    split
    · exact vOp_ne_bundleIssue _ _ k
    · simp
  unfold slotSpace
  split
  · exact decodeC_ne_bundleIssue w x k
  · exact decodeS_ne_bundleIssue w x k
  · exact hv
  · exact hv
  · exact decodeX_ne_bundleIssue w x k
  · exact decodeM_ne_bundleIssue w x k
  · exact decodeW_ne_bundleIssue w x k
  · exact decodeP_ne_bundleIssue w x k

/-- From bit 8 of the presence mask on, which no mask has, the model reads a word as that of a V slot. -/
theorem slotMeaning_beyond {j : Nat} (hj : 8 ≤ j) (w : Nat) (x : Option Nat) : slotMeaning j w x = slotMeaning 2 w x := by
  obtain ⟨n, rfl⟩ := Nat.exists_eq_add_of_le' hj
  rfl

theorem canonical_slotMeaning {s : State} (hs : Memory.wf s.mem = true) {j w : Nat} {x : Option Nat} {f : Meaning} (hf : slotMeaning j w x = some f) :
    Canonical (f s) := by
  wlog hj : j < 8 generalizing j
  · exact this (slotMeaning_beyond (Nat.le_of_not_lt hj) w x ▸ hf) (by decide)
  rw [slotMeaning_eq j w x hj, Option.map_eq_some_iff] at hf
  obtain ⟨i, hi, rfl⟩ := hf
  exact canonical_exec_of_ne hs fun k hk => decodeIn_slotSpace_ne_bundleIssue j w x k (hk ▸ hi)

theorem canonical_actSlots {s : State} (hs : Memory.wf s.mem = true) (b : Bundle) (l : List (Nat × Nat)) : Canonical (actSlots b l s) := by
  induction l generalizing s with
  | nil => exact canonical_next.mpr hs
  | cons q l ih =>
    unfold actSlots
    split
    · exact ih hs
    next f hf =>
      have hact := canonical_slotMeaning hs hf
      split
      next t ht => exact ih (canonical_next.mp (ht ▸ hact))
      · exact hact

theorem canonical_execBundleIssue {s : State} (hs : Memory.wf s.mem = true) (k : Nat) : Canonical (execBundleIssue k s) := by
  unfold execBundleIssue State.issueBundle
  dsimp only
  repeat' split
  any_goals simp [hs]
  exact canonical_actSlots (by simpa using hs) _ _

/-! ## Every instruction and every turn of a cycle (12 R326, log 10) -/

/-- Whatever the part executes leaves memory in its canonical form. -/
theorem canonical_exec {s : State} (hs : Memory.wf s.mem = true) (i : Instr) : Canonical (exec i s) := by
  by_cases hi : ∃ k, i = .bundleIssue k
  · obtain ⟨k, rfl⟩ := hi
    exact canonical_execBundleIssue hs k
  · exact canonical_exec_of_ne hs fun k hk => hi ⟨k, hk⟩

theorem canonical_bundleEndTurn {s : State} (hs : Memory.wf s.mem = true) (k : Nat) : Canonical (bundleEndTurn k s) := by
  unfold bundleEndTurn
  repeat' split
  all_goals simp [hs, canonical_exec, -exec_lockRound, -exec_branchTransfer, -exec_loopBackEdge]

theorem canonical_sequencerTurn {s : State} (hs : Memory.wf s.mem = true) (k : Nat) : Canonical (sequencerTurn k s) := by
  have htick : Memory.wf (s.seqTick k).2.mem = true := by simpa using hs
  unfold sequencerTurn
  dsimp only
  split
  · have hissue := canonical_exec htick (.bundleIssue k)
    split
    next t ht => exact canonical_bundleEndTurn (canonical_next.mp (ht ▸ hissue)) k
    · exact hissue
  · exact canonical_bundleEndTurn htick k

theorem canonical_controllerStep {s : State} (hs : Memory.wf s.mem = true) (k : Nat) (c : Ctx) : Canonical (controllerStep k c s) := by
  unfold controllerStep
  dsimp only
  split
  · simp [hs]
  · split
    · exact canonical_exec hs _
    · simp [hs]

theorem canonical_controllerTurn {s : State} (hs : Memory.wf s.mem = true) (k : Nat) : Canonical (controllerTurn k s) := by
  unfold controllerTurn
  split
  · exact canonical_next.mpr hs
  next c hc =>
    split
    · exact canonical_next.mpr hs
    split
    · simp [hs]
    split
    · exact canonical_exec hs _
    split
    · exact canonical_exec hs _
    · exact canonical_controllerStep (s := { s with cur := k }) hs k c

theorem canonical_matrixTurn {s : State} (hs : Memory.wf s.mem = true) (k : Nat) : Canonical (matrixTurn k s) := by
  unfold matrixTurn
  split
  · exact canonical_next.mpr hs
  · split
    · exact canonical_next.mpr hs
    · repeat' split
      · simp [hs]
      · exact canonical_next.mpr hs
      · simp [hs]
      · exact canonical_exec (s := { s with cur := k }) hs _

theorem canonical_hostPortTurn {s : State} (hs : Memory.wf s.mem = true) : Canonical (hostPortTurn s) := by
  unfold hostPortTurn
  split
  · exact canonical_next.mpr hs
  next f rest _ =>
    split
    · exact canonical_next.mpr hs
    · exact canonical_exec (s := { s with hostIn := rest }) hs _

theorem canonical_runTurn {s : State} (hs : Memory.wf s.mem = true) (t : Turn) : Canonical (runTurn t s) := by
  cases t with
  | run i => exact canonical_exec hs i
  | controller k => exact canonical_controllerTurn hs k
  | matrix k => exact canonical_matrixTurn hs k
  | sequencer k => exact canonical_sequencerTurn hs k
  | tick k => exact canonical_of_mem hs (State.modSp_mem s k Sp.tick)
  | hostPort => exact canonical_hostPortTurn hs
  | hint k => exact canonical_next.mpr (memory_wf_hintBeat hs k)
  | line n => exact canonical_of_mem hs (State.lineTurn_mem s n)
  | later => exact canonical_next.mpr hs
  | stage n => exact canonical_next.mpr hs

/-- The step lemma of the invariant. -/
theorem canonical_step {s : State} (hs : Memory.wf s.mem = true) : Canonical (step s) := by
  unfold step
  split
  next i rest _ => exact canonical_exec (s := { s with inbox := rest }) hs i
  · split
    next t rest _ => exact canonical_runTurn (s := { s with turns := rest }) hs t
    · exact canonical_next.mpr hs

end Sys2Proof.Machine

namespace Sys2Proof
open Machine

/-- Settles O6, by the step lemma of the canonical form. -/
theorem memoryStaysCanonical : Obligations.MemoryStaysCanonical := by
  unfold Obligations.MemoryStaysCanonical
  exact fun s t hs hstep => canonical_step hs t hstep

end Sys2Proof
end

-- ==== Sys2Proof/Proofs/PagedMisses.lean ====

section
/-! A range-register miss whose segment lies in paged IA, whose page no TLB holds, starts a walk in the step that serves the miss, and walk
reads pass through the memory-side cache like any other read (12 R319, R325): that step fills lines. -/

namespace Sys2Proof.Machine

/-- Launch 1 of partition 3, with one segment of 2 MiB at VA 0, in paged IA from 2^40. -/
def pagedLaunch : Launch :=
  { id := 1, vf := 1, queue := 0, part := 3, handle := 1, tag := 0, msgTag := 0, entry := 0, count := 1, bar := false, setf := false, twr := 0, prio := 0,
    mask := 1, port := 0, addr := 0, args := [], state := 1, passes := 0, started := 0, t := 2 ^ 32, ret := 0,
    segs := [⟨0, 2 ^ 21, 2 ^ 40, true, true, 0, false, true, 0⟩],
    ranks := [0], groups := [], slots := [], cause := none, crank := 0, cword := 0, caddr := 0, cpc := 0, order := 0, saves := [], wants := [], gone := [] }

/-- A read of a gather at VA 0 that has missed the range registers of SP 0. -/
def pagedAcc : Acc := { Acc.new (.gather 0 1 0) 3 .read 0 0 8 [] 0 with state := 7 }

/-- Partition 3: its translation block at 0 names a radix table at 2^20, and a paged range begins at 2^40. -/
def pagedMiss : State :=
  { State.reset with
    mem := Memory.write [] 0 (toBytes 8 1 ++ toBytes 8 (2 ^ 20)), accs := [pagedAcc], launches := [pagedLaunch],
    parts := [(3, { Part.init with sps := [0], linear := [(0, 2 ^ 21)], paged := [(2 ^ 40, 2 ^ 30)] })] }

/-- The walk of `pagedMiss` brings the line of the root's first entry into the cache. -/
theorem pagedMiss_fills : ∃ t, exec (.rangeMissServe 0) pagedMiss = .next t ∧ t.cache.map (·.beat) = [2 ^ 20 / 64] :=
  ⟨_, rfl, by decide⟩

end Sys2Proof.Machine

namespace Sys2Proof
open Machine

/-- Refutes O54: serving the miss of `pagedMiss` starts its walk, whose read fills a line of the empty cache, while the first clause has the step
leave the cache alone wherever the segment lies. -/
theorem not_accessesToMemory : ¬ Obligations.AccessesToMemory := by
  unfold Obligations.AccessesToMemory
  rintro ⟨hmiss, -⟩
  obtain ⟨-, hserved⟩ := hmiss 0 1 0 pagedAcc pagedLaunch ⟨0, 2 ^ 21, 2 ^ 40, true, true, 0, false, true, 0⟩ pagedMiss rfl rfl rfl rfl
  obtain ⟨t, hstep, -, hcache, -⟩ := hserved (Nat.le_refl 0) rfl rfl rfl
  obtain ⟨u, hstep', hfilled⟩ := pagedMiss_fills
  obtain rfl : t = u := Host.Outcome.next.inj (hstep.symm.trans hstep')
  have hempty : t.cache = [] := hcache
  simp [hempty] at hfilled

end Sys2Proof
end

-- ==== Sys2Proof/Proofs/StepAnswers.lean ====

section
/-! PROOF. Every instruction and every turn of a cycle answers a next state: most meanings are a next state outright; the issue of a bundle
answers because its slots do, and a turn because what it executes does. -/

namespace Sys2Proof.Machine

theorem answers_next (t : State) : Answers (.next t) := ⟨t, rfl⟩

/-! ## Instructions -/

/-- Every meaning but that of the issue of a bundle is a next state by its definition. -/
theorem answers_exec_of_ne (s : State) {i : Instr} (hi : ∀ k, i ≠ .bundleIssue k) : Answers (exec i s) := by
  cases i with
  | bundleIssue k => exact absurd rfl (hi k)
  | _ => exact ⟨_, rfl⟩

/-- A slot means what its instruction does, which is no issue of a bundle (08 R192). -/
theorem answers_slotMeaning (s : State) {j w : Nat} {x : Option Nat} {f : Meaning} (hf : slotMeaning j w x = some f) : Answers (f s) := by
  wlog hj : j < 8 generalizing j
  · exact this (slotMeaning_beyond (Nat.le_of_not_lt hj) w x ▸ hf) (by decide)
  rw [slotMeaning_eq j w x hj, Option.map_eq_some_iff] at hf
  obtain ⟨i, hi, rfl⟩ := hf
  exact answers_exec_of_ne s fun k hk => decodeIn_slotSpace_ne_bundleIssue j w x k (hk ▸ hi)

/-- Slots that act one after another answer. -/
theorem answers_actSlots (b : Bundle) (l : List (Nat × Nat)) (s : State) : Answers (actSlots b l s) := by
  induction l generalizing s with
  | nil => exact answers_next s
  | cons q l ih =>
    unfold actSlots
    split
    · exact ih s
    next f hf =>
      obtain ⟨t, ht⟩ := answers_slotMeaning s hf
      rw [ht]
      exact ih t

/-- A bundle raises an event, or stalls, or issues with all its slots (04 R110). -/
theorem answers_execBundleIssue (k : Nat) (s : State) : Answers (execBundleIssue k s) := by
  unfold execBundleIssue
  dsimp only
  repeat' split
  any_goals exact answers_next _
  exact answers_actSlots _ _ _

theorem answers_exec (i : Instr) (s : State) : Answers (exec i s) := by
  by_cases hi : ∃ k, i = .bundleIssue k
  · obtain ⟨k, rfl⟩ := hi
    exact answers_execBundleIssue k s
  · exact answers_exec_of_ne s fun k hk => hi ⟨k, hk⟩

/-! ## Turns -/

theorem answers_bundleEndTurn (k : Nat) (s : State) : Answers (bundleEndTurn k s) := by
  unfold bundleEndTurn
  split
  · exact answers_next s
  · split
    · exact answers_next s
    · exact answers_exec _ s
    · exact answers_exec _ s
    · exact answers_exec _ s
    · exact answers_next _

/-- The end of a bundle is looked at in the state that the issue answers. -/
theorem answers_sequencerTurn (k : Nat) (s : State) : Answers (sequencerTurn k s) := by
  unfold sequencerTurn
  dsimp only
  split
  · obtain ⟨t, ht⟩ := answers_exec (.bundleIssue k) (s.seqTick k).2
    rw [ht]
    exact answers_bundleEndTurn k t
  · exact answers_bundleEndTurn k _

/-- A fetch that faults and an undefined encoding are exceptions, from which the machine goes on (19 R402). -/
theorem answers_controllerStep (k : Nat) (c : Ctx) (s : State) : Answers (controllerStep k c s) := by
  unfold controllerStep
  dsimp only
  split
  · exact answers_next _
  · split
    · exact answers_exec _ s
    · exact answers_next _

theorem answers_controllerTurn (k : Nat) (s : State) : Answers (controllerTurn k s) := by
  unfold controllerTurn
  split
  · exact answers_next s
  · split
    · exact answers_next s
    split
    · exact answers_next _
    split
    · exact answers_exec _ s
    split
    · exact answers_exec _ s
    · exact answers_controllerStep k _ _

theorem answers_matrixTurn (k : Nat) (s : State) : Answers (matrixTurn k s) := by
  unfold matrixTurn
  split
  · exact answers_next s
  split
  · exact answers_next s
  split
  · exact answers_next _
  split
  · exact answers_next s
  split
  · exact answers_next _
  · exact answers_exec _ _

theorem answers_hostPortTurn (s : State) : Answers (hostPortTurn s) := by
  unfold hostPortTurn
  split
  · exact answers_next s
  split
  · exact answers_next _
  · exact answers_exec _ _

theorem answers_runTurn (t : Turn) (s : State) : Answers (runTurn t s) := by
  cases t with
  | run i => exact answers_exec i s
  | controller k => exact answers_controllerTurn k s
  | matrix k => exact answers_matrixTurn k s
  | sequencer k => exact answers_sequencerTurn k s
  | hostPort => exact answers_hostPortTurn s
  | tick | hint | line | later | stage => exact answers_next _

theorem answers_step (s : State) : Answers (step s) := by
  unfold step
  split
  · exact answers_exec _ _
  split
  · exact answers_runTurn _ _
  · exact answers_next _

end Sys2Proof.Machine

namespace Sys2Proof
open Machine

/-- Settles O1: every instruction answers, and a step is an instruction, a turn, or the start of a cycle. -/
theorem stepAlwaysAnswers : Obligations.StepAlwaysAnswers := by
  unfold Obligations.StepAlwaysAnswers
  exact ⟨answers_exec, answers_step⟩

end Sys2Proof
end

-- ==== Sys2Proof/Proofs/ResetState.lean ====

section
/-! PROOF. The state right after a reset: every store of it lists nothing, so that each read gives what an unlisted key reads as. -/

namespace Sys2Proof.Machine

theorem reset_ctx (k : Nat) : State.reset.ctx k = none := rfl

theorem reset_vf (v : Nat) : State.reset.vf v = Vf.init := rfl

theorem reset_port (n : Nat) : State.reset.port n = Port.init := rfl

end Sys2Proof.Machine

namespace Sys2Proof
open Machine

/-- Settles O7: what is not listed is as after a reset, and the fields of the device are those of its reset. -/
theorem resetState : Obligations.ResetState := by
  unfold Obligations.ResetState
  refine ⟨memory_wf_reset, rfl, rfl, reset_ctx, fun v => ?_, fun n => ?_, rfl, rfl⟩
  · rw [reset_vf]
    exact ⟨rfl, rfl⟩
  · rw [reset_port]
    exact ⟨rfl, rfl, rfl, rfl⟩

end Sys2Proof
end

-- ==== Sys2Proof/Proofs/DeviceAccess.lean ====

section
/-! PROOF. LD and SD of the register space by a controller in M mode (25 R474). -/

namespace Sys2Proof.Machine

theorem Ctx.reachesRegs_true {c : Ctx} {a : Nat} (hm : c.mmode = true) (ha : a < 0x1000000) : c.reachesRegs (regBase + a) = true := by
  simp [Ctx.reachesRegs, hm]
  exact ha

section
variable (cmp : Bool) {rd rs1 rs2 a : Nat} {off : Dword} {s : State} {c : Ctx} (hc : s.ctx s.cur = some c) (hm : c.mmode = true)
  (haddr : (c.xr rs1 + off).toNat = regBase + a) (halign : a % 8 = 0) (ha : a < 0x1000000)
include hm haddr halign ha

/-- The access lies in the register space and is aligned. -/
theorem deviceAccess_reaches : c.reachesRegs (c.xr rs1 + off).toNat = true ∧ (c.xr rs1 + off).toNat % 8 = 0 ∧ (c.xr rs1 + off).toNat - regBase = a := by
  rw [haddr]
  exact ⟨Ctx.reachesRegs_true hm ha, by unfold regBase; omega, Nat.add_sub_cancel_left _ _⟩

include hc

theorem exec_rvLoad_device : exec (.rvLoad cmp .ld rd rs1 off) s =
    .next ((s.regAccess a).2.setCtx s.cur ((c.setX rd (s.regAccess a).1).advance (rvLen cmp))) := by
  obtain ⟨hreach, halign', hsub⟩ := deviceAccess_reaches hm haddr halign ha
  rw [exec_rvLoad, execRvLoad, State.withCtx_of_ctx hc]
  simp only [hreach, halign', hsub, and_self, if_true]

theorem exec_rvStore_device : exec (.rvStore cmp .sd rs2 rs1 off) s =
    .next (rvStep (rvLen cmp) id { s with inbox := s.inbox ++ [.registerWrite a (c.xr rs2)] }) := by
  obtain ⟨hreach, halign', hsub⟩ := deviceAccess_reaches hm haddr halign ha
  rw [exec_rvStore, execRvStore, State.withCtx_of_ctx hc]
  simp only [hreach, halign', hsub, and_self, if_true]

/-- A register gives its value. -/
theorem rvLoad_register {v : Dword} (hv : s.regRead a = some v) :
    CtxStep (.rvLoad cmp .ld rd rs1 off) s s.cur { c.setX rd v with pc := c.pc + (if cmp then 2 else 4) } := by
  have hread : s.regAccess a = (v, s) := by rw [State.regAccess, hv]
  refine (ctxStep_set (d := (c.setX rd v).advance (rvLen cmp)) ?_).congr (by rw [Ctx.advance, Ctx.setX_pc, ofNat_rvLen])
  rw [exec_rvLoad_device cmp hc hm haddr halign ha, hread]

/-- A hole gives 0 and is counted. -/
theorem rvLoad_hole (hv : s.regRead a = none) : ∃ t, exec (.rvLoad cmp .ld rd rs1 off) s = .next t ∧
    t = { s with sps := t.sps, dev := { s.dev with holehit := min 0xFFFF (s.dev.holehit + 1) } } ∧
    ∀ j, t.sp j = if j = s.cur then { s.sp j with ctx := some { c.setX rd 0 with pc := c.pc + (if cmp then 2 else 4) } } else s.sp j := by
  have hread : s.regAccess a = (0, s.holeHit) := by rw [State.regAccess, hv]
  have hctx : (c.setX rd 0).advance (rvLen cmp) = { c.setX rd 0 with pc := c.pc + (if cmp then 2 else 4) } := by rw [Ctx.advance, Ctx.setX_pc, ofNat_rvLen]
  refine ⟨s.holeHit.setCtx s.cur ((c.setX rd 0).advance (rvLen cmp)), ?_, rfl, fun j => ?_⟩
  · rw [exec_rvLoad_device cmp hc hm haddr halign ha, hread]
  · rw [((WithSp.refl s.holeHit s.cur).setCtx _).2 j, hctx]
    split
    · rename_i hj; rw [hj]; rfl
    · rfl

/-- A write is the machine's next event. -/
theorem rvStore_register : ∃ t, exec (.rvStore cmp .sd rs2 rs1 off) s = .next t ∧
    t = { s with sps := t.sps, inbox := s.inbox ++ [.registerWrite a (c.xr rs2)] } ∧
    ∀ j, t.sp j = if j = s.cur then { s.sp j with ctx := some { c with pc := c.pc + (if cmp then 2 else 4) } } else s.sp j := by
  have hstep := withSp_modCtx (s := { s with inbox := s.inbox ++ [.registerWrite a (c.xr rs2)] }) hc fun c => (id c).advance (rvLen cmp)
  refine ⟨_, exec_rvStore_device cmp hc hm haddr halign ha, hstep.1, fun j => ?_⟩
  refine (hstep.2 j).trans ?_
  rw [id, Ctx.advance, ofNat_rvLen]
  split
  · rename_i hj; rw [hj]; rfl
  · rfl
end

end Sys2Proof.Machine

namespace Sys2Proof
open Machine

/-- Settles O12: the address reaches the register space, whose reads `regAccess` answers and whose writes join the inbox. -/
theorem controllerDeviceAccess : Obligations.ControllerDeviceAccess := by
  unfold Obligations.ControllerDeviceAccess
  intro cmp rd rs1 rs2 off s c a hc hm haddr halign ha
  exact ⟨fun v hv => rvLoad_register cmp hc hm haddr halign ha hv, fun hv => rvLoad_hole cmp hc hm haddr halign ha hv,
    rvStore_register cmp hc hm haddr halign ha⟩

end Sys2Proof
end

-- ==== Sys2Proof/Proofs/ControllerTraps.lean ====

section
/-! PROOF. Exceptions of the controller: entry into M mode, the end of the launch from U mode, and the instructions that raise one (19 R402, R403). -/

namespace Sys2Proof.Machine

/-! ## Entry into M mode -/

/-- mstatus from its fields: MIE (bit 3), MPIE (bit 7), MPP (bits 12:11), and what stands between them. -/
def mstatusOf (lo mie mid mpie top mpp hi : Nat) : Nat := lo + 8 * mie + 16 * mid + 128 * mpie + 256 * top + 2048 * mpp + 8192 * hi

theorem mstatusOf_fields {lo mie mid mpie top mpp : Nat} (hi : Nat) (hlo : lo < 8) (hmie : mie < 2) (hmid : mid < 8) (hmpie : mpie < 2) (htop : top < 8)
    (hmpp : mpp < 4) : mstatusOf lo mie mid mpie top mpp hi / 2 ^ 11 % 2 ^ 2 = mpp ∧ mstatusOf lo mie mid mpie top mpp hi / 2 ^ 7 % 2 ^ 1 = mpie ∧
      mstatusOf lo mie mid mpie top mpp hi / 2 ^ 3 % 2 ^ 1 = mie := by
  unfold mstatusOf
  omega

theorem exists_mstatusOf (m : Nat) : ∃ lo mie mid mpie top mpp hi, lo < 8 ∧ mie < 2 ∧ mid < 8 ∧ mpie < 2 ∧ top < 8 ∧ mpp < 4 ∧
    m = mstatusOf lo mie mid mpie top mpp hi := by
  refine ⟨m % 8, m / 8 % 2, m / 8 / 2 % 8, m / 8 / 2 / 8 % 2, m / 8 / 2 / 8 / 2 % 8, m / 8 / 2 / 8 / 2 / 8 % 4, m / 8 / 2 / 8 / 2 / 8 / 4, ?_⟩
  unfold mstatusOf
  omega

/-- Mode `mode` in MPP, MIE in MPIE, and 0 in MIE. -/
theorem mstatus_enterM {m mode : Nat} (hmode : mode < 4) (hm : m < 2 ^ 64) :
    let n := (m - m / 2 ^ 11 % 2 ^ 2 * 2 ^ 11 - m / 2 ^ 7 % 2 ^ 1 * 2 ^ 7 - m / 2 ^ 3 % 2 ^ 1 * 2 ^ 3 + mode * 2 ^ 11 + m / 2 ^ 3 % 2 ^ 1 * 2 ^ 7) % 2 ^ 64
    n / 2 ^ 11 % 2 ^ 2 = mode ∧ n / 2 ^ 7 % 2 ^ 1 = m / 2 ^ 3 % 2 ^ 1 ∧ n / 2 ^ 3 % 2 ^ 1 = 0 := by
  obtain ⟨lo, mie, mid, mpie, top, mpp, hi, hlo, hmie, hmid, hmpie, htop, hmpp, rfl⟩ := exists_mstatusOf m
  obtain ⟨h11, h7, h3⟩ := mstatusOf_fields hi hlo hmie hmid hmpie htop hmpp
  have hnew : (mstatusOf lo mie mid mpie top mpp hi - mpp * 2 ^ 11 - mpie * 2 ^ 7 - mie * 2 ^ 3 + mode * 2 ^ 11 + mie * 2 ^ 7) % 2 ^ 64 =
      mstatusOf lo 0 mid mie top mode hi := by
    unfold mstatusOf at hm ⊢
    omega
  simp only [h11, h7, h3, hnew]
  exact mstatusOf_fields hi hlo (by decide) hmid hmie htop hmode

/-- What entry into M mode makes of mstatus: MPP holds the mode, MPIE what MIE was, and MIE is 0. -/
theorem Ctx.enterM_mstatus (c : Ctx) (cause : Nat) (tval : Dword) :
    (c.enterM cause tval).mstatus.extractLsb' 11 2 = (if c.mmode then 3 else 0) ∧
      (c.enterM cause tval).mstatus.extractLsb' 7 1 = c.mstatus.extractLsb' 3 1 ∧ (c.enterM cause tval).mstatus.extractLsb' 3 1 = 0 := by
  have hmode : (if c.mmode then 3 else 0) < 4 := by split <;> decide
  have hmpp : (if c.mmode then (3 : BitVec 2) else 0).toNat = if c.mmode then 3 else 0 := by split <;> rfl
  obtain ⟨h11, h7, h3⟩ := mstatus_enterM hmode c.mstatus.isLt
  refine ⟨BitVec.eq_of_toNat_eq ?_, BitVec.eq_of_toNat_eq ?_, BitVec.eq_of_toNat_eq ?_⟩ <;>
    simp only [Ctx.enterM, BitVec.extractLsb'_toNat, BitVec.toNat_ofNat, Nat.shiftRight_eq_div_pow, bits, hmpp]
  · exact h11
  · exact h7
  · exact h3

theorem Ctx.enterM_mcause (c : Ctx) {cause : Nat} (tval : Dword) (h : cause < 16) : (c.enterM cause tval).mcause.toNat = cause := by
  simp only [Ctx.enterM, BitVec.toNat_ofNat]
  omega

/-! ## The end of a launch, whether or not it has ended before -/

/-- An SP after the end of a launch: as it was where the launch had ended before, or no longer running its contexts. -/
theorem State.sp_endLaunch_cases (s : State) (id cause rank word addr pc j : Nat) :
    (s.endLaunch id cause rank word addr pc).sp j = s.sp j ∨ (s.endLaunch id cause rank word addr pc).sp j = (s.sp j).endLaunch id := by
  cases hl : s.launchOf id with
  | none => left; simp only [State.endLaunch, hl]
  | some l =>
    cases hcause : l.cause with
    | some n => left; simp only [State.endLaunch, hl, hcause, Option.isSome_some, if_true]
    | none =>
      by_cases hj : s.sp j = Sp.init
      · have hnew : (s.endLaunch id cause rank word addr pc).sp j = Sp.init := by
          rw [State.sp, s.sps_endLaunch hl hcause, KMap.get, KMap.find_mapValues fun _ => Sp.endLaunch id]
          unfold State.sp KMap.get at hj
          cases hf : KMap.find j s.sps with
          | none => rfl
          | some p =>
            rw [hf, Option.getD_some] at hj
            rw [hj]
            rfl
        exact Or.inl (hnew.trans hj.symm)
      · exact Or.inr (s.sp_endLaunch hl hcause hj cause rank word addr pc)

section
variable {s : State} {k cause : Nat} {tval : Dword} {c : Ctx} (hc : s.ctx k = some c)
include hc

theorem State.takeException_mmode (hm : c.mmode = true) : s.takeException k cause tval = s.setCtx k (c.enterM cause tval) := by
  rw [State.takeException, State.withCtx_of_ctx hc]
  simp only [hm, if_true]

theorem State.takeException_umode (hm : c.mmode = false) :
    s.takeException k cause tval = (s.setCtx k (c.enterM cause tval)).endLaunch c.launch 1 c.rank cause tval.toNat c.pc.toNat := by
  rw [State.takeException, State.withCtx_of_ctx hc]
  simp only [hm, Bool.false_eq_true, if_false]

/-- The SP of an exception: in M mode its context has entered M mode; from U mode that context may have been stopped besides, with its launch. -/
theorem State.sp_takeException : (s.takeException k cause tval).sp k = { s.sp k with ctx := some (c.enterM cause tval) } ∨
    (s.takeException k cause tval).sp k = Sp.endLaunch c.launch { s.sp k with ctx := some (c.enterM cause tval) } := by
  have hset : (s.setCtx k (c.enterM cause tval)).sp k = { s.sp k with ctx := some (c.enterM cause tval) } := s.sp_modSp_self k _
  cases hm : c.mmode with
  | true =>
    left
    rw [State.takeException_mmode hc hm, hset]
  | false =>
    rw [State.takeException_umode hc hm]
    have hend := (s.setCtx k (c.enterM cause tval)).sp_endLaunch_cases c.launch 1 c.rank cause tval.toNat c.pc.toNat k
    rwa [hset] at hend

/-- The context that an exception leaves: that of `enterM`, stopped or not. -/
theorem State.ctx_takeException : ∃ d, (s.takeException k cause tval).ctx k = some d ∧ (d = c.enterM cause tval ∨ d = (c.enterM cause tval).stop) := by
  rcases State.sp_takeException (cause := cause) (tval := tval) hc with h | h
  · exact ⟨_, by rw [State.ctx, h], Or.inl rfl⟩
  · have hsame : (c.enterM cause tval).launch = c.launch := rfl
    exact ⟨_, by simp only [State.ctx, h, Sp.endLaunch, Option.map_some, hsame, if_true], Or.inr rfl⟩

theorem State.takeException_frame :
    ((s.takeException k cause tval).sp k).cm = (s.sp k).cm ∧ ((s.takeException k cause tval).sp k).srf = (s.sp k).srf := by
  rcases State.sp_takeException (cause := cause) (tval := tval) hc with h | h <;> rw [h] <;> exact ⟨rfl, rfl⟩

/-- The launch of an exception from U mode ends with CONTROLLER_EXCEPTION, and each of its contexts stops (19 R403). -/
theorem State.takeException_ends (hm : c.mmode = false) {l : Launch} (hl : s.launchOf c.launch = some l) (hcause : l.cause = none) :
    (∃ gone, (s.takeException k cause tval).launchOf c.launch =
      some { l with cause := some 1, state := 2, crank := c.rank, cword := cause, caddr := tval.toNat, cpc := c.pc.toNat, gone := gone }) ∧
    ∀ j e, s.ctx j = some e → e.launch = c.launch → ∃ e', (s.takeException k cause tval).ctx j = some e' ∧ e'.halted = true := by
  have hl' : (s.setCtx k (c.enterM cause tval)).launchOf c.launch = some l := hl
  rw [State.takeException_umode hc hm]
  refine ⟨⟨_, State.launchOf_endLaunch hl' hcause 1 c.rank cause tval.toNat c.pc.toNat⟩, fun j e hj he => ?_⟩
  have hbefore : ∃ e', (s.setCtx k (c.enterM cause tval)).ctx j = some e' ∧ e'.launch = c.launch := by
    by_cases hjk : j = k
    · subst hjk; exact ⟨_, s.ctx_setCtx_self j _, rfl⟩
    · exact ⟨e, (s.ctx_setCtx_other hjk _).trans hj, he⟩
  obtain ⟨e', he', hlaunch⟩ := hbefore
  exact ⟨e'.stop, by rw [State.ctx_endLaunch hl' hcause, he', Option.map_some, if_pos hlaunch], rfl⟩

/-- Everything that an exception does. -/
theorem exception_entry (hcause : cause < 16) :
    ∃ d, (s.takeException k cause tval).ctx k = some d ∧ d.mepc = c.pc ∧ d.mcause.toNat = cause ∧ d.mtval = tval ∧ d.pc = c.mtvec ∧ d.mmode = true ∧
      d.resv = none ∧ d.mstatus.extractLsb' 11 2 = (if c.mmode then 3 else 0) ∧ d.mstatus.extractLsb' 7 1 = c.mstatus.extractLsb' 3 1 ∧
      d.mstatus.extractLsb' 3 1 = 0 ∧ d.x = c.x ∧ d.f = c.f ∧ (s.takeException k cause tval).mem = s.mem ∧
      ((s.takeException k cause tval).sp k).cm = (s.sp k).cm ∧ ((s.takeException k cause tval).sp k).srf = (s.sp k).srf ∧
      (c.mmode = true → WithSp s k { s.sp k with ctx := some d } (s.takeException k cause tval)) ∧
      (c.mmode = false → ∀ l, s.launchOf c.launch = some l → l.cause = none →
        (∃ gone, (s.takeException k cause tval).launchOf c.launch =
          some { l with cause := some 1, state := 2, crank := c.rank, cword := cause, caddr := tval.toNat, cpc := c.pc.toNat, gone := gone }) ∧
        ∀ j e, s.ctx j = some e → e.launch = c.launch → ∃ e', (s.takeException k cause tval).ctx j = some e' ∧ e'.halted = true) := by
  obtain ⟨d, hd, hd'⟩ := State.ctx_takeException (cause := cause) (tval := tval) hc
  obtain ⟨hcm, hsrf⟩ := State.takeException_frame (cause := cause) (tval := tval) hc
  obtain ⟨hmpp, hmpie, hmie⟩ := c.enterM_mstatus cause tval
  have hmc := c.enterM_mcause tval hcause
  have hwith : c.mmode = true → WithSp s k { s.sp k with ctx := some d } (s.takeException k cause tval) := fun hm => by
    have hset := (WithSp.refl s k).setCtx (c.enterM cause tval)
    rw [← State.takeException_mmode hc hm] at hset
    exact hset.congr (by rw [← hd, hset.ctx_self])
  refine ⟨d, hd, ?_⟩
  rcases hd' with rfl | rfl <;>
    exact ⟨rfl, hmc, rfl, rfl, rfl, rfl, hmpp, hmpie, hmie, rfl, rfl, s.takeException_mem k cause tval, hcm, hsrf, hwith,
      fun hm l hl hlc => State.takeException_ends hc hm hl hlc⟩
end

/-! ## What raises one -/

section
variable {s : State} {c : Ctx} (hc : s.ctx s.cur = some c)
include hc

/-- A load whose access faults, and that is no aligned LD of the register space in M mode. -/
theorem rvLoad_traps {cmp : Bool} {k : LoadKind} {rd rs1 cause : Nat} {off : Dword}
    (hregs : c.mmode = false ∨ (c.xr rs1 + off).toNat % loadBytes k ≠ 0) (hread : s.ctlRead c (c.xr rs1 + off).toNat (loadBytes k) = .inl cause) :
    Traps (.rvLoad cmp k rd rs1 off) s cause (c.xr rs1 + off) := by
  have hmem : ¬(c.reachesRegs (c.xr rs1 + off).toNat = true ∧ k = .ld ∧ (c.xr rs1 + off).toNat % 8 = 0) := by
    rintro ⟨hreach, rfl, h8⟩
    rcases hregs with hm | hn
    · simp [Ctx.reachesRegs, hm] at hreach
    · exact hn h8
  rw [Traps, exec_rvLoad, execRvLoad, State.withCtx_of_ctx hc]
  simp only [hmem, if_false, hread, BitVec.ofNat_toNat, BitVec.setWidth_eq]

/-- A store likewise. -/
theorem rvStore_traps {cmp : Bool} {k : StoreKind} {rs2 rs1 cause : Nat} {off : Dword}
    (hregs : c.mmode = false ∨ (c.xr rs1 + off).toNat % storeBytes k ≠ 0) (hfault : c.storeFault (c.xr rs1 + off).toNat (storeBytes k) = some cause) :
    Traps (.rvStore cmp k rs2 rs1 off) s cause (c.xr rs1 + off) := by
  have hmem : ¬(c.reachesRegs (c.xr rs1 + off).toNat = true ∧ k = .sd ∧ (c.xr rs1 + off).toNat % 8 = 0) := by
    rintro ⟨hreach, rfl, h8⟩
    rcases hregs with hm | hn
    · simp [Ctx.reachesRegs, hm] at hreach
    · exact hn h8
  rw [Traps, exec_rvStore, execRvStore, State.withCtx_of_ctx hc]
  simp only [hmem, if_false, hfault, BitVec.ofNat_toNat, BitVec.setWidth_eq]

/-- A misaligned load, and one past the limit of U mode: misalignment comes first (log 16). -/
theorem rvLoad_faults {k : LoadKind} {n : Nat} (hk : loadBytes k = n) (hn : 0 < n) (cmp : Bool) (rd rs1 : Nat) (off : Dword) :
    ((c.xr rs1 + off).toNat % n ≠ 0 → Traps (.rvLoad cmp k rd rs1 off) s 4 (c.xr rs1 + off)) ∧
    ((c.xr rs1 + off).toNat % n = 0 → c.mmode = false → 0x38C00 ≤ (c.xr rs1 + off).toNat → Traps (.rvLoad cmp k rd rs1 off) s 5 (c.xr rs1 + off)) := by
  subst hk
  refine ⟨fun h => rvLoad_traps hc (Or.inr h) (by rw [State.ctlRead, if_pos h]), fun h hm htop => rvLoad_traps hc (Or.inl hm) ?_⟩
  have hlimit : c.loadTop < (c.xr rs1 + off).toNat + loadBytes k := by
    simp only [Ctx.loadTop, hm, Bool.false_eq_true, if_false]
    omega
  rw [State.ctlRead, if_neg (not_not.mpr h), if_pos hlimit]

theorem rvStore_faults {k : StoreKind} {n : Nat} (hk : storeBytes k = n) (hn : 0 < n) (cmp : Bool) (rs2 rs1 : Nat) (off : Dword) :
    ((c.xr rs1 + off).toNat % n ≠ 0 → Traps (.rvStore cmp k rs2 rs1 off) s 6 (c.xr rs1 + off)) ∧
    ((c.xr rs1 + off).toNat % n = 0 → c.mmode = false → 0x38000 ≤ (c.xr rs1 + off).toNat → Traps (.rvStore cmp k rs2 rs1 off) s 7 (c.xr rs1 + off)) := by
  subst hk
  refine ⟨fun h => rvStore_traps hc (Or.inr h) (by rw [Ctx.storeFault, if_pos h]), fun h hm htop => rvStore_traps hc (Or.inl hm) ?_⟩
  have hlimit : c.storeTop < (c.xr rs1 + off).toNat + storeBytes k := by
    simp only [Ctx.storeTop, hm, Bool.false_eq_true, if_false]
    omega
  rw [Ctx.storeFault, if_neg (not_not.mpr h), if_pos hlimit]

theorem ecall_traps (hm : c.mmode = false) : Traps .ecall s 8 0 := by
  rw [Traps, exec_ecall, execEcall, State.withCtx_of_ctx hc]
  simp only [hm, Bool.false_eq_true, if_false]

theorem ebreak_traps (cmp : Bool) (h : (s.sp s.cur).attach = false) : Traps (.ebreak cmp) s 3 c.pc := by
  rw [Traps, exec_ebreak, execEbreak, State.withCtx_of_ctx hc]
  simp only [h, Bool.false_eq_true, if_false]

/-- Under debug attachment EBREAK stops the controller (25 R479). -/
theorem ebreak_stops (cmp : Bool) (h : (s.sp s.cur).attach = true) : SpStep (.ebreak cmp) s s.cur { s.sp s.cur with dbgStopped := true } := by
  refine spStep_mod (fun p => { p with dbgStopped := true }) ?_
  rw [exec_ebreak, execEbreak, State.withCtx_of_ctx hc]
  simp only [h, if_true]
end

end Sys2Proof.Machine

namespace Sys2Proof
open Machine

/-- Settles O13: entry into M mode by `exception_entry`, and each instruction that raises an exception by the access that it makes. -/
theorem controllerExceptions : Obligations.ControllerExceptions := by
  unfold Obligations.ControllerExceptions
  refine ⟨fun s k cause tval c hc hcause => exception_entry hc hcause, ?_, ?_, fun s c hc hm => ecall_traps hc hm,
    fun cmp s c hc => ⟨ebreak_traps hc cmp, ebreak_stops hc cmp⟩⟩
  · intro cmp k n rd rs1 off s c h hc
    simp only [List.mem_cons, List.not_mem_nil, or_false, Prod.mk.injEq] at h
    have hk : loadBytes k = n ∧ 0 < n := by
      rcases h with ⟨rfl, rfl⟩ | ⟨rfl, rfl⟩ | ⟨rfl, rfl⟩ | ⟨rfl, rfl⟩ | ⟨rfl, rfl⟩ | ⟨rfl, rfl⟩ | ⟨rfl, rfl⟩ | ⟨rfl, rfl⟩ | ⟨rfl, rfl⟩ <;> decide
    exact rvLoad_faults hc hk.1 hk.2 cmp rd rs1 off
  · intro cmp k n rs2 rs1 off s c h hc
    simp only [List.mem_cons, List.not_mem_nil, or_false, Prod.mk.injEq] at h
    have hk : storeBytes k = n ∧ 0 < n := by
      rcases h with ⟨rfl, rfl⟩ | ⟨rfl, rfl⟩ | ⟨rfl, rfl⟩ | ⟨rfl, rfl⟩ | ⟨rfl, rfl⟩ | ⟨rfl, rfl⟩ <;> decide
    exact rvStore_faults hc hk.1 hk.2 cmp rs2 rs1 off

end Sys2Proof
end

-- ==== Sys2Proof/Proofs/PortChanges.lean ====

section
/-! PROOF. A change of one port, made in several moves, and what each field of PORTCFG holds after a write of it (15 R373). -/

namespace Sys2Proof.Machine

@[simp] theorem State.port_modPort_self (s : State) (n : Nat) (f : Port → Port) : (s.modPort n f).port n = f (s.port n) := KMap.get_ins_self _ _ _ _

theorem State.port_modPort_other (s : State) {n j : Nat} (h : j ≠ n) (f : Port → Port) : (s.modPort n f).port j = s.port j := KMap.get_ins_other h _ _ _

/-- `t` is `s` with `p` in the place of port `n`. -/
def WithPort (s : State) (n : Nat) (p : Port) (t : State) : Prop := t = { s with ports := t.ports } ∧ ∀ j, t.port j = if j = n then p else s.port j

theorem WithPort.refl (s : State) (n : Nat) : WithPort s n (s.port n) s := ⟨rfl, fun j => by split <;> simp_all⟩

theorem WithPort.port_self {s t : State} {n : Nat} {p : Port} (h : WithPort s n p t) : t.port n = p := by rw [h.2 n, if_pos rfl]

theorem WithPort.port_other {s t : State} {n j : Nat} {p : Port} (h : WithPort s n p t) (hj : j ≠ n) : t.port j = s.port j := by rw [h.2 j, if_neg hj]

theorem WithPort.congr {s t : State} {n : Nat} {p q : Port} (h : WithPort s n p t) (e : p = q) : WithPort s n q t := e ▸ h

theorem WithPort.modPort {s t : State} {n : Nat} {p : Port} (h : WithPort s n p t) (f : Port → Port) : WithPort s n (f p) (t.modPort n f) := by
  refine ⟨by rw [State.modPort, h.1], fun j => ?_⟩
  by_cases hj : j = n
  · subst hj; rw [State.port_modPort_self, h.port_self, if_pos rfl]
  · rw [State.port_modPort_other t hj, h.port_other hj, if_neg hj]

theorem withPort_modPort (s : State) (n : Nat) (f : Port → Port) : WithPort s n (f (s.port n)) (s.modPort n f) := (WithPort.refl s n).modPort f

/-- A step that changes one port. -/
theorem portStep_mod {i : Instr} {s : State} {n : Nat} (f : Port → Port) (h : exec i s = .next (s.modPort n f)) : PortStep i s n (f (s.port n)) :=
  ⟨_, h, withPort_modPort s n f⟩

theorem PortStep.congr {i : Instr} {s : State} {n : Nat} {p q : Port} (h : PortStep i s n p) (e : p = q) : PortStep i s n q := e ▸ h

/-- The mode of a port after any of its ports has been changed in a way that leaves the mode alone. -/
theorem State.mode_modPort (s : State) (n o : Nat) {f : Port → Port} (hf : ∀ p, (f p).mode = p.mode) : ((s.modPort n f).port o).mode = (s.port o).mode := by
  by_cases h : o = n
  · subst h; rw [State.port_modPort_self, hf]
  · rw [State.port_modPort_other s h]

theorem State.queue_modPort (s : State) (n o : Nat) {f : Port → Port} (hf : ∀ p, (f p).queue = p.queue) : ((s.modPort n f).port o).queue = (s.port o).queue := by
  by_cases h : o = n
  · subst h; rw [State.port_modPort_self, hf]
  · rw [State.port_modPort_other s h]

/-! ## PORTCFG -/

/-- PORTCFG of its fields: MODE, SPEED, STATE and the slot delay. -/
def cfgOf (mode speed state delay : Nat) : Dword := BitVec.ofNat 64 (mode + speed * 2 ^ 8 + state * 2 ^ 16 + delay * 2 ^ 24)

theorem cfgOf_fields {mode speed state delay : Nat} (hm : mode < 2) (hs : speed < 4) (ht : state < 4) (hd : delay < 256) :
    bits (cfgOf mode speed state delay) 0 1 = mode ∧ bits (cfgOf mode speed state delay) 8 2 = speed ∧
      bits (cfgOf mode speed state delay) 16 2 = state ∧ bits (cfgOf mode speed state delay) 24 8 = delay := by
  simp only [bits, cfgOf, BitVec.toNat_ofNat]
  omega

theorem bits_lt (v : Dword) (lo n : Nat) : bits v lo n < 2 ^ n := Nat.mod_lt _ (Nat.two_pow_pos n)

theorem Port.withLink_cfg (p : Port) (state delay : Nat) : (p.withLink state delay).cfg = cfgOf (bits p.cfg 0 1) (bits p.cfg 8 2) state delay := rfl

/-- Mode, link state and slot delay of a port whose link has been set. -/
theorem Port.withLink_fields (p : Port) {state delay : Nat} (ht : state < 4) (hd : delay < 256) :
    (p.withLink state delay).mode = p.mode ∧ (p.withLink state delay).linkState = state ∧ bits (p.withLink state delay).cfg 24 8 = delay := by
  obtain ⟨hm, -, hs, hdelay⟩ := cfgOf_fields (bits_lt p.cfg 0 1) (bits_lt p.cfg 8 2) ht hd
  exact ⟨hm, hs, hdelay⟩

end Sys2Proof.Machine
end

-- ==== Sys2Proof/Proofs/LinkRules.lean ====

section
/-! PROOF. PORTCFG, training and replay of a link (15 R373, R377). -/

namespace Sys2Proof.Machine

section
variable {n : Nat} {s : State}

theorem State.portOwned_iff (s : State) (n : Nat) : s.portOwned n = true ↔ ∃ l ∈ s.launches, ∃ q ∈ l.slots, q.1 = 256 + n := by
  simp [State.portOwned]

/-- MODE and SPEED as a write of PORTCFG gives them. -/
def cfgWrite (v : Dword) : Nat := bits v 0 1 + bits v 8 2 * 2 ^ 8

theorem Port.writeCfg_eq (p : Port) (owned : Bool) (v : Dword) : p.writeCfg owned v =
    if cfgWrite v = cfgWrite p.cfg then p else if owned then p
    else { p with cfg := BitVec.ofNat 64 (cfgWrite v), queue := [], frameQ := [], onLine := 0 }.withLink 1 0 := rfl

/-- Nothing changes where MODE and SPEED stand, or where a launch owns a slot. -/
theorem portcfgWrite_keeps {v : Dword} (h : cfgWrite v = cfgWrite (s.port n).cfg ∨ ∃ l ∈ s.launches, ∃ q ∈ l.slots, q.1 = 256 + n) :
    PortStep (.portcfgWrite n v) s n (s.port n) := by
  refine (portStep_mod (fun p => p.writeCfg (s.portOwned n) v) rfl).congr ?_
  rw [Port.writeCfg_eq]
  by_cases hsame : cfgWrite v = cfgWrite (s.port n).cfg
  · rw [if_pos hsame]
  · rw [if_neg hsame, if_pos ((s.portOwned_iff n).mpr (h.resolve_left hsame))]

/-- Else they are written, and the link is trained again. -/
theorem portcfgWrite_retrains {v : Dword} (hnew : cfgWrite v ≠ cfgWrite (s.port n).cfg) (hfree : ∀ l ∈ s.launches, ∀ q ∈ l.slots, q.1 ≠ 256 + n) :
    PortStep (.portcfgWrite n v) s n { s.port n with
      cfg := BitVec.ofNat 64 (cfgWrite v + 2 ^ 16), fails := 0, queue := [], frameQ := [], onLine := 0, replayed := [], asked := none } := by
  refine (portStep_mod (fun p => p.writeCfg (s.portOwned n) v) rfl).congr ?_
  have howned : s.portOwned n = false := by
    rw [← Bool.not_eq_true, State.portOwned_iff]
    rintro ⟨l, hl, q, hq, h⟩
    exact hfree l hl q hq h
  have hcfg : BitVec.ofNat 64 (cfgWrite v) = cfgOf (bits v 0 1) (bits v 8 2) 0 0 := by simp only [cfgOf, cfgWrite, Nat.zero_mul, Nat.add_zero]
  obtain ⟨hm, hs, -, -⟩ := cfgOf_fields (state := 0) (delay := 0) (bits_lt v 0 1) (bits_lt v 8 2) (by decide) (by decide)
  have htrain : BitVec.ofNat 64 (cfgWrite v + 2 ^ 16) = cfgOf (bits v 0 1) (bits v 8 2) 1 0 := by simp only [cfgOf, cfgWrite, Nat.zero_mul, Nat.add_zero, Nat.one_mul]
  have hwrite : (s.port n).writeCfg false v =
      { s.port n with cfg := cfgOf (bits v 0 1) (bits v 8 2) 0 0, queue := [], frameQ := [], onLine := 0 }.withLink 1 0 := by
    rw [← hcfg, Port.writeCfg_eq, if_neg hnew]
    rfl
  rw [howned, hwrite, htrain]
  simp only [Port.withLink, hm, hs]
  rfl

/-- Training ends with the slot delay, or fails the link for a cable that needs more than 64 (15 R377). -/
theorem linkTraining_ends (delay : Nat) (h : (s.port n).linkState < 2) : ∃ q, PortStep (.linkTraining n delay) s n q ∧ q = { s.port n with
      cfg := q.cfg, fails := 0, replayed := [], asked := none, queue := if delay ≤ 64 then (s.port n).queue else [],
      frameQ := if delay ≤ 64 then (s.port n).frameQ else [] } ∧
    q.mode = (s.port n).mode ∧ q.linkState = (if delay ≤ 64 then 2 else 3) ∧ bits q.cfg 24 8 = (if delay ≤ 64 ∧ (s.port n).mode = 1 then delay else 0) := by
  have hstep : exec (.linkTraining n delay) s =
      .next (s.modPort n fun p => if delay ≤ 64 then p.withLink 2 (if p.mode = 1 then delay else 0) else p.withLink 3 0) :=
    congrArg _ (if_neg (Nat.not_le.mpr h))
  refine ⟨_, portStep_mod _ hstep, ?_⟩
  by_cases hd : delay ≤ 64
  · have hdelay : (if (s.port n).mode = 1 then delay else 0) < 256 := by split <;> omega
    simp only [hd, if_true, true_and]
    exact ⟨rfl, Port.withLink_fields (s.port n) (by decide) hdelay⟩
  · simp only [hd, if_false, false_and]
    exact ⟨rfl, Port.withLink_fields (s.port n) (by decide) (by decide)⟩

theorem linkTraining_over (delay : Nat) (h : 2 ≤ (s.port n).linkState) : exec (.linkTraining n delay) s = .next s := congrArg _ (if_pos h)

theorem linkReplay_none (h : (s.port n).mode ≠ 1 ∨ (s.port n).linkState ≠ 2) : exec (.linkReplay n) s = .next s := congrArg _ (if_pos h)

section
variable (hmode : (s.port n).mode = 1) (hup : (s.port n).linkState = 2)
include hmode hup

/-- A failed replay counts; the 16th of a flit fails the link (15 R377). -/
theorem linkReplay_counts : PortStep (.linkReplay n) s n
    (if 16 ≤ (s.port n).fails + 1 then { s.port n with replay := satInc (s.port n).replay, fails := (s.port n).fails + 1 }.withLink 3 0
      else { s.port n with replay := satInc (s.port n).replay, fails := (s.port n).fails + 1 }) :=
  portStep_mod (fun p => if 16 ≤ p.fails + 1 then { p with replay := satInc p.replay, fails := p.fails + 1 }.withLink 3 0
    else { p with replay := satInc p.replay, fails := p.fails + 1 }) (congrArg _ (if_neg (by simp [hmode, hup])))

theorem linkReplay_again (h : (s.port n).fails < 15) : PortStep (.linkReplay n) s n
    { s.port n with replay := min 0xFFFF ((s.port n).replay + 1), fails := (s.port n).fails + 1 } :=
  (linkReplay_counts hmode hup).congr (if_neg (by omega))

theorem linkReplay_fails (h : 15 ≤ (s.port n).fails) : ∃ q, PortStep (.linkReplay n) s n q ∧ q.linkState = 3 ∧ q.queue = [] ∧
    q.replay = min 0xFFFF ((s.port n).replay + 1) := by
  refine ⟨_, (linkReplay_counts hmode hup).congr (if_pos (by omega)), ?_, rfl, rfl⟩
  exact (Port.withLink_fields _ (by decide) (by decide)).2.1
end
end

end Sys2Proof.Machine
end

-- ==== Sys2Proof/Proofs/PacketRules.lean ====

section
/-! PROOF. Packets at a scale-up port: taken in, counted, or forwarded (15 R374 to R376, R382, R383). -/

namespace Sys2Proof.Machine

/-! ## Packets for this package -/

section
variable {s : State} {port far flits : Nat} {k : Packet}

theorem State.takePacket_badOp (h : opFlits k.op flits = false) : s.takePacket port far flits k = s.modPort port fun p => { p with hdrerr := satInc p.hdrerr } := by
  simp only [State.takePacket, h, Bool.not_false, if_true]

theorem State.takePacket_poison (h : opFlits k.op flits = true) (hp : k.poison = true) :
    s.takePacket port far flits k = s.modPort port fun p => { p with poisonrx := satInc p.poisonrx } := by
  simp only [State.takePacket, h, hp, Bool.not_true, Bool.false_eq_true, if_false, Bool.true_or, if_true]

theorem State.takePacket_whole (h : opFlits k.op flits = true) (hp : k.poison = false) (hflits : flits = pktFlits k) :
    s.takePacket port far flits k = { s with heard := KMap.ins k.srcPkg (port, far) s.heard, inbox := s.inbox ++ Packet.steps k port } := by
  subst hflits
  simp only [State.takePacket, h, hp, Bool.not_true, Bool.false_eq_true, if_false, Bool.false_or, ne_eq, not_true_eq_false, decide_false]
end

/-! ## A packet that arrives -/

/-- The link has carried a whole packet, so no replay of it has failed. -/
def State.linkWorks (s : State) (n : Nat) : State := s.modPort n fun p => { p with fails := 0 }

/-- The header CRC of a packet has failed, and is counted. -/
def State.headerError (s : State) (n : Nat) : State := (s.linkWorks n).modPort n fun p => { p with hdrerr := satInc p.hdrerr }

/-- The packet is poisoned, or its data CRC has failed (15 R375). -/
def arrivesPoisoned (hdr data tail : List Byte) : Bool :=
  decide (field tail 4 1 % 2 = 1) || decide (crc32 ((pktBeats (packetOf hdr data false)).flatMap (·.bytes)) ≠ field tail 0 4)

section
variable {n : Nat} {hdr data tail : List Byte} {s : State} (hmode : (s.port n).mode = 1) (hup : (s.port n).linkState = 2)
include hmode hup

theorem exec_packetReceive_bad (hcrc : crc16 (hdr.take 62) ≠ field hdr 62 2) : exec (.packetReceive n hdr data tail) s = .next (
    if field hdr 4 2 = s.dev.pkg ∨ field hdr 4 2 = 0xFFFF then s.headerError n
    else match (s.port n).forwardTo n with
      | none => s.headerError n
      | some o => (s.headerError n).forward n o hdr tail (packetOf hdr data (arrivesPoisoned hdr data tail)) true) := by
  rw [exec_packetReceive, execPacketReceive]
  simp only [hmode, hup, ne_eq, not_true_eq_false, or_self, if_false, hcrc, not_false_eq_true, decide_true, if_true]
  rfl

theorem exec_packetReceive_good (hcrc : crc16 (hdr.take 62) = field hdr 62 2) : exec (.packetReceive n hdr data tail) s = .next (
    if field hdr 4 2 = s.dev.pkg ∨ field hdr 4 2 = 0xFFFF then
      (s.linkWorks n).takePacket n 0 (field hdr 1 1) (packetOf hdr data (arrivesPoisoned hdr data tail))
    else match (s.port n).forwardTo n with
      | none => s.linkWorks n
      | some o => (s.linkWorks n).forward n o hdr tail (packetOf hdr data (arrivesPoisoned hdr data tail)) false) := by
  rw [exec_packetReceive, execPacketReceive]
  simp only [hmode, hup, ne_eq, not_true_eq_false, or_self, if_false, hcrc, decide_false, Bool.false_eq_true]
  rfl
end

theorem withPort_linkWorks (s : State) (n : Nat) : WithPort s n { s.port n with fails := 0 } (s.linkWorks n) :=
  withPort_modPort s n fun p => { p with fails := 0 }

theorem withPort_headerError (s : State) (n : Nat) :
    WithPort s n { s.port n with fails := 0, hdrerr := min 0xFFFF ((s.port n).hdrerr + 1) } (s.headerError n) :=
  (withPort_linkWorks s n).modPort fun p => { p with hdrerr := satInc p.hdrerr }

/-- A change of port `n` that leaves the mode and the queue alone. -/
theorem WithPort.mode_queue {s t : State} {n : Nat} {p : Port} (h : WithPort s n p t) (hm : p.mode = (s.port n).mode) (hq : p.queue = (s.port n).queue)
    (o : Nat) : (t.port o).mode = (s.port o).mode ∧ (t.port o).queue = (s.port o).queue := by
  by_cases ho : o = n
  · subst ho; rw [h.port_self]; exact ⟨hm, hq⟩
  · rw [h.port_other ho]; exact ⟨rfl, rfl⟩

/-- Flits that go on by a scale-up port, after a change of the port that they came by. -/
theorem State.forward_up {s t : State} {n o : Nat} {p : Port} {hdr tail : List Byte} {k : Packet} {bad : Bool} (h : WithPort s n p t)
    (hm : p.mode = (s.port n).mode) (hq : p.queue = (s.port n).queue) (ho : (s.port o).mode = 1) :
    (t.forward n o hdr tail k bad) = { s with ports := (t.forward n o hdr tail k bad).ports } ∧
    ((t.forward n o hdr tail k bad).port n).hdrerr = p.hdrerr ∧
    ((t.forward n o hdr tail k bad).port o).queue = (s.port o).queue ++
      (Flit.of 1 hdr :: if bad then [tailFlit [] true] else pktBeats k ++ [Flit.of 3 tail]).map fun f => ⟨n % 8, s.now + fabricToArith 2, f⟩ := by
  obtain ⟨hmode, hqueue⟩ := h.mode_queue hm hq o
  have hnow : t.now = s.now := by rw [h.1]
  have hforward : t.forward n o hdr tail k bad = t.modPort o fun p => p.queueFlits (n % 8) (t.now + fabricToArith 2)
      (Flit.of 1 hdr :: if bad then [tailFlit [] true] else pktBeats k ++ [Flit.of 3 tail]) := if_pos (hmode.trans ho)
  rw [hforward]
  refine ⟨by rw [State.modPort, h.1], ?_, ?_⟩
  · by_cases hno : n = o
    · subst hno; rw [State.port_modPort_self, h.port_self]; rfl
    · rw [State.port_modPort_other _ hno, h.port_self]
  · rw [State.port_modPort_self, Port.queueFlits, hqueue, hnow]

section
variable {n : Nat} {hdr data tail : List Byte} {k : Packet} {s : State} (hmode : (s.port n).mode = 1) (hup : (s.port n).linkState = 2)
  (hk : k = packetOf hdr data false)
include hmode hup hk

/-- A packet for this package with a bad header CRC is counted. -/
theorem packetReceive_badHeader (hcrc : crc16 (hdr.take 62) ≠ field hdr 62 2) (hdst : k.dstPkg = s.dev.pkg) :
    PortStep (.packetReceive n hdr data tail) s n { s.port n with fails := 0, hdrerr := min 0xFFFF ((s.port n).hdrerr + 1) } := by
  subst hk
  have hown : field hdr 4 2 = s.dev.pkg := hdst
  exact ⟨_, (exec_packetReceive_bad hmode hup hcrc).trans (congrArg _ (if_pos (Or.inl hown))), withPort_headerError s n⟩

/-- One for another package is counted too, and goes on cut short by a poisoned tail (15 R383). -/
theorem packetReceive_cut (hcrc : crc16 (hdr.take 62) ≠ field hdr 62 2) (hdst : k.dstPkg ≠ s.dev.pkg) (hall : k.dstPkg ≠ 0xFFFF) {o : Nat}
    (hto : (s.port n).forwardTo n = some o) (ho : (s.port o).mode = 1) : ∃ t, exec (.packetReceive n hdr data tail) s = .next t ∧
      t = { s with ports := t.ports } ∧ (t.port n).hdrerr = min 0xFFFF ((s.port n).hdrerr + 1) ∧
      (t.port o).queue = (s.port o).queue ++ [⟨n % 8, s.now + fabricToArith 2, Flit.of 1 hdr⟩, ⟨n % 8, s.now + fabricToArith 2, tailFlit [] true⟩] := by
  subst hk
  have hother : ¬(field hdr 4 2 = s.dev.pkg ∨ field hdr 4 2 = 0xFFFF) := not_or.mpr ⟨hdst, hall⟩
  refine ⟨_, (exec_packetReceive_bad hmode hup hcrc).trans (congrArg _ ((if_neg hother).trans (by rw [hto]))), ?_⟩
  exact State.forward_up (withPort_headerError s n) rfl rfl ho

section
variable (hcrc : crc16 (hdr.take 62) = field hdr 62 2)
include hcrc

/-- A packet for this package that arrives whole causes its steps here. -/
theorem packetReceive_whole (hdata : crc32 ((pktBeats k).flatMap (·.bytes)) = field tail 0 4) (hpoison : field tail 4 1 % 2 = 0)
    (hdst : k.dstPkg = s.dev.pkg) (hop : opFlits k.op (pktFlits k) = true) (hflits : field hdr 1 1 = pktFlits k) :
    ∃ t, exec (.packetReceive n hdr data tail) s = .next t ∧
      t = { s with ports := t.ports, heard := KMap.ins k.srcPkg (n, 0) s.heard, inbox := s.inbox ++ Packet.steps k n } ∧
      ∀ j, t.port j = if j = n then { s.port n with fails := 0 } else s.port j := by
  subst hk
  have hown : field hdr 4 2 = s.dev.pkg := hdst
  have hsound : arrivesPoisoned hdr data tail = false := by simp [arrivesPoisoned, hdata, hpoison]
  have htake := State.takePacket_whole (s := s.linkWorks n) (port := n) (far := 0) (hflits ▸ hop) rfl hflits
  refine ⟨_, (exec_packetReceive_good hmode hup hcrc).trans (congrArg _ ((if_pos (Or.inl hown)).trans (by rw [hsound, htake]))), rfl, ?_⟩
  exact (withPort_linkWorks s n).2

/-- One whose number of flits is none of its op is counted. -/
theorem packetReceive_badFlits (hdst : k.dstPkg = s.dev.pkg) (hop : opFlits k.op (field hdr 1 1) = false) :
    PortStep (.packetReceive n hdr data tail) s n { s.port n with fails := 0, hdrerr := min 0xFFFF ((s.port n).hdrerr + 1) } := by
  subst hk
  have hown : field hdr 4 2 = s.dev.pkg := hdst
  refine ⟨_, (exec_packetReceive_good hmode hup hcrc).trans (congrArg _ ((if_pos (Or.inl hown)).trans (State.takePacket_badOp hop))), ?_⟩
  exact withPort_headerError s n

/-- A poisoned one is counted. -/
theorem packetReceive_poisoned (hpoison : field tail 4 1 % 2 = 1) (hdst : k.dstPkg = s.dev.pkg) (hop : opFlits k.op (field hdr 1 1) = true) :
    PortStep (.packetReceive n hdr data tail) s n { s.port n with fails := 0, poisonrx := min 0xFFFF ((s.port n).poisonrx + 1) } := by
  subst hk
  have hown : field hdr 4 2 = s.dev.pkg := hdst
  have hbad : arrivesPoisoned hdr data tail = true := by simp [arrivesPoisoned, hpoison]
  refine ⟨_, (exec_packetReceive_good hmode hup hcrc).trans (congrArg _ ((if_pos (Or.inl hown)).trans (State.takePacket_poison hop hbad))), ?_⟩
  exact (withPort_linkWorks s n).modPort fun p => { p with poisonrx := satInc p.poisonrx }

/-- A packet for another package is forwarded by the slot table, flit by flit (15 R382). -/
theorem packetReceive_forward (hdst : k.dstPkg ≠ s.dev.pkg) (hall : k.dstPkg ≠ 0xFFFF) {o : Nat}
    (hto : (s.port n).forwardTo n = some o) (ho : (s.port o).mode = 1) : ∃ t, exec (.packetReceive n hdr data tail) s = .next t ∧
      t = { s with ports := t.ports } ∧ (t.port o).queue = (s.port o).queue ++
        (Flit.of 1 hdr :: (pktBeats k ++ [Flit.of 3 tail])).map fun f => ⟨n % 8, s.now + fabricToArith 2, f⟩ := by
  subst hk
  have hother : ¬(field hdr 4 2 = s.dev.pkg ∨ field hdr 4 2 = 0xFFFF) := not_or.mpr ⟨hdst, hall⟩
  obtain ⟨hframe, -, hqueue⟩ := State.forward_up (hdr := hdr) (tail := tail) (k := packetOf hdr data (arrivesPoisoned hdr data tail)) (bad := false)
    (withPort_linkWorks s n) rfl rfl ho
  exact ⟨_, (exec_packetReceive_good hmode hup hcrc).trans (congrArg _ ((if_neg hother).trans (by rw [hto]))), hframe, hqueue⟩
end
end

end Sys2Proof.Machine
end

-- ==== Sys2Proof/Proofs/FrameRules.lean ====

section
/-! PROOF. Scale-out frames: dropped, taken in once, acknowledged, and sent again (15 R386). -/

namespace Sys2Proof.Machine

theorem dif32_self (n : Nat) : dif32 n n = 0 := by unfold dif32; omega

theorem Port.path_modPath_self (p : Port) (a : Nat) (f : Path → Path) : (p.modPath a f).path a = f (p.path a) := KMap.get_ins_self _ _ _ _

/-- Only what a path holds counts for its change. -/
theorem Port.modPath_const (p : Port) (a : Nat) (f : Path → Path) : p.modPath a f = p.modPath a fun _ => f (p.path a) := rfl

/-! ## Frames that come -/

/-- A frame that has come before counts towards the acknowledgement only. -/
theorem Path.receive_old {q : Path} {seq : Nat} (now : Nat) (h : 2 ^ 31 ≤ dif32 seq q.rxseq) :
    (q.receive now seq).rxcount = q.rxcount + 1 ∧ q.isNew seq = false := by
  have hwin : ¬(64 ≤ dif32 seq q.rxseq ∧ dif32 seq q.rxseq < 2 ^ 31) := by omega
  have hout : 64 ≤ dif32 seq q.rxseq ∨ q.rxmap / 2 ^ dif32 seq q.rxseq % 2 = 1 := by omega
  have hfar : ¬dif32 seq q.rxseq < 64 := by omega
  unfold Path.receive Path.isNew
  simp only [hwin, hout, hfar, if_false, if_true, decide_false, Bool.false_and, and_self]

/-- The next frame in sequence, with none beyond it. -/
theorem Path.receive_next {q : Path} (now : Nat) (hmap : q.rxmap = 0) : q.receive now q.rxseq =
      { q with rxseq := (q.rxseq + 1) % 2 ^ 32, rxmap := 0, rxcount := q.rxcount + 1, rxAt := if q.rxcount = 0 then now else q.rxAt } ∧
    q.isNew q.rxseq = true := by
  have hdone : (List.range 65).find? (fun i => decide (1 / 2 ^ i % 2 = 0)) = some 1 := by decide
  unfold Path.receive Path.isNew
  simp [dif32_self, hmap, hdone]

/-- A frame is noted on the path that it came by. -/
def State.noteFrame (s : State) (n src seq : Nat) : State := s.modPort n fun p => p.modPath src fun q => q.receive s.now seq

theorem withPort_noteFrame (s : State) (n src seq : Nat) :
    WithPort s n ((s.port n).modPath src fun _ => ((s.port n).path src).receive s.now seq) (s.noteFrame n src seq) :=
  (withPort_modPort s n fun p => p.modPath src fun q => q.receive s.now seq).congr (Port.modPath_const _ _ _)

section
variable {n src : Nat} {b : List Byte} {s : State}

/-- A datagram to another UDP port, or one that is too long, is dropped (log 54). -/
theorem frameReceive_dropped {udp : Nat} {fcsOk : Bool} (h : udp ≠ 46785 ∨ 8952 < b.length) :
    exec (.scaleoutFrameReceive ⟨n, src⟩ fcsOk ⟨udp, b⟩) s = .next s := by
  have hdrop : (s.port n).mode ≠ 0 ∨ udp ≠ 46785 ∨ framePayload < b.length := Or.inr h
  rw [exec_scaleoutFrameReceive, execScaleoutFrameReceive]
  simp only [hdrop, if_true]

variable (hmode : (s.port n).mode = 0) (hlen : b.length ≤ 8952)
include hmode hlen

/-- One with a bad check sequence is counted. -/
theorem frameReceive_badCheck : PortStep (.scaleoutFrameReceive ⟨n, src⟩ false ⟨46785, b⟩) s n
    { s.port n with fcsdrop := min 0xFFFF ((s.port n).fcsdrop + 1) } := by
  refine portStep_mod (fun p => { p with fcsdrop := satInc p.fcsdrop }) ?_
  rw [exec_scaleoutFrameReceive, execScaleoutFrameReceive]
  simp only [hmode, ne_eq, not_true_eq_false, false_or, Nat.not_lt.mpr hlen, if_false, Bool.not_false, Bool.true_or, if_true]

section
variable (hhead : 16 ≤ b.length) (hversion : field b 0 1 = 1) (hzero : field b 2 2 = 0)
include hhead hversion hzero

/-- An acknowledgement is handed on. -/
theorem frameReceive_ack (hkind : field b 1 1 = 2) : ∃ t, exec (.scaleoutFrameReceive ⟨n, src⟩ true ⟨46785, b⟩) s = .next t ∧
    t = { s with inbox := s.inbox ++ [.selectiveAckReceive ⟨n, src⟩ (field b 4 4) (BitVec.ofNat 64 (field b 8 8))] } := by
  have hgood : badFrame b = false := by simp [badFrame, Nat.not_lt.mpr hhead, hversion, hzero, hkind]
  refine ⟨_, ?_, rfl⟩
  rw [exec_scaleoutFrameReceive, execScaleoutFrameReceive]
  simp only [hmode, ne_eq, not_true_eq_false, false_or, Nat.not_lt.mpr hlen, if_false, Bool.not_true, Bool.false_or, hgood, Bool.false_eq_true, hkind, if_true]

variable (hkind : field b 1 1 = 1) (hpacket : 80 ≤ b.length)
include hkind hpacket

/-- Any other frame is noted, and the packet of one that is new is taken in or goes on. -/
theorem exec_frameReceive_packet : exec (.scaleoutFrameReceive ⟨n, src⟩ true ⟨46785, b⟩) s = .next (
    let s1 := s.noteFrame n src (field b 4 4)
    if !((s.port n).path src).isNew (field b 4 4) then s1 else
    let hdr := (b.drop 16).take 64
    let k := packetOf hdr (b.drop 80) false
    if k.dstPkg = s.dev.pkg ∨ k.dstPkg = 0xFFFF then s1.takePacket n src (field hdr 1 1) k
    else match (s.port n).forwardTo n with
      | none => s1
      | some o => if (s.port o).mode = 1 then s1.sendFrom o (n % 8) (s.now + fabricToArith 2) k else s1) := by
  have hgood : badFrame b = false := by simp [badFrame, Nat.not_lt.mpr hhead, Nat.not_lt.mpr hpacket, hversion, hzero, hkind]
  rw [exec_scaleoutFrameReceive, execScaleoutFrameReceive]
  simp only [hmode, ne_eq, not_true_eq_false, false_or, Nat.not_lt.mpr hlen, if_false, Bool.not_true, Bool.false_or, hgood, Bool.false_eq_true, hkind,
    OfNat.one_ne_ofNat]
  rfl

theorem frameReceive_old {q : Path} (hq : q = (s.port n).path src) (hold : 2 ^ 31 ≤ dif32 (field b 4 4) q.rxseq) :
    ∃ t, exec (.scaleoutFrameReceive ⟨n, src⟩ true ⟨46785, b⟩) s = .next t ∧ t = { s with ports := t.ports } ∧
      ((t.port n).path src).rxcount = q.rxcount + 1 := by
  subst hq
  obtain ⟨hcount, hseen⟩ := Path.receive_old s.now hold
  refine ⟨_, (exec_frameReceive_packet hmode hlen hhead hversion hzero hkind hpacket).trans (congrArg _ (if_pos (by simp only [hseen, Bool.not_false]))), rfl, ?_⟩
  rw [(withPort_noteFrame s n src (field b 4 4)).port_self, Port.path_modPath_self, hcount]

/-- The next frame in sequence is taken in. -/
theorem frameReceive_next {q : Path} {k : Packet} (hq : q = (s.port n).path src) (hseq : field b 4 4 = q.rxseq) (hmap : q.rxmap = 0)
    (hk : k = packetOf ((b.drop 16).take 64) (b.drop 80) false) (hdst : k.dstPkg = s.dev.pkg) (hop : opFlits k.op (pktFlits k) = true)
    (hflits : field ((b.drop 16).take 64) 1 1 = pktFlits k) : ∃ t, exec (.scaleoutFrameReceive ⟨n, src⟩ true ⟨46785, b⟩) s = .next t ∧
      t = { s with ports := t.ports, heard := KMap.ins k.srcPkg (n, src) s.heard, inbox := s.inbox ++ Packet.steps k n } ∧
      ∀ j, t.port j = if j = n then (s.port n).modPath src fun _ => { q with
        rxseq := (q.rxseq + 1) % 2 ^ 32, rxmap := 0, rxcount := q.rxcount + 1, rxAt := if q.rxcount = 0 then s.now else q.rxAt } else s.port j := by
  subst hq hk
  obtain ⟨hreceive, hnew⟩ := Path.receive_next s.now hmap
  have hport := withPort_noteFrame s n src (field b 4 4)
  rw [hseq, hreceive] at hport
  have htake := State.takePacket_whole (s := s.noteFrame n src (field b 4 4)) (port := n) (far := src)
    (hflits ▸ hop) rfl hflits
  refine ⟨_, (exec_frameReceive_packet hmode hlen hhead hversion hzero hkind hpacket).trans
    (congrArg _ ((if_neg (by simp only [hseq, hnew, Bool.not_true, Bool.false_eq_true, not_false_eq_true])).trans ((if_pos (Or.inl hdst)).trans htake))), rfl, ?_⟩
  rw [hseq]
  exact hport.2
end
end

/-! ## Acknowledgements and resends -/

/-- Bit 0 of an acknowledgement with the frame's own number tells whether it has come. -/
theorem reported_self (seq : Nat) (bitmap : Dword) (at_ : Nat) (out : OutFrame) :
    reported seq bitmap ⟨seq, out, at_⟩ = decide (bitmap.toNat % 2 = 1) := by
  simp [reported, dif32_self, bits]

section
variable {n far : Nat} {s : State} {q : Path} (hq : q = (s.port n).path far)
include hq

theorem selectiveAckSend_due (hmode : (s.port n).mode = 0) (h : 16 ≤ q.rxcount ∨ (q.rxcount ≠ 0 ∧ q.rxAt + 10500 ≤ s.now)) :
    PortStep (.selectiveAckSend ⟨n, far⟩) s n
      (((s.port n).modPath far fun _ => { q with rxcount := 0 }).queueFrame ⟨8, far, transportHead 2 q.rxseq q.rxmap⟩) := by
  subst hq
  exact portStep_mod (fun p => (p.modPath far fun q => { q with rxcount := 0 }).queueFrame
    ⟨8, far, transportHead 2 ((s.port n).path far).rxseq ((s.port n).path far).rxmap⟩) (congrArg _ (if_pos ⟨hmode, h⟩))

theorem selectiveAckSend_early (hcount : q.rxcount < 16) (hnow : s.now < q.rxAt + 10500) : exec (.selectiveAckSend ⟨n, far⟩) s = .next s := by
  subst hq
  refine congrArg _ (if_neg ?_)
  rintro ⟨-, h | ⟨-, h⟩⟩
  · exact absurd h (Nat.not_le.mpr hcount)
  · exact absurd h (Nat.not_le.mpr hnow)

variable {f : Frame} (hun : q.unacked = [f])
include hun

/-- A frame that is reported as received is forgotten. -/
theorem selectiveAck_received {bitmap : Dword} (h : bitmap.toNat % 2 = 1) :
    PortStep (.selectiveAckReceive ⟨n, far⟩ f.seq bitmap) s n ((s.port n).modPath far fun _ => { q with unacked := [] }) := by
  subst hq
  have hrep : reported f.seq bitmap f = true := (reported_self f.seq bitmap f.at_ f.out).trans (decide_eq_true h)
  refine (portStep_mod _ rfl).congr ?_
  simp only [hun, List.filter_cons, hrep, Bool.not_true, Bool.false_eq_true, if_false, List.filter_nil, List.map_nil, List.foldl_nil]
  rfl

/-- One that is reported missing is sent again. -/
theorem selectiveAck_missing {bitmap : Dword} (h : bitmap.toNat % 2 = 0) : PortStep (.selectiveAckReceive ⟨n, far⟩ f.seq bitmap) s n
    (((s.port n).modPath far fun _ => { q with unacked := [{ f with at_ := s.now }] }).queueFrame f.out) := by
  subst hq
  have hrep (at_ : Nat) : reported f.seq bitmap { f with at_ := at_ } = false :=
    (reported_self f.seq bitmap at_ f.out).trans (decide_eq_false (by omega))
  refine (portStep_mod _ rfl).congr ?_
  simp only [hun, List.filter_cons, hrep, dif32_self, Nat.ofNat_pos, decide_true, Bool.not_false, Bool.and_self, if_true, List.filter_nil, List.map_cons,
    List.map_nil, List.foldl_cons, List.foldl_nil]
  rfl

/-- So is one that has not been acknowledged for 200 µs. -/
theorem frameResend_due (h : f.at_ + 210000 ≤ s.now) : PortStep (.frameResendTimeout ⟨n, far⟩ f.seq) s n
    (((s.port n).modPath far fun _ => { q with unacked := [{ f with at_ := s.now }] }).queueFrame f.out) := by
  subst hq
  have hfind : ((s.port n).path far).unacked.find? (fun x => decide (x.seq = f.seq)) = some f := by rw [hun]; simp
  have hstep : exec (.frameResendTimeout ⟨n, far⟩ f.seq) s = .next (s.modPort n fun p =>
      (p.modPath far fun q => { q with unacked := updFirst (fun x => decide (x.seq = f.seq)) (fun x => { x with at_ := s.now }) q.unacked }).queueFrame f.out) := by
    rw [exec_frameResendTimeout, execFrameResendTimeout]
    simp only [hfind]
    exact congrArg _ (if_neg (Nat.not_lt.mpr h))
  refine (portStep_mod _ hstep).congr ?_
  simp only [Port.modPath, hun, updFirst, decide_true, if_true]

theorem frameResend_early (h : s.now < f.at_ + 210000) : exec (.frameResendTimeout ⟨n, far⟩ f.seq) s = .next s := by
  subst hq
  have hfind : ((s.port n).path far).unacked.find? (fun x => decide (x.seq = f.seq)) = some f := by rw [hun]; simp
  rw [exec_frameResendTimeout, execFrameResendTimeout]
  simp only [hfind]
  exact congrArg _ (if_pos h)
end

end Sys2Proof.Machine

namespace Sys2Proof
open Machine

/-- Settles O55: each clause is the rule of its step, proved above. -/
theorem linkSteps : Obligations.LinkSteps := by
  unfold Obligations.LinkSteps
  refine ⟨fun n v s => ⟨portcfgWrite_keeps, portcfgWrite_retrains⟩, fun n delay s => ⟨linkTraining_over delay, linkTraining_ends delay⟩,
    fun n s => ⟨linkReplay_none, linkReplay_again, linkReplay_fails⟩, ?_, ?_, ?_, ?_⟩
  · intro n hdr data tail k s hmode hup hk
    refine ⟨fun hcrc => ⟨packetReceive_badHeader hmode hup hk hcrc, fun hdst hall o hto ho => packetReceive_cut hmode hup hk hcrc hdst hall hto ho⟩, ?_, ?_⟩
    · intro hcrc hdata hpoison
      exact ⟨packetReceive_whole hmode hup hk hcrc hdata hpoison, packetReceive_badFlits hmode hup hk hcrc,
        fun hdst hall o hto ho => packetReceive_forward hmode hup hk hcrc hdst hall hto ho⟩
    · exact packetReceive_poisoned hmode hup hk
  · intro n src udp fcsOk b q s hmode hq
    refine ⟨frameReceive_dropped, ?_⟩
    rintro rfl hlen
    refine ⟨?_, ?_⟩
    · rintro rfl
      exact frameReceive_badCheck hmode hlen
    · rintro rfl hhead hversion hzero
      refine ⟨frameReceive_ack hmode hlen hhead hversion hzero, fun hkind hpacket => ?_⟩
      exact ⟨frameReceive_old hmode hlen hhead hversion hzero hkind hpacket hq,
        fun hseq hmap k hk hdst hop hflits => frameReceive_next hmode hlen hhead hversion hzero hkind hpacket hq hseq hmap hk hdst hop hflits⟩
  · intro n far q s hmode hq
    exact ⟨selectiveAckSend_due hq hmode, selectiveAckSend_early hq⟩
  · intro n far f q s hq hun _
    exact ⟨fun bitmap => selectiveAck_received hq hun, fun bitmap => selectiveAck_missing hq hun, frameResend_due hq hun, frameResend_early hq hun⟩

end Sys2Proof
end

-- ==== Sys2Proof/Proofs/DeviceReset.lean ====

section
/-! PROOF. Resets, boot, thermal events and attestation (25 R468 to R473). -/

namespace Sys2Proof.Machine

/-! ## Boot -/

/-- Whether an image boots depends on the flash alone. -/
theorem Dev.bootCause_congr {d e : Dev} (h : d.flash = e.flash) (n : Nat) : d.bootCause n = e.bootCause n := by
  simp only [Dev.bootCause, h]

/-- Every image has a copy that is accepted. -/
theorem Dev.boot_accepted {d : Dev} (h : ∀ n ∈ [1, 2, 3, 4, 5], d.bootCause n = 0) : d.boot = { d with bootstat := 0, hostUp := true, inReset := 0 } := by
  have hnone : ([1, 2, 3, 4, 5].find? fun n => decide (d.bootCause n ≠ 0)) = none := by
    rw [List.find?_eq_none]
    intro n hn
    simp [h n hn]
  rw [Dev.boot, hnone]

/-- The first image that fails in both copies. -/
theorem Dev.boot_refused {d : Dev} {n : Nat} (hn : n ∈ [1, 2, 3, 4, 5]) (hfirst : ∀ m, 1 ≤ m → m < n → d.bootCause m = 0) (hbad : d.bootCause n ≠ 0) :
    d.boot = { d with bootstat := BitVec.ofNat 64 (n + d.bootCause n * 2 ^ 8), hostUp := false, inReset := 0 } := by
  have hfind : ([1, 2, 3, 4, 5].find? fun m => decide (d.bootCause m ≠ 0)) = some n := by
    simp only [List.mem_cons, List.not_mem_nil, or_false] at hn
    rcases hn with rfl | rfl | rfl | rfl | rfl <;>
      simp [hbad, hfirst 1, hfirst 2, hfirst 3, hfirst 4]
  rw [Dev.boot, hfind]

/-- After the boot chain the device is as before but for its boot status. -/
theorem Dev.boot_only (d : Dev) : ∃ (v : Dword) (b : Bool), d.boot = { d with bootstat := v, hostUp := b, inReset := 0 } := by
  unfold Dev.boot
  split
  · exact ⟨_, _, rfl⟩
  · exact ⟨_, _, rfl⟩

/-! ## Resets -/

/-- Right after a restart of `s` with the rails `rails` down. -/
def Restarted (s : State) (rails : List Nat) (t : State) : Prop :=
  t.parts = [] ∧ t.launches = [] ∧ t.sps = [] ∧ t.vfs = [] ∧ t.mem = [] ∧ t.cache = [] ∧ t.code = [] ∧ t.ports = [] ∧ t.mmus = [] ∧ t.accs = [] ∧ t.inbox = [] ∧
    t.turns = [] ∧ t.now = s.now ∧ t.dev.inReset = 0 ∧ t.dev.pkg = 0 ∧ t.dev.holehit = 0 ∧ t.dev.snapctl = 0 ∧ t.dev.warn = false ∧ t.dev.regs = [] ∧
    t.dev.rails = rails ∧ ((∀ n ∈ [1, 2, 3, 4, 5], s.dev.bootCause n = 0) → t.dev.bootstat = 0 ∧ t.dev.hostUp = true) ∧
    ∀ n ∈ [1, 2, 3, 4, 5], (∀ m, 1 ≤ m → m < n → s.dev.bootCause m = 0) → s.dev.bootCause n ≠ 0 →
      t.dev.bootstat = BitVec.ofNat 64 (n + s.dev.bootCause n * 2 ^ 8) ∧ t.dev.hostUp = false

theorem restarted_restart (s : State) : Restarted s s.dev.rails s.restart := by
  have hcause : ∀ n, s.cleared.dev.bootCause n = s.dev.bootCause n := Dev.bootCause_congr (d := s.cleared.dev) rfl
  have hdev : s.restart.dev = s.cleared.dev.boot := rfl
  obtain ⟨v, b, hboot⟩ := s.cleared.dev.boot_only
  refine ⟨rfl, rfl, rfl, rfl, rfl, rfl, rfl, rfl, rfl, rfl, rfl, rfl, rfl, ?_, ?_, ?_, ?_, ?_, ?_, ?_, fun h => ?_, fun n hn hfirst hbad => ?_⟩
  · rw [hdev, hboot]
  iterate 6 · rw [hdev, hboot]; rfl
  · rw [hdev, Dev.boot_accepted fun n hn => (hcause n).trans (h n hn)]
    exact ⟨rfl, rfl⟩
  · rw [hdev, Dev.boot_refused hn (fun m h1 hm => (hcause m).trans (hfirst m h1 hm)) (fun h => hbad ((hcause n).symm.trans h)), hcause]
    exact ⟨rfl, rfl⟩

/-- The resets that restart the part: power-on, warm, and the recovery from a thermal trip. -/
theorem reset_restarts {i : Instr} {s : State}
    (h : i = .powerOnReset ∨ i = .warmReset ∧ s.dev.inReset = 0 ∨ i = .thermalRecover ∧ s.dev.inReset = 2) :
    ∃ t, exec i s = .next t ∧ Restarted s (if i = .powerOnReset then [] else s.dev.rails) t := by
  rcases h with rfl | ⟨rfl, hr⟩ | ⟨rfl, hr⟩
  · exact ⟨_, rfl, restarted_restart { s with dev := { s.dev with rails := [] } }⟩
  · exact ⟨s.restart, congrArg _ (if_neg (not_not.mpr hr)), restarted_restart s⟩
  · exact ⟨s.restart, congrArg _ (if_pos hr), restarted_restart s⟩

/-- A rail that falls holds the part in reset (25 R468). -/
theorem railDrop_holds {rail : Nat} (s : State) (h : rail < 7) : ∃ t, exec (.railDrop rail) s = .next t ∧ t.dev.inReset = 1 ∧ t.dev.hostUp = false ∧
    t.dev.rails = rail :: s.dev.rails ∧ t.parts = [] ∧ t.launches = [] ∧ t.sps = [] :=
  ⟨{ s with dev := { s.dev with rails := rail :: s.dev.rails } }.hold 1, congrArg _ (if_neg (Nat.not_le.mpr h)), rfl, rfl, rfl, rfl, rfl, rfl⟩

/-! ## Temperature -/

section
variable {sensor : Nat} {s : State} (hn : sensor < 72) (hr : s.dev.inReset = 0)
include hn hr

/-- A sensor of the part reads, out of reset. -/
theorem not_sensorIgnored : ¬(sensors ≤ sensor ∨ s.dev.inReset ≠ 0) := by
  rintro (h | h)
  · exact Nat.not_le.mpr hn h
  · exact h hr

theorem thermalWarn_notes : exec (.thermalWarn sensor) s = .next { s with dev := { s.dev with warn := true } } :=
  congrArg _ (if_neg (not_sensorIgnored hn hr))

/-- A trip ends the only launch with cause CANCELLED, sends its COMPLETE, and holds the part in reset (25 R469). -/
theorem thermalTrip_holds {l : Launch} (hl : s.launches = [l]) (hc : l.cause = none) : ∃ t m, exec (.thermalTrip sensor) s = .next t ∧ t.dev.inReset = 2 ∧
    t.dev.hostUp = false ∧ t.parts = [] ∧ t.launches = [] ∧ t.sps = [] ∧ t.out = s.out ++ [m] ∧ m.type_ = 5 ∧ m.vf = l.vf ∧ m.tag = l.msgTag ∧
    (l.addr ≠ 0 → m.port = l.port ∧ m.addr = l.addr) ∧ m.payload[24]? = some 3 := by
  let u := s.endLaunch l.id 3 0xFFFF 0 0 0
  let x := l.cancelledWith (s.victimTokens l.id)
  obtain ⟨hout, hlaunches⟩ := endLaunch_only hl hc
  have hx : x = { l with cause := some 3, state := 2, crank := 0xFFFF, cword := 0, caddr := 0, cpc := 0, gone := s.victimTokens l.id } := l.cancelledWith_eq hc _
  have hrun : exec (.thermalTrip sensor) s = .next ((u.sendComplete x).hold 2) := by
    refine congrArg _ ((if_neg (not_sensorIgnored hn hr)).trans ?_)
    simp only [hl, List.foldl_cons, List.foldl_nil, hlaunches]
    rfl
  refine ⟨_, u.ownMsg x.vf vtComplete 0 x.msgTag x.port x.addr (x.record u.now), hrun, rfl, rfl, rfl, rfl, rfl, ?_, rfl, ?_, ?_, fun ha => ?_, ?_⟩
  · exact congrArg (· ++ _) hout
  · rw [hx]; rfl
  · rw [hx]; rfl
  · rw [hx]
    simp [State.ownMsg, ha]
  · exact (Launch.record_cause x u.now).trans (by rw [hx]; rfl)
end

/-! ## Attestation -/

/-- The first 416 bytes of a body padded with zeros, before 96 bytes of signature. -/
theorem padded_length (body : List Byte) (sig : Nat) : ((body ++ List.replicate 416 0).take 416 ++ toBytes 96 sig).length = 512 := by
  simp only [List.length_append, List.length_take, List.length_replicate, toBytes_length]
  omega

theorem State.attReport_length (s : State) : s.attReport.length = 512 := padded_length _ _

/-- The report begins with the nonce. -/
theorem State.attReport_nonce {s : State} (h : s.dev.attNonce.length = 48) : s.attReport.take 48 = s.dev.attNonce := by
  unfold State.attReport
  rw [List.take_append_of_le_length (by simp only [List.length_append, List.length_take, List.length_replicate]; omega), List.take_take, Nat.min_eq_left (by decide),
    List.append_assoc, List.append_assoc, List.append_assoc, List.take_left' (by simp only [List.length_append, List.length_take, List.length_replicate]; omega)]
  exact List.take_left' h

theorem attgo_begins {s : State} (h : s.dev.attBusy = false) : exec .attgo s = .next { s with dev := { s.dev with attBusy := true, attDone := false } } := by
  refine congrArg _ (if_neg ?_)
  rw [h]
  decide

theorem attgo_busy {s : State} (h : s.dev.attBusy = true) : exec .attgo s = .next s := congrArg _ (if_pos h)

theorem attestationDone_ready {s : State} (h : s.dev.attBusy = true) : exec .attestationDone s =
    .next { s with ctr := s.ctr + 1, dev := { s.dev with report := s.attReport, attDone := true, attBusy := false } } := congrArg _ (if_pos h)

end Sys2Proof.Machine
end

-- ==== Sys2Proof/Proofs/DeviceSnapshots.lean ====

section
/-! PROOF. Snapshots (25 R476, R477): triggers, the latch, the packets it sends, and the release. -/

namespace Sys2Proof.Machine

/-! ## SNAPCTL -/

/-- SNAPCTL with one more trigger lost. -/
theorem snapctl_lost (c : Dword) {v : Dword}
    (hv : v = BitVec.ofNat 64 (c.toNat - bits c 16 16 * 2 ^ 16 + min 0xFFFF (bits c 16 16 + 1) * 2 ^ 16)) :
    v.toNat % 2 ^ 16 = c.toNat % 2 ^ 16 ∧ v.toNat / 2 ^ 32 = c.toNat / 2 ^ 32 ∧
      v.toNat / 2 ^ 16 % 2 ^ 16 = min 0xFFFF (c.toNat / 2 ^ 16 % 2 ^ 16 + 1) := by
  have hc := c.isLt
  subst hv
  simp only [bits, BitVec.toNat_ofNat]
  omega

/-- A trigger while a snapshot is held is lost, and counted. -/
theorem State.snapTrigger_held {s : State} (h : s.dev.snapctl.getLsbD 0 = true) : s.snapTrigger = { s with dev := { s.dev with 
      snapctl := BitVec.ofNat 64 (s.dev.snapctl.toNat - bits s.dev.snapctl 16 16 * 2 ^ 16 + min 0xFFFF (bits s.dev.snapctl 16 16 + 1) * 2 ^ 16) } } :=
  if_pos ((bits_one_eq_one _ _).mpr h)

/-- Else it is latched 64 cycles later. -/
theorem State.snapTrigger_free {s : State} (h : s.dev.snapctl.getLsbD 0 = false) :
    s.snapTrigger = { s with dev := { s.dev with snapT := s.dev.snapT ++ [s.now + 64] } } :=
  if_neg ((bits_one_ne_one _ _).mpr h)

/-- What triggers a snapshot: a write of SNAPTRIG, or a packet of op 9 at a scale-up port. -/
theorem exec_snapTrigger {i : Instr} {s : State} (h : i = .snaptrig ∨ ∃ port, i = .snapshotPacket port ∧ (s.port port).mode = 1) :
    exec i s = .next s.snapTrigger := by
  rcases h with rfl | ⟨port, rfl, hmode⟩
  · rfl
  · exact congrArg Host.Outcome.next (if_pos hmode)

theorem snapctlValidClear_clears (s : State) : ∃ v : Dword, exec .snapctlValidClear s = .next { s with dev := { s.dev with snapctl := v } } ∧
    v.toNat = s.dev.snapctl.toNat / 2 * 2 := by
  have hc := s.dev.snapctl.isLt
  refine ⟨_, rfl, ?_⟩
  simp only [bits, BitVec.toNat_ofNat]
  omega

/-! ## The latch -/

/-- What an SP that holds a context latches. -/
theorem Sp.live_ctx {p : Sp} {c : Ctx} (h : p.ctx = some c) : p.live =
    [BitVec.ofNat 64 c.kern.pc, BitVec.ofNat 64 c.kern.cycles, BitVec.ofNat 64 c.kstat, c.pc, BitVec.ofNat 64 (c.sb.filter fun e => !e.freed).length,
      BitVec.ofNat 64 (c.matrix.wmOf 0), BitVec.ofNat 64 (c.matrix.wmOf 1), BitVec.ofNat 64 (c.matrix.wmOf 2), BitVec.ofNat 64 (c.matrix.wmOf 3)] := by
  simp only [Sp.live, h]
  rfl

/-- The state with the trigger of cycle `t0` latched: no packet has been sent yet. -/
def State.latched (s : State) (t0 : Nat) : State :=
  { s with
    ctr := s.ctr + 1, sps := s.sps.map fun (e : Nat × Sp) => (e.1, { e.2 with snap := e.2.live }),
    dev := { s.dev with snapT := dropFirst (fun t => decide (t ≤ s.now)) s.dev.snapT, snapcyc := BitVec.ofNat 64 t0, snapNo := some s.ctr, snapctl := s.dev.snapctl ||| 1 } }

/-- The ports on which a snapshot packet leaves. -/
def State.snapPorts (s : State) : List Nat := (List.range 16).filter fun n => decide (bits s.dev.snapfwd n 1 = 1) && decide ((s.port n).mode = 1)

theorem State.mem_snapPorts (s : State) (n : Nat) : n ∈ s.snapPorts ↔ n < 16 ∧ s.dev.snapfwd.getLsbD n = true ∧ (s.port n).mode = 1 := by
  simp [State.snapPorts, bits_one_eq_one]

theorem State.snapPorts_nodup (s : State) : s.snapPorts.Nodup := List.nodup_range.filter _

theorem snapshotLatch_latched {s : State} {t0 : Nat} (h : (s.dev.snapT.find? fun t => decide (t ≤ s.now)) = some t0) : exec .snapshotLatch s = .next (
    if bits s.dev.snapctl 1 1 = 1 then s.snapPorts.foldl (fun t n => t.sendPacket n (snapPacket s.dev.pkg)) (s.latched t0) else s.latched t0) := by
  refine congrArg Host.Outcome.next ?_
  simp only [h]
  rfl

/-- Every SP that holds a context has latched it. -/
theorem State.latched_sp {s : State} {k : Nat} {p : Sp} (t0 : Nat) (h : KMap.find k s.sps = some p) : (s.latched t0).sp k = { p with snap := p.live } := by
  have hf : KMap.find k (s.latched t0).sps = some { p with snap := p.live } := by
    have := KMap.find_mapValues (fun _ (q : Sp) => { q with snap := q.live }) k s.sps
    rw [h] at this
    exact this
  rw [State.sp, KMap.get, hf]
  rfl

/-! ## The packets of a snapshot -/

/-- A packet of the part at a scale-up port waits for its line. -/
def Port.sendAt (now : Nat) (k : Packet) (p : Port) : Port := p.queueFlits 8 (now + fabricToArith 12) (pktFlitList k)

theorem State.sendPacket_up {s : State} {n : Nat} (h : (s.port n).mode = 1) (k : Packet) : s.sendPacket n k = s.modPort n (Port.sendAt s.now k) := if_pos h

/-- A packet sent once on each of several scale-up ports. -/
theorem State.foldl_sendPacket (k : Packet) {l : List Nat} (hnd : l.Nodup) {s : State} (hm : ∀ n ∈ l, (s.port n).mode = 1) :
    ∃ ports, l.foldl (fun t n => t.sendPacket n k) s = { s with ports := ports } ∧
      ∀ n, KMap.get Port.init ports n = if n ∈ l then (s.port n).sendAt s.now k else s.port n := by
  induction l generalizing s with
  | nil => exact ⟨_, rfl, fun n => rfl⟩
  | cons a l ih =>
    obtain ⟨ha, hl⟩ := List.nodup_cons.mp hnd
    have hmode : ∀ n ∈ l, ((s.modPort a (Port.sendAt s.now k)).port n).mode = 1 := fun n hn =>
      (s.mode_modPort a n (f := Port.sendAt s.now k) fun _ => rfl).trans (hm n (List.mem_cons_of_mem _ hn))
    obtain ⟨ports, hfold, hports⟩ := ih hl hmode
    refine ⟨ports, ?_, fun n => ?_⟩
    · rw [List.foldl_cons, State.sendPacket_up (hm a List.mem_cons_self), hfold]
      rfl
    · rw [hports n]
      by_cases hn : n = a
      · subst hn
        rw [if_neg ha, if_pos List.mem_cons_self, State.port_modPort_self]
      · simp only [State.port_modPort_other s hn, List.mem_cons, hn, false_or]
        rfl

/-- A snapshot is latched on cycle T, and leaves, with SEND, on each port of SNAPFWD. -/
theorem snapshotLatch_latches {t0 : Nat} {s : State} (hT : s.dev.snapT = [t0]) (hnow : t0 ≤ s.now) : ∃ t, exec .snapshotLatch s = .next t ∧ t.dev.snapT = [] ∧
    t.dev.snapcyc = BitVec.ofNat 64 t0 ∧ t.dev.snapctl = s.dev.snapctl ||| 1 ∧
    (∀ k p, KMap.find k s.sps = some p → t.sp k = { p with snap := p.live }) ∧
    (s.dev.snapctl.getLsbD 1 = false → t.ports = s.ports) ∧
    ∀ n, s.dev.snapctl.getLsbD 1 = true → n < 16 → s.dev.snapfwd.getLsbD n = true → (s.port n).mode = 1 →
      t.port n = (s.port n).sendAt s.now (snapPacket s.dev.pkg) := by
  have hfind : (s.dev.snapT.find? fun t => decide (t ≤ s.now)) = some t0 := by simp [hT, hnow]
  have hempty : (s.latched t0).dev.snapT = [] := by simp [State.latched, dropFirst, hT, hnow]
  rw [snapshotLatch_latched hfind]
  cases hsend : s.dev.snapctl.getLsbD 1 with
  | false =>
    rw [if_neg ((bits_one_ne_one _ _).mpr hsend)]
    exact ⟨_, rfl, hempty, rfl, rfl, fun k p h => State.latched_sp t0 h, fun _ => rfl, fun n h => absurd h (by decide)⟩
  | true =>
    rw [if_pos ((bits_one_eq_one _ _).mpr hsend)]
    obtain ⟨ports, hfold, hports⟩ := State.foldl_sendPacket (snapPacket s.dev.pkg) s.snapPorts_nodup (s := s.latched t0)
      fun n hn => ((s.mem_snapPorts n).mp hn).2.2
    rw [hfold]
    refine ⟨_, rfl, hempty, rfl, rfl, fun k p h => State.latched_sp t0 h, fun h => absurd h (by decide), fun n _ hn hf hm => ?_⟩
    exact (hports n).trans (if_pos ((s.mem_snapPorts n).mpr ⟨hn, hf, hm⟩))

end Sys2Proof.Machine
end

-- ==== Sys2Proof/Proofs/DeviceRegisters.lean ====

section
/-! PROOF. Debug, JTAG, and the register space (25 R474, R475, R478, R479). -/

namespace Sys2Proof.Machine

/-! ## Debug -/

theorem dbgctlAttach_attaches {k : Nat} (s : State) (h : k < 160) : SpStep (.dbgctlAttach k) s k { s.sp k with attach := true } :=
  spStep_mod (fun p => { p with attach := true }) (congrArg Host.Outcome.next (if_neg (Nat.not_le.mpr h)))

/-- A stopped controller goes on after its EBREAK. -/
theorem dbgctlGo_resumes {k : Nat} {s : State} {c : Ctx} (hstop : (s.sp k).dbgStopped = true) (hc : s.ctx k = some c) :
    SpStep (.dbgctlGo k) s k { s.sp k with
      dbgStopped := false, ctx := some { c with pc := c.pc + (if (cmByte (s.sp k).cm c.pc.toNat).toNat % 4 = 3 then 4 else 2) } } := by
  have hgo : exec (.dbgctlGo k) s = .next (s.modSp k fun p =>
      { p with dbgStopped := false, ctx := p.ctx.map fun c => c.advance (if (cmByte p.cm c.pc.toNat).toNat % 4 = 3 then 4 else 2) }) :=
    congrArg Host.Outcome.next (if_neg (by simp [hstop]))
  have hc : (s.sp k).ctx = some c := hc
  obtain ⟨t, ht, hwith⟩ := spStep_mod _ hgo
  refine ⟨t, ht, hwith.congr ?_⟩
  simp only [hc, Option.map_some, Ctx.advance]
  split <;> rfl

/-! ## JTAG -/

theorem idcode_fields : idcode.toNat % 2 = 1 ∧ idcode.toNat / 2 ^ 12 % 2 ^ 16 = 0x4400 ∧ idcode.toNat / 2 ^ 28 = 1 := by
  simp only [idcode, BitVec.toNat_ofNat]
  omega

theorem jtagBypass_delays {s : State} (tdi : Bool) (h : s.dev.tapIr = 3) : exec (.jtagBypass tdi) s = .next { s with
    dev := { s.dev with tapIr := 3, tapBypass := tdi, tapOut := s.dev.tapOut ++ [if s.dev.tapBypass then 1 else 0] } } := by
  refine congrArg Host.Outcome.next ?_
  simp only [State.tap, h, true_and]

theorem jtagExtest_selects (s : State) : exec .jtagExtest s = .next { s with dev := { s.dev with tapIr := 5 } } := by
  refine congrArg Host.Outcome.next ?_
  simp only [State.tap, List.append_nil]

theorem jtagRegacc_fused_off {s : State} (a : Nat) (wr : Bool) (v : Dword) (h : fuseJtagReg = false) :
    exec (.jtagRegacc a wr v) s = .next { s with dev := { s.dev with tapIr := 2, tapOut := s.dev.tapOut ++ [0] } } :=
  congrArg Host.Outcome.next (if_pos (.inl (by simp [h])))

theorem jtagRegacc_reads {s : State} {a : Nat} {w : Dword} (v : Dword) (hf : fuseJtagReg = true) (ha : a % 8 = 0) (hlt : a < 2 ^ 24) (hw : s.regRead a = some w) :
    exec (.jtagRegacc a false v) s = .next { s with dev := { s.dev with tapIr := 2, tapOut := s.dev.tapOut ++ [w] } } := by
  have hacc : s.regAccess a = (w, s) := by simp only [State.regAccess, hw]
  have hon : ¬((!fuseJtagReg) = true ∨ a % 8 ≠ 0 ∨ 2 ^ 24 ≤ a) := by
    simp only [hf, ha, Bool.not_true, Bool.false_eq_true, ne_eq, not_true_eq_false, false_or]
    omega
  refine congrArg Host.Outcome.next ((if_neg hon).trans ?_)
  simp only [hacc]
  rfl

/-! ## Writes of registers -/

/-- A write of a register that exists. -/
theorem registerWrite_set {s : State} {a : Nat} (v : Dword) (ha : a % 8 = 0) (hlt : a < 2 ^ 24) (hr : (s.regRead a).isSome = true) :
    exec (.registerWrite a v) s = .next (s.regSet a v) := by
  obtain ⟨w, hw⟩ := Option.isSome_iff_exists.mp hr
  refine congrArg Host.Outcome.next ((if_pos ⟨ha, hlt⟩).trans ?_)
  simp only [State.regWrite, hw]

section
variable {s : State} {a : Nat} (v : Dword) (ha : a % 8 = 0) (hr : s.regRead a = none)
include ha hr

/-- A write of a hole is counted, and changes nothing else. -/
theorem registerWrite_hole (hlt : a < 2 ^ 24) : exec (.registerWrite a v) s = .next s.holeHit := by
  refine congrArg Host.Outcome.next ((if_pos ⟨ha, hlt⟩).trans ?_)
  simp only [State.regWrite, hr]

omit v in
theorem holeRead_counts : exec (.holeRead a) s = .next s.holeHit := congrArg Host.Outcome.next (if_pos ⟨ha, by rw [hr]; rfl⟩)
end

/-! ## The windows of a partition -/

/-- The window registers of a partition are its own, or those that wait for its creation; a write reaches the ones that are there. -/
theorem State.windows_writeWindow_self (s : State) (n o : Nat) (v : Dword) :
    ((s.writeWindow n o v).windows n).peer = ((s.windows n).writeReg o v).peer ∧
      ((s.writeWindow n o v).windows n).toktab = ((s.windows n).writeReg o v).toktab := by
  unfold State.writeWindow
  cases hp : s.part n with
  | none =>
    have hfind : KMap.find n s.parts = none := hp
    simp only [State.windows, hfind, KMap.get_ins_self, and_self]
  | some p => simp only [State.windows, State.setPart, KMap.find_ins_self, and_self]

theorem State.windows_writeWindow_other (s : State) {n m : Nat} (h : m ≠ n) (o : Nat) (v : Dword) : (s.writeWindow n o v).windows m = s.windows m := by
  unfold State.writeWindow
  cases s.part n with
  | none => simp only [State.windows, KMap.get_ins_other h]
  | some p => simp only [State.windows, State.setPart, KMap.find_ins_other h]

/-- TOKTAB keeps its writable bits; the other window registers stand. -/
theorem Windows.writeReg_toktab (w : Windows) (v : Dword) : w.writeReg 0x200 v = { w with toktab := v &&& BitVec.ofNat 64 toktabMask } := rfl

/-- TOKTAB of partition `n` is a register, whether the partition exists or not. -/
theorem State.regRead_toktab (s : State) {n : Nat} (h : n < 32) : (s.regRead (0x20000 + 0x1000 * n + 0x200)).isSome = true := by
  have ho : (0x20000 + 0x1000 * n + 0x200) % 0x1000 = 0x200 := by omega
  unfold State.regRead
  iterate 5 rw [if_neg (by omega)]
  rw [if_pos (by omega), ho]
  rfl

theorem State.regSet_toktab (s : State) {n : Nat} (h : n < 32) (v : Dword) :
    s.regSet (0x20000 + 0x1000 * n + 0x200) v = s.writeWindow n 0x200 v := by
  have ho : (0x20000 + 0x1000 * n + 0x200) % 0x1000 = 0x200 := by omega
  have hn : (0x20000 + 0x1000 * n + 0x200 - 0x20000) / 0x1000 = n := by omega
  unfold State.regSet
  iterate 7 rw [if_neg (by omega)]
  rw [if_pos (by omega), ho, hn]

theorem registerWrite_toktab (s : State) {n : Nat} (h : n < 32) (v : Dword) : ∃ t, exec (.registerWrite (0x20000 + 0x1000 * n + 0x200) v) s = .next t ∧
    (t.windows n).toktab = v &&& BitVec.ofNat 64 toktabMask ∧ (t.windows n).peer = (s.windows n).peer ∧ ∀ m, m ≠ n → t.windows m = s.windows m := by
  obtain ⟨hpeer, htok⟩ := s.windows_writeWindow_self n 0x200 v
  refine ⟨s.writeWindow n 0x200 v, ?_, htok, hpeer, fun m hm => s.windows_writeWindow_other hm _ _⟩
  rw [registerWrite_set v (by omega) (by omega) (s.regRead_toktab h), s.regSet_toktab h]

/-- GCTL.WARM restarts the part as WARM_RESET does. -/
theorem registerWrite_warm {s : State} {v : Dword} (hr : s.dev.inReset = 0) (hv : v.getLsbD 0 = true) : exec (.registerWrite 0 v) s = exec .warmReset s := by
  have hwarm : exec .warmReset s = .next s.restart := congrArg Host.Outcome.next (if_neg (not_not.mpr hr))
  rw [registerWrite_set v (by decide) (by decide) rfl, hwarm]
  exact congrArg Host.Outcome.next (if_pos ((bits_one_eq_one v 0).mpr hv))

theorem registerWrite_pkg (s : State) (v : Dword) : exec (.registerWrite 8 v) s = .next { s with dev := { s.dev with pkg := v.toNat % 2 ^ 16 } } := by
  rw [registerWrite_set v (by decide) (by decide) rfl, ← bits_low]
  rfl

end Sys2Proof.Machine

/-! ## The obligation -/

namespace Sys2Proof
open Machine

/-- Settles O60: a rule for each step of the device. -/
theorem deviceSteps : Obligations.DeviceSteps := by
  unfold Obligations.DeviceSteps
  refine ⟨fun i s h => reset_restarts h, fun rail s h => railDrop_holds s h, fun sensor s hn hr => ⟨thermalWarn_notes hn hr, fun l hl hc => thermalTrip_holds hn hr hl hc⟩,
    fun s => ⟨attgo_begins, attgo_busy, fun h => ⟨_, attestationDone_ready h, s.attReport_length, State.attReport_nonce⟩⟩,
    fun i s h => ⟨fun hf => ?_, fun hh => ⟨_, ?_, snapctl_lost _ rfl⟩⟩, fun t0 s hT hnow => ?_, snapctlValidClear_clears, fun k s h => dbgctlAttach_attaches s h,
    fun k s c hstop hc => dbgctlGo_resumes hstop hc, fun s => ⟨idcode, rfl, idcode_fields⟩, fun tdi s h => jtagBypass_delays tdi h,
    fun s => ⟨⟨_, rfl⟩, jtagExtest_selects s, rfl⟩, fun a wr v w s => ⟨jtagRegacc_fused_off a wr v, jtagRegacc_reads v⟩,
    fun v s => ⟨registerWrite_pkg s v, registerWrite_set v (by decide) (by decide) rfl, registerWrite_set v (by decide) (by decide) rfl,
      fun n h => registerWrite_toktab s h v, registerWrite_warm⟩,
    fun a v s ha hlt hr => ⟨registerWrite_hole v ha hr hlt, holeRead_counts ha hr⟩⟩
  · rw [exec_snapTrigger h, State.snapTrigger_free hf]
  · rw [exec_snapTrigger h, State.snapTrigger_held hh]
  · obtain ⟨t, he, hempty, hcyc, hctl, hsp, hports, hsend⟩ := snapshotLatch_latches hT hnow
    refine ⟨t, he, hempty, hcyc, hctl, fun k p c hp hc => ?_, hports, fun n p h1 hn hf hm hp => ?_⟩
    · rw [hsp k p hp, Sp.live_ctx hc]
    · rw [hsend n h1 hn hf hm, hp]
      rfl

end Sys2Proof

end

-- ==== Sys2Proof/Proofs/RemoteBeats.lean ====

section
/-! PROOF. Remote beats at their home (15 R384, R385, R388): refused, applied, answered, answered again, and forwarded by the source of a migration
(23 R458). -/

namespace Sys2Proof.Machine

/-! ## A packet sent on behalf of a partition -/

/-- A packet that leaves by a scale-up port from a state that agrees on the ports and on the cycle. -/
theorem sends_sendPacket {i : Instr} {s u : State} {n : Nat} {k : Packet} (he : exec i s = .next (u.sendPacket n k)) (hports : u.ports = s.ports) (hnow : u.now = s.now)
    (hm : (s.port n).mode = 1) : Sends i s n k (u.sendPacket n k) := by
  have hport : u.port n = s.port n := congrArg (fun m => KMap.get Port.init m n) hports
  refine ⟨he, ?_⟩
  rw [State.sendPacket_up (hport ▸ hm), State.port_modPort_self, hport, hnow]
  rfl

theorem State.portTo_congr {s u : State} (h : u.heard = s.heard) (p : Part) (pkg : Nat) : u.portTo p pkg = s.portTo p pkg := by
  unfold State.portTo
  rw [h]

/-- The state after a packet has been sent by a scale-up port: only ports differ. -/
theorem State.sendPacket_ports {s : State} {n : Nat} (h : (s.port n).mode = 1) (k : Packet) : s.sendPacket n k = { s with ports := (s.sendPacket n k).ports } := by
  rw [State.sendPacket_up h]
  rfl

section
variable {s : State} {k : Packet}

/-- A beat for a partition that does not exist is answered PERM. -/
theorem homeBeat_noPart (hp : s.part k.dstPart = none) (hm : (s.port (s.portTo Part.init k.srcPkg)).mode = 1) :
    ∃ t, Sends (.homeBeatApply k) s (s.portTo Part.init k.srcPkg) (answer s.dev.pkg k 6 4 []) t ∧ t = { s with ports := t.ports } := by
  refine ⟨_, sends_sendPacket (u := s) ?_ rfl rfl hm, State.sendPacket_ports hm _⟩
  rw [exec_homeBeatApply, execHomeBeatApply, hp]

/-- What a beat finds at a partition that does not migrate and has not moved. -/
theorem Part.gate_here {p : Part} (hrole : p.migr.role = 0) (hmoved : p.moved = none) (ia : Nat) : p.gate ia = 0 := by
  simp [Part.gate, hrole, hmoved]

variable {p : Part} (hp : s.part k.dstPart = some p) (heng : k.engine < 256)
include hp heng

/-- A beat whose access is not on its way is let in by the gate. -/
theorem homeBeat_new (hacc : s.beatAcc k = none) (hrole : p.migr.role = 0) (hmoved : p.moved = none) {r : Option Packet} (hr : (s.dup k).first s.dev.pkg k = r) :
    exec (.homeBeatApply k) s = .next (r.elim
      (if !p.exports k (remoteBytes k (remoteKind k s.ctr)) then s.beatAnswer p k (answer s.dev.pkg k 6 stPerm [])
        else s.fresh.2.sendIa (Acc.new (.remote k) k.dstPart (remoteKind k s.ctr) k.ia k.ia (remoteBytes k (remoteKind k s.ctr)) k.data (4 + s.portTo p k.srcPkg / 8)))
      (s.sendAnswer p k)) := by
  have hpage : ¬(k.op = 1 ∧ pageEngine ≤ k.engine) := fun h => Nat.not_le.mpr (Nat.lt_of_lt_of_le heng (by decide)) h.2
  have hpull : ¬(k.op = 2 ∧ 256 ≤ k.engine) := fun h => absurd h.2 (by omega)
  rw [exec_homeBeatApply, execHomeBeatApply, hp]
  simp only [if_neg hpage, if_neg hpull, hacc, State.gated, Part.gate_here hrole hmoved, hr]
  cases r <;> rfl

/-- One whose access is done is answered for good. -/
theorem homeBeat_done {a : Acc} (hacc : s.beatAcc k = some a) (hdone : s.accDone a = true) :
    exec (.homeBeatApply k) s = .next ((s.dropAcc a.id).beatAnswer p k (remoteAnswer s.dev.pkg k a)) := by
  have hpage : ¬(k.op = 1 ∧ pageEngine ≤ k.engine) := fun h => Nat.not_le.mpr (Nat.lt_of_lt_of_le heng (by decide)) h.2
  have hpull : ¬(k.op = 2 ∧ 256 ≤ k.engine) := fun h => absurd h.2 (by omega)
  rw [exec_homeBeatApply, execHomeBeatApply, hp]
  simp only [if_neg hpage, if_neg hpull, hacc, hdone, if_true]
end

/-! ## Answers -/

/-- What the home has answered for good is kept. -/
def State.noting (s : State) (k r : Packet) : State :=
  let d := (s.dup k).note k.seq r
  { s with dups := s.dups.filter (fun (x : Dup) => !(decide (x.pkg = d.pkg) && decide (x.engine = d.engine))) ++ [d] }

section
variable {s : State} {p : Part} {k r : Packet}

/-- The op of an acknowledgement is not that of read data. -/
theorem op_ack_ne {own status : Nat} {data : List Byte} : (answer own k 6 status data).op ≠ 3 := by
  simp [answer]

theorem State.sendAnswer_ack (hop : r.op ≠ 3) (hdst : r.dstPkg = k.srcPkg) : s.sendAnswer p k r = s.sendPacket (s.portTo p k.srcPkg) r := by
  rw [State.sendAnswer, if_neg hop, State.sendTo, hdst]

theorem State.beatAnswer_ack (hop : r.op ≠ 3) (hdst : r.dstPkg = k.srcPkg) : s.beatAnswer p k r = (s.noting k r).sendPacket (s.portTo p k.srcPkg) r :=
  State.sendAnswer_ack (s := s.noting k r) hop hdst

/-- Read data is followed by the acknowledgement of its beat. -/
theorem State.beatAnswer_data (hop : r.op = 3) (hdst : r.dstPkg = k.srcPkg) (hm : (s.port (s.portTo p k.srcPkg)).mode = 1) :
    s.beatAnswer p k r = ((s.noting k r).sendPacket (s.portTo p k.srcPkg) r).sendPacket (s.portTo p k.srcPkg) (answer s.dev.pkg k 6 0 []) := by
  have hsent : (s.noting k r).sendTo p r = (s.noting k r).sendPacket (s.portTo p k.srcPkg) r := by
    rw [State.sendTo, hdst]
    rfl
  have hmode : ((s.noting k r).port (s.portTo p k.srcPkg)).mode = 1 := hm
  refine Eq.trans (b := ((s.noting k r).sendTo p r).sendTo p (answer s.dev.pkg k 6 0 [])) (if_pos hop) ?_
  rw [hsent, State.sendPacket_up hmode]
  rfl
end

/-- An access inside the linear memory of its partition goes to its slice (12 R305). -/
theorem State.translate_linear {s : State} {n : Nat} {a : Acc} {p : Part} (ha : s.acc n = some a) (hp : s.part a.part = some p) (hia : a.ia < 2 ^ 39)
    (hin : inRanges p.linear a.ia a.n = true) : s.translate n = s.toSlice n a.ia := by
  have hw : iaWindow a.ia = 0 := by unfold iaWindow; omega
  have hh : iaHole a.ia = false := by simp only [iaHole, Bool.and_eq_false_iff, decide_eq_false_iff_not]; omega
  have hl : iaLinear a.ia = true := by simpa [iaLinear] using hia
  unfold State.translate
  simp only [ha, Option.bind_some, hp, hw, hh, hl, hin, ne_eq, not_true_eq_false, Bool.false_eq_true, if_false, if_true]

/-- The beat of a peer that is the only access leaves for its slice. -/
theorem State.toSlice_remote {s : State} {n pa : Nat} {a : Acc} {k : Packet} (hs : s.accs = [a]) (hid : a.id = n) (hsrc : a.src = .remote k) :
    ∃ r, s.toSlice n pa = { s with ctr := s.ctr + 1, accs := [{ a with pa := pa, state := 2, ready := r }] } := by
  obtain ⟨r, hr⟩ := State.leave_only (s := { s with accs := [{ a with pa := pa }] }) (n := n) rfl hid
  refine ⟨r, ?_⟩
  unfold State.toSlice
  simp only [State.acc_only hs hid, hsrc, State.modAcc_only hs hid]
  simp only [← hsrc]
  exact hr

/-! ## A beat at a partition that is at home -/

section
variable {s : State} {k : Packet} {p : Part} (hp : s.part k.dstPart = some p) (heng : k.engine < 256) (hm : (s.port (s.portTo p k.srcPkg)).mode = 1)
include hp heng hm

section
variable (hrole : p.migr.role = 0) (hmoved : p.moved = none) (hs : s.accs = [])
include hrole hmoved hs

omit hp heng hm hrole hmoved in
theorem State.beatAcc_of_accs_nil : s.beatAcc k = none := by
  rw [State.beatAcc, hs]
  rfl

/-- One that has been applied receives its first answer again. -/
theorem homeBeat_again {r : Packet} (hr : (s.dup k).first s.dev.pkg k = some r) (hop : r.op ≠ 3) (hdst : r.dstPkg = k.srcPkg) :
    ∃ t, Sends (.homeBeatApply k) s (s.portTo p k.srcPkg) r t ∧ t = { s with ports := t.ports } := by
  refine ⟨_, sends_sendPacket (u := s) ?_ rfl rfl hm, State.sendPacket_ports hm _⟩
  rw [homeBeat_new hp heng (State.beatAcc_of_accs_nil hs) hrole hmoved hr, Option.elim_some, State.sendAnswer_ack hop hdst]

variable (hnew : (s.dup k).first s.dev.pkg k = none) (hread : k.op = 2)
include hnew hread

omit hp heng hm hrole hmoved hs hnew in
/-- A read reaches to the end of its line. -/
theorem remoteKind_read : remoteKind k s.ctr = .read := by simp only [remoteKind, hread]

/-- A read that no EXPORT entry takes is answered PERM. -/
theorem homeBeat_refused (hexp : p.exports k (64 - k.ia % 64) = false) :
    ∃ t, Sends (.homeBeatApply k) s (s.portTo p k.srcPkg) (answer s.dev.pkg k 6 4 []) t ∧ t.accs = [] ∧ t.mem = s.mem := by
  have hstep : exec (.homeBeatApply k) s = .next ((s.noting k (answer s.dev.pkg k 6 4 [])).sendPacket (s.portTo p k.srcPkg) (answer s.dev.pkg k 6 4 [])) := by
    rw [homeBeat_new hp heng (State.beatAcc_of_accs_nil hs) hrole hmoved hnew, remoteKind_read hread, Option.elim_none, remoteBytes, hexp, Bool.not_false, if_pos rfl,
      State.beatAnswer_ack (r := answer s.dev.pkg k 6 stPerm []) op_ack_ne rfl]
  refine ⟨_, sends_sendPacket hstep rfl rfl hm, ?_, State.sendPacket_mem _ _ _⟩
  rw [State.sendPacket_ports (s := s.noting k _) hm]
  exact hs

omit hm in
/-- One that is let in becomes an access of linear memory, on its way to its slice. -/
theorem homeBeat_enters (hexp : p.exports k (64 - k.ia % 64) = true) (hia : k.ia < 2 ^ 39) (hin : inRanges p.linear k.ia (64 - k.ia % 64) = true) :
    ∃ t a, exec (.homeBeatApply k) s = .next t ∧ t.accs = [a] ∧ a.src = .remote k ∧ a.kind = .read ∧ a.pa = k.ia ∧ a.n = 64 - k.ia % 64 ∧ a.state = 2 ∧
      t.mem = s.mem ∧ t.ports = s.ports := by
  let a0 : Acc := { Acc.new (.remote k) k.dstPart .read k.ia k.ia (64 - k.ia % 64) k.data (4 + s.portTo p k.srcPkg / 8) with id := s.nextAcc, sentAt := s.now }
  let u : State := { s with ctr := s.ctr + 1, accs := [a0], nextAcc := s.nextAcc + 1 }
  have hstep : exec (.homeBeatApply k) s = .next (u.translate s.nextAcc) := by
    rw [homeBeat_new hp heng (State.beatAcc_of_accs_nil hs) hrole hmoved hnew, remoteKind_read hread, Option.elim_none, remoteBytes, hexp, Bool.not_true, if_neg (by decide)]
    simp only [State.sendIa, State.addAcc, State.fresh, hs, List.nil_append]
    rfl
  have hslice : u.translate s.nextAcc = u.toSlice s.nextAcc k.ia := State.translate_linear (a := a0) (State.acc_only rfl rfl) hp hia hin
  obtain ⟨r, hr⟩ := State.toSlice_remote (s := u) (pa := k.ia) (a := a0) rfl rfl rfl
  exact ⟨_, _, hstep.trans (congrArg _ (hslice.trans hr)), rfl, rfl, rfl, rfl, rfl, rfl, rfl, rfl⟩
end

section
variable {a : Acc} (hs : s.accs = [a]) (hsrc : a.src = .remote k) (hdone : s.accDone a = true)
include hs hsrc hdone

omit hp heng hm hdone in
theorem State.beatAcc_only : s.beatAcc k = some a := by simp [State.beatAcc, hs, hsrc]

omit hp heng hm hsrc hdone in
theorem State.dropAcc_only : s.dropAcc a.id = { s with accs := [] } := by simp [State.dropAcc, hs, dropFirst]

/-- A beat that has been read is answered with its data and, after them, its acknowledgement. -/
theorem homeBeat_data (hst : a.status = 0) (hread : a.kind.reads = true) : ∃ t, exec (.homeBeatApply k) s = .next t ∧ t.accs = [] ∧ t.mem = s.mem ∧
    (t.port (s.portTo p k.srcPkg)).queue = (s.port (s.portTo p k.srcPkg)).queue ++
      (pktFlitList (answer s.dev.pkg k 3 0 a.result) ++ pktFlitList (answer s.dev.pkg k 6 0 [])).map fun f => ⟨8, s.now + fabricToArith 12, f⟩ := by
  let u : State := { s with accs := [] }
  let r := answer s.dev.pkg k 3 0 a.result
  let n := s.portTo p k.srcPkg
  have hans : remoteAnswer s.dev.pkg k a = r := if_pos ⟨hst, hread⟩
  have hmode : ((u.noting k r).port n).mode = 1 := hm
  have hmode' : (((u.noting k r).modPort n (Port.sendAt s.now r)).port n).mode = 1 := by rw [State.port_modPort_self]; exact hmode
  have hstep : exec (.homeBeatApply k) s = .next (((u.noting k r).modPort n (Port.sendAt s.now r)).modPort n (Port.sendAt s.now (answer s.dev.pkg k 6 0 []))) := by
    rw [homeBeat_done hp heng (State.beatAcc_only hs hsrc) hdone, State.dropAcc_only hs, hans, State.beatAnswer_data (s := u) rfl rfl hm]
    exact congrArg _ ((congrArg (fun t => State.sendPacket t n _) (State.sendPacket_up hmode r)).trans (State.sendPacket_up hmode' _))
  refine ⟨_, hstep, rfl, rfl, ?_⟩
  rw [State.port_modPort_self, State.port_modPort_self]
  simp only [Port.sendAt, Port.queueFlits, List.append_assoc, List.map_append]
  rfl

/-- One that reads nothing, or has failed, with its acknowledgement. -/
theorem homeBeat_acked (h : a.status ≠ 0 ∨ a.kind.reads = false) :
    ∃ t, Sends (.homeBeatApply k) s (s.portTo p k.srcPkg) (answer s.dev.pkg k 6 a.status []) t ∧ t.accs = [] ∧ t.mem = s.mem := by
  let u : State := { s with accs := [] }
  have hans : remoteAnswer s.dev.pkg k a = answer s.dev.pkg k 6 a.status [] := if_neg fun hh => h.elim (· hh.1) fun hr => by simp [hr] at hh
  have hstep : exec (.homeBeatApply k) s = .next ((u.noting k (answer s.dev.pkg k 6 a.status [])).sendPacket (s.portTo p k.srcPkg) (answer s.dev.pkg k 6 a.status [])) := by
    rw [homeBeat_done hp heng (State.beatAcc_only hs hsrc) hdone, State.dropAcc_only hs, hans, State.beatAnswer_ack op_ack_ne rfl]
    rfl
  refine ⟨_, sends_sendPacket hstep rfl rfl hm, ?_, State.sendPacket_mem _ _ _⟩
  rw [State.sendPacket_ports (s := u.noting k _) hm]
  rfl
end
end

/-- The source of a migration sends a beat on, and counts it. -/
theorem beatForward_forwards {s : State} {k : Packet} {p : Part} (hp : s.part k.dstPart = some p) (hrole : p.migr.role = 1)
    (hphase : p.migr.phase = 4 ∨ p.migr.phase = 5) (hm : (s.port p.migr.port).mode = 1) :
    ∃ t, Sends (.beatForward k) s p.migr.port { k with dstPkg := p.migr.peerPkg, dstPart := p.migr.peerPart } t ∧
      t.part k.dstPart = some { p with migr := { p.migr with n1 := p.migr.n1 + 1 } } := by
  have hgate : p.gate k.ia = 2 := by
    unfold Part.gate
    rw [if_neg (by omega), if_pos (by omega)]
  let u := s.setPart k.dstPart { p with migr := { p.migr with n1 := p.migr.n1 + 1 } }
  have hstep : exec (.beatForward k) s = .next (u.sendPacket p.migr.port { k with dstPkg := p.migr.peerPkg, dstPart := p.migr.peerPart }) := by
    rw [exec_beatForward, execBeatForward, hp]
    simp only [if_pos hgate]
    rfl
  refine ⟨_, sends_sendPacket hstep rfl rfl hm, ?_⟩
  rw [State.sendPacket_ports (s := u) hm]
  exact State.part_setPart_self s _ _

end Sys2Proof.Machine
end

-- ==== Sys2Proof/Proofs/BeatReplies.lean ====

section
/-! PROOF. A beat that a fabric copy engine has sent (15 R384, R385; 23 R457, R458): its answer ends it, an answer HOLD or none has it sent again, and an
answer MOVED sends it to the new place. -/

namespace Sys2Proof.Machine

/-- No access waits for an engine. -/
theorem State.enginesFree_none {t : State} (h : ∀ a ∈ t.accs, a.state ≠ 9) (die : Nat) : t.enginesFree die = t := by
  have hnone : (t.accs.filter fun a => decide (a.state = 9) && decide (a.die = die)) = [] := by
    rw [List.filter_eq_nil_iff]
    intro a ha
    simp [h a ha]
  rw [State.enginesFree, hnone]
  rfl

section
variable {s : State} {e : Nat} {b : Beat} (hb : (s.engine e).beats = [b])
include hb

/-! ## The only beat of an engine -/

theorem State.beatOf_only : s.beatOf e b.pkt.seq = some b := by simp [State.beatOf, hb]

/-- An engine that holds a beat is listed. -/
theorem State.find_engine : KMap.find e s.engines = some (s.engine e) := by
  unfold State.engine KMap.get at hb ⊢
  cases h : KMap.find e s.engines with
  | none => simp [h] at hb
  | some g => rfl

/-- The engine after its beats have changed; nothing else changes. -/
theorem State.engine_upd {t : State} (f : Engine → Engine) (ht : t.engines = KMap.upd e f s.engines) : t.engine e = f (s.engine e) := by
  rw [State.engine, ht, KMap.get, KMap.find_upd, if_pos rfl, State.find_engine hb]
  rfl

theorem State.modBeat_only (f : Beat → Beat) : ∃ t, s.modBeat e b.pkt.seq f = t ∧ t = { s with engines := t.engines } ∧
    t.engine e = { s.engine e with beats := [f b] } := by
  refine ⟨_, rfl, rfl, ?_⟩
  rw [State.engine_upd hb _ rfl, hb]
  simp [updFirst]

theorem State.dropBeat_only (h : ∀ a ∈ s.accs, a.state ≠ 9) : ∃ t, s.dropBeat e b.pkt.seq = t ∧ t = { s with engines := t.engines } ∧ (t.engine e).beats = [] := by
  let u : State := { s with engines := KMap.upd e (fun (g : Engine) => { g with beats := dropFirst (fun x => decide (x.pkt.seq = b.pkt.seq)) g.beats }) s.engines }
  refine ⟨u, State.enginesFree_none (t := u) h _, rfl, ?_⟩
  rw [State.engine_upd hb _ rfl, hb]
  simp [dropFirst]
end

/-! ## Answers -/

/-- The access of a beat that ends with a status and the bytes of its answer. -/
def Acc.landed (a : Acc) (now status : Nat) (data : List Byte) : Acc :=
  { a with
    state := 3, status := status,
    ready := if status = 0 ∨ status = 7 then now + fabricToArith a.routerHops else max (now + fabricToArith a.routerHops) (a.sentAt + 96),
    result := if a.kind.reads then (data ++ List.replicate a.n 0).take a.n else [] }

section
variable {s : State} {e : Nat} {b : Beat} {k : Packet} {a : Acc} (hb : (s.engine e).beats = [b]) (hs : s.accs = [a]) (hid : a.id = b.acc)

section
include hs hid

theorem State.beatLands_only (hst : a.state = 5) (status : Nat) (data : List Byte) : s.beatLands b status data = { s with accs := [a.landed s.now status data] } := by
  rw [State.beatLands, State.modAcc_only hs hid, if_neg (not_not.mpr hst)]
  rfl

/-- An access that has ended stays as it is. -/
theorem State.beatLands_ended (hst : a.state ≠ 5) (status : Nat) (data : List Byte) : s.beatLands b status data = s := by
  rw [State.beatLands, State.modAcc_only hs hid, if_pos hst, ← hs]

theorem State.dataDue_only : s.dataDue b = (decide (a.state = 5) && a.kind.reads) := by rw [State.dataDue, State.acc_only hs hid, Option.any_some]

include hb

/-- A beat ends, and its access with it. -/
theorem State.beatDone_only (hbe : b.pkt.engine = e) (hst : a.state = 5) (status : Nat) (data : List Byte) : ∃ t, s.beatDone b status data = t ∧
    t = { s with accs := t.accs, engines := t.engines } ∧ (t.engine e).beats = [] ∧ t.accs = [a.landed s.now status data] := by
  let u : State := { s with accs := [a.landed s.now status data] }
  have hstates : ∀ x ∈ u.accs, x.state ≠ 9 := fun x hx => by
    rw [List.mem_singleton.mp hx]
    exact fun h : (3 : Nat) = 9 => absurd h (by decide)
  obtain ⟨t, ht, honly, hempty⟩ := State.dropBeat_only (s := u) hb hstates
  refine ⟨t, ?_, ?_, hempty, ?_⟩
  · rw [State.beatDone, State.beatLands_only hs hid hst, hbe, ht]
  · rw [honly]
  · rw [honly]
end

section
variable (hbe : b.pkt.engine = e) (hop : b.pkt.op ≠ 10) (hke : k.engine = e) (he : e ≠ 0xFFFF) (hseq : k.seq = b.pkt.seq)
include hb hop hke he hseq

/-- What an answer to the engine's beat does. -/
theorem beatAck_answers : exec (.beatAck k) s = .next (
    if k.op = 6 ∧ k.status = stHold then s.modBeat e b.pkt.seq fun b => { b with hold := true, at_ := s.now }
    else if k.op = 3 then s.beatLands b k.status k.data
    else if k.status = 0 ∧ s.dataDue b then s
    else s.beatDone b k.status k.data) := by
  have hnotice : ¬(k.op = 6 ∧ k.engine = noticeEngine) := fun h => he (hke.symm.trans h.2)
  rw [exec_beatAck, execBeatAck, if_neg hnotice, hke, hseq, State.beatOf_only hb]
  simp only [if_neg hop]

/-- HOLD: the beat is kept, to be sent again. -/
theorem beatAck_hold (h6 : k.op = 6) (hst : k.status = 10) : ∃ t, exec (.beatAck k) s = .next t ∧ t = { s with engines := t.engines } ∧
    t.engine e = { s.engine e with beats := [{ b with hold := true, at_ := s.now }] } := by
  obtain ⟨t, ht, honly, hengine⟩ := State.modBeat_only hb fun b => { b with hold := true, at_ := s.now }
  refine ⟨t, ?_, honly, hengine⟩
  rw [beatAck_answers hb hop hke he hseq, if_pos ⟨h6, hst⟩, ht]

include hs hid

/-- An acknowledgement that follows no data ends the beat and its access. -/
theorem beatAck_ends (hbe : b.pkt.engine = e) (h6 : k.op = 6) (hhold : k.status ≠ 10) (hst : a.state = 5) (h : k.status ≠ 0 ∨ a.kind.reads = false) :
    ∃ t, exec (.beatAck k) s = .next t ∧ t = { s with accs := t.accs, engines := t.engines } ∧ (t.engine e).beats = [] ∧ t.accs = [a.landed s.now k.status k.data] := by
  have hdue : ¬(k.status = 0 ∧ s.dataDue b = true) := by
    rw [State.dataDue_only hs hid]
    rintro ⟨h0, hdue⟩
    exact h.elim (· h0) fun hr => by simp [hr] at hdue
  obtain ⟨t, ht, hrest⟩ := State.beatDone_only hb hs hid hbe hst k.status k.data
  refine ⟨t, ?_, hrest⟩
  rw [beatAck_answers hb hop hke he hseq, if_neg (fun h => hhold h.2), if_neg (by omega), if_neg hdue, ht]

/-- One that is to follow read data waits for it. -/
theorem beatAck_early (h6 : k.op = 6) (h0 : k.status = 0) (hread : a.kind.reads = true) (hst : a.state = 5) : exec (.beatAck k) s = .next s := by
  have hdue : s.dataDue b = true := by rw [State.dataDue_only hs hid, hread, hst]; rfl
  rw [beatAck_answers hb hop hke he hseq, if_neg (fun h => absurd (h0.symm.trans h.2) (by decide)), if_neg (by omega), if_pos ⟨h0, hdue⟩]

/-- After the data it ends the beat alone. -/
theorem beatAck_afterData (hbe : b.pkt.engine = e) (h6 : k.op = 6) (h0 : k.status = 0) (hst : a.state = 3) : ∃ t, exec (.beatAck k) s = .next t ∧
    t = { s with engines := t.engines } ∧ (t.engine e).beats = [] := by
  have hdue : ¬(k.status = 0 ∧ s.dataDue b = true) := by
    rw [State.dataDue_only hs hid, hst]
    simp
  have hstates : ∀ x ∈ s.accs, x.state ≠ 9 := fun x hx => by
    rw [hs] at hx
    rw [List.mem_singleton.mp hx, hst]
    decide
  obtain ⟨t, ht, hrest⟩ := State.dropBeat_only hb hstates
  refine ⟨t, ?_, hrest⟩
  rw [beatAck_answers hb hop hke he hseq, if_neg (fun h => absurd (h0.symm.trans h.2) (by decide)), if_neg (by omega), if_neg hdue, State.beatDone,
    State.beatLands_ended hs hid (by omega), hbe, ht]

/-- Read data ends the access. -/
theorem beatAck_data (h3 : k.op = 3) (hst : a.state = 5) : exec (.beatAck k) s = .next { s with accs := [a.landed s.now k.status k.data] } := by
  rw [beatAck_answers hb hop hke he hseq, if_neg (by omega), if_pos h3, State.beatLands_only hs hid hst]
end
end

/-! ## Sent again (15 R385; 23 R457) -/

/-- The port by which a beat is sent again, none where every route has failed. -/
def State.beatRoute (s : State) (b : Beat) : Option Nat :=
  match s.part b.pkt.srcPart with
  | none => if (s.port b.port).linkState = 3 then none else some b.port
  | some p => s.portFor p b.port b.pkt.dstPkg

theorem State.beatRoute_up {s : State} {b : Beat} (h : (s.port b.port).linkState ≠ 3) : s.beatRoute b = some b.port := by
  unfold State.beatRoute
  cases s.part b.pkt.srcPart with
  | none => exact if_neg h
  | some p => exact List.find?_cons_of_pos (by simpa using h)

theorem State.beatRoute_down {s : State} {b : Beat} {p : Part} (hp : s.part b.pkt.srcPart = some p) (h : s.portFor p b.port b.pkt.dstPkg = none) : s.beatRoute b = none := by
  rw [State.beatRoute, hp]
  exact h

/-- The only beat of an engine, sent again by a scale-up port from a state that agrees on the ports and on the cycle. -/
theorem State.sendAgain_only {i : Instr} {s u : State} {e : Nat} {b c : Beat} (hb : (u.engine e).beats = [b]) (hpkt : c.pkt.seq = b.pkt.seq)
    (hports : u.ports = s.ports) (hnow : u.now = s.now) (hm : (s.port c.port).mode = 1) (hi : exec i s = .next (u.sendAgain e c)) :
    ∃ t, Sends i s c.port c.pkt t ∧ t = { u with engines := t.engines, ports := t.ports } ∧ t.engine e = { u.engine e with beats := [c] } := by
  obtain ⟨v, hv, honly, hengine⟩ := State.modBeat_only hb fun _ => c
  have hport : v.port c.port = s.port c.port := congrArg (fun m => KMap.get Port.init m c.port) (by rw [honly, ← hports])
  have hsend : u.sendAgain e c = v.modPort c.port (Port.sendAt s.now c.pkt) := by
    rw [State.sendAgain, hpkt, hv, hnow]
    exact if_pos (hport ▸ hm)
  rw [hsend] at hi
  refine ⟨_, ⟨hi, ?_⟩, ?_, hengine⟩
  · rw [State.port_modPort_self, hport]
    rfl
  · rw [State.modPort, honly]

/-- What becomes of a beat that is not sent again: a hello fails the migration, a pull leaves its page poisoned, another ends with REMOTE_DOWN. -/
def State.beatGivenUp (s : State) (e : Nat) (b : Beat) : State :=
  if b.pkt.op = 10 then (s.dropBeat e b.pkt.seq).migFail b.pkt.srcPart mgLink false
  else if 256 ≤ e then
    let g := b.pkt.ia / 0x10000
    let s1 := s.dropBeat e b.pkt.seq
    let lines := (List.range 1024).map fun i => g * 1024 + i
    lines.foldl (fun t x => t.logPoison (64 * x) (64 * x)) { s1 with poison := s1.poison.filter (fun x => decide (x / 1024 ≠ g)) ++ lines, inbox := s1.inbox ++ [.pagePresent b.pkt.srcPart g] }
  else s.beatDone b stRemoteDown []

section
variable {s : State} {e : Nat} {b : Beat} (hb : (s.engine e).beats = [b])
include hb

/-- What the timeout does with the engine's beat. -/
theorem beatResend_only : exec (.beatResendTimeout e b.pkt.seq) s = .next (
    if b.hold ∨ !((s.beatRoute b).isNone || decide (b.at_ + resendCycles ≤ s.now)) then s
    else if !(s.beatRoute b).isNone && decide (b.tries < 8) then
      s.sendAgain e { s.beatBy b ((s.beatRoute b).getD b.port) with tries := b.tries + 1, at_ := s.now }
    else s.beatGivenUp e b) := by
  rw [exec_beatResendTimeout, execBeatResendTimeout, State.beatOf_only hb]
  rfl

/-- A beat that is due and whose resends are not used up. -/
theorem beatResend_again (hhold : b.hold = false) (hm : (s.port b.port).mode = 1) (hup : (s.port b.port).linkState ≠ 3) (hdue : b.at_ + resendCycles ≤ s.now)
    (htries : b.tries < 8) : ∃ t, Sends (.beatResendTimeout e b.pkt.seq) s b.port b.pkt t ∧ t = { s with engines := t.engines, ports := t.ports } ∧
      t.engine e = { s.engine e with beats := [{ b with tries := b.tries + 1, at_ := s.now }] } := by
  refine State.sendAgain_only (u := s) (c := { b with tries := b.tries + 1, at_ := s.now }) hb rfl rfl rfl hm ?_
  rw [beatResend_only hb, State.beatRoute_up hup]
  simp only [hhold, hdue, htries, Option.isNone_some, Bool.not_false, Bool.false_or, decide_true, Bool.not_true, Bool.false_eq_true, or_self, if_false, Bool.true_and,
    if_true, Option.getD_some, State.beatBy]

/-- One that is not due stands. -/
theorem beatResend_early (hup : (s.port b.port).linkState ≠ 3) (hnow : s.now < b.at_ + resendCycles) :
    exec (.beatResendTimeout e b.pkt.seq) s = .next s := by
  rw [beatResend_only hb, State.beatRoute_up hup, if_pos]
  simp only [Nat.not_le.mpr hnow, Option.isNone_some, Bool.false_or, decide_false, Bool.not_false, or_true]

/-- One answered HOLD is sent again, and this does not count. -/
theorem holdResend_again (hhold : b.hold = true) (hm : (s.port b.port).mode = 1) (hdue : b.at_ + resendCycles ≤ s.now) :
    ∃ t, Sends (.holdResend e b.pkt.seq) s b.port b.pkt t ∧ t = { s with engines := t.engines, ports := t.ports } ∧
      t.engine e = { s.engine e with beats := [{ b with hold := false, at_ := s.now }] } := by
  refine State.sendAgain_only (u := s) (c := { b with hold := false, at_ := s.now }) hb rfl rfl rfl hm ?_
  rw [exec_holdResend, execHoldResend, State.beatOf_only hb]
  simp only [hhold, hdue, and_self, if_true]

/-- After 8 resends, or once every route has failed, it ends with REMOTE_DOWN. -/
theorem beatResend_down (hhold : b.hold = false) (hop : b.pkt.op ≠ 10) (he : e < 256)
    (hdown : (b.at_ + resendCycles ≤ s.now ∧ 8 ≤ b.tries) ∨ ∃ p, s.part b.pkt.srcPart = some p ∧ s.portFor p b.port b.pkt.dstPkg = none) :
    exec (.beatResendTimeout e b.pkt.seq) s = .next (s.beatDone b stRemoteDown []) := by
  have hlate : ((s.beatRoute b).isNone || decide (b.at_ + resendCycles ≤ s.now)) = true := by
    rcases hdown with ⟨hdue, -⟩ | ⟨p, hp, hnone⟩
    · simp only [hdue, decide_true, Bool.or_true]
    · simp only [State.beatRoute_down hp hnone, Option.isNone_none, Bool.true_or]
  have hend : (!(s.beatRoute b).isNone && decide (b.tries < 8)) = false := by
    rcases hdown with ⟨-, htries⟩ | ⟨p, hp, hnone⟩
    · simp only [Nat.not_lt.mpr htries, decide_false, Bool.and_false]
    · simp only [State.beatRoute_down hp hnone, Option.isNone_none, Bool.not_true, Bool.false_and]
  rw [beatResend_only hb, hlate, hend, State.beatGivenUp, if_neg hop, if_neg (Nat.not_le.mpr he), hhold]
  rfl
end

/-! ## Moved (23 R458) -/

/-- The first word of a PEER entry with another package and partition. -/
theorem peerWord_moved (v : Dword) {w : Nat} {pkg part : Nat} (hpkg : pkg < 2 ^ 16) (hpart : part < 2 ^ 5)
    (hw : w = v.toNat - bits v 32 16 * 2 ^ 32 - bits v 53 5 * 2 ^ 53 + pkg % 2 ^ 16 * 2 ^ 32 + part % 32 * 2 ^ 53) :
    bits (BitVec.ofNat 64 w) 32 16 = pkg ∧ bits (BitVec.ofNat 64 w) 53 5 = part ∧ bits (BitVec.ofNat 64 w) 28 4 = bits v 28 4 := by
  have hv := v.isLt
  subst hw
  simp only [bits, BitVec.toNat_ofNat]
  omega

section
variable {p : Part} {w pkg part : Nat}

/-- The entry that routed the beat names the new place; the others stand. -/
theorem Part.peerWord_repeer_self (hpkg : pkg < 2 ^ 16) (hpart : part < 2 ^ 5) : bits ((p.repeer w pkg part).peerWord w 0) 32 16 = pkg ∧
    bits ((p.repeer w pkg part).peerWord w 0) 53 5 = part := by
  obtain ⟨h1, h2, -⟩ := peerWord_moved (p.peerWord w 0) hpkg hpart rfl
  have hself : (p.repeer w pkg part).peerWord w 0 = BitVec.ofNat 64 ((p.peerWord w 0).toNat - bits (p.peerWord w 0) 32 16 * 2 ^ 32 - bits (p.peerWord w 0) 53 5 * 2 ^ 53
      + pkg % 2 ^ 16 * 2 ^ 32 + part % 32 * 2 ^ 53) := KMap.get_ins_self ..
  rw [hself]
  exact ⟨h1, h2⟩

theorem Part.peerWord_repeer_other {v j : Nat} (h : 2 * v + j ≠ 2 * w) : (p.repeer w pkg part).peerWord v j = p.peerWord v j := KMap.get_ins_other h _ _ _
end

/-- The beat goes to the new place by the port of the PEER entry that routed it. -/
theorem movedAck_moves {s : State} {k : Packet} {b : Beat} {a : Acc} {p : Part} (hop : k.op ≠ 8) (hb : (s.engine k.engine).beats = [b]) (hseq : b.pkt.seq = k.seq)
    (hs : s.accs = [a]) (hid : a.id = b.acc) (hp : s.part a.part = some p) (hw : 0 < iaWindow a.ia) (hm : ∀ n < 16, (s.port n).mode = 1)
    {pkg part : Nat} (hpkg : pkg = k.ia % 2 ^ 16) (hpart : part = k.ia / 2 ^ 16 % 32) :
    ∃ t, Sends (.movedAck k) s (bits ((p.repeer (iaWindow a.ia) pkg part).peerWord (iaWindow a.ia) 0) 28 4) { b.pkt with dstPkg := pkg, dstPart := part } t ∧
      t.part a.part = some (p.repeer (iaWindow a.ia) pkg part) := by
  let w := iaWindow a.ia
  let u := s.modPart a.part fun p => p.repeer w pkg part
  let n := bits ((p.repeer w pkg part).peerWord w 0) 28 4
  have hu : u.part a.part = some (p.repeer w pkg part) := by rw [State.part_modPart_self, hp]; rfl
  let c : Beat := { b with
    pkt := { b.pkt with dstPkg := pkg, dstPart := part }, at_ := s.now, hold := false, port := n, addr := u.windowAddr (p.repeer w pkg part) a.ia n pkg }
  have hstep : exec (.movedAck k) s = .next (u.sendAgain k.engine c) := by
    rw [exec_movedAck, execMovedAck, if_neg hop, ← hseq, State.beatOf_only hb]
    simp only [State.acc_only hs hid, if_neg (Nat.ne_of_gt hw), ← hpkg, ← hpart]
    rw [show s.modPart a.part (fun p => p.repeer (iaWindow a.ia) pkg part) = u from rfl, hu]
    rfl
  obtain ⟨t, hsends, honly, -⟩ := State.sendAgain_only (s := s) (u := u) (c := c) hb rfl rfl rfl (hm n (bits_lt _ _ _)) hstep
  refine ⟨t, hsends, ?_⟩
  rw [honly]
  exact hu

end Sys2Proof.Machine
end

-- ==== Sys2Proof/Proofs/TokenPackets.lean ====

section
/-! PROOF. Token packets (15 R390): a request and a withdrawal at the home, the answer at the context, and the request made again. -/

namespace Sys2Proof.Machine

/-! ## Reading back what the part has written -/

theorem bytesRead_of_bytes {m : KMap Byte} {l : List Byte} {a : Nat} (h : ∀ i < l.length, cmByte m (a + i) = l.getD i 0) : bytesRead m a l.length = l := by
  induction l generalizing a with
  | nil => rfl
  | cons b l ih =>
    have htail : ∀ i < l.length, cmByte m (a + 1 + i) = l.getD i 0 := fun i hi => by
      rw [Nat.add_assoc, Nat.add_comm 1 i, h (i + 1) (Nat.succ_lt_succ hi), List.getD_cons_succ]
    rw [List.length_cons, bytesRead, ih htail, show cmByte m a = b from h 0 (Nat.succ_pos _)]

/-- With an empty cache the part writes HBM4 itself. -/
theorem State.memWrite_uncached {s : State} (h : s.cache = []) (a : Nat) (l : List Byte) :
    (s.memWrite a l).mem = Memory.write s.mem a l ∧ (s.memWrite a l).cache = [] := by
  simp [State.memWrite, State.memChange, State.writeBack, h]

/-- The bytes of an entry from its package up: package, partition, the mark that it is held, rank. -/
def TokCtx.holder (c : TokCtx) : List Byte := toBytes 2 (c.launch / 2 ^ 48) ++ toBytes 1 c.part ++ toBytes 1 1 ++ toBytes 1 c.rank

/-- The entry names the context as its holder: bytes 8 to 23, and no others, change (15 R389). -/
theorem State.tokSet_bytes {s : State} (hcache : s.cache = []) (e : TokEntry) (c : TokCtx) {m : List Host.Cell} (hm : m = (s.tokSet e (some c)).mem) :
    Memory.byte m (e.addr + 11) = 1 ∧ Memory.read m (e.addr + 16) 8 = toBytes 8 c.launch ∧
      ∀ x, x < e.addr + 8 ∨ e.addr + 24 ≤ x → Memory.byte m x = Memory.byte s.mem x := by
  obtain ⟨hmem1, hcache1⟩ := State.memWrite_uncached hcache (e.addr + 8) c.holder
  obtain ⟨hmem2, -⟩ := State.memWrite_uncached hcache1 (e.addr + 16) (toBytes 8 c.launch)
  have hmem : m = Memory.write (Memory.write s.mem (e.addr + 8) c.holder) (e.addr + 16) (toBytes 8 c.launch) := by rw [hm, ← hmem1, ← hmem2]; rfl
  have hlen : c.holder.length = 5 := by simp [TokCtx.holder]
  subst hmem
  refine ⟨?_, ?_, fun x hx => ?_⟩
  · rw [memory_byte_write, if_neg (by omega), memory_byte_write, if_pos (by omega), show e.addr + 11 - (e.addr + 8) = 3 from by omega]
    rfl
  · have h8 : (toBytes 8 c.launch).length = 8 := toBytes_length _ _
    refine (congrArg _ h8.symm).trans (bytesRead_of_bytes fun i hi => ?_)
    refine (memory_byte_write _ _ _ _).trans ?_
    rw [if_pos (by omega), Nat.add_sub_cancel_left]
  · rw [memory_byte_write, if_neg (by rw [toBytes_length]; omega), memory_byte_write, if_neg (by omega)]

/-! ## At the home -/

/-- No page is absent at a partition that is not the destination of a migration. -/
theorem Part.tokAbsent_home {p : Part} (h : p.migr.role = 0) (r : Nat) : p.tokAbsent r = none := by
  unfold Part.tokAbsent
  dsimp only
  split
  · rfl
  · rw [List.find?_eq_none]
    intro a _
    simp [Part.absent, h]

/-- The context that a token packet speaks for. -/
def Packet.tokCtx (k : Packet) : TokCtx := ⟨k.srcPkg, k.srcPart, k.rank, k.launch⟩

/-- The answer to a token packet. -/
def Packet.tokAnswer (k : Packet) (own status : Nat) : Packet :=
  { tokReply own k.dstPart (k.ia / 2 ^ 21) ⟨k.srcPkg, k.launch, k.rank, k.srcPart, k.ia / 2 ^ 21, k.engine⟩ status with ia := k.ia }

section
variable {k : Packet} {p : Part} {s : State} (hp : s.part k.dstPart = some p) (hrole : p.migr.role = 0) (hmoved : p.moved = none)
include hp hrole hmoved

/-- A request that its home answers at once. -/
theorem tokenRequest_answered (hseq : k.seq = 0) {ans : TokAnswer} {u : State} {status : Nat} (hask : s.tokAsk k.dstPart (k.ia / 2 ^ 21) (Packet.tokCtx k) k.engine = (ans, u))
    (hreply : ans.reply = some status) (hheard : u.heard = s.heard) (hdev : u.dev = s.dev) :
    exec (.tokenRequest k) s = .next (u.sendPacket (s.portTo p k.srcPkg) (Packet.tokAnswer k s.dev.pkg status)) := by
  have habs : ¬(0 ≤ 1 ∧ (p.tokAbsent (k.ia / 2 ^ 21)).isSome = true) := by
    rw [Part.tokAbsent_home hrole]
    exact fun h => absurd h.2 (by decide)
  unfold Packet.tokCtx at hask
  rw [exec_tokenRequest, execTokenRequest, hp]
  simp only [Part.gate_here hrole hmoved, hseq, if_neg habs, hask, hreply]
  rw [State.sendTo, State.portTo_congr hheard, hdev]
  rfl

/-- A withdrawal takes the waiting request away. -/
theorem tokenRequest_withdrawn (hseq : k.seq = 2) {w : TokWait} (hwait : p.tokWait = [w]) (hr : w.region = k.ia / 2 ^ 21) (hpkg : w.pkg = k.srcPkg)
    (hlaunch : w.launch = k.launch) (hrank : w.rank = k.rank) :
    ∃ t, exec (.tokenRequest k) s = .next t ∧ t.part k.dstPart = some { p with tokWait := [] } ∧ t = { s with parts := t.parts } := by
  refine ⟨s.tokWithdraw k.dstPart (k.ia / 2 ^ 21) (Packet.tokCtx k), ?_, ?_, rfl⟩
  · rw [exec_tokenRequest, execTokenRequest, hp]
    have habs : ¬(2 ≤ 1 ∧ (p.tokAbsent (k.ia / 2 ^ 21)).isSome = true) := fun h => absurd h.1 (by decide)
    simp only [Part.gate_here hrole hmoved, hseq, if_neg habs]
    rfl
  · rw [State.tokWithdraw, State.part_modPart_self, hp, Option.map_some, hwait]
    simp [dropFirst, hr, hpkg, hlaunch, hrank, Packet.tokCtx]

variable (hm : (s.port (s.portTo p k.srcPkg)).mode = 1)
include hm

/-- Without a token table the region is unchecked. -/
theorem tokenRequest_unchecked (hseq : k.seq = 0) (htab : bits p.toktab 63 1 = 0) : ∃ t, Sends (.tokenRequest k) s (s.portTo p k.srcPkg) (Packet.tokAnswer k s.dev.pkg 1) t ∧
    t.mem = s.mem := by
  have hask : s.tokAsk k.dstPart (k.ia / 2 ^ 21) (Packet.tokCtx k) k.engine = (.unchecked, s) := by
    have hentry : s.tokEntry p (k.ia / 2 ^ 21) = none := if_pos (.inl htab)
    simp only [State.tokAsk, hp, Part.tokAbsent_home hrole, hentry]
  exact ⟨_, sends_sendPacket (tokenRequest_answered hp hrole hmoved hseq hask rfl rfl rfl) rfl rfl hm, State.sendPacket_mem _ _ _⟩

/-- A region that no one holds is granted: the entry names the context. -/
theorem tokenRequest_granted {e : TokEntry} (hseq : k.seq = 0) (he : s.tokEntry p (k.ia / 2 ^ 21) = some e) (hheld : e.held = false) :
    ∃ t, Sends (.tokenRequest k) s (s.portTo p k.srcPkg) (Packet.tokAnswer k s.dev.pkg 0) t ∧ t.mem = (s.tokSet e (some (Packet.tokCtx k))).mem :=
  ⟨_, sends_sendPacket (tokenRequest_answered hp hrole hmoved hseq (State.tokAsk_home hp (Part.tokAbsent_home hrole _) he hheld) rfl rfl rfl) rfl rfl hm,
    State.sendPacket_mem _ _ _⟩
end

/-! ## At the context -/

/-- What a context of a launch's rank notes of an answer. -/
theorem State.ctx_tokHeard {s : State} {j : Nat} {d : Ctx} (hd : s.ctx j = some d) (launch rank r v : Nat) :
    (s.tokHeard launch rank r v).ctx j = some (if d.launch = launch ∧ d.rank = rank then { d with tokens := KMap.ins r v d.tokens } else d) := by
  have hsp : (s.sp j).ctx = some d := hd
  have hf : KMap.find j s.sps = some (s.sp j) := State.find_sps fun h => by rw [h] at hsp; exact absurd hsp (by simp [Sp.init])
  have hmap := KMap.find_mapValues (fun _ (q : Sp) => { q with
    ctx := q.ctx.map fun c => if c.launch = launch ∧ c.rank = rank then { c with tokens := KMap.ins r v c.tokens } else c,
    victims := q.victims.map fun v0 => if v0.ctx.launch = launch ∧ v0.ctx.rank = rank then { v0 with ctx := { v0.ctx with tokens := KMap.ins r v v0.ctx.tokens } } else v0 })
    j s.sps
  rw [hf] at hmap
  unfold State.tokHeard State.ctx State.sp KMap.get
  simp only [hmap, Option.map_some, Option.getD_some, hsp]

/-- The context notes that it holds the token, or that the region is unchecked. -/
theorem tokenReply_noted {k : Packet} {sp r : Nat} {c : Ctx} {p : Part} {s : State} (hp : s.part k.dstPart = some p) (hc : s.ctxOfRank k.launch k.rank = some (sp, c))
    (hr : p.regionAt k.srcPkg k.srcPart k.ia (c.tokens.map (·.1)) = some r) (hst : k.status = 0 ∨ k.status = 1) :
    exec (.tokenReply k) s = .next (s.tokHeard k.launch k.rank r (k.status + 1)) := by
  have hmoved : k.status ≠ stMoved := by rintro h; rw [h] at hst; exact absurd hst (by decide)
  rw [exec_tokenReply, execTokenReply, if_neg hmoved, hp, hc]
  simp only [hr]
  rcases hst with h | h <;> simp only [h] <;> rfl

section
variable {k r v : Nat} {c : Ctx} {s : State} (hc : s.ctx k = some c) (ht : c.tokens = [(r, v)])
include hc ht

/-- A request that has not been refused is not made again. -/
theorem tokenRetry_none (hv : v < 16) : exec (.tokenRetry k) s = .next s := by
  rw [exec_tokenRetry, execTokenRetry, State.withCtx_of_ctx hc, ht]
  simp [Nat.not_le.mpr hv]

/-- A refused one is made again, and finds the region unchecked. -/
theorem tokenRetry_unchecked {p : Part} (hv : 16 ≤ v) (hdue : v - 16 + fabricToArith 0x1000 ≤ s.now) (hwin : iaWindow (r * 2 ^ 21) = 0) (hp : s.part (s.partOf c) = some p)
    (htab : bits p.toktab 63 1 = 0) : CtxStep (.tokenRetry k) s k { c with tokens := [(r, 2)] } := by
  let forget : Ctx → Ctx := fun c => { c with tokens := KMap.del r c.tokens }
  let u := s.modCtx k forget
  have hwith := withSp_modCtx hc forget
  have hu : u.ctx k = some (forget c) := congrArg Sp.ctx hwith.sp_self
  have hempty : (forget c).tokens = [] := by simp [forget, ht, KMap.del]
  have hask : u.tokAsk (u.partOf (forget c)) (r * 2 ^ 21 / 2 ^ 21) (u.tokName (forget c)) k = (.unchecked, u) := by
    have hpart : u.part (u.partOf (forget c)) = some p := by simpa [u, State.part, State.partOf, State.launchOf, forget] using hp
    have habs : p.tokAbsent (r * 2 ^ 21 / 2 ^ 21) = none := if_pos (.inl htab)
    have hentry : u.tokEntry p (r * 2 ^ 21 / 2 ^ 21) = none := if_pos (.inl htab)
    simp only [State.tokAsk, hpart, habs, hentry]
  have hstep : exec (.tokenRetry k) s = .next (u.modCtx k fun c => c.noted r 2) := by
    rw [exec_tokenRetry, execTokenRetry, State.withCtx_of_ctx hc, ht]
    simp only [List.filter_cons, hv, hdue, decide_true, Bool.and_self, if_true, List.filter_nil, List.foldl_cons, List.foldl_nil]
    refine congrArg _ ((State.tokWant_asks hu (by rw [hempty]; rfl) hwin hask).trans ?_)
    rw [Nat.mul_div_cancel _ (by decide)]
    rfl
  refine ⟨_, hstep, (hwith.modCtx rfl _).congr ?_⟩
  simp only [Ctx.noted, hempty]
  rfl
end

end Sys2Proof.Machine

/-! ## The obligation -/

namespace Sys2Proof
open Machine

/-- Settles O56: a rule for each step of a remote beat or token. -/
theorem beatAndTokenSteps : Obligations.BeatAndTokenSteps := by
  unfold Obligations.BeatAndTokenSteps
  refine ⟨fun k s hp hm => homeBeat_noPart hp hm, fun k p s hp hrole hmoved heng hm => ⟨fun r hs hr hop hdst => homeBeat_again hp heng hm hrole hmoved hs hr hop hdst,
      fun hs hnew hread => ⟨homeBeat_refused hp heng hm hrole hmoved hs hnew hread, homeBeat_enters hp heng hrole hmoved hs hnew hread⟩,
      fun a hs hsrc hdone => ⟨homeBeat_data hp heng hm hs hsrc hdone, homeBeat_acked hp heng hm hs hsrc hdone⟩⟩,
    fun k e b s hb hbe hop => ⟨fun a hke he hseq hs hid => ⟨fun h6 hhold hst h => beatAck_ends hb hs hid hop hke he hseq hbe h6 hhold hst h,
        fun h6 h0 hread => ⟨beatAck_early hb hs hid hop hke he hseq h6 h0 hread, beatAck_afterData hb hs hid hop hke he hseq hbe h6 h0⟩,
        fun h3 h0 hread hst => ⟨_, beatAck_data hb hs hid hop hke he hseq h3 hst, ?_⟩⟩,
      fun hke he hseq h6 hst => beatAck_hold hb hop hke he hseq h6 hst,
      fun hm hup => ⟨fun hhold => beatResend_again hb hhold hm hup, fun _ => beatResend_early hb hup, fun hhold => holdResend_again hb hhold hm⟩,
      fun a he hhold hdown hs hid hst => ?_⟩,
    fun k p s hp hrole hphase hm => beatForward_forwards hp hrole hphase hm, fun k b a p s hop hb hseq hs hid hp hw hm => ?_,
    fun k p s hp hrole hmoved hm => ⟨fun hseq htab => ?_, fun e hseq he hheld hcache => ?_, fun w hseq hwait hr hpkg hlaunch hrank =>
      tokenRequest_withdrawn hp hrole hmoved hseq hwait hr hpkg hlaunch hrank⟩,
    fun k sp r c p s hp hc hr hst => ⟨_, tokenReply_noted hp hc hr hst, rfl, fun j d hd => State.ctx_tokHeard hd _ _ _ _⟩,
    fun k r v c p s hc ht => ⟨tokenRetry_none hc ht, tokenRetry_unchecked hc ht⟩⟩
  · simp only [Acc.landed, h0, hread, true_or, if_true]
  · obtain ⟨t, ht, honly, hempty, haccs⟩ := State.beatDone_only hb hs hid hbe hst stRemoteDown []
    exact ⟨t, (beatResend_down hb hhold hop he hdown).trans (congrArg _ ht), honly, hempty, _, haccs⟩
  · obtain ⟨t, hsends, hpart⟩ := movedAck_moves hop hb hseq hs hid hp hw hm rfl rfl
    obtain ⟨hpkg, hplace⟩ := Part.peerWord_repeer_self (p := p) (w := iaWindow a.ia) (pkg := k.ia % 2 ^ 16) (part := k.ia / 2 ^ 16 % 32) (by omega) (by omega)
    exact ⟨t, _, _, hsends, hpart, rfl, hpkg, hplace, fun w h => Part.peerWord_repeer_other (by omega), fun w => Part.peerWord_repeer_other (by omega)⟩
  · obtain ⟨t, hsends, hmem⟩ := tokenRequest_unchecked hp hrole hmoved hm hseq htab
    exact ⟨t, _, hsends, rfl, rfl, rfl, rfl, rfl, rfl, rfl, hmem⟩
  · obtain ⟨t, hsends, hmem⟩ := tokenRequest_granted hp hrole hmoved hm hseq he hheld
    exact ⟨t, _, hsends, rfl, rfl, rfl, rfl, State.tokSet_bytes hcache e (Packet.tokCtx k) hmem⟩

end Sys2Proof

end

-- ==== Sys2Proof/Proofs/Preempting.lean ====

section
/-! PROOF. Pre-emption up to the save (19 R405 to R409; 11 R304): the request, the halt of the kernel, the units that are stopped, and the save. -/

namespace Sys2Proof.Machine

section
variable {k : Nat} {s : State} {c : Ctx} (hc : s.ctx k = some c)

/-! ## The request -/

/-- What the request makes of a context that runs and has not been asked before. -/
theorem Ctx.preemptNow_first (hh : c.halted = false) (hp : c.preempt = none) : c.preemptNow = { c with
    preempt := some 0, wait := none, busy := 0, resv := none, squash := none, matrix := { c.matrix with drain := some 0 },
    pc := (c.squash.map (·.pc)).getD c.pc, x := (c.squash.map (·.x)).getD c.x, f := (c.squash.map (·.f)).getD c.f, fcsr := (c.squash.map (·.fcsr)).getD c.fcsr } := by
  cases hq : c.squash with
  | none =>
    simp only [Ctx.preemptNow, Ctx.takeRequest, Ctx.undo, hh, hp, hq, Bool.false_eq_true, if_false, Option.isNone_none, if_true, Option.map_none, Option.getD_none]
  | some q =>
    simp only [Ctx.preemptNow, Ctx.takeRequest, Ctx.undo, hh, hp, hq, Bool.false_eq_true, if_false, Option.isNone_none, if_true, Option.map_some, Option.getD_some]

/-- A context whose launch has ended, or that has been asked, stays as it is. -/
theorem Ctx.preemptNow_again (h : c.halted = true ∨ ∃ n, c.preempt = some n) : c.preemptNow = c := by
  rcases h with h | ⟨n, h⟩
  · exact if_pos h
  · simp only [Ctx.preemptNow, Ctx.takeRequest, h, Option.isNone_some, Bool.false_eq_true, if_false, ite_self]

include hc

/-- The request reaches the context of a lone SP without pre-empted contexts. -/
theorem preemptRequest_step (hf : (s.sp k).fused = false) (hv : (s.sp k).victims = []) : CtxStep (.preemptRequest k) s k c.preemptNow := by
  have hstep : exec (.preemptRequest k) s = .next (s.modSp k fun p =>
      { p with
        ctx := p.ctx.map Ctx.preemptNow,
        victims := p.victims.map fun v => if v.place = 3 then { v with ctx := v.ctx.preemptNow } else v }) := by
    rw [exec_preemptRequest, execPreemptRequest, State.issueGroup_lone hf]
    rfl
  have hc : (s.sp k).ctx = some c := hc
  obtain ⟨t, ht, hwith⟩ := spStep_mod _ hstep
  exact ⟨t, ht, hwith.congr (by simp only [hc, Option.map_some, hv, List.map_nil])⟩

/-! ## The halt -/

/-- The kernel of a lone SP that stands at a pre-emption point halts there. -/
theorem kernelHalt_halts (hf : (s.sp k).fused = false) {m n : Nat} (hp : c.preempt = some m) (hn : c.kern.haltAt = some n) :
    CtxStep (.kernelHalt k) s k { c with kern := { c.kern with phase := .halted, haltPoint := n, tokLeft := none } } := by
  refine ctxStep_mod (fun c => { c with kern := { c.kern with phase := .halted, haltPoint := n, tokLeft := none } }) hc ?_
  rw [exec_kernelHalt, execKernelHalt, State.withCtx_of_ctx hc, State.issueGroup_lone hf]
  simp only [hp, Option.isNone_some, List.headD_cons, ne_eq, not_true_eq_false, Bool.false_eq_true, or_self, if_false, hn]
  rfl

/-- One that stands between two bundles waits for its next point. -/
theorem kernelHalt_waits (hn : c.kern.haltAt = none) : exec (.kernelHalt k) s = .next s := by
  rw [exec_kernelHalt, execKernelHalt, State.withCtx_of_ctx hc]
  simp only [hn, ite_self]

/-! ## The units that are stopped -/

/-- A routine that has not retired 4,096 cycles after the request is to stop. -/
def Ctx.drainStop (c : Ctx) : Ctx :=
  if c.preempt.any (fun n => decide (drainLimit < n)) && c.matrix.run.isSome then { c with matrix := { c.matrix with drain := some 1 } } else c

/-- Requests that have not landed by then are to be sent again. -/
def Ctx.reclaimed (c : Ctx) : Ctx :=
  if c.preempt.any fun n => decide (drainLimit < n) then
    { c with dq := c.dq.map fun q => (q.1, q.2.map fun r => if r.state = 0 ∧ !r.srf then { r with state := 2 } else r) }
  else c

theorem matrixDrainLimit_step : CtxStep (.matrixDrainLimit k) s k c.drainStop := ctxStep_mod Ctx.drainStop hc rfl

theorem aqReclaim_step : CtxStep (.aqReclaim k) s k c.reclaimed := ctxStep_mod Ctx.reclaimed hc rfl

/-- After 4,096 cycles a routine that has not retired is stopped. -/
theorem matrixDrainLimit_stops {n : Nat} {r : Routine} (hp : c.preempt = some n) (hn : 4096 < n) (hr : c.matrix.run = some r) :
    CtxStep (.matrixDrainLimit k) s k { c with matrix := { c.matrix with drain := some 1 } } := by
  refine (matrixDrainLimit_step hc).congr (if_pos ?_)
  simp [hp, hr, drainLimit, hn]

/-- Requests sent and not landed are to be sent again. -/
theorem aqReclaim_reclaims {n cl : Nat} {r : AqReq} (hp : c.preempt = some n) (hn : 4096 < n) (hq : c.dq = [(cl, [r])]) (hst : r.state = 0) (hsrf : r.srf = false) :
    CtxStep (.aqReclaim k) s k { c with dq := [(cl, [{ r with state := 2 }])] } := by
  refine (aqReclaim_step hc).congr ?_
  have hlate : (c.preempt.any fun n => decide (drainLimit < n)) = true := by simp [hp, drainLimit, hn]
  simp only [Ctx.reclaimed, hlate, if_true, hq, List.map_cons, List.map_nil, hst, hsrf, Bool.not_false, and_self]

/-- Before that neither changes anything. -/
theorem drain_early {n : Nat} (hp : c.preempt = some n) (hn : n ≤ 4096) : CtxStep (.matrixDrainLimit k) s k c ∧ CtxStep (.aqReclaim k) s k c := by
  have hearly : (c.preempt.any fun n => decide (drainLimit < n)) = false := by simp [hp, drainLimit, hn]
  refine ⟨(matrixDrainLimit_step hc).congr (if_neg ?_), (aqReclaim_step hc).congr (if_neg ?_)⟩
  · simp only [hearly, Bool.false_and, Bool.false_eq_true, not_false_iff]
  · simp only [hearly, Bool.false_eq_true, not_false_iff]

/-! ## The save -/

/-- The image of the context of a lone SP as its save begins. -/
def State.savedVictim (s : State) (k : Nat) (c : Ctx) : Victim :=
  { ctx := s.saving c false, place := 0, left := 256, claimed := [], cm := none, order := 0, shown := none, tower := (s.sp k).tower, fused := (s.sp k).fused,
    line := (s.sp k).line, lineAt := (s.sp k).lineAt }

/-- A save begins once what it waits for has come and a slot is free. -/
theorem contextSave_begins (hready : s.saveReady c = true) (hslot : (s.sp k).slotsUsed < 2) (htower : (s.sp k).tower = []) :
    SpStep (.contextSave k) s k { s.sp k with ctx := none, victims := s.savedVictim k c :: (s.sp k).victims } := by
  have hstep : exec (.contextSave k) s = .next (s.modSp k fun p =>
      { p with
        ctx := none,
        victims := { ctx := s.saving c (!p.tower.isEmpty && !p.fused && c.kernelEntry.isSome), place := 0, left := 256, claimed := [], cm := none, order := 0, shown := none,
                     tower := p.tower, fused := p.fused, line := p.line, lineAt := p.lineAt } :: p.victims }) := by
    have hgo : ¬((!s.saveReady c) = true ∨ 2 ≤ (s.sp k).slotsUsed) := by
      rw [hready]
      rintro (h | h)
      · exact absurd h (by decide)
      · omega
    rw [exec_contextSave, execContextSave, State.withCtx_of_ctx hc, if_neg hgo]
  obtain ⟨t, ht, hwith⟩ := spStep_mod _ hstep
  refine ⟨t, ht, hwith.congr ?_⟩
  simp only [State.savedVictim, htower, List.isEmpty_nil, Bool.not_true, Bool.false_and]

theorem contextSave_waits (h : 2 ≤ (s.sp k).slotsUsed ∨ s.saveReady c = false) : exec (.contextSave k) s = .next s := by
  rw [exec_contextSave, execContextSave, State.withCtx_of_ctx hc, if_pos]
  exact h.symm.imp_left fun h => by rw [h]; rfl
end

end Sys2Proof.Machine
end

-- ==== Sys2Proof/Proofs/ShadowSlots.lean ====

section
/-! PROOF. Shadow slots (19 R410): the image that stands in its slot, and the writing out of the oldest. -/

namespace Sys2Proof.Machine

/-- The image whose save has ended stands in its slot. -/
def Sp.imageStands (order : Nat) (p : Sp) : Sp :=
  { p with victims := updFirst (fun (v : Victim) => decide (v.place = 0) && decide (v.left = 0))
                        (fun v => { v with place := 1, order := order, ctx := { v.ctx with mpreq := false } }) p.victims }

/-- A source of a migration that freezes notes when a context has been saved. -/
def Part.noteSaved (now : Nat) (p : Part) : Part := if p.migr.role = 1 ∧ p.migr.phase = 2 then { p with migr := { p.migr with saved := now } } else p

section
variable {k : Nat} {v : Victim} {s : State} (hv : (s.sp k).victims = [v]) (hplace : v.place = 0)
include hv hplace

/-- The image stands in its slot, and the SP may be taken. -/
theorem contextSaveComplete_done (hleft : v.left = 0) : ∃ t, exec (.contextSaveComplete k) s = .next t ∧
    t.sp k = { s.sp k with victims := [{ v with place := 1, order := s.ctr, ctx := { v.ctx with mpreq := false } }] } ∧
    (∀ j, j ≠ k → t.sp j = s.sp j) ∧ t.mem = s.mem ∧ Instr.placementPass (s.partOf v.ctx) ∈ t.inbox := by
  let u := s.fresh.2.modSp k (Sp.imageStands s.ctr)
  let w := u.modPart (s.partOf v.ctx) (Part.noteSaved s.now)
  have hsp : ∀ j, (w.passSoon (s.partOf v.ctx)).sp j = u.sp j := fun j => State.passSoon_sp w _ j
  refine ⟨w.passSoon (s.partOf v.ctx), ?_, (hsp k).trans ?_, fun j hj => (hsp j).trans (State.sp_modSp_other s.fresh.2 hj _), State.passSoon_mem w _,
    State.mem_passSoon_inbox w _⟩
  · rw [exec_contextSaveComplete, execContextSaveComplete, hv]
    simp only [List.find?_cons, hplace, hleft, decide_true, Bool.and_self]
    rfl
  · have hv : (s.fresh.2.sp k).victims = [v] := hv
    rw [State.sp_modSp_self, Sp.imageStands, hv]
    simp only [updFirst, hplace, hleft, decide_true, Bool.and_self, if_true]
    rfl

theorem contextSaveComplete_waits (hleft : 0 < v.left) : exec (.contextSaveComplete k) s = .next s := by
  rw [exec_contextSaveComplete, execContextSaveComplete, hv]
  simp only [List.find?_cons, hplace, Nat.ne_of_gt hleft, decide_true, decide_false, Bool.and_false, List.find?_nil]
end

/-! ## Writing out -/

theorem State.keepOwn_cache (s : State) (a n : Nat) : (s.keepOwn a n).cache = s.cache := by unfold State.keepOwn; split <;> rfl
theorem State.keepOwn_sps (s : State) (a n : Nat) : (s.keepOwn a n).sps = s.sps := by unfold State.keepOwn; split <;> rfl

/-- With an empty cache a change of memory is one of HBM4, and no SP changes. -/
theorem State.memChange_uncached {s : State} (h : s.cache = []) (a n b m : Nat) (f : List Host.Cell → List Host.Cell) :
    ((s.keepOwn a n).memChange b m f).mem = f s.mem ∧ ((s.keepOwn a n).memChange b m f).sps = s.sps := by
  have hcache : (s.keepOwn a n).cache = [] := (s.keepOwn_cache a n).trans h
  refine ⟨?_, s.keepOwn_sps a n⟩
  simp only [State.memChange, State.writeBack, hcache, List.filter_nil, List.foldr_nil, State.keepOwn_mem]

/-- No images of suspended activations. -/
theorem Ctx.slotImages_nil {c : Ctx} (h : c.stages = []) : c.slotImages = [] := by rw [Ctx.slotImages, h]; rfl

section
variable {k n : Nat} {v w : Victim} {s : State} {c : Ctx} (hc : s.ctx k = some c) (hp : c.preempt = some n) (hstages : c.stages = []) (hvs : (s.sp k).victims = [v, w])
  (hv : v.place = 1) (hw : w.place = 1) (hvst : v.ctx.stages = []) (hwst : w.ctx.stages = [])
include hc hstages hvs hv hw hvst hwst

theorem slotsUsed_two : (s.sp k).slotsUsed = 2 := by
  have hc : (s.sp k).ctx = some c := hc
  simp [Sp.slotsUsed, hc, hvs, hv, hw, hvst, hwst, hstages]

theorem oldestImage_two (horder : v.order < w.order) : oldestImage (s.sp k).slotImages = some (v.order, v.ctx.launch, 0) := by
  have hc : (s.sp k).ctx = some c := hc
  have himages : (s.sp k).slotImages = [(v.order, v.ctx.launch, 0), (w.order, w.ctx.launch, 0)] := by
    simp [Sp.slotImages, hc, hvs, hv, hw, Ctx.slotImages_nil hstages, Ctx.slotImages_nil hvst, Ctx.slotImages_nil hwst]
  rw [himages, oldestImage, List.foldl_cons, List.foldl_nil, if_neg (by omega)]

include hp

/-- The older of two images goes out where a request needs the slot for 1,024 cycles; none goes earlier. -/
theorem shadowWriteOut_two (horder : v.order < w.order) : exec (.shadowWriteOut k) s = .next (if n ≤ 1024 then s else s.showImage k v.ctx.launch) := by
  have hstale : (s.sp k).victims.filter Victim.stale = [] := by simp [hvs, Victim.stale, hv, hw]
  have hctx : (s.sp k).ctx = some c := hc
  rw [exec_shadowWriteOut, execShadowWriteOut, hstale]
  simp only [List.foldl_nil, oldestImage_two hc hstages hvs hv hw hvst hwst horder, slotsUsed_two hc hstages hvs hv hw hvst hwst, hctx, hp, Option.any_some, Nat.lt_irrefl, decide_false, decide_true,
    Bool.false_or, Bool.true_and, if_true]
  by_cases hn : n ≤ 1024
  · simp [hn]
  · simp [hn, Nat.lt_of_not_le hn]

theorem shadowWriteOut_writes (horder : v.order < w.order) {a : Nat} (hn : 1024 < n) (hcache : s.cache = []) (ha : s.recordAt v.ctx.launch k 0 = some a) :
    ∃ t, exec (.shadowWriteOut k) s = .next t ∧ t.sp k = { s.sp k with victims := [{ v with place := 2, shown := some v.ctx }, w] } ∧
      t.mem = Memory.image s.mem a ((s.sp k).imageOf v.ctx.launch 0 (s.member k)) ∧ ∀ j, j ≠ k → t.sp j = s.sp j := by
  let u := (s.keepOwn a 0x100000).memChange a 0x100000 fun m => Memory.image m a ((s.sp k).imageOf v.ctx.launch 0 (s.member k))
  obtain ⟨hmem, hsps⟩ := State.memChange_uncached hcache a 0x100000 a 0x100000 fun m => Memory.image m a ((s.sp k).imageOf v.ctx.launch 0 (s.member k))
  have hsp : ∀ j, u.sp j = s.sp j := State.sp_congr hsps
  have hwrite : s.writeImage k v.ctx.launch 0 = u := by rw [State.writeImage, ha]
  refine ⟨s.showImage k v.ctx.launch, ?_, ?_, ?_, fun j hj => ?_⟩
  · rw [shadowWriteOut_two hc hp hstages hvs hv hw hvst hwst horder, if_neg (Nat.not_le.mpr hn)]
  · rw [State.showImage, hwrite, State.sp_modSp_self, hsp, hvs]
    simp only [updFirst, decide_true, if_true]
  · rw [State.showImage, hwrite]
    exact hmem
  · rw [State.showImage, hwrite, State.sp_modSp_other u hj, hsp]

theorem shadowWriteOut_early (horder : v.order < w.order) (hn : n ≤ 1024) : exec (.shadowWriteOut k) s = .next s := by
  rw [shadowWriteOut_two hc hp hstages hvs hv hw hvst hwst horder, if_pos hn]
end

end Sys2Proof.Machine
end

-- ==== Sys2Proof/Proofs/Claims.lean ====

section
/-! PROOF. What of a pre-empted context another needs is claimed: a polder, and control memory (03 R82, R83; 19 R419). -/

namespace Sys2Proof.Machine

/-- Saving a polder changes no SP. -/
theorem State.savePolder_sps (s : State) (k launch : Nat) (q : Polder) : (s.savePolder k launch q).sps = s.sps := by
  unfold State.savePolder
  split
  · rfl
  · exact s.keepOwn_sps _ _

/-- The allocations that a claimed polder stands in the way of take longer by its copy. -/
def Sp.allocWaits (q : Polder) (p : Sp) : Sp :=
  let meets := fun (x : Polder) => decide (x.fill ≠ 0) && overlap x.base (shareOf x.log2) q.base (shareOf q.log2)
  { p with ctx := p.ctx.map fun c => { c with polders := c.polders.map fun e => (e.1, if meets e.2 then { e.2 with fill := e.2.fill + q.cycles } else e.2) } }

section
variable {k h : Nat} {q : Polder} {v : Victim} {s : State} (hv : (s.sp k).victims = [v]) (hq : v.ctx.polder h = some q)
include hv hq

theorem Sp.claim_only : (s.sp k).claim 0 h = { s.sp k with victims := [{ v with claimed := KMap.ins h (polderRows (s.sp k).srf q) v.claimed }] } := by
  simp only [Sp.claim, hv, List.getElem?_cons_zero, hq, List.set_cons_zero]

/-- A polder that no issued beat waits for is saved, and its space is free. -/
theorem polderClaim_claims (hc : KMap.find h v.claimed = none) (ha : s.accs = []) : ∃ t, exec (.polderClaim k 0 h) s = .next t ∧
    t.mem = (s.savePolder k v.ctx.launch q).mem ∧
    t.sp k = Sp.allocWaits q { s.sp k with victims := [{ v with claimed := KMap.ins h (polderRows (s.sp k).srf q) v.claimed }] } ∧ ∀ j, j ≠ k → t.sp j = s.sp j := by
  let u := s.savePolder k v.ctx.launch q
  have hsp : ∀ j, u.sp j = s.sp j := State.sp_congr (s.savePolder_sps k v.ctx.launch q)
  have hwait : s.claimWaits k v.ctx h = false := by rw [State.claimWaits, ha]; rfl
  have hclaim : s.claim k 0 h = u.modSp k fun p => p.claim 0 h := by simp only [State.claim, hv, List.getElem?_cons_zero, hq, u]
  refine ⟨(u.modSp k fun p => p.claim 0 h).modSp k (Sp.allocWaits q), ?_, rfl, ?_, fun j hj => ?_⟩
  · rw [exec_polderClaim, execPolderClaim, hv]
    simp only [List.getElem?_cons_zero, hq, hc, hwait, Option.isSome_none, Bool.or_self, Bool.false_eq_true, if_false, hclaim]
    rfl
  · rw [State.sp_modSp_self, State.sp_modSp_self, hsp, Sp.claim_only hv hq]
  · rw [State.sp_modSp_other _ hj, State.sp_modSp_other _ hj, hsp]
end

theorem Sp.allocWaits_none {p : Sp} (h : p.ctx = none) (q : Polder) : p.allocWaits q = p := by
  simp only [Sp.allocWaits, h, Option.map_none]
  rw [← h]

/-- The only allocation of the context waits for the space. -/
theorem Sp.allocWaits_one {p : Sp} {c : Ctx} {q x : Polder} {g : Nat} (hc : p.ctx = some c) (hx : c.polders = [(g, x)]) (hfill : 0 < x.fill)
    (hlo : x.base < q.base + shareOf q.log2) (hhi : q.base < x.base + shareOf x.log2) :
    p.allocWaits q = { p with ctx := some { c with polders := [(g, { x with fill := x.fill + q.size / 1024 })] } } := by
  have hmeets : (decide (x.fill ≠ 0) && overlap x.base (shareOf x.log2) q.base (shareOf q.log2)) = true := by
    simp only [overlap, hlo, hhi, Nat.ne_of_gt hfill, decide_true, Bool.and_self, ne_eq, not_false_eq_true]
  simp only [Sp.allocWaits, hc, Option.map_some, hx, List.map_cons, List.map_nil, hmeets, if_true, Polder.cycles]

/-! ## Control memory -/

section
variable {k : Nat} {v : Victim} {s : State} (hv : (s.sp k).victims = [v])
include hv

/-- Control memory that a pre-empted context left goes to its record. -/
theorem controlMemoryClaim_claims (hcm : v.cm = none) {a : Nat} (ha : s.recordAt v.ctx.launch k 9 = some a) (hcache : s.cache = []) :
    ∃ t, exec (.controlMemoryClaim k) s = .next t ∧ t.mem = Memory.store s.mem a 0x40000 (s.sp k).cm ∧
      t.sp k = { s.sp k with victims := [{ v with cm := some (s.sp k).cm }] } ∧ ∀ j, j ≠ k → t.sp j = s.sp j := by
  obtain ⟨hmem, hsps⟩ := State.memChange_uncached hcache a 0x40000 a 0x40000 fun m => Memory.store m a 0x40000 (s.sp k).cm
  have hsave : s.saveCm k = (s.keepOwn a 0x40000).memChange a 0x40000 fun m => Memory.store m a 0x40000 (s.sp k).cm := by
    simp only [State.saveCm, hv, List.foldl_cons, List.foldl_nil, hcm, ha]
  have hsp : ∀ j, (s.saveCm k).sp j = s.sp j := fun j => State.sp_congr (hsave ▸ hsps) j
  refine ⟨(s.saveCm k).modSp k Sp.claimCm, rfl, (congrArg State.mem hsave).trans hmem, ?_, fun j hj => ?_⟩
  · rw [State.sp_modSp_self, hsp, Sp.claimCm, hv]
    simp only [List.map_cons, List.map_nil, hcm, Option.isNone_none, if_true]
  · rw [State.sp_modSp_other _ hj, hsp]

/-- Control memory that has been claimed is not claimed again. -/
theorem controlMemoryClaim_again {m : KMap Byte} (hcm : v.cm = some m) : SpStep (.controlMemoryClaim k) s k (s.sp k) := by
  have hsave : s.saveCm k = s := by simp only [State.saveCm, hv, List.foldl_cons, List.foldl_nil, hcm]
  have hstep : exec (.controlMemoryClaim k) s = .next (s.modSp k Sp.claimCm) := by rw [exec_controlMemoryClaim, execControlMemoryClaim, hsave]
  obtain ⟨t, ht, hwith⟩ := spStep_mod _ hstep
  refine ⟨t, ht, hwith.congr ?_⟩
  simp only [Sp.claimCm, hv, List.map_cons, List.map_nil, hcm, Option.isNone_some, Bool.false_eq_true, if_false]
  rw [← hv]
end

end Sys2Proof.Machine
end

-- ==== Sys2Proof/Proofs/Restoring.lean ====

section
/-! PROOF. The restore (03 R84; 19 R420, R421): it begins, takes its cycles, and the context comes back as it was saved. -/

namespace Sys2Proof.Machine

/-- The context of a kernel that had halted, as it runs again. -/
theorem Ctx.restored_halted {c : Ctx} (hp : c.preempt = none) (hk : c.kern.phase = .halted) : c.restored = { c with
    frozen := false, used := c.entries.length, recent := [], matrix := { c.matrix with drain := none }, spire := { c.spire with stopped := false },
    kern := { c.kern with phase := if c.stopped then .stopped else .resuming 2 } } := by
  simp only [Ctx.restored, hp, hk, Option.isSome_none, Bool.false_eq_true, if_false, if_true]

/-- An SP with its only victim back in its place; the routines of the victim's object stand there still. -/
theorem Sp.restore_only {p : Sp} {v : Victim} {code : Option Code} (hv : p.victims = [v]) (hf : v.fused = false) (htower : v.tower = []) (hline : v.line = [])
    (hclaimed : v.claimed = []) (hheld : p.held = none) (hcode : ∀ c, code = some c → p.installed = some c.handle) : p.restore v code = { p with
      ctx := some v.ctx.restored, victims := [], cm := v.cm.getD p.cm, held := some v.ctx.launch, idle := false, ranges := [], tower := [], fused := false,
      line := [], lineAt := v.lineAt } := by
  cases code with
  | none =>
    simp only [Sp.restore, hclaimed, List.foldl_nil, hv, hheld, hf, htower, hline, List.filter_cons, ne_eq, not_true_eq_false, decide_false, Bool.false_eq_true, if_false,
      List.filter_nil, reduceCtorEq]
  | some c =>
    have hinstall : p.install c = p := if_pos (hcode c rfl)
    simp only [Sp.restore, hinstall, hclaimed, List.foldl_nil, hv, hheld, hf, htower, hline, List.filter_cons, ne_eq, not_true_eq_false, decide_false, Bool.false_eq_true,
      if_false, List.filter_nil, reduceCtorEq]

section
variable {k : Nat} {v : Victim} {s : State} (hv : (s.sp k).victims = [v])
include hv

theorem State.victimOf_only : s.victimOf k v.ctx.launch = some v := by simp [State.victimOf, hv]

/-- Nothing else stands where the only victim goes back to. -/
theorem Sp.conflicts_only : (s.sp k).conflicts v = [] := by simp [Sp.conflicts, hv]

theorem State.nextVictim_only : s.nextVictim k = some 0 := by simp [State.nextVictim, hv]

omit hv in
/-- A victim that was not fused is restored alone. -/
theorem State.restoreGroup_lone (hf : v.fused = false) : s.restoreGroup k v = [k] := by
  rw [State.restoreGroup, hf]
  rfl

/-- The only pre-empted context may be restored to an SP that holds none, and that no launch waits for. -/
theorem State.mayRestore_only {p : Part} (hplace : v.place = 1) (hctx : s.ctx k = none) (hleft : (s.sp k).left = none) (hheld : (s.sp k).held = none)
    (hp : s.part (s.partOf v.ctx) = some p) (hrole : p.migr.role = 0) (hl : ∀ l ∈ s.launches, l.state ≠ 0) : s.mayRestore k v.ctx.launch = true := by
  have hctx : (s.sp k).ctx = none := hctx
  have hthaw : s.thawed v = true := by simp [State.thawed, hp, hrole]
  have hwants : (s.launches.any fun l => decide (l.state = 0) && l.wants.contains k) = false := by
    rw [List.any_eq_false]
    intro l hmem
    simp [hl l hmem]
  simp only [State.mayRestore, hctx, hleft, hheld, State.nextVictim_only hv, hv, hwants, hthaw, hplace, Option.isNone_none, Option.bind_some, List.getElem?_cons_zero,
    Option.any_some, List.all_cons, List.all_nil, decide_true, Bool.true_or, Bool.and_self, Bool.not_false]

omit hv in
/-- No page of its record is absent at a partition that does not migrate. -/
theorem State.recordAbsent_home {p : Part} (hp : s.part (s.partOf v.ctx) = some p) (hrole : p.migr.role = 0) : s.recordAbsent k v = none := by
  have hnone : ∀ l : List Nat, l.find? p.absent = none := fun l => by
    rw [List.find?_eq_none]
    intro a _
    simp [Part.absent, hrole]
  simp only [State.recordAbsent, hp, Option.bind_some, hnone, ite_self, Option.bind_fun_none]

/-- The cycles of a restore from a slot: 256, and 256 more for control memory that has been claimed. -/
theorem State.restoreCycles_slot (hplace : v.place = 1) (hclaimed : v.claimed = []) (hcode : ∀ c, s.codeOfCtx v.ctx = some c → (s.sp k).installed = some c.handle) (free : Nat) :
    s.restoreCycles k v free = if v.cm.isSome then 512 else 256 := by
  have hinstall : ((s.codeOfCtx v.ctx).map (s.sp k).installCycles).getD 0 = 0 := by
    cases h : s.codeOfCtx v.ctx with
    | none => rfl
    | some c => exact if_pos (hcode c h)
  simp only [State.restoreCycles, Sp.conflicts_only hv, hclaimed, hinstall, hplace, if_true]
  cases v.cm <;> simp

section
variable (hf : v.fused = false)
include hf

/-- A restore from a slot begins. -/
theorem contextRestore_begins {p : Part} (hclaimed : v.claimed = []) (hctx : s.ctx k = none) (hleft : (s.sp k).left = none) (hheld : (s.sp k).held = none)
    (hcode : ∀ c, s.codeOfCtx v.ctx = some c → (s.sp k).installed = some c.handle) (hp : s.part (s.partOf v.ctx) = some p) (hrole : p.migr.role = 0)
    (hl : ∀ l ∈ s.launches, l.state ≠ 0) (hplace : v.place = 1) : ∃ t, exec (.contextRestore k 0) s = .next t ∧ t.mem = s.mem ∧
      t.sp k = { s.sp k with victims := [{ v with place := 3, left := if v.cm.isSome then 512 else 256 }] } ∧ ∀ j, j ≠ k → t.sp j = s.sp j := by
  let u := s.fresh.2
  have hv' : (u.sp k).victims = [v] := hv
  let back : Sp → Sp := fun p => { p with
    victims := updFirst (fun w => decide (w.ctx.launch = v.ctx.launch)) (fun w => { w with place := 3, left := if v.cm.isSome then 512 else 256 }) p.victims }
  have hbegin : u.restoreBegin k v.ctx.launch (if v.cm.isSome then 512 else 256) = u.modSp k back := by
    simp only [State.restoreBegin, State.victimOf_only hv', Sp.conflicts_only hv', List.foldl_nil]
    rfl
  refine ⟨u.modSp k back, ?_, rfl, ?_, fun j hj => State.sp_modSp_other u hj _⟩
  · rw [exec_contextRestore, execContextRestore, hv]
    simp only [List.getElem?_cons_zero, State.restoreGroup_lone hf, hplace, List.all_cons, List.all_nil, Bool.and_true, State.mayRestore_only hv hplace hctx hleft hheld hp hrole hl,
      State.victimOf_only hv, Option.all_some, Sp.conflicts_only hv, List.findSome?_cons, List.findSome?_nil, Option.bind_some, State.recordAbsent_home hp hrole,
      Bool.not_true, Bool.false_eq_true, if_false, List.map_cons, List.map_nil, Option.map_some, Option.getD_some, State.restoreCycles_slot hv hplace hclaimed hcode,
      List.foldl_cons, List.foldl_nil, Nat.zero_max]
    exact congrArg _ hbegin
  · rw [State.sp_modSp_self]
    simp only [back, hv', updFirst, decide_true, if_true]
    rfl

/-- It takes its cycles. -/
theorem contextRestore_runs (hplace : v.place = 3) (hleft : 0 < v.left) : exec (.contextRestore k 0) s = .next s := by
  rw [exec_contextRestore, execContextRestore, hv]
  simp only [List.getElem?_cons_zero, State.restoreGroup_lone hf, hplace, if_true, List.all_cons, List.all_nil, Bool.and_true, State.victimOf_only hv, Option.any_some,
    decide_true, Bool.true_and, decide_eq_true_eq, if_neg (Nat.ne_of_gt hleft)]

/-- The context comes back as it was saved. -/
theorem contextRestore_ends (htower : v.tower = []) (hline : v.line = []) (hclaimed : v.claimed = []) (ha : s.accs = []) (hheld : (s.sp k).held = none)
    (hcode : ∀ c, s.codeOfCtx v.ctx = some c → (s.sp k).installed = some c.handle) (hplace : v.place = 3) (hleft : v.left = 0) :
    SpStep (.contextRestore k 0) s k { s.sp k with
      ctx := some v.ctx.restored, victims := [], cm := v.cm.getD (s.sp k).cm, held := some v.ctx.launch, idle := false, ranges := [], tower := [], fused := false,
      line := [], lineAt := v.lineAt } := by
  let back : Sp → Sp := fun p => p.restore v (s.codeOfCtx v.ctx)
  let u := s.modSp k back
  have hback := Sp.restore_only hv hf htower hline hclaimed hheld hcode
  have hself : u.sp k = (s.sp k).restore v (s.codeOfCtx v.ctx) := State.sp_modSp_self s k back
  have htw : u.tower k = [k] := State.tower_lone (by rw [hself, hback])
  have hline' : (u.sp k).line = [] := by rw [hself, hback]
  have hend : s.restoreEnd k v.ctx.launch = u := by
    have haccs : u.accs = [] := ha
    simp only [State.restoreEnd, State.victimOf_only hv]
    rw [show (s.modSp k fun p => p.restore v (s.codeOfCtx v.ctx)) = u from rfl]
    simp only [htw, List.headD_cons, hline', List.isEmpty_nil, Bool.not_true, Bool.and_false, Bool.false_and, Bool.false_eq_true, if_false, haccs, List.filter_nil, List.map_nil,
      List.foldl_nil]
  have hstep : exec (.contextRestore k 0) s = .next u := by
    rw [exec_contextRestore, execContextRestore, hv]
    simp only [List.getElem?_cons_zero, State.restoreGroup_lone hf, hplace, if_true, List.all_cons, List.all_nil, Bool.and_true, State.victimOf_only hv, Option.any_some,
      decide_true, hleft, List.foldl_cons, List.foldl_nil, hend]
  obtain ⟨t, ht, hwith⟩ := spStep_mod back hstep
  exact ⟨t, ht, hwith.congr hback⟩
end
end

end Sys2Proof.Machine

/-! ## The obligation -/

namespace Sys2Proof
open Machine

/-- Settles O57: a rule for each step of a pre-emption. -/
theorem preemptionSteps : Obligations.PreemptionSteps := by
  unfold Obligations.PreemptionSteps
  refine ⟨fun k s c hc hf hv => ⟨fun hh hp => (preemptRequest_step hc hf hv).congr (Ctx.preemptNow_first hh hp),
      fun h => (preemptRequest_step hc hf hv).congr (Ctx.preemptNow_again h)⟩,
    fun k m s c hc hf hp => ⟨fun n hrun hlast hgap hpoint hn => ?_, fun n hstart => kernelHalt_halts hc hf hp ?_, fun n hres hpoint => kernelHalt_halts hc hf hp ?_,
      fun hstop => kernelHalt_halts hc hf hp ?_, fun hrun hlast hgap hpoint hrejoin => kernelHalt_halts hc hf hp ?_, fun hrun hgap => kernelHalt_waits hc ?_⟩,
    fun k n s c hc hp => ⟨fun r hn hr => matrixDrainLimit_stops hc hp hn hr, fun cl r hn hq hst hsrf => aqReclaim_reclaims hc hp hn hq hst hsrf, drain_early hc hp⟩,
    fun k s c hc => ⟨fun hready hslot htower => ⟨_, contextSave_begins hc hready hslot htower, rfl, rfl, rfl, rfl, rfl, rfl⟩, contextSave_waits hc⟩,
    fun k v s hv hplace => ⟨contextSaveComplete_done hv hplace, contextSaveComplete_waits hv hplace⟩,
    fun k n a v w s c hc hp hstages hvs hv hw hvst hwst horder => ⟨shadowWriteOut_writes hc hp hstages hvs hv hw hvst hwst horder,
      shadowWriteOut_early hc hp hstages hvs hv hw hvst hwst horder⟩,
    fun k h q v s hv hq hclaimed ha => ⟨fun hc => ?_, fun c g x hc hx hfill hlo hhi => ?_⟩,
    fun k a v s hv => ⟨fun hcm ha hcache => controlMemoryClaim_claims hv hcm ha hcache, fun m => controlMemoryClaim_again hv⟩,
    fun k v p s hv hf htower hline hclaimed ha hctx hleft hheld hcode hp hrole hl => ⟨contextRestore_begins hv hf hclaimed hctx hleft hheld hcode hp hrole hl,
      contextRestore_runs hv hf, fun hplace hdone hpre hphase => ?_⟩⟩
  · have hat : c.kern.haltAt = some n := by
      simp only [Kern.haltAt, hrun, hlast, hgap, hpoint, Option.isSome_none, Bool.false_eq_true, ne_eq, not_true_eq_false, or_self, if_false, Nat.ne_of_gt hn,
        not_false_eq_true, if_true]
    exact (kernelHalt_halts hc hf hp hat).congr (by rw [← hpoint])
  · simp only [Kern.haltAt, hstart]
  · simp only [Kern.haltAt, hres, if_neg hpoint]
  · simp only [Kern.haltAt, hstop]
  · simp only [Kern.haltAt, hrun, hlast, hgap, hpoint, hrejoin, Option.isSome_none, Bool.false_eq_true, ne_eq, not_true_eq_false, or_self, if_false, Bool.or_true, if_true]
  · simp only [Kern.haltAt, hrun, hgap, ne_eq, not_false_eq_true, or_true, if_true]
  · obtain ⟨t, ht, hmem, hsp, hother⟩ := polderClaim_claims hv hq hclaimed ha
    exact ⟨t, ht, hmem, hsp.trans (Sp.allocWaits_none (by exact hc) q), hother⟩
  · obtain ⟨t, ht, hmem, hsp, hother⟩ := polderClaim_claims hv hq hclaimed ha
    exact ⟨t, ht, hmem, hsp.trans (Sp.allocWaits_one (by exact hc) hx hfill hlo hhi), hother⟩
  · rw [← Ctx.restored_halted hpre hphase]
    exact contextRestore_ends hv hf htower hline hclaimed ha hheld hcode hplace hdone

end Sys2Proof

end

-- ==== Sys2Proof/Proofs/MigrationEvents.lean ====

section
/-! PROOF. What a migration says to VF 0 and to its peer, and what becomes of a migration that fails (23 R447, R449, R453). -/

namespace Sys2Proof.Machine

/-! ## Packets and notices -/

/-- Sending a packet, by a port of either mode, changes ports alone. -/
theorem State.sendPacket_frame (s : State) (n : Nat) (k : Packet) : s.sendPacket n k = { s with ports := (s.sendPacket n k).ports } := by
  unfold State.sendPacket State.sendFrom State.sendOver
  split <;> rfl

theorem State.sendPacket_vf (s : State) (n : Nat) (k : Packet) (v : Nat) : (s.sendPacket n k).vf v = s.vf v := by
  rw [State.sendPacket_frame]
  rfl

theorem State.sendPacket_part (s : State) (n : Nat) (k : Packet) (part : Nat) : (s.sendPacket n k).part part = s.part part := by
  rw [State.sendPacket_frame]
  rfl

theorem State.sendPacket_out (s : State) (n : Nat) (k : Packet) : (s.sendPacket n k).out = s.out := by
  rw [State.sendPacket_frame]

/-! ## Messages to VF 0 -/

/-- The payload of a MIGRATE message of the part (23 R447). -/
def migPayload (op part : Nat) (m : Migr) (count1 count2 : Nat) : List Byte :=
  toBytes 4 op ++ toBytes 1 part ++ toBytes 1 m.peerPart ++ toBytes 2 m.peerPkg ++ toBytes 1 m.port ++ List.replicate 7 0 ++ toBytes 8 m.id
    ++ toBytes 8 count1 ++ toBytes 8 count2

/-- Its operation and its first count. -/
theorem migPayload_fields (op part : Nat) (m : Migr) (count1 count2 : Nat) :
    field (migPayload op part m count1 count2) 0 4 = op % 2 ^ 32 ∧ field (migPayload op part m count1 count2) 24 8 = count1 % 2 ^ 64 := by
  have hzero : List.replicate 7 (0 : Byte) = toBytes 7 0 := by decide
  rw [migPayload, hzero]
  constructor <;> simp [field_skip, field_toBytes]

/-- After `s` one MIGRATE message of operation `op` and first count `count` has gone to VF 0. -/
def SaysTo (s t : State) (op count : Nat) : Prop :=
  ∃ m, t.out = s.out ++ [m] ∧ m.vf = 0 ∧ m.type_ = 8 ∧ field m.payload 0 4 = op ∧ field m.payload 24 8 = count % 2 ^ 64

section
variable (s : State) (op part : Nat) (m : Migr) (count1 count2 : Nat)

theorem State.migSay_eq : s.migSay op part m count1 count2 = s.sendOwn 0 vtMigrate 0 0 0 0 (migPayload op part m count1 count2) := rfl

theorem saysTo_migSay (h : op < 2 ^ 32) : SaysTo s (s.migSay op part m count1 count2) op count1 := by
  obtain ⟨hop, hcount⟩ := migPayload_fields op part m count1 count2
  exact ⟨s.ownMsg 0 vtMigrate 0 0 0 0 (migPayload op part m count1 count2), rfl, rfl, rfl, hop.trans (Nat.mod_eq_of_lt h), hcount⟩

@[simp] theorem State.migSay_part (n : Nat) : (s.migSay op part m count1 count2).part n = s.part n := rfl

/-- No message that a VF holds is lost. -/
@[simp] theorem State.migSay_held (v : Nat) : ((s.migSay op part m count1 count2).vf v).held = (s.vf v).held := by
  rw [State.migSay_eq, State.sendOwn_eq, State.emit_vf]
  by_cases hv : v = 0
  · subst hv; rw [State.vf_modVf_self]; rfl
  · rw [State.vf_modVf_other s hv]
end

theorem SaysTo.congr {s s' t t' : State} {op count : Nat} (h : SaysTo s t op count) (hs : s.out = s'.out) (ht : t'.out = t.out) : SaysTo s' t' op count := by
  obtain ⟨m, hout, hm⟩ := h
  exact ⟨m, by rw [ht, hout, hs], hm⟩

/-! ## The source goes on -/

/-- Where every fault record has been told of, none is told of again. -/
theorem State.tellFaults_none {s : State} {part : Nat} {p : Part} (hp : s.part part = some p) (hf : p.faults = []) :
    s.tellFaults part = s.setPart part { p with faults := [] } := by
  simp [State.tellFaults, hp, hf]

/-- An SP of a partition that thaws. -/
def Sp.thawed (q : Sp) : Sp :=
  { q with ctx := q.ctx.map fun c => { c with frozen := false }, victims := q.victims.map fun v => { v with ctx := { v.ctx with frozen := false } } }

/-- A source without fault records that goes on. -/
theorem State.thaw_part {s : State} {part : Nat} {p : Part} (hf : p.faults = []) : (s.thaw part p).part part = some { p with migr := Migr.init } ∧
    (s.thaw part p).out = s.out ∧ (s.thaw part p).vfs = s.vfs := by
  let s1 := p.sps.foldl (fun t k => t.modSp k Sp.thawed) s
  have hs1 : s1 = { s with sps := s1.sps } := State.foldl_modSp_sps (fun _ => Sp.thawed) p.sps s
  have hout : s1.out = s.out := by rw [hs1]
  have hvfs : s1.vfs = s.vfs := by rw [hs1]
  let s2 : State := { s1 with engines := KMap.upd (helloEngine part) (fun g => { g with beats := [] }) s1.engines }
  let u := s2.setPart part { p with migr := Migr.init }
  have hu : u.tellFaults part = u.setPart part { p with migr := Migr.init, faults := [] } := State.tellFaults_none (State.part_setPart_self s2 part _) hf
  have hthaw : s.thaw part p = (u.setPart part { p with migr := Migr.init, faults := [] }).passSoon part := congrArg (State.passSoon · part) hu
  rw [hthaw]
  refine ⟨?_, ?_, ?_⟩
  · rw [State.passSoon_part, State.part_setPart_self, ← hf]
  · rw [State.passSoon_out]
    exact hout
  · unfold State.passSoon
    split <;> exact hvfs

/-! ## The destination discards -/

/-- What stands of an SP whose partition leaves the package: its counters, its debug state, and its routine store. -/
def Sp.kept (q : Sp) : Sp :=
  { Sp.init with gatherErr := q.gatherErr, attach := q.attach, dbgStopped := q.dbgStopped, snap := q.snap, ustore := q.ustore, rtab := q.rtab, installed := q.installed }

section
variable (s : State) (part : Nat) (p : Part)

/-- The SPs of the partition emptied. -/
def State.emptied (s : State) (p : Part) : State := p.sps.foldl (fun t k => t.modSp k Sp.kept) s

theorem State.emptied_frame : s.emptied p = { s with sps := (s.emptied p).sps } := State.foldl_modSp_sps (fun _ => Sp.kept) p.sps s

theorem State.discard_part : (s.discard part p).part part =
    some { p with codes := [], groups := [], used := [], sync := [], tokWait := [], faults := [] } := State.part_setPart_self ..

theorem State.discard_out : (s.discard part p).out = s.out := Eq.trans (b := (s.emptied p).out) rfl (by rw [State.emptied_frame])

theorem State.discard_vfs : (s.discard part p).vfs = s.vfs := Eq.trans (b := (s.emptied p).vfs) rfl (by rw [State.emptied_frame])

theorem State.discard_sp (k : Nat) : (s.discard part p).sp k = (s.emptied p).sp k := rfl

/-- No launch is left where every launch is the partition's. -/
theorem State.discard_launches (h : ∀ l ∈ s.launches, l.part = part) : (s.discard part p).launches = [] := by
  have hgone : s.launches.filter (fun l => decide (l.part = part)) = s.launches := List.filter_eq_self.mpr fun l hl => by simp [h l hl]
  have hl : (s.discard part p).launches = (s.emptied p).launches.filter fun l => !((s.launches.filter fun l => decide (l.part = part)).map (·.id)).contains l.id := rfl
  rw [hl, hgone, show (s.emptied p).launches = s.launches from by rw [State.emptied_frame], List.filter_eq_nil_iff]
  intro l hmem
  simp only [Bool.not_eq_true', Bool.not_eq_false, List.contains_iff_mem]
  exact List.mem_map_of_mem hmem
end

/-! ## Failure -/

/-- FAILED goes to VF 0 and to the peer. -/
def State.tellFailed (s : State) (part : Nat) (m : Migr) (reason : Nat) : State := (s.migSay 0x17 part m reason 0).notice part m ntFailed reason

section
variable (s : State) (part : Nat) (m : Migr) (reason : Nat)

theorem State.tellFailed_part (n : Nat) : (s.tellFailed part m reason).part n = s.part n := State.sendPacket_part ..

theorem saysTo_tellFailed : SaysTo s (s.tellFailed part m reason) 0x17 reason :=
  (saysTo_migSay s _ part m _ 0 (by decide)).congr rfl (State.sendPacket_out ..)

theorem State.tellFailed_held (v : Nat) : ((s.tellFailed part m reason).vf v).held = (s.vf v).held := by
  rw [State.tellFailed, State.notice, State.sendPacket_vf, State.migSay_held]
end

section
variable {s : State} {part : Nat} {p : Part} (hp : s.part part = some p)
include hp

/-- The source of a failed migration goes on as a partition that does not migrate. -/
theorem migFail_source (hrole : p.migr.role = 1) (hf : p.faults = []) {reason : Nat} : ∃ t, s.migFail part reason true = t ∧
    t.part part = some { p with migr := Migr.init } ∧ SaysTo s t 0x17 reason ∧ ∀ v, (t.vf v).held = (s.vf v).held := by
  obtain ⟨hpart, hout, hvfs⟩ := State.thaw_part (s := s) (part := part) hf
  refine ⟨(s.thaw part p).tellFailed part p.migr reason, ?_, (State.tellFailed_part ..).trans hpart, (saysTo_tellFailed ..).congr hout rfl, fun v => ?_⟩
  · rw [State.migFail, hp]
    simp only [hrole, if_true]
    rfl
  · rw [State.tellFailed_held, State.vf, hvfs, State.vf]

/-- The destination discards what it has received. -/
theorem migFail_destination (hrole : p.migr.role = 2) {reason : Nat} : ∃ t, s.migFail part reason true = t ∧
    (∃ r, t.part part = some r ∧ r.migr = Migr.init ∧ r.codes = []) ∧ SaysTo s t 0x17 reason := by
  let d := s.discard part { p with migr := Migr.init }
  let w : State := { d with records := s.records.filter fun r => decide (r.1 ≠ part), taken := s.taken.filter fun r => decide (r.1 ≠ part) }
  have hpart := State.discard_part s part { p with migr := Migr.init }
  have hout : w.out = s.out := State.discard_out s part { p with migr := Migr.init }
  refine ⟨w.tellFailed part p.migr reason, ?_, ⟨_, (State.tellFailed_part ..).trans hpart, rfl, rfl⟩, (saysTo_tellFailed w part p.migr reason).congr hout rfl⟩
  rw [State.migFail, hp]
  simp only [hrole, if_true]
  rfl
end

end Sys2Proof.Machine
end

-- ==== Sys2Proof/Proofs/MigrationMessages.lean ====

section
/-! PROOF. The MIGRATE messages of the host, and the hello (23 R446 to R449). -/

namespace Sys2Proof.Machine

/-! ## A MIGRATE message in its turn -/

section
variable {h : VctHdr} {m : MigArgs} {p : Part} {s : State} {i : Instr} {may : Migr → Bool} {f : State → Part → State}

/-- The machine once the message has been acknowledged. -/
def State.acked (s : State) (h : VctHdr) : State := (s.expecting h).ackMsg h

theorem State.acked_out (s : State) (h : VctHdr) : (s.acked h).out = s.out ++ [hostAnswer h vtAck 0 []] := rfl

theorem State.acked_held (ht : HostTurn s h) : ((s.acked h).vf h.vf).held = [] := by
  rw [State.acked, State.ackMsg, State.reply_vf_self, State.expecting_vf_self]
  exact ht.held_nil

section
variable (ht : HostTurn s h) (h0 : h.vf = 0) (hpart : m.part < 32) (hpeer : m.peerPart < 32) (hport : m.port < 16) (hpkg : m.peerPkg < 2 ^ 16)
  (hp : s.part m.part = some p)
include ht h0 hpart hpeer hport hpkg hp

theorem State.migOp_of_hostTurn : s.migOp h i m may f = (if may p.migr then f (s.acked h) p else (s.expecting h).nak h nkBusy).nextHeld h.vf := by
  have hrange : ¬(32 ≤ m.part ∨ 32 ≤ m.peerPart ∨ 16 ≤ m.port ∨ 2 ^ 16 ≤ m.peerPkg) := by omega
  unfold State.migOp
  rw [State.vctSystem_of_hostTurn ht h0]
  simp only [if_neg hrange, State.expecting_part, hp]
  rfl

/-- In a state that does not take it the message is NAK BUSY. -/
theorem migOp_busy (hx : exec i s = .next (s.migOp h i m may f)) (hmay : may p.migr = false) :
    ∃ t, exec i s = .next t ∧ Answered s h 0xE 8 t ∧ t.parts = s.parts := by
  have hu := unanswered_expecting s h
  refine ⟨(s.expecting h).nak h nkBusy, ?_, hu.answered _ _ _, rfl⟩
  rw [hx, State.migOp_of_hostTurn ht h0 hpart hpeer hport hpkg hp, hmay, if_neg (by decide)]
  exact congrArg _ (hu.nextHeld_reply ht _ _ _)

/-- In one that takes it the message is acknowledged and carried out. -/
theorem migOp_done (hx : exec i s = .next (s.migOp h i m may f)) (hmay : may p.migr = true) (hheld : ((f (s.acked h) p).vf h.vf).held = []) :
    exec i s = .next (f (s.acked h) p) := by
  rw [hx, State.migOp_of_hostTurn ht h0 hpart hpeer hport hpkg hp, hmay, if_pos rfl, State.nextHeld_of_held_nil hheld]

/-- A message that says something to VF 0 behind its acknowledgement. -/
theorem migOp_says {op count : Nat} {t : State} (hx : exec i s = .next (s.migOp h i m may f)) (hmay : may p.migr = true) (hf : f (s.acked h) p = t)
    (hheld : (t.vf h.vf).held = ((s.acked h).vf h.vf).held) (hsays : SaysTo (s.acked h) t op count) :
    exec i s = .next t ∧ ∃ m1 m2, t.out = s.out ++ [m1, m2] ∧ m1.type_ = 0xD ∧ m1.seq = h.seq ∧ m2.type_ = 8 ∧ field m2.payload 0 4 = op ∧
      field m2.payload 24 8 = count % 2 ^ 64 := by
  subst hf
  obtain ⟨m2, hout, -, hty, hop, hcount⟩ := hsays
  refine ⟨migOp_done ht h0 hpart hpeer hport hpkg hp hx hmay (hheld.trans (State.acked_held ht)), hostAnswer h vtAck 0 [], m2, ?_, rfl, rfl, hty, hop, hcount⟩
  rw [hout, State.acked_out, List.append_assoc]
  rfl

/-! ## The four messages -/

/-- ACCEPT prepares the partition. -/
theorem migrateAccept_done (hfree : p.migr.free = true) : ∃ t g m1 m2, exec (.migrateAccept h m) s = .next t ∧ t.part m.part = some { p with accept := some g } ∧
    g.role = 2 ∧ g.phase = 1 ∧ g.id = m.id ∧ g.peerPkg = m.peerPkg ∧ g.peerPart = m.peerPart ∧ g.port = m.port ∧ t.out = s.out ++ [m1, m2] ∧ m1.type_ = 0xD ∧
    m1.seq = h.seq ∧ m2.type_ = 8 ∧ field m2.payload 0 4 = 0x11 := by
  let g := MigArgs.begin m 2 s.now
  let u := (s.acked h).setPart m.part { p with accept := some g }
  have hsays : SaysTo (s.acked h) (u.migSay 0x11 m.part g 0 0) 0x11 0 := (saysTo_migSay u _ _ _ _ _ (by decide)).congr rfl rfl
  have hheld : ((u.migSay 0x11 m.part g 0 0).vf h.vf).held = ((s.acked h).vf h.vf).held := State.migSay_held u _ _ _ _ _ _
  obtain ⟨hstep, m1, m2, hout, hty1, hseq, hty2, hop, -⟩ := migOp_says ht h0 hpart hpeer hport hpkg hp (exec_migrateAccept s) hfree rfl hheld hsays
  exact ⟨_, g, m1, m2, hstep, State.part_setPart_self .., rfl, rfl, rfl, rfl, rfl, rfl, hout, hty1, hseq, hty2, hop⟩

/-- START sends the hello. -/
theorem migrateStart_done (hfree : p.migr.free = true) (hm : (s.port m.port).mode = 1) : ∃ t g k, exec (.migrateStart h m) s = .next t ∧ Answered s h 0xD 0 t ∧
    Sends (.migrateStart h m) s m.port k t ∧ t.part m.part = some { p with migr := g } ∧ g.role = 1 ∧ g.phase = 1 ∧ g.id = m.id ∧ k.op = 10 ∧
    k.dstPkg = m.peerPkg ∧ k.dstPart = m.peerPart ∧ field k.data 0 8 = m.id % 2 ^ 64 ∧ k.data.length = 64 := by
  let g := MigArgs.begin m 1 s.now
  let e := helloEngine m.part
  let n := (s.engine e).next
  let k := migPacket s.dev.pkg m.part g 10 0 e n 0 (toBytes 8 m.id ++ toBytes 1 m.part ++ toBytes 1 m.peerPart ++ List.replicate 54 0)
  let b : Beat := ⟨k, 0, 0, s.now, false, m.port, (s.acked h).farAddr m.port m.peerPkg⟩
  let u := ({ s.acked h with engines := KMap.ins e { next := (n + 1) % 2 ^ 32, beats := [b] } s.engines } : State).setPart m.part { p with migr := g }
  have hvf : (u.sendPacket m.port k).vf h.vf = (s.acked h).vf h.vf := State.sendPacket_vf u m.port k h.vf
  have hheld : ((u.sendPacket m.port k).vf h.vf).held = [] := by rw [hvf, State.acked_held ht]
  have hstep : exec (.migrateStart h m) s = .next (u.sendPacket m.port k) :=
    migOp_done ht h0 hpart hpeer hport hpkg hp (exec_migrateStart s) hfree hheld
  obtain ⟨hexpect, hmsg⟩ := (unanswered_expecting s h).answered vtAck 0 []
  refine ⟨_, g, k, hstep, ⟨?_, ?_⟩, sends_sendPacket hstep rfl rfl hm, ?_, rfl, rfl, rfl, rfl, rfl, rfl, ?_, ?_⟩
  · rw [hvf]
    exact hexpect
  · rw [State.sendPacket_out]
    exact hmsg
  · rw [State.sendPacket_part]
    exact State.part_setPart_self _ _ _
  · simp only [k, migPacket, List.append_assoc, field_toBytes]
    rfl
  · simp [k, migPacket]

/-- ABORT has the source go on. -/
theorem migrateAbort_done (hrole : p.migr.role = 1) (hphase : p.migr.phase ≤ 3) (hf : p.faults = []) : ∃ t m1 m2, exec (.migrateAbort h m) s = .next t ∧
    t.part m.part = some { p with migr := Migr.init } ∧ t.out = s.out ++ [m1, m2] ∧ m1.type_ = 0xD ∧ m1.seq = h.seq ∧ m2.type_ = 8 ∧ field m2.payload 0 4 = 0x17 ∧
    field m2.payload 24 8 = 4 ∧ t.mem = s.mem := by
  have hp' : (s.acked h).part m.part = some p := hp
  obtain ⟨t, ht', hpart', hsays, hheld⟩ := migFail_source hp' hrole hf (reason := mgAborted)
  have hmay : (decide (p.migr.role = 1) && decide (p.migr.phase ≤ 3)) = true := by simp [hrole, hphase]
  obtain ⟨hstep, m1, m2, hout, hty1, hseq, hty2, hop, hcount⟩ := migOp_says (may := fun g => decide (g.role = 1) && decide (g.phase ≤ 3))
    (f := fun s _ => s.migFail m.part mgAborted true) ht h0 hpart hpeer hport hpkg hp (exec_migrateAbort s) hmay ht' (hheld h.vf) hsays
  refine ⟨t, m1, m2, hstep, hpart', hout, hty1, hseq, hty2, hop, hcount, ?_⟩
  rw [← ht', State.migFail_mem]
  rfl

/-- RELEASE frees what the source held; it goes on answering MOVED. -/
theorem migrateRelease_done {k : Nat} (hrole : p.migr.role = 1) (hphase : p.migr.phase = 6) (hk : p.sps = [k]) (hl : ∀ l ∈ s.launches, l.part = m.part) :
    ∃ t m1 m2 q, exec (.migrateRelease h m) s = .next t ∧ t.launches = [] ∧ (t.sp k).ctx = none ∧ (t.sp k).victims = [] ∧ (t.sp k).held = none ∧
      (t.sp k).ustore = (s.sp k).ustore ∧ t.part m.part = some q ∧ q.migr = Migr.init ∧ q.moved = some (p.migr.peerPkg, p.migr.peerPart) ∧ q.codes = [] ∧ q.sps = [k] ∧
      t.out = s.out ++ [m1, m2] ∧ m1.type_ = 0xD ∧ m2.type_ = 8 ∧ field m2.payload 0 4 = 0x16 := by
  let q := { p with migr := Migr.init, accept := none, moved := some (p.migr.peerPkg, p.migr.peerPart) }
  let u := (s.acked h).discard m.part q
  have hout' : u.out = (s.acked h).out := State.discard_out (s.acked h) m.part q
  have hvfs : u.vfs = (s.acked h).vfs := State.discard_vfs (s.acked h) m.part q
  have hsays : SaysTo (s.acked h) (u.migSay 0x16 m.part p.migr 0 0) 0x16 0 := (saysTo_migSay u _ _ _ _ _ (by decide)).congr hout' rfl
  have hheld : ((u.migSay 0x16 m.part p.migr 0 0).vf h.vf).held = ((s.acked h).vf h.vf).held := by
    rw [State.migSay_held, State.vf, hvfs, State.vf]
  have hmay : (decide (p.migr.role = 1) && decide (p.migr.phase = 6)) = true := by simp [hrole, hphase]
  obtain ⟨hstep, m1, m2, hout, hty1, -, hty2, hop, -⟩ := migOp_says (may := fun g => decide (g.role = 1) && decide (g.phase = 6))
    (f := fun s p => (s.discard m.part { p with migr := Migr.init, accept := none, moved := some (p.migr.peerPkg, p.migr.peerPart) }).migSay 0x16 m.part p.migr 0 0)
    ht h0 hpart hpeer hport hpkg hp (exec_migrateRelease s) hmay rfl hheld hsays
  have hsp : (u.migSay 0x16 m.part p.migr 0 0).sp k = (s.sp k).kept := by
    refine Eq.trans (b := ((s.acked h).emptied q).sp k) rfl ?_
    rw [State.emptied, show q.sps = [k] from hk]
    exact State.sp_modSp_self (s.acked h) k Sp.kept
  refine ⟨_, m1, m2, _, hstep, State.discard_launches (s.acked h) m.part q hl, ?_, ?_, ?_, ?_, State.discard_part (s.acked h) m.part q, rfl, rfl, rfl, hk, hout, hty1, hty2, hop⟩
  iterate 4 · rw [hsp]; rfl
end
end

/-! ## The hello -/

section
variable {k : Packet} {p : Part} {s : State} (hp : s.part k.dstPart = some p) (hnew : (s.dup k).first s.dev.pkg k = none)
  (hm : (s.port (s.portTo p k.srcPkg)).mode = 1)
include hp hnew hm

omit hp hnew in
/-- The answer to a hello that comes for the first time leaves by the port to its package. -/
theorem hello_answered {q : Part} {status : Nat} (hport : (s.setPart k.dstPart q).portTo q k.srcPkg = s.portTo p k.srcPkg)
    (hstep : exec (.migrationHello k) s = .next ((s.setPart k.dstPart q).beatAnswer q k (answer s.dev.pkg k 6 status []))) :
    ∃ t, Sends (.migrationHello k) s (s.portTo p k.srcPkg) (answer s.dev.pkg k 6 status []) t ∧ t.part k.dstPart = some q := by
  rw [State.beatAnswer_ack op_ack_ne rfl, hport] at hstep
  refine ⟨_, sends_sendPacket hstep rfl rfl hm, ?_⟩
  rw [State.sendPacket_part]
  exact State.part_setPart_self s _ _

/-- A hello that matches its ACCEPT makes the partition a destination. -/
theorem migrationHello_accepted {g : Migr} (hg : p.accept = some g) (hfree : p.migr.free = true) (hid : field k.data 0 8 = g.id) (hpkg : k.srcPkg = g.peerPkg)
    (hpeer : field k.data 8 1 = g.peerPart) (hpart : field k.data 9 1 = k.dstPart) :
    ∃ t, Sends (.migrationHello k) s (s.portTo p k.srcPkg) (answer s.dev.pkg k 6 0 []) t ∧
      t.part k.dstPart = some { p with migr := { g with phase := 2, start := s.now, at_ := s.now }, accept := none, moved := none } := by
  refine hello_answered hm rfl ?_
  rw [exec_migrationHello, execMigrationHello, hp]
  simp only [hnew, hg, Option.filter_some, hfree, hid, hpkg, hpeer, hpart, decide_true, Bool.and_self, if_true, Option.isSome_some]

/-- Any other is answered PERM. -/
theorem migrationHello_refused (hg : ∀ g, p.accept = some g → field k.data 0 8 ≠ g.id) :
    ∃ t, Sends (.migrationHello k) s (s.portTo p k.srcPkg) (answer s.dev.pkg k 6 4 []) t ∧ t.part k.dstPart = some p := by
  have hnone : (p.accept.filter fun g => p.migr.free && decide (field k.data 0 8 = g.id) && decide (k.srcPkg = g.peerPkg) && decide (field k.data 8 1 = g.peerPart)
      && decide (field k.data 9 1 = k.dstPart)) = none := by
    rw [Option.filter_eq_none_iff]
    intro g hmem
    simp [hg g hmem]
  refine hello_answered hm rfl ?_
  rw [exec_migrationHello, execMigrationHello, hp]
  simp only [hnew, hnone, Option.isSome_none, Bool.false_eq_true, if_false]
end

end Sys2Proof.Machine
end

-- ==== Sys2Proof/Proofs/MigrationSource.lean ====

section
/-! PROOF. The source of a migration: FROZEN and the state records, the pages, and DRAINED (23 R449 to R452, R456, R459). -/

namespace Sys2Proof.Machine

section
variable {part : Nat} {p : Part} {s : State} (hp : s.part part = some p)
include hp

/-! ## FROZEN -/

omit hp in
/-- The last record says how many stand before it. -/
theorem State.migRecords_last (s : State) (part : Nat) (p : Part) : (s.migRecords part p).getLast? = some (.last ((s.migRecords part p).length - 1)) := by
  unfold State.migRecords
  simp only [List.getLast?_concat, List.length_append, List.length_singleton, Nat.add_sub_cancel]

/-- Once everything is saved and drained, FROZEN is sent and the records follow. -/
theorem migrationFrozen_says (hrole : p.migr.role = 1) (hphase : p.migr.phase = 2) (hquiet : s.migQuiet part p = true) :
    ∃ (t : State) (l : List MigRec) (m : Msg) (q : Migr), exec (.migrationFrozen part) s = .next t ∧ t.part part = some { p with migr := q } ∧ q.phase = 3 ∧
      q.bytes = migBytes p s.dups.length (p.spList.map s.sp) ∧ t.recordsOut = s.recordsOut ++ l.map (fun r => (p.migr.port, r)) ∧ l.getLast? = some (.last (l.length - 1)) ∧
      t.out = s.out ++ [m] ∧ m.vf = 0 ∧ m.type_ = 8 ∧ field m.payload 0 4 = 0x12 ∧ t.mem = s.mem := by
  let n := migBytes p s.dups.length (p.spList.map s.sp)
  let q := { p.migr with phase := 3, at_ := s.now, bytes := n }
  let u := s.setPart part { p with migr := q }
  let v := u.migSay 0x12 part p.migr (p.migr.saved - p.migr.start) n
  let t : State := { v with recordsOut := v.recordsOut ++ (v.migRecords part p).map fun r => (p.migr.port, r) }
  obtain ⟨m, hout, hvf, hty, hop, -⟩ := saysTo_migSay u 0x12 part p.migr (p.migr.saved - p.migr.start) n (by decide)
  have hstep : exec (.migrationFrozen part) s = .next t := by
    have hgo : ¬(p.migr.role ≠ 1 ∨ p.migr.phase ≠ 2) := by omega
    have hq : ¬(!s.migQuiet part p) = true := by rw [hquiet]; decide
    rw [exec_migrationFrozen, execMigrationFrozen, hp]
    exact congrArg _ ((if_neg hgo).trans (if_neg hq))
  exact ⟨t, v.migRecords part p, m, q, hstep, State.part_setPart_self s part _, rfl, rfl, rfl, v.migRecords_last part p, hout, hvf, hty, hop, rfl⟩

theorem migrationFrozen_other (hphase : p.migr.phase ≠ 2) : exec (.migrationFrozen part) s = .next s := by
  rw [exec_migrationFrozen, execMigrationFrozen, hp]
  simp only [hphase, ne_eq, not_false_eq_true, or_true, if_true]

/-! ## DRAINED -/

/-- DRAINED follows when the grace period ends. -/
theorem graceExpiry_says (hrole : p.migr.role = 1) (hphase : p.migr.phase = 5) (hdue : p.migr.at_ + graceCycles ≤ s.now) : ∃ t m, exec (.graceExpiry part) s = .next t ∧
    t.part part = some { p with migr := { p.migr with phase := 6, at_ := s.now }, moved := some (p.migr.peerPkg, p.migr.peerPart) } ∧ t.out = s.out ++ [m] ∧
    m.vf = 0 ∧ m.type_ = 8 ∧ field m.payload 0 4 = 0x15 := by
  let u := s.setPart part { p with migr := { p.migr with phase := 6, at_ := s.now }, moved := some (p.migr.peerPkg, p.migr.peerPart) }
  obtain ⟨m, hout, hvf, hty, hop, -⟩ := saysTo_migSay u 0x15 part p.migr p.migr.n1 p.migr.n2 (by decide)
  have hstep : exec (.graceExpiry part) s = .next (u.migSay 0x15 part p.migr p.migr.n1 p.migr.n2) := by
    rw [exec_graceExpiry, execGraceExpiry, hp]
    exact congrArg _ (if_pos ⟨hrole, hphase, hdue⟩)
  exact ⟨_, m, hstep, State.part_setPart_self s part _, hout, hvf, hty, hop⟩

theorem graceExpiry_early (hnow : s.now < p.migr.at_ + graceCycles) : exec (.graceExpiry part) s = .next s := by
  rw [exec_graceExpiry, execGraceExpiry, hp]
  simp only [Nat.not_le.mpr hnow, and_false, if_false]

/-! ## Pages -/

omit hp in
/-- Packets sent one after another by one scale-up port wait behind each other. -/
theorem State.foldl_sendPacket_port {n : Nat} (f : Nat → Packet) (l : List Nat) {s : State} (hm : (s.port n).mode = 1) :
    ∃ ports, l.foldl (fun t i => t.sendPacket n (f i)) s = { s with ports := ports } ∧
      (KMap.get Port.init ports n).queue = (s.port n).queue ++ l.flatMap fun i => (pktFlitList (f i)).map fun x => ⟨8, s.now + fabricToArith 12, x⟩ := by
  induction l generalizing s with
  | nil => exact ⟨s.ports, rfl, (List.append_nil _).symm⟩
  | cons i l ih =>
    have hsent : s.sendPacket n (f i) = s.modPort n (Port.sendAt s.now (f i)) := State.sendPacket_up hm _
    have hmode : ((s.modPort n (Port.sendAt s.now (f i))).port n).mode = 1 := by rw [State.port_modPort_self]; exact hm
    obtain ⟨ports, hfold, hqueue⟩ := ih hmode
    refine ⟨ports, ?_, ?_⟩
    · rw [List.foldl_cons, hsent, hfold]
      rfl
    · rw [hqueue, State.port_modPort_self, List.flatMap_cons, ← List.append_assoc]
      rfl

section
variable {page x : Nat} {b : State} (hphase : 3 ≤ p.migr.phase) (hpulls : p.migr.pulls = [x]) (hx : x / 2 = page)
  (hb : b = s.writeBack fun l => decide (l.beat / 1024 = page))
include hphase hpulls hx hb

/-- What the shipping of the page that is next finds after its lines have been written back. -/
theorem pageShip_next (hrole : p.migr.role = 1) : exec (.pageShip part page) s = .next (
    if b.accs.any fun a => decide (a.part = part) && decide (a.state = 2) && decide (a.pa / 0x10000 = page) then b
    else (List.range 64).foldl (fun t i => t.sendPacket p.migr.port (b.pagePacket part page i p.migr))
      (b.setPart part { p with migr := { p.migr with pulls := [], pages := p.migr.pages.filter (· ≠ page) ++ [page] } })) := by
  have hpb : b.part part = some p := by rw [hb]; exact hp
  rw [exec_pageShip, execPageShip, ← hb, hpb]
  have hgo : ¬(p.migr.role ≠ 1 ∨ p.migr.phase < 3 ∨ p.migr.pulls.head?.map (· / 2) ≠ some page) := by
    rw [hpulls, List.head?_cons, Option.map_some, hx]
    rintro (h | h | h)
    · exact h hrole
    · exact Nat.not_lt.mpr hphase h
    · exact h rfl
  refine congrArg _ ((if_neg hgo).trans ?_)
  rw [hpulls]
  rfl

/-- The page waits for what the slices have yet to perform on it. -/
theorem pageShip_waits (hrole : p.migr.role = 1) (ha : ∃ a ∈ s.accs, a.part = part ∧ a.state = 2 ∧ a.pa / 0x10000 = page) : exec (.pageShip part page) s = .next b := by
  obtain ⟨a, hmem, hpart, hst, hpa⟩ := ha
  have hany : (b.accs.any fun a => decide (a.part = part) && decide (a.state = 2) && decide (a.pa / 0x10000 = page)) = true := by
    rw [List.any_eq_true]
    exact ⟨a, by rw [hb]; exact hmem, by simp [hpart, hst, hpa]⟩
  rw [pageShip_next hp hphase hpulls hx hb hrole, if_pos hany]

/-- Then it is shipped as 64 packets. -/
theorem pageShip_ships (hrole : p.migr.role = 1) (hm : (s.port p.migr.port).mode = 1) (ha : s.accs = []) : ∃ t, exec (.pageShip part page) s = .next t ∧ t.mem = b.mem ∧
    t.cache = b.cache ∧ (t.port p.migr.port).queue = (s.port p.migr.port).queue ++
      (List.range 64).flatMap (fun i => (pktFlitList (b.pagePacket part page i p.migr)).map fun f => ⟨8, s.now + fabricToArith 12, f⟩) ∧
    t.part part = some { p with migr := { p.migr with pulls := [], pages := p.migr.pages.filter (· ≠ page) ++ [page] } } := by
  have hnone : b.accs = [] := by rw [hb]; exact ha
  have hports : b.ports = s.ports := by rw [hb]; rfl
  have hnow : b.now = s.now := by rw [hb]; rfl
  have hport : b.port p.migr.port = s.port p.migr.port := congrArg (fun m => KMap.get Port.init m p.migr.port) hports
  let u := b.setPart part { p with migr := { p.migr with pulls := [], pages := p.migr.pages.filter (· ≠ page) ++ [page] } }
  obtain ⟨ports, hfold, hqueue⟩ := State.foldl_sendPacket_port (s := u) (fun i => b.pagePacket part page i p.migr) (List.range 64)
    (show (b.port p.migr.port).mode = 1 by rw [hport]; exact hm)
  have hqueue' : (KMap.get Port.init ports p.migr.port).queue = (b.port p.migr.port).queue ++
      (List.range 64).flatMap fun i => (pktFlitList (b.pagePacket part page i p.migr)).map fun x => ⟨8, b.now + fabricToArith 12, x⟩ := hqueue
  rw [hport, hnow] at hqueue'
  refine ⟨{ u with ports := ports }, ?_, rfl, rfl, hqueue', State.part_setPart_self b part _⟩
  rw [pageShip_next hp hphase hpulls hx hb hrole, hnone, List.any_nil, if_neg (by decide)]
  exact congrArg _ hfold
end
end

end Sys2Proof.Machine
end

-- ==== Sys2Proof/Proofs/MigrationDestination.lean ====

section
/-! PROOF. The destination of a migration takes the state records, resumes, and pulls the pages (23 R452 to R456). -/

namespace Sys2Proof.Machine

section
variable {part : Nat} {p : Part} {s : State} (hp : s.part part = some p) (hrole : p.migr.role = 2)

/-! ## State records -/

/-- The partition after a record has come at cycle `now`. -/
def Part.recordAt (p : Part) (now : Nat) : Part := { p with migr := { p.migr with at_ := now } }

/-- The only record that stands ready is taken. -/
def State.recordTaken (s : State) (part : Nat) (p : Part) (r : MigRec) : State :=
  ({ s with records := [], taken := s.taken ++ [(part, r)] } : State).setPart part (p.recordAt s.now)

theorem State.recordTaken_part (s : State) (part : Nat) (p : Part) (r : MigRec) : (s.recordTaken part p r).part part = some (p.recordAt s.now) := State.part_setPart_self ..

/-- What a record does once it has been taken. -/
def State.recordDoes (s : State) (part : Nat) (p : Part) (r : MigRec) : State :=
  let t := s.recordTaken part p r
  match r with
  | .part q _ vfs _ _ => if s.migMatches part p q vfs then t else t.migFail part mgMismatch true
  | .last n =>
    if (s.takenOf part).length ≠ n then t.migFail part mgLink true
    else if s.migRefused (s.takenOf part) ≠ 0 then t.migFail part (s.migRefused (s.takenOf part)) true else t.migInstall part p (s.takenOf part)
  | _ => t

section
include hp hrole

theorem stateRecord_only (hphase : p.migr.phase = 2) {r : MigRec} (hr : s.records = [(part, r)]) : exec (.stateRecord part) s = .next (s.recordDoes part p r) := by
  have hgo : ¬(p.migr.role ≠ 2 ∨ p.migr.phase ≠ 2) := by omega
  have hfind : (s.records.find? fun r => decide (r.1 = part)) = some (part, r) := by simp [hr]
  have hdrop : dropFirst (fun r => decide (r.1 = part)) s.records = [] := by simp [hr, dropFirst]
  rw [exec_stateRecord, execStateRecord, hp, hfind]
  refine congrArg _ ((if_neg hgo).trans ?_)
  rw [hdrop]
  rfl

omit hp in
/-- A failure after a record has been taken. -/
theorem recordTaken_fails (r : MigRec) (reason : Nat) : ∃ t, (s.recordTaken part p r).migFail part reason true = t ∧
    (∃ q, t.part part = some q ∧ q.migr = Migr.init ∧ q.codes = []) ∧ SaysTo s t 0x17 reason := by
  obtain ⟨t, ht, hpart, hsays⟩ := migFail_destination (s.recordTaken_part part p r) hrole (reason := reason)
  exact ⟨t, ht, hpart, hsays.congr rfl rfl⟩

/-- A handle is put by until the last record. -/
theorem stateRecord_handle (hphase : p.migr.phase = 2) {c : Code} (hr : s.records = [(part, .handle c)]) : ∃ t, exec (.stateRecord part) s = .next t ∧ t.records = [] ∧
    t.taken = s.taken ++ [(part, .handle c)] ∧ t.part part = some { p with migr := { p.migr with at_ := s.now } } ∧ t.mem = s.mem ∧ t.sps = s.sps :=
  ⟨s.recordTaken part p (.handle c), stateRecord_only hp hrole hphase hr, rfl, rfl, State.recordTaken_part .., rfl, rfl⟩

/-- The partition must be the same. -/
theorem stateRecord_mismatch (hphase : p.migr.phase = 2) {q : Part} {ls : List Launch} {vfs : List Nat} {ports : KMap Port} {parked : List Acc}
    (hr : s.records = [(part, .part q ls vfs ports parked)]) (hno : s.migMatches part p q vfs = false) : ∃ t, exec (.stateRecord part) s = .next t ∧
      (∃ r, t.part part = some r ∧ r.migr = Migr.init ∧ r.codes = []) ∧ SaysTo s t 0x17 mgMismatch := by
  obtain ⟨t, ht, hrest⟩ := recordTaken_fails hrole (.part q ls vfs ports parked) mgMismatch
  refine ⟨t, ?_, hrest⟩
  rw [stateRecord_only hp hrole hphase hr, State.recordDoes, hno, ← ht]
  rfl

/-- No record may be missing. -/
theorem stateRecord_missing (hphase : p.migr.phase = 2) {n : Nat} (hr : s.records = [(part, .last n)]) (hn : (s.takenOf part).length ≠ n) :
    ∃ t, exec (.stateRecord part) s = .next t ∧ (∃ r, t.part part = some r ∧ r.migr = Migr.init ∧ r.codes = []) ∧ SaysTo s t 0x17 mgLink := by
  obtain ⟨t, ht, hrest⟩ := recordTaken_fails hrole (.last n) mgLink
  refine ⟨t, ?_, hrest⟩
  rw [stateRecord_only hp hrole hphase hr, ← ht]
  exact congrArg _ (if_pos hn)

/-- None in time ends it. -/
theorem stateRecordTimeout_fails (hphase : p.migr.phase = 2) (hdue : p.migr.at_ + recordCycles ≤ s.now) : ∃ t, exec (.stateRecordTimeout part) s = .next t ∧
    (∃ r, t.part part = some r ∧ r.migr = Migr.init ∧ r.codes = []) ∧ SaysTo s t 0x17 mgLink := by
  obtain ⟨t, ht, hrest⟩ := migFail_destination hp hrole (reason := mgLink)
  refine ⟨t, ?_, hrest⟩
  rw [exec_stateRecordTimeout, execStateRecordTimeout, hp, ← ht]
  exact congrArg _ (if_pos ⟨hrole, hphase, hdue⟩)

omit hrole in
theorem stateRecordTimeout_early (hnow : s.now < p.migr.at_ + recordCycles) : exec (.stateRecordTimeout part) s = .next s := by
  rw [exec_stateRecordTimeout, execStateRecordTimeout, hp]
  exact congrArg _ (if_neg fun h => Nat.not_le.mpr hnow h.2.2)

/-! ## The records take effect -/

/-- The partition that its record makes of the destination's `own`: its place in the code memory and its migration are the destination's. -/
structure Part.Arrived (own q r : Part) : Prop where
  migr : r.migr = own.migr
  sps : r.sps = q.sps
  linear : r.linear = q.linear
  paged : r.paged = q.paged
  arena : r.arena = own.arena
  arenaBase : r.arenaBase = own.arenaBase
  faults : q.faults = [] → r.faults = []

omit hp hrole in
/-- The record of a partition writes the partition, launches, accesses and ports. -/
theorem State.migApply_part (w : State) (own : Part) (f : Nat → Nat) (q : Part) (ls : List Launch) (vfs : List Nat) (ports : KMap Port) (parked : List Acc) :
    ∃ r launches nextAcc accs ports', own.Arrived q r ∧ w.migApply part own f (.part q ls vfs ports parked) =
      { w.setPart part r with launches := launches, nextAcc := nextAcc, accs := accs, ports := ports' } := by
  refine ⟨_, _, _, _, _, ?_, rfl⟩
  exact ⟨rfl, rfl, rfl, rfl, rfl, rfl, fun h => by rw [h]; rfl⟩

/-- The destination's partition once its records have been accepted. -/
def Part.installs (p q : Part) (now : Nat) : Part :=
  { p with migr := { p.migr with phase := 3, at_ := now, pages := q.migPages, bytes := migBytes q 0 [], contexts := 0 } }

omit hp hrole in
/-- The record of a partition without fault records is installed. -/
theorem migInstall_part {u : State} {q : Part} (hfaults : q.faults = []) : ∃ t r, u.migInstall part p [.part q [] [] [] []] = t ∧ t.records = u.records ∧
    t.taken = u.taken.filter (fun r => decide (r.1 ≠ part)) ∧ t.mem = u.mem ∧ t.out = u.out ∧ t.part part = some r ∧ (p.installs q u.now).Arrived q r := by
  obtain ⟨r, launches, nextAcc, accs, ports, hr, happly⟩ := u.migApply_part (part := part) (p.installs q u.now) (fun a => a + p.arenaBase - q.arenaBase) q [] [] [] []
  let v : State := { u.setPart part r with launches := launches, nextAcc := nextAcc, accs := accs, ports := ports, taken := u.taken.filter fun r => decide (r.1 ≠ part) }
  have hinstall : u.migInstall part p [.part q [] [] [] []] = v.tellFaults part :=
    congrArg (fun w : State => ({ w with taken := w.taken.filter fun r => decide (r.1 ≠ part) } : State).tellFaults part) happly
  have htell := State.tellFaults_none (s := v) (State.part_setPart_self u part r) (hr.faults hfaults)
  exact ⟨_, { r with faults := [] }, hinstall.trans htell, rfl, rfl, rfl, rfl, State.part_setPart_self v part _,
    ⟨hr.migr, hr.sps, hr.linear, hr.paged, hr.arena, hr.arenaBase, fun _ => rfl⟩⟩

/-- The last record has those before it take effect. -/
theorem stateRecord_installs (hphase : p.migr.phase = 2) {q : Part} (hr : s.records = [(part, .last 1)]) (htaken : s.taken = [(part, .part q [] [] [] [])])
    (hfaults : q.faults = []) : ∃ t r, exec (.stateRecord part) s = .next t ∧
      t.records = [] ∧ t.taken = [] ∧ t.mem = s.mem ∧ t.out = s.out ∧ t.part part = some r ∧ r.migr.role = 2 ∧ r.migr.phase = 3 ∧ r.migr.pages = q.migPages ∧
      r.sps = q.sps ∧ r.linear = q.linear ∧ r.paged = q.paged ∧ r.arena = p.arena ∧ r.arenaBase = p.arenaBase := by
  let u := s.recordTaken part p (.last 1)
  have hrecs : s.takenOf part = [.part q [] [] [] []] := by simp [State.takenOf, htaken]
  have hu : u.taken = [(part, .part q [] [] [] []), (part, .last 1)] := congrArg (· ++ [(part, MigRec.last 1)]) htaken
  obtain ⟨t, r, hinstall, hrecords, htaken', hmem, hout, hpart, hr'⟩ := migInstall_part (part := part) (p := p) (u := u) hfaults
  have hdoes : s.recordDoes part p (.last 1) = t := by
    rw [← hinstall]
    unfold State.recordDoes
    simp only [hrecs]
    rfl
  refine ⟨t, r, (stateRecord_only hp hrole hphase hr).trans (congrArg _ hdoes), hrecords, ?_, hmem, hout, hpart, ?_, ?_, ?_, hr'.sps, hr'.linear, hr'.paged, hr'.arena, hr'.arenaBase⟩
  · rw [htaken', hu]
    simp
  · rw [hr'.migr]
    exact hrole
  · rw [hr'.migr]
    rfl
  · rw [hr'.migr]
    rfl
end
end

end Sys2Proof.Machine
end

-- ==== Sys2Proof/Proofs/MigrationPages.lean ====

section
/-! PROOF. The destination resumes, and its pages come on demand and in the background (23 R449, R454 to R456). -/

namespace Sys2Proof.Machine

/-! ## A page is asked for -/

/-- The pull request is one packet to the source; only engines and ports change. -/
theorem State.sendPull_packet (s : State) (part die page : Nat) (m : Migr) : ∃ (k : Packet) (engines : KMap Engine),
    s.sendPull part die page m = State.sendPacket { s with engines := engines } m.port k ∧
    k.op = 2 ∧ k.ia = page * 0x10000 ∧ k.dstPkg = m.peerPkg ∧ k.dstPart = m.peerPart :=
  ⟨_, _, rfl, rfl, rfl, rfl, rfl⟩

theorem State.sendPull_part (s : State) (part die page : Nat) (m : Migr) (n : Nat) : (s.sendPull part die page m).part n = s.part n := State.sendPacket_part ..

theorem State.sendPull_out (s : State) (part die page : Nat) (m : Migr) : (s.sendPull part die page m).out = s.out := State.sendPacket_out ..

/-- What the notice to the peer leaves. -/
theorem State.notice_engine (s : State) (part : Nat) (m : Migr) (code reason e : Nat) : (s.notice part m code reason).engine e = s.engine e := by
  rw [State.notice, State.sendPacket_frame]
  rfl

/-- The partition that has asked for one page. -/
def Part.pulling (p : Part) (page die : Nat) : Part := { p with migr := { p.migr with pulls := [page * 8 + die] } }

section
variable {part page : Nat} {p : Part} {s : State} (hp : s.part part = some p)
include hp

/-- The first request of a partition is noted and sent. -/
theorem askPage_first {die : Nat} (hpulls : p.migr.pulls = []) (hbeats : (s.engine (pullEngine part die)).beats = []) :
    s.askPage part die page = (s.setPart part (p.pulling page die)).sendPull part die page p.migr := by
  unfold State.askPage Part.pulling
  simp only [hp, hpulls, hbeats, List.any_nil, Bool.false_eq_true, if_false, List.nil_append, List.length_nil, show 0 < 64 from by decide, if_true]

/-! ## The background pull -/

theorem backgroundPull_other (hphase : p.migr.phase ≠ 4) : s.backgroundPull part = s := by
  unfold State.backgroundPull
  simp only [hp, hphase, ne_eq, not_false_eq_true, or_true, if_true]

section
variable (hrole : p.migr.role = 2) (hphase : p.migr.phase = 4)
include hrole hphase

/-- It asks for a page that no one has asked for. -/
theorem backgroundPull_asks (hpages : p.migr.pages = [page]) (hpulls : p.migr.pulls = []) : s.backgroundPull part = s.askPage part 7 page := by
  unfold State.backgroundPull
  simp [hp, hrole, hphase, hpages, hpulls, least]

/-- When no page is absent, PULLED is sent. -/
theorem backgroundPull_done (hpages : p.migr.pages = []) : ∃ t q, s.backgroundPull part = t ∧ t.part part = some { p with migr := q } ∧ q.pages = [] ∧ q.phase = 5 ∧
    SaysTo s t 0x14 p.migr.n1 := by
  let u := s.setPart part { p with migr := { p.migr with phase := 5, at_ := s.now } }
  let v := u.migSay 0x14 part p.migr p.migr.n1 p.migr.n2
  have hgo : ¬(p.migr.role ≠ 2 ∨ p.migr.phase ≠ 4) := by omega
  refine ⟨v.notice part p.migr ntPulled 0, { p.migr with phase := 5, at_ := s.now }, ?_, ?_, hpages, rfl, ?_⟩
  · unfold State.backgroundPull
    rw [hp]
    exact (if_neg hgo).trans (if_pos (by rw [hpages]; rfl))
  · rw [State.notice, State.sendPacket_part]
    exact State.part_setPart_self s part _
  · exact (saysTo_migSay u 0x14 part p.migr p.migr.n1 p.migr.n2 (by decide)).congr rfl (State.sendPacket_out ..)
end

/-! ## RESUMED -/

variable (hrole : p.migr.role = 2) (hpages : p.migr.pages = [page]) (hpulls : p.migr.pulls = [])
include hrole hpages hpulls

/-- Once every context that the freeze has saved is restored, RESUMED is sent and paging begins. -/
theorem migrationResumed_says (hphase : p.migr.phase = 3) (hthawed : ∀ k ∈ p.sps, ∀ v ∈ (s.sp k).victims, v.ctx.frozen = false)
    (hbeats : (s.engine (pullEngine part 7)).beats = []) : ∃ t q m, exec (.migrationResumed part) s = .next t ∧ t.part part = some { p with migr := q } ∧ q.phase = 4 ∧
      q.pages = [page] ∧ q.pulls = [page * 8 + 7] ∧ t.out = s.out ++ [m] ∧ m.vf = 0 ∧ m.type_ = 8 ∧ field m.payload 0 4 = 0x13 ∧ t.mem = s.mem := by
  let r : Part := { p with migr := { p.migr with phase := 4, at_ := s.now } }
  let u := s.setPart part r
  let w := u.migSay 0x13 part p.migr p.migr.bytes p.migr.contexts
  let v := w.notice part p.migr ntResumed 0
  have hv : v.part part = some r := (State.sendPacket_part ..).trans (State.part_setPart_self s part r)
  have hbeats' : (v.engine (pullEngine part 7)).beats = [] := by
    rw [State.notice_engine]
    exact hbeats
  have hpull : v.backgroundPull part = (v.setPart part (r.pulling page 7)).sendPull part 7 page r.migr :=
    (backgroundPull_asks hv hrole rfl hpages hpulls).trans (askPage_first hv hpulls hbeats')
  have hfrozen : (p.sps.any fun k => (s.sp k).victims.any fun v => v.ctx.frozen) = false := by
    simpa only [List.any_eq_false, Bool.not_eq_true] using hthawed
  have hstep : exec (.migrationResumed part) s = .next ((v.backgroundPull part).passSoon part) := by
    have hgo : ¬(p.migr.role ≠ 2 ∨ p.migr.phase ≠ 3 ∨ (p.sps.any fun k => (s.sp k).victims.any fun v => v.ctx.frozen) = true) := by
      rw [hfrozen]
      simp [hrole, hphase]
    rw [exec_migrationResumed, execMigrationResumed, hp]
    exact congrArg _ (if_neg hgo)
  obtain ⟨m, hout, hvf, hty, hop, -⟩ := saysTo_migSay u 0x13 part p.migr p.migr.bytes p.migr.contexts (by decide)
  refine ⟨_, (r.pulling page 7).migr, m, hstep, ?_, rfl, hpages, rfl, ?_, hvf, hty, hop, ?_⟩
  · rw [State.passSoon_part, hpull, State.sendPull_part]
    exact State.part_setPart_self ..
  · rw [State.passSoon_out, hpull, State.sendPull_out]
    exact (State.sendPacket_out ..).trans hout
  · rw [State.passSoon_mem, State.backgroundPull_mem]
    exact State.sendPacket_mem ..

/-! ## The request of an access -/

omit hrole hpages in
/-- An access that waits for an absent page has its slice ask for it. -/
theorem pagePullRequest_sends {a : Acc} (hm : (s.port p.migr.port).mode = 1) (ha : s.accs = [a]) (hpart : a.part = part) (hpa : a.pa / 0x10000 = page)
    (hbeats : (s.engine (pullEngine part (dieOfPa a.pa))).beats = []) (hst : a.state = 10) : ∃ t k, Sends (.pagePullRequest a.id) s p.migr.port k t ∧ k.op = 2 ∧
      k.ia = page * 0x10000 ∧ k.dstPkg = p.migr.peerPkg ∧ k.dstPart = p.migr.peerPart ∧ t.accs = [a] ∧
      t.part part = some { p with migr := { p.migr with pulls := [page * 8 + dieOfPa a.pa] } } := by
  let u := s.setPart part (p.pulling page (dieOfPa a.pa))
  have hacc : s.acc a.id = some a := by simp [State.acc, ha]
  obtain ⟨k, engines, hpull, hop, hia, hpkg, hdst⟩ := u.sendPull_packet part (dieOfPa a.pa) page p.migr
  have hstep : exec (.pagePullRequest a.id) s = .next (State.sendPacket { u with engines := engines } p.migr.port k) := by
    rw [exec_pagePullRequest, execPagePullRequest, hacc]
    refine congrArg _ ((if_pos hst).trans ?_)
    rw [hpart, hpa, ← hpull]
    exact askPage_first hp hpulls hbeats
  refine ⟨_, k, sends_sendPacket hstep rfl rfl hm, hop, hia, hpkg, hdst, ?_, ?_⟩
  · rw [State.sendPacket_frame]
    exact ha
  · rw [State.sendPacket_part]
    exact State.part_setPart_self s part _

omit hp hrole hpages hpulls in
theorem pagePullRequest_other {a : Acc} (ha : s.accs = [a]) (hst : a.state ≠ 10) : exec (.pagePullRequest a.id) s = .next s := by
  have hacc : s.acc a.id = some a := by simp [State.acc, ha]
  rw [exec_pagePullRequest, execPagePullRequest, hacc]
  exact congrArg _ (if_neg hst)

/-! ## The page is present -/

/-- The migration after a page that the background pull asked for. -/
def Migr.pageCame (m : Migr) (page : Nat) : Migr :=
  { m with pages := m.pages.filter (· ≠ page), own := m.own.filter fun r => decide (r.1 / 0x10000 ≠ page), pulls := [], got := KMap.del page m.got, n2 := m.n2 + 1 }

/-- An access goes on at cycle `now` where it waits for a page of a partition. -/
def Acc.pageCame (part page now : Nat) (a : Acc) : Acc := if a.state = 10 ∧ a.part = part ∧ a.pa / 0x10000 = page then { a with state := 2, ready := now } else a

/-- The page has been written, and what waits for it goes on. -/
def State.pageCame (s : State) (part page : Nat) (p : Part) : State :=
  { s.setPart part { p with migr := p.migr.pageCame page } with
    engines := KMap.upd (pullEngine part 7) (fun (e : Engine) => { e with beats := e.beats.filter fun b => decide (b.pkt.ia ≠ page * 0x10000) }) s.engines,
    accs := s.accs.map (Acc.pageCame part page s.now) }

omit hp hrole hpages hpulls in
theorem State.pageCame_part (s : State) (part page : Nat) (p : Part) : (s.pageCame part page p).part part = some { p with migr := p.migr.pageCame page } :=
  State.part_setPart_self s part _

/-- A page that only the background pull can have asked for. -/
theorem pagePresent_comes : exec (.pagePresent part page) s = .next ((s.pageCame part page p).backgroundPull part) := by
  have hgo : ¬(p.migr.role ≠ 2 ∨ (!p.migr.pages.contains page) = true) := by simp [hrole, hpages]
  rw [exec_pagePresent, execPagePresent, hp]
  refine congrArg _ ((if_neg hgo).trans ?_)
  rw [hpulls]
  rfl

omit hp hrole hpulls in
theorem Migr.pageCame_pages : (p.migr.pageCame page).pages = [] := by simp [Migr.pageCame, hpages]

/-- The access that waits for the page goes on. -/
theorem pagePresent_access {a : Acc} (ha : s.accs = [a]) (hst : a.state = 10) (hpart : a.part = part) (hpa : a.pa / 0x10000 = page) (hphase : p.migr.phase = 3) :
    ∃ t q, exec (.pagePresent part page) s = .next t ∧ t.accs = [{ a with state := 2, ready := s.now }] ∧ t.part part = some { p with migr := q } ∧ q.pages = [] ∧
      q.n2 = p.migr.n2 + 1 ∧ t.mem = s.mem := by
  have hcame := s.pageCame_part part page p
  have hother : (s.pageCame part page p).backgroundPull part = s.pageCame part page p :=
    backgroundPull_other hcame (show p.migr.phase ≠ 4 by omega)
  refine ⟨s.pageCame part page p, p.migr.pageCame page, ?_, ?_, hcame, Migr.pageCame_pages hpages, rfl, rfl⟩
  · rw [pagePresent_comes hp hrole hpages hpulls, hother]
  · refine (congrArg (List.map (Acc.pageCame part page s.now)) ha).trans ?_
    rw [List.map_singleton, Acc.pageCame, if_pos ⟨hst, hpart, hpa⟩]

/-- With the last page PULLED is sent. -/
theorem pagePresent_last (hphase : p.migr.phase = 4) : ∃ t q m, exec (.pagePresent part page) s = .next t ∧ t.part part = some { p with migr := q } ∧ q.pages = [] ∧
    q.phase = 5 ∧ t.out = s.out ++ [m] ∧ m.vf = 0 ∧ m.type_ = 8 ∧ field m.payload 0 4 = 0x14 := by
  obtain ⟨t, q, ht, hpart, hnone, hq, hsays⟩ := backgroundPull_done (s.pageCame_part part page p) hrole hphase (Migr.pageCame_pages hpages)
  obtain ⟨m, hout, hvf, hty, hop, -⟩ := hsays
  refine ⟨t, q, m, ?_, hpart, hnone, hq, hout, hvf, hty, hop⟩
  rw [pagePresent_comes hp hrole hpages hpulls, ht]
end

/-! ## The settlement -/

theorem Migr.free_iff (m : Migr) : m.free = true ↔ m.role = 0 ∨ (m.role = 2 ∧ m.phase = 5) := by simp [Migr.free]

/-- A partition that migrates takes neither ACCEPT nor START. -/
theorem Migr.free_of_migrating {m : Migr} (h : m.role = 1 ∨ (m.role = 2 ∧ m.phase ≠ 5)) : m.free = false := by
  rw [← Bool.not_eq_true, Migr.free_iff]
  omega

/-- The message that a failure sends to VF 0. -/
theorem failed_message {i : Instr} {s : State} {part reason : Nat} (h : ∃ t, exec i s = .next t ∧
    (∃ r, t.part part = some r ∧ r.migr = Migr.init ∧ r.codes = []) ∧ SaysTo s t 0x17 reason) :
    ∃ t m, exec i s = .next t ∧ (∃ r, t.part part = some r ∧ r.migr = Migr.init ∧ r.codes = []) ∧ t.out = s.out ++ [m] ∧ m.type_ = 8 ∧ field m.payload 0 4 = 0x17 ∧
      field m.payload 24 8 = reason % 2 ^ 64 := by
  obtain ⟨t, hstep, hpart, m, hout, -, hty, hop, hcount⟩ := h
  exact ⟨t, m, hstep, hpart, hout, hty, hop, hcount⟩

end Sys2Proof.Machine

namespace Sys2Proof
open Machine

/-- Settles O58: each message of VF 0 is one turn of the host port, each hello one answer, and each step of the source and of the destination follows the phase. -/
theorem migrationSteps : Obligations.MigrationSteps := by
  unfold Obligations.MigrationSteps
  refine ⟨?messages, ?hello, ?source, ?records, ?pages⟩
  case messages =>
    intro h m p s ht h0 hpart hpeer hport hpkg hp
    refine ⟨fun hbusy => ?_, fun hbusy => ?_, fun hbusy => ?_, fun hfree => ?_, fun hrole hphase hf => ?_, fun k hrole hphase hk hl => ?_⟩
    · have hmay := Migr.free_of_migrating hbusy
      exact ⟨migOp_busy ht h0 hpart hpeer hport hpkg hp (exec_migrateAccept s) hmay, migOp_busy ht h0 hpart hpeer hport hpkg hp (exec_migrateStart s) hmay⟩
    · exact migOp_busy (may := fun g => decide (g.role = 1) && decide (g.phase ≤ 3)) ht h0 hpart hpeer hport hpkg hp (exec_migrateAbort s) (by simpa using hbusy)
    · exact migOp_busy (may := fun g => decide (g.role = 1) && decide (g.phase = 6)) ht h0 hpart hpeer hport hpkg hp (exec_migrateRelease s) (by simpa using hbusy)
    · have hfree' := (Migr.free_iff p.migr).mpr hfree
      exact ⟨migrateAccept_done ht h0 hpart hpeer hport hpkg hp hfree', migrateStart_done ht h0 hpart hpeer hport hpkg hp hfree'⟩
    · exact migrateAbort_done ht h0 hpart hpeer hport hpkg hp hrole hphase hf
    · exact migrateRelease_done ht h0 hpart hpeer hport hpkg hp hrole hphase hk hl
  case hello =>
    intro k p s hp hnew hm
    exact ⟨fun g hg hfree => migrationHello_accepted hp hnew hm hg ((Migr.free_iff p.migr).mpr hfree), migrationHello_refused hp hnew hm⟩
  case source =>
    intro part p s hp hrole
    exact ⟨migrationFrozen_says hp hrole, migrationFrozen_other hp, graceExpiry_says hp hrole, graceExpiry_early hp, fun page x b hphase hpulls hx hm hb =>
      ⟨pageShip_waits hp hphase hpulls hx hb hrole, pageShip_ships hp hphase hpulls hx hb hrole hm⟩⟩
  case records =>
    intro part p s hp hrole hphase
    refine ⟨fun c => stateRecord_handle hp hrole hphase, fun q ls vfs ports parked hr hno => ?_, fun n hr hn => ?_,
      fun q hr htaken hfaults _ _ => stateRecord_installs hp hrole hphase hr htaken hfaults, fun hdue => ?_, stateRecordTimeout_early hp⟩
    · exact failed_message (stateRecord_mismatch hp hrole hphase hr hno)
    · exact failed_message (stateRecord_missing hp hrole hphase hr hn)
    · exact failed_message (stateRecordTimeout_fails hp hrole hphase hdue)
  case pages =>
    intro part page p s hp hrole hpages hpulls hm
    refine ⟨migrationResumed_says hp hrole hpages hpulls, fun a ha hpart hpa hbeats => ⟨pagePullRequest_other ha, pagePullRequest_sends hp hpulls hm ha hpart hpa hbeats⟩,
      fun a ha hst hpart hpa => pagePresent_access hp hrole hpages hpulls ha hst hpart hpa, fun ha hphase => pagePresent_last hp hrole hpages hpulls hphase⟩
end Sys2Proof
end
